-- ==== Sys2Proof/Word.lean ====
section
/-! DEFINITION. The word types of the RZ-9600 (00 R2, R4) and nothing else; their bit-field helpers stand in Machine/Bits.lean. -/

namespace Sys2Proof

/-- One byte. -/
abbrev Byte := BitVec 8
/-- One instruction word or one 32-bit register (02 R25, R47). -/
abbrev Word := BitVec 32
/-- One cue register (02 R47). -/
abbrev DWord := BitVec 64
/-- A 57-bit virtual address, the width of a PC (07 R147). -/
abbrev VAddr := BitVec 57
/-- A 9-bit cause code (13 R345). -/
abbrev Cause := BitVec 9

end Sys2Proof
end

