-- ==== Sys2Proof/Machine/Bits.lean ====
section
/-! DEFINITION. Bit fields, extensions, byte order and the cap arithmetic of 00 R2, R6 and 08 R195. -/

namespace Sys2Proof.Machine

/-- The field `x[hi:lo]` of R2. -/
def fld {w : Nat} (x : BitVec w) (hi lo : Nat) : BitVec (hi - lo + 1) := x.extractLsb' lo (hi - lo + 1)

/-- The field `x[hi:lo]` as a number. -/
def fldN {w : Nat} (x : BitVec w) (hi lo : Nat) : Nat := (x.toNat >>> lo) % 2 ^ (hi - lo + 1)

/-- One bit of a number, as a bit. -/
def natBit (x i : Nat) : Bool := x.testBit i

/-- `sext(x, n)` of R6 on numbers. -/
def sextN (x n : Nat) : Int :=
  if n = 0 then 0
  else
    let y := x % 2 ^ n
    if y < 2 ^ (n - 1) then (y : Int) else (y : Int) - (2 ^ n : Nat)

/-- An integer reduced to w bits (R5: a value is reduced where it is written). -/
def wrap (w : Nat) (x : Int) : BitVec w := BitVec.ofInt w x

/-- Clamp to an inclusive range (03 R75). -/
def clampI (x lo hi : Int) : Int := if x < lo then lo else if hi < x then hi else x

/-- Join two 32-bit registers into a 64-bit value (R2). -/
def join64 (lo hi : Word) : DWord := hi ++ lo

/-- The low register of a pair. -/
def lo32 (x : DWord) : Word := x.setWidth 32

/-- The high register of a pair. -/
def hi32 (x : DWord) : Word := (x >>> 32).setWidth 32

/-- A predicate bit from a Boolean. -/
def bit1 (b : Bool) : BitVec 1 := BitVec.ofBool b

/-- Little-endian number of a list of bytes (R2). -/
def leNat : List Byte → Nat
  | [] => 0
  | b :: bs => b.toNat + 256 * leNat bs

/-- The n low bytes of a number, little-endian (R2). -/
def leBytes : Nat → Nat → List Byte
  | 0, _ => []
  | n + 1, x => BitVec.ofNat 8 x :: leBytes n (x / 256)

/-- Big-endian number of a list of bytes: the message order of `cap` (R6). -/
def beNat (bs : List Byte) : Nat := bs.foldl (fun acc b => acc * 256 + b.toNat) 0

/-- One step of crc16 of R6: shift in the message bit `m`. -/
def crcStep (c : BitVec 16) (m : Bool) : BitVec 16 :=
  let c' := c <<< 1
  if c.getLsbD 15 != m then c' ^^^ 0x8BB7#16 else c'

/-- crc16 over the low n bits of m, from bit n-1 down to 0 (R6). -/
def crcBits (m : Nat) : Nat → BitVec 16 → BitVec 16
  | 0, c => c
  | n + 1, c => crcBits m n (crcStep c (m.testBit n))

/-- `crc16(m, n)` of R6. -/
def crc16 (m n : Nat) : BitVec 16 := crcBits m n 0#16

/-- `salt(pa)` of R6. -/
def salt (pa : Nat) : BitVec 16 := crc16 (pa / 16 % 2 ^ 48) 48

/-- `cap(g, pa)` of R6, for the 16 bytes of a granule in address order. -/
def capOf (g : List Byte) (pa : Nat) : BitVec 16 := crc16 (beNat g) 128 ^^^ salt pa

/-- The contribution of the bytes of a granule (R195): absent bytes are zero. -/
def contribution (g : List Byte) : BitVec 16 := crc16 (beNat g) 128

/-- Round a up to a multiple of m. -/
def roundUp (a m : Nat) : Nat := (a + m - 1) / m * m

/-- Ceiling division. -/
def ceilDiv (a m : Nat) : Nat := (a + m - 1) / m

/-- Population count of the low w bits. -/
def popcountN (x : Nat) : Nat → Nat
  | 0 => 0
  | n + 1 => (if x.testBit n then 1 else 0) + popcountN x n

/-- Number of 0 bits above the most significant 1 among the low n bits (n when there is none). -/
def clzN (x : Nat) : Nat → Nat
  | 0 => 0
  | n + 1 => if x.testBit n then 0 else 1 + clzN x n

/-- Number of 0 bits below the least significant 1, counting from bit i over n bits. -/
def ctzFrom (x i : Nat) : Nat → Nat
  | 0 => 0
  | n + 1 => if x.testBit i then 0 else 1 + ctzFrom x (i + 1) n

/-- The low n bits of x in reverse order. -/
def brevN (x : Nat) : Nat → Nat
  | 0 => 0
  | n + 1 => (if x.testBit 0 then 2 ^ n else 0) + brevN (x / 2) n

/-- The number whose bit i is f i, for i below n. -/
def bitsOf (f : Nat → Bool) : Nat → Nat
  | 0 => 0
  | n + 1 => (if f n then 2 ^ n else 0) + bitsOf f n

/-- The indices below n whose bit of m is 1, ascending. -/
def maskList (m n : Nat) : List Nat := (List.range n).filter (fun i => m.testBit i)

/-- A mask from a list of indices. -/
def maskOf (is : List Nat) (n : Nat) : BitVec n := BitVec.ofNat n (is.foldl (fun acc i => acc ||| 2 ^ i) 0)

/-- Element n of a list of bit vectors, zero beyond its end. -/
def nthZ {w : Nat} (l : List (BitVec w)) (n : Nat) : BitVec w := l.getD n 0

/-- Replace element n of a list (unchanged beyond its end). -/
def setNth {α : Type} (l : List α) (n : Nat) (x : α) : List α := l.set n x

end Sys2Proof.Machine
end

