-- ==== Sys2Proof/Machine/Flags.lean ====
section
/-! DEFINITION. Every flag computation of the spec: the bits of `%fpstat` (04 R96, R97), the rounding of an exact value with its flags (R99, R100), and the cue flags of a comparison (10 R265). -/

namespace Sys2Proof.Machine

/-- Flag bits of `%fpstat` (04 R96). -/
abbrev Flags := BitVec 7

def Flags.nv : Flags := 1
def Flags.dz : Flags := 2
def Flags.of : Flags := 4
def Flags.uf : Flags := 8
def Flags.nx : Flags := 16
def Flags.id : Flags := 32
def Flags.sat : Flags := 64

/-- A flag raised when the condition holds. -/
def Flags.when (c : Bool) (f : Flags) : Flags := if c then f else 0

/-- Sticky merge into `%fpstat` (04 R97); bits [31:7] read as zero (R96). -/
def fpMerge (st : Word) (f : Flags) : Word := st ||| f.setWidth 32

/-- An exact value: NaN (signalling or not), an infinity, or (-1)^neg · m · 2^e, where m = 0 is a signed zero. -/
inductive FVal where
  | nan (sig : Bool)
  | inf (neg : Bool)
  | fin (neg : Bool) (m : Nat) (e : Int)
  deriving DecidableEq, Repr

/-- A binary format of 04 R94: exponent and mantissa widths. -/
structure Fmt where
  ew : Nat
  mw : Nat
  deriving DecidableEq, Repr

def Fmt.f32 : Fmt := ⟨8, 23⟩
def Fmt.f16 : Fmt := ⟨5, 10⟩
def Fmt.bf16 : Fmt := ⟨8, 7⟩

def Fmt.bias (f : Fmt) : Nat := 2 ^ (f.ew - 1) - 1
def Fmt.width (f : Fmt) : Nat := 1 + f.ew + f.mw
/-- Exponent of the smallest normal. -/
def Fmt.emin (f : Fmt) : Int := 1 - (f.bias : Int)
/-- Exponent of the largest finite value. -/
def Fmt.emax (f : Fmt) : Int := f.bias
def Fmt.signBit (f : Fmt) (neg : Bool) : Nat := if neg then 2 ^ (f.ew + f.mw) else 0
def Fmt.infBits (f : Fmt) (neg : Bool) : Nat := f.signBit neg + (2 ^ f.ew - 1) * 2 ^ f.mw
def Fmt.maxBits (f : Fmt) (neg : Bool) : Nat := f.infBits neg - 1
/-- The canonical NaN (R95). -/
def Fmt.nanBits (f : Fmt) : Nat := f.infBits false + 2 ^ (f.mw - 1)

/-- The value of an encoding (R94, R95). -/
def Fmt.unpack (f : Fmt) (x : Nat) : FVal :=
  let neg := x.testBit (f.ew + f.mw)
  let e := x / 2 ^ f.mw % 2 ^ f.ew
  let m := x % 2 ^ f.mw
  if e = 2 ^ f.ew - 1 then (if m = 0 then .inf neg else .nan (decide (m < 2 ^ (f.mw - 1))))
  else if e = 0 then .fin neg m (f.emin - f.mw)
  else .fin neg (m + 2 ^ f.mw) ((e : Int) - f.bias - f.mw)

/-- Whether an encoding is subnormal (R94). -/
def Fmt.isSub (f : Fmt) (x : Nat) : Bool := x / 2 ^ f.mw % 2 ^ f.ew = 0 && x % 2 ^ f.mw != 0

/-- `fin(x)` of R100: a subnormal input flushed under `.ftz`, with ID. -/
def fIn (f : Fmt) (ftz : Bool) (x : Nat) : FVal × Flags :=
  if ftz && f.isSub x then (.fin (x.testBit (f.ew + f.mw)) 0 0, Flags.id) else (f.unpack x, 0)

/-- Rounding modes of R99: 0 nearest even, 1 towards zero, 2 up, 3 down. Whether the kept magnitude is incremented. -/
def roundInc (rm : Nat) (neg odd : Bool) (rem half : Nat) : Bool :=
  match rm with
  | 0 => decide (rem > half) || (decide (rem = half) && odd)
  | 1 => false
  | 2 => !neg && decide (rem ≠ 0)
  | _ => neg && decide (rem ≠ 0)

/-- Round m · 2^e to a multiple of 2^q: the multiple, and whether the value changed. -/
def roundTo (rm : Nat) (neg : Bool) (m : Nat) (e q : Int) : Nat × Bool :=
  if q ≤ e then (m * 2 ^ (e - q).toNat, false)
  else
    let d := (q - e).toNat
    if Nat.log2 m + 1 < d then (if roundInc rm neg false m (m + 1) then 1 else 0, decide (m ≠ 0))
    else
    let b := m / 2 ^ d
    let r := m % 2 ^ d
    (if roundInc rm neg (b % 2 = 1) r (2 ^ (d - 1)) then b + 1 else b, decide (r ≠ 0))

/-- The quantum at which a value of magnitude m · 2^e is rounded to mw + 1 significant bits. -/
def quantum (mw : Nat) (m : Nat) (e : Int) : Int := (Nat.log2 m : Int) + e - mw

/-- `fout(y, rm)` of R100 to a format, for an exact value: the bits, the overflow rule of R99, the flush, and the flags of R97. -/
def fOut (f : Fmt) (rm : Nat) (ftz : Bool) (v : FVal) : Nat × Flags :=
  match v with
  | .nan _ => (f.nanBits, 0)
  | .inf neg => (f.infBits neg, 0)
  | .fin neg m e =>
    if m = 0 then (f.signBit neg, 0)
    else
      let qu := quantum f.mw m e
      let u := (roundTo rm neg m e qu).1
      let tiny := decide ((Nat.log2 u : Int) + qu < f.emin)
      if tiny && ftz then (f.signBit neg, Flags.uf ||| Flags.nx)
      else if (Nat.log2 u : Int) + qu > f.emax then
        (match rm with
          | 0 => f.infBits neg
          | 1 => f.maxBits neg
          | 2 => if neg then f.maxBits neg else f.infBits neg
          | _ => if neg then f.infBits neg else f.maxBits neg, Flags.of ||| Flags.nx)
      else
        let q := max qu (f.emin - f.mw)
        let (r, ix) := roundTo rm neg m e q
        let bits :=
          if r = 0 then 0
          else if (Nat.log2 r : Int) + q < f.emin then r
          else ((Nat.log2 r : Int) + q + f.bias).toNat * 2 ^ f.mw + (r * 2 ^ f.mw / 2 ^ Nat.log2 r - 2 ^ f.mw)
        (f.signBit neg + bits, Flags.when ix Flags.nx ||| Flags.when (tiny && ix) Flags.uf)

/-- The four cue flags of a comparison of 64-bit values (10 R265) are single bits; this is the comparison by condition number. -/
def condHolds (cond : Nat) (a b : Int) (land : Nat) : Bool :=
  match cond with
  | 0 => a == b
  | 1 => a != b
  | 2 => decide (a < b)
  | 3 => decide (a ≤ b)
  | 4 => decide (a > b)
  | 5 => decide (a ≥ b)
  | 6 => land != 0
  | _ => land == 0

end Sys2Proof.Machine
end

