-- ==== Sys2Proof/Machine/Integer.lean ====
section
/-! DEFINITION. The integer, logic and bit computations of 03 on the operands of one lane. An operand is a number: a register, a pair or a group of registers in ascending order, least significant first. -/

namespace Sys2Proof.Machine

/-- An element type: width, element count, signedness, saturation. -/
structure ETy where
  w : Nat
  n : Nat
  sg : Bool
  sat : Bool
  deriving DecidableEq, Repr

/-- Table W of R77. -/
def tabW : Nat → ETy
  | 0 => ⟨32, 1, false, false⟩
  | 1 => ⟨64, 1, false, false⟩
  | 2 => ⟨16, 2, false, false⟩
  | 3 => ⟨8, 4, false, false⟩
  | 4 => ⟨32, 1, true, true⟩
  | 5 => ⟨32, 1, false, true⟩
  | 6 => ⟨16, 2, true, true⟩
  | _ => ⟨8, 4, true, true⟩

/-- Table T of R77. -/
def tabT : Nat → ETy
  | 0 => ⟨32, 1, true, false⟩
  | 1 => ⟨32, 1, false, false⟩
  | 2 => ⟨64, 1, true, false⟩
  | 3 => ⟨64, 1, false, false⟩
  | 4 => ⟨16, 2, true, false⟩
  | 5 => ⟨16, 2, false, false⟩
  | 6 => ⟨8, 4, true, false⟩
  | _ => ⟨8, 4, false, false⟩

/-- Table S of R77. -/
def tabS : Nat → ETy
  | 0 => ⟨32, 1, false, false⟩
  | 1 => ⟨64, 1, false, false⟩
  | 2 => ⟨16, 2, false, false⟩
  | _ => ⟨8, 4, false, false⟩

/-- Table B of R77: the width. -/
def tabB (m : Nat) : Nat := if m = 1 then 64 else 32

/-- Element k of a register of w-bit elements (R74). -/
def elemN (w k x : Nat) : Nat := x / 2 ^ (w * k) % 2 ^ w

/-- The value of an element under a signedness. -/
def elemI (t : ETy) (k x : Nat) : Int := if t.sg then sextN (elemN t.w k x) t.w else (elemN t.w k x : Int)

/-- Put elements side by side, from element k on. -/
def packFrom (w : Nat) (f : Nat → Int) (k : Nat) : Nat → Nat
  | 0 => 0
  | n + 1 => (f k % (2 ^ w : Nat)).toNat + 2 ^ w * packFrom w f (k + 1) n

/-- All elements of a type, reduced to the width (R75). -/
def packE (t : ETy) (f : Nat → Int) : Nat := packFrom t.w f 0 t.n

/-- Clamp when the form saturates (R75). -/
def satE (t : ETy) (x : Int) : Int :=
  if t.sat then
    if t.sg then clampI x (-(2 ^ (t.w - 1) : Nat)) ((2 ^ (t.w - 1) : Nat) - 1) else clampI x 0 ((2 ^ t.w : Nat) - 1)
  else x

/-- `add` (R79). -/
def aluAdd (mod a b _c : Nat) : Nat := let t := tabW mod; packE t fun k => satE t (elemI t k a + elemI t k b)
/-- `sub` (R79). -/
def aluSub (mod a b _c : Nat) : Nat := let t := tabW mod; packE t fun k => satE t (elemI t k a - elemI t k b)
/-- `mul` (R79). -/
def aluMul (mod a b _c : Nat) : Nat := let t := tabW mod; packE t fun k => satE t (elemI t k a * elemI t k b)
/-- `mad` (R79). -/
def aluMad (mod a b c : Nat) : Nat := let t := tabW mod; packE t fun k => satE t (elemI t k a * elemI t k b + elemI t k c)
/-- `mulh` (R80): the high half of the exact product. -/
def aluMulh (mod a b _c : Nat) : Nat := let t := tabT mod; packE t fun k => (elemI t k a * elemI t k b) / (2 ^ t.w : Nat)
/-- `madw` (R80). -/
def aluMadw (mod a b c : Nat) : Nat :=
  let t := tabT mod
  ((elemI t 0 a * elemI t 0 b + c) % (2 ^ 64 : Nat)).toNat
/-- `min` (R81). -/
def aluMin (mod a b _c : Nat) : Nat := let t := tabT mod; packE t fun k => min (elemI t k a) (elemI t k b)
/-- `max` (R81). -/
def aluMax (mod a b _c : Nat) : Nat := let t := tabT mod; packE t fun k => max (elemI t k a) (elemI t k b)
/-- Table W read signed, for `abs` and `neg` (R82). -/
def tabWs (mod : Nat) : ETy := { tabW mod with sg := true }
/-- `abs` (R82). -/
def aluAbs (mod a _b _c : Nat) : Nat := let t := tabWs mod; packE t fun k => satE t ((elemI t k a).natAbs : Int)
/-- `neg` (R82). -/
def aluNeg (mod a _b _c : Nat) : Nat := let t := tabWs mod; packE t fun k => satE t (-(elemI t k a))
/-- The absolute differences of `sad` (R83). -/
def sadFrom (t : ETy) (a b k : Nat) : Nat → Nat
  | 0 => 0
  | n + 1 => (elemI t k a - elemI t k b).natAbs + sadFrom t a b (k + 1) n
/-- `sad` (R83). -/
def aluSad (mod a b c : Nat) : Nat :=
  let t := tabT mod
  (c + sadFrom t a b 0 t.n) % 2 ^ (if t.w = 64 then 64 else 32)
/-- `dot4` (R84). -/
def aluDot4 (mod a b c : Nat) : Nat :=
  let ta : ETy := ⟨8, 4, mod % 4 = 0 || mod % 4 = 2, false⟩
  let tb : ETy := ⟨8, 4, mod % 4 = 0 || mod % 4 = 3, false⟩
  let un := mod % 4 = 1
  let t32 : ETy := ⟨32, 1, !un, decide (4 ≤ mod)⟩
  packE t32 fun _ => satE t32 (elemI t32 0 c + elemI ta 0 a * elemI tb 0 b + elemI ta 1 a * elemI tb 1 b
    + elemI ta 2 a * elemI tb 2 b + elemI ta 3 a * elemI tb 3 b)

/-- The shift amount of element k (R85): the whole 32-bit B at 32 and 64 bits. -/
def shAmt (t : ETy) (k b : Nat) : Nat := if t.n = 1 then b % 2 ^ 32 else elemN t.w k b
/-- `shl` (R85). -/
def aluShl (mod a b _c : Nat) : Nat :=
  let t := tabS mod
  packE t fun k => if shAmt t k b < t.w then (elemN t.w k a * 2 ^ shAmt t k b : Nat) else 0
/-- `shr` (R85). -/
def aluShr (mod a b _c : Nat) : Nat :=
  let t := tabS mod
  packE t fun k => if shAmt t k b < t.w then (elemN t.w k a / 2 ^ shAmt t k b : Nat) else 0
/-- `sar` (R85). -/
def aluSar (mod a b _c : Nat) : Nat :=
  let t := tabS mod
  packE t fun k => sextN (elemN t.w k a) t.w / ((2 ^ min (shAmt t k b) (t.w - 1) : Nat) : Int)
/-- `rot` (R85). -/
def aluRot (mod a b _c : Nat) : Nat :=
  let t := tabS mod
  packE t fun k =>
    let n := shAmt t k b % t.w
    let x := elemN t.w k a
    (x * 2 ^ n + x / 2 ^ (t.w - n) : Nat)
/-- `and` (R86). -/
def aluAnd (mod a b _c : Nat) : Nat := (a &&& b) % 2 ^ tabB mod
/-- `or` (R86). -/
def aluOr (mod a b _c : Nat) : Nat := (a ||| b) % 2 ^ tabB mod
/-- `xor` (R86). -/
def aluXor (mod a b _c : Nat) : Nat := (a ^^^ b) % 2 ^ tabB mod
/-- `not` (R86). -/
def aluNot (mod a _b _c : Nat) : Nat := 2 ^ tabB mod - 1 - a % 2 ^ tabB mod
/-- `bool3` (R87) with its truth table. -/
def aluBool3 (fn a b c : Nat) : Nat :=
  bitsOf (fun i => fn.testBit ((a.testBit i).toNat + 2 * (b.testBit i).toNat + 4 * (c.testBit i).toNat)) 32
/-- The clamped field (p, n) of a control value (R88). -/
def bfField (W b : Nat) : Nat × Nat :=
  let p := min (b % 256) W
  (p, min (b / 256 % 256) (W - p))
/-- `bfx` (R88). -/
def aluBfx (mod a b _c : Nat) : Nat :=
  let W := if mod ≥ 2 then 64 else 32
  let (p, n) := bfField W b
  let x := a / 2 ^ p % 2 ^ n
  if mod % 2 = 0 then x else (sextN x n % (2 ^ W : Nat)).toNat
/-- `bfi` (R88): A inserted into C. -/
def aluBfi (mod a b c : Nat) : Nat :=
  let W := tabB mod
  let (p, n) := bfField W b
  let c := c % 2 ^ W
  c - c / 2 ^ p % 2 ^ n * 2 ^ p + a % 2 ^ n * 2 ^ p
/-- `brev` (R89). -/
def aluBrev (mod a _b _c : Nat) : Nat := brevN a (tabB mod)
/-- `popc` (R89). -/
def aluPopc (mod a _b _c : Nat) : Nat := popcountN a (tabB mod)
/-- `clz` (R89). -/
def aluClz (mod a _b _c : Nat) : Nat := clzN a (tabB mod)
/-- `ctz` (R89). -/
def aluCtz (mod a _b _c : Nat) : Nat := ctzFrom a 0 (tabB mod)
/-- `cmp` (R90): the condition holds for every element. -/
def aluCmp (mod cond a b : Nat) : Bool :=
  let t := tabT mod
  (List.range t.n).all fun k => condHolds cond (elemI t k a) (elemI t k b) (elemN t.w k a &&& elemN t.w k b)
/-- `mov` (R92). -/
def aluMov (mod a _b _c : Nat) : Nat := a % 2 ^ tabB mod
/-- `movi` (R93): modifier and immediate. -/
def aluMovi (m : Nat) (imm : Word) : Nat := if m = 1 then (imm.signExtend 64).toNat else imm.toNat

end Sys2Proof.Machine
end

