-- ==== Sys2Proof/Machine/Float.lean ====
section
/-! DEFINITION. The floating-point computations of 04 on one lane's operands: exact arithmetic on FVal, then one rounding (R104 to R114), and the integer and float conversions of 05 R126. -/

namespace Sys2Proof.Machine

def FVal.isNan : FVal → Bool
  | .nan _ => true
  | _ => false
def FVal.isSig : FVal → Bool
  | .nan s => s
  | _ => false
def FVal.neg : FVal → FVal
  | .nan s => .nan s
  | .inf n => .inf (!n)
  | .fin n m e => .fin (!n) m e
/-- The sign of a value; a NaN has none. -/
def FVal.sign : FVal → Bool
  | .nan _ => false
  | .inf n => n
  | .fin n _ _ => n

/-- NV when any operand is a signalling NaN (R95). -/
def sigFlags (l : List FVal) : Flags := Flags.when (l.any FVal.isSig) Flags.nv

/-- The signed integer (-1)^neg · m scaled to exponent q ≤ e. -/
def scaled (neg : Bool) (m : Nat) (e q : Int) : Int :=
  let x : Int := (m * 2 ^ (e - q).toNat : Nat)
  if neg then -x else x

/-- Exact sum with the special cases of R104. -/
def fAdd (rm : Nat) (a b : FVal) : FVal × Flags :=
  match a, b with
  | .nan s, y => (.nan false, sigFlags [.nan s, y])
  | x, .nan s => (.nan false, sigFlags [x, .nan s])
  | .inf na, .inf nb => if na = nb then (.inf na, 0) else (.nan false, Flags.nv)
  | .inf na, .fin _ _ _ => (.inf na, 0)
  | .fin _ _ _, .inf nb => (.inf nb, 0)
  | .fin na ma ea, .fin nb mb eb =>
    let q := min ea eb
    let x := scaled na ma ea q + scaled nb mb eb q
    if x = 0 then (.fin (if ma = 0 && mb = 0 && na == nb then na else rm == 3) 0 0, 0)
    else (.fin (decide (x < 0)) x.natAbs q, 0)

/-- Exact product (R104). -/
def fMul (a b : FVal) : FVal × Flags :=
  match a, b with
  | .nan s, y => (.nan false, sigFlags [.nan s, y])
  | x, .nan s => (.nan false, sigFlags [x, .nan s])
  | .inf na, .inf nb => (.inf (na != nb), 0)
  | .inf na, .fin nb mb _ => if mb = 0 then (.nan false, Flags.nv) else (.inf (na != nb), 0)
  | .fin na ma _, .inf nb => if ma = 0 then (.nan false, Flags.nv) else (.inf (na != nb), 0)
  | .fin na ma ea, .fin nb mb eb => (.fin (na != nb) (ma * mb) (ea + eb), 0)

/-- Exact a · b + c (R104): 0 × inf is invalid whatever c is. -/
def fFma (rm : Nat) (a b c : FVal) : FVal × Flags :=
  let (p, f) := fMul a b
  let (r, g) := fAdd rm p c
  (r, f ||| g)

/-- Quotient of magnitudes to 64 bits beyond both operands, with a last bit that keeps an inexact remainder. -/
def divMag (ma mb : Nat) (ea eb : Int) : Nat × Int :=
  let s := 64 + Nat.log2 mb
  let x := ma * 2 ^ s
  (2 * (x / mb) + (if x % mb = 0 then 0 else 1), ea - eb - s - 1)

/-- Quotient (R111); the inexact ones carry a sticky last bit. -/
def fDiv (a b : FVal) : FVal × Flags :=
  match a, b with
  | .nan s, y => (.nan false, sigFlags [.nan s, y])
  | x, .nan s => (.nan false, sigFlags [x, .nan s])
  | .inf _, .inf _ => (.nan false, Flags.nv)
  | .inf na, .fin nb _ _ => (.inf (na != nb), 0)
  | .fin na _ _, .inf nb => (.fin (na != nb) 0 0, 0)
  | .fin na ma ea, .fin nb mb eb =>
    if mb = 0 then (if ma = 0 then (.nan false, Flags.nv) else (.inf (na != nb), Flags.dz))
    else let (m, e) := divMag ma mb ea eb; (.fin (na != nb) m e, 0)

/-- Integer square root by bits, from bit k-1 down. -/
def isqrtFrom (x r : Nat) : Nat → Nat
  | 0 => r
  | k + 1 => let r' := r + 2 ^ k; isqrtFrom x (if r' * r' ≤ x then r' else r) k

/-- Integer square root. -/
def isqrt (x : Nat) : Nat := isqrtFrom x 0 (Nat.log2 x / 2 + 1)

/-- Square root (R111), with a sticky last bit. -/
def fSqrt (a : FVal) : FVal × Flags :=
  match a with
  | .nan s => (.nan false, Flags.when s Flags.nv)
  | .inf n => if n then (.nan false, Flags.nv) else (.inf false, 0)
  | .fin n m e =>
    if m = 0 then (.fin n 0 0, 0)
    else if n then (.nan false, Flags.nv)
    else
      let odd := e % 2 ≠ 0
      let x := m * 2 ^ (if odd then 129 else 128)
      let e' : Int := (if odd then e - 1 else e) / 2 - 64
      let r := isqrt x
      (.fin false (2 * r + (if r * r = x then 0 else 1)) (e' - 1), 0)

/-- Order of two values that are not NaN; with `zs`, -0 is below +0 (R105). -/
def fLt (zs : Bool) (a b : FVal) : Bool :=
  match a, b with
  | .nan _, _ => false
  | _, .nan _ => false
  | .inf na, .inf nb => na && !nb
  | .inf na, .fin _ _ _ => na
  | .fin _ _ _, .inf nb => !nb
  | .fin na ma ea, .fin nb mb eb =>
    let q := min ea eb
    let x := scaled na ma ea q
    let y := scaled nb mb eb q
    decide (x < y) || (zs && ma = 0 && mb = 0 && na && !nb)

/-- Equality of values: zeros are equal. -/
def fEq (a b : FVal) : Bool := !a.isNan && !b.isNan && !fLt false a b && !fLt false b a

/-- The bits of a value that needs no rounding. -/
def f32Bits (v : FVal) : Nat := (fOut Fmt.f32 0 false v).1

/-- Rounding mode and flush of table R (R99). -/
def rmOf (mod : Nat) : Nat := mod % 4
def ftzOf (mod : Nat) : Bool := decide (4 ≤ mod)

/-- A computation on FP32 operands under table R. -/
def fop2 (mod a b : Nat) (op : FVal → FVal → FVal × Flags) : Nat × Flags :=
  let (x, f1) := fIn Fmt.f32 (ftzOf mod) a
  let (y, f2) := fIn Fmt.f32 (ftzOf mod) b
  let (v, f3) := op x y
  let (r, f4) := fOut Fmt.f32 (rmOf mod) (ftzOf mod) v
  (r, f1 ||| f2 ||| f3 ||| f4)

/-- `fadd` (R104). -/
def fpuAdd (mod a b _c : Nat) : Nat × Flags := fop2 mod a b (fAdd (rmOf mod))
/-- `fsub` (R104). -/
def fpuSub (mod a b _c : Nat) : Nat × Flags := fop2 mod a b fun x y => fAdd (rmOf mod) x y.neg
/-- `fmul` (R104). -/
def fpuMul (mod a b _c : Nat) : Nat × Flags := fop2 mod a b fMul
/-- `ffma` (R104). -/
def fpuFma (mod a b c : Nat) : Nat × Flags :=
  let (z, f) := fIn Fmt.f32 (ftzOf mod) c
  let (r, g) := fop2 mod a b fun x y => fFma (rmOf mod) x y z
  (r, f ||| g)
/-- `fdiv` (R111). -/
def fpuDiv (mod a b _c : Nat) : Nat × Flags := fop2 mod a b fDiv
/-- `fsqrt` (R111). -/
def fpuSqrt (mod a _b _c : Nat) : Nat × Flags := fop2 mod a 0 fun x _ => fSqrt x

/-- Number-mode or NaN-propagating selection between two values (R105). -/
def fPick (prop : Bool) (lt : FVal → FVal → Bool) (a b : FVal) : FVal × Flags :=
  let f := sigFlags [a, b]
  if a.isNan && b.isNan || prop && (a.isNan || b.isNan) then (.nan false, f)
  else if a.isNan then (b, f)
  else if b.isNan then (a, f)
  else (if lt a b then a else b, f)

/-- `fmin`, `fmax` (R105) under table M. -/
def fpuMinMax (mx : Bool) (mod a b : Nat) : Nat × Flags :=
  let (x, f1) := fIn Fmt.f32 (ftzOf mod) a
  let (y, f2) := fIn Fmt.f32 (ftzOf mod) b
  let (v, f3) := fPick (mod % 2 = 1) (fun p q => if mx then fLt true q p else fLt true p q) x y
  (f32Bits v, f1 ||| f2 ||| f3)

/-- `fcmp` (R106): the predicate and the flags. -/
def fpuCmp (mod cond a b : Nat) : Bool × Flags :=
  let (x, f1) := fIn Fmt.f32 (ftzOf mod) a
  let (y, f2) := fIn Fmt.f32 (ftzOf mod) b
  let nan := x.isNan || y.isNan
  let f3 := if mod % 2 = 1 then Flags.when nan Flags.nv else sigFlags [x, y]
  let r := match cond with
    | 0 => fEq x y
    | 1 => !fEq x y
    | 2 => fLt false x y
    | 3 => !nan && !fLt false y x
    | 4 => fLt false y x
    | 5 => !nan && !fLt false x y
    | 6 => !nan
    | _ => nan
  (r, f1 ||| f2 ||| f3)

/-- `fclass` (R107). -/
def fpuClass (a : Nat) : Nat :=
  match Fmt.f32.unpack a with
  | .nan s => if s then 2 ^ 8 else 2 ^ 9
  | .inf n => if n then 1 else 2 ^ 7
  | .fin n m _ =>
    if m = 0 then (if n then 2 ^ 3 else 2 ^ 4)
    else if Fmt.f32.isSub a then (if n then 2 ^ 2 else 2 ^ 5)
    else (if n then 2 else 2 ^ 6)

/-- `frnd` (R108). -/
def fpuRnd (mod a : Nat) : Nat × Flags :=
  let (x, f) := fIn Fmt.f32 (ftzOf mod) a
  match x with
  | .nan s => (Fmt.f32.nanBits, f ||| Flags.when s Flags.nv)
  | .inf n => (Fmt.f32.infBits n, f)
  | .fin n m e => (f32Bits (.fin n (roundTo (rmOf mod) n m e 0).1 0), f)

/-- `fscale` (R109). -/
def fpuScale (mod a b : Nat) : Nat × Flags :=
  let (x, f) := fIn Fmt.f32 (ftzOf mod) a
  match x with
  | .fin n m e =>
    let (r, g) := fOut Fmt.f32 (rmOf mod) (ftzOf mod) (.fin n m (if m = 0 then 0 else e + sextN b 32))
    (r, f ||| g)
  | v => (f32Bits v, f ||| sigFlags [v])

/-- `fclamp` (R110) under table F. -/
def fpuClamp (mod a b c : Nat) : Nat × Flags :=
  let (x, f1) := fIn Fmt.f32 (ftzOf mod) a
  let (lo, f2) := fIn Fmt.f32 (ftzOf mod) b
  let (hi, f3) := fIn Fmt.f32 (ftzOf mod) c
  let f := f1 ||| f2 ||| f3 ||| sigFlags [x, lo, hi]
  if x.isNan then (Fmt.f32.nanBits, f)
  else
    let x := if !lo.isNan && fLt true x lo then lo else x
    let x := if !hi.isNan && fLt true hi x then hi else x
    (f32Bits x, f)

/-- The packed format of table P (R99). -/
def packFmt (mod : Nat) : Fmt := if mod ≥ 4 then Fmt.bf16 else Fmt.f16

/-- A packed 16-bit operation (R114), per element; flags of both elements are merged (R97). -/
def fpuPacked (mod a b c : Nat) (op : FVal → FVal → FVal → FVal × Flags) : Nat × Flags :=
  let fm := packFmt mod
  let one := fun k =>
    let (v, f) := op (fm.unpack (elemN 16 k a)) (fm.unpack (elemN 16 k b)) (fm.unpack (elemN 16 k c))
    let (r, g) := fOut fm (rmOf mod) false v
    (r, f ||| g)
  ((one 0).1 + 2 ^ 16 * (one 1).1, (one 0).2 ||| (one 1).2)

/-- `cvtp` (05 R131). -/
def fpuCvtp (mod a b : Nat) : Nat × Flags :=
  let one := fun x =>
    let v := Fmt.f32.unpack x
    let (r, g) := fOut (packFmt mod) (rmOf mod) false v
    (r, sigFlags [v] ||| g)
  ((one a).1 + 2 ^ 16 * (one b).1, (one a).2 ||| (one b).2)

/-- The types of a conversion code (05 R126): 0 to 2 are formats, 3 to 6 integers. -/
def cvtFmt (t : Nat) : Fmt := if t = 0 then Fmt.f32 else if t = 1 then Fmt.f16 else Fmt.bf16
def cvtIsFloat (t : Nat) : Bool := decide (t < 3)
def cvtWidth (t : Nat) : Nat := if t = 1 ∨ t = 2 then 16 else if t = 5 ∨ t = 6 then 64 else 32
def cvtSigned (t : Nat) : Bool := t = 3 || t = 5

/-- The ends of an integer type. -/
def cvtEnds (t : Nat) : Int × Int :=
  let w := cvtWidth t
  if cvtSigned t then (-(2 ^ (w - 1) : Nat), (2 ^ (w - 1) : Nat) - 1) else (0, (2 ^ w : Nat) - 1)

/-- Float to integer (05 R126). -/
def cvtToInt (rm t : Nat) (v : FVal) : Int × Flags :=
  let (lo, hi) := cvtEnds t
  match v with
  | .nan _ => (0, Flags.nv)
  | .inf n => (if n then lo else hi, Flags.nv)
  | .fin n m e =>
    let (r, ix) := roundTo rm n m e 0
    let x : Int := scaled n r 0 0
    if x < lo then (lo, Flags.nv) else if hi < x then (hi, Flags.nv) else (x, Flags.when ix Flags.nx)

/-- `cvt` (05 R126) with its conversion code; `old` is the destination's previous value, kept in part by `.hi`. -/
def fpuCvt (mod code a old : Nat) : Nat × Flags :=
  let st := code / 16
  let dt := code / 2 % 8
  let h := code % 2
  let src := if cvtWidth st = 16 then elemN 16 h a else a % 2 ^ cvtWidth st
  let (raw, fl) : Nat × Flags :=
    if cvtIsFloat st then
      let (x, f1) := if st = 0 then fIn Fmt.f32 (ftzOf mod) src else ((cvtFmt st).unpack src, 0)
      if cvtIsFloat dt then
        let (r, g) := fOut (cvtFmt dt) (rmOf mod) false x
        (r, f1 ||| sigFlags [x] ||| g)
      else
        let (i, g) := cvtToInt (rmOf mod) dt x
        ((i % (2 ^ cvtWidth dt : Nat)).toNat, f1 ||| g)
    else
      let i : Int := if cvtSigned st then sextN src (cvtWidth st) else (src : Int)
      if cvtIsFloat dt then fOut (cvtFmt dt) (rmOf mod) false (.fin (decide (i < 0)) i.natAbs 0)
      else ((clampI i (cvtEnds dt).1 (cvtEnds dt).2 % (2 ^ cvtWidth dt : Nat)).toNat, 0)
  if cvtWidth dt = 16 then (if h = 1 then raw * 2 ^ 16 + old % 2 ^ 16 else raw, fl) else (raw, fl)

end Sys2Proof.Machine
end

