-- ==== Sys2Proof/Machine/Narrow.lean ====
section
/-! DEFINITION. Format slots (05 R115 to R119), scales (R122) and the conversion instructions' computations (R127 to R130). -/

namespace Sys2Proof.Machine

/-- Fields of a slot word (R115). -/
def slS (s : Word) : Nat := fldN s 0 0
def slEW (s : Word) : Nat := fldN s 3 1
def slMW (s : Word) : Nat := fldN s 6 4
def slBias (s : Word) : Int := sextN (fldN s 14 7) 8
def slSPC (s : Word) : Nat := fldN s 16 15
def slSCM (s : Word) : Nat := fldN s 19 17
def slBLK (s : Word) : Nat := fldN s 22 20
def slSCF (s : Word) : Nat := fldN s 24 23
def slSAT (s : Word) : Bool := s.getLsbD 25
/-- The width of the format (R115). -/
def slW (s : Word) : Nat := slS s + slEW s + slMW s
def slBound (s : Word) : Bool := s != 0
/-- Elements per 32-bit register: 8 for widths 2 to 4, 4 for widths 5 to 8 (R120). -/
def slGroup (s : Word) : Nat := if slW s ≤ 4 then 8 else 4
/-- Bits of a container (R120). -/
def slCell (s : Word) : Nat := if slW s ≤ 4 then 4 else 8
/-- Bytes of n elements. -/
def slBytes (s : Word) (n : Nat) : Nat := if slW s ≤ 4 then (n + 1) / 2 else n

/-- maxf of R118 as m · 2^e. -/
def slMax (s : Word) : Nat × Int :=
  let mw := slMW s
  let emax : Int := (2 ^ slEW s - 1 : Nat)
  if slEW s = 0 then (2 ^ mw - 1, -slBias s)
  else if slSPC s = 0 then (2 ^ (mw + 1) - 1, emax - slBias s - mw)
  else if slSPC s = 1 then (2 ^ (mw + 1) - 1, emax - 1 - slBias s - mw)
  else if mw = 0 then (1, emax - 1 - slBias s)
  else (2 ^ (mw + 1) - 2, emax - slBias s - mw)

/-- minp of R118 as a power of two: its exponent. -/
def slMinE (s : Word) : Int :=
  if slEW s = 0 then -slBias s else if slSPC s = 2 && slMW s = 0 then 1 - slBias s else 1 - slBias s - slMW s

/-- The checks of R116 on a bound slot word. -/
def slLegal (s : Word) : Bool :=
  fldN s 31 26 == 0 && decide (2 ≤ slW s) && decide (slW s ≤ 8)
    && decide (slSPC s < 3) && decide (slSCM s < 3) && decide (slBLK s < 4) && decide (slSCF s < 3)
    && !(decide (slEW s ≤ 1) && slSPC s != 0) && !(slSPC s == 1 && slMW s == 0)
    && !(slSCM s == 0 && (slBLK s != 0 || slSCF s != 0)) && !(slSCM s == 1 && slBLK s != 0)
    && (let (m, e) := slMax s; decide (m = 0 ∨ (Nat.log2 m : Int) + e < 128))
    && !(slEW s == 0 && slS s == 1 && decide ((slMW s : Int) - slBias s ≥ 128))
    && decide (-149 ≤ slMinE s)

/-- `decode(slot, bits)` (R118). -/
def slDecode (s : Word) (bits : Nat) : FVal :=
  let w := slW s
  let x := bits % 2 ^ w
  let mw := slMW s
  if slEW s = 0 then
    let n : Int := if slS s = 1 then sextN x w else (x : Int)
    .fin (decide (n < 0)) n.natAbs (-slBias s)
  else
    let neg := slS s = 1 && x.testBit (w - 1)
    let e := x / 2 ^ mw % 2 ^ slEW s
    let m := x % 2 ^ mw
    let emax := 2 ^ slEW s - 1
    if slSPC s = 1 && e = emax then (if m = 0 then .inf neg else .nan false)
    else if slSPC s = 2 && e = emax && m = 2 ^ mw - 1 then .nan false
    else if e = 0 then .fin neg m (1 - slBias s - mw)
    else .fin neg (2 ^ mw + m) ((e : Int) - slBias s - mw)

/-- The code of +maxf: one below the first special code. -/
def slMaxCode (s : Word) : Nat :=
  let top := 2 ^ (slEW s + slMW s)
  if slEW s = 0 || slSPC s = 0 then top - 1 else if slSPC s = 1 then top - 2 ^ slMW s - 1 else top - 2

/-- The code of a NaN (R119 step 1). -/
def slNan (s : Word) (sig : Bool) : Nat × Flags :=
  let emax := 2 ^ slEW s - 1
  if slSPC s = 1 then (emax * 2 ^ slMW s + 2 ^ (slMW s - 1), Flags.when sig Flags.nv)
  else if slSPC s = 2 then (emax * 2 ^ slMW s + (2 ^ slMW s - 1), Flags.when sig Flags.nv)
  else (0, Flags.nv)

/-- The code of the finite end of the range in a direction. -/
def slEnd (s : Word) (neg : Bool) : Nat :=
  if neg then (if slEW s = 0 then 2 ^ slMW s else 2 ^ (slW s - 1) + slMaxCode s) else slMaxCode s

/-- Rounding to nearest on a format's grid; a tie goes to the value whose code is even, which without mantissa bits is a matter of the exponent field (R119 step 3). -/
def slRound (s : Word) (neg : Bool) (m : Nat) (e q : Int) : Nat × Bool :=
  let n := roundTo 0 neg m e q
  if slEW s = 0 ∨ slMW s ≠ 0 then n
  else if (roundTo 1 neg m e q).1 = 1 ∧ roundTo 1 neg m e (q - 1) = (3, false) then (if (q + slBias s) % 2 = 0 then 1 else 2, true)
  else n

/-- `encode(slot, x)` (R119). -/
def slEncode (s : Word) (v : FVal) : Nat × Flags :=
  let sb := 2 ^ (slW s - 1)
  match v with
  | .nan sig => slNan s sig
  | .inf neg =>
    if neg && slS s = 0 then (0, Flags.sat)
    else if slSPC s = 1 && !slSAT s then ((if neg then sb else 0) + (2 ^ slEW s - 1) * 2 ^ slMW s, 0)
    else if slSPC s = 2 && !slSAT s then ((slNan s false).1, Flags.nv)
    else (slEnd s neg, Flags.sat)
  | .fin neg m e =>
    let bias := slBias s
    let mw := slMW s
    let isInt := slEW s = 0
    let q : Int := if isInt then -bias else max (quantum mw m e) (1 - bias - mw)
    let (r, ix) := if m = 0 then (0, false) else slRound s neg m e q
    let (xm, xe) := slMax s
    let ovf :=
      if neg && r != 0 then
        if slS s = 0 then true
        else if isInt then decide (r > 2 ^ mw)
        else decide (scaled false r q (min q xe) > scaled false xm xe (min q xe))
      else decide (scaled false r q (min q xe) > scaled false xm xe (min q xe))
    if ovf then
      if neg && slS s = 0 then (0, Flags.of ||| Flags.nx ||| Flags.sat)
      else if slSAT s || slSPC s = 0 then (slEnd s neg, Flags.of ||| Flags.nx ||| Flags.sat)
      else if slSPC s = 1 then ((if neg then sb else 0) + (2 ^ slEW s - 1) * 2 ^ mw, Flags.of ||| Flags.nx)
      else ((slNan s false).1, Flags.of ||| Flags.nx)
    else
      let fl := Flags.when ix Flags.nx
      if isInt then ((if neg then 2 ^ slW s - r else r) % 2 ^ slW s, fl)
      else
        let sub := r = 0 || decide ((Nat.log2 r : Int) + q < 1 - bias)
        let mag :=
          if r = 0 then 0
          else if sub then r
          else ((Nat.log2 r : Int) + q + bias).toNat * 2 ^ mw + (r * 2 ^ mw / 2 ^ Nat.log2 r - 2 ^ mw)
        ((if neg && slS s = 1 then sb else 0) + mag, fl ||| Flags.when (ix && sub) Flags.uf)

/-- The value of a scale code (R122); `none` is an invalid code. -/
def scaleVal (scf c : Nat) : Option FVal :=
  match scf with
  | 0 => if c % 256 = 255 then none else some (.fin false 1 (((c % 256 : Nat) : Int) - 127))
  | 1 =>
    let c := c % 256
    if c ≥ 128 || c = 0x7F || c = 0 then none
    else if c / 8 = 0 then some (.fin false c (-9)) else some (.fin false (8 + c % 8) ((c / 8 : Int) - 10))
  | _ =>
    let c := c % 2 ^ 16
    match Fmt.f16.unpack c with
    | .fin n m e => if n || m = 0 then none else some (.fin false m e)
    | _ => none

/-- Bytes of a scale container (R122). -/
def scaleSize (scf : Nat) : Nat := if scf = 2 then 2 else 1

/-- Block size of a slot (R123). -/
def slBlock (s : Word) : Nat := 8 * 2 ^ slBLK s

/-- `qto` of one element (R127). -/
def quantise (s : Word) (a sigma : Nat) : Nat × Flags :=
  let x := Fmt.f32.unpack a
  let (q, f1) := fDiv x (Fmt.f32.unpack sigma)
  let (c, f2) := slEncode s q
  (c % 2 ^ slW s, f1 ||| f2)

/-- `qfrom` of one element (R127). -/
def dequantise (s : Word) (mod c sigma : Nat) : Nat × Flags :=
  let (sg, f1) := fIn Fmt.f32 (ftzOf mod) sigma
  let (p, f2) := fMul (slDecode s c) sg
  let (r, f3) := fOut Fmt.f32 (rmOf mod) (ftzOf mod) p
  (r, f1 ||| f2 ||| f3)

/-- `qpack` (R128): a group of FP32 registers to one register of containers. -/
def qpackFrom (s : Word) (a sigma k : Nat) : Nat → Nat × Flags
  | 0 => (0, 0)
  | n + 1 =>
    let (c, f) := quantise s (elemN 32 k a) sigma
    let (r, g) := qpackFrom s a sigma (k + 1) n
    (c * 2 ^ (slCell s * k) + r, f ||| g)

/-- `qunpk` (R128): one register of containers to a group. -/
def qunpkFrom (s : Word) (mod a sigma k : Nat) : Nat → Nat × Flags
  | 0 => (0, 0)
  | n + 1 =>
    let (x, f) := dequantise s mod (a / 2 ^ (slCell s * k)) sigma
    let (r, g) := qunpkFrom s mod a sigma (k + 1) n
    (x * 2 ^ (32 * k) + r, f ||| g)

/-- `fsld` (R130). -/
def slotValue (s : Word) (what : Nat) : Nat :=
  if !slBound s then 0
  else match what with
    | 0 => s.toNat
    | 1 => let (m, e) := slMax s; f32Bits (.fin false m e)
    | 2 => f32Bits (.fin false 1 (slMinE s))
    | 3 => slW s
    | _ => if slSCM s = 2 then slBlock s else 0

/-- The shared scale of `bscl` (R129): the scale as its code, its FP32 value, and whether it was clamped at its top. `amax` is m · 2^e. -/
def sharedScale (s : Word) (m : Nat) (e : Int) : Nat × Nat × Bool :=
  let scf := slSCF s
  if m = 0 then (if scf = 0 then 127 else if scf = 1 then 0x38 else 0x3C00, 0x3F800000, false)
  else
    let (xm, xe) := slMax s
    let (tm, te) := divMag m xm e xe
    if scf = 0 then
      let k0 : Int := (Nat.log2 tm : Int) + te
      let k := if tm = 2 ^ Nat.log2 tm then k0 else k0 + 1
      let c := clampI k (-127) 127
      ((c + 127).toNat, f32Bits (.fin false 1 c), decide (127 < k))
    else if scf = 1 then
      let q := max (quantum 3 tm te) (-9)
      let r := (roundTo 2 false tm te q).1
      let top := decide (scaled false r q (-9) > 448 * 2 ^ 9)
      let (r, q) : Nat × Int := if top then (14, 5) else (r, q)
      let sub := decide ((Nat.log2 r : Int) + q < -6)
      let code := if sub then r else ((Nat.log2 r : Int) + q + 7).toNat * 8 + (r * 8 / 2 ^ Nat.log2 r - 8)
      (code, f32Bits (.fin false r q), top)
    else
      let (b, _) := fOut Fmt.f16 2 false (.fin false tm te)
      let top := b = Fmt.f16.infBits false
      let b := if top then 0x7BFF else b
      (b, f32Bits (Fmt.f16.unpack b), top)

/-- The NaN code of a scale format (R129). -/
def scaleNan (scf : Nat) : Nat := if scf = 0 then 0xFF else if scf = 1 then 0x7F else 0x7E00

end Sys2Proof.Machine
end

