-- ==== Sys2Proof/Syntax.lean ====
section
/-! DEFINITION. The instruction set as syntax: the word layouts of 02 R33 to R44 as structures of fields, and ONE inductive Instr with a constructor for every row of the opcode table: 115 warp instructions (R59), 92 cue instructions (R60), the illegal cells (R61) and the 80 event rows, which have no encoding and carry what the event is about. -/

namespace Sys2Proof

/-- The two code streams of a kernel (02 R25). -/
inductive Stream where
  | warp | cue
  deriving DecidableEq, Repr

/-- Where a write of the host goes: the module that it comes over (15 R421), and the stack, queue, register offset or PA. -/
structure HostPlace where
  module : Nat
  place : Nat
  deriving DecidableEq, Repr

/-- Word 0 of R33 with the V second word of R35. With `l = false` the second-word fields are those of the default word (R34). -/
structure VF where
  l : Bool
  d : BitVec 7
  a : BitVec 7
  b : BitVec 7
  pg : BitVec 3
  c : BitVec 7
  pa : BitVec 3
  pb : BitVec 3
  pc : BitVec 3
  look : BitVec 4
  pn : BitVec 1
  mod : BitVec 3
  ps : BitVec 1
  param : BitVec 7
  deriving DecidableEq, Repr

/-- Word 0 of R33 with the I second word of R36. -/
structure IF where
  l : Bool
  d : BitVec 7
  a : BitVec 7
  b : BitVec 7
  pg : BitVec 3
  imm : BitVec 32
  deriving DecidableEq, Repr

/-- Word 0 of R33 with the M second word of R37. -/
structure MF where
  l : Bool
  d : BitVec 7
  a : BitVec 7
  b : BitVec 7
  pg : BitVec 3
  look : BitVec 4
  obs : BitVec 7
  ordr : BitVec 3
  wid : BitVec 3
  fe : BitVec 2
  sx : BitVec 1
  ofs : BitVec 12
  deriving DecidableEq, Repr

/-- Word 0 of R33 with the MA second word of R38. -/
structure AF where
  l : Bool
  d : BitVec 7
  a : BitVec 7
  b : BitVec 7
  pg : BitVec 3
  look : BitVec 4
  obs : BitVec 7
  ordr : BitVec 3
  wid : BitVec 3
  aop : BitVec 6
  c : BitVec 7
  rsv : BitVec 2
  deriving DecidableEq, Repr

/-- Word 0 of R33 with the T second word of R39. -/
structure TF where
  l : Bool
  d : BitVec 7
  a : BitVec 7
  b : BitVec 7
  pg : BitVec 3
  look : BitVec 4
  tr : BitVec 4
  row0 : BitVec 8
  col0 : BitVec 8
  tok : BitVec 3
  rsv : BitVec 5
  deriving DecidableEq, Repr

/-- Word 0 of R41 with the QI second word of R42, or with no second word (`l = false`, `imm = 0`). -/
structure QF where
  l : Bool
  d : BitVec 6
  a : BitVec 6
  b : BitVec 6
  g : BitVec 3
  mod : BitVec 3
  imm : BitVec 32
  deriving DecidableEq, Repr

/-- Word 0 of R41 with the QM second word of R43. -/
structure QM where
  l : Bool
  d : BitVec 6
  a : BitVec 6
  b : BitVec 6
  g : BitVec 3
  mod : BitVec 3
  look : BitVec 4
  obs : BitVec 7
  ordr : BitVec 3
  wid : BitVec 3
  rsv : BitVec 3
  ofs : BitVec 12
  deriving DecidableEq, Repr

/-- Bytes that a coherence message carries, with the cap syndromes of the granules that they cover whole (14 R404). -/
structure Carried where
  bytes : List Byte
  caps : List (BitVec 16)
  deriving DecidableEq, Repr

/-- Word 0 of R41 with the QE second word of R44. -/
structure QE where
  l : Bool
  d : BitVec 6
  a : BitVec 6
  b : BitVec 6
  g : BitVec 3
  mod : BitVec 3
  tok : BitVec 3
  fsl : BitVec 3
  ta : BitVec 4
  tb : BitVec 4
  ac : BitVec 3
  opt : BitVec 15
  deriving DecidableEq, Repr

/-- Every row of the opcode table. -/
inductive Instr where
  -- warp instructions (02 R59)
  /-- `add`, warp 0x01 (R79). -/
  | add (f : VF)
  /-- `sub`, warp 0x02 (R79). -/
  | sub (f : VF)
  /-- `mul`, warp 0x03 (R79). -/
  | mul (f : VF)
  /-- `mulh`, warp 0x04 (R80). -/
  | mulh (f : VF)
  /-- `mad`, warp 0x05 (R79). -/
  | mad (f : VF)
  /-- `madw`, warp 0x06 (R80). -/
  | madw (f : VF)
  /-- `min`, warp 0x07 (R81). -/
  | min (f : VF)
  /-- `max`, warp 0x08 (R81). -/
  | max (f : VF)
  /-- `abs`, warp 0x09 (R82). -/
  | abs (f : VF)
  /-- `neg`, warp 0x0A (R82). -/
  | neg (f : VF)
  /-- `sad`, warp 0x0B (R83). -/
  | sad (f : VF)
  /-- `dot4`, warp 0x0C (R84). -/
  | dot4 (f : VF)
  /-- `shl`, warp 0x0D (R85). -/
  | shl (f : VF)
  /-- `shr`, warp 0x0E (R85). -/
  | shr (f : VF)
  /-- `sar`, warp 0x0F (R85). -/
  | sar (f : VF)
  /-- `rot`, warp 0x10 (R85). -/
  | rot (f : VF)
  /-- `and`, warp 0x11 (R86). -/
  | and (f : VF)
  /-- `or`, warp 0x12 (R86). -/
  | or (f : VF)
  /-- `xor`, warp 0x13 (R86). -/
  | xor (f : VF)
  /-- `not`, warp 0x14 (R86). -/
  | not (f : VF)
  /-- `bool3`, warp 0x15 (R87). -/
  | bool3 (f : VF)
  /-- `bfx`, warp 0x16 (R88). -/
  | bfx (f : VF)
  /-- `bfi`, warp 0x17 (R88). -/
  | bfi (f : VF)
  /-- `brev`, warp 0x18 (R89). -/
  | brev (f : VF)
  /-- `popc`, warp 0x19 (R89). -/
  | popc (f : VF)
  /-- `clz`, warp 0x1A (R89). -/
  | clz (f : VF)
  /-- `ctz`, warp 0x1B (R89). -/
  | ctz (f : VF)
  /-- `cmp`, warp 0x1C (R90). -/
  | cmp (f : VF)
  /-- `sel`, warp 0x1D (R91). -/
  | sel (f : VF)
  /-- `mov`, warp 0x1E (R92). -/
  | mov (f : VF)
  /-- `movi`, warp 0x1F (R93). -/
  | movi (f : IF)
  /-- `fadd`, warp 0x20 (R104). -/
  | fadd (f : VF)
  /-- `fsub`, warp 0x21 (R104). -/
  | fsub (f : VF)
  /-- `fmul`, warp 0x22 (R104). -/
  | fmul (f : VF)
  /-- `ffma`, warp 0x23 (R104). -/
  | ffma (f : VF)
  /-- `fmin`, warp 0x24 (R105). -/
  | fmin (f : VF)
  /-- `fmax`, warp 0x25 (R105). -/
  | fmax (f : VF)
  /-- `fcmp`, warp 0x26 (R106). -/
  | fcmp (f : VF)
  /-- `fclass`, warp 0x27 (R107). -/
  | fclass (f : VF)
  /-- `frnd`, warp 0x28 (R108). -/
  | frnd (f : VF)
  /-- `fscale`, warp 0x29 (R109). -/
  | fscale (f : VF)
  /-- `fclamp`, warp 0x2A (R110). -/
  | fclamp (f : VF)
  /-- `fdiv`, warp 0x2B (R111). -/
  | fdiv (f : VF)
  /-- `fsqrt`, warp 0x2C (R111). -/
  | fsqrt (f : VF)
  /-- `frcp`, warp 0x2D (R112). -/
  | frcp (f : VF)
  /-- `frsqrt`, warp 0x2E (R112). -/
  | frsqrt (f : VF)
  /-- `fexp2`, warp 0x2F (R112). -/
  | fexp2 (f : VF)
  /-- `flog2`, warp 0x30 (R112). -/
  | flog2 (f : VF)
  /-- `fsin`, warp 0x31 (R112). -/
  | fsin (f : VF)
  /-- `fcos`, warp 0x32 (R112). -/
  | fcos (f : VF)
  /-- `ftanh`, warp 0x33 (R112). -/
  | ftanh (f : VF)
  /-- `fsigm`, warp 0x34 (R112). -/
  | fsigm (f : VF)
  /-- `pfma`, warp 0x35 (R114). -/
  | pfma (f : VF)
  /-- `padd`, warp 0x36 (R114). -/
  | padd (f : VF)
  /-- `pmul`, warp 0x37 (R114). -/
  | pmul (f : VF)
  /-- `cvt`, warp 0x38 (R126). -/
  | cvt (f : VF)
  /-- `qto`, warp 0x39 (R127). -/
  | qto (f : VF)
  /-- `qfrom`, warp 0x3A (R127). -/
  | qfrom (f : VF)
  /-- `qpack`, warp 0x3B (R128). -/
  | qpack (f : VF)
  /-- `qunpk`, warp 0x3C (R128). -/
  | qunpk (f : VF)
  /-- `bscl`, warp 0x3D (R129). -/
  | bscl (f : VF)
  /-- `fsld`, warp 0x3E (R130). -/
  | fsld (f : VF)
  /-- `cvtp`, warp 0x3F (R131). -/
  | cvtp (f : VF)
  /-- `lsel`, warp 0x40 (R139). -/
  | lsel (f : VF)
  /-- `patld`, warp 0x41 (R140). -/
  | patld (f : VF)
  /-- `poll`, warp 0x42 (R141). -/
  | poll (f : VF)
  /-- `eqset`, warp 0x43 (R142). -/
  | eqset (f : VF)
  /-- `wred`, warp 0x44 (R145). -/
  | wred (f : VF)
  /-- `wscan`, warp 0x45 (R145). -/
  | wscan (f : VF)
  /-- `lead`, warp 0x46 (R143). -/
  | lead (f : VF)
  /-- `v2s`, warp 0x47 (R146). -/
  | v2s (f : VF)
  /-- `tfill`, warp 0x48 (R310). -/
  | tfill (f : TF)
  /-- `tread`, warp 0x49 (R310). -/
  | tread (f : TF)
  /-- `ld.g`, warp 0x50 (R204). -/
  | ldG (f : MF)
  /-- `st.g`, warp 0x51 (R204). -/
  | stG (f : MF)
  /-- `ld.l`, warp 0x52 (R204). -/
  | ldL (f : MF)
  /-- `st.l`, warp 0x53 (R204). -/
  | stL (f : MF)
  /-- `ld.c`, warp 0x54 (R204). -/
  | ldC (f : MF)
  /-- `st.c`, warp 0x55 (R204). -/
  | stC (f : MF)
  /-- `ld.p`, warp 0x56 (R204). -/
  | ldP (f : MF)
  /-- `st.p`, warp 0x57 (R204). -/
  | stP (f : MF)
  /-- `pf`, warp 0x58 (R205). -/
  | pf (f : MF)
  /-- `fe`, warp 0x59 (R206). -/
  | fe (f : MF)
  /-- `l1wb`, warp 0x5A (R207). -/
  | l1wb (f : MF)
  /-- `l1inv`, warp 0x5B (R207). -/
  | l1inv (f : MF)
  /-- `kvkey`, warp 0x5C (R208). -/
  | kvkey (f : VF)
  /-- `atom`, warp 0x60 (R234). -/
  | atom (f : AF)
  /-- `atomf`, warp 0x61 (R235). -/
  | atomf (f : AF)
  /-- `cas`, warp 0x62 (R236). -/
  | cas (f : AF)
  /-- `ldres`, warp 0x63 (R237). -/
  | ldres (f : MF)
  /-- `stcond`, warp 0x64 (R237). -/
  | stcond (f : MF)
  /-- `fence`, warp 0x65 (R238). -/
  | fence (f : MF)
  /-- `forage`, warp 0x66 (R239). -/
  | forage (f : MF)
  /-- `bar`, warp 0x67 (R240). -/
  | bar (f : MF)
  /-- `cntwt`, warp 0x68 (R243). -/
  | cntwt (f : MF)
  /-- `cntadd`, warp 0x69 (R242). -/
  | cntadd (f : MF)
  /-- `bra`, warp 0x6C (R165). -/
  | bra (f : IF)
  /-- `brx`, warp 0x6D (R166). -/
  | brx (f : VF)
  /-- `call`, warp 0x6E (R165). -/
  | call (f : IF)
  /-- `callx`, warp 0x6F (R166). -/
  | callx (f : VF)
  /-- `ret`, warp 0x70 (R167). -/
  | ret (f : VF)
  /-- `join`, warp 0x71 (R168). -/
  | join (f : IF)
  /-- `dqpop`, warp 0x72 (R171). -/
  | dqpop (f : VF)
  /-- `dqbr`, warp 0x73 (R172). -/
  | dqbr (f : VF)
  /-- `exit`, warp 0x74 (R382). -/
  | exit (f : VF)
  /-- `trap`, warp 0x75 (R383). -/
  | trap (f : VF)
  /-- `brk`, warp 0x76 (R384). -/
  | brk (f : VF)
  /-- `svc`, warp 0x77 (R385). -/
  | svc (f : VF)
  /-- `wake`, warp 0x78 (R386). -/
  | wake (f : VF)
  /-- `sreg`, warp 0x79 (R387). -/
  | sreg (f : VF)
  /-- `swreg`, warp 0x7A (R387). -/
  | swreg (f : VF)
  /-- `yield`, warp 0x7B (R388). -/
  | yield (f : VF)
  /-- `nop`, warp 0x7C (R388). -/
  | nop (f : VF)
  /-- `resume`, warp 0x7D (R389). -/
  | resume (f : VF)
  /-- `twait`, warp 0x7E (R390). -/
  | twait (f : VF)
  -- cue instructions (02 R60)
  /-- `cadd`, cue 0x01 (R262). -/
  | cadd (f : QF)
  /-- `csub`, cue 0x02 (R262). -/
  | csub (f : QF)
  /-- `cmul`, cue 0x03 (R262). -/
  | cmul (f : QF)
  /-- `cmulh`, cue 0x04 (R262). -/
  | cmulh (f : QF)
  /-- `cdiv`, cue 0x05 (R264). -/
  | cdiv (f : QF)
  /-- `cand`, cue 0x06 (R262). -/
  | cand (f : QF)
  /-- `cor`, cue 0x07 (R262). -/
  | cor (f : QF)
  /-- `cxor`, cue 0x08 (R262). -/
  | cxor (f : QF)
  /-- `cshl`, cue 0x09 (R262). -/
  | cshl (f : QF)
  /-- `cshr`, cue 0x0A (R262). -/
  | cshr (f : QF)
  /-- `csar`, cue 0x0B (R262). -/
  | csar (f : QF)
  /-- `cmin`, cue 0x0C (R262). -/
  | cmin (f : QF)
  /-- `cmax`, cue 0x0D (R262). -/
  | cmax (f : QF)
  /-- `cbfx`, cue 0x0E (R262). -/
  | cbfx (f : QF)
  /-- `cbfi`, cue 0x0F (R262). -/
  | cbfi (f : QF)
  /-- `cpopc`, cue 0x10 (R262). -/
  | cpopc (f : QF)
  /-- `cclz`, cue 0x11 (R262). -/
  | cclz (f : QF)
  /-- `cmov`, cue 0x12 (R262). -/
  | cmov (f : QF)
  /-- `cli`, cue 0x13 (R263). -/
  | cli (f : QF)
  /-- `ccmp`, cue 0x14 (R265). -/
  | ccmp (f : QF)
  /-- `csel`, cue 0x15 (R262). -/
  | csel (f : QF)
  /-- `cb`, cue 0x16 (R266). -/
  | cb (f : QF)
  /-- `cbx`, cue 0x17 (R267). -/
  | cbx (f : QF)
  /-- `ccall`, cue 0x18 (R266). -/
  | ccall (f : QF)
  /-- `cret`, cue 0x19 (R267). -/
  | cret (f : QF)
  /-- `cld`, cue 0x1A (R273). -/
  | cld (f : QM)
  /-- `cst`, cue 0x1B (R273). -/
  | cst (f : QM)
  /-- `catom`, cue 0x1C (R274). -/
  | catom (f : QM)
  /-- `cfence`, cue 0x1D (R275). -/
  | cfence (f : QM)
  /-- `dqpush`, cue 0x1E (R276). -/
  | dqpush (f : QF)
  /-- `launch`, cue 0x1F (R277). -/
  | launch (f : QE)
  /-- `wgbar`, cue 0x20 (R271). -/
  | wgbar (f : QF)
  /-- `cwait`, cue 0x21 (R278). -/
  | cwait (f : QF)
  /-- `cforage`, cue 0x22 (R275). -/
  | cforage (f : QM)
  /-- `cmig`, cue 0x23 (R269). -/
  | cmig (f : QF)
  /-- `cend`, cue 0x24 (R272). -/
  | cend (f : QF)
  /-- `cslot`, cue 0x25 (R280). -/
  | cslot (f : QF)
  /-- `wstat`, cue 0x26 (R280). -/
  | wstat (f : QF)
  /-- `tcfg`, cue 0x28 (R295). -/
  | tcfg (f : QE)
  /-- `tld`, cue 0x29 (R296). -/
  | tld (f : QE)
  /-- `tsd`, cue 0x2A (R296). -/
  | tsd (f : QE)
  /-- `tzero`, cue 0x2B (R297). -/
  | tzero (f : QE)
  /-- `arrw`, cue 0x2C (R299). -/
  | arrw (f : QE)
  /-- `arrmm`, cue 0x2D (R300). -/
  | arrmm (f : QE)
  /-- `arrmmg`, cue 0x2E (R301). -/
  | arrmmg (f : QE)
  /-- `arrdist`, cue 0x2F (R300). -/
  | arrdist (f : QE)
  /-- `arrbest`, cue 0x30 (R303). -/
  | arrbest (f : QE)
  /-- `arrcent`, cue 0x31 (R302). -/
  | arrcent (f : QE)
  /-- `adrain`, cue 0x32 (R304). -/
  | adrain (f : QE)
  /-- `adrainp`, cue 0x33 (R306). -/
  | adrainp (f : QE)
  /-- `adraine`, cue 0x34 (R307). -/
  | adraine (f : QE)
  /-- `azero`, cue 0x35 (R305). -/
  | azero (f : QE)
  /-- `aload`, cue 0x36 (R305). -/
  | aload (f : QE)
  /-- `txpose`, cue 0x37 (R297). -/
  | txpose (f : QE)
  /-- `bcp`, cue 0x40 (R322). -/
  | bcp (f : QE)
  /-- `bgat`, cue 0x41 (R328). -/
  | bgat (f : QE)
  /-- `bsca`, cue 0x42 (R329). -/
  | bsca (f : QE)
  /-- `bexp`, cue 0x43 (R330). -/
  | bexp (f : QE)
  /-- `bfill`, cue 0x44 (R326). -/
  | bfill (f : QE)
  /-- `bpeer`, cue 0x45 (R327). -/
  | bpeer (f : QE)
  /-- `mop`, cue 0x46 (R331). -/
  | mop (f : QE)
  /-- `xopen`, cue 0x47 (R334). -/
  | xopen (f : QE)
  /-- `xclose`, cue 0x48 (R336). -/
  | xclose (f : QE)
  /-- `slxp`, cue 0x49 (R332). -/
  | slxp (f : QE)
  /-- `rsvfill`, cue 0x4A (R338). -/
  | rsvfill (f : QE)
  /-- `rsvdrop`, cue 0x4B (R339). -/
  | rsvdrop (f : QE)
  /-- `rsvq`, cue 0x4C (R340). -/
  | rsvq (f : QE)
  /-- `kvdrop`, cue 0x4D (R341). -/
  | kvdrop (f : QE)
  /-- `kvprio`, cue 0x4E (R342). -/
  | kvprio (f : QE)
  /-- `rsvset`, cue 0x4F (R343). -/
  | rsvset (f : QE)
  /-- `ctrap`, cue 0x50 (R383). -/
  | ctrap (f : QF)
  /-- `cwake`, cue 0x51 (R386). -/
  | cwake (f : QF)
  /-- `csreg`, cue 0x52 (R387). -/
  | csreg (f : QF)
  /-- `cswreg`, cue 0x53 (R387). -/
  | cswreg (f : QF)
  /-- `cresume`, cue 0x54 (R389). -/
  | cresume (f : QF)
  /-- `iret`, cue 0x55 (R391). -/
  | iret (f : QF)
  /-- `chalt`, cue 0x56 (R392). -/
  | chalt (f : QF)
  /-- `ctxsv`, cue 0x57 (R393). -/
  | ctxsv (f : QE)
  /-- `ctxld`, cue 0x58 (R393). -/
  | ctxld (f : QE)
  /-- `tabort`, cue 0x59 (R394). -/
  | tabort (f : QF)
  /-- `tcommit`, cue 0x5A (R394). -/
  | tcommit (f : QF)
  /-- `csvc`, cue 0x5B (R385). -/
  | csvc (f : QM)
  /-- `tlbinv`, cue 0x5C (R414). -/
  | tlbinv (f : QE)
  /-- `ptwalk`, cue 0x5D (R415). -/
  | ptwalk (f : QE)
  /-- `pgdup`, cue 0x5E (R416). -/
  | pgdup (f : QE)
  /-- `pgcol`, cue 0x5F (R416). -/
  | pgcol (f : QE)
  /-- `pgsplit`, cue 0x60 (R416). -/
  | pgsplit (f : QE)
  /-- `pgjoin`, cue 0x61 (R416). -/
  | pgjoin (f : QE)
  /-- `pgmig`, cue 0x62 (R416). -/
  | pgmig (f : QE)
  /-- `dirq`, cue 0x63 (R417). -/
  | dirq (f : QE)
  /-- `dirset`, cue 0x64 (R417). -/
  | dirset (f : QE)
  /-- `hostinv`, cue 0x65 (R418). -/
  | hostinv (f : QE)
  -- event rows: steps of the device that no word encodes
  /-- A warp or cue instruction whose OP falls in a cell marked illegal in the opcode map raises 0x000 or 0x010 when it would issue, before any other field is checked. (R59) -/
  | illegalOpcode (cue : Bool) (word : Word)
  /-- A load or store completes, writing registers and checking caps. (R204) -/
  | memoryAccessCompletion (flight : Nat)
  /-- A special-function instruction completes and merges its flags into %fpstat. (R102) -/
  | vsfuCompletion (flight : Nat)
  /-- An atomic, ldres, stcond, forage or cntadd executes at its execution point. (R220) -/
  | executionPointOperation (flight : Nat)
  /-- Dirty L1 bytes are merged at their home, folding the cap. (R197) -/
  | writeBackMerge (core line : Nat)
  /-- An instruction-cache line arrives, making waiting threads ready. (R157) -/
  | fetchFill (wg : Nat) (va : Nat)
  /-- A return-address refill load completes and the ret transfers. (R161) -/
  | returnAddressRefill (flight : Nat)
  /-- A register line missing at resumption is refilled from the image. (R375) -/
  | contextLineRefill (wg line : Nat)
  /-- A parked wait-full load reads, and may clear, a granule once it is full. (R185) -/
  | fullEmptyServe (flight : Nat)
  /-- A cntwt leaves its park when every counter reaches its target. (R243) -/
  | counterWaitSatisfied (flight : Nat)
  /-- A parked dqpop or dqbr pops the entry that has arrived. (R171) -/
  | decisionQueuePop (wg warp : Nat)
  /-- A parked dqpush writes its entry once every named queue has room. (R276) -/
  | dqpushWrite (wg : Nat)
  /-- A free bulk engine takes the oldest queued command that may start. (R313) -/
  | engineCommandStart (cmd : Nat)
  /-- A queued array command starts when its ordering conditions hold. (R286) -/
  | arrayCommandStart (cmd : Nat)
  /-- The plane stage loads a stationary tile into the shadow plane when free. (R287) -/
  | planeLoad (cmd : Nat)
  /-- A streamed row's results are written 96 clk after it enters. (R308) -/
  | streamRowResult (cmd : Nat)
  /-- An engine command completes: L1s invalidate, locks are removed, token or counter advances. (R224) -/
  | commandCompletion (cmd : Nat)
  /-- An arrival counter rises once a 256-byte delivery unit is written. (R325) -/
  | deliveryUnitAdvance (cmd : Nat)
  /-- A tfill or tread completes, writing tile or registers and its token. (R311) -/
  | collectiveCompletion (flight : Nat)
  /-- An adrainp row arrives and is added into the target accumulator. (R306) -/
  | adrainpRowArrival (cmd : Nat)
  /-- A contribution reaches an exact group's slice and is accepted or rejected. (R335) -/
  | contributionAccept (cmd : Nat)
  /-- An xclose reaches the group's slice, reads the group and writes values. (R336) -/
  | xcloseAtSlice (cmd : Nat)
  /-- A walker walks the page tables for a TLB miss and fills the TLB. (R398) -/
  | tableWalk (core asid root : Nat) (va : Nat)
  /-- A held launch copies the child and appends it once the nest queue has room. (R255) -/
  | nestQueueAppend (wg : Nat)
  /-- The dispatcher clears a non-zero queue WAKE and reads WIDX. (R425) -/
  | queueServe (q : Nat)
  /-- A host launch entry is checked, copied and accepted, advancing RIDX. (R425) -/
  | launchEntryAccept (q : Nat)
  /-- A copy control block is accepted once its bulk queue has room. (R425) -/
  | copyBlockAccept (q : Nat)
  /-- A warp whose threads have all exited ends once its tokens read zero. (R159) -/
  | warpEnd (wg warp : Nat)
  /-- An all-exited thread-slice returns its lines once tokens read zero. (R159) -/
  | sliceLineReturn (wg warp slice : Nat)
  /-- A cue thread at cend ends after its pending work settles. (R272) -/
  | cueThreadEnd (wg : Nat)
  /-- A workgroup ends, flushes L1, commits any version and frees resources. (R253) -/
  | workgroupEnd (wg : Nat)
  /-- A grid retires after its workgroups and children, decrementing tokens and signalling. (R253) -/
  | gridRetirement (grid : Nat)
  /-- A requested pre-emption takes the workgroup once all stand at cuts. (R372) -/
  | taking (wg : Nat)
  /-- A taken workgroup's storage is written to its image when a newcomer needs it. (R372) -/
  | imageAreaWrite (wg : Nat)
  /-- A taken workgroup's live line is compressed and written to its image. (R375) -/
  | registerLineEviction (wg line : Nat)
  /-- A migration message arrives and the target core installs the context. (R379) -/
  | migrationMessage (wg : Nat) (intact : Bool)
  /-- The issuer's acquire finds DONE non-zero and writes the replies. (R367) -/
  | serviceReply (flight : Nat)
  /-- Once a slot frees, an entry with cause 0x1FE reports the dropped count. (R361) -/
  | errorQueueDropReport
  /-- A reservation registered 4,096 clk earlier is lost. (R221) -/
  | reservationTimeout
  /-- A parked join thread whose deadline is reached is released with p = 0. (R168) -/
  | joinDeadline
  /-- A yielding thread becomes ready again after 16 clk. (R388) -/
  | yieldExpiry
  /-- The dispatcher places a ready workgroup on a core that admits it. (R256) -/
  | workgroupPlacement
  /-- A ready grid placing nothing for 1 ms rises one in effective priority. (R256) -/
  | agingTick
  /-- A taken workgroup is admitted again and its threads start at their stubs. (R373) -/
  | resumption
  /-- After 1 ms unadmitted at its target, a migrated workgroup may resume anywhere. (R269) -/
  | migrationFallback
  /-- A taking not complete within PTIMEOUT posts 0x06A to 0x06D. (R374) -/
  | preemptionTimeout
  /-- No reply within the queue's TIMEOUT raises 0x1AB at the wait. (R367) -/
  | serviceTimeout
  /-- Every 10 µs column temperatures and headroom classes are refreshed. (R428) -/
  | sensorRefresh (cols dies : List (Nat × BitVec 16))
  /-- At each 10 µs interval the governor raises or lowers its hold. (R429) -/
  | governorInterval (power : Nat)
  /-- Hold 7 for 100 intervals with power above the limit posts 0x1F9. (R429) -/
  | governorHoldLimit
  /-- Two ms after alarm the die powers off and substitutes take its duties. (R430) -/
  | diePowerOff
  /-- A cooled die with DIEEN written returns and takes its duties back. (R431) -/
  | dieReturn
  /-- An uncorrectable comb line error refetches or poisons the line. (R194) -/
  | combLineError (line : Nat)
  /-- A unit failure or error event is logged or posted as a machine check. (R354) -/
  | machineCheckEvent (detail : BitVec 5) (addr : BitVec 64)
  /-- An uncorrectable directory entry is rebuilt by PROBE ALL. (R409) -/
  | directoryErrorRecovery (index : Nat) (sizeKnown : Bool)
  /-- Power-up start-up checks the part record and firmware, trains links and sets ready. (R432) -/
  | startUp (linksTrained hbmTrained : Bool) (cols dies : List (Nat × BitVec 16))
  /-- Writing ATTCTL GO signs the measurement and nonce and sets DONE. (R434) -/
  | attestation
  /-- A write ORs into a management core's wake register, releasing chalt. (R422) -/
  | mwakeWrite (stack : HostPlace) (value : BitVec 64)
  /-- A write ORs into a host queue's WAKE register. (R424) -/
  | queueWakeWrite (q : HostPlace) (value : BitVec 32)
  /-- Setting QCTL ENABLE checks the queue descriptor. (R424) -/
  | queueEnable
  /-- Clearing ENABLE discards unaccepted entries and sets RIDX to WIDX. (R424) -/
  | queueDisable
  /-- A written window share takes effect once no workgroup is resident in the cluster. (R422) -/
  | wshareUpdate
  /-- A write to a management register without behaviour of its own. (R422) -/
  | registerWrite (offset : HostPlace) (bytes : Nat) (value : BitVec 64)
  /-- A host read arrives over UCIe and is served at its home slice. (R406) -/
  | hostRead (pa n : Nat) (own : Bool)
  /-- A host write arrives over UCIe, gains a cap and is merged at home. (R421) -/
  | hostWrite (pa : HostPlace) (data : List Byte)
  /-- The home recalls a host line copy before merging a device write. (R407) -/
  | hostRecall (line : Nat) (dirty : Option (List Byte))
  /-- A coherence read message is served at the target's home slice. (R404) -/
  | readMsg (src pa n : Nat)
  /-- A coherence write message is served at the target's home slice. (R404) -/
  | writeMsg (src pa : Nat) (data : Carried)
  /-- A coherence atomic message is executed at the target's home slice. (R404) -/
  | atomicMsg (src pa wid : Nat) (float : Bool) (aop : BitVec 6) (operand : BitVec 64)
  /-- A grant installs a D or O copy entry with its SEQ and data. (R404) -/
  | grant (page : Nat) (owned : Bool) (seq : BitVec 16) (data : Option (List Byte)) (syndromes : List (BitVec 16))
  /-- A holder drops its copy, or answers STALE for an old SEQ. (R404) -/
  | probeInv (page : Nat) (seq : BitVec 16)
  /-- An owner returns its data and drops its copy. (R404) -/
  | probeRecall (page : Nat) (seq : BitVec 16)
  /-- A holder replaces its 2 MiB copy by up to 32 piece entries. (R405) -/
  | probeSplit (page : Nat) (seq : BitVec 16)
  /-- A receiver drops its copy, returning owned data, for directory recovery. (R409) -/
  | probeAll (page : Nat) (home : Nat)
  /-- The home counts an acknowledgement carrying the awaited SEQ. (R404) -/
  | ack (src page : Nat) (seq : BitVec 16) (data : Option Carried) (dropped : List Nat)
  /-- A transition command from another device runs at the page's home. (R405) -/
  | forwardedCommand (src : Nat) (op : BitVec 7) (pa : Nat) (operand : BitVec 64)
  /-- A Votan packet is received in LSEQ order, checked and decoded: its first flit, as header and the rest, and the flits after. (R410) -/
  | packet (port : Nat) (header rest : List Byte) (more : List (List Byte))
  /-- A NAK makes the sender resend the packet and all later ones. (R411) -/
  | nak (port : Nat) (lseq : BitVec 12)
  /-- Sixteen retries within 1 ms log 0x1EB. (R411) -/
  | linkRetryThreshold
  /-- A link goes down and traffic moves to other routes. (R411) -/
  | linkDown (port : Nat)
  /-- A link comes up and port choice by ROUTE may change. (R423) -/
  | linkUp (port : Nat)
  deriving DecidableEq, Repr

end Sys2Proof
end

