-- ==== Sys2Proof/Machine/Encoding.lean ====
section
/-! DEFINITION. The operand shapes of the warp instructions, their encoding causes (02 R32 class 0) and the registers they name (R48, R56). Shapes follow the encoding tables 03 R78, 04 R103, 05 R124, 06 R137, 07 R163, 08 R202, 09 R232, 11 R310, 13 R380. -/

namespace Sys2Proof

/-- Slot index of the C field (05 R124). -/
def VF.slot (f : VF) : Nat := f.c.toNat % 8

/-- MOD as a number. -/
def VF.m (f : VF) : Nat := f.mod.toNat

/-- Fields of word-0 B of an M instruction (02 R37). -/
def MF.sb (f : MF) : Nat := f.b.toNat / 4
def MF.ax (f : MF) : Bool := f.b.getLsbD 1
def MF.ub (f : MF) : Nat := f.b.toNat / 2
def MF.b3 (f : MF) : Bool := f.b.getLsbD 0

end Sys2Proof

namespace Sys2Proof.Machine

/-- A source field of a V-layout instruction. -/
inductive Src where
  /-- unused: field and selector zero -/
  | none
  /-- n consecutive registers read through the selector -/
  | vec (n : Nat)
  /-- n vector registers read with IDN only -/
  | fix (n : Nat)
  /-- a predicate number -/
  | pred
  /-- a field of bits that the entry defines; bits at or above the limit must be zero -/
  | raw (limit : Nat)
  /-- n uniform registers read directly -/
  | uni (n : Nat)
  deriving DecidableEq, Repr

/-- The destination field of a V-layout instruction. -/
inductive Dst where
  | none
  | vec (n : Nat)
  | pred
  /-- D[2:0] a predicate, D[5:3] a condition, D[6] zero -/
  | cond
  | uni (n : Nat)
  | table
  deriving DecidableEq, Repr

/-- The shape of a V-layout instruction. -/
structure VSpec where
  d : Dst
  a : Src
  b : Src
  c : Src
  /-- MOD (and operation code) defined -/
  modOk : Bool
  /-- long timing: LOOK may be non-zero -/
  long : Bool := false
  /-- guard must be always -/
  always : Bool := false
  /-- an entry-specific field limit is broken -/
  bad : Bool := false
  deriving DecidableEq, Repr

/-- Registers per element type width. -/
def ETy.regs (t : ETy) : Nat := if t.w = 64 then 2 else 1

/-- MOD sets of the float tables (04 R99). -/
def modF (m : Nat) : Bool := m = 0 || m = 4
def modM (m : Nat) : Bool := m % 4 < 2

/-- The segment field C names more lanes than the warp has (06 R137). -/
def segBad (W : Nat) (f : VF) : Bool := f.c.toNat % 8 ≠ 0 && decide (2 ^ (f.c.toNat % 8) > W)

/-- The conversion code of `cvt` is defined (05 R126). -/
def cvtOk (b : Nat) : Bool :=
  let st := b / 16
  let dt := b / 2 % 8
  st ≠ 7 && dt ≠ 7 && st ≠ dt && (b % 2 = 0 || st = 1 || st = 2 || dt = 1 || dt = 2)

/-- The shape of a V-layout warp instruction, given the warp width and the grid's slots. -/
def vSpec (W : Nat) (slot : Nat → Word) (i : Instr) : Option (VF × VSpec) :=
  let tw := fun (f : VF) => (tabW f.m).regs
  let tt := fun (f : VF) => (tabT f.m).regs
  let ts := fun (f : VF) => (tabS f.m).regs
  let tb := fun (f : VF) => if f.m = 1 then 2 else 1
  let bin := fun (f : VF) (n : Nat) (ok : Bool) => some (f, { d := .vec n, a := .vec n, b := .vec n, c := .none, modOk := ok : VSpec })
  let un := fun (f : VF) (n : Nat) (ok : Bool) => some (f, { d := .vec n, a := .vec n, b := .none, c := .none, modOk := ok : VSpec })
  let tri := fun (f : VF) (n : Nat) (ok : Bool) => some (f, { d := .vec n, a := .vec n, b := .vec n, c := .vec n, modOk := ok : VSpec })
  let sh := fun (f : VF) => some (f, { d := .vec (ts f), a := .vec (ts f), b := .vec 1, c := .none, modOk := decide (f.m < 4) : VSpec })
  let b2 := fun (f : VF) => decide (f.m < 2)
  let cnt := fun (f : VF) => some (f, { d := .vec 1, a := .vec (tb f), b := .none, c := .none, modOk := b2 f : VSpec })
  let fn := fun (f : VF) (ok : Bool) => some (f, { d := .vec 1, a := .vec 1, b := .none, c := .none, modOk := ok, long := true : VSpec })
  let grp := fun (f : VF) => if slBound (slot f.slot) then slGroup (slot f.slot) else 0
  let sys := fun (f : VF) (d : Dst) (a b : Src) => some (f, { d := d, a := a, b := b, c := .none, modOk := decide (f.m = 0) : VSpec })
  let red := fun (f : VF) (ok : Bool) =>
    let op := f.b.toNat % 16
    let wide := f.b.toNat / 16 % 2
    some (f, { d := .vec (1 + wide), a := .vec (1 + wide), b := .raw 32, c := .raw 8,
               modOk := ok && decide (op < 11) && !(wide = 1 && decide (8 ≤ op)), bad := segBad W f : VSpec })
  match i with
  | .add f => bin f (tw f) true
  | .sub f => bin f (tw f) true
  | .mul f => bin f (tw f) true
  | .mulh f => bin f (tt f) true
  | .mad f => tri f (tw f) true
  | .madw f => some (f, { d := .vec 2, a := .vec 1, b := .vec 1, c := .vec 2, modOk := b2 f })
  | .min f => bin f (tt f) true
  | .max f => bin f (tt f) true
  | .abs f => un f (tw f) (f.m ≠ 5)
  | .neg f => un f (tw f) (f.m ≠ 5)
  | .sad f => tri f (tt f) true
  | .dot4 f => tri f 1 true
  | .shl f => sh f
  | .shr f => sh f
  | .sar f => sh f
  | .rot f => sh f
  | .and f => bin f (tb f) (b2 f)
  | .or f => bin f (tb f) (b2 f)
  | .xor f => bin f (tb f) (b2 f)
  | .not f => un f (tb f) (b2 f)
  | .bool3 f =>
    let sel := fun (x : BitVec 3) => x.toNat ≠ 0 && x.toNat < 6
    some (f, { d := .vec 1, a := .vec 1, b := .vec 1, c := .vec 1, modOk := b2 f, bad := f.ps ≠ 0 || sel f.pa || sel f.pb || sel f.pc })
  | .bfx f =>
    let n := if f.m ≥ 2 then 2 else 1
    some (f, { d := .vec n, a := .vec n, b := .vec 1, c := .none, modOk := decide (f.m < 4) })
  | .bfi f => some (f, { d := .vec (tb f), a := .vec (tb f), b := .vec 1, c := .vec (tb f), modOk := b2 f })
  | .brev f => un f (tb f) (b2 f)
  | .popc f => cnt f
  | .clz f => cnt f
  | .ctz f => cnt f
  | .cmp f => some (f, { d := .cond, a := .vec (tt f), b := .vec (tt f), c := .none, modOk := true })
  | .sel f => some (f, { d := .vec (tb f), a := .vec (tb f), b := .vec (tb f), c := .pred, modOk := b2 f })
  | .mov f => un f (tb f) (b2 f)
  | .fadd f => bin f 1 true
  | .fsub f => bin f 1 true
  | .fmul f => bin f 1 true
  | .ffma f => tri f 1 true
  | .fmin f => bin f 1 (modM f.m)
  | .fmax f => bin f 1 (modM f.m)
  | .fcmp f => some (f, { d := .cond, a := .vec 1, b := .vec 1, c := .none, modOk := modM f.m })
  | .fclass f => un f 1 (f.m = 0)
  | .frnd f => un f 1 true
  | .fscale f => bin f 1 true
  | .fclamp f => tri f 1 (modF f.m)
  | .fdiv f => some (f, { d := .vec 1, a := .vec 1, b := .vec 1, c := .none, modOk := true, long := true })
  | .fsqrt f => fn f true
  | .frcp f => fn f (modF f.m)
  | .frsqrt f => fn f (modF f.m)
  | .fexp2 f => fn f (modF f.m)
  | .flog2 f => fn f (modF f.m)
  | .fsin f => fn f (modF f.m)
  | .fcos f => fn f (modF f.m)
  | .ftanh f => fn f (modF f.m)
  | .fsigm f => fn f (modF f.m)
  | .pfma f => tri f 1 true
  | .padd f => bin f 1 true
  | .pmul f => bin f 1 true
  | .cvt f =>
    let n := fun (t : Nat) => if t = 5 ∨ t = 6 then 2 else 1
    some (f, { d := .vec (n (f.b.toNat / 2 % 8)), a := .vec (n (f.b.toNat / 16)), b := .raw 128, c := .none, modOk := cvtOk f.b.toNat })
  | .qto f => some (f, { d := .vec 1, a := .vec 1, b := .vec 1, c := .raw 8, modOk := decide (f.m = 0) })
  | .qfrom f => some (f, { d := .vec 1, a := .vec 1, b := .vec 1, c := .raw 8, modOk := true })
  | .qpack f => some (f, { d := .vec 1, a := .vec (grp f), b := .vec 1, c := .raw 8, modOk := decide (f.m = 0) })
  | .qunpk f => some (f, { d := .vec (grp f), a := .vec 1, b := .vec 1, c := .raw 8, modOk := true })
  | .bscl f => some (f, { d := .vec 1, a := .vec 1, b := .none, c := .raw 8, modOk := b2 f })
  | .fsld f => some (f, { d := .vec 1, a := .none, b := .none, c := .raw 8, modOk := decide (f.m < 5) })
  | .cvtp f => bin f 1 true
  | .lsel f =>
    let n := if f.m ≥ 4 then 2 else 1
    some (f, { d := .vec n, a := .fix n, b := .vec 1, c := .raw 8, modOk := true, bad := segBad W f })
  | .patld f => some (f, { d := .table, a := .uni 8, b := .none, c := .none, modOk := decide (f.m = 0) })
  | .poll f =>
    some (f, { d := if f.m < 3 then .pred else if f.m = 3 then .vec (W / 32) else .vec 1, a := .pred, b := .raw 2, c := .none, modOk := decide (f.m < 6) })
  | .eqset f => some (f, { d := .vec (if f.m / 2 = 2 then 1 else W / 32), a := .vec (1 + f.m % 2), b := .none, c := .none, modOk := decide (f.m < 6) })
  | .wred f => red f (f.m = 0)
  | .wscan f => red f (b2 f)
  | .lead f => some (f, { d := .pred, a := .pred, b := .none, c := .none, modOk := b2 f })
  | .v2s f => some (f, { d := .uni (1 + f.m % 2), a := .vec (1 + f.m % 2), b := .none, c := .none, modOk := decide (f.m < 4) })
  | .kvkey f => some (f, { d := .none, a := .vec 1, b := .none, c := .none, modOk := decide (f.m = 0), bad := f.pa ≠ 6 })
  | .brx f => sys f .none (.vec 2) .none
  | .callx f => sys f .none (.vec 2) .none
  | .ret f => sys f .none .none .none
  | .dqpop f => some (f, { d := .uni 2, a := .none, b := .none, c := .none, modOk := decide (f.m = 0), always := true, bad := f.d.getLsbD 6 })
  | .dqbr f => some (f, { d := if f.m = 1 then .none else .uni 1, a := .none, b := .none, c := .none, modOk := b2 f, always := true, bad := f.d.getLsbD 6 })
  | .exit f => sys f .none .none .none
  | .trap f => sys f .none .none (.raw 32)
  | .brk f => sys f .none .none (.raw 8)
  | .svc f => some (f, { d := .vec 1, a := .fix (f.b.toNat / 16 % 4 + 1), b := .raw 64, c := .none, modOk := decide (f.m = 0), long := true })
  | .wake f => sys f .none (.vec 1) (.raw 64)
  | .sreg f => sys f (.vec (if f.b = 20 then 2 else 1)) .none (.raw 128)
  | .swreg f => sys f .none (.vec 1) (.raw 128)
  | .yield f => sys f .none .none .none
  | .nop f => sys f .none .none .none
  | .resume f => some (f, { d := .none, a := .none, b := .none, c := .none, modOk := b2 f, always := true })
  | .twait f => sys f .none .none (.raw 64)
  | _ => none

/-- A source field and its selector are legal (02 R32 reason 6, R52). -/
def Src.bad (s : Src) (x : BitVec 7) (sel : BitVec 3) : Bool :=
  match s with
  | .none => x ≠ 0 || sel ≠ 0
  | .vec _ => false
  | .fix _ => sel ≠ 0
  | .pred => sel ≠ 0 || decide (8 ≤ x.toNat)
  | .raw n => sel ≠ 0 || decide (n ≤ x.toNat)
  | .uni _ => sel ≠ 0

/-- A destination field is legal (R32 reason 6). -/
def Dst.bad (d : Dst) (x : BitVec 7) : Bool :=
  match d with
  | .none => x ≠ 0
  | .vec _ => false
  | .pred => decide (8 ≤ x.toNat)
  | .cond => decide (64 ≤ x.toNat)
  | .uni _ => false
  | .table => decide (3 ≤ x.toNat)

/-- Whether any source is read through a selector, so that PARAM and PS have a use. -/
def VSpec.reads (v : VSpec) : Bool :=
  match v.a, v.b, v.c with
  | .vec _, _, _ => true
  | _, .vec _, _ => true
  | _, _, .vec _ => true
  | _, _, _ => false

/-- Opcodes of the control chapter, whose unused PARAM and PS must be zero (07 R163). -/
def isCtl : Instr → Bool
  | .brx _ => true
  | .callx _ => true
  | .ret _ => true
  | .dqpop _ => true
  | .dqbr _ => true
  | _ => false

/-- A selector that uses PARAM (02 R50). -/
def selUses (x : BitVec 3) : Bool := x ≠ 0 && x.toNat < 6

/-- The class-0 reasons of a V-layout instruction, as (condition, reason) in ascending order. -/
def vReasons (i : Instr) (f : VF) (v : VSpec) : List (Bool × Nat) :=
  let p0 := f.param = 0 && f.ps = 0
  [(v.a.bad f.a f.pa || v.b.bad f.b f.pb || v.c.bad f.c f.pc || v.d.bad f.d || v.bad
      || (v.always && (f.pg ≠ 7 || f.pn ≠ 0)) || (f.ps = 1 && f.param.getLsbD 6)
      || (!v.reads && !p0) || (isCtl i && !p0 && !selUses f.pa), 6),
   (!v.modOk, 12), (f.look ≠ 0 && !v.long, 13)]

/-- What kind of data register an M-layout instruction's D is. -/
inductive MD where
  | zero | dest | data | both | test
  deriving DecidableEq, Repr

/-- How an M-layout instruction forms its address (08 R177, 09 R232). -/
inductive MA where
  /-- uniform base SB or a 64-bit pair (AX) -/
  | base
  /-- 32-bit sum of v(A), s(B[9:4]) and OFS -/
  | off
  /-- 64-bit sum of the pair v(A), s(B[9:4]) and OFS -/
  | pair
  | none
  deriving DecidableEq, Repr

/-- The shape of an M-layout instruction (08 R202, 09 R232). -/
structure MSpec where
  d : MD
  addr : MA
  wid : List Nat
  fe : List Nat
  ord : List Nat
  /-- SX allowed: 0 never, 1 on WID 0 and 1 only, 2 always -/
  sx : Nat
  bad : Bool := false
  deriving DecidableEq, Repr

def mSpec (i : Instr) : Option (MF × MSpec) :=
  let ld := fun (f : MF) (fe : List Nat) (a : MA) (o : List Nat) => some (f, { d := .dest, addr := a, wid := [0, 1, 2, 3, 4], fe := fe, ord := o, sx := 1 : MSpec })
  let st := fun (f : MF) (fe : List Nat) (a : MA) (o : List Nat) => some (f, { d := .data, addr := a, wid := [0, 1, 2, 3, 4], fe := fe, ord := o, sx := 0 : MSpec })
  let whole := fun (f : MF) => f.sx = 1 && (f.a ≠ 0 || f.b ≠ 0 || f.ofs ≠ 0)
  match i with
  | .ldG f => ld f [0] .base [0, 1, 2]
  | .stG f => st f [0] .base [0, 1, 3]
  | .ldL f => ld f [0, 1, 2] .off [0, 1, 2]
  | .stL f => st f [0, 3] .off [0, 1, 3]
  | .ldC f => ld f [0, 1, 2] .off [0, 1, 2]
  | .stC f => st f [0, 3] .off [0, 1, 3]
  | .ldP f => ld f [0] .off [0]
  | .stP f => st f [0] .off [0]
  | .pf f => some (f, { d := .zero, addr := .base, wid := [2], fe := [0], ord := [0], sx := 2 })
  | .fe f => some (f, { d := .test, addr := .off, wid := [2], fe := [0, 1, 2, 3], ord := [0, 1, 2, 3, 4], sx := 2 })
  | .l1wb f => some (f, { d := .zero, addr := .base, wid := [2], fe := [0], ord := [0], sx := 2, bad := whole f })
  | .l1inv f => some (f, { d := .zero, addr := .base, wid := [2], fe := [0], ord := [0], sx := 2, bad := whole f })
  | .ldres f => some (f, { d := .dest, addr := .pair, wid := [2, 3, 4], fe := [0], ord := [0, 1, 2], sx := 0 })
  | .stcond f => some (f, { d := .both, addr := .pair, wid := [2, 3, 4], fe := [0], ord := [0, 1, 3], sx := 0 })
  | .fence f => some (f, { d := .zero, addr := .none, wid := [2], fe := [0], ord := [2, 3, 4], sx := 0, bad := f.a ≠ 0 || f.b ≠ 0 || f.ofs ≠ 0 })
  | .forage f => some (f, { d := .dest, addr := .pair, wid := [4], fe := [0], ord := [0, 1, 2, 3, 4], sx := 0 })
  | .bar f => some (f, { d := .zero, addr := .none, wid := [2], fe := [0], ord := [0, 4], sx := 0, bad := f.a ≠ 0 || decide (16 ≤ f.ofs.toNat) || f.pg ≠ 7 })
  | .cntwt f => some (f, { d := .data, addr := .off, wid := [3], fe := [0], ord := [0, 1, 2], sx := 2 })
  | .cntadd f => some (f, { d := .data, addr := .off, wid := [2, 3], fe := [0], ord := [0, 1, 3, 4], sx := 2 })
  | _ => none

/-- The class-0 reasons of an M-layout instruction, ascending. -/
def mReasons (i : Instr) (f : MF) (v : MSpec) : List (Bool × Nat) :=
  let o := f.ordr.toNat
  let dz := v.d = .zero || (v.d = .test && (f.fe = 1 || f.fe = 3))
  let needL := match i with
    | .fence _ => true
    | _ => false
  [((f.sx = 1 && (v.sx = 0 || (v.sx = 1 && decide (2 ≤ f.wid.toNat)))) || (dz && f.d ≠ 0) || (o = 0 && f.obs ≠ 0) || f.b3
      || (v.addr = .base && f.ax && f.sb ≠ 0) || v.bad, 6),
   (decide (5 ≤ o), 7), (!v.wid.contains f.wid.toNat, 8), (!v.fe.contains f.fe.toNat, 9),
   ((o ≠ 0 || (needL && f.l)) && f.obs = 0, 11), (needL && !f.l, 14), (decide (o < 5) && !v.ord.contains o, 15)]

/-- The widths of the MA instructions (09 R232). -/
def aSpec (i : Instr) : Option (AF × List Nat × Bool) :=
  match i with
  | .atom f => some (f, [2, 3], decide (f.aop.toNat % 32 < 11))
  | .atomf f => some (f, [2], decide (f.aop.toNat % 32 < 5))
  | .cas f => some (f, [2, 3, 4], f.aop = 0)
  | _ => none

def isCas : Instr → Bool
  | .cas _ => true
  | _ => false

/-- The class-0 reasons of an MA-layout instruction (02 R38, 09 R234 to R236); one word has no second word whose fields could be wrong (02 R34). -/
def aReasons (i : Instr) (f : AF) (wids : List Nat) (aopOk : Bool) : List (Bool × Nat) :=
  if !f.l then [(true, 14)]
  else [(f.rsv ≠ 0 || (!isCas i && f.c ≠ 0) || (!isCas i && f.aop.getLsbD 5 && f.d ≠ 0), 6), (decide (5 ≤ f.ordr.toNat), 7),
   (!wids.contains f.wid.toNat, 8), (f.obs = 0, 11), (!aopOk, 12)]

/-- The I-layout instructions: modifier limit (07 R163, 03 R93). -/
def iSpec (i : Instr) : Option (IF × Nat × Bool) :=
  match i with
  | .movi f => some (f, 3, false)
  | .bra f => some (f, 1, f.d ≠ 0)
  | .call f => some (f, 1, f.d ≠ 0)
  | .join f => some (f, 1, decide (8 ≤ f.d.toNat))
  | _ => none

def tSpec (i : Instr) : Option TF :=
  match i with
  | .tfill f => some f
  | .tread f => some f
  | _ => none

/-- The class-0 reasons of a T-layout instruction (02 R39, 11 R310). -/
def tReasons (f : TF) : List (Bool × Nat) :=
  [(f.rsv ≠ 0 || decide (4 ≤ f.a.toNat) || f.a = 3 || decide (16 ≤ f.b.toNat), 6), (f.tok = 7, 10), (f.look ≠ 0, 13), (!f.l, 14)]

/-- The first reason that holds. -/
def firstReason : List (Bool × Nat) → Option Nat
  | [] => none
  | (c, n) :: r => if c then some n else firstReason r

/-- The encoding cause of a warp instruction (R32): the lowest reason; `none` when it has none. -/
def warpEnc (W : Nat) (i : Instr) : Option Nat :=
  match vSpec W (fun _ => 0) i, mSpec i, aSpec i, iSpec i, tSpec i with
  | some (f, v), _, _, _, _ => firstReason (vReasons i f v)
  | _, some (f, v), _, _, _ => firstReason (mReasons i f v)
  | _, _, some (f, w, ok), _, _ => firstReason (aReasons i f w ok)
  | _, _, _, some (f, lim, bad), _ => firstReason [(f.a ≠ 0 || bad, 6), (decide (lim ≤ f.b.toNat), 12), (!f.l, 14)]
  | _, _, _, _, some f => firstReason (tReasons f)
  | _, _, _, _, _ => none

/-- Registers per lane of an access width (02 R37). -/
def widRegs (w : Nat) : Nat := if w = 4 then 4 else if w = 3 then 2 else 1

/-- The registers an instruction names: read and written, by class; `pend` are data registers that stay pending as sources of a long instruction (R56). -/
structure Use where
  rv : List Nat := []
  wv : List Nat := []
  rs : List Nat := []
  ws : List Nat := []
  rp : List Nat := []
  wp : List Nat := []
  pend : List Nat := []
  rc : List Nat := []
  wc : List Nat := []
  rg : List Nat := []
  wg : List Nat := []
  tiles : List Nat := []
  accs : List Nat := []
  /-- cue registers that must be even (0x024), and pairs of uniform registers that must be -/
  even : List Nat := []
  /-- selectors of value 7, of PAT with table 3, or of BCL beyond the warp are checked on these -/
  sels : List Nat := []
  deriving DecidableEq, Repr

/-- n consecutive numbers. -/
def run (r n : Nat) : List Nat := (List.range n).map (r + ·)

/-- Vector and uniform registers of a source field under its selector (R48, R50). DESIGN CHOICE: the selector of a group is among those checked whether or not its format's slot is bound (log 81). -/
def Src.use (s : Src) (x : BitVec 7) (sel : BitVec 3) : Use :=
  match s with
  | .vec n =>
    if sel = 6 then (if x.toNat < 64 then { rs := run x.toNat n, sels := [6] } else { sels := [6] })
    else { rv := run x.toNat n, sels := [sel.toNat] }
  | .fix n => { rv := run x.toNat n }
  | .pred => { rp := [x.toNat] }
  | .uni n => { rs := run x.toNat n }
  | _ => {}

def Dst.use (d : Dst) (x : BitVec 7) : Use :=
  match d with
  | .vec n => { wv := run x.toNat n }
  | .pred => { wp := [x.toNat] }
  | .cond => { wp := [x.toNat % 8] }
  | .uni n => { ws := run x.toNat n }
  | _ => {}

/-- Union of uses. -/
def Use.join (a b : Use) : Use :=
  { rv := a.rv ++ b.rv, wv := a.wv ++ b.wv, rs := a.rs ++ b.rs, ws := a.ws ++ b.ws, rp := a.rp ++ b.rp, wp := a.wp ++ b.wp,
    pend := a.pend ++ b.pend, rc := a.rc ++ b.rc, wc := a.wc ++ b.wc, rg := a.rg ++ b.rg, wg := a.wg ++ b.wg,
    tiles := a.tiles ++ b.tiles, accs := a.accs ++ b.accs, even := a.even ++ b.even, sels := a.sels ++ b.sels }

/-- Address registers of an M instruction; a zero field names none (08 R177). -/
def mAddrUse (f : MF) (a : MA) : Use :=
  let v := fun n => if f.a = 0 then [] else run f.a.toNat n
  match a with
  | .base => if f.ax then { rv := v 2 } else { rv := v 1, rs := if f.sb = 0 then [] else run (2 * f.sb) 2 }
  | .off => { rv := v 1, rs := if f.ub = 0 then [] else [f.ub] }
  | .pair => { rv := v 2, rs := if f.ub = 0 then [] else [f.ub] }
  | .none => {}

/-- The registers a warp instruction names. -/
def warpUse (W : Nat) (slot : Nat → Word) (i : Instr) : Use :=
  match vSpec W slot i, mSpec i, aSpec i, iSpec i, tSpec i with
  | some (f, v), _, _, _, _ =>
    let ps := if v.reads && f.ps = 1 then [f.param.toNat % 64] else []
    let extra : Use := match i with
      | .sel _ => {}
      | .wake _ => { rs := [f.b.toNat % 64] }
      | .svc _ => { pend := run f.a.toNat (f.b.toNat / 16 % 4 + 1) }
      | .dqpop _ => { even := [f.d.toNat] }
      | _ => {}
    ((v.d.use f.d).join ((v.a.use f.a f.pa).join ((v.b.use f.b f.pb).join (v.c.use f.c f.pc)))).join
      (extra.join { rs := ps, rp := [f.pg.toNat] })
  | _, some (f, v), _, _, _ =>
    let n := widRegs f.wid.toNat
    let d : Use := match v.d with
      | .zero => {}
      | .dest => { wv := run f.d.toNat n }
      | .data => { rv := run f.d.toNat n, pend := run f.d.toNat n }
      | .both => { rv := run f.d.toNat n, wv := [f.d.toNat], pend := run f.d.toNat n }
      | .test => if f.fe = 0 || f.fe = 2 then { wv := [f.d.toNat] } else {}
    let b : Use := match i with
      | .bar _ => if f.ub = 0 then {} else { rs := [f.ub] }
      | _ => {}
    (d.join (mAddrUse f v.addr)).join (b.join { rp := [f.pg.toNat] })
  | _, _, some (f, _, _), _, _ =>
    let n := widRegs f.wid.toNat
    { rv := run f.a.toNat 2 ++ run f.b.toNat n ++ (if isCas i then run f.c.toNat n else []),
      wv := if f.aop.getLsbD 5 && !isCas i then [] else run f.d.toNat n,
      pend := run f.b.toNat n ++ (if isCas i then run f.c.toNat n else []), rp := [f.pg.toNat] }
  | _, _, _, some (f, _, _), _ =>
    let d : Use := match i with
      | .movi _ => { wv := run f.d.toNat (if f.b = 0 then 1 else 2) }
      | .join _ => { wp := [f.d.toNat % 8] }
      | _ => {}
    d.join { rp := [f.pg.toNat] }
  | _, _, _, _, some f =>
    let r := run f.d.toNat (f.b.toNat % 16 + 1)
    match i with
    | .tfill _ => { rv := r, tiles := [f.tr.toNat], rp := [f.pg.toNat] }
    | _ => { wv := r, tiles := [f.tr.toNat], rp := [f.pg.toNat] }
  | _, _, _, _, _ => {}

/-- Engine class of a warp opcode (02 R40): 0 VALU, 1 VMEM, 2 VSFU, 3 neutral. -/
def warpClass (i : Instr) : Nat :=
  match mSpec i, aSpec i, tSpec i, iSpec i with
  | some _, _, _, _ => 1
  | _, some _, _, _ => 1
  | _, _, some _, _ => 1
  | _, _, _, some _ => match i with
    | .movi _ => 0
    | _ => 3
  | _, _, _, _ => match i with
    | .kvkey _ => 1
    | .fdiv _ => 2
    | .fsqrt _ => 2
    | .frcp _ => 2
    | .frsqrt _ => 2
    | .fexp2 _ => 2
    | .flog2 _ => 2
    | .fsin _ => 2
    | .fcos _ => 2
    | .ftanh _ => 2
    | .fsigm _ => 2
    | .brx _ => 3
    | .callx _ => 3
    | .ret _ => 3
    | .dqpop _ => 3
    | .dqbr _ => 3
    | .exit _ => 3
    | .trap _ => 3
    | .brk _ => 3
    | .svc _ => 3
    | .wake _ => 3
    | .sreg _ => 3
    | .swreg _ => 3
    | .yield _ => 3
    | .nop _ => 3
    | .resume _ => 3
    | .twait _ => 3
    | _ => 0

/-- A cell of an opcode map without an instruction (R61). -/
def isIllegal : Instr → Bool
  | .illegalOpcode _ _ => true
  | _ => false

/-- LOOK of a warp instruction, when its timing is long (R55). -/
def warpLook (i : Instr) : Option Nat :=
  match vSpec 32 (fun _ => 0) i, mSpec i, aSpec i with
  | some (f, v), _, _ => if v.long then some f.look.toNat else none
  | _, some (f, _), _ => some f.look.toNat
  | _, _, some (f, _, _) => some f.look.toNat
  | _, _, _ => none

/-- Whether a warp instruction fits a clause of class ENG (R28). -/
def warpEngOk (eng : Nat) (i : Instr) : Bool := eng = 3 || warpClass i = 3 || warpClass i = eng

end Sys2Proof.Machine
end

