-- ==== Sys2Proof/Machine/CueEncoding.lean ====
section
/-! DEFINITION. The operand shapes of the cue instructions, their encoding causes (02 R32 class 0, R41 to R45) and the registers they name (R48, R49, R56). Shapes follow the encoding tables 10 R260, 11 R290, 12 R319, 13 R380, 14 R413. -/

namespace Sys2Proof

/-- OPT fields of the copy form (12 R320). -/
def QE.optN (f : QE) (hi lo : Nat) : Nat := Machine.fldN f.opt hi lo
def QE.typ (f : QE) : Nat := f.optN 2 0
def QE.dtyp (f : QE) : Nat := f.optN 5 3
def QE.ssp (f : QE) : Nat := f.optN 9 8
def QE.dsp (f : QE) : Nat := f.optN 11 10
def QE.tr (f : QE) : Bool := f.opt.getLsbD 6
def QE.sat (f : QE) : Bool := f.opt.getLsbD 7
def QE.mc (f : QE) : Bool := f.opt.getLsbD 12
def QE.cnt (f : QE) : Bool := f.opt.getLsbD 13

end Sys2Proof

namespace Sys2Proof.Machine

/-- A 6-bit register field of a cue instruction. -/
inductive CF where
  /-- must be zero -/
  | zero
  /-- anything: a register, or bits that the entry defines -/
  | any
  /-- bits below a limit -/
  | lim (n : Nat)
  deriving DecidableEq, Repr

def CF.bad (c : CF) (x : BitVec 6) : Bool :=
  match c with
  | .zero => x ≠ 0
  | .any => false
  | .lim n => decide (n ≤ x.toNat)

/-- The second word of a cue instruction (R45). -/
inductive CL where
  | never | maybe | must
  deriving DecidableEq, Repr

def CL.bad (c : CL) (l : Bool) : Bool :=
  match c with
  | .never => l
  | .maybe => false
  | .must => !l

/-- The shape of an instruction with a QI second word or none. -/
structure QSpec where
  l : CL
  d : CF := .zero
  a : CF := .zero
  b : CF := .zero
  mods : Nat := 1
  bad : Bool := false
  deriving DecidableEq, Repr

/-- Scalar instructions (10 R262): with L = 1 the immediate replaces source B, whose field must be 0 (R42). -/
def qAlu (f : QF) (a : CF) (mods : Nat) : Option (QF × QSpec) :=
  some (f, { l := .maybe, d := .any, a := a, b := if f.l then .zero else .any, mods := mods })
/-- An instruction of one word. -/
def qOne (f : QF) (d a b : CF) (mods : Nat) : Option (QF × QSpec) := some (f, { l := .never, d := d, a := a, b := b, mods := mods })

/-- The shapes of 10 R260 and 13 R380. -/
def qSpec (i : Instr) : Option (QF × QSpec) :=
  match i with
  | .cadd f => qAlu f .any 3
  | .csub f => qAlu f .any 3
  | .cmul f => qAlu f .any 1
  | .cmulh f => qAlu f .any 2
  | .cdiv f => qAlu f .any 2
  | .cand f => qAlu f .any 1
  | .cor f => qAlu f .any 1
  | .cxor f => qAlu f .any 1
  | .cshl f => qAlu f .any 1
  | .cshr f => qAlu f .any 1
  | .csar f => qAlu f .any 1
  | .cmin f => qAlu f .any 2
  | .cmax f => qAlu f .any 2
  | .cbfx f => qAlu f .any 2
  | .cbfi f => qAlu f .any 1
  | .cpopc f => qAlu f .zero 1
  | .cclz f => qAlu f .zero 1
  | .cmov f => qAlu f .zero 1
  | .cli f => qAlu f (if f.l then .zero else .any) 3
  | .ccmp f => (qAlu f .any 2).map fun (f, v) => (f, { v with bad := f.d.getLsbD 2 })
  | .csel f => qAlu f .any 8
  | .cb f => some (f, { l := .must })
  | .ccall f => some (f, { l := .must })
  | .cbx f => qOne f .zero .any .zero 2
  | .cret f => qOne f .zero .zero .zero 1
  | .dqpush f => qOne f .zero .any .any 1
  | .wgbar f => qOne f .zero (if f.mod = 1 then .zero else .lim 16) .zero 2
  | .cwait f => qOne f .zero .zero .any 1
  | .cmig f => qOne f .zero .any .zero 2
  | .cend f => qOne f .zero .zero .zero 1
  | .cslot f => qOne f .any (.lim 8) .zero 5
  | .wstat f => qOne f .any .zero .zero 5
  | .ctrap f => qOne f .zero .zero (.lim 32) 1
  | .cwake f => qOne f .zero .any .any 1
  | .csreg f => qOne f .any .zero .any 1
  | .cswreg f => qOne f .zero .any .any 1
  | .cresume f => qOne f .zero .zero .zero 2
  | .iret f => qOne f .zero .zero .zero 1
  | .chalt f => qOne f (if f.mod = 0 then .any else .zero) (if f.mod = 1 then .any else .zero) .zero 2
  | .tabort f => qOne f .zero .any .zero 1
  | .tcommit f => qOne f .zero .any .zero 1
  | _ => none

/-- The reasons of an instruction with a QI second word or none, ascending. -/
def qReasons (f : QF) (v : QSpec) : List (Bool × Nat) :=
  [(v.d.bad f.d || v.a.bad f.a || v.b.bad f.b || v.bad, 6), (decide (v.mods ≤ f.mod.toNat), 12), (decide (5 ≤ f.g.toNat), 13), (v.l.bad f.l, 14)]

/-- The shape of a QM instruction: register fields, offset, widths, MOD and orders. -/
structure QMSpec where
  l : CL := .must
  d : CF := .any
  a : CF := .any
  b : CF := .zero
  bad : Bool := false
  wid : List Nat
  modOk : Bool
  ord : List Nat
  /-- OBS must be non-zero even when ORDR is 0 -/
  obs : Bool := false
  /-- OBS is of no use to the instruction -/
  noObs : Bool := false
  deriving DecidableEq, Repr

/-- The shapes of 10 R273 to R275 and 13 R380. -/
def qmSpec (i : Instr) : Option (QM × QMSpec) :=
  match i with
  | .cld f => some (f, { l := .maybe, wid := [0, 1, 2, 3, 4], modOk := f.mod = 0 || (f.mod = 1 && decide (f.wid.toNat < 3)), ord := [0, 1, 2] })
  | .cst f => some (f, { l := .maybe, wid := [0, 1, 2, 3, 4], modOk := f.mod = 0, ord := [0, 1, 3] })
  | .catom f =>
    let op := f.ofs.toNat % 32
    let nr := f.ofs.getLsbD 5
    some (f, { b := .any, wid := if f.mod = 2 then [2] else [2, 3], ord := [0, 1, 2, 3, 4], obs := true,
               bad := decide (64 ≤ f.ofs.toNat) || (f.mod = 1 && f.ofs ≠ 0) || (f.mod ≠ 1 && nr && f.d ≠ 0),
               modOk := (f.mod = 0 && decide (op < 11)) || f.mod = 1 || (f.mod = 2 && decide (op < 5)) })
  | .cfence f => some (f, { d := .zero, a := .zero, bad := f.ofs ≠ 0 || (f.ordr = 0 && f.obs ≠ 0), wid := [3], modOk := f.mod = 0, ord := [2, 3, 4], obs := true })
  | .cforage f => some (f, { wid := [4], modOk := f.mod = 0, ord := [0, 1, 2, 3, 4] })
  | .csvc f => some (f, { bad := decide (64 ≤ f.ofs.toNat) || f.obs ≠ 0 || f.ordr ≠ 0, wid := [3], modOk := f.mod = 0, ord := [0], noObs := true })
  | _ => none

/-- The reasons of a QM instruction (R43), ascending. -/
def qmReasons (f : QM) (v : QMSpec) : List (Bool × Nat) :=
  let o := f.ordr.toNat
  [(v.d.bad f.d || v.a.bad f.a || v.b.bad f.b || v.bad || f.rsv ≠ 0 || (o = 0 && f.obs ≠ 0 && !v.obs && !v.noObs), 6),
   (decide (5 ≤ o), 7), (!v.wid.contains f.wid.toNat, 8), ((o ≠ 0 || v.obs) && f.obs = 0 && !v.noObs, 11), (!v.modOk, 12),
   (decide (5 ≤ f.g.toNat), 13), (v.l.bad f.l, 14), (decide (o < 5) && !v.ord.contains o, 15)]

/-- The shape of a QE instruction: register fields, the fields of the second word in use, OPT's bits and codes. -/
structure QESpec where
  d : CF := .zero
  a : CF := .zero
  b : CF := .zero
  mods : Nat := 1
  fsl : Bool := false
  ta : Bool := false
  tb : Bool := false
  ac : Bool := false
  opt : Nat := 0
  /-- an OPT code that is not defined -/
  badCode : Bool := false
  /-- an OPT field that must be zero -/
  bad : Bool := false
  deriving DecidableEq, Repr

/-- A command with a copy-form OPT. -/
def qeCopy (f : QE) (opt : Nat) (d b : CF) (mods : Nat) (fsl : Bool) : QESpec :=
  { d := d, a := .any, b := b, mods := mods, fsl := fsl, opt := opt,
    badCode := (opt.testBit 10 && f.dsp = 3) || (opt.testBit 8 && f.ssp = 3) }

/-- The shapes of 10 R260, 11 R290, 12 R319, R320, 13 R380 and 14 R413. -/
def qeSpec (i : Instr) : Option (QE × QESpec) :=
  let t3 := fun (f : QE) => f.mod = 3
  match i with
  | .launch f => some (f, { d := .any, a := .any })
  | .tcfg f => some (f, { a := .any, ta := true })
  | .tld f => some (f, { a := .any, b := .any, mods := 3, ta := true })
  | .tsd f => some (f, { a := .any, b := .any, mods := 3, ta := true })
  | .tzero f => some (f, { ta := true })
  | .arrw f => some (f, { tb := true })
  | .arrmm f => some (f, { a := .any, ta := true, tb := true, ac := true, opt := 1 })
  | .arrmmg f => some (f, { a := .any, b := .any, ta := true, opt := 0x7FFF })
  | .arrdist f => some (f, { a := .any, ta := true, tb := true, ac := true, opt := 3 })
  | .arrbest f => some (f, { a := .any, b := .any, ac := true, opt := 0x7FFF })
  | .arrcent f => some (f, { a := .any, ta := true, tb := true, ac := true, opt := 0x7FF3 })
  | .adrain f => some (f, { d := .any, a := .any, b := if t3 f && f.typ ≠ 3 then .zero else .any, mods := 4, ta := t3 f, ac := true, fsl := f.typ = 3, opt := 0xF, badCode := decide (3 < f.typ) })
  | .adrainp f => some (f, { d := .any, a := .any, b := .any, ac := true, opt := 1 })
  | .adraine f => some (f, { d := .any, a := .any, b := .any, ac := true })
  | .azero f => some (f, { d := if f.mod = 1 then .any else .zero, mods := 2, ac := true })
  | .aload f => some (f, { d := .any, a := .any, b := if t3 f then .zero else .any, mods := 4, ta := t3 f, ac := true, opt := 0xF, badCode := decide (2 < f.typ) })
  | .txpose f => some (f, { ta := true, tb := true })
  | .bcp f => some (f, qeCopy f 0x3FFF (if f.mc then .any else .zero) .zero 1 (f.typ = 0 || f.dtyp = 0))
  | .bgat f => some (f, qeCopy f 0x2F87 .zero .any 3 (f.typ = 0))
  | .bsca f =>
    let v := qeCopy f 0x0FBF .zero .any 3 (f.typ = 0)
    some (f, { v with badCode := v.badCode || decide (3 ≤ f.dtyp), bad := f.dtyp = 2 && f.dsp ≠ 0 })
  | .bexp f =>
    let v := qeCopy f 0x2FB7 .zero .any 2 (f.typ = 0)
    some (f, { v with badCode := v.badCode || f.optN 5 4 = 3 })
  | .bfill f => some (f, qeCopy f 0x3C07 (if f.mc then .any else .zero) .zero 1 (f.typ = 0))
  | .bpeer f => some (f, qeCopy f 0x0307 .zero .zero 1 (f.typ = 0))
  | .mop f => some (f, qeCopy f 7 .zero .zero 7 false)
  | .xopen f => some (f, { d := .any, a := .any, b := .any })
  | .xclose f => some (f, qeCopy f 0x0C07 .zero .any 2 false)
  | .slxp f => some (f, qeCopy f 7 .zero .zero 1 false)
  | .rsvfill f => some (f, { a := .any, b := .any })
  | .rsvdrop f => some (f, { a := .any })
  | .rsvq f => some (f, { d := .any, a := .any, mods := 3 })
  | .kvdrop f => some (f, { a := .any, b := .any })
  | .kvprio f => some (f, { a := .any, b := .any, mods := 4 })
  | .rsvset f => some (f, { a := .any, b := .any })
  | .ctxsv f => some (f, { a := .any, opt := 1 })
  | .ctxld f => some (f, { a := .any, b := .any })
  | .tlbinv f => some (f, { a := .any, b := .any, mods := 4, opt := 1 })
  | .ptwalk f => some (f, { d := .any, a := .any, b := .any })
  | .pgdup f => some (f, { d := .any, a := .any, b := .any })
  | .pgcol f => some (f, { a := .any, b := .any })
  | .pgsplit f => some (f, { a := .any })
  | .pgjoin f => some (f, { a := .any })
  | .pgmig f => some (f, { a := .any, b := .any })
  | .dirq f => some (f, { d := .any, a := .any, mods := 2 })
  | .dirset f => some (f, { a := .any, b := .any, mods := 2 })
  | .hostinv f => some (f, { a := .any, b := .any })
  | _ => none

/-- The reasons of a QE instruction (R44), ascending. -/
def qeReasons (f : QE) (v : QESpec) : List (Bool × Nat) :=
  [(v.d.bad f.d || v.a.bad f.a || v.b.bad f.b || (!v.fsl && f.fsl ≠ 0) || (!v.ta && f.ta ≠ 0) || (!v.tb && f.tb ≠ 0) || (!v.ac && f.ac ≠ 0)
      || f.opt &&& ~~~(BitVec.ofNat 15 v.opt) ≠ 0 || v.bad, 6),
   (f.tok = 7, 10), (decide (v.mods ≤ f.mod.toNat) || v.badCode, 12), (decide (5 ≤ f.g.toNat), 13), (!f.l, 14)]

/-- The encoding cause of a cue instruction: its detail 0x010 + reason (R32); `none` when it has none. -/
def cueEnc (i : Instr) : Option Nat :=
  (match qSpec i, qmSpec i, qeSpec i with
    | some (f, v), _, _ => firstReason (qReasons f v)
    | _, some (f, v), _ => firstReason (qmReasons f v)
    | _, _, some (f, v) => firstReason (qeReasons f v)
    | _, _, _ => none).map (0x10 + ·)

/-- L and the guard of a cue instruction. -/
def cueWord (i : Instr) : Bool × Nat :=
  match qSpec i, qmSpec i, qeSpec i with
  | some (f, _), _, _ => (f.l, f.g.toNat)
  | _, some (f, _), _ => (f.l, f.g.toNat)
  | _, _, some (f, _) => (f.l, f.g.toNat)
  | _, _, _ => (false, 4)

/-- The class of a cue instruction (R45): 0 Q, 1 A, 2 K, 3 N. -/
def cueClass (i : Instr) : Nat :=
  match i with
  | .cb _ => 3
  | .ccall _ => 3
  | .cbx _ => 3
  | .cret _ => 3
  | .cwait _ => 3
  | .tcfg _ => 1
  | .tld _ => 1
  | .tsd _ => 1
  | .tzero _ => 1
  | .arrw _ => 1
  | .arrmm _ => 1
  | .arrmmg _ => 1
  | .arrdist _ => 1
  | .arrbest _ => 1
  | .arrcent _ => 1
  | .adrain _ => 1
  | .adrainp _ => 1
  | .adraine _ => 1
  | .azero _ => 1
  | .aload _ => 1
  | .txpose _ => 1
  | .bcp _ => 2
  | .bgat _ => 2
  | .bsca _ => 2
  | .bexp _ => 2
  | .bfill _ => 2
  | .bpeer _ => 2
  | .mop _ => 2
  | .xopen _ => 2
  | .xclose _ => 2
  | .slxp _ => 2
  | .rsvfill _ => 2
  | .rsvdrop _ => 2
  | .rsvq _ => 2
  | .kvdrop _ => 2
  | .kvprio _ => 2
  | .rsvset _ => 2
  | _ => 0

/-- Privileged cue instructions (R8, R45). -/
def cuePriv (i : Instr) : Bool :=
  match i with
  | .rsvset _ => true
  | .iret _ => true
  | .chalt _ => true
  | .ctxsv _ => true
  | .ctxld _ => true
  | .tabort _ => true
  | .tcommit _ => true
  | .tlbinv _ => true
  | .ptwalk _ => true
  | .pgdup _ => true
  | .pgcol _ => true
  | .pgsplit _ => true
  | .pgjoin _ => true
  | .pgmig _ => true
  | .dirq _ => true
  | .dirset _ => true
  | .hostinv _ => true
  | _ => false

/-- LOOK of a cue instruction of long timing. -/
def cueLook (i : Instr) : Option Nat := (qmSpec i).map fun (f, _) => f.look.toNat

/-- Registers of a QM width. -/
def qmRegs (w : Nat) : Nat := if w = 4 then 2 else 1

/-- The registers a QI or one-word cue instruction names (R56, R262 to R280). -/
def qUse (i : Instr) (f : QF) : Use :=
  let d := f.d.toNat
  let a := f.a.toNat
  let b := f.b.toNat
  let src := if f.l then [a] else [a, b]
  match i with
  | .cdiv _ => { rc := src, wc := run d 2, wg := [3] }
  | .cbfi _ => { rc := d :: src, wc := [d] }
  | .cpopc _ => { rc := if f.l then [] else [b], wc := [d] }
  | .cclz _ => { rc := if f.l then [] else [b], wc := [d] }
  | .cmov _ => { rc := if f.l then [] else [b], wc := [d] }
  | .cli _ => { rc := if f.mod = 1 then [d] else [], wc := [d] }
  | .ccmp _ => { rc := src, wg := [d % 4] }
  | .csel _ => { rc := src, wc := [d], rg := [f.mod.toNat % 4] }
  | .cb _ => {}
  | .ccall _ => {}
  | .cbx _ => { rc := [a] }
  | .cret _ => {}
  | .dqpush _ => { rc := [a, b] }
  | .wgbar _ => {}
  | .cwait _ => {}
  | .cmig _ => { rc := [a] }
  | .cend _ => {}
  | .cslot _ => { wc := [d] }
  | .wstat _ => { wc := [d] }
  | .ctrap _ => {}
  | .cwake _ => { rc := [a, b] }
  | .csreg _ => { wc := [d] }
  | .cswreg _ => { rc := [a] }
  | .cresume _ => {}
  | .iret _ => {}
  | .chalt _ => if f.mod = 0 then { wc := [d] } else { rc := [a] }
  | .tabort _ => { rc := [a] }
  | .tcommit _ => { rc := [a] }
  | _ => { rc := src, wc := [d] }

/-- The registers a QM instruction names; `pend` are its data sources. -/
def qmUse (i : Instr) (f : QM) : Use :=
  let d := f.d.toNat
  let a := f.a.toNat
  let n := qmRegs f.wid.toNat
  let even := if f.wid = 4 then [d] else []
  match i with
  | .cld _ => { rc := [a], wc := run d n, even := even }
  | .cst _ => { rc := a :: run d n, pend := run d n, even := even }
  | .catom _ =>
    let b := f.b.toNat
    if f.mod = 1 then { rc := [a, b, d], wc := [d], pend := [b] } else { rc := [a, b], wc := if f.ofs.getLsbD 5 then [] else [d], pend := [b] }
  | .cforage _ => { rc := [a], wc := run d 2, even := even }
  | .csvc _ => let q := run a (f.ofs.toNat / 16 % 4 + 1); { rc := q, wc := [d], pend := q }
  | _ => {}

/-- The registers, tiles and accumulators a QE instruction names (R48, R290). -/
def qeUse (i : Instr) (f : QE) : Use :=
  let d := f.d.toNat
  let a := f.a.toNat
  let b := f.b.toNat
  let ta := [f.ta.toNat]
  let tb := [f.tb.toNat]
  let ac := [f.ac.toNat]
  let blk := run (a / 8 * 8) 8
  match i with
  | .launch _ => { rc := [a], wc := [d] }
  | .tcfg _ => { rc := [a], tiles := ta }
  | .tld _ => { rc := run a 2 ++ run b 2, even := [a, b], tiles := ta }
  | .tsd _ => { rc := run a 2 ++ run b 2, even := [a, b], tiles := ta }
  | .tzero _ => { tiles := ta }
  | .arrw _ => { tiles := tb }
  | .arrmm _ => { rc := [a], tiles := ta ++ tb, accs := ac }
  | .arrdist _ => { rc := [a], tiles := ta ++ tb, accs := ac }
  | .arrmmg _ => { rc := [a, b], tiles := ta }
  | .arrbest _ => { rc := [a, b], accs := ac }
  | .arrcent _ => { rc := [a], tiles := ta ++ tb, accs := ac }
  | .adrain _ =>
    if f.mod = 3 then { rc := [d, a] ++ (if f.typ = 3 then run b 2 else []), even := if f.typ = 3 then [b] else [], tiles := ta, accs := ac }
    else { rc := d :: run a 2 ++ (if f.typ = 3 then run b 2 else [b]), even := a :: (if f.typ = 3 then [b] else []), accs := ac }
  | .aload _ =>
    if f.mod = 3 then { rc := [d, a], tiles := ta, accs := ac } else { rc := d :: run a 2 ++ [b], even := [a], accs := ac }
  | .adrainp _ => { rc := [d, a, b], accs := ac }
  | .adraine _ => { rc := [d, a, b], accs := ac }
  | .azero _ => { rc := if f.mod = 1 then [d] else [], accs := ac }
  | .txpose _ => { tiles := ta ++ tb }
  | .bcp _ => { rc := blk ++ (if f.mc then [d] else []) }
  | .bfill _ => { rc := blk ++ (if f.mc then [d] else []) }
  | .bgat _ => { rc := b :: blk }
  | .bsca _ => { rc := b :: blk }
  | .bexp _ => { rc := b :: blk }
  | .bpeer _ => { rc := blk }
  | .mop _ => { rc := blk }
  | .slxp _ => { rc := blk }
  | .xclose _ => { rc := b :: blk }
  | .xopen _ => { rc := [a, b], wc := [d] }
  | .rsvfill _ => { rc := [a, b] }
  | .rsvdrop _ => { rc := [a] }
  | .rsvq _ => { rc := [a], wc := [d] }
  | .kvdrop _ => { rc := [a, b] }
  | .kvprio _ => { rc := [a, b] }
  | .rsvset _ => { rc := [a, b] }
  | .ctxsv _ => { rc := [a] }
  | .ctxld _ => { rc := [a, b] }
  | .tlbinv _ => { rc := [a, b] }
  | .ptwalk _ => { rc := [a, b], wc := [d] }
  | .pgdup _ => { rc := [a, b], wc := [d] }
  | .pgcol _ => { rc := [a, b] }
  | .pgsplit _ => { rc := [a] }
  | .pgjoin _ => { rc := [a] }
  | .pgmig _ => { rc := [a, b] }
  | .dirq _ => { rc := [a], wc := run d 2, even := [d] }
  | .dirset _ => { rc := a :: run b 2, even := [b] }
  | .hostinv _ => { rc := [a, b] }
  | _ => {}

/-- The registers a cue instruction names, its guard flag among them. -/
def cueUse (i : Instr) : Use :=
  let g := (cueWord i).2
  let u := match qSpec i, qmSpec i, qeSpec i with
    | some (f, _), _, _ => qUse i f
    | _, some (f, _), _ => qmUse i f
    | _, _, some (f, _) => qeUse i f
    | _, _, _ => {}
  u.join { rg := if g < 4 then [g] else [] }

end Sys2Proof.Machine
end

