-- ==== Sys2Proof/WellFormed.lean ====
section
/-! DEFINITION. Well-formed instructions: the encoders of the word layouts (02 R33 to R44), the canonical form of a one-word instruction (R34, R43), and WellFormed: canonical, and with no encoding cause of R32. -/

namespace Sys2Proof

open Machine

/-- Word 1 of the V layout. -/
def encV1 (f : VF) : Word := f.c ++ f.pa ++ f.pb ++ f.pc ++ f.look ++ f.pn ++ f.mod ++ f.ps ++ f.param
/-- The words of the V layout. -/
def encV (op : BitVec 7) (f : VF) : List Word :=
  let w0 : Word := BitVec.ofBool f.l ++ op ++ f.d ++ f.a ++ f.b ++ f.pg
  if f.l then [w0, encV1 f] else [w0]
/-- Without a second word, its fields are the default. -/
def VF.canon (f : VF) : Bool := f.l || encV1 f == 0

/-- Word 1 of the I layout. -/
def encI1 (f : IF) : Word := f.imm
/-- The words of the I layout. -/
def encI (op : BitVec 7) (f : IF) : List Word :=
  let w0 : Word := BitVec.ofBool f.l ++ op ++ f.d ++ f.a ++ f.b ++ f.pg
  if f.l then [w0, encI1 f] else [w0]
/-- Without a second word, its fields are the default. -/
def IF.canon (f : IF) : Bool := f.l || encI1 f == 0

/-- Word 1 of the M layout. -/
def encM1 (f : MF) : Word := f.look ++ f.obs ++ f.ordr ++ f.wid ++ f.fe ++ f.sx ++ f.ofs
/-- The words of the M layout. -/
def encM (op : BitVec 7) (f : MF) : List Word :=
  let w0 : Word := BitVec.ofBool f.l ++ op ++ f.d ++ f.a ++ f.b ++ f.pg
  if f.l then [w0, encM1 f] else [w0]
/-- Without a second word, its fields are the default. -/
def MF.canon (f : MF) : Bool := f.l || encM1 f == 0x00010000

/-- Word 1 of the MA layout. -/
def encA1 (f : AF) : Word := f.look ++ f.obs ++ f.ordr ++ f.wid ++ f.aop ++ f.c ++ f.rsv
/-- The words of the MA layout. -/
def encA (op : BitVec 7) (f : AF) : List Word :=
  let w0 : Word := BitVec.ofBool f.l ++ op ++ f.d ++ f.a ++ f.b ++ f.pg
  if f.l then [w0, encA1 f] else [w0]
/-- Without a second word, its fields are the default. -/
def AF.canon (f : AF) : Bool := f.l || encA1 f == 0

/-- Word 1 of the T layout. -/
def encT1 (f : TF) : Word := f.look ++ f.tr ++ f.row0 ++ f.col0 ++ f.tok ++ f.rsv
/-- The words of the T layout. -/
def encT (op : BitVec 7) (f : TF) : List Word :=
  let w0 : Word := BitVec.ofBool f.l ++ op ++ f.d ++ f.a ++ f.b ++ f.pg
  if f.l then [w0, encT1 f] else [w0]
/-- Without a second word, its fields are the default. -/
def TF.canon (f : TF) : Bool := f.l || encT1 f == 0

/-- Word 1 of the QI layout. -/
def encQ1 (f : QF) : Word := f.imm
/-- The words of the QI layout. -/
def encQ (op : BitVec 7) (f : QF) : List Word :=
  let w0 : Word := BitVec.ofBool f.l ++ op ++ f.d ++ f.a ++ f.b ++ f.g ++ f.mod
  if f.l then [w0, encQ1 f] else [w0]
/-- Without a second word, its fields are the default. -/
def QF.canon (f : QF) : Bool := f.l || encQ1 f == 0

/-- Word 1 of the QM layout. -/
def encQM1 (f : QM) : Word := f.look ++ f.obs ++ f.ordr ++ f.wid ++ f.rsv ++ f.ofs
/-- The words of the QM layout. -/
def encQM (op : BitVec 7) (f : QM) : List Word :=
  let w0 : Word := BitVec.ofBool f.l ++ op ++ f.d ++ f.a ++ f.b ++ f.g ++ f.mod
  if f.l then [w0, encQM1 f] else [w0]
/-- Without a second word, its fields are the default. -/
def QM.canon (f : QM) : Bool := f.l || encQM1 f == 0x00018000

/-- Word 1 of the QE layout. -/
def encQE1 (f : QE) : Word := f.tok ++ f.fsl ++ f.ta ++ f.tb ++ f.ac ++ f.opt
/-- The words of the QE layout. -/
def encQE (op : BitVec 7) (f : QE) : List Word :=
  let w0 : Word := BitVec.ofBool f.l ++ op ++ f.d ++ f.a ++ f.b ++ f.g ++ f.mod
  if f.l then [w0, encQE1 f] else [w0]
/-- Without a second word, its fields are the default. -/
def QE.canon (f : QE) : Bool := f.l || encQE1 f == 0

/-- The canonical form, by layout. -/
def Instr.canon (i : Instr) : Bool :=
  match i with
  | .add f => f.canon
  | .sub f => f.canon
  | .mul f => f.canon
  | .mulh f => f.canon
  | .mad f => f.canon
  | .madw f => f.canon
  | .min f => f.canon
  | .max f => f.canon
  | .abs f => f.canon
  | .neg f => f.canon
  | .sad f => f.canon
  | .dot4 f => f.canon
  | .shl f => f.canon
  | .shr f => f.canon
  | .sar f => f.canon
  | .rot f => f.canon
  | .and f => f.canon
  | .or f => f.canon
  | .xor f => f.canon
  | .not f => f.canon
  | .bool3 f => f.canon
  | .bfx f => f.canon
  | .bfi f => f.canon
  | .brev f => f.canon
  | .popc f => f.canon
  | .clz f => f.canon
  | .ctz f => f.canon
  | .cmp f => f.canon
  | .sel f => f.canon
  | .mov f => f.canon
  | .movi f => f.canon
  | .fadd f => f.canon
  | .fsub f => f.canon
  | .fmul f => f.canon
  | .ffma f => f.canon
  | .fmin f => f.canon
  | .fmax f => f.canon
  | .fcmp f => f.canon
  | .fclass f => f.canon
  | .frnd f => f.canon
  | .fscale f => f.canon
  | .fclamp f => f.canon
  | .fdiv f => f.canon
  | .fsqrt f => f.canon
  | .frcp f => f.canon
  | .frsqrt f => f.canon
  | .fexp2 f => f.canon
  | .flog2 f => f.canon
  | .fsin f => f.canon
  | .fcos f => f.canon
  | .ftanh f => f.canon
  | .fsigm f => f.canon
  | .pfma f => f.canon
  | .padd f => f.canon
  | .pmul f => f.canon
  | .cvt f => f.canon
  | .qto f => f.canon
  | .qfrom f => f.canon
  | .qpack f => f.canon
  | .qunpk f => f.canon
  | .bscl f => f.canon
  | .fsld f => f.canon
  | .cvtp f => f.canon
  | .lsel f => f.canon
  | .patld f => f.canon
  | .poll f => f.canon
  | .eqset f => f.canon
  | .wred f => f.canon
  | .wscan f => f.canon
  | .lead f => f.canon
  | .v2s f => f.canon
  | .tfill f => f.canon
  | .tread f => f.canon
  | .ldG f => f.canon
  | .stG f => f.canon
  | .ldL f => f.canon
  | .stL f => f.canon
  | .ldC f => f.canon
  | .stC f => f.canon
  | .ldP f => f.canon
  | .stP f => f.canon
  | .pf f => f.canon
  | .fe f => f.canon
  | .l1wb f => f.canon
  | .l1inv f => f.canon
  | .kvkey f => f.canon
  | .atom f => f.canon
  | .atomf f => f.canon
  | .cas f => f.canon
  | .ldres f => f.canon
  | .stcond f => f.canon
  | .fence f => f.canon
  | .forage f => f.canon
  | .bar f => f.canon
  | .cntwt f => f.canon
  | .cntadd f => f.canon
  | .bra f => f.canon
  | .brx f => f.canon
  | .call f => f.canon
  | .callx f => f.canon
  | .ret f => f.canon
  | .join f => f.canon
  | .dqpop f => f.canon
  | .dqbr f => f.canon
  | .exit f => f.canon
  | .trap f => f.canon
  | .brk f => f.canon
  | .svc f => f.canon
  | .wake f => f.canon
  | .sreg f => f.canon
  | .swreg f => f.canon
  | .yield f => f.canon
  | .nop f => f.canon
  | .resume f => f.canon
  | .twait f => f.canon
  | .cadd f => f.canon
  | .csub f => f.canon
  | .cmul f => f.canon
  | .cmulh f => f.canon
  | .cdiv f => f.canon
  | .cand f => f.canon
  | .cor f => f.canon
  | .cxor f => f.canon
  | .cshl f => f.canon
  | .cshr f => f.canon
  | .csar f => f.canon
  | .cmin f => f.canon
  | .cmax f => f.canon
  | .cbfx f => f.canon
  | .cbfi f => f.canon
  | .cpopc f => f.canon
  | .cclz f => f.canon
  | .cmov f => f.canon
  | .cli f => f.canon
  | .ccmp f => f.canon
  | .csel f => f.canon
  | .cb f => f.canon
  | .cbx f => f.canon
  | .ccall f => f.canon
  | .cret f => f.canon
  | .cld f => f.canon
  | .cst f => f.canon
  | .catom f => f.canon
  | .cfence f => f.canon
  | .dqpush f => f.canon
  | .launch f => f.canon
  | .wgbar f => f.canon
  | .cwait f => f.canon
  | .cforage f => f.canon
  | .cmig f => f.canon
  | .cend f => f.canon
  | .cslot f => f.canon
  | .wstat f => f.canon
  | .tcfg f => f.canon
  | .tld f => f.canon
  | .tsd f => f.canon
  | .tzero f => f.canon
  | .arrw f => f.canon
  | .arrmm f => f.canon
  | .arrmmg f => f.canon
  | .arrdist f => f.canon
  | .arrbest f => f.canon
  | .arrcent f => f.canon
  | .adrain f => f.canon
  | .adrainp f => f.canon
  | .adraine f => f.canon
  | .azero f => f.canon
  | .aload f => f.canon
  | .txpose f => f.canon
  | .bcp f => f.canon
  | .bgat f => f.canon
  | .bsca f => f.canon
  | .bexp f => f.canon
  | .bfill f => f.canon
  | .bpeer f => f.canon
  | .mop f => f.canon
  | .xopen f => f.canon
  | .xclose f => f.canon
  | .slxp f => f.canon
  | .rsvfill f => f.canon
  | .rsvdrop f => f.canon
  | .rsvq f => f.canon
  | .kvdrop f => f.canon
  | .kvprio f => f.canon
  | .rsvset f => f.canon
  | .ctrap f => f.canon
  | .cwake f => f.canon
  | .csreg f => f.canon
  | .cswreg f => f.canon
  | .cresume f => f.canon
  | .iret f => f.canon
  | .chalt f => f.canon
  | .ctxsv f => f.canon
  | .ctxld f => f.canon
  | .tabort f => f.canon
  | .tcommit f => f.canon
  | .csvc f => f.canon
  | .tlbinv f => f.canon
  | .ptwalk f => f.canon
  | .pgdup f => f.canon
  | .pgcol f => f.canon
  | .pgsplit f => f.canon
  | .pgjoin f => f.canon
  | .pgmig f => f.canon
  | .dirq f => f.canon
  | .dirset f => f.canon
  | .hostinv f => f.canon
  | .illegalOpcode _ _ => false
  | .memoryAccessCompletion _ => false
  | .vsfuCompletion _ => false
  | .executionPointOperation _ => false
  | .writeBackMerge _ _ => false
  | .fetchFill _ _ => false
  | .returnAddressRefill _ => false
  | .contextLineRefill _ _ => false
  | .fullEmptyServe _ => false
  | .counterWaitSatisfied _ => false
  | .decisionQueuePop _ _ => false
  | .dqpushWrite _ => false
  | .engineCommandStart _ => false
  | .arrayCommandStart _ => false
  | .planeLoad _ => false
  | .streamRowResult _ => false
  | .commandCompletion _ => false
  | .deliveryUnitAdvance _ => false
  | .collectiveCompletion _ => false
  | .adrainpRowArrival _ => false
  | .contributionAccept _ => false
  | .xcloseAtSlice _ => false
  | .workgroupPlacement => false
  | .nestQueueAppend _ => false
  | .queueServe _ => false
  | .launchEntryAccept _ => false
  | .copyBlockAccept _ => false
  | .warpEnd _ _ => false
  | .sliceLineReturn _ _ _ => false
  | .cueThreadEnd _ => false
  | .workgroupEnd _ => false
  | .gridRetirement _ => false
  | .taking _ => false
  | .imageAreaWrite _ => false
  | .registerLineEviction _ _ => false
  | .resumption => false
  | .migrationMessage _ _ => false
  | .serviceReply _ => false
  | .errorQueueDropReport => false
  | .reservationTimeout => false
  | .joinDeadline => false
  | .yieldExpiry => false
  | .tableWalk _ _ _ _ => false
  | .agingTick => false
  | .migrationFallback => false
  | .preemptionTimeout => false
  | .serviceTimeout => false
  | .sensorRefresh _ _ => false
  | .governorInterval _ => false
  | .governorHoldLimit => false
  | .diePowerOff => false
  | .dieReturn => false
  | .combLineError _ => false
  | .machineCheckEvent _ _ => false
  | .directoryErrorRecovery _ _ => false
  | .startUp _ _ _ _ => false
  | .attestation => false
  | .mwakeWrite _ _ => false
  | .queueWakeWrite _ _ => false
  | .queueEnable => false
  | .queueDisable => false
  | .wshareUpdate => false
  | .registerWrite _ _ _ => false
  | .hostRead _ _ _ => false
  | .hostWrite _ _ => false
  | .hostRecall _ _ => false
  | .readMsg _ _ _ => false
  | .writeMsg _ _ _ => false
  | .atomicMsg _ _ _ _ _ _ => false
  | .grant _ _ _ _ _ => false
  | .probeInv _ _ => false
  | .probeRecall _ _ => false
  | .probeSplit _ _ => false
  | .probeAll _ _ => false
  | .ack _ _ _ _ _ => false
  | .forwardedCommand _ _ _ _ => false
  | .packet _ _ _ _ => false
  | .nak _ _ => false
  | .linkRetryThreshold => false
  | .linkDown _ => false
  | .linkUp _ => false

/-- A well-formed instruction: canonical, and no class-0 cause is due when it issues in a warp of 128 lanes or on a cue thread (02 R32). Events and illegal opcodes have no well-formed encoding. -/
def Instr.wf (i : Instr) : Bool := i.canon && (warpEnc 128 i).isNone && (cueEnc i).isNone

end Sys2Proof
end

