-- ==== Sys2Proof/Decode.lean ====
section
/-! DEFINITION. The decoder: total on any bytes, words little-endian (02 R25), by the layouts of R33 to R44 and the opcode maps R59, R60; after it the encoder. Cells without an instruction decode to illegalOpcode (R61); a byte list too short for the instruction is rejected by name. -/

namespace Sys2Proof

open Machine

/-- Why bytes are not an instruction. -/
inductive DecodeError where
  /-- fewer than four bytes -/
  | noFirstWord
  /-- L = 1 and fewer than four bytes follow (02 R31) -/
  | noSecondWord
  deriving DecidableEq, Repr

/-- V layout (R35); no second word stands for zero (R34). -/
def decV (w0 : Word) (w1 : Option Word) : VF :=
  let x := w1.getD 0
  { l := w1.isSome, d := fld w0 23 17, a := fld w0 16 10, b := fld w0 9 3, pg := fld w0 2 0,
    c := fld x 31 25, pa := fld x 24 22, pb := fld x 21 19, pc := fld x 18 16, look := fld x 15 12, pn := fld x 11 11,
    mod := fld x 10 8, ps := fld x 7 7, param := fld x 6 0 }

/-- I layout (R36). -/
def decI (w0 : Word) (w1 : Option Word) : IF :=
  { l := w1.isSome, d := fld w0 23 17, a := fld w0 16 10, b := fld w0 9 3, pg := fld w0 2 0, imm := w1.getD 0 }

/-- M layout (R37); no second word stands for WID = 2 (R34). -/
def decM (w0 : Word) (w1 : Option Word) : MF :=
  let x := w1.getD 0x00010000
  { l := w1.isSome, d := fld w0 23 17, a := fld w0 16 10, b := fld w0 9 3, pg := fld w0 2 0,
    look := fld x 31 28, obs := fld x 27 21, ordr := fld x 20 18, wid := fld x 17 15, fe := fld x 14 13, sx := fld x 12 12, ofs := fld x 11 0 }

/-- MA layout (R38). -/
def decA (w0 : Word) (w1 : Option Word) : AF :=
  let x := w1.getD 0
  { l := w1.isSome, d := fld w0 23 17, a := fld w0 16 10, b := fld w0 9 3, pg := fld w0 2 0,
    look := fld x 31 28, obs := fld x 27 21, ordr := fld x 20 18, wid := fld x 17 15, aop := fld x 14 9, c := fld x 8 2, rsv := fld x 1 0 }

/-- T layout (R39). -/
def decT (w0 : Word) (w1 : Option Word) : TF :=
  let x := w1.getD 0
  { l := w1.isSome, d := fld w0 23 17, a := fld w0 16 10, b := fld w0 9 3, pg := fld w0 2 0,
    look := fld x 31 28, tr := fld x 27 24, row0 := fld x 23 16, col0 := fld x 15 8, tok := fld x 7 5, rsv := fld x 4 0 }

/-- QI layout, and instructions without a second word (R41, R42). -/
def decQ (w0 : Word) (w1 : Option Word) : QF :=
  { l := w1.isSome, d := fld w0 23 18, a := fld w0 17 12, b := fld w0 11 6, g := fld w0 5 3, mod := fld w0 2 0, imm := w1.getD 0 }

/-- QM layout (R43); no second word stands for WID = 3. -/
def decQM (w0 : Word) (w1 : Option Word) : QM :=
  let x := w1.getD 0x00018000
  { l := w1.isSome, d := fld w0 23 18, a := fld w0 17 12, b := fld w0 11 6, g := fld w0 5 3, mod := fld w0 2 0,
    look := fld x 31 28, obs := fld x 27 21, ordr := fld x 20 18, wid := fld x 17 15, rsv := fld x 14 12, ofs := fld x 11 0 }

/-- QE layout (R44). -/
def decQE (w0 : Word) (w1 : Option Word) : QE :=
  let x := w1.getD 0
  { l := w1.isSome, d := fld w0 23 18, a := fld w0 17 12, b := fld w0 11 6, g := fld w0 5 3, mod := fld w0 2 0,
    tok := fld x 31 29, fsl := fld x 28 26, ta := fld x 25 22, tb := fld x 21 18, ac := fld x 17 15, opt := fld x 14 0 }

/-- The warp opcode map (02 R59); every other cell is illegal. -/
def warpDecode (w0 : Word) (w1 : Option Word) : Option Instr :=
  match fldN w0 30 24 with
  | 0x01 => some (.add (decV w0 w1))
  | 0x02 => some (.sub (decV w0 w1))
  | 0x03 => some (.mul (decV w0 w1))
  | 0x04 => some (.mulh (decV w0 w1))
  | 0x05 => some (.mad (decV w0 w1))
  | 0x06 => some (.madw (decV w0 w1))
  | 0x07 => some (.min (decV w0 w1))
  | 0x08 => some (.max (decV w0 w1))
  | 0x09 => some (.abs (decV w0 w1))
  | 0x0A => some (.neg (decV w0 w1))
  | 0x0B => some (.sad (decV w0 w1))
  | 0x0C => some (.dot4 (decV w0 w1))
  | 0x0D => some (.shl (decV w0 w1))
  | 0x0E => some (.shr (decV w0 w1))
  | 0x0F => some (.sar (decV w0 w1))
  | 0x10 => some (.rot (decV w0 w1))
  | 0x11 => some (.and (decV w0 w1))
  | 0x12 => some (.or (decV w0 w1))
  | 0x13 => some (.xor (decV w0 w1))
  | 0x14 => some (.not (decV w0 w1))
  | 0x15 => some (.bool3 (decV w0 w1))
  | 0x16 => some (.bfx (decV w0 w1))
  | 0x17 => some (.bfi (decV w0 w1))
  | 0x18 => some (.brev (decV w0 w1))
  | 0x19 => some (.popc (decV w0 w1))
  | 0x1A => some (.clz (decV w0 w1))
  | 0x1B => some (.ctz (decV w0 w1))
  | 0x1C => some (.cmp (decV w0 w1))
  | 0x1D => some (.sel (decV w0 w1))
  | 0x1E => some (.mov (decV w0 w1))
  | 0x1F => some (.movi (decI w0 w1))
  | 0x20 => some (.fadd (decV w0 w1))
  | 0x21 => some (.fsub (decV w0 w1))
  | 0x22 => some (.fmul (decV w0 w1))
  | 0x23 => some (.ffma (decV w0 w1))
  | 0x24 => some (.fmin (decV w0 w1))
  | 0x25 => some (.fmax (decV w0 w1))
  | 0x26 => some (.fcmp (decV w0 w1))
  | 0x27 => some (.fclass (decV w0 w1))
  | 0x28 => some (.frnd (decV w0 w1))
  | 0x29 => some (.fscale (decV w0 w1))
  | 0x2A => some (.fclamp (decV w0 w1))
  | 0x2B => some (.fdiv (decV w0 w1))
  | 0x2C => some (.fsqrt (decV w0 w1))
  | 0x2D => some (.frcp (decV w0 w1))
  | 0x2E => some (.frsqrt (decV w0 w1))
  | 0x2F => some (.fexp2 (decV w0 w1))
  | 0x30 => some (.flog2 (decV w0 w1))
  | 0x31 => some (.fsin (decV w0 w1))
  | 0x32 => some (.fcos (decV w0 w1))
  | 0x33 => some (.ftanh (decV w0 w1))
  | 0x34 => some (.fsigm (decV w0 w1))
  | 0x35 => some (.pfma (decV w0 w1))
  | 0x36 => some (.padd (decV w0 w1))
  | 0x37 => some (.pmul (decV w0 w1))
  | 0x38 => some (.cvt (decV w0 w1))
  | 0x39 => some (.qto (decV w0 w1))
  | 0x3A => some (.qfrom (decV w0 w1))
  | 0x3B => some (.qpack (decV w0 w1))
  | 0x3C => some (.qunpk (decV w0 w1))
  | 0x3D => some (.bscl (decV w0 w1))
  | 0x3E => some (.fsld (decV w0 w1))
  | 0x3F => some (.cvtp (decV w0 w1))
  | 0x40 => some (.lsel (decV w0 w1))
  | 0x41 => some (.patld (decV w0 w1))
  | 0x42 => some (.poll (decV w0 w1))
  | 0x43 => some (.eqset (decV w0 w1))
  | 0x44 => some (.wred (decV w0 w1))
  | 0x45 => some (.wscan (decV w0 w1))
  | 0x46 => some (.lead (decV w0 w1))
  | 0x47 => some (.v2s (decV w0 w1))
  | 0x48 => some (.tfill (decT w0 w1))
  | 0x49 => some (.tread (decT w0 w1))
  | 0x50 => some (.ldG (decM w0 w1))
  | 0x51 => some (.stG (decM w0 w1))
  | 0x52 => some (.ldL (decM w0 w1))
  | 0x53 => some (.stL (decM w0 w1))
  | 0x54 => some (.ldC (decM w0 w1))
  | 0x55 => some (.stC (decM w0 w1))
  | 0x56 => some (.ldP (decM w0 w1))
  | 0x57 => some (.stP (decM w0 w1))
  | 0x58 => some (.pf (decM w0 w1))
  | 0x59 => some (.fe (decM w0 w1))
  | 0x5A => some (.l1wb (decM w0 w1))
  | 0x5B => some (.l1inv (decM w0 w1))
  | 0x5C => some (.kvkey (decV w0 w1))
  | 0x60 => some (.atom (decA w0 w1))
  | 0x61 => some (.atomf (decA w0 w1))
  | 0x62 => some (.cas (decA w0 w1))
  | 0x63 => some (.ldres (decM w0 w1))
  | 0x64 => some (.stcond (decM w0 w1))
  | 0x65 => some (.fence (decM w0 w1))
  | 0x66 => some (.forage (decM w0 w1))
  | 0x67 => some (.bar (decM w0 w1))
  | 0x68 => some (.cntwt (decM w0 w1))
  | 0x69 => some (.cntadd (decM w0 w1))
  | 0x6C => some (.bra (decI w0 w1))
  | 0x6D => some (.brx (decV w0 w1))
  | 0x6E => some (.call (decI w0 w1))
  | 0x6F => some (.callx (decV w0 w1))
  | 0x70 => some (.ret (decV w0 w1))
  | 0x71 => some (.join (decI w0 w1))
  | 0x72 => some (.dqpop (decV w0 w1))
  | 0x73 => some (.dqbr (decV w0 w1))
  | 0x74 => some (.exit (decV w0 w1))
  | 0x75 => some (.trap (decV w0 w1))
  | 0x76 => some (.brk (decV w0 w1))
  | 0x77 => some (.svc (decV w0 w1))
  | 0x78 => some (.wake (decV w0 w1))
  | 0x79 => some (.sreg (decV w0 w1))
  | 0x7A => some (.swreg (decV w0 w1))
  | 0x7B => some (.yield (decV w0 w1))
  | 0x7C => some (.nop (decV w0 w1))
  | 0x7D => some (.resume (decV w0 w1))
  | 0x7E => some (.twait (decV w0 w1))
  | _ => none

/-- The cue opcode map (02 R60); every other cell is illegal. -/
def cueDecode (w0 : Word) (w1 : Option Word) : Option Instr :=
  match fldN w0 30 24 with
  | 0x01 => some (.cadd (decQ w0 w1))
  | 0x02 => some (.csub (decQ w0 w1))
  | 0x03 => some (.cmul (decQ w0 w1))
  | 0x04 => some (.cmulh (decQ w0 w1))
  | 0x05 => some (.cdiv (decQ w0 w1))
  | 0x06 => some (.cand (decQ w0 w1))
  | 0x07 => some (.cor (decQ w0 w1))
  | 0x08 => some (.cxor (decQ w0 w1))
  | 0x09 => some (.cshl (decQ w0 w1))
  | 0x0A => some (.cshr (decQ w0 w1))
  | 0x0B => some (.csar (decQ w0 w1))
  | 0x0C => some (.cmin (decQ w0 w1))
  | 0x0D => some (.cmax (decQ w0 w1))
  | 0x0E => some (.cbfx (decQ w0 w1))
  | 0x0F => some (.cbfi (decQ w0 w1))
  | 0x10 => some (.cpopc (decQ w0 w1))
  | 0x11 => some (.cclz (decQ w0 w1))
  | 0x12 => some (.cmov (decQ w0 w1))
  | 0x13 => some (.cli (decQ w0 w1))
  | 0x14 => some (.ccmp (decQ w0 w1))
  | 0x15 => some (.csel (decQ w0 w1))
  | 0x16 => some (.cb (decQ w0 w1))
  | 0x17 => some (.cbx (decQ w0 w1))
  | 0x18 => some (.ccall (decQ w0 w1))
  | 0x19 => some (.cret (decQ w0 w1))
  | 0x1A => some (.cld (decQM w0 w1))
  | 0x1B => some (.cst (decQM w0 w1))
  | 0x1C => some (.catom (decQM w0 w1))
  | 0x1D => some (.cfence (decQM w0 w1))
  | 0x1E => some (.dqpush (decQ w0 w1))
  | 0x1F => some (.launch (decQE w0 w1))
  | 0x20 => some (.wgbar (decQ w0 w1))
  | 0x21 => some (.cwait (decQ w0 w1))
  | 0x22 => some (.cforage (decQM w0 w1))
  | 0x23 => some (.cmig (decQ w0 w1))
  | 0x24 => some (.cend (decQ w0 w1))
  | 0x25 => some (.cslot (decQ w0 w1))
  | 0x26 => some (.wstat (decQ w0 w1))
  | 0x28 => some (.tcfg (decQE w0 w1))
  | 0x29 => some (.tld (decQE w0 w1))
  | 0x2A => some (.tsd (decQE w0 w1))
  | 0x2B => some (.tzero (decQE w0 w1))
  | 0x2C => some (.arrw (decQE w0 w1))
  | 0x2D => some (.arrmm (decQE w0 w1))
  | 0x2E => some (.arrmmg (decQE w0 w1))
  | 0x2F => some (.arrdist (decQE w0 w1))
  | 0x30 => some (.arrbest (decQE w0 w1))
  | 0x31 => some (.arrcent (decQE w0 w1))
  | 0x32 => some (.adrain (decQE w0 w1))
  | 0x33 => some (.adrainp (decQE w0 w1))
  | 0x34 => some (.adraine (decQE w0 w1))
  | 0x35 => some (.azero (decQE w0 w1))
  | 0x36 => some (.aload (decQE w0 w1))
  | 0x37 => some (.txpose (decQE w0 w1))
  | 0x40 => some (.bcp (decQE w0 w1))
  | 0x41 => some (.bgat (decQE w0 w1))
  | 0x42 => some (.bsca (decQE w0 w1))
  | 0x43 => some (.bexp (decQE w0 w1))
  | 0x44 => some (.bfill (decQE w0 w1))
  | 0x45 => some (.bpeer (decQE w0 w1))
  | 0x46 => some (.mop (decQE w0 w1))
  | 0x47 => some (.xopen (decQE w0 w1))
  | 0x48 => some (.xclose (decQE w0 w1))
  | 0x49 => some (.slxp (decQE w0 w1))
  | 0x4A => some (.rsvfill (decQE w0 w1))
  | 0x4B => some (.rsvdrop (decQE w0 w1))
  | 0x4C => some (.rsvq (decQE w0 w1))
  | 0x4D => some (.kvdrop (decQE w0 w1))
  | 0x4E => some (.kvprio (decQE w0 w1))
  | 0x4F => some (.rsvset (decQE w0 w1))
  | 0x50 => some (.ctrap (decQ w0 w1))
  | 0x51 => some (.cwake (decQ w0 w1))
  | 0x52 => some (.csreg (decQ w0 w1))
  | 0x53 => some (.cswreg (decQ w0 w1))
  | 0x54 => some (.cresume (decQ w0 w1))
  | 0x55 => some (.iret (decQ w0 w1))
  | 0x56 => some (.chalt (decQ w0 w1))
  | 0x57 => some (.ctxsv (decQE w0 w1))
  | 0x58 => some (.ctxld (decQE w0 w1))
  | 0x59 => some (.tabort (decQ w0 w1))
  | 0x5A => some (.tcommit (decQ w0 w1))
  | 0x5B => some (.csvc (decQM w0 w1))
  | 0x5C => some (.tlbinv (decQE w0 w1))
  | 0x5D => some (.ptwalk (decQE w0 w1))
  | 0x5E => some (.pgdup (decQE w0 w1))
  | 0x5F => some (.pgcol (decQE w0 w1))
  | 0x60 => some (.pgsplit (decQE w0 w1))
  | 0x61 => some (.pgjoin (decQE w0 w1))
  | 0x62 => some (.pgmig (decQE w0 w1))
  | 0x63 => some (.dirq (decQE w0 w1))
  | 0x64 => some (.dirset (decQE w0 w1))
  | 0x65 => some (.hostinv (decQE w0 w1))
  | _ => none

/-- The instruction of a first word and, when L = 1, its second (R61: an illegal opcode comes before any other field). -/
def decodeWords (st : Stream) (w0 : Word) (w1 : Option Word) : Instr :=
  match st with
  | .warp => (warpDecode w0 w1).getD (.illegalOpcode false w0)
  | .cue => (cueDecode w0 w1).getD (.illegalOpcode true w0)

/-- A cell of the opcode map holds an instruction. -/
def opcodeLegal (st : Stream) (w0 : Word) : Bool :=
  match st with
  | .warp => (warpDecode w0 none).isSome
  | .cue => (cueDecode w0 none).isSome

/-- A little-endian word. -/
def wordOf (b0 b1 b2 b3 : Byte) : Word := b3 ++ b2 ++ b1 ++ b0

/-- The bytes of a word. -/
def bytesOf (w : Word) : List Byte := [fld w 7 0, fld w 15 8, fld w 23 16, fld w 31 24]

/-- Decode the instruction at the head of a byte list: the instruction and the bytes after it. -/
def decode (st : Stream) (bs : List Byte) : Except DecodeError (Instr × List Byte) :=
  match bs with
  | b0 :: b1 :: b2 :: b3 :: r =>
    let w0 := wordOf b0 b1 b2 b3
    if w0.getLsbD 31 && opcodeLegal st w0 then
      match r with
      | c0 :: c1 :: c2 :: c3 :: r' => .ok (decodeWords st w0 (some (wordOf c0 c1 c2 c3)), r')
      | _ => .error .noSecondWord
    else .ok (decodeWords st w0 none, r)
  | _ => .error .noFirstWord

/-- The words of an instruction: those of the encoder of its layout; an event has none. -/
def encode (i : Instr) : List Word :=
  match i with
  | .add f => encV 0x01 f
  | .sub f => encV 0x02 f
  | .mul f => encV 0x03 f
  | .mulh f => encV 0x04 f
  | .mad f => encV 0x05 f
  | .madw f => encV 0x06 f
  | .min f => encV 0x07 f
  | .max f => encV 0x08 f
  | .abs f => encV 0x09 f
  | .neg f => encV 0x0A f
  | .sad f => encV 0x0B f
  | .dot4 f => encV 0x0C f
  | .shl f => encV 0x0D f
  | .shr f => encV 0x0E f
  | .sar f => encV 0x0F f
  | .rot f => encV 0x10 f
  | .and f => encV 0x11 f
  | .or f => encV 0x12 f
  | .xor f => encV 0x13 f
  | .not f => encV 0x14 f
  | .bool3 f => encV 0x15 f
  | .bfx f => encV 0x16 f
  | .bfi f => encV 0x17 f
  | .brev f => encV 0x18 f
  | .popc f => encV 0x19 f
  | .clz f => encV 0x1A f
  | .ctz f => encV 0x1B f
  | .cmp f => encV 0x1C f
  | .sel f => encV 0x1D f
  | .mov f => encV 0x1E f
  | .movi f => encI 0x1F f
  | .fadd f => encV 0x20 f
  | .fsub f => encV 0x21 f
  | .fmul f => encV 0x22 f
  | .ffma f => encV 0x23 f
  | .fmin f => encV 0x24 f
  | .fmax f => encV 0x25 f
  | .fcmp f => encV 0x26 f
  | .fclass f => encV 0x27 f
  | .frnd f => encV 0x28 f
  | .fscale f => encV 0x29 f
  | .fclamp f => encV 0x2A f
  | .fdiv f => encV 0x2B f
  | .fsqrt f => encV 0x2C f
  | .frcp f => encV 0x2D f
  | .frsqrt f => encV 0x2E f
  | .fexp2 f => encV 0x2F f
  | .flog2 f => encV 0x30 f
  | .fsin f => encV 0x31 f
  | .fcos f => encV 0x32 f
  | .ftanh f => encV 0x33 f
  | .fsigm f => encV 0x34 f
  | .pfma f => encV 0x35 f
  | .padd f => encV 0x36 f
  | .pmul f => encV 0x37 f
  | .cvt f => encV 0x38 f
  | .qto f => encV 0x39 f
  | .qfrom f => encV 0x3A f
  | .qpack f => encV 0x3B f
  | .qunpk f => encV 0x3C f
  | .bscl f => encV 0x3D f
  | .fsld f => encV 0x3E f
  | .cvtp f => encV 0x3F f
  | .lsel f => encV 0x40 f
  | .patld f => encV 0x41 f
  | .poll f => encV 0x42 f
  | .eqset f => encV 0x43 f
  | .wred f => encV 0x44 f
  | .wscan f => encV 0x45 f
  | .lead f => encV 0x46 f
  | .v2s f => encV 0x47 f
  | .tfill f => encT 0x48 f
  | .tread f => encT 0x49 f
  | .ldG f => encM 0x50 f
  | .stG f => encM 0x51 f
  | .ldL f => encM 0x52 f
  | .stL f => encM 0x53 f
  | .ldC f => encM 0x54 f
  | .stC f => encM 0x55 f
  | .ldP f => encM 0x56 f
  | .stP f => encM 0x57 f
  | .pf f => encM 0x58 f
  | .fe f => encM 0x59 f
  | .l1wb f => encM 0x5A f
  | .l1inv f => encM 0x5B f
  | .kvkey f => encV 0x5C f
  | .atom f => encA 0x60 f
  | .atomf f => encA 0x61 f
  | .cas f => encA 0x62 f
  | .ldres f => encM 0x63 f
  | .stcond f => encM 0x64 f
  | .fence f => encM 0x65 f
  | .forage f => encM 0x66 f
  | .bar f => encM 0x67 f
  | .cntwt f => encM 0x68 f
  | .cntadd f => encM 0x69 f
  | .bra f => encI 0x6C f
  | .brx f => encV 0x6D f
  | .call f => encI 0x6E f
  | .callx f => encV 0x6F f
  | .ret f => encV 0x70 f
  | .join f => encI 0x71 f
  | .dqpop f => encV 0x72 f
  | .dqbr f => encV 0x73 f
  | .exit f => encV 0x74 f
  | .trap f => encV 0x75 f
  | .brk f => encV 0x76 f
  | .svc f => encV 0x77 f
  | .wake f => encV 0x78 f
  | .sreg f => encV 0x79 f
  | .swreg f => encV 0x7A f
  | .yield f => encV 0x7B f
  | .nop f => encV 0x7C f
  | .resume f => encV 0x7D f
  | .twait f => encV 0x7E f
  | .cadd f => encQ 0x01 f
  | .csub f => encQ 0x02 f
  | .cmul f => encQ 0x03 f
  | .cmulh f => encQ 0x04 f
  | .cdiv f => encQ 0x05 f
  | .cand f => encQ 0x06 f
  | .cor f => encQ 0x07 f
  | .cxor f => encQ 0x08 f
  | .cshl f => encQ 0x09 f
  | .cshr f => encQ 0x0A f
  | .csar f => encQ 0x0B f
  | .cmin f => encQ 0x0C f
  | .cmax f => encQ 0x0D f
  | .cbfx f => encQ 0x0E f
  | .cbfi f => encQ 0x0F f
  | .cpopc f => encQ 0x10 f
  | .cclz f => encQ 0x11 f
  | .cmov f => encQ 0x12 f
  | .cli f => encQ 0x13 f
  | .ccmp f => encQ 0x14 f
  | .csel f => encQ 0x15 f
  | .cb f => encQ 0x16 f
  | .cbx f => encQ 0x17 f
  | .ccall f => encQ 0x18 f
  | .cret f => encQ 0x19 f
  | .cld f => encQM 0x1A f
  | .cst f => encQM 0x1B f
  | .catom f => encQM 0x1C f
  | .cfence f => encQM 0x1D f
  | .dqpush f => encQ 0x1E f
  | .launch f => encQE 0x1F f
  | .wgbar f => encQ 0x20 f
  | .cwait f => encQ 0x21 f
  | .cforage f => encQM 0x22 f
  | .cmig f => encQ 0x23 f
  | .cend f => encQ 0x24 f
  | .cslot f => encQ 0x25 f
  | .wstat f => encQ 0x26 f
  | .tcfg f => encQE 0x28 f
  | .tld f => encQE 0x29 f
  | .tsd f => encQE 0x2A f
  | .tzero f => encQE 0x2B f
  | .arrw f => encQE 0x2C f
  | .arrmm f => encQE 0x2D f
  | .arrmmg f => encQE 0x2E f
  | .arrdist f => encQE 0x2F f
  | .arrbest f => encQE 0x30 f
  | .arrcent f => encQE 0x31 f
  | .adrain f => encQE 0x32 f
  | .adrainp f => encQE 0x33 f
  | .adraine f => encQE 0x34 f
  | .azero f => encQE 0x35 f
  | .aload f => encQE 0x36 f
  | .txpose f => encQE 0x37 f
  | .bcp f => encQE 0x40 f
  | .bgat f => encQE 0x41 f
  | .bsca f => encQE 0x42 f
  | .bexp f => encQE 0x43 f
  | .bfill f => encQE 0x44 f
  | .bpeer f => encQE 0x45 f
  | .mop f => encQE 0x46 f
  | .xopen f => encQE 0x47 f
  | .xclose f => encQE 0x48 f
  | .slxp f => encQE 0x49 f
  | .rsvfill f => encQE 0x4A f
  | .rsvdrop f => encQE 0x4B f
  | .rsvq f => encQE 0x4C f
  | .kvdrop f => encQE 0x4D f
  | .kvprio f => encQE 0x4E f
  | .rsvset f => encQE 0x4F f
  | .ctrap f => encQ 0x50 f
  | .cwake f => encQ 0x51 f
  | .csreg f => encQ 0x52 f
  | .cswreg f => encQ 0x53 f
  | .cresume f => encQ 0x54 f
  | .iret f => encQ 0x55 f
  | .chalt f => encQ 0x56 f
  | .ctxsv f => encQE 0x57 f
  | .ctxld f => encQE 0x58 f
  | .tabort f => encQ 0x59 f
  | .tcommit f => encQ 0x5A f
  | .csvc f => encQM 0x5B f
  | .tlbinv f => encQE 0x5C f
  | .ptwalk f => encQE 0x5D f
  | .pgdup f => encQE 0x5E f
  | .pgcol f => encQE 0x5F f
  | .pgsplit f => encQE 0x60 f
  | .pgjoin f => encQE 0x61 f
  | .pgmig f => encQE 0x62 f
  | .dirq f => encQE 0x63 f
  | .dirset f => encQE 0x64 f
  | .hostinv f => encQE 0x65 f
  | .illegalOpcode _ w => [w]
  | .memoryAccessCompletion _ => []
  | .vsfuCompletion _ => []
  | .executionPointOperation _ => []
  | .writeBackMerge _ _ => []
  | .fetchFill _ _ => []
  | .returnAddressRefill _ => []
  | .contextLineRefill _ _ => []
  | .fullEmptyServe _ => []
  | .counterWaitSatisfied _ => []
  | .decisionQueuePop _ _ => []
  | .dqpushWrite _ => []
  | .engineCommandStart _ => []
  | .arrayCommandStart _ => []
  | .planeLoad _ => []
  | .streamRowResult _ => []
  | .commandCompletion _ => []
  | .deliveryUnitAdvance _ => []
  | .collectiveCompletion _ => []
  | .adrainpRowArrival _ => []
  | .contributionAccept _ => []
  | .xcloseAtSlice _ => []
  | .workgroupPlacement => []
  | .nestQueueAppend _ => []
  | .queueServe _ => []
  | .launchEntryAccept _ => []
  | .copyBlockAccept _ => []
  | .warpEnd _ _ => []
  | .sliceLineReturn _ _ _ => []
  | .cueThreadEnd _ => []
  | .workgroupEnd _ => []
  | .gridRetirement _ => []
  | .taking _ => []
  | .imageAreaWrite _ => []
  | .registerLineEviction _ _ => []
  | .resumption => []
  | .migrationMessage _ _ => []
  | .serviceReply _ => []
  | .errorQueueDropReport => []
  | .reservationTimeout => []
  | .joinDeadline => []
  | .yieldExpiry => []
  | .tableWalk _ _ _ _ => []
  | .agingTick => []
  | .migrationFallback => []
  | .preemptionTimeout => []
  | .serviceTimeout => []
  | .sensorRefresh _ _ => []
  | .governorInterval _ => []
  | .governorHoldLimit => []
  | .diePowerOff => []
  | .dieReturn => []
  | .combLineError _ => []
  | .machineCheckEvent _ _ => []
  | .directoryErrorRecovery _ _ => []
  | .startUp _ _ _ _ => []
  | .attestation => []
  | .mwakeWrite _ _ => []
  | .queueWakeWrite _ _ => []
  | .queueEnable => []
  | .queueDisable => []
  | .wshareUpdate => []
  | .registerWrite _ _ _ => []
  | .hostRead _ _ _ => []
  | .hostWrite _ _ => []
  | .hostRecall _ _ => []
  | .readMsg _ _ _ => []
  | .writeMsg _ _ _ => []
  | .atomicMsg _ _ _ _ _ _ => []
  | .grant _ _ _ _ _ => []
  | .probeInv _ _ => []
  | .probeRecall _ _ => []
  | .probeSplit _ _ => []
  | .probeAll _ _ => []
  | .ack _ _ _ _ _ => []
  | .forwardedCommand _ _ _ _ => []
  | .packet _ _ _ _ => []
  | .nak _ _ => []
  | .linkRetryThreshold => []
  | .linkDown _ => []
  | .linkUp _ => []

/-- The bytes of an instruction. -/
def encodeBytes (i : Instr) : List Byte := (encode i).flatMap bytesOf

/-- The stream and the instruction of a table row's bits: the two opcode maps share their numbers, so a word is read in the warp stream unless only the cue stream has a (well-formed) instruction for it (log 33). -/
def tableWord (nbits w : Nat) : Option (Stream × Instr) :=
  let bs := leBytes 8 (w % 2 ^ nbits)
  match decode .warp bs, decode .cue bs with
  | .ok (i, _), .ok (j, _) => if isIllegal i || (!i.wf && j.wf) then some (.cue, j) else some (.warp, i)
  | .ok (i, _), .error _ => some (.warp, i)
  | .error _, .ok (j, _) => some (.cue, j)
  | .error _, .error _ => none
/-- The instruction the decoder reads from a table row's bits. -/
def decodeTableWord (nbits w : Nat) : Option Instr := (tableWord nbits w).map (·.2)

end Sys2Proof
end

