-- ==== Sys2Proof/Config.lean ====
section
/-! DEFINITION. What the spec leaves open: free values (constants with no body, so that nothing can be proved of a value of theirs) and the figures an implementation fixes. -/

namespace Sys2Proof

/-- FREE VALUE (log 3): which of the enabled steps of the device comes next, where no rule orders them (09 R468, R212). Applied to `State.fresh`. -/
opaque Config.pick : Nat → Nat

/-- FREE VALUE (log 20): the bits an approximate function writes, before they are held to the bound of 04 R112. Arguments: the opcode of the function, the input bits, and whether the form is `.ftz`. For `fexp2`, `flog2`, `ftanh` and `fsigm`, which never fall, the second argument is a rank of results, and the value is the rank of the least argument that reaches it. -/
opaque Config.approx : Nat → BitVec 32 → Bool → BitVec 32

/-- FREE VALUE (log 11): a byte that a peer device returns, applied to `State.fresh`. -/
opaque Config.peerByte : Nat → BitVec 8

/-- FREE VALUE (log 23): whether a peer holds a READY copy of a page, which only that peer knows, applied to `State.fresh`. -/
opaque Config.coin : Nat → Bool

/-- FREE VALUE (log 4): SHA3-256 of a list of bytes (01 R19, 15 R432). The spec names the function and does not define it. -/
opaque Config.sha3 : List (BitVec 8) → BitVec 256

/-- FREE VALUE (log 4): whether an ML-DSA-44 signature over a digest verifies under the vendor key (01 R20, 15 R432). -/
opaque Config.verify : BitVec 256 → List (BitVec 8) → Bool

/-- FREE VALUE (log 4): the 2,420-byte attestation signature over a digest (15 R434). -/
opaque Config.sign : BitVec 256 → List (BitVec 8)

/-- FREE VALUE (log 4): whether the unclonable source reproduces the seed (15 R434). -/
opaque Config.seedOk : Nat → Bool

/-- FREE VALUE (log 26): a value the spec leaves unstated, by what it is of. -/
opaque Config.unstated : Nat → BitVec 64

/-- The clks of one microsecond at 1.05 GHz (00 R3). -/
def Config.clkPerUs : Nat := 1050

/-- Clks of 1 ms at 1.05 GHz (10 R256, R269). -/
def Config.clkPerMs : Nat := 1050000

end Sys2Proof
end

