-- ==== Sys2Proof/Machine/Sparse.lean ====
section
/-! DEFINITION. Sparse maps from numbers to bit vectors in one canonical form: keys strictly rising and no entry equal to what an unlisted key reads as, which is zero. Memory (bytes by address, Host.Cell), register files and granule side bits are all of this form. -/

namespace Sys2Proof.Machine

/-- A sparse map; unlisted keys read as zero. -/
abbrev SMap (w : Nat) := List (Nat × BitVec w)

/-- Memory: (address, byte) pairs. -/
abbrev Mem := List Host.Cell

/-- What key k holds. -/
def SMap.get {w : Nat} : SMap w → Nat → BitVec w
  | [], _ => 0
  | (k', v) :: r, k => if k' = k then v else SMap.get r k

/-- Remove key k. -/
def SMap.del {w : Nat} : SMap w → Nat → SMap w
  | [], _ => []
  | (k', v) :: r, k => if k' = k then SMap.del r k else (k', v) :: SMap.del r k

/-- Give key k a non-zero value. -/
def SMap.ins {w : Nat} : SMap w → Nat → BitVec w → SMap w
  | [], k, v => [(k, v)]
  | (k', v') :: r, k, v =>
    if k' = k then (k, v) :: r else if k < k' then (k, v) :: (k', v') :: r else (k', v') :: SMap.ins r k v

/-- Write key k: the canonical form is kept, so writing zero removes the entry. -/
def SMap.set {w : Nat} (m : SMap w) (k : Nat) (v : BitVec w) : SMap w := if v = 0 then m.del k else m.ins k v

/-- Keys rise strictly from `lo` on and no entry is zero. -/
def SMap.wfFrom {w : Nat} : Nat → SMap w → Bool
  | _, [] => true
  | lo, (k, v) :: r => decide (lo ≤ k) && decide (v ≠ 0) && SMap.wfFrom (k + 1) r

/-- The canonical form holds. -/
def SMap.wf {w : Nat} (m : SMap w) : Bool := SMap.wfFrom 0 m

/-- The canonical form of memory. -/
def Memory.wf (m : Mem) : Bool := SMap.wf (w := 8) m

/-- Write the values of a list at consecutive keys. -/
def SMap.setList {w : Nat} (m : SMap w) (k : Nat) : List (BitVec w) → SMap w
  | [] => m
  | v :: vs => SMap.setList (m.set k v) (k + 1) vs

/-- Read n consecutive keys. -/
def SMap.getList {w : Nat} (m : SMap w) (k : Nat) : Nat → List (BitVec w)
  | 0 => []
  | n + 1 => m.get k :: SMap.getList m (k + 1) n

/-- Write every (key, value) pair, in order. -/
def SMap.setAll {w : Nat} (m : SMap w) : List (Nat × BitVec w) → SMap w
  | [] => m
  | (k, v) :: r => SMap.setAll (m.set k v) r

end Sys2Proof.Machine
end

