-- ==== Sys2Proof/Machine/State.lean ====
section
/-! DEFINITION. The state of the device as plain data (INVENTORY.md, State): every register, memory, queue and table the spec gives it, the reasons a step can stop, and the state at reset. -/

namespace Sys2Proof.Machine

/-- Who takes the present step: the issuing group of a warp (07 R149), a cue thread, a management core's privileged cue thread, or no instruction stream (an event of the device). -/
inductive Issuer where
  | none
  | warp (wg warp : Nat) (lanes : List Nat)
  | cue (wg : Nat)
  | mgmt (stack : Nat)
  deriving DecidableEq, Repr

/-- An agent of 09 R210. -/
inductive Agent where
  | thread (wg warp lane : Nat)
  | cue (wg : Nat)
  | mgmt (stack : Nat)
  | engine (cmd : Nat)
  | host
  | peer (dev : Nat)
  | device
  deriving DecidableEq, Repr

/-- Where a thread stands inside a clause (02 R26, R28): its header's address and fields, the instruction words left, whether the next instruction is the first, and whether the WAIT condition has held (02 R29). -/
structure Clause where
  hdr : VAddr
  eng : BitVec 3
  wait : BitVec 6
  left : Nat
  len : Nat
  cut : Bool
  strict : Bool
  cutix : BitVec 16
  first : Bool
  waited : Bool
  deriving DecidableEq, Repr

/-- A LOOK window (02 R55, R56): the flight that opened it, how many instructions may still issue, and the registers pending as destinations and as data sources (vector numbers of a thread, cue numbers of a cue thread). Registers are pending by the issue count alone; `done` says that the instruction has completed. -/
structure Window where
  flight : Nat
  left : Nat
  wr : List Nat
  rd : List Nat
  isSvc : Bool
  isPriv : Bool
  done : Bool
  deriving DecidableEq, Repr

/-- A cause recorded against a thread and not yet delivered (08 R198, 13 R357): it falls due when `left` reaches 0 (loads) or at a wait that names `tok` (engine commands and collectives). -/
structure Deferred where
  cause : Cause
  addr : BitVec 64
  lanes : BitVec 128
  fpc : VAddr
  tok : Option Nat
  left : Nat
  engine : Bool
  words : BitVec 64
  stamp : Nat
  deriving DecidableEq, Repr

/-- What a parked thread or cue thread waits for (07 R148, 10 R244). -/
inductive Park where
  | join (deadline : Option Nat) (pred : Nat) (hdr : VAddr)
  | dqpop (d : Nat)
  | dqbr (d : Option Nat)
  | bar (n count : Nat) (order : Bool) (obs : BitVec 7)
  | counter (flight : Nat)
  | fullEmpty (flight : Nat) (served : Bool)
  | twait (mask : BitVec 6)
  | refill (flight : Nat)
  | ring (flight : Nat)
  | dqpush (mask entry : DWord)
  | wgbar (n : Nat)
  | wgbarExit
  | cwait (mask : BitVec 6) (upTo : Nat)
  | launchHold (record : DWord) (d : Nat) (tok : Option Nat)
  | cend
  | chalt (d : Nat)
  deriving DecidableEq, Repr

/-- A retake stub in progress (13 R373, R348): the cut clause it returns to, the instructions it has issued, and the registers dead at the cut and not yet written. -/
structure Stub where
  target : VAddr
  issued : Nat
  deadV : List Nat
  deadS : List Nat
  deadP : List Nat
  deriving DecidableEq, Repr

/-- The life of a lane of a warp (06 R133). -/
inductive Life where
  | live | exited | absent
  deriving DecidableEq, Repr

/-- The state of one thread (07 R147, 13 R378). The return stack holds at most four entries, newest first. `readyAt` ends a `yield`; `nextAt` is the first clk in which R54 lets the thread issue again. -/
structure Thread where
  pc : VAddr
  clause : Option Clause
  rstack : List VAddr
  depth : BitVec 16
  pass : BitVec 8
  life : Life
  park : Option Park
  plen : Nat
  readyAt : Nat
  nextAt : Nat
  cutDist : Nat
  fpstat : Word
  sp : Word
  inHandler : Bool
  saved : Option Clause
  stub : Option Stub
  cutPc : VAddr
  cutRec : BitVec 16
  moved : Bool
  windows : List Window
  deferred : List Deferred
  deriving DecidableEq, Repr

/-- A tile collective in flight (11 R310, R311). -/
structure Collective where
  id : Nat
  fill : Bool
  tile : Nat
  tok : Option Nat
  deriving DecidableEq, Repr

/-- What one pass wrote over (06 R134, R140, R146): the first clk in which another group of the warp sees the new values, the lanes of the issuing group, the old values of the vector registers it wrote (keys as in `Warp`), and the old and the new values of what belongs to the warp: uniform registers, pattern tables, the group key. -/
structure Recent where
  seen : Nat
  lanes : List Nat
  vold : List (Nat × Word)
  swr : List (Nat × Word × Word)
  pwr : List (Nat × List Byte × List Byte)
  kwr : List (Nat × BitVec 16 × BitVec 16)
  deriving DecidableEq, Repr

/-- What a group sees otherwise than the warp's registers hold it (06 R134): vector registers by key, uniform registers, pattern tables, the group key (at 0). -/
structure View where
  vregs : List (Nat × Word)
  sregs : List (Nat × Word)
  tables : List (Nat × List Byte)
  key : List (Nat × BitVec 16)
  deriving DecidableEq, Repr

/-- A pass still to come of an instruction that reads uniform registers (03 R71, R72): its clk, the instruction and the number that its flight has, if it is a long one, the lanes of its group and the contributors of the pass, and what their registers, predicates and `%fpstat` held when the instruction issued. -/
structure LatePass where
  at_ : Nat
  i : Instr
  flight : Nat
  lanes : List Nat
  cs : List Nat
  vregs : SMap 32
  preds : SMap 1
  fpstat : List (Nat × Word)
  deriving DecidableEq, Repr

/-- The state of one warp. Vector register r of lane t is key 128 r + t; predicate n of lane t is key 128 n + t; patterns is the 96 bytes of the three tables; dq holds the decision queue, oldest first; `dqAt` is the clk of the last push; `recent` holds the passes whose writes another group may not see yet, newest first, `view` what the group issuing now sees of them, `late` the passes still to come that read uniform registers; portA and portB are the first clks in which 02 R54 lets the warp issue there. -/
structure Warp where
  threads : List Thread
  vregs : SMap 32
  sregs : SMap 32
  preds : SMap 1
  tokens : SMap 6
  patterns : List Byte
  dq : List DWord
  kvkey : BitVec 16
  colls : List Collective
  quarter : Nat
  position : Nat
  ended : Bool
  returned : List Nat
  dqAt : Nat
  recent : List Recent
  view : View
  late : List LatePass
  portA : Nat
  portB : Nat
  deriving DecidableEq, Repr

/-- The state of a cue thread (10 R245). The return stack holds at most eight entries, newest first. `nextAt` is the first clk in which its `cdiv` lets it issue again (10 R247). -/
structure Cue where
  pc : VAddr
  clause : Option Clause
  regs : SMap 64
  flags : BitVec 4
  tokens : SMap 6
  rstack : List VAddr
  park : Option Park
  plen : Nat
  cutDist : Nat
  inHandler : Bool
  saved : Option Clause
  stub : Option Stub
  cutPc : VAddr
  cutRec : BitVec 16
  moved : Bool
  nextAt : Nat
  windows : List Window
  deferred : List Deferred
  ended : Bool
  deriving DecidableEq, Repr

/-- The fields of a launch record (10 R248). -/
structure LaunchRec where
  version : Nat
  versioned : Bool
  signal : Bool
  energy : Nat
  prio : Nat
  width : Nat
  cutmax : Nat
  wstream : Nat
  cstream : Nat
  cuttab : Nat
  cutcnt : Nat
  hmask : BitVec 32
  whandler : Nat
  chandler : Nat
  gdim : Nat × Nat × Nat
  wdim : Nat × Nat × Nat
  vregs : Nat
  sregs : Nat
  tiles : Nat
  accs : Nat
  tileg : Nat
  locals : List Word
  pbase : Nat
  psize : Nat
  argsize : Nat
  args : Nat
  sigaddr : Nat
  sigval : DWord
  vbudget : Nat
  pattern : Nat
  slots : List Word
  ckey : BitVec 16
  reserved : Bool
  deriving DecidableEq, Repr

/-- An accepted grid (10 R251 to R255, R469). `run` is its 8 KiB run of the context region (13 R470), freed at retirement; a retired grid stays for engine commands of its workgroups that are still in flight. -/
structure Grid where
  num : Nat
  lrec : LaunchRec
  depth : Nat
  parent : Option Nat
  notify : Option (Issuer × Nat)
  queue : Option Nat
  asid : BitVec 16
  root : Nat
  owner : BitVec 16
  svcOk : Bool
  wakeOk : Bool
  run : Nat
  patterns : List Byte
  basePrio : Nat
  aged : Nat
  readySince : Nat
  nextWg : Nat
  endedWgs : Nat
  retired : Bool
  deriving DecidableEq, Repr

/-- STATE of the workgroup record (13 R378). -/
inductive WgState where
  | resident | taken | halted | ended
  deriving DecidableEq, Repr

/-- Who asked for a taking (13 R372). -/
inductive TakeWhy where
  | dispatch | thermal | migrate | ctxsv (cmd : Nat) (halt : Bool)
  deriving DecidableEq, Repr

/-- A version line of a versioned task (13 R363): written bytes of one 128-byte line, the cap syndromes of the granules written whole, the group key and the issuer (13 R351 bits [1:0]) of its last write. -/
structure VLine where
  line : Nat
  mask : BitVec 128
  data : BitVec 1024
  synd : BitVec 128
  key : BitVec 16
  by_ : Nat
  deriving DecidableEq, Repr

/-- A workgroup (10 R257, 13 R378). `bases` are the physical local-store offsets of its allocations; `acc` holds accumulator a, row r, column c at key 8192 a + 256 r + c; `tiles` holds its granules' bytes; `missing` lists register lines that stand only in the image; `storedTiles` and `storedLocal` say that tiles with accumulators, and local allocations, stand only in the image. -/
structure Workgroup where
  id : Nat
  grid : Nat
  lin : Nat
  st : WgState
  core : Nat
  ctx : Nat
  image : Nat
  bases : List Nat
  warps : List Warp
  cue : Cue
  tiles : SMap 8
  tcfg : SMap 64
  tconf : List Nat
  tgen : SMap 32
  acc : SMap 32
  phase : SMap 32
  take : Option TakeWhy
  takeAt : Nat
  takeLate : Bool
  cmig : Option Nat
  target : Option Nat
  held : Bool
  taskOn : Bool
  nonRestart : Bool
  vlines : List VLine
  vbytes : Nat
  vdone : Bool
  missing : List Nat
  storedTiles : Bool
  storedLocal : Bool
  deriving DecidableEq, Repr

/-- A management core (13 R362, R381). -/
structure Mgmt where
  cue : Cue
  mepc : DWord
  mcause : DWord
  maddr : DWord
  mtvec : DWord
  mscratch : DWord
  inTrap : Bool
  stopped : Bool
  deriving DecidableEq, Repr

/-- Where one access lands: HBM-backed memory of this device, a local store (pair × 2^20 + offset), host memory, a peer's memory, a CTRAP slot (in the context region of HBM, never cached), or the management register map (08 R187, R175, R467). -/
inductive Loc where
  | mem (pa : Nat)
  | ls (a : Nat)
  | host (a : Nat)
  | peer (pa : Nat)
  | ctrap (pa : Nat)
  | mreg (off : Nat)
  deriving DecidableEq, Repr

/-- One write of a register of a lane (of the cue thread: lane 0 and cue register number). -/
structure RegWrite where
  lane : Nat
  reg : Nat
  val : DWord
  deriving DecidableEq, Repr

/-- One lane's part of an operation at an execution point (09 R220): where, the operand registers, and whether the page is strongly consistent (09 R219). -/
structure LaneOp where
  lane : Nat
  loc : Loc
  va : BitVec 64
  ops : List DWord
  sc : Bool
  deriving DecidableEq, Repr

/-- What a long operation in flight still has to do (02 R55). -/
inductive FlightKind where
  /-- an access already performed: write registers, merge flags, record failing lanes -/
  | load (writes : List RegWrite) (flags : List (Nat × BitVec 7)) (bad : List (Nat × Cause × BitVec 64))
  /-- a special-function instruction in a unit of the stage (13 R350): write registers, merge flags per lane -/
  | vsfu (unit : Nat) (writes : List RegWrite) (flags : List (Nat × BitVec 7))
  /-- an operation still to be executed at its execution point, with the group key it carries (08 R208) -/
  | exec (i : Instr) (ops : List LaneOp) (key : BitVec 16)
  /-- a load parked on full/empty bits: lanes not yet served, and what was read -/
  | fullEmpty (i : Instr) (waiting : List LaneOp) (writes : List RegWrite) (bad : List (Nat × Cause × BitVec 64))
  /-- a cntwt parked on counters: lanes whose comparison has not held yet with their targets, and the causes that others met -/
  | counter (i : Instr) (ops : List LaneOp) (bad : List (Nat × Cause × BitVec 64))
  /-- return-address refills -/
  | refill (ops : List (Nat × DWord))
  /-- a service request waiting for DONE: queue, record number, reply register -/
  | svc (q n : Nat) (d : Nat) (lanes : List Nat) (reply : Nat) (posted : Nat)
  /-- a tile collective: register writes or tile bytes to write -/
  | collective (tile : Nat) (tok : Option Nat) (writes : List RegWrite) (bytes : List (Nat × Byte))
  /-- nothing left but to complete -/
  | plain
  deriving DecidableEq, Repr

/-- A long operation issued and not complete. -/
structure Flight where
  id : Nat
  who : Issuer
  pc : VAddr
  look : Nat
  clk : Nat := 0
  kind : FlightKind
  deriving DecidableEq, Repr

/-- Who issued an engine command. -/
inductive CmdOwner where
  | cue (wg : Nat) | mgmt (stack : Nat) | queue (q block : Nat) | peer (dev : Nat)
  deriving DecidableEq, Repr

/-- An engine command (11 R286, 12 R313, 13 R393, 14 R413): the instruction, the cue registers and tile configurations as they stood at issue, and how far it has come: `done` of `total` units, and the half-steps that a streaming command has been supplied with (11 R308). `aux` is the command's own scratch: a table read, a window of indices, a target, the elements done; `buf` and `bufSynd` are the engine's buffer (12 R330): bytes by address, cap syndromes by granule. -/
structure Cmd where
  id : Nat
  op : Instr
  owner : CmdOwner
  core : Nat
  regs : SMap 64
  tok : Option Nat
  pc : VAddr
  words : BitVec 64
  stamp : Nat
  started : Bool
  plane : Bool
  done : Nat
  total : Nat
  half : Nat
  cause : Option (Cause × BitVec 64)
  aux : List Nat
  buf : SMap 8
  bufSynd : SMap 16
  cfgs : SMap 64
  deriving DecidableEq, Repr

/-- A physical piece of a registered range (09 R222): bytes lo to hi (exclusive) of global memory, or of the local stores; `rng` is the range's number in its command; `shared` says that reads of it never conflict. -/
structure Lock where
  cluster : Nat
  local_ : Bool
  lo : Nat
  hi : Nat
  source : Bool
  wg : Option Nat
  cmd : Nat
  rng : Nat
  shared : Bool := false
  deriving DecidableEq, Repr

/-- A stationary plane's tag (11 R287). -/
structure PlaneTag where
  wg : Nat
  tile : Nat
  gen : Word
  deriving DecidableEq, Repr

/-- The two stationary planes of a core. -/
structure Planes where
  core : Nat
  active : Option PlaneTag
  shadow : Option PlaneTag
  deriving DecidableEq, Repr

/-- A reservation (09 R221). -/
structure Resv where
  slice : Nat
  granule : Nat
  agent : Agent
  at_ : Nat
  claim : Option Nat := none
  deriving DecidableEq, Repr

/-- An exact reduction group (12 R333). -/
structure Group where
  slice : Nat
  slot : Nat
  serial : Word
  vals : List (BitVec 320)
  cnts : List Nat
  deriving DecidableEq, Repr

/-- Who wrote dirty bytes of a peer's memory that an L1 line holds: the peer may refuse them at the thread's wait (14 R400, R406). -/
structure Writer where
  mask : BitVec 128
  who : Issuer
  pc : VAddr
  addr : BitVec 64
  deriving DecidableEq, Repr

/-- An L1 line (08 R180): byte k is bits [8k+7:8k] of data; the cap syndrome of granule j is bits [16j+15:16j] of synd; `writers` names those of its dirty bytes, in a line of a peer. Lines are numbered through the places that L1 caches (`l1Addr`); those of a core stand in order of use, the last used first. -/
structure L1Line where
  core : Nat
  line : Nat
  valid : BitVec 128
  dirty : BitVec 128
  data : BitVec 1024
  synd : BitVec 128
  imm : Bool
  key : BitVec 16
  writers : List Writer
  deriving DecidableEq, Repr

/-- A resident comb line (08 R190, R192): its home slice, which bytes are newer than HBM, what HBM holds under them, its group key, when it was written last, and whether its die's alarm has poisoned its image (15 R430). The lines stand in order of use, the last used first. -/
structure CombLine where
  line : Nat
  slice : Nat
  dirty : BitVec 128
  image : BitVec 1024
  imageSynd : BitVec 128
  key : BitVec 16
  wrote : Nat
  lost : Bool
  deriving DecidableEq, Repr

/-- A TLB entry (14 R399): of a core, or of a cluster's second level. `page` and `pa` are byte addresses of the page. -/
structure TlbEntry where
  second : Bool
  unit : Nat
  asid : BitVec 16
  page : Nat
  size : Nat
  pa : Nat
  flags : BitVec 8
  deriving DecidableEq, Repr

/-- A line of a pair's instruction cache (01 R11), with the cause of a fetch that failed (13 R358). -/
structure ILine where
  pair : Nat
  asid : BitVec 16
  va : Nat
  data : List Byte
  mark : Option Cause
  deriving DecidableEq, Repr

/-- A page-directory entry (14 R401). -/
structure DirEntry where
  seq : BitVec 16
  st : BitVec 8
  size : BitVec 8
  owner : BitVec 8
  set : BitVec 64
  deriving DecidableEq, Repr

/-- The host's state of a line (14 R407): 0 I, 1 S, 2 M. `pend` marks the bytes that the device has written while M was being recalled: they stand over the data that comes back. -/
structure HostLine where
  line : Nat
  st : BitVec 2
  seq : BitVec 8
  pend : BitVec 128
  deriving DecidableEq, Repr

/-- A transition running at this home (14 R405): the command, the entry it started from, the entry to write last, the devices whose acknowledgements are awaited, the grants to send (device, owned, with data), whether they have been sent, so that the grants' acknowledgements are the awaited ones, the writes to peers that its translations' accesses left (request numbers), and the subpages a split dropped (device, subpage). -/
structure Transition where
  cmd : Nat
  index : Nat
  before : DirEntry
  after : DirEntry
  split : Bool
  waiting : List Nat
  grants : List (Nat × Bool × Bool)
  granted : Bool
  asks : List Nat
  drops : List (Nat × Nat)
  deriving DecidableEq, Repr

/-- A coherence message sent (14 R404): its cap syndromes, one a granule of its data where it carries caps; the operation of an ATOMIC with its operand words; the number of the request that it asks or answers; which part of a message of several packets it is (log 37); the device it comes from, when this device only passes it on, and the port it arrived on, when it is forwarded as it came (15 R423). -/
structure Msg where
  dst : Nat
  kind : BitVec 6
  page : Nat
  seq : BitVec 16
  aux : Nat
  data : List Byte
  caps : List (BitVec 16) := []
  op : Option Instr := none
  args : List DWord := []
  tag : Nat := 0
  part : Nat := 0
  src : Option Nat := none
  via : Option Nat := none
  deriving DecidableEq, Repr

/-- A request of this device that a peer has not answered yet (09 R211 class P, 12 R327, R335): the device asked, the core or the command that waits for it, and who is told of a refusal: the group or cue thread that issued it, its PC and its address. -/
structure Await where
  tag : Nat
  dev : Nat
  who : Issuer
  core : Option Nat
  cmd : Option Nat
  pc : VAddr
  addr : BitVec 64
  deriving DecidableEq, Repr

/-- A host queue as the dispatcher holds it (15 R424 to R426): the descriptor read at enabling; whether it is still enabled; the grid accepted last; WIDX as last read; accepted copy blocks as (number, complete, failed), oldest first; entries taken so far. -/
structure QueueSt where
  q : Nat
  base : Nat
  slots : Nat
  kind : Nat
  prio : Nat
  weight : Nat
  serial : Bool
  faulted : Bool
  svc : Bool
  wake : Bool
  vers : Bool
  keys : Bool
  owner : BitVec 16
  asid : BitVec 16
  cluster : Nat
  root : Nat
  signal : Nat
  cur : Option Nat
  seen : Nat
  on : Bool
  blocks : List (Nat × Bool × Bool)
  taken : Nat
  deriving DecidableEq, Repr

/-- A packet in a retry buffer (14 R411): its LSEQ, its flits as first sent, the message it carries, and the dictionary slots that it writes (R412). -/
structure Packet where
  lseq : BitVec 12
  flits : List (List (BitVec 8))
  msg : Msg
  ins : List (Nat × BitVec 128)
  deriving DecidableEq, Repr

/-- A Votan port (14 R410 to R412): LSEQ expected next and to be sent next, LSEQ of the oldest packet not acknowledged, the packets sent and not acknowledged, the messages that wait for room in the retry buffer, the LSEQs of the NAKs sent, oldest first, retries of the oldest in a row, when retries happened, and the dictionaries of both directions. -/
structure Port where
  port : Nat
  up : Bool
  inSeq : BitVec 12
  outSeq : BitVec 12
  acked : BitVec 12
  retry : List Packet
  queue : List Msg
  naks : List (BitVec 12)
  retries : Nat
  retryAt : List Nat
  dictIn : List (BitVec 128)
  dictOut : List (BitVec 128)
  deriving DecidableEq, Repr

/-- The part record in module flash (01 R19). -/
structure PartRecord where
  magic : Word
  version : BitVec 16
  part : BitVec 16
  serial : DWord
  clkmax : Word
  pwrmax : Word
  rsv0 : DWord
  pairen : BitVec 1024
  sliceen : BitVec 1024
  hbmen : BitVec 256
  peeren : BitVec 16
  hosten : BitVec 16
  rsv1 : BitVec 480
  digest : BitVec 256
  signature : List Byte
  deriving DecidableEq, Repr

/-- A firmware image in module flash (15 R432 step 2). -/
structure Image where
  body : List Byte
  digest : BitVec 256
  signature : List Byte
  deriving DecidableEq, Repr

/-- What start-up reads from module flash: the part record, the firmware images, and the device configuration they carry (15 R432 step 5). -/
structure Flash where
  part : PartRecord
  images : List Image
  devnum : BitVec 6
  domain : DWord
  route : SMap 64
  dirbase : Nat
  copybase : Nat
  deriving DecidableEq, Repr

/-- An access of the host or of a peer that waits for a page in X (14 R405), or behind a write of the host that arrived over the same module and waits so (15 R421): what the event of the same name carries. -/
inductive Held where
  | hostRead (pa n : Nat) (own : Bool)
  | hostWrite (pa : HostPlace) (data : List Byte)
  | regWrite (offset : HostPlace) (bytes : Nat) (value : BitVec 64)
  | mwakeWrite (stack : HostPlace) (value : BitVec 64)
  | wakeWrite (q : HostPlace) (value : BitVec 32)
  | read (src pa n : Nat)
  | write (src pa : Nat) (data : Carried)
  | atomic (src pa wid : Nat) (float : Bool) (aop : BitVec 6) (operand : BitVec 64)
  deriving DecidableEq, Repr

/-- The step the device takes next (see `State.agenda`): a warp chosen by port 0 (A) or 1 (B) of its quarter (07 R150); the group that port B issues in the same clk (R151 steps 3 and 4), with the lanes of the warp that port A issued and those that were ready; a cue thread, a management core, an event; an access that waited for a page in X; the next unit of a command; a peer's answer to a request; a directory or contract entry that is found to fail its check (08 R200), by its granule; a soft error, as the self-check (13 R350) or the machine check (R354) that finds it. -/
inductive Act where
  | warp (wg warp port : Nat)
  | beside (wg warp : Nat) (lanes first ready : List Nat)
  | cue (wg : Nat)
  | mgmt (stack : Nat)
  | event (i : Instr)
  | held (a : Held)
  | unit (cmd : Nat)
  | answer (tag : Nat)
  | entry (granule : Nat)
  | upset (cause : Cause) (addr : BitVec 64)
  | idle
  deriving DecidableEq, Repr

/-- The state of the device. `mregs` holds the management register map (15 R422) by offset in 8-byte units; registers read as zero unless listed. `rounds` holds, for each interrupted round of 10 R256, its level, the member it stands at (queue q, or 256 + grid) and how many workgroups that member has placed. `port` is the port of the present issue (0 A, 1 B); `rota` holds the pointer of each port, key 8 core + 2 quarter + port (07 R150); `passes` the (port, clk) of passes still due (03 R71); `stages` the ports whose special-function stage is taken, each with the clk in which it is free again (04 R102); `cueNext` the context of each core that issued last (10 R244); `badEntries` the granules of the contract table whose failing checks have been posted (08 R200). At reset the pointers are 0 (DESIGN CHOICE: log 97). -/
structure State where
  clk : Nat
  fresh : Nat
  cur : Issuer
  agenda : List Act
  port : Nat
  rota : SMap 4
  passes : List (Nat × Nat)
  stages : List (Nat × Nat)
  cueNext : SMap 2
  softErrors : List Cause
  badEntries : List Nat
  flash : Flash
  part : PartRecord
  mregs : SMap 64
  wshare : SMap 2
  errDropped : Nat
  measure : BitVec 256
  govTicks : Nat
  dieAlarm : List (Nat × Nat)
  dieOff : List Nat
  queues : List QueueSt
  rounds : List (Nat × Nat × Nat)
  nextGrid : Nat
  nextId : Nat
  grids : List Grid
  wgs : List Workgroup
  mgmt : List Mgmt
  flights : List Flight
  cmds : List Cmd
  locks : List Lock
  planes : List Planes
  exclusion : SMap 1
  resv : List Resv
  groups : List Group
  serials : SMap 32
  mem : Mem
  memSynd : SMap 16
  comb : List CombLine
  keyPrio : SMap 2
  hostMem : Mem
  lstore : Mem
  lsSynd : SMap 16
  lsFull : SMap 1
  l1 : List L1Line
  tlb : List TlbEntry
  icache : List ILine
  busy : List Transition
  hostLines : List HostLine
  ports : List Port
  outbox : List Msg
  awaits : List Await
  inbox : List Held
  deriving DecidableEq, Repr

/-- Why a step stops. -/
inductive Fault where
  /-- Raised by every meaning whose stream is not that of `State.cur`: an instruction without a thread that issues it has no effect in the spec. Safe: `step` always names the issuer first. -/
  | noIssuer
  deriving DecidableEq, Repr

/-- Why the model declines a step. -/
inductive Refusal where
  /-- Raised by an arm of `exec` whose instruction has no meaning in the model. Safe. -/
  | notModelled (mnemonic : String)
  deriving DecidableEq, Repr

/-- A group that sees every register as it stands. -/
def View.none : View := { vregs := [], sregs := [], tables := [], key := [] }

/-- A cue thread with every register, flag and token zero (10 R245). -/
def Cue.zero : Cue :=
  { pc := 0, clause := none, regs := [], flags := 0, tokens := [], rstack := [], park := none, plen := 0, cutDist := 0,
    inHandler := false, saved := none, stub := none, cutPc := 0, cutRec := 0, moved := true, nextAt := 0, windows := [], deferred := [], ended := false }

/-- A management core at reset: DESIGN CHOICE (log 12), the spec gives no reset values. -/
def Mgmt.zero : Mgmt :=
  { cue := Cue.zero, mepc := 0, mcause := 0, maddr := 0, mtvec := 0, mscratch := 0, inTrap := false, stopped := false }

/-- The part record of an RZ-9600 with every unit enabled (01 R19, R21); DESIGN CHOICE (log 4) for SERIAL, DIGEST and SIGNATURE. -/
def PartRecord.rz9600 : PartRecord :=
  { magic := 0x5A525052, version := 1, part := 0x9600, serial := 0, clkmax := 1050, pwrmax := 3600, rsv0 := 0,
    pairen := BitVec.allOnes 1024, sliceen := BitVec.allOnes 1024, hbmen := BitVec.allOnes 256,
    peeren := BitVec.allOnes 16, hosten := 0xF, rsv1 := 0, digest := 0, signature := [] }

/-- Module flash at reset: DESIGN CHOICE (log 4), device 0 alone in its domain. -/
def Flash.reset : Flash :=
  { part := PartRecord.rz9600, images := [], devnum := 0, domain := 1, route := [],
    dirbase := 0x7800000000, copybase := 0x7900000000 }

/-- A Votan port at reset: sequence numbers and dictionaries zero (14 R412), down until trained (15 R432). -/
def Port.reset (k : Nat) : Port :=
  { port := k, up := false, inSeq := 0, outSeq := 0, acked := 0, retry := [], queue := [], naks := [], retries := 0, retryAt := [], dictIn := [], dictOut := [] }

/-- The register map at reset (15 R422), by offset / 8: ID and HBMCAP from the part record, PWRLIM, TLIM, DIEBUDGET, PTIMEOUT; every DIESTAT on with DIEEN and every COLSTAT at 0 degrees, class 3 (log 5); the rest zero. -/
def State.resetRegs : SMap 64 :=
  [(0, 0x00019600), (2, 0x8000000000), (3, 3600), (6, 0x0730069005F00550), (7, 512), (11, 1000)]
    ++ (List.range 16).map (fun d => (32 + d, 0x100000000))
    ++ (List.range 1024).map (fun c => (128 + c, 0x30000))

/-- The device right after reset, before start-up runs (15 R432): no grid, no workgroup, caches empty. -/
def State.reset : State :=
  { clk := 0, fresh := 0, cur := .none, agenda := [], port := 0, rota := [], passes := [], stages := [], cueNext := [], softErrors := [], badEntries := [], flash := Flash.reset, part := PartRecord.rz9600,
    mregs := State.resetRegs, wshare := [], errDropped := 0, measure := 0, govTicks := 0, dieAlarm := [], dieOff := [],
    queues := [], rounds := [], nextGrid := 1, nextId := 1, grids := [], wgs := [],
    mgmt := [Mgmt.zero, Mgmt.zero, Mgmt.zero, Mgmt.zero],
    flights := [], cmds := [], locks := [], planes := [], exclusion := [], resv := [], groups := [], serials := [],
    mem := [], memSynd := [], comb := [], keyPrio := [], hostMem := [], lstore := [], lsSynd := [], lsFull := [],
    l1 := [], tlb := [], icache := [], busy := [], hostLines := [],
    ports := (List.range 16).map Port.reset, outbox := [], awaits := [], inbox := [] }

end Sys2Proof.Machine
end

