-- ==== Sys2Proof/Machine/Units.lean ====
section
/-! DEFINITION. Where things are: unit numbers (01 R12), the management registers (15 R422), and the named reads and updates of workgroups, warps, threads, cue threads and their registers. -/

namespace Sys2Proof.Machine

/-! ### Numbers of units (R12, R14, R22) -/

def pairStack (p : Nat) : Nat := p / 256
def pairY (p : Nat) : Nat := p / 16 % 16
def pairX (p : Nat) : Nat := p % 16
def pairCluster (p : Nat) : Nat := pairStack p * 4 + pairY p / 8 * 2 + pairX p / 8
def coreCluster (c : Nat) : Nat := pairCluster (c / 2)
/-- The 64 pairs of a cluster, ascending. -/
def clusterPairs (k : Nat) : List Nat :=
  (List.range 64).map fun j => k / 4 * 256 + (k / 2 % 2 * 8 + j / 8) * 16 + (k % 2 * 8 + j % 8)
def sliceStack (x : Nat) : Nat := x / 256
/-- The comb die of a slice: stack and die (R12). -/
def sliceDie (x : Nat) : Nat := x / 64

/-! ### Management registers (15 R422) -/

namespace Reg
def ID : Nat := 0x0000
def STARTUP : Nat := 0x0008
def HBMCAP : Nat := 0x0010
def PWRLIM : Nat := 0x0018
def PWRNOW : Nat := 0x0020
def GOVHOLD : Nat := 0x0028
def TLIM : Nat := 0x0030
def DIEBUDGET : Nat := 0x0038
def CTBASE : Nat := 0x0040
def CTXBASE : Nat := 0x0048
def CTXSIZE : Nat := 0x0050
def PTIMEOUT : Nat := 0x0058
def SVCBASE : Nat := 0x0060
def HQBASE : Nat := 0x0068
def DIRBASE : Nat := 0x0070
def COPYBASE : Nat := 0x0078
def MROOT : Nat := 0x0080
def ERRBASE : Nat := 0x0088
def ERRWIDX : Nat := 0x0090
def ERRRIDX : Nat := 0x0098
def WSHARE : Nat := 0x00A0
def MWAKE : Nat := 0x00A8
def ATTNONCE : Nat := 0x00C8
def ATTCTL : Nat := 0x00E8
def DEVNUM : Nat := 0x00F0
def DOMAIN : Nat := 0x00F8
def DIESTAT : Nat := 0x0100
def ROUTE : Nat := 0x0200
def COLSTAT : Nat := 0x0400
def QUEUE : Nat := 0x3000
end Reg

/-- A management register as a number. -/
def mreg (s : State) (off : Nat) : Nat := (s.mregs.get (off / 8)).toNat
/-- Write a management register as the device does, without its access rule. -/
def setMreg (s : State) (off : Nat) (v : Nat) : State := { s with mregs := s.mregs.set (off / 8) (BitVec.ofNat 64 v) }

/-- The device's own number (R423). -/
def ownDev (s : State) : Nat := mreg s Reg.DEVNUM % 64
/-- C of 08 R187. -/
def hbmCap (s : State) : Nat := mreg s Reg.HBMCAP
/-- Enabled pairs of a cluster, ascending (R22, 08 R186). -/
def enabledPairs (s : State) (cluster : Nat) : List Nat := (clusterPairs cluster).filter fun p => s.part.pairen.getLsbD p
/-- Enabled slices, ascending. -/
def enabledSlices (s : State) : List Nat := (List.range 1024).filter fun x => s.part.sliceen.getLsbD x
def numPairs (s : State) : Nat := popcountN s.part.pairen.toNat 1024
def numSlices (s : State) : Nat := popcountN s.part.sliceen.toNat 1024
/-- The window share Z in force for a cluster, in bytes (08 R186). -/
def shareOf (s : State) (cluster : Nat) : Nat := (s.wshare.get cluster).toNat * 262144

/-! ### Workgroups, grids, warps, threads -/

/-- An enabled host queue, as the dispatcher holds it. -/
def findQueue (s : State) (q : Nat) : Option QueueSt := s.queues.find? fun x => x.q == q
def updQueue (s : State) (q : Nat) (f : QueueSt → QueueSt) : State := { s with queues := s.queues.map fun x => if x.q = q then f x else x }
def findGrid (s : State) (num : Nat) : Option Grid := s.grids.find? fun g => g.num == num
def updGrid (s : State) (num : Nat) (f : Grid → Grid) : State := { s with grids := s.grids.map fun g => if g.num = num then f g else g }
def findWg (s : State) (id : Nat) : Option Workgroup := s.wgs.find? fun k => k.id == id
def updWg (s : State) (id : Nat) (f : Workgroup → Workgroup) : State := { s with wgs := s.wgs.map fun k => if k.id = id then f k else k }
/-- Change one warp of a workgroup. -/
def Workgroup_updWarp (k : Workgroup) (i : Nat) (f : Warp → Warp) : Workgroup := { k with warps := k.warps.modify i f }
def updWarp (s : State) (wg i : Nat) (f : Warp → Warp) : State := updWg s wg fun k => Workgroup_updWarp k i f
def Warp_updThread (w : Warp) (lane : Nat) (f : Thread → Thread) : Warp := { w with threads := w.threads.modify lane f }
def updThread (s : State) (wg i lane : Nat) (f : Thread → Thread) : State := updWarp s wg i fun w => Warp_updThread w lane f
/-- Change several threads of one warp. -/
def Warp_updThreads (w : Warp) (lanes : List Nat) (f : Thread → Thread) : Warp := lanes.foldl (fun w l => Warp_updThread w l f) w
def updThreads (s : State) (wg i : Nat) (lanes : List Nat) (f : Thread → Thread) : State := updWarp s wg i fun w => Warp_updThreads w lanes f

def findWarp (s : State) (wg i : Nat) : Option Warp := (findWg s wg).bind fun k => k.warps[i]?
def findThread (s : State) (wg i lane : Nat) : Option Thread := (findWarp s wg i).bind fun w => w.threads[lane]?

/-- Warp width of a launch record (10 R249). -/
def LaunchRec_wwidth (r : LaunchRec) : Nat := 32 * 2 ^ r.width
def LaunchRec_threads (r : LaunchRec) : Nat := r.wdim.1 * r.wdim.2.1 * r.wdim.2.2
def LaunchRec_warps (r : LaunchRec) : Nat := ceilDiv (LaunchRec_threads r) (LaunchRec_wwidth r)
def LaunchRec_lines (r : LaunchRec) : Nat := LaunchRec_warps r * (r.vregs * 2 ^ r.width + ceilDiv r.sregs 32 + 1) + 4
def LaunchRec_slot (r : LaunchRec) (n : Nat) : Word := r.slots.getD n 0

/-- Lanes of a warp, which has at most 128 (06 R132), whose threads have not exited. -/
def Warp_live (w : Warp) : List Nat := (List.range (min 128 w.threads.length)).filter fun l => (w.threads[l]?.map (·.life)) == some .live

/-! ### Registers of a warp (02 R47) -/

/-- Vector register r of a lane. -/
def vget (w : Warp) (r lane : Nat) : Word := w.vregs.get (128 * r + lane)
def vset (w : Warp) (r lane : Nat) (v : Word) : Warp := { w with vregs := w.vregs.set (128 * r + lane) v }
/-- n consecutive vector registers of a lane, least significant first. -/
def vgetN (w : Warp) (r lane : Nat) : Nat → Nat
  | 0 => 0
  | n + 1 => (vget w r lane).toNat + 2 ^ 32 * vgetN w (r + 1) lane n
def vsetN (w : Warp) (r lane : Nat) (v : Nat) : Nat → Warp
  | 0 => w
  | n + 1 => vsetN (vset w r lane (BitVec.ofNat 32 v)) (r + 1) lane (v / 2 ^ 32) n
/-- What a key of a register shows to the group that issues (06 R134): what its view says, else what it holds. -/
def seenOver {α : Type} (hid : List (Nat × α)) (k : Nat) (now : α) : α := ((hid.find? fun x => x.1 == k).map (·.2)).getD now
/-- n vector registers of a lane, as the issuing group sees them. -/
def vseeN (w : Warp) (r lane : Nat) : Nat → Nat
  | 0 => 0
  | n + 1 => (seenOver w.view.vregs (128 * r + lane) (vget w r lane)).toNat + 2 ^ 32 * vseeN w (r + 1) lane n
/-- Uniform registers. -/
def sget (w : Warp) (r : Nat) : Word := w.sregs.get r
def sset (w : Warp) (r : Nat) (v : Word) : Warp := { w with sregs := w.sregs.set r v }
def sgetN (w : Warp) (r : Nat) : Nat → Nat
  | 0 => 0
  | n + 1 => (sget w r).toNat + 2 ^ 32 * sgetN w (r + 1) n
def ssetN (w : Warp) (r : Nat) (v : Nat) : Nat → Warp
  | 0 => w
  | n + 1 => ssetN (sset w r (BitVec.ofNat 32 v)) (r + 1) (v / 2 ^ 32) n
/-- Uniform registers, as the issuing group sees them. -/
def ssee (w : Warp) (r : Nat) : Word := seenOver w.view.sregs r (sget w r)
def sseeN (w : Warp) (r : Nat) : Nat → Nat
  | 0 => 0
  | n + 1 => (ssee w r).toNat + 2 ^ 32 * sseeN w (r + 1) n
/-- The pattern tables and the group key, as the issuing group sees them (06 R140, 08 R208). -/
def tableOf (w : Warp) (n : Nat) : List Byte := (w.patterns.drop (32 * n)).take 32
def setTable (w : Warp) (n : Nat) (bs : List Byte) : Warp := { w with patterns := w.patterns.take (32 * n) ++ bs ++ w.patterns.drop (32 * n + 32) }
def psee (w : Warp) (n : Nat) : List Byte := seenOver w.view.tables n (tableOf w n)
def ksee (w : Warp) : BitVec 16 := seenOver w.view.key 0 w.kvkey
/-- The issuing group took part in the issue of a pass. -/
def ownPass (lanes : List Nat) (e : Recent) : Bool := lanes.any e.lanes.contains
/-- The values of the keys that passes wrote, as a group sees them in a clk (06 R134, R140, R146): of the writes it sees the one that lands last, or the value before all of them. -/
def sharedView {α : Type} (wr : Recent → List (Nat × α × α)) (clk : Nat) (lanes : List Nat) (recent : List Recent) : List (Nat × α) :=
  ((recent.flatMap fun e => (wr e).map (·.1)).eraseDups).filterMap fun k =>
    let es := recent.reverse.filterMap fun e => ((wr e).find? fun x => x.1 == k).map fun x => (e, x.2)
    es.head?.map fun (_, old, _) =>
      (k, (es.foldl (fun (acc : Nat × α) (e, _, new) => if (ownPass lanes e || decide (e.seen ≤ clk)) && decide (acc.1 ≤ e.seen) then (e.seen, new) else acc) (0, old)).2)
/-- The value that the write which lands last leaves. -/
def lastWrite {α : Type} (wr : Recent → List (Nat × α × α)) (recent : List Recent) (k : Nat) : Option α :=
  (recent.reverse.foldl (fun (acc : Option (Nat × α)) e => match (wr e).find? fun x => x.1 == k with
    | none => acc
    | some (_, _, new) => match acc with
      | none => some (e.seen, new)
      | some (n, v) => if n ≤ e.seen then some (e.seen, new) else some (n, v)) none).map (·.2)
/-- What a group sees of its warp in a clk (06 R134): of a vector register the value before the oldest write hidden from it. -/
def viewOf (clk : Nat) (lanes : List Nat) (w : Warp) : View :=
  { vregs := (w.recent.reverse.filter fun e => decide (clk < e.seen) && !ownPass lanes e).flatMap (·.vold)
    sregs := sharedView (·.swr) clk lanes w.recent
    tables := sharedView (·.pwr) clk lanes w.recent
    key := sharedView (·.kwr) clk lanes w.recent }
/-- Predicate n of a lane; p7 reads as true (R47). -/
def pget (w : Warp) (n lane : Nat) : Bool := n = 7 || w.preds.get (128 * n + lane) = 1
/-- Write predicate n of a lane; a write to p7 is discarded (R47). -/
def pset (w : Warp) (n lane : Nat) (b : Bool) : Warp := if n = 7 then w else { w with preds := w.preds.set (128 * n + lane) (bit1 b) }
/-- Tokens of a warp (R57). -/
def Warp_tok (w : Warp) (i : Nat) : Nat := (w.tokens.get i).toNat

/-! ### Cue threads (10 R245) -/

/-- The cue thread of an issuer. -/
def findCue (s : State) : Issuer → Option Cue
  | .cue wg => (findWg s wg).map (·.cue)
  | .mgmt k => s.mgmt[k]?.map (·.cue)
  | _ => none
def updCue (s : State) (i : Issuer) (f : Cue → Cue) : State :=
  match i with
  | .cue wg => updWg s wg fun k => { k with cue := f k.cue }
  | .mgmt k => { s with mgmt := s.mgmt.modify k fun m => { m with cue := f m.cue } }
  | _ => s
def cget (c : Cue) (r : Nat) : DWord := c.regs.get r
def cset (c : Cue) (r : Nat) (v : DWord) : Cue := { c with regs := c.regs.set r v }
def Cue_tok (c : Cue) (i : Nat) : Nat := (c.tokens.get i).toNat
/-- A flag of a cue thread. -/
def gget (c : Cue) (n : Nat) : Bool := c.flags.getLsbD n
def gset (c : Cue) (n : Nat) (b : Bool) : Cue := { c with flags := if b then c.flags ||| BitVec.ofNat 4 (2 ^ n) else c.flags &&& ~~~(BitVec.ofNat 4 (2 ^ n)) }

/-- Step a cue thread along n words. -/
def stepCue (n : Nat) (c : Cue) : Cue :=
  let pc := c.pc + BitVec.ofNat 57 (4 * n)
  match c.clause with
  | some k => if k.left ≤ n then { c with pc := pc, clause := none } else { c with pc := pc, clause := some { k with left := k.left - n, first := false } }
  | none => { c with pc := pc }
/-- Release a parked cue thread past its instruction. -/
def unparkCue (c : Cue) : Cue := stepCue c.plen { c with park := none }

/-- The workgroup of an issuer. -/
def issuerWg (s : State) : Issuer → Option Workgroup
  | .warp wg _ _ => findWg s wg
  | .cue wg => findWg s wg
  | _ => none
/-- The grid of a workgroup. -/
def gridOf (s : State) (k : Workgroup) : Option Grid := findGrid s k.grid
/-- ASID and ROOT of an issuer: ASID 0 and MROOT for a management core (14 R395). -/
def spaceOf (s : State) (i : Issuer) : BitVec 16 × Nat :=
  match (issuerWg s i).bind (gridOf s) with
  | some g => (g.asid, g.root)
  | none => (0, mreg s Reg.MROOT)

/-- Start-up has ended and the device is ready (15 R432): only then is a queue served (01 R20). -/
def deviceReady (s : State) : Bool := mreg s Reg.STARTUP % 16 == 1
/-- A value for the next choice the spec leaves free, and the counter moved on. -/
def takeFresh (s : State) : Nat × State := (s.fresh, { s with fresh := s.fresh + 1 })
/-- A new number for a flight, a command or a workgroup. -/
def takeId (s : State) : Nat × State := (s.nextId, { s with nextId := s.nextId + 1 })

end Sys2Proof.Machine
end

