-- ==== Sys2Proof/Machine/Packets.lean ====
section
/-! DEFINITION. Packets of the Votan links (14 R410 to R412, 15 R423): flits and their CRC, payloads and their dictionary coding, the retry buffer of a port, and the routing of messages to peers. -/

namespace Sys2Proof.Machine

def findPort (s : State) (p : Nat) : Option Port := s.ports.find? fun x => x.port == p
def updPort (s : State) (p : Nat) (f : Port → Port) : State := { s with ports := s.ports.map fun x => if x.port = p then f x else x }

/-! ### Flits (R410) -/

/-- CRC-32C in its usual form: bits reflected, initial value and final inversion of all ones (PRESUMED: log 37). -/
def crcByte (c : Word) (b : Byte) : Word := (List.range 8).foldl (fun c _ => if c.getLsbD 0 then (c >>> 1) ^^^ 0x82F63B78 else c >>> 1) (c ^^^ b.setWidth 32)
def crc32c (bs : List Byte) : Word := ~~~(bs.foldl crcByte 0xFFFFFFFF)
/-- A flit: 60 bytes, zeros after the payload's end, and their CRC. -/
def flit (bs : List Byte) : List Byte := let b := bs ++ List.replicate (60 - bs.length) 0; b ++ leBytes 4 (crc32c b).toNat
/-- A flit as received is whole and passes its CRC. -/
def flitGood (f : List Byte) : Bool := f.length = 64 && leNat (f.drop 60) = (crc32c (f.take 60)).toNat
/-- The flits of a packet: header and payload, 60 bytes a flit. -/
def framePacket (lseq ack : BitVec 12) (dst src kind : Nat) (payload : List Byte) : List (List Byte) :=
  let n := (8 + payload.length + 59) / 60
  let header := lseq.toNat * 2 ^ 52 + ack.toNat * 2 ^ 40 + dst % 64 * 2 ^ 34 + src % 64 * 2 ^ 28 + (n - 1) * 2 ^ 22 + kind % 64 * 2 ^ 16 + payload.length
  let bs := leBytes 8 header ++ payload
  (List.range n).map fun i => flit ((bs.drop (60 * i)).take 60)

/-! ### Payloads as received (R412) -/

/-- A payload decoded: its granules, its insertions, and what remains. -/
structure Decoded where
  granules : List (BitVec 128)
  ins : List (Nat × BitVec 128)
  rest : List Byte
  deriving DecidableEq, Repr
/-- One granule by its code; none is a link protocol error. -/
def decodeGranule (dict : List (BitVec 128)) (code : Nat) (d : Decoded) : Option Decoded :=
  match code with
  | 0 => some { d with granules := d.granules ++ [0] }
  | 1 => d.granules.getLast?.map fun g => { d with granules := d.granules ++ [g] }
  | 2 => (match d.rest with
    | b :: r => if b.toNat < 64 then some { d with granules := d.granules ++ [dict.getD b.toNat 0], rest := r } else none
    | [] => none)
  | _ => match d.rest with
    | b :: r =>
      if b.toNat / 64 % 2 = 1 ∨ r.length < 16 then none
      else
        let g := BitVec.ofNat 128 (leNat (r.take 16))
        some { granules := d.granules ++ [g], ins := if 128 ≤ b.toNat then d.ins ++ [(b.toNat % 64, g)] else d.ins, rest := r.drop 16 }
    | [] => none
/-- Groups of up to four granules, for n granules; the caps follow. -/
def decodeGroups (dict : List (BitVec 128)) : Nat → Nat → Decoded → Option Decoded
  | 0, _, d => some d
  | fuel + 1, n, d =>
    if n = 0 then some d
    else match d.rest with
      | [] => none
      | c :: r =>
        let k := min n 4
        match (List.range k).foldl (fun a i => match a with
          | none => none
          | some d => decodeGranule dict (c.toNat / 4 ^ i % 4) d) (some { d with rest := r }) with
        | none => none
        | some e => if c.toNat / 4 ^ k ≠ 0 then none else decodeGroups dict fuel (n - k) e
/-- The granules of a payload: the largest count whose groups and caps fill it. -/
def decodePayload (dict : List (BitVec 128)) (bs : List Byte) : Option Decoded :=
  ((List.range (bs.length + 1)).reverse.findSome? fun n => match decodeGroups dict (n + 1) n { granules := [], ins := [], rest := bs } with
    | some d => if d.rest.length = 2 * n then some d else none
    | none => none)
/-- Write slots of a dictionary of 64. -/
def dictWrite (dict : List (BitVec 128)) (ins : List (Nat × BitVec 128)) : List (BitVec 128) :=
  if ins = [] then dict
  else ins.foldl (fun d (k, g) => d.set k g) ((List.range 64).map fun i => dict.getD i 0)

/-! ### Payloads as sent (R412) -/

/-- A payload being encoded: code and following bytes of each granule, the last granule, and the insertions. -/
structure Coding where
  codes : List (Nat × List Byte)
  prev : Option (BitVec 128)
  ins : List (Nat × BitVec 128)
  deriving DecidableEq, Repr
/-- Encode one granule: zero, the previous one, a slot that is not pending, or a literal; whether a literal enters a slot, and which, is free (`n`; log 37). -/
def encodeGranule (dict : List (BitVec 128)) (pending : List Nat) (n : Nat) (c : Coding) (g : BitVec 128) : Coding :=
  let shut := fun (k : Nat) => pending.contains k || c.ins.any (·.1 == k)
  let put := fun (code : Nat) (bs : List Byte) (ins : List (Nat × BitVec 128)) => { codes := c.codes ++ [(code, bs)], prev := some g, ins := c.ins ++ ins }
  let slot := Config.pick n % 128
  if g = 0 then put 0 [] []
  else if c.prev = some g then put 1 [] []
  else match (List.range 64).find? fun k => dict.getD k 0 == g && !shut k with
    | some k => put 2 [BitVec.ofNat 8 k] []
    | none =>
      if slot < 64 ∧ !shut slot then put 3 (BitVec.ofNat 8 (128 + slot) :: leBytes 16 g.toNat) [(slot, g)]
      else put 3 (0 :: leBytes 16 g.toNat) []
/-- Encode granules; the j-th choice is that of number n + j. -/
def encodeGranules (dict : List (BitVec 128)) (pending : List Nat) : Nat → List (BitVec 128) → Coding → Coding
  | _, [], c => c
  | n, g :: r, c => encodeGranules dict pending (n + 1) r (encodeGranule dict pending n c g)
/-- A group: its code byte, and the bytes that follow. -/
def codeGroup (l : List (Nat × List Byte)) : List Byte := BitVec.ofNat 8 (l.foldr (fun x n => x.1 + 4 * n) 0) :: l.flatMap (·.2)
/-- Groups of four. -/
def codeGroups : List (Nat × List Byte) → List Byte
  | a :: b :: c :: d :: r => codeGroup [a, b, c, d] ++ codeGroups r
  | [] => []
  | l => codeGroup l

/-! ### Messages (R404) -/

/-- The atomic operation that an ATOMIC asks for: its kind, width and code (log 28). -/
def atomCode : Instr → Nat
  | .atom f => 2 ^ 16 + f.wid.toNat * 256 + f.aop.toNat
  | .atomf f => 2 * 2 ^ 16 + f.aop.toNat
  | .cas f => 3 * 2 ^ 16 + f.wid.toNat * 256
  | .ldres f => 4 * 2 ^ 16 + f.wid.toNat * 256
  | .stcond f => 5 * 2 ^ 16 + f.wid.toNat * 256
  | .forage _ => 6 * 2 ^ 16
  | .catom f => 7 * 2 ^ 16 + f.ofs.toNat % 2 ^ 16
  | .cforage _ => 8 * 2 ^ 16
  | _ => 0
/-- Data as granules, the last one filled up with zeros. -/
def dataGranules (bs : List Byte) : List (BitVec 128) := (List.range ((bs.length + 15) / 16)).map fun i => BitVec.ofNat 128 (leNat ((bs.drop (16 * i)).take 16))
/-- The granules of a message (log 28). One that is passed on holds them as they came. -/
def msgGranules (m : Msg) : List (BitVec 128) :=
  let word := fun (l : List (Nat × Nat)) => BitVec.ofNat 128 (l.foldr (fun (v, w) n => v % 2 ^ w + 2 ^ w * n) 0)
  if m.via.isSome then dataGranules m.data
  else match m.kind.toNat with
    | 17 => [word [(m.page, 64), (m.aux, 32), (leNat (m.data.take 4), 32)]]
    | 18 => [word [(m.page, 64), (m.aux, 32)]]
    | 19 => [word [(m.page, 64), (m.aux, 32)]]
    | 20 => [word [(m.page, 64), (m.seq.toNat, 16), (m.aux, 32)]]
    | _ => [word [(m.page, 64), (m.seq.toNat, 16), (m.aux, 48)], word [(m.tag, 32), (m.part, 32), ((m.op.map atomCode).getD 0, 32), (m.args.length, 8)]]
        ++ m.args.map (fun a => a.setWidth 128) ++ dataGranules m.data
/-- The caps of a message's granules: those it carries are its data's, the last ones. -/
def msgCaps (m : Msg) : List (BitVec 16) := List.replicate ((msgGranules m).length - m.caps.length) 0 ++ m.caps
/-- A message of more data than one packet holds goes in parts of 160 granules, in order (log 37). -/
def cutMsg (m : Msg) : List Msg :=
  if m.data.length ≤ 2560 then [m]
  else (List.range ((m.data.length + 2559) / 2560)).map fun i =>
    { m with part := i, data := (m.data.drop (2560 * i)).take 2560, caps := (m.caps.drop (160 * i)).take 160 }

/-! ### Ports (R411) -/

/-- Flits that the retry buffer holds. -/
def retryFlits (x : Port) : Nat := (x.retry.map fun p => p.flits.length).sum
/-- Slots that an unacknowledged packet inserts into. -/
def pendingSlots (x : Port) : List Nat := x.retry.flatMap fun p => p.ins.map (·.1)
/-- The packet of a message at a port, with choices numbered from n. -/
def packetOf (own : Nat) (x : Port) (n : Nat) (m : Msg) : Packet :=
  let c := encodeGranules x.dictOut (pendingSlots x) n (msgGranules m) { codes := [], prev := none, ins := [] }
  let payload := codeGroups c.codes ++ (msgCaps m).flatMap fun k => leBytes 2 k.toNat
  { lseq := x.outSeq, flits := framePacket x.outSeq (x.inSeq - 1) m.dst (m.src.getD own) m.kind.toNat payload, msg := m, ins := c.ins }
/-- Hand a message to a port: its packet enters the retry buffer of 1,024 flits; while that has no room, or others wait, the message waits. -/
def offerPort (s : State) (p : Nat) (m : Msg) : State :=
  match findPort s p with
  | none => s
  | some x =>
    let k := packetOf (ownDev s) x s.fresh m
    if x.queue ≠ [] ∨ 1024 < retryFlits x + k.flits.length then updPort s p fun x => { x with queue := x.queue ++ [m] }
    else updPort { s with fresh := s.fresh + (msgGranules m).length } p fun x => { x with retry := x.retry ++ [k], outSeq := x.outSeq + 1 }
/-- Messages that waited for room are handed over again, in their order. -/
def drainPort (s : State) (p : Nat) : State :=
  match findPort s p with
  | none => s
  | some x => x.queue.foldl (fun t m => offerPort t p m) (updPort s p fun x => { x with queue := [] })

/-! ### Routes (15 R423) -/

/-- The port by which a packet for a device leaves: the lowest-numbered of its ROUTE whose link is up, but for the one it arrived on. -/
def portFor (s : State) (dev : Nat) (not : Option Nat) : Option Nat :=
  (List.range 16).find? fun p => (mreg s (Reg.ROUTE + 8 * dev)).testBit p && some p != not && s.ports.any fun x => x.port == p && x.up
/-- One packet's message goes to the port of its route; with no route it is kept. -/
def routeMsg (s : State) (m : Msg) : State :=
  match portFor s m.dst m.via with
  | some p => offerPort s p m
  | none => { s with outbox := s.outbox ++ [m] }
/-- Send a message, in as many packets as it needs. -/
def postMsg (s : State) (m : Msg) : State := (cutMsg m).foldl routeMsg s
/-- A message to a peer (14 R404); types are numbered in R404's order: 1 READ, 2 WRITE, 3 ATOMIC, 4 GRANT, 5 PROBE, 6 ACK (log 28). -/
def sendMsg (s : State) (dst : Nat) (kind : BitVec 6) (page : Nat) (seq : BitVec 16) (aux : Nat) (data : List Byte) : State :=
  postMsg s { dst := dst, kind := kind, page := page, seq := seq, aux := aux, data := data }
/-- A message with the cap syndromes of its data (14 R404, 08 R196). -/
def sendData (s : State) (dst : Nat) (kind : BitVec 6) (page : Nat) (seq : BitVec 16) (aux : Nat) (data : List Byte) (caps : List (BitVec 16)) : State :=
  postMsg s { dst := dst, kind := kind, page := page, seq := seq, aux := aux, data := data, caps := caps }

end Sys2Proof.Machine
end

