-- ==== Sys2Proof/Machine/Memory.lean ====
section
/-! DEFINITION. The storage of 08: home memory with its caps and comb lines, the local stores, the L1 data caches, the residency contracts and the reservations. A cap is held as its syndrome, stored cap XOR computed cap: zero when good (log 7). -/

namespace Sys2Proof.Machine

/-! ### Home memory -/

/-- What an unlisted byte of home memory reads as: the start-up image of the page directory at DIRBASE (14 R401), elsewhere zero (log 6). -/
def dirDefault (s : State) (pa : Nat) : Byte :=
  let b := mreg s Reg.DIRBASE
  if b ≠ 0 ∧ b ≤ pa ∧ pa < b + hbmCap s / 4096 then
    let i := (pa - b) / 16
    let f := (pa - b) % 16
    if i % 32 = 0 then (if f = 3 then 1 else 0) else (if f = 2 then 4 else 0)
  else 0

/-- One byte of home memory, as its home shows it. -/
def homeByte (s : State) (pa : Nat) : Byte := SMap.get (w := 8) s.mem pa ^^^ dirDefault s pa
/-- n bytes of home memory. -/
def homeBytes (s : State) (pa : Nat) : Nat → List Byte
  | 0 => []
  | n + 1 => homeByte s pa :: homeBytes s (pa + 1) n
/-- A little-endian number in home memory. -/
def homeNat (s : State) (pa n : Nat) : Nat := leNat (homeBytes s pa n)

/-- What a check of a granule finds (08 R198, R199). -/
inductive CapState where
  | good | mismatch | poison
  /-- a peer has refused the read: there is no data (14 R400 reason 5) -/
  | refused
  deriving DecidableEq, Repr

/-- The state of a granule with a syndrome and its data. -/
def capState (synd : BitVec 16) (bs : List Byte) : CapState :=
  if synd = 0 then .good else if synd = 0xFFFF ∧ bs.all (· == 0xFF#8) then .poison else .mismatch

/-- The check of granule g of home memory. -/
def homeCap (s : State) (g : Nat) : CapState := capState (s.memSynd.get g) (homeBytes s (16 * g) 16)

/-- The first failing check among the granules of an interval. -/
def homeCaps (s : State) (pa n : Nat) : CapState :=
  ((run16 (pa / 16) ((pa + n + 15) / 16 - pa / 16)).map (homeCap s)).foldl (fun a b => if a = .good then b else a) .good
where
  run16 (g : Nat) : Nat → List Nat
    | 0 => []
    | n + 1 => g :: run16 (g + 1) n

/-- Byte k of a 128-byte line. -/
def lineByte (d : BitVec 1024) (k : Nat) : Byte := d.extractLsb' (8 * k) 8
/-- A line with the bytes of a mask taken from another. -/
def lineMerge (old new : BitVec 1024) (mask : BitVec 128) : BitVec 1024 :=
  (List.range 128).foldl (fun d k => if mask.getLsbD k then (d &&& ~~~((0xFF : BitVec 1024) <<< (8 * k))) ||| (new &&& ((0xFF : BitVec 1024) <<< (8 * k))) else d) old
/-- A line of bytes as one number. -/
def lineOf (bs : List Byte) : BitVec 1024 := BitVec.ofNat 1024 (leNat bs)
/-- The mask of n bytes from byte k of a line. -/
def byteMask (k n : Nat) : BitVec 128 := BitVec.ofNat 128 ((2 ^ n - 1) * 2 ^ k)
/-- Granule j of a mask, and whether it is whole. -/
def granMask (m : BitVec 128) (j : Nat) : BitVec 16 := m.extractLsb' (16 * j) 16
/-- The (address, byte) pairs of the masked bytes of a line. -/
def linePairs (line : Nat) (mask : BitVec 128) (d : BitVec 1024) : List (Nat × Byte) :=
  (List.range 128).filterMap fun k => if mask.getLsbD k then some (128 * line + k, lineByte d k) else none

/-! ### Contracts (08 R189) -/

structure Contract where
  idx : Nat
  base : Nat
  pages : Nat
  mode : Nat
  shadow : Bool
  prio : Nat
  stackSet : Nat
  dirty : Nat
  owner : Nat
  kcap : Nat
  deriving DecidableEq, Repr

/-- Entry i of the contract table; CTBASE = 0 is no table (log 13). -/
def contractEntry (s : State) (i : Nat) : Contract :=
  let a := mreg s Reg.CTBASE + 32 * i
  let n := fun o k => homeNat s (a + o) k
  { idx := i, base := n 0 8, pages := n 8 4, mode := n 0xC 1, shadow := n 0xD 1 % 2 = 1, prio := n 0xE 1, stackSet := n 0x10 4,
    dirty := n 0x14 4, owner := n 0x18 2, kcap := n 0x1C 4 }

/-- The live entries: an entry whose caps fail is taken as empty (log 95). -/
def contracts (s : State) : List Contract :=
  if mreg s Reg.CTBASE = 0 then []
  else ((List.range 64).map (contractEntry s)).filter fun c => c.mode ≠ 0 && decide (homeCaps s (mreg s Reg.CTBASE + 32 * c.idx) 32 = .good)

/-- The contract that covers an address. -/
def contractOf (s : State) (pa : Nat) : Option Contract :=
  (contracts s).find? fun c => decide (c.base ≤ pa ∧ pa < c.base + c.pages * 2097152)

/-- The home slice of an address over the slices of a set of stacks; 0 is all (08 R188). -/
def sliceIn (s : State) (st pa : Nat) : Nat :=
  let e := (enabledSlices s).filter fun x => st = 0 || st.testBit (sliceStack x)
  let h := (crc16 (pa / 256 % 2 ^ 38) 38).toNat
  e.getD (h % e.length) 0
/-- The slice that has a slice's duties: itself, or the same position in the next die of its stack that is on (15 R430) and has it enabled (01 R22). -/
def substitute (s : State) (x : Nat) : Nat :=
  let d := sliceDie x
  match [0, 1, 2, 3].find? fun k => !s.dieOff.contains (d / 4 * 4 + (d + k) % 4) && s.part.sliceen.getLsbD ((d / 4 * 4 + (d + k) % 4) * 64 + x % 64) with
  | some k => (d / 4 * 4 + (d + k) % 4) * 64 + x % 64
  | none => x
/-- The home slice of an address by its interleave (08 R188). -/
def bornSlice (s : State) (pa : Nat) : Nat :=
  sliceIn s (match contractOf s pa with
    | some c => c.stackSet % 16
    | none => 0) pa
/-- The home slice of an address. -/
def homeSlice (s : State) (pa : Nat) : Nat := substitute s (bornSlice s pa)
/-- A comb die in alarm merges writes through to HBM (15 R430). -/
def writesThrough (s : State) (line : Nat) : Bool := s.dieAlarm ≠ [] && s.dieAlarm.any fun (d, _) => d == sliceDie (homeSlice s (128 * line))

/-- Lines of a contract's range. -/
def inRange (x : Contract) (line : Nat) : Bool := decide (x.base ≤ 128 * line ∧ 128 * line < x.base + x.pages * 2097152)
/-- Slices of a contract's set. -/
def contractSlices (s : State) (x : Contract) : List Nat := (enabledSlices s).filter fun y => x.stackSet % 16 = 0 || (x.stackSet % 16).testBit (sliceStack y)
/-- Bytes a contract reserves at a slice (12 R343 check 3). -/
def reservedAt (s : State) (x : Contract) (y : Nat) : Nat :=
  if !(contractSlices s x).contains y then 0
  else match x.mode with
    | 2 => 256 * ((List.range (x.pages * 8192)).filter fun j => sliceIn s (x.stackSet % 16) (x.base + 256 * j) == y).length
    | 3 => ceilDiv (x.kcap * 2097152) (contractSlices s x).length
    | _ => 0
/-- C-mode lines that a slice has room for: its 32 MiB less the reservations (08 R190). -/
def cCapacity (s : State) (x : Nat) : Nat := (33554432 - ((contracts s).map fun c => reservedAt s c x).sum) / 128
/-- Version lines that stand at a slice, in C-mode capacity (13 R363). -/
def versionsAt (s : State) (x : Nat) : Nat := (s.wgs.map fun k => (k.vlines.filter fun v => homeSlice s (128 * v.line) == x).length).sum
/-- The line of a list that comes first by a measure; of equal ones the last, which is the least recently used. -/
def lastBy (f : CombLine → Nat) (l : List CombLine) : Option CombLine :=
  l.foldl (fun b x => match b with
    | none => some x
    | some y => if f x ≤ f y then some x else some y) none
/-- A line of a contract's range is a C line: in C mode, and in P mode while a substitute serves it (15 R430). -/
def servedAsC (s : State) (c : Contract) (line : Nat) : Bool := c.mode = 1 || (c.mode = 2 && homeSlice s (128 * line) != bornSlice s (128 * line))
/-- The line that the C-mode rule takes first: the least recently used of the lowest contract priority (08 R190). -/
def lowestLine (s : State) (l : List CombLine) : Option CombLine := lastBy (fun y => match contractOf s (128 * y.line) with
  | some c => c.prio
  | none => 0) l
/-- The C lines among the lines of a slice. -/
def cLines (s : State) (l : List CombLine) : List CombLine := l.filter fun y => (contractOf s (128 * y.line)).all fun c => servedAsC s c y.line
/-- C lines leave a slice until they and the version lines there fit into its C capacity (01 R16, 08 R190, 13 R363). A slice has at least 32,768 lines for them, since at most 28 MiB are reserved. -/
def combTrim (s : State) (x : Nat) : Nat → List CombLine → List CombLine
  | 0, l => l
  | fuel + 1, l =>
    let here := l.filter fun y => y.slice == x
    if here.length + versionsAt s x ≤ 32768 then l
    else
      let mine := cLines s here
      if mine.length + versionsAt s x ≤ cCapacity s x then l
      else match lowestLine s mine with
        | some v => combTrim s x fuel (l.filter fun y => y.line != v.line)
        | none => l
/-- Slices whose C capacity has changed give up the lines that no longer fit. -/
def trimSlices (s : State) (xs : List Nat) : State := { s with comb := xs.foldl (fun l x => combTrim s x l.length l) s.comb }
/-- Make room for a line at its slice (08 R190, R192): a P line has its own; a K line replaces the least recently used line of the lowest-priority group of its contract there; a C line the least recently used line of the lowest contract priority. A slice has at least 32,768 C lines, since at most 28 MiB are reserved. -/
def combRoom (s : State) (x line : Nat) (l : List CombLine) : List CombLine :=
  let here := l.filter fun c => c.slice == x
  let victim := match contractOf s (128 * line) with
    | some c =>
      if servedAsC s c line then cVictim here
      else if c.mode = 3 then
        let mine := here.filter fun (y : CombLine) => inRange c y.line
        if 128 * (mine.length + 1) ≤ ceilDiv (c.kcap * 2097152) (contractSlices s c).length then none
        else lastBy (fun (y : CombLine) => (s.keyPrio.get (65536 * c.idx + y.key.toNat)).toNat) mine
      else none
    | none => cVictim here
  match victim with
  | some v => l.filter fun (y : CombLine) => y.line != v.line
  | none => l
where
  cVictim (here : List CombLine) : Option CombLine :=
    if here.length < 32768 then none
    else
      let mine := cLines s here
      if mine.length + versionsAt s x < cCapacity s x then none else lowestLine s mine
/-- The dirty bytes of lines. -/
def dirtyBytes (l : List CombLine) : Nat := (l.map fun c => popcountN c.dirty.toNat 128).sum
/-- Write back the least recently written of some dirty lines until they hold at most n dirty bytes (08 R191). -/
def cleanOldest (mine : CombLine → Bool) (n : Nat) : Nat → List CombLine → List CombLine
  | 0, l => l
  | fuel + 1, l =>
    let d := l.filter fun c => mine c && c.dirty != 0
    if dirtyBytes d ≤ n then l
    else match lastBy (·.wrote) d with
      | some v => cleanOldest mine n fuel (l.map fun c => if c.line = v.line then { c with dirty := 0 } else c)
      | none => l
/-- A contract's slice set includes the dies of a stack. -/
def coversStack (c : Contract) (stack : Nat) : Bool := c.stackSet % 16 = 0 || (c.stackSet % 16).testBit stack
/-- The dirty budget of a line's contract in its slice's die, in bytes; memory that no contract covers has what the contracts whose set includes the die leave of its budget, and a P range without an image has none (08 R191, 12 R343). -/
def dirtyBudget (s : State) (x line : Nat) : Option Nat :=
  match contractOf s (128 * line) with
  | some c => if c.mode = 2 && !c.shadow then none else some (c.dirty * 1024)
  | none => some (mreg s Reg.DIEBUDGET * 1048576 - 1024 * (((contracts s).filter fun c => coversStack c (sliceStack x)).map (·.dirty)).sum)
/-- `DIRTY_BUDGET_WRITE_BACK` (08 R191). -/
def holdBudget (s : State) (x line : Nat) (l : List CombLine) : List CombLine :=
  match dirtyBudget s x line with
  | none => l
  | some n =>
    if 128 * l.length ≤ n then l
    else
      let of := fun (m : Nat) => (contractOf s (128 * m)).map (·.idx)
      cleanOldest (fun c => sliceDie c.slice == sliceDie x && of c.line == of line) n l.length l
/-- A pinned line with no image. -/
def unshadowed (s : State) (line : Nat) : Bool := (contractOf s (128 * line)).any fun c => c.mode = 2 && !c.shadow
/-- A use of a line as its slice holds it: a write marks its bytes dirty over the HBM image, takes the writer's key and the time; a read changes none of them. -/
def usedLine (s : State) (c : CombLine) (mask : BitVec 128) (key : BitVec 16) : CombLine :=
  if mask = 0 then c
  else
    let fresh := mask &&& ~~~c.dirty
    let synd := (List.range 8).foldl (fun d j =>
      if granMask c.dirty j = 0 ∧ granMask mask j ≠ 0 then
        (d &&& ~~~((0xFFFF : BitVec 128) <<< (16 * j))) ||| ((s.memSynd.get (8 * c.line + j)).setWidth 128 <<< (16 * j))
      else d) c.imageSynd
    { c with dirty := c.dirty ||| mask, image := lineMerge c.image (lineOf (homeBytes s (128 * c.line) 128)) fresh, imageSynd := synd, key := key, wrote := s.clk }
/-- The comb after an access of a line (08 R190 to R192): a line not resident is filled, or written, under the accessor's key. A die in alarm allocates nothing and passes writes on to HBM (15 R430). -/
def combAfter (s : State) (line : Nat) (mask : BitVec 128) (key : BitVec 16) : List CombLine :=
  let x := homeSlice s (128 * line)
  let old := s.comb.find? fun c => c.line == line
  let rest := s.comb.filter fun c => c.line != line
  if writesThrough s line then
    match old with
    | some c => { c with dirty := c.dirty &&& ~~~mask, key := if mask = 0 then c.key else key } :: rest
    | none => rest
  else
    let l := match old with
      | some c => usedLine s c mask key :: rest
      | none => usedLine s { line := line, slice := x, dirty := 0, image := 0, imageSynd := 0, key := key, wrote := 0, lost := false } mask key :: combRoom s x line rest
    if mask = 0 then l else holdBudget s x line l
/-- An access of a line at its home slice; a mask of 0 is a read. -/
def combUse (s : State) (line : Nat) (mask : BitVec 128) (key : BitVec 16) : State := { s with comb := combAfter s line mask key }
/-- Reads of an interval at home. -/
def combRead (s : State) (pa n : Nat) (key : BitVec 16) : State :=
  if hbmCap s < pa + n then s else ((List.range ((pa + n + 127) / 128 - pa / 128)).map (pa / 128 + ·)).foldl (fun t l => combUse t l 0 key) s

/-- Reservations on a granule end, but for those of an agent whose own strong write this is (09 R221). -/
def endResv (s : State) (g : Nat) (who : Option Agent) : State :=
  { s with resv := s.resv.filter fun r => !(r.granule == g) || (some r.agent == who && who.isSome) }

/-- What a write merged at home does to the host's copy of the line (14 R407): a shared copy is recalled at once; the data of a modified one comes back with `HOST_RECALL` and goes under the bytes written meanwhile, as if it had been merged first (log 102). -/
def hostMeets (line : Nat) (mask : BitVec 128) (host : Bool) (h : HostLine) : HostLine :=
  if h.line ≠ line then h
  else if host then { h with pend := h.pend &&& ~~~mask }
  else if h.st = 1 then { h with st := 0, seq := h.seq + 1 }
  else if h.st = 2 then { h with pend := h.pend ||| mask }
  else h
/-- Merge masked bytes of one line at home (08 R197, 09 R211): the bytes, the caps (a whole granule gets a fresh cap, a part is folded), the comb line, the host's copy of the line (recalled unless the host itself writes, 14 R407) and the reservations. -/
def homeMerge (s : State) (line : Nat) (mask : BitVec 128) (d : BitVec 1024) (key : BitVec 16) (who : Option Agent) : State :=
  if mask = 0 then s
  else
    let s1 := combUse s line mask key
    let pairs := (linePairs line mask d).map fun (a, b) => (a, b ^^^ dirDefault s a)
    let synd := (List.range 8).foldl (fun m j => if granMask mask j = 0xFFFF then SMap.set m (8 * line + j) 0 else m) s1.memSynd
    let s2 := { s1 with mem := SMap.setAll s1.mem pairs, memSynd := synd }
    let s3 := { s2 with hostLines := s2.hostLines.map (hostMeets line mask (who = some .host)) }
    (List.range 8).foldl (fun t j => if granMask mask j ≠ 0 then endResv t (8 * line + j) who else t) s3

/-- Cut bytes at line boundaries: (line, offset, bytes). -/
def cutLines (pa : Nat) (bs : List Byte) : Nat → List (Nat × Nat × List Byte)
  | 0 => []
  | fuel + 1 =>
    match bs with
    | [] => []
    | _ => let n := 128 - pa % 128; (pa / 128, pa % 128, bs.take n) :: cutLines (pa + n) (bs.drop n) fuel

/-- Write bytes at home. -/
def homeWrite (s : State) (pa : Nat) (bs : List Byte) (key : BitVec 16) (who : Option Agent) : State :=
  (cutLines pa bs (bs.length / 128 + 2)).foldl
    (fun t (line, o, b) => homeMerge t line (byteMask o b.length) (lineOf b <<< (8 * o)) key who) s

/-- Carry caps with copied bytes (08 R196): the syndromes of the source granules go to whole destination granules. -/
def carrySynd (s : State) (src dst : Nat) (synds : List (BitVec 16)) : State :=
  if src % 16 = dst % 16 ∧ dst % 16 = 0 then
    { s with memSynd := SMap.setList s.memSynd (dst / 16) synds }
  else s

/-- A comb line is invalidated without write-back: home shows the HBM image (08 R192). -/
def combRevert (s : State) (l : CombLine) : State :=
  let pairs := (linePairs l.line l.dirty l.image).map fun (a, b) => (a, b ^^^ dirDefault s a)
  let synd := (List.range 8).foldl (fun m j => if granMask l.dirty j ≠ 0 then SMap.set m (8 * l.line + j) (l.imageSynd.extractLsb' (16 * j) 16) else m) s.memSynd
  { s with mem := SMap.setAll s.mem pairs, memSynd := synd, comb := s.comb.filter fun x => !(x.line == l.line) }

/-- Poison a granule (08 R199). -/
def poisonGranule (s : State) (g : Nat) : State :=
  let t := homeWrite s (16 * g) (List.replicate 16 0xFF#8) 0 none
  { t with memSynd := t.memSynd.set g 0xFFFF }

/-! ### Local stores (08 R182 to R186) -/

def lsBytes (s : State) (a n : Nat) : List Byte := SMap.getList (w := 8) s.lstore a n
def lsCap (s : State) (g : Nat) : CapState := capState (s.lsSynd.get g) (lsBytes s (16 * g) 16)
/-- The granules touched by n bytes at a. -/
def granules (a n : Nat) : List Nat := (List.range ((a + n + 15) / 16 - a / 16)).map (a / 16 + ·)
/-- Granules wholly covered by n bytes at a. -/
def wholeGranules (a n : Nat) : List Nat := (granules a n).filter fun g => decide (a ≤ 16 * g ∧ 16 * g + 16 ≤ a + n)
/-- Write local-store bytes: whole granules get a fresh cap, parts are folded (08 R196). -/
def lsWrite (s : State) (a : Nat) (bs : List Byte) : State :=
  { s with lstore := SMap.setList (w := 8) s.lstore a bs,
           lsSynd := (wholeGranules a bs.length).foldl (fun m g => SMap.set m g 0) s.lsSynd }
def lsCaps (s : State) (a n : Nat) : CapState := (granules a n).foldl (fun c g => if c = .good then lsCap s g else c) .good
/-- Full/empty bits (08 R184). -/
def feGet (s : State) (g : Nat) : Bool := s.lsFull.get g = 1
def feSet (s : State) (g : Nat) (b : Bool) : State := { s with lsFull := s.lsFull.set g (bit1 b) }
def feSetAll (s : State) (a n : Nat) (b : Bool) : State := (granules a n).foldl (fun t g => feSet t g b) s

/-! ### The page directory (14 R401, R405) -/

/-- The fields of entry i of the page directory (14 R401): SEQ, STATE, SIZE, OWNER, SET. -/
def dirRaw (s : State) (i : Nat) : DirEntry :=
  let a := mreg s Reg.DIRBASE + 16 * i
  { seq := BitVec.ofNat 16 (homeNat s a 2), st := homeByte s (a + 2), size := homeByte s (a + 3), owner := homeByte s (a + 4), set := BitVec.ofNat 64 (homeNat s (a + 8) 8) }
/-- Entry i as the home reads it; one that cannot be read is held in X until it is recovered (R409). -/
def dirAt (s : State) (i : Nat) : DirEntry :=
  if s.memSynd.get ((mreg s Reg.DIRBASE + 16 * i) / 16) ≠ 0 then { seq := 0, st := 3, size := 0, owner := 0, set := 0 } else dirRaw s i
/-- The index of the entry that governs a local page (14 R401): the first 64 KiB of a 2 MiB page. -/
def dirIndex (s : State) (p : Nat) : Nat :=
  let i := p / 65536
  if (dirAt s i).st = 4 then i / 32 * 32 else i
def dirOf (s : State) (p : Nat) : DirEntry := dirAt s (dirIndex s p)
/-- The size of an entry's page. -/
def dirSize (d : DirEntry) : Nat := if d.size = 1 then 2 ^ 21 else 2 ^ 16
/-- An entry in X: it names no owner and no holder (R401). -/
def holdX (d : DirEntry) : DirEntry := { d with st := 3, owner := 0, set := 0 }
/-- The entry that governs a local page, or, while that is in X, the one its transition found (log 98). -/
def servedDir (s : State) (p : Nat) : DirEntry :=
  let d := dirOf s p
  if d.st ≠ 3 then d
  else match s.busy.find? fun x => decide (x.index ≤ p / 65536 ∧ p / 65536 < x.index + dirSize x.before / 65536) with
    | some x => x.before
    | none => { d with st := 0 }
/-- The device that serves a place of a peer: the owner of a page homed here that is in O, else the page's home (R406). -/
def peerDev (s : State) (pa : Nat) : Nat := if pa / 2 ^ 46 = ownDev s then (servedDir s (pa % 2 ^ 46)).owner.toNat else pa / 2 ^ 46

/-! ### Requests to peers (14 R404; 15 R423) -/

/-- The cap syndromes of the granules that n bytes of home memory lie in. -/
def homeSynds (s : State) (pa n : Nat) : List (BitVec 16) := (granules pa n).map s.memSynd.get
/-- Give granules of home memory their syndromes (08 R196). -/
def putSynds (s : State) (gs : List Nat) (caps : List (BitVec 16)) : State := { s with memSynd := SMap.setAll s.memSynd (gs.zip caps) }
/-- A request that a peer answers: who waits for it, or for whom it is made. -/
structure Asker where
  who : Issuer := .none
  core : Option Nat := none
  cmd : Option Nat := none
  pc : VAddr := 0
  addr : BitVec 64 := 0
/-- Send a request and keep it until it is answered (09 R211 class P). -/
def askPeer (s : State) (a : Asker) (m : Msg) : State :=
  postMsg { s with nextId := s.nextId + 1, awaits := s.awaits ++ [{ tag := s.nextId, dev := m.dst, who := a.who, core := a.core, cmd := a.cmd, pc := a.pc, addr := a.addr }] } { m with tag := s.nextId }
/-- A WRITE of bytes, with the syndromes of the granules it carries whole. -/
def peerWrite (s : State) (a : Asker) (pa : Nat) (bs : List Byte) (caps : List (BitVec 16)) : State :=
  askPeer s a { dst := peerDev s pa, kind := 2, page := pa, seq := 0, aux := 0, data := bs, caps := caps }
/-- A READ of n bytes of a peer's memory (14 R404), answered in the step that makes it: its bytes and cap syndromes, which are free values, or the home's refusal (R400 reason 5; log 11). -/
def peerRead (s : State) (pa n : Nat) : Option (List Byte × List (BitVec 16)) × State :=
  let t := sendMsg s (peerDev s pa) 1 pa 0 n []
  let k := (granules pa n).length
  let bs := (List.range n).map fun i => Config.peerByte (t.fresh + i)
  let caps := (List.range k).map fun j => (Config.peerByte (t.fresh + n + 2 * j)).setWidth 16 + (Config.peerByte (t.fresh + n + 2 * j + 1)).setWidth 16 <<< 8
  (if pa / 2 ^ 46 ≠ ownDev s ∧ Config.coin t.fresh = true then none else some (bs, caps), { t with fresh := t.fresh + n + 2 * k })
/-- Requests of a core's streams that are not answered. -/
def asking (s : State) (core : Nat) : Bool := s.awaits.any fun a => a.core == some core

/-- The check of a granule that a peer read: a free value (log 11). -/
def freeCap (b : Byte) : CapState := if b.toNat % 4 = 1 then .mismatch else if b.toNat % 4 = 2 then .poison else .good

/-! ### The L1 data caches (08 R180, R181) -/

/-- The address by which L1 numbers its lines: this device's memory at its local physical address, host memory from 2^45 on, a peer's memory from 2^52 on. -/
def l1Addr (loc : Loc) : Option Nat :=
  match loc with
  | .mem pa => some pa
  | .host a => some (2 ^ 45 + a)
  | .peer pa => some (2 ^ 52 + pa)
  | _ => none
/-- What stands behind a line: its bytes and cap syndromes, read at home, from the host, or from a peer; none where the peer refuses. -/
def backRead (s : State) (line : Nat) (key : BitVec 16) : Option (List Byte × List (BitVec 16)) × State :=
  let a := 128 * line
  if 2 ^ 52 ≤ a then peerRead s (a - 2 ^ 52) 128
  else if 2 ^ 45 ≤ a then (some (SMap.getList (w := 8) s.hostMem (a - 2 ^ 45) 128, List.replicate 8 0), s)
  else (some (homeBytes s a 128, (List.range 8).map fun j => s.memSynd.get (8 * line + j)), combRead s a 128 key)
/-- The runs of a mask: (first, length). -/
def maskRuns (m : BitVec 128) : List (Nat × Nat) :=
  ((List.range 128).foldl (fun (l : List (Nat × Nat)) k => if !m.getLsbD k then l else match l with
    | (b, n) :: r => if b + n = k then (b, n + 1) :: r else (k, 1) :: l
    | [] => [(k, 1)]) []).reverse
/-- Dirty bytes of a line of a peer go there as WRITEs, each in the name of the one who wrote them (14 R406). -/
def peerMerge (s : State) (l : L1Line) (mask : BitVec 128) : State :=
  let put := fun (t : State) (a : Asker) (m : BitVec 128) => (maskRuns m).foldl (fun t (b, n) => peerWrite t a (128 * l.line - 2 ^ 52 + b) ((List.range n).map fun i => lineByte l.data (b + i)) []) t
  let t := l.writers.foldl (fun t w => put t { who := w.who, core := some l.core, pc := w.pc, addr := w.addr } (mask &&& w.mask)) s
  put t { core := some l.core } (mask &&& ~~~(l.writers.foldl (fun m w => m ||| w.mask) 0))
/-- Merge masked bytes of a line of an L1 behind it: at home, in host memory, or by a peer. A write-back carries no agent (09 R221). -/
def backMerge (s : State) (l : L1Line) (mask : BitVec 128) : State :=
  let a := 128 * l.line
  if 2 ^ 52 ≤ a then peerMerge s l mask
  else if 2 ^ 45 ≤ a then { s with hostMem := SMap.setAll (w := 8) s.hostMem (linePairs ((a - 2 ^ 45) / 128) mask l.data) }
  else homeMerge s l.line mask l.data l.key none

def l1Find (s : State) (core line : Nat) : Option L1Line := s.l1.find? fun l => l.core == core && l.line == line
def l1Del (s : State) (core line : Nat) : State := { s with l1 := s.l1.filter fun l => !(l.core == core && l.line == line) }
/-- Write back the dirty bytes of a line: they stay valid and are clean (08 R181). -/
def l1WriteBack (s : State) (l : L1Line) : State :=
  let t := backMerge s l l.dirty
  { t with l1 := t.l1.map fun x => if x.core = l.core ∧ x.line = l.line then { x with dirty := 0, writers := [] } else x }
/-- Write back every dirty byte of a core (09 R214 step 3). -/
def l1Flush (s : State) (core : Nat) : State := (s.l1.filter fun l => l.core == core && l.dirty != 0).foldl l1WriteBack s
/-- Self-invalidation of one line (08 R181): clean bytes lose their valid bits, immutable pages excepted. -/
def l1Clean (l : L1Line) : L1Line := if l.imm then l else { l with valid := l.dirty }
/-- Self-invalidate the lines of a core. -/
def l1Inv (s : State) (core : Nat) : State :=
  { s with l1 := (s.l1.map fun l => if l.core = core then l1Clean l else l).filter fun l => l.valid ≠ 0 }
/-- Self-invalidate one line of a core. -/
def l1InvLine (s : State) (core line : Nat) : State :=
  { s with l1 := (s.l1.map fun l => if l.core = core ∧ l.line = line then l1Clean l else l).filter fun l => l.valid ≠ 0 }
/-- Make room in a set of 12 ways: the least recently used line is written back and leaves (08 R180). -/
def l1Room (s : State) (core line : Nat) : State :=
  let set := s.l1.filter fun l => l.core == core && l.line % 512 == line % 512
  if set.length < 12 then s
  else match set.getLast? with
    | some v => l1Del (l1WriteBack s v) core v.line
    | none => s
/-- The line of an address in a core's L1, allocated empty when absent. -/
def l1Take (s : State) (core line : Nat) (imm : Bool) : L1Line × State :=
  match l1Find s core line with
  | some l => (l, s)
  | none =>
    let l : L1Line := { core := core, line := line, valid := 0, dirty := 0, data := 0, synd := 0, imm := imm, key := 0, writers := [] }
    let t := l1Room s core line
    (l, { t with l1 := l :: t.l1 })
/-- Put back a line that was used: it is the last used of its core. -/
def l1Put (s : State) (l : L1Line) : State := { s with l1 := l :: s.l1.filter fun x => !(x.core == l.core && x.line == l.line) }
/-- Fill a line's invalid bytes (08 R180): dirty bytes are never overwritten, and caps from behind the line are folded into granules that had none. None where a peer refuses. -/
def l1Fill (s : State) (l : L1Line) (key : BitVec 16) : Option L1Line × State :=
  match backRead s l.line key with
  | (none, t) => (none, t)
  | (some (bs, caps), t) =>
    let synd := (List.range 8).foldl (fun d j =>
      if granMask l.valid j = 0xFFFF then d
      else (d &&& ~~~((0xFFFF : BitVec 128) <<< (16 * j))) ||| ((caps.getD j 0).setWidth 128 <<< (16 * j))) l.synd
    (some { l with data := lineMerge l.data (lineOf bs) (~~~l.valid), valid := BitVec.allOnes 128, synd := synd }, t)
/-- The check of the granules that n bytes from byte k of a line lie in. -/
def l1Cap (l : L1Line) (k n : Nat) : CapState :=
  ((List.range 8).filter fun j => decide (k / 16 ≤ j ∧ j ≤ (k + n - 1) / 16)).foldl
    (fun c j => if c = .good then capState (l.synd.extractLsb' (16 * j) 16) ((List.range 16).map fun i => lineByte l.data (16 * j + i)) else c) .good
/-- Whether every granule touched is fully valid. -/
def l1Hit (l : L1Line) (k n : Nat) : Bool := (List.range 8).all fun j => !decide (k / 16 ≤ j ∧ j ≤ (k + n - 1) / 16) || granMask l.valid j == 0xFFFF
/-- Read through L1 (n bytes within one line), under a key. -/
def l1Read (s : State) (core a n : Nat) (imm : Bool) (key : BitVec 16) : List Byte × CapState × State :=
  let (l0, t) := l1Take s core (a / 128) imm
  match (if l1Hit l0 (a % 128) n then (some l0, t) else l1Fill t l0 key) with
  | (some l, t) => ((List.range n).map fun i => lineByte l.data (a % 128 + i), l1Cap l (a % 128) n, l1Put t l)
  | (none, t) => (List.replicate n 0, .refused, { t with l1 := t.l1.filter fun x => x.valid ≠ 0 })
/-- Write through L1 (within one line): valid and dirty bits, the cap folded or made (08 R196). -/
def l1Write (s : State) (core a : Nat) (bs : List Byte) (key : BitVec 16) (imm : Bool) : State :=
  let (l, t) := l1Take s core (a / 128) imm
  let mask := byteMask (a % 128) bs.length
  let synd := (List.range 8).foldl (fun d j =>
    if granMask mask j = 0xFFFF ∨ (granMask mask j ≠ 0 ∧ granMask l.valid j ≠ 0xFFFF) then d &&& ~~~((0xFFFF : BitVec 128) <<< (16 * j)) else d) l.synd
  l1Put t { l with valid := l.valid ||| mask, dirty := l.dirty ||| mask, data := lineMerge l.data (lineOf bs <<< (8 * (a % 128))) mask, synd := synd, key := key }
/-- The writer of dirty bytes of a line is noted, over those of earlier ones. -/
def l1Sign (s : State) (core a n : Nat) (who : Issuer) (pc : VAddr) (addr : BitVec 64) : State :=
  let m := byteMask (a % 128) n
  { s with l1 := s.l1.map fun x => if x.core = core ∧ x.line = a / 128 then
      { x with writers := { mask := m, who := who, pc := pc, addr := addr } :: (x.writers.map fun w => { w with mask := w.mask &&& ~~~m }).filter fun w => w.mask ≠ 0 } else x }
/-- The bytes of the granules that n bytes at an address lie in, as a mask of its line. -/
def granuleMask (a n : Nat) : BitVec 128 := let k := a % 128 / 16 * 16; byteMask k ((a % 128 + n + 15) / 16 * 16 - k)
/-- Drop the granules of an access from a core's L1, their dirty bytes written back first (09 R220). -/
def l1DropGranule (s : State) (core a n : Nat) : State :=
  match l1Find s core (a / 128) with
  | none => s
  | some l =>
    let m := granuleMask a n
    let t := backMerge s l (l.dirty &&& m)
    { t with l1 := (t.l1.map fun x => if x.core = core ∧ x.line = l.line then { x with dirty := x.dirty &&& ~~~m, valid := x.valid &&& ~~~m, writers := x.writers.map fun w => { w with mask := w.mask &&& ~~~m } } else x).filter (fun x => x.valid ≠ 0) }
/-- The clean bytes of the granules of an access leave a core's L1 (09 R212 limit 1: an older value read before the operation was executed does not stay). -/
def l1FreshGranule (s : State) (core a n : Nat) : State :=
  { s with l1 := (s.l1.map fun x => if x.core = core ∧ x.line = a / 128 then { x with valid := x.valid &&& ~~~(granuleMask a n &&& ~~~x.dirty) } else x).filter fun x => x.valid ≠ 0 }
/-- Overlay a core's own dirty bytes on bytes read at home (09 R179, R215). -/
def l1Overlay (s : State) (core pa : Nat) (bs : List Byte) : List Byte :=
  match l1Find s core (pa / 128) with
  | none => bs
  | some l => (List.range bs.length).map fun i => if l.dirty.getLsbD (pa % 128 + i) then lineByte l.data (pa % 128 + i) else bs.getD i 0
/-- Drop bytes of an interval from the L1s of a cluster (09 R224 step 2): clean bytes lose their valid bits. -/
def l1DropRange (s : State) (cluster lo hi : Nat) : State :=
  { s with l1 := (s.l1.map fun l =>
      if coreCluster l.core = cluster ∧ lo < 128 * l.line + 128 ∧ 128 * l.line < hi then
        let m := maskOf ((List.range 128).filter fun k => decide (lo ≤ 128 * l.line + k ∧ 128 * l.line + k < hi)) 128
        { l with valid := l.valid &&& ~~~(m &&& ~~~l.dirty) }
      else l).filter fun l => l.valid ≠ 0 }
/-- Write back the dirty bytes of a cluster's L1s that overlap an interval (09 R222). -/
def l1FlushRange (s : State) (cluster lo hi : Nat) : State :=
  (s.l1.filter fun l => coreCluster l.core == cluster && decide (lo < 128 * l.line + 128 ∧ 128 * l.line < hi)).foldl l1WriteBack s

end Sys2Proof.Machine
end

