-- ==== Sys2Proof/Machine/Translate.lean ====
section
/-! DEFINITION. Address translation and the checks of an address: page tables and TLBs (14 R395 to R400), page states (R401, R402, R406), the windows (08 R175, R467), the four spaces and their causes in the order of 08 R201, and the range locks (09 R222, R223). -/

namespace Sys2Proof.Machine

/-! ### Page tables -/

/-- Why a walk fails: a reason of R400, and whether a cap failed. -/
structure WalkFault where
  reason : Nat
  cap : CapState
  deriving DecidableEq, Repr

/-- A translation: physical address, page size, and the leaf's flags (bit 0 PRIV, 1 IMM, 2 SC, 3 X, 4 W). -/
structure Trans where
  pa : Nat
  size : Nat
  priv : Bool
  imm : Bool
  sc : Bool
  x : Bool
  w : Bool
  deriving DecidableEq, Repr

/-- Levels of the tables: lowest VA bit indexed, index bits, whether a leaf may stand here, whether SPLIT may, whether it must be a leaf (R396, R397). -/
def walkLevels : List (Nat × Nat × Bool × Bool × Bool) :=
  [(48, 9, false, false, false), (39, 9, false, false, false), (30, 9, true, false, false), (21, 9, true, true, false), (16, 5, true, false, true)]

/-- An entry with V = 1 is malformed (R397). -/
def entMalformed (e : Nat) (lowBit : Nat) (leafOk splitOk must : Bool) : Bool :=
  let bit := fun i => e.testBit i
  let leaf := bit 1
  let split := bit 6
  let addr := e / 256 % 2 ^ 44 * 256
  decide (e / 2 ^ 52 ≠ 0) || (leaf && !leafOk) || (must && !leaf) || (split && (!splitOk || leaf)) || (splitOk && !leaf && !split)
    || (bit 5 && bit 2) || (leaf && decide (addr % 2 ^ lowBit ≠ 0)) || (!leaf && decide (addr % (if split then 256 else 4096) ≠ 0))
    || (!leaf && (bit 7 || bit 4 || bit 3 || bit 2 || bit 5))

/-- A Votan port to a device is up (15 R423). -/
def reachable (s : State) (dev : Nat) : Bool :=
  (mreg s Reg.DOMAIN).testBit dev && s.ports.any fun p => p.up && (mreg s (Reg.ROUTE + 8 * dev) % 65536).testBit p.port
/-- The walk of R398 from a table address. An entry that stands with a peer is a free value (log 11). -/
def walkFrom (s : State) (va e : Nat) : List (Nat × Nat × Bool × Bool × Bool) → Except WalkFault Trans
  | [] => .error ⟨3, .good⟩
  | (low, bits, leafOk, splitOk, must) :: r =>
    let a := e + 8 * (va / 2 ^ low % 2 ^ bits)
    if a / 2 ^ 46 ≠ ownDev s ∨ hbmCap s ≤ a % 2 ^ 46 then .error ⟨4, .good⟩
    else
      let p := a % 2 ^ 46
      let d := servedDir s p
      let u := 2 ^ 64 * (a + 1) + s.clk
      let away := decide (d.st = 2)
      let c := if away then freeCap (Config.peerByte u) else homeCap s (p / 16)
      if away && !reachable s d.owner.toNat then .error ⟨4, .good⟩
      else if c ≠ .good then .error ⟨4, c⟩
      else
        let ent := if away then (Config.unstated u).toNat else homeNat s p 8
        if !ent.testBit 0 then .error ⟨0, .good⟩
        else if entMalformed ent low leafOk splitOk must then .error ⟨3, .good⟩
        else if ent.testBit 1 then
          .ok { pa := ent / 256 % 2 ^ 44 * 256 + va % 2 ^ low, size := 2 ^ low, priv := ent.testBit 7, imm := ent.testBit 5,
                sc := ent.testBit 4, x := ent.testBit 3, w := ent.testBit 2 }
        else walkFrom s va (ent / 256 % 2 ^ 44 * 256) r

/-- A full walk: ROOT = 0 is not present (R395). ROOT is a local physical address. -/
def walk (s : State) (root va : Nat) : Except WalkFault Trans :=
  if root = 0 then .error ⟨0, .good⟩ else walkFrom s va (ownDev s * 2 ^ 46 + root) walkLevels

/-! ### Page states -/

/-- The bytes of a directory entry. -/
def dirBytes (d : DirEntry) : List Byte := leBytes 2 d.seq.toNat ++ [d.st, d.size, d.owner, 0, 0, 0] ++ leBytes 8 d.set.toNat
/-- Write a directory entry, as the home does. -/
def setDir (s : State) (i : Nat) (d : DirEntry) : State :=
  let a := mreg s Reg.DIRBASE + 16 * i
  homeWrite s a (dirBytes d) 0 none

/-- Address of way w of set k of the copy table (R402). -/
def copyAddr (s : State) (k w : Nat) : Nat := mreg s Reg.COPYBASE + (8 * k + w) * 16
/-- The set of a page base (R402). -/
def copySet (big : Bool) (g : Nat) : Nat := if big then (crc16 (g / 2 ^ 21 % 2 ^ 31) 31).toNat % 8192 else (crc16 (g / 2 ^ 16 % 2 ^ 36) 36).toNat % 8192
/-- An entry of the copy table: its address, GPA and LOCAL words. -/
def copyFind (s : State) (big : Bool) (g : Nat) (states : List Nat) : Option (Nat × Nat) :=
  let size := if big then 2 ^ 21 else 2 ^ 16
  let base := g % 2 ^ 52 / size * size
  ((List.range 8).map fun w => (copyAddr s (copySet big g) w, homeNat s (copyAddr s (copySet big g) w + 8) 8)).find? fun (a, l) =>
    states.contains (l % 16) && homeNat s a 8 == base + (if big then 1 else 0)
/-- The lookup of R402: whether the page is 2 MiB, the entry's address, its LOCAL word. -/
def copyLookup (s : State) (g : Nat) (states : List Nat) : Option (Bool × Nat × Nat) :=
  match copyFind s true g states with
  | some (a, l) => some (true, a, l)
  | none => (copyFind s false g states).map fun (a, l) => (false, a, l)

/-! ### Where an access lands -/

/-- What a check of an access finds. -/
inductive Acc where
  | ok (loc : Loc) (t : Trans)
  | fault (c : Cause)
  /-- the page is in a transition (R405): the access waits -/
  | wait
  deriving DecidableEq, Repr

/-- The spaces of 08 R174, in the order of the causes of R201. -/
inductive Space where
  | global | local_ | cluster | priv
  deriving DecidableEq, Repr

def Space_num : Space → Nat
  | .global => 0
  | .local_ => 1
  | .cluster => 2
  | .priv => 3

/-- A class-5 cause (R201). -/
def memCause (sp : Space) (w : Bool) (reason : Nat) : Cause := BitVec.ofNat 9 (0x0A0 + 8 * Space_num sp + (if w then 4 else 0) + reason)
/-- A class-4 cause (R400). -/
def trCause (reason kind : Nat) : Cause := BitVec.ofNat 9 (0x080 + 4 * reason + kind)

/-- The translation of an address for an issuer: its TLBs first, then a walk (R399). A management core has none (DESIGN CHOICE: log 14), so each of its accesses walks. -/
def translate (s : State) (core : Option Nat) (asid : BitVec 16) (root va : Nat) : Except WalkFault Trans :=
  let hit := s.tlb.find? fun e => e.asid == asid && decide (e.page ≤ va ∧ va < e.page + e.size) &&
    (match core with
      | some c => if e.second then e.unit == coreCluster c else e.unit == c
      | none => false)
  match hit with
  | some e => .ok { pa := e.pa + (va - e.page), size := e.size, priv := e.flags.getLsbD 0, imm := e.flags.getLsbD 1, sc := e.flags.getLsbD 2,
                    x := e.flags.getLsbD 3, w := e.flags.getLsbD 4 }
  | none => walk s root va

/-- A plain identity translation, for windows. -/
def Trans_none : Trans := { pa := 0, size := 0, priv := false, imm := false, sc := false, x := true, w := true }

/-- The recovery of the entry that governs a local page has failed: a device whose answer it needs cannot be reached (R400 reason 5, R409; log 105). -/
def recoveryFailed (s : State) (p : Nat) : Bool :=
  s.busy.any fun x => x.cmd == 0 && decide (x.index ≤ p / 65536 ∧ p / 65536 < x.index + dirSize x.before / 65536) && x.waiting.any fun k => !reachable s k
/-- The place of a translated physical address (08 R187, 14 R406), with the causes of the page's state. `kind` is 0 read, 1 write, 2 fetch. -/
def placeOf (s : State) (sp : Space) (t : Trans) (kind : Nat) (isPriv : Bool) : Acc :=
  let w := kind == 1
  let dev := t.pa / 2 ^ 46
  let p := t.pa % 2 ^ 46
  let perm := (kind == 1 && !t.w) || (kind == 2 && !t.x)
  let privBad := t.priv && !isPriv
  if perm then .fault (trCause 1 kind)
  else if dev = ownDev s then
    if p < hbmCap s then
      let d := dirOf s p
      if d.st = 3 then (if recoveryFailed s p then .fault (trCause 5 kind) else .wait)
      else if d.st = 1 && w then .fault (trCause 2 kind)
      else if t.sc && d.st ≠ 0 then .fault (trCause 6 kind)
      else if privBad then .fault (trCause 7 kind)
      else if d.st = 2 then (if reachable s d.owner.toNat then .ok (.peer t.pa) t else .fault (memCause sp w 3))
      else .ok (.mem p) t
    else if privBad then .fault (trCause 7 kind)
    else if p < 2 ^ 45 then
      if 2 ^ 45 - 65536 ≤ p ∧ isPriv ∧ t.priv then .ok (.mreg (p - (2 ^ 45 - 65536))) t else .fault (memCause sp w 2)
    else if s.part.hosten = 0 then .fault (memCause sp w 3)
    else .ok (.host (p - 2 ^ 45)) t
  else
    match copyLookup s t.pa [1, 2] with
    | some (big, _, l) =>
      if l % 16 = 1 ∧ w then .fault (trCause 2 kind)
      else if t.sc then .fault (trCause 6 kind)
      else if privBad then .fault (trCause 7 kind)
      else .ok (.mem (l / 65536 % 2 ^ 30 * 65536 + t.pa % (if big then 2 ^ 21 else 2 ^ 16))) t
    | none =>
      if p ≥ 2 ^ 45 then .fault (trCause 5 kind)
      else if privBad then .fault (trCause 7 kind)
      else if !reachable s dev then .fault (memCause sp w 3)
      else .ok (.peer t.pa) t

/-- Where the bytes of a page in transition stand, for the reads and writes that the device makes of its own accord (log 98): with the owner that the transition found, else at home. -/
def placeThrough (s : State) (core : Option Nat) (asid : BitVec 16) (root va : Nat) : Option Loc :=
  match translate s core asid root va with
  | .ok t => some (if (servedDir s (t.pa % 2 ^ 46)).st = 2 then .peer t.pa else .mem (t.pa % 2 ^ 46))
  | .error _ => none
/-- Translate and place a virtual address of 57 bits. -/
def placeVa (s : State) (iss : Issuer) (sp : Space) (va kind : Nat) : Acc :=
  let (asid, root) := spaceOf s iss
  let isPriv := match iss with
    | .mgmt _ => true
    | _ => false
  match translate s ((issuerWg s iss).map (·.core)) asid root va with
  | .error f => .fault (trCause f.reason kind)
  | .ok t => placeOf s sp t kind isPriv

/-- Local allocations of a workgroup: (local offset, size, physical base) (08 R182). -/
def localAllocs (r : LaunchRec) (bases : List Nat) : List (Nat × Nat × Nat) :=
  go 0 (r.locals.filterMap fun w => if fldN w 20 0 = 0 then none else some (fldN w 20 0)) bases
where
  go (off : Nat) : List Nat → List Nat → List (Nat × Nat × Nat)
    | z :: zs, b :: bs => (off, z, b) :: go (roundUp (off + z) 512) zs bs
    | _, _ => []

/-- The physical place of a local access. -/
def placeLocal (s : State) (k : Workgroup) (a n : Nat) (w : Bool) : Acc :=
  let al := match gridOf s k with
    | some g => localAllocs g.lrec k.bases
    | none => []
  if al = [] then .fault (memCause .local_ w 2)
  else match al.find? fun (o, z, _) => decide (o ≤ a ∧ a + n ≤ o + z) with
    | some (o, _, b) => .ok (.ls (k.core / 2 * 1048576 + b + (a - o))) Trans_none
    | none => .fault (memCause .local_ w 1)

/-- The physical place of cluster-scratch address X (08 R186). -/
def placeCluster (s : State) (cluster a : Nat) (w : Bool) : Acc :=
  let z := shareOf s cluster
  let e := enabledPairs s cluster
  if z = 0 then .fault (memCause .cluster w 2)
  else if e.length * z ≤ a then .fault (memCause .cluster w 1)
  else
    let q := a / 128
    .ok (.ls (e.getD (q % e.length) 0 * 1048576 + (1048576 - z) + q / e.length * 128 + a % 128)) Trans_none

/-- The cluster of an issuer. A management core belongs to none (01 R472): it is numbered from 16, where no scratch, no L1 and no range of another stands (log 14). -/
def issuerCluster (s : State) (iss : Issuer) : Nat :=
  match iss with
  | .mgmt k => 16 + k
  | i => match issuerWg s i with
    | some k => coreCluster k.core
    | none => 0

/-- The grid window (08 R467). `excl` marks ldres, forage, fe and cntwt. -/
def placeGridWin (s : State) (iss : Issuer) (off n : Nat) (w excl : Bool) : Acc :=
  match issuerWg s iss with
  | none => .fault (memCause .global w 2)
  | some k =>
    match gridOf s k with
    | none => .fault (memCause .global w 2)
    | some g =>
      let isCue := match iss with
        | .cue _ => true
        | _ => false
      if excl then .fault (memCause .global w 2)
      else if off + n ≤ 0x1000 ∨ (0x1000 ≤ off ∧ off + n ≤ 0x1100) then
        (if w then .fault 0x085 else .ok (.mem (g.run + off)) Trans_none)
      else if 0x2000 ≤ off ∧ off + n ≤ 0x2040 ∧ isCue = true then .ok (.ctrap (k.image + 0x80 + (off - 0x2000))) Trans_none
      else .fault (memCause .global w 2)

/-- A range of virtual addresses is a window (08 R175, R467). -/
def windowOf (va : Nat) : Nat := if va / 2 ^ 32 = 0x1FFFFFE then 1 else if va / 2 ^ 32 = 0x1FFFFFF then 2 else if va / 2 ^ 32 = 0x1FFFFFD then 3 else 0

/-- The place of a global address of n bytes. -/
def placeGlobal (s : State) (iss : Issuer) (a n : Nat) (w excl : Bool) : Acc :=
  match windowOf a with
  | 1 =>
    if a % n ≠ 0 then .fault (memCause .local_ w 0)
    else match issuerWg s iss with
      | some k => placeLocal s k (a % 2 ^ 32) n w
      | none => .fault (memCause .local_ w 2)
  | 2 => if a % n ≠ 0 then .fault (memCause .cluster w 0) else placeCluster s (issuerCluster s iss) (a % 2 ^ 32) w
  | win =>
    if a % n ≠ 0 then .fault (memCause .global w 0)
    else if 2 ^ 57 ≤ a then .fault (memCause .global w 1)
    else if win = 3 then placeGridWin s iss (a % 2 ^ 32) n w excl
    else placeVa s iss .global a (if w then 1 else 0)

/-- The base of a thread's private region (08 R176). -/
def privBase (r : LaunchRec) (k : Workgroup) (warp lane : Nat) : Nat :=
  r.pbase + (k.lin * LaunchRec_threads r + (warp * LaunchRec_wwidth r + lane)) * r.psize

/-- The place of n bytes at offset a of a thread's private space (08 R176, R201). -/
def placePriv (s : State) (iss : Issuer) (warp lane a n : Nat) (w : Bool) : Acc :=
  match issuerWg s iss with
  | none => .fault (memCause .priv w 2)
  | some k => match gridOf s k with
    | none => .fault (memCause .priv w 2)
    | some g =>
      if a % n ≠ 0 then .fault (memCause .priv w 0)
      else if g.lrec.psize = 0 then .fault (memCause .priv w 2)
      else if g.lrec.psize < a + n then .fault (memCause .priv w 1)
      else placeVa s iss .priv ((privBase g.lrec k warp lane + a) % 2 ^ 57) (if w then 1 else 0)

/-- The place of an access in any space; local and cluster offsets are 32 bits. -/
def place (s : State) (iss : Issuer) (sp : Space) (warp lane a n : Nat) (w : Bool) : Acc :=
  match sp with
  | .global => placeGlobal s iss a n w false
  | .local_ =>
    if a % n ≠ 0 then .fault (memCause .local_ w 0)
    else match issuerWg s iss with
      | some k => placeLocal s k a n w
      | none => .fault (memCause .local_ w 2)
  | .cluster => if a % n ≠ 0 then .fault (memCause .cluster w 0) else placeCluster s (issuerCluster s iss) a w
  | .priv => placePriv s iss warp lane a n w

/-- The coherence page that a physical address lies in, as the bound of its TLB entry (R398): a peer's page of unknown size counts as 2 MiB; the host window and the register map lie in none. -/
def cohSize (s : State) (pa : Nat) : Nat :=
  if pa / 2 ^ 46 = ownDev s then (if pa % 2 ^ 46 < hbmCap s then dirSize (dirOf s (pa % 2 ^ 46)) else 2 ^ 30)
  else match copyLookup s pa [1, 2] with
    | some (false, _, _) => 2 ^ 16
    | _ => 2 ^ 21
/-- The set of 8 ways in which a cluster's TLB of 4,096 entries keeps a page: its number modulo 512 (DESIGN CHOICE: log 15). -/
def tlbSet (page size : Nat) : Nat := page / size % 512
/-- Cache a translation that an access used (R399): the core's TLB of 128 entries and the set of the cluster's drop their oldest (log 15). The page cached is no larger than the coherence page. A management core has no TLB (DESIGN CHOICE: log 14). -/
def tlbFill (s : State) (core : Nat) (asid : BitVec 16) (va : Nat) (t : Trans) : State :=
  if t.size = 0 then s
  else if s.tlb.any fun e => !e.second && e.unit == core && e.asid == asid && decide (e.page ≤ va ∧ va < e.page + e.size) then s
  else
    let size := min t.size (cohSize s t.pa)
    let fl := bitsOf (fun i => [t.priv, t.imm, t.sc, t.x, t.w].getD i false) 5
    let mk := fun sec unit => { second := sec, unit := unit, asid := asid, page := va / size * size, size := size, pa := t.pa - va % size, flags := BitVec.ofNat 8 fl : TlbEntry }
    let keep := fun (p : TlbEntry → Bool) (n : Nat) (l : List TlbEntry) => if (l.filter p).length < n then l else match l.reverse.find? p with
      | some x => l.erase x
      | none => l
    let l1 := mk false core :: keep (fun e => !e.second && e.unit == core) 128 s.tlb
    { s with tlb := if s.tlb.any fun e => e.second && e.unit == coreCluster core && e.asid == asid && decide (e.page ≤ va ∧ va < e.page + e.size) then l1 else mk true (coreCluster core) :: keep (fun e => e.second && e.unit == coreCluster core && tlbSet e.page e.size == tlbSet (va / size * size) size) 8 l1 }

/-! ### Range locks (09 R222, R223) -/

/-- Which kind of access a lock is checked against: bits [1:0] of 0x0E8 (09 R225). -/
def lockHit (s : State) (iss : Issuer) (sp : Space) (loc : Loc) (n : Nat) (w : Bool) (rmw : Bool) : Option Cause :=
  let cl := issuerCluster s iss
  let mine := (issuerWg s iss).map (·.id)
  let f := fun (isLocal : Bool) (a : Nat) =>
    let hits := s.locks.filter fun l => l.cluster == cl && l.local_ == isLocal && decide (l.lo < a + n ∧ a < l.hi) && (w || !(l.source || l.shared))
    match hits.head? with
    | none => none
    | some _ =>
      if isLocal && hits.any (fun l => l.wg != mine) then
        some (memCause sp w 3)
      else
        let kind := if rmw then 3 else if !w then 0 else if hits.any (fun l => l.source) then 1 else 2
        some (BitVec.ofNat 9 (0x0E8 + (if isLocal then 4 else 0) + kind))
  match loc with
  | .mem pa => f false pa
  | .ls a => f true a
  | .peer pa => f false (2 ^ 52 + pa)
  | _ => none

end Sys2Proof.Machine
end

