-- ==== Sys2Proof/Machine/RegMap.lean ====
section
/-! DEFINITION. Reads and writes of the management register map (15 R422 to R424). -/

namespace Sys2Proof.Machine

/-- The 4-byte queue registers (R424): field 0 WAKE, 1 WIDX, 2 RIDX, 3 QCTL of queue q. -/
def qreg (s : State) (q f : Nat) : Nat := mreg s (Reg.QUEUE + 16 * q + f / 2 * 8) / 2 ^ (32 * (f % 2)) % 2 ^ 32
def setQreg (s : State) (q f v : Nat) : State :=
  let off := Reg.QUEUE + 16 * q + f / 2 * 8
  let x := mreg s off
  setMreg s off (if f % 2 = 0 then x / 2 ^ 32 * 2 ^ 32 + v % 2 ^ 32 else x % 2 ^ 32 + v % 2 ^ 32 * 2 ^ 32)
def qWake (s : State) (q : Nat) : Nat := qreg s q 0
def qWidx (s : State) (q : Nat) : Nat := qreg s q 1
def qRidx (s : State) (q : Nat) : Nat := qreg s q 2
def qCtl (s : State) (q : Nat) : Nat := qreg s q 3

/-- A management core parked at `chalt` takes its wake register when that is non-zero: the value goes to c(D) and the register is cleared (13 R392). -/
def chaltRelease (s : State) (m : Nat) : State :=
  let off := Reg.MWAKE + 8 * m
  if mreg s off = 0 then s
  else match s.mgmt[m]? with
    | some x => (match x.cue.park with
      | some (.chalt d) =>
        setMreg { s with mgmt := s.mgmt.modify m fun x => { x with cue := unparkCue (cset x.cue d (BitVec.ofNat 64 (mreg s off))) } } off 0
      | _ => s)
    | none => s

/-- OR a value into a wake register of 13 R368: queues 0 to 255, management cores 256 to 259. -/
def wakeOr (s : State) (target v : Nat) : State :=
  if target < 256 then setQreg s target 0 (qWake s target ||| v % 2 ^ 32)
  else if target < 260 then
    let off := Reg.MWAKE + 8 * (target - 256)
    chaltRelease (setMreg s off (mreg s off ||| v % 2 ^ 32)) (target - 256)
  else s

/-- Offsets that hold a register (R422); the others are reserved. -/
def regListed (off : Nat) : Bool :=
  off % 8 = 0 && (decide (off ≤ 0xF8) || decide (0x100 ≤ off ∧ off ≤ 0x178) || decide (0x200 ≤ off ∧ off ≤ 0x3F8) || decide (0x400 ≤ off ∧ off ≤ 0x23F8))

/-- Read n bytes of the map; an access that is not an aligned 4- or 8-byte one reads as zero (log 16). -/
def regRead (s : State) (off n : Nat) : Nat :=
  if off % n ≠ 0 then 0
  else if Reg.QUEUE ≤ off ∧ off < 0x4000 then (if n = 4 then qreg s ((off - Reg.QUEUE) / 16) (off / 4 % 4) else 0)
  else if !regListed (off / 8 * 8) then 0
  else if n = 8 then mreg s off
  else if n = 4 then mreg s (off / 8 * 8) / 2 ^ (8 * (off % 8)) % 2 ^ 32
  else 0

/-- Start-up has locked the identity registers (R423). -/
def locked (s : State) : Bool := (mreg s Reg.DEVNUM).testBit 8

/-- A write of DIEEN: writing 1 while the die is off and 10 degrees below TSHUT starts its return (15 R431; log 36). -/
def dieWrite (s : State) (old en : Nat) : Nat :=
  let cool := decide (sextN old 16 + 160 ≤ sextN (mreg s Reg.TLIM / 2 ^ 48) 16)
  if en = 1 ∧ old / 65536 % 4 = 2 ∧ cool = true then old % 65536 + 3 * 65536 + 2 ^ 32 else old % 2 ^ 32 + en * 2 ^ 32
/-- The value that a write of v leaves in a register, by its access rule and range (R422). A write of ATTCTL with GO = 1 asks for a new report (R434), so DONE falls. DESIGN CHOICE: a bit that the list neither describes nor reserves reads back as 0 in WSHARE and ATTCTL, and rejects the write in ERRBASE (log 84). -/
def regAccept (s : State) (off v : Nat) : Nat :=
  let old := mreg s off
  let al := fun (k : Nat) => if v % k = 0 then v else old
  if off = Reg.PWRLIM then (if 1000 ≤ v ∧ v ≤ s.part.pwrmax.toNat then v else old)
  else if off = Reg.TLIM then v
  else if off = Reg.DIEBUDGET then (if 64 ≤ v ∧ v ≤ 640 then v else old)
  else if off = Reg.CTBASE then al 2048
  else if off = Reg.CTXBASE then al 2097152
  else if off = Reg.CTXSIZE then v
  else if off = Reg.PTIMEOUT then v
  else if off = Reg.SVCBASE then al 1024
  else if off = Reg.HQBASE then al 16384
  else if off = Reg.DIRBASE then (if locked s then old else al 4096)
  else if off = Reg.COPYBASE then (if locked s then old else al 1048576)
  else if off = Reg.MROOT then al 4096
  else if off = Reg.ERRBASE then (if 4 ≤ v % 256 ∧ v % 256 ≤ 16 ∧ v < 2 ^ 52 then v else old)
  else if off = Reg.ERRRIDX then v
  else if off = Reg.WSHARE then v % 2 ^ 32
  else if Reg.MWAKE ≤ off ∧ off < Reg.ATTNONCE then old ||| v
  else if Reg.ATTNONCE ≤ off ∧ off < Reg.ATTCTL then v
  else if off = Reg.ATTCTL then (if v / 256 % 16 = 0 then v / 256 * 256 + (if v % 2 = 1 then 1 else v % 4) else old)
  else if off = Reg.DEVNUM then (if locked s then old else v % 64 + v / 256 % 2 * 256)
  else if off = Reg.DOMAIN then (if locked s then old else v)
  else if Reg.DIESTAT ≤ off ∧ off ≤ 0x178 then dieWrite s old (v / 2 ^ 32 % 2)
  else if Reg.ROUTE ≤ off ∧ off ≤ 0x3F8 then (if off = Reg.ROUTE + 8 * ownDev s then 0 else v % 2 ^ 24)
  else old

/-- Write a queue register (R424): WAKE is ORed, WIDX is the host's, RIDX is the device's, QCTL keeps all but ENABLE. -/
def queueWrite (s : State) (q f v : Nat) : State :=
  if f = 0 then wakeOr s q v
  else if f = 1 then setQreg s q 1 v
  else if f = 2 then s
  else setQreg s q 3 (qCtl s q / 2 * 2 + v % 2)

/-- Write n bytes of the map, as far as the register itself goes. -/
def regStore (s : State) (off n v : Nat) : State :=
  if off % n ≠ 0 then s
  else if Reg.QUEUE ≤ off ∧ off < 0x4000 then (if n = 4 then queueWrite s ((off - Reg.QUEUE) / 16) (off / 4 % 4) v else s)
  else
    let r := off / 8 * 8
    if !regListed r then s
    else if n = 8 then setMreg s r (regAccept s r (v % 2 ^ 64))
    else if n = 4 then
      let base := if Reg.MWAKE ≤ r ∧ r < Reg.ATTNONCE then 0 else mreg s r
      let sh := 8 * (off % 8)
      setMreg s r (regAccept s r (base - base / 2 ^ sh % 2 ^ 32 * 2 ^ sh + v % 2 ^ 32 * 2 ^ sh))
    else s

/-- Write n bytes of the map; a write of a management core's wake register releases its `chalt`. -/
def regWrite (s : State) (off n v : Nat) : State :=
  let t := regStore s off n v
  if Reg.MWAKE ≤ off ∧ off < Reg.ATTNONCE then chaltRelease t ((off - Reg.MWAKE) / 8) else t

end Sys2Proof.Machine
end

