-- ==== Sys2Proof/Machine/Lines.lean ====
section
/-! DEFINITION. The image of a workgroup (13 R377, R470): its areas by offset, the register lines with their formats (R375, R376), and a line read back (R347, 08 R200). -/

namespace Sys2Proof.Machine

/-- The integrity cause of a consumer (08 R200): mismatch or poison; a read that a peer's home refused has reason 5 (14 R400), of a fetch for consumer 8. -/
def integrityCause (consumer : Nat) (c : CapState) : Option Cause :=
  match c with
  | .good => none
  | .mismatch => some (BitVec.ofNat 9 (0x0C0 + consumer))
  | .poison => some (BitVec.ofNat 9 (0x0D0 + consumer))
  | .refused => if consumer = 12 ∨ consumer = 13 ∨ consumer = 15 then none else some (if consumer = 8 then 0x096 else 0x094)

/-! ### The areas of an image (R377) -/

def wwarps (r : LaunchRec) : Nat := LaunchRec_warps r
def wslices (r : LaunchRec) : Nat := 2 ^ r.width
def localSize (r : LaunchRec) : Nat := (r.locals.map fun w => roundUp (fldN w 20 0) 512).sum
def imgWarps : Nat := 4096
def imgCtl (r : LaunchRec) : Nat := imgWarps + roundUp (512 * wwarps r) 4096
def imgSide (r : LaunchRec) : Nat := imgCtl r + roundUp (64 * wwarps r * LaunchRec_wwidth r) 4096
def imgLines (r : LaunchRec) : Nat := imgSide r + roundUp (32 * LaunchRec_lines r) 4096
def imgTiles (r : LaunchRec) : Nat := imgLines r + roundUp (128 * LaunchRec_lines r) 4096
def imgAccs (r : LaunchRec) : Nat := imgTiles r + 4096 * r.tileg
def imgLocal (r : LaunchRec) : Nat := imgAccs r + 32768 * r.accs
/-- The size of a workgroup's image (R377). -/
def imageSize (r : LaunchRec) : Nat := imgLocal r + roundUp (localSize r) 4096


/-! ### Register lines (R375 to R377) -/

/-- What a line of the image holds: vector r of slice j of warp w, uniform line u, a predicate line, cue line m. -/
inductive LineKind where
  | vec (w j r : Nat)
  | uni (w u : Nat)
  | prd (w : Nat)
  | cue (m : Nat)
  deriving DecidableEq, Repr

/-- Line n of a launch record (R377). -/
def lineKind (r : LaunchRec) (n : Nat) : LineKind :=
  let kk := wslices r
  let v := wwarps r * kk * r.vregs
  let u := ceilDiv r.sregs 32
  if n < v then .vec (n / r.vregs / kk) (n / r.vregs % kk) (n % r.vregs)
  else if n < v + wwarps r * u then .uni ((n - v) / u) ((n - v) % u)
  else if n + 4 < LaunchRec_lines r then .prd (n - v - wwarps r * u)
  else .cue (n + 4 - LaunchRec_lines r)
/-- The line of vector register r of a lane, of a uniform register, of the predicates, of a cue register. -/
def vecLine (r : LaunchRec) (w lane reg : Nat) : Nat := (w * wslices r + lane / 32) * r.vregs + reg
def uniLine (r : LaunchRec) (w reg : Nat) : Nat := wwarps r * wslices r * r.vregs + w * ceilDiv r.sregs 32 + reg / 32
def prdLine (r : LaunchRec) (w : Nat) : Nat := wwarps r * wslices r * r.vregs + wwarps r * ceilDiv r.sregs 32 + w
def cueLine (r : LaunchRec) (reg : Nat) : Nat := LaunchRec_lines r - 4 + reg / 16

/-- The 128 bytes a line holds. -/
def lineGet (r : LaunchRec) (k : Workgroup) : LineKind → List Byte
  | .vec w j x => (List.range 32).flatMap fun i => leBytes 4 (match k.warps[w]? with
    | some y => (vget y x (32 * j + i)).toNat
    | none => 0)
  | .uni w u => (List.range 32).flatMap fun i => leBytes 4 (match k.warps[w]? with
    | some y => (sget y (32 * u + i)).toNat
    | none => 0)
  | .prd w => (List.range 128).map fun t => BitVec.ofNat 8 (match k.warps[w]? with
    | some y => if t < LaunchRec_wwidth r then bitsOf (fun n => pget y n t) 8 else 0
    | none => 0)
  | .cue m => (List.range 16).flatMap fun i => leBytes 8 (cget k.cue (16 * m + i)).toNat
/-- Give a line 128 bytes. -/
def lineSet (r : LaunchRec) (k : Workgroup) (bs : List Byte) : LineKind → Workgroup
  | .vec w j x => Workgroup_updWarp k w fun y => (List.range 32).foldl (fun y i => vset y x (32 * j + i) (BitVec.ofNat 32 (leNat ((bs.drop (4 * i)).take 4)))) y
  | .uni w u => Workgroup_updWarp k w fun y => (List.range 32).foldl (fun y i => if 32 * u + i < r.sregs then sset y (32 * u + i) (BitVec.ofNat 32 (leNat ((bs.drop (4 * i)).take 4))) else y) y
  | .prd w => Workgroup_updWarp k w fun y => (List.range (LaunchRec_wwidth r)).foldl (fun y t => (List.range 7).foldl (fun y n => pset y n t ((bs.getD t 0).getLsbD n)) y) y
  | .cue m => { k with cue := (List.range 16).foldl (fun c i => cset c (16 * m + i) (BitVec.ofNat 64 (leNat ((bs.drop (8 * i)).take 8)))) k.cue }

/-- The words of a line. -/
def lineWords (bs : List Byte) : List Nat := (List.range 32).map fun i => leNat ((bs.drop (4 * i)).take 4)
/-- A difference of words as a signed number. -/
def wordDelta (a b : Nat) : Int := sextN ((a + 2 ^ 32 - b) % 2 ^ 32) 32
/-- The format of a live line and the bytes written for it (R376). Only vector lines are compressed. -/
def lineFormat (vec : Bool) (bs : List Byte) : Nat × List Byte :=
  let e := lineWords bs
  let e0 := e.headD 0
  let d := (e.getD 1 0 + 2 ^ 32 - e0) % 2 ^ 32
  let fits := fun (n : Nat) => e.all fun x => decide (-2 ^ (n - 1) ≤ wordDelta x e0 ∧ wordDelta x e0 < 2 ^ (n - 1))
  if !vec then (0, bs)
  else if e.all (· = 0) then (4, [])
  else if e.all (· = e0) then (1, leBytes 4 e0)
  else if (List.range 32).all fun i => e.getD i 0 = (e0 + i * d) % 2 ^ 32 then (5, leBytes 4 e0 ++ leBytes 4 d)
  else if fits 8 then (2, leBytes 4 e0 ++ (e.tail.map fun x => (wrap 8 (wordDelta x e0))))
  else if fits 16 then (3, leBytes 4 e0 ++ e.tail.flatMap fun x => leBytes 2 (wrap 16 (wordDelta x e0)).toNat)
  else (0, bs)
/-- The line that a format expands to from its slot's bytes. -/
def lineExpand (fmt : Nat) (bs : List Byte) : List Byte :=
  let e0 := leNat (bs.take 4)
  let words := fun (f : Nat → Nat) => (List.range 32).flatMap fun i => leBytes 4 (f i)
  match fmt with
  | 0 => bs.take 128
  | 1 => words fun _ => e0
  | 2 => words fun i => if i = 0 then e0 else ((e0 : Int) + sextN (leNat ((bs.drop (3 + i)).take 1)) 8 + 2 ^ 32).toNat
  | 3 => words fun i => if i = 0 then e0 else ((e0 : Int) + sextN (leNat ((bs.drop (2 + 2 * i)).take 2)) 16 + 2 ^ 32).toNat
  | 5 => words fun i => e0 + i * leNat ((bs.drop 4).take 4)
  | _ => List.replicate 128 0

/-- The slot and the side entry of a line. -/
def slotAt (g : LaunchRec) (k : Workgroup) (n : Nat) : Nat := k.image + imgLines g + 128 * n
def sideAt (g : LaunchRec) (k : Workgroup) (n : Nat) : Nat := k.image + imgSide g + 32 * n
/-- Class of a line in 0x030 to 0x037 (R347). -/
def lineClass : LineKind → Nat
  | .vec _ _ _ => 0
  | .uni _ _ => 1
  | .prd _ => 2
  | .cue _ => 5
/-- A line read back from its image: 128 bytes, or the cause of R347 and R200. -/
def loadLine (s : State) (g : Grid) (k : Workgroup) (n : Nat) : Except Cause (List Byte) :=
  let side := sideAt g.lrec k n
  let fmt := homeNat s (side + 16) 1
  let cls := lineClass (lineKind g.lrec n)
  let cap := fun (c : CapState) => (integrityCause 7 c).getD 0x0C7
  if homeCaps s side 32 ≠ .good then .error (cap (homeCaps s side 32))
  else if 7 ≤ fmt then .error (BitVec.ofNat 9 (0x030 + cls))
  else if homeNat s (side + 17) 8 ≠ k.image then .error (BitVec.ofNat 9 (0x038 + cls))
  else
    let raw := lineExpand fmt (homeBytes s (slotAt g.lrec k n) 128)
    let bad := (List.range 8).foldl (fun (b : CapState) j =>
      if b = .good then
        let gr := (raw.drop (16 * j)).take 16
        capState (BitVec.ofNat 16 (homeNat s (side + 2 * j) 2) ^^^ capOf gr (ownDev s * 2 ^ 46 + slotAt g.lrec k n + 16 * j)) gr
      else b) .good
    if bad = .good then .ok raw else .error (cap bad)
/-- Bring a line back from the image (R375), or the cause that this meets. -/
def bringLine (s : State) (g : Grid) (k : Workgroup) (n : Nat) : Except Cause State :=
  match loadLine s g k n with
  | .ok bs => .ok (updWg s k.id fun k => { lineSet g.lrec k bs (lineKind g.lrec n) with missing := k.missing.filter fun m => m != n })
  | .error c => .error c

end Sys2Proof.Machine
end

