-- ==== Sys2Proof/Machine/Ops.lean ====
section
/-! DEFINITION. The named operations: reads and writes at a place for an issuer (08 R204, 09 R211 to R215), versions of tasks (13 R363 to R365), error entries (13 R361), TAKING A CAUSE into a handler or escalating it (13 R355 to R362), and the return from a handler (13 R389, R391). -/

namespace Sys2Proof.Machine

/-! ### Issuers -/

def issuerCore (s : State) (iss : Issuer) : Option Nat := (issuerWg s iss).map (·.core)
/-- The group key of an issuer's K-mode accesses (08 R192, R208, 10 R247). -/
def issuerKey (s : State) (iss : Issuer) : BitVec 16 :=
  match iss with
  | .warp wg w _ => match findWarp s wg w with
    | some x => ksee x
    | none => 0
  | i => match (issuerWg s i).bind (gridOf s) with
    | some g => g.lrec.ckey
    | none => 0
/-- The agent of a lane of an issuer (09 R210). -/
def agentOf (iss : Issuer) (lane : Nat) : Agent :=
  match iss with
  | .warp wg w _ => .thread wg w lane
  | .cue wg => .cue wg
  | .mgmt k => .mgmt k
  | .none => .device

/-- An observer mask names more than the issuer's workgroup (09 R214). -/
def obsBeyondT (obs : BitVec 7) : Bool := obs &&& 0x7E ≠ 0

/-! ### Versions of tasks (13 R363 to R365) -/

/-- The task whose writes are versioned, when the issuer belongs to one. -/
def versionOf (s : State) (iss : Issuer) : Option Workgroup :=
  match issuerWg s iss with
  | some k => if k.taskOn then some k else none
  | none => none
/-- Overlay a task's version lines on bytes of home memory or L1. -/
def versionRead (k : Workgroup) (pa : Nat) (bs : List Byte) : List Byte :=
  (List.range bs.length).map fun i =>
    match k.vlines.find? fun v => v.line == (pa + i) / 128 with
    | some v => if v.mask.getLsbD ((pa + i) % 128) then lineByte v.data ((pa + i) % 128) else bs.getD i 0
    | none => bs.getD i 0
/-- The check of n bytes, which lie in one granule, that a task reads: a granule that it has written whole carries its own cap, any other the one found behind its version. -/
def versionCap (k : Workgroup) (pa : Nat) (c : CapState) : CapState :=
  match k.vlines.find? fun v => v.line == pa / 128 with
  | some v =>
    let j := pa % 128 / 16
    if granMask v.mask j = 0xFFFF then capState (v.synd.extractLsb' (16 * j) 16) ((List.range 16).map fun i => lineByte v.data (16 * j + i)) else c
  | none => c
/-- Carry a cap into a granule that a task has written whole (08 R196). -/
def versionSynd (s : State) (wg pa : Nat) (synd : BitVec 16) : State :=
  updWg s wg fun k => { k with vlines := k.vlines.map fun v =>
    let j := pa % 128 / 16
    if v.line = pa / 128 ∧ granMask v.mask j = 0xFFFF then { v with synd := (v.synd &&& ~~~((0xFFFF : BitVec 128) <<< (16 * j))) ||| (synd.setWidth 128 <<< (16 * j)) } else v }
/-- Make one version line current at home: its bytes, and the caps of the granules written whole. -/
def commitLine (s : State) (v : VLine) : State :=
  let t := homeMerge s v.line v.mask v.data v.key none
  { t with memSynd := (List.range 8).foldl (fun m j => if granMask v.mask j = 0xFFFF then SMap.set m (8 * v.line + j) (v.synd.extractLsb' (16 * j) 16) else m) t.memSynd }
/-- Make a version's lines current as one release naming D, B and A (R364): the core's L1 is flushed first, and its copies of the bytes that the version replaces leave it. -/
def commitLines (s : State) (core : Nat) (vs : List VLine) : State :=
  let t := vs.foldl commitLine (l1Flush s core)
  { t with l1 := (t.l1.map fun l => match vs.find? fun v => l.core == core && v.line == l.line with
      | some v => { l with valid := l.valid &&& ~~~v.mask }
      | none => l).filter fun l => l.valid ≠ 0 }
/-- Commit a task's version (R364): every written byte becomes current at home. -/
def versionCommit (s : State) (wg : Nat) : State :=
  match findWg s wg with
  | none => s
  | some k =>
    let t := commitLines s k.core k.vlines
    updWg t wg fun k => { k with vlines := [], vbytes := 0, taskOn := false, vdone := true }
/-- Discard a task's version (R364). -/
def versionDiscard (s : State) (wg : Nat) : State :=
  updWg s wg fun k => if k.taskOn then { k with vlines := [], vbytes := 0, taskOn := false, vdone := true } else k
/-- The lines of an interval that a task has not yet written. -/
def versionNewLines (k : Workgroup) (pa n : Nat) : List Nat :=
  ((List.range ((pa + n - 1) / 128 + 1 - pa / 128)).map (pa / 128 + ·)).filter fun l => !k.vlines.any fun v => v.line == l
/-- Whether a task's new lines find no version capacity at their home slices (R351 reason 1, R365). -/
def versionFull (s : State) (lines : List Nat) : Bool :=
  lines.any fun l => let x := homeSlice s (128 * l); decide (cCapacity s x < versionsAt s x + (lines.filter fun m => homeSlice s (128 * m) == x).length)
/-- Write bytes into a task's version (within its budget, which R365 checks first), under the writer's key and issuer bits; new lines take the place of C lines at their home slices (13 R363). -/
def versionWrite (s : State) (wg pa : Nat) (bs : List Byte) (key : BitVec 16) (by_ : Nat) : State :=
  let t := updWg s wg fun k =>
    (cutLines pa bs (bs.length / 128 + 2)).foldl (fun k (line, o, b) =>
      let old := k.vlines.find? fun v => v.line == line
      let v := old.getD { line := line, mask := 0, data := 0, synd := 0, key := key, by_ := by_ }
      let m := byteMask o b.length
      let synd := (List.range 8).foldl (fun d j => if granMask m j = 0xFFFF then d &&& ~~~((0xFFFF : BitVec 128) <<< (16 * j)) else d) v.synd
      let v' := { v with mask := v.mask ||| m, data := lineMerge v.data (lineOf b <<< (8 * o)) m, synd := synd, key := key, by_ := by_ }
      { k with vlines := if old.isSome then k.vlines.map (fun x => if x.line = line then v' else x) else v' :: k.vlines,
               vbytes := if old.isSome then k.vbytes else k.vbytes + 128 }) k
  trimSlices t (((cutLines pa bs (bs.length / 128 + 2)).map fun x => homeSlice t (128 * x.1)).eraseDups)
/-- The issuer bits of a class-11 cause (R351). -/
def issuerBits : Issuer → Nat
  | .warp _ _ _ => 0
  | _ => 1
/-- The version budget and handler choice of a workgroup's grid. -/
def versionBudget (s : State) (k : Workgroup) : Nat := match gridOf s k with
  | some g => g.lrec.vbudget
  | none => 0
/-- HMASK bit of a class (10 R248). -/
def hmaskBit (s : State) (k : Workgroup) (cls : Nat) : Bool := match gridOf s k with
  | some g => g.lrec.hmask.getLsbD cls
  | none => false

/-! ### Error entries (13 R361) -/

/-- The parts of a trap record (13 R355). -/
structure TrapRec where
  cause : Cause
  kind : Nat
  token : Nat := 6
  task : Word := 0xFFFFFFFF
  fpc : Nat
  rpc : Nat
  addr : BitVec 64 := 0
  lanes : BitVec 128 := 0
  opwords : BitVec 64 := 0
  stamp : Nat := 0
  deriving DecidableEq, Repr

/-- The 64 bytes of a trap record. -/
def recBytes (r : TrapRec) : List Byte :=
  leBytes 2 r.cause.toNat ++ leBytes 1 r.kind ++ leBytes 1 r.token ++ leBytes 4 r.task.toNat ++ leBytes 8 r.fpc ++ leBytes 8 r.rpc
    ++ leBytes 8 r.addr.toNat ++ leBytes 16 r.lanes.toNat ++ leBytes 8 r.opwords.toNat ++ leBytes 8 r.stamp

/-- Slots of the error queue; 0 while ERRBASE is not valid. -/
def errSlots (s : State) : Nat := let n := mreg s Reg.ERRBASE % 256; if 4 ≤ n ∧ n ≤ 16 then 2 ^ n else 0
/-- Write one entry at the next slot and wake management core 0. -/
def errWrite (s : State) (bs : List Byte) : State :=
  let w := mreg s Reg.ERRWIDX
  let t := homeWrite s (mreg s Reg.ERRBASE / 256 % 2 ^ 44 * 256 % 2 ^ 46 + 128 * (w % errSlots s)) bs 0 none
  wakeOr (setMreg t Reg.ERRWIDX (w + 1)) 256 1
def errFree (s : State) : Bool := decide ((mreg s Reg.ERRWIDX + 2 ^ 64 - mreg s Reg.ERRRIDX) % 2 ^ 64 < errSlots s)
/-- The 128 bytes of an entry. -/
def errBytes (r : TrapRec) (image grid core ctx : Nat) (ncause : Cause) : List Byte :=
  recBytes r ++ leBytes 8 image ++ leBytes 8 grid ++ leBytes 2 core ++ leBytes 1 ctx ++ [0] ++ leBytes 2 ncause.toNat ++ List.replicate 42 0
/-- The report of dropped entries (0x1FE), when a slot is free. -/
def errReport (s : State) : State :=
  if s.errDropped ≠ 0 && errFree s then
    { errWrite s (errBytes { cause := 0x1FE, kind := 2, fpc := 0, rpc := 0, addr := BitVec.ofNat 64 s.errDropped } 0 0 0 0 0) with errDropped := 0 }
  else s
/-- Post an entry, the report of dropped ones first; without a free slot it is counted as dropped. -/
def postEntry (s : State) (bs : List Byte) : State :=
  let t := errReport s
  if errFree t then errWrite t bs else { t with errDropped := t.errDropped + 1 }
/-- `%task` of a workgroup (13 R363). -/
def taskOf (s : State) (k : Workgroup) : Word :=
  match gridOf s k with
  | some g => if g.lrec.versioned then BitVec.ofNat 32 k.lin else 0xFFFFFFFF
  | none => 0xFFFFFFFF
/-- Post a record to the management core (13 R356, R361), with the workgroup it concerns. -/
def postRec (s : State) (r : TrapRec) (wg : Option Nat) : State :=
  match wg.bind (findWg s) with
  | some k => postEntry s (errBytes { r with task := taskOf s k } k.image k.grid k.core k.ctx 0)
  | none => postEntry s (errBytes r 0 0 0 0 0)
/-- Post an asynchronous cause with no more than an address. -/
def postAsync (s : State) (cause : Cause) (addr : BitVec 64) (wg : Option Nat) : State := postRec s { cause := cause, kind := 2, fpc := 0, rpc := 0, addr := addr } wg

/-! ### Temperature (15 R428) -/

/-- Threshold i of TLIM: 0 TWARN, 1 THOT, 2 TCRIT, 3 TSHUT. -/
def tlim (s : State) (i : Nat) : Int := sextN (mreg s Reg.TLIM / 2 ^ (16 * i)) 16
/-- The class of a temperature. -/
def headClass (s : State) (t : Int) : Nat := if tlim s 2 ≤ t then 0 else if tlim s 1 ≤ t then 1 else if tlim s 0 ≤ t then 2 else 3
/-- The class after a reading: it falls at once and rises 32 units below the threshold. -/
def nextClass (s : State) (old : Nat) (t : Int) : Nat := if headClass s t ≤ old then headClass s t else max old (headClass s (t + 31))
/-- A workgroup is asked to pre-empt for heat (10 R259): a `cmig` that stands keeps naming its preferred core, and a `ctxsv` is served by the same taking. -/
def takeHot (clk : Nat) (k : Workgroup) : Workgroup :=
  match k.take with
  | none => { k with take := some .thermal, takeAt := clk, takeLate := false }
  | some .dispatch => { k with take := some .thermal }
  | some .migrate => { k with take := some .thermal }
  | _ => k
/-- Ask every workgroup of a pair to pre-empt (10 R259). -/
def takePair (s : State) (pair : Nat) : State := { s with wgs := s.wgs.map fun k => if k.core / 2 = pair ∧ k.st = .resident then takeHot s.clk k else k }
/-- A column's reading. -/
def colRead (s : State) (c : Nat) (v : BitVec 16) : State :=
  if 1024 ≤ c then s
  else
    let off := Reg.COLSTAT + 8 * c
    let old := mreg s off / 65536 % 4
    let k := nextClass s old v.toInt
    let t := setMreg s off (v.toNat + 65536 * k)
    if k = 0 ∧ old ≠ 0 then takePair (postAsync t 0x1F8 (BitVec.ofNat 64 c) none) c else t
/-- The classes of the enabled columns against TLIM as it stands: a class falls as soon as its threshold is reached (log 85). -/
def reclass (s : State) : State :=
  (List.range 1024).foldl (fun t c => if t.part.pairen.getLsbD c then colRead t c (BitVec.ofNat 16 (mreg t (Reg.COLSTAT + 8 * c))) else t) s
/-! ### Disabling a host queue (15 R424) -/

/-- QCTL bits: 0 ENABLE, 1 ERROR, 2 HELD. -/
def qEnabled (s : State) (q : Nat) : Bool := (qCtl s q).testBit 0
/-- ENABLE of a served queue is clear. -/
def disableDue (s : State) (q : Nat) : Bool := !qEnabled s q && (findQueue s q).any (·.on)
/-- Disabling: outstanding entries are discarded, RIDX takes WIDX, and accepted work goes on. -/
def disableQueue (s : State) (q : Nat) : State :=
  match findQueue s q with
  | none => s
  | some x =>
    let t := if qRidx s q = qWidx s q then s else postAsync s (if x.kind = 0 then 0x1D3 else 0x1DB) (BitVec.ofNat 64 q) none
    updQueue (setQreg t q 2 (qWidx t q)) q fun x => { x with on := false }

/-- A write of the register map, with what a new TLIM does at once, and what clearing ENABLE of a queue does. -/
def mapWrite (s : State) (off n v : Nat) : State :=
  let t := regWrite s off n v
  if off / 8 * 8 = Reg.TLIM then reclass t
  else
    let q := (off - Reg.QUEUE) / 16
    if Reg.QUEUE ≤ off ∧ off < 0x4000 ∧ disableDue t q = true then disableQueue t q else t

/-! ### Reads and writes at a place -/

/-- The check of the granules that a peer's read came from: those with a syndrome fail, as a mismatch or, freely, as poison, since the rest of their bytes is not seen (log 11). -/
def peerCaps (fresh : Nat) (caps : List (BitVec 16)) : CapState := if caps.all (· == 0) then .good else if Config.coin fresh then .poison else .mismatch
/-- n bytes at a place behind L1, which lie in one line: at home, in host memory, as a peer returns them, in a local store, a CTRAP slot or the register map. -/
def behindRead (s : State) (loc : Loc) (n : Nat) (key : BitVec 16) : List Byte × CapState × State :=
  match loc with
  | .mem pa => (homeBytes s pa n, homeCaps s pa n, combRead s pa n key)
  | .host a => (SMap.getList (w := 8) s.hostMem a n, .good, s)
  | .peer pa => (match peerRead s pa n with
    | (some (bs, caps), t) => (bs, peerCaps t.fresh caps, t)
    | (none, t) => (List.replicate n 0, .refused, t))
  | .ls a => (lsBytes s a n, lsCaps s a n, s)
  | .ctrap pa => (homeBytes s pa n, homeCaps s pa n, s)
  | .mreg off => (leBytes n (regRead s off n), .good, s)
/-- Read global memory: through the core's L1, or behind it (`home`, or an SC page) with the core's own dirty bytes in front (09 R179, R215). -/
def cachedRead (s : State) (iss : Issuer) (loc : Loc) (a : Nat) (t : Trans) (n : Nat) (home : Bool) : List Byte × CapState × State :=
  match issuerCore s iss with
  | none => behindRead s loc n (issuerKey s iss)
  | some core =>
    if t.sc then behindRead s loc n (issuerKey s iss)
    else if home then
      let (bs, c, u) := behindRead s loc n (issuerKey s iss)
      (l1Overlay s core a bs, c, u)
    else l1Read s core a n t.imm (issuerKey s iss)
/-- Read n bytes at a place. -/
def loadAt (s : State) (iss : Issuer) (loc : Loc) (t : Trans) (n : Nat) (home : Bool) : List Byte × CapState × State :=
  match loc with
  | .mem pa =>
    let (bs, c, u) := cachedRead s iss (.mem pa) pa t n home
    match versionOf s iss with
    | some k => (versionRead k pa bs, versionCap k pa c, u)
    | none => (bs, c, u)
  | .host a => cachedRead s iss (.host a) (2 ^ 45 + a) t n home
  | .peer pa => cachedRead s iss (.peer pa) (2 ^ 52 + pa) t n home
  | l => behindRead s l n 0

/-- One lane of an issuer. -/
def laneIss (iss : Issuer) (lane : Nat) : Issuer :=
  match iss with
  | .warp wg w _ => .warp wg w [lane]
  | i => i
/-- The stream of an issuer, as one lane of it asks a peer, with the PC and the address of its instruction. -/
def askerOf (s : State) (iss : Issuer) (lane : Nat) (at_ : VAddr × BitVec 64 := (0, 0)) : Asker :=
  { who := laneIss iss lane, core := issuerCore s iss, pc := at_.1, addr := at_.2 }
/-- Write bytes behind L1 as a lane of an issuer, under a key. -/
def behindWrite (s : State) (iss : Issuer) (lane : Nat) (loc : Loc) (bs : List Byte) (key : BitVec 16) (at_ : VAddr × BitVec 64 := (0, 0)) : State :=
  match loc with
  | .mem pa => homeWrite s pa bs key (some (agentOf iss lane))
  | .host a => { s with hostMem := SMap.setList (w := 8) s.hostMem a bs }
  | .peer pa => peerWrite s (askerOf s iss lane at_) pa bs []
  | _ => s
/-- A write that a core's L1 takes; the peer whose memory it is may refuse it later. -/
def cachedWrite (s : State) (iss : Issuer) (lane core a : Nat) (bs : List Byte) (key : BitVec 16) (imm : Bool) (at_ : VAddr × BitVec 64) : State :=
  let t := l1Write s core a bs key imm
  if 2 ^ 52 ≤ a then l1Sign t core a bs.length (laneIss iss lane) at_.1 at_.2 else t
/-- A write to global memory outside any version: through L1, or behind it for a strong access beyond T, an SC page or an issuer without an L1. The granules it reaches leave the core's L1 first, their dirty bytes written back (09 R213). -/
def plainStore (s : State) (iss : Issuer) (key : BitVec 16) (lane : Nat) (loc : Loc) (t : Trans) (bs : List Byte) (home : Bool) (at_ : VAddr × BitVec 64 := (0, 0)) : State :=
  match issuerCore s iss, l1Addr loc with
  | some core, some a =>
    if home || t.sc then behindWrite (l1DropGranule s core a bs.length) iss lane loc bs key at_
    else cachedWrite s iss lane core a bs key t.imm at_
  | _, _ => behindWrite s iss lane loc bs key at_

/-- Write bytes at a place. A versioned task's write goes to its version; past the budget with HMASK bit 11 = 0 the version is committed and the task goes on unversioned (13 R365). -/
def storeAt (s : State) (iss : Issuer) (lane : Nat) (loc : Loc) (t : Trans) (bs : List Byte) (home : Bool) (at_ : VAddr × BitVec 64 := (0, 0)) : State :=
  match loc with
  | .mem pa =>
    match versionOf s iss with
    | some k =>
      let new := versionNewLines k pa bs.length
      if k.vbytes + 128 * new.length ≤ versionBudget s k && !versionFull s new then versionWrite s k.id pa bs (issuerKey s iss) (issuerBits iss)
      else plainStore (updWg (versionCommit s k.id) k.id fun k => { k with nonRestart := true }) iss (issuerKey s iss) lane (.mem pa) t bs home
    | none => plainStore s iss (issuerKey s iss) lane (.mem pa) t bs home
  | .ls a => lsWrite s a bs
  | .host a => plainStore s iss (issuerKey s iss) lane (.host a) t bs home
  | .peer pa => plainStore s iss (issuerKey s iss) lane (.peer pa) t bs home at_
  | .ctrap pa => behindWrite s iss lane (.mem pa) bs 0
  | .mreg off => mapWrite s off bs.length (leNat bs)

/-- A core's L1 holds dirty bytes of a peer's memory. -/
def peerDirty (s : State) (core : Nat) : Bool := s.l1.any fun l => l.core == core && decide (2 ^ 45 ≤ l.line) && l.dirty != 0
/-- Steps 1 to 3 of a release (09 R214): beyond T, every dirty byte of the core's L1 goes home. -/
def release (s : State) (iss : Issuer) (obs : BitVec 7) : State :=
  match issuerCore s iss with
  | some c => if obsBeyondT obs then l1Flush s c else s
  | none => s
/-- The self-invalidation of an acquire (09 R215). -/
def acquire (s : State) (iss : Issuer) (obs : BitVec 7) : State :=
  match issuerCore s iss with
  | some c => if obsBeyondT obs then l1Inv s c else s
  | none => s

/-! ### The head of the workgroup record (13 R378) -/

/-- STATE of the workgroup record. -/
def wgStateNum : WgState → Nat
  | .resident => 0
  | .taken => 1
  | .halted => 2
  | .ended => 3
/-- Offsets 0x000 to 0x017: GRID, LREC (the grid's copy of its launch record, log 31), WGLIN, STATE, FLAGS and CORE. -/
def wgHead (g : Grid) (k : Workgroup) : List Byte :=
  leBytes 8 g.num ++ leBytes 8 (g.run + 0x1000) ++ leBytes 4 k.lin ++ leBytes 1 (wgStateNum k.st)
    ++ leBytes 1 (bitsOf (fun i => [g.lrec.versioned, k.nonRestart, k.cmig.isSome, k.cue.inHandler].getD i false) 4) ++ leBytes 2 k.core
/-- The device writes the head when a workgroup is placed, halted, resumed or ended (R364, R378; log 99). -/
def noteWg (s : State) (wg : Nat) : State :=
  match findWg s wg with
  | none => s
  | some k => match gridOf s k with
    | some g => if k.image + 0x18 ≤ hbmCap s then homeWrite s k.image (wgHead g k) 0 none else s
    | none => s

/-! ### Taking a cause (13 R359 to R362) -/

/-- The class of a cause (13 R345). -/
def causeClass (c : Cause) : Nat := c.toNat / 32
/-- Escalate a cause (R361): the workgroup halts, a version is discarded and the record's FLAGS stand at IMAGE (R364), the entry is posted. -/
def escalate (s : State) (wg : Nat) (r : TrapRec) (ncause : Cause) : State :=
  match findWg s wg with
  | none => s
  | some k =>
    let t := noteWg (updWg (versionDiscard s wg) wg fun k => { k with st := .halted }) wg
    let t := match (gridOf s k).bind (·.queue) with
      | some q => updQueue t q fun x => { x with faulted := true }
      | none => t
    postEntry t (errBytes r k.image k.grid k.core k.ctx ncause)

/-- A cap failure of a table read is posted beside the reason-4 cause that its walk raises (08 R200, 14 R398). -/
def postWalkAt (s : State) (iss : Issuer) (root : Nat) (cause : Cause) (va : BitVec 64) : State :=
  if cause.toNat / 4 ≠ 0x24 then s
  else match walk s root va.toNat with
    | .error f => (match integrityCause 12 f.cap with
      | some x => postAsync s x va ((issuerWg s iss).map (·.id))
      | none => s)
    | .ok _ => s
/-- The same in the issuer's own space. -/
def postWalk (s : State) (iss : Issuer) (cause : Cause) (va : BitVec 64) : State := postWalkAt s iss (spaceOf s iss).2 cause va

/-- What a read that the device makes of its own accord posts when a table of its walk fails its check: 0x0CC or 0x0DC (08 R200, 14 R398). -/
def walkNote (s : State) (core : Option Nat) (asid : BitVec 16) (root a : Nat) : Option Cause :=
  if windowOf a ≠ 0 ∨ 2 ^ 57 ≤ a then none
  else match translate s core asid root a with
    | .error f => integrityCause 12 f.cap
    | .ok _ => none
/-- The place of one 16-byte private access of a trap record (R359 step 2, R389). On a page in transition a weak private store stands in L1 until the page leaves it. -/
def recordPlace (s : State) (iss : Issuer) (warp lane a : Nat) (w : Bool) : Acc :=
  match place s iss .priv warp lane a 16 w, (issuerWg s iss).bind fun k => (gridOf s k).map fun g => (privBase g.lrec k warp lane + a) % 2 ^ 57 with
  | .wait, some va => (match translate s (issuerCore s iss) (spaceOf s iss).1 (spaceOf s iss).2 va with
    | .ok t => if w then .ok (.mem (t.pa % 2 ^ 46)) t else .wait
    | .error _ => .wait)
  | x, _ => x
/-- The first cause that the four accesses of a record meet, as `st.p` or `ld.p` meets it: the version budget, the place, a range lock. -/
def recordFault (s : State) (iss : Issuer) (warp lane sp : Nat) (w : Bool) : Option Cause :=
  let ps := [0, 16, 32, 48].map fun o => recordPlace s iss warp lane ((sp + o) % 2 ^ 32) w
  let new := match versionOf s iss with
    | some k => if w && hmaskBit s k 11 then ((ps.flatMap fun x => match x with
        | .ok (.mem pa) _ => versionNewLines k pa 16
        | _ => []).eraseDups) else []
    | none => []
  let full := match versionOf s iss with
    | some k => if new ≠ [] ∧ versionBudget s k < k.vbytes + 128 * new.length then some (0x160 : Cause) else if versionFull s new then some 0x164 else none
    | none => none
  let bad := ps.findSome? fun x => match x with
    | .fault c => some c
    | _ => none
  let lock := ps.findSome? fun x => match x with
    | .ok loc _ => lockHit s iss .priv loc 16 w false
    | _ => none
  full.or (bad.or lock)

/-- One thread takes a cause: its handler (R359), or escalation. -/
def takeThread (s : State) (wg wi : Nat) (r : TrapRec) (lane : Nat) : State :=
  match findWg s wg, findThread s wg wi lane with
  | some k, some th =>
    let nested := if th.inHandler then 16 else 0
    if k.st = .halted then s
    else if th.inHandler || !hmaskBit s k (causeClass r.cause) then escalate s wg { r with kind := r.kind + nested } 0
    else
      let iss := Issuer.warp wg wi [lane]
      let sp := (th.sp.toNat + 2 ^ 32 - 64) % 2 ^ 32
      match recordFault s iss wi lane sp true with
      | some c =>
        let va := match gridOf s k with
          | some g => (privBase g.lrec k wi lane + sp) % 2 ^ 57
          | none => 0
        escalate (postWalk s iss c (BitVec.ofNat 64 va)) wg { r with kind := r.kind + 16 } c
      | none =>
        let bs := recBytes r
        let t := [0, 16, 32, 48].foldl (fun t o =>
          match recordPlace t iss wi lane ((sp + o) % 2 ^ 32) true with
          | .ok loc tr => storeAt t iss lane loc tr ((bs.drop o).take 16) false
          | _ => t) s
        let pc := match gridOf s k with
          | some g => BitVec.ofNat 57 g.lrec.whandler
          | none => 0
        updThread t wg wi lane fun th =>
          { th with sp := BitVec.ofNat 32 sp, inHandler := true, saved := th.clause, clause := none, pc := pc, park := none }
  | _, _ => s

/-- TAKING A CAUSE on a warp (R359): every thread named enters its handler with its own record, or the cause escalates. -/
def takeWarp (s : State) (wg wi : Nat) (lanes : List Nat) (r : TrapRec) : State :=
  let r := match findWg s wg with
    | some k => { r with task := taskOf s k }
    | none => r
  lanes.foldl (fun t l => takeThread t wg wi r l) s

/-- The line of c63 comes back before a record saves it (R360, R375); a failure keeps the record from being stored (DESIGN CHOICE: log 101). -/
def cueLine3 (s : State) (wg : Nat) : State × Cause :=
  match findWg s wg with
  | none => (s, 0)
  | some k => match gridOf s k with
    | none => (s, 0)
    | some g =>
      if k.st = .halted || !k.missing.contains (cueLine g.lrec 63) then (s, 0)
      else match bringLine s g k (cueLine g.lrec 63) with
        | .ok t => (t, 0)
        | .error c => (s, c)
/-- TAKING A CAUSE on a cue thread (R360) or a management core (R362). -/
def takeCue (s : State) (iss : Issuer) (r : TrapRec) : State :=
  match iss with
  | .cue wg =>
    let (s, lost) := cueLine3 s wg
    match findWg s wg with
    | none => s
    | some k =>
      let r := { r with kind := r.kind + 4, task := taskOf s k, lanes := (cget k.cue 63).setWidth 128 }
      if k.st = .halted then s
      else if lost ≠ 0 then escalate s wg { r with kind := r.kind + 16 } lost
      else if k.cue.inHandler || !hmaskBit s k (causeClass r.cause) then
        escalate s wg { r with kind := r.kind + (if k.cue.inHandler then 16 else 0) } 0
      else
        let pc := match gridOf s k with
          | some g => BitVec.ofNat 57 g.lrec.chandler
          | none => 0
        updWg (homeWrite s (k.image + 0x80) (recBytes r) 0 none) wg fun k => { k with cue := { (cset k.cue 63 0x1FFFFFD00002000) with inHandler := true, saved := k.cue.clause, clause := none, pc := pc, park := none } }
  | .mgmt m =>
    match s.mgmt[m]? with
    | none => s
    | some x =>
      if x.inTrap then postAsync { s with mgmt := s.mgmt.modify m fun x => { x with stopped := true } } 0x1F5 r.addr none
      else { s with mgmt := s.mgmt.modify m fun x =>
        { x with mepc := BitVec.ofNat 64 r.rpc, mcause := r.cause.setWidth 64, maddr := r.addr, inTrap := true,
                 cue := { x.cue with pc := x.mtvec.setWidth 57, saved := x.cue.clause, clause := none, park := none } } }
  | _ => s

/-! ### The return from a handler (13 R389, R391) -/

/-- Where a thread continues at an address: in the clause it was stopped in, when the address lies there, else at a header (log 17). -/
def resumeClause (saved : Option Clause) (pc : Nat) : Option Clause :=
  match saved with
  | none => none
  | some c =>
    let lo := c.hdr.toNat + 4
    let hi := lo + 4 * c.len
    if lo ≤ pc ∧ pc < hi ∧ pc % 4 = 0 then some { c with left := (hi - pc) / 4, first := decide (pc = lo) } else none

/-- A record read back is valid: no reserved bits in CAUSE or KIND (0x069). -/
def recordOk (bs : List Byte) : Bool := decide (leNat (bs.take 2) < 512) && decide ((bs.getD 2 0).toNat < 32)

/-- The first cause that a load of a thread's record meets. -/
def recordFaultOf (s : State) (wg wi lane : Nat) : Option Cause := (findThread s wg wi lane).bind fun th => recordFault s (.warp wg wi [lane]) wi lane th.sp.toNat false
/-- A load of the record waits for a page in transition, as `ld.p` does (R389, 14 R405). -/
def recordWaits (s : State) (wg wi lane : Nat) : Bool :=
  (findThread s wg wi lane).any fun th => [0, 16, 32, 48].any fun o => match recordPlace s (.warp wg wi [lane]) wi lane ((th.sp.toNat + o) % 2 ^ 32) false with
    | .wait => true
    | _ => false
/-- `resume.h` of one thread (R389 MOD 1): the record's bytes, read as `ld.p`, or none when it cannot be read or is invalid. -/
def readRecord (s : State) (wg wi lane : Nat) : Option (List Byte) × State :=
  match findThread s wg wi lane with
  | none => (none, s)
  | some th =>
    let iss := Issuer.warp wg wi [lane]
    if (recordFaultOf s wg wi lane).isSome then (none, s)
    else
      let (bs, ok, t) := [0, 16, 32, 48].foldl (fun (acc : List Byte × Bool × State) o =>
        let (bs, ok, t) := acc
        match recordPlace t iss wi lane ((th.sp.toNat + o) % 2 ^ 32) false with
        | .ok loc tr => let (b, c, u) := loadAt t iss loc tr 16 false; (bs ++ b, ok && c == .good, u)
        | _ => (bs, false, t)) (([] : List Byte), true, s)
      (if ok && recordOk bs then some bs else none, t)

/-- Leave a warp handler for the record's RPC. -/
def leaveHandler (th : Thread) (bs : List Byte) : Thread :=
  let rpc := leNat ((bs.drop 16).take 8)
  let cl := resumeClause th.saved rpc
  { th with sp := th.sp + 64, inHandler := false, pc := BitVec.ofNat 57 rpc, clause := cl, saved := none, moved := false }

end Sys2Proof.Machine
end

