-- ==== Sys2Proof/Machine/Operands.lean ====
section
/-! DEFINITION. Every operand form of the warp instructions: the constant table (02 R53), the selectors of the lane crossbar (02 R50, R51, 06 R135), guards, and the address terms of 08 R177 and 09 R232; and the context in which a group issues. -/

namespace Sys2Proof.Machine

/-- The issuing group of a warp (06 R132) with what it stands in. `cs` are the contributors, ascending; `clk` is the clk of its first pass, and `gap` the clks from one of its passes to the next. -/
structure WCtx where
  g : Grid
  k : Workgroup
  w : Warp
  wg : Nat
  wi : Nat
  lanes : List Nat
  cs : List Nat
  W : Nat
  pc : VAddr
  clk : Nat
  gap : Nat
  deriving DecidableEq, Repr

/-- The constant table of R53. -/
def constTable (n : Nat) : Word :=
  if n < 32 then BitVec.ofNat 32 n
  else if n < 40 then BitVec.ofInt 32 (31 - (n : Int))
  else [0x3F800000#32, 0x40000000#32, 0x3F000000#32, 0xBF800000#32, 0x7F800000#32, 0xFF800000#32, 0x7F7FFFFF#32, 0x7FC00000#32,
        0x80000000#32, 0x7FFFFFFF#32, 0x0000FFFF#32, 0xFFFF0000#32, 0x00FF00FF#32, 0x0F0F0F0F#32, 0x55555555#32, 0x33333333#32,
        0x3E800000#32, 0x40800000#32, 0x3FB8AA3B#32, 0x3F317218#32, 0x40490FDB#32, 0x3E22F983#32, 0x3F3504F3#32, 0x3C003C00#32].getD (n - 40) 0

/-- A constant as an operand of n registers: a pair is extended as R53 states; in a group each member is its own entry, the first named entry plus its place, and 0 past entry 63 (DESIGN CHOICE: log 18). -/
def constN (f n : Nat) : Nat :=
  if n = 1 then (constTable f).toNat
  else if n = 2 then (if f < 40 then ((constTable f).signExtend 64).toNat else (constTable f).toNat)
  else (List.range n).foldl (fun acc j => acc + (constTable (f + j)).toNat * 2 ^ (32 * j)) 0

/-- Whether a lane's registers read as zero (06 R133): beyond the warp, without a thread, or in a returned slice. -/
def laneDead (w : Warp) (lane : Nat) : Bool :=
  (match w.threads[lane]? with
    | some t => t.life == .absent
    | none => true) || w.returned.contains (lane / 32)
/-- n registers of a lane as another lane sees them (R133, R134). -/
def laneRead (w : Warp) (r lane n : Nat) : Nat := if laneDead w lane then 0 else vseeN w r lane n

/-- PARAM of R51: the immediate, or the low 7 bits of a uniform register. -/
def paramOf (w : Warp) (f : VF) : Nat := if f.ps = 1 then (ssee w (f.param.toNat % 64)).toNat % 128 else f.param.toNat

/-- The source lane of a selector (06 R135); `none` reads zero (PAT with ZF). -/
def crossLane (w : Warp) (sel param i : Nat) : Option Nat :=
  let b := i / 32 * 32
  let j := i % 32
  match sel with
  | 1 => some (b + (j + param % 32) % 32)
  | 2 => some param
  | 3 => some (b + (j ^^^ (param % 32)))
  | 4 => let m := if param % 8 < 6 then param % 8 else 5; some (b + (j ^^^ (2 ^ m - 1)))
  | 5 =>
    let e := ((psee w (param % 4)).getD j 0).toNat
    if e ≥ 128 then none else some (b + e % 32)
  | _ => some i

/-- The segment size of a seg field (06 R137). -/
def segSize (W : Nat) (f : VF) : Nat := if f.c.toNat % 8 = 0 then W else 2 ^ (f.c.toNat % 8)
/-- The source lane of `lsel` (06 R139). -/
def lselSrc (mode S lane n : Nat) : Nat :=
  let sb := lane / S * S
  let sj := lane % S
  match mode with
  | 0 => sb + n % S
  | 1 =>
    let d := sextN n 32
    if 0 ≤ (sj : Int) + d ∧ (sj : Int) + d < S then ((lane : Int) + d).toNat else lane
  | 2 => sb + (sj + n) % S
  | _ => sb + (sj ^^^ (n % S))

/-- The value of an operand of n registers in a lane, through its selector (R50). -/
def operand (w : Warp) (f : VF) (x : BitVec 7) (sel : BitVec 3) (n lane : Nat) : Nat :=
  if sel = 6 then (if x.toNat < 64 then sseeN w x.toNat n else constN (x.toNat - 64) n)
  else match crossLane w sel.toNat (paramOf w f) lane with
    | some l => laneRead w x.toNat l n
    | none => 0

/-- A source of a V-layout instruction in a lane; unused and raw fields read as zero. -/
def srcVal (w : Warp) (f : VF) (s : Src) (x : BitVec 7) (sel : BitVec 3) (lane : Nat) : Nat :=
  match s with
  | .vec n => operand w f x sel n lane
  | .fix n => vgetN w x.toNat lane n
  | _ => 0

/-- Guard predicate and negation of a warp instruction (R33, R35). -/
def guardOf (i : Instr) : Nat × Bool :=
  match vSpec 32 (fun _ => 0) i, mSpec i, aSpec i, iSpec i, tSpec i with
  | some (f, _), _, _, _, _ => (f.pg.toNat, f.pn = 1)
  | _, some (f, _), _, _, _ => (f.pg.toNat, false)
  | _, _, some (f, _, _), _, _ => (f.pg.toNat, false)
  | _, _, _, some (f, _, _), _ => (f.pg.toNat, false)
  | _, _, _, _, some f => (f.pg.toNat, false)
  | _, _, _, _, _ => (7, false)

/-- The clks for which a pass of a special-function instruction holds the stage of its port (04 R102); 0 for any other. -/
def stageClks (i : Instr) : Nat :=
  match i with
  | .frcp _ => 4
  | .frsqrt _ => 4
  | .fexp2 _ => 4
  | .flog2 _ => 4
  | .fsin _ => 4
  | .fcos _ => 4
  | .ftanh _ => 4
  | .fsigm _ => 4
  | .fdiv _ => 8
  | .fsqrt _ => 8
  | _ => 0
/-- The clks from one pass of an instruction to its next (03 R71, 04 R102). -/
def passGap (i : Instr) : Nat := max 4 (stageClks i)

/-- A lane's guard passes. -/
def guardPass (w : Warp) (i : Instr) (lane : Nat) : Bool := let (p, n) := guardOf i; pget w p lane != n

/-- The context of the issuing group named by `State.cur`; the lanes, ascending, that are live. -/
def warpCtx (s : State) (i : Instr) : Option WCtx :=
  match s.cur with
  | .warp wg wi lanes =>
    match findWg s wg with
    | none => none
    | some k =>
      match gridOf s k, k.warps[wi]? with
      | some g, some w =>
        let live := (Warp_live w).filter fun l => lanes.contains l
        some { g := g, k := k, w := w, wg := wg, wi := wi, lanes := live, cs := live.filter (guardPass w i), W := LaunchRec_wwidth g.lrec,
               pc := ((live.head?.bind fun l => w.threads[l]?).map (·.pc)).getD 0, clk := s.clk, gap := passGap i }
      | _, _ => none
  | _ => none

/-- The slices of some lanes, ascending. -/
def slicesOf (lanes : List Nat) : List Nat := (lanes.map (· / 32)).eraseDups
/-- The warp as a lane's own pass reads it (03 R71, R72): a later pass reads the registers as they stand in its own clk. -/
def passW (c : WCtx) (lane : Nat) : Warp :=
  let j := (slicesOf c.lanes).findIdx (· == lane / 32)
  if j = 0 then c.w else { c.w with view := viewOf (c.clk + c.gap * j) c.lanes c.w }

/-- A selector of the instruction draws from another lane. -/
def draws (f : VF) : Bool := [f.pa, f.pb, f.pc].any fun x => decide (1 ≤ x.toNat ∧ x.toNat ≤ 5)
/-- The warp as a lane's sources of a V-layout instruction are read: where a selector draws from another lane, all are read in the first pass's clk (06 R134). -/
def laneW (c : WCtx) (f : VF) (lane : Nat) : Warp := if draws f then c.w else passW c lane

/-- The lanes of a list as a mask. -/
def laneMask (l : List Nat) : BitVec 128 := maskOf l 128

/-- The sign-extended byte offset of an M word. -/
def ofsInt (o : BitVec 12) : Int := o.toInt

/-- The address of an M-layout access in a lane (08 R177, 09 R232): 64 bits for `base` and `pair`, 32 bits for `off`. -/
def mAddr (w : Warp) (f : MF) (m : MA) (sp : Bool) (lane : Nat) : Nat :=
  let v32 := if f.a = 0 then 0 else (vget w f.a.toNat lane).toNat
  let v64 := if f.a = 0 then 0 else vgetN w f.a.toNat lane 2
  let u := if f.ub = 0 then 0 else (ssee w f.ub).toNat
  let o := ofsInt f.ofs
  match m with
  | .base =>
    if f.ax then (((v64 : Int) + o) % (2 ^ 64 : Nat)).toNat
    else (((if f.sb = 0 then 0 else sseeN w (2 * f.sb) 2 : Nat) + (v32 : Int) + o) % (2 ^ 64 : Nat)).toNat
  | .off =>
    let base := if sp then (match w.threads[lane]? with
      | some t => t.sp.toNat
      | none => 0) else 0
    (((base : Int) + v32 + u + o) % (2 ^ 32 : Nat)).toNat
  | .pair => (((v64 : Int) + u + o) % (2 ^ 64 : Nat)).toNat
  | .none => 0

end Sys2Proof.Machine
end

