-- ==== Sys2Proof/Machine/Issue.lean ====
section
/-! DEFINITION. How a warp instruction issues (02 R54 to R58, 13 R346): deferred causes that fall due, the cut distance, encoding, register, schedule and convergence causes, the instruction's own causes, then the count, the PC and the effect. -/

namespace Sys2Proof.Machine

/-- A cause an instruction meets: the cause, the failing address, and the lanes that met it. -/
structure OwnC where
  cause : Cause
  addr : BitVec 64
  lanes : List Nat
  deriving DecidableEq, Repr

/-- A cause met by all contributors, with no address. -/
def WCtx_all (c : WCtx) (cause : Cause) : Option OwnC := some ⟨cause, 0, c.cs⟩

/-- The first cause of a list. -/
def firstC (l : List (Option OwnC)) : Option OwnC := l.findSome? id

/-- The words of an instruction (02 R25). -/
def instrLen (l : Bool) : Nat := if l then 2 else 1

/-- L of a warp instruction. -/
def warpL (i : Instr) : Bool :=
  match vSpec 32 (fun _ => 0) i, mSpec i, aSpec i, iSpec i, tSpec i with
  | some (f, _), _, _, _, _ => f.l
  | _, some (f, _), _, _, _ => f.l
  | _, _, some (f, _, _), _, _ => f.l
  | _, _, _, some (f, _, _), _ => f.l
  | _, _, _, _, some f => f.l
  | _, _, _, _, _ => false

/-- Slot words of a context's grid. -/
def WCtx_slot (c : WCtx) (n : Nat) : Word := LaunchRec_slot c.g.lrec n
/-- The registers the instruction names in this context. -/
def WCtx_use (c : WCtx) (i : Instr) : Use := warpUse c.W (WCtx_slot c) i
/-- The words of the clause that a thread's instruction stands in. -/
def WCtx_clause (c : WCtx) : Option Clause := (c.lanes.head?.bind fun l => c.w.threads[l]?).bind (·.clause)

/-- The class-0 cause of an instruction where it stands (R32, R28, R31): class against ENG, truncation, then its own reasons. -/
def encCause (c : WCtx) (i : Instr) : Option Cause :=
  if isIllegal i then some 0 else
  let (eng, left) := match WCtx_clause c with
    | some cl => (cl.eng.toNat, cl.left)
    | none => (3, 15)
  let at_ := firstReason [(!warpEngOk eng i, 4), (warpL i && decide (left < 2), 5)]
  (match at_ with
    | some n => some n
    | none => warpEnc c.W i).map (BitVec.ofNat 9)

/-- The selector parameter of a V-layout instruction. -/
def selParam (c : WCtx) (i : Instr) : Nat :=
  match vSpec c.W (WCtx_slot c) i with
  | some (f, _) => paramOf c.w f
  | none => 0

/-- The class-1 register and selector causes (R48, R50), lowest first. -/
def regCause (c : WCtx) (i : Instr) : Option Cause :=
  let u := WCtx_use c i
  let v := u.rv ++ u.wv
  let past := fun (l : List Nat) => l.any fun x => decide (x < 64 ∧ c.g.lrec.sregs ≤ x) || (decide (64 ≤ x) && !l.contains (x - 1))
  let p := selParam c i
  (firstReason [
    (v.any fun x => decide (x < 128 ∧ c.g.lrec.vregs ≤ x), 0x020),
    (past u.rs || past u.ws, 0x021),
    (u.tiles.any fun x => decide (c.g.lrec.tiles ≤ x), 0x022),
    (u.accs.any fun x => decide (c.g.lrec.accs ≤ x), 0x023),
    (u.even.any fun x => x % 2 = 1, 0x024),
    ((v.any fun x => decide (128 ≤ x)) || (u.rs ++ u.ws).any fun x => decide (64 ≤ x), 0x025),
    (u.sels.contains 7, 0x026),
    (u.sels.contains 5 && p % 4 = 3, 0x027),
    (u.sels.contains 2 && decide (c.W ≤ p), 0x028)]).map (BitVec.ofNat 9)

def meets (a b : List Nat) : Bool := a.any fun x => b.contains x

/-- Instructions a warp retake stub may not issue (13 R348, 0x04D). -/
def stubBanned (i : Instr) : Bool :=
  match i with
  | .exit _ => true
  | .svc _ => true
  | .wake _ => true
  | .bar _ => true
  | .dqpop _ => true
  | .dqbr _ => true
  | .stG _ => true
  | .stL _ => true
  | .stC _ => true
  | .stP _ => true
  | .stcond _ => true
  | .atom _ => true
  | .atomf _ => true
  | .cas _ => true
  | .cntadd _ => true
  | _ => false

/-- The loads and stores of the four spaces (08 R204). -/
def isLoadStore (i : Instr) : Bool :=
  match i with
  | .ldG _ => true
  | .stG _ => true
  | .ldL _ => true
  | .stL _ => true
  | .ldC _ => true
  | .stC _ => true
  | .ldP _ => true
  | .stP _ => true
  | _ => false

/-- The vector registers of its own that a lane reads: not those that a selector, or `lsel`, draws from another lane (06 R134). -/
def ownReads (c : WCtx) (i : Instr) (lane : Nat) : List Nat :=
  match vSpec c.W (WCtx_slot c) i with
  | none => (WCtx_use c i).rv
  | some (f, v) =>
    let src := fun (s : Src) (x : BitVec 7) (sel : BitVec 3) => match s with
      | .vec n => if sel ≠ 6 && crossLane c.w sel.toNat (paramOf c.w f) lane == some lane then run x.toNat n else []
      | .fix n => run x.toNat n
      | _ => []
    let a := match i with
      | .lsel _ => if lselSrc (f.m % 4) (segSize c.W f) lane (srcVal c.w f v.b f.b f.pb lane) = lane then src v.a f.a f.pa else []
      | _ => src v.a f.a f.pa
    a ++ src v.b f.b f.pb ++ src v.c f.c f.pc
/-- The registers that a lane's windows keep pending, as destinations and as data sources (02 R56). -/
def pendingWr (th : Thread) : List Nat := (th.windows.filter fun x => x.left ≠ 0).flatMap (·.wr)
def pendingRd (th : Thread) : List Nat := (th.windows.filter fun x => x.left ≠ 0).flatMap (·.rd)
/-- The retake stub a thread is in; a handler entered from it is not part of it. -/
def stubOf (th : Thread) : Option Stub := if th.inHandler then none else th.stub

/-- The schedule-contract cause of one lane (02 R56, 13 R348), lowest first; `quiet` is a load or store with no contributors, which raises none of a pending register (08 R204). A stub reads every register that its instruction names as a source. -/
def schedLane (c : WCtx) (i : Instr) (quiet : Bool) (lane : Nat) (th : Thread) : Option Nat :=
  let u := WCtx_use c i
  let ws := th.windows.filter fun x => x.left ≠ 0
  let isSvc := match i with
    | .svc _ => true
    | _ => false
  let isSp := match i with
    | .swreg f => f.b = 23
    | _ => false
  let base := [(!quiet && meets (ownReads c i lane) (pendingWr th), 0x040), (!quiet && (meets u.wv (pendingWr th) || meets u.wv (pendingRd th)), 0x041),
    (isSp && ws.any (·.isPriv), 0x045), (isSvc && ws.any (·.isSvc), 0x046)]
  firstReason (match stubOf th with
    | none => base
    | some st => base ++ [(meets u.rv st.deadV, 0x048), (meets u.rs st.deadS, 0x049), (meets u.rp st.deadP, 0x04A),
        (stubBanned i, 0x04D), (decide (255 ≤ st.issued), 0x04F)])

/-- A thread stands at a takeable cut (13 R370); of a load parked on full/empty bits no granule may have been read (08 R185). -/
def threadTakeable (w : Warp) (th : Thread) : Bool :=
  (match th.clause with
    | some c => c.cut && c.first
    | none => false) && w.tokens == [] && th.windows.all (·.done) && !th.inHandler && th.moved
    && (match th.park with
      | some (.fullEmpty _ served) => !served
      | _ => true)

/-- The cause of a strict cut reached while not takeable (13 R348, 0x050 to 0x057). -/
def strictLane (w : Warp) (th : Thread) : Option Nat :=
  match th.clause with
  | none => none
  | some c =>
    if c.cut && c.first && c.strict then
      firstReason ([(th.windows.any (!·.done), 0x050)] ++ ((List.range 6).map fun i => (Warp_tok w i != 0, 0x051 + i)) ++ [(th.inHandler, 0x057)])
    else none

/-- The lowest class-2 cause of a group with the lanes that meet it. -/
def lowestOf (l : List (Nat × Nat)) : Option (Nat × List Nat) :=
  match l with
  | [] => none
  | _ => let m := l.foldl (fun a (_, x) => min a x) 511; some (m, (l.filter fun (_, x) => x == m).map (·.1))

/-- The class-2 causes of an issue, in every thread of the group (02 R55, R56). -/
def schedCause (c : WCtx) (i : Instr) : Option OwnC :=
  let one := fun (f : Nat → Thread → Option Nat) => c.lanes.filterMap fun l => (c.w.threads[l]?.bind (f l)).map fun x => (l, x)
  let quiet := isLoadStore i && c.cs == []
  (lowestOf (one (schedLane c i quiet) ++ one fun _ => strictLane c.w)).map fun (x, ls) => ⟨BitVec.ofNat 9 x, 0, ls⟩

/-- The count a thread's cut distance would reach (13 R371). -/
def nextDist (w : Warp) (th : Thread) : Nat := if th.inHandler then th.cutDist else (if threadTakeable w th then 0 else th.cutDist) + 1

/-- The lanes whose cut distance would exceed CUTMAX. -/
def cutLanes (c : WCtx) : List Nat :=
  c.lanes.filter fun l => match c.w.threads[l]? with
    | some th => !th.inHandler && decide (c.g.lrec.cutmax < nextDist c.w th)
    | none => false

/-- Full convergence (07 R158). -/
def converged (c : WCtx) : Bool := (Warp_live c.w).all fun l => c.lanes.contains l

/-- A deferred cause falls due: at the wait of its window, at an instruction that waits for all, or at a wait on its token (08 R198, 13 R357). -/
def isDue (all : Bool) (toks : Nat) (d : Deferred) : Bool :=
  match d.tok with
  | none => all || d.left = 0
  | some k => toks.testBit k

/-- A deferred cause that falls due at this issue (13 R346): the oldest. -/
def dueIn (all : Bool) (toks : Nat) (l : List Deferred) : Option Deferred :=
  (l.filter (isDue all toks)).foldl (fun b d => match b with
    | none => some d
    | some x => if d.stamp < x.stamp then some d else some x) none
/-- The deferred cause of a thread that falls due. -/
def dueOf (all : Bool) (toks : Nat) (th : Thread) : Option Deferred := dueIn all toks th.deferred

/-- The step along a clause of n words (02 R25): the next word, or the header of the clause that follows. -/
def stepThread (n : Nat) (th : Thread) : Thread :=
  let pc := th.pc + BitVec.ofNat 57 (4 * n)
  match th.clause with
  | some c => if c.left ≤ n then { th with pc := pc, clause := none } else { th with pc := pc, clause := some { c with left := c.left - n, first := false } }
  | none => { th with pc := pc }

/-- What every issue counts in a thread of the group (02 R55, 13 R370, R371, R348): a failed guard counts too. -/
def countThread (w : Warp) (th : Thread) : Thread :=
  { th with
    cutDist := nextDist w th
    moved := true
    windows := (th.windows.map fun x => { x with left := x.left - 1 }).filter fun x => !(x.done && x.left = 0)
    deferred := th.deferred.map fun d => { d with left := d.left - 1 }
    stub := if th.inHandler then th.stub else th.stub.map fun st => { st with issued := st.issued + 1 } }
/-- A contributor in a retake stub has written the instruction's destinations: they are no longer dead (13 R348). -/
def writeThread (u : Use) (th : Thread) : Thread :=
  { th with stub := if th.inHandler then th.stub else th.stub.map fun st => { st with deadV := st.deadV.filter (fun r => !u.wv.contains r), deadS := st.deadS.filter (fun r => !u.ws.contains r), deadP := st.deadP.filter (fun r => !u.wp.contains r) } }

/-- A transfer of control: every one lands on a clause header (07 R155). -/
def jumpThread (pc : VAddr) (th : Thread) : Thread := { th with pc := pc, clause := none }

/-- A warp instruction: its own causes by step of R346, whether it needs full convergence, what holds it at issue, and its effect. `stay` keeps the PC at the instruction (a parking one). -/
structure WOp where
  i : Instr
  c1 : State → WCtx → Option OwnC := fun _ _ => none
  conv : Bool := false
  rest : State → WCtx → Option OwnC := fun _ _ => none
  hold : State → WCtx → Bool := fun _ _ => false
  /-- what an instruction that is held does first, when it has something to do -/
  prep : State → WCtx → Option State := fun _ _ => none
  /-- waits for every pending long instruction of the thread (02 R58) -/
  drain : Bool := false
  stay : Bool := false
  /-- the tokens whose collectives' causes it delivers (13 R390) -/
  toks : Nat := 0
  eff : WCtx → State → State

/-- A token mask, when every token of it reads zero. -/
def zeroToks (w : Warp) (mask : Nat) : Nat := if (maskList mask 6).all fun i => Warp_tok w i = 0 then mask else 0

/-- A precise cause of a group at its instruction (13 R355, R356). -/
def preciseAt (s : State) (c : WCtx) (lanes : List Nat) (o : OwnC) : State :=
  takeWarp (postWalk s (.warp c.wg c.wi lanes) o.cause o.addr) c.wg c.wi lanes { cause := o.cause, kind := 0, fpc := c.pc.toNat, rpc := c.pc.toNat, addr := o.addr, lanes := laneMask o.lanes }

/-- The record of a deferred cause (13 R355): RPC is the waiting instruction; an untracked engine command has token 6. -/
def dueRec (d : Deferred) (rpc : VAddr) : TrapRec :=
  { cause := d.cause, kind := 1 + (if d.engine then 8 else 0), token := d.tok.getD 6, fpc := d.fpc.toNat, rpc := rpc.toNat, addr := d.addr,
    lanes := d.lanes, opwords := d.words, stamp := if d.engine then d.stamp else 0 }

/-- Deferred causes that no thread is left to wait for (07 R159, R357): each collective's is posted once, with its record. -/
def orphanCauses (s : State) (wg : Nat) (l : List Deferred) : State := l.eraseDups.foldl (fun t d => postRec t { dueRec d 0 with kind := 2 + (if d.engine then 8 else 0) } (some wg)) s
/-- Exited threads' copies of the causes of collectives that a live thread has met at its wait: none is left over for the end of the warp (07 R159). -/
def dropCopies (w : Warp) (ds : List Deferred) : Warp :=
  { w with threads := w.threads.map fun th => if th.life = .live then th
      else { th with deferred := th.deferred.filter fun x => !(x.tok.isSome && ds.any fun d => d.tok == x.tok && d.cause == x.cause && d.fpc == x.fpc && d.stamp == x.stamp) } }
/-- A thread takes the cause that falls due at its wait, and the others that fall due with it are discarded (08 R198, 13 R357): the thread stops at the waiting instruction. -/
def deliverOne (s : State) (wg wi lane : Nat) (due : Deferred → Bool) (d : Deferred) (pc : VAddr) : State :=
  let t := updWarp s wg wi fun w =>
    Warp_updThread (dropCopies w (((w.threads[lane]?).map fun th => th.deferred.filter due).getD [])) lane fun th => { th with deferred := th.deferred.filter fun x => !due x }
  takeWarp t wg wi [lane] (dueRec d pc)
/-- What an instruction of a group waits for in a lane: a contributor waits for every pending instruction (`drain`) and for the tokens named (02 R58, 13 R390). -/
def laneDrain (op : WOp) (c : WCtx) (l : Nat) : Bool := op.drain && c.cs.contains l
def laneToks (op : WOp) (c : WCtx) (l : Nat) : Nat := if c.cs.contains l then zeroToks c.w op.toks else 0
/-- The deferred cause that falls due in a lane at its group's instruction. -/
def laneDue (op : WOp) (c : WCtx) (l : Nat) : Option Deferred := (c.w.threads[l]?).bind (dueOf (laneDrain op c l) (laneToks op c l))
/-- Deliver the deferred causes that fall due. -/
def deliverDue (op : WOp) (s : State) (c : WCtx) : State :=
  c.lanes.foldl (fun t l =>
    match laneDue op c l with
    | none => t
    | some d => deliverOne t c.wg c.wi l (isDue (laneDrain op c l) (laneToks op c l)) d c.pc) s

/-- The units of the vector pipe that a warp instruction's work passes through (13 R350): 0 add and subtract, 1 multiply and FMA, 2 shift, logic and convert, 3 compare and select (log 88). -/
def pipeUnits (i : Instr) : List Nat :=
  match i with
  | .add _ => [0]
  | .sub _ => [0]
  | .mul _ => [1]
  | .mulh _ => [1]
  | .mad _ => [0, 1]
  | .madw _ => [0, 1]
  | .min _ => [3]
  | .max _ => [3]
  | .abs _ => [0]
  | .neg _ => [0]
  | .sad _ => [0]
  | .dot4 _ => [0, 1]
  | .cmp _ => [3]
  | .sel _ => [3]
  | .fadd _ => [0]
  | .fsub _ => [0]
  | .fmul _ => [1]
  | .ffma _ => [1]
  | .fmin _ => [3]
  | .fmax _ => [3]
  | .fcmp _ => [3]
  | .fclass _ => [3]
  | .fclamp _ => [3]
  | .pfma _ => [1]
  | .padd _ => [0]
  | .pmul _ => [1]
  | .wred _ => [0, 2, 3]
  | .wscan _ => [0, 2, 3]
  | .poll _ => [3]
  | .eqset _ => [3]
  | .lead _ => [3]
  | i => if warpClass i = 0 then [2] else []
/-- A source of the instruction passes the lane crossbar: every source of a V-layout instruction does, whatever its selector (02 R50, 06 R139). -/
def crosses (c : WCtx) (i : Instr) : Bool :=
  match vSpec c.W (WCtx_slot c) i with
  | none => false
  | some (_, v) => [v.a, v.b, v.c].any fun s => match s with
    | .vec _ => true
    | .fix _ => true
    | _ => false
/-- A self-check or register-cache cause concerns an instruction of a group (13 R350, R354): the crossbar, a register read, a unit of the pipe of the issuing port. -/
def softMeets (port : Nat) (c : WCtx) (i : Instr) (x : Cause) : Bool :=
  let u := WCtx_use c i
  x = 0x1E1 || (x = 0x102 && crosses c i) || (x = 0x103 && (u.rv != [] || u.rs != []))
    || (pipeUnits i).any fun k => x == BitVec.ofNat 9 (0x104 + 4 * port + k)
/-- The lowest code of some causes. -/
def lowestCause (l : List Cause) : Option Cause :=
  l.foldl (fun b x => match b with
    | none => some x
    | some y => if x.toNat < y.toNat then some x else some y) none
/-- The self-check cause that a warp instruction meets: the lowest of those injected that concern it. -/
def softCause (s : State) (c : WCtx) (i : Instr) : Option OwnC := (lowestCause (s.softErrors.filter (softMeets s.port c i))).map fun x => ⟨x, 0, c.cs⟩
/-- A cause of step 8 of R346: the steps after it hold the memory, lock and software causes. -/
def isStep8 (x : Cause) : Bool := causeClass x ≠ 4 && causeClass x ≠ 5 && causeClass x ≠ 6 && !decide (0x0E8 ≤ x.toNat ∧ x.toNat ≤ 0x0EF) && causeClass x ≠ 12
/-- Of a self-check cause and the instruction's first own cause, the one R346 reports: the lower code within step 8. -/
def softOr (soft own : Option OwnC) : Option OwnC :=
  match soft, own with
  | some x, some o => if isStep8 o.cause && decide (o.cause.toNat < x.cause.toNat) then own else soft
  | none, o => o
  | x, none => x

/-- The causes of R346 steps 1 to 5: they need no register of the group but a selector's parameter. -/
def earlyCause (op : WOp) (s : State) (c : WCtx) : Option OwnC :=
  let at_ := fun (x : Option Cause) => x.map fun k => (⟨k, 0, c.lanes⟩ : OwnC)
  firstC [(if cutLanes c = [] then none else some ⟨0x060, 0, cutLanes c⟩), at_ (encCause c op.i), at_ (regCause c op.i), op.c1 s c]

/-- The causes of R346 step 3 in order, with the lanes that meet them. -/
def issueCause (op : WOp) (s : State) (c : WCtx) : Option OwnC :=
  firstC [earlyCause op s c, schedCause c op.i, (if op.conv && !converged c then some ⟨0x0E0, 0, c.lanes⟩ else none), softOr (softCause s c op.i) (op.rest s c)]

/-- A lane is held: a LOOK window is used up, or its instruction waits for every pending one. -/
def heldLane (op : WOp) (c : WCtx) (l : Nat) : Bool :=
  match c.w.threads[l]? with
  | some th => th.park.isSome || th.windows.any fun x => !x.done && (laneDrain op c l || x.left = 0)
  | none => true

/-- The state of a group's threads after the instruction has counted and stepped. -/
def issued (op : WOp) (c : WCtx) (s : State) : State :=
  let t := updThreads s c.wg c.wi c.lanes fun th =>
    let th := countThread c.w th
    if op.stay then { th with plen := instrLen (warpL op.i) } else stepThread (instrLen (warpL op.i)) th
  updThreads t c.wg c.wi c.cs (writeThread (WCtx_use c op.i))

/-- ISSUE of a warp instruction for the group of `State.cur` (13 R346). -/
def warpIssue (op : WOp) (s : State) : Host.Outcome State Fault Refusal :=
  match warpCtx s op.i with
  | none => .fault .noIssuer
  | some c =>
    if c.k.st ≠ .resident || c.lanes = [] || c.lanes.any (heldLane op c) then .next s
    else if c.lanes.any (fun l => (laneDue op c l).isSome) then .next (deliverDue op s c)
    else match issueCause op s c with
      | some o => .next (preciseAt (if softCause s c op.i = some o then { s with softErrors := s.softErrors.erase o.cause } else s) c c.lanes o)
      | none => if op.hold s c then .next ((op.prep s c).getD s) else .next (op.eff c (issued op c s))

/-! ### Long operations in flight (02 R55, R56) -/

/-- Put a long operation in flight; its number and the state. -/
def addFlight (s : State) (who : Issuer) (pc : VAddr) (look : Nat) (kind : FlightKind) : Nat × State :=
  (s.nextId, { s with nextId := s.nextId + 1, flights := s.flights ++ [{ id := s.nextId, who := who, pc := pc, look := look, clk := s.clk, kind := kind }] })

/-- Open a LOOK window of a flight in some lanes of the group. -/
def openIn (s : State) (c : WCtx) (lanes : List Nat) (flight look : Nat) (u : Use) (isSvc isPriv : Bool) : State :=
  updThreads s c.wg c.wi lanes fun th =>
    { th with windows := th.windows ++ [{ flight := flight, left := look, wr := u.wv, rd := u.pend, isSvc := isSvc, isPriv := isPriv, done := false }] }

/-- The window of an issued instruction opens in every thread of its group, guard-failed ones included (02 R55; 16 R438: the group stays one; log 64). -/
def openWindow (s : State) (c : WCtx) (flight look : Nat) (u : Use) (isSvc isPriv : Bool) : State := openIn s c c.lanes flight look u isSvc isPriv

/-- The instruction of a flight has completed: its window stays for its count (R56) and goes when that is used up. -/
def doneWindow (ws : List Window) (flight : Nat) : List Window :=
  (ws.map fun x => if x.flight = flight then { x with done := true } else x).filter fun x => !(x.done && x.left = 0)

/-- A long warp instruction in flight with its window. -/
def launchFlight (s : State) (c : WCtx) (i : Instr) (kind : FlightKind) (isSvc isPriv : Bool) : State :=
  let (n, t) := addFlight s (.warp c.wg c.wi c.cs) c.pc ((warpLook i).getD 0) kind
  openWindow t c n ((warpLook i).getD 0) (WCtx_use c i) isSvc isPriv
/-- A long instruction with no contributors: nothing but its window. -/
def emptyFlight (s : State) (c : WCtx) (i : Instr) (isSvc isPriv : Bool) : State := launchFlight s c i .plain isSvc isPriv

/-! ### Shared effects of elementwise instructions -/

/-- Merge flags into `%fpstat` of a lane (04 R97). -/
def mergeFlags (w : Warp) (lane : Nat) (f : Flags) : Warp := if f = 0 then w else Warp_updThread w lane fun th => { th with fpstat := fpMerge th.fpstat f }

/-- The operands of a V-layout instruction in a lane. -/
def operands (c : WCtx) (f : VF) (v : VSpec) (lane : Nat) : Nat × Nat × Nat :=
  let w := laneW c f lane
  (srcVal w f v.a f.a f.pa lane, srcVal w f v.b f.b f.pb lane, srcVal w f v.c f.c f.pc lane)

/-- Registers of a vector destination. -/
def Dst.regs : Dst → Nat
  | .vec n => n
  | _ => 0

/-- Write a lane's result and flags. -/
def writeLane (w : Warp) (f : VF) (v : VSpec) (lane : Nat) (r : Nat × Flags) : Warp :=
  mergeFlags (vsetN w f.d.toNat lane r.1 (Dst.regs v.d)) lane r.2

/-- An elementwise V-layout instruction of fixed timing (03 R74): all sources are read before any destination is written. The function takes the three operands and the old destination. -/
def elementwise (i : Instr) (fn : WCtx → VF → Nat → Nat → Nat → Nat → Nat × Flags) : WOp :=
  { i := i
    eff := fun c s =>
      match vSpec c.W (WCtx_slot c) i with
      | none => s
      | some (f, v) => updWarp s c.wg c.wi fun w =>
        c.cs.foldl (fun w lane =>
          let (x, y, z) := operands c f v lane
          writeLane w f v lane (fn c f x y z (vgetN c.w f.d.toNat lane 1))) w }

/-- An elementwise instruction that writes a predicate (03 R90, 04 R106). -/
def predwise (i : Instr) (fn : VF → Nat → Nat → Bool × Flags) : WOp :=
  { i := i
    eff := fun c s =>
      match vSpec c.W (WCtx_slot c) i with
      | none => s
      | some (f, v) => updWarp s c.wg c.wi fun w =>
        c.cs.foldl (fun w lane =>
          let (x, y, _) := operands c f v lane
          let (b, fl) := fn f x y
          mergeFlags (pset w (f.d.toNat % 8) lane b) lane fl) w }

/-- The unit of the special-function stage that an instruction uses (13 R350): 0 reciprocal and root, 1 exponent and logarithm (`ftanh` and `fsigm` too), 2 trigonometric, 3 divide (log 88). -/
def vsfuUnit (i : Instr) : Nat :=
  match i with
  | .fexp2 _ => 1
  | .flog2 _ => 1
  | .ftanh _ => 1
  | .fsigm _ => 1
  | .fsin _ => 2
  | .fcos _ => 2
  | .fdiv _ => 3
  | _ => 0
/-- A special-function instruction (04 R98, R111, R112): its results and flags are written at completion. -/
def special (i : Instr) (fn : VF → Nat → Nat → Nat × Flags) : WOp :=
  { i := i
    eff := fun c s =>
      match vSpec c.W (WCtx_slot c) i with
      | none => s
      | some (f, v) =>
        let res := c.cs.map fun lane => let (x, y, _) := operands c f v lane; (lane, fn f x y)
        launchFlight s c i (.vsfu (vsfuUnit i) (res.map fun (l, r) => ⟨l, f.d.toNat, BitVec.ofNat 64 r.1⟩) (res.map fun (l, r) => (l, r.2))) false false }

end Sys2Proof.Machine
end

