-- ==== Sys2Proof/Machine/WarpAccess.lean ====
section
/-! DEFINITION. What warp memory instructions share: the places of all contributors, the choice of one memory cause among lanes (08 R201, 13 R346 steps 9 and 10), the outstanding work of a warp, and recorded integrity causes (08 R198, R200). -/

namespace Sys2Proof.Machine

/-- One contributor's access. -/
structure LAcc where
  lane : Nat
  addr : Nat
  acc : Acc
  deriving DecidableEq, Repr

/-- The rank of a memory cause in the order of R201: misaligned, absent space, out of range, class 4, the rest. -/
def memRank (c : Cause) : Nat :=
  if causeClass c = 5 then
    let sp := c.toNat / 8 % 4
    match c.toNat % 4 with
    | 0 => 1
    | 1 => 3
    | 2 => if sp = 0 then 5 else 2
    | _ => 5
  else if causeClass c = 4 then 4 else 0

/-- The memory cause a group reports: the first rank, then the lowest code; the lanes that met it and the lowest one's address. -/
def memFault (l : List LAcc) : Option OwnC :=
  let fs := l.filterMap fun a => match a.acc with
    | .fault c => some (a.lane, a.addr, c)
    | _ => none
  match fs.foldl (fun (b : Option Cause) (_, _, c) => match b with
      | none => some c
      | some x => if memRank c < memRank x || (memRank c = memRank x && c.toNat < x.toNat) then some c else some x) none with
  | none => none
  | some c =>
    let hit := fs.filter fun (_, _, x) => x == c
    some ⟨c, BitVec.ofNat 64 ((hit.head?.map fun (_, a, _) => a).getD 0), hit.map fun (l, _, _) => l⟩

/-- The range-lock cause of a group (09 R223), lowest code. -/
def lockFault (s : State) (iss : Issuer) (sp : Nat → Space) (n : Nat) (w rmw : Bool) (l : List LAcc) : Option OwnC :=
  let fs := l.filterMap fun a => match a.acc with
    | .ok loc _ => (lockHit s iss (sp a.addr) loc n w rmw).map fun c => (a.lane, a.addr, c)
    | _ => none
  match fs.foldl (fun (b : Option Cause) (_, _, c) => match b with
      | none => some c
      | some x => if c.toNat < x.toNat then some c else some x) none with
  | none => none
  | some c =>
    let hit := fs.filter fun (_, _, x) => x == c
    some ⟨c, BitVec.ofNat 64 ((hit.head?.map fun (_, a, _) => a).getD 0), hit.map fun (l, _, _) => l⟩

/-- Some access waits for a page in transition (14 R405). -/
def anyWait (l : List LAcc) : Bool := l.any fun a => a.acc == .wait

/-- The version budget would be passed by the lines a group writes, or their home slices have no room for them (13 R365): class-11 reasons 0 and 1, only with HMASK bit 11. -/
def versionFault (s : State) (c : WCtx) (n : Nat) (l : List LAcc) : Option OwnC :=
  if c.k.taskOn && c.g.lrec.hmask.getLsbD 11 then
    let lines := (l.flatMap fun a => match a.acc with
      | .ok (.mem pa) _ => versionNewLines c.k pa n
      | _ => []).eraseDups
    if c.k.vbytes + 128 * lines.length > c.g.lrec.vbudget then some ⟨0x160, 0, c.cs⟩ else if versionFull s lines then some ⟨0x164, 0, c.cs⟩ else none
  else none

/-- The issuer of a context. -/
def WCtx_iss (c : WCtx) : Issuer := .warp c.wg c.wi c.cs

/-- The failing address of a cause met at offset a of a lane's private space: the offset where the offset itself fails (misaligned, no space, out of range), else the virtual address it lies at (08 R176, 13 R355; log 61). -/
def privFailing (s : State) (iss : Issuer) (warp lane a : Nat) (cause : Cause) : Nat :=
  if causeClass cause = 5 ∧ cause.toNat % 4 ≠ 3 then a
  else match (issuerWg s iss).bind fun k => (gridOf s k).map fun g => (privBase g.lrec k warp lane + a) % 2 ^ 57 with
    | some x => x
    | none => a
/-- A group's cause with its failing address in a space. -/
def failingIn (s : State) (iss : Issuer) (sp : Space) (warp : Nat) (o : Option OwnC) : Option OwnC :=
  if sp = .priv then o.map fun x => { x with addr := BitVec.ofNat 64 (privFailing s iss warp (x.lanes.headD 0) x.addr.toNat x.cause) } else o

/-- Cache the translation an access used. -/
def touchTlb (s : State) (iss : Issuer) (va : Nat) (t : Trans) : State :=
  match issuerCore s iss with
  | some core => tlbFill s core (spaceOf s iss).1 va t
  | none => s

/-- Record a cause against lanes, due at the wait after `left` more issues (08 R198). -/
def deferLanes (s : State) (wg wi : Nat) (lanes : List Nat) (cause : Cause) (addr : BitVec 64) (fpc : VAddr) (left : Nat) : State :=
  let (n, t) := takeId s
  updThreads t wg wi lanes fun th =>
    { th with deferred := th.deferred ++ [{ cause := cause, addr := addr, lanes := laneMask lanes, fpc := fpc, tok := none, left := left, engine := false, words := 0, stamp := n }] }

/-- Mark a versioned task non-restartable by an operation that is not versioned; the cause of R351 goes to the thread's next wait when HMASK bit 11 is 1 (log 19). -/
def markTask (s : State) (c : WCtx) (reason : Nat) (left : Nat) : State :=
  if c.k.taskOn then
    let t := updWg s c.wg fun k => { k with nonRestart := true }
    if c.g.lrec.hmask.getLsbD 11 then deferLanes t c.wg c.wi c.cs (BitVec.ofNat 9 (0x160 + 4 * reason)) 0 c.pc left else t
  else s

end Sys2Proof.Machine
end

