-- ==== Sys2Proof/Machine/Atomics.lean ====
section
/-! DEFINITION. Operations at an execution point (09 R220, R221): atomics (R234 to R236), reservations (R237), forage counters (R239) and arrival counters (R241, R242), for warps and cue threads; and the completion of a long memory access (08 R198, 02 R55). -/

namespace Sys2Proof.Machine

/-- The new value of an integer atomic on w bits (R234). -/
def atomNew (op w old b : Nat) : Nat :=
  match op with
  | 0 => (old + b) % 2 ^ w
  | 1 => old &&& b
  | 2 => old ||| b
  | 3 => old ^^^ b
  | 4 => if sextN old w ≤ sextN b w then old else b
  | 5 => if sextN old w ≤ sextN b w then b else old
  | 6 => min old b
  | 7 => max old b
  | 8 => b
  | 9 => if b ≤ old then 0 else old + 1
  | _ => if old = 0 ∨ b < old then b else old - 1

/-- The new value of a float atomic and its flags (R235): rounding to nearest even, subnormals kept. -/
def atomfNew (op old b : Nat) : Nat × Flags :=
  match op with
  | 0 => fpuAdd 0 old b 0
  | 1 => fpuMinMax false 0 old b
  | 2 => fpuMinMax true 0 old b
  | 3 => fpuPacked 0 old b 0 fun x y _ => fAdd 0 x y
  | _ => fpuPacked 4 old b 0 fun x y _ => fAdd 0 x y

/-- Where an operation in flight belongs: its stream, its instruction, the group key that it carries (08 R208), and its flight. -/
structure Point where
  iss : Issuer
  i : Instr
  key : BitVec 16
  flight : Nat := 0
  deriving DecidableEq, Repr

/-- A peer's slice executes an operation (R220): the operation and its operands go there, and what its location held is a free value (log 11). -/
def peerPoint (s : State) (p : Point) (o : LaneOp) (pa n : Nat) : List Byte × CapState × State :=
  let t := askPeer s (askerOf s p.iss o.lane) { dst := peerDev s pa, kind := 3, page := pa, seq := 0, aux := n, data := [], op := some p.i, args := o.ops }
  ((List.range n).map fun j => Config.peerByte (t.fresh + j), freeCap (Config.peerByte (t.fresh + n)), { t with fresh := t.fresh + n + 1 })
/-- What a lane's location at its execution point holds. -/
def pointRead (s : State) (p : Point) (o : LaneOp) (n : Nat) : List Byte × CapState × State :=
  match o.loc with
  | .peer pa => peerPoint s p o pa n
  | l => behindRead s l n p.key
/-- Write a lane's location at its execution point, as its agent; a peer has written its own. -/
def pointWrite (s : State) (p : Point) (o : LaneOp) (bs : List Byte) : State :=
  match o.loc with
  | .ls a => lsWrite s a bs
  | .mreg off => mapWrite s off bs.length (leNat bs)
  | .peer _ => s
  | .ctrap pa => behindWrite s p.iss o.lane (.mem pa) bs 0
  | l => behindWrite s p.iss o.lane l bs p.key

/-- Registers of a lane for a value of n words. -/
def laneWrites (lane d v : Nat) (n : Nat) : List RegWrite := (List.range n).map fun j => ⟨lane, d + j, BitVec.ofNat 64 (v / 2 ^ (32 * j) % 2 ^ 32)⟩

/-- What one lane's operation gives: register writes, flags, and a recorded cause. -/
structure OpOut where
  writes : List RegWrite := []
  flags : List (Nat × BitVec 7) := []
  bad : List (Nat × Cause × BitVec 64) := []
  deriving DecidableEq, Repr

def OpOut.join (a b : OpOut) : OpOut := { writes := a.writes ++ b.writes, flags := a.flags ++ b.flags, bad := a.bad ++ b.bad }

/-- A read-modify-write of n bytes: a new value (or none), and what the lane gets. -/
def rmw (s : State) (p : Point) (o : LaneOp) (n consumer : Nat) (fn : Nat → Option Nat × OpOut) : OpOut × State :=
  let (bs, cap, t) := pointRead s p o n
  match integrityCause consumer cap with
  | some c => ({ bad := [(o.lane, c, o.va)] }, t)
  | none =>
    let (nv, out) := fn (leNat bs)
    (out, match nv with
      | some v => pointWrite t p o (leBytes n v)
      | none => t)

/-- A `stcond` in flight has claimed, at its issue, the reservation of its agent on a granule, and no event has ended that since (R221). -/
def holds (s : State) (flight : Nat) (a : Agent) (g : Nat) : Bool := s.resv.any fun r => r.claim == some flight && r.agent == a && r.granule == g
/-- Remove an agent's reservation, but for those that its `stcond`s on their way have claimed. -/
def dropResv (s : State) (a : Agent) : State := { s with resv := s.resv.filter fun r => !(r.agent == a && r.claim.isNone) }
/-- Remove what a `stcond` has claimed for an agent. -/
def dropClaim (s : State) (flight : Nat) (a : Agent) : State := { s with resv := s.resv.filter fun r => !(r.agent == a && r.claim == some flight) }
/-- ISSUE of `ldres` or `stcond`: the agents' reservations are lost, whatever their addresses, but for the use that this `stcond` makes of them at its execution (R221, R237). -/
def issueResv (s : State) (iss : Issuer) (i : Instr) (flight : Nat) (ops : List (Nat × Loc)) : State :=
  let keep := fun (loc : Loc) (g : Nat) => match i, loc with
    | .stcond _, .mem pa => pa / 16 == g
    | _, _ => false
  let one := fun (r : Resv) => if r.claim.isSome then some r else match ops.find? fun o => r.agent == agentOf iss o.1 with
    | some o => if keep o.2 r.granule then some { r with claim := some flight } else none
    | none => some r
  match i with
  | .ldres _ => { s with resv := s.resv.filterMap one }
  | .stcond _ => { s with resv := s.resv.filterMap one }
  | _ => s
/-- Register a reservation: the oldest of 64 at the slice leaves (R221). -/
def addResv (s : State) (a : Agent) (pa : Nat) : State :=
  let sl := homeSlice s pa
  let t := dropResv s a
  let mine := t.resv.filter fun r => r.slice == sl
  let rest := if mine.length ≥ 64 then (match mine.head? with
    | some r => t.resv.erase r
    | none => t.resv) else t.resv
  { t with resv := rest ++ [{ slice := sl, granule := pa / 16, agent := a, at_ := s.clk }] }

/-- The next chunk of a forage counter (R239): start, size, and NEXT after it. -/
def forageNext (next end_ : Int) (minc div : Nat) : Int × Int :=
  let remaining := end_ - next
  if remaining ≤ 0 then (next, 0)
  else (next, min (max (minc : Int) ((remaining + (div : Int) - 1) / div)) remaining)

/-- Bytes of a forage counter, or the cause its lane records (R225). -/
def forageAt (s : State) (p : Point) (o : LaneOp) (out : Nat → Nat → List RegWrite) : OpOut × State :=
  let (bs, cap, t) := pointRead s p o 32
  let n := fun k l => leNat ((bs.drop k).take l)
  match integrityCause 11 cap with
  | some c => ({ bad := [(o.lane, c, o.va)] }, t)
  | none =>
    if n 0x10 4 = 0 ∨ n 0x14 4 = 0 then ({ bad := [(o.lane, 0x0F6, o.va)] }, t)
    else if n 0x18 8 ≠ 0 then ({ bad := [(o.lane, 0x0F7, o.va)] }, t)
    else
      let (start, size) := forageNext (sextN (n 0 8) 64) (sextN (n 8 8) 64) (n 0x10 4) (n 0x14 4)
      ({ writes := out (wrap 64 start).toNat (wrap 64 size).toNat },
        if size = 0 then t else pointWrite t p o (leBytes 8 (wrap 64 (start + size)).toNat))

/-- One advance of an arrival counter (R241, R242): the cause when it cannot be made. -/
def advance (s : State) (a : Nat) (by_ : Int) : Option Cause × State :=
  match integrityCause 11 (lsCap s (a / 16)) with
  | some c => (some c, s)
  | none =>
    if leNat (lsBytes s (a + 8) 8) ≠ 0 then (some 0x0E6, s)
    else
      let v := sextN (leNat (lsBytes s a 8)) 64 + by_
      if v < 0 then (some 0x0E7, s) else (none, lsWrite s a (leBytes 8 (wrap 64 v).toNat))

/-- A 32-bit wide value of a lane. -/
def opN (o : LaneOp) (k n : Nat) : Nat := (o.ops.getD k 0).toNat % 2 ^ (8 * min n 8) + (if n = 16 then (o.ops.getD (k + 1) 0).toNat * 2 ^ 64 else 0)

/-- A strong store is merged at its visibility point (R211): the core's own bytes there are overwritten with it. -/
def storePoint (s : State) (p : Point) (o : LaneOp) (n : Nat) : OpOut × State := ({}, plainStore s p.iss p.key o.lane o.loc Trans_none (leBytes n (opN o 0 n)) true)
/-- One lane's operation at its execution point. Operands: `atom`, `atomf`, `cntadd`: b; `cas`: expected (two words), new (two words); `stcond` and stores: data (two words). -/
def pointOp (s : State) (p : Point) (o : LaneOp) : OpOut × State :=
  let ag := agentOf p.iss o.lane
  match p.i with
  | .atom f =>
    let n := 2 ^ f.wid.toNat
    rmw s p o n 4 fun old =>
      (some (atomNew (f.aop.toNat % 32) (8 * n) old (opN o 0 n)), { writes := if f.aop.getLsbD 5 then [] else laneWrites o.lane f.d.toNat old (n / 4) })
  | .atomf f =>
    rmw s p o 4 4 fun old =>
      let (v, fl) := atomfNew (f.aop.toNat % 32) old (opN o 0 4)
      (some v, { writes := if f.aop.getLsbD 5 then [] else laneWrites o.lane f.d.toNat old 1, flags := [(o.lane, fl)] })
  | .cas f =>
    let n := 2 ^ f.wid.toNat
    rmw s p o n 4 fun old =>
      (if old = opN o 0 n then some (opN o 2 n) else none, { writes := laneWrites o.lane f.d.toNat old (n / 4) })
  | .ldres f =>
    let n := 2 ^ f.wid.toNat
    let (out, t) := rmw s p o n 4 fun old => (none, { writes := laneWrites o.lane f.d.toNat old (n / 4) })
    (out, match o.loc with
      | .mem pa => addResv t ag pa
      | _ => dropResv t ag)
  | .stcond f =>
    let n := 2 ^ f.wid.toNat
    match o.loc with
    | .peer pa =>
      let (b, _, t) := peerPoint s p o pa 1
      ({ writes := [⟨o.lane, f.d.toNat, (b.getD 0 0).setWidth 64 &&& 1⟩] }, t)
    | .mem pa =>
      let ok := holds s p.flight ag (pa / 16)
      let t := dropClaim s p.flight ag
      ({ writes := [⟨o.lane, f.d.toNat, if ok then 0 else 1⟩] }, if ok then pointWrite t p o (leBytes n (opN o 0 n)) else t)
    | _ => ({ writes := [⟨o.lane, f.d.toNat, 1⟩] }, s)
  | .stG f => storePoint s p o (2 ^ f.wid.toNat)
  | .stL f => storePoint s p o (2 ^ f.wid.toNat)
  | .stC f => storePoint s p o (2 ^ f.wid.toNat)
  | .stP f => storePoint s p o (2 ^ f.wid.toNat)
  | .cst f => storePoint s p o (2 ^ f.wid.toNat)
  | .forage f => forageAt s p o fun start size => laneWrites o.lane f.d.toNat (start + 2 ^ 64 * size) 4
  | .cntadd f =>
    match o.loc with
    | .ls a =>
      let (c, t) := advance s a (sextN (o.ops.getD 0 0).toNat (if f.wid = 2 then 32 else 64))
      ({ bad := match c with
        | some x => [(o.lane, x, o.va)]
        | none => [] }, t)
    | _ => ({}, s)
  | .catom f =>
    let n := 2 ^ f.wid.toNat
    let d := f.d.toNat
    rmw s p o n 6 fun old =>
      let b := opN o 0 n
      match f.mod.toNat with
      | 0 => (some (atomNew (f.ofs.toNat % 32) (8 * n) old b), { writes := if f.ofs.getLsbD 5 then [] else [⟨0, d, BitVec.ofNat 64 old⟩] })
      | 1 => (if old = b then some (opN o 1 n) else none, { writes := [⟨0, d, BitVec.ofNat 64 old⟩] })
      | _ => (some (atomfNew (f.ofs.toNat % 32) old b).1, { writes := if f.ofs.getLsbD 5 then [] else [⟨0, d, BitVec.ofNat 64 old⟩] })
  | .cforage f => forageAt s p o fun start size => [⟨0, f.d.toNat, BitVec.ofNat 64 start⟩, ⟨0, f.d.toNat + 1, BitVec.ofNat 64 size⟩]
  | _ => ({}, s)

/-- ORDR of an operation and its observer mask. -/
def pointOrder (i : Instr) : Nat × BitVec 7 :=
  match i with
  | .atom f => (f.ordr.toNat, f.obs)
  | .atomf f => (f.ordr.toNat, f.obs)
  | .cas f => (f.ordr.toNat, f.obs)
  | .ldres f => (f.ordr.toNat, f.obs)
  | .stcond f => (f.ordr.toNat, f.obs)
  | .forage f => (f.ordr.toNat, f.obs)
  | .cntadd f => (f.ordr.toNat, f.obs)
  | .catom f => (f.ordr.toNat, f.obs)
  | .cforage f => (f.ordr.toNat, f.obs)
  | _ => (0, 0)

/-- The acquire half of an order (R215). -/
def isAcq (o : Nat) : Bool := o = 2 || o = 4
/-- The release half (R214). -/
def isRel (o : Nat) : Bool := o = 3 || o = 4

/-- Drop the addressed granule of a global operation from the core's L1, its dirty bytes written back (R220). -/
def pointDrop (s : State) (iss : Issuer) (loc : Loc) (n : Nat) : State :=
  match issuerCore s iss, l1Addr loc with
  | some core, some a => l1DropGranule s core a n
  | _, _ => s
/-- Clean bytes of the granule that another access brought in since leave L1 as the operation executes (R212 limit 1). -/
def pointFresh (s : State) (iss : Issuer) (loc : Loc) (n : Nat) : State :=
  match issuerCore s iss, l1Addr loc with
  | some core, some a => l1FreshGranule s core a n
  | _, _ => s

/-- The self-check cause that a completion meets (13 R350): one injected in `softErrors`, in a range of codes. -/
def softTake (s : State) (lo hi : Nat) : Option Cause × State :=
  match s.softErrors.find? fun x => decide (lo ≤ x.toNat ∧ x.toNat ≤ hi) with
  | some x => (some x, { s with softErrors := s.softErrors.erase x })
  | none => (none, s)
/-- The self-check codes of an operation's slice arithmetic (13 R350): those of `forage`, else those of atomics; a store passes none. -/
def pointSoft (i : Instr) : Option Nat :=
  match i with
  | .forage _ => some 0x11F
  | .cforage _ => some 0x11F
  | .atom _ => some 0x11C
  | .atomf _ => some 0x11C
  | .cas _ => some 0x11C
  | .catom _ => some 0x11C
  | .cntadd _ => some 0x11C
  | _ => none
/-- Requests made since a number was the next carry who made them (14 R404): the PC, the address. -/
def nameAwaits (s : State) (from_ : Nat) (pc : VAddr) (a : BitVec 64) : State :=
  { s with awaits := s.awaits.map fun x => if from_ ≤ x.tag ∧ x.who ≠ .none then { x with pc := pc, addr := a } else x }

/-- An operation in flight executes at its execution point, contributors in ascending lane order (R220): its flight then only has to complete. -/
def runOps (s : State) (f : Flight) : State :=
  match f.kind with
  | .exec i ops key =>
    let (ordr, obs) := pointOrder i
    let (soft, s) := match pointSoft i with
      | some x => softTake s x x
      | none => (none, s)
    let p : Point := { iss := f.who, i := i, key := key, flight := f.id }
    let (out, t) : OpOut × State := match soft with
      | some x => (({ bad := ops.map fun (o : LaneOp) => (o.lane, x, o.va) } : OpOut), s)
      | none => ops.foldl (fun (acc : OpOut × State) o =>
        let (r, u) := pointOp (pointFresh acc.2 f.who o.loc 32) p o
        (acc.1.join r, nameAwaits u acc.2.nextId f.pc o.va)) (({} : OpOut), s)
    let t := if isAcq ordr then acquire t f.who obs else t
    { t with flights := t.flights.map fun x => if x.id = f.id then { x with kind := .load out.writes out.flags out.bad } else x }
  | _ => s

/-- Instructions that execute at an execution point (R220). -/
def isPoint : Instr → Bool
  | .atom _ => true
  | .atomf _ => true
  | .cas _ => true
  | .ldres _ => true
  | .stcond _ => true
  | .forage _ => true
  | .cntadd _ => true
  | _ => false
/-- The streams of two issuers are one warp or one cue thread. -/
def sameStream (a b : Issuer) : Bool :=
  match a, b with
  | .warp g w _, .warp g' w' _ => g == g' && w == w'
  | a, b => a == b

/-- The operations of a flight that are still on their way. -/
def execOps (f : Flight) : List LaneOp := match f.kind with
  | .exec _ ops _ => ops
  | _ => []
/-- The instruction of a flight that is still on its way executes at an execution point. -/
def pointFlight (f : Flight) : Bool := match f.kind with
  | .exec i _ _ => isPoint i
  | _ => false
/-- What port A issued beside an operation of port B, in the same clk and of the same warp: it executes first (R220). -/
def pointAhead (s : State) (f : Flight) : List Flight := if pointFlight f then s.flights.filter fun g => decide (g.id < f.id) && g.clk == f.clk && sameStream g.who f.who && pointFlight g else []
/-- EXECUTION of an operation in flight, as it stands now. -/
def runPoint (s : State) (f : Flight) : State :=
  (pointAhead s f ++ [f]).foldl (fun t g => match t.flights.find? fun h => h.id == g.id with
    | some h => runOps t h
    | none => t) s
/-- A flight still on its way is an acquire. -/
def execAcq (f : Flight) : Bool := match f.kind with
  | .exec i _ _ => isAcq (pointOrder i).1
  | _ => false
/-- Two places lie within the 32 bytes that an operation may reach. -/
def nearLoc (a b : Loc) : Bool :=
  let near := fun (x y : Nat) => decide (x < y + 32 ∧ y < x + 32)
  match a, b with
  | .mem x, .mem y => near x y
  | .ls x, .ls y => near x y
  | .host x, .host y => near x y
  | .peer x, .peer y => near x y
  | _, _ => false
/-- Every operation that a stream still has on its way is executed: a release or a fence waits for it (09 R214, R218). -/
def drainStream (s : State) (iss : Issuer) : State := (s.flights.filter fun f => sameStream f.who iss).foldl runPoint s
/-- What is executed before an access of a stream: its acquires on their way (R216), and its operations on the same bytes (08 R179). -/
def drainFor (s : State) (iss : Issuer) (locs : List Loc) : State :=
  (s.flights.filter fun f => sameStream f.who iss && (execAcq f || (execOps f).any fun o => locs.any (nearLoc o.loc))).foldl runPoint s
/-- Before an access to a strongly consistent page, those of the core that are still on their way (R219). -/
def drainCore (s : State) (iss : Issuer) : State :=
  match issuerCore s iss with
  | none => s
  | some core => (s.flights.filter fun f => decide (issuerCore s f.who = some core) && (execOps f).any (·.sc)).foldl runPoint s
/-- What an access of a stream waits for, given its places and their translations. -/
def beforeAccess (s : State) (iss : Issuer) (ps : List (Loc × Trans)) : State :=
  let t := drainFor s iss (ps.map (·.1))
  if ps.any fun (_, tr) => tr.sc then drainCore t iss else t

/-! ### Releases that wait for peers (09 R211 class P, R214 steps 2 and 3) -/

/-- A stream has a write to a peer's memory on its way. -/
def peerOnWay (s : State) (iss : Issuer) : Bool := s.flights.any fun f => sameStream f.who iss && (execOps f).any fun o => match o.loc with
  | .peer _ => true
  | _ => false
/-- A release whose mask names P waits until the peers have acknowledged the earlier writes of its core, the flushed ones included. -/
def relHold (s : State) (iss : Issuer) (obs : BitVec 7) : Bool :=
  obs.getLsbD 5 && (peerOnWay s iss || match issuerCore s iss with
    | some c => asking s c || peerDirty s c
    | none => s.awaits.any fun a => a.who == iss)
/-- What a held release does first: it sends what the peers must acknowledge. -/
def relFlush (s : State) (iss : Issuer) (obs : BitVec 7) : Option State :=
  if obs.getLsbD 5 && (peerOnWay s iss || (issuerCore s iss).any (peerDirty s)) then
    let t := drainStream s iss
    some (match issuerCore s iss with
      | some c => l1Flush t c
      | none => t)
  else none

/-! ### Completion -/

/-- Remove a flight. -/
def dropFlight (s : State) (id : Nat) : State := { s with flights := s.flights.filter fun f => !(f.id == id) }

/-- The instructions a flight's window still lets issue. -/
def windowLeft (ws : List Window) (id : Nat) : Nat := ((ws.find? fun x => x.flight == id).map (·.left)).getD 0

/-- Write the results of a warp's flight, record its failing lanes (due at the wait, R198) and close its windows. -/
def finishWarp (s : State) (f : Flight) (wg wi : Nat) (writes : List RegWrite) (flags : List (Nat × BitVec 7)) (bad : List (Nat × Cause × BitVec 64)) : State :=
  let t := updWarp s wg wi fun w =>
    let w := writes.foldl (fun w r => vset w r.reg r.lane (r.val.setWidth 32)) w
    let w := flags.foldl (fun w (l, fl) => mergeFlags w l fl) w
    let w := bad.foldl (fun w (l, c, a) => Warp_updThread w l fun th =>
      { th with deferred := th.deferred ++ [{ cause := c, addr := a, lanes := laneMask ((bad.filter fun (_, x, _) => x == c).map (·.1)), fpc := f.pc, tok := none, left := windowLeft th.windows f.id, engine := false, words := 0, stamp := f.id }] }) w
    { w with threads := w.threads.map fun th => { th with windows := doneWindow th.windows f.id } }
  dropFlight t f.id

/-- The same for a cue thread. -/
def finishCue (s : State) (f : Flight) (writes : List RegWrite) (bad : List (Nat × Cause × BitVec 64)) : State :=
  let t := updCue s f.who fun c =>
    let c := writes.foldl (fun c r => cset c r.reg r.val) c
    let new := bad.map fun (_, x, a) => (⟨x, a, 0, f.pc, none, windowLeft c.windows f.id, false, 0, f.id⟩ : Deferred)
    let c := { c with deferred := c.deferred ++ new }
    { c with windows := doneWindow c.windows f.id }
  dropFlight t f.id

/-- COMPLETION of a flight whose access has been performed. -/
def finishFlight (s : State) (f : Flight) : State :=
  let go := fun writes flags bad => match f.who with
    | .warp wg wi _ => finishWarp s f wg wi writes flags bad
    | _ => finishCue s f writes bad
  match f.kind with
  | .load w fl b => go w fl b
  | .vsfu u w fl => (match softTake s (0x10C + u) (0x10C + u), f.who with
    | (some x, t), .warp wg wi lanes => finishWarp t f wg wi [] [] (lanes.map fun l => (l, x, 0))
    | _, _ => go w fl [])
  | .plain => go [] [] []
  | _ => s

/-- A flight by number. -/
def findFlight (s : State) (id : Nat) : Option Flight := s.flights.find? fun f => f.id == id

end Sys2Proof.Machine
end

