-- ==== Sys2Proof/Machine/WarpMemory.lean ====
section
/-! DEFINITION. The meanings of the memory instructions of the warp stream (08 R204 to R208). Loads take their value and weak stores take effect at issue; strong stores act at their execution point; results and integrity causes arrive at completion (log 25). -/

namespace Sys2Proof.Machine

/-- The space an address reaches: a global address in a window is an access of that space (08 R175). -/
def spaceAt (sp : Space) (a : Nat) : Space :=
  match sp, windowOf a with
  | .global, 1 => .local_
  | .global, 2 => .cluster
  | x, _ => x

/-- The accesses of an M-layout instruction: one per contributor (R177). -/
def accs (s : State) (c : WCtx) (f : MF) (m : MA) (sp : Space) (n : Nat) (w : Bool) : List LAcc :=
  c.cs.map fun l => let a := mAddr (passW c l) f m (sp == .priv) l; ⟨l, a, place s (WCtx_iss c) sp c.wi l a n w⟩

/-- The virtual address that an access translates. -/
def accVa (c : WCtx) (sp : Space) (lane a : Nat) : Nat := if sp = .priv then (privBase c.g.lrec c.k c.wi lane + a) % 2 ^ 57 else a

/-- The lanes whose access has a place. -/
def placed (l : List LAcc) : List (Nat × Nat × Loc × Trans) := l.filterMap fun a => match a.acc with
  | .ok loc t => some (a.lane, a.addr, loc, t)
  | _ => none

/-- The memory and lock causes of an access (13 R346 steps 8 to 10). -/
def accessCause (s : State) (c : WCtx) (sp : Space) (n : Nat) (w rmw : Bool) (l : List LAcc) : Option OwnC :=
  firstC [if w && !rmw then versionFault s c n l else none, failingIn s (WCtx_iss c) sp c.wi (firstC [memFault l, lockFault s (WCtx_iss c) (spaceAt sp) n w rmw l])]

/-- A strong load that is performed at home (09 R215): an acquire, or one whose mask goes beyond T. -/
def homeRead (f : MF) : Bool := f.ordr ≠ 0 && (f.ordr = 2 || obsBeyondT f.obs)

/-- The value a load writes (08 R178). -/
def loadVal (f : MF) (v : Nat) : Nat :=
  let w := 8 * 2 ^ f.wid.toNat
  if w < 32 && f.sx = 1 then (wrap 32 (sextN v w)).toNat else v

/-- One lane's read (08 R198): registers, or a recorded cause. -/
def takeLane (s : State) (iss : Issuer) (f : MF) (sp : Space) (lane a : Nat) (loc : Loc) (t : Trans) : OpOut × State :=
  let (bs, cap, u) := loadAt s iss loc t (2 ^ f.wid.toNat) (homeRead f)
  match integrityCause (Space_num (spaceAt sp a)) cap with
  | some k =>
    let at_ := match sp, iss with
      | .priv, .warp _ wi _ => privFailing s iss wi lane a k
      | _, _ => a
    ({ bad := [(lane, k, BitVec.ofNat 64 at_)] }, u)
  | none => ({ writes := laneWrites lane f.d.toNat (loadVal f (leNat bs)) (widRegs f.wid.toNat) }, u)

/-- A granule that an earlier parked load waits for (08 R185: served in arrival order). -/
def feAhead (s : State) (id g : Nat) : Bool := s.flights.any fun f => decide (f.id < id) && match f.kind with
  | .fullEmpty _ w _ _ => w.any fun o => match o.loc with
    | .ls a => a / 16 == g
    | _ => false
  | _ => false

/-- Serve the lanes of a waiting load whose granule is full, in lane order; the rest wait on (R185). -/
def feServe (s : State) (iss : Issuer) (f : MF) (sp : Space) (id : Nat) (waiting : List LaneOp) : OpOut × List LaneOp × State :=
  waiting.foldl (fun (acc : OpOut × List LaneOp × State) o =>
    let (out, left, s) := acc
    match o.loc with
    | .ls a =>
      if feGet s (a / 16) && !feAhead s id (a / 16) then
        let (r, t) := takeLane s iss f sp o.lane o.va.toNat o.loc Trans_none
        (out.join r, left, if f.fe = 2 then feSet t (a / 16) false else t)
      else (out, left ++ [o], s)
    | _ => (out, left, s)) (({} : OpOut), [], s)
/-- Some granule that a parked load waits for is full and nobody waits there before it. -/
def feServable (s : State) (id : Nat) (waiting : List LaneOp) : Bool :=
  waiting.any fun o => match o.loc with
    | .ls a => feGet s (a / 16) && !feAhead s id (a / 16)
    | _ => true
/-- The places and translations of a group's accesses. -/
def placesOf (l : List LAcc) : List (Loc × Trans) := (placed l).map fun (_, _, loc, tr) => (loc, tr)

/-- A load's effect: read, then a window until completion; or a park on full/empty bits. An acquire self-invalidates when its reads have been performed (09 R215). -/
def loadEff (i : Instr) (f : MF) (sp : Space) (m : MA) (c : WCtx) (s : State) : State :=
  let iss := WCtx_iss c
  let n := instrLen f.l
  if f.fe ≠ 0 then
    let t := updThreads s c.wg c.wi (c.lanes.filter fun l => !c.cs.contains l) (stepThread n)
    if c.cs = [] then emptyFlight t c i false false
    else
      let l := accs t c f m sp (2 ^ f.wid.toNat) false
      let t := beforeAccess t iss (placesOf l)
      let ops : List LaneOp := (placed l).map fun (l, a, loc, tr) => ⟨l, loc, BitVec.ofNat 64 a, [], tr.sc⟩
      let (out, left, t) := feServe t iss f sp t.nextId ops
      if left = [] then
        let t := if f.ordr = 2 then acquire t iss f.obs else t
        launchFlight (updThreads t c.wg c.wi c.cs (stepThread n)) c i (.load out.writes out.flags out.bad) false false
      else
        let (id, t) := addFlight t iss c.pc f.look.toNat (.fullEmpty i left out.writes out.bad)
        let t := openIn t c (c.lanes.filter fun l => !c.cs.contains l) id f.look.toNat (WCtx_use c i) false false
        updThreads t c.wg c.wi c.cs fun th => { th with park := some (.fullEmpty id (left.length < ops.length)), plen := n }
  else if c.cs = [] then emptyFlight s c i false (sp == .priv)
  else
    let l := accs s c f m sp (2 ^ f.wid.toNat) false
    let t := beforeAccess s iss (placesOf l)
    let (out, t) := (placed l).foldl (fun (acc : OpOut × State) (l, a, loc, tr) =>
      let (r, u) := takeLane acc.2 iss f sp l a loc tr
      (acc.1.join r, touchTlb u iss (accVa c sp l a) tr)) (({} : OpOut), t)
    let t := if f.ordr = 2 then acquire t iss f.obs else t
    launchFlight t c i (.load out.writes out.flags out.bad) false (sp == .priv)

/-- A load of a space. -/
def loadOp (i : Instr) (f : MF) (sp : Space) (m : MA) : WOp :=
  { i := i
    stay := f.fe ≠ 0
    rest := fun s c => accessCause s c sp (2 ^ f.wid.toNat) false false (accs s c f m sp (2 ^ f.wid.toNat) false)
    hold := fun s c => anyWait (accs s c f m sp (2 ^ f.wid.toNat) false)
    eff := loadEff i f sp m }

/-- A store that has issued is still on its way to its visibility point: a strong one beyond T, or one to a strongly consistent page; a version takes its task's at once (09 R211, R219). -/
def onItsWay (c : WCtx) (strong : Bool) (loc : Loc) (t : Trans) : Bool :=
  (strong || t.sc) && match loc with
    | .mem _ => !c.k.taskOn
    | .host _ => true
    | .peer _ => true
    | _ => false
/-- The release that comes before an operation of a stream, or what else its accesses wait for (09 R214, R216, R219). -/
def orderBefore (s : State) (iss : Issuer) (rel : Bool) (obs : BitVec 7) (ps : List (Loc × Trans)) : State :=
  if rel then
    let t := release (drainStream s iss) iss obs
    if ps.any fun (_, tr) => tr.sc then drainCore t iss else t
  else beforeAccess s iss ps
/-- The marks of a versioned task that a store to a peer or to the host leaves (13 R351). -/
def markStores (s : State) (c : WCtx) (locs : List Loc) (look : Nat) : State :=
  let t := if locs.any (fun x => match x with
    | .peer _ => true
    | _ => false) then markTask s c 4 look else s
  if locs.any (fun x => match x with
    | .host _ => true
    | _ => false) then markTask t c 5 look else t

/-- A store's effect (08 R204, 09 R214): a release first, then the lanes in ascending order; the data registers stay pending until completion. -/
def storeEff (i : Instr) (f : MF) (sp : Space) (m : MA) (c : WCtx) (s : State) : State :=
  if c.cs = [] then emptyFlight s c i false (sp == .priv)
  else
    let iss := WCtx_iss c
    let n := 2 ^ f.wid.toNat
    let strong := f.ordr ≠ 0 && obsBeyondT f.obs
    let t := orderBefore s iss (f.ordr = 3) f.obs (placesOf (accs s c f m sp n true))
    let ps := placed (accs t c f m sp n true)
    let t := ps.foldl (fun t (l, a, loc, tr) =>
      let t := touchTlb t iss (accVa c sp l a) tr
      if onItsWay c strong loc tr then t
      else
        let u := storeAt t iss l loc tr (leBytes n (vgetN c.w f.d.toNat l (widRegs f.wid.toNat))) strong (c.pc, BitVec.ofNat 64 (accVa c sp l a))
        match loc with
        | .ls x => if f.fe = 3 then feSetAll u x n true else u
        | _ => u) t
    let t := markStores t c (ps.map fun (_, _, loc, _) => loc) f.look.toNat
    let ops : List LaneOp := (ps.filter fun (_, _, loc, tr) => onItsWay c strong loc tr).map fun (l, a, loc, tr) =>
      ⟨l, loc, BitVec.ofNat 64 (accVa c sp l a), [BitVec.ofNat 64 (vgetN c.w f.d.toNat l (widRegs f.wid.toNat)), BitVec.ofNat 64 (vgetN c.w f.d.toNat l (widRegs f.wid.toNat) / 2 ^ 64)], tr.sc⟩
    launchFlight t c i (if ops = [] then .plain else .exec i ops (issuerKey s iss)) false (sp == .priv)

/-- A store of a space. -/
def storeOp (i : Instr) (f : MF) (sp : Space) (m : MA) : WOp :=
  { i := i
    rest := fun s c => accessCause s c sp (2 ^ f.wid.toNat) true false (accs s c f m sp (2 ^ f.wid.toNat) true)
    hold := fun s c => anyWait (accs s c f m sp (2 ^ f.wid.toNat) true) || (c.cs != [] && f.ordr = 3 && relHold s (WCtx_iss c) f.obs)
    prep := fun s c => if f.ordr = 3 then relFlush s (WCtx_iss c) f.obs else none
    eff := storeEff i f sp m }

/-- `ld.g` (R204). -/
def opLdG (f : MF) : WOp := loadOp (.ldG f) f .global .base
def execLdG (f : MF) (s : State) : Host.Outcome State Fault Refusal := warpIssue (opLdG f) s
/-- `st.g` (R204). -/
def opStG (f : MF) : WOp := storeOp (.stG f) f .global .base
def execStG (f : MF) (s : State) : Host.Outcome State Fault Refusal := warpIssue (opStG f) s
/-- `ld.l` (R204). -/
def opLdL (f : MF) : WOp := loadOp (.ldL f) f .local_ .off
def execLdL (f : MF) (s : State) : Host.Outcome State Fault Refusal := warpIssue (opLdL f) s
/-- `st.l` (R204). -/
def opStL (f : MF) : WOp := storeOp (.stL f) f .local_ .off
def execStL (f : MF) (s : State) : Host.Outcome State Fault Refusal := warpIssue (opStL f) s
/-- `ld.c` (R204). -/
def opLdC (f : MF) : WOp := loadOp (.ldC f) f .cluster .off
def execLdC (f : MF) (s : State) : Host.Outcome State Fault Refusal := warpIssue (opLdC f) s
/-- `st.c` (R204). -/
def opStC (f : MF) : WOp := storeOp (.stC f) f .cluster .off
def execStC (f : MF) (s : State) : Host.Outcome State Fault Refusal := warpIssue (opStC f) s
/-- `ld.p` (R204). -/
def opLdP (f : MF) : WOp := loadOp (.ldP f) f .priv .off
def execLdP (f : MF) (s : State) : Host.Outcome State Fault Refusal := warpIssue (opLdP f) s
/-- `st.p` (R204). -/
def opStP (f : MF) : WOp := storeOp (.stP f) f .priv .off
def execStP (f : MF) (s : State) : Host.Outcome State Fault Refusal := warpIssue (opStP f) s

/-- The line that a contributor of `pf`, `l1wb` or `l1inv` names: its place, by which L1 numbers it, and its translation; none for an address that does not translate or lies in a window (R205, R207). -/
def lineAt (s : State) (c : WCtx) (f : MF) (lane : Nat) : Option (Loc × Nat × Trans) :=
  let a := mAddr (passW c lane) f .base false lane
  if windowOf a ≠ 0 ∨ 2 ^ 57 ≤ a then none
  else match placeVa s (WCtx_iss c) .global a 0 with
    | .ok loc t => (l1Addr loc).map fun x => (loc, x, t)
    | _ => none
/-- One line prefetched (R205): into its home slice under the warp's key, and with SX = 0 into the core's L1 too. A line resident there is untouched. -/
def prefetch (s : State) (c : WCtx) (comb : Bool) (va : Nat) (loc : Loc) (a : Nat) (tr : Trans) : State :=
  let poisoned := match loc with
    | .mem pa => homeCap s (pa / 16) = .poison
    | _ => false
  if va % 4 ≠ 0 || poisoned then s
  else
    let key := issuerKey s (WCtx_iss c)
    let t := match loc with
      | .mem pa => if s.comb.any fun x => x.line == pa / 128 then s else combRead s (pa / 128 * 128) 128 key
      | _ => s
    if comb || tr.sc || (l1Find t c.k.core (a / 128)).isSome then t
    else
      let (ln, u) := l1Take t c.k.core (a / 128) tr.imm
      match l1Fill u ln key with
      | (some ln, u) => touchTlb (l1Put u ln) (WCtx_iss c) va tr
      | (none, u) => { u with l1 := u.l1.filter fun x => x.valid ≠ 0 }

/-- `pf` (R205): it completes as it issues, and its window delays nothing. -/
def opPf (f : MF) : WOp :=
    { i := .pf f
      eff := fun c s => c.cs.foldl (fun t l =>
        match lineAt t c f l with
        | some (loc, a, tr) => prefetch t c (f.sx = 1) (mAddr (passW c l) f .base false l) loc a tr
        | none => t) s }
def execPf (f : MF) (s : State) : Host.Outcome State Fault Refusal := warpIssue (opPf f) s

/-- The granule accesses of `fe` (R206): kind write, no alignment. Address bits [3:0] are ignored, so a cause reports the granule's address (DESIGN CHOICE: log 89). -/
def feAccs (s : State) (c : WCtx) (f : MF) (sp : Space) : List LAcc :=
  c.cs.map fun l => let a := mAddr (passW c l) f .off false l / 16 * 16; ⟨l, a, place s (WCtx_iss c) sp c.wi l a 16 true⟩
/-- Space of the SX bit. -/
def sxSpace (f : MF) : Space := if f.sx = 1 then .cluster else .local_

/-- `fe` (R206): contributors act in ascending lane order. -/
def opFe (f : MF) : WOp :=
    { i := .fe f
      rest := fun s c => accessCause s c (sxSpace f) 16 true true (feAccs s c f (sxSpace f))
      hold := fun s c => c.cs != [] && isRel f.ordr.toNat && relHold s (WCtx_iss c) f.obs
      prep := fun s c => if isRel f.ordr.toNat then relFlush s (WCtx_iss c) f.obs else none
      eff := fun c s =>
        if c.cs = [] then emptyFlight s c (.fe f) false false
        else
          let iss := WCtx_iss c
          let t := orderBefore s iss (isRel f.ordr.toNat) f.obs (placesOf (feAccs s c f (sxSpace f)))
          let (out, t) := (placed (feAccs t c f (sxSpace f))).foldl (fun (acc : OpOut × State) (l, _, loc, _) =>
            match loc with
            | .ls a =>
              let g := a / 16
              let old : OpOut := { writes := [⟨l, f.d.toNat, if feGet acc.2 g then 1 else 0⟩] }
              match f.fe.toNat with
              | 0 => (acc.1.join old, acc.2)
              | 1 => (acc.1, feSet acc.2 g false)
              | 2 => (acc.1.join old, feSet acc.2 g false)
              | _ => (acc.1, feSet acc.2 g true)
            | _ => acc) (({} : OpOut), t)
          let t := if isAcq f.ordr.toNat then acquire t iss f.obs else t
          launchFlight t c (.fe f) (.load out.writes [] []) false false }
def execFe (f : MF) (s : State) : Host.Outcome State Fault Refusal := warpIssue (opFe f) s

/-- Write back the lines that a core's group names, or all of them (R207). -/
def writeBackLines (s : State) (c : WCtx) (f : MF) : State :=
  if f.sx = 1 then l1Flush s c.k.core
  else c.cs.foldl (fun t l => match lineAt t c f l with
    | some (_, a, _) => (match l1Find t c.k.core (a / 128) with
      | some ln => l1WriteBack t ln
      | none => t)
    | none => t) s
/-- `l1wb` (R207). -/
def opL1wb (f : MF) : WOp :=
    { i := .l1wb f
      eff := fun c s => if c.cs = [] then emptyFlight s c (.l1wb f) false false else launchFlight (writeBackLines s c f) c (.l1wb f) .plain false false }
def execL1wb (f : MF) (s : State) : Host.Outcome State Fault Refusal := warpIssue (opL1wb f) s

/-- Self-invalidate the lines that a core's group names, or all of them (R207). -/
def invalidateLines (s : State) (c : WCtx) (f : MF) : State :=
  if f.sx = 1 then l1Inv s c.k.core
  else c.cs.foldl (fun t l => match lineAt t c f l with
    | some (_, a, _) => l1InvLine t c.k.core (a / 128)
    | none => t) s
/-- `l1inv` (R207). -/
def opL1inv (f : MF) : WOp :=
    { i := .l1inv f
      eff := fun c s => if c.cs = [] then emptyFlight s c (.l1inv f) false false else launchFlight (invalidateLines s c f) c (.l1inv f) .plain false false }
def execL1inv (f : MF) (s : State) : Host.Outcome State Fault Refusal := warpIssue (opL1inv f) s

/-- `kvkey` (R208). -/
def opKvkey (f : VF) : WOp :=
    { i := .kvkey f
      eff := fun c s => if c.cs = [] then s else updWarp s c.wg c.wi fun w => { w with kvkey := BitVec.ofNat 16 (operand c.w f f.a 6 1 0) } }
def execKvkey (f : VF) (s : State) : Host.Outcome State Fault Refusal := warpIssue (opKvkey f) s

/-! ### Events -/

/-- `MEMORY_ACCESS_COMPLETION` (R204, 02 R55). -/
def execMemoryAccessCompletion (flight : Nat) (s : State) : Host.Outcome State Fault Refusal :=
  match findFlight s flight with
  | some f => (match f.kind with
    | .vsfu _ _ _ => .next s
    | _ => .next (finishFlight s f))
  | none => .next s

/-- `VSFU_COMPLETION` (04 R102). -/
def execVsfuCompletion (flight : Nat) (s : State) : Host.Outcome State Fault Refusal :=
  match findFlight s flight with
  | some f => (match f.kind with
    | .vsfu _ _ _ => .next (finishFlight s f)
    | _ => .next s)
  | none => .next s

/-- `EXECUTION_POINT_OPERATION` (09 R220). -/
def execExecutionPointOperation (flight : Nat) (s : State) : Host.Outcome State Fault Refusal :=
  match findFlight s flight with
  | some f => .next (runPoint s f)
  | none => .next s

/-- `WRITE_BACK_MERGE` (R197): an L1 line's dirty bytes are merged at home. -/
def execWriteBackMerge (core line : Nat) (s : State) : Host.Outcome State Fault Refusal :=
  match l1Find s core line with
  | some l => .next (l1WriteBack s l)
  | none => .next s

/-- `RESERVATION_TIMEOUT` (09 R221): lost 4,096 clk after it was registered. -/
def execReservationTimeout (s : State) : Host.Outcome State Fault Refusal :=
  .next { s with resv := s.resv.filter fun r => !decide (r.at_ + 4096 ≤ s.clk) }

/-- The space and fields of a load parked on full/empty bits. -/
def feLoad : Instr → Option (MF × Space)
  | .ldL f => some (f, .local_)
  | .ldC f => some (f, .cluster)
  | _ => none

/-- Unpark the threads of a flight and open its window (R185). -/
def openAfterPark (s : State) (f : Flight) (i : Instr) : State :=
  match f.who with
  | .warp wg wi lanes =>
    let u := warpUse 32 (fun _ => 0) i
    updThreads s wg wi lanes fun th =>
      let th := stepThread th.plen { th with park := none }
      { th with windows := th.windows ++ [{ flight := f.id, left := f.look, wr := u.wv, rd := u.pend, isSvc := false, isPriv := false, done := false }] }
  | _ => s

/-- Threads of a load of which a granule has been read: the load runs to completion before they can be taken (R185). -/
def nowServed (s : State) (f : Flight) : State :=
  match f.who with
  | .warp wg wi lanes => updThreads s wg wi lanes fun th => { th with park := some (.fullEmpty f.id true) }
  | _ => s

/-- `FULL_EMPTY_SERVE` (R185): an acquire self-invalidates when its last read is performed (09 R215). -/
def execFullEmptyServe (flight : Nat) (s : State) : Host.Outcome State Fault Refusal :=
  match findFlight s flight with
  | some f => (match f.kind with
    | .fullEmpty i waiting writes bad => (match feLoad i with
      | some (mf, sp) =>
        let (out, left, t) := feServe s f.who mf sp f.id waiting
        let t := if left = [] && mf.ordr = 2 then acquire t f.who mf.obs else t
        let k := if left = [] then FlightKind.load (writes ++ out.writes) [] (bad ++ out.bad) else .fullEmpty i left (writes ++ out.writes) (bad ++ out.bad)
        let t := { t with flights := t.flights.map fun x => if x.id = f.id then { x with kind := k } else x }
        .next (if left = [] then openAfterPark t f i else if left.length < waiting.length then nowServed t f else t)
      | none => .next s)
    | _ => .next s)
  | none => .next s

end Sys2Proof.Machine
end

