-- ==== Sys2Proof/Machine/WarpControl.lean ====
section
/-! DEFINITION. The meanings of the control-flow instructions of the warp stream (07 R160 to R173). -/

namespace Sys2Proof.Machine

/-- The thread of a lane in a context. -/
def WCtx_th (c : WCtx) (lane : Nat) : Option Thread := c.w.threads[lane]?
/-- The contributors whose thread satisfies a condition. -/
def WCtx_who (c : WCtx) (p : Thread → Bool) : List Nat := c.cs.filter fun l => match WCtx_th c l with
  | some th => p th
  | none => false
/-- A cause for the contributors that meet a condition. -/
def causeOf (cause : Cause) (lanes : List Nat) : Option OwnC := if lanes = [] then none else some ⟨cause, 0, lanes⟩

/-- PC-relative target (R165). -/
def relTarget (pc : VAddr) (imm : Word) : VAddr := pc + BitVec.ofInt 57 (4 * imm.toInt)

/-- `bra` (R165). -/
def opBra (f : IF) : WOp := { i := .bra f, eff := fun c s => updThreads s c.wg c.wi c.cs (jumpThread (relTarget c.pc f.imm)) }
def execBra (f : IF) (s : State) : Host.Outcome State Fault Refusal := warpIssue (opBra f) s

/-- The private offset of a spill (R160). -/
def spillAt (th : Thread) : Nat := (th.sp.toNat + 2 ^ 32 - 8) % 2 ^ 32
/-- The accesses of the spills of a call (R162). -/
def spillAccs (s : State) (c : WCtx) : List LAcc :=
  (WCtx_who c fun th => th.rstack.length ≥ 4).filterMap fun l => (WCtx_th c l).map fun th => ⟨l, spillAt th, place s (WCtx_iss c) .priv c.wi l (spillAt th) 8 true⟩
/-- Push a return address, spilling the oldest of four by a private store of the thread (R160, R162). -/
def pushReturn (s : State) (c : WCtx) (ra : VAddr) (lane : Nat) : State :=
  match WCtx_th c lane with
  | none => s
  | some th =>
    let t :=
      if th.rstack.length ≥ 4 then
        match place s (WCtx_iss c) .priv c.wi lane (spillAt th) 8 true with
        | .ok loc tr =>
          let va := accVa c .priv lane (spillAt th)
          let t := touchTlb s (WCtx_iss c) va tr
          nameAwaits (storeAt t (WCtx_iss c) lane loc tr (leBytes 8 (th.rstack.getLastD 0).toNat) false) t.nextId c.pc (BitVec.ofNat 64 va)
        | _ => s
      else s
    updThread t c.wg c.wi lane fun x =>
      { x with rstack := ra :: (if th.rstack.length ≥ 4 then th.rstack.dropLast else th.rstack), depth := x.depth + 1,
               sp := if th.rstack.length ≥ 4 then BitVec.ofNat 32 (spillAt th) else x.sp }
/-- The contributors of a call push their return addresses, as private stores of each (R162). -/
def pushReturns (s : State) (c : WCtx) (ra : VAddr) : State :=
  let l := spillAccs s c
  let t := c.cs.foldl (fun t l => pushReturn t c ra l) (if l = [] then s else beforeAccess s (WCtx_iss c) (placesOf l))
  markStores t c ((placed l).map fun (_, _, loc, _) => loc) 0
/-- The return depth is full (0x02C). -/
def depthFull (c : WCtx) : Option OwnC := causeOf 0x02C (WCtx_who c fun th => th.depth == 0xFFFF)
/-- Causes of the spills of a call. -/
def spillRest (s : State) (c : WCtx) : Option OwnC :=
  firstC [versionFault s c 8 (spillAccs s c), failingIn s (WCtx_iss c) .priv c.wi (firstC [memFault (spillAccs s c), lockFault s (WCtx_iss c) (fun _ => .priv) 8 true false (spillAccs s c)])]

/-- `call` (R165). -/
def opCall (f : IF) : WOp :=
    { i := .call f
      c1 := fun _ c => depthFull c
      rest := spillRest
      hold := fun s c => anyWait (spillAccs s c)
      eff := fun c s => updThreads (pushReturns s c (c.pc + 8)) c.wg c.wi c.cs (jumpThread (relTarget c.pc f.imm)) }
def execCall (f : IF) (s : State) : Host.Outcome State Fault Refusal := warpIssue (opCall f) s

/-- The lane target of `brx` and `callx` (R166). -/
def laneTarget (c : WCtx) (f : VF) (lane : Nat) : Nat := operand (laneW c f lane) f f.a f.pa 2 lane % 2 ^ 57
/-- Lanes with a misaligned target (0x02A). -/
def badTargets (c : WCtx) (f : VF) : Option OwnC := causeOf 0x02A (c.cs.filter fun l => laneTarget c f l % 4 ≠ 0)
/-- Transfer each contributor to its own target. -/
def jumpLanes (s : State) (c : WCtx) (f : VF) : State :=
  c.cs.foldl (fun t l => updThread t c.wg c.wi l (jumpThread (BitVec.ofNat 57 (laneTarget c f l)))) s

/-- `brx` (R166). -/
def opBrx (f : VF) : WOp := { i := .brx f, c1 := fun _ c => badTargets c f, eff := fun c s => jumpLanes s c f }
def execBrx (f : VF) (s : State) : Host.Outcome State Fault Refusal := warpIssue (opBrx f) s

/-- `callx` (R166). -/
def opCallx (f : VF) : WOp :=
    { i := .callx f
      c1 := fun _ c => firstC [badTargets c f, depthFull c]
      rest := spillRest
      hold := fun s c => anyWait (spillAccs s c)
      eff := fun c s => jumpLanes (pushReturns s c (c.pc + BitVec.ofNat 57 (4 * instrLen f.l))) c f }
def execCallx (f : VF) (s : State) : Host.Outcome State Fault Refusal := warpIssue (opCallx f) s

/-- The lanes of a `ret` that must refill (R161), with their accesses. -/
def refillAccs (s : State) (c : WCtx) : List LAcc :=
  (WCtx_who c fun th => th.rstack == [] && th.depth != 0).filterMap fun l => (WCtx_th c l).map fun th => ⟨l, th.sp.toNat, place s (WCtx_iss c) .priv c.wi l th.sp.toNat 8 false⟩
/-- The refills, as private loads of each thread (R162): lane, value, check; and the state they leave. -/
def refillLoads (s : State) (c : WCtx) : List (Nat × Nat × CapState) × State :=
  let l := refillAccs s c
  (placed l).foldl (fun (acc : List (Nat × Nat × CapState) × State) (lane, a, loc, tr) =>
    let (b, k, u) := loadAt acc.2 (WCtx_iss c) loc tr 8 false
    (acc.1 ++ [(lane, leNat b, k)], touchTlb u (WCtx_iss c) (accVa c .priv lane a) tr)) (([] : List (Nat × Nat × CapState)), if l = [] then s else beforeAccess s (WCtx_iss c) (placesOf l))
/-- The precise integrity cause of a refill (0x0C5, 0x0D5). -/
def refillCap (s : State) (c : WCtx) : Option OwnC :=
  let bad := (refillLoads s c).1.filterMap fun (l, _, k) => (integrityCause 5 k).map fun x => (l, x)
  match bad with
  | [] => none
  | (l, x) :: _ => some ⟨x, match WCtx_th c l with
    | some th => th.sp.setWidth 64
    | none => 0, (bad.filter fun (_, y) => y == x).map (·.1)⟩

/-- `ret` (R167): the depth of every thread is tested before any target; threads with an entry return at once, the others wait for their refill. -/
def opRet (f : VF) : WOp :=
    { i := .ret f
      stay := true
      c1 := fun s c => firstC [
        causeOf 0x02B (WCtx_who c fun th => th.depth == 0),
        causeOf 0x02A ((WCtx_who c fun th => match th.rstack with
          | t :: _ => decide (t.toNat % 4 ≠ 0)
          | [] => false) ++ ((refillLoads s c).1.filterMap fun (l, v, k) => if k == .good && v % 4 ≠ 0 then some l else none))]
      rest := fun s c => failingIn s (WCtx_iss c) .priv c.wi (firstC [memFault (refillAccs s c), lockFault s (WCtx_iss c) (fun _ => .priv) 8 false false (refillAccs s c), refillCap s c])
      hold := fun s c => anyWait (refillAccs s c)
      eff := fun c s =>
        let (loads, t) := refillLoads s c
        let t := updThreads t c.wg c.wi (c.lanes.filter fun l => !c.cs.contains l) (stepThread (instrLen f.l))
        let t := updThreads t c.wg c.wi (WCtx_who c fun th => th.rstack != []) fun th =>
          jumpThread (th.rstack.headD 0) { th with rstack := th.rstack.tail, depth := th.depth - 1 }
        if loads = [] then t
        else
          let (n, u) := addFlight t (.warp c.wg c.wi (loads.map (·.1))) c.pc 0 (.refill (loads.map fun (l, v, _) => (l, BitVec.ofNat 64 v)))
          updThreads u c.wg c.wi (loads.map (·.1)) fun th => { th with park := some (.refill n) } }
def execRet (f : VF) (s : State) : Host.Outcome State Fault Refusal := warpIssue (opRet f) s

/-- Release a parked thread past its instruction. -/
def unpark (th : Thread) : Thread := stepThread th.plen { th with park := none }

/-- The `join` a thread is parked at: its PC, deadline and predicate. -/
def joinOf (th : Thread) : Option (VAddr × Option Nat × Nat) :=
  match th.park with
  | some (.join d p _) => some (th.pc, d, p)
  | _ => none

/-- Release the threads of a `join` with a predicate value (R168): they are ready from the next clk, the cadence of R54 being that of the warp on each port. -/
def joinRelease (w : Warp) (lanes : List Nat) (b : Bool) : Warp :=
  lanes.foldl (fun w l => match (w.threads[l]?).bind joinOf with
    | some (_, _, p) => Warp_updThread (pset w p l b) l fun th => { unpark th with nextAt := 0 }
    | none => w) w

/-- The examination of R168 at the end of a clk: convergence first, then deadlines. -/
def joinExamine (s : State) (wg wi : Nat) : State :=
  updWarp s wg wi fun w =>
    let live := Warp_live w
    let at_ := fun l => ((w.threads[l]?).bind joinOf).map (·.1)
    match live.head?.bind at_ with
    | some pc => if live.all (fun l => at_ l == some pc) then joinRelease w live true else late w live
    | none => late w live
where
  late (w : Warp) (live : List Nat) : Warp :=
    joinRelease w (live.filter fun l => match (w.threads[l]?).bind joinOf with
      | some (_, some d, _) => decide (d ≤ s.clk)
      | _ => false) false

/-- The end of a clk releases some thread of a warp from its `join`: all live threads are parked at one, or a deadline is at or before this clk. -/
def joinDue (s : State) (w : Warp) : Bool :=
  let live := Warp_live w
  let at_ := fun l => ((w.threads[l]?).bind joinOf).map (·.1)
  (live.any fun l => match (w.threads[l]?).bind joinOf with
    | some (_, some d, _) => decide (d ≤ s.clk)
    | _ => false) || match live.head?.bind at_ with
    | some pc => live.all fun l => at_ l == some pc
    | none => false

/-- `join` (R168): contributors park until the end of a clk releases them; the others go on at once. -/
def opJoin (f : IF) : WOp :=
    { i := .join f
      stay := true
      eff := fun c s =>
        let dl := if f.imm = 0xFFFFFFFF then none else some (s.clk + f.imm.toNat)
        let t := updThreads s c.wg c.wi (c.lanes.filter fun l => !c.cs.contains l) (stepThread 2)
        updThreads t c.wg c.wi c.cs fun th => { th with park := some (.join dl (f.d.toNat % 8) c.pc) } }
def execJoin (f : IF) (s : State) : Host.Outcome State Fault Refusal := warpIssue (opJoin f) s

/-- Pop the oldest entry into a uniform pair and release the warp (R171). -/
def popPair (w : Warp) (d : Nat) : Warp :=
  match w.dq with
  | [] => w
  | e :: r =>
    let w := ssetN { w with dq := r } d e.toNat 2
    Warp_updThreads w (Warp_live w) unpark

/-- `dqpop` (R171): the warp parks while the queue is empty. -/
def opDqpop (f : VF) : WOp :=
    { i := .dqpop f
      conv := true
      stay := true
      eff := fun c s =>
        if c.w.dq = [] then updThreads s c.wg c.wi c.lanes fun th => { th with park := some (.dqpop f.d.toNat) }
        else updWarp s c.wg c.wi fun w => popPair w f.d.toNat }
def execDqpop (f : VF) (s : State) : Host.Outcome State Fault Refusal := warpIssue (opDqpop f) s

/-- The target of an entry of `dqbr` (R172). -/
def dqTarget (g : Grid) (e : DWord) : VAddr := BitVec.ofNat 57 (g.lrec.wstream + e.toNat % 2 ^ 32)
/-- Pop the oldest entry and branch every thread (R172). -/
def popBranch (g : Grid) (w : Warp) (d : Option Nat) : Warp :=
  match w.dq with
  | [] => w
  | e :: r =>
    let w := { w with dq := r }
    let w := match d with
      | some n => sset w n (hi32 e)
      | none => w
    Warp_updThreads w (Warp_live w) fun th => { jumpThread (dqTarget g e) th with park := none }

/-- `dqbr` (R172). -/
def opDqbr (f : VF) : WOp :=
  let d := if f.m = 0 then some f.d.toNat else none
  { i := .dqbr f
    conv := true
    stay := true
    c1 := fun _ c => match c.w.dq with
      | e :: _ => if e.toNat % 4 ≠ 0 then some ⟨0x02A, 0, c.lanes⟩ else none
      | [] => none
    eff := fun c s =>
      if c.w.dq = [] then updThreads s c.wg c.wi c.lanes fun th => { th with park := some (.dqbr d) }
      else updWarp s c.wg c.wi fun w => popBranch c.g w d }
def execDqbr (f : VF) (s : State) : Host.Outcome State Fault Refusal := warpIssue (opDqbr f) s

end Sys2Proof.Machine
end

