-- ==== Sys2Proof/Machine/WarpSync.lean ====
section
/-! DEFINITION. The meanings of the ordering and synchronisation instructions of the warp stream (09 R234 to R243). Atomics execute at EXECUTION_POINT_OPERATION, after issue and before completion (log 25). -/

namespace Sys2Proof.Machine

/-- A global address translates to the device's own host window (08 R187), whatever its alignment and its page's permissions. -/
def hostAt (s : State) (iss : Issuer) (a : Nat) : Bool :=
  windowOf a == 0 && decide (a < 2 ^ 57) &&
    match translate s ((issuerWg s iss).map (·.core)) (spaceOf s iss).1 (spaceOf s iss).2 a with
    | .ok t => t.pa / 2 ^ 46 == ownDev s && decide (2 ^ 45 ≤ t.pa % 2 ^ 46)
    | .error _ => false

/-- What the address of an operation may not reach (R225): the host, a local or cluster window. These causes come before those of the access itself (13 R346 steps 8, 9; log 87). -/
def locCause (s : State) (iss : Issuer) (l : List LAcc) (host ls : Option Cause) : Option OwnC :=
  firstC [host.bind fun x => pick x fun a => hostAt s iss a.addr, ls.bind fun x => pick x fun a => windowOf a.addr == 1 || windowOf a.addr == 2]
where
  pick (x : Cause) (p : LAcc → Bool) : Option OwnC :=
    match l.filter p with
    | [] => none
    | a :: r => some ⟨x, BitVec.ofNat 64 a.addr, (a :: r).map (·.lane)⟩

/-- An operation at an execution point: its accesses, its own causes, and the operand words of a lane. -/
structure PointOp where
  i : Instr
  len : Nat
  n : Nat
  ordr : Nat
  obs : BitVec 7
  look : Nat
  w : Bool
  rmw : Bool
  marks : Bool
  /-- the space that an address reaches (for a range lock's cause, R223) -/
  sp : Nat → Space := spaceAt .global
  accs : State → WCtx → List LAcc
  own : State → WCtx → List LAcc → Option OwnC
  data : WCtx → Nat → List DWord

/-- Its issue: the granules leave L1 (R220), a release runs first, and the operation is in flight. -/
def pointIssue (p : PointOp) : WOp :=
  { i := p.i
    rest := fun s c => firstC [p.own s c (p.accs s c), memFault (p.accs s c), lockFault s (WCtx_iss c) p.sp p.n p.w p.rmw (p.accs s c)]
    hold := fun s c => anyWait (p.accs s c) || (c.cs != [] && isRel p.ordr && relHold s (WCtx_iss c) p.obs)
    prep := fun s c => if isRel p.ordr then relFlush s (WCtx_iss c) p.obs else none
    eff := fun c s =>
      if c.cs = [] then emptyFlight s c p.i false false
      else
        let iss := WCtx_iss c
        let t := orderBefore s iss (isRel p.ordr) p.obs (placesOf (p.accs s c))
        let ps := placed (p.accs t c)
        let t := ps.foldl (fun t (_, a, loc, tr) => touchTlb (pointDrop t iss loc p.n) iss a tr) t
        let t := issueResv t iss p.i t.nextId (ps.map fun x => (x.1, x.2.2.1))
        let t := launchFlight t c p.i (.exec p.i (ps.map fun (l, a, loc, tr) => ⟨l, loc, BitVec.ofNat 64 a, p.data c l, tr.sc⟩) (issuerKey s iss)) false false
        if p.marks then markTask t c 2 p.look else t }

/-- Accesses at the pair address of an MA instruction; A = 0 names v0:v1, since R177's rule for a zero field is one of the M word (DEDUCED: log 90). -/
def maAccs (f : AF) (n : Nat) (s : State) (c : WCtx) : List LAcc :=
  c.cs.map fun l => let a := vgetN c.w f.a.toNat l 2; ⟨l, a, placeGlobal s (WCtx_iss c) a n true false⟩
/-- A register group of a lane as 64-bit words. -/
def wordsOf (c : WCtx) (r l n : Nat) : List DWord := [BitVec.ofNat 64 (vgetN c.w r l n), BitVec.ofNat 64 (vgetN c.w r l n / 2 ^ 64)]

/-- An MA-layout operation. -/
def maOp (i : Instr) (f : AF) (own : State → WCtx → List LAcc → Option OwnC) (data : WCtx → Nat → List DWord) : WOp :=
  pointIssue { i := i, len := 2, n := 2 ^ f.wid.toNat, ordr := f.ordr.toNat, obs := f.obs, look := f.look.toNat, w := true, rmw := true, marks := true,
               accs := maAccs f (2 ^ f.wid.toNat), own := own, data := data }

/-- `atom` (R234). -/
def opAtom (f : AF) : WOp := maOp (.atom f) f (fun s c l => locCause s (WCtx_iss c) l (some 0x0F0) none) fun c l => wordsOf c f.b.toNat l (widRegs f.wid.toNat)
def execAtom (f : AF) (s : State) : Host.Outcome State Fault Refusal := warpIssue (opAtom f) s
/-- `atomf` (R235). -/
def opAtomf (f : AF) : WOp :=
  maOp (.atomf f) f (fun s c l => locCause s (WCtx_iss c) l (some 0x0F0) (if 3 ≤ f.aop.toNat % 32 then some 0x0F1 else none)) fun c l => wordsOf c f.b.toNat l 1
def execAtomf (f : AF) (s : State) : Host.Outcome State Fault Refusal := warpIssue (opAtomf f) s
/-- `cas` (R236). -/
def opCas (f : AF) : WOp :=
    (maOp (.cas f) f (fun s c l => locCause s (WCtx_iss c) l (some 0x0F0) (if f.wid = 4 then some 0x0F1 else none))
    fun c l => wordsOf c f.b.toNat l (widRegs f.wid.toNat) ++ wordsOf c f.c.toNat l (widRegs f.wid.toNat))
def execCas (f : AF) (s : State) : Host.Outcome State Fault Refusal := warpIssue (opCas f) s

/-- Accesses of `ldres`, `stcond` and `forage` (R232: the 64-bit form). -/
def pairAccs (f : MF) (n : Nat) (w excl : Bool) (s : State) (c : WCtx) : List LAcc :=
  c.cs.map fun l => let a := mAddr (passW c l) f .pair false l; ⟨l, a, placeGlobal s (WCtx_iss c) a n w excl⟩
/-- An M-layout operation at an execution point. -/
def pairOp (i : Instr) (f : MF) (n : Nat) (w marks excl : Bool) (own : State → WCtx → List LAcc → Option OwnC) (data : WCtx → Nat → List DWord) : WOp :=
  pointIssue { i := i, len := instrLen f.l, n := n, ordr := f.ordr.toNat, obs := f.obs, look := f.look.toNat, w := w, rmw := w, marks := marks,
               accs := pairAccs f n w excl, own := own, data := data }

/-- `ldres` (R237). -/
def opLdres (f : MF) : WOp := pairOp (.ldres f) f (2 ^ f.wid.toNat) false false true (fun s c l => locCause s (WCtx_iss c) l (some 0x0F2) (some 0x0F3)) fun _ _ => []
def execLdres (f : MF) (s : State) : Host.Outcome State Fault Refusal := warpIssue (opLdres f) s
/-- `stcond` (R237). -/
def opStcond (f : MF) : WOp :=
    (pairOp (.stcond f) f (2 ^ f.wid.toNat) true true false (fun s c l => locCause s (WCtx_iss c) l (some 0x0F2) (some 0x0F3))
    fun c l => wordsOf c f.d.toNat l (widRegs f.wid.toNat))
def execStcond (f : MF) (s : State) : Host.Outcome State Fault Refusal := warpIssue (opStcond f) s
/-- Lanes whose address is not a multiple of k. -/
def misaligned (cause : Cause) (k : Nat) (l : List LAcc) : Option OwnC :=
  match l.filter fun a => decide (a.addr % k ≠ 0) with
  | [] => none
  | a :: r => some ⟨cause, BitVec.ofNat 64 a.addr, (a :: r).map (·.lane)⟩
/-- `forage` (R239). -/
def opForage (f : MF) : WOp := pairOp (.forage f) f 32 true true true (fun s c l => firstC [locCause s (WCtx_iss c) l (some 0x0F4) (some 0x0F4), misaligned 0x0F5 32 l]) fun _ _ => []
def execForage (f : MF) (s : State) : Host.Outcome State Fault Refusal := warpIssue (opForage f) s

/-- What a fence does (R218): every earlier access is performed, then the release's flush, then the acquire's self-invalidation. -/
def fenceNow (s : State) (iss : Issuer) (ordr : Nat) (obs : BitVec 7) : State :=
  let t := drainStream s iss
  let t := if isRel ordr then release t iss obs else t
  if isAcq ordr then acquire t iss obs else t
/-- `fence` (R218, R238): it completes at issue, once the peers have acknowledged what it waits for. -/
def opFence (f : MF) : WOp :=
    { i := .fence f
      hold := fun s c => c.cs != [] && isRel f.ordr.toNat && relHold s (WCtx_iss c) f.obs
      prep := fun s c => if isRel f.ordr.toNat then relFlush s (WCtx_iss c) f.obs else none
      eff := fun c s =>
        if c.cs = [] then emptyFlight s c (.fence f) false false
        else launchFlight (fenceNow s (WCtx_iss c) f.ordr.toNat f.obs) c (.fence f) .plain false false }
def execFence (f : MF) (s : State) : Host.Outcome State Fault Refusal := warpIssue (opFence f) s

/-! ### Barriers (R240) -/

/-- The barrier a thread is parked at: number, count, whether it orders, and its mask. -/
def barOf (th : Thread) : Option (Nat × Nat × Bool × BitVec 7) :=
  match th.park with
  | some (.bar n c o m) => some (n, c, o, m)
  | _ => none
/-- What the live threads of a warp are parked at, when all are at some barrier. -/
def warpBars (w : Warp) : List (Nat × Nat × Bool × BitVec 7) :=
  let l := (Warp_live w).map fun i => (w.threads[i]?).bind barOf
  if l.any Option.isNone then [] else l.filterMap id
/-- A warp has arrived at barrier n: its count, and the masks of those of its threads whose `bar` orders. Threads of one warp that name different counts: the lowest live lane's is the warp's (DESIGN CHOICE: log 91). -/
def arrived (w : Warp) (n : Nat) : Option (Nat × Bool × BitVec 7) :=
  match warpBars w with
  | (k, c, o, m) :: r =>
    if (k :: r.map (·.1)).all (· == n) then
      some (c, o || r.any (fun (_, _, o, _) => o), ((k, c, o, m) :: r).foldl (fun x (_, _, o, m) => if o then x ||| m else x) 0)
    else none
  | [] => none
/-- The arrived warps of a barrier. -/
def arrivals (k : Workgroup) (n : Nat) : List (Nat × Nat × Bool × BitVec 7) :=
  (List.range k.warps.length).filterMap fun i => (k.warps[i]?.bind fun w => arrived w n).map fun (c, o, m) => (i, c, o, m)
/-- Warps with a thread that has not exited. -/
def liveWarps (k : Workgroup) : Nat := (k.warps.filter fun w => Warp_live w != []).length

/-- Raise a cause in every live thread of a warp, each at its own instruction. -/
def raiseWarp (s : State) (wg wi : Nat) (cause : Cause) : State :=
  match findWarp s wg wi with
  | none => s
  | some w => (Warp_live w).foldl (fun t l =>
      let pc := ((w.threads[l]?).map (·.pc)).getD 0
      takeWarp t wg wi [l] { cause := cause, kind := 0, fpc := pc.toNat, rpc := pc.toNat, lanes := laneMask (Warp_live w) }) s

/-- The mask under which a barrier orders. -/
def barMask (arr : List (Nat × Nat × Bool × BitVec 7)) : BitVec 7 := arr.foldl (fun m (_, _, o, x) => if o then m ||| x else m) (0 : BitVec 7)
/-- A barrier waits for the peers' acknowledgements of what its warps wrote (R211 class P). -/
def barHeld (s : State) (wg : Nat) (arr : List (Nat × Nat × Bool × BitVec 7)) : Bool := arr.any fun (i, _, _, _) => relHold s (.warp wg i []) (barMask arr)
/-- What a barrier that waits has sent. -/
def barFlush (s : State) (wg : Nat) (arr : List (Nat × Nat × Bool × BitVec 7)) : State :=
  arr.foldl (fun t (i, _, _, _) => (relFlush t (.warp wg i []) (barMask arr)).getD t) s
/-- Complete barrier n: ordering, release of the arrived warps, and of a cue thread at `wgbar n` (10 R271). -/
def barComplete (s : State) (wg n : Nat) (arr : List (Nat × Nat × Bool × BitVec 7)) : State :=
  let obs := barMask arr
  let t := if obs = 0 then s else
    let u := arr.foldl (fun u (i, _, _, _) => drainStream u (.warp wg i [])) s
    acquire (release u (.cue wg) obs) (.cue wg) obs
  updWg t wg fun k =>
    let k := arr.foldl (fun k (i, _, _, _) => Workgroup_updWarp k i fun w => Warp_updThreads w (Warp_live w) unpark) k
    { k with phase := SMap.set k.phase n (k.phase.get n + 1),
             cue := if k.cue.park = some (.wgbar n) then unparkCue k.cue else k.cue }

/-- Examine one barrier: too few warps remain (0x0E3), or complete it. -/
def barExamine (s : State) (wg n : Nat) : State :=
  match findWg s wg with
  | none => s
  | some k =>
    let arr := arrivals k n
    match arr with
    | [] => s
    | (_, c, _, _) :: _ =>
      if liveWarps k < c then arr.foldl (fun t (i, _, _, _) => raiseWarp t wg i 0x0E3) s
      else if (if c = 0 then liveWarps k else c) ≤ arr.length then
        let t := if barHeld s wg arr then barFlush s wg arr else s
        if barHeld t wg arr then t else barComplete t wg n arr
      else s

/-- A warp whose threads may all be parked now: differing barriers (0x0E4), a differing count (0x0E1), then completion. -/
def barArrive (s : State) (wg wi : Nat) : State :=
  match findWg s wg with
  | none => s
  | some k =>
    let s := match (k.warps[wi]?).map warpBars with
      | some ((n, c, _, _) :: r) =>
        if r.any fun x => x.1 ≠ n then raiseWarp s wg wi 0x0E4
        else if (arrivals k n).any fun (i, c', _, _) => i ≠ wi && c' ≠ c then raiseWarp s wg wi 0x0E1
        else s
      | _ => s
    (List.range 16).foldl (fun t n => barExamine t wg n) s

/-- The count a `bar` names. -/
def barCount (c : WCtx) (f : MF) : Nat := if f.ub = 0 then 0 else (ssee c.w f.ub).toNat

/-- `bar` (R240). -/
def opBar (f : MF) : WOp :=
    { i := .bar f
      stay := true
      rest := fun _ c => if LaunchRec_warps c.g.lrec < barCount c f then some ⟨0x0E2, 0, c.lanes⟩ else none
      eff := fun c s =>
        barArrive (updThreads s c.wg c.wi c.lanes fun th => { th with park := some (.bar f.ofs.toNat (barCount c f) (f.ordr = 4) f.obs) }) c.wg c.wi }
def execBar (f : MF) (s : State) : Host.Outcome State Fault Refusal := warpIssue (opBar f) s

/-! ### Arrival counters (R241 to R243) -/

/-- Accesses of a counter instruction: 16 bytes, misalignment raises 0x0E6. -/
def counterAccs (f : MF) (w : Bool) (s : State) (c : WCtx) : List LAcc :=
  c.cs.map fun l => let a := mAddr (passW c l) f .off false l; ⟨l, a, place s (WCtx_iss c) (sxSpace f) c.wi l (a / 16 * 16) 16 w⟩

/-- `cntadd` (R242). -/
def opCntadd (f : MF) : WOp :=
    (pointIssue
    { i := .cntadd f, len := instrLen f.l, n := 16, ordr := f.ordr.toNat, obs := f.obs, look := f.look.toNat, w := true, rmw := true, marks := true, sp := fun _ => sxSpace f
      accs := counterAccs f true, own := fun _ _ l => misaligned 0x0E6 16 l, data := fun c l => wordsOf c f.d.toNat l (widRegs f.wid.toNat) })
def execCntadd (f : MF) (s : State) : Host.Outcome State Fault Refusal := warpIssue (opCntadd f) s

/-- What one lane's wait finds: a cause, satisfied, or not yet (R243). -/
def counterTest (s : State) (o : LaneOp) : Option (Option Cause) :=
  match o.loc with
  | .ls a =>
    match integrityCause 11 (lsCap s (a / 16)) with
    | some c => some (some c)
    | none =>
      if leNat (lsBytes s (a + 8) 8) ≠ 0 then some (some 0x0E6)
      else if sextN (o.ops.getD 0 0).toNat 64 ≤ sextN (leNat (lsBytes s a 8)) 64 then some none else none
  | _ => some none

/-- The lanes whose comparison has not held yet, and the causes of those that are served (R243: each comparison is made at its counter's local store, and a lane that is served stays so). -/
def counterServe (s : State) (ops : List LaneOp) : List LaneOp × List (Nat × Cause × BitVec 64) :=
  (ops.filter fun o => (counterTest s o).isNone, ops.filterMap fun o => (counterTest s o).bind fun c => c.map fun x => (o.lane, x, o.va))
/-- Some lane of a wait is served now. -/
def counterServable (s : State) (ops : List LaneOp) : Bool := ops.any fun o => (counterTest s o).isSome

/-- Record the causes of a finished wait. -/
def counterBad (s : State) (wg wi : Nat) (bad : List (Nat × Cause × BitVec 64)) (pc : VAddr) (look : Nat) : State :=
  bad.foldl (fun t (l, c, a) => deferLanes t wg wi [l] c a pc look) s

/-- `cntwt` (R243): the threads park until every contributor's counter has reached its target. -/
def opCntwt (f : MF) : WOp :=
    { i := .cntwt f
      stay := true
      rest := fun s c => firstC [misaligned 0x0E6 16 (counterAccs f false s c), memFault (counterAccs f false s c),
        lockFault s (WCtx_iss c) (spaceAt (sxSpace f)) 16 false false (counterAccs f false s c)]
      eff := fun c s =>
        let l := counterAccs f false s c
        let t := beforeAccess s (WCtx_iss c) (placesOf l)
        let ops : List LaneOp := (placed l).map fun (l, a, loc, tr) => ⟨l, loc, BitVec.ofNat 64 a, wordsOf c f.d.toNat l 2, tr.sc⟩
        let others := c.lanes.filter fun l => !c.cs.contains l
        let t := updThreads t c.wg c.wi others (stepThread (instrLen f.l))
        let (left, bad) := counterServe t ops
        let (id, t) := addFlight t (WCtx_iss c) c.pc f.look.toNat (if left = [] then .plain else .counter (.cntwt f) left bad)
        let t := openIn t c others id f.look.toNat (WCtx_use c (.cntwt f)) false false
        if left = [] then
          let t := if f.ordr = 2 then acquire t (WCtx_iss c) f.obs else t
          counterBad (updThreads t c.wg c.wi c.cs (stepThread (instrLen f.l))) c.wg c.wi bad c.pc f.look.toNat
        else updThreads t c.wg c.wi c.cs fun th => { th with park := some (.counter id) } }
def execCntwt (f : MF) (s : State) : Host.Outcome State Fault Refusal := warpIssue (opCntwt f) s

/-- `COUNTER_WAIT_SATISFIED` (R243): the lanes whose comparison holds now are served, and with the last of them the thread leaves its park. -/
def execCounterWaitSatisfied (flight : Nat) (s : State) : Host.Outcome State Fault Refusal :=
  match findFlight s flight with
  | some fl => (match fl.kind, fl.who with
    | .counter i ops bad, .warp wg wi lanes =>
      let (left, new) := counterServe s ops
      if left ≠ [] then .next { s with flights := s.flights.map fun x => if x.id = flight then { x with kind := .counter i left (bad ++ new) } else x }
      else
        let t := updThreads (dropFlight s flight) wg wi lanes unpark
        let t := updWarp t wg wi fun w => { w with threads := w.threads.map fun th => { th with windows := doneWindow th.windows flight } }
        let t := match i with
          | .cntwt f => if f.ordr = 2 then acquire t fl.who f.obs else t
          | _ => t
        .next (counterBad t wg wi (bad ++ new) fl.pc fl.look)
    | _, _ => .next s)
  | none => .next s

/-- `JOIN_DEADLINE` (07 R168). -/
def execJoinDeadline (s : State) : Host.Outcome State Fault Refusal :=
  .next (s.wgs.foldl (fun t k => (List.range k.warps.length).foldl (fun t i => joinExamine t k.id i) t) s)

/-- `DECISION_QUEUE_POP` (07 R171, R172): the warp parked at `dqpop` or `dqbr` takes the oldest entry; a target that is not a clause address raises 0x02A. -/
def execDecisionQueuePop (wg warp : Nat) (s : State) : Host.Outcome State Fault Refusal :=
  match findWg s wg, findWarp s wg warp with
  | some k, some w => (match gridOf s k, (w.threads[(Warp_live w).headD 0]?).bind (·.park), w.dq with
    | some _, some (.dqpop d), _ :: _ => .next (updWarp s wg warp fun w => popPair w d)
    | some g, some (.dqbr d), e :: _ =>
      if e.toNat % 4 ≠ 0 then .next (raiseWarp s wg warp 0x02A) else .next (updWarp s wg warp fun w => popBranch g w d)
    | _, _, _ => .next s)
  | _, _ => .next s

/-- `RETURN_ADDRESS_REFILL` (07 R161): the thread returns to the address read. -/
def execReturnAddressRefill (flight : Nat) (s : State) : Host.Outcome State Fault Refusal :=
  match findFlight s flight with
  | some fl => (match fl.kind, fl.who with
    | .refill ops, .warp wg wi _ => .next (ops.foldl (fun t (l, v) => updThread t wg wi l fun th =>
        jumpThread (v.setWidth 57) { th with depth := th.depth - 1, sp := th.sp + 8, park := none }) (dropFlight s flight))
    | _, _ => .next s)
  | none => .next s

end Sys2Proof.Machine
end

