-- ==== Sys2Proof/Machine/CueIssue.lean ====
section
/-! DEFINITION. How a cue instruction issues (10 R244 to R247, 13 R346): deferred causes that fall due, the cut distance, privilege, encoding, register and schedule causes, the instruction's own causes, then the count, the PC and the effect; and the long operations and engine tokens of a cue thread. -/

namespace Sys2Proof.Machine

/-- The cue thread that issues, with what it stands in: a workgroup's, or a management core's. `pass` is its guard (R246). -/
structure CCtx where
  iss : Issuer
  c : Cue
  k : Option Workgroup
  g : Option Grid
  pass : Bool
  pc : VAddr
  deriving DecidableEq, Repr

/-- The guard of a cue instruction (R246). -/
def cueGuard (c : Cue) (i : Instr) : Bool := let n := (cueWord i).2; decide (4 ≤ n) || gget c n

/-- The context of the cue thread named by `State.cur`. -/
def cueCtx (s : State) (i : Instr) : Option CCtx :=
  match s.cur with
  | .cue wg => (match findWg s wg with
    | some k => some { iss := .cue wg, c := k.cue, k := some k, g := gridOf s k, pass := cueGuard k.cue i, pc := k.cue.pc }
    | none => none)
  | .mgmt m => (match s.mgmt[m]? with
    | some x => some { iss := .mgmt m, c := x.cue, k := none, g := none, pass := cueGuard x.cue i, pc := x.cue.pc }
    | none => none)
  | _ => none

/-- The thread may not issue: its workgroup is not resident, it has ended, or its core is stopped (13 R361, R362). -/
def cueStopped (s : State) (c : CCtx) : Bool :=
  c.c.ended || c.c.park.isSome || (match c.iss, c.k with
    | .mgmt m, _ => (match s.mgmt[m]? with
      | some x => x.stopped
      | none => true)
    | _, some k => k.st ≠ .resident
    | _, none => true)

/-- A cue thread stands at a takeable cut (13 R370). -/
def cueTakeable (c : Cue) : Bool :=
  (match c.clause with
    | some k => k.cut && k.first
    | none => false) && c.tokens == [] && c.windows.all (·.done) && !c.inHandler && c.moved

/-- The count a cue thread's cut distance would reach (13 R371). -/
def cueNextDist (c : Cue) : Nat := if c.inHandler then c.cutDist else (if cueTakeable c then 0 else c.cutDist) + 1

/-- The cut distance would be exceeded at the cue thread's next issue; a management core counts none (R371). -/
def cueOver (g : Option Grid) (c : Cue) : Bool := match g with
  | some g => !c.inHandler && decide (g.lrec.cutmax < cueNextDist c)
  | none => false

/-- Token-timed commands (R45, 13 R348). -/
def cueTokenTimed (i : Instr) : Bool := (qeSpec i).isSome

/-- Instructions a cue retake stub may not issue (13 R348, 0x04E). -/
def cueStubBanned (i : Instr) : Bool :=
  cueTokenTimed i || (match i with
    | .dqpush _ => true
    | .cst _ => true
    | .catom _ => true
    | .wgbar _ => true
    | .csvc _ => true
    | _ => false)

def isCsvc : Instr → Bool
  | .csvc _ => true
  | _ => false

/-- The retake stub a cue thread is in; a handler entered from it is not part of it. -/
def cueStub (c : Cue) : Option Stub := if c.inHandler then none else c.stub
/-- The class-2 cause of a cue instruction (02 R56, 13 R348), lowest first. -/
def cueSched (c : CCtx) (i : Instr) : Option Nat :=
  let u := cueUse i
  let ws := c.c.windows.filter fun x => x.left ≠ 0
  let wr := ws.flatMap (·.wr)
  let rd := ws.flatMap (·.rd)
  let strict := match c.c.clause with
    | some k => if k.cut && k.first && k.strict then
        [(c.c.windows.any (!·.done), 0x058)] ++ ((List.range 6).map fun t => (Cue_tok c.c t != 0, 0x059 + t)) ++ [(c.c.inHandler, 0x05F)]
      else []
    | none => []
  let stub := match cueStub c.c with
    | some st => [(meets u.rc st.deadV, 0x04B), (cueStubBanned i, 0x04E), (decide (255 ≤ st.issued), 0x04F)]
    | none => []
  firstReason ([(meets u.rc wr || meets u.wc wr || meets u.wc rd, 0x044), (isCsvc i && ws.any (·.isSvc), 0x047)] ++ stub ++ strict)

/-- A cue instruction fits the class of its clause (02 R28). -/
def cueEngOk (eng : Nat) (i : Instr) : Bool := eng = 4 || cueClass i = 3 || (eng = 5 && cueClass i = 1) || (eng = 6 && cueClass i = 2)

/-- The class-0 cause of a cue instruction where it stands (02 R32). -/
def cueEncAt (c : CCtx) (i : Instr) : Option Nat :=
  if isIllegal i then some 0x010 else
  let (eng, left) := match c.c.clause with
    | some k => (k.eng.toNat, k.left)
    | none => (4, 15)
  match firstReason [(!cueEngOk eng i, 0x014), ((cueWord i).1 && decide (left < 2), 0x015)] with
  | some n => some n
  | none => cueEnc i

/-- The class-1 register causes of a cue instruction (02 R48, R49), lowest first. A management core declares no tile and no accumulator. -/
def cueRegCause (c : CCtx) (i : Instr) : Option Nat :=
  let u := cueUse i
  let (t, a) := match c.g with
    | some g => (g.lrec.tiles, g.lrec.accs)
    | none => (0, 0)
  firstReason [(u.tiles.any fun x => decide (t ≤ x), 0x022), (u.accs.any fun x => decide (a ≤ x), 0x023),
    (u.even.any fun x => x % 2 = 1, 0x024), ((u.rc ++ u.wc).any fun x => decide (64 ≤ x), 0x025)]

/-- A cue instruction: its own causes by step of R346, what holds it at issue, and its effect. `stay` keeps the PC at the instruction (a parking one). -/
structure COp where
  i : Instr
  /-- class-0 causes that depend on a register (14 R413) -/
  c0 : State → CCtx → Option OwnC := fun _ _ => none
  /-- class-1 causes of its own -/
  c1 : State → CCtx → Option OwnC := fun _ _ => none
  rest : State → CCtx → Option OwnC := fun _ _ => none
  hold : State → CCtx → Bool := fun _ _ => false
  /-- what a cause of `rest` posts beside itself (08 R200) -/
  note : CCtx → State → State := fun _ s => s
  /-- what an instruction that is held does first, when it has something to do -/
  prep : State → CCtx → Option State := fun _ _ => none
  /-- waits for every pending long instruction (02 R58) -/
  drain : Bool := false
  /-- the tokens on which it waits, when they have settled: bit 6 stands for the untracked commands (13 R357) -/
  toks : State → CCtx → Nat := fun _ _ => 0
  stay : Bool := false
  eff : CCtx → State → State

/-- A cause with no address. -/
def ownC (cause : Nat) : Option OwnC := some ⟨BitVec.ofNat 9 cause, 0, []⟩
/-- The first of a list of conditions with their causes. -/
def firstOwn (l : List (Bool × Nat)) : Option OwnC := (firstReason l).bind ownC

/-- The unit of the cue ALU that an instruction uses (13 R350): 0 add, 1 multiply, 2 divide, 3 shift and logic (log 88). -/
def cueUnit (i : Instr) : Option Nat :=
  match i with
  | .cadd _ => some 0
  | .csub _ => some 0
  | .cmin _ => some 0
  | .cmax _ => some 0
  | .ccmp _ => some 0
  | .cmul _ => some 1
  | .cmulh _ => some 1
  | .cdiv _ => some 2
  | .cand _ => some 3
  | .cor _ => some 3
  | .cxor _ => some 3
  | .cshl _ => some 3
  | .cshr _ => some 3
  | .csar _ => some 3
  | .cbfx _ => some 3
  | .cbfi _ => some 3
  | .cpopc _ => some 3
  | .cclz _ => some 3
  | .cmov _ => some 3
  | .csel _ => some 3
  | .cli _ => some 3
  | _ => none
/-- The self-check cause that a cue instruction meets (13 R350, R354): the lowest of those injected that concern it. -/
def cueSoft (s : State) (i : Instr) : Option OwnC :=
  (lowestCause (s.softErrors.filter fun x => x == 0x1E1 || (cueUnit i).any fun u => x == BitVec.ofNat 9 (0x110 + u))).map fun x => ⟨x, 0, []⟩
/-- Of two causes of one step of R346, the lower code. -/
def lowerC (a b : Option OwnC) : Option OwnC :=
  match a, b with
  | some x, some y => if y.cause.toNat < x.cause.toNat then b else a
  | none, y => y
  | x, none => x

/-- The causes of R346 steps 1 to 5. A failed guard leaves the cut distance, privilege, encoding and register causes (R246). -/
def cueEarly (op : COp) (s : State) (c : CCtx) : Option OwnC :=
  let on := fun (x : Option OwnC) => if c.pass then x else none
  firstC [
    (if cueOver c.g c.c then ownC 0x061 else none),
    (match c.iss with
      | .mgmt _ => none
      | _ => if cuePriv op.i then ownC 0x02F else none),
    lowerC ((cueEncAt c op.i).bind ownC) (on (op.c0 s c)),
    (cueRegCause c op.i).bind ownC,
    on (op.c1 s c)]
/-- The causes of R346 step 3 in order. -/
def cueCause (op : COp) (s : State) (c : CCtx) : Option OwnC :=
  let on := fun (x : Option OwnC) => if c.pass then x else none
  firstC [cueEarly op s c, on ((cueSched c op.i).bind ownC), on (softOr (cueSoft s op.i) (op.rest s c))]

/-- The step along a clause and the counts of an issue (02 R55, 13 R370, R371, R348). -/
def countCue (u : Use) (pass : Bool) (c : Cue) : Cue :=
  { c with
    cutDist := cueNextDist c
    moved := true
    windows := (c.windows.map fun x => { x with left := x.left - 1 }).filter fun x => !(x.done && x.left = 0)
    deferred := c.deferred.map fun d => { d with left := d.left - 1 }
    stub := if c.inHandler then c.stub else c.stub.map fun st => { st with issued := st.issued + 1, deadV := if pass then st.deadV.filter (fun r => !u.wc.contains r) else st.deadV } }

/-- A transfer of control of a cue thread: every one lands on a clause header. -/
def jumpCue (pc : VAddr) (c : Cue) : Cue := { c with pc := pc, clause := none }

/-- A precise cause at a cue thread's instruction (13 R355, R356). -/
def cuePrecise (s : State) (c : CCtx) (o : OwnC) : State :=
  takeCue (postWalk s c.iss o.cause o.addr) c.iss { cause := o.cause, kind := 0, fpc := c.pc.toNat, rpc := c.pc.toNat, addr := o.addr }

/-- A management core is in its trap: further causes are held back until `iret` (13 R362). -/
def inTrap (s : State) (iss : Issuer) : Bool := match iss with
  | .mgmt m => (s.mgmt[m]?).any (·.inTrap)
  | _ => false
/-- The deferred cause that a wait of a cue thread delivers: the oldest that falls due (13 R357), none in a management core's trap. -/
def cueFalls (s : State) (iss : Issuer) (all : Bool) (toks : Nat) (c : Cue) : Option Deferred := if inTrap s iss then none else dueIn all toks c.deferred
/-- What falls due at the WAIT of a clause that names tokens. -/
def cueDue (s : State) (iss : Issuer) (c : Cue) (mask : Nat) : Option Deferred := if mask = 0 then none else cueFalls s iss false mask c
/-- The record of a deferred cause of a cue thread that is past its waits: it is posted to the management core (13 R357). -/
def postedRec (c : Cue) (d : Deferred) : TrapRec := { dueRec d 0 with kind := 6 + (if d.engine then 8 else 0), lanes := (cget c 63).setWidth 128 }
/-- Deliver the oldest deferred cause that falls due; the others of the same wait are discarded (13 R357). -/
def cueDeliver (all : Bool) (toks : Nat) (s : State) (c : CCtx) (d : Deferred) : State :=
  takeCue (updCue s c.iss fun x => { x with deferred := x.deferred.filter fun y => !isDue all toks y }) c.iss (dueRec d c.pc)

/-- The cue thread after the instruction has counted and stepped. -/
def cueIssued (op : COp) (c : CCtx) (s : State) : State :=
  updCue s c.iss fun x =>
    let x := countCue (cueUse op.i) c.pass x
    let n := instrLen (cueWord op.i).1
    if op.stay && c.pass then { x with plen := n } else stepCue n x

/-- ISSUE of a cue instruction for the thread of `State.cur` (13 R346). -/
def cueIssue (op : COp) (s : State) : Host.Outcome State Fault Refusal :=
  match cueCtx s op.i with
  | none => .fault .noIssuer
  | some c =>
    let drain := op.drain && c.pass
    let toks := if c.pass then op.toks s c else 0
    if cueStopped s c || c.c.windows.any (fun x => !x.done && (drain || x.left = 0)) then .next s
    else match cueFalls s c.iss drain toks c.c with
      | some d => .next (cueDeliver drain toks s c d)
      | none =>
        match cueCause op s c with
        | some o => .next (cuePrecise (if c.pass && cueSoft s op.i = some o then { s with softErrors := s.softErrors.erase o.cause } else if c.pass && op.rest s c = some o then op.note c s else s) c o)
        | none =>
          if c.pass && op.hold s c then .next ((op.prep s c).getD s)
          else if c.pass then .next (op.eff c (cueIssued op c s))
          else .next (cueIssued op c s)

/-! ### Long operations of a cue thread (R247) -/

/-- A long cue instruction in flight with its window. -/
def launchCueFlight (s : State) (c : CCtx) (i : Instr) (kind : FlightKind) (isSvc : Bool) : State :=
  let look := (cueLook i).getD 0
  let u := cueUse i
  let (n, t) := addFlight s c.iss c.pc look kind
  updCue t c.iss fun x =>
    { x with windows := x.windows ++ [{ flight := n, left := look, wr := u.wc, rd := u.pend, isSvc := isSvc, isPriv := false, done := false }] }

/-- Write a cue register of the issuing thread. -/
def setC (s : State) (c : CCtx) (r : Nat) (v : DWord) : State := updCue s c.iss fun x => cset x r v

/-- Source B of a scalar instruction: the sign-extended immediate when L = 1 (02 R42). -/
def srcB (c : CCtx) (f : QF) : DWord := if f.l then f.imm.signExtend 64 else cget c.c f.b.toNat

/-! ### Deferred causes of a cue thread -/

/-- Record a cause against a cue thread, due at the wait after `left` more issues (08 R198). -/
def deferCue (s : State) (iss : Issuer) (cause : Cause) (addr : BitVec 64) (fpc : VAddr) (left : Nat) : State :=
  let (n, t) := takeId s
  updCue t iss fun x => { x with deferred := x.deferred ++ [(⟨cause, addr, 0, fpc, none, left, false, 0, n⟩ : Deferred)] }

/-- Mark a versioned task non-restartable by an operation that is not versioned (13 R351, R365; log 19). -/
def markCue (s : State) (c : CCtx) (reason left : Nat) : State :=
  match c.k, c.g with
  | some k, some g =>
    if k.taskOn then
      let t := updWg s k.id fun k => { k with nonRestart := true }
      if g.lrec.hmask.getLsbD 11 then deferCue t c.iss (BitVec.ofNat 9 (0x161 + 4 * reason)) 0 c.pc left else t
    else s
  | _, _ => s

end Sys2Proof.Machine
end

