-- ==== Sys2Proof/Machine/Service.lean ====
section
/-! DEFINITION. Service queues and wakes (13 R366 to R368), for warps and cue threads; the special registers that both streams read (13 R381). -/

namespace Sys2Proof.Machine

/-- A service-queue descriptor (R367). -/
structure SvcDesc where
  at_ : Nat
  base : Nat
  slots : Nat
  recsize : Nat
  timeout : Nat
  waket : Nat
  enable : Bool
  widx : Nat
  ridx : Nat
  ok : Bool
  deriving DecidableEq, Repr

def isPow2 (n : Nat) : Bool := n ≠ 0 && 2 ^ Nat.log2 n = n

/-- Descriptor q of the table at SVCBASE. -/
def svcDesc (s : State) (q : Nat) : SvcDesc :=
  let a := mreg s Reg.SVCBASE + 64 * q
  let n := fun o k => homeNat s (a + o) k
  let slots := n 8 4
  let rs := n 0xC 4
  { at_ := a, base := n 0 8, slots := slots, recsize := rs, timeout := n 0x10 4, waket := n 0x14 2, enable := n 0x16 1 % 2 = 1, widx := n 0x18 8, ridx := n 0x20 8,
    ok := n 0x16 1 = 1 && n 0 8 % 256 = 0 && isPow2 slots && decide (slots ≤ 4096) && rs % 64 = 0 && decide (128 ≤ rs ∧ rs ≤ 65536)
      && (n 0x14 2 = 0xFFFF || decide (n 0x14 2 < 260)) && n 0x17 1 = 0 && n 0x28 8 = 0 && n 0x30 8 = 0 && n 0x38 8 = 0 }

/-- The causes of a service request at issue (R353): not configured, no permission, too large. -/
def svcCause (s : State) (q : Nat) (allowed : Bool) (size : Nat) : Option Cause :=
  let d := svcDesc s q
  if !d.ok then some 0x1A8 else if !allowed then some 0x1A9 else if d.recsize < size then some 0x1AF else none

/-- The ring has no slot for the next record. -/
def svcFull (s : State) (q : Nat) : Bool :=
  let d := svcDesc s q
  decide (d.slots ≤ (d.widx + 2 ^ 64 - d.ridx) % 2 ^ 64) || s.flights.any fun f => match f.kind with
    | .svc q' n _ _ _ _ => q' == q && n + d.slots == d.widx
    | _ => false

/-- Address of record n. -/
def svcRec (d : SvcDesc) (n : Nat) : Nat := d.base + n % d.slots * d.recsize

/-- The 64-byte header of a request. -/
def svcHeader (q n stream ww lanes grid task core : Nat) : List Byte :=
  leBytes 1 q ++ leBytes 1 n ++ leBytes 1 stream ++ leBytes 1 ww ++ leBytes 4 0 ++ leBytes 16 lanes ++ leBytes 8 grid ++ leBytes 4 task ++ leBytes 2 core
    ++ leBytes 2 0 ++ leBytes 8 0 ++ leBytes 16 0

/-- Post a record: the issuer's earlier writes first, then the record, WIDX, and the wake. -/
def svcPost (s : State) (iss : Issuer) (q : Nat) (bs : List Byte) : State :=
  let d := svcDesc s q
  let t := release (drainStream s iss) iss 0x44
  let t := homeWrite t (svcRec d d.widx) bs 0 none
  let t := homeWrite t (d.at_ + 0x18) (leBytes 8 (d.widx + 1)) 0 none
  if d.waket = 0xFFFF then t else wakeOr t d.waket 1

/-- The record lies in HBM-backed memory. -/
def svcBacked (s : State) (q : Nat) : Bool := let d := svcDesc s q; decide (svcRec d d.widx + d.recsize ≤ hbmCap s)

/-- What a waiting request finds (R366, R367): nothing yet, a cause, or the reply bytes of a lane. -/
inductive SvcFind where
  | notYet
  | bad (c : Cause)
  | reply (bs : Nat → List Byte)

/-- Look at the record of a request: DONE, then STATUS, then the reply words of its lanes are read, and no byte besides (R366, R367). `stride` is 4 bytes a lane (warp) or 8 (cue). A reply word that does not check fails the request in every lane (DEDUCED: log 58). -/
def svcLook (s : State) (q n reply stride : Nat) (lanes : List Nat) : SvcFind :=
  let d := svcDesc s q
  let a := svcRec d n
  if !d.enable then .bad 0x1AE
  else if homeCaps s (a + 0x28) 8 ≠ .good then .bad 0x1AA
  else if homeNat s (a + 0x28) 8 = 0 then .notYet
  else
    let st := homeNat s (a + 4) 4
    if homeCaps s (a + 4) 4 ≠ .good then .bad 0x1AA
    else if st ≠ 0 then .bad (BitVec.ofNat 9 (0x1AF + min st 16))
    else if lanes.any fun lane => homeCaps s (a + reply + stride * lane) stride ≠ .good then .bad 0x1AA
    else .reply fun lane => homeBytes s (a + reply + stride * lane) stride

/-- Finish a request's flight with register writes and a recorded cause. -/
def svcFinish (s : State) (f : Flight) (writes : List RegWrite) (bad : List (Nat × Cause × BitVec 64)) : State :=
  match f.who with
  | .warp wg wi _ => finishWarp (acquire s f.who 4) f wg wi writes [] bad
  | _ => finishCue (acquire s f.who 4) f writes bad

/-- `SERVICE_REPLY` (R366, R367). -/
def execServiceReply (flight : Nat) (s : State) : Host.Outcome State Fault Refusal :=
  match findFlight s flight with
  | some f => (match f.kind with
    | .svc q n d lanes reply _ =>
      let isW := match f.who with
        | .warp _ _ _ => true
        | _ => false
      (match svcLook s q n reply (if isW then 4 else 8) lanes with
      | .notYet => .next s
      | .bad c => .next (svcFinish s f [] (lanes.map fun l => (l, c, 0)))
      | .reply bs => .next (svcFinish s f (lanes.map fun l => ⟨l, d, BitVec.ofNat 64 (leNat (bs l))⟩) []))
    | _ => .next s)
  | none => .next s

/-- A request whose queue's TIMEOUT has passed with no reply (R367). -/
def svcLate (s : State) (f : Flight) : Option (List Nat) :=
  match f.kind with
  | .svc q n _ lanes _ posted =>
    let d := svcDesc s q
    if d.timeout ≠ 0 ∧ posted + d.timeout * Config.clkPerUs ≤ s.clk ∧ homeNat s (svcRec d n + 0x28) 8 = 0 then some lanes else none
  | _ => none

/-- `SERVICE_TIMEOUT` (R367): every request that is late records 0x1AB. -/
def execServiceTimeout (s : State) : Host.Outcome State Fault Refusal :=
  .next (s.flights.foldl (fun t f => match svcLate s f with
    | some lanes => svcFinish t f [] (lanes.map fun l => (l, 0x1AB, 0))
    | none => t) s)

/-- The causes of a wake (R353, R368). -/
def wakeCause (target : Nat) (allowed : Bool) : Option Cause :=
  if 260 ≤ target then some 0x1AC else if 256 ≤ target && !allowed then some 0x1AD else none

/-- One wake, as a release naming H and D (R386). -/
def wakeNow (s : State) (iss : Issuer) (target v : Nat) : State := wakeOr (release (drainStream s iss) iss 0x44) target v

/-- The special registers that depend on the workgroup and its core only (R381), numbers 5 to 20 and 24 to 32. Workgroups are numbered with x fastest, as 10 R249 numbers threads (DESIGN CHOICE: log 93). -/
def sregCommon (s : State) (g : Grid) (k : Workgroup) (n : Nat) : Option Nat :=
  let r := g.lrec
  let col := mreg s (Reg.COLSTAT + 8 * (k.core / 2))
  match n with
  | 5 => some (k.lin % r.gdim.1)
  | 6 => some (k.lin / r.gdim.1 % r.gdim.2.1)
  | 7 => some (k.lin / r.gdim.1 / r.gdim.2.1)
  | 8 => some (r.gdim.1 * r.gdim.2.1 * r.gdim.2.2)
  | 9 => some (LaunchRec_threads r)
  | 10 => some (LaunchRec_wwidth r)
  | 11 => some k.core
  | 12 => some (k.core / 2)
  | 13 => some (k.core % 2)
  | 14 => some (coreCluster k.core)
  | 15 => some (pairStack (k.core / 2))
  | 16 => some g.depth
  | 17 => some (taskOf s k).toNat
  | 18 => some (wrap 64 (sextN col 16)).toNat
  | 19 => some (col / 65536 % 4)
  | 20 => some s.clk
  | 24 => some (2 * numPairs s)
  | 25 => some (numPairs s)
  | 26 => some (numSlices s)
  | 27 => some r.gdim.1
  | 28 => some r.gdim.2.1
  | 29 => some r.gdim.2.2
  | 30 => some r.wdim.1
  | 31 => some r.wdim.2.1
  | 32 => some r.wdim.2.2
  | _ => none

end Sys2Proof.Machine
end

