-- ==== Sys2Proof/Machine/WarpSystem.lean ====
section
/-! DEFINITION. The meanings of the warp system instructions (13 R380 to R390). -/

namespace Sys2Proof.Machine

/-- `exit` (R382): the contributors end; the others go on. -/
def opExit (f : VF) : WOp :=
    { i := .exit f
      drain := true
      eff := fun c s =>
        if c.cs = [] then s
        else barArrive (updThreads s c.wg c.wi c.cs fun th => { th with life := .exited }) c.wg c.wi }
def execExit (f : VF) (s : State) : Host.Outcome State Fault Refusal := warpIssue (opExit f) s

/-- A cause that the instruction exists to raise: RPC is the next instruction (R355). -/
def raiseSoft (cause : Cause) (n : Nat) (c : WCtx) (s : State) : State :=
  takeWarp s c.wg c.wi c.cs { cause := cause, kind := 0, fpc := c.pc.toNat, rpc := (c.pc + BitVec.ofNat 57 (4 * n)).toNat, lanes := laneMask c.cs }

/-- `trap` (R383). -/
def opTrap (f : VF) : WOp := { i := .trap f, eff := raiseSoft (BitVec.ofNat 9 (0x180 + f.b.toNat % 32)) (instrLen f.l) }
def execTrap (f : VF) (s : State) : Host.Outcome State Fault Refusal := warpIssue (opTrap f) s
/-- `brk` (R384). -/
def opBrk (f : VF) : WOp := { i := .brk f, eff := raiseSoft (BitVec.ofNat 9 (0x1A0 + f.b.toNat % 8)) (instrLen f.l) }
def execBrk (f : VF) (s : State) : Host.Outcome State Fault Refusal := warpIssue (opBrk f) s

/-- Queue, registers per lane and record bytes of a `svc`. -/
def svcSize (c : WCtx) (f : VF) : Nat × Nat × Nat :=
  let n := f.b.toNat / 16 % 4 + 1
  (f.b.toNat % 16, n, 64 + n * 4 * c.W + 4 * c.W)

/-- The request area: register k of lane i at (k × W + i) × 4 (R366); lanes that do not contribute hold zero. -/
def svcRequest (c : WCtx) (f : VF) (n : Nat) : List Byte :=
  (List.range (n * c.W)).flatMap fun j => leBytes 4 (if c.cs.contains (j % c.W) then (vget c.w (f.a.toNat + j / c.W) (j % c.W)).toNat else 0)

/-- `svc` (R385). -/
def opSvc (f : VF) : WOp :=
    { i := .svc f
      rest := fun s c => if c.cs = [] then none else (svcCause s (svcSize c f).1 c.g.svcOk (svcSize c f).2.2).map fun x => ⟨x, 0, c.cs⟩
      hold := fun s c => c.cs ≠ [] && svcFull s (svcSize c f).1
      eff := fun c s =>
        if c.cs = [] then emptyFlight s c (.svc f) true false
        else
          let (q, n, _) := svcSize c f
          let t := markTask s c 6 f.look.toNat
          if !svcBacked t q then launchFlight t c (.svc f) (.load [] [] (c.cs.map fun l => (l, 0x1AA, 0))) true false
          else
            let d := svcDesc t q
            let bs := svcHeader q n 0 (c.W / 32) (laneMask c.cs).toNat c.g.num (taskOf t c.k).toNat c.k.core ++ svcRequest c f n
            let t := svcPost t (WCtx_iss c) q bs
            let (id, t) := addFlight t (WCtx_iss c) c.pc f.look.toNat (.svc q d.widx f.d.toNat c.cs (64 + n * 4 * c.W) t.clk)
            openWindow t c id f.look.toNat (WCtx_use c (.svc f)) true false }
def execSvc (f : VF) (s : State) : Host.Outcome State Fault Refusal := warpIssue (opSvc f) s

/-- Target and value of a `wake`, read in the lowest contributor (R386). -/
def wakeArgs (c : WCtx) (f : VF) : Option (Nat × Nat) :=
  c.cs.head?.map fun l => ((ssee c.w (f.b.toNat % 64)).toNat, operand c.w f f.a f.pa 1 l)

/-- `wake` (R386). -/
def opWake (f : VF) : WOp :=
    { i := .wake f
      rest := fun _ c => (wakeArgs c f).bind fun (t, _) => (wakeCause t c.g.wakeOk).map fun x => ⟨x, 0, c.cs⟩
      eff := fun c s => match wakeArgs c f with
        | some (t, v) => markTask (wakeNow s (WCtx_iss c) t v) c 6 0
        | none => s }
def execWake (f : VF) (s : State) : Host.Outcome State Fault Refusal := warpIssue (opWake f) s

/-- A special register as a lane reads it (R381). -/
def sregWarp (s : State) (c : WCtx) (lane n : Nat) : Option Nat :=
  let t := c.wi * c.W + lane
  let (dx, dy, _) := c.g.lrec.wdim
  match n with
  | 0 => some lane
  | 1 => some (t % dx)
  | 2 => some (t / dx % dy)
  | 3 => some (t / dx / dy)
  | 4 => some c.wi
  | 21 => some (match c.w.threads[lane]? with
    | some th => th.fpstat.toNat
    | none => 0)
  | 22 => some (ksee c.w).toNat
  | 23 => some (match c.w.threads[lane]? with
    | some th => th.sp.toNat
    | none => 0)
  | _ => sregCommon s c.g c.k n

/-- `sreg` (R387). -/
def opSreg (f : VF) : WOp :=
    { i := .sreg f
      c1 := fun s c => if (sregWarp s c 0 f.b.toNat).isNone then some ⟨0x02D, 0, c.lanes⟩ else none
      eff := fun c s => updWarp s c.wg c.wi fun w => c.cs.foldl (fun w l =>
        vsetN w f.d.toNat l ((sregWarp s c l f.b.toNat).getD 0) (if f.b = 20 then 2 else 1)) w }
def execSreg (f : VF) (s : State) : Host.Outcome State Fault Refusal := warpIssue (opSreg f) s

/-- `swreg` (R387): `%fpstat` keeps bits 6 to 0 (04 R96). -/
def opSwreg (f : VF) : WOp :=
    { i := .swreg f
      c1 := fun s c => if f.b = 21 ∨ f.b = 23 then none else if (sregWarp s c 0 f.b.toNat).isSome then some ⟨0x02E, 0, c.lanes⟩ else some ⟨0x02D, 0, c.lanes⟩
      eff := fun c s => c.cs.foldl (fun t l =>
        let v := operand (laneW c f l) f f.a f.pa 1 l
        updThread t c.wg c.wi l fun th => if f.b = 21 then { th with fpstat := BitVec.ofNat 32 (v % 128) } else { th with sp := BitVec.ofNat 32 v }) s }
def execSwreg (f : VF) (s : State) : Host.Outcome State Fault Refusal := warpIssue (opSwreg f) s

/-- `yield` (R388): not ready for 16 clk after the group's last pass. -/
def opYield (f : VF) : WOp := { i := .yield f, eff := fun c s => updThreads s c.wg c.wi c.cs fun th => { th with readyAt := s.clk + 4 * ((c.lanes.map (· / 32)).eraseDups.length - 1) + 16 } }
def execYield (f : VF) (s : State) : Host.Outcome State Fault Refusal := warpIssue (opYield f) s
/-- `nop` (R388). -/
def opNop (f : VF) : WOp := { i := .nop f, eff := fun _ s => s }
def execNop (f : VF) (s : State) : Host.Outcome State Fault Refusal := warpIssue (opNop f) s
/-- `YIELD_EXPIRY` (R388). -/
def execYieldExpiry (s : State) : Host.Outcome State Fault Refusal :=
  .next { s with wgs := s.wgs.map fun k => { k with warps := k.warps.map fun w =>
    { w with threads := w.threads.map fun th => if th.readyAt ≠ 0 ∧ th.readyAt ≤ s.clk then { th with readyAt := 0 } else th } } }

/-- A thread in a retake stub returns to its cut clause, with distance 0 (R373, R389). -/
def leaveStub (th : Thread) : Thread :=
  match th.stub with
  | some st => { jumpThread st.target th with stub := none, cutDist := 0, moved := false }
  | none => th

/-- `resume` (R389). -/
def opResume (f : VF) : WOp :=
    { i := .resume f
      drain := true
      rest := fun s c =>
        if f.mod = 0 then causeOf 0x067 (WCtx_who c fun th => (stubOf th).isNone)
        else firstC [causeOf 0x068 (WCtx_who c fun th => !th.inHandler), causeOf 0x069 (c.cs.filter fun l => (readRecord s c.wg c.wi l).1.isNone && ((recordFaultOf s c.wg c.wi l).isSome || !recordWaits s c.wg c.wi l))]
      hold := fun s c => f.mod ≠ 0 && c.cs.any (recordWaits s c.wg c.wi)
      eff := fun c s =>
        if f.mod = 0 then updThreads s c.wg c.wi c.cs leaveStub
        else c.cs.foldl (fun t l => match readRecord t c.wg c.wi l with
          | (some bs, u) => updThread u c.wg c.wi l fun th => leaveHandler th bs
          | (none, u) => u) s }
def execResume (f : VF) (s : State) : Host.Outcome State Fault Refusal := warpIssue (opResume f) s

/-- Threads parked at `twait` whose tokens read zero: causes of the awaited collectives are delivered, the others go on (R390). -/
def twaitExamine (s : State) (wg wi : Nat) : State :=
  match findWarp s wg wi with
  | none => s
  | some w => (Warp_live w).foldl (fun t l =>
      match w.threads[l]? with
      | some th => (match th.park with
       | some (.twait m) =>
        if zeroToks w m.toNat ≠ m.toNat then t
        else match dueOf false m.toNat { th with deferred := th.deferred.filter fun d => d.tok.isSome } with
          | some d => deliverOne t wg wi l (fun x => x.tok.isSome && isDue false m.toNat x) d th.pc
          | none => updThread t wg wi l unpark
       | _ => t)
      | none => t) s

/-- `twait` (R390). -/
def opTwait (f : VF) : WOp :=
  let m := f.b.toNat % 64
  { i := .twait f
    toks := m
    stay := true
    eff := fun c s =>
      let t := updThreads s c.wg c.wi (c.lanes.filter fun l => !c.cs.contains l) (stepThread (instrLen f.l))
      twaitExamine (updThreads t c.wg c.wi c.cs fun th => { th with park := some (.twait (BitVec.ofNat 6 m)) }) c.wg c.wi }
def execTwait (f : VF) (s : State) : Host.Outcome State Fault Refusal := warpIssue (opTwait f) s

end Sys2Proof.Machine
end

