-- ==== Sys2Proof/Machine/CueControl.lean ====
section
/-! DEFINITION. The meanings of the scalar, control, queue and status instructions of the cue stream (10 R262 to R272, R276, R278, R280) and of the system instructions that act on the issuing thread alone (13 R383 to R392). -/

namespace Sys2Proof.Machine

/-! ### Scalar instructions (10 R262 to R265) -/

/-- A scalar instruction that writes c(D) from a, b and the old c(D), as 64-bit numbers. -/
def cueAlu (i : Instr) (f : QF) (fn : Nat → Nat → Nat → Int) : COp :=
  { i := i
    eff := fun c s => setC s c f.d.toNat (wrap 64 (fn (cget c.c f.a.toNat).toNat (srcB c f).toNat (cget c.c f.d.toNat).toNat)) }

/-- Signed or unsigned reading of a 64-bit operand. -/
def asI64 (signed : Bool) (x : Nat) : Int := if signed then sextN x 64 else (x : Int)
/-- The wrap and saturation forms of `cadd` and `csub`: MOD 0 wraps, 1 clamps to signed, 2 to unsigned values. -/
def satCue (mod : Nat) (op : Int → Int → Int) (a b : Nat) : Int :=
  match mod with
  | 1 => clampI (op (asI64 true a) (asI64 true b)) (-2 ^ 63) (2 ^ 63 - 1)
  | 2 => clampI (op (a : Int) (b : Int)) 0 (2 ^ 64 - 1)
  | _ => op (a : Int) (b : Int)

/-- `cadd` (R262). -/
def opCadd (f : QF) : COp := cueAlu (.cadd f) f fun a b _ => satCue f.mod.toNat (· + ·) a b
def execCadd (f : QF) (s : State) : Host.Outcome State Fault Refusal := cueIssue (opCadd f) s
/-- `csub` (R262). -/
def opCsub (f : QF) : COp := cueAlu (.csub f) f fun a b _ => satCue f.mod.toNat (· - ·) a b
def execCsub (f : QF) (s : State) : Host.Outcome State Fault Refusal := cueIssue (opCsub f) s
/-- `cmul` (R262). -/
def opCmul (f : QF) : COp := cueAlu (.cmul f) f fun a b _ => (a * b : Nat)
def execCmul (f : QF) (s : State) : Host.Outcome State Fault Refusal := cueIssue (opCmul f) s
/-- `cmulh` (R262). -/
def opCmulh (f : QF) : COp := cueAlu (.cmulh f) f fun a b _ => (asI64 (f.mod = 0) a * asI64 (f.mod = 0) b) / (2 ^ 64 : Int)
def execCmulh (f : QF) (s : State) : Host.Outcome State Fault Refusal := cueIssue (opCmulh f) s
/-- `cand` (R262). -/
def opCand (f : QF) : COp := cueAlu (.cand f) f fun a b _ => (a &&& b : Nat)
def execCand (f : QF) (s : State) : Host.Outcome State Fault Refusal := cueIssue (opCand f) s
/-- `cor` (R262). -/
def opCor (f : QF) : COp := cueAlu (.cor f) f fun a b _ => (a ||| b : Nat)
def execCor (f : QF) (s : State) : Host.Outcome State Fault Refusal := cueIssue (opCor f) s
/-- `cxor` (R262). -/
def opCxor (f : QF) : COp := cueAlu (.cxor f) f fun a b _ => (a ^^^ b : Nat)
def execCxor (f : QF) (s : State) : Host.Outcome State Fault Refusal := cueIssue (opCxor f) s
/-- `cshl` (R262, 03 R85). -/
def opCshl (f : QF) : COp := cueAlu (.cshl f) f fun a b _ => if b < 64 then (a * 2 ^ b : Nat) else 0
def execCshl (f : QF) (s : State) : Host.Outcome State Fault Refusal := cueIssue (opCshl f) s
/-- `cshr` (R262, 03 R85). -/
def opCshr (f : QF) : COp := cueAlu (.cshr f) f fun a b _ => if b < 64 then (a / 2 ^ b : Nat) else 0
def execCshr (f : QF) (s : State) : Host.Outcome State Fault Refusal := cueIssue (opCshr f) s
/-- `csar` (R262, 03 R85). -/
def opCsar (f : QF) : COp := cueAlu (.csar f) f fun a b _ => asI64 true a / (2 ^ min b 63 : Int)
def execCsar (f : QF) (s : State) : Host.Outcome State Fault Refusal := cueIssue (opCsar f) s
/-- `cmin` (R262). -/
def opCmin (f : QF) : COp := cueAlu (.cmin f) f fun a b _ => min (asI64 (f.mod = 0) a) (asI64 (f.mod = 0) b)
def execCmin (f : QF) (s : State) : Host.Outcome State Fault Refusal := cueIssue (opCmin f) s
/-- `cmax` (R262). -/
def opCmax (f : QF) : COp := cueAlu (.cmax f) f fun a b _ => max (asI64 (f.mod = 0) a) (asI64 (f.mod = 0) b)
def execCmax (f : QF) (s : State) : Host.Outcome State Fault Refusal := cueIssue (opCmax f) s
/-- `cbfx` (R262, 03 R88). -/
def opCbfx (f : QF) : COp := cueAlu (.cbfx f) f fun a b _ => (aluBfx (2 + f.mod.toNat) a b 0 : Nat)
def execCbfx (f : QF) (s : State) : Host.Outcome State Fault Refusal := cueIssue (opCbfx f) s
/-- `cbfi` (R262, 03 R88). -/
def opCbfi (f : QF) : COp := cueAlu (.cbfi f) f fun a b d => (aluBfi 1 a b d : Nat)
def execCbfi (f : QF) (s : State) : Host.Outcome State Fault Refusal := cueIssue (opCbfi f) s
/-- `cpopc` (R262). -/
def opCpopc (f : QF) : COp := cueAlu (.cpopc f) f fun _ b _ => (popcountN b 64 : Nat)
def execCpopc (f : QF) (s : State) : Host.Outcome State Fault Refusal := cueIssue (opCpopc f) s
/-- `cclz` (R262). -/
def opCclz (f : QF) : COp := cueAlu (.cclz f) f fun _ b _ => (clzN b 64 : Nat)
def execCclz (f : QF) (s : State) : Host.Outcome State Fault Refusal := cueIssue (opCclz f) s
/-- `cmov` (R262). -/
def opCmov (f : QF) : COp := cueAlu (.cmov f) f fun _ b _ => (b : Int)
def execCmov (f : QF) (s : State) : Host.Outcome State Fault Refusal := cueIssue (opCmov f) s
/-- `csel` (R262). -/
def opCsel (f : QF) : COp :=
    { i := .csel f
      eff := fun c s => setC s c f.d.toNat (if gget c.c (f.mod.toNat % 4) != f.mod.getLsbD 2 then cget c.c f.a.toNat else srcB c f) }
def execCsel (f : QF) (s : State) : Host.Outcome State Fault Refusal := cueIssue (opCsel f) s

/-- The immediate of `cli` (R263): word 1, or 12 bits of the fields A and B. -/
def cliImm (f : QF) : Int := if f.l then f.imm.toInt else sextN (f.a.toNat * 64 + f.b.toNat) 12
/-- `cli` (R263). -/
def opCli (f : QF) : COp :=
    (cueAlu (.cli f) f fun _ _ d => match f.mod.toNat with
    | 0 => cliImm f
    | 1 => (d % 2 ^ 32 : Nat) + (wrap 32 (cliImm f)).toNat * 2 ^ 32
    | _ => ((wrap 32 (cliImm f)).toNat : Int))
def execCli (f : QF) (s : State) : Host.Outcome State Fault Refusal := cueIssue (opCli f) s

/-- Quotient, remainder and g3 of `cdiv` (R264). -/
def cdivOf (signed : Bool) (a b : Nat) : Int × Int × Bool :=
  if b = 0 then (-1, a, true)
  else if signed && a = 2 ^ 63 && b = 2 ^ 64 - 1 then (-2 ^ 63, 0, true)
  else (Int.tdiv (asI64 signed a) (asI64 signed b), Int.tmod (asI64 signed a) (asI64 signed b), false)
/-- `cdiv` (R264): it holds its core's divider, and its thread, for 34 clk (R247). -/
def opCdiv (f : QF) : COp :=
    { i := .cdiv f
      hold := fun s c => match c.k with
        | some k => s.wgs.any fun x => x.core == k.core && decide (s.clk < x.cue.nextAt)
        | none => decide (s.clk < c.c.nextAt)
      eff := fun c s =>
        let (q, r, g) := cdivOf (f.mod = 0) (cget c.c f.a.toNat).toNat (srcB c f).toNat
        updCue s c.iss fun x => { gset (cset (cset x f.d.toNat (wrap 64 q)) (f.d.toNat + 1) (wrap 64 r)) 3 g with nextAt := s.clk + 34 } }
def execCdiv (f : QF) (s : State) : Host.Outcome State Fault Refusal := cueIssue (opCdiv f) s

/-- `ccmp` (R265): D[1:0] the flag, D[5:3] the condition. -/
def opCcmp (f : QF) : COp :=
    { i := .ccmp f
      eff := fun c s =>
        let a := (cget c.c f.a.toNat).toNat
        let b := (srcB c f).toNat
        updCue s c.iss fun x => gset x (f.d.toNat % 4) (condHolds (f.d.toNat / 8) (asI64 (f.mod = 0) a) (asI64 (f.mod = 0) b) (a &&& b)) }
def execCcmp (f : QF) (s : State) : Host.Outcome State Fault Refusal := cueIssue (opCcmp f) s

/-! ### Control (R266 to R268) -/

/-- The target of `cb` and `ccall` (R266): PC + 4 × sext(IMM, 32), modulo 2^57. -/
def cbTarget (c : CCtx) (f : QF) : VAddr := c.pc + (f.imm.signExtend 57 <<< 2)
/-- Push a return address. -/
def pushCue (c : Cue) (a : VAddr) : Cue := { c with rstack := a :: c.rstack }

/-- `cb` (R266). -/
def opCb (f : QF) : COp := { i := .cb f, eff := fun c s => updCue s c.iss (jumpCue (cbTarget c f)) }
def execCb (f : QF) (s : State) : Host.Outcome State Fault Refusal := cueIssue (opCb f) s
/-- `ccall` (R266). -/
def opCcall (f : QF) : COp :=
    { i := .ccall f
      rest := fun _ c => if 8 ≤ c.c.rstack.length then ownC 0x0F9 else none
      eff := fun c s => updCue s c.iss fun x => jumpCue (cbTarget c f) (pushCue x (c.pc + 8)) }
def execCcall (f : QF) (s : State) : Host.Outcome State Fault Refusal := cueIssue (opCcall f) s
/-- `cbx` (R267). -/
def opCbx (f : QF) : COp :=
    { i := .cbx f
      c1 := fun _ c => if (cget c.c f.a.toNat).toNat % 4 ≠ 0 then ownC 0x02A else none
      rest := fun _ c => if f.mod = 1 && decide (8 ≤ c.c.rstack.length) then ownC 0x0F9 else none
      eff := fun c s => updCue s c.iss fun x =>
        jumpCue ((cget c.c f.a.toNat).setWidth 57) (if f.mod = 1 then pushCue x (c.pc + 4) else x) }
def execCbx (f : QF) (s : State) : Host.Outcome State Fault Refusal := cueIssue (opCbx f) s
/-- `cret` (R267). -/
def opCret (f : QF) : COp :=
    { i := .cret f
      rest := fun _ c => if c.c.rstack = [] then ownC 0x0FA else none
      eff := fun c s => match c.c.rstack with
        | a :: r => updCue s c.iss fun x => { jumpCue a x with rstack := r }
        | [] => s }
def execCret (f : QF) (s : State) : Host.Outcome State Fault Refusal := cueIssue (opCret f) s

/-! ### Decision queues (R276) -/

/-- Every warp of a mask that has not ended has room. -/
def dqRoom (k : Workgroup) (mask : Nat) : Bool :=
  (maskList mask 64).all fun w => match k.warps[w]? with
    | some x => x.ended || decide (x.dq.length < 16)
    | none => true
/-- Write an entry to every warp of a mask that has not ended, in a clk. -/
def dqPut (k : Workgroup) (mask : Nat) (e : DWord) (clk : Nat) : Workgroup :=
  (maskList mask 64).foldl (fun k w => Workgroup_updWarp k w fun x => if x.ended then x else { x with dq := x.dq ++ [e], dqAt := clk }) k
/-- A cue thread stands at a cut. -/
def cueStands (c : Cue) : Bool := c.ended || cueTakeable c
/-- A parked `dqpush` whose queues have room writes its entry, but not where a taking that is asked for finds it at a cut; the thread's earlier accesses are performed first. -/
def dqpushExamine (s : State) (wg : Nat) : State :=
  match findWg s wg with
  | some k => (match k.cue.park with
    | some (.dqpush m e) =>
      if dqRoom k m.toNat && !(k.take.isSome && cueStands k.cue) then
        let t := drainStream s (.cue wg)
        updWg t wg fun k => let k := dqPut k m.toNat e s.clk; { k with cue := unparkCue k.cue }
      else s
    | _ => s)
  | none => s

/-- `dqpush` (R276). -/
def opDqpush (f : QF) : COp :=
    { i := .dqpush f
      stay := true
      rest := fun _ c =>
        let n := match c.k with
          | some k => k.warps.length
          | none => 0
        if (cget c.c f.a.toNat).toNat / 2 ^ n ≠ 0 then ownC 0x0F8 else none
      eff := fun c s =>
        let t := updCue s c.iss fun x => { x with park := some (.dqpush (cget c.c f.a.toNat) (cget c.c f.b.toNat)) }
        match c.iss with
        | .cue wg => dqpushExamine t wg
        | _ => updCue t c.iss unparkCue }
def execDqpush (f : QF) (s : State) : Host.Outcome State Fault Refusal := cueIssue (opDqpush f) s
/-- `DQPUSH_WRITE` (R276). -/
def execDqpushWrite (wg : Nat) (s : State) : Host.Outcome State Fault Refusal := .next (dqpushExamine s wg)

/-! ### Barriers, waits and the end (R271, R272, R278) -/

/-- Warps of a workgroup that have not ended. -/
def warpsLeft (k : Workgroup) : Bool := k.warps.any fun w => !w.ended
/-- `wgbar` (R271). -/
def opWgbar (f : QF) : COp :=
    { i := .wgbar f
      stay := true
      rest := fun _ c => if f.mod = 0 && !(match c.k with
        | some k => warpsLeft k
        | none => false) then ownC 0x0FB else none
      eff := fun c s =>
        if f.mod = 0 then updCue s c.iss fun x => { x with park := some (.wgbar (f.a.toNat % 16)) }
        else if (match c.k with
          | some k => warpsLeft k
          | none => false) then updCue s c.iss fun x => { x with park := some .wgbarExit }
        else updCue s c.iss unparkCue }
def execWgbar (f : QF) (s : State) : Host.Outcome State Fault Refusal := cueIssue (opWgbar f) s

/-- The commands of a cue thread that are in no token, launches excepted (they are grids, not commands). -/
def untrackedCmds (s : State) (iss : Issuer) (upTo : Nat) : Bool :=
  s.cmds.any fun c => c.tok.isNone && decide (c.id < upTo) && (match iss, c.owner with
    | .cue wg, .cue wg' => wg == wg'
    | .mgmt m, .mgmt m' => m == m'
    | _, _ => false)
/-- What a `cwait` names has settled: its tokens read zero, or with mask 0 every untracked command issued before it is complete. -/
def cwaitDone (s : State) (iss : Issuer) (c : Cue) (mask upTo : Nat) : Bool :=
  if mask = 0 then !untrackedCmds s iss upTo else (maskList mask 6).all fun i => Cue_tok c i = 0
/-- The tokens a `cwait` delivers for. -/
def cwaitToks (mask : Nat) : Nat := if mask = 0 then 64 else mask
/-- Deferred engine causes only (13 R357). -/
def engineDue (c : Cue) (toks : Nat) : Option Deferred := dueIn false toks (c.deferred.filter fun d => d.tok.isSome)
/-- A cue thread parked at `cwait` whose wait has settled: a deferred cause is delivered there, or it goes on after an acquire (R254, R278). -/
def cwaitExamine (s : State) (iss : Issuer) : State :=
  match findCue s iss with
  | some c => (match c.park with
    | some (.cwait m up) =>
      if !cwaitDone s iss c m.toNat up then s
      else match (if inTrap s iss then none else engineDue c (cwaitToks m.toNat)) with
        | some d =>
          let t := updCue s iss fun x => { x with deferred := x.deferred.filter fun y => y.tok.isNone || !isDue false (cwaitToks m.toNat) y }
          takeCue t iss (dueRec d c.pc)
        | none => acquire (updCue s iss unparkCue) iss 0x7F
    | _ => s)
  | none => s

/-- `cwait` (R278). -/
def opCwait (f : QF) : COp :=
    { i := .cwait f
      stay := true
      toks := fun s c => if cwaitDone s c.iss c.c f.b.toNat s.nextId then cwaitToks f.b.toNat else 0
      eff := fun c s => cwaitExamine (updCue s c.iss fun x => { x with park := some (.cwait (BitVec.ofNat 6 f.b.toNat) s.nextId) }) c.iss }
def execCwait (f : QF) (s : State) : Host.Outcome State Fault Refusal := cueIssue (opCwait f) s

/-- `cend` (R272): the thread stands at its end until its pending work has settled. -/
def opCend (f : QF) : COp := { i := .cend f, stay := true, eff := fun c s => updCue s c.iss fun x => { x with park := some .cend } }
def execCend (f : QF) (s : State) : Host.Outcome State Fault Refusal := cueIssue (opCend f) s

/-- A cue thread stands at its `cend`, and its long instructions and untracked commands have completed; the causes of a management core in its trap wait for its `iret` (13 R362). -/
def cendDue (s : State) (iss : Issuer) (c : Cue) : Bool :=
  c.park == some .cend && c.windows.all (·.done) && !untrackedCmds s iss s.nextId && !(inTrap s iss && (dueIn true 64 c.deferred).isSome)
/-- The end of a cue thread, a management core's too (R272): the deferred causes of what it awaited are delivered first, and those of tracked commands go to the management core. -/
def cueEnd (s : State) (iss : Issuer) : State :=
  match findCue s iss with
  | some c =>
    if !cendDue s iss c then s
    else match dueIn true 64 c.deferred with
      | some d => takeCue (updCue s iss fun x => { x with park := none, deferred := x.deferred.filter fun y => !isDue true 64 y }) iss (dueRec d c.pc)
      | none => (c.deferred).foldl (fun t d => postRec t (postedRec c d) ((issuerWg s iss).map (·.id))) (updCue (drainStream s iss) iss fun x => { x with ended := true, park := none, clause := none, deferred := [] })
  | none => s
/-- `CUE_THREAD_END` (R272). -/
def execCueThreadEnd (wg : Nat) (s : State) : Host.Outcome State Fault Refusal := .next (cueEnd s (.cue wg))

/-! ### Migration and status (R269, R280) -/

/-- What a `cmig` asks for (R269): a core, or 2,048 plus a physical address; or its cause. An address that translates, but to no memory homed here, raises 0x0FD too (DESIGN CHOICE: log 92). -/
def cmigTarget (s : State) (c : CCtx) (f : QF) : Except Nat Nat :=
  let v := (cget c.c f.a.toNat).toNat
  if f.mod = 0 then
    if 2047 < v ∨ !s.part.pairen.getLsbD (v / 2) then .error 0x0FC else .ok v
  else if 2 ^ 57 ≤ v then .error 0x0FD
  else match translate s (c.k.map (·.core)) (spaceOf s c.iss).1 (spaceOf s c.iss).2 v with
    | .ok t => if t.pa / 2 ^ 46 = ownDev s ∧ t.pa % 2 ^ 46 < hbmCap s then .ok (2048 + t.pa % 2 ^ 46) else .error 0x0FD
    | .error _ => .error 0x0FD
/-- A request of migration: it replaces a pending one, and naming the present core cancels it. -/
def cmigRequest (k : Workgroup) (target clk : Nat) : Workgroup :=
  if target = k.core then { k with cmig := none, take := if k.take = some .migrate then none else k.take }
  else { k with cmig := some target, take := if k.take.isSome then k.take else some .migrate, takeAt := if k.take.isSome then k.takeAt else clk }
/-- `cmig` (R269, R270). -/
def opCmig (f : QF) : COp :=
    { i := .cmig f
      rest := fun s c => match cmigTarget s c f with
        | .error n => ownC n
        | .ok _ => none
      eff := fun c s => match cmigTarget s c f, c.iss with
        | .ok v, .cue wg => updWg s wg fun k => cmigRequest k v s.clk
        | _, _ => s }
def execCmig (f : QF) (s : State) : Host.Outcome State Fault Refusal := cueIssue (opCmig f) s

/-- `cslot` (R280): a management core's thread has no launch record, and every slot of it is unbound (log 29). -/
def opCslot (f : QF) : COp :=
    { i := .cslot f
      eff := fun c s => setC s c f.d.toNat (BitVec.ofNat 64 (match c.g with
        | some g => slotValue (LaunchRec_slot g.lrec (f.a.toNat % 8)) f.mod.toNat
        | none => 0)) }
def execCslot (f : QF) (s : State) : Host.Outcome State Fault Refusal := cueIssue (opCslot f) s

/-- The value of `wstat` (R280). -/
def wstatOf (c : CCtx) (what : Nat) : Nat :=
  let ws := match c.k with
    | some k => k.warps
    | none => []
  let bits := fun (p : Warp → Bool) => bitsOf (fun i => match ws[i]? with
    | some w => p w
    | none => false) 64
  match what with
  | 0 => bits fun w => !w.ended
  | 1 => bits fun w => w.dq.length = 16
  | 2 => bits fun w => w.dq = []
  | 3 => (List.range 6).foldl (fun a i => a + Cue_tok c.c i * 2 ^ (6 * i)) 0
  | _ => match c.k with
    | some k => if k.cmig.isSome then 1 else 0
    | none => 0
/-- `wstat` (R280). -/
def opWstat (f : QF) : COp := { i := .wstat f, eff := fun c s => setC s c f.d.toNat (BitVec.ofNat 64 (wstatOf c f.mod.toNat)) }
def execWstat (f : QF) (s : State) : Host.Outcome State Fault Refusal := cueIssue (opWstat f) s

/-! ### System instructions of the issuing thread (13 R383 to R392) -/

/-- `ctrap` (R383): RPC is the next instruction (R355). -/
def opCtrap (f : QF) : COp :=
    { i := .ctrap f
      eff := fun c s => takeCue s c.iss { cause := BitVec.ofNat 9 (0x180 + f.b.toNat % 32), kind := 0, fpc := c.pc.toNat, rpc := (c.pc + 4).toNat } }
def execCtrap (f : QF) (s : State) : Host.Outcome State Fault Refusal := cueIssue (opCtrap f) s

/-- `cwake` (R386). -/
def opCwake (f : QF) : COp :=
    { i := .cwake f
      rest := fun _ c => (wakeCause (cget c.c f.a.toNat).toNat (match c.g with
        | some g => g.wakeOk
        | none => true)).map fun x => ⟨x, 0, []⟩
      eff := fun c s => markCue (wakeNow s c.iss (cget c.c f.a.toNat).toNat (cget c.c f.b.toNat).toNat) c 6 0 }
def execCwake (f : QF) (s : State) : Host.Outcome State Fault Refusal := cueIssue (opCwake f) s

/-- A special register as a cue thread reads it (R381); of a management core the spec states the device's registers and the trap's, and the rest are free values (log 26). -/
def sregCue (s : State) (c : CCtx) (n : Nat) : Option DWord :=
  match c.iss, c.g, c.k with
  | .mgmt m, _, _ =>
    (match s.mgmt[m]? with
    | none => none
    | some x =>
      if n = 48 then some x.mepc else if n = 49 then some x.mcause else if n = 50 then some x.maddr
      else if n = 51 then some x.mtvec else if n = 52 then some x.mscratch
      else if n = 15 then some (BitVec.ofNat 64 m)
      else if n = 20 then some (BitVec.ofNat 64 s.clk)
      else if n = 24 then some (BitVec.ofNat 64 (2 * numPairs s))
      else if n = 25 then some (BitVec.ofNat 64 (numPairs s))
      else if n = 26 then some (BitVec.ofNat 64 (numSlices s))
      else if (5 ≤ n ∧ n ≤ 20) ∨ (27 ≤ n ∧ n ≤ 32) then some (Config.unstated n) else none)
  | _, some g, some k => (sregCommon s g k n).map (BitVec.ofNat 64)
  | _, _, _ => none

/-- `csreg` (R387). -/
def opCsreg (f : QF) : COp :=
    { i := .csreg f
      c1 := fun s c => if (sregCue s c f.b.toNat).isNone then ownC 0x02D else none
      eff := fun c s => setC s c f.d.toNat ((sregCue s c f.b.toNat).getD 0) }
def execCsreg (f : QF) (s : State) : Host.Outcome State Fault Refusal := cueIssue (opCsreg f) s

/-- `cswreg` (R387): `%mepc`, `%mtvec` and `%mscratch` of a management core. -/
def opCswreg (f : QF) : COp :=
    { i := .cswreg f
      c1 := fun s c =>
        if (sregCue s c f.b.toNat).isNone then ownC 0x02D
        else if f.b = 48 ∨ f.b = 51 ∨ f.b = 52 then none else ownC 0x02E
      eff := fun c s =>
        let v := cget c.c f.a.toNat
        match c.iss with
        | .mgmt m => { s with mgmt := s.mgmt.modify m fun x =>
            if f.b = 48 then { x with mepc := v } else if f.b = 51 then { x with mtvec := v } else { x with mscratch := v } }
        | _ => s }
def execCswreg (f : QF) (s : State) : Host.Outcome State Fault Refusal := cueIssue (opCswreg f) s

/-- The record a cue handler returns by (R389 MOD 1): four 16-byte loads at c63, or none when it cannot be read or is invalid; and the state they leave. -/
def cueRecord (s : State) (c : CCtx) : Option (List Byte) × State :=
  let a := (cget c.c 63).toNat
  let (bs, ok, t) := [0, 16, 32, 48].foldl (fun (acc : List Byte × Bool × State) o =>
    let (bs, ok, t) := acc
    let x := (a + o) % 2 ^ 64
    match placeGlobal t c.iss x 16 false false with
    | .ok loc tr =>
      if (lockHit t c.iss (spaceAt .global x) loc 16 false false).isSome then (bs, false, t)
      else
        let (b, cap, u) := loadAt (beforeAccess t c.iss [(loc, tr)]) c.iss loc tr 16 false
        (bs ++ b, ok && cap == .good, touchTlb u c.iss x tr)
    | _ => (bs, false, t)) (([] : List Byte), true, s)
  (if ok && recordOk bs then some bs else none, t)

/-- A load of the record waits for a page in transition. -/
def cueRecordWaits (s : State) (c : CCtx) : Bool :=
  let at_ := fun o => placeGlobal s c.iss (((cget c.c 63).toNat + o) % 2 ^ 64) 16 false false
  let waits := fun (x : Acc) => match x with
    | .wait => true
    | _ => false
  [0, 16, 32, 48].any (fun o => waits (at_ o)) && [0, 16, 32, 48].all fun o => match at_ o with
    | .fault _ => false
    | .ok loc _ => (lockHit s c.iss (spaceAt .global (((cget c.c 63).toNat + o) % 2 ^ 64)) loc 16 false false).isNone
    | .wait => true
/-- `cresume` (R389). -/
def opCresume (f : QF) : COp :=
    { i := .cresume f
      drain := true
      rest := fun s c =>
        if f.mod = 0 then (if (cueStub c.c).isNone then ownC 0x067 else none)
        else if !c.c.inHandler then ownC 0x068
        else if (cueRecord s c).1.isNone && !cueRecordWaits s c then ownC 0x069 else none
      hold := fun s c => f.mod ≠ 0 && cueRecordWaits s c
      eff := fun c s =>
        if f.mod = 0 then
          updCue s c.iss fun x => match x.stub with
            | some st => { jumpCue st.target x with stub := none, cutDist := 0, moved := false }
            | none => x
        else match cueRecord s c with
          | (some bs, s) =>
            let rpc := leNat ((bs.drop 16).take 8)
            updCue s c.iss fun x =>
              { (cset x 63 (BitVec.ofNat 64 (leNat ((bs.drop 32).take 8)))) with
                inHandler := false, pc := BitVec.ofNat 57 rpc, clause := resumeClause x.saved rpc, saved := none, moved := false }
          | (none, s) => s }
def execCresume (f : QF) (s : State) : Host.Outcome State Fault Refusal := cueIssue (opCresume f) s

/-- `iret` (R391). -/
def opIret (f : QF) : COp :=
    { i := .iret f
      eff := fun c s => match c.iss with
        | .mgmt m => { s with mgmt := s.mgmt.modify m fun x => { x with
            inTrap := false
            cue := { x.cue with pc := x.mepc.setWidth 57, clause := resumeClause x.cue.saved (x.mepc.toNat % 2 ^ 57), saved := none } } }
        | _ => s }
def execIret (f : QF) (s : State) : Host.Outcome State Fault Refusal := cueIssue (opIret f) s

/-- `illegal opcode` (02 R59 to R61): the cause 0x000 or 0x010, before any other field. -/
def execIllegalOpcode (cue : Bool) (word : Word) (s : State) : Host.Outcome State Fault Refusal :=
  if cue then cueIssue { i := .illegalOpcode cue word, eff := fun _ s => s } s
  else warpIssue { i := .illegalOpcode cue word, eff := fun _ s => s } s

end Sys2Proof.Machine
end

