-- ==== Sys2Proof/Machine/CueMemory.lean ====
section
/-! DEFINITION. The meanings of the memory, ordering and service instructions of the cue stream (10 R273 to R275, 13 R385). -/

namespace Sys2Proof.Machine

/-- The address of a QM access (R273): (c(A) + sext(OFS, 12)) mod 2^64. -/
def qmAddr (c : CCtx) (f : QM) : Nat := (cget c.c f.a.toNat + f.ofs.signExtend 64).toNat
/-- The one access of a cue instruction. -/
def qmAccs (a n : Nat) (w excl : Bool) (s : State) (c : CCtx) : List LAcc := [⟨0, a, placeGlobal s c.iss a n w excl⟩]
/-- The version budget and capacity of a cue thread's write (13 R365): class-11 reasons 0 and 1, issuer 1. -/
def cueVersion (s : State) (c : CCtx) (n : Nat) (l : List LAcc) : Option OwnC :=
  match c.k, c.g with
  | some k, some g =>
    if k.taskOn && g.lrec.hmask.getLsbD 11 then
      let lines := (l.flatMap fun a => match a.acc with
        | .ok (.mem pa) _ => versionNewLines k pa n
        | _ => []).eraseDups
      if k.vbytes + 128 * lines.length > g.lrec.vbudget then ownC 0x161 else if versionFull s lines then ownC 0x165 else none
    else none
  | _, _ => none
/-- The memory and lock causes of a cue access (13 R346 steps 8 to 10). -/
def cueAccess (s : State) (c : CCtx) (n : Nat) (w rmw : Bool) (l : List LAcc) : Option OwnC :=
  firstC [if w && !rmw then cueVersion s c n l else none, memFault l, lockFault s c.iss (spaceAt .global) n w rmw l]

/-- The bytes of a QM access. -/
def qmBytes (f : QM) : Nat := 2 ^ f.wid.toNat
/-- The value a `cld` writes (R273): zero-extended, or sign-extended under MOD 1. -/
def cldVal (f : QM) (v : Nat) : Nat := if f.mod = 1 then (wrap 64 (sextN v (8 * qmBytes f))).toNat else v
/-- The register writes of a value in c(D), or c(D):c(D+1) for 128 bits. -/
def cueWrites (d v n : Nat) : List RegWrite := (List.range n).map fun j => ⟨0, d + j, BitVec.ofNat 64 (v / 2 ^ (64 * j))⟩
/-- Data of a store: c(D), or the pair. -/
def qmData (c : CCtx) (f : QM) : Nat := (cget c.c f.d.toNat).toNat + (if f.wid = 4 then (cget c.c (f.d.toNat + 1)).toNat * 2 ^ 64 else 0)

/-- `cld` (R273). -/
def opCld (f : QM) : COp :=
    { i := .cld f
      rest := fun s c => cueAccess s c (qmBytes f) false false (qmAccs (qmAddr c f) (qmBytes f) false false s c)
      hold := fun s c => anyWait (qmAccs (qmAddr c f) (qmBytes f) false false s c)
      eff := fun c s =>
        let a := qmAddr c f
        let t := beforeAccess s c.iss (placesOf (qmAccs a (qmBytes f) false false s c))
        match placeGlobal t c.iss a (qmBytes f) false false with
        | .ok loc tr =>
          let (bs, cap, t) := loadAt t c.iss loc tr (qmBytes f) (f.ordr ≠ 0 && (f.ordr = 2 || obsBeyondT f.obs))
          let t := touchTlb t c.iss a tr
          let t := if f.ordr = 2 then acquire t c.iss f.obs else t
          let out : OpOut := match integrityCause 6 cap with
            | some x => { bad := [(0, x, BitVec.ofNat 64 a)] }
            | none => { writes := cueWrites f.d.toNat (cldVal f (leNat bs)) (qmRegs f.wid.toNat) }
          launchCueFlight t c (.cld f) (.load out.writes [] out.bad) false
        | _ => t }
def execCld (f : QM) (s : State) : Host.Outcome State Fault Refusal := cueIssue (opCld f) s

/-- A release of a cue thread is held until the peers have acknowledged its core's writes, which it sends first. -/
def cueRelHold (rel : Bool) (obs : BitVec 7) (s : State) (c : CCtx) : Bool := rel && relHold s c.iss obs
def cueRelPrep (rel : Bool) (obs : BitVec 7) (s : State) (c : CCtx) : Option State := if rel then relFlush s c.iss obs else none
/-- The marks of a versioned task that a store to a peer or to the host leaves (13 R351). -/
def markCueStore (s : State) (c : CCtx) (loc : Loc) (look : Nat) : State :=
  match loc with
  | .peer _ => markCue s c 4 look
  | .host _ => markCue s c 5 look
  | _ => s
/-- A cue thread's store is still on its way once it has issued (see `onItsWay`). -/
def cueOnWay (c : CCtx) (strong : Bool) (loc : Loc) (t : Trans) : Bool :=
  (strong || t.sc) && match loc with
    | .mem _ => !(match c.k with
      | some k => k.taskOn
      | none => false)
    | .host _ => true
    | .peer _ => true
    | _ => false
/-- `cst` (R273). -/
def opCst (f : QM) : COp :=
    { i := .cst f
      rest := fun s c => cueAccess s c (qmBytes f) true false (qmAccs (qmAddr c f) (qmBytes f) true false s c)
      hold := fun s c => anyWait (qmAccs (qmAddr c f) (qmBytes f) true false s c) || cueRelHold (f.ordr = 3) f.obs s c
      prep := cueRelPrep (f.ordr = 3) f.obs
      eff := fun c s =>
        let a := qmAddr c f
        let strong := f.ordr ≠ 0 && obsBeyondT f.obs
        let t := orderBefore s c.iss (f.ordr = 3) f.obs (placesOf (qmAccs a (qmBytes f) true false s c))
        match placeGlobal t c.iss a (qmBytes f) true false with
        | .ok loc tr =>
          let t := touchTlb t c.iss a tr
          if cueOnWay c strong loc tr then
            launchCueFlight (markCueStore t c loc f.look.toNat) c (.cst f)
              (.exec (.cst f) [⟨0, loc, BitVec.ofNat 64 a, [BitVec.ofNat 64 (qmData c f), BitVec.ofNat 64 (qmData c f / 2 ^ 64)], tr.sc⟩] (issuerKey s c.iss)) false
          else
            let t := storeAt t c.iss 0 loc tr (leBytes (qmBytes f) (qmData c f)) strong (c.pc, BitVec.ofNat 64 a)
            launchCueFlight (markCueStore t c loc f.look.toNat) c (.cst f) .plain false
        | _ => t }
def execCst (f : QM) (s : State) : Host.Outcome State Fault Refusal := cueIssue (opCst f) s

/-- Accesses of an operation at an execution point: only `cld` and `cst` reach the register map of a management core (08 R187). -/
def pointAccs (f : QM) (n : Nat) (excl : Bool) (s : State) (c : CCtx) : List LAcc :=
  (qmAccs (qmAddr c f) n true excl s c).map fun a => match a.acc with
    | .ok (.mreg _) _ => { a with acc := .fault (memCause .global true 2) }
    | _ => a
/-- An operation of a cue thread at an execution point (09 R220): its granule leaves L1, a release runs first, and it is in flight. -/
def cuePoint (i : Instr) (f : QM) (n : Nat) (excl : Bool) (own : State → CCtx → List LAcc → Option OwnC) (ops : CCtx → List DWord) : COp :=
  { i := i
    rest := fun s c =>
      let l := pointAccs f n excl s c
      firstC [own s c l, memFault l, lockFault s c.iss (spaceAt .global) n true true l]
    hold := fun s c => anyWait (pointAccs f n excl s c) || cueRelHold (isRel f.ordr.toNat) f.obs s c
    prep := cueRelPrep (isRel f.ordr.toNat) f.obs
    eff := fun c s =>
      let a := qmAddr c f
      let t := orderBefore s c.iss (isRel f.ordr.toNat) f.obs (placesOf (pointAccs f n excl s c))
      match placeGlobal t c.iss a n true excl with
      | .ok loc tr =>
        let t := touchTlb (pointDrop t c.iss loc n) c.iss a tr
        markCue (launchCueFlight t c i (.exec i [⟨0, loc, BitVec.ofNat 64 a, ops c, tr.sc⟩] (issuerKey s c.iss)) false) c 2 f.look.toNat
      | _ => t }

/-- `catom` (R274): the offset field holds the operation, so the address is c(A). -/
def opCatom (f : QM) : COp :=
    (let p := cuePoint (.catom f) { f with ofs := 0 } (qmBytes f) false
      (fun s c l => locCause s c.iss l (some 0x0FE) (if f.mod = 2 && decide (3 ≤ f.ofs.toNat % 32) then some 0x0FE else none))
      (fun c => [cget c.c f.b.toNat, cget c.c f.d.toNat])
     { p with i := .catom f })
def execCatom (f : QM) (s : State) : Host.Outcome State Fault Refusal := cueIssue (opCatom f) s

/-- `cfence` (R275, 09 R218): it completes at issue, once the peers have acknowledged what it waits for, and opens its LOOK window (R247). -/
def opCfence (f : QM) : COp :=
    { i := .cfence f
      hold := cueRelHold (isRel f.ordr.toNat) f.obs
      prep := cueRelPrep (isRel f.ordr.toNat) f.obs
      eff := fun c s => launchCueFlight (fenceNow s c.iss f.ordr.toNat f.obs) c (.cfence f) .plain false }
def execCfence (f : QM) (s : State) : Host.Outcome State Fault Refusal := cueIssue (opCfence f) s

/-- `cforage` (R275). -/
def opCforage (f : QM) : COp :=
    (cuePoint (.cforage f) f 32 true
    (fun s c l => firstC [(misaligned 0x0F5 32 l), (if windowOf (qmAddr c f) ≠ 0 then ownC 0x0FF else none), locCause s c.iss l (some 0x0FF) (some 0x0FF)])
    (fun _ => []))
def execCforage (f : QM) (s : State) : Host.Outcome State Fault Refusal := cueIssue (opCforage f) s

/-- Queue, request words and record bytes of a `csvc` (R385). -/
def csvcSize (f : QM) : Nat × Nat × Nat := let n := f.ofs.toNat / 16 % 4 + 1; (f.ofs.toNat % 16, n, 64 + 8 * n + 8)

/-- `csvc` (R385): c(A) to c(A + N − 1) as 8-byte words, and a 64-bit reply. -/
def opCsvc (f : QM) : COp :=
    { i := .csvc f
      rest := fun s c => (svcCause s (csvcSize f).1 (match c.g with
        | some g => g.svcOk
        | none => true) (csvcSize f).2.2).map fun x => ⟨x, 0, []⟩
      hold := fun s c => let _ := c; svcFull s (csvcSize f).1
      eff := fun c s =>
        let (q, n, _) := csvcSize f
        let t := markCue s c 6 f.look.toNat
        if !svcBacked t q then launchCueFlight t c (.csvc f) (.load [] [] [(0, 0x1AA, 0)]) true
        else
          let d := svcDesc t q
          let (num, task, core) := match c.g, c.k with
            | some g, some k => (g.num, (taskOf t k).toNat, k.core)
            | _, _ => (0, 0xFFFFFFFF, 0)
          let bs := svcHeader q n 1 0 1 num task core ++ (List.range n).flatMap fun j => leBytes 8 (cget c.c (f.a.toNat + j)).toNat
          let t := svcPost t c.iss q bs
          launchCueFlight t c (.csvc f) (.svc q d.widx f.d.toNat [0] (64 + 8 * n) t.clk) true }
def execCsvc (f : QM) (s : State) : Host.Outcome State Fault Refusal := cueIssue (opCsvc f) s

end Sys2Proof.Machine
end

