-- ==== Sys2Proof/Machine/Tiles.lean ====
section
/-! DEFINITION. Tiles and accumulators (11 R281 to R285): the configuration word, the geometry of elements and scales, reads and writes of containers, element values, and which tiles and accumulators a command reads and writes (R286, R288). -/

namespace Sys2Proof.Machine

/-! ### The configuration word (R282) -/

def tRows (w : DWord) : Nat := fldN w 7 0 + 1
def tCols (w : DWord) : Nat := fldN w 17 8 + 1
def tType (w : DWord) : Nat := fldN w 20 18
def tSlot (w : DWord) : Nat := fldN w 23 21
def tRax (w : DWord) : Nat := fldN w 24 24
def tGbase (w : DWord) : Nat := fldN w 38 32
/-- The slot word of a TYPE 0 tile; 0 for the others. -/
def tFmt (g : LaunchRec) (w : DWord) : Word := if tType w = 0 then LaunchRec_slot g (tSlot w) else 0
/-- Container size in nibbles (R283). -/
def tNib (g : LaunchRec) (w : DWord) : Nat :=
  match tType w with
  | 0 => if slW (tFmt g w) ≤ 4 then 1 else 2
  | 1 => 4
  | 2 => 4
  | _ => 8
/-- Row pitch in bytes. -/
def tPitch (g : LaunchRec) (w : DWord) : Nat := roundUp (ceilDiv (tCols w * tNib g w) 2) 16
/-- Unrounded bytes of the scale area. -/
def tScaleRaw (g : LaunchRec) (w : DWord) : Nat :=
  let f := tFmt g w
  if tType w ≠ 0 then 0
  else match slSCM f with
    | 1 => scaleSize (slSCF f)
    | 2 => (if tRax w = 0 then tRows w * ceilDiv (tCols w) (slBlock f) else tCols w * ceilDiv (tRows w) (slBlock f)) * scaleSize (slSCF f)
    | _ => 0
/-- First byte and rounded size of the scale area. -/
def tScaleAt (g : LaunchRec) (w : DWord) : Nat := tRows w * tPitch g w
def tScaleSize (g : LaunchRec) (w : DWord) : Nat := roundUp (tScaleRaw g w) 16
def tSize (g : LaunchRec) (w : DWord) : Nat := tScaleAt g w + tScaleSize g w
def tGranules (g : LaunchRec) (w : DWord) : Nat := ceilDiv (tSize g w) 4096
/-- Tile byte of the scale of element (r, c); none without scales. -/
def tScaleOf (g : LaunchRec) (w : DWord) (r c : Nat) : Option Nat :=
  let f := tFmt g w
  let z := scaleSize (slSCF f)
  if tType w ≠ 0 then none
  else match slSCM f with
    | 1 => some (tScaleAt g w)
    | 2 =>
      let b := slBlock f
      some (tScaleAt g w + (if tRax w = 0 then r * ceilDiv (tCols w) b + c / b else c * ceilDiv (tRows w) b + r / b) * z)
    | _ => none

/-! ### Contents -/

/-- n bytes of a tile, as a number. -/
def tileNat (k : Workgroup) (w : DWord) (at_ n : Nat) : Nat := leNat (SMap.getList k.tiles (tGbase w * 4096 + at_) n)
/-- Write n bytes of a tile. -/
def tilePut (k : Workgroup) (w : DWord) (at_ n v : Nat) : Workgroup := { k with tiles := SMap.setList k.tiles (tGbase w * 4096 + at_) (leBytes n v) }
/-- The container of element (r, c). -/
def elemGet (g : LaunchRec) (k : Workgroup) (w : DWord) (r c : Nat) : Nat :=
  let nb := tNib g w
  if nb = 1 then tileNat k w (r * tPitch g w + c / 2) 1 / 16 ^ (c % 2) % 16 else tileNat k w (r * tPitch g w + c * (nb / 2)) (nb / 2)
/-- The bits of a container that hold a code of the tile; those above it are written as zero (05 R120). -/
def codeBits (g : LaunchRec) (w : DWord) (v : Nat) : Nat := if tType w = 0 then v % 2 ^ slW (tFmt g w) else v
/-- Write the container of element (r, c). -/
def elemPut (g : LaunchRec) (k : Workgroup) (w : DWord) (r c x : Nat) : Workgroup :=
  let nb := tNib g w
  let v := codeBits g w x
  if nb = 1 then
    let a := r * tPitch g w + c / 2
    let old := tileNat k w a 1
    tilePut k w a 1 (if c % 2 = 0 then old / 16 * 16 + v % 16 else old % 16 + v % 16 * 16)
  else tilePut k w (r * tPitch g w + c * (nb / 2)) (nb / 2) v
/-- A tile has been written: its generation rises (R284). -/
def bumpGen (k : Workgroup) (t : Nat) : Workgroup := { k with tgen := SMap.set k.tgen t (k.tgen.get t + 1) }

/-- The scale of an element: 1 without scales, none for an invalid code (R122). -/
def elemScale (g : LaunchRec) (k : Workgroup) (w : DWord) (r c : Nat) : Option FVal :=
  match tScaleOf g w r c with
  | none => some (.fin false 1 0)
  | some a => let z := slSCF (tFmt g w); scaleVal z (tileNat k w a (scaleSize z))

/-- The value of an element with its scale (R298), and whether its scale code is invalid: then it is a NaN. -/
def elemVal (g : LaunchRec) (k : Workgroup) (w : DWord) (r c : Nat) : FVal × Bool :=
  let x := elemGet g k w r c
  let v := match tType w with
    | 0 => slDecode (tFmt g w) x
    | 1 => Fmt.f16.unpack x
    | 2 => Fmt.bf16.unpack x
    | 3 => Fmt.f32.unpack x
    | _ => .fin (decide (sextN x 32 < 0)) (sextN x 32).natAbs 0
  match elemScale g k w r c with
  | none => (.nan false, true)
  | some s => ((fMul v s).1, false)

/-! ### Accumulators (R285) -/

def accGet (k : Workgroup) (a r c : Nat) : Nat := (k.acc.get (8192 * a + 256 * r + c)).toNat
def accPut (k : Workgroup) (a r c v : Nat) : Workgroup := { k with acc := SMap.set k.acc (8192 * a + 256 * r + c) (BitVec.ofNat 32 v) }

/-! ### What commands touch (R286, R288) -/

/-- Tiles read, tiles written, accumulators read and accumulators written by an array command; the lists name every one that it may touch. -/
structure Touch where
  tr : List Nat := []
  tw : List Nat := []
  ar : List Nat := []
  aw : List Nat := []
  deriving DecidableEq, Repr

def touchOf (i : Instr) : Touch :=
  match i with
  | .tcfg f => { tw := [f.ta.toNat] }
  | .tld f => { tw := [f.ta.toNat] }
  | .tsd f => { tr := [f.ta.toNat] }
  | .tzero f => { tw := [f.ta.toNat] }
  | .txpose f => { tr := [f.ta.toNat], tw := [f.tb.toNat] }
  | .arrw f => { tr := [f.tb.toNat] }
  | .arrmm f => { tr := [f.ta.toNat, f.tb.toNat], ar := [f.ac.toNat], aw := [f.ac.toNat] }
  | .arrdist f => { tr := [f.ta.toNat, f.tb.toNat], ar := [f.ac.toNat], aw := [f.ac.toNat] }
  | .arrmmg _ => { tr := List.range 16, ar := List.range 8, aw := List.range 8 }
  | .arrcent f => { tr := [f.ta.toNat, f.tb.toNat], ar := [f.ac.toNat], aw := [f.ac.toNat] }
  | .arrbest f => { ar := [f.ac.toNat] }
  | .adrain f => { tw := if f.mod = 3 then [f.ta.toNat] else [], ar := [f.ac.toNat], aw := if f.opt.getLsbD 3 then [f.ac.toNat] else [] }
  | .adrainp f => { ar := [f.ac.toNat] }
  | .adraine f => { ar := [f.ac.toNat] }
  | .azero f => { aw := [f.ac.toNat] }
  | .aload f => { tr := if f.mod = 3 then [f.ta.toNat] else [], ar := [f.ac.toNat], aw := [f.ac.toNat] }
  | _ => {}

def isTcfg : Instr → Bool
  | .tcfg _ => true
  | _ => false

/-- Array commands of a workgroup, queued or executing. -/
def arrayCmds (s : State) (wg : Nat) : List Cmd := s.cmds.filter fun c => c.owner == .cue wg && (isTcfg c.op || touchOf c.op != {})

end Sys2Proof.Machine
end

