-- ==== Sys2Proof/Machine/Commands.lean ====
section
/-! DEFINITION. What engine commands share: the accesses an engine makes for its issuer (11 R289, 12 R321), range registration (09 R222), issue into a queue (10 R244, 12 R313), and completion (09 R224, 13 R357). -/

namespace Sys2Proof.Machine

/-! ### The outcome of a step of an engine -/

/-- A step of an engine: it goes on, stops with a deferred cause and an address, or waits for a page in transition. -/
inductive Run where
  | go (s : State)
  | stop (s : State) (c : Cause) (a : BitVec 64)
  | wait
  deriving DecidableEq, Repr

/-- Steps over a list, up to the first that does not go on. -/
def runList {α : Type} (f : State → α → Run) : List α → State → Run
  | [], s => .go s
  | x :: r, s => match f s x with
    | .go t => runList f r t
    | o => o

/-- Go on with the state a step leaves. -/
def Run.andThen (r : Run) (f : State → Run) : Run :=
  match r with
  | .go s => f s
  | o => o

/-! ### Accesses of an engine -/

/-- For whom an engine acts: its command, issuer, core and cluster, address space, class-11 issuer number (13 R351: 2 bulk, 3 array or slice unit), and the causes of an operand in the host window, of one on a peer, and of a peer that cannot be reached, where the command has one of its own. -/
structure Eng where
  cmd : Nat
  iss : Issuer
  core : Option Nat
  cluster : Nat
  asid : BitVec 16
  root : Nat
  unit : Nat
  host : Cause
  peer : Option Cause
  down : Option Cause
  deriving DecidableEq, Repr

/-- The issuer of a command's owner. -/
def ownerIss : CmdOwner → Issuer
  | .cue wg => .cue wg
  | .mgmt m => .mgmt m
  | _ => .none

/-- Whether a command is one of the array (11 R286). -/
def isArray (i : Instr) : Bool := cueClass i = 1
/-- Commands of the bulk queue (12 R313). -/
def isBulk (i : Instr) : Bool :=
  match i with
  | .bcp _ => true
  | .bgat _ => true
  | .bsca _ => true
  | .bexp _ => true
  | .bfill _ => true
  | .bpeer _ => true
  | _ => false
/-- Commands whose operands may lie on a peer (12 R321, R327, R334). -/
def peerOk (i : Instr) : Bool :=
  match i with
  | .bpeer _ => true
  | .xopen _ => true
  | i => isArray i

/-- The engine of a command. A management core's commands use a queue, engines and a range-lock table of their own, since it belongs to no cluster (DESIGN CHOICE: log 14). -/
def engOf (s : State) (c : Cmd) : Eng :=
  let iss := ownerIss c.owner
  let (asid, root) := match c.owner with
    | .queue q _ => (match findQueue s q with
      | some x => (x.asid, x.root)
      | none => (0, 0))
    | _ => spaceOf s iss
  let cluster := match c.owner with
    | .queue q _ => (match findQueue s q with
      | some x => x.cluster
      | none => 0)
    | _ => issuerCluster s iss
  { cmd := c.id, iss := iss, core := issuerCore s iss, cluster := cluster, asid := asid, root := root, unit := if isBulk c.op then 2 else 3,
    host := if isArray c.op then 0x13F else 0x148, peer := if peerOk c.op then none else some 0x147
    down := if isArray c.op then none else some 0x15F }

/-- The space of an engine operand: 0 global, 1 local, 2 cluster (12 R320). -/
def engSpace (n : Nat) : Space := if n = 1 then .local_ else if n = 2 then .cluster else .global

/-- A translation leads into the host window. -/
def hostPage (s : State) (t : Except WalkFault Trans) : Bool := match t with
  | .ok t => t.pa / 2 ^ 46 == ownDev s && decide (2 ^ 45 ≤ t.pa % 2 ^ 46)
  | .error _ => false
/-- The place of n bytes for an engine, with the causes of 12 R321 and 11 R289: a byte in the host window comes before whatever else its access would raise. -/
def engPlace (s : State) (e : Eng) (space a n : Nat) (w : Bool) : Acc :=
  let loc := fun (a : Nat) =>
    if a % n ≠ 0 then Acc.fault (memCause .local_ w 0)
    else match issuerWg s e.iss with
      | some k => placeLocal s k a n w
      | none => .fault (memCause .local_ w 2)
  let clu := fun (a : Nat) => if a % n ≠ 0 then Acc.fault (memCause .cluster w 0) else placeCluster s e.cluster a w
  match space with
  | 1 => loc a
  | 2 => clu a
  | _ =>
    match windowOf a with
    | 1 => loc (a % 2 ^ 32)
    | 2 => clu (a % 2 ^ 32)
    | win =>
      let tr := translate s e.core e.asid e.root a
      if win = 0 ∧ a < 2 ^ 57 ∧ hostPage s tr = true then .fault e.host
      else if a % n ≠ 0 then .fault (memCause .global w 0)
      else if 2 ^ 57 ≤ a then .fault (memCause .global w 1)
      else if win = 3 then
        placeGridWin s (match e.iss with
          | .cue wg => .warp wg 0 []
          | i => i) (a % 2 ^ 32) n w false
      else match tr with
        | .error f => .fault (trCause f.reason (if w then 1 else 0))
        | .ok t => (match placeOf s .global t (if w then 1 else 0) (match e.iss with
            | .mgmt _ => true
            | _ => false) with
          | .fault x => .fault (if x = memCause .global w 3 then (e.peer.or e.down).getD x else x)
          | .ok (.peer x) tr => (match e.peer with
            | some c => .fault c
            | none => .ok (.peer x) tr)
          | .ok (.mreg _) _ => .fault (memCause .global w 2)
          | r => r)

/-- Read n bytes and go on with them; a consumer of 08 R200 checks them, none carries them unchecked (08 R196). Space 3 is the engine's own buffer. -/
def engFetch (s : State) (e : Eng) (space a n : Nat) (consumer : Option Nat) (k : List Byte → State → Run) : Run :=
  let use := fun (bs : List Byte) (cap : CapState) (t : State) =>
    match consumer.bind fun n => integrityCause n cap with
    | some c => .stop t c (BitVec.ofNat 64 a)
    | none => k bs t
  if space = 3 then
    match s.cmds.find? fun c => c.id == e.cmd with
    | some c => use (SMap.getList c.buf a n) (capState (c.bufSynd.get (a / 16)) (SMap.getList c.buf (a / 16 * 16) 16)) s
    | none => .go s
  else match engPlace s e space a n false with
  | .wait => .wait
  | .fault c => .stop s c (BitVec.ofNat 64 a)
  | .ok loc _ =>
    let (bs, cap, t) := behindRead s loc n (issuerKey s e.iss)
    match loc, versionOf s e.iss with
    | .mem pa, some k => use (versionRead k pa bs) (versionCap k pa cap) t
    | _, _ => use bs cap t

/-- Read n bytes, checked. -/
def engGet (s : State) (e : Eng) (space a n consumer : Nat) (k : List Byte → State → Run) : Run := engFetch s e space a n (some consumer) k

/-- Mark the task of an engine's issuer non-restartable; the cause of 13 R351 is recorded when HMASK bit 11 is 1 (R365). -/
def engMark (s : State) (e : Eng) (reason : Nat) (a : Nat) : Run :=
  match versionOf s e.iss with
  | none => .go s
  | some k =>
    let t := updWg s k.id fun k => { k with nonRestart := true }
    if hmaskBit s k 11 then .stop t (BitVec.ofNat 9 (0x160 + 4 * reason + e.unit)) (BitVec.ofNat 64 a) else .go t

/-- An engine's write at home: into the task's version, or past it without budget or capacity (13 R363 to R365); a P-mode range and every agent without a task are written at once. -/
def engHome (s : State) (e : Eng) (pa a : Nat) (bs : List Byte) (key : BitVec 16) : Run :=
  let plain := fun (t : State) => homeWrite t pa bs key none
  match versionOf s e.iss with
  | none => .go (plain s)
  | some k =>
    if (contractOf s pa).any fun c => c.mode = 2 then engMark (plain s) e 3 a
    else
      let new := versionNewLines k pa bs.length
      let past := decide (versionBudget s k < k.vbytes + 128 * new.length)
      if !past && !versionFull s new then .go (versionWrite s k.id pa bs key e.unit)
      else if hmaskBit s k 11 then .stop s (BitVec.ofNat 9 ((if past then 0x160 else 0x164) + e.unit)) (BitVec.ofNat 64 a)
      else .go (plain (updWg (versionCommit s k.id) k.id fun k => { k with nonRestart := true }))

/-- A request that a command makes of a peer: it waits for the answer (12 R327, R335). -/
def engAsks (e : Eng) : Asker := { who := e.iss, cmd := some e.cmd }
/-- Write bytes (one aligned access); a local-store write sets full bits (08 R184). -/
def engPut (s : State) (e : Eng) (space a : Nat) (bs : List Byte) : Run :=
  match engPlace s e space a bs.length true with
  | .wait => .wait
  | .fault c => .stop s c (BitVec.ofNat 64 a)
  | .ok loc _ =>
    match loc with
    | .mem pa => engHome s e pa a bs (issuerKey s e.iss)
    | .ls x => .go (feSetAll (lsWrite s x bs) x bs.length true)
    | .peer pa => engMark (peerWrite s (engAsks e) pa bs []) e 4 a
    | _ => .go s

/-- What a byte to be merged holds now, unchecked. -/
def engPeek (s : State) (e : Eng) (space a : Nat) : Nat :=
  match engPlace s e space a 1 true with
  | .ok loc _ =>
    let bs := (behindRead s loc 1 0).1
    leNat (match loc, versionOf s e.iss with
      | .mem pa, some k => versionRead k pa bs
      | _, _ => bs)
  | _ => 0

/-- Read a container of nb nibbles at a nibble offset from a base. -/
def engGetElem (s : State) (e : Eng) (space base off nb consumer : Nat) (k : Nat → State → Run) : Run :=
  if nb = 1 then engGet s e space (base + off / 2) 1 consumer fun bs t => k (leNat bs / 16 ^ (off % 2) % 16) t
  else engGet s e space (base + off / 2) (nb / 2) consumer fun bs t => k (leNat bs) t
/-- Read a container of nb nibbles unchecked. -/
def engCarryElem (s : State) (e : Eng) (space off nb : Nat) (k : Nat → State → Run) : Run :=
  if nb = 1 then engFetch s e space (off / 2) 1 none fun bs t => k (leNat bs / 16 ^ (off % 2) % 16) t
  else engFetch s e space (off / 2) (nb / 2) none fun bs t => k (leNat bs) t
/-- Write a container of nb nibbles; the other nibble of a shared byte stays. -/
def engPutElem (s : State) (e : Eng) (space base off nb v : Nat) : Run :=
  if nb = 1 then
    let old := engPeek s e space (base + off / 2)
    engPut s e space (base + off / 2) [BitVec.ofNat 8 (if off % 2 = 0 then old / 16 * 16 + v % 16 else old % 16 + v % 16 * 16)]
  else engPut s e space (base + off / 2) (leBytes (nb / 2) v)

/-! ### Caps of what an engine writes (08 R196, R197) -/

/-- The cap syndrome of the granule at an address, as a command reads it. -/
def engSynd (s : State) (e : Eng) (space a : Nat) : BitVec 16 :=
  if space = 3 then (match s.cmds.find? fun c => c.id == e.cmd with
    | some c => c.bufSynd.get (a / 16)
    | none => 0)
  else match engPlace s e space a 1 false with
  | .ok (.mem pa) _ => (match (versionOf s e.iss).bind fun k => k.vlines.find? fun v => v.line == pa / 128 && granMask v.mask (pa % 128 / 16) == 0xFFFF with
    | some v => v.synd.extractLsb' (pa % 128 / 16 * 16) 16
    | none => s.memSynd.get (pa / 16))
  | .ok (.ls x) _ => s.lsSynd.get (x / 16)
  | _ => 0
/-- Give a granule that has been written whole its cap; one on a peer travels beside its data (08 R196). -/
def engSetSynd (s : State) (e : Eng) (space a : Nat) (v : BitVec 16) : State :=
  match engPlace s e space a 1 true with
  | .ok (.mem pa) _ => (match versionOf s e.iss with
    | some k => if (contractOf s pa).any fun c => c.mode = 2 then { s with memSynd := SMap.set s.memSynd (pa / 16) v } else versionSynd s k.id pa v
    | none => { s with memSynd := SMap.set s.memSynd (pa / 16) v })
  | .ok (.peer pa) _ => peerWrite s (engAsks e) pa [] [v]
  | .ok (.ls x) _ => { s with lsSynd := SMap.set s.lsSynd (x / 16) v }
  | _ => s
/-- The granules wholly covered by containers of nb nibbles at nibble addresses. -/
def wholeCells (cells : List Nat) (nb : Nat) : List Nat := cells.filter fun a => a % 32 = 0 && (List.range (32 / nb)).all fun k => cells.contains (a + k * nb)
/-- Granules written whole get a fresh cap. -/
def freshen (s : State) (e : Eng) (space : Nat) (cells : List Nat) (nb : Nat) : State :=
  (wholeCells cells nb).foldl (fun t a => engSetSynd t e space (a / 2) 0) s

/-! ### Range registration (09 R222) -/

/-- A range to register: its space, its bytes [lo, hi), and whether it is a source. A multicast destination is a window interval in each of `pairs` (12 R324), in none of them under an empty mask. -/
structure Range where
  space : Nat
  lo : Nat
  hi : Nat
  source : Bool
  pairs : Option (List Nat) := none
  /-- reads of it never conflict -/
  shared : Bool := false
  deriving DecidableEq, Repr

/-- A range of a view. -/
def Range.of (space lo hi : Nat) (source : Bool) : Range := { space := space, lo := lo, hi := hi, source := source }

/-- The physical pieces of an interval, cut where translation or interleaving may jump: every 64 KiB of global memory, every 128 bytes of cluster scratch, every 512 bytes of local store. What does not translate is left to the engine's own accesses. -/
def rangeCuts (space lo hi : Nat) : List (Nat × Nat) :=
  let step := if space = 0 then 65536 else if space = 1 then 512 else 128
  (List.range (if hi ≤ lo then 0 else (hi - 1) / step + 1 - lo / step)).map fun i => (max lo ((lo / step + i) * step), min hi ((lo / step + i + 1) * step))
/-- The pieces with their places. -/
def rangePieces (s : State) (e : Eng) (space : Nat) (lo hi : Nat) : List (Bool × Nat × Nat) :=
  ((rangeCuts space lo hi).filterMap fun (a, z) =>
    match engPlace s e space a 1 false with
    | .ok (.mem pa) _ => some (false, pa, pa + (z - a))
    | .ok (.ls x) _ => some (true, x, x + (z - a))
    | .ok (.peer pa) _ => some (false, 2 ^ 52 + pa, 2 ^ 52 + pa + (z - a))
    | _ => none)

/-- The space of a range, and its first byte there: a window's range lies in the window's space. -/
def rangeSpace (r : Range) : Nat × Nat :=
  if r.space = 0 ∧ windowOf r.lo = 1 then (1, r.lo % 2 ^ 32) else if r.space = 0 ∧ windowOf r.lo = 2 then (2, r.lo % 2 ^ 32) else (r.space, r.lo)
/-- A range has a page in X: it cannot be registered until the page has left X (14 R405; DEDUCED: log 108). -/
def rangeWaits (s : State) (e : Eng) (r : Range) : Bool :=
  r.pairs.isNone && (rangeCuts (rangeSpace r).1 (rangeSpace r).2 ((rangeSpace r).2 + (r.hi - r.lo))).any fun (a, _) => match engPlace s e (rangeSpace r).1 a 1 false with
    | .wait => true
    | _ => false
/-- The entries a command registers. -/
def rangeLocks (s : State) (e : Eng) (cmd : Nat) (rs : List Range) : List Lock :=
  (List.range rs.length).flatMap fun i =>
    match rs[i]? with
    | none => []
    | some r =>
      let (sp, lo) := rangeSpace r
      let pieces := match r.pairs with
        | none => rangePieces s e sp lo (lo + (r.hi - r.lo))
        | some ps => ps.map fun p => let b := p * 1048576 + (1048576 - shareOf s e.cluster); (true, b + r.lo, b + r.hi)
      pieces.map fun (l, a, b) =>
        { cluster := e.cluster, local_ := l, lo := a, hi := b, source := r.source, wg := (issuerWg s e.iss).map (·.id), cmd := cmd, rng := i, shared := r.shared }
/-- Entries of a cluster's table of 64. -/
def locksUsed (s : State) (cluster : Nat) : Nat :=
  (((s.locks.filter fun l => l.cluster == cluster).map fun l => (l.cmd, l.rng)).eraseDups).length
/-- An operation's 32 bytes at most meet a range. -/
def lockMeets (l : Lock) (loc : Loc) : Bool :=
  match loc with
  | .ls a => l.local_ && decide (l.lo < a + 32 ∧ a < l.hi)
  | x => !l.local_ && (l1Addr x).any fun a => decide (l.lo < a + 32 ∧ a < l.hi)
/-- Register: what cores of the cluster have issued to the ranges is executed first, and their L1s write back the dirty bytes. -/
def registerLocks (s : State) (ls : List Lock) : State :=
  let t := (s.flights.filter fun f => ls.any fun l => l.cluster == issuerCluster s f.who && (execOps f).any fun o => lockMeets l o.loc).foldl runPoint s
  { (ls.foldl (fun t l => if l.local_ then t else l1FlushRange t l.cluster l.lo l.hi) t) with locks := s.locks ++ ls }
/-- Two commands conflict (12 R313): ranges overlap and one of them is a destination. -/
def locksConflict (a b : Lock) : Bool :=
  a.cluster = b.cluster && a.local_ = b.local_ && decide (a.lo < b.hi ∧ b.lo < a.hi) && !(a.source && b.source)
/-- An earlier command that has not completed holds a conflicting range. -/
def conflicted (s : State) (c : Cmd) : Bool :=
  (s.locks.filter fun l => l.cmd == c.id).any fun l => s.locks.any fun m => decide (m.cmd < c.id) && locksConflict l m

/-! ### Tokens and issue -/

/-- Change a token of a cue thread. -/
def addTok (s : State) (iss : Issuer) (tok : Option Nat) (up : Bool) : State :=
  match tok with
  | none => s
  | some t => updCue s iss fun c => { c with tokens := c.tokens.set t (if up then c.tokens.get t + 1 else c.tokens.get t - 1) }
/-- TOK as a token: 6 is none (02 R44). -/
def tokNum (f : QE) : Option Nat := if f.tok.toNat < 6 then some f.tok.toNat else none
/-- The command's two words as a record holds them (13 R355). -/
def opWords (i : Instr) : BitVec 64 :=
  match encode i with
  | [a] => a.setWidth 64
  | a :: b :: _ => b ++ a
  | [] => 0

/-- Update a command. -/
def updCmd (s : State) (id : Nat) (f : Cmd → Cmd) : State := { s with cmds := s.cmds.map fun c => if c.id = id then f c else c }
def findCmd (s : State) (id : Nat) : Option Cmd := s.cmds.find? fun c => c.id == id
/-- Record a command's first deferred cause (13 R346); a failed cap of its walk is posted beside it. -/
def noteCause (s : State) (id : Nat) (cause : Cause) (a : BitVec 64) : State :=
  match findCmd s id with
  | none => s
  | some c =>
    if c.cause.isSome then s
    else updCmd (let e := engOf s c; postWalkAt s e.iss e.root cause a) id fun c => { c with cause := some (cause, a) }

/-- Array commands on a core's queue (11 R286). -/
def arrayQueue (s : State) (core : Nat) : List Cmd := s.cmds.filter fun c => isArray c.op && c.core == core
/-- Bulk commands of a cluster's queue that have not started (12 R313). -/
def bulkQueue (s : State) (cluster : Nat) : List Cmd := s.cmds.filter fun c => isBulk c.op && !c.started && (engOf s c).cluster == cluster

/-- A cue thread is held at a command: its token is full (02 R57), or its engine queue or the lock table has no room (10 R244). A command of the 16-entry array queue keeps its entry until it completes, executing or not (DESIGN CHOICE: log 107). -/
def cmdHeld (s : State) (c : CCtx) (i : Instr) (f : QE) (ranges : Nat) : Bool :=
  (match tokNum f with
    | some t => Cue_tok c.c t = 63
    | none => false)
  || (isArray i && decide (16 ≤ ((match c.k with
    | some k => arrayQueue s k.core
    | none => []).length)))
  || (isBulk i && decide (64 ≤ (bulkQueue s (issuerCluster s c.iss)).length))
  || (ranges ≠ 0 && decide (64 < locksUsed s (issuerCluster s c.iss) + ranges))

/-- A new command of a cue thread. Slice, residency and privileged commands start at once (12 R313). -/
def mkCmd (s : State) (c : CCtx) (i : Instr) (f : QE) (total : Nat) (aux : List Nat) : Cmd :=
  { id := s.nextId, op := i
    owner := match c.iss with
      | .mgmt m => .mgmt m
      | .cue wg => .cue wg
      | _ => .mgmt 0
    core := (c.k.map (·.core)).getD 0, regs := c.c.regs, tok := tokNum f, pc := c.pc, words := opWords i, stamp := s.clk
    started := !(isArray i || isBulk i), plane := false, done := 0, total := total, half := 0, cause := none, aux := aux, buf := [], bufSynd := []
    cfgs := match c.k with
      | some k => k.tcfg
      | none => [] }

/-- ISSUE of an engine command: precise causes, the queue it may wait for, its ranges, and the effect on its thread's token. -/
structure ECmd where
  i : Instr
  f : QE
  c0 : State → CCtx → Option OwnC := fun _ _ => none
  c1 : State → CCtx → Option OwnC := fun _ _ => none
  rest : State → CCtx → Option OwnC := fun _ _ => none
  ranges : State → CCtx → List Range := fun _ _ => []
  total : State → CCtx → Nat := fun _ _ => 1
  aux : State → CCtx → List Nat := fun _ _ => []
  /-- what the issue itself changes -/
  pre : CCtx → State → State := fun _ s => s

/-- A command as a cue instruction. -/
def cmdOp (x : ECmd) : COp :=
  { i := x.i, c0 := x.c0, c1 := x.c1, rest := x.rest
    hold := fun s c => cmdHeld s c x.i x.f (x.ranges s c).length || (x.ranges s c).any (rangeWaits s (engOf s (mkCmd s c x.i x.f 0 [])))
    eff := fun c s =>
      let t := drainStream s c.iss
      let cmd := mkCmd t c x.i x.f (x.total t c) (x.aux t c)
      let t := x.pre c { t with nextId := t.nextId + 1, cmds := t.cmds ++ [cmd] }
      let t := addTok t c.iss cmd.tok true
      registerLocks t (rangeLocks t (engOf t cmd) cmd.id (x.ranges t c)) }

/-! ### Completion (09 R224, 13 R357) -/

/-- Deliver a command's deferred cause: to its cue thread's wait, or, when no thread can wait for it, as an error entry with the command's record (13 R357). -/
def cmdCause (s : State) (c : Cmd) : State :=
  match c.cause with
  | none => s
  | some (x, a) =>
    let rec_ : Deferred := ⟨x, a, 0, c.pc, some (c.tok.getD 6), 0, true, c.words, c.stamp⟩
    match c.owner with
    | .cue wg => (match findWg s wg with
      | some k => if k.cue.ended then postRec s (postedRec k.cue rec_) (some wg) else updWg s wg fun k => { k with cue := { k.cue with deferred := k.cue.deferred ++ [rec_] } }
      | none => postRec s (postedRec Cue.zero rec_) none)
    | .mgmt m => updCue s (.mgmt m) fun y => { y with deferred := y.deferred ++ [rec_] }
    | .queue _ _ => postRec s (postedRec Cue.zero rec_) none
    | .peer _ => s

/-- A cue register of the command as it stood at issue. -/
def creg (c : Cmd) (r : Nat) : Nat := (c.regs.get r).toNat
/-- The answer to a peer's request: bit 32 of the aux word is set, and the word carries a cause or 0 (log 28). -/
def answerAux (cause : Option Cause) : Nat := 2 ^ 32 + (match cause with
  | some x => x.toNat
  | none => 0)
/-- A command that a peer forwarded is answered as it completes (14 R405): its first cause, and its result. -/
def answerForwarded (s : State) (c : Cmd) : State :=
  match c.owner with
  | .peer d => sendMsg s d 16 (creg c 0) 0 (answerAux (c.cause.map (·.1))) (leBytes 8 (c.aux.getD 0 0))
  | _ => s
/-- COMPLETION: L1s of the cluster drop the destination's bytes, the entries go, the token falls, and a wait that has settled goes on (R224). -/
def completeCmd (s : State) (c : Cmd) : State :=
  let mine := s.locks.filter fun l => l.cmd == c.id
  let t := mine.foldl (fun t l => if l.source || l.local_ then t else l1DropRange t l.cluster l.lo l.hi) s
  let t := { t with locks := t.locks.filter (fun l => !(l.cmd == c.id)), cmds := t.cmds.filter fun x => !(x.id == c.id) }
  let t := answerForwarded (cmdCause t c) c
  let iss := ownerIss c.owner
  cwaitExamine (addTok t iss c.tok false) iss

/-- Write a result register of the issuing thread (12 R319); that of a command forwarded by a peer goes back with the answer. -/
def cmdResult (s : State) (c : Cmd) (r : Nat) (v : Nat) : State :=
  match c.owner with
  | .peer _ => updCmd s c.id fun y => { y with aux := [v] }
  | o => updCue s (ownerIss o) fun x => cset x r (BitVec.ofNat 64 v)

end Sys2Proof.Machine
end

