-- ==== Sys2Proof/Machine/ArrayIssue.lean ====
section
/-! DEFINITION. The meanings of the sixteen array commands at issue (11 R290 to R307): descriptors, the precise causes of R293 in ascending order, the memory ranges, and entry into the core's queue. Their execution is in ArrayUnits. -/

namespace Sys2Proof.Machine

/-! ### Layouts and views (02 R46, 11 R296, 12 R317) -/

/-- A layout word from its two registers; `hi` is bits [127:96]. -/
structure Lay where
  lm : Nat
  s1 : Nat
  s2 : Nat
  s3 : Nat
  base : Nat
  hi : Nat
  deriving DecidableEq, Repr

def layOf (w0 w1 : Nat) : Lay :=
  let x := w0 + w1 * 2 ^ 64
  { lm := x / 2 ^ 92 % 16, s1 := x / 2 ^ 32 % 2 ^ 20, s2 := x / 2 ^ 52 % 2 ^ 20, s3 := x / 2 ^ 72 % 2 ^ 20, base := x % 2 ^ 32, hi := x / 2 ^ 96 % 2 ^ 32 }
/-- The causes of R46: reserved bits, LM, and a BASE beside a global base. -/
def layBad (l : Lay) (global : Bool) : Bool := l.hi ≠ 0 || decide (3 ≤ l.lm) || (global && l.base ≠ 0)
/-- Offset of element (x0, x1, x2, x3) in nibbles, for containers of nb nibbles (R317; R296 with c = x0, r = x1). -/
def viewOff (l : Lay) (nb x0 x1 x2 x3 : Nat) : Nat :=
  let q := 32 / nb
  match l.lm with
  | 0 => (x0 + x1 * l.s1 + x2 * l.s2 + x3 * l.s3) * nb
  | 1 => (x1 + x0 * l.s1 + x2 * l.s2 + x3 * l.s3) * nb
  | _ => x0 / q * l.s1 * nb + x1 * 32 + x0 % q * nb + (x2 * l.s2 + x3 * l.s3) * nb
/-- Bytes from the base to the end of a view of extents n0 to n3. -/
def viewEnd (l : Lay) (nb n0 n1 n2 n3 : Nat) : Nat :=
  let q := 32 / nb
  let at_ := fun x0 => viewOff l nb x0 (n1 - 1) (n2 - 1) (n3 - 1) + nb
  let e := if l.lm = 2 ∧ q ≤ n0 then max (at_ (n0 - 1)) (at_ (n0 / q * q - 1)) else at_ (n0 - 1)
  ceilDiv e 2
/-- A two-dimensional view that breaks 0x129: an odd pitch of nibbles, or a pitch that is no whole number of bricks. -/
def pitchBad (l : Lay) (nb : Nat) : Bool := (nb = 1 && l.s1 % 2 = 1) || (l.lm = 2 && l.s1 % (32 / nb) ≠ 0)

/-! ### What the checks read -/

/-- A cue register at issue, as a number. -/
def cnat (c : CCtx) (r : Nat) : Nat := (cget c.c r).toNat
/-- Checks that need the workgroup and its launch record; a management core names no tile. -/
def withWg (f : State → CCtx → Workgroup → LaunchRec → List (Bool × Nat)) (s : State) (c : CCtx) : Option OwnC :=
  match c.k, c.g with
  | some k, some g => firstOwn (f s c k g.lrec)
  | _, _ => none
/-- The tile is unconfigured (R281). -/
def unconf (k : Workgroup) (t : BitVec 4) : Bool := !k.tconf.contains t.toNat
def cfgAt (k : Workgroup) (t : BitVec 4) : DWord := k.tcfg.get t.toNat
/-- The tile-lock causes of an array command (R293): 0x134 to 0x136. -/
def lockReasons (k : Workgroup) (i : Instr) : List (Bool × Nat) :=
  let t := touchOf i
  let cs := k.warps.flatMap (·.colls)
  [(cs.any fun x => x.fill && t.tr.contains x.tile, 0x134), (cs.any fun x => !x.fill && t.tw.contains x.tile, 0x135), (cs.any fun x => x.fill && t.tw.contains x.tile, 0x136)]

/-- Reserved bits of a descriptor: the bits of `x` outside the given fields. -/
def rsvBits (x : Nat) (fields : List (Nat × Nat)) : Bool :=
  x ≠ (fields.foldl (fun n (hi, lo) => n + x / 2 ^ lo % 2 ^ (hi - lo + 1) * 2 ^ lo) 0)
def bitsAt (x hi lo : Nat) : Nat := x / 2 ^ lo % 2 ^ (hi - lo + 1)

/-- A tile of TYPE 3 or 4 as an operand of a pass. -/
def notOperand (w : DWord) : Bool := decide (2 < tType w)
/-- Under SCM 2, RAX differs from the operand's role (0x12A). -/
def raxBad (g : LaunchRec) (w : DWord) (rax : Nat) : Bool := tType w = 0 && slSCM (tFmt g w) = 2 && tRax w ≠ rax
/-- The extents of a stationary operand (R299, 0x127). -/
def statBig (w : DWord) : Bool := decide (192 < tRows w ∨ 256 < tCols w)
/-- A narrow tile used from an odd starting element: KOFF, TCOL0 or DIM0 (05 R121, 0x129). -/
def oddStart (g : LaunchRec) (w : DWord) (at_ : Nat) : Bool := tType w = 0 && decide (slW (tFmt g w) ≤ 4) && at_ % 2 = 1

/-- The drain descriptor (R291). -/
def drRow0 (d : Nat) : Nat := bitsAt d 4 0
def drRows (d : Nat) : Nat := bitsAt d 10 5
def drCol0 (d : Nat) : Nat := bitsAt d 18 11
def drCols (d : Nat) : Nat := bitsAt d 27 19
def drBad (d : Nat) : Bool :=
  rsvBits d [(27, 0)] || drRows d = 0 || drCols d = 0 || decide (32 < drRow0 d + drRows d ∨ 256 < drCol0 d + drCols d)

/-- The engine's space of a MOD space: 0 local, 1 cluster, 2 global (R290). -/
def arrSpace (m : Nat) : Nat := if m = 0 then 1 else if m = 1 then 2 else 0
/-- Base and layout of a memory operand: BASE of the layout word, or c(B) in global space. -/
def arrBase (m : Nat) (l : Lay) (cb : Nat) : Nat := if m = 2 then cb else l.base
/-- The layout word in c(A):c(A+1). -/
def layA (c : CCtx) (f : QE) : Lay := layOf (cnat c f.a.toNat) (cnat c (f.a.toNat + 1))
/-- 0x029 for the layout of an array command: S2 and S3 must be 0 (R296). -/
def arrLayout (f : QE) (_ : State) (c : CCtx) : Option OwnC :=
  if f.mod = 3 then none
  else
    let l := layA c f
    if layBad l (f.mod = 2) || l.s2 ≠ 0 || l.s3 ≠ 0 then ownC 0x029 else none

/-! ### Tile commands (R295 to R297) -/

/-- The runs of granules of two tiles meet. -/
def runsMeet (g : LaunchRec) (v w : DWord) : Bool := decide (tGbase v < tGbase w + tGranules g w ∧ tGbase w < tGbase v + tGranules g v)

/-- `tcfg` (R295). -/
def opTcfg (f : QE) : COp :=
  cmdOp
    { i := .tcfg f, f := f
      rest := withWg fun _ c k g =>
        let w := cget c.c f.a.toNat
        let others := (k.tconf.filter (· != f.ta.toNat)).map fun t => k.tcfg.get t
        [(tType w = 0 && !slBound (tFmt g w), 0x100),
         (rsvBits w.toNat [(38, 32), (24, 0)] || decide (5 ≤ tType w) || (tSlot w ≠ 0 && tType w ≠ 0), 0x121),
         (decide (16 < tGranules g w), 0x122),
         (decide (g.tileg < tGbase w + tGranules g w), 0x123),
         (others.any fun v => runsMeet g v w, 0x124),
         (tType w = 0 && decide (slW (tFmt g w) ≤ 4) && (tCols w % 2 = 1 || (tRax w = 1 && tRows w % 2 = 1)), 0x125),
         (k.warps.any fun x => x.colls.any fun y => y.tile = f.ta.toNat, 0x137)]
      pre := fun c t => match c.iss with
        | .cue wg => updWg t wg fun k => { k with tcfg := SMap.set k.tcfg f.ta.toNat (cget c.c f.a.toNat), tconf := f.ta.toNat :: k.tconf.filter (· != f.ta.toNat) }
        | _ => t }
def execTcfg (f : QE) (s : State) : Host.Outcome State Fault Refusal := cueIssue (opTcfg f) s

/-- The ranges of a tile's view: its elements, and its scale array when it has a scale area. -/
def tileRanges (f : QE) (source : Bool) (_ : State) (c : CCtx) : List Range :=
  match c.k, c.g with
  | some k, some g =>
    let w := cfgAt k f.ta
    let l := layA c f
    let b := arrBase f.mod.toNat l (cnat c f.b.toNat)
    let sp := arrSpace f.mod.toNat
    let z := tScaleRaw g.lrec w
    let sc := cnat c (f.b.toNat + 1) % (if f.mod = 2 then 2 ^ 64 else 2 ^ 32)
    Range.of sp b (b + viewEnd l (tNib g.lrec w) (tCols w) (tRows w) 1 1) source :: (if z = 0 then [] else [Range.of sp sc (sc + z) source])
  | _, _ => []

/-- `tld` and `tsd` at issue (R296). -/
def tileMove (i : Instr) (f : QE) (load : Bool) : ECmd :=
  { i := i, f := f
    c1 := arrLayout f
    rest := withWg fun _ c k g =>
      [(unconf k f.ta, 0x120), (f.mod ≠ 2 && cnat c f.b.toNat ≠ 0, 0x128), (pitchBad (layA c f) (tNib g (cfgAt k f.ta)), 0x129)] ++ lockReasons k i
    ranges := tileRanges f load }

/-- `tld` (R296). -/
def opTld (f : QE) : COp := cmdOp (tileMove (.tld f) f true)
def execTld (f : QE) (s : State) : Host.Outcome State Fault Refusal := cueIssue (opTld f) s
/-- `tsd` (R296). -/
def opTsd (f : QE) : COp := cmdOp (tileMove (.tsd f) f false)
def execTsd (f : QE) (s : State) : Host.Outcome State Fault Refusal := cueIssue (opTsd f) s
/-- `tzero` (R297). -/
def opTzero (f : QE) : COp := cmdOp { i := .tzero f, f := f, rest := withWg fun _ _ k _ => (unconf k f.ta, 0x120) :: lockReasons k (.tzero f) }
def execTzero (f : QE) (s : State) : Host.Outcome State Fault Refusal := cueIssue (opTzero f) s
/-- `txpose` (R297). -/
def opTxpose (f : QE) : COp :=
  cmdOp
    { i := .txpose f, f := f
      rest := withWg fun _ _ k g =>
        let a := cfgAt k f.ta
        let b := cfgAt k f.tb
        [(unconf k f.ta || unconf k f.tb, 0x120), (tType a ≠ tType b || tSlot a ≠ tSlot b, 0x126),
         (tRows b ≠ tCols a || tCols b ≠ tRows a, 0x127), (tType a = 0 && slSCM (tFmt g a) = 2 && tRax a = tRax b, 0x12A),
         (f.ta = f.tb, 0x12E)] ++ lockReasons k (.txpose f) }
def execTxpose (f : QE) (s : State) : Host.Outcome State Fault Refusal := cueIssue (opTxpose f) s

/-! ### Streaming commands (R299 to R302) -/

/-- `arrw` (R299). -/
def opArrw (f : QE) : COp :=
  cmdOp
    { i := .arrw f, f := f
      rest := withWg fun _ _ k g =>
        let b := cfgAt k f.tb
        [(unconf k f.tb, 0x120), (notOperand b, 0x126), (statBig b, 0x127), (raxBad g b 1, 0x12A)] ++ lockReasons k (.arrw f) }
def execArrw (f : QE) (s : State) : Host.Outcome State Fault Refusal := cueIssue (opArrw f) s

/-- The stream descriptor (R291). -/
def stArow0 (x : Nat) : Nat := bitsAt x 7 0
def stM (x : Nat) : Nat := bitsAt x 12 8 + 1
def stAcrow0 (x : Nat) : Nat := bitsAt x 20 16
def stKoff (x : Nat) : Nat := bitsAt x 33 24

/-- `arrmm` and `arrdist` at issue (R299, R300). -/
def streamCmd (i : Instr) (f : QE) : ECmd :=
  { i := i, f := f
    rest := withWg fun _ c k g =>
      let a := cfgAt k f.ta
      let b := cfgAt k f.tb
      let x := cnat c f.a.toNat
      [(unconf k f.ta || unconf k f.tb, 0x120), (notOperand a || notOperand b, 0x126),
       (statBig b || decide (tRows a < stArow0 x + stM x ∨ tCols a < stKoff x + tRows b), 0x127),
       (rsvBits x [(7, 0), (12, 8), (20, 16), (33, 24)] || decide (32 < stAcrow0 x + stM x), 0x128),
       (oddStart g a (stKoff x), 0x129), (raxBad g a 0 || raxBad g b 1, 0x12A)] ++ lockReasons k i
    total := fun _ c => stM (cnat c f.a.toNat) }

/-- `arrmm` (R300). -/
def opArrmm (f : QE) : COp := cmdOp (streamCmd (.arrmm f) f)
def execArrmm (f : QE) (s : State) : Host.Outcome State Fault Refusal := cueIssue (opArrmm f) s
/-- `arrdist` (R300). -/
def opArrdist (f : QE) : COp := cmdOp (streamCmd (.arrdist f) f)
def execArrdist (f : QE) (s : State) : Host.Outcome State Fault Refusal := cueIssue (opArrdist f) s

/-- Groups and first row of `arrmmg` (R290). -/
def mmgGroups (f : QE) : Nat := f.optN 6 1 + 1
def mmgArow0 (f : QE) : Nat := f.optN 14 7

/-- `arrmmg` (R301): the table is read when the command starts. -/
def opArrmmg (f : QE) : COp :=
  cmdOp
    { i := .arrmmg f, f := f
      rest := withWg fun _ c k g =>
        let a := cfgAt k f.ta
        let b := cnat c f.b.toNat
        [(unconf k f.ta, 0x120), (notOperand a, 0x126), (decide (2 ^ 32 ≤ cnat c f.a.toNat ∨ 1024 ≤ b), 0x128),
         (oddStart g a (b % 1024), 0x129), (raxBad g a 0, 0x12A)] ++ lockReasons k (.arrmmg f)
      ranges := fun _ c => let a := cnat c f.a.toNat % 2 ^ 32; [Range.of 1 a (a + 4 * mmgGroups f) true]
      total := fun _ _ => 0
      aux := fun _ c => match c.k with
        | some k => k.tconf
        | none => [] }
def execArrmmg (f : QE) (s : State) : Host.Outcome State Fault Refusal := cueIssue (opArrmmg f) s

/-- The centroid descriptor (R291). -/
def ceAcrow0 (x : Nat) : Nat := bitsAt x 4 0
def ceDn (x : Nat) : Nat := bitsAt x 10 5
def ceDim0 (x : Nat) : Nat := bitsAt x 20 11
def ceCrow (x : Nat) : Nat := bitsAt x 25 21

/-- `arrcent` (R302). -/
def opArrcent (f : QE) : COp :=
  cmdOp
    { i := .arrcent f, f := f
      rest := withWg fun _ c k g =>
        let a := cfgAt k f.ta
        let b := cfgAt k f.tb
        let x := cnat c f.a.toNat
        let cnt := f.opt.getLsbD 1
        [(unconf k f.ta || unconf k f.tb, 0x120), (notOperand a, 0x126),
         (decide (tRows a < tRows b ∨ tCols a < ceDim0 x + ceDn x), 0x127),
         (rsvBits x [(25, 0)] || ceDn x = 0 || decide (32 < ceDn x ∨ 32 < ceAcrow0 x + ceDn x)
           || (cnt && decide (ceAcrow0 x ≤ ceCrow x ∧ ceCrow x < ceAcrow0 x + ceDn x)), 0x128),
         (oddStart g a (ceDim0 x), 0x129), (raxBad g a 1, 0x12A), (tType b ≠ 4 || tCols b ≠ 1 || decide (192 < tRows b), 0x12C)] ++ lockReasons k (.arrcent f)
      total := fun _ c => ceDn (cnat c f.a.toNat) + (if f.opt.getLsbD 1 then 1 else 0) }
def execArrcent (f : QE) (s : State) : Host.Outcome State Fault Refusal := cueIssue (opArrcent f) s

/-! ### Drains and loads (R303 to R307) -/

/-- The best descriptor (R291). -/
def beRow0 (x : Nat) : Nat := bitsAt x 4 0
def beRows (x : Nat) : Nat := bitsAt x 10 5
def beCols (x : Nat) : Nat := bitsAt x 19 11
/-- Space of the best records: OPT[3]. -/
def bestSpace (f : QE) : Nat := if f.opt.getLsbD 3 then 2 else 1

/-- `arrbest` (R303). -/
def opArrbest (f : QE) : COp :=
  cmdOp
    { i := .arrbest f, f := f
      rest := withWg fun _ c _ _ =>
        let x := cnat c f.b.toNat
        [(decide (2 ^ 32 ≤ cnat c f.a.toNat) || rsvBits x [(19, 0)] || beRows x = 0 || beCols x = 0 || decide (256 < beCols x ∨ 32 < beRow0 x + beRows x), 0x128)]
      ranges := fun _ c => let a := cnat c f.a.toNat % 2 ^ 32; [Range.of (bestSpace f) a (a + 8 * beRows (cnat c f.b.toNat)) false]
      total := fun _ c => beRows (cnat c f.b.toNat) }
def execArrbest (f : QE) (s : State) : Host.Outcome State Fault Refusal := cueIssue (opArrbest f) s

/-- Nibbles of an output or input element: FP32, FP16, BF16, or a container of slot FSL. -/
def outNib (g : LaunchRec) (f : QE) : Nat :=
  match f.typ with
  | 0 => 8
  | 1 => 4
  | 2 => 4
  | _ => if slW (LaunchRec_slot g f.fsl.toNat) ≤ 4 then 1 else 2
/-- The code of a scale format that is exactly σ (R304). -/
def scaleCode (scf sigma : Nat) : Option Nat :=
  let v := Fmt.f32.unpack sigma
  let is := fun c => match scaleVal scf c with
    | some x => fEq x v
    | none => false
  if scf = 2 then (let c := (fOut Fmt.f16 0 false v).1; if is c then some c else none) else (List.range 256).find? is
/-- The tile of a drain or load in tile space does not match OUT or IN (0x126). -/
def outMismatch (f : QE) (w : DWord) : Bool :=
  match f.typ with
  | 0 => tType w ≠ 3
  | 1 => tType w ≠ 1
  | 2 => tType w ≠ 2
  | _ => tType w ≠ 0 || tSlot w ≠ f.fsl.toNat
/-- The tile origin (R291). -/
def toRow (x : Nat) : Nat := bitsAt x 7 0
def toCol (x : Nat) : Nat := bitsAt x 17 8
/-- σ of `adrain` (R304). -/
def drainSigma (c : CCtx) (f : QE) : Nat := cnat c (f.b.toNat + 1) % 2 ^ 32

/-- The memory range of `adrain` and `aload`. -/
def drainRanges (f : QE) (source : Bool) (_ : State) (c : CCtx) : List Range :=
  match c.g with
  | some g =>
    if f.mod = 3 then []
    else
      let d := cnat c f.d.toNat
      let l := layA c f
      let b := arrBase f.mod.toNat l (cnat c f.b.toNat)
      [Range.of (arrSpace f.mod.toNat) b (b + viewEnd l (outNib g.lrec f) (drCols d) (drRows d) 1 1) source]
  | none => []

/-- The causes that `adrain` and `aload` share (R304, R305). -/
def drainReasons (i : Instr) (f : QE) (scale : CCtx → Workgroup → LaunchRec → Bool) (c : CCtx) (k : Workgroup) (g : LaunchRec) : List (Bool × Nat) :=
  let d := cnat c f.d.toNat
  let o := cnat c f.a.toNat
  let w := cfgAt k f.ta
  let tile := f.mod = 3
  [(tile && unconf k f.ta, 0x120), (tile && outMismatch f w, 0x126),
   (tile && decide (tRows w < toRow o + drRows d ∨ tCols w < toCol o + drCols d), 0x127),
   (drBad d || (tile && rsvBits o [(17, 0)]) || ((!tile || f.typ = 3) && f.mod ≠ 2 && cnat c f.b.toNat ≠ 0), 0x128),
   ((!tile && pitchBad (layA c f) (outNib g f)) || (tile && oddStart g w (toCol o)), 0x129), (scale c k g, 0x12A)] ++ lockReasons k i

/-- `adrain` (R304). -/
def opAdrain (f : QE) : COp :=
  cmdOp
    { i := .adrain f, f := f
      c1 := arrLayout f
      rest := withWg fun _ c k g =>
        let z := LaunchRec_slot g f.fsl.toNat
        (f.typ = 3 && !slBound z, 0x100) ::
          drainReasons (.adrain f) f (fun c _ _ => f.typ = 3 && (slSCM z = 2 || (f.mod = 3 && slSCM z = 1 && (scaleCode (slSCF z) (drainSigma c f)).isNone))) c k g
      ranges := drainRanges f false
      total := fun _ c => drRows (cnat c f.d.toNat) }
def execAdrain (f : QE) (s : State) : Host.Outcome State Fault Refusal := cueIssue (opAdrain f) s

/-- `aload` (R305). -/
def opAload (f : QE) : COp :=
  cmdOp
    { i := .aload f, f := f
      c1 := arrLayout f
      rest := withWg fun _ c k g => drainReasons (.aload f) f (fun _ _ _ => false) c k g
      ranges := drainRanges f true
      total := fun _ c => drRows (cnat c f.d.toNat) }
def execAload (f : QE) (s : State) : Host.Outcome State Fault Refusal := cueIssue (opAload f) s

/-- The target descriptor of `adrainp` (R291). -/
def taCore (x : Nat) : Nat := bitsAt x 10 0
def taAcc (x : Nat) : Nat := bitsAt x 13 11
def taLin (x : Nat) : Nat := bitsAt x 63 32

/-- `adrainp` (R306). -/
def opAdrainp (f : QE) : COp :=
  cmdOp
    { i := .adrainp f, f := f
      rest := withWg fun s c _ _ =>
        let x := cnat c f.a.toNat
        let b := cnat c f.b.toNat
        [(drBad (cnat c f.d.toNat) || rsvBits x [(13, 0), (63, 32)] || (if f.opt.getLsbD 0 then decide (2 ^ 32 ≤ b) else b ≠ 0), 0x128),
         (!s.part.pairen.getLsbD (taCore x / 2), 0x12F)]
      total := fun _ c => drRows (cnat c f.d.toNat) }
def execAdrainp (f : QE) (s : State) : Host.Outcome State Fault Refusal := cueIssue (opAdrainp f) s

/-- `adraine` (R307): each element of the region is one contribution. -/
def opAdraine (f : QE) : COp :=
  cmdOp
    { i := .adraine f, f := f
      rest := withWg fun _ c _ _ => [(drBad (cnat c f.d.toNat), 0x128)]
      total := fun _ c => drRows (cnat c f.d.toNat) * drCols (cnat c f.d.toNat) }
def execAdraine (f : QE) (s : State) : Host.Outcome State Fault Refusal := cueIssue (opAdraine f) s

/-- `azero` (R305). -/
def opAzero (f : QE) : COp :=
  cmdOp
    { i := .azero f, f := f
      rest := withWg fun _ c _ _ => [(f.mod = 1 && drBad (cnat c f.d.toNat), 0x128)] }
def execAzero (f : QE) (s : State) : Host.Outcome State Fault Refusal := cueIssue (opAzero f) s

end Sys2Proof.Machine
end

