-- ==== Sys2Proof/Machine/Groups.lean ====
section
/-! DEFINITION. Exact reduction groups (12 R333 to R335): handles, contributions, and the value of an element. -/

namespace Sys2Proof.Machine

/-- Fields of a handle (R333). -/
def hSerial (h : Nat) : Nat := h / 2 ^ 32 % 2 ^ 32
def hDev (h : Nat) : Nat := h / 2 ^ 14 % 64
def hSlice (h : Nat) : Nat := h / 16 % 1024
def hSlot (h : Nat) : Nat := h % 16
/-- A handle of this device, for slot `slot` of slice `x`. -/
def mkHandle (s : State) (x slot : Nat) (serial : Word) : Nat := serial.toNat * 2 ^ 32 + ownDev s * 2 ^ 14 + x * 16 + slot
/-- The handle of a peer's group: its DEV names the peer, bits 31:20 are zero and its serial is not 0; serial, slice and slot are the peer's, given by a free value u (R333, R334; log 11). -/
def peerHandle (dev u : Nat) : Nat := (u % (2 ^ 32 - 1) + 1) * 2 ^ 32 + dev % 64 * 2 ^ 14 + u / 2 ^ 32 % 2 ^ 14
/-- The open group that a handle of this device names. -/
def findGroup (s : State) (h : Nat) : Option Group :=
  if h / 2 ^ 20 % 2 ^ 12 ≠ 0 then none
  else s.groups.find? fun g => g.slice == hSlice h && g.slot == hSlot h && g.serial.toNat == hSerial h
/-- Change a group. -/
def updGroup (s : State) (g : Group) (f : Group → Group) : State :=
  { s with groups := s.groups.map fun x => if x.slice = g.slice ∧ x.slot = g.slot then f x else x }

/-- A finite FP32 value as a multiple of 2^-149 (R333). -/
def groupInt (v : FVal) : Int :=
  match v with
  | .fin n m e => scaled n m e (-149)
  | _ => 0

/-- One contribution to a group of this device (R335): accepted, or rejected with a cause. -/
def contribute (s : State) (h idx : Nat) (v : FVal) : Option Cause × State :=
  match findGroup s h with
  | none => (some 0x150, s)
  | some g =>
    if g.vals.length ≤ idx then (some 0x151, s)
    else if 2 ^ 20 ≤ g.cnts.getD idx 0 then (some 0x152, s)
    else (none, updGroup s g fun g =>
      { g with vals := g.vals.modify idx fun x => x + BitVec.ofInt 320 (groupInt v), cnts := g.cnts.modify idx (· + 1) })

/-- A unit sends a contribution, to a peer over its links, whose acceptance its command waits for (R335); one that is not finite is not made and records `bad`. The rest of the command goes on. -/
def sendContribution (s : State) (e : Eng) (id h idx : Nat) (bits : Nat) (bad : Cause) : Run :=
  let v := Fmt.f32.unpack bits
  match v with
  | .fin _ _ _ =>
    if hDev h ≠ ownDev s then
      if !(mreg s Reg.DOMAIN).testBit (hDev h) then .go (noteCause s id 0x150 0)
      else if !reachable s (hDev h) then .go (noteCause s id 0x15F 0)
      else engMark (askPeer s (engAsks e) { dst := hDev h, kind := 17, page := h, seq := 0, aux := idx, data := leBytes 4 bits }) e 6 0
    else match contribute s h idx v with
      | (some c, t) => .go (noteCause t id c 0)
      | (none, t) => engMark t e 6 0
  | _ => .go (noteCause s id bad 0)

/-- The value an element shows (R336): round to FP32, an exact zero as +0. -/
def groupValue (x : BitVec 320) : Nat := f32Bits (.fin (decide (x.toInt < 0)) x.toInt.natAbs (-149))

end Sys2Proof.Machine
end

