-- ==== Sys2Proof/Machine/ArrayUnits.lean ====
section
/-! DEFINITION. The execution of array commands (11 R286, R287, R296 to R309): when a command starts, the stationary planes, and one unit of each command: a streamed row, a drained or loaded row, a contribution, or the whole of a tile command. -/

namespace Sys2Proof.Machine

/-- The workgroup of a command with its launch record. -/
def cmdWg (s : State) (c : Cmd) : Option (Workgroup × LaunchRec) :=
  match c.owner with
  | .cue wg => (findWg s wg).bind fun k => (gridOf s k).map fun g => (k, g.lrec)
  | _ => none
/-- The configuration a command works with: that at its issue (R284). -/
def ccfg (c : Cmd) (t : BitVec 4) : DWord := c.cfgs.get t.toNat

/-! ### Starting (R286, R287) -/

/-- Stages of the engine: 0 tile, 1 plane, 2 stream, 3 drain. -/
def stageOf (i : Instr) : Nat :=
  match i with
  | .arrw _ => 1
  | .arrmm _ => 2
  | .arrdist _ => 2
  | .arrmmg _ => 2
  | .arrcent _ => 2
  | .arrbest _ => 3
  | .adrain _ => 3
  | .adrainp _ => 3
  | .adraine _ => 3
  | .azero _ => 3
  | .aload _ => 3
  | _ => 0
/-- An earlier command writes what a later one reads or writes, or reads what it writes. -/
def touchMeets (a b : Touch) : Bool :=
  meets a.tw (b.tr ++ b.tw) || meets a.aw (b.ar ++ b.aw) || meets a.tr b.tw || meets a.ar b.aw
/-- The stationary tile a command streams against, or loads. -/
def planeTile (i : Instr) : Option Nat :=
  match i with
  | .arrw f => some f.tb.toNat
  | .arrmm f => some f.tb.toNat
  | .arrdist f => some f.tb.toNat
  | _ => none
def isCent : Instr → Bool
  | .arrcent _ => true
  | _ => false
def isMmg : Instr → Bool
  | .arrmmg _ => true
  | _ => false
def isArrw : Instr → Bool
  | .arrw _ => true
  | _ => false
/-- The planes of a core; untagged until a load. -/
def planesOf (s : State) (core : Nat) : Planes := (s.planes.find? fun p => p.core == core).getD { core := core, active := none, shadow := none }
def setPlanes (s : State) (p : Planes) : State := { s with planes := p :: s.planes.filter fun q => !(q.core == p.core) }
/-- The tag of a tile as it is now. -/
def tagOf (k : Workgroup) (t : Nat) : PlaneTag := { wg := k.id, tile := t, gen := k.tgen.get t }
/-- The tag a command needs. -/
def cmdTag (s : State) (c : Cmd) : Option PlaneTag :=
  match cmdWg s c, planeTile c.op with
  | some (k, _), some t => some (tagOf k t)
  | _, _ => none
/-- Every command of the core issued before this one has started. -/
def earlierStarted (s : State) (c : Cmd) : Bool := (arrayQueue s c.core).all fun x => x.started || decide (c.id ≤ x.id)
/-- No earlier command of the workgroup that has not completed touches what this one needs. -/
def independent (s : State) (c : Cmd) : Bool :=
  (s.cmds.filter fun x => x.owner == c.owner && decide (x.id < c.id) && isArray x.op).all fun x => !touchMeets (touchOf x.op) (touchOf c.op)
/-- The planes hold what a streaming command needs. -/
def planeReady (s : State) (c : Cmd) : Bool :=
  if isCent c.op then c.plane
  else if stageOf c.op = 2 then
    match cmdTag s c with
    | some t => let p := planesOf s c.core; p.active == some t || p.shadow == some t
    | none => true
  else true
/-- A queued array command may start: order, dependencies, its stage, its ranges, its plane. -/
def arrayStartable (s : State) (c : Cmd) : Bool :=
  isArray c.op && !c.started && earlierStarted s c && independent s c && !conflicted s c && planeReady s c
    && !((arrayQueue s c.core).any fun x => x.started && stageOf x.op == stageOf c.op)
/-- Swap the planes when the shadow holds what the command streams against (R287); a one-hot plane carries no tag. -/
def planeSwap (s : State) (c : Cmd) : State :=
  let p := planesOf s c.core
  if isCent c.op then setPlanes s { p with active := none, shadow := p.active }
  else match cmdTag s c with
    | some t => if stageOf c.op = 2 && p.active != some t && p.shadow == some t then setPlanes s { p with active := p.shadow, shadow := p.active } else s
    | none => s
/-- Commands that stream rows through the array (R308). -/
def streams (i : Instr) : Bool := stageOf i = 2
/-- A started `arrmmg` still has rows to stream against what the shadow plane holds. -/
def mmgNeeds (s : State) (x : Cmd) (tag : Option PlaneTag) : Bool := x.started && isMmg x.op && match cmdWg s x with
  | some (k, _) => (x.aux.drop x.done).any fun p => tag == some (tagOf k (p % 16))
  | none => false
/-- An earlier streaming command still needs what the shadow plane holds (R287): it will swap it in, or streams against it. -/
def shadowNeeded (s : State) (c : Cmd) : Bool :=
  let p := planesOf s c.core
  (arrayQueue s c.core).any fun x => decide (x.id < c.id) && streams x.op &&
    (if isCent x.op then x.plane && !x.started else p.shadow.isSome && (p.shadow == cmdTag s x || mmgNeeds s x p.shadow) && p.active != p.shadow)
/-- The plane stage has an `arrw` to load. -/
def stageTaken (s : State) (c : Cmd) : Bool := (arrayQueue s c.core).any fun x => isArrw x.op && x.started && decide (x.done < x.total)
/-- A plane holds the tile that a command loads. -/
def planeHeld (s : State) (c : Cmd) : Bool := let p := planesOf s c.core; (cmdTag s c).isSome && (p.active == cmdTag s c || p.shadow == cmdTag s c)
/-- A plane load may begin (R287): for a started `arrw`, or for a streaming command whose plane is not there while no `arrw` has the plane stage; what an earlier streaming command needs of the shadow plane stays. -/
def planeLoadable (s : State) (c : Cmd) : Bool :=
  if isArrw c.op then c.started && decide (c.done < c.total) && (planeHeld s c || !shadowNeeded s c)
  else streams c.op && !isMmg c.op && !c.started && !planeReady s c && earlierStarted s c && independent s c
    && !stageTaken s c && !shadowNeeded s c
/-- The shadow plane takes the tile, or the one-hot plane. -/
def planeFill (s : State) (c : Cmd) : State :=
  let p := planesOf s c.core
  if isCent c.op then setPlanes s { p with shadow := none }
  else match cmdTag s c with
    | some t => if p.active == some t || p.shadow == some t then s else setPlanes s { p with shadow := some t }
    | none => s

/-! ### Pass arithmetic (R298) -/

def FVal.abs : FVal → FVal
  | .fin _ m e => .fin false m e
  | .inf _ => .inf false
  | .nan s => .nan s
/-- One term: mode 0 MAC, 1 L1, 2 L2. -/
def passTerm (mode : Nat) (x y : FVal) : FVal :=
  match mode with
  | 0 => (fMul x y).1
  | 1 => (fAdd 0 x y.neg).1.abs
  | _ => let d := (fAdd 0 x y.neg).1; (fMul d d).1
/-- The exact sum of a prior value and terms, rounded once to FP32. -/
def passSum (prior : FVal) (terms : List FVal) : Nat := f32Bits (terms.foldl (fun a t => (fAdd 0 a t).1) prior)
/-- A prior accumulator value: +0 under ZERO. -/
def passPrior (zero : Bool) (k : Workgroup) (a r n : Nat) : FVal := if zero then .fin false 0 0 else Fmt.f32.unpack (accGet k a r n)

/-- One row of a product or distance (R300): row `arow` of tile `wa` against tile `wb`, into row `acrow` of accumulator `ac`. Invalid scales are recorded: 0x138 streamed, 0x139 stationary. -/
def passRow (s : State) (c : Cmd) (mode : Nat) (zero : Bool) (wa wb : DWord) (ac arow acrow koff : Nat) : Run :=
  match cmdWg s c with
  | none => .go s
  | some (k, g) =>
    let K := tRows wb
    let xs := (List.range K).map fun j => elemVal g k wa arow (koff + j)
    let cols := (List.range (tCols wb)).map fun n => (List.range K).map fun j => elemVal g k wb j n
    let k' := (List.range (tCols wb)).foldl (fun k' n =>
      accPut k' ac acrow n (passSum (passPrior zero k ac acrow n) ((xs.zip (cols.getD n [])).map fun (x, y) => passTerm mode x.1 y.1))) k
    let t := updWg s k.id fun _ => k'
    let t := if xs.any (·.2) then noteCause t c.id 0x138 0 else t
    .go (if cols.any fun l => l.any (·.2) then noteCause t c.id 0x139 0 else t)

/-- Row d of `arrcent` (R302): column DIM0 + d of the samples against the one-hot plane, or a row of ones for the counts. -/
def centRow (s : State) (c : Cmd) (f : QE) (d : Nat) : Run :=
  match cmdWg s c with
  | none => .go s
  | some (k, g) =>
    let x := creg c f.a.toNat
    let wa := ccfg c f.ta
    let wb := ccfg c f.tb
    let ns := tRows wb
    let iblk := f.optN 14 4
    let one := FVal.fin false 1 0
    let hot := (List.range ns).map fun i => ((tileNat k wb (i * tPitch g wb) 4 : Int) - iblk * 256) % (2 ^ 32 : Nat)
    let count := d = ceDn x
    let row := if count then ceCrow x else ceAcrow0 x + d
    let xs := (List.range ns).map fun i => if count then (one, false) else elemVal g k wa i (ceDim0 x + d)
    let zero := f.opt.getLsbD 0
    let k' := (List.range 256).foldl (fun k' n =>
      accPut k' f.ac.toNat row n (passSum (passPrior zero k f.ac.toNat row n)
        ((xs.zip hot).map fun (v, h) => (fMul v.1 (if h = (n : Int) then one else .fin false 0 0)).1))) k
    let t := updWg s k.id fun _ => k'
    .go (if xs.any (·.2) then noteCause t c.id 0x138 0 else t)

/-! ### The group table of `arrmmg` (R301) -/

/-- A row to stream, packed: stationary tile, accumulator, accumulator row, row of TA. -/
def mmgPack (bt ac acrow arow : Nat) : Nat := bt + 16 * ac + 128 * acrow + 4096 * arow
/-- The rows of the groups from a first row of TA. -/
def mmgRows : List Nat → Nat → List Nat
  | [], _ => []
  | e :: r, arow =>
    let n := bitsAt e 5 0
    (List.range n).map (fun i => mmgPack (bitsAt e 11 8) (bitsAt e 14 12) (bitsAt e 20 16 + i) (arow + i)) ++ mmgRows r (arow + n)
/-- An entry that makes the table invalid (0x12B). -/
def mmgBad (g : LaunchRec) (c : Cmd) (wa : DWord) (koff e : Nat) : Bool :=
  let bt := bitsAt e 11 8
  let ac := bitsAt e 14 12
  let n := bitsAt e 5 0
  let wb := c.cfgs.get bt
  rsvBits e [(20, 16), (14, 8), (5, 0)] || decide (32 < n) || decide (g.accs ≤ ac ∨ g.tiles ≤ bt) || !c.aux.contains bt
    || decide (32 < bitsAt e 20 16 + n) || notOperand wb || statBig wb || raxBad g wb 1 || decide (tCols wa < koff + tRows wb)
/-- The engine reads and checks the whole table before any group runs; `aux` then lists the rows. -/
def mmgStart (s : State) (c : Cmd) (f : QE) : Run :=
  match cmdWg s c with
  | none => .go s
  | some (_, g) =>
    let wa := ccfg c f.ta
    let rec read : Nat → Nat → List Nat → State → (List Nat → State → Run) → Run
      | 0, _, acc, t, go => go acc t
      | n + 1, a, acc, t, go => engGet t (engOf t c) 1 a 4 9 fun bs t => read n (a + 4) (acc ++ [leNat bs]) t go
    read (mmgGroups f) (creg c f.a.toNat % 2 ^ 32) [] s fun es t =>
      let total := es.foldl (fun n e => n + bitsAt e 5 0) 0
      if es.any (mmgBad g c wa (creg c f.b.toNat % 1024)) || decide (tRows wa < mmgArow0 f + total) then .go (noteCause t c.id 0x12B 0)
      else .go (updCmd t c.id fun x => { x with aux := mmgRows es (mmgArow0 f), total := total })
/-- One row of `arrmmg`: a group's tile that the shadow plane holds is swapped in; one that neither plane holds is loaded, once the plane stage is free and nobody needs the shadow plane, and then swapped in (R287). -/
def mmgRow (s : State) (c : Cmd) (f : QE) : Run :=
  let p := c.aux.getD c.done 0
  let bt := p % 16
  let pl := planesOf s c.core
  let tag := (cmdWg s c).map fun x => tagOf x.1 bt
  if tag.isSome && pl.active != tag && pl.shadow != tag && (stageTaken s c || shadowNeeded s c) then .wait
  else
  let t := if tag.isNone || pl.active == tag then s else setPlanes s { pl with active := tag, shadow := pl.active }
  passRow t c 0 (f.opt.getLsbD 0) (ccfg c f.ta) (c.cfgs.get bt) (p / 16 % 8) (p / 4096) (p / 128 % 32) (creg c f.b.toNat % 1024)

/-! ### Half-steps and the exclusion token (R308, R309) -/

/-- Half-steps of row n of a streaming command: 4 at the 16-bit rate, which either tile of TYPE 1 or 2 sets, else 2. -/
def rowHalves (c : Cmd) (n : Nat) : Nat :=
  let wide := fun (w : DWord) => tType w = 1 || tType w = 2
  let (ta, tb) : DWord × DWord := match c.op with
    | .arrmm f => (ccfg c f.ta, ccfg c f.tb)
    | .arrdist f => (ccfg c f.ta, ccfg c f.tb)
    | .arrmmg f => (ccfg c f.ta, c.cfgs.get (c.aux.getD n 0 % 16))
    | .arrcent f => (ccfg c f.ta, ccfg c f.ta)
    | _ => (0, 0)
  if wide ta || wide tb then 4 else 2
/-- Half-steps of the first n rows. -/
def halvesTo (c : Cmd) (n : Nat) : Nat := ((List.range n).map (rowHalves c)).sum
/-- A command has a half-step to take. -/
def streaming (c : Cmd) : Bool := streams c.op && c.started && decide (c.half < halvesTo c c.total)
/-- The governor holds every stream stage in this clk (15 R429). -/
def streamHeld (s : State) : Bool := decide (s.clk % 8 < mreg s Reg.GOVHOLD)
/-- The other array of a core's pair has a half-step to take as well. -/
def contested (s : State) (c : Cmd) : Bool := s.cmds.any fun x => streaming x && x.core / 2 == c.core / 2 && x.core != c.core
/-- The half-steps of one clk: both arrays of a pair contesting, the token's holder runs at full rate, the other at half rate, and the token passes. -/
def streamTick (s : State) : State :=
  if streamHeld s || !s.cmds.any streaming then s
  else
    let both := (s.cmds.filter fun c => streaming c && contested s c && c.core % 2 == 0).map fun c => c.core / 2
    { s with
      cmds := s.cmds.map fun c =>
        if streaming c then { c with half := min (halvesTo c c.total) (c.half + (if contested s c && c.core % 2 ≠ (s.exclusion.get (c.core / 2)).toNat then 1 else 2)) } else c
      exclusion := both.foldl (fun m p => SMap.set m p (SMap.get m p ^^^ 1)) s.exclusion }
/-- The next row of a streaming command has entered. -/
def rowEntered (c : Cmd) : Bool := decide (halvesTo c (c.done + 1) ≤ c.half)

/-! ### Tile commands (R296, R297) -/

/-- The elements of a tile, row by row. -/
def tileElems (w : DWord) : List (Nat × Nat) := (List.range (tRows w)).flatMap fun r => (List.range (tCols w)).map fun x => (r, x)
/-- The address and size of each scale of a tile's scale array: (array offset, tile byte). -/
def scaleCells (g : LaunchRec) (w : DWord) : List (Nat × Nat) :=
  let z := scaleSize (slSCF (tFmt g w))
  (List.range (tScaleRaw g w / z)).map fun j => (j * z, tScaleAt g w + j * z)
/-- Change the workgroup of a command. -/
def onWg (s : State) (c : Cmd) (f : Workgroup → Workgroup) : State :=
  match c.owner with
  | .cue wg => updWg s wg f
  | _ => s

/-- `tld`, whole. -/
def tldRun (s : State) (c : Cmd) (f : QE) : Run :=
  match cmdWg s c with
  | none => .go s
  | some (_, g) =>
    let w := ccfg c f.ta
    let l := layOf (creg c f.a.toNat) (creg c (f.a.toNat + 1))
    let sp := arrSpace f.mod.toNat
    let nb := tNib g w
    let z := scaleSize (slSCF (tFmt g w))
    let sc := creg c (f.b.toNat + 1) % (if f.mod = 2 then 2 ^ 64 else 2 ^ 32)
    (runList (fun t (r, x) => engGetElem t (engOf t c) sp (arrBase f.mod.toNat l (creg c f.b.toNat)) (viewOff l nb x r 0 0) nb 9 fun v t =>
        .go (onWg t c fun k => elemPut g k w r x v)) (tileElems w) (onWg s c fun k => bumpGen k f.ta.toNat)).andThen fun t =>
      runList (fun t (o, a) => engGet t (engOf t c) sp (sc + o) z 9 fun bs t => .go (onWg t c fun k => tilePut k w a z (leNat bs))) (scaleCells g w) t
/-- `tsd`, whole. -/
def tsdRun (s : State) (c : Cmd) (f : QE) : Run :=
  match cmdWg s c with
  | none => .go s
  | some (k, g) =>
    let w := ccfg c f.ta
    let l := layOf (creg c f.a.toNat) (creg c (f.a.toNat + 1))
    let sp := arrSpace f.mod.toNat
    let nb := tNib g w
    let z := scaleSize (slSCF (tFmt g w))
    let sc := creg c (f.b.toNat + 1) % (if f.mod = 2 then 2 ^ 64 else 2 ^ 32)
    (runList (fun t (r, x) => engPutElem t (engOf t c) sp (arrBase f.mod.toNat l (creg c f.b.toNat)) (viewOff l nb x r 0 0) nb (codeBits g w (elemGet g k w r x))) (tileElems w) s).andThen
      fun t =>
        let t := freshen t (engOf t c) sp ((tileElems w).map fun (r, x) => 2 * arrBase f.mod.toNat l (creg c f.b.toNat) + viewOff l nb x r 0 0) nb
        (runList (fun t (o, a) => engPut t (engOf t c) sp (sc + o) (leBytes z (tileNat k w a z))) (scaleCells g w) t).andThen
          fun t => .go (freshen t (engOf t c) sp ((scaleCells g w).map fun (o, _) => 2 * (sc + o)) (2 * z))
/-- `tzero`: codes zero, scales 1.0. -/
def tzeroRun (s : State) (c : Cmd) (f : QE) : Run :=
  match cmdWg s c with
  | none => .go s
  | some (_, g) =>
    let w := ccfg c f.ta
    let scf := slSCF (tFmt g w)
    let one := if scf = 0 then 0x7F else if scf = 1 then 0x38 else 0x3C00
    .go (onWg s c fun k =>
      let k := (tileElems w).foldl (fun k (r, x) => elemPut g k w r x 0) k
      bumpGen ((scaleCells g w).foldl (fun k (_, a) => tilePut k w a (scaleSize scf) one) k) f.ta.toNat)
/-- `txpose`. -/
def txposeRun (s : State) (c : Cmd) (f : QE) : Run :=
  match cmdWg s c with
  | none => .go s
  | some (k0, g) =>
    let a := ccfg c f.ta
    let b := ccfg c f.tb
    .go (onWg s c fun k =>
      let k := (tileElems a).foldl (fun k (r, x) => elemPut g k b x r (elemGet g k0 a r x)) k
      bumpGen (tilePut k b (tScaleAt g b) (tScaleSize g a) (tileNat k0 a (tScaleAt g a) (tScaleSize g a))) f.tb.toNat)

/-! ### The comparator chain (R303) -/

/-- A candidate is better than another: by value, numbers before NaN, then by index. -/
def better (mx hi : Bool) (a b : FVal × Nat) : Bool :=
  let byIdx := if hi then decide (b.2 < a.2) else decide (a.2 < b.2)
  let lt := fun x y => if mx then fLt false y x else fLt false x y
  match a.1.isNan, b.1.isNan with
  | true, true => byIdx
  | true, false => false
  | false, true => true
  | false, false => lt a.1 b.1 || (!lt b.1 a.1 && byIdx)
/-- The best record of a row: value bits and index. -/
def bestOf (mx hi : Bool) : List (Nat × Nat) → Nat × Nat
  | [] => (0, 0)
  | [x] => x
  | x :: r => let y := bestOf mx hi r; if better mx hi (Fmt.f32.unpack y.1, y.2) (Fmt.f32.unpack x.1, x.2) then y else x
/-- One row of `arrbest`. An old record that a merge keeps is written back with the bits of its VALUE, a NaN's too (DESIGN CHOICE: log 106). -/
def bestRow (s : State) (c : Cmd) (f : QE) (i : Nat) : Run :=
  match cmdWg s c with
  | none => .go s
  | some (k, _) =>
    let d := creg c f.b.toNat
    let mx := f.opt.getLsbD 0
    let hi := f.opt.getLsbD 1
    let a := creg c f.a.toNat % 2 ^ 32 + 8 * i
    let (v, ix) := bestOf mx hi ((List.range (beCols d)).map fun n => (accGet k f.ac.toNat (beRow0 d + i) n, f.optN 14 4 * 256 + n))
    let v := if (Fmt.f32.unpack v).isNan then Fmt.f32.nanBits else v
    if f.opt.getLsbD 2 then
      engGet s (engOf s c) (bestSpace f) a 8 9 fun bs t =>
        let o := leNat bs
        let keep := better mx hi (Fmt.f32.unpack (o / 2 ^ 32), o % 2 ^ 32) (Fmt.f32.unpack v, ix)
        engPut t (engOf t c) (bestSpace f) a (leBytes 8 (if keep then o else v * 2 ^ 32 + ix))
    else engPut s (engOf s c) (bestSpace f) a (leBytes 8 (v * 2 ^ 32 + ix))

/-! ### Drains and loads (R304 to R307) -/

/-- The value a drained element is written as (R304). -/
def drainOut (g : LaunchRec) (f : QE) (sigma v : Nat) : Nat :=
  match f.typ with
  | 0 => v
  | 1 => (fOut Fmt.f16 0 false (Fmt.f32.unpack v)).1
  | 2 => (fOut Fmt.bf16 0 false (Fmt.f32.unpack v)).1
  | _ => (quantise (LaunchRec_slot g f.fsl.toNat) v sigma).1
/-- One row of `adrain`. -/
def drainRow (s : State) (c : Cmd) (f : QE) (i : Nat) : Run :=
  match cmdWg s c with
  | none => .go s
  | some (_, g) =>
    let d := creg c f.d.toNat
    let o := creg c f.a.toNat
    let w := ccfg c f.ta
    let l := layOf o (creg c (f.a.toNat + 1))
    let sigma := creg c (f.b.toNat + 1) % 2 ^ 32
    let nb := outNib g f
    let z := LaunchRec_slot g f.fsl.toNat
    let s := if f.mod = 3 ∧ i = 0 then
        onWg s c fun k =>
          let k := bumpGen k f.ta.toNat
          if f.typ = 3 ∧ slSCM z = 1 then tilePut k w (tScaleAt g w) (scaleSize (slSCF z)) ((scaleCode (slSCF z) sigma).getD 0) else k
      else s
    let at_ := fun (j : Nat) => 2 * arrBase f.mod.toNat l (creg c f.b.toNat) + viewOff l nb j i 0 0
    (runList (fun t j =>
      match cmdWg t c with
      | none => .go t
      | some (k, _) =>
        let v := drainOut g f sigma (accGet k f.ac.toNat (drRow0 d + i) (drCol0 d + j))
        let t := if f.opt.getLsbD 3 then onWg t c fun k => accPut k f.ac.toNat (drRow0 d + i) (drCol0 d + j) 0 else t
        if f.mod = 3 then .go (onWg t c fun k => elemPut g k w (toRow o + i) (toCol o + j) v)
        else engPutElem t (engOf t c) (arrSpace f.mod.toNat) 0 (at_ j) nb v) (List.range (drCols d)) s).andThen
      fun t => .go (if f.mod = 3 then t else freshen t (engOf t c) (arrSpace f.mod.toNat) ((List.range (drCols d)).map at_) nb)
/-- The value of a loaded element (R305): exact, a NaN canonical. -/
def loadIn (f : QE) (v : Nat) : FVal := (if f.typ = 0 then Fmt.f32 else if f.typ = 1 then Fmt.f16 else Fmt.bf16).unpack v
/-- One row of `aload`. -/
def aloadRow (s : State) (c : Cmd) (f : QE) (i : Nat) : Run :=
  match cmdWg s c with
  | none => .go s
  | some (_, g) =>
    let d := creg c f.d.toNat
    let o := creg c f.a.toNat
    let w := ccfg c f.ta
    let l := layOf o (creg c (f.a.toNat + 1))
    let nb := outNib g f
    let put := fun (t : State) (j v : Nat) => onWg t c fun k =>
      let r := drRow0 d + i
      let n := drCol0 d + j
      let x := loadIn f v
      accPut k f.ac.toNat r n (f32Bits (if f.opt.getLsbD 3 then (fAdd 0 (Fmt.f32.unpack (accGet k f.ac.toNat r n)) x).1 else x))
    runList (fun t j =>
      if f.mod = 3 then
        match cmdWg t c with
        | some (k, _) => .go (put t j (elemGet g k w (toRow o + i) (toCol o + j)))
        | none => .go t
      else engGetElem t (engOf t c) (arrSpace f.mod.toNat) (arrBase f.mod.toNat l (creg c f.b.toNat)) (viewOff l nb j i 0 0) nb 14 fun v t => .go (put t j v))
      (List.range (drCols d)) s
/-- `azero`. -/
def azeroRun (s : State) (c : Cmd) (f : QE) : Run :=
  let d := creg c f.d.toNat
  let cells := if f.mod = 1 then (List.range (drRows d)).flatMap fun i => (List.range (drCols d)).map fun j => (drRow0 d + i, drCol0 d + j)
    else (List.range 32).flatMap fun i => (List.range 256).map fun j => (i, j)
  .go (onWg s c fun k => cells.foldl (fun k (r, n) => accPut k f.ac.toNat r n 0) k)

/-- The target workgroup of `adrainp`, resident at its core with the accumulator declared (R306). -/
def drainTarget (s : State) (c : Cmd) (f : QE) : Option Workgroup :=
  let x := creg c f.a.toNat
  match cmdWg s c with
  | none => none
  | some (k, g) => s.wgs.find? fun t => t.core == taCore x && t.lin == taLin x && t.grid == k.grid && t.st == .resident && decide (taAcc x < g.accs)
/-- The arrival counter of a command advances at cluster address a of a cluster. -/
def bumpCounter (s : State) (c : Cmd) (e : Eng) (space a n : Nat) : Run :=
  match engPlace s e space a 16 true with
  | .wait => .wait
  | .fault x => .stop s x (BitVec.ofNat 64 a)
  | .ok (.ls p) _ => (match advance s p n with
    | (some x, t) => .go (noteCause t c.id x (BitVec.ofNat 64 a))
    | (none, t) => .go t)
  | .ok _ _ => .go s
/-- The next row of `adrainp` leaves, as the accumulator holds it then: `half` counts the rows that have left, `cfgs` holds their elements. -/
def drainpLeave (s : State) (c : Cmd) (f : QE) : State :=
  let d := creg c f.d.toNat
  match cmdWg s c with
  | some (k, _) =>
    if c.half < drRows d then updCmd s c.id fun y => { y with half := y.half + 1, cfgs := SMap.setAll y.cfgs ((List.range (drCols d)).map fun j => (256 * y.half + j, BitVec.ofNat 64 (accGet k f.ac.toNat (drRow0 d + y.half) (drCol0 d + j)))) } else s
  | none => s
/-- Arrival of row i of `adrainp`, once it has left: it is added as one step to the target that stood there when the first row arrived; the counter follows the last row. -/
def drainpRow (s : State) (c : Cmd) (f : QE) (i : Nat) : Run :=
  let d := creg c f.d.toNat
  let x := creg c f.a.toNat
  if c.half ≤ i then .wait
  else match (if i = 0 then (drainTarget s c f).map (·.id) else c.aux.head?) with
  | some t =>
    let r := drRow0 d + i
    let u := updWg (updCmd s c.id fun y => { y with aux := [t] }) t fun t => (List.range (drCols d)).foldl (fun t j =>
      let n := drCol0 d + j
      accPut t (taAcc x) r n (f32Bits (fAdd 0 (Fmt.f32.unpack (accGet t (taAcc x) r n)) (Fmt.f32.unpack (c.cfgs.get (256 * i + j)).toNat)).1)) t
    if f.opt.getLsbD 0 && i + 1 = drRows d then
      bumpCounter u c { engOf u c with cluster := coreCluster (taCore x) } 2 (creg c f.b.toNat % 2 ^ 32) 1
    else .go u
  | none => .stop s 0x13A 0
/-- One contribution of `adraine`. -/
def draineElem (s : State) (c : Cmd) (f : QE) (n : Nat) : Run :=
  let d := creg c f.d.toNat
  let i := n / max 1 (drCols d)
  let j := n % max 1 (drCols d)
  let b := creg c f.b.toNat
  match cmdWg s c with
  | none => .go s
  | some (k, _) =>
    sendContribution s (engOf s c) c.id (creg c f.a.toNat) (b % 2 ^ 32 + i * (b / 2 ^ 32) + j) (accGet k f.ac.toNat (drRow0 d + i) (drCol0 d + j)) 0x13B

/-- One unit of an array command. -/
def arrayUnit (s : State) (c : Cmd) : Run :=
  match c.op with
  | .tcfg f => .go (onWg s c fun k => bumpGen k f.ta.toNat)
  | .tld f => tldRun s c f
  | .tsd f => tsdRun s c f
  | .tzero f => tzeroRun s c f
  | .txpose f => txposeRun s c f
  | .arrw _ => .go (planeFill s c)
  | .arrmm f =>
    let x := creg c f.a.toNat
    passRow s c 0 (f.opt.getLsbD 0) (ccfg c f.ta) (ccfg c f.tb) f.ac.toNat (stArow0 x + c.done) (stAcrow0 x + c.done) (stKoff x)
  | .arrdist f =>
    let x := creg c f.a.toNat
    passRow s c (if f.opt.getLsbD 1 then 2 else 1) (f.opt.getLsbD 0) (ccfg c f.ta) (ccfg c f.tb) f.ac.toNat (stArow0 x + c.done) (stAcrow0 x + c.done) (stKoff x)
  | .arrmmg f => mmgRow s c f
  | .arrcent f => centRow s c f c.done
  | .arrbest f => bestRow s c f c.done
  | .adrain f => drainRow s c f c.done
  | .aload f => aloadRow s c f c.done
  | .adrainp f => drainpRow s c f c.done
  | .adraine f => draineElem s c f c.done
  | .azero f => azeroRun s c f
  | _ => .go s

end Sys2Proof.Machine
end

