-- ==== Sys2Proof/Machine/BulkIssue.lean ====
section
/-! DEFINITION. The meanings of the bulk, slice and residency commands at issue (12 R313 to R343): the command block, the precise causes in ascending order, the ranges of R315. Their execution is in BulkUnits. -/

namespace Sys2Proof.Machine

/-! ### The command block (R316) -/

structure Blk where
  sbase : Nat
  slay : Lay
  slayRaw : Nat
  parm : Nat
  dbase : Nat
  dlay : Lay
  dlayRaw : Nat
  caddr : Nat
  n0 : Nat
  n1 : Nat
  n2 : Nat
  n3 : Nat
  b0 : Nat
  b1 : Nat
  deriving DecidableEq, Repr

/-- The block in eight registers from register a, rounded down to a multiple of 8. -/
def blkOf (r : Nat → Nat) (a : Nat) : Blk :=
  let w := fun j => r (a / 8 * 8 + j)
  { sbase := w 0, slay := layOf (w 1) (w 2 % 2 ^ 32), slayRaw := w 1 + w 2 % 2 ^ 32 * 2 ^ 64, parm := w 2 / 2 ^ 32
    dbase := w 3, dlay := layOf (w 4) (w 5 % 2 ^ 32), dlayRaw := w 4 + w 5 % 2 ^ 32 * 2 ^ 64, caddr := w 5 / 2 ^ 32
    n0 := bitsAt (w 6) 19 0, n1 := bitsAt (w 6) 39 20, n2 := bitsAt (w 6) 51 40, n3 := bitsAt (w 6) 63 52
    b0 := bitsAt (w 7) 15 0, b1 := bitsAt (w 7) 31 16 }
def blkAt (c : CCtx) (f : QE) : Blk := blkOf (cnat c) f.a.toNat
def blkCmd (c : Cmd) (f : QE) : Blk := blkOf (creg c) f.a.toNat

/-- A slot of the issuing grid; a copy block has none (log 29). -/
def blkSlot (g : Option Grid) (fsl : BitVec 3) : Word :=
  match g with
  | some g => LaunchRec_slot g.lrec fsl.toNat
  | none => 0
/-- Container nibbles of an element type (R317). -/
def typNib (slot : Word) (t : Nat) : Nat :=
  match t with
  | 0 => if slW slot ≤ 4 then 1 else 2
  | 1 => 4
  | 2 => 4
  | 3 => 8
  | 4 => 2
  | 5 => 4
  | 6 => 8
  | _ => 16
/-- A positive finite FP32 value. -/
def posFin (x : Nat) : Bool :=
  match Fmt.f32.unpack x with
  | .fin n m _ => !n && m ≠ 0
  | _ => false

/-- What a command uses of its block, its types and its own causes. -/
structure BUse where
  i : Instr
  f : QE
  src : Bool := false
  dst : Bool := false
  /-- SBASE holds a value of its own (`bfill`), DBASE a handle (`bsca.exact`) -/
  sval : Bool := false
  dval : Bool := false
  ssp : Nat := 0
  dsp : Nat := 0
  parm : Bool := false
  sigma : Bool := false
  bound0 : Bool := false
  bound1 : Bool := false
  mustB1 : Bool := false
  cnt : Bool := false
  mc : Bool := false
  /-- N2 and N3 must be 1 (0x143) -/
  flat : Bool := false
  styp : Nat
  dtyp : Nat
  /-- nibbles of a source element when not those of its type -/
  snib : Option Nat := none
  /-- more causes, ascending, from 0x141 on: merged with the common ones by `firstLow` -/
  own : List (Bool × Nat) := []
  deriving Repr

/-- The lowest of the causes whose conditions hold. -/
def firstLow (l : List (Bool × Nat)) : Option OwnC :=
  ((l.filter (·.1)).map (·.2)).foldl (fun (m : Option Nat) x => match m with
    | some y => some (min x y)
    | none => some x) none |>.bind ownC

/-- The destination bytes of a multicast (R324). -/
def mcBad (s : State) (cluster mask : Nat) (u : BUse) (b : Blk) (nib : Nat) : Bool :=
  let n := (enabledPairs s cluster).length
  u.dsp ≠ 2 || decide (2 ^ n ≤ mask) || decide (shareOf s cluster < b.dlay.base + viewEnd b.dlay nib b.n0 b.n1 b.n2 b.n3)
/-- The counter address is wrong (0x146). -/
def cntBad (s : State) (e : Eng) (u : BUse) (a : Nat) : Bool :=
  if u.mc then a % 16 ≠ 0 || decide (shareOf s e.cluster < a + 16)
  else match engPlace s e (if u.dsp = 1 then 1 else 2) a 16 true with
    | .fault _ => true
    | _ => false

/-- A narrow command with an unbound slot (R317, 0x100): the instruction word alone tells. -/
def blkUnbound (u : BUse) (c : CCtx) : Bool := (u.styp = 0 || u.dtyp = 0) && !slBound (blkSlot c.g u.f.fsl)
/-- The precise causes of a block command: 0x100, then class 10 (R346 takes the lowest). Codes of `bexp` run along N1. DESIGN CHOICE (log 106): the evenness of 0x144 is that of N0, as R317 names it, also for a `bcp` with TR = 1, whose source runs N1 along its dimension 0. -/
def blkCause (u : BUse) (s : State) (c : CCtx) : Option OwnC :=
  if blkUnbound u c then ownC 0x100
  else if u.f.a.toNat % 8 ≠ 0 then ownC 0x140
  else
    let b := blkAt c u.f
    let z := blkSlot c.g u.f.fsl
    let narrow := u.styp = 0 || u.dtyp = 0
    let row := if u.snib.isSome then b.n1 else b.n0
    let sn := u.snib.getD (typNib z u.styp)
    let dn := typNib z u.dtyp
    let odd := fun (l : Lay) => l.s1 % 2 = 1 || l.s2 % 2 = 1 || l.s3 % 2 = 1
    let sOdd := u.src && sn = 1
    let dOdd := u.dst && dn = 1
    let scm1 := narrow && slSCM z = 1
    firstLow ([

        ((!u.sval && !(u.src && u.ssp = 0) && b.sbase ≠ 0) || (!u.src && b.slayRaw ≠ 0) || (!u.dval && !(u.dst && u.dsp = 0) && b.dbase ≠ 0)
          || (!u.dst && b.dlayRaw ≠ 0) || (!u.parm && !(u.sigma && scm1) && b.parm ≠ 0) || (!u.cnt && b.caddr ≠ 0)
          || (!u.bound0 && b.b0 ≠ 0) || (!u.bound1 && b.b1 ≠ 0) || (u.mustB1 && b.b1 = 0) || (u.sigma && scm1 && !posFin b.parm), 0x141),
        (narrow && slSCM z = 2, 0x142),
        (b.n0 = 0 || b.n1 = 0 || b.n2 = 0 || b.n3 = 0 || (u.flat && (b.n2 ≠ 1 || b.n3 ≠ 1)), 0x143),
        ((sOdd && (odd b.slay || row % 2 = 1 || b.b0 % 2 = 1)) || (dOdd && (odd b.dlay || b.n0 % 2 = 1)), 0x144),
        (u.mc && mcBad s (issuerCluster s c.iss) (cnat c u.f.d.toNat) u b dn, 0x145),
        (u.cnt && cntBad s (engOf s (mkCmd s c u.i u.f 0 [])) u b.caddr, 0x146)] ++ u.own)

/-- 0x029 for the layouts a block command uses (R316). -/
def blkLayout (u : BUse) (_ : State) (c : CCtx) : Option OwnC :=
  let b := blkAt c u.f
  if u.f.a.toNat % 8 = 0 && ((u.src && layBad b.slay (u.ssp = 0)) || (u.dst && layBad b.dlay (u.dsp = 0))) then ownC 0x029 else none

/-- Base of a view: the block's base in global space, else the layout's. -/
def viewBase (sp base : Nat) (l : Lay) : Nat := if sp = 0 then base else l.base
/-- The range of a view. -/
def viewRange (sp base : Nat) (l : Lay) (nib n0 n1 n2 n3 : Nat) (source : Bool) : Range :=
  Range.of sp (viewBase sp base l) (viewBase sp base l + viewEnd l nib n0 n1 n2 n3) source

/-- A block command at issue; its unit is 256 bytes of destination (R325) unless it says otherwise. -/
def blkIssue (u : BUse) (ranges : State → CCtx → Blk → List Range) (total : Blk → Word → Nat) : ECmd :=
  { i := u.i, f := u.f
    c1 := blkLayout u
    rest := blkCause u
    ranges := fun s c => ranges s c (blkAt c u.f)
    total := fun _ c => total (blkAt c u.f) (blkSlot c.g u.f.fsl) }

/-- Units of 256 bytes in a destination of n elements. -/
def unitsOf (n nib : Nat) : Nat := ceilDiv (n * nib) 512
def extents (b : Blk) : Nat := b.n0 * b.n1 * b.n2 * b.n3

/-! ### Copies, fills, gathers, scatters (R322 to R330) -/

/-- Accepted conversions (R322). -/
def convOk (a b : Nat) : Bool := a = b || (decide (a ≤ 3) && decide (b ≤ 3))

def bcpUse (f : QE) : BUse :=
  { i := .bcp f, f := f, src := true, dst := true, ssp := f.ssp, dsp := f.dsp, sigma := true, bound0 := true, bound1 := true,
    cnt := f.cnt, mc := f.mc, styp := f.typ, dtyp := f.dtyp, own := [(!convOk f.typ f.dtyp, 0x142)] }
/-- The destination range of a view, or the window interval of a multicast. -/
def dstRange (f : QE) (s : State) (c : CCtx) (b : Blk) (nib : Nat) : Range :=
  if f.mc then
    let e := enabledPairs s (issuerCluster s c.iss)
    { space := 2, lo := b.dlay.base, hi := b.dlay.base + viewEnd b.dlay nib b.n0 b.n1 b.n2 b.n3, source := false,
      pairs := some ((maskList (cnat c f.d.toNat) e.length).map fun k => e.getD k 0) }
  else viewRange f.dsp b.dbase b.dlay nib b.n0 b.n1 b.n2 b.n3 false
/-- A bound, or the extent when there is none or it is larger. -/
def bounded (n b : Nat) : Nat := if b = 0 then n else min n b

/-- `bcp` as a command. -/
def bcpCmd (f : QE) : ECmd :=
  blkIssue (bcpUse f)
    (fun s c b =>
      let z := blkSlot c.g f.fsl
      let (m0, m1) := if f.tr then (b.n1, b.n0) else (b.n0, b.n1)
      [viewRange f.ssp b.sbase b.slay (typNib z f.typ) (bounded m0 b.b0) (bounded m1 b.b1) b.n2 b.n3 true, dstRange f s c b (typNib z f.dtyp)])
    (fun b z => unitsOf (extents b) (typNib z f.dtyp))
/-- `bcp` (R322). -/
def opBcp (f : QE) : COp := cmdOp (bcpCmd f)
def execBcp (f : QE) (s : State) : Host.Outcome State Fault Refusal := cueIssue (opBcp f) s

/-- `bfill` as a command. -/
def bfillCmd (f : QE) : ECmd :=
  blkIssue { i := .bfill f, f := f, dst := true, sval := true, dsp := f.dsp, cnt := f.cnt, mc := f.mc, styp := f.typ, dtyp := f.typ }
    (fun s c b => [dstRange f s c b (typNib (blkSlot c.g f.fsl) f.typ)])
    (fun b z => unitsOf (extents b) (typNib z f.typ))
/-- `bfill` (R326). -/
def opBfill (f : QE) : COp := cmdOp (bfillCmd f)
def execBfill (f : QE) (s : State) : Host.Outcome State Fault Refusal := cueIssue (opBfill f) s

/-- `bpeer` (R327). -/
def opBpeer (f : QE) : COp :=
  cmdOp (blkIssue { i := .bpeer f, f := f, src := true, dst := true, ssp := f.ssp, styp := f.typ, dtyp := f.typ }
    (fun _ c b => [viewRange f.ssp b.sbase b.slay (typNib (blkSlot c.g f.fsl) f.typ) b.n0 b.n1 b.n2 b.n3 true])
    (fun b z => unitsOf (extents b) (typNib z f.typ)))
def execBpeer (f : QE) (s : State) : Host.Outcome State Fault Refusal := cueIssue (opBpeer f) s

/-- The index tensor of `bgat` and `bsca` (R328). -/
def indexRange (c : CCtx) (f : QE) (b : Blk) : Range := let a := cnat c f.b.toNat; Range.of f.mod.toNat a (a + 4 * b.n1) true

/-- `bgat` (R328). -/
def opBgat (f : QE) : COp :=
  cmdOp (blkIssue
    { i := .bgat f, f := f, src := true, dst := true, ssp := f.ssp, dsp := f.dsp, bound1 := true, mustB1 := true, cnt := f.cnt, flat := true, styp := f.typ, dtyp := f.typ }
    (fun _ c b =>
      let n := typNib (blkSlot c.g f.fsl) f.typ
      [viewRange f.ssp b.sbase b.slay n b.n0 b.b1 1 1 true, indexRange c f b, viewRange f.dsp b.dbase b.dlay n b.n0 b.n1 1 1 false])
    (fun b z => unitsOf (b.n0 * b.n1) (typNib z f.typ)))
def execBgat (f : QE) (s : State) : Host.Outcome State Fault Refusal := cueIssue (opBgat f) s

/-- `bsca` (R329); its units follow the source: 256 bytes of it, or one element when each is an operation of its own. -/
def opBsca (f : QE) : COp :=
  let exact := f.dtyp = 2
  cmdOp (blkIssue
    { i := .bsca f, f := f, src := true, dst := !exact, dval := exact, ssp := f.ssp, dsp := f.dsp, bound1 := true, mustB1 := true, flat := true, styp := f.typ, dtyp := f.typ
      own := [((f.dtyp = 1 && f.typ ≠ 3 && f.typ ≠ 6) || (exact && f.typ ≠ 3), 0x142)] }
    (fun _ c b =>
      let n := typNib (blkSlot c.g f.fsl) f.typ
      [viewRange f.ssp b.sbase b.slay n b.n0 b.n1 1 1 true, indexRange c f b]
        ++ (if exact then [] else [viewRange f.dsp b.dbase b.dlay n b.n0 b.b1 1 1 false]))
    (fun b z => if f.dtyp = 0 then unitsOf (b.n0 * b.n1) (typNib z f.typ) else b.n0 * b.n1))
def execBsca (f : QE) (s : State) : Host.Outcome State Fault Refusal := cueIssue (opBsca f) s

/-- Nibbles of a code of `bexp` (R330). -/
def codeNib (f : QE) : Nat := if f.mod = 1 then 1 else 2
/-- Bytes of the codebook. -/
def bookBytes (b : Blk) (nib : Nat) : Nat := ceilDiv (b.b1 * b.n0 * nib) 2

/-- `bexp` (R330). The codes of a 4-bit view are narrow elements of width 4 for 0x144. -/
def opBexp (f : QE) : COp :=
  cmdOp
    (let x := blkIssue
      { i := .bexp f, f := f, src := true, dst := true, ssp := f.ssp, dsp := f.dsp, bound1 := true, cnt := f.cnt, styp := f.typ, dtyp := f.typ, snib := some (codeNib f) }
      (fun _ c b =>
        let n := typNib (blkSlot c.g f.fsl) f.typ
        let a := cnat c f.b.toNat
        [viewRange f.ssp b.sbase b.slay (codeNib f) b.n1 b.n2 b.n3 1 true, Range.of (f.optN 5 4) a (a + bookBytes b n) true, viewRange f.dsp b.dbase b.dlay n b.n0 b.n1 b.n2 b.n3 false])
      (fun b z => unitsOf (extents b) (typNib z f.typ))
    { x with rest := fun s c =>
        let b := blkAt c f
        let n := typNib (blkSlot c.g f.fsl) f.typ
        if f.a.toNat % 8 = 0 && b.slay.s3 ≠ 0 && (f.typ ≠ 0 || slBound (blkSlot c.g f.fsl)) then ownC 0x141
        else match x.rest s c with
          | some o => some o
          | none => if b.b1 = 0 || decide (65536 < bookBytes b n) then ownC 0x14B else none })
def execBexp (f : QE) (s : State) : Host.Outcome State Fault Refusal := cueIssue (opBexp f) s

/-! ### Slice commands (R331 to R336) -/

/-- The types an operation accepts (R331). -/
def mopOk (mod typ : Nat) : Bool := typ = 3 || (typ = 6 && mod ≠ 1 && mod ≠ 5)

/-- `mop` (R331); every α is accepted, since no rule says where a positive finite one is required (DESIGN CHOICE: log 106). A unit is one element, and for `.sum` one element read or one partial added. -/
def opMop (f : QE) : COp :=
  let m := f.mod.toNat
  let x := blkIssue { i := .mop f, f := f, src := m ≠ 5, dst := true, parm := m = 1 || m = 4 || m = 5, styp := 6, dtyp := 6 }
    (fun _ _ b =>
      let dn := if m = 6 then 1 else b.n0
      (if m = 5 then [] else [Range.of 0 b.sbase (b.sbase + 4 * b.n0) true]) ++ [Range.of 0 b.dbase (b.dbase + 4 * dn) false])
    (fun b _ => if m = 6 then 1 else b.n0)
  cmdOp
    { x with
      c1 := fun _ _ => none
      rest := fun s c =>
        let b := blkAt c f
        let dn := if m = 6 then 1 else b.n0
        if f.a.toNat % 8 = 0 && (b.slayRaw ≠ 0 || b.dlayRaw ≠ 0 || b.n1 ≠ 1 || b.n2 ≠ 1 || b.n3 ≠ 1) then ownC 0x141
        else match x.rest s c with
          | some o => some o
          | none => firstOwn [(!mopOk m f.typ, 0x14D),
              (m ≠ 5 && decide (b.sbase < b.dbase + 4 * dn ∧ b.dbase < b.sbase + 4 * b.n0) && !(b.sbase = b.dbase && (m ≠ 6 || b.n0 = 1)), 0x14E)] }
def execMop (f : QE) (s : State) : Host.Outcome State Fault Refusal := cueIssue (opMop f) s

/-- `slxp` (R332); a unit is one element. -/
def opSlxp (f : QE) : COp :=
  let n := typNib 0 f.typ
  cmdOp (blkIssue { i := .slxp f, f := f, src := true, dst := true, flat := true, styp := max 1 f.typ, dtyp := max 1 f.typ, own := [(decide (f.typ < 4 ∨ 6 < f.typ), 0x154)] }
    (fun _ _ b => [viewRange 0 b.sbase b.slay n b.n0 b.n1 1 1 true, viewRange 0 b.dbase b.dlay n b.n1 b.n0 1 1 false])
    (fun b _ => b.n0 * b.n1))
def execSlxp (f : QE) (s : State) : Host.Outcome State Fault Refusal := cueIssue (opSlxp f) s

/-- The address that an `xopen` names, translated at issue: on the device that the address names, whatever copies of its page stand elsewhere. -/
def xopenAt (s : State) (e : Eng) (a : Nat) : Except Cause Nat :=
  if 2 ^ 57 ≤ a then .error (memCause .global false 1)
  else match translate s e.core e.asid e.root a with
    | .error f => .error (trCause f.reason 0)
    | .ok t =>
      if t.pa / 2 ^ 46 ≠ ownDev s ∨ t.pa % 2 ^ 46 < hbmCap s then .ok t.pa
      else .error (if 2 ^ 45 ≤ t.pa % 2 ^ 46 then e.host else memCause .global false 2)
/-- What an issue of a command finds that keeps it from running: a deferred cause; the command is then done. -/
def noteDone (s : State) (id : Nat) (x : Cause) (a : Nat) : State := updCmd (noteCause s id x (BitVec.ofNat 64 a)) id fun m => { m with done := m.total }
/-- `xopen` (R334): unit 0 opens the group, or asks the peer, whose answer unit 1 takes. -/
def opXopen (f : QE) : COp :=
  cmdOp
    { i := .xopen f, f := f
      rest := fun _ c =>
        let e := cnat c f.b.toNat
        firstOwn [(decide (2 ^ 11 ≤ e) || windowOf (cnat c f.a.toNat) ≠ 0, 0x141), (e = 0 || decide (1024 < e), 0x153)]
      total := fun _ _ => 2
      pre := fun c t =>
        let id := t.nextId - 1
        match xopenAt t (engOf t (mkCmd t c (.xopen f) f 0 [])) (cnat c f.a.toNat) with
        | .error x => noteDone t id x (cnat c f.a.toNat)
        | .ok pa => updCmd t id fun m => { m with aux := [pa] } }
def execXopen (f : QE) (s : State) : Host.Outcome State Fault Refusal := cueIssue (opXopen f) s

/-- Element i of a view of extents n0, n1, n2, in element order x0 fastest. -/
def viewElem (l : Lay) (nib n0 n1 n2 i : Nat) : Nat :=
  viewOff l nib (i % max 1 n0) (i / max 1 n0 % max 1 n1) (i / max 1 (n0 * n1) % max 1 n2) (i / max 1 (n0 * n1 * n2))
/-- The first cause of the destination of an `xclose`, checked at issue (R336). -/
def xcloseCheck (s : State) (e : Eng) (f : QE) (b : Blk) : Option (Cause × Nat) :=
  (List.range (extents b)).findSome? fun i =>
    let a := viewBase f.dsp b.dbase b.dlay + viewElem b.dlay 8 b.n0 b.n1 b.n2 i / 2
    match engPlace s e f.dsp a 4 true with
    | .fault x => some (x, a)
    | _ => none

/-- `xclose` (R336): its destination view is registered (R315), but reads of it never conflict, since the slice writes it (17 R449); the destination is checked, then come the read at the slice, which a peer answers, and the writes. -/
def opXclose (f : QE) : COp :=
  cmdOp
    { blkIssue { i := .xclose f, f := f, dst := true, dsp := f.dsp, styp := max 1 f.typ, dtyp := max 1 f.typ, own := [(f.typ ≠ 3, 0x142)] }
        (fun _ _ b => [{ viewRange f.dsp b.dbase b.dlay 8 b.n0 b.n1 b.n2 b.n3 false with shared := true }])
        (fun _ _ => 3) with
      pre := fun c t =>
        let id := t.nextId - 1
        match xcloseCheck t (engOf t (mkCmd t c (.xclose f) f 0 [])) f (blkAt c f) with
        | some (x, a) => noteDone t id x a
        | none => t }
def execXclose (f : QE) (s : State) : Host.Outcome State Fault Refusal := cueIssue (opXclose f) s

/-! ### Residency commands (R337 to R343) -/

/-- `rsvfill` (R338): one unit per 128-byte line. -/
def opRsvfill (f : QE) : COp :=
  cmdOp
    { i := .rsvfill f, f := f
      total := fun _ c =>
        let a := cnat c f.a.toNat
        let n := cnat c f.b.toNat
        if n = 0 then 0 else (a + n - 1) / 128 + 1 - a / 128 }
def execRsvfill (f : QE) (s : State) : Host.Outcome State Fault Refusal := cueIssue (opRsvfill f) s

/-- `rsvdrop` (R339). -/
def opRsvdrop (f : QE) : COp := cmdOp { i := .rsvdrop f, f := f, rest := fun _ c => firstOwn [(decide (64 ≤ cnat c f.a.toNat), 0x141)] }
def execRsvdrop (f : QE) (s : State) : Host.Outcome State Fault Refusal := cueIssue (opRsvdrop f) s
/-- `rsvq` (R340). -/
def opRsvq (f : QE) : COp := cmdOp { i := .rsvq f, f := f }
def execRsvq (f : QE) (s : State) : Host.Outcome State Fault Refusal := cueIssue (opRsvq f) s
/-- `kvdrop` (R341). -/
def opKvdrop (f : QE) : COp := cmdOp { i := .kvdrop f, f := f, rest := fun _ c => firstOwn [(decide (2 ^ 16 ≤ cnat c f.b.toNat), 0x141)] }
def execKvdrop (f : QE) (s : State) : Host.Outcome State Fault Refusal := cueIssue (opKvdrop f) s
/-- `kvprio` (R342). -/
def opKvprio (f : QE) : COp := cmdOp { i := .kvprio f, f := f }
def execKvprio (f : QE) (s : State) : Host.Outcome State Fault Refusal := cueIssue (opKvprio f) s
/-- `rsvset` (R343). -/
def opRsvset (f : QE) : COp := cmdOp { i := .rsvset f, f := f }
def execRsvset (f : QE) (s : State) : Host.Outcome State Fault Refusal := cueIssue (opRsvset f) s

end Sys2Proof.Machine
end

