-- ==== Sys2Proof/Machine/BulkUnits.lean ====
section
/-! DEFINITION. The execution of bulk, slice and residency commands (12 R313 to R343), one unit at a time: 256 bytes of destination, a line, or the whole of a small command. -/

namespace Sys2Proof.Machine

/-- The slot a command's FSL names. -/
def cmdSlot (s : State) (c : Cmd) (f : QE) : Word :=
  match c.owner with
  | .cue wg => blkSlot ((findWg s wg).bind (gridOf s)) f.fsl
  | _ => 0

/-! ### Conversion (R322) -/

/-- A float type's format. -/
def typFmt (t : Nat) : Fmt := if t = 1 then Fmt.f16 else if t = 2 then Fmt.bf16 else Fmt.f32
/-- conv of R322 on a container. -/
def convElem (z : Word) (sat : Bool) (sigma a b x : Nat) : Nat :=
  if a = b then x
  else if b = 0 then (quantise (if sat then z ||| 0x2000000 else z) (f32Bits ((typFmt a).unpack x)) sigma).1
  else if a = 0 then (fOut (typFmt b) 0 false (fMul (slDecode z x) (Fmt.f32.unpack sigma)).1).1
  else (fOut (typFmt b) 0 false ((typFmt a).unpack x)).1
/-- σ: PARM for a slot of SCM 1, else 1.0. -/
def bcpSigma (z : Word) (b : Blk) : Nat := if slSCM z = 1 then b.parm else 0x3F800000

/-! ### Copying one unit of destination -/

/-- Where a destination element comes from: zero, a constant, or a container at a nibble address of a space. -/
inductive From where
  | zero
  | const (v : Nat)
  | cell (space a : Nat)
  deriving DecidableEq, Repr

/-- The element at nibble address d takes its granule's place in a whole source granule (R323): its source address when caps are carried. -/
def carryFrom (cells : List (From × Nat)) (nb : Nat) (x : From × Nat) : Option (Nat × Nat) :=
  match x.1 with
  | .cell sp a =>
    let o := x.2 % 32
    if o ≤ a ∧ (a - o) % 32 = 0 ∧ (List.range (32 / nb)).all (fun k => cells.contains (.cell sp (a - o + k * nb), x.2 - o + k * nb)) then some (sp, (a - o) / 2) else none
  | _ => none

/-- A destination: a space, or the window of named pairs (R324). -/
structure Dest where
  space : Nat
  pairs : Option (List Nat) := none
  /-- its address must translate to a peer (R327) -/
  peer : Bool := false
  deriving DecidableEq, Repr

/-- Write a container in each named pair's window. -/
def putWindow (s : State) (e : Eng) (ps : List Nat) (a nb v : Nat) : Run :=
  if nb ≠ 1 ∧ a / 2 % (nb / 2) ≠ 0 then .stop s (memCause .cluster true 0) (BitVec.ofNat 64 (a / 2))
  else .go (ps.foldl (fun t p =>
    let x := p * 1048576 + (1048576 - shareOf s e.cluster) + a / 2
    let old := leNat (lsBytes t x 1)
    let bs := if nb = 1 then [BitVec.ofNat 8 (if a % 2 = 0 then old / 16 * 16 + v % 16 else old % 16 + v % 16 * 16)] else leBytes (nb / 2) v
    feSetAll (lsWrite t x bs) x bs.length true) s)
/-- Write a container at a destination. -/
def putDest (s : State) (e : Eng) (d : Dest) (a nb v : Nat) : Run :=
  match d.pairs with
  | some ps => putWindow s e ps a nb v
  | none =>
    if d.peer then
      match engPlace s e 0 (a / 2) 1 true with
      | .ok _ tr => if windowOf (a / 2) = 0 ∧ tr.pa / 2 ^ 46 ≠ ownDev s then engPutElem s e 0 0 a nb v else .stop s 0x147 (BitVec.ofNat 64 (a / 2))
      | .fault x => .stop s x (BitVec.ofNat 64 (a / 2))
      | .wait => .wait
    else engPutElem s e d.space 0 a nb v

/-- Copy the elements of one unit: each is read (checked unless its cap is carried), converted and written. `all` are the elements among which whole granules of the source are looked for, `dests` the destinations of the whole command, `later` those still to be written: a granule takes its cap, carried or new, when the last of its elements is written, in whichever unit that is (log 94). A granule that does not check is carried bit for bit. -/
def copyCells (s : State) (c : Cmd) (d : Dest) (snb dnb : Nat) (conv : Nat → Nat) (carry : Bool) (all : List (From × Nat)) (dests later : List Nat) (cells : List (From × Nat)) : Run :=
  let e := engOf s c
  let mine := dests.filter fun a => cells.any fun y => y.2 / 32 == a / 32
  let near := all.filter fun x => cells.any fun y => y.2 / 32 == x.2 / 32
  let carried := fun x => if carry then carryFrom near dnb x else none
  (runList (fun t (x : From × Nat) =>
    match x.1 with
    | .zero => putDest t e d x.2 dnb 0
    | .const v => putDest t e d x.2 dnb v
    | .cell sp a => (match carried x with
      | some (sp', g) => engCarryElem t e sp a snb fun v t => putDest t e d x.2 dnb (if engSynd t e sp' g = 0 then conv v else v)
      | none => engGetElem t e sp 0 a snb 10 fun v t => putDest t e d x.2 dnb (conv v))) cells s).andThen fun t =>
    .go (((wholeCells mine dnb).filter fun a => !later.any fun x => x / 32 == a / 32).foldl (fun t a =>
      let v := match (near.find? fun x => x.2 == a).bind carried with
        | some (sp, g) => engSynd t e sp g
        | none => 0
      match d.pairs with
      | some ps => ps.foldl (fun t p => { t with lsSynd := SMap.set t.lsSynd ((p * 1048576 + (1048576 - shareOf s e.cluster) + a / 2) / 16) v }) t
      | none => engSetSynd t e d.space (a / 2) v) t)

/-- Element numbers of the present unit. -/
def unitElems (c : Cmd) (total nib : Nat) : List Nat :=
  let n := 512 / nib
  (List.range n).filterMap fun j => if c.done * n + j < total then some (c.done * n + j) else none

/-- Element numbers after the present unit. -/
def laterElems (c : Cmd) (total nib : Nat) : List Nat := (List.range total).drop ((c.done + 1) * (512 / nib))

/-- The absolute nibble address of element i of the destination view. -/
def destCell (f : QE) (b : Blk) (nib i : Nat) : Nat := 2 * viewBase f.dsp b.dbase b.dlay + viewElem b.dlay nib b.n0 b.n1 b.n2 i
/-- The destination of a copy-form command. -/
def destOf (s : State) (c : Cmd) (f : QE) : Dest :=
  if f.mc then
    let e := enabledPairs s (engOf s c).cluster
    { space := 2, pairs := some ((maskList (creg c f.d.toNat) e.length).map fun k => e.getD k 0) }
  else { space := f.dsp }

/-- The arrival counter rises by n bytes (R325): local or cluster, or in every named pair. -/
def cntAdvance (s : State) (c : Cmd) (f : QE) (b : Blk) (n : Nat) : Run :=
  let e := engOf s c
  match (destOf s c f).pairs with
  | some ps => runList (fun t p =>
      match advance t (p * 1048576 + (1048576 - shareOf s e.cluster) + b.caddr) n with
      | (some x, u) => .go (noteCause u c.id x (BitVec.ofNat 64 b.caddr))
      | (none, u) => .go u) ps s
  | none => bumpCounter s c e (if f.dsp = 1 then 1 else 2) b.caddr n
/-- After a unit to a local or cluster destination, its size (R325); the last one's comes with the command's completion (09 R224 step 4, 17 R444). -/
def unitCount (s : State) (c : Cmd) (f : QE) (b : Blk) (nib elems : Nat) : Run :=
  if f.cnt && f.dsp ≠ 0 && c.done + 1 < c.total then cntAdvance s c f b (ceilDiv (elems * nib) 2) else .go s

/-- Source of element i of a `bcp` (R322). -/
def bcpFrom (f : QE) (b : Blk) (snb i : Nat) : From :=
  let x0 := i % max 1 b.n0
  let x1 := i / max 1 b.n0 % max 1 b.n1
  let x2 := i / max 1 (b.n0 * b.n1) % max 1 b.n2
  let x3 := i / max 1 (b.n0 * b.n1 * b.n2)
  let (y0, y1) := if f.tr then (x1, x0) else (x0, x1)
  if (b.b0 ≠ 0 ∧ b.b0 ≤ y0) ∨ (b.b1 ≠ 0 ∧ b.b1 ≤ y1) then .zero
  else .cell f.ssp (2 * viewBase f.ssp b.sbase b.slay + viewOff b.slay snb y0 y1 x2 x3)

/-- The bits of an element that its container holds: those above a narrow code are written as zero (05 R120). -/
def typBits (z : Word) (typ v : Nat) : Nat := if typ = 0 then v % 2 ^ slW z else v
/-- One unit of `bcp`: caps are carried only when every granule of the whole copy takes one whole source granule (R323). -/
def bcpUnit (s : State) (c : Cmd) (f : QE) : Run :=
  let b := blkCmd c f
  let z := cmdSlot s c f
  let snb := typNib z f.typ
  let dnb := typNib z f.dtyp
  let cell := fun i => (bcpFrom f b snb i, destCell f b dnb i)
  let all := (List.range (extents b)).map cell
  let carry := f.typ = f.dtyp && !f.tr && all.all fun x => (carryFrom all dnb x).isSome
  let el := unitElems c (extents b) dnb
  (copyCells s c (destOf s c f) snb dnb (fun v => typBits z f.dtyp (convElem z f.sat (bcpSigma z b) f.typ f.dtyp v)) carry all (all.map (·.2))
    ((laterElems c (extents b) dnb).map (destCell f b dnb)) (el.map cell)).andThen fun t => unitCount t c f b dnb el.length

/-- One unit of `bfill` (R326). -/
def bfillUnit (s : State) (c : Cmd) (f : QE) : Run :=
  let b := blkCmd c f
  let z := cmdSlot s c f
  let nb := typNib z f.typ
  let cell := fun i => (From.const (b.sbase % 2 ^ (if f.typ = 0 then slW z else 4 * nb)), destCell f b nb i)
  let el := unitElems c (extents b) nb
  (copyCells s c (destOf s c f) nb nb id false ((List.range (extents b)).map cell) ((List.range (extents b)).map (destCell f b nb)) ((laterElems c (extents b) nb).map (destCell f b nb)) (el.map cell)).andThen
    fun t => unitCount t c f b nb el.length

/-- One unit of `bpeer` (R327): what is written goes to the peer, whose acknowledgements the command waits for. -/
def bpeerUnit (s : State) (c : Cmd) (f : QE) : Run :=
  let b := blkCmd c f
  let z := cmdSlot s c f
  let nb := typNib z f.typ
  let cell := fun i => (bcpFrom f b nb i, destCell f b nb i)
  copyCells s c { space := 0, peer := true } nb nb (typBits z f.typ) true ((List.range (extents b)).map cell) ((List.range (extents b)).map (destCell f b nb)) ((laterElems c (extents b) nb).map (destCell f b nb))
    ((unitElems c (extents b) nb).map cell)

/-! ### The engine's buffer (R328, R330) -/

/-- The command as it stands now. -/
def cmdNow (s : State) (c : Cmd) : Cmd := (findCmd s c.id).getD c
/-- Bring the granule of a source element into the engine's buffer, with its cap, unless a list of granules held names it; `put` notes it there. -/
def bufFetch (s : State) (c : Cmd) (sp a nb : Nat) (held : Cmd → List Nat) (k : State → Run) : Run :=
  let e := engOf s c
  let g := a / 32
  match engPlace s e sp (a / 2) (max 1 (nb / 2)) false with
  | .wait => .wait
  | .fault x => .stop s x (BitVec.ofNat 64 (a / 2))
  | .ok _ _ =>
    if (held (cmdNow s c)).contains g then k s
    else engFetch s e sp (16 * g) 16 none fun bs t =>
      k (updCmd t c.id fun y => { y with buf := SMap.setList y.buf (16 * g) bs, bufSynd := y.bufSynd.set g (engSynd t e sp (16 * g)), aux := y.aux ++ [g] })
/-- Bring the granules of a list of elements. -/
def bufAll (c : Cmd) (sp nb : Nat) (held : Cmd → List Nat) : List Nat → State → (State → Run) → Run
  | [], s, k => k s
  | a :: r, s, k => bufFetch s c sp a nb held fun t => bufAll c sp nb held r t k

/-- Read n words of an index tensor from position r on, checked. -/
def readIndices (c : Cmd) (f : QE) : Nat → Nat → List Nat → State → (List Nat → State → Run) → Run
  | 0, _, acc, s, k => k acc s
  | n + 1, r, acc, s, k => engGet s (engOf s c) f.mod.toNat (creg c f.b.toNat + 4 * r) 4 10 fun bs t => readIndices c f n (r + 1) (acc ++ [leNat bs]) t k
/-- The indices of window w of 64 positions (R328), each read once: `aux` holds the window's number, how many, the indices, and the granules of the table that the window has brought into the buffer. -/
def withWindow (s : State) (c : Cmd) (f : QE) (n1 w : Nat) (k : State → Run) : Run :=
  if (cmdNow s c).aux.head? = some w then k s
  else
    let n := min n1 (64 * w + 64) - 64 * w
    readIndices c f n (64 * w) [] s fun ix t => k (updCmd t c.id fun y => { y with aux := w :: n :: ix, buf := [], bufSynd := [] })
/-- Index r of the window held, as a signed number. -/
def heldIndex (s : State) (c : Cmd) (r : Nat) : Int := sextN ((cmdNow s c).aux.getD (2 + r % 64) 0) 32
/-- The granules of the table that the window has brought in. -/
def heldRows (c : Cmd) : List Nat := c.aux.drop (2 + c.aux.getD 1 0)
/-- The source of an element of a gather; none for an invalid index without FILL. -/
def bgatFrom (s : State) (c : Cmd) (f : QE) (b : Blk) (nb sp i : Nat) : Option From :=
  let ix := heldIndex s c (i / max 1 b.n0)
  if 0 ≤ ix ∧ ix < b.b1 then some (.cell sp (2 * viewBase f.ssp b.sbase b.slay + viewOff b.slay nb (i % max 1 b.n0) ix.toNat 0 0))
  else if f.sat then some .zero else none
/-- The nibble address of a source. -/
def From.at? : From → Option Nat
  | .cell _ a => some a
  | _ => none
/-- The elements of one window of a unit of `bgat`: a table row is read once for the window's duplicates. -/
def bgatWindow (s : State) (c : Cmd) (f : QE) (b : Blk) (z : Word) (nb w : Nat) (el : List Nat) : Run :=
  withWindow s c f b.n1 w fun t =>
    let mine := el.filter fun i => i / max 1 b.n0 / 64 == w
    let good := mine.takeWhile fun i => (bgatFrom t c f b nb 3 i).isSome
    let all := ((List.range (b.n0 * b.n1)).filter fun i => i / max 1 b.n0 / 64 == w).filterMap fun i => (bgatFrom t c f b nb 3 i).map fun x => (x, destCell f b nb i)
    let dests := (List.range (b.n0 * b.n1)).map (destCell f b nb)
    let later := ((el.filter fun i => w < i / max 1 b.n0 / 64) ++ laterElems c (b.n0 * b.n1) nb).map (destCell f b nb)
    bufAll c f.ssp nb heldRows (good.filterMap fun i => (bgatFrom t c f b nb 3 i).bind From.at?) t fun t =>
      (copyCells t c (destOf t c f) nb nb (typBits z f.typ) true all dests later (good.filterMap fun i => (bgatFrom t c f b nb 3 i).map fun x => (x, destCell f b nb i))).andThen
        fun t => if good.length < mine.length then .stop t 0x149 0 else .go t
/-- One unit of `bgat` (R328). -/
def bgatUnit (s : State) (c : Cmd) (f : QE) : Run :=
  let b := blkCmd c f
  let z := cmdSlot s c f
  let nb := typNib z f.typ
  let el := unitElems c (b.n0 * b.n1) nb
  (runList (fun t w => bgatWindow t c f b z nb w el) ((el.map fun i => i / max 1 b.n0 / 64).eraseDups) s).andThen fun t => unitCount t c f b nb el.length

/-- The codebook's elements, as nibble addresses (R330). -/
def bookCells (c : Cmd) (f : QE) (b : Blk) (nb : Nat) : List Nat := (List.range (b.b1 * b.n0)).map fun i => 2 * creg c f.b.toNat + i * nb
/-- The codes of a list of rows, in order, with the first row whose code is invalid without FILL. -/
def readCodes (c : Cmd) (f : QE) (b : Blk) : List Nat → List (Nat × Nat) → State → (List (Nat × Nat) → Option Nat → State → Run) → Run
  | [], acc, s, k => k acc none s
  | q :: r, acc, s, k =>
    engGetElem s (engOf s c) f.ssp 0 (2 * viewBase f.ssp b.sbase b.slay + viewElem b.slay (codeNib f) b.n1 b.n2 b.n3 q) (codeNib f) 10 fun v t =>
      if b.b1 ≤ v && !f.sat then k acc (some q) t else readCodes c f b r (acc ++ [(q, v)]) t k
/-- One unit of `bexp` (R330): the codebook is in the buffer before the first code is read. The record of an invalid code counts the code bytes fetched (R325). -/
def bexpUnit (s : State) (c : Cmd) (f : QE) : Run :=
  let b := blkCmd c f
  let z := cmdSlot s c f
  let nb := typNib z f.typ
  let el := unitElems c (extents b) nb
  bufAll c (f.optN 5 4) nb (·.aux) (if c.done = 0 then bookCells c f b nb else []) s fun t =>
    readCodes c f b ((el.map (· / max 1 b.n0)).eraseDups) [] t fun codes bad t =>
      let cell := fun i => (codes.find? fun x => x.1 == i / max 1 b.n0).map fun (_, v) =>
        (if v < b.b1 then From.cell 3 (2 * creg c f.b.toNat + (v * b.n0 + i % max 1 b.n0) * nb) else .zero, destCell f b nb i)
      let cells := el.filterMap cell
      (copyCells t c (destOf t c f) nb nb (typBits z f.typ) true cells ((List.range (extents b)).map (destCell f b nb)) ((laterElems c (extents b) nb).map (destCell f b nb)) cells).andThen fun t =>
        match bad with
        | some q => .stop t 0x14A (BitVec.ofNat 64 (ceilDiv ((q + 1) * codeNib f) 2))
        | none => unitCount t c f b nb el.length

/-- An atomic of a unit on a 32-bit element at its home (R329, R331): the granule is checked, then changed. Non-versioned (class-11 reason 2). -/
def sliceRmw (s : State) (c : Cmd) (space a : Nat) (fn : Nat → Nat) : Run :=
  let e := engOf s c
  match engPlace s e space a 4 true with
  | .wait => .wait
  | .fault x => .stop s x (BitVec.ofNat 64 a)
  | .ok loc _ =>
    let (bs, cap, t) := behindRead s loc 4 (issuerKey s e.iss)
    match integrityCause 11 cap with
    | some x => .stop s x (BitVec.ofNat 64 a)
    | none =>
      let v := leBytes 4 (fn (leNat bs))
      match loc with
      | .mem pa => engMark (homeWrite t pa v (issuerKey t e.iss) (some (.engine c.id))) e 2 a
      | .ls x => engMark (feSetAll (lsWrite t x v) x 4 true) e 2 a
      | _ => .go t
/-- FP32 addition with one rounding (04 R104). -/
def addF32 (x y : Nat) : Nat := f32Bits (fAdd 0 (Fmt.f32.unpack x) (Fmt.f32.unpack y)).1

/-- Index r of the scatter, read once for its row: `aux` holds the row's number and its index. -/
def withIndex (s : State) (c : Cmd) (f : QE) (r : Nat) (k : Int → State → Run) : Run :=
  match (cmdNow s c).aux with
  | [q, ix] => if q = r then k (sextN ix 32) s else read
  | _ => read
where
  read : Run := readIndices c f 1 r [] s fun ix t => k (sextN (ix.getD 0 0) 32) (updCmd t c.id fun y => { y with aux := r :: ix })
/-- One element of a scatter that adds or contributes (R329): an operation of its own at its execution point. -/
def bscaElem (s : State) (c : Cmd) (f : QE) (b : Blk) (nb i : Nat) : Run :=
  let x0 := i % max 1 b.n0
  let r := i / max 1 b.n0
  let src := 2 * viewBase f.ssp b.sbase b.slay + viewOff b.slay nb x0 r 0 0
  withIndex s c f r fun ix t =>
    if 0 ≤ ix ∧ ix < b.b1 then
      let dst := 2 * viewBase f.dsp b.dbase b.dlay + viewOff b.dlay nb x0 ix.toNat 0 0
      engGetElem t (engOf t c) f.ssp 0 src nb 10 fun v t =>
        if f.dtyp = 1 then sliceRmw t c f.dsp (dst / 2) fun o => if f.typ = 3 then addF32 o v else (o + v) % 2 ^ 32
        else sendContribution t (engOf t c) c.id b.dbase (ix.toNat * b.n0 + x0) v 0x14C
    else if f.sat then .go t
    else .stop t 0x149 0
/-- One unit of `bsca`: elements in ascending r. A `.wr` row that moves whole granules carries their caps (log 94). -/
def bscaUnit (s : State) (c : Cmd) (f : QE) : Run :=
  let b := blkCmd c f
  let z := cmdSlot s c f
  let nb := typNib z f.typ
  let n0 := max 1 b.n0
  let el := unitElems c (b.n0 * b.n1) nb
  if f.dtyp = 0 then
    runList (fun t r =>
      withIndex t c f r fun ix t =>
        if 0 ≤ ix ∧ ix < b.b1 then
          let cell := fun x0 => (From.cell f.ssp (2 * viewBase f.ssp b.sbase b.slay + viewOff b.slay nb x0 r 0 0), 2 * viewBase f.dsp b.dbase b.dlay + viewOff b.dlay nb x0 ix.toNat 0 0)
          let later := ((laterElems c (b.n0 * b.n1) nb).filter fun i => i / n0 == r).map fun i => (cell (i % n0)).2
          copyCells t c { space := f.dsp } nb nb (typBits z f.typ) true ((List.range b.n0).map cell) ((List.range b.n0).map fun x0 => (cell x0).2) later ((el.filter fun i => i / n0 == r).map fun i => cell (i % n0))
        else if f.sat then .go t
        else .stop t 0x149 0) ((el.map (· / n0)).eraseDups) s
  else bscaElem s c f b nb c.done

/-! ### Slice operations (R331, R332) -/

/-- The element operation of `mop`. -/
def mopOp (mod typ parm d s : Nat) : Nat :=
  let fp := typ = 3
  match mod with
  | 0 => if fp then addF32 d s else (d + s) % 2 ^ 32
  | 1 => f32Bits (fFma 0 (Fmt.f32.unpack parm) (Fmt.f32.unpack s) (Fmt.f32.unpack d)).1
  | 2 => if fp then (fpuMinMax false 0 d s).1 else if sextN s 32 < sextN d 32 then s else d
  | 3 => if fp then (fpuMinMax true 0 d s).1 else if sextN d 32 < sextN s 32 then s else d
  | 4 => if d = parm then s else d
  | _ => f32Bits (fMul (Fmt.f32.unpack parm) (Fmt.f32.unpack d)).1
/-- The home slice of a 32-bit element for a command; 1,024 where it has none. -/
def elemSlice (s : State) (c : Cmd) (a : Nat) : Nat :=
  match engPlace s (engOf s c) 0 a 4 false with
  | .ok (.mem pa) _ => homeSlice s pa
  | _ => 1024
/-- The next element of each slice, of n elements less those done: elements at one slice go in ascending order, those at different slices in any (R331). -/
def sliceNext (n : Nat) (slice : Nat → Nat) (done : List Nat) : List Nat :=
  (((List.range n).filter fun i => !done.contains i).foldl (fun (l : List (Nat × Nat)) i => if l.any fun x => x.2 == slice i then l else l ++ [(i, slice i)]) []).map (·.1)
/-- One of a list, as a free value has it (log 3). -/
def freeOf (s : State) (l : List Nat) : Option Nat := l[Config.pick s.fresh % max 1 l.length]?
/-- The next element of a slice command, the command then having done it: `aux` lists the elements done. -/
def nextElem (s : State) (c : Cmd) (n : Nat) (slice : Nat → Nat) (k : Nat → State → Run) : Run :=
  match freeOf s (sliceNext n slice c.aux) with
  | some i => k i (updCmd { s with fresh := s.fresh + 1 } c.id fun y => { y with aux := y.aux ++ [i] })
  | none => .go s

/-- What `.sum` has done, as numbers in `aux`: element i of a slice read with its bits, and a slice's partial added. -/
def sumRead (i slice bits : Nat) : Nat := i * 2 ^ 43 + slice * 2 ^ 32 + bits
def sumAdded (slice : Nat) : Nat := 2 ^ 70 + slice
/-- The element steps and the partials that may come next: a slice's partial goes when its last element has been read. -/
def sumNext (s : State) (c : Cmd) (b : Blk) (aux : List Nat) : List Nat × List Nat :=
  let read := aux.filter (· < 2 ^ 70)
  let slice := fun i => elemSlice s c (b.sbase + 4 * i)
  let left := (List.range b.n0).filter fun i => !(read.map (· / 2 ^ 43)).contains i
  (sliceNext b.n0 slice (read.map (· / 2 ^ 43)),
    ((read.map (· / 2 ^ 32 % 2 ^ 11)).eraseDups).filter fun h => !(left.map slice).contains h && !aux.contains (sumAdded h))
/-- A slice's partial: the exact sum of its elements, rounded once, or wrapped. -/
def sumPartial (typ : Nat) (aux : List Nat) (h : Nat) : Nat :=
  let vs := (aux.filter fun x => decide (x < 2 ^ 70) && x / 2 ^ 32 % 2 ^ 11 == h).map (· % 2 ^ 32)
  if typ = 3 then f32Bits ((vs.map Fmt.f32.unpack).foldl (fun a v => (fAdd 0 a v).1) (.fin true 0 0)) else vs.foldl (· + ·) 0 % 2 ^ 32
/-- One step of `.sum`: an element is read at its slice, or a partial is added at the home of d[0]. -/
def sumUnit (s : State) (c : Cmd) (f : QE) (b : Blk) : Run :=
  let (es, ps) := sumNext s c b c.aux
  let t := { s with fresh := s.fresh + 1 }
  let note := fun (t : State) (x : Nat) =>
    let t := updCmd t c.id fun y => { y with aux := y.aux ++ [x] }
    let (es, ps) := sumNext t c b (c.aux ++ [x])
    updCmd t c.id fun y => { y with total := c.done + (if es ++ ps = [] then 1 else 2) }
  match freeOf s (es ++ ps.map sumAdded) with
  | none => .go t
  | some x =>
    if 2 ^ 70 ≤ x then (sliceRmw t c 0 b.dbase fun d => mopOp 0 f.typ 0 d (sumPartial f.typ c.aux (x - 2 ^ 70))).andThen fun t => .go (note t x)
    else
      let a := b.sbase + 4 * x
      engGet t (engOf t c) 0 a 4 11 fun bs t => .go (note t (sumRead x (elemSlice t c a) (leNat bs)))
/-- One unit of `mop` (R331). -/
def mopUnit (s : State) (c : Cmd) (f : QE) : Run :=
  let b := blkCmd c f
  let m := f.mod.toNat
  if m = 6 then sumUnit s c f b
  else nextElem s c b.n0 (fun i => elemSlice s c (b.dbase + 4 * i)) fun i t =>
    if m = 5 then sliceRmw t c 0 (b.dbase + 4 * i) fun d => mopOp m f.typ b.parm d 0
    else engGet t (engOf t c) 0 (b.sbase + 4 * i) 4 11 fun bs t => sliceRmw t c 0 (b.dbase + 4 * i) fun d => mopOp m f.typ b.parm d (leNat bs)

/-- One unit of `slxp` (R332): destination element (x1, x0) from source element (x0, x1); a granule whose last element is written gets a new cap. -/
def slxpUnit (s : State) (c : Cmd) (f : QE) : Run :=
  let b := blkCmd c f
  let nb := typNib 0 f.typ
  let src := fun i => 2 * b.sbase + viewElem b.slay nb b.n0 b.n1 1 i
  let at_ := fun i => 2 * b.dbase + viewOff b.dlay nb (i / max 1 b.n0) (i % max 1 b.n0) 0 0
  nextElem s c (b.n0 * b.n1) (fun i => elemSlice s c (src i / 8 * 4)) fun i t =>
    engGetElem t (engOf t c) 0 0 (src i) nb 11 fun v t => (putDest t (engOf t c) { space := 0 } (at_ i) nb v).andThen fun t =>
      .go (freshen t (engOf t c) 0 (((c.aux ++ [i]).map at_).filter fun a => a / 32 == at_ i / 32) nb)

/-! ### Exact groups (R334, R336) -/

/-- The next serial number of a slice, passing over 0 (R333). -/
def nextSerial (s : State) (x : Nat) : Word := let n := s.serials.get x + 1; if n = 0 then 1 else n
/-- Open a group of n elements at the home slice of an address of this device (R333, R334): its handle, or 0x14F. -/
def openGroup (s : State) (pa n : Nat) : Except Cause Nat × State :=
  let x := homeSlice s (pa % 2 ^ 46)
  let mine := s.groups.filter fun g => g.slice == x
  match (List.range 16).find? fun k => !mine.any fun g => g.slot == k with
  | none => (.error 0x14F, s)
  | some slot =>
    if 1024 < mine.foldl (fun m g => m + g.vals.length) 0 + n then (.error 0x14F, s)
    else
      let ser := nextSerial s x
      let g : Group := { slice := x, slot := slot, serial := ser, vals := List.replicate n 0, cnts := List.replicate n 0 }
      (.ok (mkHandle s x slot ser), { s with groups := g :: s.groups, serials := SMap.set s.serials x ser })
/-- One unit of `xopen` (R334): it opens the group, or asks the peer, whose handle comes back as a free value (log 11) beside the address in `aux`. -/
def xopenRun (s : State) (c : Cmd) (f : QE) : Run :=
  let n := creg c f.b.toNat
  let pa := c.aux.getD 0 0
  let dev := pa / 2 ^ 46
  if dev ≠ ownDev s then
    if c.done = 0 then
      if !reachable s dev then .stop s 0x15F 0
      else .go (askPeer s (engAsks (engOf s c)) { dst := dev, kind := 18, page := pa, seq := 0, aux := n, data := [] })
    else match c.aux with
      | [_, h] => .go (cmdResult s c f.d.toNat h)
      | _ => .wait
  else if c.done = 1 then .go s
  else match openGroup s pa n with
    | (.error x, t) => .stop t x 0
    | (.ok h, t) => .go (cmdResult t c f.d.toNat h)
/-- What an `xclose` finds at a slice of this device: a cause, or the values, the group being freed unless it is kept (R336). -/
def closeGroup (s : State) (h n : Nat) (keep : Bool) : Except Cause (List Nat) × State :=
  match findGroup s h with
  | none => (.error 0x150, s)
  | some g =>
    if n ≠ g.vals.length then (.error 0x143, s)
    else (.ok (g.vals.map groupValue), if keep then s else { s with groups := s.groups.filter fun x => !(x.slice == g.slice && x.slot == g.slot) })
/-- `xclose` (R336): unit 0 reads the group at its slice into `aux`, or asks the peer; unit 1 waits for the peer; unit 2 writes the values. -/
def xcloseUnit (s : State) (c : Cmd) (f : QE) : Run :=
  let b := blkCmd c f
  let h := creg c f.b.toNat
  if c.done = 0 then
    if hDev h ≠ ownDev s then
      if !(mreg s Reg.DOMAIN).testBit (hDev h) then .stop s 0x150 0
      else if !reachable s (hDev h) then .stop s 0x15F 0
      else .go (askPeer s (engAsks (engOf s c)) { dst := hDev h, kind := 19, page := h, seq := 0, aux := 2 * extents b + f.mod.toNat, data := [] })
    else match closeGroup s h (extents b) (f.mod = 1) with
      | (.error x, t) => .stop t x 0
      | (.ok vs, t) => .go (updCmd t c.id fun x => { x with aux := vs })
  else if c.done = 1 then (if s.awaits.any fun a => a.cmd == some c.id then .wait else .go s)
  else
    let at_ := fun i => 2 * viewBase f.dsp b.dbase b.dlay + viewElem b.dlay 8 b.n0 b.n1 b.n2 i
    let el := List.range (extents b)
    (runList (fun t i => putDest t (engOf t c) { space := f.dsp } (at_ i) 8 (c.aux.getD i 0)) el s).andThen
      fun t => .go (freshen t (engOf t c) f.dsp (el.map at_) 8)

/-! ### Residency (R337 to R343) -/

/-- One line of `rsvfill` (R338): it becomes resident with the issuer's key; resident lines are untouched. -/
def rsvfillLine (s : State) (c : Cmd) (f : QE) : Run :=
  let a0 := creg c f.a.toNat
  let a := max a0 ((a0 / 128 + c.done) * 128)
  match engPlace s (engOf s c) 0 a 1 false with
  | .wait => .wait
  | .fault x => .stop s x (BitVec.ofNat 64 a)
  | .ok (.mem pa) _ =>
    .go (if s.comb.any fun l => l.line == pa / 128 then s else combUse s (pa / 128) 0 (issuerKey s (engOf s c).iss))
  | .ok _ _ => .go s

/-- The owner identifier of a command's grid; a management core acts as 0 (log 30). -/
def ownerOf (s : State) (c : Cmd) : Nat :=
  match c.owner with
  | .cue wg => (match (findWg s wg).bind (gridOf s) with
    | some g => g.owner.toNat
    | none => 0)
  | _ => 0
/-- A contract entry is read: its caps are checked, and a failure is posted (08 R200). -/
def entryCap (s : State) (i : Nat) : Option Cause := integrityCause 15 (homeCaps s (mreg s Reg.CTBASE + 32 * i) 32)
/-- The entry that a residency command names: present, and of its owner (0x155, 0x156). An entry whose caps fail is posted and taken as empty (log 95). -/
def rsvEntry (s : State) (c : Cmd) (i : Nat) (k : Contract → Run) : Run :=
  if 64 ≤ i ∨ mreg s Reg.CTBASE = 0 then .stop s 0x155 0
  else match entryCap s i with
    | some x => .stop (postAsync s x (BitVec.ofNat 64 (mreg s Reg.CTBASE + 32 * i)) ((issuerWg s (ownerIss c.owner)).map (·.id))) 0x155 0
    | none => match (contracts s).find? fun x => x.idx == i with
      | none => .stop s 0x155 0
      | some x => if ownerOf s c = 0 ∨ ownerOf s c = x.owner then k x else .stop s 0x156 0
/-- Lines of a contract that `stay` does not name leave its mode (08 R193): P without an image become all dirty, K keys are discarded. -/
def leaveMode (s : State) (x : Contract) (stay : Nat → Bool) : State :=
  let toC := fun (l : CombLine) =>
    if x.mode = 2 && !x.shadow then usedLine s l (BitVec.allOnes 128) l.key
    else if x.mode = 3 then { l with key := 0 } else l
  { s with comb := s.comb.map fun l => if inRange x l.line && !stay l.line then toC l else l }
/-- The key priorities of an entry are discarded. -/
def dropKeys (s : State) (i : Nat) : State := { s with keyPrio := s.keyPrio.filter fun p => p.1 / 65536 ≠ i }
/-- Write a contract entry. -/
def putEntry (s : State) (i : Nat) (bs : List Byte) : State := homeWrite s (mreg s Reg.CTBASE + 32 * i) bs 0 none
/-- After a change of the contracts every line stands at the slice that homes it now, and every slice holds what it has room for. -/
def resettle (s : State) : State := let t := { s with comb := s.comb.map fun l => { l with slice := homeSlice s (128 * l.line) } }; trimSlices t (enabledSlices t)
/-- `rsvdrop` (R339). -/
def rsvdropRun (s : State) (c : Cmd) (f : QE) : Run :=
  rsvEntry s c (creg c f.a.toNat) fun x => .go (resettle (putEntry (dropKeys (leaveMode s x fun _ => false) x.idx) x.idx (List.replicate 32 0)))
/-- `rsvq` (R340): the lines of the range that stand in the comb, and their dirty bytes. -/
def rsvqRun (s : State) (c : Cmd) (f : QE) : Run :=
  let a := creg c f.a.toNat
  if f.mod = 2 then
    match engPlace s (engOf s c) 0 a 1 false with
    | .wait => .wait
    | .fault x => .stop s x (BitVec.ofNat 64 a)
    | .ok (.mem pa) _ => .go (cmdResult s c f.d.toNat (match contractOf s pa with
        | some x => x.idx
        | none => 2 ^ 64 - 1))
    | .ok _ _ => .go (cmdResult s c f.d.toNat (2 ^ 64 - 1))
  else rsvEntry s c a fun x =>
    let ls := s.comb.filter fun l => inRange x l.line
    .go (cmdResult s c f.d.toNat (if f.mod = 0 then 128 * ls.length else dirtyBytes ls))

/-- `kvdrop` (R341). -/
def kvdropRun (s : State) (c : Cmd) (f : QE) : Run :=
  rsvEntry s c (creg c f.a.toNat) fun x =>
    if x.mode ≠ 3 then .stop s 0x157 0
    else
      let key := creg c f.b.toNat
      let t := (s.comb.filter fun l => inRange x l.line && l.key.toNat == key).foldl combRevert s
      .go { t with keyPrio := SMap.set t.keyPrio (x.idx * 65536 + key) 0 }
/-- `kvprio` (R342). -/
def kvprioRun (s : State) (c : Cmd) (f : QE) : Run :=
  rsvEntry s c (creg c f.a.toNat) fun x =>
    let key := x.idx * 65536 + creg c f.b.toNat % 65536
    let p := f.mod.setWidth 2
    if x.mode ≠ 3 then .stop s 0x157 0
    else if p ≠ 0 ∧ s.keyPrio.get key = 0 ∧ 1024 ≤ (s.keyPrio.filter fun q => q.1 / 65536 == x.idx).length then .stop s 0x158 0
    else .go { s with keyPrio := SMap.set s.keyPrio key p }

/-- A contract from its 32-byte image. -/
def imageContract (i : Nat) (bs : List Byte) : Contract :=
  let n := fun o k => leNat ((bs.drop o).take k)
  { idx := i, base := n 0 8, pages := n 8 4, mode := n 0xC 1, shadow := n 0xD 1 % 2 = 1, prio := n 0xE 1, stackSet := n 0x10 4, dirty := n 0x14 4, owner := n 0x18 2, kcap := n 0x1C 4 }
/-- The checks of R343 on an image for entry i, in order. -/
def rsvsetCause (s : State) (i : Nat) (bs : List Byte) : Option Cause :=
  let x := imageContract i bs
  let n := fun o k => leNat ((bs.drop o).take k)
  let others := (contracts s).filter fun y => y.idx ≠ i
  let old := (contracts s).find? fun y => y.idx == i
  let all := x :: others
  if x.mode = 0 then none
  else if x.base % 2097152 ≠ 0 ∨ hbmCap s ≤ x.base ∨ x.pages = 0 ∨ 16384 < x.pages ∨ 3 < x.mode
      ∨ 1 < n 0xD 1 ∨ (n 0xD 1 = 1 ∧ x.mode ≠ 2) ∨ 7 < x.prio ∨ n 0xF 1 ≠ 0 ∨ 15 < x.stackSet ∨ n 0x1A 2 ≠ 0
      ∨ (if x.mode = 3 then x.kcap = 0 ∨ x.pages < x.kcap else x.kcap ≠ 0) then some 0x159
  else if others.any fun y => decide (x.base < y.base + y.pages * 2097152 ∧ y.base < x.base + x.pages * 2097152) then some 0x15A
  else if (contractSlices s x).any fun y => decide (28 * 1048576 < all.foldl (fun m z => m + reservedAt s z y) 0) then some 0x15B
  else if (List.range 16).any fun d => decide ((mreg s Reg.DIEBUDGET) * 1024 < 65536 +
      (all.filter fun z => coversStack z (d / 4)).foldl (fun m z => m + z.dirty) 0) then some 0x15C
  else match old with
    | some y => if (y.mode = 2 ∧ x.mode = 3) ∨ (y.mode = 3 ∧ x.mode = 2) ∨ contractSlices s y ≠ contractSlices s x then some 0x15D else none
    | none => none
/-- `rsvset` (R343): lines that leave the entry's old range or mode, and those that come into its new one, move by 08 R193; lines that come into K mode take key 0. -/
def rsvsetRun (s : State) (c : Cmd) (f : QE) : Run :=
  let i := creg c f.a.toNat
  if 64 ≤ i then .stop s 0x155 0
  else engGet s (engOf s c) 0 (creg c f.b.toNat) 32 11 fun bs t =>
    match rsvsetCause t i bs with
    | some x => .stop t x 0
    | none =>
      let x := imageContract i bs
      let old := (contracts t).find? fun y => y.idx == i
      let kept := fun (line : Nat) => old.any fun y => y.mode = x.mode && inRange y line
      let t := match old with
        | some y =>
          let t := leaveMode t y fun line => y.mode = x.mode && inRange x line
          if y.mode = x.mode then t else dropKeys t i
        | none => t
      let t := if x.mode = 3 then { t with comb := t.comb.map fun l => if inRange x l.line && !kept l.line then { l with key := 0 } else l } else t
      .go (resettle (putEntry t i (if x.mode = 0 then List.replicate 32 0 else bs)))

/-- One unit of a bulk, slice or residency command. -/
def bulkUnit (s : State) (c : Cmd) : Run :=
  match c.op with
  | .bcp f => bcpUnit s c f
  | .bgat f => bgatUnit s c f
  | .bsca f => bscaUnit s c f
  | .bexp f => bexpUnit s c f
  | .bfill f => bfillUnit s c f
  | .bpeer f => bpeerUnit s c f
  | .mop f => mopUnit s c f
  | .xopen f => xopenRun s c f
  | .xclose f => xcloseUnit s c f
  | .slxp f => slxpUnit s c f
  | .rsvfill f => rsvfillLine s c f
  | .rsvdrop f => rsvdropRun s c f
  | .rsvq f => rsvqRun s c f
  | .kvdrop f => kvdropRun s c f
  | .kvprio f => kvprioRun s c f
  | .rsvset f => rsvsetRun s c f
  | _ => .go s

end Sys2Proof.Machine
end

