-- ==== Sys2Proof/Machine/Context.lean ====
section
/-! DEFINITION. The context of a workgroup: cut records (13 R369), the context region (R470), the register lines and their formats (R375, R376), the image and its areas (R377, R378), and admission to a core (10 R257, R258, R466). -/

namespace Sys2Proof.Machine

/-! ### Cut records (R369, R349) -/

/-- A cut record. `live` marks vector registers (warp) or cue registers, `slive` uniform ones. -/
structure CutRec where
  stub : Nat
  cue : Bool
  plive : Bool
  strict : Bool
  live : Nat
  slive : Nat
  clean : Bool
  deriving DecidableEq, Repr

/-- The 32 bytes of a record as its fields; `clean` says that reserved bits are zero. -/
def parseCut (bs : List Byte) : CutRec :=
  let n := fun o k => leNat ((bs.drop o).take k)
  { stub := n 0 4, cue := (n 4 1).testBit 0, plive := (n 4 1).testBit 1, strict := (n 4 1).testBit 2, live := n 8 16, slive := n 0x18 8
    clean := decide (n 4 1 < 8) && n 5 3 = 0 && (!(n 4 1).testBit 0 || (n 16 8 = 0 && n 0x18 8 = 0)) }

/-- What the device reads of its own accord at a place, when its cap is good; else the failure that is posted (08 R200), if there is one. -/
def ownRead (s : State) (loc : Loc) (n : Nat) (key : BitVec 16) : Except (Option Cause) (List Byte) :=
  let (bs, c, _) := behindRead s loc n key
  if c = .good then .ok bs else .error (integrityCause 15 c)
/-- n bytes at a virtual address of an issuer, one access, as the device reads them: not in the register map, which only `cld` and `cst` reach (08 R187); of a page in transition, as it was found (log 98). -/
def issPiece (s : State) (iss : Issuer) (a n : Nat) : Except (Option Cause) (List Byte) :=
  let core := issuerCore s iss
  let (asid, root) := spaceOf s iss
  match (match placeGlobal s iss a n false false with
    | .ok (.mreg _) _ => none
    | .ok loc _ => some loc
    | .wait => placeThrough s core asid root a
    | .fault _ => none) with
  | some loc => ownRead s loc n (issuerKey s iss)
  | none => .error (walkNote s core asid root a)
/-- Pieces one after another: (address, bytes). -/
def readPieces (rd : Nat → Nat → Except (Option Cause) (List Byte)) : List (Nat × Nat) → Except (Option Cause) (List Byte)
  | [] => .ok []
  | (a, n) :: l => match rd a n with
    | .error x => .error x
    | .ok bs => match readPieces rd l with
      | .error x => .error x
      | .ok r => .ok (bs ++ r)
/-- n bytes at an address: 8-byte pieces, then single bytes. -/
def piecesOf (a n : Nat) : List (Nat × Nat) := (List.range (n / 8)).map (fun i => ((a + 8 * i) % 2 ^ 64, 8)) ++ (List.range (n % 8)).map fun i => ((a + n / 8 * 8 + i) % 2 ^ 64, 1)
/-- Bytes at a virtual address of an issuer. -/
def readBytes (s : State) (iss : Issuer) (a n : Nat) : Except (Option Cause) (List Byte) := readPieces (issPiece s iss) (piecesOf a n)
/-- What a failing read posts (08 R200), with an address. -/
def postNote (s : State) (note : Option Cause) (a : BitVec 64) (wg : Option Nat) : State := match note with
  | some x => postAsync s x a wg
  | none => s

/-- The bytes of record n of a grid's cut table, as a workgroup's cue thread reads them. -/
def cutBytes (s : State) (wg : Nat) (g : LaunchRec) (n : Nat) : Except (Option Cause) (List Byte) := readBytes s (.cue wg) (g.cuttab + 32 * n) 32
/-- Record n of a grid's cut table. -/
def readCut (s : State) (wg : Nat) (g : LaunchRec) (n : Nat) : Option CutRec := match cutBytes s wg g n with
  | .ok bs => some (parseCut bs)
  | .error _ => none
/-- A cut record whose read met a failing page table is posted beside its cause (14 R398); its own caps concern only the thread, by 0x066. -/
def postCut (s : State) (wg : Nat) (g : LaunchRec) (n : Nat) (cause : Cause) : State :=
  if cause ≠ 0x066 then s
  else match cutBytes s wg g n with
    | .error (some x) => if x = 0x0CC ∨ x = 0x0DC then postAsync s x (BitVec.ofNat 64 (g.cuttab + 32 * n)) (some wg) else s
    | _ => s

/-- The cause a cut record raises at the header that names it (R349): declared registers, stream, stub, or an unreadable record. -/
def cutCause (g : LaunchRec) (cue : Bool) : Option CutRec → Option Cause
  | none => some 0x066
  | some r =>
    (firstReason [(!r.clean || (!r.cue && (decide (2 ^ g.vregs ≤ r.live) || decide (2 ^ g.sregs ≤ r.slive))), 0x063),
      (r.cue != cue, 0x064), (r.stub % 4 ≠ 0, 0x065)]).map (BitVec.ofNat 9)

/-! ### The context region (R470, R377) -/

/-- The runs of the context region in use: images and grid copies (R470), as (base, bytes). -/
def usedRuns (s : State) : List (Nat × Nat) :=
  ((s.wgs.filter fun k => k.st ≠ .ended).filterMap fun k => (gridOf s k).map fun g => (k.image, imageSize g.lrec)) ++ (s.grids.filter fun g => !g.retired).map fun g => (g.run, 8192)
/-- The lowest free run of n bytes: it starts at CTXBASE or where a used run ends. -/
def allocRun (s : State) (n : Nat) : Option Nat :=
  let b := mreg s Reg.CTXBASE
  let used := usedRuns s
  let fits := fun a => decide (b ≤ a ∧ a + n ≤ b + mreg s Reg.CTXSIZE) && used.all fun (u, z) => decide (a + n ≤ u ∨ u + z ≤ a)
  ((b :: used.map fun (u, z) => u + z).filter fits).foldl (fun (m : Option Nat) a => match m with
    | none => some a
    | some x => some (min x a)) none

/-! ### Register lines (R375 to R377) -/

/-- The cut record of a live lane, when it can be read. -/
def laneCut (s : State) (g : Grid) (k : Workgroup) (w lane : Nat) : Option CutRec :=
  (k.warps[w]?.bind fun y => y.threads[lane]?).bind fun th => readCut s k.id g.lrec th.cutRec.toNat
/-- A mark of any non-exited thread among lanes of a warp; a record that cannot be read marks everything. -/
def anyMark (s : State) (g : Grid) (k : Workgroup) (w : Nat) (p : Nat → Bool) (mark : CutRec → Bool) : Bool :=
  match k.warps[w]? with
  | some y => ((Warp_live y).filter p).any fun l => match laneCut s g k w l with
    | some c => mark c
    | none => true
  | none => false
/-- A line is live at the cuts where a workgroup's threads stand (R375). -/
def lineLive (s : State) (g : Grid) (k : Workgroup) : LineKind → Bool
  | .vec w j x => anyMark s g k w (fun l => l / 32 = j) fun c => c.live.testBit x
  | .uni w u => anyMark s g k w (fun _ => true) fun c => c.slive / 2 ^ (32 * u) % 2 ^ 32 ≠ 0
  | .prd w => anyMark s g k w (fun _ => true) fun c => c.plive
  | .cue m => !k.cue.ended && (match readCut s k.id g.lrec k.cue.cutRec.toNat with
    | some c => c.live / 2 ^ (16 * m) % 2 ^ 16 ≠ 0
    | none => true)

/-- A side entry: caps of the raw content at the slot, format, image check. -/
def sideBytes (s : State) (k : Workgroup) (slot fmt : Nat) (raw : List Byte) : List Byte :=
  (List.range 8).flatMap (fun j => leBytes 2 (capOf ((raw.drop (16 * j)).take 16) (ownDev s * 2 ^ 46 + slot + 16 * j)).toNat)
    ++ [BitVec.ofNat 8 fmt] ++ leBytes 8 k.image ++ List.replicate 7 0
/-- Write one line of a taken workgroup to its image; a dead one writes only its side entry (R375). -/
def storeLine (s : State) (g : Grid) (k : Workgroup) (n : Nat) : State :=
  let kind := lineKind g.lrec n
  let raw := lineGet g.lrec k kind
  let vec := match kind with
    | .vec _ _ _ => true
    | _ => false
  let (fmt, bs) := if lineLive s g k kind then lineFormat vec raw else (6, [])
  let t := homeWrite s (slotAt g.lrec k n) bs 0 none
  let t := homeWrite t (sideAt g.lrec k n) (sideBytes s k (slotAt g.lrec k n) fmt (if fmt = 6 then List.replicate 128 0 else raw)) 0 none
  updWg t k.id fun k => { lineSet g.lrec k (List.replicate 128 0) kind with missing := if k.missing.contains n then k.missing else n :: k.missing }
/-! ### The other areas (R378) -/

/-- The workgroup record up to its CTRAP slot. CMIG is all ones with no migration pending; CPC is the header of the cut clause (log 31). -/
def wgRecord (g : Grid) (k : Workgroup) : List Byte :=
  let c := k.cue
  wgHead g k ++ leBytes 8 (k.cmig.getD (2 ^ 64 - 1)) ++ leBytes 8 c.cutPc.toNat ++ leBytes 8 c.cutDist
    ++ leBytes 8 ((List.range 6).foldl (fun a i => a + Cue_tok c i * 2 ^ (6 * i)) 0) ++ leBytes 1 c.flags.toNat ++ leBytes 1 c.rstack.length ++ List.replicate 6 0
    ++ (List.range 8).flatMap (fun i => leBytes 8 (c.rstack.getD i 0).toNat)
/-- The rest of the record, after the CTRAP slot, which stands in the image at all times. -/
def wgRecordEnd (k : Workgroup) : List Byte := (List.range 16).flatMap (fun i => leBytes 8 (k.tcfg.get i).toNat) ++ List.replicate (4096 - 0x140) 0
/-- A warp record: 512 bytes; the oldest entry of the decision queue stands first, DQHEAD 0 (log 31). -/
def warpRecord (w : Warp) : List Byte :=
  (List.range 96).map (fun i => w.patterns.getD i 0) ++ (List.range 16).flatMap (fun i => leBytes 8 (w.dq.getD i 0).toNat)
    ++ leBytes 1 0 ++ leBytes 1 w.dq.length ++ leBytes 2 w.kvkey.toNat ++ List.replicate (512 - 0xE4) 0
/-- One thread's 64 bytes of the control area. PC is the header of the cut clause; the return stack stands newest first (DESIGN CHOICE: log 31). -/
def ctlBytes (th : Thread) : List Byte :=
  leBytes 8 th.cutPc.toNat ++ (List.range 4).flatMap (fun i => leBytes 8 (th.rstack.getD i 0).toNat) ++ leBytes 2 th.depth.toNat ++ leBytes 1 th.rstack.length
    ++ leBytes 1 th.pass.toNat ++ leBytes 4 th.sp.toNat ++ leBytes 1 th.fpstat.toNat
    ++ leBytes 1 (match th.life with
      | .live => 0
      | .exited => 1
      | .absent => 2) ++ leBytes 2 th.cutRec.toNat ++ List.replicate 12 0
/-- Write a workgroup's records and control area (R372 step 5). -/
def storeRecords (s : State) (g : Grid) (k : Workgroup) : State :=
  let t := homeWrite (homeWrite s k.image (wgRecord g k) 0 none) (k.image + 0xC0) (wgRecordEnd k) 0 none
  let t := homeWrite t (k.image + imgWarps) (k.warps.flatMap warpRecord) 0 none
  homeWrite t (k.image + imgCtl g.lrec) (k.warps.flatMap fun w => w.threads.flatMap ctlBytes) 0 none
/-- A cue thread read back from the record, standing at its cut clause. -/
def loadCue (s : State) (k : Workgroup) : Cue :=
  let n := fun o z => homeNat s (k.image + o) z
  { k.cue with pc := BitVec.ofNat 57 (n 0x20 8), cutPc := BitVec.ofNat 57 (n 0x20 8), clause := none, flags := BitVec.ofNat 4 (n 0x38 1), park := none
               rstack := (List.range (min 8 (n 0x39 1))).map fun i => BitVec.ofNat 57 (n (0x40 + 8 * i) 8), windows := [], cutDist := 0, moved := false }
/-- A warp read back from its record. -/
def loadWarp (s : State) (k : Workgroup) (i : Nat) (w : Warp) : Warp :=
  let a := k.image + imgWarps + 512 * i
  let h := homeNat s (a + 0xE0) 1
  { w with patterns := homeBytes s a 96, dq := (List.range (min 16 (homeNat s (a + 0xE1) 1))).map fun j => BitVec.ofNat 64 (homeNat s (a + 0x60 + 8 * ((h + j) % 16)) 8)
           kvkey := BitVec.ofNat 16 (homeNat s (a + 0xE2) 2), recent := [], late := [] }
/-- A thread read back from the control area, standing at its cut clause with pass count 0 (07 R153). -/
def loadThread (s : State) (a : Nat) (th : Thread) : Thread :=
  let n := fun o z => homeNat s (a + o) z
  { th with pc := BitVec.ofNat 57 (n 0 8), cutPc := BitVec.ofNat 57 (n 0 8), clause := none, park := none, windows := [], pass := 0, cutDist := 0, moved := false
            rstack := (List.range (min 4 (n 0x2A 1))).map fun i => BitVec.ofNat 57 (n (8 + 8 * i) 8), depth := BitVec.ofNat 16 (n 0x28 2)
            sp := BitVec.ofNat 32 (n 0x2C 4), fpstat := BitVec.ofNat 32 (n 0x30 1 % 128), cutRec := BitVec.ofNat 16 (n 0x32 2)
            life := if n 0x31 1 = 0 then .live else if n 0x31 1 = 1 then .exited else .absent }
/-- The records and the control area read back (R378). -/
def loadRecords (s : State) (g : Grid) (k : Workgroup) : Workgroup :=
  { k with
    nonRestart := homeNat s (k.image + 0x15) 1 / 2 % 2 = 1
    cue := if k.cue.ended then k.cue else loadCue s k
    tcfg := SMap.setAll [] ((List.range 16).map fun i => (i, BitVec.ofNat 64 (homeNat s (k.image + 0xC0 + 8 * i) 8)))
    warps := (List.range k.warps.length).filterMap fun i => k.warps[i]?.map fun w =>
      if w.ended then w
      else
        let w := loadWarp s k i w
        { w with threads := (List.range w.threads.length).filterMap fun l => w.threads[l]?.map (loadThread s (k.image + imgCtl g.lrec + 64 * (i * LaunchRec_wwidth g.lrec + l))) } }

/-- Write tiles and accumulators to the image, and forget them (R372 step 7). -/
def storeTiles (s : State) (g : Grid) (k : Workgroup) : State :=
  let t := homeWrite s (k.image + imgTiles g.lrec) (SMap.getList k.tiles 0 (4096 * g.lrec.tileg)) 0 none
  let t := homeWrite t (k.image + imgAccs g.lrec) ((SMap.getList k.acc 0 (8192 * g.lrec.accs)).flatMap fun x => leBytes 4 x.toNat) 0 none
  updWg t k.id fun k => { k with tiles := [], acc := [], storedTiles := true }
/-- Read them back. -/
def loadTiles (s : State) (g : Grid) (k : Workgroup) : Workgroup :=
  { k with tiles := SMap.setList [] 0 (homeBytes s (k.image + imgTiles g.lrec) (4096 * g.lrec.tileg))
           acc := SMap.setAll [] ((List.range (8192 * g.lrec.accs)).map fun i => (i, BitVec.ofNat 32 (homeNat s (k.image + imgAccs g.lrec + 4 * i) 4)))
           storedTiles := false }
/-- Allocations of a workgroup: offset in the local area, size rounded to 512, place in the local stores. -/
def localPieces (g : Grid) (k : Workgroup) : List (Nat × Nat × Nat) :=
  (localAllocs g.lrec k.bases).map fun (o, z, b) => (o, roundUp z 512, k.core / 2 * 1048576 + b)
/-- Move bytes with their caps: a context-image move carries them (08 R196). -/
def storeLocal (s : State) (g : Grid) (k : Workgroup) : State :=
  let t := (localPieces g k).foldl (fun t (o, z, a) =>
    let d := k.image + imgLocal g.lrec + o
    let u := homeWrite t d (lsBytes t a z) 0 none
    { u with memSynd := SMap.setList u.memSynd (d / 16) (SMap.getList t.lsSynd (a / 16) (z / 16)) }) s
  updWg t k.id fun k => { k with storedLocal := true }
/-- Read the local area back into the store at a workgroup's new bases. -/
def loadLocal (s : State) (g : Grid) (k : Workgroup) : State :=
  (localPieces g k).foldl (fun t (o, z, a) =>
    let d := k.image + imgLocal g.lrec + o
    let u := lsWrite t a (homeBytes t d z)
    { u with lsSynd := SMap.setList u.lsSynd (a / 16) (SMap.getList t.memSynd (d / 16) (z / 16)) }) s

/-! ### Admission (10 R257, R258, R466) -/

/-- A workgroup holds its core's resources: resident, halted, or ended with engine work in flight. -/
def occupies (k : Workgroup) : Bool := k.st ≠ .taken
/-- The workgroups that hold resources of a core, and of a pair. -/
def onCore (s : State) (core : Nat) : List Workgroup := s.wgs.filter fun k => occupies k && k.core == core
def onPair (s : State) (pair : Nat) : List Workgroup := s.wgs.filter fun k => occupies k && k.core / 2 == pair
def recOf (s : State) (k : Workgroup) (f : LaunchRec → Nat) : Nat := match gridOf s k with
  | some g => f g.lrec
  | none => 0
def totalOf (s : State) (l : List Workgroup) (f : LaunchRec → Nat) : Nat := (l.map fun k => recOf s k f).sum
/-- Lines that a warp has returned (07 R159): the vector lines of its empty slices, the predicate line with the last of them, every line when it has ended. -/
def linesReturned (r : LaunchRec) (w : Warp) : Nat :=
  if w.ended then wslices r * r.vregs + ceilDiv r.sregs 32 + 1
  else let j := ((List.range (wslices r)).filter w.returned.contains).length; j * r.vregs + (if j = wslices r then 1 else 0)
/-- Lines that a workgroup pins on its core (R257). -/
def linesPinned (s : State) (k : Workgroup) : Nat := recOf s k fun r => LaunchRec_lines r - (k.warps.map (linesReturned r)).sum

/-- Thread-slice positions of a core in use: (quarter, position, slices). -/
def usedPositions (s : State) (core : Nat) : List (Nat × Nat × Nat) :=
  (onCore s core).flatMap fun k => k.warps.map fun w => (w.quarter, w.position, recOf s k wslices)
/-- A position of a quarter is free. -/
def posFree (used : List (Nat × Nat × Nat)) (q p : Nat) : Bool := used.all fun (uq, up, n) => uq != q || decide (p < up ∨ up + n ≤ p)
/-- The lowest free aligned run of n positions of a quarter. -/
def posRun (used : List (Nat × Nat × Nat)) (q n : Nat) : Option Nat := (List.range (16 / n)).findSome? fun i => if (List.range n).all fun j => posFree used q (i * n + j) then some (i * n) else none
/-- Places for a number of warps, in order (R466): the quarter with the most free positions that holds a run, the lowest on a tie. -/
def placeWarps (n : Nat) : Nat → List (Nat × Nat × Nat) → Option (List (Nat × Nat))
  | 0, _ => some []
  | w + 1, used =>
    let free := fun q => ((List.range 16).filter (posFree used q)).length
    let best := ((List.range 4).filter fun q => (posRun used q n).isSome).foldl (fun (b : Option Nat) q => match b with
      | none => some q
      | some x => if free x < free q then some q else some x) none
    best.bind fun q => (posRun used q n).bind fun p => (placeWarps n w (used ++ [(q, p, n)])).map fun r => (q, p) :: r

/-- Local-store runs of a pair in use: (base, bytes). -/
def usedLocal (s : State) (pair : Nat) : List (Nat × Nat) :=
  (onPair s pair).flatMap fun k => match gridOf s k with
    | some g => (localAllocs g.lrec k.bases).map fun (_, z, b) => (b, roundUp z 512)
    | none => []
/-- Bases for allocations: each the lowest free run below the window share (log 32). -/
def placeLocals (top : Nat) : List Nat → List (Nat × Nat) → Option (List Nat)
  | [], _ => some []
  | z :: r, used =>
    let n := roundUp z 512
    let a := ((0 :: used.map fun (b, m) => b + m).filter fun a => decide (a + n ≤ top) && used.all fun (b, m) => decide (a + n ≤ b ∨ b + m ≤ a)).foldl
      (fun (m : Option Nat) a => match m with
        | none => some a
        | some x => some (min x a)) none
    a.bind fun a => (placeLocals top r ((a, n) :: used)).map fun l => a :: l
def localSizes (r : LaunchRec) : List Nat := r.locals.filterMap fun w => if fldN w 20 0 = 0 then none else some (fldN w 20 0)
/-- A cue context that is free on a core. -/
def freeCtx (s : State) (core : Nat) : Option Nat := (List.range 4).find? fun c => (onCore s core).all fun k => k.ctx != c
/-- The headroom class of a core's column. -/
def colHead (s : State) (core : Nat) : Nat := mreg s (Reg.COLSTAT + 8 * (core / 2)) / 65536 % 4

/-- What a core gives a workgroup that it admits: context, local-store bases, warp places. -/
structure Room where
  ctx : Nat
  bases : List Nat
  places : List (Nat × Nat)
  deriving DecidableEq, Repr

/-- R257 and R258 for a launch record on a core; `keep` are bases to take back. -/
def admits (s : State) (r : LaunchRec) (core : Nat) (keep : Option (List Nat)) : Option Room :=
  let mine := onCore s core
  let cls := colHead s core
  let partner := onCore s (if core % 2 = 0 then core + 1 else core - 1)
  if s.part.pairen.getLsbD (core / 2) && decide (core < 2048) && decide ((mine.map (linesPinned s)).sum + LaunchRec_lines r ≤ 2048)
    && decide (totalOf s mine (·.tileg) + r.tileg ≤ 128) && decide (totalOf s mine (·.accs) + r.accs ≤ 8) && decide (cls ≠ 0)
    && !(decide (cls < 2) && r.energy = 2 && partner.any fun k => recOf s k (·.energy) = 2) then
    (freeCtx s core).bind fun ctx => (placeWarps (wslices r) (wwarps r) (usedPositions s core)).bind fun ps =>
      (match keep with
        | some b => some b
        | none => placeLocals (1048576 - shareOf s (coreCluster core)) (localSizes r) (usedLocal s (core / 2))).map fun b => ⟨ctx, b, ps⟩
  else none

/-- The core that R258 prefers among some: highest class, fewest workgroups, lowest number. -/
def bestCore (s : State) (cores : List Nat) : Option Nat :=
  cores.foldl (fun (b : Option Nat) c => match b with
    | none => some c
    | some x =>
      let key := fun c => (3 - colHead s c, (onCore s c).length, c)
      let (a1, a2, a3) := key c
      let (b1, b2, b3) := key x
      if a1 < b1 ∨ (a1 = b1 ∧ (a2 < b2 ∨ (a2 = b2 ∧ a3 < b3))) then some c else some x) none

/-- Give warps their places. -/
def setPlaces (k : Workgroup) (ps : List (Nat × Nat)) : Workgroup :=
  { k with warps := (List.range k.warps.length).filterMap fun i => k.warps[i]?.map fun w => { w with quarter := (ps.getD i (0, 0)).1, position := (ps.getD i (0, 0)).2 } }

/-- Taken workgroups whose tiles, accumulators or local store a newcomer at these bases of a core would take (R372 step 7). -/
def overlapped (s : State) (core : Nat) (r : LaunchRec) (bases : List Nat) (self : Nat) : List Workgroup :=
  let mine := onCore s core
  let meets := fun (g : Grid) (k : Workgroup) => (localAllocs g.lrec k.bases).any fun (_, z, b) =>
    (List.range bases.length).any fun i => decide (bases.getD i 0 < b + roundUp z 512 ∧ b < bases.getD i 0 + roundUp ((localSizes r).getD i 0) 512)
  s.wgs.filter fun k => k.st = .taken && k.id != self && (match gridOf s k with
    | some g => (!k.storedLocal && k.core / 2 == core / 2 && meets g k)
        || (!k.storedTiles && k.core == core && (decide (128 < totalOf s mine (·.tileg) + r.tileg + g.lrec.tileg) || decide (8 < totalOf s mine (·.accs) + r.accs + g.lrec.accs)))
    | none => false)
/-- Write the storage of a taken workgroup to its image (`IMAGE_AREA_WRITE`, R372). -/
def storeAreas (s : State) (wg : Nat) : State :=
  match findWg s wg with
  | none => s
  | some k => match gridOf s k with
    | none => s
    | some g =>
      let t := if k.storedTiles then s else storeTiles s g k
      if k.storedLocal then t else storeLocal t g k

/-- Register lines of a taken workgroup that are not in its image. -/
def linesHere (s : State) (k : Workgroup) : List Nat := (List.range (recOf s k LaunchRec_lines)).filter fun n => !k.missing.contains n
/-- Those of them that hold an entry of the register cache: dead lines were freed when it was taken (R372 step 6). -/
def linesCached (s : State) (k : Workgroup) : List Nat := match gridOf s k with
  | some g => (linesHere s k).filter fun n => lineLive s g k (lineKind g.lrec n)
  | none => []
/-- Write every line of a taken workgroup to its image. -/
def storeLines (s : State) (wg : Nat) : State :=
  match findWg s wg with
  | none => s
  | some k => match gridOf s k with
    | none => s
    | some g => (linesHere s k).foldl (fun t n => match findWg t wg with
      | some k => storeLine t g k n
      | none => t) s

end Sys2Proof.Machine
end

