-- ==== Sys2Proof/Machine/Launch.lean ====
section
/-! DEFINITION. Launch records and their checks (10 R248 to R250), acceptance of grids (R251, R469), `launch` (R254, R255, R277) and the retirement of grids (R253). -/

namespace Sys2Proof.Machine

/-- The launch record that 256 bytes hold (R248). -/
def parseRec (bs : List Byte) : LaunchRec :=
  let n := fun o k => leNat ((bs.drop o).take k)
  { version := n 0 2, versioned := (n 2 1).testBit 0, signal := (n 2 1).testBit 1, energy := n 3 1 % 4, prio := n 4 1, width := n 5 1, cutmax := n 6 2
    wstream := n 8 8, cstream := n 0x10 8, cuttab := n 0x18 8, cutcnt := n 0x20 4, hmask := BitVec.ofNat 32 (n 0x24 4), whandler := n 0x28 8, chandler := n 0x30 8
    gdim := (n 0x38 4, n 0x3C 4, n 0x40 4), wdim := (n 0x44 2, n 0x46 2, n 0x48 2), vregs := n 0x4A 1, sregs := n 0x4B 1, tiles := n 0x4C 1, accs := n 0x4D 1
    tileg := n 0x4E 2, locals := (List.range 4).map fun i => BitVec.ofNat 32 (n (0x50 + 4 * i) 4), pbase := n 0x60 8, psize := n 0x68 4, argsize := n 0x6C 4, args := n 0x70 8
    sigaddr := n 0x78 8, sigval := BitVec.ofNat 64 (n 0x80 8), vbudget := n 0x88 8, pattern := n 0x90 8
    slots := (List.range 8).map fun i => BitVec.ofNat 32 (n (0xA0 + 4 * i) 4), ckey := BitVec.ofNat 16 (n 0xC0 2)
    reserved := decide (4 ≤ n 2 1) || decide (4 ≤ n 3 1) || decide (2 ^ 16 ≤ n 0x24 4) || n 0x98 8 ≠ 0 || n 0xC2 62 ≠ 0 || (List.range 4).any fun i => decide (2 ^ 24 ≤ n (0x50 + 4 * i) 4) }

/-- Workgroups of a grid. -/
def LaunchRec_wgs (r : LaunchRec) : Nat := r.gdim.1 * r.gdim.2.1 * r.gdim.2.2
/-- The faults of allocation words, in order (0x1C5): span, size, absence. -/
def localsBad (r : LaunchRec) : Bool :=
  let z := fun (w : Word) => fldN w 20 0
  let sp := fun (w : Word) => fldN w 23 21
  (r.locals.any fun w => decide (5 < sp w) || z w % 16 ≠ 0 || (z w = 0 && sp w ≠ 0))
    || (List.range 3).any (fun i => z (r.locals.getD i 0) = 0 && z (r.locals.getD (i + 1) 0) ≠ 0) || decide (1048576 < localSize r)

/-- The checks of R250 that need the record alone, in ascending order. -/
def recChecks (s : State) (r : LaunchRec) (deep : Bool) : List (Bool × Nat) :=
  let (gx, gy, gz) := r.gdim
  let (wx, wy, wz) := r.wdim
  [(r.version ≠ 1 || r.reserved, 0x1C0), (decide (2 < r.width), 0x1C1),
   (gx = 0 || gy = 0 || gz = 0 || wx = 0 || wy = 0 || wz = 0 || decide (2048 < LaunchRec_threads r) || decide (2 ^ 32 ≤ LaunchRec_wgs r), 0x1C2),
   (r.slots.any fun w => slBound w && !slLegal w, 0x1C3),
   (decide (128 < r.vregs ∨ 64 < r.sregs ∨ 16 < r.tiles ∨ 8 < r.accs ∨ 128 < r.tileg) || r.sregs % 8 ≠ 0 || (r.tiles = 0 && r.tileg ≠ 0) || decide (r.tileg < r.tiles), 0x1C4),
   (localsBad r, 0x1C5), (r.cutmax = 0 || decide (65536 < r.cutcnt), 0x1C6),
   (r.wstream % 4 ≠ 0 || r.cstream % 4 ≠ 0 || r.cuttab % 8 ≠ 0 || r.whandler % 4 ≠ 0 || r.chandler % 4 ≠ 0 || r.pbase % 16 ≠ 0 || r.args % 16 ≠ 0 || r.sigaddr % 8 ≠ 0 || r.pattern % 32 ≠ 0
      || (r.hmask ≠ 0 && (r.whandler = 0 || r.chandler = 0)), 0x1C7),
   (decide (4096 < r.argsize), 0x1C8), (r.psize % 16 ≠ 0 || decide (2 ^ 57 < r.pbase + LaunchRec_wgs r * LaunchRec_threads r * r.psize), 0x1C9),
   (r.versioned != (r.vbudget ≠ 0 : Bool), 0x1CA), (deep, 0x1CB),
   (decide (2048 < LaunchRec_lines r) || (List.range 16).all fun c => decide (1048576 < localSize r + shareOf s c), 0x1CC)]

/-- What the device copies of an accepted launch (R251): the record, the arguments, the pattern data. -/
structure Copies where
  rec_ : List Byte
  args : List Byte
  pats : List Byte
  deriving DecidableEq, Repr

/-- The identity patterns (06 R136). -/
def identityPatterns : List Byte := (List.range 96).map fun i => BitVec.ofNat 8 (i % 32)
/-- Why a record is rejected: its cause, and what a failing read of it posts beside that (08 R200). -/
structure Reject where
  cause : Cause
  note : Option Cause := none
  deriving DecidableEq, Repr
/-- Check and copy a record through a reader of (address, bytes) (R250, R251). -/
def launchCheck (s : State) (rd : Nat → Nat → Except (Option Cause) (List Byte)) (bs : Except (Option Cause) (List Byte)) (deep inTask : Bool) : Except Reject Copies :=
  match bs with
  | .error x => .error ⟨0x1CD, x⟩
  | .ok bs =>
    let r := parseRec bs
    match firstReason (recChecks s r deep) with
    | some n => .error ⟨BitVec.ofNat 9 n, none⟩
    | none => match rd r.args r.argsize, (if r.pattern = 0 then .ok identityPatterns else rd r.pattern 96) with
      | .ok a, .ok p => if inTask then .error ⟨0x1CE, none⟩ else .ok ⟨bs, a, p⟩
      | .error x, _ => .error ⟨0x1CD, x⟩
      | .ok _, .error x => .error ⟨0x1CD, x⟩

/-- Who a grid belongs to (R252, R255, 14 R395). -/
structure Origin where
  depth : Nat
  parent : Option Nat
  notify : Option (Issuer × Nat)
  queue : Option Nat
  asid : BitVec 16
  root : Nat
  owner : BitVec 16
  svcOk : Bool
  wakeOk : Bool
  prio : Nat
  deriving DecidableEq, Repr

/-- ACCEPTANCE (R251, R469, 13 R470): the copies are written to the grid's run and it takes the next number. -/
def acceptGrid (s : State) (run : Nat) (c : Copies) (o : Origin) : State :=
  let t := homeWrite s run (c.args ++ List.replicate (4096 - c.args.length) 0) 0 none
  let t := homeWrite t (run + 0x1000) c.rec_ 0 none
  { t with
    nextGrid := t.nextGrid + 1
    grids := t.grids ++ [{ num := t.nextGrid, lrec := parseRec c.rec_, depth := o.depth, parent := o.parent, notify := o.notify, queue := o.queue, asid := o.asid
                           root := o.root, owner := o.owner, svcOk := o.svcOk, wakeOk := o.wakeOk, run := run, patterns := c.pats, basePrio := min 7 o.prio, aged := 0
                           readySince := t.clk, nextWg := 0, endedWgs := 0, retired := false }] }

/-! ### `launch` (R254, R255, R277) -/

/-- The state the device reads a launch in: the thread's earlier accesses are performed and released for D, B and A (R254). -/
def launchView (s : State) (iss : Issuer) : State := release (drainStream s iss) iss 0x1C
/-- The record a cue thread's `launch` names, checked (R250, R277). No workgroup of a versioned launch may launch, its version committed or not. -/
def launchOf (s : State) (iss : Issuer) (a : Nat) : Except Reject Copies :=
  let t := launchView s iss
  let g := (issuerWg s iss).bind (gridOf s)
  if a % 8 ≠ 0 then .error ⟨0x1C7, none⟩
  else launchCheck t (readBytes t iss) (readBytes t iss a 256) (g.any fun g => decide (10 ≤ g.depth)) (g.any (·.lrec.versioned))
/-- What a rejected launch posts beside its cause. -/
def launchNote (s : State) (iss : Issuer) (a : Nat) : State := match launchOf s iss a with
  | .error x => postNote s x.note (BitVec.ofNat 64 a) ((issuerWg s iss).map (·.id))
  | .ok _ => s
/-- Children of a grid that have not retired: its nest queue (log 34). -/
def children (s : State) (num : Nat) : List Grid := s.grids.filter fun g => g.parent == some num && !g.retired
/-- The origin of a cue thread's child. A management core's grid has depth 1 in ASID 0 (log 30). -/
def childOrigin (s : State) (iss : Issuer) (tok : Option Nat) (prio : Nat) : Origin :=
  match (issuerWg s iss).bind (gridOf s) with
  | some g => { depth := g.depth + 1, parent := some g.num, notify := tok.map fun t => (iss, t), queue := none, asid := g.asid, root := g.root, owner := g.owner, svcOk := g.svcOk, wakeOk := g.wakeOk, prio := prio }
  | none => { depth := 1, parent := none, notify := tok.map fun t => (iss, t), queue := none, asid := 0, root := mreg s Reg.MROOT, owner := 0, svcOk := true, wakeOk := true, prio := prio }
/-- The run a child's copies take; none while the nest queue is full, no run is free, or CTXSIZE is 0. -/
def childRun (s : State) (iss : Issuer) : Option Nat :=
  let full := match (issuerWg s iss).bind (gridOf s) with
    | some g => decide (64 ≤ (children s g.num).length)
    | none => false
  if full then none else allocRun s 8192
/-- Append the child a held `launch` names: it is copied and ready, c(D) takes its number, and the thread goes on; or the cause is taken, and the token is as before. -/
def nestAppend (s : State) (iss : Issuer) (a d : Nat) (tok : Option Nat) : State :=
  match childRun s iss with
  | none => s
  | some run => match launchOf s iss a with
    | .ok c =>
      let t := launchView s iss
      let t := acceptGrid t run c (childOrigin s iss tok (parseRec c.rec_).prio)
      updCue t iss fun x => unparkCue (cset x d (BitVec.ofNat 64 s.nextGrid))
    | .error x =>
      match findCue s iss with
      | some c => takeCue (addTok (updCue (launchNote s iss a) iss fun x => { x with park := none }) iss tok false) iss { cause := x.cause, kind := 0, fpc := c.pc.toNat, rpc := c.pc.toNat }
      | none => s

/-- `launch` (R277): the thread is held until the child is appended; the token rises at issue. -/
def opLaunch (f : QE) : COp :=
    { i := .launch f
      stay := true
      rest := fun s c => match launchOf s c.iss (cget c.c f.a.toNat).toNat with
        | .error x => some ⟨x.cause, 0, []⟩
        | .ok _ => none
      note := fun c s => launchNote s c.iss (cget c.c f.a.toNat).toNat
      hold := fun s c => (match tokNum f with
        | some t => Cue_tok c.c t = 63
        | none => false) || (match c.iss with
        | .mgmt _ => (childRun s c.iss).isNone
        | _ => false)
      eff := fun c s =>
        let t := updCue (addTok s c.iss (tokNum f) true) c.iss fun x => { x with park := some (.launchHold (cget c.c f.a.toNat) f.d.toNat (tokNum f)) }
        match c.iss with
        | .mgmt _ => nestAppend t c.iss (cget c.c f.a.toNat).toNat f.d.toNat (tokNum f)
        | _ => t }
def execLaunch (f : QE) (s : State) : Host.Outcome State Fault Refusal := cueIssue (opLaunch f) s

/-- `NEST_QUEUE_APPEND` (R255). -/
def execNestQueueAppend (wg : Nat) (s : State) : Host.Outcome State Fault Refusal :=
  match findCue s (.cue wg) with
  | some c => (match c.park with
    | some (.launchHold a d tok) => .next (nestAppend s (.cue wg) a.toNat d tok)
    | _ => .next s)
  | none => .next s

/-! ### Writes of the dispatcher -/

/-- Write 8 bytes at a virtual address for a completion signal (15 R426), as a release naming H and D; false when the address cannot be written: a window's never is (08 R175). -/
def signalWrite (s : State) (asid : BitVec 16) (root a v : Nat) : Bool × State :=
  if a % 8 ≠ 0 ∨ 2 ^ 57 ≤ a ∨ windowOf a ≠ 0 then (false, s)
  else match translate s none asid root a with
    | .error _ => (false, postNote s (walkNote s none asid root a) (BitVec.ofNat 64 a) none)
    | .ok t =>
      let put := fun (loc : Loc) => match loc with
        | .mem pa => (true, homeWrite s pa (leBytes 8 v) 0 (some .device))
        | .host x => (true, { s with hostMem := SMap.setList (w := 8) s.hostMem x (leBytes 8 v) })
        | .peer pa => (true, sendMsg s (peerDev s pa) 2 pa 0 0 (leBytes 8 v))
        | _ => (false, s)
      match placeOf s .global t 1 false with
      | .ok loc _ => put loc
      | .wait => if (servedDir s (t.pa % 2 ^ 46)).st = 1 then (false, s) else (match placeThrough s none asid root a with
        | some loc => put loc
        | none => (false, s))
      | .fault _ => (false, s)

/-! ### Retirement (R253) -/

/-- All workgroups have ended and all children have retired. -/
def retirable (s : State) (g : Grid) : Bool := !g.retired && decide (LaunchRec_wgs g.lrec ≤ g.endedWgs) && children s g.num = [] && s.wgs.all fun k => k.grid != g.num || k.st == .ended
/-- Grids that have retired and hold no workgroup any more are forgotten. -/
def dropRetired (s : State) : State := { s with grids := s.grids.filter fun g => !g.retired || s.wgs.any fun k => k.grid == g.num }
/-- `GRID_RETIREMENT` (R253, R254, 15 R426): the token falls and its waiter is examined, the signal is written, the run is freed. -/
def execGridRetirement (grid : Nat) (s : State) : Host.Outcome State Fault Refusal :=
  match findGrid s grid with
  | none => .next s
  | some g =>
    if !retirable s g then .next s
    else
      let t := dropRetired (updGrid s grid fun x => { x with retired := true })
      let t := match g.notify with
        | some (iss, tok) => cwaitExamine (addTok t iss (some tok) false) iss
        | none => t
      if g.queue.isSome && g.lrec.signal then
        let (ok, u) := signalWrite t g.asid g.root g.lrec.sigaddr g.lrec.sigval.toNat
        .next (if ok then u else postAsync u 0x1D2 (BitVec.ofNat 64 g.lrec.sigaddr) none)
      else .next t

end Sys2Proof.Machine
end

