-- ==== Sys2Proof/Machine/Placement.lean ====
section
/-! DEFINITION. The dispatcher and the life of a workgroup: the choice among ready grids and taken workgroups (10 R256 to R258), placement, ends (R253, 07 R159), taking (13 R372, R374), eviction and refill of the context (R375), resumption (R373) and migration (10 R269, 13 R379). -/

namespace Sys2Proof.Machine

/-! ### A new workgroup (10 R245, R257, 07 R147) -/

/-- A thread at its start. -/
def newThread (r : LaunchRec) (tid : Nat) : Thread :=
  { pc := BitVec.ofNat 57 r.wstream, clause := none, rstack := [], depth := 0, pass := 0, life := if tid < LaunchRec_threads r then .live else .absent, park := none, plen := 0
    readyAt := 0, nextAt := 0, cutDist := 0, fpstat := 0, sp := BitVec.ofNat 32 r.psize, inHandler := false, saved := none, stub := none, cutPc := 0, cutRec := 0, moved := true
    windows := [], deferred := [] }
/-- A warp at its start, at a place (06 R136). -/
def newWarp (g : Grid) (w : Nat) (place : Nat × Nat) : Warp :=
  let n := LaunchRec_wwidth g.lrec
  { threads := (List.range n).map fun l => newThread g.lrec (w * n + l), vregs := [], sregs := [], preds := [], tokens := [], patterns := g.patterns, dq := [], kvkey := 0, dqAt := 0, recent := [], view := View.none, late := [], portA := 0, portB := 0
    colls := [], quarter := place.1, position := place.2, ended := false
    returned := (List.range (wslices g.lrec)).filter fun j => decide (LaunchRec_threads g.lrec ≤ w * n + 32 * j) }
/-- A cue thread at its start (R245). -/
def newCue (g : Grid) (lin : Nat) : Cue :=
  { Cue.zero with pc := BitVec.ofNat 57 g.lrec.cstream, regs := SMap.setAll [] [(1, 0x1FFFFFD00000000), (2, BitVec.ofNat 64 lin), (3, 0x1FFFFFD00001000)] }
/-- A workgroup at its start on a core that admits it. -/
def newWg (g : Grid) (id lin core image : Nat) (room : Room) : Workgroup :=
  { id := id, grid := g.num, lin := lin, st := .resident, core := core, ctx := room.ctx, image := image, bases := room.bases
    warps := (List.range (wwarps g.lrec)).map fun w => newWarp g w (room.places.getD w (0, 0)), cue := newCue g lin, tiles := [], tcfg := [], tconf := [], tgen := [], acc := [], phase := []
    take := none, takeAt := 0, takeLate := false, cmig := none, target := none, held := false, taskOn := g.lrec.versioned, nonRestart := false, vlines := [], vbytes := 0, vdone := false, missing := []
    storedTiles := false, storedLocal := false }

/-! ### The choice (R256) -/

/-- Effective priority: one more for each 1 ms without a placement, up to 7. -/
def effPrio (g : Grid) : Nat := min 7 (g.basePrio + g.aged)
/-- A ready grid with workgroups to place. -/
def readyGrid (g : Grid) : Bool := decide (g.nextWg < LaunchRec_wgs g.lrec)
/-- Cores that admit a launch record. -/
def admitting (s : State) (r : LaunchRec) : List Nat := (List.range 2048).filter fun c => (admits s r c none).isSome
/-- Where the next workgroup of a grid goes: its image and the core of R258. -/
def gridPlace (s : State) (g : Grid) : Option Nat := if readyGrid g && (allocRun s (imageSize g.lrec)).isSome then bestCore s (admitting s g.lrec) else none

/-- The members of a level's round, in order: queue q as q, the nest queue of grid n as 256 + n. A grid that a management core launched has neither; it stands last, as a member of weight 1 (DESIGN CHOICE: log 109). -/
def members (s : State) (level : Nat) : List Nat :=
  let gs := s.grids.filter fun g => readyGrid g && effPrio g == level
  let qs := (List.range 256).filter fun q => gs.any fun g => g.queue == some q
  let ns := (s.grids.filter fun p => gs.any fun g => g.parent == some p.num).map fun p => 256 + p.num
  qs ++ ns ++ (if gs.any fun g => g.queue.isNone && g.parent.isNone then [256] else [])
/-- How many workgroups a member may place per round. -/
def memberWeight (s : State) (m : Nat) : Nat := if m < 256 then (match findQueue s m with
  | some q => q.weight
  | none => 1) else 1
/-- What a member places at its level: its lowest-numbered grid that can place, and the core. -/
def memberPlace (s : State) (level m : Nat) : Option (Nat × Nat) :=
  (s.grids.filter fun g => readyGrid g && effPrio g == level && (if m < 256 then g.queue == some m else g.queue.isNone && g.parent.getD 0 == m - 256)).findSome?
    fun g => (gridPlace s g).map fun c => (g.num, c)
/-- The members of a level from where its round stands. -/
def roundOrder (s : State) (level : Nat) : List Nat :=
  let ms := members s level
  match s.rounds.find? fun r => r.1 == level with
  | none => ms
  | some (_, m, n) => let first := fun x => if n < memberWeight s m then decide (m ≤ x) else decide (m < x); ms.filter first ++ ms.filter fun x => !first x

/-- A taken workgroup's bases, when its local store can be taken back on a core. -/
def keepBases (k : Workgroup) (core : Nat) : Option (List Nat) := if core / 2 = k.core / 2 ∧ k.storedLocal = false then some k.bases else none
/-- The core a taken workgroup resumes on: the preferred one when it admits it, else by R258. A migration in progress waits for its message. -/
def resumeCore (s : State) (k : Workgroup) : Option Nat :=
  if k.st ≠ .taken || k.held || k.cmig.isSome then none
  else match gridOf s k with
    | none => none
    | some g =>
      let cs := (List.range 2048).filter fun c => (admits s g.lrec c (keepBases k c)).isSome
      match k.target with
      | some t => if cs.contains t then some t else bestCore s cs
      | none => bestCore s cs

/-- The next thing the dispatcher does: resume a workgroup, or place one of a grid for a member of a level. -/
inductive Choice where
  | resume (wg core : Nat)
  | place (level member grid core : Nat)
  deriving DecidableEq, Repr
/-- The choice at one level: a waiting resumption first. -/
def choiceAt (s : State) (level : Nat) : Option Choice :=
  match (s.wgs.filter fun k => (gridOf s k).any fun g => effPrio g == level).findSome? fun k => (resumeCore s k).map fun c => Choice.resume k.id c with
  | some c => some c
  | none => (roundOrder s level).findSome? fun m => (memberPlace s level m).map fun (g, c) => .place level m g c
/-- The dispatcher's choice: strict priority, 7 highest. No workgroup is placed before start-up has ended (15 R428). -/
def dispatchChoice (s : State) : Option Choice :=
  if !deviceReady s then none else [7, 6, 5, 4, 3, 2, 1, 0].findSome? (choiceAt s)

/-! ### Making room (13 R372, R375) -/

/-- What must first be written to images before a newcomer takes a core's storage: areas, then register lines. -/
def makeRoom (s : State) (r : LaunchRec) (core : Nat) (bases : List Nat) (self : Nat) : Option Instr :=
  match overlapped s core r bases self with
  | k :: _ => some (.imageAreaWrite k.id)
  | [] =>
    let others := s.wgs.filter fun k => k.st = .taken && k.core == core && k.id != self
    if ((onCore s core).map (linesPinned s)).sum + (others.map fun k => (linesCached s k).length).sum + LaunchRec_lines r ≤ 2048 then none
    else others.findSome? fun k => (linesCached s k).head?.map fun n => .registerLineEviction k.id n
/-- What a workgroup must first write to its image to resume on a core. -/
def leaveCore (s : State) (k : Workgroup) (core : Nat) : Option Instr :=
  if (core ≠ k.core && !k.storedTiles) || (core / 2 ≠ k.core / 2 && !k.storedLocal) then some (.imageAreaWrite k.id)
  else if core ≠ k.core then (linesHere s k).head?.map fun n => .registerLineEviction k.id n
  else none

/-- `IMAGE_AREA_WRITE` (R372 step 7). -/
def execImageAreaWrite (wg : Nat) (s : State) : Host.Outcome State Fault Refusal :=
  match findWg s wg with
  | some k => .next (if k.st = .taken then storeAreas s wg else s)
  | none => .next s
/-- `REGISTER_LINE_EVICTION` (R375, R376). -/
def execRegisterLineEviction (wg line : Nat) (s : State) : Host.Outcome State Fault Refusal :=
  match findWg s wg with
  | some k => (match gridOf s k with
    | some g => .next (if k.st = .taken && (linesHere s k).contains line then storeLine s g k line else s)
    | none => .next s)
  | none => .next s

/-! ### Placement -/

/-- The placement itself: the image, the workgroup, and the acquire of its threads (R254). -/
def placeWg (s : State) (g : Grid) (core : Nat) : Option State :=
  (allocRun s (imageSize g.lrec)).bind fun image => (admits s g.lrec core none).bind fun room =>
    if (makeRoom s g.lrec core room.bases 0).isSome then none
    else
      let t := { s with nextId := s.nextId + 1, wgs := s.wgs ++ [newWg g s.nextId g.nextWg core image room] }
      let t := updGrid t g.num fun g => { g with nextWg := g.nextWg + 1, aged := 0, readySince := s.clk }
      some (noteWg (l1Inv t core) s.nextId)
/-- The round after a member has placed a workgroup. -/
def roundAfter (s : State) (level member : Nat) : List (Nat × Nat × Nat) :=
  let n := match s.rounds.find? fun r => r.1 == level with
    | some (_, m, n) => if m = member ∧ n < memberWeight s m then n + 1 else 1
    | none => 1
  (level, member, n) :: s.rounds.filter fun r => r.1 != level
/-- `WORKGROUP_PLACEMENT` (R256 to R258, R466): what the dispatcher's choice names. -/
def execWorkgroupPlacement (s : State) : Host.Outcome State Fault Refusal :=
  match dispatchChoice s with
  | some (.place level member grid core) =>
    (match (findGrid s grid).bind fun g => placeWg s g core with
    | some t => .next { t with rounds := roundAfter s level member }
    | none => .next s)
  | _ => .next s
/-- `AGING_TICK` (R256): every ready grid that has waited a further 1 ms rises by one. -/
def execAgingTick (s : State) : Host.Outcome State Fault Refusal :=
  .next { s with grids := s.grids.map fun g => if readyGrid g ∧ g.readySince + (g.aged + 1) * Config.clkPerMs ≤ s.clk then { g with aged := g.aged + 1 } else g }

/-! ### Ends (07 R159, 10 R253) -/

/-- Every token of a warp reads zero. -/
def warpSettled (w : Warp) : Bool := w.tokens == []
/-- `SLICE_LINE_RETURN` (07 R159): a slice whose threads have exited gives up its lines. -/
def execSliceLineReturn (wg warp slice : Nat) (s : State) : Host.Outcome State Fault Refusal :=
  match findWarp s wg warp with
  | none => .next s
  | some w =>
    if warpSettled w && !w.returned.contains slice && decide (32 * slice < w.threads.length) && (Warp_live w).all fun l => l / 32 ≠ slice then
      .next (updWarp s wg warp fun w =>
        { w with returned := slice :: w.returned, vregs := w.vregs.filter fun (k, _) => k % 128 / 32 ≠ slice, preds := w.preds.filter fun (k, _) => k % 128 / 32 ≠ slice })
    else .next s
/-- `WARP_END` (07 R159, 10 R271, R276): the warp's storage is returned, and a cue thread that waited for it goes on. -/
def execWarpEnd (wg warp : Nat) (s : State) : Host.Outcome State Fault Refusal :=
  match findWarp s wg warp with
  | none => .next s
  | some w =>
    if w.ended || Warp_live w ≠ [] || !warpSettled w then .next s
    else
      let t := orphanCauses s wg (w.threads.flatMap (·.deferred))
      let t := updWarp t wg warp fun w => { w with ended := true, tokens := [], dq := [], sregs := [], vregs := [], preds := [], threads := w.threads.map fun th => { th with deferred := [] } }
      let t := match findWg t wg with
        | some k => if k.cue.park = some .wgbarExit ∧ warpsLeft k = false then acquire (updWg t wg fun k => { k with cue := unparkCue k.cue }) (.cue wg) 1 else t
        | none => t
      .next (dqpushExamine t wg)

/-- Rows of an `adrainp` on their way to a workgroup. -/
def drainsTo (s : State) (k : Workgroup) : Bool := s.cmds.any fun c => match c.op with
  | .adrainp f => c.started && (if c.aux = [] then (drainTarget s c f).any fun t => t.id == k.id else c.aux.head? == some k.id)
  | _ => false
/-- Engine commands of a workgroup in flight. -/
def wgCmds (s : State) (wg : Nat) : Bool := s.cmds.any fun c => c.owner == .cue wg
/-- A tile collective. -/
def isColl (f : Flight) : Bool := match f.kind with
  | .collective _ _ _ _ => true
  | _ => false
/-- Engine work of a workgroup in flight (R253, 11 R312, 13 R392): its commands and collectives, and rows on their way to its accumulators. -/
def wgHolds (s : State) (k : Workgroup) : Bool := wgCmds s k.id || k.warps.any (fun w => w.colls != []) || drainsTo s k
/-- Remove a workgroup: its planes' tags, and its image's run with it. -/
def removeWg (s : State) (wg : Nat) : State :=
  let off := fun (t : Option PlaneTag) => if t.any (fun x => x.wg == wg) then none else t
  dropRetired { s with wgs := s.wgs.filter (fun k => k.id != wg), planes := s.planes.map fun p => { p with active := off p.active, shadow := off p.shadow } }
/-- The cue thread and every warp have ended. -/
def wgFinished (k : Workgroup) : Bool := k.st = .resident && k.cue.ended && k.warps.all (·.ended)
/-- Step 4 of a taking and the flush of an end (R253, 13 R372): a write of the core is not performed yet for class P. -/
def unperformed (s : State) (core : Nat) : Bool := asking s core || peerDirty s core
/-- A workgroup counts as ended (R253): its version is settled, its grid counts it, and its resources return once its engine work has completed. -/
def countEnded (s : State) (k : Workgroup) : State :=
  let t := updGrid s k.grid fun g => { g with endedWgs := g.endedWgs + 1 }
  let t := noteWg (updWg t k.id fun k => { k with st := .ended, take := none, takeLate := false }) k.id
  if wgHolds t k then t else removeWg t k.id
/-- `WORKGROUP_END` (R253, 13 R364): the L1 is flushed until every write is performed, a version commits, the grid counts the workgroup, and its resources return after its engine work. -/
def execWorkgroupEnd (wg : Nat) (s : State) : Host.Outcome State Fault Refusal :=
  match findWg s wg with
  | none => .next s
  | some k =>
    if wgFinished k then
      let t := l1Flush s k.core
      if unperformed s k.core then .next t
      else .next (countEnded (if k.taskOn then versionCommit t wg else t) k)
    else if k.st = .ended ∧ wgHolds s k = false then .next (removeWg s wg)
    else .next s
/-- END of a workgroup by the management core (13 R392, R394): its version is discarded, it counts as ended, nothing of it issues again, and its engine work runs on. -/
def endWg (s : State) (wg : Nat) (cause : Cause) : State :=
  match findWg s wg with
  | none => s
  | some k =>
    let t := postAsync (versionDiscard s wg) cause 0 (some wg)
    countEnded { t with flights := t.flights.filter fun f => match f.who with
      | .warp w _ _ => w != wg || isColl f
      | .cue w => w != wg
      | _ => true } k

/-! ### Taking (13 R370, R372) -/

/-- A thread stands at a cut. -/
def threadStands (w : Warp) (th : Thread) : Bool := threadTakeable w th
/-- The live threads of a warp. -/
def liveThreads (w : Warp) : List Thread := if w.ended then [] else w.threads.filter fun th => th.life = .live
/-- Every thread and the cue thread stand (R372 step 2). -/
def allStand (k : Workgroup) : Bool := cueStands k.cue && k.warps.all fun w => (liveThreads w).all (threadStands w)
/-- No engine work of 11 R312 and no command of the workgroup is in flight. -/
def engineIdle (s : State) (k : Workgroup) : Bool := !wgHolds s k
/-- Deliver causes that are due at a cut that is being taken (08 R198). -/
def deliverAtCut (s : State) (wg : Nat) : State :=
  match findWg s wg with
  | none => s
  | some k =>
    let own := fun (l : List Deferred) => l.filter fun d => d.tok.isNone
    let t := (List.range k.warps.length).foldl (fun t i => match k.warps[i]? with
      | some w => (Warp_live w).foldl (fun t l => match w.threads[l]? with
        | some th => (match dueIn true 0 (own th.deferred) with
          | some d => takeWarp (updThread t wg i l fun th => { th with deferred := th.deferred.filter fun d => d.tok.isSome }) wg i [l] (dueRec d th.pc)
          | none => t)
        | none => t) t
      | none => t) s
    match dueIn true 0 (own k.cue.deferred) with
    | some d => takeCue (updCue t (.cue wg) fun c => { c with deferred := c.deferred.filter fun d => d.tok.isSome }) (.cue wg) (dueRec d k.cue.pc)
    | none => t
/-- A cause is due at the cut. -/
def dueAtCut (k : Workgroup) : Bool :=
  k.cue.deferred.any (·.tok.isNone) || k.warps.any fun w => (liveThreads w).any fun th => th.deferred.any (·.tok.isNone)

/-- The core a migration goes to, evaluated at the taking (10 R269): of an address, among the cores beneath its home slice. The workgroup's own resources still count as held (DESIGN CHOICE: log 109). -/
def migTarget (s : State) (k : Workgroup) (v : Nat) : Nat :=
  if v < 2048 then v
  else
    let x := homeSlice s (v - 2048)
    let cores := ((List.range 1024).filter fun p => s.part.pairen.getLsbD p && pairStack p == sliceStack x && pairY p / 2 == x % 64 / 8 && pairX p / 2 == x % 8).flatMap fun p => [2 * p, 2 * p + 1]
    let ok := match gridOf s k with
      | some g => cores.filter fun c => (admits s g.lrec c none).isSome
      | none => []
    ok.headD (cores.headD k.core)

/-- What is lost in one clk (R372 step 3): barrier arrivals and parks, reservations, plane tags; dead lines read as zero (step 6). -/
def loseAtTaking (s : State) (g : Grid) (k : Workgroup) : State :=
  let mine := fun (a : Agent) => match a with
    | .thread w _ _ => w == k.id
    | .cue w => w == k.id
    | _ => false
  let off := fun (t : Option PlaneTag) => if t.any (fun x => x.wg == k.id) then none else t
  let t := { s with
    resv := s.resv.filter (fun r => !mine r.agent)
    planes := s.planes.map fun p => { p with active := off p.active, shadow := off p.shadow }
    flights := s.flights.filter fun f => match f.who with
      | .warp w _ _ => w != k.id
      | .cue w => w != k.id
      | _ => true }
  let dead := (linesHere s k).filter fun n => !lineLive s g k (lineKind g.lrec n)
  updWg t k.id fun k =>
    let k := dead.foldl (fun k n => lineSet g.lrec k (List.replicate 128 0) (lineKind g.lrec n)) k
    { k with cue := { k.cue with park := none, windows := [], cutDist := 0 }
             warps := k.warps.map fun w => { w with threads := w.threads.map fun th => { th with park := none, windows := [], cutDist := 0 } } }
/-- The causes posted when a taking completes (R349). -/
def takeEvents (s : State) (wg : Nat) (why : TakeWhy) : State :=
  match why with
  | .thermal => postAsync s 0x07A 0 (some wg)
  | .ctxsv _ halt => let t := postAsync s 0x078 0 (some wg); if halt then postAsync t 0x07D 0 (some wg) else t
  | _ => s
/-- The dispatcher has work that waits for a place: a ready grid's next workgroup, or a taken workgroup. -/
def dispatchWaits (s : State) : Bool := s.grids.any readyGrid || s.wgs.any fun k => k.st == .taken && !k.held
/-- `TAKING` (R372): of a workgroup of which none is requested, the dispatcher's request (log 22); else due causes are delivered first, and then the workgroup is taken. -/
def execTaking (wg : Nat) (s : State) : Host.Outcome State Fault Refusal :=
  match findWg s wg with
  | none => .next s
  | some k => match k.take, gridOf s k with
    | none, some _ => .next (if k.st = .resident ∧ dispatchWaits s = true then updWg s wg fun k => { k with take := some .dispatch, takeAt := s.clk, takeLate := false } else s)
    | some why, some g =>
      if (k.st ≠ .resident ∧ k.st ≠ .halted) ∨ allStand k = false ∨ engineIdle s k = false then .next s
      else if dueAtCut k then .next (deliverAtCut s wg)
      else if unperformed s k.core then .next (l1Flush s k.core)
      else if hbmCap s < k.image + imageSize g.lrec then .next (postAsync (updWg s wg fun k => { k with take := none, takeLate := false }) 0x06E 0 (some wg))
      else
        let t := l1Flush (loseAtTaking s g k) k.core
        let t := updWg t wg fun k => { k with
          st := .taken, take := none, takeAt := s.clk, takeLate := false
          held := (match why with
            | .ctxsv _ h => h
            | _ => false)
          target := k.cmig.map (migTarget t k)
          cmig := if why = .thermal then none else k.cmig }
        let t := match findWg t wg with
          | some k => storeRecords t g k
          | none => t
        let t := match why with
          | .ctxsv c _ => updCmd t c fun x => { x with aux := [wg, 1] }
          | _ => t
        .next (takeEvents t wg why)
    | _, _ => .next s

/-- `PREEMPTION_TIMEOUT` (R374): a taking that is late is reported once, for the first unit found waiting, and stays requested (log 86). -/
def execPreemptionTimeout (s : State) : Host.Outcome State Fault Refusal :=
  .next (s.wgs.foldl (fun t k =>
    if k.take.isSome ∧ k.takeLate = false ∧ k.takeAt + mreg s Reg.PTIMEOUT * Config.clkPerUs ≤ s.clk then
      let th := k.warps.findSome? fun w => (liveThreads w).find? fun th => !threadStands w th
      let c : Cause := match th with
        | some th => if th.inHandler then 0x06D else 0x06A
        | none => if !cueStands k.cue then (if k.cue.inHandler then 0x06D else 0x06B) else 0x06C
      postAsync (updWg t k.id fun k => { k with takeLate := true }) c 0 (some k.id)
    else t) s)

/-! ### Resumption and migration (13 R373, R379) -/

/-- A thread starts at its cut record's stub; with a record that cannot serve, it stands at the cut header, whose checks report it (log 31). -/
def stubThread (s : State) (g : Grid) (wg : Nat) (th : Thread) : Thread :=
  let r := readCut s wg g.lrec th.cutRec.toNat
  match th.life, r, cutCause g.lrec false r with
  | .live, some c, none =>
    { th with pc := BitVec.ofNat 57 (g.lrec.wstream + c.stub)
              stub := some { target := th.cutPc, issued := 0, deadV := (List.range g.lrec.vregs).filter fun r => !c.live.testBit r,
                             deadS := (List.range g.lrec.sregs).filter fun r => !c.slive.testBit r, deadP := if c.plive then [] else List.range 7 } }
  | _, _, _ => th
/-- The same for the cue thread. -/
def stubCue (s : State) (g : Grid) (wg : Nat) (c : Cue) : Cue :=
  let r := readCut s wg g.lrec c.cutRec.toNat
  match c.ended, r, cutCause g.lrec true r with
  | false, some x, none =>
    { c with pc := BitVec.ofNat 57 (g.lrec.cstream + x.stub)
             stub := some { target := c.cutPc, issued := 0, deadV := (List.range 64).filter fun r => !x.live.testBit r, deadS := [], deadP := [] } }
  | _, _, _ => c
/-- A side entry of a line that stands only in the image is sound (0x077). -/
def sideOk (s : State) (g : Grid) (k : Workgroup) (n : Nat) : Bool :=
  decide (homeNat s (sideAt g.lrec k n + 16) 1 < 7) && homeNat s (sideAt g.lrec k n + 17) 8 = k.image
/-- INSTALL a taken workgroup on a core: records, tiles and local store read back where they stand only in the image, places taken, threads at their stubs, the acquire naming D. -/
def installWg (s : State) (g : Grid) (k : Workgroup) (core : Nat) (room : Room) : State :=
  let u := loadRecords s g k
  let u := if u.storedTiles then loadTiles s g u else u
  let u := setPlaces { u with st := .resident, core := core, ctx := room.ctx, bases := room.bases, held := false, target := none, storedLocal := false
                              take := if k.cmig.isSome then some .migrate else none, takeAt := s.clk, takeLate := false } room.places
  let u := { u with cue := stubCue s g k.id u.cue, warps := u.warps.map fun w => { w with threads := w.threads.map (stubThread s g k.id) } }
  let t := updWg s k.id fun _ => u
  let t := if k.storedLocal then loadLocal t g u else t
  let t := if k.storedTiles && (homeCaps s (k.image + imgTiles g.lrec) (4096 * g.lrec.tileg) ≠ .good) then deferCue t (.cue k.id) ((integrityCause 9 (homeCaps s (k.image + imgTiles g.lrec) (4096 * g.lrec.tileg))).getD 0x0C9) 0 u.cue.pc 0 else t
  let t := if k.missing.all (sideOk s g k) then t else postAsync t 0x077 0 (some k.id)
  let t := { t with cmds := t.cmds.map fun c => match c.op with
    | .ctxld _ => if c.aux = [k.id] then { c with aux := [k.id, 1] } else c
    | _ => c }
  noteWg (l1Inv t core) k.id
/-- `RESUMPTION` (R373, R375): as the dispatcher chose, once what the workgroup or others must write to images is written. -/
def execResumption (s : State) : Host.Outcome State Fault Refusal :=
  match dispatchChoice s with
  | some (.resume wg core) => (match findWg s wg with
    | none => .next s
    | some k => match gridOf s k with
      | none => .next s
      | some g =>
        if (leaveCore s k core).isSome then .next s
        else match admits s g.lrec core (keepBases k core) with
          | none => .next s
          | some room =>
            if (makeRoom s g.lrec core room.bases wg).isSome then .next s
            else
              let t := installWg s g k core room
              .next (if core = k.core then t else postAsync t 0x079 0 (some wg)))
  | _ => .next s

/-- Local allocations moved from a workgroup's old bases to its new ones, with caps, without passing through the image. -/
def moveLocal (s : State) (g : Grid) (old new : Workgroup) : State :=
  ((localPieces g old).zip (localPieces g new)).foldl (fun t ((_, z, a), (_, _, b)) =>
    let u := lsWrite t b (lsBytes s a z)
    { u with lsSynd := SMap.setList u.lsSynd (b / 16) (SMap.getList s.lsSynd (a / 16) (z / 16)) }) s
/-- The target of a migration in progress, when it admits the workgroup. -/
def migRoom (s : State) (k : Workgroup) : Option (Grid × Nat × Room) :=
  if k.st ≠ .taken || k.held || k.cmig.isNone then none
  else match gridOf s k, k.target with
    | some g, some t => (admits s g.lrec t none).map fun r => (g, t, r)
    | _, _ => none
/-- `MIGRATION_MESSAGE` (10 R269, 13 R379): the message installs the context on the target; a corrupt one leaves the image complete, and the workgroup resumes from it. -/
def execMigrationMessage (wg : Nat) (intact : Bool) (s : State) : Host.Outcome State Fault Refusal :=
  match findWg s wg with
  | none => .next s
  | some k => match migRoom s k with
    | none => .next s
    | some (g, core, room) =>
      if (makeRoom s g.lrec core room.bases wg).isSome then .next s
      else if intact then
        let t := installWg (updWg s wg fun k => { k with cmig := none }) g { k with cmig := none } core room
        let t := match findWg t wg with
          | some n => if k.storedLocal then t else moveLocal t g k n
          | none => t
        .next (postAsync (postAsync t 0x079 0 (some wg)) 0x07B 0 (some wg))
      else
        let t := storeAreas (storeLines s wg) wg
        .next (postAsync (updWg t wg fun k => { k with cmig := none }) 0x07C 0 (some wg))
/-- `MIGRATION_FALLBACK` (10 R269): after 1 ms without its target a migrated workgroup may resume anywhere. -/
def execMigrationFallback (s : State) : Host.Outcome State Fault Refusal :=
  .next (s.wgs.foldl (fun t k =>
    if k.st = .taken ∧ k.cmig.isSome ∧ k.held = false ∧ k.takeAt + Config.clkPerMs ≤ s.clk then
      postAsync (updWg t k.id fun k => { k with cmig := none, target := none }) 0x06F 0 (some k.id)
    else t) s)

/-! ### Refill (R375, R347) -/

/-- The lanes and the warp that a line covers. -/
def lineOwner (k : Workgroup) : LineKind → Option (Nat × List Nat)
  | .vec w j _ => (k.warps[w]?).map fun y => (w, (Warp_live y).filter fun l => l / 32 = j)
  | .uni w _ => (k.warps[w]?).map fun y => (w, Warp_live y)
  | .prd w => (k.warps[w]?).map fun y => (w, Warp_live y)
  | .cue _ => none
/-- `CONTEXT_LINE_REFILL` (R375): a line comes back from the image. A failure is raised at the instruction that needs the line, and the line reads as zero (R347). -/
def execContextLineRefill (wg line : Nat) (s : State) : Host.Outcome State Fault Refusal :=
  match findWg s wg with
  | none => .next s
  | some k => match gridOf s k with
    | none => .next s
    | some g =>
      if k.st ≠ .resident ∨ k.missing.contains line = false then .next s
      else
        let kind := lineKind g.lrec line
        let t := updWg s wg fun k => { k with missing := k.missing.filter (· != line) }
        match loadLine s g k line with
        | .ok bs => .next (updWg t wg fun k => lineSet g.lrec k bs kind)
        | .error c =>
          match lineOwner k kind, s.cur with
          | some (w, ls), .warp wg' w' gl =>
            let hit := if wg' = wg ∧ w' = w then gl else ls
            .next (hit.foldl (fun t l => match findThread t wg w l with
              | some th => takeWarp t wg w [l] { cause := c, kind := 0, fpc := th.pc.toNat, rpc := th.pc.toNat, lanes := laneMask hit }
              | none => t) t)
          | some (w, ls), _ => .next (ls.foldl (fun t l => match findThread t wg w l with
              | some th => takeWarp t wg w [l] { cause := c, kind := 0, fpc := th.pc.toNat, rpc := th.pc.toNat, lanes := laneMask ls }
              | none => t) t)
          | none, _ => .next (takeCue t (.cue wg) { cause := c, kind := 0, fpc := k.cue.pc.toNat, rpc := k.cue.pc.toNat })

end Sys2Proof.Machine
end

