-- ==== Sys2Proof/Machine/Pages.lean ====
section
/-! DEFINITION. TLB invalidation, the page directory and the copy table as commands change them, and the transitions of coherence pages (14 R401 to R408, R414 to R418). -/

namespace Sys2Proof.Machine

/-! ### TLBs (R414) -/

def tlbDrop (s : State) (p : TlbEntry → Bool) : State := { s with tlb := s.tlb.filter fun e => !p e }
/-- The coherence page of a global physical address: base and size. A peer's page of unknown size counts as 2 MiB. -/
def pageOf (s : State) (pa : Nat) : Nat × Nat :=
  if pa / 2 ^ 46 = ownDev s ∧ pa % 2 ^ 46 < hbmCap s then
    let i := dirIndex s (pa % 2 ^ 46)
    (ownDev s * 2 ^ 46 + i * 65536, if (dirAt s i).size = 1 then 2 ^ 21 else 2 ^ 16)
  else match copyLookup s pa [1, 2, 3] with
    | some (false, _, _) => (pa / 2 ^ 16 * 2 ^ 16, 2 ^ 16)
    | _ => (pa / 2 ^ 21 * 2 ^ 21, 2 ^ 21)
/-- A place lies in an interval, in the numbering of L1, or an operation there reaches into it. -/
def locMeets (lo n : Nat) (loc : Loc) : Bool := (l1Addr loc).any fun a => decide (lo < a + 32 ∧ a < lo + n)
/-- The operations on their way to an interval are executed: accesses through translations that are dropped come before (R405 step 3, R414). -/
def execMeeting (s : State) (lo n : Nat) : State := (s.flights.filter fun f => (execOps f).any fun o => locMeets lo n o.loc).foldl runPoint s
/-- Every access of an interval, in the numbering of L1, is performed for D (R414): operations on their way are executed, dirty bytes written back. -/
def settle (s : State) (lo n : Nat) : State :=
  let t := execMeeting s lo n
  (t.l1.filter fun l => l.dirty != 0 && decide (lo < 128 * l.line + 128 ∧ 128 * l.line < lo + n)).foldl l1WriteBack t
/-- The same of an interval of global physical memory, wherever it is served: at home or in a copy frame, and with a peer. -/
def settlePa (s : State) (pa n : Nat) : State :=
  let t := settle s (2 ^ 52 + pa) n
  if pa / 2 ^ 46 = ownDev s then settle t (pa % 2 ^ 46) n
  else match copyLookup s pa [1, 2] with
    | some (big, _, l) => let z := if big then 2 ^ 21 else 2 ^ 16; settle t (l / 65536 % 2 ^ 30 * 65536 + pa % z) (min n (z - pa % z))
    | none => t
/-- Drop the entries that translate to any address of an interval. -/
def tlbDropPa (s : State) (base size : Nat) : State := tlbDrop s fun e => decide (e.pa < base + size ∧ base < e.pa + e.size)
/-- The entries that `tlbinv` drops, and the accesses that used them, which are performed for D. -/
def tlbinvOn (s : State) (mod va asid : Nat) : State :=
  let off := fun (p : TlbEntry → Bool) => tlbDrop (((s.tlb.filter p).map fun e => (e.pa, e.size)).eraseDups.foldl (fun t (a, n) => settlePa t a n) s) p
  match mod with
  | 0 => off fun e => e.asid.toNat == asid && decide (e.page ≤ va ∧ va < e.page + e.size)
  | 1 => off fun e => e.asid.toNat == asid
  | 2 => off fun _ => true
  | _ => let (b, z) := pageOf s va; tlbDropPa (settlePa s b z) b z
/-- The requests to peers that a step from s to t made. -/
def asksSince (s t : State) : List Nat := (t.awaits.filter fun a => decide (s.nextId ≤ a.tag)).map (·.tag)
/-- Some of these requests are not answered yet. -/
def asksOpen (s : State) (tags : List Nat) : Bool := s.awaits.any fun a => tags.contains a.tag
/-- The other devices of the domain that can be reached. -/
def domainPeers (s : State) : List Nat := (List.range 64).filter fun k => k != ownDev s && reachable s k

/-! ### Transitions (R405) -/

/-- An SC page: a TLB of the device shows it; that a leaf which no TLB holds, or a leaf of another device, marks the page is free (log 27). -/
def scPage (s : State) (base size : Nat) : Bool := (s.tlb.any fun e => e.flags.getLsbD 2 && decide (e.pa < base + size ∧ base < e.pa + e.size)) || Config.coin (s.fresh + 64)
/-- Whether device k has a READY copy entry, which only k knows (log 11). -/
def readyAt (s : State) (i : Nat) : Bool := Config.coin (s.fresh + i)
/-- Recall the host's copies of the lines of an interval: shared ones are dropped at once, each with its next SEQ (R407). -/
def hostDrop (s : State) (lo n : Nat) : State :=
  { s with hostLines := s.hostLines.map fun h => if lo < 128 * h.line + 128 ∧ 128 * h.line < lo + n ∧ h.st = 1 then { h with st := 0, seq := h.seq + 1 } else h }
/-- Lines of an interval that the host holds in M. -/
def hostHeld (s : State) (lo n : Nat) : Bool := s.hostLines.any fun h => decide (lo < 128 * h.line + 128 ∧ 128 * h.line < lo + n) && h.st = 2
/-- The L1 lines of an interval, in the numbering of L1, leave, its accesses performed for D first. -/
def l1Leave (s : State) (lo n : Nat) : State :=
  let hit := fun (l : L1Line) => decide (lo < 128 * l.line + 128 ∧ 128 * l.line < lo + n)
  let t := settle s lo n
  { t with l1 := t.l1.filter fun l => !hit l }
/-- Probe kinds in a message's aux word: 0 INV, 1 RECALL, 2 SPLIT, 3 ALL (log 28). -/
def probe (s : State) (dev page : Nat) (seq : BitVec 16) (kind : Nat) : State := sendMsg s dev 5 page seq kind []

/-- A transition takes a page from its home's H, or gives its ownership away: the host's copies are recalled (R405 step 2, R408). -/
def leavesHome (before after : DirEntry) : Bool := after.st = 2 || (before.st = 0 && after.st ≠ 0)
/-- START of a transition (R405 steps 1 to 4): X, host copies, translations and L1 lines (also those that hold an owner's bytes), probes; the grants follow the acknowledgements. -/
def startTransition (s : State) (cmd i : Nat) (after : DirEntry) (split : Bool) (probes : List (Nat × Nat)) (grants : List (Nat × Bool × Bool)) : State :=
  let before := dirAt s i
  let page := ownDev s * 2 ^ 46 + i * 65536
  let u := l1Leave (l1Leave s (i * 65536) (dirSize before)) (2 ^ 52 + page) (dirSize before)
  let t := setDir u i (holdX before)
  let t := if leavesHome before after then hostDrop t (i * 65536) (dirSize before) else t
  let t := tlbDropPa t page (dirSize before)
  let t := probes.foldl (fun t (d, k) => probe t d page before.seq k) t
  { t with busy := t.busy ++ [{ cmd := cmd, index := i, before := before, after := after, split := split, waiting := probes.map (·.1), grants := grants, granted := false, asks := asksSince s u, drops := [] }] }

/-- A page leaves X: the accesses of peers and of the host that waited for a page come again, in their order (R405). -/
def wakeInbox (s : State) : State := { s with agenda := s.inbox.map Act.held ++ s.agenda, inbox := [] }
/-- The 32 entries a split leaves (R405). -/
def splitEntries (x : Transition) : List DirEntry :=
  (List.range 32).map fun i =>
    let gone := (x.drops.filter fun d => d.2 == i).map (·.1)
    let seq := x.before.seq + 1
    match x.before.st.toNat with
    | 1 => { seq := seq, st := 1, size := 0, owner := 0, set := x.before.set &&& ~~~(BitVec.ofNat 64 (maskOf gone 64).toNat) }
    | 2 => if gone = [] then { seq := seq, st := 2, size := 0, owner := x.before.owner, set := 0 } else { seq := seq, st := 0, size := 0, owner := 0, set := 0 }
    | _ => { seq := seq, st := 0, size := 0, owner := 0, set := 0 }
/-- The grants of a transition (R405 step 4), with their data and caps, stamped with the entry's SEQ plus 1 (R403); their acknowledgements are awaited next. -/
def sendGrants (s : State) (x : Transition) : State :=
  let page := ownDev s * 2 ^ 46 + x.index * 65536
  let t := x.grants.foldl (fun t (d, o, data) => sendData t d 4 page (x.before.seq + 1) (if o then 1 else 0) (if data then homeBytes t (x.index * 65536) (dirSize x.before) else [])
    (if data then homeSynds t (x.index * 65536) (dirSize x.before) else [])) s
  { t with busy := t.busy.map fun y => if y.cmd = x.cmd then { y with waiting := x.grants.map (·.1), granted := true } else y }
/-- FINISH of a transition (R405 step 6): the final entry with SEQ + 1. -/
def finishTransition (s : State) (x : Transition) : State :=
  let t := if x.split then (List.range 32).foldl (fun t i => match (splitEntries x)[i]? with
      | some d => setDir t (x.index + i) d
      | none => t) s
    else setDir s x.index { x.after with seq := x.before.seq + 1 }
  wakeInbox { t with busy := t.busy.filter fun y => y.cmd != x.cmd }
/-- The transition of a command, and whether every acknowledgement, host line and write to a peer has come. -/
def transitionOf (s : State) (cmd : Nat) : Option Transition := s.busy.find? fun x => x.cmd == cmd
def transitionReady (s : State) (x : Transition) : Bool := x.waiting = [] && !asksOpen s x.asks && !(leavesHome x.before x.after && hostHeld s (x.index * 65536) (dirSize x.before))

/-- A device of a set that a command may name: in the domain and reachable (0x09B). -/
def devOk (s : State) (k : Nat) : Bool := reachable s k
/-- What a transition command finds at its home: a cause, or the entry and its index. -/
def pageStart (s : State) (pa : Nat) : Except Cause (Nat × DirEntry) :=
  let p := pa % 2 ^ 46
  if 2 ^ 52 ≤ pa ∨ hbmCap s ≤ p then .error 0x083
  else
    let i := dirIndex s p
    if homeCap s ((mreg s Reg.DIRBASE + 16 * i) / 16) ≠ .good then .error 0x093
    else if s.busy.any fun x => x.index == i then .error 0x097
    else .ok (i, dirAt s i)

/-- The outcome of a transition command at its home (R405, R416): the causes met, and the state with the transition started or the entries written. -/
structure PgOut where
  causes : List Cause
  s : State

/-- `pgdup` (R416). -/
def pgdupHome (s : State) (cmd pa devs : Nat) : PgOut :=
  match pageStart s pa with
  | .error c => ⟨[c], s⟩
  | .ok (i, d) =>
    if d.st ≠ 0 ∧ d.st ≠ 1 then ⟨[0x097], s⟩
    else if scPage s (ownDev s * 2 ^ 46 + i * 65536) (dirSize d) then ⟨[0x09F], { s with fresh := s.fresh + 65 }⟩
    else
      let named := (maskList devs 64).filter fun k => k != ownDev s && !d.set.getLsbD k
      let out := named.filter fun k => !devOk s k
      let ok := (named.filter (devOk s)).filter (readyAt s)
      let unready := (named.filter (devOk s)).filter fun k => !readyAt s k
      let after := { d with st := 1, owner := 0, set := d.set ||| BitVec.ofNat 64 (maskOf ok 64).toNat }
      ⟨(if unready = [] then [] else [0x08B]) ++ (if out = [] then [] else [0x09B]),
        startTransition { s with fresh := s.fresh + 65 } cmd i after false [] (ok.map fun k => (k, false, true))⟩
/-- `pgcol` (R416). -/
def pgcolHome (s : State) (cmd pa keeper : Nat) : PgOut :=
  match pageStart s pa with
  | .error c => ⟨[c], s⟩
  | .ok (i, d) =>
    let holders := (List.range 64).filter fun k => d.set.getLsbD k
    if d.st ≠ 1 ∨ (keeper ≠ ownDev s ∧ d.set.getLsbD keeper = false) then ⟨[0x097], s⟩
    else if !devOk s keeper && keeper ≠ ownDev s then ⟨[0x09B], s⟩
    else if keeper = ownDev s then ⟨[], startTransition s cmd i { d with st := 0, owner := 0, set := 0 } false (holders.map fun k => (k, 0)) []⟩
    else ⟨[], startTransition s cmd i { d with st := 2, owner := BitVec.ofNat 8 keeper, set := 0 } false ((holders.filter (· != keeper)).map fun k => (k, 0)) [(keeper, true, false)]⟩
/-- `pgmig` (R416). -/
def pgmigHome (s : State) (cmd pa target : Nat) : PgOut :=
  match pageStart s pa with
  | .error c => ⟨[c], s⟩
  | .ok (i, d) =>
    let probes := if d.st = 2 then [(d.owner.toNat, 1)] else []
    if (d.st ≠ 0 ∧ d.st ≠ 2) ∨ (d.st = 0 ∧ target = ownDev s) then ⟨[0x097], s⟩
    else if target = ownDev s then ⟨[], startTransition s cmd i { d with st := 0, owner := 0, set := 0 } false probes []⟩
    else if !readyAt s target && devOk s target then ⟨[0x08B], { s with fresh := s.fresh + 65 }⟩
    else if !devOk s target then ⟨[0x09B], s⟩
    else if scPage s (ownDev s * 2 ^ 46 + i * 65536) (dirSize d) then ⟨[0x09F], { s with fresh := s.fresh + 65 }⟩
    else ⟨[], startTransition { s with fresh := s.fresh + 65 } cmd i { d with st := 2, owner := BitVec.ofNat 8 target, set := 0 } false probes [(target, true, true)]⟩
/-- `pgsplit` (R405, R416). -/
def pgsplitHome (s : State) (cmd pa : Nat) : PgOut :=
  match pageStart s pa with
  | .error c => ⟨[c], s⟩
  | .ok (i, d) =>
    if d.size ≠ 1 then ⟨[0x08F], s⟩
    else if 2 < d.st.toNat then ⟨[0x097], s⟩
    else
      let holders := if d.st = 2 then [d.owner.toNat] else (List.range 64).filter fun k => d.set.getLsbD k
      ⟨[], startTransition s cmd i d true (holders.map fun k => (k, 2)) []⟩
/-- `pgjoin` (R405, R416): no host copy, probe or grant is due, and the steps take one. -/
def pgjoinHome (s : State) (pa : Nat) : PgOut :=
  let p := pa % 2 ^ 46
  if 2 ^ 52 ≤ pa ∨ hbmCap s ≤ p then ⟨[0x083], s⟩
  else if p % 2 ^ 21 ≠ 0 then ⟨[0x08F], s⟩
  else
    let i := p / 65536
    let es := (List.range 32).map fun j => dirAt s (i + j)
    if (List.range 32).any fun j => homeCap s ((mreg s Reg.DIRBASE + 16 * (i + j)) / 16) ≠ .good then ⟨[0x093], s⟩
    else if es.any fun e => e.size ≠ 0 ∨ e.st ≠ 0 then ⟨[0x08F], s⟩
    else
      let base := ownDev s * 2 ^ 46 + p
      let u := tlbDropPa (settlePa s base (2 ^ 21)) base (2 ^ 21)
      let t := setDir u i { seq := (dirAt s i).seq + 1, st := 0, size := 1, owner := 0, set := 0 }
      let t := (List.range 31).foldl (fun t j => setDir t (i + j + 1) { seq := 0, st := 4, size := 0, owner := 0, set := 0 }) t
      ⟨[], t⟩

/-! ### Entries as software sees them (R417) -/

/-- A directory entry's 16 bytes are within R401. -/
def dirValid (bs : List Byte) : Bool :=
  let n := fun o k => leNat ((bs.drop o).take k)
  decide (n 2 1 ≤ 4) && decide (n 3 1 ≤ 1) && decide (n 4 1 < 64) && (n 2 1 = 2 || n 4 1 = 0) && n 5 3 = 0 && (n 2 1 = 1 || n 8 8 = 0)
/-- A copy entry's 16 bytes are within R402. -/
def copyValid (bs : List Byte) : Bool :=
  let g := leNat (bs.take 8)
  let l := leNat ((bs.drop 8).take 8)
  let z := if g % 2 = 1 then 2 ^ 21 else 2 ^ 16
  decide (l % 16 ≤ 3) && l / 16 % 4096 = 0 && l / 2 ^ 46 % 4 = 0 && decide (g < 2 ^ 52) && g / 2 * 2 % z = 0 && l / 65536 % 2 ^ 30 * 65536 % z = 0
/-- The copy entry for a global address: a match, failing that its READY entry (R417). -/
def copyEntry (s : State) (g : Nat) : Option Nat :=
  match copyLookup s g [1, 2] with
  | some (_, a, _) => some a
  | none => (copyLookup s g [3]).map fun (_, a, _) => a
/-- The first empty way of the set of an entry's GPA. -/
def copyEmpty (s : State) (gpa : Nat) : Option Nat :=
  ((List.range 8).map fun w => copyAddr s (copySet (gpa % 2 = 1) gpa) w).find? fun a => homeNat s (a + 8) 8 % 16 = 0

end Sys2Proof.Machine
end

