-- ==== Sys2Proof/Machine/PrivCommands.lean ====
section
/-! DEFINITION. The privileged commands of the management core: `chalt`, `ctxsv`, `ctxld`, `tabort`, `tcommit` (13 R392 to R394), `tlbinv` to `hostinv` (14 R413 to R418), at issue and as they proceed. -/

namespace Sys2Proof.Machine

/-- The workgroup whose image is at an address (13 R470). -/
def findImage (s : State) (a : Nat) : Option Workgroup := s.wgs.find? fun k => k.image == a && k.st != .ended

/-- The causes of `chalt` MOD 1 (R349): no workgroup, or one inside a taking. A taking that was reported as late no longer bars it (R374; log 86). -/
def chaltCause (s : State) (a : Nat) : Option OwnC :=
  match findImage s a with
  | none => ownC 0x070
  | some k => if k.take.isSome && !k.takeLate then ownC 0x076 else none
/-- `chalt` (13 R392). -/
def opChalt (f : QF) : COp :=
    { i := .chalt f
      stay := f.mod = 0
      rest := fun s c => if f.mod = 1 then chaltCause s (cnat c f.a.toNat) else none
      eff := fun c s =>
        if f.mod = 0 then
          match c.iss with
          | .mgmt m => chaltRelease (updCue s c.iss fun x => { x with park := some (.chalt f.d.toNat) }) m
          | _ => s
        else match findImage s (cnat c f.a.toNat) with
          | some k => endWg s k.id 0x07E
          | none => s }
def execChalt (f : QF) (s : State) : Host.Outcome State Fault Refusal := cueIssue (opChalt f) s

/-- The causes of `tabort` and `tcommit` (13 R394). -/
def taskCause (f : QF) (s : State) (c : CCtx) : Option OwnC :=
  match findImage s (cnat c f.a.toNat) with
  | none => ownC 0x070
  | some k => if !(gridOf s k).any (fun g => g.lrec.versioned) then ownC 0x074 else if !k.taskOn then ownC 0x075 else none
/-- `tabort` (13 R394). -/
def opTabort (f : QF) : COp :=
    { i := .tabort f, rest := taskCause f
      eff := fun c s => match findImage s (cnat c f.a.toNat) with
        | some k => endWg s k.id 0x07F
        | none => s }
def execTabort (f : QF) (s : State) : Host.Outcome State Fault Refusal := cueIssue (opTabort f) s
/-- `tcommit` (13 R394): a taken task is acted on in its image. -/
def opTcommit (f : QF) : COp :=
    { i := .tcommit f, rest := taskCause f
      eff := fun c s => match findImage s (cnat c f.a.toNat) with
        | some k =>
          let t := updWg (versionCommit s k.id) k.id fun k => { k with nonRestart := true }
          if k.st = .taken then homeWrite t (k.image + 0x15) [homeByte t (k.image + 0x15) ||| 2] 0 none else t
        | none => s }
def execTcommit (f : QF) (s : State) : Host.Outcome State Fault Refusal := cueIssue (opTcommit f) s

/-! ### Issue -/

/-- `ctxsv` (13 R393). -/
def opCtxsv (f : QE) : COp := cmdOp { i := .ctxsv f, f := f, total := fun _ _ => 2 }
def execCtxsv (f : QE) (s : State) : Host.Outcome State Fault Refusal := cueIssue (opCtxsv f) s
/-- The preferred core of `ctxld`: all ones for none. -/
def preferred (s : State) (v : Nat) : Except Nat (Option Nat) :=
  if v = 2 ^ 64 - 1 then .ok none else if 2047 < v ∨ !s.part.pairen.getLsbD (v / 2) then .error 0x073 else .ok (some v)
/-- `ctxld` (13 R393). -/
def opCtxld (f : QE) : COp :=
  cmdOp
    { i := .ctxld f, f := f, total := fun _ _ => 2
      rest := fun s c => match preferred s (cnat c f.b.toNat) with
        | .error n => ownC n
        | .ok _ => none }
def execCtxld (f : QE) (s : State) : Host.Outcome State Fault Refusal := cueIssue (opCtxld f) s

/-- Bits of c(B) that must be zero above an operand's width (14 R413). -/
def wideB (f : QE) (n : Nat) (_ : State) (c : CCtx) : Option OwnC := if 2 ^ n ≤ cnat c f.b.toNat then ownC 0x016 else none
/-- `tlbinv` (14 R414). -/
def opTlbinv (f : QE) : COp := cmdOp { i := .tlbinv f, f := f, c0 := wideB f 16, total := fun _ _ => 2 }
def execTlbinv (f : QE) (s : State) : Host.Outcome State Fault Refusal := cueIssue (opTlbinv f) s
/-- `ptwalk` (14 R415). -/
def opPtwalk (f : QE) : COp := cmdOp { i := .ptwalk f, f := f, c0 := wideB f 16 }
def execPtwalk (f : QE) (s : State) : Host.Outcome State Fault Refusal := cueIssue (opPtwalk f) s
/-- `pgdup` (14 R416). -/
def opPgdup (f : QE) : COp := cmdOp { i := .pgdup f, f := f, total := fun _ _ => 3 }
def execPgdup (f : QE) (s : State) : Host.Outcome State Fault Refusal := cueIssue (opPgdup f) s
/-- `pgcol` (14 R416). -/
def opPgcol (f : QE) : COp := cmdOp { i := .pgcol f, f := f, c0 := wideB f 6, total := fun _ _ => 3 }
def execPgcol (f : QE) (s : State) : Host.Outcome State Fault Refusal := cueIssue (opPgcol f) s
/-- `pgsplit` (14 R416). -/
def opPgsplit (f : QE) : COp := cmdOp { i := .pgsplit f, f := f, total := fun _ _ => 3 }
def execPgsplit (f : QE) (s : State) : Host.Outcome State Fault Refusal := cueIssue (opPgsplit f) s
/-- `pgjoin` (14 R416). -/
def opPgjoin (f : QE) : COp := cmdOp { i := .pgjoin f, f := f, total := fun _ _ => 3 }
def execPgjoin (f : QE) (s : State) : Host.Outcome State Fault Refusal := cueIssue (opPgjoin f) s
/-- `pgmig` (14 R416). -/
def opPgmig (f : QE) : COp := cmdOp { i := .pgmig f, f := f, c0 := wideB f 6, total := fun _ _ => 3 }
def execPgmig (f : QE) (s : State) : Host.Outcome State Fault Refusal := cueIssue (opPgmig f) s
/-- `dirq` (14 R417). -/
def opDirq (f : QE) : COp := cmdOp { i := .dirq f, f := f }
def execDirq (f : QE) (s : State) : Host.Outcome State Fault Refusal := cueIssue (opDirq f) s
/-- `dirset` (14 R417): B names a pair. -/
def opDirset (f : QE) : COp := cmdOp { i := .dirset f, f := f }
def execDirset (f : QE) (s : State) : Host.Outcome State Fault Refusal := cueIssue (opDirset f) s
/-- `hostinv` (14 R418). -/
def opHostinv (f : QE) : COp := cmdOp { i := .hostinv f, f := f, total := fun _ _ => 2 }
def execHostinv (f : QE) (s : State) : Host.Outcome State Fault Refusal := cueIssue (opHostinv f) s

/-! ### Progress -/

/-- `ctxsv`: the request, then the wait for the taking. -/
def ctxsvUnit (s : State) (c : Cmd) (f : QE) : Run :=
  if c.done = 0 then
    match findImage s (creg c f.a.toNat) with
    | none => .stop s 0x070 0
    | some k =>
      if k.st = .taken then .stop s 0x071 0
      else match k.take with
        | some (.ctxsv _ _) => .wait
        | _ => .go (updCmd (updWg s k.id fun k => { k with take := some (.ctxsv c.id (f.opt.getLsbD 0)), takeAt := s.clk, takeLate := false }) c.id fun x => { x with aux := [k.id] })
  else match c.aux with
    | [wg] => if (findWg s wg).any fun k => k.take == some (.ctxsv c.id (f.opt.getLsbD 0)) then .wait else .go s
    | _ => .go s
/-- `ctxld`: the workgroup becomes ready to resume, then the wait for its resumption. -/
def ctxldUnit (s : State) (c : Cmd) (f : QE) : Run :=
  if c.done = 0 then
    match findImage s (creg c f.a.toNat) with
    | none => .stop s 0x070 0
    | some k =>
      if k.st ≠ .taken then .stop s 0x072 0
      else
        let t := match preferred s (creg c f.b.toNat) with
          | .ok x => x
          | .error _ => none
        .go (updCmd (updWg s k.id fun k => { k with held := false, target := t, cmig := none }) c.id fun x => { x with aux := [k.id] })
  else match c.aux with
    | [wg] => if (findWg s wg).any fun k => k.st = .taken then .wait else .go s
    | _ => .go s

/-- The ROOT of an ASID, as far as the device holds it: MROOT, a queue's, or a running grid's (log 35). -/
def rootOf (s : State) (asid : Nat) : Option Nat :=
  if asid = 0 then some (mreg s Reg.MROOT)
  else match s.queues.find? fun q => q.asid.toNat == asid with
    | some q => some q.root
    | none => match s.grids.find? fun g => g.asid.toNat == asid with
      | some g => some g.root
      | none => none
/-- The result of a walk from a ROOT (R415). -/
def walkResult (s : State) (root va : Nat) : Nat :=
  let bad := fun (c : Cause) => 2 ^ 63 + c.toNat
  if 2 ^ 57 ≤ va then bad (memCause .global false 1)
  else match walk s root va with
    | .error x => bad (trCause x.reason 3)
    | .ok t =>
      let own := t.pa / 2 ^ 46 = ownDev s
      let p := t.pa % 2 ^ 46
      let size := min t.size (cohSize s t.pa)
      let st :=
        if own ∧ p < hbmCap s then (dirOf s p).st.toNat
        else if own then 0
        else match copyLookup s t.pa [1, 2] with
          | some (_, _, l) => l % 16
          | none => 4
      let base := t.pa - va % size
      let flags := bitsOf (fun i => [true, true, t.w, t.x, t.sc, t.imm, false, t.priv].getD i false) 8
      (if size = 2 ^ 30 then 2 else if size = 2 ^ 21 then 1 else 0) * 2 ^ 60 + st % 16 * 2 ^ 56 + base / 256 % 2 ^ 44 * 256 + flags

/-- The result of `ptwalk`, which for an ASID whose root the device does not hold is a free value (log 35). -/
def ptwalkResult (s : State) (va asid : Nat) : Nat := match rootOf s asid with
  | some root => walkResult s root va
  | none => (Config.unstated s.fresh).toNat
/-- A table read of `ptwalk` that fails its check is posted (R398). -/
def ptwalkNote (s : State) (va asid : Nat) : State := match (rootOf s asid).map fun root => walk s root va with
  | some (.error x) => if va < 2 ^ 57 then postNote s (integrityCause 12 x.cap) (BitVec.ofNat 64 va) none else s
  | _ => s
/-- `ptwalk` (R415). -/
def ptwalkUnit (s : State) (c : Cmd) (f : QE) : Run :=
  let va := creg c f.a.toNat
  let asid := creg c f.b.toNat
  .go { cmdResult (ptwalkNote s va asid) c f.d.toNat (ptwalkResult s va asid) with fresh := s.fresh + 1 }

/-- `tlbinv`: the device's TLBs, and with DOM a message to every device of the domain; it waits for their answers, and for the writes to peers that the accesses through the dropped entries made (R414). -/
def tlbinvUnit (s : State) (c : Cmd) (f : QE) : Run :=
  let va := creg c f.a.toNat
  let asid := creg c f.b.toNat
  if c.done ≠ 0 then (if asksOpen s c.aux then .wait else .go s)
  else
  let u := tlbinvOn s f.mod.toNat va asid
  let t := updCmd u c.id fun y => { y with aux := asksSince s u }
  .go (if f.opt.getLsbD 0 then (domainPeers t).foldl (fun t k => askPeer t (engAsks (engOf t c)) { dst := k, kind := 20, page := va, seq := BitVec.ofNat 16 asid, aux := f.mod.toNat, data := [] }) t else t)

/-- `dirq`: the 16 bytes of an entry. -/
def dirqUnit (s : State) (c : Cmd) (f : QE) : Run :=
  let pa := creg c f.a.toNat
  let put := fun (a : Nat) => if homeCap s (a / 16) ≠ .good then Run.stop s 0x093 (BitVec.ofNat 64 pa)
    else .go (cmdResult (cmdResult s c f.d.toNat (homeNat s a 8)) c (f.d.toNat + 1) (homeNat s (a + 8) 8))
  if f.mod = 0 then (if hbmCap s ≤ pa then .stop s 0x083 (BitVec.ofNat 64 pa) else put (mreg s Reg.DIRBASE + 16 * (pa / 65536)))
  else match copyEntry s pa with
    | some a => put a
    | none => .go (cmdResult (cmdResult s c f.d.toNat 0) c (f.d.toNat + 1) 0)
/-- `dirset`: the image is written into the entry, and the page's translations are dropped. -/
def dirsetUnit (s : State) (c : Cmd) (f : QE) : Run :=
  let pa := creg c f.a.toNat
  let bs := leBytes 8 (creg c f.b.toNat) ++ leBytes 8 (creg c (f.b.toNat + 1))
  let drop := fun (t : State) (g : Nat) => tlbinvOn t 3 g 0
  if f.mod = 0 then
    if hbmCap s ≤ pa then .stop s 0x083 (BitVec.ofNat 64 pa)
    else
      let i := pa / 65536
      let g := ownDev s * 2 ^ 46 + pa
      if (dirAt s i).st = 3 ∨ (s.busy.any fun x => decide (x.index ≤ i ∧ i < x.index + dirSize x.before / 65536)) then .stop s 0x087 (BitVec.ofNat 64 pa)
      else if !dirValid bs then .stop s 0x08F (BitVec.ofNat 64 pa)
      else .go (drop (homeWrite (drop s g) (mreg s Reg.DIRBASE + 16 * i) bs 0 none) g)
  else
    match copyEntry s pa with
    | some a => if !copyValid bs then .stop s 0x08F (BitVec.ofNat 64 pa) else .go (drop (homeWrite (drop s pa) a bs 0 none) pa)
    | none => match (if copyValid bs then copyEmpty s (leNat (bs.take 8)) else none) with
      | some a => .go (drop (homeWrite (drop s pa) a bs 0 none) pa)
      | none => .stop s 0x08F (BitVec.ofNat 64 pa)
/-- `hostinv`: shared lines at once, modified ones as their data comes back (`HOST_RECALL`). -/
def hostinvUnit (s : State) (c : Cmd) (f : QE) : Run :=
  let pa := creg c f.a.toNat
  let n := creg c f.b.toNat
  if n = 0 then .go s
  else if c.done = 0 then (if hbmCap s < pa + n then .stop s 0x083 (BitVec.ofNat 64 pa) else .go (hostDrop s pa n))
  else if hostHeld s pa n then .wait else .go s

/-- A transition command runs at its home: here, in three units, which end with the probes acknowledged and the grants sent, and with the grants acknowledged and the final entry written; or forwarded, when it waits for its home's answer (R405; log 11). -/
def pgUnit (s : State) (c : Cmd) (pa : Nat) (home : State → PgOut) (done : State → Transition → State) : Run :=
  let dev := pa / 2 ^ 46
  if c.done = 0 then
    if 2 ^ 52 ≤ pa then .stop s 0x083 (BitVec.ofNat 64 pa)
    else if dev ≠ ownDev s then
      if !reachable s dev then .stop s 0x09B (BitVec.ofNat 64 pa)
      else .go (askPeer s (engAsks (engOf s c)) { dst := dev, kind := 16, page := pa, seq := 0, aux := c.words.toNat / 2 ^ 24 % 128, data := leBytes 8 (creg c (c.words.toNat / 64 % 64)) })
    else
      let o := home s
      let t := o.causes.foldl (fun t x => noteCause t c.id x (BitVec.ofNat 64 pa)) o.s
      match transitionOf t c.id, o.causes with
      | none, x :: _ => .stop t x (BitVec.ofNat 64 pa)
      | _, _ => .go t
  else match transitionOf s c.id with
    | none => if dev ≠ ownDev s && s.awaits.any (fun a => a.cmd == some c.id) then .wait else .go s
    | some x =>
      if !transitionReady s x then .wait
      else if c.done = 1 then .go (sendGrants s x)
      else .go (done (finishTransition s x) x)

/-- One step of a privileged command. -/
def privUnit (s : State) (c : Cmd) : Run :=
  match c.op with
  | .ctxsv f => ctxsvUnit s c f
  | .ctxld f => ctxldUnit s c f
  | .tlbinv f => tlbinvUnit s c f
  | .ptwalk f => ptwalkUnit s c f
  | .pgdup f =>
    let pa := creg c f.a.toNat
    if c.done = 2 ∧ pa / 2 ^ 46 ≠ ownDev s ∧ (s.awaits.any fun a => a.cmd == some c.id) = false then .go { cmdResult s c f.d.toNat (Config.unstated s.fresh).toNat with fresh := s.fresh + 1 }
    else pgUnit s c pa (fun s => pgdupHome s c.id pa (creg c f.b.toNat)) fun s x => cmdResult s c f.d.toNat x.after.set.toNat
  | .pgcol f => let pa := creg c f.a.toNat; pgUnit s c pa (fun s => pgcolHome s c.id pa (creg c f.b.toNat)) fun s _ => s
  | .pgsplit f => let pa := creg c f.a.toNat; pgUnit s c pa (fun s => pgsplitHome s c.id pa) fun s _ => s
  | .pgjoin f => let pa := creg c f.a.toNat; pgUnit s c pa (fun s => pgjoinHome s pa) fun s _ => s
  | .pgmig f => let pa := creg c f.a.toNat; pgUnit s c pa (fun s => pgmigHome s c.id pa (creg c f.b.toNat)) fun s _ => s
  | .dirq f => dirqUnit s c f
  | .dirset f => dirsetUnit s c f
  | .hostinv f => hostinvUnit s c f
  | _ => .go s

end Sys2Proof.Machine
end

