-- ==== Sys2Proof/Machine/CommandEvents.lean ====
section
/-! DEFINITION. The events of engine commands: starts (11 R286, 12 R313), plane loads (11 R287), the units a command proceeds by, and completion (09 R224, 12 R325, 13 R350). -/

namespace Sys2Proof.Machine

/-- One step of a command. -/
def cmdUnit (s : State) (c : Cmd) : Run :=
  if isArray c.op then arrayUnit s c
  else match c.op with
    | .rsvset _ => bulkUnit s c
    | i => if cuePriv i then privUnit s c else bulkUnit s c

/-! ### Self-checks of the units (13 R350, 11 R293, 12 R321) -/

/-- The stores of a command's operands and the arithmetic its work passes through, as the causes of their checks (log 88). -/
def unitChecks (i : Instr) : List Nat :=
  match i with
  | .arrw _ => [0x13C]
  | .tsd _ => [0x13C]
  | .txpose _ => [0x13C]
  | .arrmm f => 0x114 :: 0x13C :: 0x13E :: (if f.opt.getLsbD 0 then [] else [0x13D])
  | .arrmmg f => 0x114 :: 0x13C :: 0x13E :: (if f.opt.getLsbD 0 then [] else [0x13D])
  | .arrcent f => 0x114 :: 0x13C :: 0x13E :: (if f.opt.getLsbD 0 then [] else [0x13D])
  | .arrdist f => (if f.opt.getLsbD 1 then 0x116 else 0x115) :: 0x13C :: 0x13E :: (if f.opt.getLsbD 0 then [] else [0x13D])
  | .arrbest _ => [0x117, 0x13D]
  | .adrain _ => [0x13D]
  | .adrainp _ => [0x13D]
  | .adraine _ => [0x11E, 0x13D]
  | .aload f => (if f.mod = 3 then [0x13C] else []) ++ (if f.opt.getLsbD 3 then [0x13D] else [])
  | .bcp f => (if f.typ = f.dtyp then [] else [0x118, 0x119]) ++ (if f.tr then [0x11A] else []) ++ [0x15E]
  | .bexp _ => [0x11B, 0x15E]
  | .bsca f => (if f.dtyp = 1 then [0x11C] else if f.dtyp = 2 then [0x11E] else []) ++ [0x15E]
  | .mop _ => [0x11D, 0x15E]
  | .xopen _ => [0x11E, 0x15E]
  | .xclose _ => [0x11E, 0x15E]
  | .slxp _ => [0x15E]
  | i => if isBulk i then [0x15E] else []
/-- The check that fails as a command's next unit runs: its result is not written. -/
def cmdSelf (s : State) (c : Cmd) : Option Cause := s.softErrors.find? fun x => (unitChecks c.op).contains x.toNat
/-- A command stops: its first cause stands, and no further unit of it runs. -/
def stopCmd (s : State) (id : Nat) (x : Cause) (a : BitVec 64) : State := updCmd (noteCause s id x a) id fun c => { c with done := c.total }
/-- The state after one step of a started command that is not done: a failed check, the next unit, its deferred cause, or a wait. -/
def stepUnit (s : State) (id : Nat) : State :=
  match findCmd s id with
  | none => s
  | some c =>
    if !c.started || decide (c.total ≤ c.done) then s
    else match cmdSelf s c with
      | some x => stopCmd { s with softErrors := s.softErrors.erase x } id x 0
      | none => match cmdUnit s c with
        | .go t => updCmd t id fun c => { c with done := c.done + 1 }
        | .stop t x a => stopCmd t id x a
        | .wait => s
/-- Requests of a command that a peer has not answered (09 R211 class P, R224, 12 R327, R335). -/
def cmdAsking (s : State) (id : Nat) : Bool := s.awaits.any fun a => a.cmd == some id
/-- The command waits: its next unit for a page in transition, a taking, a resumption or a peer's answer; its completion for every answer. -/
def cmdWaits (s : State) (c : Cmd) : Bool :=
  if c.total ≤ c.done then cmdAsking s c.id
  else match cmdUnit s c with
    | .wait => true
    | _ => false

/-- `ENGINE_COMMAND_START` (12 R313): one of the cluster's four engines is free, earlier commands of the thread have started, and no range conflicts. -/
def bulkStartable (s : State) (c : Cmd) : Bool :=
  let cl := (engOf s c).cluster
  isBulk c.op && !c.started && decide ((s.cmds.filter fun x => isBulk x.op && x.started && (engOf s x).cluster == cl).length < 4)
    && (s.cmds.all fun x => x.started || !(x.owner == c.owner) || decide (c.id ≤ x.id) || !isBulk x.op) && !conflicted s c
/-- The oldest queued command of a cluster that may start. -/
def bulkNext (s : State) (cluster : Nat) : Option Cmd := (bulkQueue s cluster).find? (bulkStartable s)
def execEngineCommandStart (cmd : Nat) (s : State) : Host.Outcome State Fault Refusal :=
  match findCmd s cmd with
  | some c => .next (if (bulkNext s (engOf s c).cluster).map (·.id) = some cmd then updCmd s cmd fun c => { c with started := true } else s)
  | none => .next s

/-- `ARRAY_COMMAND_START` (11 R286, R287, R301): the planes swap in 0 clk; `arrmmg` reads its table. -/
def execArrayCommandStart (cmd : Nat) (s : State) : Host.Outcome State Fault Refusal :=
  match findCmd s cmd with
  | some c =>
    if !arrayStartable s c then .next s
    else
      let t := updCmd (planeSwap s c) cmd fun c => { c with started := true }
      (match c.op with
      | .arrmmg f => (match mmgStart t c f with
        | .go u => .next u
        | .stop u x a => .next (stopCmd u cmd x a)
        | .wait => .next s)
      | _ => .next t)
  | none => .next s
/-- `PLANE_LOAD` (11 R287). -/
def execPlaneLoad (cmd : Nat) (s : State) : Host.Outcome State Fault Refusal :=
  match findCmd s cmd with
  | some c =>
    if !planeLoadable s c then .next s
    else if isArrw c.op then .next (stepUnit s cmd)
    else .next (updCmd (planeFill s c) cmd fun c => { c with plane := true })
  | none => .next s

/-- `STREAM_ROW_RESULT` (11 R308): the results of a row that has entered. -/
def execStreamRowResult (cmd : Nat) (s : State) : Host.Outcome State Fault Refusal :=
  match findCmd s cmd with
  | some c => .next (if streams c.op && rowEntered c then stepUnit s cmd else s)
  | none => .next s
/-- One unit of a command of a kind, for the events that are one unit. -/
def oneUnit (s : State) (cmd : Nat) (p : Instr → Bool) : Host.Outcome State Fault Refusal :=
  match findCmd s cmd with
  | some c => .next (if p c.op then stepUnit s cmd else s)
  | none => .next s
/-- Commands of the bulk queue that proceed by 256 bytes of their destination. -/
def delivers : Instr → Bool
  | .bsca _ => false
  | i => isBulk i
/-- `DELIVERY_UNIT_ADVANCE` (12 R325). -/
def execDeliveryUnitAdvance (cmd : Nat) (s : State) : Host.Outcome State Fault Refusal := oneUnit s cmd delivers
def isDrainp : Instr → Bool
  | .adrainp _ => true
  | _ => false
def isXclose : Instr → Bool
  | .xclose _ => true
  | _ => false
/-- A unit of a command that has no event: of `adrainp`, the next row leaves (11 R306). -/
def unitOf (s : State) (cmd : Nat) : State := match findCmd s cmd with
  | some c => (match c.op with
    | .adrainp f => if c.started && decide (c.done < c.total) then drainpLeave s c f else s
    | _ => stepUnit s cmd)
  | none => s
/-- Commands that contribute to exact groups: `adraine`, and `bsca` in exact mode (12 R335). -/
def contributes : Instr → Bool
  | .adraine _ => true
  | .bsca f => f.dtyp == 2
  | _ => false
/-- `ADRAINP_ROW_ARRIVAL` (11 R306). -/
def execAdrainpRowArrival (cmd : Nat) (s : State) : Host.Outcome State Fault Refusal := oneUnit s cmd isDrainp
/-- `CONTRIBUTION_ACCEPT` (12 R335). -/
def execContributionAccept (cmd : Nat) (s : State) : Host.Outcome State Fault Refusal := oneUnit s cmd contributes
/-- `XCLOSE_AT_SLICE` (12 R336). -/
def execXcloseAtSlice (cmd : Nat) (s : State) : Host.Outcome State Fault Refusal := oneUnit s cmd isXclose

/-- A command's last advance of its counter comes with its completion (09 R224 step 4): of a global destination by the whole byte count, else by the last delivery unit (12 R325). -/
def completionCount (s : State) (c : Cmd) : State :=
  let go := fun (f : QE) (nib n : Nat) =>
    if f.cnt && c.cause.isNone then
      match cntAdvance s c f (blkCmd c f) (ceilDiv ((if !f.mc && f.dsp = 0 then n else n - (c.total - 1) * (512 / nib)) * nib) 2) with
      | .go t => t
      | .stop t x a => noteCause t c.id x a
      | .wait => s
    else s
  match c.op with
  | .bcp f => go f (typNib (cmdSlot s c f) f.dtyp) (extents (blkCmd c f))
  | .bfill f => go f (typNib (cmdSlot s c f) f.typ) (extents (blkCmd c f))
  | .bgat f => go f (typNib (cmdSlot s c f) f.typ) ((blkCmd c f).n0 * (blkCmd c f).n1)
  | .bexp f => go f (typNib (cmdSlot s c f) f.typ) (extents (blkCmd c f))
  | _ => s
/-- A copy block's outcome is noted in its queue (15 R426). -/
def blockDone (s : State) (c : Cmd) : State :=
  match c.owner with
  | .queue q n => updQueue s q fun x => { x with blocks := x.blocks.map fun (m, d, e) => if m = n then (m, true, c.cause.isSome) else (m, d, e) }
  | _ => s
/-- Completion signals of a copy queue (15 R426): values rise in order, with bit 63 for a block that failed. -/
def signalBlocks (s : State) (q : Nat) : Nat → State
  | 0 => s
  | fuel + 1 =>
    match findQueue s q with
    | some x => (match x.blocks with
      | (n, true, bad) :: r =>
        let t := updQueue s q fun y => { y with blocks := r }
        let (ok, u) := signalWrite t x.asid x.root x.signal ((n + 1) % 2 ^ 63 + (if bad then 2 ^ 63 else 0))
        signalBlocks (if ok then u else postAsync u 0x1DA (BitVec.ofNat 64 x.signal) none) q fuel
      | _ => s)
    | none => s
/-- The signals that a completed command lets its queue write. -/
def ownerSignals (s : State) (o : CmdOwner) : State :=
  match o with
  | .queue q _ => signalBlocks s q (match findQueue s q with
    | some x => x.blocks.length
    | none => 0)
  | _ => s
/-- A command may complete: every unit of it has run, and every request of it is answered. -/
def completable (s : State) (c : Cmd) : Bool := c.started && decide (c.total ≤ c.done) && !cmdAsking s c.id
/-- `COMMAND_COMPLETION` (09 R224). -/
def execCommandCompletion (cmd : Nat) (s : State) : Host.Outcome State Fault Refusal :=
  match findCmd s cmd with
  | none => .next s
  | some c =>
    if !completable s c then .next s
    else match findCmd (completionCount s c) cmd with
      | some d => .next (ownerSignals (completeCmd (blockDone (completionCount s c) d) d) d.owner)
      | none => .next s

end Sys2Proof.Machine
end

