-- ==== Sys2Proof/Machine/HostQueues.lean ====
section
/-! DEFINITION. Host queues (15 R424 to R427): enabling and disabling, the wake, launch entries and copy control blocks (12 R318), and the completion signals of copies. -/

namespace Sys2Proof.Machine

/-! ### Registers and descriptors -/

/-- Write QCTL's bits. -/
def setQctl (s : State) (q : Nat) (enable error held : Bool) : State := setQreg s q 3 (bitsOf (fun i => [enable, error, held].getD i false) 3)
def qError (s : State) (q : Nat) : Bool := (qCtl s q).testBit 1
def qHeld (s : State) (q : Nat) : Bool := (qCtl s q).testBit 2
/-- Stop a queue with a cause: HELD. -/
def qHold (s : State) (q : Nat) (cause : Cause) : State := postAsync (setQctl s q (qEnabled s q) (qError s q) true) cause (BitVec.ofNat 64 q) none

/-- The descriptor of queue q as enabling reads it (R424). The grid that the queue accepted last stays its previous one (R425). -/
def readQueue (s : State) (q : Nat) : QueueSt :=
  let a := mreg s Reg.HQBASE + 64 * q
  let n := fun o k => homeNat s (a + o) k
  let fl := n 0xF 1
  { q := q, base := n 0 8, slots := n 8 4, kind := n 0xC 1, prio := n 0xD 1, weight := n 0xE 1
    serial := fl.testBit 0, faulted := false, svc := fl.testBit 1, wake := fl.testBit 2, vers := fl.testBit 3, keys := fl.testBit 4
    owner := BitVec.ofNat 16 (n 0x10 2), asid := BitVec.ofNat 16 (n 0x12 2), cluster := n 0x14 1, root := n 0x18 8, signal := n 0x20 8
    cur := (findQueue s q).bind (·.cur), seen := qRidx s q, on := true, blocks := [], taken := qRidx s q }
/-- The descriptor is within R424, its ROOT within 14 R395, and can be read. -/
def queueOk (s : State) (q : Nat) : Bool :=
  let a := mreg s Reg.HQBASE + 64 * q
  let x := readQueue s q
  decide (a + 64 ≤ hbmCap s) && decide (homeCaps s a 64 = CapState.good) && x.base % 256 = 0 && x.root % 4096 = 0
    && isPow2 x.slots && decide (x.slots ≤ 65536) && decide (x.kind ≤ 1) && decide (x.prio ≤ 7) && decide (1 ≤ x.weight ∧ x.weight ≤ 16)
    && decide (homeNat s (a + 0xF) 1 < 32) && decide (x.cluster ≤ 15) && homeNat s (a + 0x15) 3 = 0 && x.signal % 8 = 0 && homeNat s (a + 0x28) 24 = 0

/-- ENABLE of a queue is set and not yet acted on; blocks of an earlier enabling finish first. No queue is served before the device is ready, nor in the failed state (01 R20). -/
def enableDue (s : State) (q : Nat) : Bool := deviceReady s && qEnabled s q && !(findQueue s q).any fun x => x.on || x.blocks ≠ []
/-- What a read of n bytes of a queue's descriptor or of an entry posts when their caps fail (08 R200). -/
def postCaps (s : State) (a n q : Nat) : State := if a + n ≤ hbmCap s then postNote s (integrityCause 15 (homeCaps s a n)) (BitVec.ofNat 64 q) none else s
/-- Enabling: the descriptor is read and checked. How HELD and ERROR are cleared the spec does not say: a successful enabling clears both (DESIGN CHOICE: log 104). -/
def enableQueue (s : State) (q : Nat) : State :=
  if queueOk s q then
    let t := setQctl s q true false false
    { t with queues := t.queues.filter (fun x => x.q != q) ++ [readQueue s q] }
  else postAsync (setQctl (postCaps s (mreg s Reg.HQBASE + 64 * q) 64 q) q false true false) 0x1CF (BitVec.ofNat 64 q) none
/-- `QUEUE_ENABLE` (R424). -/
def execQueueEnable (s : State) : Host.Outcome State Fault Refusal := .next (((List.range 256).filter (enableDue s)).foldl enableQueue s)
/-- `QUEUE_DISABLE` (R424): a queue whose ENABLE is clear ends; a write of the register map has it end at once. -/
def execQueueDisable (s : State) : Host.Outcome State Fault Refusal := .next (((List.range 256).filter (disableDue s)).foldl disableQueue s)
/-- `QUEUE_SERVE` (R425): WAKE is cleared and WIDX read in one step. -/
def execQueueServe (q : Nat) (s : State) : Host.Outcome State Fault Refusal :=
  match findQueue s q with
  | none => .next s
  | some x =>
    if !deviceReady s || !x.on || qHeld s q || qWake s q = 0 then .next s
    else
      let t := updQueue (setQreg s q 0 0) q fun x => { x with seen := qWidx s q }
      .next (if x.slots < (qWidx s q + 2 ^ 32 - qRidx s q) % 2 ^ 32 then qHold t q (if x.kind = 0 then 0x1D1 else 0x1D9) else t)

/-- The queue is served and has an entry to accept. -/
def hasEntry (s : State) (x : QueueSt) : Bool := deviceReady s && x.on && !qHeld s x.q && qRidx s x.q != x.seen
/-- Take the entry: RIDX advances. -/
def takeEntry (s : State) (q : Nat) : State := updQueue (setQreg s q 2 (qRidx s q + 1)) q fun x => { x with taken := x.taken + 1 }
/-- The entry in the ring, when it can be read. -/
def entryBytes (s : State) (x : QueueSt) (n : Nat) : Option (List Byte) :=
  let a := x.base + qRidx s x.q % x.slots * n
  if a + n ≤ hbmCap s ∧ homeCaps s a n = CapState.good then some (homeBytes s a n) else none
/-- The entry's own failing caps are posted. -/
def entryNote (s : State) (x : QueueSt) (n : Nat) : State := postCaps s (x.base + qRidx s x.q % x.slots * n) n x.q

/-! ### Launch entries (R425 to R427) -/

/-- n bytes of a queue's address space, one access. -/
def queuePiece (s : State) (x : QueueSt) (b n : Nat) : Except (Option Cause) (List Byte) :=
  if 2 ^ 57 ≤ b then .error none
  else match translate s none x.asid x.root b with
    | .error f => .error (integrityCause 12 f.cap)
    | .ok t => match (match placeOf s .global t 0 false with
        | .ok loc _ => some loc
        | .wait => placeThrough s none x.asid x.root b
        | .fault _ => none) with
      | some loc => ownRead s loc n 0
      | none => .error none
/-- Bytes of a queue's address space. The windows hold nothing that a host launch could read (0x1D4 follows). -/
def queueBytes (s : State) (x : QueueSt) (a n : Nat) : Except (Option Cause) (List Byte) :=
  if windowOf a = 1 ∨ windowOf a = 2 then .ok (List.replicate n 0) else readPieces (queuePiece s x) (piecesOf a n)
/-- Addresses of a record in the local or cluster window (0x1D4). -/
def windowed (r : LaunchRec) : Bool :=
  [r.wstream, r.cstream, r.cuttab, r.whandler, r.chandler, r.pbase, r.args, r.sigaddr, r.pattern].any fun a => windowOf a = 1 || windowOf a = 2
/-- What becomes of a launch entry: its cause, or its copies. -/
def entryCheck (s : State) (x : QueueSt) : Except Reject Copies :=
  match entryBytes s x 256 with
  | none => .error ⟨0x1D0, none⟩
  | some bs =>
    let r := parseRec bs
    match launchCheck s (queueBytes s x) (.ok bs) false false with
    | .error c => .error c
    | .ok c =>
      match firstReason [(windowed r, 0x1D4), (r.versioned && !x.vers, 0x1D5), (r.ckey ≠ 0 && !x.keys, 0x1D7)] with
      | some n => .error ⟨BitVec.ofNat 9 n, none⟩
      | none => .ok c
/-- The previous grid is out of the way: it has placed its last workgroup; under SERIAL it has retired. -/
def prevDone (s : State) (x : QueueSt) : Bool :=
  match x.cur.bind (findGrid s) with
  | none => true
  | some g => g.retired || (!x.serial && !readyGrid g)
/-- A rejected entry: its cause is posted, and a readable record with SIGNAL writes 2^63 + cause (R426). -/
def rejectEntry (s : State) (x : QueueSt) (r : Reject) : State :=
  let c := r.cause
  let t := postAsync (takeEntry (postNote (entryNote s x 256) r.note (BitVec.ofNat 64 x.q) none) x.q) c (BitVec.ofNat 64 x.taken) none
  match entryBytes s x 256 with
  | none => t
  | some bs =>
    let r := parseRec bs
    if !r.signal then t
    else
      let (ok, u) := signalWrite t x.asid x.root r.sigaddr (2 ^ 63 + c.toNat)
      if ok then u else postAsync u 0x1D2 (BitVec.ofNat 64 r.sigaddr) none
/-- `LAUNCH_ENTRY_ACCEPT` (R425): the next entry is rejected, or copied and accepted as a grid of depth 1. -/
def execLaunchEntryAccept (q : Nat) (s : State) : Host.Outcome State Fault Refusal :=
  match findQueue s q with
  | none => .next s
  | some x =>
    if x.kind ≠ 0 ∨ !hasEntry s x then .next s
    else if x.serial && x.faulted then .next (qHold s q 0x1D6)
    else if !prevDone s x then .next s
    else match entryCheck s x with
      | .error c => .next (rejectEntry s x c)
      | .ok c => match allocRun s 8192 with
        | none => .next s
        | some run =>
          let t := acceptGrid s run c { depth := 1, parent := none, notify := none, queue := some q, asid := x.asid, root := x.root, owner := x.owner, svcOk := x.svc, wakeOk := x.wake, prio := x.prio }
          .next (updQueue (takeEntry t q) q fun x => { x with cur := some s.nextGrid, faulted := false })

/-! ### Copy control blocks (12 R318) -/

/-- HEAD of a block. -/
def blockHead (bs : List Byte) : Nat := leNat ((bs.drop 60).take 4)
/-- The command's fields that HEAD gives; register fields name c0 to c7. -/
def blockQE (h : Nat) : QE :=
  { l := true, d := 0, a := 0, b := 0, g := 4, mod := BitVec.ofNat 3 (h / 2 ^ 22), tok := 6, fsl := BitVec.ofNat 3 (h / 2 ^ 19), ta := 0, tb := 0, ac := 0, opt := BitVec.ofNat 15 (h / 16) }
/-- The command of a block: `bcp` or `bfill`. -/
def blockCmd (h : Nat) : Option ECmd :=
  if h / 2 ^ 25 % 128 = 0x40 then some (bcpCmd (blockQE h)) else if h / 2 ^ 25 % 128 = 0x44 then some (bfillCmd (blockQE h)) else none
/-- The block's words as the registers c0 to c7 of a command. -/
def blockCtx (bs : List Byte) : CCtx :=
  { iss := .none, c := { Cue.zero with regs := SMap.setAll [] ((List.range 8).map fun i => (i, BitVec.ofNat 64 (leNat ((bs.drop (8 * i)).take 8)))) }, k := none, g := none, pass := true, pc := 0 }
/-- The cause of a block: R427's, then the precise causes of the command itself. An OPT bit counts as undefined where the table of R320 gives the block's command no field there (DEDUCED: log 104). -/
def blockCause (s : State) (bs : List Byte) : Except Cause ECmd :=
  let h := blockHead bs
  let f := blockQE h
  match blockCmd h with
  | none => if f.ssp = 1 || f.dsp = 1 then .error 0x1DC else .error 0x1DD
  | some x =>
    let copy := decide (h / 2 ^ 25 % 128 = 0x40)
    let undef := f.opt &&& ~~~(if copy then 0x3FFF else 0x3C07) ≠ 0
    match firstReason [(f.ssp = 1 || f.dsp = 1, 0x1DC), (f.mc || f.cnt, 0x1DE), (h % 16 ≠ 0 || f.mod ≠ 0 || undef, 0x1DF),
        (f.fsl ≠ 0 && f.typ ≠ 0 && !(copy && f.dtyp = 0), 0x016), ((copy && f.ssp = 3) || f.dsp = 3, 0x01C)] with
    | some n => .error (BitVec.ofNat 9 n)
    | none => match firstC [x.c1 s (blockCtx bs), x.rest s (blockCtx bs)] with
      | some o => .error o.cause
      | none => .ok x
/-- The command that an accepted block becomes. -/
def blockCommand (s : State) (x : QueueSt) (e : ECmd) (bs : List Byte) : Cmd :=
  let c := mkCmd s (blockCtx bs) e.i e.f (e.total s (blockCtx bs)) []
  { c with owner := .queue x.q x.taken, tok := none }
/-- A rejected block counts as complete and failed. -/
def rejectBlock (s : State) (x : QueueSt) (c : Cause) : State :=
  updQueue (postAsync (takeEntry s x.q) c (BitVec.ofNat 64 x.taken) none) x.q fun y => { y with blocks := y.blocks ++ [(x.taken, true, true)] }
/-- `COPY_BLOCK_ACCEPT` (R425): the block's command enters its cluster's bulk queue, with its ranges registered. -/
def execCopyBlockAccept (q : Nat) (s : State) : Host.Outcome State Fault Refusal :=
  match findQueue s q with
  | none => .next s
  | some x =>
    if x.kind ≠ 1 ∨ !hasEntry s x ∨ 64 ≤ (bulkQueue s x.cluster).length then .next s
    else
      let reject := fun (c : Cause) => Host.Outcome.next (signalBlocks (rejectBlock s x c) q (x.blocks.length + 1))
      match entryBytes s x 64 with
      | none => Host.Outcome.next (signalBlocks (rejectBlock (entryNote s x 64) x 0x1D8) q (x.blocks.length + 1))
      | some bs => match blockCause s bs with
        | .error c => reject c
        | .ok e =>
          let ranges := e.ranges s (blockCtx bs)
          let cmd := blockCommand s x e bs
          if 64 < locksUsed s x.cluster + ranges.length ∨ (ranges.any (rangeWaits s (engOf s cmd))) then .next s
          else
            let t := updQueue (takeEntry s q) q fun y => { y with blocks := y.blocks ++ [(x.taken, false, false)] }
            let t := { t with nextId := t.nextId + 1, cmds := t.cmds ++ [cmd] }
            .next (registerLocks t (rangeLocks t (engOf t cmd) cmd.id ranges))

end Sys2Proof.Machine
end

