-- ==== Sys2Proof/Machine/HostLink.lean ====
section
/-! DEFINITION. The host's side (15 R419 to R423): register writes, host reads and writes of device memory with the host line directory (14 R406, R407), attestation (15 R434), and the report of dropped error entries (13 R361). -/

namespace Sys2Proof.Machine

/-! ### Registers (R422) -/

/-- An earlier write of the host that arrived over the same module is not performed yet: it waits for a page in X (R421). -/
def writesWait (s : State) (module : Nat) : Bool := s.inbox.any fun
  | .hostWrite w .. => w.module == module
  | .regWrite w .. => w.module == module
  | .mwakeWrite w .. => w.module == module
  | .wakeWrite w .. => w.module == module
  | _ => false
/-- A write of the host over a module, after every earlier one over it (R421). -/
def inOrder (s : State) (module : Nat) (h : Held) (t : State) : Host.Outcome State Fault Refusal := .next (if writesWait s module then { s with inbox := s.inbox ++ [h] } else t)
/-- `REGISTER_WRITE`: aligned 4- and 8-byte accesses; others are ignored. -/
def execRegisterWrite (offset : HostPlace) (bytes : Nat) (value : DWord) (s : State) : Host.Outcome State Fault Refusal :=
  inOrder s offset.module (.regWrite offset bytes value) (if (bytes = 4 ∨ bytes = 8) ∧ offset.place < 65536 then mapWrite s offset.place bytes value.toNat else s)
/-- `MWAKE_WRITE`. -/
def execMwakeWrite (stack : HostPlace) (value : DWord) (s : State) : Host.Outcome State Fault Refusal :=
  inOrder s stack.module (.mwakeWrite stack value) (if stack.place < 4 then mapWrite s (Reg.MWAKE + 8 * stack.place) 8 value.toNat else s)
/-- `QUEUE_WAKE_WRITE` (R424). -/
def execQueueWakeWrite (q : HostPlace) (value : Word) (s : State) : Host.Outcome State Fault Refusal :=
  inOrder s q.module (.wakeWrite q value) (if q.place < 256 then wakeOr s q.place value.toNat else s)
/-- A workgroup is resident in a cluster: its local store or its resources lie there. -/
def clusterBusy (s : State) (cluster : Nat) : Bool := s.wgs.any fun k => coreCluster k.core == cluster && (occupies k || !k.storedLocal)
/-- A cluster's written share differs from the one in force, and nothing is resident there. -/
def shareDue (s : State) (cluster : Nat) : Bool := mreg s Reg.WSHARE / 2 ^ (2 * cluster) % 4 ≠ (s.wshare.get cluster).toNat && !clusterBusy s cluster
/-- `WSHARE_UPDATE` (R422). -/
def execWshareUpdate (s : State) : Host.Outcome State Fault Refusal :=
  .next (((List.range 16).filter (shareDue s)).foldl (fun t c => { t with wshare := t.wshare.set c (BitVec.ofNat 2 (mreg s Reg.WSHARE / 2 ^ (2 * c))) }) s)
/-- `ERROR_QUEUE_DROP_REPORT` (13 R361). -/
def execErrorQueueDropReport (s : State) : Host.Outcome State Fault Refusal := .next (errReport s)

/-- The 32 bytes of ATTNONCE. -/
def nonceBytes (s : State) : List Byte := [0, 1, 2, 3].flatMap fun i => leBytes 8 (mreg s (Reg.ATTNONCE + 8 * i))
/-- `ATTESTATION` (R434): M and the signature over SHA3-256(M, ATTNONCE), or zeros. -/
def execAttestation (s : State) : Host.Outcome State Fault Refusal :=
  let v := mreg s Reg.ATTCTL
  if v % 4 ≠ 1 then .next s
  else
    let m := leBytes 32 s.measure.toNat
    let sig := leBytes 2420 (leNat (Config.sign (Config.sha3 (m ++ nonceBytes s))))
    let (n, t) := takeFresh s
    if Config.seedOk n then .next (setMreg (homeWrite t (v / 256) (m ++ sig) 0 (some .device)) Reg.ATTCTL (v / 4 * 4 + 3))
    else .next (postAsync (setMreg (homeWrite t (v / 256) (List.replicate 2452 0) 0 (some .device)) Reg.ATTCTL (v / 4 * 4 + 3)) 0x1FB 0 none)

/-! ### Host accesses of device memory (14 R406, R407, 15 R419 to R421) -/

/-- The lines of an interval. -/
def linesOf (pa n : Nat) : List Nat := (List.range ((pa + n + 127) / 128 - pa / 128)).map (pa / 128 + ·)
/-- The host takes a line in state v, with the line's next SEQ. -/
def hostTake (s : State) (v : BitVec 2) (line : Nat) : State :=
  match s.hostLines.find? fun h => h.line == line with
  | some h => if h.st = 2 ∨ h.st = v then s else { s with hostLines := s.hostLines.map fun h => if h.line = line then { h with st := v, seq := h.seq + 1, pend := 0 } else h }
  | none => { s with hostLines := { line := line, st := v, seq := 1, pend := 0 } :: s.hostLines }
/-- What a host access finds at the home: it waits, is refused with 0x089, or is served. -/
inductive HostFind where
  | wait | refuse | ok
  deriving DecidableEq, Repr
def hostFind (s : State) (pa n : Nat) (w : Bool) : HostFind :=
  let find := fun (p : Nat) => match (dirOf s p).st.toNat with
    | 0 => HostFind.ok
    | 1 => if w then .refuse else .ok
    | 3 => if recoveryFailed s p then .refuse else .wait
    | _ => .refuse
  if hbmCap s < pa + n ∨ n = 0 then .refuse
  else (linesOf pa n).foldl (fun a l => if a = .ok then find (128 * l) else a) .ok
/-- Granules whose caps fail as they leave the device: each is sent as poison, and the failure posted (R420). -/
def leaveCaps (s : State) (pa n : Nat) : State :=
  (granules pa n).foldl (fun t g => match integrityCause 13 (homeCap s g) with
    | some c => postAsync t c (BitVec.ofNat 64 (16 * g)) none
    | none => t) s

/-- `HOST_READ` (14 R406, R407): a read takes the line in S, a read for ownership in M. -/
def execHostRead (pa n : Nat) (own : Bool) (s : State) : Host.Outcome State Fault Refusal :=
  match hostFind s pa n own with
  | .wait => .next { s with inbox := s.inbox ++ [Held.hostRead pa n own] }
  | .refuse => .next (postAsync s 0x089 (BitVec.ofNat 64 pa) none)
  | .ok => .next (leaveCaps ((linesOf pa n).foldl (fun t l => hostTake t (if own then 2 else 1) l) (combRead s pa n 0)) pa n)
/-- `HOST_WRITE` (14 R407, 15 R420, R421): caps are generated, a partial granule is merged at home, and the host holds the line in M. -/
def execHostWrite (pa : HostPlace) (data : List Byte) (s : State) : Host.Outcome State Fault Refusal :=
  if writesWait s pa.module then .next { s with inbox := s.inbox ++ [Held.hostWrite pa data] }
  else match hostFind s pa.place data.length true with
  | .wait => .next { s with inbox := s.inbox ++ [Held.hostWrite pa data] }
  | .refuse => .next (postAsync s 0x089 (BitVec.ofNat 64 pa.place) none)
  | .ok => .next ((linesOf pa.place data.length).foldl (fun t l => hostTake t 2 l) (homeWrite s pa.place data 0 (some .host)))
/-- `HOST_RECALL` (14 R407): the host gives up a line; modified data is merged, and what the device has written since the recall was due stands over it (log 102). -/
def execHostRecall (line : Nat) (dirty : Option (List Byte)) (s : State) : Host.Outcome State Fault Refusal :=
  match s.hostLines.find? fun h => h.line == line with
  | none => .next s
  | some h =>
    if h.st = 0 then .next s
    else
      let t := match dirty with
        | some bs => if h.st = 2 ∧ bs.length = 128 ∧ 128 * line + 128 ≤ hbmCap s then homeMerge s line (~~~h.pend) (lineOf bs) 0 (some .host) else s
        | none => s
      .next { t with hostLines := t.hostLines.map fun h => if h.line = line then { h with st := 0, seq := h.seq + 1, pend := 0 } else h }

end Sys2Proof.Machine
end

