-- ==== Sys2Proof/Machine/Power.lean ====
section
/-! DEFINITION. Temperature, the governor and comb dies (15 R428 to R431), errors of comb lines (08 R194), machine checks (13 R354), and start-up (15 R432, R433). -/

namespace Sys2Proof.Machine

/-! ### Sensors (R428) -/

/-- What a die flushes in the 2 ms between its alarm and its end, at 400 GB/s (R430). -/
def flushBytes : Nat := 800000000
/-- The flush reaches a dirty line in time: it goes on from the least recently written one (R430, R431). -/
def flushReaches (l : List CombLine) (c : CombLine) : Bool := decide (dirtyBytes (l.filter fun x => decide (x.wrote ≤ c.wrote)) ≤ flushBytes)
/-- The contracts that some lines lie in, each once, by their OWNER; lines outside every contract count as one of OWNER 0. -/
def ownersOf (s : State) (ls : List CombLine) : List Nat :=
  ((ls.map fun c => (contractOf s (128 * c.line)).map fun x => (x.idx, x.owner)).eraseDups).map fun x => match x with
    | some (_, o) => o
    | none => 0
/-- Post 0x1E5 with OWNER for each contract concerned (08 R194, R430). -/
def postLost (s : State) (ls : List CombLine) : State := (ownersOf s ls).foldl (fun t o => postAsync t 0x1E5 (BitVec.ofNat 64 o) none) s
/-- A line whose HBM image is poisoned; until the die powers off it shows its data (R430). -/
def lineLost (c : CombLine) : CombLine := { c with dirty := BitVec.allOnes 128, image := BitVec.allOnes 1024, imageSynd := BitVec.allOnes 128, lost := true }
/-- A die's ALARM (R430): unshadowed P lines, and dirty lines that no flush can reach in time, are poisoned in HBM and posted. -/
def dieAlarmed (s : State) (d : Nat) : State :=
  let mine := s.comb.filter fun c => sliceDie c.slice == d
  let saved := mine.filter fun c => !unshadowed s c.line
  let lost := fun (c : CombLine) => sliceDie c.slice == d && (unshadowed s c.line || (c.dirty ≠ 0 && !flushReaches saved c))
  postLost { s with comb := s.comb.map (fun c => if lost c then lineLost c else c), dieAlarm := s.dieAlarm ++ [(d, s.clk)] } (s.comb.filter lost)
/-- A comb die's reading: at TSHUT its alarm begins (R430). -/
def dieRead (s : State) (d : Nat) (v : BitVec 16) : State :=
  if 16 ≤ d then s
  else
    let off := Reg.DIESTAT + 8 * d
    let old := mreg s off
    let t := setMreg s off (old / 65536 * 65536 + v.toNat)
    if old / 65536 % 4 = 0 ∧ tlim s 3 ≤ v.toInt then dieAlarmed (setMreg t off (old / 2 ^ 18 * 2 ^ 18 + 65536 + v.toNat)) d else t
/-- `SENSOR_REFRESH` (R428). -/
def execSensorRefresh (cols dies : List (Nat × BitVec 16)) (s : State) : Host.Outcome State Fault Refusal :=
  .next (dies.foldl (fun t (d, v) => dieRead t d v) (cols.foldl (fun t (c, v) => colRead t c v) s))

/-! ### The governor (R429) -/

/-- `GOVERNOR_INTERVAL`: the hold follows the power of the interval; `govTicks` counts the intervals that began and ended with a hold of 7. -/
def execGovernorInterval (power : Nat) (s : State) : Host.Outcome State Fault Refusal :=
  let lim := mreg s Reg.PWRLIM
  let h := mreg s Reg.GOVHOLD % 8
  let h' := if lim < power then min 7 (h + 1) else if 100 * power < 95 * lim then h - 1 else h
  .next { setMreg (setMreg s Reg.PWRNOW power) Reg.GOVHOLD h' with govTicks := if h = 7 ∧ h' = 7 then s.govTicks + 1 else 0 }
/-- The hold has stood at 7 for 100 intervals and the power is still past the limit (R429). -/
def holdDue (s : State) : Bool := decide (100 ≤ s.govTicks ∧ mreg s Reg.PWRLIM < mreg s Reg.PWRNOW)
/-- `GOVERNOR_HOLD_LIMIT`. -/
def execGovernorHoldLimit (s : State) : Host.Outcome State Fault Refusal :=
  .next (if holdDue s then postAsync { s with govTicks := 0 } 0x1F9 (BitVec.ofNat 64 (mreg s Reg.PWRNOW)) none else s)

/-! ### Lost lines (08 R194) -/

/-- The OWNER of a line's contract; 0 outside every contract. -/
def lineOwnerId (s : State) (line : Nat) : Nat := match contractOf s (128 * line) with
  | some c => c.owner
  | none => 0
def combGone (s : State) (line : Nat) : State := { s with comb := s.comb.filter fun c => c.line != line }
/-- Poison a line at home and in HBM. -/
def poisonLine (s : State) (line : Nat) : State := combGone ((List.range 8).foldl (fun t j => poisonGranule t (8 * line + j)) s) line
/-- The version lines of tasks that stand in the comb for a line. -/
def versionsOf (s : State) (line : Nat) : List (Workgroup × VLine) := s.wgs.flatMap fun k => (k.vlines.filter fun v => v.line == line).map fun v => (k, v)
/-- A task's version line is lost (13 R351 reason 7, R365): the task is marked, and the cause escalates. -/
def versionLost (s : State) (k : Workgroup) (v : VLine) : State :=
  escalate (updWg s k.id fun k => { k with nonRestart := true }) k.id
    { cause := BitVec.ofNat 9 (0x17C + v.by_), kind := 2, task := taskOf s k, fpc := 0, rpc := 0, addr := BitVec.ofNat 64 (128 * v.line) } 0
/-- `COMB_LINE_ERROR`: a line in the comb cannot be corrected: a task's version line while there is one (log 24), else the line itself. -/
def execCombLineError (line : Nat) (s : State) : Host.Outcome State Fault Refusal :=
  if hbmCap s < 128 * line + 128 then .next s
  else if let (k, v) :: _ := versionsOf s line then .next (versionLost s k v)
  else match s.comb.find? fun c => c.line == line with
    | none => .next s
    | some c =>
      if c.dirty ≠ 0 || unshadowed s line then .next (postAsync (poisonLine s line) 0x1E5 (BitVec.ofNat 64 (lineOwnerId s line)) none)
      else .next (combGone s line)

/-! ### Comb-die shutdown and return (R430, R431) -/

/-- Reservations stand at the slice that homes their granule. -/
def rehome (s : State) : State := { s with resv := s.resv.map fun r => { r with slice := homeSlice s (16 * r.granule) } }
/-- Power a die off: its lines leave it, a lost one for its poisoned image (a line that has been pinned without an image since the alarm ends as one), its groups are lost, and its duties pass on. -/
def powerOff (s : State) (d : Nat) : State :=
  let mine := s.comb.filter fun c => sliceDie c.slice == d
  let late := mine.filter fun c => !c.lost && unshadowed s c.line
  let slices := ((s.groups.filter fun g => sliceDie g.slice == d).map (·.slice)).eraseDups
  let t := (mine.filter (·.lost)).foldl combRevert s
  let t := late.foldl (fun t c => poisonLine t c.line) t
  let t := { t with comb := t.comb.filter (fun c => !(mine.any fun m => m.line == c.line)), groups := t.groups.filter (fun g => sliceDie g.slice != d)
                    dieAlarm := t.dieAlarm.filter (fun x => x.1 != d), dieOff := d :: t.dieOff }
  let t := rehome (setMreg t (Reg.DIESTAT + 8 * d) (mreg t (Reg.DIESTAT + 8 * d) / 2 ^ 18 * 2 ^ 18 + 2 * 65536 + mreg t (Reg.DIESTAT + 8 * d) % 65536))
  let t := postLost t late
  let t := slices.foldl (fun t x => postAsync t 0x1FD (BitVec.ofNat 64 x) none) t
  postAsync t 0x1E6 (BitVec.ofNat 64 d) none
/-- `DIE_POWER_OFF`: every die whose alarm began 2 ms ago. -/
def execDiePowerOff (s : State) : Host.Outcome State Fault Refusal :=
  .next ((s.dieAlarm.filter fun x => decide (x.2 + 2 * Config.clkPerMs ≤ s.clk)).foldl (fun t x => powerOff t x.1) s)
/-- `DIE_RETURN`: dies in state 3: the substitutes flush what they hold for them, and the duties move back. -/
def execDieReturn (s : State) : Host.Outcome State Fault Refusal :=
  .next ((s.dieOff.filter fun d => mreg s (Reg.DIESTAT + 8 * d) / 65536 % 4 = 3).foldl (fun t d =>
    let off := Reg.DIESTAT + 8 * d
    let v := mreg t off
    rehome { setMreg t off (v / 2 ^ 18 * 2 ^ 18 + v % 65536) with
      comb := t.comb.filter (fun c => sliceDie (bornSlice t (128 * c.line)) != d), dieOff := t.dieOff.filter (· != d) }) s)

/-! ### Machine checks (13 R354) -/

/-- STARTUP takes the failed state with a reason (R433). -/
def startFail (s : State) (reason : Nat) : State := setMreg s Reg.STARTUP (2 + 256 * reason)
/-- A machine check by its detail: 0x1E0 is logged only; 0x1E1 meets the next instruction of the thread concerned, 0x1E9 recalls the line from the host (14 R409), 0x1E4 marks a line of an instruction cache (13 R358); a lost L1 line goes with its dirty bytes, from one of the cores that hold it (log 3); the others are posted. -/
def machineCheck (detail : BitVec 5) (addr : BitVec 64) (s : State) : State :=
  let post := fun (t : State) => postAsync t (BitVec.ofNat 9 (0x1E0 + detail.toNat)) addr none
  match detail.toNat with
  | 0 => s
  | 1 => { s with softErrors := s.softErrors ++ [0x1E1] }
  | 4 =>
    let hit := fun (l : ILine) => l.va == addr.toNat / 128 * 128
    if s.icache.any fun l => hit l && l.mark.isSome then { s with softErrors := s.softErrors ++ [0x1E4] }
    else { s with icache := s.icache.map fun l => if hit l then { l with mark := some 0x1E4 } else l }
  | 2 =>
    let hit := s.l1.filter fun (l : L1Line) => l.line == addr.toNat / 128
    post (match hit[Config.pick s.fresh % hit.length]? with
      | some x => l1Del s x.core x.line
      | none => s)
  | 9 => post (hostDrop s (addr.toNat / 128 * 128) 128)
  | 26 => post (if mreg s Reg.STARTUP % 16 = 0 then startFail s 10 else s)
  | _ => post s
/-- `MACHINE_CHECK_EVENT` (R354). -/
def execMachineCheckEvent (detail : BitVec 5) (addr : BitVec 64) (s : State) : Host.Outcome State Fault Refusal := .next (machineCheck detail addr s)

/-! ### Start-up (R432, R433, 01 R19 to R21) -/

/-- Bytes 0x000 to 0x17F of a part record. -/
def partBytes (r : PartRecord) : List Byte :=
  leBytes 4 r.magic.toNat ++ leBytes 2 r.version.toNat ++ leBytes 2 r.part.toNat ++ leBytes 8 r.serial.toNat ++ leBytes 4 r.clkmax.toNat ++ leBytes 4 r.pwrmax.toNat
    ++ leBytes 8 r.rsv0.toNat ++ leBytes 128 r.pairen.toNat ++ leBytes 128 r.sliceen.toNat ++ leBytes 32 r.hbmen.toNat ++ leBytes 2 r.peeren.toNat ++ leBytes 2 r.hosten.toNat
    ++ leBytes 60 r.rsv1.toNat
/-- Channels of an HBM stack. -/
def hbmChannels (r : PartRecord) (h : Nat) : Nat := popcountN (r.hbmen.toNat / 2 ^ (32 * h)) 32
/-- The minimum of R21. -/
def partMin (r : PartRecord) : Bool :=
  let full := r.peeren = 0xFFFF && r.hosten.toNat % 16 = 15
  if r.part = 0x9600 then full && r.pairen = BitVec.allOnes 1024 && r.sliceen = BitVec.allOnes 1024 && r.hbmen = BitVec.allOnes 256
  else full && decide (896 ≤ popcountN r.pairen.toNat 1024 ∧ 960 ≤ popcountN r.sliceen.toNat 1024 ∧ 7 ≤ ((List.range 8).filter fun h => hbmChannels r h = 32).length)
/-- The reason a part record is rejected for (step 1). -/
def partReason (r : PartRecord) : Option Nat :=
  firstReason [(r.magic ≠ 0x5A525052 || r.version ≠ 1 || (r.part ≠ 0x9600 && r.part ≠ 0x9400), 1), (Config.sha3 (partBytes r) ≠ r.digest, 2),
    (!Config.verify r.digest r.signature, 3), (r.rsv0 ≠ 0 || r.rsv1 ≠ 0 || decide (16 ≤ r.hosten.toNat), 4), (!partMin r, 5)]
/-- The reason a firmware image is rejected for (step 2); `body` holds header and body. -/
def imageReason (i : Image) : Option Nat :=
  firstReason [(leNat (i.body.take 4) ≠ 0x5A524657 || Config.sha3 i.body ≠ i.digest, 6), (!Config.verify i.digest i.signature, 7)]
/-- The measurement log (step 3). -/
def measureOf (f : Flash) : BitVec 256 := (f.part.digest :: f.images.map (·.digest)).foldl (fun m d => Config.sha3 (leBytes 32 m.toNat ++ leBytes 32 d.toNat)) 0
/-- Capacity C of a part record: 2 GiB a channel (01 R22). -/
def capOfPart (r : PartRecord) : Nat := popcountN r.hbmen.toNat 256 * 2 ^ 31
/-- The device configuration is invalid (R423, step 5). -/
def configBad (f : Flash) : Bool :=
  let c := capOfPart f.part
  let d := c / 4096
  !f.domain.getLsbD f.devnum.toNat
    || ((List.range 64).any fun k => f.domain.getLsbD k && k != f.devnum.toNat && (f.route.get k).toNat % 65536 = 0)
    || ((List.range 64).any fun k => (f.route.get k).toNat % 65536 &&& (65535 - f.part.peeren.toNat) ≠ 0)
    || f.dirbase % 4096 ≠ 0 || f.copybase % 1048576 ≠ 0 || decide (c < f.dirbase + d) || decide (c < f.copybase + 1048576)
    || decide (f.dirbase < f.copybase + 1048576 ∧ f.copybase < f.dirbase + d)
/-- Write the identity registers (step 5); LOCK follows their checks. -/
def writeIdentity (s : State) (f : Flash) : State :=
  let t := [(Reg.ID, 65536 + f.part.part.toNat), (Reg.HBMCAP, capOfPart f.part), (Reg.PWRLIM, f.part.pwrmax.toNat), (Reg.DEVNUM, f.devnum.toNat), (Reg.DOMAIN, f.domain.toNat),
    (Reg.DIRBASE, f.dirbase), (Reg.COPYBASE, f.copybase)].foldl (fun t (o, v) => setMreg t o v) s
  (List.range 64).foldl (fun t k => setMreg t (Reg.ROUTE + 8 * k) (if k = f.devnum.toNat then 0 else (f.route.get k).toNat % 2 ^ 24)) t
/-- Clear the comb, the directory and the copy table (step 6): unlisted bytes of the directory read as its start-up image. -/
def clearTables (s : State) (f : Flash) : State :=
  let inside := fun (a : Nat) => decide ((f.dirbase ≤ a ∧ a < f.dirbase + capOfPart f.part / 4096) ∨ (f.copybase ≤ a ∧ a < f.copybase + 1048576))
  { s with comb := [], mem := s.mem.filter (fun x => !inside x.1), memSynd := s.memSynd.filter fun x => !inside (16 * x.1) }
/-- A register of the map is a COLSTAT, by its key. -/
def isCol (k : Nat) : Bool := decide (Reg.COLSTAT / 8 ≤ k ∧ k < Reg.COLSTAT / 8 + 1024)
/-- The columns' first readings, with class 3: those that the list names, then those whose register reads 0. A sensor that the list does not name reads as its register holds (log 5). -/
def firstTemps (s : State) (cols : List (Nat × BitVec 16)) : State :=
  let t := (cols.filter fun x => decide (x.1 < 1024)).foldl (fun t (c, v) => setMreg t (Reg.COLSTAT + 8 * c) (v.toNat + 65536 * 3)) s
  if (t.mregs.filter fun x => isCol x.1).length = 1024 then t
  else ((List.range 1024).filter fun c => mreg t (Reg.COLSTAT + 8 * c) = 0).foldl (fun t c => setMreg t (Reg.COLSTAT + 8 * c) (65536 * 3)) t
/-- First readings (step 7) of every column and every die: a column's class is that of its temperature, and one in class 0 is posted (R428). -/
def firstReadings (s : State) (cols dies : List (Nat × BitVec 16)) : State :=
  let t := firstTemps s cols
  let head := fun (x : BitVec 64) => headClass t (sextN x.toNat 16)
  let hot := (t.mregs.filter fun x => isCol x.1 && head x.2 == 0).map fun x => x.1 - Reg.COLSTAT / 8
  let t := { t with mregs := (t.mregs.map fun x => if isCol x.1 then (x.1, BitVec.ofNat 64 (x.2.toNat % 65536 + 65536 * head x.2)) else x).filter fun x => x.2 ≠ 0 }
  let t := hot.foldl (fun t c => postAsync t 0x1F8 (BitVec.ofNat 64 c) none) t
  (List.range 16).foldl (fun t d => dieRead t d (match dies.reverse.find? fun x => x.1 == d with
    | some (_, v) => v
    | none => BitVec.ofNat 16 (mreg t (Reg.DIESTAT + 8 * d)))) t
/-- `START_UP` (R432): the first failure leaves the failed state with its reason. -/
def execStartUp (linksTrained hbmTrained : Bool) (cols dies : List (Nat × BitVec 16)) (s : State) : Host.Outcome State Fault Refusal :=
  let f := s.flash
  if mreg s Reg.STARTUP ≠ 0 then .next s
  else match partReason f.part with
    | some r => .next (startFail s r)
    | none =>
      let s := { s with part := f.part }
      match f.images.findSome? imageReason with
      | some r => .next (startFail s r)
      | none =>
        let s := { s with measure := measureOf f }
        if !hbmTrained then .next (startFail s 8)
        else if !linksTrained then .next (startFail s 9)
        else
          let s := { s with ports := (List.range 16).map fun p => { Port.reset p with up := f.part.peeren.getLsbD p } }
          let s := writeIdentity s f
          if configBad f then .next (startFail s 11)
          else .next (setMreg (firstReadings (clearTables (setMreg s Reg.DEVNUM (f.devnum.toNat + 256)) f) cols dies) Reg.STARTUP 1)

end Sys2Proof.Machine
end

