-- ==== Sys2Proof/Machine/Coherence.lean ====
section
/-! DEFINITION. Coherence messages as a device receives them (14 R403 to R406): accesses of peers at the home or at an owner, grants, probes, acknowledgements, forwarded commands, and the recovery of a directory entry (R409). -/

namespace Sys2Proof.Machine

/-! ### Accesses of peers (R406) -/

/-- Where a peer's access of n bytes lands: in memory of this device, at the owner, nowhere, refused with a reason of R400 (2, or 5 where the recovery of the page's entry has failed, R409), or it waits. -/
inductive PeerFind where
  | mem (pa : Nat)
  | forward (dev : Nat)
  | refuse (reason : Nat)
  | wait
  | lost
  deriving DecidableEq, Repr
def peerFind (s : State) (pa n : Nat) (w : Bool) : PeerFind :=
  let p := pa % 2 ^ 46
  if pa / 2 ^ 46 = ownDev s then
    if hbmCap s < p + n then .lost
    else
      let d := dirOf s p
      match d.st.toNat with
      | 0 => .mem p
      | 1 => if w then .refuse 2 else .mem p
      | 2 => .forward d.owner.toNat
      | 3 => if recoveryFailed s p then .refuse 5 else .wait
      | _ => .lost
  else match copyLookup s pa (if w then [2] else [1, 2]) with
    | some (big, _, l) => .mem (l / 65536 % 2 ^ 30 * 65536 + pa % (if big then 2 ^ 21 else 2 ^ 16))
    | none => .lost
/-- A reply carries 1 in bit 32 of its aux word; a refusal carries its reason there (log 28). -/
def replyAux (reason : Nat) : Nat := 2 ^ 32 + reason
/-- A peer's access goes on to the owner of its page, in the name of the peer, whom the owner answers (R406; log 28). -/
def passOn (s : State) (src : Nat) (m : Msg) : State := postMsg s { m with src := some src }
/-- `READ_MSG`: served like any access at the target's home slice; of a page in X it waits there (R405). -/
def execReadMsg (src pa n : Nat) (s : State) : Host.Outcome State Fault Refusal :=
  match peerFind s pa n false with
  | .mem p => .next (sendData (combRead s p n 0) src 1 pa 0 (replyAux 0) (homeBytes s p n) (homeSynds s p n))
  | .forward d => .next (passOn s src { dst := d, kind := 1, page := pa, seq := 0, aux := n, data := [] })
  | .wait => .next { s with inbox := s.inbox ++ [Held.read src pa n] }
  | .refuse r => .next (sendMsg s src 1 pa 0 (replyAux r) [])
  | .lost => .next s
/-- The granules whose caps a WRITE carries: those that its data cover whole, or the one of a WRITE that carries a cap alone (log 28). -/
def carriedGranules (p n : Nat) : List Nat := if n = 0 then [p / 16] else wholeGranules p n
/-- `WRITE_MSG`: merged at home, with the caps it carries; in D the home refuses a peer's write. -/
def execWriteMsg (src pa : Nat) (data : Carried) (s : State) : Host.Outcome State Fault Refusal :=
  match peerFind s pa data.bytes.length true with
  | .mem p => .next (sendMsg (putSynds (homeWrite s p data.bytes 0 (some (.peer src))) (carriedGranules p data.bytes.length) data.caps) src 2 pa 0 (replyAux 0) [])
  | .forward d => .next (passOn s src { dst := d, kind := 2, page := pa, seq := 0, aux := 0, data := data.bytes, caps := data.caps })
  | .wait => .next { s with inbox := s.inbox ++ [Held.write src pa data] }
  | .refuse r => .next (sendMsg s src 2 pa 0 (replyAux r) [])
  | .lost => .next s
/-- `ATOMIC_MSG`: the operation of R234 or R235 at its execution point, unless a granule fails its check; the old value returns. -/
def execAtomicMsg (src pa wid : Nat) (float : Bool) (aop : BitVec 6) (operand : DWord) (s : State) : Host.Outcome State Fault Refusal :=
  let n := if wid = 3 then 8 else 4
  let op := aop.toNat % 32
  if pa % n ≠ 0 then .next s
  else match peerFind s pa n true with
    | .mem p =>
      let old := homeNat s p n
      if homeCaps s p n ≠ .good then .next (sendMsg s src 3 pa 0 (replyAux 16) [])
      else
        let new := if float then (atomfNew op old operand.toNat).1 else atomNew op (8 * n) old (operand.toNat % 2 ^ (8 * n))
        .next (sendMsg (homeWrite s p (leBytes n new) 0 (some (.peer src))) src 3 pa 0 (replyAux 0) (leBytes n old))
    | .forward d => .next (passOn s src { dst := d, kind := 3, page := pa, seq := 0, aux := op + 64 * n, data := leBytes 8 operand.toNat })
    | .wait => .next { s with inbox := s.inbox ++ [Held.atomic src pa wid float aop operand] }
    | .refuse r => .next (sendMsg s src 3 pa 0 (replyAux r) [])
    | .lost => .next s
/-- An access that waited for a page in X, or behind one that did, is made again (R405). -/
def serveHeld (a : Held) (s : State) : State :=
  match (match a with
    | .hostRead pa n own => execHostRead pa n own s
    | .hostWrite pa data => execHostWrite pa data s
    | .regWrite o n v => execRegisterWrite o n v s
    | .mwakeWrite k v => execMwakeWrite k v s
    | .wakeWrite q v => execQueueWakeWrite q v s
    | .read src pa n => execReadMsg src pa n s
    | .write src pa data => execWriteMsg src pa data s
    | .atomic src pa wid float aop operand => execAtomicMsg src pa wid float aop operand s) with
  | .next t => t
  | _ => s

/-! ### Copies (R402 to R405) -/

/-- a is newer than b (R403). -/
def newer (a b : BitVec 16) : Bool := let d := (a - b).toNat; decide (1 ≤ d ∧ d ≤ 32767)
/-- The copy entry of a page in some states: whether it is of 2 MiB, its address, its LOCAL word. -/
def holderEntry (s : State) (page : Nat) (states : List Nat) : Option (Bool × Nat × Nat) := copyLookup s page states
/-- SEQ of a LOCAL word, its frame and its bytes. -/
def localSeq (l : Nat) : BitVec 16 := BitVec.ofNat 16 (l / 2 ^ 48)
def localFrame (l : Nat) : Nat := l / 65536 % 2 ^ 30 * 65536
def frameSize (big : Bool) : Nat := if big then 2 ^ 21 else 2 ^ 16
/-- Write the LOCAL word of a copy entry. -/
def setLocal (s : State) (a frame st : Nat) (seq : BitVec 16) : State := homeWrite s (a + 8) (leBytes 8 (frame + st + seq.toNat * 2 ^ 48)) 0 none
/-- The translations and L1 lines of a page and its frame leave (R405 step 3). -/
def holderDrop (s : State) (page : Nat) (e : Bool × Nat × Nat) : State :=
  let g := page / frameSize e.1 * frameSize e.1
  tlbDropPa (l1Leave (l1Leave s (2 ^ 52 + g) (frameSize e.1)) (localFrame e.2.2) (frameSize e.1)) g (frameSize e.1)
/-- Empty a copy entry. -/
def copyDrop (s : State) (page : Nat) (e : Bool × Nat × Nat) : State := setLocal (holderDrop s page e) e.2.1 (localFrame e.2.2) 0 (localSeq e.2.2)
/-- The home of a page. -/
def homeOf (page : Nat) : Nat := page / 2 ^ 46 % 64
/-- An acknowledgement to the home; aux 1 is STALE. -/
def sendAck (s : State) (page : Nat) (seq : BitVec 16) (aux : Nat) (data : List Byte) (caps : List (BitVec 16) := []) : State := sendData s (homeOf page) 6 page seq aux data caps
/-- The data and caps that an owner's copy returns; a D copy returns none. -/
def ownedData (s : State) (e : Bool × Nat × Nat) : List Byte × List (BitVec 16) :=
  if e.2.2 % 16 = 2 then (homeBytes s (localFrame e.2.2) (frameSize e.1), homeSynds s (localFrame e.2.2) (frameSize e.1)) else ([], [])

/-- `GRANT` (R404): the page's data and caps into the READY frame, or a D copy that turns to O in place; the home is sent an acknowledgement with the GRANT's SEQ (R405, 19 R460). -/
def execGrant (page : Nat) (owned : Bool) (seq : BitVec 16) (data : Option (List Byte)) (syndromes : List (BitVec 16)) (s : State) : Host.Outcome State Fault Refusal :=
  match data with
  | some bs =>
    (match holderEntry s page [3] with
    | some e =>
      if bs.length ≠ frameSize e.1 then .next s
      else
        let t := homeWrite (holderDrop s page e) (localFrame e.2.2) bs 0 none
        let t := { t with memSynd := SMap.setList t.memSynd (localFrame e.2.2 / 16) (syndromes.take (frameSize e.1 / 16)) }
        .next (sendAck (setLocal t e.2.1 (localFrame e.2.2) (if owned then 2 else 1) seq) page seq 0 [])
    | none => .next s)
  | none => match holderEntry s page [1] with
    | some e => if owned then .next (sendAck (setLocal (holderDrop s page e) e.2.1 (localFrame e.2.2) 2 seq) page seq 0 []) else .next s
    | none => .next s
/-- A probe of a holder: a copy newer than the probe answers STALE; without a copy there is nothing to drop. -/
def probed (s : State) (page : Nat) (seq : BitVec 16) (act : Bool × Nat × Nat → State) : State :=
  match holderEntry s page [1, 2] with
  | none => sendAck s page seq 0 []
  | some e => if newer (localSeq e.2.2) seq then sendAck s page (localSeq e.2.2) 1 [] else act e
/-- `PROBE_INV`. -/
def execProbeInv (page : Nat) (seq : BitVec 16) (s : State) : Host.Outcome State Fault Refusal :=
  .next (probed s page seq fun e => sendAck (copyDrop s page e) page seq 0 [])
/-- `PROBE_RECALL`: the data returns. -/
def execProbeRecall (page : Nat) (seq : BitVec 16) (s : State) : Host.Outcome State Fault Refusal :=
  .next (probed s page seq fun e =>
    let t := copyDrop s page e
    sendAck t page seq 0 (ownedData t e).1 (ownedData t e).2)
/-- Put subpage i of a 2 MiB copy into the first empty way of its set, stamped with the probe's SEQ plus 1 (R405, 19 R461); none is left. -/
def splitOne (s : State) (page : Nat) (seq : BitVec 16) (e : Bool × Nat × Nat) (i : Nat) : Option State :=
  let g := page % 2 ^ 52 / 2 ^ 21 * 2 ^ 21 + i * 65536
  (copyEmpty s g).map fun a => setLocal (homeWrite s a (leBytes 8 g) 0 none) a (localFrame e.2.2 + i * 65536) (e.2.2 % 16) (seq + 1)
/-- `PROBE_SPLIT`: up to 32 pieces; the ones dropped are named, with an owner's data (log 38). -/
def execProbeSplit (page : Nat) (seq : BitVec 16) (s : State) : Host.Outcome State Fault Refusal :=
  .next (probed s page seq fun e =>
    if !e.1 then sendAck s page seq 0 []
    else
      let (drops, t) := (List.range 32).foldl (fun (d, t) i => match splitOne t page seq e i with
        | some u => (d, u)
        | none => (d ++ [i], t)) (([] : List Nat), copyDrop s page e)
      sendAck t page seq (2 + 4 * (maskOf drops 32).toNat) (if e.2.2 % 16 = 2 then drops.flatMap fun i => homeBytes t (localFrame e.2.2 + i * 65536) 65536 else [])
        (if e.2.2 % 16 = 2 then drops.flatMap fun i => homeSynds t (localFrame e.2.2 + i * 65536) 65536 else []))
/-- `PROBE_ALL` (R409): never stale; the copy goes, owned data returns, with the SEQ held. -/
def execProbeAll (page : Nat) (home : Nat) (s : State) : Host.Outcome State Fault Refusal :=
  match holderEntry s page [1, 2] with
  | none => .next (sendMsg s home 6 page 0 0 [])
  | some e =>
    let t := copyDrop s page e
    .next (sendData t home 6 page (localSeq e.2.2) 0 (ownedData t e).1 (ownedData t e).2)

/-! ### The home (R405, R409) -/

/-- Data that an acknowledgement returns is merged at home with its caps: the whole page, or the dropped subpages in order. A recovery, which may not know the page's size, takes the size that the owner's copy has. -/
def mergeAck (s : State) (x : Transition) (data : Option Carried) (dropped : List Nat) : State :=
  let put := fun (t : State) (a n : Nat) (bs : List Byte) (caps : List (BitVec 16)) => putSynds (homeWrite t a bs 0 none) (granules a n) caps
  match data with
  | none => s
  | some ⟨bs, caps⟩ =>
    if x.cmd = 0 then (if (bs.length = 2 ^ 16 ∨ bs.length = 2 ^ 21) ∧ x.index * 65536 / bs.length * bs.length + bs.length ≤ hbmCap s then put s (x.index * 65536 / bs.length * bs.length) bs.length bs caps else s)
    else if bs.length = dirSize x.before then put s (x.index * 65536) bs.length bs caps
    else if bs.length = 65536 * dropped.length then
      ((List.range dropped.length).zip dropped).foldl (fun t (j, i) => put t (x.index * 65536 + i * 65536) 65536 ((bs.drop (65536 * j)).take 65536) ((caps.drop (4096 * j)).take 4096)) s
    else s
/-- The newest of some SEQs (R403); of none, a free value (log 26). -/
def newestSeq (s : State) : List Nat → BitVec 16
  | [] => (Config.unstated s.fresh).setWidth 16
  | q :: r => r.foldl (fun a q => if newer (BitVec.ofNat 16 q) a then BitVec.ofNat 16 q else a) (BitVec.ofNat 16 q)
/-- End of a recovery: H, with SEQ one newer than the newest answered; `drops` holds the answers. -/
def recoverFinish (s : State) (x : Transition) : State :=
  let t := setDir { s with fresh := s.fresh + 1 } x.index { x.after with seq := newestSeq s (x.drops.map (·.2)) + 1 }
  wakeInbox (postAsync { t with busy := t.busy.filter fun y => !(y.cmd = 0 && y.index == x.index) } 0x1E8 (BitVec.ofNat 64 x.index) none)
/-- `ACK`: only an acknowledgement with the awaited SEQ counts, a probe's or, once the grants are sent, a grant's; a recovery counts every one and keeps its SEQ. -/
def execAck (src page : Nat) (seq : BitVec 16) (data : Option Carried) (dropped : List Nat) (s : State) : Host.Outcome State Fault Refusal :=
  let i := page % 2 ^ 46 / 65536
  match s.busy.find? fun x => decide (x.index ≤ i ∧ i < x.index + dirSize x.before / 65536) && x.waiting.contains src && (x.cmd == 0 || x.before.seq + (if x.granted then 1 else 0) == seq) with
  | none => .next s
  | some x =>
    let y := { x with waiting := x.waiting.filter (· != src), drops := x.drops ++ (if x.cmd = 0 then [(src, seq.toNat)] else (dropped.filter (· < 32)).map fun d => (src, d)) }
    let t := mergeAck s x data dropped
    let t := { t with busy := t.busy.map fun z => if z.cmd = x.cmd ∧ z.index = x.index then y else z }
    .next (if y.cmd = 0 ∧ y.waiting = [] then recoverFinish t y else t)
/-- `DIRECTORY_ERROR_RECOVERY` (R409): the entry is held in X, and every device of the domain is probed, those too that cannot be reached now; a transition that ran on it ends with 0x093. -/
def execDirectoryErrorRecovery (index : Nat) (sizeKnown : Bool) (s : State) : Host.Outcome State Fault Refusal :=
  if hbmCap s ≤ index * 65536 then .next s
  else
    let d := dirAt s index
    let e : DirEntry := { dirRaw s index with size := if sizeKnown then (dirRaw s index).size else 0, st := 0, owner := 0, set := 0 }
    let t := (s.busy.filter fun x => x.index == index).foldl (fun t x => noteCause t x.cmd 0x093 (BitVec.ofNat 64 (index * 65536))) s
    let t := setDir { t with busy := t.busy.filter fun x => x.index != index } index (holdX d)
    let peers := (List.range 64).filter fun k => k ≠ ownDev t && (mreg t Reg.DOMAIN).testBit k
    let x : Transition := { cmd := 0, index := index, before := e, after := e, split := false, waiting := peers, grants := [], granted := false, asks := [], drops := [] }
    let t := peers.foldl (fun t k => probe t k (ownDev t * 2 ^ 46 + index * 65536) 0 3) { t with busy := t.busy ++ [x] }
    .next (if peers = [] then recoverFinish t x else t)

/-! ### Entries that fail their check (08 R200) -/

/-- The directory entry that a granule of home memory is. -/
def dirGranule (s : State) (g : Nat) : Option Nat :=
  let b := mreg s Reg.DIRBASE
  if b ≠ 0 ∧ b ≤ 16 * g ∧ 16 * g < b + hbmCap s / 4096 then some ((16 * g - b) / 16) else none
/-- The granule lies in the contract table. -/
def tableGranule (s : State) (g : Nat) : Bool := let b := mreg s Reg.CTBASE; b != 0 && decide (b ≤ 16 * g ∧ 16 * g < b + 2048)
/-- The granules of directory and contract entries whose check fails and has not been posted, or has been and holds again. -/
def entriesDue (s : State) : List Nat :=
  ((s.memSynd.map (·.1)).filter fun g => (dirGranule s g).isSome || (tableGranule s g && !s.badEntries.contains g)) ++ s.badEntries.filter fun g => homeCap s g = .good
/-- A directory or contract entry is found to fail its check: 0x0CF or 0x0DF is posted with its address, once for each failure, and a directory entry is recovered (14 R409); whether its SIZE can still be told is free. -/
def entryFound (g : Nat) (s : State) : State :=
  match integrityCause 15 (homeCap s g) with
  | none => { s with badEntries := s.badEntries.filter (· != g) }
  | some c =>
    let t := postAsync s c (BitVec.ofNat 64 (16 * g)) none
    match dirGranule s g with
    | some i => (match execDirectoryErrorRecovery i (Config.coin t.fresh) { t with fresh := t.fresh + 1 } with
      | .next u => u
      | _ => t)
    | none => if tableGranule s g then { t with badEntries := g :: t.badEntries } else s

/-- The command that an opcode forwards (R405), its operands in c0 and c1. -/
def forwardInstr (op : Nat) : Option Instr :=
  let f : QE := { l := true, d := 2, a := 0, b := 1, g := 4, mod := 0, tok := 6, fsl := 0, ta := 0, tb := 0, ac := 0, opt := 0 }
  match op with
  | 0x5E => some (.pgdup f)
  | 0x5F => some (.pgcol f)
  | 0x60 => some (.pgsplit f)
  | 0x61 => some (.pgjoin f)
  | 0x62 => some (.pgmig f)
  | _ => none
/-- `FORWARDED_COMMAND` (R405): a transition command of another device runs at the page's home. -/
def execForwardedCommand (src : Nat) (op : BitVec 7) (pa : Nat) (operand : DWord) (s : State) : Host.Outcome State Fault Refusal :=
  match forwardInstr op.toNat with
  | none => .next s
  | some i =>
    if pa / 2 ^ 46 ≠ ownDev s then .next s
    else .next { s with
      nextId := s.nextId + 1
      cmds := s.cmds ++ [{ id := s.nextId, op := i, owner := .peer src, core := 0, regs := SMap.setAll [] [(0, BitVec.ofNat 64 pa), (1, operand)], tok := none, pc := 0, words := opWords i
                           stamp := s.clk, started := true, plane := false, done := 0, total := 3, half := 0, cause := none, aux := [], buf := [], bufSynd := [], cfgs := [] }] }

end Sys2Proof.Machine
end

