-- ==== Sys2Proof/Machine/Links.lean ====
section
/-! DEFINITION. Votan links (14 R410 to R412, 15 R423): packets as they arrive, acknowledgement, forwarding, retries, ports that come up or go down, and the answers of peers. -/

namespace Sys2Proof.Machine

/-! ### Ports (R411, R423) -/

/-- A link goes down: what its retry buffer and its queue hold takes other routes, never the port it arrived on; 0x1EA is logged. -/
def portDown (s : State) (p : Nat) : State :=
  match findPort s p with
  | none => s
  | some x =>
    if !x.up then s
    else
      let t := updPort s p fun x => { x with up := false, retry := [], queue := [], retries := 0, retryAt := [] }
      postAsync ((x.retry.map (·.msg) ++ x.queue).foldl routeMsg t) 0x1EA (BitVec.ofNat 64 p) none
/-- `LINK_DOWN`. -/
def execLinkDown (port : Nat) (s : State) : Host.Outcome State Fault Refusal := .next (portDown s port)
/-- `LINK_UP` (R423, R412): sequence numbers and dictionaries start anew, and messages that had no route leave. -/
def execLinkUp (port : Nat) (s : State) : Host.Outcome State Fault Refusal :=
  match findPort s port with
  | none => .next s
  | some x =>
    if x.up || s.part.peeren.getLsbD port = false then .next s
    else
      let t := updPort { s with outbox := [] } port fun _ => { Port.reset port with up := true }
      .next (s.outbox.foldl routeMsg t)
/-- Packets acknowledged by ACKSEQ leave the retry buffer, and what they insert enters the sender's dictionary (R412). -/
def acked (x : Port) (ack : BitVec 12) : Port :=
  let n := (ack - x.acked + 1).toNat
  if n = 0 ∨ x.retry.length < n then x
  else { x with acked := x.acked + BitVec.ofNat 12 n, retry := x.retry.drop n, retries := 0, dictOut := (x.retry.take n).foldl (fun d p => dictWrite d p.ins) x.dictOut }
/-- An acknowledgement at a port: the messages that waited for room follow (R411). -/
def ackPort (s : State) (port : Nat) (ack : BitVec 12) : State := drainPort (updPort s port fun x => acked x ack) port
/-- What a message of a device to this one does that has no event of its own, and its answer (log 28): 17 a contribution (handle, index, FP32), 18 an `xopen` (address, E), 19 an `xclose` (handle, 2 E + keep), 20 a translation invalidation. -/
def ownMessage (s : State) (src kind : Nat) (gs : List (BitVec 128)) : State :=
  let g := (gs.headD 0).toNat
  let a := g % 2 ^ 64
  let n := g / 2 ^ 64 % 2 ^ 32
  let ans := fun (t : State) (cause : Option Cause) (bs : List Byte) => sendMsg t src (BitVec.ofNat 6 kind) a 0 (answerAux cause) bs
  match kind with
  | 17 => let (x, t) := contribute s a n (Fmt.f32.unpack (g / 2 ^ 96)); ans t x []
  | 18 =>
    if hbmCap s ≤ a % 2 ^ 46 then ans s (some 0x15F) []
    else (match openGroup s a n with
      | (.error x, t) => ans t (some x) []
      | (.ok h, t) => ans t none (leBytes 8 h))
  | 19 => (match closeGroup s a (n / 2) (n % 2 = 1) with
    | (.error x, t) => ans t (some x) []
    | (.ok vs, t) => ans t none (vs.flatMap fun v => leBytes 4 v))
  | 20 => ans (tlbinvOn s (g / 2 ^ 80 % 4) a (g / 2 ^ 64 % 2 ^ 16)) none []
  | _ => s

/-! ### Answers of peers (09 R211 class P, 12 R327, R334 to R336, 14 R400, R405) -/

/-- The causes that a peer may answer a command's request with: none, those of its own execution, or a refusal. -/
def answerCauses (i : Instr) : List Nat :=
  match i with
  | .bpeer _ => [0x15F]
  | .xopen _ => [0x14F, 0x15F]
  | .xclose _ => [0x150, 0x143]
  | .adraine _ => [0x150, 0x151, 0x152, 0x15F]
  | .bsca _ => [0x150, 0x151, 0x152, 0x15F]
  | .pgdup _ => [0x083, 0x08B, 0x093, 0x097, 0x09B, 0x09F]
  | .pgcol _ => [0x083, 0x093, 0x097, 0x09B]
  | .pgsplit _ => [0x083, 0x08F, 0x093, 0x097]
  | .pgjoin _ => [0x083, 0x08F, 0x093]
  | .pgmig _ => [0x083, 0x08B, 0x093, 0x097, 0x09B, 0x09F]
  | .tlbinv _ => []
  | _ => [0x089, 0x095]
/-- The cause of a command's request that no route is left for; `tlbinv` has none (14 R414). -/
def unreachedCause (i : Instr) : Option Cause := match i with
  | .tlbinv _ => none
  | _ => some (if cuePriv i then 0x09B else if isArray i && !contributes i then 0x0A7 else 0x15F)
/-- Commands of which a rejected request ends no more than itself (12 R335), and `pgdup`, which grants the other devices (14 R416). -/
def goesOn (i : Instr) (x : Cause) (reach : Bool) : Bool := contributes i || match i with
  | .pgdup _ => reach && (x == 0x08B || x == 0x09B)
  | _ => false
/-- What a transition at a page's home has this device do is done, when the home says that it is over: it has awaited this device's acknowledgements (14 R405). -/
def copyFollows (s : State) (c : Cmd) : Bool :=
  let pa := creg c (c.words.toNat / 2 ^ 12 % 64)
  let k := creg c (c.words.toNat / 64 % 64)
  let holds := fun (l : List Nat) => (copyLookup s pa l).isSome
  match c.op with
  | .pgcol _ => if k = ownDev s then holds [2] else !holds [1, 2]
  | .pgmig _ => if k = ownDev s then holds [2] else !holds [2]
  | .pgdup _ => !k.testBit (ownDev s) || holds [1, 2]
  | .pgsplit _ => (match copyLookup s pa [1, 2] with
    | some (big, _) => !big
    | none => true)
  | _ => true
/-- What a peer's acceptance brings: the handle of its group, whose DEV names the peer (12 R334), or the elements of one, as free values (log 11). -/
def answerValues (s : State) (c : Cmd) : State :=
  match c.op with
  | .xopen _ => { updCmd s c.id fun y => { y with aux := y.aux ++ [peerHandle (y.aux.getD 0 0 / 2 ^ 46) (Config.unstated s.fresh).toNat] } with fresh := s.fresh + 1 }
  | .xclose f =>
    let n := extents (blkCmd c f)
    { updCmd s c.id fun y => { y with aux := (List.range n).map fun i => (Config.unstated (s.fresh + i)).toNat % 2 ^ 32 } with fresh := s.fresh + n }
  | _ => s
/-- An answered request of a command: its cause is recorded, and ends what is left of the command unless the rest goes on. A group has at most 1,024 elements (12 R333). -/
def cmdAnswered (s : State) (c : Cmd) (x : Option Cause) (reach : Bool) : State :=
  let x := match c.op, x with
    | .xclose f, none => if 1024 < extents (blkCmd c f) then some (0x143 : Cause) else none
    | _, x => x
  match x with
  | none => answerValues s c
  | some x => if goesOn c.op x reach then noteCause s c.id x 0 else stopCmd s c.id x 0
/-- The barriers of a core's workgroups, which may have waited for a peer (09 R240). -/
def coreBars (s : State) (core : Option Nat) : State :=
  (s.wgs.filter fun k => some k.core == core).foldl (fun t k => (List.range 16).foldl (fun t n => barExamine t k.id n) t) s
/-- A peer answers a request (log 11): it has done what was asked, or it refuses; a request with no route left is answered as unreachable. A barrier that waited for it is examined; what else waited goes on at its next step. -/
def answered (s : State) (tag : Nat) : State :=
  match s.awaits.find? fun a => a.tag == tag with
  | none => s
  | some a =>
    let t := { s with awaits := s.awaits.filter (fun x => x.tag != tag), fresh := s.fresh + 1 }
    let out := fun (l : List Nat) => (l[Config.pick s.fresh % (l.length + 1)]?).map (BitVec.ofNat 9)
    match a.cmd with
    | some id => (match findCmd t id with
      | some c =>
        let reach := reachable s a.dev
        let x := if reach then out (answerCauses c.op) else unreachedCause c.op
        if x = none && !copyFollows s c then s else cmdAnswered t c x reach
      | none => t)
    | none => coreBars (match (if reachable s a.dev then out [0x089, 0x095] else some (0x0A7 : Cause)) with
      | none => t
      | some x => match a.who with
        | .warp wg w ls => deferLanes t wg w ls x a.addr a.pc 0
        | .none => postAsync t x a.addr none
        | iss => deferCue t iss x a.addr a.pc 0) a.core
/-- A packet in LSEQ order is accepted: its insertions enter the dictionary, and its granules are this device's message or go on by the route of another, never back. -/
def acceptPacket (s : State) (port : Nat) (header : DWord) (d : Decoded) : State :=
  let t := updPort s port fun x => { x with inSeq := x.inSeq + 1, dictIn := dictWrite x.dictIn d.ins }
  let dst := fldN header 39 34
  let kind := fldN header 21 16
  if dst = ownDev s then ownMessage t (fldN header 33 28) kind d.granules
  else postMsg t { dst := dst, src := some (fldN header 33 28), via := some port, kind := BitVec.ofNat 6 kind, page := 0, seq := 0, aux := 0, data := d.granules.flatMap fun g => leBytes 16 g.toNat,
                   caps := (List.range d.granules.length).map fun i => BitVec.ofNat 16 (leNat ((d.rest.drop (2 * i)).take 2)) }
/-- The header of a packet, and its payload's bytes, when its flits are as many as it says and hold them (R410). -/
def openPacket (flits : List (List Byte)) : Option (DWord × List Byte) :=
  let bs := flits.flatMap (·.take 60)
  let h := BitVec.ofNat 64 (leNat (bs.take 8))
  if flits.length = fldN h 27 22 + 1 ∧ 8 + fldN h 15 0 ≤ 60 * flits.length then some (h, (bs.drop 8).take (fldN h 15 0)) else none
/-- `PACKET` (R410 to R412): a flit that fails its CRC has the awaited packet asked for again with a NAK; acknowledgements count; a packet is accepted in LSEQ order alone, and one whose payload cannot be decoded takes the link down. -/
def execPacket (port : Nat) (header rest : List Byte) (more : List (List Byte)) (s : State) : Host.Outcome State Fault Refusal :=
  let flits := (header ++ rest) :: more
  match findPort s port with
  | none => .next s
  | some x =>
    if !x.up then .next s
    else if !flits.all flitGood then .next (updPort s port fun x => { x with naks := x.naks ++ [x.inSeq] })
    else match openPacket flits with
      | none => .next s
      | some (h, payload) =>
        let t := ackPort s port (fld h 51 40)
        if fld h 63 52 ≠ x.inSeq then .next t
        else match decodePayload x.dictIn payload with
          | none => .next (portDown t port)
          | some d => .next (acceptPacket t port h d)
/-- `NAK` (R411): the packet and all later ones are sent again, bit for bit; the eighth retry in a row of the oldest takes the link down. -/
def execNak (port : Nat) (lseq : BitVec 12) (s : State) : Host.Outcome State Fault Refusal :=
  match findPort s port with
  | none => .next s
  | some x =>
    if !x.up || decide (x.retry.length ≤ (lseq - x.acked).toNat) then .next s
    else
      let n := if lseq = x.acked then x.retries + 1 else 1
      let t := updPort (ackPort s port (lseq - 1)) port fun x => { x with retries := n, retryAt := x.retryAt ++ [s.clk] }
      .next (if 8 ≤ n then portDown t port else t)
/-- Sixteen retries of a port within 1 ms. -/
def retryDue (s : State) (p : Port) : Bool := decide (16 ≤ (p.retryAt.filter fun t => decide (s.clk < t + Config.clkPerMs)).length)
/-- `LINK_RETRY_THRESHOLD` (R411). -/
def execLinkRetryThreshold (s : State) : Host.Outcome State Fault Refusal :=
  .next ((s.ports.filter (retryDue s)).foldl (fun t p => postAsync (updPort t p.port fun x => { x with retryAt := [] }) 0x1EB (BitVec.ofNat 64 p.port) none) s)

end Sys2Proof.Machine
end

