-- ==== Sys2Proof/Machine/Approx.lean ====
section
/-! DEFINITION. The approximate functions of 04 R112, R113. The exact cases are computed; every other result is the FREE VALUE Config.approx held to the bound of R112: a candidate outside the bound gives way to the nearest value of an enclosure; for the four functions that never fall it names the thresholds of a function that never falls (log 20). Fixed point is at scale 2^256, with an error allowance (`fxErr`). -/

namespace Sys2Proof.Machine

/-- The scale of the enclosure: 2^256 stands for 1. -/
def fxP : Nat := 256
def fxOne : Nat := 2 ^ fxP
/-- ln 2 at scale 2^256 by its series sum of 1 / (k 2^k), from term k on. -/
def ln2From (k : Nat) : Nat → Nat
  | 0 => 0
  | n + 1 => fxOne / (k * 2 ^ k) + ln2From (k + 1) n
def fxLn2 : Nat := ln2From 1 280

/-- arctan(1/x) at scale 2^512 by its series, from term k on. -/
def atanFrom (x k : Nat) : Nat → Int
  | 0 => 0
  | n + 1 =>
    let t : Int := (2 ^ 512 / ((2 * k + 1) * x ^ (2 * k + 1)) : Nat)
    (if k % 2 = 0 then t else -t) + atanFrom x (k + 1) n
/-- pi at scale 2^512 by Machin's formula. -/
def fxPi512 : Nat := (16 * atanFrom 5 0 130 - 4 * atanFrom 239 0 50).toNat

/-- The exponential series at scale 2^256: the sum of x^k / k! from term k on. -/
def expFrom (x term : Int) (k : Nat) : Nat → Int
  | 0 => 0
  | n + 1 => term + expFrom x (term * x / fxOne / (k + 1 : Nat)) (k + 1) n

/-- 2^x for x at scale 2^256, as a number at scale 2^256: 2^floor times the series of the fraction. -/
def fxExp2 (x : Int) : Int :=
  let n := x / fxOne
  let f := x % fxOne
  let y := expFrom (f * fxLn2 / fxOne) fxOne 0 70
  if 0 ≤ n then y * 2 ^ n.toNat else y / 2 ^ (-n).toNat

/-- e^x for x at scale 2^256. -/
def fxExp (x : Int) : Int := fxExp2 (x * fxOne / fxLn2)

/-- Bits of log2 of y in [1, 2) at scale 2^256 by repeated squaring. -/
def logBits (y acc : Nat) : Nat → Nat
  | 0 => acc
  | n + 1 =>
    let z := y * y / fxOne
    if z ≥ 2 * fxOne then logBits (z / 2) (2 * acc + 1) n else logBits z (2 * acc) n

/-- log2 of m · 2^e at scale 2^256, from 100 fraction bits. -/
def fxLog2 (m : Nat) (e : Int) : Int :=
  let l := Nat.log2 m
  ((l : Int) + e) * fxOne + (logBits (m * fxOne / 2 ^ l) 0 100 * 2 ^ (fxP - 100) : Nat)

/-- The alternating series of sine (k = 1) and cosine (k = 0) at scale 2^256. -/
def trigFrom (x2 term : Int) (k : Nat) : Nat → Int
  | 0 => 0
  | n + 1 => term + trigFrom x2 (-(term * x2 / fxOne) / ((k + 1) * (k + 2) : Nat)) (k + 2) n

/-- A value m · 2^e with its sign at scale 2^256. -/
def fxOf (neg : Bool) (m : Nat) (e : Int) : Int :=
  let s := e + fxP
  let y : Int := if 0 ≤ s then ((m * 2 ^ s.toNat : Nat) : Int) else ((m / 2 ^ (-s).toNat : Nat) : Int)
  if neg then -y else y

/-- sin (c = false) or cos (c = true) at scale 2^256, the argument reduced modulo 2 pi. -/
def fxTrig (c neg : Bool) (m : Nat) (e : Int) : Int :=
  let s : Int := e + 512
  let a : Int := if 0 ≤ s then ((m * 2 ^ s.toNat : Nat) : Int) else ((m / 2 ^ (-s).toNat : Nat) : Int)
  let a := if neg then -a else a
  let half : Int := fxPi512
  let r := (a + half) % (2 * half) - half
  let x : Int := r / ((2 ^ 256 : Nat) : Int)
  let x2 := x * x / fxOne
  if c then trigFrom x2 fxOne 0 60 else trigFrom x2 x 1 60

/-- The enclosed value of an approximate function of a finite non-zero argument, at scale 2^256. Functions by opcode (R112). -/
def fxFun (op : Nat) (neg : Bool) (m : Nat) (e : Int) : Int :=
  let x := fxOf neg m e
  match op with
  | 0x2D => let y : Int := ((2 ^ ((fxP : Int) - e).toNat / m : Nat) : Int); if neg then -y else y
  | 0x2E => ((isqrt (2 ^ (2 * fxP + 256) / (m * 2 ^ (e + 256).toNat)) : Nat) : Int)
  | 0x2F => fxExp2 x
  | 0x30 => fxLog2 m e
  | 0x31 => fxTrig false neg m e
  | 0x32 => fxTrig true neg m e
  | 0x33 => let t := fxExp (2 * x); (t - fxOne) * fxOne / (t + fxOne)
  | _ => if neg then (let t := fxExp x; t * fxOne / (fxOne + t)) else (fxOne : Int) * fxOne / (fxOne + fxExp (-x))

/-- ulp(y) at scale 2^256 (R112). -/
def fxUlp (y : Int) : Nat := 2 ^ (max ((Nat.log2 y.natAbs : Int) - fxP) (-126) - 23 + fxP).toNat

/-- The bound of R112 at scale 2^256 for a value y of the function at the argument m · 2^e. -/
def fxBound (op m : Nat) (e y : Int) : Nat :=
  match op with
  | 0x2D => fxUlp y
  | 0x2E => 2 * fxUlp y
  | 0x2F => 2 * fxUlp y
  | 0x30 =>
    let x := fxOf false m e
    if x < fxOne / 2 ∨ 2 * fxOne < x then 2 * fxUlp y else 2 ^ (fxP - 22)
  | 0x31 => 2 ^ (fxP - 22)
  | 0x32 => 2 ^ (fxP - 22)
  | _ => max (2 * fxUlp y) (2 ^ (fxP - 24))

/-- What the enclosure may be off by: 100 fraction bits for the logarithm, far less elsewhere. -/
def fxErr (op : Nat) (y : Int) : Nat := fxUlp y / 2 ^ 40 + (if op = 0x30 then 2 ^ 158 else 2 ^ 40)

/-- A candidate is taken when it is finite and within the bound by the enclosure's allowance. -/
def fxTake (op : Nat) (y : Int) (bound : Nat) (cand : Nat) : Bool :=
  match Fmt.f32.unpack cand with
  | .fin n m e => decide ((fxOf n m e - y).natAbs + fxErr op y ≤ bound)
  | _ => false

/-! ### The four that never fall (R112) -/

/-- Rising values have rising ranks, −0 before +0; and the bits of a rank. -/
def rank32 (b : Nat) : Nat := if b < 2 ^ 31 then 2 ^ 31 + b else 2 ^ 32 - 1 - b
def unrank32 (r : Nat) : Nat := if 2 ^ 31 ≤ r then r - 2 ^ 31 else 2 ^ 32 - 1 - r
/-- A function of a rank that never falls, bit by bit from bit n − 1 down: the next bit of the result is 1 where x has reached the threshold of the result so far with that bit. Every such function is one of these. -/
def rises (t : Nat → Nat) (x : Nat) : Nat → Nat → Nat
  | 0, acc => acc
  | n + 1, acc => rises t x n (if t (acc + 2 ^ n) ≤ x then acc + 2 ^ n else acc)
/-- What the exact results of R113 on either side of an argument of `fexp2`, `flog2`, `ftanh` or `fsigm` leave to one that never falls, at scale 2^256. For `ftanh` they also hold the side of ±0.5 on which the bound is the wider to the other side's. -/
def fxBetween (op : Nat) (neg : Bool) (m : Nat) (e y : Int) : Int × Int :=
  let one : Int := fxOne
  let pow := fun (k : Int) => if k < -149 then (0 : Int) else ((2 ^ (k + fxP).toNat : Nat) : Int)
  let kink : Int := one / 2 - ((2 ^ (fxP - 24) : Nat) : Int)
  match op with
  | 0x2F => let k := fxOf neg m e / one; (pow k, pow (k + 1))
  | 0x30 => let k := (Nat.log2 m : Int) + e; (k * one, (k + 1) * one)
  | 0x33 => if neg then (-one, if 2 * y ≤ -one then -kink else 0) else (if one ≤ 2 * y then kink else 0, one)
  | _ => if neg then (0, one / 2) else (one / 2, one)
/-- The value of one of the four: that of a function that never falls, held to the bound and to the exact results. -/
def approxRise (op : Nat) (ftz : Bool) (bits : Nat) (neg : Bool) (m : Nat) (e y : Int) : Nat :=
  let b : Int := (fxBound op m e y : Int) - fxErr op y
  let (lo, hi) := fxBetween op neg m e y
  let out := fun (rm : Nat) (v : Int) => rank32 (fOut Fmt.f32 rm false (.fin (decide (v < 0)) v.natAbs (-(fxP : Int)))).1
  let r := rises (fun mid => (Config.approx op (BitVec.ofNat 32 mid) ftz).toNat) (rank32 bits) 32 0
  unrank32 (min (out 3 (min hi (y + b))) (max (out 2 (max lo (y - b))) r))
/-- Whether R112 has the function never fall. -/
def neverFalls (op : Nat) : Bool := op == 0x2F || op == 0x30 || op == 0x33 || op == 0x34

/-- The written value and its flags for an argument of no exact case (R112): NX always, OF and UF by R97 (a written zero counts as tiny where the function's value itself is), the flush by R100. DESIGN CHOICE (log 20): where the exact value lies past the largest finite number by no more than the bound, as of `frcp` of ±2^−128 without `.ftz`, the result is ±inf with OF and NX, though the largest finite number lies within the bound too. -/
def approxFin (op : Nat) (ftz : Bool) (bits : Nat) (neg : Bool) (m : Nat) (e : Int) : Nat × Flags :=
  let y := fxFun op neg m e
  let near := fOut Fmt.f32 0 ftz (.fin (decide (y < 0)) y.natAbs (-(fxP : Int)))
  if near.1 % 2 ^ 31 = 0x7F800000 then near
  else
    let cand := (Config.approx op (BitVec.ofNat 32 bits) ftz).toNat
    let r := if neverFalls op then approxRise op ftz bits neg m e y else if fxTake op y (fxBound op m e y) cand then cand else (fOut Fmt.f32 0 false (.fin (decide (y < 0)) y.natAbs (-(fxP : Int)))).1
    let tiny := if r % 2 ^ 31 = 0 then near.2 &&& Flags.uf != 0 else decide (r % 2 ^ 31 < 2 ^ 23)
    (if tiny && ftz then r / 2 ^ 31 * 2 ^ 31 else r, Flags.nx ||| Flags.when tiny Flags.uf)

/-- The exact cases of R113 for finite arguments. `k` is the exponent when the magnitude is a power of two. -/
def approxExact (op : Nat) (ftz neg : Bool) (m : Nat) (e : Int) : Option (Nat × Flags) :=
  let pow2 := m = 2 ^ Nat.log2 m
  let k : Int := (Nat.log2 m : Int) + e
  let x := fxOf neg m e
  let r := fun (v : FVal) => some (fOut Fmt.f32 0 ftz v)
  match op with
  | 0x2D =>
    if m = 0 then some (Fmt.f32.infBits neg, Flags.dz)
    else if pow2 ∧ -126 ≤ k ∧ k ≤ 126 then r (.fin neg 1 (-k)) else none
  | 0x2E =>
    if m = 0 then some (Fmt.f32.infBits neg, Flags.dz)
    else if neg then some (Fmt.f32.nanBits, Flags.nv)
    else if pow2 ∧ k % 2 = 0 ∧ -126 ≤ k ∧ k ≤ 126 then r (.fin false 1 (-(k / 2))) else none
  | 0x2F =>
    if m = 0 then r (.fin false 1 0)
    else if 128 * fxOne ≤ x then some (Fmt.f32.infBits false, Flags.of ||| Flags.nx)
    else if x < -(150 * fxOne) then some (0, Flags.uf ||| Flags.nx)
    else if x % fxOne = 0 ∧ -149 * fxOne ≤ x then r (.fin false 1 (x / fxOne)) else none
  | 0x30 =>
    if m = 0 then some (Fmt.f32.infBits true, Flags.dz)
    else if neg then some (Fmt.f32.nanBits, Flags.nv)
    else if pow2 then r (.fin (decide (k < 0)) k.natAbs 0) else none
  | 0x31 => if m = 0 then r (.fin neg 0 0) else none
  | 0x32 => if m = 0 then r (.fin false 1 0) else none
  | 0x33 =>
    if m = 0 then r (.fin neg 0 0)
    else if 10 * fxOne ≤ x ∨ x ≤ -(10 * fxOne) then some ((fOut Fmt.f32 0 ftz (.fin neg 1 0)).1, Flags.nx) else none
  | _ =>
    if m = 0 then r (.fin false 1 (-1))
    else if 18 * fxOne ≤ x then some ((fOut Fmt.f32 0 ftz (.fin false 1 0)).1, Flags.nx)
    else if x ≤ -(104 * fxOne) then some (0, Flags.uf ||| Flags.nx) else none

/-- Results of an infinite argument (R113). -/
def approxInf (op : Nat) (neg : Bool) : Nat × Flags :=
  match op with
  | 0x2D => (Fmt.f32.signBit neg, 0)
  | 0x2E => if neg then (Fmt.f32.nanBits, Flags.nv) else (0, 0)
  | 0x2F => if neg then (0, 0) else (Fmt.f32.infBits false, 0)
  | 0x30 => if neg then (Fmt.f32.nanBits, Flags.nv) else (Fmt.f32.infBits false, 0)
  | 0x31 => (Fmt.f32.nanBits, Flags.nv)
  | 0x32 => (Fmt.f32.nanBits, Flags.nv)
  | 0x33 => (f32Bits (.fin neg 1 0), 0)
  | _ => if neg then (0, 0) else (f32Bits (.fin false 1 0), 0)

/-- The eight approximate functions (R112, R113). -/
def fpuApprox (op mod a : Nat) : Nat × Flags :=
  let ftz := ftzOf mod
  let (v, f) := fIn Fmt.f32 ftz a
  let (r, g) := match v with
    | .nan s => (Fmt.f32.nanBits, Flags.when s Flags.nv)
    | .inf n => approxInf op n
    | .fin n m e =>
      match approxExact op ftz n m e with
      | some y => y
      | none => approxFin op ftz a n m e
  (r, f ||| g)

end Sys2Proof.Machine
end

