-- ==== Sys2Proof/Machine/WarpFloat.lean ====
section
/-! DEFINITION. The meanings of the floating-point instructions (04). Each is the lane computation of Float.lean or Approx.lean under the issue rules; special functions complete later (R98). -/

namespace Sys2Proof.Machine

/-- A float instruction of MOD and three operands. -/
def fpOp (i : Instr) (fn : Nat → Nat → Nat → Nat → Nat × Flags) : WOp := elementwise i fun _ f a b c _ => fn f.m a b c

/-- `fadd` (R104). -/
def opFadd (f : VF) : WOp := fpOp (.fadd f) fpuAdd
def execFadd (f : VF) (s : State) : Host.Outcome State Fault Refusal := warpIssue (opFadd f) s
/-- `fsub` (R104). -/
def opFsub (f : VF) : WOp := fpOp (.fsub f) fpuSub
def execFsub (f : VF) (s : State) : Host.Outcome State Fault Refusal := warpIssue (opFsub f) s
/-- `fmul` (R104). -/
def opFmul (f : VF) : WOp := fpOp (.fmul f) fpuMul
def execFmul (f : VF) (s : State) : Host.Outcome State Fault Refusal := warpIssue (opFmul f) s
/-- `ffma` (R104). -/
def opFfma (f : VF) : WOp := fpOp (.ffma f) fpuFma
def execFfma (f : VF) (s : State) : Host.Outcome State Fault Refusal := warpIssue (opFfma f) s
/-- `fmin` (R105). -/
def opFmin (f : VF) : WOp := fpOp (.fmin f) (fun m a b _ => fpuMinMax false m a b)
def execFmin (f : VF) (s : State) : Host.Outcome State Fault Refusal := warpIssue (opFmin f) s
/-- `fmax` (R105). -/
def opFmax (f : VF) : WOp := fpOp (.fmax f) (fun m a b _ => fpuMinMax true m a b)
def execFmax (f : VF) (s : State) : Host.Outcome State Fault Refusal := warpIssue (opFmax f) s
/-- `fclass` (R107). -/
def opFclass (f : VF) : WOp := fpOp (.fclass f) (fun _ a _ _ => (fpuClass a, 0))
def execFclass (f : VF) (s : State) : Host.Outcome State Fault Refusal := warpIssue (opFclass f) s
/-- `frnd` (R108). -/
def opFrnd (f : VF) : WOp := fpOp (.frnd f) (fun m a _ _ => fpuRnd m a)
def execFrnd (f : VF) (s : State) : Host.Outcome State Fault Refusal := warpIssue (opFrnd f) s
/-- `fscale` (R109). -/
def opFscale (f : VF) : WOp := fpOp (.fscale f) (fun m a b _ => fpuScale m a b)
def execFscale (f : VF) (s : State) : Host.Outcome State Fault Refusal := warpIssue (opFscale f) s
/-- `fclamp` (R110). -/
def opFclamp (f : VF) : WOp := fpOp (.fclamp f) fpuClamp
def execFclamp (f : VF) (s : State) : Host.Outcome State Fault Refusal := warpIssue (opFclamp f) s
/-- `pfma` (R114). -/
def opPfma (f : VF) : WOp := fpOp (.pfma f) (fun m a b c => fpuPacked m a b c fun x y z => fFma (rmOf m) x y z)
def execPfma (f : VF) (s : State) : Host.Outcome State Fault Refusal := warpIssue (opPfma f) s
/-- `padd` (R114). -/
def opPadd (f : VF) : WOp := fpOp (.padd f) (fun m a b c => fpuPacked m a b c fun x y _ => fAdd (rmOf m) x y)
def execPadd (f : VF) (s : State) : Host.Outcome State Fault Refusal := warpIssue (opPadd f) s
/-- `pmul` (R114). -/
def opPmul (f : VF) : WOp := fpOp (.pmul f) (fun m a b c => fpuPacked m a b c fun x y _ => fMul x y)
def execPmul (f : VF) (s : State) : Host.Outcome State Fault Refusal := warpIssue (opPmul f) s
/-- `fcmp` (R106). -/
def opFcmp (f : VF) : WOp := predwise (.fcmp f) fun f a b => fpuCmp f.m (f.d.toNat / 8) a b
def execFcmp (f : VF) (s : State) : Host.Outcome State Fault Refusal := warpIssue (opFcmp f) s
/-- `fdiv` (R111). -/
def opFdiv (f : VF) : WOp := special (.fdiv f) fun f a b => fpuDiv f.m a b 0
def execFdiv (f : VF) (s : State) : Host.Outcome State Fault Refusal := warpIssue (opFdiv f) s
/-- `fsqrt` (R111). -/
def opFsqrt (f : VF) : WOp := special (.fsqrt f) fun f a _ => fpuSqrt f.m a 0 0
def execFsqrt (f : VF) (s : State) : Host.Outcome State Fault Refusal := warpIssue (opFsqrt f) s
/-- `frcp` (R112, R113). -/
def opFrcp (f : VF) : WOp := special (.frcp f) fun f a _ => fpuApprox 0x2D f.m a
def execFrcp (f : VF) (s : State) : Host.Outcome State Fault Refusal := warpIssue (opFrcp f) s
/-- `frsqrt` (R112, R113). -/
def opFrsqrt (f : VF) : WOp := special (.frsqrt f) fun f a _ => fpuApprox 0x2E f.m a
def execFrsqrt (f : VF) (s : State) : Host.Outcome State Fault Refusal := warpIssue (opFrsqrt f) s
/-- `fexp2` (R112, R113). -/
def opFexp2 (f : VF) : WOp := special (.fexp2 f) fun f a _ => fpuApprox 0x2F f.m a
def execFexp2 (f : VF) (s : State) : Host.Outcome State Fault Refusal := warpIssue (opFexp2 f) s
/-- `flog2` (R112, R113). -/
def opFlog2 (f : VF) : WOp := special (.flog2 f) fun f a _ => fpuApprox 0x30 f.m a
def execFlog2 (f : VF) (s : State) : Host.Outcome State Fault Refusal := warpIssue (opFlog2 f) s
/-- `fsin` (R112, R113). -/
def opFsin (f : VF) : WOp := special (.fsin f) fun f a _ => fpuApprox 0x31 f.m a
def execFsin (f : VF) (s : State) : Host.Outcome State Fault Refusal := warpIssue (opFsin f) s
/-- `fcos` (R112, R113). -/
def opFcos (f : VF) : WOp := special (.fcos f) fun f a _ => fpuApprox 0x32 f.m a
def execFcos (f : VF) (s : State) : Host.Outcome State Fault Refusal := warpIssue (opFcos f) s
/-- `ftanh` (R112, R113). -/
def opFtanh (f : VF) : WOp := special (.ftanh f) fun f a _ => fpuApprox 0x33 f.m a
def execFtanh (f : VF) (s : State) : Host.Outcome State Fault Refusal := warpIssue (opFtanh f) s
/-- `fsigm` (R112, R113). -/
def opFsigm (f : VF) : WOp := special (.fsigm f) fun f a _ => fpuApprox 0x34 f.m a
def execFsigm (f : VF) (s : State) : Host.Outcome State Fault Refusal := warpIssue (opFsigm f) s

end Sys2Proof.Machine
end

