-- ==== Sys2Proof/Machine/WarpFormat.lean ====
section
/-! DEFINITION. The meanings of the conversion instructions (05 R126 to R131), on the format slots of the grid. -/

namespace Sys2Proof.Machine

/-- The slot word that a C field names. -/
def slotOf (c : WCtx) (f : VF) : Word := WCtx_slot c f.slot

/-- An elementwise instruction on a bound slot: an unbound one raises 0x100 (R117). -/
def slotOp (i : Instr) (f : VF) (fn : Word → Nat → Nat → Nat → Nat × Flags) : WOp :=
  { elementwise i (fun c f a b _ _ => fn (slotOf c f) f.m a b) with rest := fun _ c => if slBound (slotOf c f) then none else some ⟨0x100, 0, c.lanes⟩ }

/-- `cvt` (R126): the conversion code is field B. -/
def opCvt (f : VF) : WOp := elementwise (.cvt f) fun _ f a _ _ old => fpuCvt f.m f.b.toNat a old
def execCvt (f : VF) (s : State) : Host.Outcome State Fault Refusal := warpIssue (opCvt f) s
/-- `qto` (R127). -/
def opQto (f : VF) : WOp := slotOp (.qto f) f fun w _ a b => quantise w a b
def execQto (f : VF) (s : State) : Host.Outcome State Fault Refusal := warpIssue (opQto f) s
/-- `qfrom` (R127). -/
def opQfrom (f : VF) : WOp := slotOp (.qfrom f) f fun w m a b => dequantise w m a b
def execQfrom (f : VF) (s : State) : Host.Outcome State Fault Refusal := warpIssue (opQfrom f) s
/-- `qpack` (R128). -/
def opQpack (f : VF) : WOp := slotOp (.qpack f) f fun w _ a b => qpackFrom w a b 0 (slGroup w)
def execQpack (f : VF) (s : State) : Host.Outcome State Fault Refusal := warpIssue (opQpack f) s
/-- `qunpk` (R128). -/
def opQunpk (f : VF) : WOp := slotOp (.qunpk f) f fun w m a b => qunpkFrom w m a b 0 (slGroup w)
def execQunpk (f : VF) (s : State) : Host.Outcome State Fault Refusal := warpIssue (opQunpk f) s
/-- `fsld` (R130): an unbound slot gives 0. -/
def opFsld (f : VF) : WOp := elementwise (.fsld f) fun c f _ _ _ _ => (slotValue (slotOf c f) f.m, 0)
def execFsld (f : VF) (s : State) : Host.Outcome State Fault Refusal := warpIssue (opFsld f) s
/-- `cvtp` (R131). -/
def opCvtp (f : VF) : WOp := elementwise (.cvtp f) fun _ f a b _ _ => fpuCvtp f.m a b
def execCvtp (f : VF) (s : State) : Host.Outcome State Fault Refusal := warpIssue (opCvtp f) s

/-- The segment of a lane for `bscl` (R129): 8 × 2^BLK lanes under SCM 2, else the warp. -/
def bsclSeg (w : Word) (W lane : Nat) : Nat := lane / (if slSCM w = 2 then min (slBlock w) W else W)

/-- The scale of one segment's values (R129): the written value and the flags of every contributor. -/
def bsclScale (w : Word) (code : Bool) (vals : List Nat) : Nat × Flags :=
  let vs := vals.map Fmt.f32.unpack
  let bad := vs.any fun v => match v with
    | .fin _ _ _ => false
    | _ => true
  if bad then (if code then scaleNan (slSCF w) else Fmt.f32.nanBits, Flags.nv)
  else
    let mx := vs.foldl (fun (b : Nat) v => match v with
      | .fin _ m e => max b (m * 2 ^ (e + 149).toNat)
      | _ => b) 0
    let (sc, val, top) := sharedScale w mx (-149)
    (if code then sc else val, Flags.when top Flags.sat)

/-- `bscl` (R129). -/
def opBscl (f : VF) : WOp :=
    { i := .bscl f
      rest := fun _ c => if !slBound (slotOf c f) then some ⟨0x100, 0, c.lanes⟩ else if slSCM (slotOf c f) = 0 then some ⟨0x101, 0, c.lanes⟩ else none
      eff := fun c s =>
        match vSpec c.W (WCtx_slot c) (.bscl f) with
        | none => s
        | some (_, v) =>
          let sw := slotOf c f
          let val := fun lane => srcVal (laneW c f lane) f v.a f.a f.pa lane
          updWarp s c.wg c.wi fun w =>
            c.cs.foldl (fun w lane =>
              let seg := c.cs.filter fun l => bsclSeg sw c.W l == bsclSeg sw c.W lane
              writeLane w f v lane (bsclScale sw (f.m == 1) (seg.map val))) w }
def execBscl (f : VF) (s : State) : Host.Outcome State Fault Refusal := warpIssue (opBscl f) s

end Sys2Proof.Machine
end

