-- ==== Sys2Proof/Machine/WarpInteger.lean ====
section
/-! DEFINITION. The meanings of the integer, logic and bit instructions (03). Each is the lane computation of Integer.lean under the issue rules. -/

namespace Sys2Proof.Machine

/-- An integer instruction of MOD and three operands; no flags (R75). -/
def intOp (i : Instr) (fn : Nat → Nat → Nat → Nat → Nat) : WOp := elementwise i fun _ f a b c _ => (fn f.m a b c, 0)

/-- `add` (R79). -/
def opAdd (f : VF) : WOp := intOp (.add f) aluAdd
def execAdd (f : VF) (s : State) : Host.Outcome State Fault Refusal := warpIssue (opAdd f) s
/-- `sub` (R79). -/
def opSub (f : VF) : WOp := intOp (.sub f) aluSub
def execSub (f : VF) (s : State) : Host.Outcome State Fault Refusal := warpIssue (opSub f) s
/-- `mul` (R79). -/
def opMul (f : VF) : WOp := intOp (.mul f) aluMul
def execMul (f : VF) (s : State) : Host.Outcome State Fault Refusal := warpIssue (opMul f) s
/-- `mulh` (R80). -/
def opMulh (f : VF) : WOp := intOp (.mulh f) aluMulh
def execMulh (f : VF) (s : State) : Host.Outcome State Fault Refusal := warpIssue (opMulh f) s
/-- `mad` (R79). -/
def opMad (f : VF) : WOp := intOp (.mad f) aluMad
def execMad (f : VF) (s : State) : Host.Outcome State Fault Refusal := warpIssue (opMad f) s
/-- `madw` (R80). -/
def opMadw (f : VF) : WOp := intOp (.madw f) aluMadw
def execMadw (f : VF) (s : State) : Host.Outcome State Fault Refusal := warpIssue (opMadw f) s
/-- `min` (R81). -/
def opMin (f : VF) : WOp := intOp (.min f) aluMin
def execMin (f : VF) (s : State) : Host.Outcome State Fault Refusal := warpIssue (opMin f) s
/-- `max` (R81). -/
def opMax (f : VF) : WOp := intOp (.max f) aluMax
def execMax (f : VF) (s : State) : Host.Outcome State Fault Refusal := warpIssue (opMax f) s
/-- `abs` (R82). -/
def opAbs (f : VF) : WOp := intOp (.abs f) aluAbs
def execAbs (f : VF) (s : State) : Host.Outcome State Fault Refusal := warpIssue (opAbs f) s
/-- `neg` (R82). -/
def opNeg (f : VF) : WOp := intOp (.neg f) aluNeg
def execNeg (f : VF) (s : State) : Host.Outcome State Fault Refusal := warpIssue (opNeg f) s
/-- `sad` (R83). -/
def opSad (f : VF) : WOp := intOp (.sad f) aluSad
def execSad (f : VF) (s : State) : Host.Outcome State Fault Refusal := warpIssue (opSad f) s
/-- `dot4` (R84). -/
def opDot4 (f : VF) : WOp := intOp (.dot4 f) aluDot4
def execDot4 (f : VF) (s : State) : Host.Outcome State Fault Refusal := warpIssue (opDot4 f) s
/-- `shl` (R85). -/
def opShl (f : VF) : WOp := intOp (.shl f) aluShl
def execShl (f : VF) (s : State) : Host.Outcome State Fault Refusal := warpIssue (opShl f) s
/-- `shr` (R85). -/
def opShr (f : VF) : WOp := intOp (.shr f) aluShr
def execShr (f : VF) (s : State) : Host.Outcome State Fault Refusal := warpIssue (opShr f) s
/-- `sar` (R85). -/
def opSar (f : VF) : WOp := intOp (.sar f) aluSar
def execSar (f : VF) (s : State) : Host.Outcome State Fault Refusal := warpIssue (opSar f) s
/-- `rot` (R85). -/
def opRot (f : VF) : WOp := intOp (.rot f) aluRot
def execRot (f : VF) (s : State) : Host.Outcome State Fault Refusal := warpIssue (opRot f) s
/-- `and` (R86). -/
def opAnd (f : VF) : WOp := intOp (.and f) aluAnd
def execAnd (f : VF) (s : State) : Host.Outcome State Fault Refusal := warpIssue (opAnd f) s
/-- `or` (R86). -/
def opOr (f : VF) : WOp := intOp (.or f) aluOr
def execOr (f : VF) (s : State) : Host.Outcome State Fault Refusal := warpIssue (opOr f) s
/-- `xor` (R86). -/
def opXor (f : VF) : WOp := intOp (.xor f) aluXor
def execXor (f : VF) (s : State) : Host.Outcome State Fault Refusal := warpIssue (opXor f) s
/-- `not` (R86). -/
def opNot (f : VF) : WOp := intOp (.not f) aluNot
def execNot (f : VF) (s : State) : Host.Outcome State Fault Refusal := warpIssue (opNot f) s
/-- `bfx` (R88). -/
def opBfx (f : VF) : WOp := intOp (.bfx f) aluBfx
def execBfx (f : VF) (s : State) : Host.Outcome State Fault Refusal := warpIssue (opBfx f) s
/-- `bfi` (R88). -/
def opBfi (f : VF) : WOp := intOp (.bfi f) aluBfi
def execBfi (f : VF) (s : State) : Host.Outcome State Fault Refusal := warpIssue (opBfi f) s
/-- `brev` (R89). -/
def opBrev (f : VF) : WOp := intOp (.brev f) aluBrev
def execBrev (f : VF) (s : State) : Host.Outcome State Fault Refusal := warpIssue (opBrev f) s
/-- `popc` (R89). -/
def opPopc (f : VF) : WOp := intOp (.popc f) aluPopc
def execPopc (f : VF) (s : State) : Host.Outcome State Fault Refusal := warpIssue (opPopc f) s
/-- `clz` (R89). -/
def opClz (f : VF) : WOp := intOp (.clz f) aluClz
def execClz (f : VF) (s : State) : Host.Outcome State Fault Refusal := warpIssue (opClz f) s
/-- `ctz` (R89). -/
def opCtz (f : VF) : WOp := intOp (.ctz f) aluCtz
def execCtz (f : VF) (s : State) : Host.Outcome State Fault Refusal := warpIssue (opCtz f) s
/-- `mov` (R92). -/
def opMov (f : VF) : WOp := intOp (.mov f) aluMov
def execMov (f : VF) (s : State) : Host.Outcome State Fault Refusal := warpIssue (opMov f) s
/-- `bool3` (R87): FN[6:0] in PARAM, FN[7] in MOD[0]. -/
def opBool3 (f : VF) : WOp := elementwise (.bool3 f) fun _ f a b c _ => (aluBool3 (f.param.toNat + 128 * (f.m % 2)) a b c, 0)
def execBool3 (f : VF) (s : State) : Host.Outcome State Fault Refusal := warpIssue (opBool3 f) s
/-- `cmp` (R90). -/
def opCmp (f : VF) : WOp := predwise (.cmp f) fun f a b => (aluCmp f.m (f.d.toNat / 8) a b, 0)
def execCmp (f : VF) (s : State) : Host.Outcome State Fault Refusal := warpIssue (opCmp f) s
/-- `sel` (R91): A where the predicate is 1, else B. -/
def opSel (f : VF) : WOp :=
    { i := .sel f
      eff := fun c s =>
        match vSpec c.W (WCtx_slot c) (.sel f) with
        | none => s
        | some (_, v) => updWarp s c.wg c.wi fun w =>
          c.cs.foldl (fun w lane =>
            let (x, y, _) := operands c f v lane
            writeLane w f v lane (if pget c.w (f.c.toNat % 8) lane then x else y, 0)) w }
def execSel (f : VF) (s : State) : Host.Outcome State Fault Refusal := warpIssue (opSel f) s
/-- `movi` (R93). -/
def opMovi (f : IF) : WOp :=
    { i := .movi f
      eff := fun c s => updWarp s c.wg c.wi fun w =>
        c.cs.foldl (fun w lane => vsetN w f.d.toNat lane (aluMovi f.b.toNat f.imm) (if f.b = 0 then 1 else 2)) w }
def execMovi (f : IF) (s : State) : Host.Outcome State Fault Refusal := warpIssue (opMovi f) s

end Sys2Proof.Machine
end

