-- ==== Sys2Proof/Machine/WarpLanes.lean ====
section
/-! DEFINITION. The meanings of the lane instructions (06 R139 to R146). -/

namespace Sys2Proof.Machine

/-- A lane instruction with a per-lane value computed from the whole group. -/
def laneOp (i : Instr) (fn : WCtx → VF → VSpec → Nat → Nat × Flags) : WOp :=
  { i := i
    eff := fun c s =>
      match vSpec c.W (WCtx_slot c) i with
      | none => s
      | some (f, v) => updWarp s c.wg c.wi fun w => c.cs.foldl (fun w lane => writeLane w f v lane (fn c f v lane)) w }

/-- `lsel` (R139). -/
def opLsel (f : VF) : WOp :=
    (laneOp (.lsel f) fun c f v lane =>
    let n := srcVal c.w f v.b f.b f.pb lane
    (laneRead c.w f.a.toNat (lselSrc (f.m % 4) (segSize c.W f) lane n) (if f.m ≥ 4 then 2 else 1), 0))
def execLsel (f : VF) (s : State) : Host.Outcome State Fault Refusal := warpIssue (opLsel f) s

/-- `patld` (R140): eight uniform registers make the 32 bytes of a table. -/
def opPatld (f : VF) : WOp :=
    { i := .patld f
      eff := fun c s =>
        if c.cs = [] then s
        else
          let bytes := leBytes 32 (sseeN c.w f.a.toNat 8)
          let t := f.d.toNat % 4
          updWarp s c.wg c.wi fun w => setTable w t bytes }
def execPatld (f : VF) (s : State) : Host.Outcome State Fault Refusal := warpIssue (opPatld f) s

/-- The value q of a contributor of `poll` (R141). -/
def pollQ (c : WCtx) (f : VF) (lane : Nat) : Bool := pget c.w (f.a.toNat % 8) lane != f.b.getLsbD 0

/-- `poll` (R141). -/
def opPoll (f : VF) : WOp :=
    { i := .poll f
      eff := fun c s =>
        let yes := c.cs.filter (pollQ c f)
        match vSpec c.W (WCtx_slot c) (.poll f) with
        | none => s
        | some (_, v) => updWarp s c.wg c.wi fun w =>
          c.cs.foldl (fun w lane =>
            match f.m with
            | 0 => pset w (f.d.toNat % 8) lane (yes.length == c.cs.length)
            | 1 => pset w (f.d.toNat % 8) lane (yes != [])
            | 2 => pset w (f.d.toNat % 8) lane (yes == [] || yes.length == c.cs.length)
            | 3 => writeLane w f v lane ((laneMask yes).toNat, 0)
            | 4 => writeLane w f v lane (yes.length, 0)
            | _ => writeLane w f v lane (match yes.head? with
              | some l => l
              | none => 0xFFFFFFFF, 0)) w }
def execPoll (f : VF) (s : State) : Host.Outcome State Fault Refusal := warpIssue (opPoll f) s

/-- `eqset` (R142). -/
def opEqset (f : VF) : WOp :=
    (laneOp (.eqset f) fun c f v lane =>
    let val := fun l => srcVal c.w f v.a f.a f.pa l
    let same := c.cs.filter fun l => val l == val lane
    (match f.m / 2 with
      | 0 => (laneMask same).toNat
      | 1 => if same.length = c.cs.length then (laneMask c.cs).toNat else 0
      | _ => (same.filter fun l => decide (l < lane)).length, 0))
def execEqset (f : VF) (s : State) : Host.Outcome State Fault Refusal := warpIssue (opEqset f) s

/-- `lead` (R143). -/
def opLead (f : VF) : WOp :=
    { i := .lead f
      eff := fun c s =>
        let yes := c.cs.filter fun l => pget c.w (f.a.toNat % 8) l
        let win := if f.m = 1 then yes.getLast? else yes.head?
        updWarp s c.wg c.wi fun w => c.cs.foldl (fun w lane => pset w (f.d.toNat % 8) lane (win == some lane)) w }
def execLead (f : VF) (s : State) : Host.Outcome State Fault Refusal := warpIssue (opLead f) s

/-- The combine of two integers and the identity of an operation (R144), on w-bit values. -/
def redInt (op w a b : Nat) : Nat :=
  let sa := sextN a w
  let sb := sextN b w
  match op with
  | 0 => (a + b) % 2 ^ w
  | 1 => if sa ≤ sb then a else b
  | 2 => if sa ≤ sb then b else a
  | 3 => min a b
  | 4 => max a b
  | 5 => a &&& b
  | 6 => a ||| b
  | _ => a ^^^ b
def redId (op w : Nat) : Nat :=
  match op with
  | 1 => 2 ^ (w - 1) - 1
  | 2 => 2 ^ (w - 1)
  | 3 => 2 ^ w - 1
  | 5 => 2 ^ w - 1
  | 9 => 0x7F800000
  | 10 => 0xFF800000
  | _ => 0

/-- The exact FP32 sum of a list, rounded once to nearest even (R145). DESIGN CHOICE: a NaN among the values decides before a pair of opposite infinities, so the pair's NV is not set then (log 96). -/
def redFsum (l : List Nat) : Nat × Flags :=
  let vs := l.map Fmt.f32.unpack
  let sig := sigFlags vs
  let pos := vs.any fun v => v == .inf false
  let neg := vs.any fun v => v == .inf true
  if vs.any FVal.isNan then (Fmt.f32.nanBits, sig)
  else if pos && neg then (Fmt.f32.nanBits, Flags.nv)
  else if pos then (Fmt.f32.infBits false, 0)
  else if neg then (Fmt.f32.infBits true, 0)
  else
    let x := vs.foldl (fun (acc : Int) v => match v with
      | .fin n m e => acc + scaled n m e (-149)
      | _ => acc) 0
    if x = 0 then (if vs.all FVal.sign && vs != [] && vs.all (fun v => match v with
        | .fin _ m _ => m == 0
        | _ => false) then Fmt.f32.signBit true else 0, 0)
    else fOut Fmt.f32 0 false (.fin (decide (x < 0)) x.natAbs (-149))

/-- Number-mode minimum or maximum of a list (R144, 04 R105). A NaN that is the one value covered gives the canonical NaN (DESIGN CHOICE: log 106). -/
def redFmm (mx : Bool) (l : List Nat) : Nat × Flags :=
  match l with
  | [] => (redId (if mx then 10 else 9) 32, 0)
  | x :: xs =>
    let vs := (x :: xs).map Fmt.f32.unpack
    let r := (vs.drop 1).foldl (fun a b => (fPick false (fun p q => if mx then fLt true q p else fLt true p q) a b).1) (Fmt.f32.unpack x)
    (f32Bits r, sigFlags vs)

/-- The combination of the values covered (R144, R145). -/
def redList (op w : Nat) (l : List Nat) : Nat × Flags :=
  if op = 8 then redFsum l
  else if op = 9 then redFmm false l
  else if op = 10 then redFmm true l
  else (l.foldl (redInt op w) (redId op w), 0)

/-- `wred` and `wscan` over the contributors of a lane's segment (R145). -/
def redLane (c : WCtx) (f : VF) (v : VSpec) (keep : Nat → Nat → Bool) (lane : Nat) : Nat × Flags :=
  let S := segSize c.W f
  let op := f.b.toNat % 16
  let w := if f.b.toNat / 16 % 2 = 1 then 64 else 32
  let ls := c.cs.filter fun l => l / S == lane / S && keep l lane
  redList op w (ls.map fun l => srcVal c.w f v.a f.a f.pa l)

/-- `wred` (R145). -/
def opWred (f : VF) : WOp := laneOp (.wred f) fun c f v lane => redLane c f v (fun _ _ => true) lane
def execWred (f : VF) (s : State) : Host.Outcome State Fault Refusal := warpIssue (opWred f) s
/-- `wscan` (R145): inclusive (MOD 0) or exclusive (MOD 1). -/
def opWscan (f : VF) : WOp := laneOp (.wscan f) fun c f v lane => redLane c f v (fun l x => if f.m = 1 then decide (l < x) else decide (l ≤ x)) lane
def execWscan (f : VF) (s : State) : Host.Outcome State Fault Refusal := warpIssue (opWscan f) s

/-- `v2s` (R146). -/
def opV2s (f : VF) : WOp :=
    { i := .v2s f
      eff := fun c s =>
        match (if f.m ≥ 2 then c.cs.getLast? else c.cs.head?), vSpec c.W (WCtx_slot c) (.v2s f) with
        | some lane, some (_, v) => updWarp s c.wg c.wi fun w => ssetN w f.d.toNat (srcVal c.w f v.a f.a f.pa lane) (1 + f.m % 2)
        | _, _ => s }
def execV2s (f : VF) (s : State) : Host.Outcome State Fault Refusal := warpIssue (opV2s f) s

end Sys2Proof.Machine
end

