-- ==== Sys2Proof/Machine/WarpTiles.lean ====
section
/-! DEFINITION. The tile collectives of the warp stream (11 R310, R311). -/

namespace Sys2Proof.Machine

/-- The tile byte of the container of register k of a lane; none beyond the tile or its scale area (R310). -/
def containerAt (g : LaunchRec) (w : DWord) (W : Nat) (f : TF) (lane k : Nat) : Option Nat :=
  let row0 := f.row0.toNat
  let col0 := f.col0.toNat
  if f.a.getLsbD 1 then
    let q := row0 * 64 + col0 + k * W + lane
    if 4 * q + 4 ≤ tScaleSize g w then some (tScaleAt g w + 4 * q) else none
  else
    let (row, ct) := if f.a.getLsbD 0 then (row0 + lane, col0 + k) else (row0 + k, col0 + lane)
    if row < tRows w ∧ 4 * ct + 4 ≤ tPitch g w then some (row * tPitch g w + 4 * ct) else none

/-- Registers of a collective. -/
def collN (f : TF) : Nat := f.b.toNat % 16 + 1

/-- The class-9 cause of a collective, lowest first (R293): unconfigured, beyond the tile, or a tile locked by an array command. -/
def collCause (s : State) (c : WCtx) (f : TF) (fill : Bool) : Option OwnC :=
  let t := f.tr.toNat
  let w := c.k.tcfg.get t
  let cmds := arrayCmds s c.wg
  let out := (List.range c.W).any fun l => (List.range (collN f)).any fun k => (containerAt c.g.lrec w c.W f l k).isNone
  let x := firstReason [
    (!c.k.tconf.contains t, 0x120), (out, 0x12D),
    (!fill && cmds.any (fun m => !isTcfg m.op && (touchOf m.op).tw.contains t), 0x130),
    (fill && cmds.any (fun m => (touchOf m.op).tr.contains t), 0x131),
    (fill && cmds.any (fun m => !isTcfg m.op && (touchOf m.op).tw.contains t), 0x132),
    (cmds.any (fun m => isTcfg m.op && (touchOf m.op).tw.contains t), 0x133)]
  x.map fun n => ⟨BitVec.ofNat 9 n, 0, c.lanes⟩

/-- The token of a TOK field. -/
def tokOf (t : BitVec 3) : Option Nat := if t.toNat < 6 then some t.toNat else none
/-- Raise or lower a token of a warp (02 R57). -/
def warpTok (w : Warp) (t : Option Nat) (up : Bool) : Warp :=
  match t with
  | some i => { w with tokens := SMap.set w.tokens i (if up then w.tokens.get i + 1 else w.tokens.get i - 1) }
  | none => w

/-- A collective: full convergence, then the containers move and the token is raised until completion. -/
def collective (i : Instr) (f : TF) (fill : Bool) : WOp :=
  { i := i
    conv := true
    rest := fun s c => collCause s c f fill
    hold := fun _ c => match tokOf f.tok with
      | some t => Warp_tok c.w t = 63
      | none => false
    eff := fun c s =>
      let w := c.k.tcfg.get f.tr.toNat
      let cells := c.cs.flatMap fun l => (List.range (collN f)).filterMap fun k => (containerAt c.g.lrec w c.W f l k).map fun a => (l, f.d.toNat + k, a)
      let writes := if fill then [] else cells.map fun (l, r, a) => (⟨l, r, BitVec.ofNat 64 (tileNat c.k w a 4)⟩ : RegWrite)
      let bytes := if fill then cells.flatMap fun (l, r, a) => (List.range 4).zip (leBytes 4 (vget c.w r l).toNat) |>.map fun (j, b) => (tGbase w * 4096 + a + j, b) else []
      let (id, t) := addFlight s (WCtx_iss c) c.pc 0 (.collective f.tr.toNat (tokOf f.tok) writes bytes)
      updWarp t c.wg c.wi fun w => { warpTok w (tokOf f.tok) true with colls := w.colls ++ [{ id := id, fill := fill, tile := f.tr.toNat, tok := tokOf f.tok }] } }

/-- `tfill` (R310). -/
def opTfill (f : TF) : WOp := collective (.tfill f) f true
def execTfill (f : TF) (s : State) : Host.Outcome State Fault Refusal := warpIssue (opTfill f) s
/-- `tread` (R310). -/
def opTread (f : TF) : WOp := collective (.tread f) f false
def execTread (f : TF) (s : State) : Host.Outcome State Fault Refusal := warpIssue (opTread f) s

/-- `COLLECTIVE_COMPLETION` (R311): the tile or the registers are written, then the token falls. A slice that has been returned is not written, and a cause of an ended warp has no thread left to wait for it (07 R159). -/
def execCollectiveCompletion (flight : Nat) (s : State) : Host.Outcome State Fault Refusal :=
  match findFlight s flight with
  | some fl => (match fl.kind, fl.who with
    | .collective tile tok writes bytes, .warp wg wi lanes =>
      let w0 := findWarp s wg wi
      let ended := w0.all (·.ended)
      let writes := writes.filter fun r => !ended && !w0.any fun w => w.returned.contains (r.lane / 32)
      let (soft, s) := if w0.any fun w => w.colls.any fun c => c.id == flight && !c.fill then softTake s 0x13C 0x13C else (none, s)
      let dfr := fun (x : Cause) => (⟨x, 0, laneMask lanes, fl.pc, some (tok.getD 6), 0, false, 0, fl.id⟩ : Deferred)
      let t := updWg s wg fun k =>
        if bytes = [] then k else bumpGen { k with tiles := SMap.setAll k.tiles bytes } tile
      let t := updWarp t wg wi fun w =>
        let w := if soft.isSome then w else writes.foldl (fun w r => vset w r.reg r.lane (r.val.setWidth 32)) w
        let w := match soft with
          | some x => if ended then w else Warp_updThreads w lanes fun th => { th with deferred := th.deferred ++ [dfr x] }
          | none => w
        { warpTok w tok false with colls := w.colls.filter fun c => !(c.id == flight) }
      let t := match soft with
        | some x => if ended then orphanCauses t wg [dfr x] else t
        | none => t
      .next (twaitExamine (dropFlight t flight) wg wi)
    | _, _ => .next s)
  | none => .next s

end Sys2Proof.Machine
end

