-- ==== Sys2Proof/Machine/Operations.lean ====
section
/-! DEFINITION. The operation of each instruction: what `exec` issues for it (Dispatch.lean), as a table. An event has none. -/

namespace Sys2Proof.Machine

/-- The operation of a warp instruction. -/
def warpOp (i : Instr) : Option WOp :=
  match i with
  | .add f => some (opAdd f)
  | .sub f => some (opSub f)
  | .mul f => some (opMul f)
  | .mulh f => some (opMulh f)
  | .mad f => some (opMad f)
  | .madw f => some (opMadw f)
  | .min f => some (opMin f)
  | .max f => some (opMax f)
  | .abs f => some (opAbs f)
  | .neg f => some (opNeg f)
  | .sad f => some (opSad f)
  | .dot4 f => some (opDot4 f)
  | .shl f => some (opShl f)
  | .shr f => some (opShr f)
  | .sar f => some (opSar f)
  | .rot f => some (opRot f)
  | .and f => some (opAnd f)
  | .or f => some (opOr f)
  | .xor f => some (opXor f)
  | .not f => some (opNot f)
  | .bool3 f => some (opBool3 f)
  | .bfx f => some (opBfx f)
  | .bfi f => some (opBfi f)
  | .brev f => some (opBrev f)
  | .popc f => some (opPopc f)
  | .clz f => some (opClz f)
  | .ctz f => some (opCtz f)
  | .cmp f => some (opCmp f)
  | .sel f => some (opSel f)
  | .mov f => some (opMov f)
  | .movi f => some (opMovi f)
  | .fadd f => some (opFadd f)
  | .fsub f => some (opFsub f)
  | .fmul f => some (opFmul f)
  | .ffma f => some (opFfma f)
  | .fmin f => some (opFmin f)
  | .fmax f => some (opFmax f)
  | .fcmp f => some (opFcmp f)
  | .fclass f => some (opFclass f)
  | .frnd f => some (opFrnd f)
  | .fscale f => some (opFscale f)
  | .fclamp f => some (opFclamp f)
  | .fdiv f => some (opFdiv f)
  | .fsqrt f => some (opFsqrt f)
  | .frcp f => some (opFrcp f)
  | .frsqrt f => some (opFrsqrt f)
  | .fexp2 f => some (opFexp2 f)
  | .flog2 f => some (opFlog2 f)
  | .fsin f => some (opFsin f)
  | .fcos f => some (opFcos f)
  | .ftanh f => some (opFtanh f)
  | .fsigm f => some (opFsigm f)
  | .pfma f => some (opPfma f)
  | .padd f => some (opPadd f)
  | .pmul f => some (opPmul f)
  | .cvt f => some (opCvt f)
  | .qto f => some (opQto f)
  | .qfrom f => some (opQfrom f)
  | .qpack f => some (opQpack f)
  | .qunpk f => some (opQunpk f)
  | .bscl f => some (opBscl f)
  | .fsld f => some (opFsld f)
  | .cvtp f => some (opCvtp f)
  | .lsel f => some (opLsel f)
  | .patld f => some (opPatld f)
  | .poll f => some (opPoll f)
  | .eqset f => some (opEqset f)
  | .wred f => some (opWred f)
  | .wscan f => some (opWscan f)
  | .lead f => some (opLead f)
  | .v2s f => some (opV2s f)
  | .tfill f => some (opTfill f)
  | .tread f => some (opTread f)
  | .ldG f => some (opLdG f)
  | .stG f => some (opStG f)
  | .ldL f => some (opLdL f)
  | .stL f => some (opStL f)
  | .ldC f => some (opLdC f)
  | .stC f => some (opStC f)
  | .ldP f => some (opLdP f)
  | .stP f => some (opStP f)
  | .pf f => some (opPf f)
  | .fe f => some (opFe f)
  | .l1wb f => some (opL1wb f)
  | .l1inv f => some (opL1inv f)
  | .kvkey f => some (opKvkey f)
  | .atom f => some (opAtom f)
  | .atomf f => some (opAtomf f)
  | .cas f => some (opCas f)
  | .ldres f => some (opLdres f)
  | .stcond f => some (opStcond f)
  | .fence f => some (opFence f)
  | .forage f => some (opForage f)
  | .bar f => some (opBar f)
  | .cntwt f => some (opCntwt f)
  | .cntadd f => some (opCntadd f)
  | .bra f => some (opBra f)
  | .brx f => some (opBrx f)
  | .call f => some (opCall f)
  | .callx f => some (opCallx f)
  | .ret f => some (opRet f)
  | .join f => some (opJoin f)
  | .dqpop f => some (opDqpop f)
  | .dqbr f => some (opDqbr f)
  | .exit f => some (opExit f)
  | .trap f => some (opTrap f)
  | .brk f => some (opBrk f)
  | .svc f => some (opSvc f)
  | .wake f => some (opWake f)
  | .sreg f => some (opSreg f)
  | .swreg f => some (opSwreg f)
  | .yield f => some (opYield f)
  | .nop f => some (opNop f)
  | .resume f => some (opResume f)
  | .twait f => some (opTwait f)
  | .illegalOpcode false w => some { i := .illegalOpcode false w, eff := fun _ s => s }
  | _ => none

/-- The operation of a cue instruction. -/
def cueOp (i : Instr) : Option COp :=
  match i with
  | .cadd f => some (opCadd f)
  | .csub f => some (opCsub f)
  | .cmul f => some (opCmul f)
  | .cmulh f => some (opCmulh f)
  | .cdiv f => some (opCdiv f)
  | .cand f => some (opCand f)
  | .cor f => some (opCor f)
  | .cxor f => some (opCxor f)
  | .cshl f => some (opCshl f)
  | .cshr f => some (opCshr f)
  | .csar f => some (opCsar f)
  | .cmin f => some (opCmin f)
  | .cmax f => some (opCmax f)
  | .cbfx f => some (opCbfx f)
  | .cbfi f => some (opCbfi f)
  | .cpopc f => some (opCpopc f)
  | .cclz f => some (opCclz f)
  | .cmov f => some (opCmov f)
  | .cli f => some (opCli f)
  | .ccmp f => some (opCcmp f)
  | .csel f => some (opCsel f)
  | .cb f => some (opCb f)
  | .cbx f => some (opCbx f)
  | .ccall f => some (opCcall f)
  | .cret f => some (opCret f)
  | .cld f => some (opCld f)
  | .cst f => some (opCst f)
  | .catom f => some (opCatom f)
  | .cfence f => some (opCfence f)
  | .dqpush f => some (opDqpush f)
  | .launch f => some (opLaunch f)
  | .wgbar f => some (opWgbar f)
  | .cwait f => some (opCwait f)
  | .cforage f => some (opCforage f)
  | .cmig f => some (opCmig f)
  | .cend f => some (opCend f)
  | .cslot f => some (opCslot f)
  | .wstat f => some (opWstat f)
  | .tcfg f => some (opTcfg f)
  | .tld f => some (opTld f)
  | .tsd f => some (opTsd f)
  | .tzero f => some (opTzero f)
  | .arrw f => some (opArrw f)
  | .arrmm f => some (opArrmm f)
  | .arrmmg f => some (opArrmmg f)
  | .arrdist f => some (opArrdist f)
  | .arrbest f => some (opArrbest f)
  | .arrcent f => some (opArrcent f)
  | .adrain f => some (opAdrain f)
  | .adrainp f => some (opAdrainp f)
  | .adraine f => some (opAdraine f)
  | .azero f => some (opAzero f)
  | .aload f => some (opAload f)
  | .txpose f => some (opTxpose f)
  | .bcp f => some (opBcp f)
  | .bgat f => some (opBgat f)
  | .bsca f => some (opBsca f)
  | .bexp f => some (opBexp f)
  | .bfill f => some (opBfill f)
  | .bpeer f => some (opBpeer f)
  | .mop f => some (opMop f)
  | .xopen f => some (opXopen f)
  | .xclose f => some (opXclose f)
  | .slxp f => some (opSlxp f)
  | .rsvfill f => some (opRsvfill f)
  | .rsvdrop f => some (opRsvdrop f)
  | .rsvq f => some (opRsvq f)
  | .kvdrop f => some (opKvdrop f)
  | .kvprio f => some (opKvprio f)
  | .rsvset f => some (opRsvset f)
  | .ctrap f => some (opCtrap f)
  | .cwake f => some (opCwake f)
  | .csreg f => some (opCsreg f)
  | .cswreg f => some (opCswreg f)
  | .cresume f => some (opCresume f)
  | .iret f => some (opIret f)
  | .chalt f => some (opChalt f)
  | .ctxsv f => some (opCtxsv f)
  | .ctxld f => some (opCtxld f)
  | .tabort f => some (opTabort f)
  | .tcommit f => some (opTcommit f)
  | .csvc f => some (opCsvc f)
  | .tlbinv f => some (opTlbinv f)
  | .ptwalk f => some (opPtwalk f)
  | .pgdup f => some (opPgdup f)
  | .pgcol f => some (opPgcol f)
  | .pgsplit f => some (opPgsplit f)
  | .pgjoin f => some (opPgjoin f)
  | .pgmig f => some (opPgmig f)
  | .dirq f => some (opDirq f)
  | .dirset f => some (opDirset f)
  | .hostinv f => some (opHostinv f)
  | .illegalOpcode true w => some { i := .illegalOpcode true w, eff := fun _ s => s }
  | _ => none

end Sys2Proof.Machine
end

