-- ==== Sys2Proof/Machine/Fetch.lean ====
section
/-! DEFINITION. Fetching (07 R157, 13 R358, 14 R398), clause headers (02 R26 to R30, 13 R346, R369), the groups of a warp and its vote (07 R148 to R153), and what a warp, a cue thread or a management core does when it takes the step. -/

namespace Sys2Proof.Machine

/-! ### Instruction-cache lines -/

/-- The instruction cache of an issuer: its pair's, or a management core's own, numbered from 1,024 (log 39). -/
def fetchUnit (s : State) (iss : Issuer) : Nat :=
  match iss with
  | .mgmt m => 1024 + m
  | i => match issuerWg s i with
    | some k => k.core / 2
    | none => 2048
def lineBase (va : Nat) : Nat := va / 128 * 128
def findILine (s : State) (unit : Nat) (asid : BitVec 16) (va : Nat) : Option ILine := s.icache.find? fun l => l.pair == unit && l.asid == asid && l.va == lineBase va
/-- The bytes of a line as a fetch reads them, or the cause it meets, and the state after the read, a failing page table posted (14 R398); none while its page is in transition. A window and the register map hold no code (log 39); a fetch carries no group key. -/
def fetchLine (s : State) (iss : Issuer) (va : Nat) : Option (Except Cause (List Byte) × State) :=
  if windowOf va ≠ 0 then some (.error (memCause .global false 2), s)
  else match placeVa s iss .global (lineBase va) 2 with
    | .wait => none
    | .fault c => some (.error c, postWalk s iss c (BitVec.ofNat 64 (lineBase va)))
    | .ok (.mreg _) _ => some (.error (memCause .global false 2), s)
    | .ok loc _ =>
      let (bs, cap, t) := behindRead s loc 128 0
      match integrityCause 8 cap with
      | some c => some (.error c, t)
      | none => some (.ok bs, t)
/-- Put a line into a cache of 128 sets of 8 ways; the oldest of a full set leaves. -/
def putILine (s : State) (l : ILine) : State :=
  let rest := s.icache.filter fun x => !(x.pair == l.pair && x.asid == l.asid && x.va == l.va)
  let set := rest.filter fun x => x.pair == l.pair && x.va / 128 % 128 == l.va / 128 % 128
  let rest := if set.length < 8 then rest else match set.getLast? with
    | some o => rest.erase o
    | none => rest
  { s with icache := l :: rest }
/-- A fill: a failing line is marked and raises nothing (13 R358). -/
def fillLine (s : State) (iss : Issuer) (va : Nat) : State :=
  let mk := fun (bs : List Byte) (m : Option Cause) => ({ pair := fetchUnit s iss, asid := (spaceOf s iss).1, va := lineBase va, data := bs, mark := m } : ILine)
  match fetchLine s iss va with
  | none => s
  | some (.ok bs, t) => putILine t (mk bs none)
  | some (.error c, t) => putILine t (mk [] (some c))
/-- `FETCH_FILL` (07 R157). -/
def execFetchFill (wg : Nat) (va : Nat) (s : State) : Host.Outcome State Fault Refusal :=
  match findWg s wg with
  | none => .next s
  | some k => .next (if va < 2 ^ 57 ∧ (findILine s (k.core / 2) (spaceOf s (.cue wg)).1 va).isNone then fillLine s (.cue wg) va else s)
/-- `TABLE_WALK` (14 R398, R399): a leaf is cached; a failed walk leaves nothing, and a cap failure of a table read is posted. -/
def execTableWalk (core asid root : Nat) (va : Nat) (s : State) : Host.Outcome State Fault Refusal :=
  match walk s root va with
  | .ok t => .next (tlbFill s core (BitVec.ofNat 16 asid) va t)
  | .error f => .next (match integrityCause 12 f.cap with
    | some c => postAsync s c (BitVec.ofNat 64 va) none
    | none => s)

/-! ### What stands at a PC -/

/-- A 4-byte word of an issuer's stream: a line that is missing, a marked one, or its bytes. -/
inductive Piece where
  | missing (va : Nat)
  | marked (va : Nat)
  | bytes (bs : List Byte)
  deriving DecidableEq, Repr
def pieceAt (s : State) (unit : Nat) (asid : BitVec 16) (va : Nat) : Piece :=
  match findILine s unit asid va with
  | none => .missing (lineBase va)
  | some l => if l.mark.isSome then .marked (lineBase va) else .bytes ((l.data.drop (va % 128)).take 4)
/-- What a thread does next: fetch a line, refetch a marked one, check a header, or issue an instruction. -/
inductive Ahead where
  | missing (va : Nat)
  | marked (va : Nat)
  | header (h : Word)
  | instr (i : Instr)
  deriving DecidableEq, Repr
/-- A word of bytes. -/
def leWord (bs : List Byte) : Word := BitVec.ofNat 32 (leNat bs)
/-- The instruction of a decoder's input. -/
def decodeAt (st : Stream) (bs : List Byte) : Ahead :=
  match decode st bs with
  | .ok (i, _) => .instr i
  | .error _ => .instr (.illegalOpcode (st == .cue) 0)
/-- What stands at a PC: a header at a clause boundary, else an instruction. A second word beyond the clause is not fetched: the instruction is truncated (02 R31). -/
def aheadOf (s : State) (unit : Nat) (asid : BitVec 16) (st : Stream) (pc : Nat) (cl : Option Clause) : Ahead :=
  match pieceAt s unit asid pc, cl with
  | .missing va, _ => .missing va
  | .marked va, _ => .marked va
  | .bytes bs, none => .header (leWord bs)
  | .bytes bs, some c =>
    if (leWord bs).getLsbD 31 && opcodeLegal st (leWord bs) then
      if c.left < 2 then decodeAt st (bs ++ [0, 0, 0, 0])
      else match pieceAt s unit asid ((pc + 4) % 2 ^ 57) with
        | .missing va => .missing va
        | .marked va => .marked va
        | .bytes b => decodeAt st (bs ++ b)
    else decodeAt st bs

/-! ### Headers (02 R26, R27) -/

/-- The first header cause of a stream, in R27's order. -/
def headerCause (cue : Bool) (cutcnt : Nat) (h : Word) : Option Cause :=
  let eng := fldN h 6 4
  let bit := if cue then 0x10 else 0
  (firstReason [(fldN h 3 0 = 0, 0x002 + bit), (if cue then decide (eng < 4 ∨ eng = 7) else decide (4 ≤ eng), 0x001 + bit),
    (fldN h 15 14 ≠ 0 || (!h.getLsbD 13 && fldN h 31 16 ≠ 0), 0x003 + bit), (h.getLsbD 13 && decide (cutcnt ≤ fldN h 31 16), 0x062)]).map (BitVec.ofNat 9)
/-- The clause that a well-formed header opens. -/
def clauseOf (pc : VAddr) (h : Word) (strict : Bool) : Clause :=
  { hdr := pc, eng := fld h 6 4, wait := fld h 12 7, left := fldN h 3 0, len := fldN h 3 0, cut := h.getLsbD 13, strict := strict, cutix := fld h 31 16, first := true, waited := false }
/-- The causes of entering a clause: the header's, a stub's cut (0x04C), then the cut record's (13 R346, R348, R349). -/
def enterCause (s : State) (wg : Nat) (r : LaunchRec) (cue inStub : Bool) (h : Word) : Option Cause :=
  match headerCause cue r.cutcnt h with
  | some c => some c
  | none =>
    if !h.getLsbD 13 then none
    else if inStub then some 0x04C
    else cutCause r cue (readCut s wg r (fldN h 31 16))
/-- STRICT of the record that a header names. -/
def strictOf (s : State) (wg : Nat) (r : LaunchRec) (h : Word) : Bool := h.getLsbD 13 && (readCut s wg r (fldN h 31 16)).any fun c => c.strict
/-- A thread enters its clause; in a handler the cut it would be taken at stays the one below. -/
def enterThread (h : Word) (strict : Bool) (th : Thread) : Thread :=
  let cut := h.getLsbD 13 && !th.inHandler
  { th with clause := some (clauseOf th.pc h strict), pc := th.pc + 4, cutPc := if cut then th.pc else th.cutPc, cutRec := if cut then fld h 31 16 else th.cutRec }
def enterCue (h : Word) (strict : Bool) (c : Cue) : Cue :=
  let cut := h.getLsbD 13 && !c.inHandler
  { c with clause := some (clauseOf c.pc h strict), pc := c.pc + 4, cutPc := if cut then c.pc else c.cutPc, cutRec := if cut then fld h 31 16 else c.cutRec }

/-! ### Lines that stand only in the image (13 R375) -/

/-- The vector registers that a contributor's sources read, each with the lane it is read in (02 R50, 06 R135, R139): what comes later in the list may depend on what comes before it. -/
def laneReads (c : WCtx) (i : Instr) (lane : Nat) : List (Nat × Nat) :=
  match vSpec c.W (WCtx_slot c) i with
  | none => (WCtx_use c i).rv.map fun r => (r, lane)
  | some (f, v) =>
    let src := fun (s : Src) (x : BitVec 7) (sel : BitVec 3) => match s with
      | .vec n => if sel = 6 then [] else match crossLane c.w sel.toNat (paramOf c.w f) lane with
        | some l => (run x.toNat n).map fun r => (r, l)
        | none => []
      | .fix n => (run x.toNat n).map fun r => (r, match i with
        | .lsel _ => lselSrc (f.m % 4) (segSize c.W f) lane (srcVal c.w f v.b f.b f.pb lane)
        | _ => lane)
      | _ => []
    src v.b f.b f.pb ++ src v.c f.c f.pc ++ src v.a f.a f.pa
/-- The lines that an instruction of a group needs, each with the lanes that need it (13 R375): the predicates of its guard, then what its contributors use: uniform registers, other predicates, vector registers. -/
def warpLines (c : WCtx) (i : Instr) : List (Nat × List Nat) :=
  let u := WCtx_use c i
  let r := c.g.lrec
  let prd := fun (l : List Nat) (who : List Nat) => if l.all (· == 7) then [] else [(prdLine r c.wi, who)]
  let vec := fun (lane : Nat) (x : Nat × Nat) => if x.1 < r.vregs then [(vecLine r c.wi x.2 x.1, [lane])] else []
  prd [(guardOf i).1] c.lanes
    ++ (if c.cs = [] then [] else
      ((u.rs ++ u.ws).filter (· < r.sregs)).map (fun x => (uniLine r c.wi x, c.lanes)) ++ prd (u.rp ++ u.wp) c.lanes
        ++ c.cs.flatMap fun l => ((laneReads c i l) ++ u.wv.map fun x => (x, l)).flatMap (vec l))
/-- The first line a group's instruction needs that must first come back, with the lanes that need it. -/
def warpMissing (c : WCtx) (i : Instr) : Option (Nat × List Nat) :=
  if c.k.missing = [] then none
  else
    let ls := warpLines c i
    (ls.find? fun x => c.k.missing.contains x.1).map fun x => (x.1, ((ls.filter fun y => y.1 == x.1).flatMap (·.2)).eraseDups)
def cueMissing (k : Workgroup) (g : Grid) (i : Instr) : Option Nat :=
  if k.missing = [] then none
  else
    let u := cueUse i
    (((u.rc ++ u.wc).filter (· < 64)).map (cueLine g.lrec)).find? fun n => k.missing.contains n

/-! ### Entering clauses (02 R26, R29) -/

/-- The clause's WAIT holds, or has held (02 R29). -/
def waitHolds (tokens : SMap 6) (c : Clause) : Bool := !c.first || c.waited || (maskList c.wait.toNat 6).all fun i => tokens.get i = 0

/-- A header is not an instruction and takes no issue: a thread that stands at a sound one, in a line its cache holds, stands in the clause. -/
def entered (s : State) (unit : Nat) (asid : BitVec 16) (pc : VAddr) (cl : Option Clause) (sound : Word → Bool) : Option Word :=
  match cl with
  | some _ => none
  | none => match pieceAt s unit asid pc.toNat with
    | .bytes bs => if sound (leWord bs) then some (leWord bs) else none
    | _ => none
/-- A live thread that stands at a header. -/
def atHeader (th : Thread) : Bool := th.clause.isNone && th.life = .live && th.park.isNone
/-- The threads of a warp enter their clauses. -/
def enterWarp (s : State) (g : Grid) (k : Workgroup) (w : Warp) : Warp :=
  if w.ended || !w.threads.any atHeader then w
  else { w with threads := w.threads.map fun th =>
    if !atHeader th then th
    else match entered s (k.core / 2) g.asid th.pc th.clause fun h => (enterCause s k.id g.lrec false (stubOf th).isSome h).isNone with
      | some h => enterThread h (strictOf s k.id g.lrec h) th
      | none => th }
/-- The launch record a cue thread's headers are checked against: a management core has no cut records. -/
def cueRec (s : State) (iss : Issuer) : LaunchRec := match (issuerWg s iss).bind (gridOf s) with
  | some g => g.lrec
  | none => parseRec []
def enterCueThread (s : State) (iss : Issuer) (c : Cue) : Cue :=
  if c.ended || c.park.isSome then c
  else
    let wg := match iss with
      | .cue wg => wg
      | _ => 0
    match entered s (fetchUnit s iss) (spaceOf s iss).1 c.pc c.clause fun h => (enterCause s wg (cueRec s iss) true (cueStub c).isSome h).isNone with
    | some h => enterCue h (strictOf s wg (cueRec s iss) h) c
    | none => c
/-- A WAIT that holds for the first time is over (02 R29): its tokens do not hold the clause's first instruction back again. -/
def latchClause (tokens : SMap 6) (c : Option Clause) : Option Clause := c.map fun c => if !c.waited && waitHolds tokens c then { c with waited := true } else c
def latchWarp (w : Warp) : Warp :=
  if w.threads.any fun th => latchClause w.tokens th.clause != th.clause then { w with threads := w.threads.map fun th => { th with clause := latchClause w.tokens th.clause } } else w
def latchCue (c : Cue) : Cue := { c with clause := latchClause c.tokens c.clause }
/-- Every stream of the device enters its clause. -/
def enterAll (s : State) : State :=
  { s with
    wgs := s.wgs.map fun k => if k.st ≠ .resident then k else match gridOf s k with
      | some g => { k with warps := k.warps.map fun w => latchWarp (enterWarp s g k w), cue := latchCue (enterCueThread s (.cue k.id) k.cue) }
      | none => k
    mgmt := (List.range s.mgmt.length).filterMap fun m => (s.mgmt[m]?).map fun x => { x with cue := latchCue (enterCueThread s (.mgmt m) x.cue) } }

/-! ### Readiness and the vote (07 R148 to R151) -/

/-- Instructions that wait for every pending one of their thread (02 R58). -/
def waitsAll (i : Instr) : Bool :=
  match i with
  | .exit _ => true
  | .resume _ => true
  | _ => false
/-- The instruction names a token that reads 63 (02 R57). -/
def tokenFull (w : Warp) (i : Instr) : Bool := match tSpec i with
  | some f => (tokOf f.tok).any fun t => Warp_tok w t = 63
  | none => false
/-- A lane is ready, as far as its own state goes (07 R148). DESIGN CHOICE: a thread within the cadence of its own last pass (02 R54) is not ready, and so does not age (log 100). -/
def laneReady (s : State) (k : Workgroup) (w : Warp) (th : Thread) : Bool :=
  th.life = .live && th.park.isNone && decide (th.readyAt ≤ s.clk ∧ th.nextAt ≤ s.clk) && !(k.take.isSome && threadStands w th)
    && (match th.clause with
      | some c => waitHolds w.tokens c && th.windows.all fun x => x.done || x.left != 0
      | none => true)
/-- The key of a port: 8 core + 2 quarter + port. -/
def portKey (core quarter port : Nat) : Nat := 8 * core + 2 * quarter + port
/-- The special-function stage of a port is busy, and the instruction needs it (04 R102). -/
def stageBusy (s : State) (core quarter port : Nat) (i : Instr) : Bool :=
  stageClks i ≠ 0 && s.stages.any fun x => x.1 == portKey core quarter port && decide (s.clk < x.2)
/-- A lane that is ready for a port and whose next step can be taken now, with what stands ahead of it. -/
def laneAhead (s : State) (g : Grid) (k : Workgroup) (w : Warp) (port lane : Nat) : Option Ahead :=
  match w.threads[lane]? with
  | none => none
  | some th =>
    if !laneReady s k w th then none
    else match aheadOf s (k.core / 2) g.asid .warp th.pc.toNat th.clause with
      | .missing _ => none
      | .instr i => if tokenFull w i || stageBusy s k.core w.quarter port i || (waitsAll i && guardPass w i lane && th.windows.any fun x => !x.done) then none else some (.instr i)
      | a => some a
/-- Lanes of a list that stand where lane l stands (R149): at one PC, all in a clause or all at a header. -/
def sameGroup (w : Warp) (ls : List Nat) (l : Nat) : List Nat :=
  match w.threads[l]? with
  | some th => ls.filter fun m => w.threads[m]?.any fun x => x.pc == th.pc && x.clause.isSome == th.clause.isSome
  | none => []
/-- An instruction may be held at its issue: a page is in transition, a peer has not acknowledged a write, an L1 holds bytes of a peer's; or it waits for a service queue or a tile. -/
def mayHold (s : State) (i : Instr) : Bool :=
  s.busy != [] || s.awaits != [] || s.l1.any (fun l => decide (2 ^ 45 ≤ l.line)) || (tSpec i).isSome || match i with
    | .svc _ => true
    | _ => false
/-- A group is held at its instruction, which meets no cause and has nothing to do first. -/
def groupHeld (s : State) (g : Grid) (k : Workgroup) (w : Warp) (wi port : Nat) (lanes : List Nat) : Bool :=
  match lanes.head?.bind (laneAhead s g k w port) with
  | some (.instr i) => mayHold s i && (match warpOp i, warpCtx { s with cur := .warp k.id wi lanes } i with
    | some op, some c => (issueCause op s c).isNone && op.hold s c && (op.prep s c).isNone
    | _, _ => false)
  | _ => false
/-- The lanes of a warp that are ready for a port. -/
def readyLanes (s : State) (g : Grid) (k : Workgroup) (w : Warp) (wi port : Nat) : List Nat :=
  if w.ended then []
  else
    let ls := (List.range w.threads.length).filter fun l => (laneAhead s g k w port l).isSome
    ls.filter fun l => !groupHeld s g k w wi port (sameGroup w ls l)
/-- The lane of a list that comes first by a measure of its thread, lower being first. -/
def firstBy (w : Warp) (ls : List Nat) (f : Thread → Nat) : Option Nat :=
  ls.foldl (fun b l => match b with
    | none => some l
    | some m => match w.threads[l]?, w.threads[m]? with
      | some x, some y => if f x < f y then some l else some m
      | _, _ => some m) none
/-- Steps 1 and 2 of R151: the override group, else the group at the lowest PC. -/
def voteA (w : Warp) (ls : List Nat) : List Nat :=
  let old := ls.filter fun l => w.threads[l]?.any fun th => decide (64 ≤ th.pass.toNat)
  let lead := if old = [] then firstBy w ls fun th => th.pc.toNat
    else firstBy w old fun th => (255 - th.pass.toNat) * 2 ^ 57 + (2 ^ 57 - 1 - th.pc.toNat)
  match lead with
  | some l => sameGroup w ls l
  | none => []
/-- Step 3 of R151: of the lanes ready for port B, the lowest-PC group other than the one that port A takes. -/
def voteB (w : Warp) (onA onB : List Nat) : List Nat :=
  let a := voteA w onA
  let rest := onB.filter fun l => !a.contains l
  match firstBy w rest fun th => th.pc.toNat with
  | some l => sameGroup w rest l
  | none => []

/-! ### What the step is -/

/-- The plan of a step: a state that it leaves without an instruction, or an instruction to execute from a state whose `cur` names its issuer. -/
inductive Plan where
  | done (s : State)
  | run (i : Instr) (s : State)
  deriving DecidableEq, Repr

/-- Refetch a marked line as an instruction from it would issue (13 R358): it is replaced, or the second failure's cause is delivered. -/
def refetch (s : State) (iss : Issuer) (va : Nat) (deliver : Cause → State → State) : State :=
  match softTake s 0x1E4 0x1E4 with
  | (some c, t) => deliver c t
  | (none, t) => match fetchLine t iss va with
    | none => t
    | some (.error c, u) => deliver c u
    | some (.ok _, _) => fillLine t iss va
/-- The lanes of a group whose collectives' causes fall due at a WAIT (13 R357), and their taking. -/
def waitDue (w : Warp) (lanes : List Nat) (mask : Nat) : List Nat := lanes.filter fun l => (w.threads[l]?.bind fun th => dueIn false mask th.deferred).isSome
def warpWait (s : State) (wg wi : Nat) (w : Warp) (lanes : List Nat) (mask : Nat) : State :=
  (waitDue w lanes mask).foldl (fun t l => match w.threads[l]? with
    | none => t
    | some th => match dueIn false mask th.deferred with
      | some d => deliverOne t wg wi l (isDue false mask) d th.pc
      | none => t) s
/-- The WAIT mask that a thread's instruction stands under. -/
def waitMask (cl : Option Clause) : Nat := match cl with
  | some c => if c.first then c.wait.toNat else 0
  | none => 0
/-- A line that stands only in the image is fetched once no cause comes before its failure (13 R346 steps 1 to 5, R375). -/
def groupRefill (s : State) (c : WCtx) (i : Instr) : Option (Nat × List Nat) :=
  match warpMissing c i with
  | none => none
  | some x => match warpOp i with
    | none => some x
    | some op =>
      if c.lanes.any fun l => (laneDue op c l).isSome then none
      else match earlyCause op s c with
        | some o => if causeClass o.cause = 1 && !decide (o.cause.toNat < 0x030) then some x else none
        | none => some x
/-- What a group does: a cause of its header, the causes due at its WAIT, a refetch, a refill, or its instruction. From a marked line, the causes that need no instruction word come before the refetch (13 R346 steps 2 and 3.1, R358). -/
def planGroup (s : State) (g : Grid) (k : Workgroup) (w : Warp) (wg wi : Nat) (lanes : List Nat) (th : Thread) : Plan :=
  let cause := fun (c : Cause) (t : State) => takeWarp t wg wi lanes { cause := c, kind := 0, fpc := th.pc.toNat, rpc := th.pc.toNat, lanes := laneMask lanes }
  let past := lanes.filter fun l => (w.threads[l]?).any fun x => !x.inHandler && decide (g.lrec.cutmax < nextDist w x)
  match lanes.head?.bind (laneAhead s g k w s.port) with
  | some (.marked va) =>
    if waitDue w lanes (waitMask th.clause) ≠ [] then .done (warpWait s wg wi w lanes (waitMask th.clause))
    else if past ≠ [] then .done (takeWarp s wg wi lanes { cause := 0x060, kind := 0, fpc := th.pc.toNat, rpc := th.pc.toNat, lanes := laneMask past })
    else .done (refetch s (.warp wg wi lanes) va cause)
  | some (.header h) => .done (match enterCause s wg g.lrec false (stubOf th).isSome h with
    | some c => cause c (postCut s wg g.lrec (fldN h 31 16) c)
    | none => s)
  | some (.instr i) =>
    if waitMask th.clause ≠ 0 ∧ waitDue w lanes (waitMask th.clause) ≠ [] then .done (warpWait s wg wi w lanes (waitMask th.clause))
    else
      let t := updWarp { s with cur := .warp wg wi lanes } wg wi fun x => { x with view := viewOf s.clk lanes w }
      (match (warpCtx t i).bind fun c => groupRefill t c i with
      | some (n, ls) => .run (.contextLineRefill wg n) { t with cur := .warp wg wi ls }
      | none => .run i t)
  | _ => .done s
/-- What the lanes `pick` names of a warp's ready ones do on a port. -/
def planOn (s : State) (wg wi port : Nat) (pick : Warp → List Nat → List Nat) : Plan :=
  match findWg s wg with
  | none => .done s
  | some k => match gridOf s k, k.warps[wi]? with
    | some g, some w =>
      if k.st ≠ .resident then .done s
      else
        let grp := pick w (readyLanes s g k w wi port)
        (match grp.head?.bind fun l => w.threads[l]? with
        | some th => planGroup { s with port := port } g k w wg wi grp th
        | none => .done s)
    | _, _ => .done s
/-- What a warp does on the port that chose it: steps 1 and 2 of R151. -/
def planWarp (s : State) (wg wi port : Nat) : Plan := planOn s wg wi port voteA
/-- What port B issues beside port A: the lanes chosen, as far as they are ready still. -/
def planBeside (s : State) (wg wi : Nat) (lanes : List Nat) : Plan := planOn s wg wi 1 fun _ ls => lanes.filter ls.contains

/-- A cue thread may take a step: it is not parked or stopped, and does not stand to be taken. -/
def cueReady (s : State) (iss : Issuer) (c : Cue) : Bool :=
  !c.ended && c.park.isNone && (match iss with
    | .cue wg => (findWg s wg).any fun k => k.st = .resident && !(k.take.isSome && cueStands c)
    | .mgmt m => (s.mgmt[m]?).any fun x => !x.stopped
    | _ => false)
/-- What stands ahead of a cue thread. -/
def cueAhead (s : State) (iss : Issuer) (c : Cue) : Ahead := aheadOf s (fetchUnit s iss) (spaceOf s iss).1 .cue c.pc.toNat c.clause
/-- A cue thread can go on now: its WAIT holds, no window of it is used up, and its instruction is not held (10 R244). -/
def cueGoes (s : State) (iss : Issuer) (c : Cue) : Bool :=
  cueReady s iss c && decide (c.nextAt ≤ s.clk) && (match c.clause with
    | some cl => waitHolds c.tokens cl && c.windows.all fun x => x.done || x.left != 0
    | none => true) && (match cueAhead s iss c with
    | .missing _ => false
    | .instr i => (match cueOp i, cueCtx { s with cur := iss } i with
      | some op, some x =>
        !(x.pass && op.drain && c.windows.any fun y => !y.done)
          && !(x.pass && (cueFalls s iss op.drain (op.toks s x) c).isNone && (cueCause op s x).isNone && op.hold s x && (op.prep s x).isNone)
      | _, _ => true)
    | _ => true)
/-- A line of a cue thread that stands only in the image is fetched once no cause comes before its failure. -/
def cueRefill (s : State) (x : CCtx) (i : Instr) : Option Nat :=
  match x.k, x.g with
  | some k, some g => (match cueMissing k g i with
    | none => none
    | some n => match cueOp i with
      | none => some n
      | some op =>
        if (cueFalls s x.iss (op.drain && x.pass) (if x.pass then op.toks s x else 0) x.c).isSome then none
        else match cueEarly op s x with
          | some o => if causeClass o.cause = 1 && !decide (o.cause.toNat < 0x030) then some n else none
          | none => some n)
  | _, _ => none
/-- The self-invalidation of a WAIT that named tokens (10 R254). -/
def waitAcquire (s : State) (iss : Issuer) (cl : Option Clause) : State := if waitMask cl = 0 then s else acquire s iss 0x7F
/-- What a cue thread or a management core does. -/
def planCue (s : State) (iss : Issuer) : Plan :=
  match findCue s iss with
  | none => .done s
  | some c =>
    if c.park = some .cend then .done (cueEnd s iss)
    else if !cueReady s iss c then .done s
    else
      let wg := match iss with
        | .cue wg => wg
        | _ => 0
      let cause := fun (x : Cause) (t : State) => takeCue t iss { cause := x, kind := 0, fpc := c.pc.toNat, rpc := c.pc.toNat }
      if !(match c.clause with
        | some cl => waitHolds c.tokens cl
        | none => true) then .done s
      else match cueAhead s iss c with
      | .missing va => .done (fillLine s iss va)
      | .marked va =>
        (match cueDue s iss c (waitMask c.clause) with
        | some d => .done (takeCue (updCue s iss fun x => { x with deferred := x.deferred.filter fun y => !isDue false (waitMask c.clause) y }) iss (dueRec d c.pc))
        | none => if cueOver ((issuerWg s iss).bind (gridOf s)) c then .done (cause 0x061 s) else .done (refetch s iss va cause))
      | .header h => .done (match enterCause s wg (cueRec s iss) true (cueStub c).isSome h with
        | some x => cause x (postCut s wg (cueRec s iss) (fldN h 31 16) x)
        | none => s)
      | .instr i =>
        (match cueDue s iss c (waitMask c.clause) with
        | some d => .done (takeCue (updCue s iss fun x => { x with deferred := x.deferred.filter fun y => !isDue false (waitMask c.clause) y }) iss (dueRec d c.pc))
        | none =>
          let t := waitAcquire { s with cur := iss } iss c.clause
          match (cueCtx t i).bind fun x => cueRefill t x i with
          | some n => .run (.contextLineRefill wg n) t
          | none => .run i t)

/-! ### The end of an issue clk (03 R71, 06 R134, 07 R150, R153) -/

/-- The group issued: its first thread has moved, and by no cause. -/
def didIssue (s t : State) (wg wi l : Nat) : Bool :=
  match findThread s wg wi l, findThread t wg wi l with
  | some x, some y => x != y && !(y.inHandler && !x.inHandler) && (findWg t wg).all fun k => k.st != .halted
  | _, _ => false
/-- The lanes of the group that a step issued, when its instruction issued. -/
def issuedLanes (r t : State) : List Nat :=
  match r.cur with
  | .warp wg wi (l :: ls) => if didIssue r t wg wi l then l :: ls else []
  | _ => []
/-- The pattern table that an instruction writes (06 R140), and whether it writes the group key (08 R208). -/
def tableWritten : Instr → List Nat
  | .patld f => [f.d.toNat % 4]
  | _ => []
def writesKey : Instr → Bool
  | .kvkey _ => true
  | _ => false
/-- An instruction that parks, or may, writes when it is released. -/
def stays (i : Instr) : Bool := (warpOp i).any (·.stay)
/-- What the passes of an issue wrote over in one warp (06 R134): the vector registers of each slice's pass, and the warp's own registers with the last pass, if it has a contributor and writes them when it issues. -/
def recentOf (i : Instr) (clk gap : Nat) (lanes cs slices : List Nat) (u : Use) (old new : Warp) : List Recent :=
  (List.range slices.length).map fun j =>
    let ls := lanes.filter fun l => l / 32 = slices.getD j 0
    let keys := u.wv.flatMap fun r => ls.map fun l => 128 * r + l
    let last := decide (j + 1 = slices.length) && cs != [] && !stays i
    { seen := clk + gap * j + 4, lanes := lanes
      vold := (keys.filter fun k => old.vregs.get k ≠ new.vregs.get k).map fun k => (k, old.vregs.get k)
      swr := if last then u.ws.map fun k => (k, sget old k, sget new k) else []
      pwr := if last then (tableWritten i).map fun n => (n, tableOf old n, tableOf new n) else []
      kwr := if last && writesKey i then [(0, old.kvkey, new.kvkey)] else [] }
/-- The passes still to be looked back on: those hidden yet, and those that wrote what one of them wrote too. -/
def keepRecent (clk : Nat) (l : List Recent) : List Recent :=
  let fresh := l.filter fun e => decide (clk < e.seen)
  let shared := fun (e : Recent) => fresh.any fun x => (e.swr.any fun a => x.swr.any fun b => a.1 == b.1) || (e.pwr.any fun a => x.pwr.any fun b => a.1 == b.1) || (e.kwr != [] && x.kwr != [])
  l.filter fun e => decide (clk < e.seen) || shared e
/-- The warp's own registers hold what the pass that writes last leaves (06 R140, R146, 08 R208). -/
def landLast (w : Warp) : Warp :=
  let s := (w.recent.flatMap fun e => e.swr.map (·.1)).eraseDups
  let p := (w.recent.flatMap fun e => e.pwr.map (·.1)).eraseDups
  let w := s.foldl (fun x k => sset x k ((lastWrite (·.swr) w.recent k).getD (sget x k))) w
  let w := p.foldl (fun x n => setTable x n ((lastWrite (·.pwr) w.recent n).getD (tableOf x n))) w
  { w with kvkey := (lastWrite (·.kwr) w.recent 0).getD w.kvkey }

/-- A later pass of the instruction reads uniform registers in its own clk (03 R72, 06 R134): it is no lane instruction, and no selector of it draws from another lane. -/
def readsLate (i : Instr) : Bool :=
  let may := match i with
    | .lsel _ => false
    | .patld _ => false
    | .poll _ => false
    | .eqset _ => false
    | .wred _ => false
    | .wscan _ => false
    | .lead _ => false
    | .v2s _ => false
    | .swreg _ => true
    | i => warpClass i == 0 || warpClass i == 2
  match vSpec 32 (fun _ => 0) i with
  | some (f, v) =>
    let uni := fun (s : Src) (x : BitVec 7) (sel : BitVec 3) => match s with
      | .vec _ => sel == 6 && decide (x.toNat < 64)
      | _ => false
    may && !draws f && (uni v.a f.a f.pa || uni v.b f.b f.pb || uni v.c f.c f.pc)
  | none => false
/-- The later passes of an issue that read uniform registers. -/
def latePasses (i : Instr) (clk gap flight : Nat) (lanes cs slices : List Nat) (w : Warp) : List LatePass :=
  if !readsLate i then []
  else (List.range slices.length).tail.map fun j =>
    let ls := cs.filter fun l => l / 32 = slices.getD j 0
    { at_ := clk + gap * j, i := i, flight := flight, lanes := lanes, cs := ls, vregs := w.vregs, preds := w.preds
      fpstat := ls.map fun l => (l, ((w.threads[l]?).map (·.fpstat)).getD 0) }
/-- What a later pass leaves, a uniform register that it reads having been written since: its destinations, and its part of its flight. -/
def redoLate (s : State) (g : Grid) (wg wi : Nat) (p : LatePass) : State :=
  match findWg s wg, findWarp s wg wi, warpOp p.i with
  | some k, some w, some op =>
    let was := { w with vregs := p.vregs, preds := p.preds, view := viewOf p.at_ p.lanes w
                        threads := p.fpstat.foldl (fun ts (l, v) => ts.modify l fun th => { th with fpstat := v }) w.threads }
    let c : WCtx := { g := g, k := k, w := was, wg := wg, wi := wi, lanes := p.cs, cs := p.cs, W := LaunchRec_wwidth g.lrec, pc := 0, clk := p.at_, gap := passGap p.i }
    let t := op.eff c (updWarp { s with flights := [] } wg wi fun _ => was)
    let use := WCtx_use c p.i
    let long : Option FlightKind := t.flights.head?.map (·.kind)
    (match long, findWarp t wg wi with
    | some (.vsfu _ wr fl), _ => { s with flights := s.flights.map fun f => match f.kind with
      | .vsfu n w0 f0 => if f.id = p.flight then { f with kind := .vsfu n (w0.filter (fun x => !p.cs.contains x.lane) ++ wr) (f0.filter (fun x => !p.cs.contains x.1) ++ fl) } else f
      | _ => f }
    | _, some new => updWarp s wg wi fun x => p.cs.foldl (fun x l =>
        let x := use.wv.foldl (fun x r => vset x r l (vget new r l)) x
        let x := use.wp.foldl (fun x r => pset x r l (pget new r l)) x
        match new.threads[l]? with
        | some y => Warp_updThread x l fun th => { th with fpstat := y.fpstat, sp := y.sp }
        | none => x) x
    | _, none => s)
  | _, _, _ => s
/-- An issue's passes: the group issues again 4 clk after the last of them, and so does the warp on that port; the port's pointer moves past the warp; each later pass holds the port in its clk, and the special-function stage is taken to the last pass's end (04 R102); what was written over stays for the groups that may not see it yet, and what later passes of other groups read is brought up to date. -/
def logIssue (i : Instr) (r t : State) : State :=
  match r.cur, issuedLanes r t with
  | .warp wg wi _, l :: ls =>
    (match (findWg r wg).bind fun k => (k.warps[wi]?).map fun w => (k, w) with
    | none => t
    | some (k, w) =>
      let lanes := l :: ls
      let slices := slicesOf lanes
      let gap := passGap i
      let cs := lanes.filter (guardPass w i)
      let next := r.clk + gap * (slices.length - 1) + 4
      let key := portKey k.core w.quarter r.port
      let use := warpUse w.threads.length (fun n => match gridOf r k with
        | some g => LaunchRec_slot g.lrec n
        | none => 0) i
      let new := recentOf i r.clk gap lanes cs slices use w ((findWarp t wg wi).getD w)
      let u := updWarp t wg wi fun x =>
        let y := Warp_updThreads x lanes fun th => { th with nextAt := next }
        landLast { y with
          recent := keepRecent r.clk (new ++ x.recent), view := View.none
          late := latePasses i r.clk gap r.nextId lanes cs slices w ++ x.late.filter fun p => decide (r.clk < p.at_)
          portA := if r.port = 0 then next else y.portA, portB := if r.port = 0 then y.portB else next }
      let u := { u with
        rota := u.rota.set key (BitVec.ofNat 4 (w.position + w.threads.length / 32))
        passes := ((List.range (slices.length - 1)).map fun j => (key, r.clk + gap * (j + 1))) ++ u.passes.filter fun p => decide (r.clk < p.2)
        stages := (if stageClks i = 0 then [] else [(key, r.clk + stageClks i * slices.length)]) ++ u.stages.filter fun p => decide (r.clk < p.2) }
      (match gridOf r k with
      | some g => if new.all fun e => e.swr == [] then u
        else (((findWarp u wg wi).map (·.late)).getD []).foldl (fun u p => if decide (r.clk < p.at_) && !meets p.lanes lanes then redoLate u g wg wi p else u) u
      | none => u))
  | _, _ => t
/-- The end of an issue clk of a warp (R153): the counts of the threads that issued are 0, and every other thread that was ready counts one more. -/
def countPasses (t : State) (wg wi : Nat) (issued ready : List Nat) : State :=
  if issued = [] then t
  else
    let t := updThreads t wg wi issued fun th => { th with pass := 0 }
    updThreads t wg wi (ready.filter fun m => !issued.contains m) fun th => { th with pass := if th.pass = 255 then 255 else th.pass + 1 }

end Sys2Proof.Machine
end

