-- ==== Sys2Proof/Machine/Schedule.lean ====
section
/-! DEFINITION. Which step the device takes: the steps that can be taken (07 R150, 09 R212), of which the next is a free choice (log 3), and the event that each of them is. -/

namespace Sys2Proof.Machine

/-- The warps of a quarter of a core: workgroup, number, warp. -/
def quarterWarps (s : State) (core quarter : Nat) : List (Nat × Nat × Warp) :=
  (s.wgs.filter fun k => k.st == .resident && k.core == core).flatMap fun k =>
    (List.range k.warps.length).filterMap fun i => match k.warps[i]? with
      | some w => if w.quarter = quarter ∧ w.ended = false then some (k.id, i, w) else none
      | none => none
/-- The lanes of a warp, by number, that are ready for a port, and those that are for either. -/
def readyOf (s : State) (wg wi port : Nat) : List Nat :=
  match findWg s wg with
  | some k => (match gridOf s k, k.warps[wi]? with
    | some g, some w => readyLanes s g k w wi port
    | _, _ => [])
  | none => []
def readyAny (s : State) (wg wi : Nat) : List Nat := (readyOf s wg wi 0 ++ readyOf s wg wi 1).eraseDups
/-- A port is free in this clk: no pass of an earlier issue is due (R150). -/
def portFree (s : State) (core quarter port : Nat) : Bool := !s.passes.contains (portKey core quarter port, s.clk)
/-- R54 allows a warp to issue on a port. -/
def portOpen (s : State) (w : Warp) (port : Nat) : Bool := decide ((if port = 0 then w.portA else w.portB) ≤ s.clk)
/-- The warp that a free port chooses (R150): the first eligible one at or after its pointer. -/
def portWarp (s : State) (core quarter port : Nat) (but : Option (Nat × Nat)) : Option (Nat × Nat) :=
  if !portFree s core quarter port then none
  else
    let ptr := (s.rota.get (portKey core quarter port)).toNat
    let far := fun (w : Warp) => (w.position + 16 - ptr) % 16
    let ok := (quarterWarps s core quarter).filter fun (wg, i, w) => some (wg, i) != but && portOpen s w port && readyOf s wg i port != []
    (ok.foldl (fun (b : Option (Nat × Nat × Warp)) x => match b with
      | none => some x
      | some y => if far x.2.2 < far y.2.2 then some x else some y) none).map fun (wg, i, _) => (wg, i)
/-- What a quarter can issue: port A's warp, with port B's issue beside it (`besideOf`); port B's own when port A has none. -/
def quarterActs (s : State) (core quarter : Nat) : List Act :=
  match portWarp s core quarter 0 none, portWarp s core quarter 1 none with
  | some (wg, i), _ => [.warp wg i 0]
  | none, some (wg, i) => [.warp wg i 1]
  | none, none => []
/-- Steps 3 and 4 of R151: what port B issues in the clk in which port A issues for a warp. -/
def besideOf (s : State) (wg wi : Nat) : Option (Nat × Nat × List Nat) :=
  match findWg s wg with
  | none => none
  | some k => match k.warps[wi]? with
    | none => none
    | some w =>
      let second := voteB w (readyOf s wg wi 0) (readyOf s wg wi 1)
      if second ≠ [] && portOpen s w 1 && portFree s k.core w.quarter 1 then some (wg, wi, second)
      else match portWarp s k.core w.quarter 1 (some (wg, wi)) with
        | some (g2, i2) => (findWarp s g2 i2).map fun x => (g2, i2, voteA x (readyOf s g2 i2 1))
        | none => none
/-- The cue thread that a core issues (10 R244): the first that can go on after the context that issued last. -/
def coreCue (s : State) (core : Nat) : List Act :=
  let last := (s.cueNext.get core).toNat
  let far := fun (k : Workgroup) => (k.ctx + 3 - last) % 4
  let ok := s.wgs.filter fun k => k.st == .resident && k.core == core && cueGoes s (.cue k.id) k.cue
  match ok.foldl (fun (b : Option Workgroup) x => match b with
    | none => some x
    | some y => if far x < far y then some x else some y) none with
  | some k => [.cue k.id]
  | none => []
/-- The cores in use. -/
def coresUsed (s : State) : List Nat := ((s.wgs.filter fun k => k.st == .resident).map (·.core)).eraseDups
/-- The fills that a workgroup's streams wait for (07 R157). -/
def wgFills (s : State) (k : Workgroup) : List Act :=
  if k.st ≠ .resident then []
  else match gridOf s k with
    | none => []
    | some g =>
      let warps := k.warps.flatMap fun w => if w.ended then [] else w.threads.filterMap fun th =>
        if laneReady s k w th then (match aheadOf s (k.core / 2) g.asid .warp th.pc.toNat th.clause with
          | .missing va => some va
          | _ => none) else none
      let cue := if cueReady s (.cue k.id) k.cue then (match cueAhead s (.cue k.id) k.cue with
        | .missing va => [va]
        | _ => []) else []
      ((warps ++ cue).eraseDups).map fun va => .event (.fetchFill k.id va)
/-- The events of a workgroup's life. -/
def wgEvents (s : State) (k : Workgroup) : List Instr :=
  let cueEvs := match k.cue.park with
    | some .cend => [Instr.cueThreadEnd k.id]
    | some (.dqpush _ _) => [.dqpushWrite k.id]
    | some (.launchHold _ _ _) => [.nestQueueAppend k.id]
    | _ => []
  cueEvs ++ (if (wgFinished k && !(asking s k.core && !peerDirty s k.core)) || (k.st = .ended && !wgHolds s k) then [.workgroupEnd k.id] else []) ++ (if k.take.isSome || (k.st == .resident && dispatchWaits s) then [.taking k.id] else [])
    ++ (match migRoom s k with
      | some (g, core, room) => [(makeRoom s g.lrec core room.bases k.id).getD (.migrationMessage k.id true)]
      | none => [])
/-- The event by which an operation in flight proceeds. -/
def flightEvent (f : Flight) : Instr :=
  match f.kind with
  | .load _ _ _ => .memoryAccessCompletion f.id
  | .vsfu _ _ _ => .vsfuCompletion f.id
  | .exec _ _ _ => .executionPointOperation f.id
  | .fullEmpty _ _ _ _ => .fullEmptyServe f.id
  | .counter _ _ _ => .counterWaitSatisfied f.id
  | .refill _ => .returnAddressRefill f.id
  | .svc _ _ _ _ _ _ => .serviceReply f.id
  | .collective _ _ _ _ => .collectiveCompletion f.id
  | .plain => .memoryAccessCompletion f.id
/-- The step by which a started command proceeds: the event of its kind, else its next unit. -/
def unitAct (c : Cmd) : Option Act :=
  if streams c.op then (if rowEntered c then some (.event (.streamRowResult c.id)) else none)
  else if isArrw c.op then none
  else if isDrainp c.op then (if c.done < c.half then some (.event (.adrainpRowArrival c.id)) else none)
  else if isXclose c.op && c.done = 0 then some (.event (.xcloseAtSlice c.id))
  else if contributes c.op then some (.event (.contributionAccept c.id))
  else if delivers c.op then some (.event (.deliveryUnitAdvance c.id))
  else some (.unit c.id)
/-- A row of `adrainp` has still to leave. -/
def rowLeaves (c : Cmd) : Bool := match c.op with
  | .adrainp f => decide (c.half < drRows (creg c f.d.toNat))
  | _ => false
/-- The steps by which a command starts, proceeds or completes. -/
def cmdActs (s : State) (c : Cmd) : List Act :=
  (if isArray c.op && planeLoadable s c then [.event (.planeLoad c.id)] else [])
    ++ (if !c.started then
        (if isArray c.op then (if arrayStartable s c then [.event (.arrayCommandStart c.id)] else [])
          else if (bulkNext s (engOf s c).cluster).map (·.id) = some c.id then [.event (.engineCommandStart c.id)] else [])
      else if c.total ≤ c.done then (if completable s c then [.event (.commandCompletion c.id)] else [])
      else (if rowLeaves c then [.unit c.id] else []) ++ (if cmdWaits s c then [] else (unitAct c).toList))
/-- The dispatcher's next step (10 R256): what must first be written to images, then the placement or the resumption. -/
def dispatchEvents (s : State) : List Instr :=
  match dispatchChoice s with
  | none => []
  | some (.place _ _ num core) => (match findGrid s num with
    | none => []
    | some g => match admits s g.lrec core none with
      | some room => [(makeRoom s g.lrec core room.bases 0).getD .workgroupPlacement]
      | none => [])
  | some (.resume wg core) => match findWg s wg with
    | none => []
    | some k => match gridOf s k with
      | none => []
      | some g => match leaveCore s k core, admits s g.lrec core (keepBases k core) with
        | some i, _ => [i]
        | none, some room => [(makeRoom s g.lrec core room.bases wg).getD .resumption]
        | none, none => []
/-- The events of a host queue. -/
def queueEvents (s : State) (q : Nat) : List Instr :=
  match findQueue s q with
  | none => []
  | some x => (if deviceReady s && x.on && !qHeld s q && qWake s q ≠ 0 then [Instr.queueServe q] else []) ++ (if hasEntry s x then [if x.kind = 0 then .launchEntryAccept q else .copyBlockAccept q] else [])
/-- Reports and updates that the device makes when it can. -/
def reportEvents (s : State) : List Instr :=
  (if s.dieOff.any fun d => mreg s (Reg.DIESTAT + 8 * d) / 65536 % 4 = 3 then [.dieReturn] else [])
    ++ (if s.errDropped ≠ 0 && errFree s then [.errorQueueDropReport] else [])
    ++ (if mreg s Reg.ATTCTL % 4 = 1 then [.attestation] else [])
    ++ (if (List.range 256).any (enableDue s) then [.queueEnable] else [])
    ++ (if (List.range 256).any (disableDue s) then [.queueDisable] else [])
    ++ (if (List.range 16).any (shareDue s) then [.wshareUpdate] else [])
    ++ (if s.ports.any (retryDue s) then [.linkRetryThreshold] else [])
/-- What the end of a clk brings to the warps of a workgroup: joins that are released (07 R168), slices and warps whose last thread has exited (R159), a decision for a warp that waits for one (R171). -/
def warpDue (s : State) (k : Workgroup) : List Instr :=
  (List.range k.warps.length).flatMap fun i => match k.warps[i]? with
    | none => []
    | some w =>
      if w.ended then []
      else
        (if warpSettled w then ((List.range (w.threads.length / 32)).filter fun j => !w.returned.contains j && (Warp_live w).all fun l => l / 32 ≠ j).map (fun j => Instr.sliceLineReturn k.id i j) else [])
          ++ (if warpSettled w && Warp_live w = [] then [.warpEnd k.id i] else [])
          ++ (if w.threads.any (fun th => match th.park with
              | some (.dqpop _) => true
              | some (.dqbr _) => true
              | _ => false) && w.dq ≠ [] && decide (w.dqAt < s.clk) then [.decisionQueuePop k.id i] else [])
/-- What falls due at the end of a clk, in this order: it happens before the next one. -/
def dueEvents (s : State) : List Instr :=
  (if s.wgs.any fun k => k.warps.any fun w => joinDue s w then [Instr.joinDeadline] else [])
    ++ (s.wgs.filter fun k => k.st == .resident || k.st == .halted).flatMap (warpDue s)
    ++ (s.flights.filterMap fun f => match f.kind with
        | .counter _ ops _ => if counterServable s ops then some (.counterWaitSatisfied f.id) else none
        | .fullEmpty _ w _ _ => if feServable s f.id w then some (.fullEmptyServe f.id) else none
        | _ => none)
    ++ (if s.resv.any fun r => decide (r.at_ + 4096 ≤ s.clk) then [Instr.reservationTimeout] else [])
    ++ (if s.wgs.any fun k => k.warps.any fun w => w.threads.any fun th => decide (th.readyAt ≠ 0 ∧ th.readyAt ≤ s.clk) then [.yieldExpiry] else [])
    ++ (if s.grids.any fun g => readyGrid g && decide (g.readySince + (g.aged + 1) * Config.clkPerMs ≤ s.clk) then [.agingTick] else [])
    ++ (if s.wgs.any fun k => k.cmig.isSome && k.st == .taken && decide (k.takeAt + Config.clkPerMs ≤ s.clk) then [.migrationFallback] else [])
    ++ (if s.wgs.any fun k => k.take.isSome && !k.takeLate && decide (k.takeAt + mreg s Reg.PTIMEOUT * Config.clkPerUs ≤ s.clk) then [.preemptionTimeout] else [])
    ++ (if s.flights.any fun f => (svcLate s f).isSome then [.serviceTimeout] else [])
    ++ (if s.dieAlarm.any fun x => decide (x.2 + 2 * Config.clkPerMs ≤ s.clk) then [.diePowerOff] else [])
    ++ (if holdDue s then [.governorHoldLimit] else [])
/-- Walks that a core may make ahead of any access (14 R398): of any address. -/
def walkEvents (s : State) : List Instr :=
  (s.wgs.filter fun k => k.st = .resident).filterMap fun k => (gridOf s k).map fun g => .tableWalk k.core g.asid.toNat g.root ((Config.unstated (s.fresh + k.core)).toNat % 2 ^ 57)

/-- The self-checks and parity checks that a soft error may fail (13 R350, 11 R293, 12 R321), and the machine checks that come from outside (13 R354): the others have events of their own. -/
def upsetCodes : List Nat :=
  (List.range 30).map (0x102 + ·) ++ [0x13C, 0x13D, 0x13E, 0x15E]
    ++ [0, 1, 2, 3, 4, 7, 12, 13, 15, 16, 17, 18, 19, 20, 22, 23, 26, 28, 29, 31].map (0x1E0 + ·)
/-- What may befall the device from outside at any time; free values name the code and the address. -/
def upsets (s : State) : List Act :=
  [.upset (BitVec.ofNat 9 (upsetCodes.getD ((Config.unstated (s.fresh + 1)).toNat % 54) 0x1E0)) (BitVec.ofNat 64 (Config.unstated (s.fresh + 2)).toNat)]
/-- A machine check finds an upset: its code is of class 15. -/
def upsetState (c : Cause) (a : BitVec 64) (s : State) : State :=
  if causeClass c = 15 then machineCheck (c.setWidth 5) a s else { s with softErrors := s.softErrors ++ [c] }

/-- The management cores that can go on, once start-up has ended (log 12); one fetches its own missing line, or ends. -/
def mgmtActs (s : State) : List Act :=
  if !deviceReady s then []
  else (List.range s.mgmt.length).filterMap fun m => (s.mgmt[m]?).bind fun x =>
    if cueGoes s (.mgmt m) x.cue || (!x.stopped && cendDue s (.mgmt m) x.cue) || (cueReady s (.mgmt m) x.cue && match cueAhead s (.mgmt m) x.cue with
      | .missing _ => true
      | _ => false) then some (.mgmt m) else none
/-- Every step that can be taken. -/
def candidates (s : State) : List Act :=
  (coresUsed s).flatMap (fun c => [0, 1, 2, 3].flatMap (quarterActs s c) ++ coreCue s c) ++ s.wgs.flatMap (wgFills s)
    ++ mgmtActs s ++ s.cmds.flatMap (cmdActs s)
    ++ (s.wgs.flatMap (wgEvents s) ++ s.flights.map flightEvent ++ ((s.l1.filter fun (l : L1Line) => l.dirty != 0).map fun l => Instr.writeBackMerge l.core l.line)
      ++ ((s.grids.filter (retirable s)).map fun g => Instr.gridRetirement g.num) ++ dispatchEvents s ++ s.queues.flatMap (fun q => queueEvents s q.q) ++ reportEvents s ++ walkEvents s).map Act.event
    ++ s.awaits.map (fun a => .answer a.tag) ++ (entriesDue s).map .entry ++ upsets s

/-- An act of the agenda that belongs to the clk in which the last step was taken. -/
def sameClk (a : Act) : Bool := match a with
  | .beside _ _ _ _ _ => true
  | .event _ => true
  | .held _ => true
  | _ => false
/-- The next step is taken in a clk of its own. -/
def ticks (s : State) : Bool := !s.agenda.head?.any sameClk
/-- The state in which a step is taken: the agenda's entry is used up, and time goes on unless the act still belongs to the clk; the stream stages of the arrays take their half-steps with it (11 R308, R309). -/
def begin_ (s : State) : State :=
  let t := { s with agenda := s.agenda.tail, fresh := s.fresh + 1, cur := .none }
  if ticks s then streamTick { t with clk := s.clk + 1 } else t
/-- The step taken next: what the agenda names, else one of those that can be taken. -/
def chosen (s : State) : Act :=
  match s.agenda with
  | a :: _ => a
  | [] => let c := candidates (begin_ s); c.getD (Config.pick s.fresh % c.length) .idle
/-- The plan of an act. An event names no instruction word. -/
def planOf (s : State) (a : Act) : Plan :=
  match a with
  | .warp wg wi port => planWarp s wg wi port
  | .beside wg wi lanes _ _ => planBeside s wg wi lanes
  | .cue wg => planCue s (.cue wg)
  | .mgmt m => planCue s (.mgmt m)
  | .event i => if encode i = [] then .run i s else .done s
  | .held a => .done (serveHeld a s)
  | .unit cmd => .done (unitOf s cmd)
  | .answer tag => .done (answered s tag)
  | .entry g => .done (entryFound g s)
  | .upset c a => .done (upsetState c a s)
  | .idle => .done s

/-! ### The end of a step -/

/-- The end of a clk: what has fallen due comes next. -/
def endClk (t : State) : State := { t with agenda := (dueEvents t).map Act.event ++ t.agenda }
/-- The cue thread that issued was the last of its core. -/
def logCue (r t : State) : State :=
  match r.cur with
  | .cue wg => (match findWg r wg, findWg t wg with
    | some k, some k' => if k.cue ≠ k'.cue then { t with cueNext := t.cueNext.set k.core (BitVec.ofNat 2 k.ctx) } else t
    | _, _ => t)
  | _ => t
/-- What an act leaves behind (07 R150 to R153), an act that time ticked for or not: p is the state in which it was chosen, r the state in which its instruction ran, t the state after. Port A's issue is followed by port B's in the same clk; the pass counts of a warp are settled once, when all its groups of the clk have issued; then the clk ends. -/
def finishAct (tick : Bool) (a : Act) (i : Option Instr) (p r t : State) : State :=
  let u := match i with
    | some x => logIssue x r t
    | none => t
  let own := if i.isSome then issuedLanes r t else []
  match a with
  | .warp wg wi port =>
    let ready := readyAny p wg wi
    (match if port = 0 then besideOf p wg wi else none with
    | some (g2, i2, l2) =>
      if g2 = wg ∧ i2 = wi then { u with agenda := .beside g2 i2 l2 own ready :: u.agenda }
      else let v := countPasses u wg wi own ready; { v with agenda := .beside g2 i2 l2 [] (readyAny p g2 i2) :: v.agenda }
    | none => endClk (countPasses u wg wi own ready))
  | .beside wg wi _ first ready => endClk (countPasses u wg wi (first ++ own) ready)
  | .cue _ => endClk (logCue r u)
  | _ => if tick then endClk u else u

end Sys2Proof.Machine
end

