-- ==== Sys2Proof/Machine/Dispatch.lean ====
section
/-! DEFINITION. exec: one arm per constructor of Instr, each one direct call of its meaning. -/

namespace Sys2Proof.Machine

def exec (i : Instr) (s : State) : Host.Outcome State Fault Refusal :=
  match i with
  | .add f => Sys2Proof.Machine.execAdd f s
  | .sub f => Sys2Proof.Machine.execSub f s
  | .mul f => Sys2Proof.Machine.execMul f s
  | .mulh f => Sys2Proof.Machine.execMulh f s
  | .mad f => Sys2Proof.Machine.execMad f s
  | .madw f => Sys2Proof.Machine.execMadw f s
  | .min f => Sys2Proof.Machine.execMin f s
  | .max f => Sys2Proof.Machine.execMax f s
  | .abs f => Sys2Proof.Machine.execAbs f s
  | .neg f => Sys2Proof.Machine.execNeg f s
  | .sad f => Sys2Proof.Machine.execSad f s
  | .dot4 f => Sys2Proof.Machine.execDot4 f s
  | .shl f => Sys2Proof.Machine.execShl f s
  | .shr f => Sys2Proof.Machine.execShr f s
  | .sar f => Sys2Proof.Machine.execSar f s
  | .rot f => Sys2Proof.Machine.execRot f s
  | .and f => Sys2Proof.Machine.execAnd f s
  | .or f => Sys2Proof.Machine.execOr f s
  | .xor f => Sys2Proof.Machine.execXor f s
  | .not f => Sys2Proof.Machine.execNot f s
  | .bool3 f => Sys2Proof.Machine.execBool3 f s
  | .bfx f => Sys2Proof.Machine.execBfx f s
  | .bfi f => Sys2Proof.Machine.execBfi f s
  | .brev f => Sys2Proof.Machine.execBrev f s
  | .popc f => Sys2Proof.Machine.execPopc f s
  | .clz f => Sys2Proof.Machine.execClz f s
  | .ctz f => Sys2Proof.Machine.execCtz f s
  | .cmp f => Sys2Proof.Machine.execCmp f s
  | .sel f => Sys2Proof.Machine.execSel f s
  | .mov f => Sys2Proof.Machine.execMov f s
  | .movi f => Sys2Proof.Machine.execMovi f s
  | .fadd f => Sys2Proof.Machine.execFadd f s
  | .fsub f => Sys2Proof.Machine.execFsub f s
  | .fmul f => Sys2Proof.Machine.execFmul f s
  | .ffma f => Sys2Proof.Machine.execFfma f s
  | .fmin f => Sys2Proof.Machine.execFmin f s
  | .fmax f => Sys2Proof.Machine.execFmax f s
  | .fcmp f => Sys2Proof.Machine.execFcmp f s
  | .fclass f => Sys2Proof.Machine.execFclass f s
  | .frnd f => Sys2Proof.Machine.execFrnd f s
  | .fscale f => Sys2Proof.Machine.execFscale f s
  | .fclamp f => Sys2Proof.Machine.execFclamp f s
  | .fdiv f => Sys2Proof.Machine.execFdiv f s
  | .fsqrt f => Sys2Proof.Machine.execFsqrt f s
  | .frcp f => Sys2Proof.Machine.execFrcp f s
  | .frsqrt f => Sys2Proof.Machine.execFrsqrt f s
  | .fexp2 f => Sys2Proof.Machine.execFexp2 f s
  | .flog2 f => Sys2Proof.Machine.execFlog2 f s
  | .fsin f => Sys2Proof.Machine.execFsin f s
  | .fcos f => Sys2Proof.Machine.execFcos f s
  | .ftanh f => Sys2Proof.Machine.execFtanh f s
  | .fsigm f => Sys2Proof.Machine.execFsigm f s
  | .pfma f => Sys2Proof.Machine.execPfma f s
  | .padd f => Sys2Proof.Machine.execPadd f s
  | .pmul f => Sys2Proof.Machine.execPmul f s
  | .cvt f => Sys2Proof.Machine.execCvt f s
  | .qto f => Sys2Proof.Machine.execQto f s
  | .qfrom f => Sys2Proof.Machine.execQfrom f s
  | .qpack f => Sys2Proof.Machine.execQpack f s
  | .qunpk f => Sys2Proof.Machine.execQunpk f s
  | .bscl f => Sys2Proof.Machine.execBscl f s
  | .fsld f => Sys2Proof.Machine.execFsld f s
  | .cvtp f => Sys2Proof.Machine.execCvtp f s
  | .lsel f => Sys2Proof.Machine.execLsel f s
  | .patld f => Sys2Proof.Machine.execPatld f s
  | .poll f => Sys2Proof.Machine.execPoll f s
  | .eqset f => Sys2Proof.Machine.execEqset f s
  | .wred f => Sys2Proof.Machine.execWred f s
  | .wscan f => Sys2Proof.Machine.execWscan f s
  | .lead f => Sys2Proof.Machine.execLead f s
  | .v2s f => Sys2Proof.Machine.execV2s f s
  | .tfill f => Sys2Proof.Machine.execTfill f s
  | .tread f => Sys2Proof.Machine.execTread f s
  | .ldG f => Sys2Proof.Machine.execLdG f s
  | .stG f => Sys2Proof.Machine.execStG f s
  | .ldL f => Sys2Proof.Machine.execLdL f s
  | .stL f => Sys2Proof.Machine.execStL f s
  | .ldC f => Sys2Proof.Machine.execLdC f s
  | .stC f => Sys2Proof.Machine.execStC f s
  | .ldP f => Sys2Proof.Machine.execLdP f s
  | .stP f => Sys2Proof.Machine.execStP f s
  | .pf f => Sys2Proof.Machine.execPf f s
  | .fe f => Sys2Proof.Machine.execFe f s
  | .l1wb f => Sys2Proof.Machine.execL1wb f s
  | .l1inv f => Sys2Proof.Machine.execL1inv f s
  | .kvkey f => Sys2Proof.Machine.execKvkey f s
  | .atom f => Sys2Proof.Machine.execAtom f s
  | .atomf f => Sys2Proof.Machine.execAtomf f s
  | .cas f => Sys2Proof.Machine.execCas f s
  | .ldres f => Sys2Proof.Machine.execLdres f s
  | .stcond f => Sys2Proof.Machine.execStcond f s
  | .fence f => Sys2Proof.Machine.execFence f s
  | .forage f => Sys2Proof.Machine.execForage f s
  | .bar f => Sys2Proof.Machine.execBar f s
  | .cntwt f => Sys2Proof.Machine.execCntwt f s
  | .cntadd f => Sys2Proof.Machine.execCntadd f s
  | .bra f => Sys2Proof.Machine.execBra f s
  | .brx f => Sys2Proof.Machine.execBrx f s
  | .call f => Sys2Proof.Machine.execCall f s
  | .callx f => Sys2Proof.Machine.execCallx f s
  | .ret f => Sys2Proof.Machine.execRet f s
  | .join f => Sys2Proof.Machine.execJoin f s
  | .dqpop f => Sys2Proof.Machine.execDqpop f s
  | .dqbr f => Sys2Proof.Machine.execDqbr f s
  | .exit f => Sys2Proof.Machine.execExit f s
  | .trap f => Sys2Proof.Machine.execTrap f s
  | .brk f => Sys2Proof.Machine.execBrk f s
  | .svc f => Sys2Proof.Machine.execSvc f s
  | .wake f => Sys2Proof.Machine.execWake f s
  | .sreg f => Sys2Proof.Machine.execSreg f s
  | .swreg f => Sys2Proof.Machine.execSwreg f s
  | .yield f => Sys2Proof.Machine.execYield f s
  | .nop f => Sys2Proof.Machine.execNop f s
  | .resume f => Sys2Proof.Machine.execResume f s
  | .twait f => Sys2Proof.Machine.execTwait f s
  | .cadd f => Sys2Proof.Machine.execCadd f s
  | .csub f => Sys2Proof.Machine.execCsub f s
  | .cmul f => Sys2Proof.Machine.execCmul f s
  | .cmulh f => Sys2Proof.Machine.execCmulh f s
  | .cdiv f => Sys2Proof.Machine.execCdiv f s
  | .cand f => Sys2Proof.Machine.execCand f s
  | .cor f => Sys2Proof.Machine.execCor f s
  | .cxor f => Sys2Proof.Machine.execCxor f s
  | .cshl f => Sys2Proof.Machine.execCshl f s
  | .cshr f => Sys2Proof.Machine.execCshr f s
  | .csar f => Sys2Proof.Machine.execCsar f s
  | .cmin f => Sys2Proof.Machine.execCmin f s
  | .cmax f => Sys2Proof.Machine.execCmax f s
  | .cbfx f => Sys2Proof.Machine.execCbfx f s
  | .cbfi f => Sys2Proof.Machine.execCbfi f s
  | .cpopc f => Sys2Proof.Machine.execCpopc f s
  | .cclz f => Sys2Proof.Machine.execCclz f s
  | .cmov f => Sys2Proof.Machine.execCmov f s
  | .cli f => Sys2Proof.Machine.execCli f s
  | .ccmp f => Sys2Proof.Machine.execCcmp f s
  | .csel f => Sys2Proof.Machine.execCsel f s
  | .cb f => Sys2Proof.Machine.execCb f s
  | .cbx f => Sys2Proof.Machine.execCbx f s
  | .ccall f => Sys2Proof.Machine.execCcall f s
  | .cret f => Sys2Proof.Machine.execCret f s
  | .cld f => Sys2Proof.Machine.execCld f s
  | .cst f => Sys2Proof.Machine.execCst f s
  | .catom f => Sys2Proof.Machine.execCatom f s
  | .cfence f => Sys2Proof.Machine.execCfence f s
  | .dqpush f => Sys2Proof.Machine.execDqpush f s
  | .launch f => Sys2Proof.Machine.execLaunch f s
  | .wgbar f => Sys2Proof.Machine.execWgbar f s
  | .cwait f => Sys2Proof.Machine.execCwait f s
  | .cforage f => Sys2Proof.Machine.execCforage f s
  | .cmig f => Sys2Proof.Machine.execCmig f s
  | .cend f => Sys2Proof.Machine.execCend f s
  | .cslot f => Sys2Proof.Machine.execCslot f s
  | .wstat f => Sys2Proof.Machine.execWstat f s
  | .tcfg f => Sys2Proof.Machine.execTcfg f s
  | .tld f => Sys2Proof.Machine.execTld f s
  | .tsd f => Sys2Proof.Machine.execTsd f s
  | .tzero f => Sys2Proof.Machine.execTzero f s
  | .arrw f => Sys2Proof.Machine.execArrw f s
  | .arrmm f => Sys2Proof.Machine.execArrmm f s
  | .arrmmg f => Sys2Proof.Machine.execArrmmg f s
  | .arrdist f => Sys2Proof.Machine.execArrdist f s
  | .arrbest f => Sys2Proof.Machine.execArrbest f s
  | .arrcent f => Sys2Proof.Machine.execArrcent f s
  | .adrain f => Sys2Proof.Machine.execAdrain f s
  | .adrainp f => Sys2Proof.Machine.execAdrainp f s
  | .adraine f => Sys2Proof.Machine.execAdraine f s
  | .azero f => Sys2Proof.Machine.execAzero f s
  | .aload f => Sys2Proof.Machine.execAload f s
  | .txpose f => Sys2Proof.Machine.execTxpose f s
  | .bcp f => Sys2Proof.Machine.execBcp f s
  | .bgat f => Sys2Proof.Machine.execBgat f s
  | .bsca f => Sys2Proof.Machine.execBsca f s
  | .bexp f => Sys2Proof.Machine.execBexp f s
  | .bfill f => Sys2Proof.Machine.execBfill f s
  | .bpeer f => Sys2Proof.Machine.execBpeer f s
  | .mop f => Sys2Proof.Machine.execMop f s
  | .xopen f => Sys2Proof.Machine.execXopen f s
  | .xclose f => Sys2Proof.Machine.execXclose f s
  | .slxp f => Sys2Proof.Machine.execSlxp f s
  | .rsvfill f => Sys2Proof.Machine.execRsvfill f s
  | .rsvdrop f => Sys2Proof.Machine.execRsvdrop f s
  | .rsvq f => Sys2Proof.Machine.execRsvq f s
  | .kvdrop f => Sys2Proof.Machine.execKvdrop f s
  | .kvprio f => Sys2Proof.Machine.execKvprio f s
  | .rsvset f => Sys2Proof.Machine.execRsvset f s
  | .ctrap f => Sys2Proof.Machine.execCtrap f s
  | .cwake f => Sys2Proof.Machine.execCwake f s
  | .csreg f => Sys2Proof.Machine.execCsreg f s
  | .cswreg f => Sys2Proof.Machine.execCswreg f s
  | .cresume f => Sys2Proof.Machine.execCresume f s
  | .iret f => Sys2Proof.Machine.execIret f s
  | .chalt f => Sys2Proof.Machine.execChalt f s
  | .ctxsv f => Sys2Proof.Machine.execCtxsv f s
  | .ctxld f => Sys2Proof.Machine.execCtxld f s
  | .tabort f => Sys2Proof.Machine.execTabort f s
  | .tcommit f => Sys2Proof.Machine.execTcommit f s
  | .csvc f => Sys2Proof.Machine.execCsvc f s
  | .tlbinv f => Sys2Proof.Machine.execTlbinv f s
  | .ptwalk f => Sys2Proof.Machine.execPtwalk f s
  | .pgdup f => Sys2Proof.Machine.execPgdup f s
  | .pgcol f => Sys2Proof.Machine.execPgcol f s
  | .pgsplit f => Sys2Proof.Machine.execPgsplit f s
  | .pgjoin f => Sys2Proof.Machine.execPgjoin f s
  | .pgmig f => Sys2Proof.Machine.execPgmig f s
  | .dirq f => Sys2Proof.Machine.execDirq f s
  | .dirset f => Sys2Proof.Machine.execDirset f s
  | .hostinv f => Sys2Proof.Machine.execHostinv f s
  | .illegalOpcode cue word => Sys2Proof.Machine.execIllegalOpcode cue word s
  | .memoryAccessCompletion flight => Sys2Proof.Machine.execMemoryAccessCompletion flight s
  | .vsfuCompletion flight => Sys2Proof.Machine.execVsfuCompletion flight s
  | .executionPointOperation flight => Sys2Proof.Machine.execExecutionPointOperation flight s
  | .writeBackMerge core line => Sys2Proof.Machine.execWriteBackMerge core line s
  | .fetchFill wg va => Sys2Proof.Machine.execFetchFill wg va s
  | .returnAddressRefill flight => Sys2Proof.Machine.execReturnAddressRefill flight s
  | .contextLineRefill wg line => Sys2Proof.Machine.execContextLineRefill wg line s
  | .fullEmptyServe flight => Sys2Proof.Machine.execFullEmptyServe flight s
  | .counterWaitSatisfied flight => Sys2Proof.Machine.execCounterWaitSatisfied flight s
  | .decisionQueuePop wg warp => Sys2Proof.Machine.execDecisionQueuePop wg warp s
  | .dqpushWrite wg => Sys2Proof.Machine.execDqpushWrite wg s
  | .engineCommandStart cmd => Sys2Proof.Machine.execEngineCommandStart cmd s
  | .arrayCommandStart cmd => Sys2Proof.Machine.execArrayCommandStart cmd s
  | .planeLoad cmd => Sys2Proof.Machine.execPlaneLoad cmd s
  | .streamRowResult cmd => Sys2Proof.Machine.execStreamRowResult cmd s
  | .commandCompletion cmd => Sys2Proof.Machine.execCommandCompletion cmd s
  | .deliveryUnitAdvance cmd => Sys2Proof.Machine.execDeliveryUnitAdvance cmd s
  | .collectiveCompletion flight => Sys2Proof.Machine.execCollectiveCompletion flight s
  | .adrainpRowArrival cmd => Sys2Proof.Machine.execAdrainpRowArrival cmd s
  | .contributionAccept cmd => Sys2Proof.Machine.execContributionAccept cmd s
  | .xcloseAtSlice cmd => Sys2Proof.Machine.execXcloseAtSlice cmd s
  | .tableWalk core asid root va => Sys2Proof.Machine.execTableWalk core asid root va s
  | .nestQueueAppend wg => Sys2Proof.Machine.execNestQueueAppend wg s
  | .queueServe q => Sys2Proof.Machine.execQueueServe q s
  | .launchEntryAccept q => Sys2Proof.Machine.execLaunchEntryAccept q s
  | .copyBlockAccept q => Sys2Proof.Machine.execCopyBlockAccept q s
  | .warpEnd wg warp => Sys2Proof.Machine.execWarpEnd wg warp s
  | .sliceLineReturn wg warp slice => Sys2Proof.Machine.execSliceLineReturn wg warp slice s
  | .cueThreadEnd wg => Sys2Proof.Machine.execCueThreadEnd wg s
  | .workgroupEnd wg => Sys2Proof.Machine.execWorkgroupEnd wg s
  | .gridRetirement grid => Sys2Proof.Machine.execGridRetirement grid s
  | .taking wg => Sys2Proof.Machine.execTaking wg s
  | .imageAreaWrite wg => Sys2Proof.Machine.execImageAreaWrite wg s
  | .registerLineEviction wg line => Sys2Proof.Machine.execRegisterLineEviction wg line s
  | .migrationMessage wg intact => Sys2Proof.Machine.execMigrationMessage wg intact s
  | .serviceReply flight => Sys2Proof.Machine.execServiceReply flight s
  | .errorQueueDropReport => Sys2Proof.Machine.execErrorQueueDropReport s
  | .reservationTimeout => Sys2Proof.Machine.execReservationTimeout s
  | .joinDeadline => Sys2Proof.Machine.execJoinDeadline s
  | .yieldExpiry => Sys2Proof.Machine.execYieldExpiry s
  | .workgroupPlacement => Sys2Proof.Machine.execWorkgroupPlacement s
  | .agingTick => Sys2Proof.Machine.execAgingTick s
  | .resumption => Sys2Proof.Machine.execResumption s
  | .migrationFallback => Sys2Proof.Machine.execMigrationFallback s
  | .preemptionTimeout => Sys2Proof.Machine.execPreemptionTimeout s
  | .serviceTimeout => Sys2Proof.Machine.execServiceTimeout s
  | .sensorRefresh cols dies => Sys2Proof.Machine.execSensorRefresh cols dies s
  | .governorInterval power => Sys2Proof.Machine.execGovernorInterval power s
  | .governorHoldLimit => Sys2Proof.Machine.execGovernorHoldLimit s
  | .diePowerOff => Sys2Proof.Machine.execDiePowerOff s
  | .dieReturn => Sys2Proof.Machine.execDieReturn s
  | .combLineError line => Sys2Proof.Machine.execCombLineError line s
  | .machineCheckEvent detail addr => Sys2Proof.Machine.execMachineCheckEvent detail addr s
  | .directoryErrorRecovery index sizeKnown => Sys2Proof.Machine.execDirectoryErrorRecovery index sizeKnown s
  | .startUp linksTrained hbmTrained cols dies => Sys2Proof.Machine.execStartUp linksTrained hbmTrained cols dies s
  | .attestation => Sys2Proof.Machine.execAttestation s
  | .mwakeWrite stack value => Sys2Proof.Machine.execMwakeWrite stack value s
  | .queueWakeWrite q value => Sys2Proof.Machine.execQueueWakeWrite q value s
  | .queueEnable => Sys2Proof.Machine.execQueueEnable s
  | .queueDisable => Sys2Proof.Machine.execQueueDisable s
  | .wshareUpdate => Sys2Proof.Machine.execWshareUpdate s
  | .registerWrite offset bytes value => Sys2Proof.Machine.execRegisterWrite offset bytes value s
  | .hostRead pa n own => Sys2Proof.Machine.execHostRead pa n own s
  | .hostWrite pa data => Sys2Proof.Machine.execHostWrite pa data s
  | .hostRecall line dirty => Sys2Proof.Machine.execHostRecall line dirty s
  | .readMsg src pa n => Sys2Proof.Machine.execReadMsg src pa n s
  | .writeMsg src pa data => Sys2Proof.Machine.execWriteMsg src pa data s
  | .atomicMsg src pa wid float aop operand => Sys2Proof.Machine.execAtomicMsg src pa wid float aop operand s
  | .grant page owned seq data syndromes => Sys2Proof.Machine.execGrant page owned seq data syndromes s
  | .probeInv page seq => Sys2Proof.Machine.execProbeInv page seq s
  | .probeRecall page seq => Sys2Proof.Machine.execProbeRecall page seq s
  | .probeSplit page seq => Sys2Proof.Machine.execProbeSplit page seq s
  | .probeAll page home => Sys2Proof.Machine.execProbeAll page home s
  | .ack src page seq data dropped => Sys2Proof.Machine.execAck src page seq data dropped s
  | .forwardedCommand src op pa operand => Sys2Proof.Machine.execForwardedCommand src op pa operand s
  | .packet port header rest more => Sys2Proof.Machine.execPacket port header rest more s
  | .nak port lseq => Sys2Proof.Machine.execNak port lseq s
  | .linkRetryThreshold => Sys2Proof.Machine.execLinkRetryThreshold s
  | .linkDown port => Sys2Proof.Machine.execLinkDown port s
  | .linkUp port => Sys2Proof.Machine.execLinkUp port s

end Sys2Proof.Machine
end

