-- ==== Sys2Proof/Machine/Placed.lean ====
section
/-! DEFINITION. An instruction placed where the next step fetches it: in the stream of a workgroup of one thread, or of management core 0 (log 40). -/

namespace Sys2Proof.Machine

/-- Where the placed instruction lies. -/
def placedPc : VAddr := 0x10000
/-- The launch record of the placed instruction's grid: one thread, every register declared. -/
def placedRec : LaunchRec :=
  { parseRec [] with version := 1, cutmax := 65535, wstream := 0x10000, cstream := 0x10000, gdim := (1, 1, 1), wdim := (1, 1, 1), vregs := 128, sregs := 64, tiles := 16, accs := 8, tileg := 128 }
/-- The clause it stands in, past its first instruction. -/
def placedClause (cue : Bool) : Clause :=
  { hdr := placedPc - 4, eng := if cue then 4 else 3, wait := 0, left := 14, len := 15, cut := false, strict := false, cutix := 0, first := false, waited := true }
/-- The instruction-cache line that holds it. -/
def placedLine (unit nbits w : Nat) : ILine :=
  { pair := unit, asid := 0, va := 0x10000, data := leBytes 8 (w % 2 ^ nbits) ++ List.replicate 120 0, mark := none }
/-- The grid of the placed workgroup. -/
def placedGrid (s : State) : Grid :=
  { num := s.nextGrid, lrec := placedRec, depth := 1, parent := none, notify := none, queue := none, asid := 0, root := 0, owner := 0, svcOk := true, wakeOk := true, run := 0
    patterns := identityPatterns, basePrio := 0, aged := 0, readySince := 0, nextWg := 1, endedWgs := 0, retired := false }
/-- The workgroup that runs it, on core 0. -/
def placedWg (s : State) : Workgroup :=
  let k := newWg (placedGrid s) s.nextId 0 0 0 { ctx := 0, places := [(0, 0)], bases := [] }
  { k with
    warps := k.warps.map fun x => { x with threads := x.threads.map fun th => { th with pc := placedPc, clause := some (placedClause false) } }
    cue := { k.cue with pc := placedPc, clause := some (placedClause true) } }
/-- A state with an instruction placed in a workgroup's stream. -/
def placeInWg (s : State) (nbits w : Nat) (a : Act) : State :=
  { s with agenda := [a], grids := placedGrid s :: s.grids, wgs := placedWg s :: s.wgs, nextGrid := s.nextGrid + 1, nextId := s.nextId + 1, icache := placedLine 0 nbits w :: s.icache }
/-- A state with an instruction placed in the stream of management core 0. -/
def placeInMgmt (s : State) (nbits w : Nat) : State :=
  { s with agenda := [.mgmt 0], mgmt := s.mgmt.modify 0 fun x => { x with stopped := false, inTrap := false, cue := { Cue.zero with pc := placedPc, clause := some (placedClause true) } }
           icache := placedLine 1024 nbits w :: s.icache }
/-- `s` with a table row's bits placed. -/
def placeWord (s : State) (nbits w : Nat) : State :=
  match tableWord nbits w with
  | some (.cue, i) => if cuePriv i then placeInMgmt s nbits w else placeInWg s nbits w (.cue s.nextId)
  | _ => placeInWg s nbits w (.warp s.nextId 0 0)

end Sys2Proof.Machine
end

