-- ==== Sys2Proof/Machine/Step.lean ====
section
/-! DEFINITION. One step of the device, and the placing of one instruction where the next step fetches it. -/

namespace Sys2Proof.Machine

/-- ONE STEP: the act that the agenda names, or one of those that can be taken (Machine/Schedule.lean); an instruction is executed for the group or thread that `cur` names. Then comes what the act leaves behind, and streams that stand at a sound header enter their clauses. -/
def step (s : State) : Host.Outcome State Fault Refusal :=
  match planOf (begin_ s) (chosen s) with
  | .done t => .next (enterAll (finishAct (ticks s) (chosen s) none (begin_ s) (begin_ s) t))
  | .run i r =>
    match exec i r with
    | .next t => .next (enterAll (finishAct (ticks s) (chosen s) (some i) (begin_ s) r t))
    | .fault x => .fault x
    | .refused x => .refused x

/-- `s` with an instruction stored where the next step fetches: a workgroup of one thread stands at it (a management core, for a privileged one), its line is in the instruction cache, and the agenda names that stream (log 40). -/
def State.withFetchWord (s : State) (nbits w : Nat) : State := placeWord s nbits w

end Sys2Proof.Machine
end

