-- ==== Sys2Proof/Safety.lean ====
section
/-! DEFINITION. What counts as a sound state and a safe run (the three memories keep their canonical form, and a step answers a next state), and the terms in which statements speak: when an instruction executes, what its threads then hold, and what stays as it was. -/

namespace Sys2Proof.Machine

/-- The memories of a state are in canonical form (Machine/Sparse.lean). -/
def State.wf (s : State) : Bool := Memory.wf s.mem && Memory.wf s.hostMem && Memory.wf s.lstore

/-- The step at a state goes on. -/
def State.goesOn (s : State) : Prop := ∃ t, step s = .next t

/-- A run of n steps goes on. -/
def State.runs (s : State) : Nat → Prop
  | 0 => True
  | n + 1 => ∃ t, step s = .next t ∧ State.runs t n

/-! ### What a step fetches (07 R157) -/

/-- The bytes that a stream's cache holds at a PC decode to instruction i, a second word lying within the clause. -/
def Fetched (s : State) (unit : Nat) (asid : BitVec 16) (st : Stream) (pc left : Nat) (i : Instr) : Prop :=
  ∃ b, pieceAt s unit asid pc = .bytes b ∧ b.length = 4 ∧
    (decode st b = .ok (i, []) ∨ (2 ≤ left ∧ ∃ b', pieceAt s unit asid ((pc + 4) % 2 ^ 57) = .bytes b' ∧ decode st (b ++ b') = .ok (i, [])))
/-- The group that the port which chose a warp issues (07 R151 steps 1 and 2). -/
def portGroup (s : State) (g : Grid) (k : Workgroup) (w : Warp) (wi port : Nat) : List Nat := voteA w (readyLanes s g k w wi port)
/-- No wait stands before the instruction: it is not its clause's first, or the clause waits for nothing (02 R29). -/
def Clause.started (c : Clause) : Bool := !c.first || c.wait == 0
/-- A state in which a stream takes the step. -/
def atIssue (s : State) (iss : Issuer) : State := { begin_ s with cur := iss }
/-- A state in which a group issues on a port: it does not see the writes that 06 R134 hides from it. -/
def atPort (s : State) (wg wi port : Nat) (w : Warp) (lanes : List Nat) : State :=
  updWarp { begin_ s with port := port, cur := .warp wg wi lanes } wg wi fun x => { x with view := viewOf (begin_ s).clk lanes w }
/-- The end of the step that ran an instruction from r to t: what the act leaves behind (07 R150 to R153), and streams at sound headers enter their clauses. -/
def stepEnd (s : State) (i : Instr) (r t : State) : State := enterAll (finishAct (ticks s) (chosen s) (some i) (begin_ s) r t)
/-- The end of a step that ran no instruction. -/
def stepEndPlain (s t : State) : State := enterAll (finishAct (ticks s) (chosen s) none (begin_ s) (begin_ s) t)

/-! ### When an instruction executes (13 R346) -/

/-- The group of a context executes a warp instruction: its workgroup is resident, some thread of it is live, none is held (02 R58), no deferred cause falls due (13 R357), it meets no cause of R346, and it has what it waits for. -/
def WarpReady (op : WOp) (s : State) (c : WCtx) : Bool :=
  c.k.st = .resident && c.lanes ≠ [] && !c.lanes.any (heldLane op c)
    && !(c.lanes.any fun l => (laneDue op c l).isSome)
    && (issueCause op s c).isNone && !op.hold s c

/-- A cue thread executes a cue instruction, for the same reasons. -/
def CueReady (op : COp) (s : State) (c : CCtx) : Bool :=
  !cueStopped s c && !(c.c.windows.any fun x => !x.done && ((op.drain && c.pass) || x.left = 0))
    && (cueFalls s c.iss (op.drain && c.pass) (if c.pass then op.toks s c else 0) c.c).isNone
    && (cueCause op s c).isNone && !(c.pass && op.hold s c)

/-! ### What a warp instruction leaves in its threads -/

/-- A thread that has issued an instruction and stands past it (02 R25, R55, 13 R348, R370, R371). -/
def passed (c : WCtx) (i : Instr) (th : Thread) : Thread := stepThread (instrLen (warpL i)) (countThread c.w th)
/-- A contributor has also written the instruction's destinations, which are no longer dead in a retake stub (13 R348). -/
def passedAt (c : WCtx) (i : Instr) (l : Nat) (th : Thread) : Thread := if l ∈ c.cs then writeThread (WCtx_use c i) (passed c i th) else passed c i th
/-- The threads of a warp after an instruction: those of the group have passed it and are changed by `f`; the others are as they were. -/
def threadsAfter (c : WCtx) (i : Instr) (f : Nat → Thread → Thread) : List Thread :=
  c.w.threads.mapIdx fun l th => if l ∈ c.lanes then f l (passedAt c i l th) else th
/-- The flags of a lane are merged into its `%fpstat` (04 R97). -/
def withFlags (c : WCtx) (fl : Nat → Flags) (l : Nat) (th : Thread) : Thread :=
  if l ∈ c.cs ∧ fl l ≠ 0 then { th with fpstat := fpMerge th.fpstat (fl l) } else th
/-- A warp after an instruction that gives registers d to d + n − 1 of each contributor a value, and merges its flags; nothing else of the warp changes. -/
def GivesLanes (c : WCtx) (i : Instr) (d n : Nat) (val : Nat → Nat × Flags) (w : Warp) : Prop :=
  (∀ r l, l < 128 → vget w r l = if l ∈ c.cs ∧ d ≤ r ∧ r < d + n then BitVec.ofNat 32 ((val l).1 / 2 ^ (32 * (r - d))) else vget c.w r l)
    ∧ { w with vregs := c.w.vregs, threads := c.w.threads } = c.w ∧ w.threads = threadsAfter c i (withFlags c fun l => (val l).2)
/-- A warp after an instruction that gives predicate d of each contributor a value (a write of p7 is discarded, 02 R47), and merges its flags. -/
def GivesPreds (c : WCtx) (i : Instr) (d : Nat) (val : Nat → Bool × Flags) (w : Warp) : Prop :=
  (∀ n l, l < 128 → pget w n l = if l ∈ c.cs ∧ n = d ∧ d ≠ 7 then (val l).1 else pget c.w n l)
    ∧ { w with preds := c.w.preds, threads := c.w.threads } = c.w ∧ w.threads = threadsAfter c i (withFlags c fun l => (val l).2)

/-- A warp instruction answers a next state in which one warp has become w', and nothing else of the device has changed. -/
def AnswersWarp (i : Instr) (s : State) (c : WCtx) (w' : Warp) : Prop := ∃ g, exec i s = .next (updWarp s c.wg c.wi g) ∧ g c.w = w'
/-- What becomes of the contributors' threads alone. -/
def onCs (c : WCtx) (f : Thread → Thread) (l : Nat) (th : Thread) : Thread := if l ∈ c.cs then f th else th
/-- A thread that transfers to a clause header (07 R155): no clause is open. -/
def landed (pc : VAddr) (th : Thread) : Thread := { th with pc := pc, clause := none }
/-- The threads of a warp after a parking instruction (07 R148): the contributors stay at it, counted, and become `f`; the others of the group have passed it and become `g`. -/
def threadsParkedWith (c : WCtx) (i : Instr) (f g : Thread → Thread) : List Thread :=
  c.w.threads.mapIdx fun l th => if l ∈ c.cs then f (writeThread (WCtx_use c i) { countThread c.w th with plen := instrLen (warpL i) })
    else if l ∈ c.lanes then g (passed c i { th with plen := instrLen (warpL i) }) else th
/-- The same, the others of the group unchanged beyond that. -/
def threadsParked (c : WCtx) (i : Instr) (f : Thread → Thread) : List Thread := threadsParkedWith c i f id

/-- As AnswersWarp, with a change h of what lies outside the workgroup's record. -/
def AnswersWith (i : Instr) (s : State) (c : WCtx) (w' : Warp) (h : State → State) : Prop := ∃ g, exec i s = .next (h (updWarp s c.wg c.wi g)) ∧ g c.w = w'
/-- A long operation put in flight under the next number (02 R55). -/
def inFlight (who : Issuer) (pc : VAddr) (look : Nat) (kind : FlightKind) (s : State) : State :=
  { s with nextId := s.nextId + 1, flights := s.flights ++ [{ id := s.nextId, who := who, pc := pc, look := look, clk := s.clk, kind := kind }] }
/-- A thread with the window of a flight open (02 R55, R56). -/
def openedWindow (c : WCtx) (i : Instr) (id : Nat) (isSvc isPriv : Bool) (th : Thread) : Thread :=
  { th with windows := th.windows ++ [{ flight := id, left := (warpLook i).getD 0, wr := (WCtx_use c i).wv, rd := (WCtx_use c i).pend, isSvc := isSvc, isPriv := isPriv, done := false }] }
/-- A warp in which the windows of a flight are done (02 R56). -/
def doneIn (n : Nat) (w : Warp) : Warp := { w with threads := w.threads.map fun th => { th with windows := doneWindow th.windows n } }
/-- A long warp instruction that has issued (02 R55, R56): its flight, and its window in every thread of the group. -/
def launched (c : WCtx) (i : Instr) (kind : FlightKind) (isSvc isPriv : Bool) (t : State) : State :=
  updThreads (inFlight (WCtx_iss c) c.pc ((warpLook i).getD 0) kind t) c.wg c.wi c.lanes (openedWindow c i t.nextId isSvc isPriv)
/-- The next memory access of a stream waits for no operation on its way to an execution point: there is none of the stream (08 R179, 09 R216), nor one of its core to a strongly consistent page (09 R219). -/
def undrained (s : State) (iss : Issuer) : Bool := s.flights.all fun f => match f.kind with
  | .exec _ ops _ => !sameStream f.who iss && !(decide (issuerCore s f.who = issuerCore s iss) && ops.any (·.sc))
  | _ => true
/-- The computation of a special-function instruction on its first two operands (04 R111, R112). -/
def specialFn (i : Instr) : Option (VF → Nat → Nat → Nat × Flags) :=
  match i with
  | .fdiv _ => some fun f a b => fpuDiv f.m a b 0
  | .fsqrt _ => some fun f a _ => fpuSqrt f.m a 0 0
  | .frcp _ => some fun f a _ => fpuApprox 0x2D f.m a
  | .frsqrt _ => some fun f a _ => fpuApprox 0x2E f.m a
  | .fexp2 _ => some fun f a _ => fpuApprox 0x2F f.m a
  | .flog2 _ => some fun f a _ => fpuApprox 0x30 f.m a
  | .fsin _ => some fun f a _ => fpuApprox 0x31 f.m a
  | .fcos _ => some fun f a _ => fpuApprox 0x32 f.m a
  | .ftanh _ => some fun f a _ => fpuApprox 0x33 f.m a
  | .fsigm _ => some fun f a _ => fpuApprox 0x34 f.m a
  | _ => none

/-- The bytes of a load or store (08 R204): its fields, space and address form. -/
def loadForm (i : Instr) : Option (MF × Space × MA) :=
  match i with
  | .ldG f => some (f, .global, .base)
  | .ldL f => some (f, .local_, .off)
  | .ldC f => some (f, .cluster, .off)
  | .ldP f => some (f, .priv, .off)
  | _ => none
def storeForm (i : Instr) : Option (MF × Space × MA) :=
  match i with
  | .stG f => some (f, .global, .base)
  | .stL f => some (f, .local_, .off)
  | .stC f => some (f, .cluster, .off)
  | .stP f => some (f, .priv, .off)
  | _ => none
/-- Bytes of an access. -/
def mBytes (f : MF) : Nat := 2 ^ f.wid.toNat
/-- The acquire half of an access, when its ORDR is 2 (09 R215). -/
def acquireIf (b : Bool) (iss : Issuer) (obs : BitVec 7) (s : State) : State := if b then acquire s iss obs else s
/-- The local-store address of each contributor of an access, all of which have one. -/
def AtLocal (s : State) (c : WCtx) (f : MF) (m : MA) (sp : Space) (w : Bool) (adr : Nat → Nat) : Prop :=
  ∀ l ∈ c.cs, place s (WCtx_iss c) sp c.wi l (mAddr (passW c l) f m (sp == .priv) l) (mBytes f) w = .ok (.ls (adr l)) Trans_none
/-- The contributor whose store a byte of a local store takes: the highest lane that covers it (lanes store in ascending order). -/
def lastWriter (c : WCtx) (n : Nat) (adr : Nat → Nat) (x : Nat) : Option Nat := (c.cs.filter fun l => decide (adr l ≤ x ∧ x < adr l + n)).getLast?

/-! ### The results of the lane instructions (03 to 06) -/

/-- The integer computation of an instruction on MOD and its operands (03). -/
def intFn (i : Instr) : Option (Nat → Nat → Nat → Nat → Nat) :=
  match i with
  | .add _ => some aluAdd
  | .sub _ => some aluSub
  | .mul _ => some aluMul
  | .mulh _ => some aluMulh
  | .mad _ => some aluMad
  | .madw _ => some aluMadw
  | .min _ => some aluMin
  | .max _ => some aluMax
  | .abs _ => some aluAbs
  | .neg _ => some aluNeg
  | .sad _ => some aluSad
  | .dot4 _ => some aluDot4
  | .shl _ => some aluShl
  | .shr _ => some aluShr
  | .sar _ => some aluSar
  | .rot _ => some aluRot
  | .and _ => some aluAnd
  | .or _ => some aluOr
  | .xor _ => some aluXor
  | .not _ => some aluNot
  | .bfx _ => some aluBfx
  | .bfi _ => some aluBfi
  | .brev _ => some aluBrev
  | .popc _ => some aluPopc
  | .clz _ => some aluClz
  | .ctz _ => some aluCtz
  | .mov _ => some aluMov
  | .bool3 f => some fun m a b c => aluBool3 (f.param.toNat + 128 * (m % 2)) a b c
  | _ => none

/-- The floating-point computation of an instruction on MOD and its operands, with the flags it raises (04). -/
def floatFn (i : Instr) : Option (Nat → Nat → Nat → Nat → Nat × Flags) :=
  match i with
  | .fadd _ => some fpuAdd
  | .fsub _ => some fpuSub
  | .fmul _ => some fpuMul
  | .ffma _ => some fpuFma
  | .fmin _ => some fun m a b _ => fpuMinMax false m a b
  | .fmax _ => some fun m a b _ => fpuMinMax true m a b
  | .fclass _ => some fun _ a _ _ => (fpuClass a, 0)
  | .frnd _ => some fun m a _ _ => fpuRnd m a
  | .fscale _ => some fun m a b _ => fpuScale m a b
  | .fclamp _ => some fpuClamp
  | .pfma _ => some fun m a b c => fpuPacked m a b c fun x y z => fFma (rmOf m) x y z
  | .padd _ => some fun m a b c => fpuPacked m a b c fun x y _ => fAdd (rmOf m) x y
  | .pmul _ => some fun m a b c => fpuPacked m a b c fun x y _ => fMul x y
  | _ => none

/-- The fields and the shape of a V-layout instruction in a context. -/
def shapeOf (c : WCtx) (i : Instr) : Option (VF × VSpec) := vSpec c.W (WCtx_slot c) i
/-- Registers of the destination. -/
def dstRegs (c : WCtx) (i : Instr) : Nat := match shapeOf c i with
  | some (_, v) => Dst.regs v.d
  | none => 0
/-- A function of the three operands of a lane. -/
def onOperands {α : Type} (c : WCtx) (i : Instr) (z : α) (fn : VF → Nat → Nat → Nat → α) (l : Nat) : α :=
  match shapeOf c i with
  | some (f, v) => let (x, y, w) := operands c f v l; fn f x y w
  | none => z
/-- The value of one operand of a lane, as the pass of its own slice reads it (03 R71). -/
def sourceA (c : WCtx) (i : Instr) (l : Nat) : Nat := onOperands c i 0 (fun _ x _ _ => x) l
def sourceB (c : WCtx) (i : Instr) (l : Nat) : Nat := onOperands c i 0 (fun _ _ y _ => y) l
/-- The same of a lane instruction (06 R139 to R146), whose group reads all in the first pass's clk (06 R134). -/
def groupA (c : WCtx) (i : Instr) (l : Nat) : Nat := match shapeOf c i with
  | some (f, v) => srcVal c.w f v.a f.a f.pa l
  | none => 0
def groupB (c : WCtx) (i : Instr) (l : Nat) : Nat := match shapeOf c i with
  | some (f, v) => srcVal c.w f v.b f.b f.pb l
  | none => 0

/-- Contributors whose predicate A has the sense that `poll` asks for (06 R141). -/
def pollYes (c : WCtx) (f : VF) : List Nat := c.cs.filter (pollQ c f)
/-- The contributors of a lane's segment (06 R137) that a filter keeps. -/
def segLanes (c : WCtx) (f : VF) (keep : Nat → Bool) (l : Nat) : List Nat := (c.cs.filter fun m => m / segSize c.W f == l / segSize c.W f && keep m)

/-- The vector result of a lane instruction: D, its registers, and each lane's value with its flags. -/
def vectorResult (s : State) (c : WCtx) (i : Instr) : Option (Nat × Nat × (Nat → Nat × Flags)) :=
  match i with
  | .sel f => some (f.d.toNat, dstRegs c i, fun l => (if pget c.w (f.c.toNat % 8) l then sourceA c i l else sourceB c i l, 0))
  | .movi f => some (f.d.toNat, if f.b = 0 then 1 else 2, fun _ => (aluMovi f.b.toNat f.imm, 0))
  | .cvt f => some (f.d.toNat, dstRegs c i, fun l => fpuCvt f.m f.b.toNat (sourceA c i l) (vgetN c.w f.d.toNat l 1))
  | .qto f => some (f.d.toNat, 1, fun l => quantise (slotOf c f) (sourceA c i l) (sourceB c i l))
  | .qfrom f => some (f.d.toNat, 1, fun l => dequantise (slotOf c f) f.m (sourceA c i l) (sourceB c i l))
  | .qpack f => some (f.d.toNat, 1, fun l => qpackFrom (slotOf c f) (sourceA c i l) (sourceB c i l) 0 (slGroup (slotOf c f)))
  | .qunpk f => some (f.d.toNat, dstRegs c i, fun l => qunpkFrom (slotOf c f) f.m (sourceA c i l) (sourceB c i l) 0 (slGroup (slotOf c f)))
  | .bscl f => some (f.d.toNat, 1, fun l =>
      bsclScale (slotOf c f) (f.m == 1) ((c.cs.filter fun m => bsclSeg (slotOf c f) c.W m == bsclSeg (slotOf c f) c.W l).map (sourceA c i)))
  | .fsld f => some (f.d.toNat, 1, fun _ => (slotValue (slotOf c f) f.m, 0))
  | .cvtp f => some (f.d.toNat, 1, fun l => fpuCvtp f.m (sourceA c i l) (sourceB c i l))
  | .lsel f => some (f.d.toNat, dstRegs c i, fun l => (laneRead c.w f.a.toNat (lselSrc (f.m % 4) (segSize c.W f) l (groupB c i l)) (dstRegs c i), 0))
  | .eqset f => some (f.d.toNat, dstRegs c i, fun l =>
      let same := c.cs.filter fun m => groupA c i m == groupA c i l
      (if f.m / 2 = 0 then (laneMask same).toNat
        else if f.m / 2 = 1 then (if same.length = c.cs.length then (laneMask c.cs).toNat else 0)
        else (same.filter fun m => decide (m < l)).length, 0))
  | .wred f => some (f.d.toNat, dstRegs c i, fun l =>
      redList (f.b.toNat % 16) (if f.b.toNat / 16 % 2 = 1 then 64 else 32) ((segLanes c f (fun _ => true) l).map (groupA c i)))
  | .wscan f => some (f.d.toNat, dstRegs c i, fun l =>
      redList (f.b.toNat % 16) (if f.b.toNat / 16 % 2 = 1 then 64 else 32) ((segLanes c f (fun m => if f.m = 1 then decide (m < l) else decide (m ≤ l)) l).map (groupA c i)))
  | .poll f => if f.m < 3 then none else some (f.d.toNat, dstRegs c i, fun _ =>
      (if f.m = 3 then (laneMask (pollYes c f)).toNat else if f.m = 4 then (pollYes c f).length else (pollYes c f).headD 0xFFFFFFFF, 0))
  | .sreg f => some (f.d.toNat, if f.b = 20 then 2 else 1, fun l => ((sregWarp s c l f.b.toNat).getD 0, 0))
  | i => match intFn i with
    | some fn => (shapeOf c i).map fun (f, _) => (f.d.toNat, dstRegs c i, onOperands c i (0, 0) fun f x y z => (fn f.m x y z, 0))
    | none => (floatFn i).bind fun fn => (shapeOf c i).map fun (f, _) => (f.d.toNat, dstRegs c i, onOperands c i (0, 0) fun f x y z => fn f.m x y z)

/-- What a special-function instruction writes when it completes: the registers, and the flags of each contributor. -/
def specialResult (c : WCtx) (i : Instr) : Option (List RegWrite × List (Nat × BitVec 7)) :=
  (specialFn i).bind fun fn => (shapeOf c i).map fun (f, _) =>
    (c.cs.map fun l => ⟨l, f.d.toNat, BitVec.ofNat 64 (fn f (sourceA c i l) (sourceB c i l)).1⟩, c.cs.map fun l => (l, (fn f (sourceA c i l) (sourceB c i l)).2))

/-- The predicate result of a lane instruction: the predicate, and each lane's value with its flags. -/
def predicateResult (c : WCtx) (i : Instr) : Option (Nat × (Nat → Bool × Flags)) :=
  match i with
  | .cmp f => some (f.d.toNat % 8, fun l => (aluCmp f.m (f.d.toNat / 8) (sourceA c i l) (sourceB c i l), 0))
  | .fcmp f => some (f.d.toNat % 8, fun l => fpuCmp f.m (f.d.toNat / 8) (sourceA c i l) (sourceB c i l))
  | .poll f => if f.m < 3 then some (f.d.toNat % 8, fun _ =>
      (if f.m = 0 then (pollYes c f).length == c.cs.length else if f.m = 1 then pollYes c f != []
        else pollYes c f == [] || (pollYes c f).length == c.cs.length, 0)) else none
  | .lead f => some (f.d.toNat % 8, fun l =>
      let yes := c.cs.filter fun m => pget c.w (f.a.toNat % 8) m
      ((if f.m = 1 then yes.getLast? else yes.head?) == some l, 0))
  | _ => none

/-! ### What a cue instruction leaves (10) -/

/-- A cue thread that has issued an instruction and stands past it, one whose guard failed at it (10 R246), and one that stays at it, counted (10 R244, R247). -/
def passedCue (i : Instr) (x : Cue) : Cue := stepCue (instrLen (cueWord i).1) (countCue (cueUse i) true x)
def missedCue (i : Instr) (x : Cue) : Cue := stepCue (instrLen (cueWord i).1) (countCue (cueUse i) false x)
def stayedCue (i : Instr) (x : Cue) : Cue := { countCue (cueUse i) true x with plen := instrLen (cueWord i).1 }
/-- A cue instruction answers a next state in which its thread has become x', with a change h of what lies outside the thread. -/
def AnswersCue (i : Instr) (s : State) (c : CCtx) (x' : Cue) (h : State → State) : Prop := ∃ g, exec i s = .next (h (updCue s c.iss g)) ∧ g c.c = x'
/-- A cue thread that lands on a clause header. -/
def landedCue (pc : VAddr) (x : Cue) : Cue := { x with pc := pc, clause := none }
/-- The window that a long cue instruction opens. -/
def openedCue (i : Instr) (id : Nat) (isSvc : Bool) (x : Cue) : Cue :=
  { x with windows := x.windows ++ [{ flight := id, left := (cueLook i).getD 0, wr := (cueUse i).wc, rd := (cueUse i).pend, isSvc := isSvc, isPriv := false, done := false }] }
/-- The fields and the value of a scalar instruction on a, b and the old c(D) (10 R262, R263). -/
def scalarFn (i : Instr) : Option (QF × (Nat → Nat → Nat → Int)) :=
  match i with
  | .cadd f => some (f, fun a b _ => if f.mod = 1 then max (-2 ^ 63) (min (2 ^ 63 - 1) (sextN a 64 + sextN b 64)) else if f.mod = 2 then min (2 ^ 64 - 1) (a + b : Int) else (a + b : Int))
  | .csub f => some (f, fun a b _ => if f.mod = 1 then max (-2 ^ 63) (min (2 ^ 63 - 1) (sextN a 64 - sextN b 64)) else if f.mod = 2 then max 0 (a - b : Int) else (a - b : Int))
  | .cmul f => some (f, fun a b _ => (a * b : Nat))
  | .cmulh f => some (f, fun a b _ => if f.mod = 0 then sextN a 64 * sextN b 64 / 2 ^ 64 else (a * b / 2 ^ 64 : Nat))
  | .cand f => some (f, fun a b _ => (a &&& b : Nat))
  | .cor f => some (f, fun a b _ => (a ||| b : Nat))
  | .cxor f => some (f, fun a b _ => (a ^^^ b : Nat))
  | .cshl f => some (f, fun a b _ => if b < 64 then (a * 2 ^ b : Nat) else 0)
  | .cshr f => some (f, fun a b _ => if b < 64 then (a / 2 ^ b : Nat) else 0)
  | .csar f => some (f, fun a b _ => sextN a 64 / 2 ^ min b 63)
  | .cmin f => some (f, fun a b _ => if f.mod = 0 then min (sextN a 64) (sextN b 64) else (min a b : Nat))
  | .cmax f => some (f, fun a b _ => if f.mod = 0 then max (sextN a 64) (sextN b 64) else (max a b : Nat))
  | .cbfx f => some (f, fun a b _ => (aluBfx (2 + f.mod.toNat) a b 0 : Nat))
  | .cbfi f => some (f, fun a b d => (aluBfi 1 a b d : Nat))
  | .cpopc f => some (f, fun _ b _ => (popcountN b 64 : Nat))
  | .cclz f => some (f, fun _ b _ => (clzN b 64 : Nat))
  | .cmov f => some (f, fun _ b _ => b)
  | .cli f => some (f, fun _ _ d =>
      let imm : Int := if f.l then f.imm.toInt else sextN (f.a.toNat * 64 + f.b.toNat) 12
      if f.mod = 0 then imm else if f.mod = 1 then (d % 2 ^ 32 : Nat) + imm % 2 ^ 32 * 2 ^ 32 else imm % 2 ^ 32)
  | _ => none

/-- A long cue instruction that has issued (10 R247): its flight, and its window. -/
def launchedCue (c : CCtx) (i : Instr) (kind : FlightKind) (isSvc : Bool) (t : State) : State :=
  updCue (inFlight c.iss c.pc ((cueLook i).getD 0) kind t) c.iss (openedCue i t.nextId isSvc)
/-- A cause recorded in its lanes (08 R198): each has it due when the window of its flight is used up. -/
def recorded (fl : Flight) (bad : List (Nat × Cause × BitVec 64)) (w : Warp) : Warp :=
  bad.foldl (fun w (l, x, a) => Warp_updThread w l fun th => { th with deferred := th.deferred ++ [{
    cause := x, addr := a, lanes := laneMask ((bad.filter fun (_, y, _) => y == x).map (·.1)), fpc := fl.pc, tok := none, left := windowLeft th.windows fl.id, engine := false, words := 0, stamp := fl.id }] }) w
/-- No task whose effects are versioned issues (13 R363). -/
def untasked (c : CCtx) : Bool := !c.k.any (·.taskOn)
/-- The operations of a cue thread at an execution point (10 R274, R275): fields with the offset that counts in the address, bytes, exclusive access, and operand words. -/
def cuePointForm (c : CCtx) (i : Instr) : Option (QM × Nat × Bool × List DWord) :=
  match i with
  | .catom f => some ({ f with ofs := 0 }, 2 ^ f.wid.toNat, false, [cget c.c f.b.toNat, cget c.c f.d.toNat])
  | .cforage f => some (f, 32, true, [])
  | _ => none
/-- A cue thread whose token, if the command has one, has risen (09 R224). -/
def tokUp (t : Option Nat) (x : Cue) : Cue :=
  match t with
  | some n => { x with tokens := x.tokens.set n (x.tokens.get n + 1) }
  | none => x
/-- Home memory holds some bytes at an address, and is elsewhere as it was. -/
def HomePut (s t : State) (pa : Nat) (bs : List Byte) : Prop := homeBytes t pa bs.length = bs ∧ ∀ x, x < pa ∨ pa + bs.length ≤ x → homeByte t x = homeByte s x
/-- The same of the local stores. -/
def LocalPut (s t : State) (a : Nat) (bs : List Byte) : Prop := lsBytes t a bs.length = bs ∧ ∀ x, x < a ∨ a + bs.length ≤ x → lsBytes t x 1 = lsBytes s x 1
/-- Start, size and new NEXT of a forage counter's next chunk (09 R239), from NEXT, END, MINC and DIV. -/
def forageChunk (next end_ : Int) (minc div : Nat) : Int × Int × Int :=
  let left := end_ - next
  let size := if left ≤ 0 then 0 else min (max (minc : Int) ((left + div - 1) / div)) left
  (next, size, next + size)
/-- The state without a flight. -/
def landedFlight (n : Nat) (s : State) : State := { s with flights := s.flights.filter fun f => !(f.id == n) }

/-- An engine's accesses of n bytes at an address lie in a local store at p, for a read and for a write. -/
def EngAt (s : State) (e : Eng) (space a n p : Nat) : Prop := ∀ w, engPlace s e space a n w = .ok (.ls p) Trans_none
/-- Intervals (first, bytes) that do not meet. -/
def Apart (l : List (Nat × Nat)) : Prop := l.Pairwise fun x y => x.1 + x.2 ≤ y.1 ∨ y.1 + y.2 ≤ x.1
/-- What a read of a container of nb nibbles at a nibble address gives, its byte standing at p of a local store. -/
def nibRead (s : State) (nb a p : Nat) : Nat := if nb = 1 then leNat (lsBytes s p 1) / 16 ^ (a % 2) % 16 else leNat (lsBytes s p (nb / 2))
/-- Bytes of a container of nb nibbles, as it is accessed. -/
def nibBytes (nb : Nat) : Nat := if nb = 1 then 1 else nb / 2

/-- The engine commands (11, 12, 13 R393, 14 R414 to R420): what a cue thread or a management core hands to an engine. -/
def engineCommand (i : Instr) : Bool :=
  match i with
  | .tcfg _ => true
  | .tld _ => true
  | .tsd _ => true
  | .tzero _ => true
  | .txpose _ => true
  | .arrw _ => true
  | .arrmm _ => true
  | .arrdist _ => true
  | .arrmmg _ => true
  | .arrcent _ => true
  | .arrbest _ => true
  | .adrain _ => true
  | .aload _ => true
  | .adrainp _ => true
  | .adraine _ => true
  | .azero _ => true
  | .bcp _ => true
  | .bfill _ => true
  | .bpeer _ => true
  | .bgat _ => true
  | .bsca _ => true
  | .bexp _ => true
  | .mop _ => true
  | .slxp _ => true
  | .xopen _ => true
  | .xclose _ => true
  | .rsvfill _ => true
  | .rsvdrop _ => true
  | .rsvq _ => true
  | .kvdrop _ => true
  | .kvprio _ => true
  | .rsvset _ => true
  | .ctxsv _ => true
  | .ctxld _ => true
  | .tlbinv _ => true
  | .ptwalk _ => true
  | .pgdup _ => true
  | .pgcol _ => true
  | .pgsplit _ => true
  | .pgjoin _ => true
  | .pgmig _ => true
  | .dirq _ => true
  | .dirset _ => true
  | .hostinv _ => true
  | _ => false

end Sys2Proof.Machine
end

