-- ==== Sys2Proof/Certificates/Slice0/Obligations.lean ====
section
/-! DEFINITION. The statements about the model, from the numbered rules of the spec: what a step runs, what each instruction and event leaves, and what stays as it was. -/

open Sys2Proof Sys2Proof.Machine

/-- A step runs the decoded instruction (07 R147 to R157): when the group that a port votes for stands at bytes that decode to i, past its clause's wait, the step is `exec` of i in the state in which that group issues on that port, and then the end of the step: port B's issue beside it and the pass counts (07 R150 to R153), what falls due, and the entering of clauses (02 R26). A step runs the decoded instruction of a cue thread or a management core (10 R244, 07 R157). -/
def Obligations.StepRunsInstruction : Prop :=
  (∀ (s : State) (wg wi port : Nat) (k : Workgroup) (g : Grid) (w : Warp) (l : Nat) (ls : List Nat) (th : Thread) (cl : Clause) (i : Instr),
    chosen s = .warp wg wi port → findWg s wg = some k → k.st = .resident → k.missing = [] → gridOf s k = some g → k.warps[wi]? = some w →
    portGroup (begin_ s) g k w wi port = l :: ls → w.threads[l]? = some th → th.clause = some cl → cl.started = true →
    Fetched s (k.core / 2) g.asid .warp th.pc.toNat cl.left i →
      step s = match exec i (atPort s wg wi port w (l :: ls)) with
        | .next t => .next (stepEnd s i (atPort s wg wi port w (l :: ls)) t)
        | .fault r => .fault r
        | .refused r => .refused r)
  ∧ (∀ (s : State) (wg wi : Nat) (lanes first ready : List Nat) (k : Workgroup) (g : Grid) (w : Warp) (l : Nat) (ls : List Nat) (th : Thread) (cl : Clause) (i : Instr),
    chosen s = .beside wg wi lanes first ready → findWg s wg = some k → k.st = .resident → k.missing = [] → gridOf s k = some g → k.warps[wi]? = some w →
    lanes.filter (readyLanes (begin_ s) g k w wi 1).contains = l :: ls → w.threads[l]? = some th → th.clause = some cl → cl.started = true →
    Fetched s (k.core / 2) g.asid .warp th.pc.toNat cl.left i →
      step s = match exec i (atPort s wg wi 1 w (l :: ls)) with
        | .next t => .next (stepEnd s i (atPort s wg wi 1 w (l :: ls)) t)
        | .fault r => .fault r
        | .refused r => .refused r)
  ∧ (∀ (s : State) (iss : Issuer) (c : Cue) (cl : Clause) (i : Instr),
    ((∃ wg, iss = .cue wg ∧ chosen s = .cue wg) ∨ ∃ m, iss = .mgmt m ∧ chosen s = .mgmt m) → findCue s iss = some c → cueReady (begin_ s) iss c = true →
    (∀ k, issuerWg s iss = some k → k.missing = []) → c.clause = some cl → cl.started = true →
    Fetched s (fetchUnit s iss) (spaceOf s iss).1 .cue c.pc.toNat cl.left i →
      step s = match exec i (atIssue s iss) with
        | .next t => .next (stepEnd s i (atIssue s iss) t)
        | .fault r => .fault r
        | .refused r => .refused r)

/-- Words written out in the spec decode to the instructions they stand for: `fence.ar.obs(db)` (09 R238), `exit` (13 R382), `trap 5` and `ctrap 3` (13 R383), `twait 5` (13 R390). -/
def Obligations.DecodeWords : Prop :=
  (∃ f : MF, decodeWords .warp 0xE5000007 (some 0x01910000) = .fence f ∧ f.obs = 0b0001100 ∧ f.ordr = 4 ∧ f.wid = 2 ∧ f.pg = 7)
    ∧ (∃ f : VF, decodeWords .warp 0x74000007 none = .exit f ∧ f.pg = 7 ∧ f.l = false)
    ∧ (∃ f : VF, decodeWords .warp 0x7500002F none = .trap f ∧ f.b.toNat % 32 = 5 ∧ f.pg = 7)
    ∧ (∃ f : QF, decodeWords .cue 0x500000E0 none = .ctrap f ∧ f.b = 3)
    ∧ (∃ f : VF, decodeWords .warp 0x7E00002F none = .twait f ∧ f.b.toNat % 64 = 5 ∧ f.pg = 7)

/-- DECODE AND ENCODE AGREE (02 R25, R33 to R44, R59, R60): every canonical instruction of either stream, with every operand at every value its words can hold, is what the decoder reads from its bytes, and the bytes after it are left over. -/
def Obligations.DecodeEncode : Prop :=
  ∀ (i : Instr) (rest : List Byte), i.canon = true →
    ((warpOp i).isSome = true → isIllegal i = false → decode .warp (encodeBytes i ++ rest) = .ok (i, rest))
      ∧ ((cueOp i).isSome = true → isIllegal i = false → decode .cue (encodeBytes i ++ rest) = .ok (i, rest))

/-- The registers whose reset the table of 15 R422 gives as a number, as they read after reset, ROUTE0 to ROUTE63 and the registers of every queue block (15 R424) among them; the figures that stand for the part record (PWRMAX) rest on log 4. -/
def Obligations.ResetRegisters : Prop :=
  regRead State.reset 0x08 8 = 0 ∧ regRead State.reset 0x18 8 = State.reset.part.pwrmax.toNat ∧ regRead State.reset 0x30 8 = 85 * 16 + 95 * 16 * 2 ^ 16 + 105 * 16 * 2 ^ 32 + 115 * 16 * 2 ^ 48
    ∧ regRead State.reset 0x38 8 = 512 ∧ regRead State.reset 0x58 8 = 1000
    ∧ (∀ o ∈ [0x20, 0x28, 0x40, 0x48, 0x50, 0x60, 0x68, 0x80, 0x88, 0x90, 0x98, 0xA0, 0xA8, 0xB0, 0xB8, 0xC0, 0xC8, 0xD0, 0xD8, 0xE0, 0xE8, 0xF0, 0xF8], regRead State.reset o 8 = 0)
    ∧ (∀ k < 64, regRead State.reset (0x200 + 8 * k) 8 = 0) ∧ ∀ q < 256, ∀ j < 4, regRead State.reset (0x3000 + 16 * q + 4 * j) 4 = 0

/-- The memories of the state after reset are in canonical form. -/
def Obligations.ResetSound : Prop := State.reset.wf = true

/-- EVERY STEP KEEPS the canonical form of the three memories: keys strictly rising and nothing listed that an unlisted address reads as. -/
def Obligations.StepKeepsSound : Prop := ∀ s t : State, s.wf = true → step s = .next t → t.wf = true

/-- NO STEP STOPS: whatever the state, the step answers a next state; no instruction and no event of the device ends a run in a fault or a refusal. -/
def Obligations.NoStepStops : Prop := ∀ s : State, s.goesOn

/-- THE RESULT OF EVERY LANE INSTRUCTION THAT WRITES VECTOR REGISTERS (03 R74 to R93, 04, 05, 06, 13 R387): when it executes, each contributor's destination registers hold the result of its operands and its `%fpstat` takes the flags; the group has passed the instruction, and nothing else changes. The result of every lane instruction that writes a predicate (`cmp`, `fcmp`, `poll` MOD 0 to 2, `lead`; 03 R90, 04 R106, 06 R141, R143), a write of p7 being discarded; nothing else changes. -/
def Obligations.LaneResults : Prop :=
  (∀ (i : Instr) (op : WOp) (s : State) (c : WCtx) (d n : Nat) (val : Nat → Nat × Flags),
    warpOp i = some op → vectorResult s c i = some (d, n, val) → warpCtx s i = some c → WarpReady op s c = true →
      ∃ g, exec i s = .next (updWarp s c.wg c.wi g) ∧ GivesLanes c i d n val (g c.w))
  ∧ (∀ (i : Instr) (op : WOp) (s : State) (c : WCtx) (d : Nat) (val : Nat → Bool × Flags),
    warpOp i = some op → predicateResult c i = some (d, val) → warpCtx s i = some c → WarpReady op s c = true →
      ∃ g, exec i s = .next (updWarp s c.wg c.wi g) ∧ GivesPreds c i d val (g c.w))

/-- `brev`, `popc`, `clz` and `ctz` (03 R89) over W = 32 bits, or 64 with MOD 1. -/
def Obligations.BitCounts : Prop :=
  ∀ (s : State) (c : WCtx) (f : VF) (l : Nat), l ∈ c.cs → f.m < 2 →
    let W := if f.m = 1 then 64 else 32
    (warpCtx s (.brev f) = some c → WarpReady (opBrev f) s c = true → ∃ g, exec (.brev f) s = .next (updWarp s c.wg c.wi g) ∧
        ∀ i < W, (vgetN (g c.w) f.d.toNat l (W / 32)).testBit (W - 1 - i) = (sourceA c (.brev f) l).testBit i)
      ∧ (warpCtx s (.popc f) = some c → WarpReady (opPopc f) s c = true → ∃ g, exec (.popc f) s = .next (updWarp s c.wg c.wi g) ∧
        (vget (g c.w) f.d.toNat l).toNat = ((List.range W).filter fun i => (sourceA c (.popc f) l).testBit i).length)
      ∧ (warpCtx s (.clz f) = some c → WarpReady (opClz f) s c = true → ∃ g, exec (.clz f) s = .next (updWarp s c.wg c.wi g) ∧
        ∃ n ≤ W, (vget (g c.w) f.d.toNat l).toNat = n ∧ (∀ i, W - n ≤ i → i < W → (sourceA c (.clz f) l).testBit i = false)
          ∧ (n < W → (sourceA c (.clz f) l).testBit (W - 1 - n) = true))
      ∧ (warpCtx s (.ctz f) = some c → WarpReady (opCtz f) s c = true → ∃ g, exec (.ctz f) s = .next (updWarp s c.wg c.wi g) ∧
        ∃ n ≤ W, (vget (g c.w) f.d.toNat l).toNat = n ∧ (∀ i < n, (sourceA c (.ctz f) l).testBit i = false) ∧ (n < W → (sourceA c (.ctz f) l).testBit n = true))

/-- What the warp instructions that write the warp's own registers leave: `nop`, `yield` (13 R388), `swreg` (13 R387, 04 R96), `kvkey` (08 R208), `patld` (06 R140), `v2s` (06 R146). -/
def Obligations.WarpStateWrites : Prop :=
  ∀ (s : State) (c : WCtx) (f : VF),
    (warpCtx s (.nop f) = some c → WarpReady (opNop f) s c = true → AnswersWarp (.nop f) s c { c.w with threads := threadsAfter c (.nop f) fun _ th => th })
      ∧ (warpCtx s (.yield f) = some c → WarpReady (opYield f) s c = true →
        AnswersWarp (.yield f) s c { c.w with threads := threadsAfter c (.yield f) (onCs c fun th => { th with readyAt := s.clk + 4 * ((c.lanes.map (· / 32)).eraseDups.length - 1) + 16 }) })
      ∧ (warpCtx s (.swreg f) = some c → WarpReady (opSwreg f) s c = true →
        AnswersWarp (.swreg f) s c { c.w with threads := threadsAfter c (.swreg f) fun l th => if l ∈ c.cs then (if f.b = 21 then { th with fpstat := BitVec.ofNat 32 (operand (laneW c f l) f f.a f.pa 1 l % 128) } else { th with sp := BitVec.ofNat 32 (operand (laneW c f l) f f.a f.pa 1 l) }) else th })
      ∧ (warpCtx s (.kvkey f) = some c → WarpReady (opKvkey f) s c = true → c.cs ≠ [] →
        AnswersWarp (.kvkey f) s c { c.w with kvkey := BitVec.ofNat 16 (operand c.w f f.a 6 1 0), threads := threadsAfter c (.kvkey f) fun _ th => th })
      ∧ (warpCtx s (.patld f) = some c → WarpReady (opPatld f) s c = true → c.cs ≠ [] →
        AnswersWarp (.patld f) s c { c.w with
          patterns := c.w.patterns.take (32 * (f.d.toNat % 4)) ++ leBytes 32 (sseeN c.w f.a.toNat 8) ++ c.w.patterns.drop (32 * (f.d.toNat % 4) + 32)
          threads := threadsAfter c (.patld f) fun _ th => th })
      ∧ (∀ l, (if 2 ≤ f.m then c.cs.getLast? else c.cs.head?) = some l → warpCtx s (.v2s f) = some c → WarpReady (opV2s f) s c = true →
        AnswersWarp (.v2s f) s c { ssetN c.w f.d.toNat (groupA c (.v2s f) l) (1 + f.m % 2) with threads := threadsAfter c (.v2s f) fun _ th => th })

/-- Transfers of control (07 R155, R156, R165 to R167): contributors land on the target's header, and the others of the group go on. A call pushes the return address while fewer than four are held; a return pops one. -/
def Obligations.WarpTransfers : Prop :=
  ∀ (s : State) (c : WCtx),
    (∀ f : IF, warpCtx s (.bra f) = some c → WarpReady (opBra f) s c = true →
        AnswersWarp (.bra f) s c { c.w with threads := threadsAfter c (.bra f) (onCs c (landed (c.pc + BitVec.ofInt 57 (4 * f.imm.toInt)))) })
      ∧ (∀ f : VF, warpCtx s (.brx f) = some c → WarpReady (opBrx f) s c = true →
        AnswersWarp (.brx f) s c { c.w with threads := threadsAfter c (.brx f) fun l th => if l ∈ c.cs then landed (BitVec.ofNat 57 (operand (laneW c f l) f f.a f.pa 2 l)) th else th })
      ∧ (∀ f : IF, warpCtx s (.call f) = some c → WarpReady (opCall f) s c = true → (∀ l ∈ c.cs, ∀ th, c.w.threads[l]? = some th → th.rstack.length < 4) →
        AnswersWarp (.call f) s c { c.w with threads := threadsAfter c (.call f) (onCs c fun th => landed (c.pc + BitVec.ofInt 57 (4 * f.imm.toInt)) { th with rstack := (c.pc + 8) :: th.rstack, depth := th.depth + 1 }) })
      ∧ (∀ f : VF, warpCtx s (.callx f) = some c → WarpReady (opCallx f) s c = true → (∀ l ∈ c.cs, ∀ th, c.w.threads[l]? = some th → th.rstack.length < 4) →
        AnswersWarp (.callx f) s c { c.w with threads := threadsAfter c (.callx f) fun l th => if l ∈ c.cs then landed (BitVec.ofNat 57 (operand (laneW c f l) f f.a f.pa 2 l)) { th with rstack := (c.pc + BitVec.ofNat 57 (4 * instrLen f.l)) :: th.rstack, depth := th.depth + 1 } else th })
      ∧ (∀ f : VF, warpCtx s (.ret f) = some c → WarpReady (opRet f) s c = true → (∀ l ∈ c.cs, ∀ th, c.w.threads[l]? = some th → th.rstack ≠ []) →
        AnswersWarp (.ret f) s c { c.w with threads := threadsParked c (.ret f) fun th => landed (th.rstack.headD 0) { th with rstack := th.rstack.tail, depth := th.depth - 1 } })

/-- A special-function instruction (`fdiv` to `fsigm`; 04 R98, R102, R111, R112) goes into flight with the results of its operands, which stay unwritten until completion, and opens its window in every thread of its group, those whose guard failed among them, and in the group of an instruction with no contributor (the model's choice: log 64); nothing else changes. The approximate values are free within the bound of R112 (the model's choice: log 20). -/
def Obligations.SpecialFunctionsIssue : Prop :=
  ∀ (i : Instr) (op : WOp) (s : State) (c : WCtx) (wr : List RegWrite) (fl : List (Nat × BitVec 7)),
    warpOp i = some op → specialResult c i = some (wr, fl) → warpCtx s i = some c → WarpReady op s c = true →
      AnswersWith i s c { c.w with threads := threadsAfter c i fun _ => openedWindow c i s.nextId false false } (inFlight (.warp c.wg c.wi c.cs) c.pc ((warpLook i).getD 0) (.vsfu (vsfuUnit i) wr fl))

/-- A call in a thread that holds four return addresses (07 R160) stores the oldest at `%sp` − 8 of private memory, 8 bytes, and the thread keeps the other three under the new one; `%sp` falls by 8. A return in a thread that holds no return address (07 R161, R167) waits for its refill: 8 bytes read at `%sp` of private memory; at RETURN_ADDRESS_REFILL it lands there, `%sp` rises by 8 and the depth falls. With several contributors, of which some spill or refill and others do not, each pushes in lane order, one that holds fewer than four stores nothing, and those of a return that hold an address return at once. The spill is stored and the refill is read as the instruction issues (the model's choice: log 25). -/
def Obligations.CallsAndReturns : Prop :=
  (∀ (s : State) (c : WCtx) (l : Nat) (th : Thread) (loc : Loc) (tr : Trans), c.cs = [l] → c.w.threads[l]? = some th → th.rstack.length = 4 →
    let sp := (th.sp.toNat + 2 ^ 32 - 8) % 2 ^ 32
    let va := accVa c .priv l sp
    let spilled := fun (u : State) (ra : VAddr) =>
      let v := touchTlb u (WCtx_iss c) va tr
      markStores (updThread (nameAwaits (storeAt v (WCtx_iss c) l loc tr (leBytes 8 (th.rstack.getLastD 0).toNat) false) v.nextId c.pc (BitVec.ofNat 64 va)) c.wg c.wi l fun x =>
        { x with rstack := ra :: th.rstack.dropLast, depth := x.depth + 1, sp := BitVec.ofNat 32 sp }) c [loc] 0
    (∀ f : IF, warpCtx s (.call f) = some c → WarpReady (opCall f) s c = true →
      let u := beforeAccess (issued (opCall f) c s) (WCtx_iss c) [(loc, tr)]
      (∀ r ∈ [issued (opCall f) c s, u], place r (WCtx_iss c) .priv c.wi l sp 8 true = .ok loc tr) →
      exec (.call f) s = .next (updThreads (spilled u (c.pc + 8)) c.wg c.wi [l] (landed (c.pc + BitVec.ofInt 57 (4 * f.imm.toInt)))))
    ∧ ∀ f : VF, warpCtx s (.callx f) = some c → WarpReady (opCallx f) s c = true →
      let u := beforeAccess (issued (opCallx f) c s) (WCtx_iss c) [(loc, tr)]
      (∀ r ∈ [issued (opCallx f) c s, u], place r (WCtx_iss c) .priv c.wi l sp 8 true = .ok loc tr) →
      exec (.callx f) s = .next (updThreads (spilled u (c.pc + BitVec.ofNat 57 (4 * instrLen f.l))) c.wg c.wi [l] (landed (BitVec.ofNat 57 (operand (laneW c f l) f f.a f.pa 2 l)))))
  ∧ ((∀ (s : State) (c : WCtx) (f : VF) (l : Nat) (th : Thread) (loc : Loc) (tr : Trans) (b : List Byte) (k : CapState) (u : State),
    warpCtx s (.ret f) = some c → WarpReady (opRet f) s c = true → c.cs = [l] → c.w.threads[l]? = some th → th.rstack = [] →
    place (issued (opRet f) c s) (WCtx_iss c) .priv c.wi l th.sp.toNat 8 false = .ok loc tr → loadAt (beforeAccess (issued (opRet f) c s) (WCtx_iss c) [(loc, tr)]) (WCtx_iss c) loc tr 8 false = (b, k, u) →
      exec (.ret f) s = .next (updThreads (inFlight (.warp c.wg c.wi [l]) c.pc 0 (.refill [(l, BitVec.ofNat 64 (leNat b))])
          (updThreads (touchTlb u (WCtx_iss c) (accVa c .priv l th.sp.toNat) tr) c.wg c.wi (c.lanes.filter fun m => !c.cs.contains m) (stepThread (instrLen f.l))))
        c.wg c.wi [l] fun th => { th with park := some (.refill u.nextId) }))
    ∧ (∀ (s : State) (n : Nat) (fl : Flight) (ops : List (Nat × DWord)) (wg wi : Nat) (ls : List Nat), findFlight s n = some fl → fl.kind = .refill ops → fl.who = .warp wg wi ls →
      ∃ g, exec (.returnAddressRefill n) s = .next (updWarp { s with flights := s.flights.filter fun f => !(f.id == n) } wg wi g)
        ∧ ∀ w, g w = ops.foldl (fun w (l, v) => Warp_updThread w l fun th => landed (v.setWidth 57) { th with depth := th.depth - 1, sp := th.sp + 8, park := none }) w)
    ∧ (∀ (s : State) (c : WCtx),
      (∀ f : IF, warpCtx s (.call f) = some c → WarpReady (opCall f) s c = true →
        exec (.call f) s = .next (updThreads (pushReturns (issued (opCall f) c s) c (c.pc + 8)) c.wg c.wi c.cs (landed (c.pc + BitVec.ofInt 57 (4 * f.imm.toInt)))))
      ∧ (∀ f : VF, warpCtx s (.callx f) = some c → WarpReady (opCallx f) s c = true →
        exec (.callx f) s = .next (c.cs.foldl (fun t l => updThread t c.wg c.wi l (landed (BitVec.ofNat 57 (operand (laneW c f l) f f.a f.pa 2 l))))
          (pushReturns (issued (opCallx f) c s) c (c.pc + BitVec.ofNat 57 (4 * instrLen f.l)))))
      ∧ ∀ f : VF, warpCtx s (.ret f) = some c → WarpReady (opRet f) s c = true →
        let waits := c.cs.filter fun l => (c.w.threads[l]?).any fun th => th.rstack == [] && th.depth != 0
        let goes := c.cs.filter fun l => (c.w.threads[l]?).any fun th => th.rstack != []
        ∃ (vals : List (Nat × Nat × CapState)) (t : State), vals.map (·.1) = waits ∧ (waits = [] → t = issued (opRet f) c s) ∧
          let u := updThreads (updThreads t c.wg c.wi (c.lanes.filter fun l => !c.cs.contains l) (stepThread (instrLen f.l))) c.wg c.wi goes fun th =>
            landed (th.rstack.headD 0) { th with rstack := th.rstack.tail, depth := th.depth - 1 }
          (waits = [] → exec (.ret f) s = .next u)
          ∧ (waits ≠ [] → exec (.ret f) s = .next (updThreads (inFlight (.warp c.wg c.wi waits) c.pc 0 (.refill (vals.map fun (l, v, _) => (l, BitVec.ofNat 64 v))) u) c.wg c.wi waits fun th => { th with park := some (.refill u.nextId) })))
    ∧ ∀ (s : State) (c : WCtx) (ra : VAddr) (l : Nat) (th : Thread), c.w.threads[l]? = some th → th.rstack.length < 4 →
      pushReturn s c ra l = updThread s c.wg c.wi l fun x => { x with rstack := ra :: th.rstack, depth := x.depth + 1 })

/-- `join` (07 R168): the contributors park at it with their deadline and their predicate, and the others of the group go on. The examination at the end of a clk: where all live threads of a warp are parked at one `join`, all go on and the predicate reads 1 in each; else those whose deadline is at or before the clk go on with 0, and the rest stay parked. -/
def Obligations.JoinParksOrConverges : Prop :=
  (∀ (s : State) (c : WCtx) (f : IF), warpCtx s (.join f) = some c → WarpReady (opJoin f) s c = true →
    AnswersWarp (.join f) s c { c.w with threads := threadsParked c (.join f) fun th => { th with
      park := some (.join (if f.imm = 0xFFFFFFFF then none else some (s.clk + f.imm.toNat)) (f.d.toNat % 8) c.pc) } })
  ∧ ∀ s : State, (s.wgs.map (·.id)).Nodup → ∃ t, exec .joinDeadline s = .next t ∧ { t with wgs := s.wgs } = s ∧
    ∀ (n m : Nat) (k : Workgroup) (w : Warp), s.wgs[n]? = some k → k.warps[m]? = some w →
      ∃ w', (t.wgs[n]?.bind fun k' => k'.warps[m]?) = some w' ∧
        let one := ∃ pc, ∀ l ∈ Warp_live w, ∃ d p, (w.threads[l]?).bind joinOf = some (pc, d, p)
        ∀ (l : Nat) (th : Thread) (d : Option Nat) (p : Nat) (h : VAddr), l < 128 → l ∈ Warp_live w → w.threads[l]? = some th → th.park = some (.join d p h) → p < 8 →
          (one → w'.threads[l]? = some (stepThread th.plen { th with park := none }) ∧ pget w' p l = true)
          ∧ (¬one → ((∃ x, d = some x ∧ x ≤ s.clk) → w'.threads[l]? = some (stepThread th.plen { th with park := none }) ∧ (p ≠ 7 → pget w' p l = false))
            ∧ ((∀ x, d = some x → s.clk < x) → w'.threads[l]? = some th))

/-- `dqpop` and `dqbr` (07 R171, R172) take the oldest entry of the decision queue, into a uniform pair or as the branch target of every thread; on an empty queue the warp parks until DECISION_QUEUE_POP. DECISION_QUEUE_POP (07 R171, R172): a warp parked at `dqpop` or `dqbr` takes the entry that has come, and all its live threads go on. -/
def Obligations.DecisionQueues : Prop :=
  (∀ (s : State) (c : WCtx) (f : VF),
    (warpCtx s (.dqpop f) = some c → WarpReady (opDqpop f) s c = true → c.cs = c.lanes →
      (c.w.dq = [] → AnswersWarp (.dqpop f) s c { c.w with threads := threadsParked c (.dqpop f) fun th => { th with park := some (.dqpop f.d.toNat) } })
        ∧ ∀ e r, c.w.dq = e :: r → AnswersWarp (.dqpop f) s c { ssetN { c.w with dq := r } f.d.toNat e.toNat 2 with
            threads := threadsParked c (.dqpop f) fun th => { stepThread (instrLen f.l) th with park := none } })
    ∧ (warpCtx s (.dqbr f) = some c → WarpReady (opDqbr f) s c = true → c.cs = c.lanes →
      (c.w.dq = [] → AnswersWarp (.dqbr f) s c { c.w with threads := threadsParked c (.dqbr f) fun th => { th with park := some (.dqbr (if f.m = 0 then some f.d.toNat else none)) } })
        ∧ ∀ e r, c.w.dq = e :: r → AnswersWarp (.dqbr f) s c { (if f.m = 0 then sset { c.w with dq := r } f.d.toNat (hi32 e) else { c.w with dq := r }) with
            threads := threadsParked c (.dqbr f) fun th => { landed (BitVec.ofNat 57 (c.g.lrec.wstream + e.toNat % 2 ^ 32)) th with park := none } }))
  ∧ (∀ (s : State) (wg wi : Nat) (k : Workgroup) (g : Grid) (w : Warp) (th : Thread) (e : DWord) (r : List DWord),
    findWg s wg = some k → gridOf s k = some g → k.warps[wi]? = some w → w.threads[(Warp_live w).headD 0]? = some th → w.dq = e :: r →
    (∀ d, th.park = some (.dqpop d) → ∃ f, exec (.decisionQueuePop wg wi) s = .next (updWarp s wg wi f) ∧
      f w = Warp_updThreads (ssetN { w with dq := r } d e.toNat 2) (Warp_live w) fun th => stepThread th.plen { th with park := none })
    ∧ (∀ d, th.park = some (.dqbr d) → e.toNat % 4 = 0 → ∃ f, exec (.decisionQueuePop wg wi) s = .next (updWarp s wg wi f) ∧
      f w = Warp_updThreads (match d with
        | some n => sset { w with dq := r } n (hi32 e)
        | none => { w with dq := r }) (Warp_live w) fun th => { landed (BitVec.ofNat 57 (g.lrec.wstream + e.toNat % 2 ^ 32)) th with park := none }))

/-- `exit` (13 R382) ends its contributors, and what waits for the workgroup's warps is examined again; the others of the group go on. While nothing of the warp is parked and no warp of the workgroup stands at a barrier, that is all. -/
def Obligations.ExitEndsThreads : Prop :=
  ∀ (s : State) (c : WCtx) (f : VF), warpCtx s (.exit f) = some c → WarpReady (opExit f) s c = true →
    (c.cs ≠ [] → exec (.exit f) s = .next (barArrive (updThreads (issued (opExit f) c s) c.wg c.wi c.cs fun th => { th with life := .exited }) c.wg c.wi))
    ∧ (c.cs = [] → AnswersWarp (.exit f) s c { c.w with threads := threadsAfter c (.exit f) fun _ th => th })
    ∧ ((∀ (l : Nat) (th : Thread), c.w.threads[l]? = some th → th.park = none) → (∀ n, arrivals c.k n = []) →
      AnswersWarp (.exit f) s c { c.w with threads := threadsAfter c (.exit f) (onCs c fun th => { th with life := .exited }) })

/-- `trap n`, `ctrap n` (13 R383) and `brk n` (13 R384): the contributors, or the cue thread, take 0x180 + n, or 0x1A0 + n, with the address of the instruction in FPC and that of the next in RPC (R355); `trap 5` is 0x7500_002F and `ctrap 3` is 0x5000_00E0. -/
def Obligations.SoftwareTraps : Prop :=
  (∀ (s : State) (c : WCtx) (f : VF),
    (warpCtx s (.trap f) = some c → WarpReady (opTrap f) s c = true → exec (.trap f) s = .next (takeWarp (issued (opTrap f) c s) c.wg c.wi c.cs
      { cause := BitVec.ofNat 9 (0x180 + f.b.toNat % 32), kind := 0, fpc := c.pc.toNat, rpc := (c.pc + BitVec.ofNat 57 (4 * instrLen f.l)).toNat, lanes := laneMask c.cs }))
    ∧ (warpCtx s (.brk f) = some c → WarpReady (opBrk f) s c = true → exec (.brk f) s = .next (takeWarp (issued (opBrk f) c s) c.wg c.wi c.cs
      { cause := BitVec.ofNat 9 (0x1A0 + f.b.toNat % 8), kind := 0, fpc := c.pc.toNat, rpc := (c.pc + BitVec.ofNat 57 (4 * instrLen f.l)).toNat, lanes := laneMask c.cs })))
  ∧ (∀ (s : State) (c : CCtx) (f : QF), cueCtx s (.ctrap f) = some c → CueReady (opCtrap f) s c = true → c.pass = true →
      exec (.ctrap f) s = .next (takeCue (cueIssued (opCtrap f) c s) c.iss
        { cause := BitVec.ofNat 9 (0x180 + f.b.toNat % 32), kind := 0, fpc := c.pc.toNat, rpc := (c.pc + 4).toNat }))
  ∧ (∃ f : VF, decodeWords .warp 0x7500002F none = .trap f ∧ f.b = 5 ∧ f.pg = 7) ∧ ∃ f : QF, decodeWords .cue 0x500000E0 none = .ctrap f ∧ f.b = 3 ∧ f.g = 4

/-- A cell of an opcode map without an instruction (02 R32, R61): reached by a group that is not held and whose cut distance is not at its limit, it raises 0x000 in every thread of the group; on a cue thread, 0x010. -/
def Obligations.IllegalOpcodes : Prop :=
  (∀ (s : State) (c : WCtx) (w : Word), warpCtx s (.illegalOpcode false w) = some c → c.k.st = .resident → c.lanes ≠ [] → cutLanes c = [] →
    (∀ l ∈ c.lanes, ∀ th, c.w.threads[l]? = some th → th.park = none ∧ th.windows = [] ∧ th.deferred = []) →
      exec (.illegalOpcode false w) s = .next (takeWarp s c.wg c.wi c.lanes { cause := 0x000, kind := 0, fpc := c.pc.toNat, rpc := c.pc.toNat, lanes := laneMask c.lanes }))
  ∧ ∀ (s : State) (c : CCtx) (w : Word), cueCtx s (.illegalOpcode true w) = some c → cueStopped s c = false → c.c.windows = [] → c.c.deferred = [] →
    (∀ g, c.g = some g → cueNextDist c.c ≤ g.lrec.cutmax) →
      exec (.illegalOpcode true w) s = .next (takeCue s c.iss { cause := 0x010, kind := 0, fpc := c.pc.toNat, rpc := c.pc.toNat })

/-- `svc` (13 R366, R385) posts one record: its request goes to the queue, and a flight waits for the reply, which D of each contributor will hold; a record outside the HBM-backed memory gives each contributor 0x1AA. `wake` (13 R386, R368) ORs a value into its target's wake register, after a release for H and D. SERVICE_REPLY and SERVICE_TIMEOUT (13 R366, R367): a reply's word for each lane goes to its destination, after an acquire naming H, and the window is done; a cause goes to each lane instead; a request that its queue's timeout has passed with no reply records 0x1AB in each of its lanes, and no request that is late is left. The window of a `svc` opens in every thread of its group, contributors or not (the model's choice: log 64); the reply is taken, and its acquire made, at one point after it is complete (the model's choice: log 58). -/
def Obligations.ServiceRequests : Prop :=
  (∀ (s : State) (c : WCtx) (f : VF),
    (warpCtx s (.svc f) = some c → WarpReady (opSvc f) s c = true →
      let u := markTask (issued (opSvc f) c s) c 6 f.look.toNat
      let q := f.b.toNat % 16
      let n := f.b.toNat / 16 % 4 + 1
      (c.cs = [] → exec (.svc f) s = .next (launched c (.svc f) .plain true false (issued (opSvc f) c s)))
      ∧ (c.cs ≠ [] → svcBacked u q = false → exec (.svc f) s = .next (launched c (.svc f) (.load [] [] (c.cs.map fun l => (l, 0x1AA, 0))) true false u))
      ∧ (c.cs ≠ [] → svcBacked u q = true →
        let t := svcPost u (WCtx_iss c) q (svcHeader q n 0 (c.W / 32) (laneMask c.cs).toNat c.g.num (taskOf u c.k).toNat c.k.core ++ svcRequest c f n)
        exec (.svc f) s = .next (launched c (.svc f) (.svc q (svcDesc u q).widx f.d.toNat c.cs (64 + n * 4 * c.W) t.clk) true false t)))
    ∧ (warpCtx s (.wake f) = some c → WarpReady (opWake f) s c = true →
      (c.cs = [] → exec (.wake f) s = .next (issued (opWake f) c s))
      ∧ ∀ l, c.cs.head? = some l → exec (.wake f) s = .next (markTask (wakeOr (release (drainStream (issued (opWake f) c s) (WCtx_iss c)) (WCtx_iss c) 0x44)
        (ssee c.w (f.b.toNat % 64)).toNat (operand c.w f f.a f.pa 1 l)) c 6 0)))
  ∧ ((∀ (s : State) (n : Nat) (fl : Flight) (q num d reply posted : Nat) (lanes : List Nat), findFlight s n = some fl → fl.kind = .svc q num d lanes reply posted →
    (∀ wg wi ls, fl.who = .warp wg wi ls →
      (∀ bs, svcLook s q num reply 4 lanes = .reply bs →
        ∃ g, exec (.serviceReply n) s = .next (updWarp (landedFlight n (acquire s fl.who 4)) wg wi g)
          ∧ ∀ w, g w = doneIn n (lanes.foldl (fun w l => vset w d l (BitVec.ofNat 32 (leNat (bs l) % 2 ^ 64))) w))
      ∧ (∀ x, svcLook s q num reply 4 lanes = .bad x → ∃ g, exec (.serviceReply n) s = .next (updWarp (landedFlight n (acquire s fl.who 4)) wg wi g)
          ∧ ∀ w, g w = doneIn n (recorded fl (lanes.map fun l => (l, x, 0)) w))
      ∧ (svcLook s q num reply 4 lanes = .notYet → exec (.serviceReply n) s = .next s))
    ∧ ∀ wg bs, fl.who = .cue wg → svcLook s q num reply 8 lanes = .reply bs →
      ∃ g, exec (.serviceReply n) s = .next (updCue (landedFlight n (acquire s fl.who 4)) fl.who g)
        ∧ ∀ x, g x = { lanes.foldl (fun x l => cset x d (BitVec.ofNat 64 (leNat (bs l)))) x with windows := doneWindow x.windows n })
  ∧ (∀ (s : State) (fl : Flight) (lanes : List Nat) (wg wi : Nat) (ls : List Nat), (s.flights.filter fun f => (svcLate s f).isSome) = [fl] → svcLate s fl = some lanes → fl.who = .warp wg wi ls →
      exec .serviceTimeout s = .next (finishWarp (acquire s fl.who 4) fl wg wi [] [] (lanes.map fun l => (l, 0x1AB, 0))))
  ∧ ∀ s : State, ∃ t, exec .serviceTimeout s = .next t ∧ (∀ f ∈ t.flights, f ∈ s.flights ∧ svcLate s f = none)
      ∧ ((s.flights.map (·.id)).Nodup → ∀ f ∈ s.flights, svcLate s f = none → f ∈ t.flights))

/-- `resume` (13 R373, R389). MOD 0 leaves the retake stub for the cut clause, with the distance at 0; MOD 1 leaves the handler for the RPC of the record at `%sp`, which rises by 64; a thread goes on inside the clause that the cause interrupted, where the RPC lies in it (the model's choice: log 17). `twait` (13 R390): with every named token at zero, mask 0 among them, the contributors go on; else they park. Nothing else changes while no other thread of the warp waits so. -/
def Obligations.ResumeAndTokenWait : Prop :=
  (∀ (s : State) (c : WCtx) (f : VF), warpCtx s (.resume f) = some c → WarpReady (opResume f) s c = true →
    (f.mod = 0 → AnswersWarp (.resume f) s c { c.w with threads := threadsAfter c (.resume f) (onCs c fun th => match th.stub with
      | some st => { landed st.target th with stub := none, cutDist := 0, moved := false }
      | none => th) })
    ∧ ∀ l bs u, f.mod ≠ 0 → c.cs = [l] → readRecord (issued (opResume f) c s) c.wg c.wi l = (some bs, u) →
      exec (.resume f) s = .next (updThread u c.wg c.wi l fun th => { th with
        sp := th.sp + 64, inHandler := false, pc := BitVec.ofNat 57 (leNat ((bs.drop 16).take 8)), clause := resumeClause th.saved (leNat ((bs.drop 16).take 8)), saved := none, moved := false }))
  ∧ (∀ (s : State) (c : WCtx) (f : VF), warpCtx s (.twait f) = some c → WarpReady (opTwait f) s c = true →
    (∀ (l : Nat) (th : Thread) (m : BitVec 6), c.w.threads[l]? = some th → th.park ≠ some (.twait m)) →
    ((∀ i < 6, (f.b.toNat % 64).testBit i = true → Warp_tok c.w i = 0) →
      AnswersWarp (.twait f) s c { c.w with threads := threadsParked c (.twait f) fun th => stepThread (instrLen f.l) th })
    ∧ ((∃ i < 6, (f.b.toNat % 64).testBit i = true ∧ Warp_tok c.w i ≠ 0) →
      AnswersWarp (.twait f) s c { c.w with threads := threadsParked c (.twait f) fun th => { th with park := some (.twait (BitVec.ofNat 6 (f.b.toNat % 64))) } }))

/-- `tfill` (11 R310, R311) raises its token and goes into flight with the tile bytes it will write, 4 for each container of its contributors; `tread` with the registers it will write, one container for each register of each contributor. The warp counts the collective. At COLLECTIVE_COMPLETION of a `tfill` the bytes are written and the token falls, no thread of the warp waiting at `twait`. At that of a `tread` the registers are written, but for those of slices that have been returned (07 R159), and the token falls; where a tile-file error has befallen the read (11 R293: 0x13C; when one does is free, log 79), none is written and each of its threads is due that cause. -/
def Obligations.Collectives : Prop :=
  (∀ (s : State) (c : WCtx) (f : TF),
    let w := c.k.tcfg.get f.tr.toNat
    let cells := c.cs.flatMap fun l => (List.range (f.b.toNat % 16 + 1)).filterMap fun k => (containerAt c.g.lrec w c.W f l k).map fun a => (l, f.d.toNat + k, a)
    let counted := fun (i : Instr) (fill : Bool) => { warpTok c.w (tokOf f.tok) true with
      colls := c.w.colls ++ [{ id := s.nextId, fill := fill, tile := f.tr.toNat, tok := tokOf f.tok }], threads := threadsAfter c i fun _ th => th }
    (warpCtx s (.tfill f) = some c → WarpReady (opTfill f) s c = true → AnswersWith (.tfill f) s c (counted (.tfill f) true)
      (inFlight (WCtx_iss c) c.pc 0 (.collective f.tr.toNat (tokOf f.tok) []
        (cells.flatMap fun (l, r, a) => (List.range 4).zip (leBytes 4 (vget c.w r l).toNat) |>.map fun (j, b) => (tGbase w * 4096 + a + j, b)))))
    ∧ (warpCtx s (.tread f) = some c → WarpReady (opTread f) s c = true → AnswersWith (.tread f) s c (counted (.tread f) false)
      (inFlight (WCtx_iss c) c.pc 0 (.collective f.tr.toNat (tokOf f.tok) (cells.map fun (l, r, a) => ⟨l, r, BitVec.ofNat 64 (tileNat c.k w a 4)⟩) []))))
  ∧ ∀ (s : State) (n : Nat) (fl : Flight) (tile : Nat) (tok : Option Nat) (wr : List RegWrite) (bytes : List (Nat × Byte)) (wg wi : Nat) (ls : List Nat) (k : Workgroup) (w : Warp),
    findFlight s n = some fl → fl.kind = .collective tile tok wr bytes → fl.who = .warp wg wi ls →
    findWg s wg = some k → k.warps[wi]? = some w → (∀ (l : Nat) (th : Thread) (m : BitVec 6), w.threads[l]? = some th → th.park ≠ some (.twait m)) →
    let over_ := fun (x : Warp) => { warpTok x tok false with colls := x.colls.filter fun c => !(c.id == n) }
    (wr = [] → (∀ x ∈ w.colls, x.id = n → x.fill = true) → ∃ g, exec (.collectiveCompletion n) s = .next (updWg (landedFlight n s) wg g)
      ∧ g k = { Workgroup_updWarp k wi over_ with
          tiles := if bytes = [] then k.tiles else SMap.setAll k.tiles bytes, tgen := if bytes = [] then k.tgen else SMap.set k.tgen tile (k.tgen.get tile + 1) })
    ∧ (bytes = [] → (∃ x ∈ w.colls, x.id = n ∧ x.fill = false) →
      (0x13C ∉ s.softErrors → ∃ g, exec (.collectiveCompletion n) s = .next (updWg (landedFlight n s) wg g)
        ∧ g k = Workgroup_updWarp k wi fun x => over_ ((wr.filter fun r => !w.ended && !w.returned.contains (r.lane / 32)).foldl (fun x r => vset x r.reg r.lane (r.val.setWidth 32)) x))
      ∧ (0x13C ∈ s.softErrors → w.ended = false → ∃ g, exec (.collectiveCompletion n) s = .next (updWg { landedFlight n s with softErrors := s.softErrors.erase 0x13C } wg g)
        ∧ g k = Workgroup_updWarp k wi fun x => over_ (Warp_updThreads x ls fun th => { th with
            deferred := th.deferred ++ [{ cause := 0x13C, addr := 0, lanes := laneMask ls, fpc := fl.pc, tok := some (tok.getD 6), left := 0, engine := false, words := 0, stamp := n }] })))

/-- `bar` (09 R240): the threads park at it, and the workgroup's barriers are examined. While a live thread of the warp is elsewhere, and no warp of the workgroup has arrived at a barrier, that is all. When the warp is the workgroup's only one and all its live threads issue it with count 0, the barrier completes: the threads go on, the barrier's phase counts one more, and a cue thread at `wgbar` of that number goes on; with ORDR 4 and a mask, a release and an acquire come first (no peer's acknowledgement being awaited). `cntwt` (09 R243): when the counter of every contributor has reached its target, the contributors go on, after the acquire; when one has not, they park on a flight that holds those that have not; the window of `cntwt` opens in every thread of the group (the model's choice: log 64). -/
def Obligations.BarrierAndCounterWait : Prop :=
  (∀ (s : State) (c : WCtx) (f : MF), warpCtx s (.bar f) = some c → WarpReady (opBar f) s c = true →
    exec (.bar f) s = .next (barArrive (updThreads (issued (opBar f) c s) c.wg c.wi c.lanes fun th => { th with park := some (.bar f.ofs.toNat (barCount c f) (f.ordr = 4) f.obs) }) c.wg c.wi)
    ∧ ((∃ l ∈ Warp_live c.w, l ∉ c.lanes ∧ (c.w.threads[l]?).bind (·.park) = none) → (∀ n, arrivals c.k n = []) →
      ∃ g, exec (.bar f) s = .next (updWarp s c.wg c.wi g) ∧ (g c.w).threads = c.w.threads.mapIdx (fun l th => if l ∈ c.lanes then
        { (if l ∈ c.cs then writeThread (WCtx_use c (.bar f)) (countThread c.w th) else countThread c.w th) with plen := instrLen (warpL (.bar f)), park := some (.bar f.ofs.toNat (barCount c f) (f.ordr = 4) f.obs) } else th)
        ∧ { g c.w with threads := c.w.threads } = c.w)
    ∧ (c.k.warps = [c.w] → c.lanes = Warp_live c.w → barCount c f = 0 → f.ofs.toNat < 16 →
      let p := updThreads (issued (opBar f) c s) c.wg c.wi c.lanes fun th => { th with park := some (.bar f.ofs.toNat 0 (f.ordr = 4) f.obs) }
      (f.ordr = 4 → relHold p (.warp c.wg 0 []) f.obs = false) →
      let t := if f.ordr = 4 ∧ f.obs ≠ 0 then acquire (release (drainStream p (.warp c.wg 0 [])) (.cue c.wg) f.obs) (.cue c.wg) f.obs else p
      exec (.bar f) s = .next (updWg t c.wg fun k => { Workgroup_updWarp k 0 fun w => Warp_updThreads w (Warp_live w) fun th => stepThread th.plen { th with park := none } with
        phase := SMap.set k.phase f.ofs.toNat (k.phase.get f.ofs.toNat + 1), cue := if k.cue.park = some (.wgbar f.ofs.toNat) then unparkCue k.cue else k.cue })))
  ∧ (∀ (s : State) (c : WCtx) (f : MF) (adr : Nat → Nat), warpCtx s (.cntwt f) = some c → WarpReady (opCntwt f) s c = true → undrained s (WCtx_iss c) = true →
    (∀ a ∈ counterAccs f false (issued (opCntwt f) c s) c, a.acc = .ok (.ls (adr a.lane)) Trans_none) →
    (∀ l ∈ c.cs, lsCap s (adr l / 16) = .good ∧ leNat (lsBytes s (adr l + 8) 8) = 0) →
    let short := fun l => decide (sextN (leNat (lsBytes s (adr l) 8)) 64 < sextN (vgetN c.w f.d.toNat l 2) 64)
    (c.cs.any short = false →
      AnswersWith (.cntwt f) s c { c.w with threads := threadsParkedWith c (.cntwt f) (fun th => stepThread (instrLen f.l) th) (openedWindow c (.cntwt f) s.nextId false false) }
        (fun t => acquireIf (f.ordr = 2) (WCtx_iss c) f.obs (inFlight (WCtx_iss c) c.pc f.look.toNat .plain t)))
    ∧ (c.cs.any short = true →
      AnswersWith (.cntwt f) s c { c.w with threads := threadsParkedWith c (.cntwt f) (fun th => { th with park := some (.counter s.nextId) }) (openedWindow c (.cntwt f) s.nextId false false) }
        (inFlight (WCtx_iss c) c.pc f.look.toNat
          (.counter (.cntwt f) ((c.cs.filter short).map fun l => ⟨l, .ls (adr l), BitVec.ofNat 64 (mAddr (passW c l) f .off false l), wordsOf c f.d.toNat l 2, false⟩) []))))

/-- A load that reads local stores (`ld.l`, `ld.c`, and `ld.g` and `ld.p` where their address leads there; 08 R178, R182, R204): each contributor's value, read in the address its operands give, goes into flight for its registers, and the window opens. No memory changes. The value is read as the instruction issues (the model's choice: log 25), and the window opens in every thread of the group, guard-failed ones included, and in a group with no contributor (the model's choice: log 64). A load of one contributor at any place (08 R204, R198): once what it waits for has been performed (08 R179, 09 R216, R219), what `loadAt` reads there goes into flight, or the integrity cause of its space. -/
def Obligations.Loads : Prop :=
  (∀ (i : Instr) (op : WOp) (f : MF) (sp : Space) (m : MA) (s : State) (c : WCtx) (adr : Nat → Nat), warpOp i = some op → loadForm i = some (f, sp, m) → f.fe = 0 → c.cs ≠ [] →
    warpCtx s i = some c → WarpReady op s c = true → undrained s (WCtx_iss c) = true → AtLocal (issued op c s) c f m sp false adr →
    (∀ l ∈ c.cs, lsCaps s (adr l) (mBytes f) = .good) →
      AnswersWith i s c { c.w with threads := threadsAfter c i fun _ => openedWindow c i s.nextId false (sp == .priv) }
        (fun t => inFlight (WCtx_iss c) c.pc f.look.toNat
          (.load (c.cs.flatMap fun l => laneWrites l f.d.toNat (loadVal f (leNat (lsBytes s (adr l) (mBytes f)))) (widRegs f.wid.toNat)) [] [])
          (acquireIf (f.ordr = 2) (WCtx_iss c) f.obs t)))
  ∧ (∀ (i : Instr) (op : WOp) (f : MF) (sp : Space) (m : MA) (s : State) (c : WCtx) (l : Nat) (loc : Loc) (tr : Trans) (bs : List Byte) (cap : CapState) (u : State),
    warpOp i = some op → loadForm i = some (f, sp, m) → f.fe = 0 → c.cs = [l] → warpCtx s i = some c → WarpReady op s c = true →
    let a := mAddr (passW c l) f m (sp == .priv) l
    place (issued op c s) (WCtx_iss c) sp c.wi l a (mBytes f) false = .ok loc tr →
    loadAt (beforeAccess (issued op c s) (WCtx_iss c) [(loc, tr)]) (WCtx_iss c) loc tr (mBytes f) (homeRead f) = (bs, cap, u) →
      exec i s = .next (launched c i
          (match integrityCause (Space_num (spaceAt sp a)) cap with
            | none => .load (laneWrites l f.d.toNat (loadVal f (leNat bs)) (widRegs f.wid.toNat)) [] []
            | some x => .load [] [] [(l, x, BitVec.ofNat 64 (accVa c sp l a))]) false (sp == .priv)
          (acquireIf (f.ordr = 2) (WCtx_iss c) f.obs (touchTlb u (WCtx_iss c) (accVa c sp l a) tr))))
  ∧ ∀ (i : Instr) (op : WOp) (f : MF) (sp : Space) (m : MA) (s : State) (c : WCtx), warpOp i = some op → loadForm i = some (f, sp, m) → f.fe = 0 → c.cs = [] →
    warpCtx s i = some c → WarpReady op s c = true → exec i s = .next (launched c i .plain false (sp == .priv) (issued op c s))

/-- A load on full/empty bits (08 R185) of one contributor: with its granule full, and no earlier load waiting for it, the value goes into flight and `.take` leaves the granule empty, and an acquire self-invalidates; with the granule empty, or an earlier load waiting, the thread parks. `fe` (08 R206): each contributor acts on the bit of its granule, in ascending lane order; of one contributor, `.tst` answers the bit, `.clr` clears it, `.tstclr` answers it and clears it, `.set` sets it. -/
def Obligations.FullEmptyLoads : Prop :=
  (∀ (i : Instr) (op : WOp) (f : MF) (sp : Space) (m : MA) (s : State) (c : WCtx) (l a : Nat), warpOp i = some op → loadForm i = some (f, sp, m) → f.fe ≠ 0 → c.cs = [l] →
    warpCtx s i = some c → WarpReady op s c = true → undrained s (WCtx_iss c) = true →
    place (issued op c s) (WCtx_iss c) sp c.wi l (mAddr (passW c l) f m (sp == .priv) l) (mBytes f) false = .ok (.ls a) Trans_none →
    (feGet s (a / 16) = true → feAhead s s.nextId (a / 16) = false → lsCaps s a (mBytes f) = .good →
      AnswersWith i s c { c.w with threads := threadsParkedWith c i (fun th => openedWindow c i s.nextId false false (stepThread (instrLen f.l) th)) (openedWindow c i s.nextId false false) }
        (fun t => inFlight (WCtx_iss c) c.pc f.look.toNat (.load (laneWrites l f.d.toNat (loadVal f (leNat (lsBytes s a (mBytes f)))) (widRegs f.wid.toNat)) [] [])
          (acquireIf (f.ordr = 2) (WCtx_iss c) f.obs (if f.fe = 2 then feSet t (a / 16) false else t))))
    ∧ (feGet s (a / 16) = false ∨ feAhead s s.nextId (a / 16) = true →
      AnswersWith i s c { c.w with threads := threadsParkedWith c i (fun th => { th with park := some (.fullEmpty s.nextId false), plen := instrLen f.l }) (openedWindow c i s.nextId false false) }
        (inFlight (WCtx_iss c) c.pc f.look.toNat (.fullEmpty i [⟨l, .ls a, BitVec.ofNat 64 (mAddr (passW c l) f m (sp == .priv) l), [], false⟩] [] []))))
  ∧ ∀ (s : State) (c : WCtx) (f : MF), warpCtx s (.fe f) = some c → WarpReady (opFe f) s c = true →
    (c.cs = [] → exec (.fe f) s = .next (launched c (.fe f) .plain false false (issued (opFe f) c s)))
    ∧ ∀ (l : Nat) (loc : Loc) (tr : Trans) (a : Nat), c.cs = [l] →
      let va := mAddr (passW c l) f .off false l / 16 * 16
      place (issued (opFe f) c s) (WCtx_iss c) (sxSpace f) c.wi l va 16 true = .ok loc tr →
      let u := orderBefore (issued (opFe f) c s) (WCtx_iss c) (isRel f.ordr.toNat) f.obs [(loc, tr)]
      place u (WCtx_iss c) (sxSpace f) c.wi l va 16 true = .ok (.ls a) Trans_none →
        exec (.fe f) s = .next (launched c (.fe f) (.load (if f.fe = 0 ∨ f.fe = 2 then [⟨l, f.d.toNat, if feGet u (a / 16) then 1 else 0⟩] else []) [] []) false false
          (acquireIf (isAcq f.ordr.toNat) (WCtx_iss c) f.obs (if f.fe = 0 then u else feSet u (a / 16) (f.fe == 3))))

/-- A store that writes local stores (`st.l`, `st.c`, and `st.g` and `st.p` where their address leads there; 08 R178, R182, R204): every byte takes the value of the highest lane that covers it, and EVERY OTHER BYTE of the local stores, home memory and host memory is as it was. A store of one contributor at any place (08 R204, 09 R211, R214, R219): after a release when ORDR is 3, and what else it waits for, `storeAt` writes the register's low bytes at the address its operands give, or, for a strong store beyond T and a strongly consistent page, the store goes on its way; the data registers stay pending. -/
def Obligations.Stores : Prop :=
  (∀ (i : Instr) (op : WOp) (f : MF) (sp : Space) (m : MA) (s : State) (c : WCtx) (adr : Nat → Nat), warpOp i = some op → storeForm i = some (f, sp, m) → c.cs ≠ [] → f.ordr = 0 →
    warpCtx s i = some c → WarpReady op s c = true → undrained s (WCtx_iss c) = true → AtLocal (issued op c s) c f m sp true adr →
      ∃ t, exec i s = .next t ∧ t.mem = s.mem ∧ t.hostMem = s.hostMem ∧ t.l1 = s.l1
        ∧ (∀ x, lsBytes t x 1 = match lastWriter c (mBytes f) adr x with
          | some l => [(leBytes (mBytes f) (vgetN c.w f.d.toNat l (widRegs f.wid.toNat))).getD (x - adr l) 0]
          | none => lsBytes s x 1)
        ∧ (∀ g, feGet t g = (feGet s g || (f.fe == 3 && c.cs.any fun l => (granules (adr l) (mBytes f)).contains g)))
        ∧ t.flights = s.flights ++ [{ id := s.nextId, who := WCtx_iss c, pc := c.pc, look := f.look.toNat, clk := s.clk, kind := .plain }]
        ∧ ∃ h, t.wgs = (updWarp s c.wg c.wi h).wgs ∧ h c.w = { c.w with threads := threadsAfter c i fun _ => openedWindow c i s.nextId false (sp == .priv) })
  ∧ (∀ (i : Instr) (op : WOp) (f : MF) (sp : Space) (m : MA) (s : State) (c : WCtx) (l : Nat) (loc loc' : Loc) (tr tr' : Trans), warpOp i = some op → storeForm i = some (f, sp, m) →
    c.cs = [l] → warpCtx s i = some c → WarpReady op s c = true →
    let n := mBytes f
    let a := mAddr (passW c l) f m (sp == .priv) l
    let va := accVa c sp l a
    let v := vgetN c.w f.d.toNat l (widRegs f.wid.toNat)
    let strong := f.ordr ≠ 0 && obsBeyondT f.obs
    place (issued op c s) (WCtx_iss c) sp c.wi l a n true = .ok loc' tr' →
    let r := orderBefore (issued op c s) (WCtx_iss c) (f.ordr = 3) f.obs [(loc', tr')]
    place r (WCtx_iss c) sp c.wi l a n true = .ok loc tr →
      let u := touchTlb r (WCtx_iss c) va tr
      let w := storeAt u (WCtx_iss c) l loc tr (leBytes n v) strong (c.pc, BitVec.ofNat 64 va)
      let x := match loc with
        | .ls y => if f.fe = 3 then feSetAll w y n true else w
        | _ => w
      (onItsWay c strong loc tr = false → exec i s = .next (launched c i .plain false (sp == .priv) (markStores x c [loc] f.look.toNat)))
      ∧ (onItsWay c strong loc tr = true → exec i s = .next (launched c i
          (.exec i [⟨l, loc, BitVec.ofNat 64 va, [BitVec.ofNat 64 v, BitVec.ofNat 64 (v / 2 ^ 64)], tr.sc⟩] (issuerKey (issued op c s) (WCtx_iss c))) false (sp == .priv) (markStores u c [loc] f.look.toNat))))
  ∧ ∀ (i : Instr) (op : WOp) (f : MF) (sp : Space) (m : MA) (s : State) (c : WCtx), warpOp i = some op → storeForm i = some (f, sp, m) → c.cs = [] →
    warpCtx s i = some c → WarpReady op s c = true → exec i s = .next (launched c i .plain false (sp == .priv) (issued op c s))

/-- What the cache and ordering instructions of the warp stream leave (08 R205 to R207, 09 R218, R238): `l1wb` and `l1inv` of the whole L1 flush it or drop its clean bytes; of one contributor's line, that line; `pf` of a line that is not held, not poisoned and not of an SC page brings it in; `fence` performs what its stream has on its way, then its release, then its acquire. Each but `pf` opens its window. A release whose mask goes beyond T leaves no dirty byte in the L1 of its core (09 R214), and an acquire no clean one but of immutable pages (09 R215, 08 R181); with mask T alone neither changes anything. What a flush or the write-back of one line leaves: every dirty byte stands in the home memory or the host memory behind its line, every other byte of home memory is as it was, and the lines are clean (08 R181, R197). -/
def Obligations.CachesAndOrder : Prop :=
  (∀ (s : State) (c : WCtx) (f : MF), c.cs ≠ [] →
    (warpCtx s (.l1wb f) = some c → WarpReady (opL1wb f) s c = true →
      (f.sx = 1 → exec (.l1wb f) s = .next (launched c (.l1wb f) .plain false false (l1Flush (issued (opL1wb f) c s) c.k.core)))
        ∧ ∀ l loc a tr, f.sx = 0 → c.cs = [l] → lineAt (issued (opL1wb f) c s) c f l = some (loc, a, tr) →
          (∀ ln, l1Find s c.k.core (a / 128) = some ln → exec (.l1wb f) s = .next (launched c (.l1wb f) .plain false false (l1WriteBack (issued (opL1wb f) c s) ln)))
          ∧ (l1Find s c.k.core (a / 128) = none → exec (.l1wb f) s = .next (launched c (.l1wb f) .plain false false (issued (opL1wb f) c s))))
    ∧ (warpCtx s (.l1inv f) = some c → WarpReady (opL1inv f) s c = true →
      (f.sx = 1 → exec (.l1inv f) s = .next (launched c (.l1inv f) .plain false false (l1Inv (issued (opL1inv f) c s) c.k.core)))
        ∧ ∀ l loc a tr, f.sx = 0 → c.cs = [l] → lineAt (issued (opL1inv f) c s) c f l = some (loc, a, tr) →
          exec (.l1inv f) s = .next (launched c (.l1inv f) .plain false false (l1InvLine (issued (opL1inv f) c s) c.k.core (a / 128))))
    ∧ (∀ l loc a tr, warpCtx s (.pf f) = some c → WarpReady (opPf f) s c = true → f.sx = 0 → c.cs = [l] → lineAt (issued (opPf f) c s) c f l = some (loc, a, tr) → tr.sc = false →
        mAddr (passW c l) f .base false l % 4 = 0 → (∀ pa, loc = .mem pa → homeCap s (pa / 16) ≠ .poison) → l1Find s c.k.core (a / 128) = none →
        ∃ t x, exec (.pf f) s = .next t ∧ l1Find t c.k.core (a / 128) = some x ∧ x.valid = BitVec.allOnes 128 ∧ x.dirty = 0)
    ∧ (warpCtx s (.fence f) = some c → WarpReady (opFence f) s c = true →
      let u := drainStream (issued (opFence f) c s) (WCtx_iss c)
      exec (.fence f) s = .next (launched c (.fence f) .plain false false (acquireIf (isAcq f.ordr.toNat) (WCtx_iss c) f.obs (if isRel f.ordr.toNat then release u (WCtx_iss c) f.obs else u)))))
  ∧ (∀ (s : State) (iss : Issuer) (obs : BitVec 7) (core : Nat), issuerCore s iss = some core →
    (obsBeyondT obs = true → (∀ l ∈ (release s iss obs).l1, l.core = core → l.dirty = 0)
      ∧ ∀ l ∈ (acquire s iss obs).l1, l.core = core → l.imm = false → l.valid = l.dirty)
    ∧ (obsBeyondT obs = true → release s iss obs = l1Flush s core) ∧ (obsBeyondT obs = false → release s iss obs = s ∧ acquire s iss obs = s))
  ∧ ∀ (s t : State) (core : Nat) (p : L1Line → Bool), (s.l1.map fun l => (l.core, l.line)).Nodup → (t = l1Flush s core ∧ p = fun l => l.core == core) ∨ (∃ x ∈ s.l1, t = l1WriteBack s x ∧ p = fun l => l == x) →
    (∀ l ∈ s.l1, p l = true → ∀ j < 128, l.dirty.getLsbD j = true →
      (128 * l.line < 2 ^ 45 → homeByte t (128 * l.line + j) = lineByte l.data j) ∧ (2 ^ 45 ≤ 128 * l.line → 128 * l.line < 2 ^ 52 → SMap.get t.hostMem (128 * l.line - 2 ^ 45 + j) = lineByte l.data j))
    ∧ (∀ a, (∀ l ∈ s.l1, p l = true → l.line = a / 128 → l.dirty.getLsbD (a % 128) = false) → homeByte t a = homeByte s a)
    ∧ t.l1.map (fun l => { l with writers := [] }) = s.l1.map fun l => { l with dirty := if p l = true then 0 else l.dirty, writers := [] }

/-- An operation at an execution point (`atom`, `atomf`, `cas`, `ldres`, `stcond`, `forage`, `cntadd`; 09 R220, R232 to R242) goes into flight with the place, address and operand words of each contributor, and opens its window. The same of any contributors at any places: a release first when the order asks for it, what else the accesses wait for, and each granule dropped from the core's L1 (09 R214, R216, R219, R220); the issue of `ldres` or `stcond` ends its agents' reservations, but for the use that the `stcond` makes of them (R221). -/
def Obligations.PointOperations : Prop :=
  (∀ (p : PointOp) (s : State) (c : WCtx), warpOp p.i = some (pointIssue p) → c.cs ≠ [] → p.ordr ≠ 3 ∧ p.ordr ≠ 4 → c.k.taskOn = false → (∀ f, p.i ≠ .ldres f ∧ p.i ≠ .stcond f) →
    warpCtx s p.i = some c → WarpReady (pointIssue p) s c = true → undrained s (WCtx_iss c) = true →
    (∀ a ∈ p.accs (issued (pointIssue p) c s) c, ∃ x, a.acc = .ok (.ls x) Trans_none) →
      AnswersWith p.i s c { c.w with threads := threadsAfter c p.i fun _ => openedWindow c p.i s.nextId false false }
        (inFlight (WCtx_iss c) c.pc ((warpLook p.i).getD 0)
          (.exec p.i ((placed (p.accs (issued (pointIssue p) c s) c)).map fun (l, a, loc, _) => ⟨l, loc, BitVec.ofNat 64 a, p.data c l, false⟩) (ksee c.w))))
  ∧ (∀ (p : PointOp) (s : State) (c : WCtx), warpOp p.i = some (pointIssue p) → warpCtx s p.i = some c → WarpReady (pointIssue p) s c = true →
    (c.cs = [] → exec p.i s = .next (launched c p.i .plain false false (issued (pointIssue p) c s)))
    ∧ (c.cs ≠ [] →
      let r := orderBefore (issued (pointIssue p) c s) (WCtx_iss c) (isRel p.ordr) p.obs (placesOf (p.accs (issued (pointIssue p) c s) c))
      let ps := placed (p.accs r c)
      let t := launched c p.i (.exec p.i (ps.map fun (l, a, loc, tr) => ⟨l, loc, BitVec.ofNat 64 a, p.data c l, tr.sc⟩) (issuerKey (issued (pointIssue p) c s) (WCtx_iss c))) false false
        (let v := ps.foldl (fun t (_, a, loc, tr) => touchTlb (pointDrop t (WCtx_iss c) loc p.n) (WCtx_iss c) a tr) r
         issueResv v (WCtx_iss c) p.i v.nextId (ps.map fun x => (x.1, x.2.2.1)))
      exec p.i s = .next (if p.marks then markTask t c 2 p.look else t)))

/-- EXECUTION_POINT_OPERATION (09 R220): the operands meet memory lane by lane, in ascending order, unless the slice's self-check fails (13 R350); the flight then holds what its registers will take. What port A issued in the same clk for the same warp is executed first. MEMORY_ACCESS_COMPLETION and VSFU_COMPLETION (02 R55, 04 R102, 08 R204): the registers take the flight's values in order and the flags are merged, its causes are recorded in their lanes, the window is done, and the flight is gone. -/
def Obligations.FlightProgress : Prop :=
  (∀ (s : State) (n : Nat) (fl : Flight) (i : Instr) (ops : List LaneOp) (key : BitVec 16), findFlight s n = some fl → fl.id = n → fl.kind = .exec i ops key → pointAhead s fl = [] →
    let ends := fun (u : State) (out : OpOut) => let v := acquireIf (isAcq (pointOrder i).1) fl.who (pointOrder i).2 u
      { v with flights := v.flights.map fun x => if x.id = n then { x with kind := .load out.writes out.flags out.bad } else x }
    ((∀ x y, pointSoft i = some x → y ∈ s.softErrors → y.toNat ≠ x) →
      let (out, t) := ops.foldl (fun (acc : OpOut × State) o =>
        let (r, u) := pointOp (pointFresh acc.2 fl.who o.loc 32) ⟨fl.who, i, key, n⟩ o
        (acc.1.join r, nameAwaits u acc.2.nextId fl.pc o.va)) (({} : OpOut), s)
      exec (.executionPointOperation n) s = .next (ends t out))
    ∧ ∀ x : Nat, pointSoft i = some x → BitVec.ofNat 9 x ∈ s.softErrors →
      exec (.executionPointOperation n) s = .next (ends { s with softErrors := s.softErrors.erase (BitVec.ofNat 9 x) } { bad := ops.map fun o => (o.lane, BitVec.ofNat 9 x, o.va) }))
  ∧ (∀ (s t : State) (n : Nat) (fl g : Flight), findFlight s n = some fl → findFlight s g.id = some g → pointAhead s fl = [g] → pointAhead s g = [] → exec (.executionPointOperation g.id) s = .next t →
      exec (.executionPointOperation n) s = exec (.executionPointOperation n) t)
  ∧ (∀ (s : State) (n : Nat) (fl : Flight), findFlight s n = some fl → fl.id = n →
    (∀ wg wi ls, fl.who = .warp wg wi ls →
      (∀ wr fs bad, fl.kind = .load wr fs bad → ∃ g, exec (.memoryAccessCompletion n) s = .next (updWarp (landedFlight n s) wg wi g)
        ∧ ∀ w, g w = doneIn n (recorded fl bad (fs.foldl (fun w (l, x) => mergeFlags w l x) (wr.foldl (fun w r => vset w r.reg r.lane (r.val.setWidth 32)) w))))
      ∧ (fl.kind = .plain → ∃ g, exec (.memoryAccessCompletion n) s = .next (updWarp (landedFlight n s) wg wi g) ∧ ∀ w, g w = doneIn n w)
      ∧ (∀ u wr fs, fl.kind = .vsfu u wr fs →
        ((∀ y ∈ s.softErrors, y.toNat ≠ 0x10C + u) → ∃ g, exec (.vsfuCompletion n) s = .next (updWarp (landedFlight n s) wg wi g)
          ∧ ∀ w, g w = doneIn n (fs.foldl (fun w (l, x) => mergeFlags w l x) (wr.foldl (fun w r => vset w r.reg r.lane (r.val.setWidth 32)) w)))
        ∧ ∀ y ∈ s.softErrors, y.toNat = 0x10C + u → ∃ g, exec (.vsfuCompletion n) s = .next (updWarp (landedFlight n { s with softErrors := s.softErrors.erase y }) wg wi g)
          ∧ ∀ w, g w = doneIn n (recorded fl (ls.map fun l => (l, y, 0)) w)))
    ∧ ((∀ wg wi ls, fl.who ≠ .warp wg wi ls) → ∀ wr fs bad, fl.kind = .load wr fs bad → ∃ g, exec (.memoryAccessCompletion n) s = .next (updCue (landedFlight n s) fl.who g)
        ∧ ∀ x, g x = { wr.foldl (fun x r => cset x r.reg r.val) x with
            deferred := x.deferred ++ bad.map fun (_, y, a) => ⟨y, a, 0, fl.pc, none, windowLeft x.windows n, false, 0, n⟩, windows := doneWindow x.windows n }))

/-- Operations at their execution point. Atomic read-modify-writes on a local store and in home memory (`atom`, `atomf`, `cas`, the 128-bit `cas` among them, and `catom`; 09 R233 to R236, 10 R274): the old value goes to the destination unless the operation is a `red`, and memory takes the new one; `cas` writes only when the old value is the expected one. `forage` and `cforage` (09 R239, 10 R275) take the next chunk of their counter, and `cntadd` (09 R242) advances its counter, unless it would fall below zero. Load-reserve and store-conditional (09 R221, R237) in home memory: `ldres` gives its agent the reservation of the granule; `stcond` writes and answers 0 only if, as it issued, its agent held the granule's reservation and nothing has ended it since; else it writes nothing and answers 1. An issue of either ends the agent's reservations. Every other byte of memory is unchanged. -/
def Obligations.PointResults : Prop :=
  (∀ (s : State) (iss : Issuer) (key : BitVec 16) (id : Nat) (o : LaneOp) (a : Nat), o.loc = .ls a →
    let at_ := fun (i : Instr) => pointOp s ⟨iss, i, key, id⟩ o
    let old := fun (n : Nat) => leNat (lsBytes s a n)
    (∀ f : AF, f.wid = 2 ∨ f.wid = 3 → lsCaps s a (2 ^ f.wid.toNat) = .good → let n := 2 ^ f.wid.toNat
      (∃ t, at_ (.atom f) = ({ writes := if f.aop.getLsbD 5 then [] else laneWrites o.lane f.d.toNat (old n) (n / 4) }, t)
        ∧ LocalPut s t a (leBytes n (atomNew (f.aop.toNat % 32) (8 * n) (old n) (opN o 0 n))))
      ∧ ∃ t, at_ (.cas f) = ({ writes := laneWrites o.lane f.d.toNat (old n) (n / 4) }, t) ∧ LocalPut s t a (leBytes n (if old n = opN o 0 n then opN o 2 n else old n)))
    ∧ (∀ f : AF, lsCaps s a 4 = .good → let (v, fl) := atomfNew (f.aop.toNat % 32) (old 4) (opN o 0 4)
      ∃ t, at_ (.atomf f) = ({ writes := if f.aop.getLsbD 5 then [] else laneWrites o.lane f.d.toNat (old 4) 1, flags := [(o.lane, fl)] }, t) ∧ LocalPut s t a (leBytes 4 v))
    ∧ ∀ f : MF, lsCap s (a / 16) = .good → leNat (lsBytes s (a + 8) 8) = 0 →
      let v := sextN (old 8) 64 + sextN (o.ops.getD 0 0).toNat (if f.wid = 2 then 32 else 64)
      (0 ≤ v → ∃ t, at_ (.cntadd f) = ({}, t) ∧ LocalPut s t a (leBytes 8 (wrap 64 v).toNat)) ∧ (v < 0 → at_ (.cntadd f) = ({ bad := [(o.lane, 0x0E7, o.va)] }, s)))
  ∧ (∀ (s : State) (iss : Issuer) (key : BitVec 16) (id : Nat) (o : LaneOp) (pa : Nat), o.loc = .mem pa →
    let at_ := fun (i : Instr) => pointOp s ⟨iss, i, key, id⟩ o
    let old := homeNat s pa
    (∀ f : AF, f.wid = 2 ∨ f.wid = 3 ∨ f.wid = 4 → homeCaps s pa (2 ^ f.wid.toNat) = .good → let n := 2 ^ f.wid.toNat
      (f.wid ≠ 4 → ∃ t, at_ (.atom f) = ({ writes := if f.aop.getLsbD 5 then [] else laneWrites o.lane f.d.toNat (old n) (n / 4) }, t)
        ∧ HomePut s t pa (leBytes n (atomNew (f.aop.toNat % 32) (8 * n) (old n) (opN o 0 n))))
      ∧ ∃ t, at_ (.cas f) = ({ writes := laneWrites o.lane f.d.toNat (old n) (n / 4) }, t) ∧ HomePut s t pa (leBytes n (if old n = opN o 0 n then opN o 2 n else old n)))
    ∧ (∀ f : AF, homeCaps s pa 4 = .good → let (v, fl) := atomfNew (f.aop.toNat % 32) (old 4) (opN o 0 4)
      ∃ t, at_ (.atomf f) = ({ writes := if f.aop.getLsbD 5 then [] else laneWrites o.lane f.d.toNat (old 4) 1, flags := [(o.lane, fl)] }, t) ∧ HomePut s t pa (leBytes 4 v))
    ∧ (∀ f : QM, f.wid = 2 ∨ f.wid = 3 → homeCaps s pa (2 ^ f.wid.toNat) = .good → let n := 2 ^ f.wid.toNat
      ∃ t, at_ (.catom f) = ({ writes := if f.mod ≠ 1 ∧ f.ofs.getLsbD 5 then [] else [⟨0, f.d.toNat, BitVec.ofNat 64 (old n)⟩] }, t)
        ∧ HomePut s t pa (leBytes n (if f.mod = 0 then atomNew (f.ofs.toNat % 32) (8 * n) (old n) (opN o 0 n)
          else if f.mod = 1 then (if old n = opN o 0 n then opN o 1 n else old n) else (atomfNew (f.ofs.toNat % 32) (old n) (opN o 0 n)).1)))
    ∧ (homeCaps s pa 32 = .good → homeNat s (pa + 16) 4 ≠ 0 → homeNat s (pa + 20) 4 ≠ 0 → homeNat s (pa + 24) 8 = 0 →
      let (start, size, next) := forageChunk (sextN (homeNat s pa 8) 64) (sextN (homeNat s (pa + 8) 8) 64) (homeNat s (pa + 16) 4) (homeNat s (pa + 20) 4)
      (∀ f : MF, ∃ t, at_ (.forage f) = ({ writes := laneWrites o.lane f.d.toNat ((wrap 64 start).toNat + 2 ^ 64 * (wrap 64 size).toNat) 4 }, t) ∧ HomePut s t pa (leBytes 8 (wrap 64 next).toNat))
      ∧ ∀ f : QM, ∃ t, at_ (.cforage f) = ({ writes := [⟨0, f.d.toNat, wrap 64 start⟩, ⟨0, f.d.toNat + 1, wrap 64 size⟩] }, t) ∧ HomePut s t pa (leBytes 8 (wrap 64 next).toNat))
    ∧ ∀ f : MF, let n := 2 ^ f.wid.toNat; let me := agentOf iss o.lane
      (homeCaps s pa n = .good → ∃ t, at_ (.ldres f) = ({ writes := laneWrites o.lane f.d.toNat (old n) (n / 4) }, t) ∧ t.mem = s.mem ∧ ∃ r ∈ t.resv, r.agent = me ∧ r.granule = pa / 16 ∧ r.claim = none)
      ∧ (holds s id me (pa / 16) = true → ∃ t, at_ (.stcond f) = ({ writes := [⟨o.lane, f.d.toNat, 0⟩] }, t) ∧ HomePut s t pa (leBytes n (opN o 0 n)) ∧ holds t id me (pa / 16) = false)
      ∧ (holds s id me (pa / 16) = false → at_ (.stcond f) = ({ writes := [⟨o.lane, f.d.toNat, 1⟩] }, dropClaim s id me)))
  ∧ (∀ (s : State) (iss : Issuer) (id l pa : Nat), (∀ r ∈ s.resv, r.claim ≠ some id) →
    (∀ f, ∀ r ∈ (issueResv s iss (.ldres f) id [(l, .mem pa)]).resv, r ∈ s.resv ∧ (r.claim = none → r.agent ≠ agentOf iss l))
    ∧ ∀ f, (∀ r ∈ (issueResv s iss (.stcond f) id [(l, .mem pa)]).resv, r.claim = none → r.agent ≠ agentOf iss l)
      ∧ (holds (issueResv s iss (.stcond f) id [(l, .mem pa)]) id (agentOf iss l) (pa / 16) = true ↔ ∃ r ∈ s.resv, r.claim = none ∧ r.agent = agentOf iss l ∧ r.granule = pa / 16))

/-- A stream at a clause header (02 R26, R27, R32, 07 R155). A header that meets one of R27's causes is not entered: every thread of the group, or the cue thread, takes the cause at the header. A sound header that marks no cut opens its clause in the step that brings a thread to it: the thread stands at its first word. So after a step, where a resident workgroup's live threads stand at a header that is in the cache and meets no cause of R27, the header marks a cut (13 R369). The clause's WAIT is met for good as it opens when its tokens then read zero (02 R29). -/
def Obligations.StepEntersClause : Prop :=
  (∀ (s : State) (wg wi port : Nat) (k : Workgroup) (g : Grid) (w : Warp) (l : Nat) (ls : List Nat) (th : Thread) (b : List Byte) (c : Cause),
    chosen s = .warp wg wi port → findWg s wg = some k → k.st = .resident → gridOf s k = some g → k.warps[wi]? = some w →
    portGroup (begin_ s) g k w wi port = l :: ls → w.threads[l]? = some th → th.clause = none → pieceAt s (k.core / 2) g.asid th.pc.toNat = .bytes b →
    headerCause false g.lrec.cutcnt (leWord b) = some c →
      step s = .next (stepEndPlain s (takeWarp { begin_ s with port := port } wg wi (l :: ls) { cause := c, kind := 0, fpc := th.pc.toNat, rpc := th.pc.toNat, lanes := laneMask (l :: ls) })))
  ∧ (∀ (s : State) (wg : Nat) (x : Cue) (b : List Byte) (c : Cause), chosen s = .cue wg → findCue s (.cue wg) = some x → cueReady (begin_ s) (.cue wg) x = true → x.clause = none →
    pieceAt s (fetchUnit s (.cue wg)) (spaceOf s (.cue wg)).1 x.pc.toNat = .bytes b → headerCause true (cueRec s (.cue wg)).cutcnt (leWord b) = some c →
      step s = .next (stepEndPlain s (takeCue (begin_ s) (.cue wg) { cause := c, kind := 0, fpc := x.pc.toNat, rpc := x.pc.toNat })))
  ∧ (∀ (s t : State) (k : Workgroup) (g : Grid) (w : Warp) (th : Thread) (b : List Byte), step s = .next t → k ∈ t.wgs → k.st = .resident → gridOf t k = some g → w ∈ k.warps → w.ended = false →
    th ∈ w.threads → atHeader th = true → pieceAt t (k.core / 2) g.asid th.pc.toNat = .bytes b → headerCause false g.lrec.cutcnt (leWord b) = none → (leWord b).getLsbD 13 = true)
  ∧ ∀ (u : State) (n i l : Nat) (k : Workgroup) (g : Grid) (w : Warp) (th : Thread) (b : List Byte), u.wgs[n]? = some k → k.st = .resident → gridOf u k = some g → k.warps[i]? = some w → w.ended = false →
    w.threads[l]? = some th → atHeader th = true → pieceAt u (k.core / 2) g.asid th.pc.toNat = .bytes b → headerCause false g.lrec.cutcnt (leWord b) = none → (leWord b).getLsbD 13 = false →
      ((((enterAll u).wgs[n]?).bind (·.warps[i]?)).bind (·.threads[l]?)) = some { th with pc := th.pc + 4, clause := some {
        hdr := th.pc, eng := fld (leWord b) 6 4, wait := fld (leWord b) 12 7, left := fldN (leWord b) 3 0, len := fldN (leWord b) 3 0, cut := false, strict := false, cutix := fld (leWord b) 31 16, first := true,
        waited := (List.range 6).all fun j => !(fld (leWord b) 12 7).getLsbD j || w.tokens.get j == 0 } }

/-- WHERE A WARP INSTRUCTION TRAPS (13 R346, R355, R356): the first cause it meets, in R346's order, is taken by every thread of its group at the instruction, which has no effect; a self-check's cause (13 R350) has then been reported, and a table read's cap failure behind the cause is posted (08 R200). -/
def Obligations.WarpPreciseCauses : Prop :=
  ∀ (i : Instr) (op : WOp) (s : State) (c : WCtx) (o : OwnC), warpOp i = some op → warpCtx s i = some c → c.k.st = .resident → c.lanes ≠ [] → c.lanes.any (heldLane op c) = false →
    c.lanes.any (fun l => (laneDue op c l).isSome) = false → issueCause op s c = some o →
      let t := if softCause s c i = some o then { s with softErrors := s.softErrors.erase o.cause } else s
      exec i s = .next (takeWarp (postWalk t (.warp c.wg c.wi c.lanes) o.cause o.addr) c.wg c.wi c.lanes { cause := o.cause, kind := 0, fpc := c.pc.toNat, rpc := c.pc.toNat, addr := o.addr, lanes := laneMask o.lanes })

/-- Where a cue instruction traps (13 R346, R355, R356): the first cause it meets is taken at the instruction, which has no effect; a self-check's cause (13 R350) has then been reported, and a table read's cap failure behind the cause is posted, as is what a launch's reads met (08 R200). A privileged opcode on a user cue thread (00 R8, 02 R61) raises the privilege fault, whatever else is wrong with the instruction. -/
def Obligations.CueTraps : Prop :=
  (∀ (i : Instr) (op : COp) (s : State) (c : CCtx) (o : OwnC), cueOp i = some op → cueCtx s i = some c → cueStopped s c = false →
    c.c.windows.any (fun x => !x.done && ((op.drain && c.pass) || x.left = 0)) = false → cueFalls s c.iss (op.drain && c.pass) (if c.pass then op.toks s c else 0) c.c = none →
    cueCause op s c = some o →
      let t := if c.pass ∧ cueSoft s i = some o then { s with softErrors := s.softErrors.erase o.cause } else if c.pass ∧ op.rest s c = some o then op.note c s else s
      exec i s = .next (takeCue (postWalk t c.iss o.cause o.addr) c.iss { cause := o.cause, kind := 0, fpc := c.pc.toNat, rpc := c.pc.toNat, addr := o.addr }))
  ∧ (∀ (i : Instr) (op : COp) (s : State) (c : CCtx) (wg : Nat), cueOp i = some op → cuePriv i = true → cueCtx s i = some c → c.iss = .cue wg → cueStopped s c = false →
    c.c.windows = [] → c.c.deferred = [] → (∀ g, c.g = some g → cueNextDist c.c ≤ g.lrec.cutmax) →
      exec i s = .next (takeCue s (.cue wg) { cause := 0x02F, kind := 0, fpc := c.pc.toNat, rpc := c.pc.toNat }))

/-- TAKING A CAUSE ON A WARP THREAD (13 R359): with HMASK bit 1 for its class, outside a handler, and with the record's four private stores possible, `%sp` falls by 64, the record is stored there, the in-handler flag is set and PC becomes WHANDLER. A cause that no handler takes (13 R359, R361): with HMASK bit 0 for its class, or inside a handler (NESTED), or when the record cannot be stored (NESTED, and NCAUSE names the store's cause; a table read's cap failure behind it is posted, 08 R200), it escalates with the thread as it was. -/
def Obligations.WarpHandler : Prop :=
  (∀ (s : State) (wg wi lane : Nat) (r : TrapRec) (k : Workgroup) (g : Grid) (th : Thread),
    findWg s wg = some k → gridOf s k = some g → findThread s wg wi lane = some th → k.st ≠ .halted → th.inHandler = false → g.lrec.hmask.getLsbD (r.cause.toNat / 32) = true →
    let sp := (th.sp.toNat + 2 ^ 32 - 64) % 2 ^ 32
    recordFault s (.warp wg wi [lane]) wi lane sp true = none →
      takeThread s wg wi r lane = updThread ([0, 16, 32, 48].foldl (fun t o => match recordPlace t (.warp wg wi [lane]) wi lane ((sp + o) % 2 ^ 32) true with
          | .ok loc tr => storeAt t (.warp wg wi [lane]) lane loc tr (((recBytes r).drop o).take 16) false
          | _ => t) s) wg wi lane fun th => { th with
        sp := BitVec.ofNat 32 sp, inHandler := true, saved := th.clause, clause := none, pc := BitVec.ofNat 57 g.lrec.whandler, park := none })
  ∧ (∀ (s : State) (wg wi lane : Nat) (r : TrapRec) (k : Workgroup) (g : Grid) (th : Thread), findWg s wg = some k → gridOf s k = some g → findThread s wg wi lane = some th → k.st ≠ .halted →
    (th.inHandler = true → takeThread s wg wi r lane = escalate s wg { r with kind := r.kind + 16 } 0)
    ∧ (th.inHandler = false → hmaskBit s k (r.cause.toNat / 32) = false → takeThread s wg wi r lane = escalate s wg r 0)
    ∧ ∀ c, th.inHandler = false → hmaskBit s k (r.cause.toNat / 32) = true → recordFault s (.warp wg wi [lane]) wi lane ((th.sp.toNat + 2 ^ 32 - 64) % 2 ^ 32) true = some c →
      takeThread s wg wi r lane = escalate (postWalk s (.warp wg wi [lane]) c (BitVec.ofNat 64 ((privBase g.lrec k wi lane + (th.sp.toNat + 2 ^ 32 - 64) % 2 ^ 32) % 2 ^ 57))) wg { r with kind := r.kind + 16 } c)

/-- ESCALATION (13 R361): the workgroup halts, its version is discarded, its host queue, if a host queue's grid holds it, reads as faulted (15 R424), and one 128-byte entry stands at slot ERRWIDX mod the entry count, with the index advanced by one and bit 0 of MWAKE0 set (where core 0 waits at `chalt`, it takes the wake at once). Without a free slot the entry is counted as dropped, and memory takes only the head of the workgroup record, whose STATE says halted (13 R378; log 99). Where entries were dropped before, the first free slot takes their report, cause 0x1FE with the count in ADDR, and the next the entry (13 R361). A cue thread whose c63 still stands in the image alone (13 R375) has its line brought back before it takes a cause; where that fails, the record cannot be stored and the cause escalates with the failure in NCAUSE (the model's choice: log 101). -/
def Obligations.Escalation : Prop :=
  (∀ (s : State) (wg : Nat) (r : TrapRec) (n : Cause) (k : Workgroup), findWg s wg = some k →
    let t := escalate s wg r n
    let w := mreg s Reg.ERRWIDX
    let slot := fun (i : Nat) => homeBytes t (mreg s Reg.ERRBASE / 256 % 2 ^ 44 * 256 % 2 ^ 46 + 128 * (i % errSlots s)) 128
    let entry := errBytes r k.image k.grid k.core k.ctx n
    let woken := (∀ x d, s.mgmt[0]? = some x → x.cue.park ≠ some (.chalt d)) → (mreg t Reg.MWAKE).testBit 0 = true
    findWg t wg = some (if k.taskOn then { k with st := .halted, vlines := [], vbytes := 0, taskOn := false, vdone := true } else { k with st := .halted })
      ∧ (∀ q x, (gridOf s k).bind (·.queue) = some q → findQueue s q = some x → findQueue t q = some { x with faulted := true })
      ∧ (errFree s = false → t.errDropped = s.errDropped + 1 ∧ t.mregs = s.mregs ∧ t.mem = (noteWg (updWg (versionDiscard s wg) wg fun k => { k with st := .halted }) wg).mem)
      ∧ (errFree s = true → s.errDropped = 0 → w + 1 < 2 ^ 64 → t.errDropped = 0 ∧ mreg t Reg.ERRWIDX = w + 1 ∧ woken ∧ slot w = entry)
      ∧ (errFree s = true → s.errDropped ≠ 0 → w + 2 < 2 ^ 64 → woken
        ∧ slot w = errBytes { cause := 0x1FE, kind := 2, fpc := 0, rpc := 0, addr := BitVec.ofNat 64 s.errDropped } 0 0 0 0 0
        ∧ (if (w + 1 + 2 ^ 64 - mreg s Reg.ERRRIDX) % 2 ^ 64 < errSlots s then t.errDropped = 0 ∧ mreg t Reg.ERRWIDX = w + 2 ∧ slot (w + 1) = entry else t.errDropped = 1 ∧ mreg t Reg.ERRWIDX = w + 1)))
  ∧ ∀ (s : State) (wg : Nat) (r : TrapRec) (k : Workgroup) (g : Grid), findWg s wg = some k → gridOf s k = some g → k.st ≠ .halted → k.missing.contains (cueLine g.lrec 63) = true →
    (∀ t j, bringLine s g k (cueLine g.lrec 63) = .ok t → findWg t wg = some j → gridOf t j = some g → j.missing.contains (cueLine g.lrec 63) = false → takeCue s (.cue wg) r = takeCue t (.cue wg) r)
    ∧ ∀ c, bringLine s g k (cueLine g.lrec 63) = .error c → c ≠ 0 →
      takeCue s (.cue wg) r = escalate s wg { r with kind := r.kind + 20, task := taskOf s k, lanes := (cget k.cue 63).setWidth 128 } c

/-- TAKING A CAUSE ON A CUE THREAD (13 R360): the record, with c63 in LANES, stands in the CTRAP slot of the workgroup record, c63 holds the window's address of that slot, the in-handler flag is set and PC becomes CHANDLER. `cresume` with MOD 1 ends the handler. -/
def Obligations.CueHandlerEntry : Prop :=
  (∀ (s : State) (wg : Nat) (r : TrapRec) (k : Workgroup) (g : Grid), findWg s wg = some k → gridOf s k = some g → k.st ≠ .halted → k.cue.inHandler = false →
    g.lrec.hmask.getLsbD (r.cause.toNat / 32) = true → k.missing.contains (cueLine g.lrec 63) = false →
      let full := { r with kind := r.kind + 4, task := taskOf s k, lanes := (cget k.cue 63).setWidth 128 }
      ∃ h, takeCue s (.cue wg) r = updWg (homeWrite s (k.image + 0x80) (recBytes full) 0 none) wg h
        ∧ h k = { k with cue := { cset k.cue 63 0x1FFFFFD00002000 with inHandler := true, saved := k.cue.clause, clause := none, pc := BitVec.ofNat 57 g.lrec.chandler, park := none } })
  ∧ ∀ (s : State) (c : CCtx) (f : QF) (wg : Nat) (bs : List Byte) (u : State), cueCtx s (.cresume f) = some c → CueReady (opCresume f) s c = true → c.pass = true → c.iss = .cue wg → f.mod = 1 →
    cueRecord (cueIssued (opCresume f) c s) c = (some bs, u) →
      ∃ h : Workgroup → Workgroup, exec (.cresume f) s = .next (updWg u wg h) ∧ ∀ k, (h k).cue.inHandler = false

/-- A FAULT OF A MANAGEMENT CORE (13 R362): `%mepc`, `%mcause` and `%maddr` take the resume PC, the cause and its address, PC becomes `%mtvec`, and nothing else of the device changes; a fault before `iret` stops the core and posts 0x1F5. -/
def Obligations.ManagementTrap : Prop :=
  ∀ (s : State) (m : Nat) (r : TrapRec) (x : Mgmt), s.mgmt[m]? = some x →
    (x.inTrap = false → takeCue s (.mgmt m) r = { s with mgmt := s.mgmt.modify m fun x => { x with
        mepc := BitVec.ofNat 64 r.rpc, mcause := r.cause.setWidth 64, maddr := r.addr, inTrap := true
        cue := { x.cue with pc := x.mtvec.setWidth 57, saved := x.cue.clause, clause := none, park := none } } })
    ∧ (x.inTrap = true → takeCue s (.mgmt m) r = postAsync { s with mgmt := s.mgmt.modify m fun x => { x with stopped := true } } 0x1F5 r.addr none)

/-- THE RESULT OF EVERY SCALAR CUE INSTRUCTION (10 R262, R263): c(D) takes the value modulo 2^64; the thread has passed the instruction and nothing else changes. -/
def Obligations.ScalarResults : Prop :=
  ∀ (i : Instr) (op : COp) (s : State) (c : CCtx) (f : QF) (fn : Nat → Nat → Nat → Int), cueOp i = some op → scalarFn i = some (f, fn) →
    cueCtx s i = some c → CueReady op s c = true → c.pass = true →
      AnswersCue i s c (cset (passedCue i c.c) f.d.toNat (BitVec.ofInt 64 (fn (cget c.c f.a.toNat).toNat (srcB c f).toNat (cget c.c f.d.toNat).toNat))) id

/-- `cdiv` (10 R264): quotient and remainder, truncated towards zero, and g3 = 0, the divider held for 34 clk (10 R247); by zero, the quotient is all ones, the remainder is the dividend and g3 = 1; the signed overflow gives −2^63, 0 and g3 = 1. What the other instructions that write the cue thread leave: `csel`, `cslot`, `wstat`, `csreg` a register (10 R262, R280, 13 R387), `ccmp` one flag (10 R265). -/
def Obligations.CueRegisters : Prop :=
  (∀ (s : State) (c : CCtx) (f : QF), cueCtx s (.cdiv f) = some c → CueReady (opCdiv f) s c = true → c.pass = true →
    let a := cget c.c f.a.toNat
    let b := srcB c f
    let (q, r, g) := if b = 0 then (BitVec.allOnes 64, a, true)
      else if f.mod = 0 then (if a = 0x8000000000000000 ∧ b = BitVec.allOnes 64 then (a, 0, true) else (BitVec.ofInt 64 (Int.tdiv a.toInt b.toInt), BitVec.ofInt 64 (Int.tmod a.toInt b.toInt), false))
      else (BitVec.ofNat 64 (a.toNat / b.toNat), BitVec.ofNat 64 (a.toNat % b.toNat), false)
    AnswersCue (.cdiv f) s c { gset (cset (cset (passedCue (.cdiv f) c.c) f.d.toNat q) (f.d.toNat + 1) r) 3 g with nextAt := s.clk + 34 } id)
  ∧ (∀ (s : State) (c : CCtx) (f : QF), c.pass = true →
    (cueCtx s (.csel f) = some c → CueReady (opCsel f) s c = true →
      AnswersCue (.csel f) s c (cset (passedCue (.csel f) c.c) f.d.toNat (if gget c.c (f.mod.toNat % 4) != f.mod.getLsbD 2 then cget c.c f.a.toNat else srcB c f)) id)
    ∧ (cueCtx s (.ccmp f) = some c → CueReady (opCcmp f) s c = true → f.mod = 0 ∨ f.mod = 1 →
      AnswersCue (.ccmp f) s c (gset (passedCue (.ccmp f) c.c) (f.d.toNat % 4)
        (condHolds (f.d.toNat / 8) (if f.mod = 0 then (cget c.c f.a.toNat).toInt else (cget c.c f.a.toNat).toNat) (if f.mod = 0 then (srcB c f).toInt else (srcB c f).toNat)
          ((cget c.c f.a.toNat) &&& srcB c f).toNat)) id)
    ∧ (∀ g, c.g = some g → cueCtx s (.cslot f) = some c → CueReady (opCslot f) s c = true →
      AnswersCue (.cslot f) s c (cset (passedCue (.cslot f) c.c) f.d.toNat (BitVec.ofNat 64 (slotValue (LaunchRec_slot g.lrec (f.a.toNat % 8)) f.mod.toNat))) id)
    ∧ (c.g = none → cueCtx s (.cslot f) = some c → CueReady (opCslot f) s c = true → ∃ v, AnswersCue (.cslot f) s c (cset (passedCue (.cslot f) c.c) f.d.toNat v) id)
    ∧ (cueCtx s (.wstat f) = some c → CueReady (opWstat f) s c = true →
      AnswersCue (.wstat f) s c (cset (passedCue (.wstat f) c.c) f.d.toNat (BitVec.ofNat 64 (wstatOf c f.mod.toNat))) id)
    ∧ (∀ v, sregCue (cueIssued (opCsreg f) c s) c f.b.toNat = some v → cueCtx s (.csreg f) = some c → CueReady (opCsreg f) s c = true →
      AnswersCue (.csreg f) s c (cset (passedCue (.csreg f) c.c) f.d.toNat v) id))

/-- A failed guard (10 R246): whatever the instruction, the thread passes it and nothing else happens. -/
def Obligations.FailedGuards : Prop :=
  ∀ (i : Instr) (op : COp) (s : State) (c : CCtx), cueOp i = some op → cueCtx s i = some c → CueReady op s c = true → c.pass = false → AnswersCue i s c (missedCue i c.c) id

/-- Transfers of control of a cue thread (10 R266 to R268, 13 R373, R389, R391): `cb`, `cbx`, calls that push the return address, `cret` that pops it, `cresume` out of a retake stub or a handler. -/
def Obligations.CueTransfers : Prop :=
  ∀ (s : State) (c : CCtx) (f : QF), c.pass = true →
    (cueCtx s (.cb f) = some c → CueReady (opCb f) s c = true → AnswersCue (.cb f) s c (landedCue (c.pc + BitVec.ofInt 57 (4 * f.imm.toInt)) (passedCue (.cb f) c.c)) id)
    ∧ (cueCtx s (.ccall f) = some c → CueReady (opCcall f) s c = true →
      AnswersCue (.ccall f) s c { landedCue (c.pc + BitVec.ofInt 57 (4 * f.imm.toInt)) (passedCue (.ccall f) c.c) with rstack := (c.pc + 8) :: c.c.rstack } id)
    ∧ (cueCtx s (.cbx f) = some c → CueReady (opCbx f) s c = true →
      AnswersCue (.cbx f) s c { landedCue ((cget c.c f.a.toNat).setWidth 57) (passedCue (.cbx f) c.c) with rstack := if f.mod = 1 then (c.pc + 4) :: c.c.rstack else c.c.rstack } id)
    ∧ (∀ a r, c.c.rstack = a :: r → cueCtx s (.cret f) = some c → CueReady (opCret f) s c = true →
      AnswersCue (.cret f) s c { landedCue a (passedCue (.cret f) c.c) with rstack := r } id)
    ∧ (∀ st, cueStub c.c = some st → f.mod = 0 → cueCtx s (.cresume f) = some c → CueReady (opCresume f) s c = true →
      ∃ g, exec (.cresume f) s = .next (updCue s c.iss g) ∧ (g c.c).pc = st.target ∧ (g c.c).clause = none ∧ (g c.c).stub = none ∧ (g c.c).cutDist = 0)
    ∧ (∀ bs u, f.mod = 1 → cueRecord (cueIssued (opCresume f) c s) c = (some bs, u) → cueCtx s (.cresume f) = some c → CueReady (opCresume f) s c = true →
      exec (.cresume f) s = .next (updCue u c.iss fun x => { cset x 63 (BitVec.ofNat 64 (leNat ((bs.drop 32).take 8))) with
        inHandler := false, pc := BitVec.ofNat 57 (leNat ((bs.drop 16).take 8)), clause := resumeClause x.saved (leNat ((bs.drop 16).take 8)), saved := none, moved := false }))

/-- `iret` (13 R391) transfers to `%mepc` and re-enables the management core's trap (R362); issued outside a management trap, it transfers all the same. `cswreg` (13 R387) writes one of `%mepc`, `%mtvec` and `%mscratch`. The management core's commands on itself and on workgroups (13 R392, R394). `chalt` parks it while its wake register is zero; with MOD 1 it ends the workgroup whose image is named, as `tabort` does for a versioned task: its version is discarded, so that of home memory no more than the record's head and an error entry is written, and its commands and collectives run on. `tcommit` commits the task's version, each written byte becoming current at home, after the dirty bytes of its core's L1 (13 R364), and marks it non-restartable. -/
def Obligations.ManagementCommands : Prop :=
  (∀ (s : State) (c : CCtx) (f : QF) (m : Nat) (x : Mgmt), c.pass = true → c.iss = .mgmt m → s.mgmt[m]? = some x →
    (cueCtx s (.iret f) = some c → CueReady (opIret f) s c = true → ∃ g, exec (.iret f) s = .next { s with mgmt := s.mgmt.modify m g } ∧ (g x).inTrap = false ∧ (g x).cue.pc = x.mepc.setWidth 57
      ∧ { g x with inTrap := x.inTrap, cue := x.cue } = x ∧ (g x).cue.regs = x.cue.regs ∧ (g x).cue.flags = x.cue.flags ∧ (g x).cue.tokens = x.cue.tokens)
    ∧ (cueCtx s (.cswreg f) = some c → CueReady (opCswreg f) s c = true →
      ∃ g, exec (.cswreg f) s = .next { s with mgmt := s.mgmt.modify m g } ∧ g x = { x with
        cue := passedCue (.cswreg f) x.cue, mepc := if f.b = 48 then cget c.c f.a.toNat else x.mepc, mtvec := if f.b = 51 then cget c.c f.a.toNat else x.mtvec
        mscratch := if f.b = 52 then cget c.c f.a.toNat else x.mscratch }))
  ∧ (∀ (s : State) (c : CCtx) (f : QF) (m : Nat), c.pass = true → c.iss = .mgmt m →
    (f.mod = 0 → mreg s (Reg.MWAKE + 8 * m) = 0 → cueCtx s (.chalt f) = some c → CueReady (opChalt f) s c = true →
      AnswersCue (.chalt f) s c { stayedCue (.chalt f) c.c with park := some (.chalt f.d.toNat) } id)
    ∧ ∀ k, findImage s (cget c.c f.a.toNat).toNat = some k → findWg s k.id = some k →
      let posts := mreg s Reg.ERRBASE / 256 % 2 ^ 44 * 256 % 2 ^ 46
      let ended := fun (t : State) => (∀ x ∈ t.wgs, x.id = k.id → x.st = .ended ∧ (k.taskOn = true → x.vlines = [] ∧ x.vbytes = 0 ∧ x.taskOn = false))
        ∧ (∀ a, a < k.image ∨ k.image + 0x18 ≤ a → a < posts ∨ posts + 128 * errSlots s ≤ a → homeByte t a = homeByte s a)
        ∧ t.cmds = s.cmds ∧ (∀ x ∈ t.flights, x ∈ s.flights ∧ (isColl x = true ∨ (x.who ≠ .cue k.id ∧ ∀ wi ls, x.who ≠ .warp k.id wi ls))) ∧ (∀ x ∈ s.flights, isColl x = true → x.who ≠ .cue k.id → x ∈ t.flights)
        ∧ ∀ g, gridOf s k = some g → g.retired = false → findGrid t k.grid = some { g with endedWgs := g.endedWgs + 1 }
      (f.mod ≠ 0 → cueCtx s (.chalt f) = some c → CueReady (opChalt f) s c = true → ∃ t, exec (.chalt f) s = .next t ∧ ended t)
      ∧ (cueCtx s (.tabort f) = some c → CueReady (opTabort f) s c = true → ∃ t, exec (.tabort f) s = .next t ∧ ended t)
      ∧ (cueCtx s (.tcommit f) = some c → CueReady (opTcommit f) s c = true → (k.vlines.map (·.line)).Nodup → ∃ t, exec (.tcommit f) s = .next t
        ∧ findWg t k.id = some { k with vlines := [], vbytes := 0, taskOn := false, vdone := true, nonRestart := true }
        ∧ ∀ a, (k.st = .taken → a ≠ k.image + 0x15) →
          (∀ v ∈ k.vlines, v.line = a / 128 → v.mask.getLsbD (a % 128) = true → homeByte t a = lineByte v.data (a % 128))
          ∧ ((∀ v ∈ k.vlines, v.line = a / 128 → v.mask.getLsbD (a % 128) = false) → (∀ l ∈ s.l1, l.core = k.core → l.line = a / 128 → l.dirty.getLsbD (a % 128) = false) → homeByte t a = homeByte s a)))

/-- The barriers, waits and the end of a cue thread (10 R271, R272, R278): `wgbar` parks while a warp is left, and its exit form goes on at once when none is; `cwait` whose tokens read zero, or whose untracked commands are complete, goes on after an acquire, and else parks; `cend` stands at its end. -/
def Obligations.CueWaits : Prop :=
  ∀ (s : State) (c : CCtx) (f : QF) (k : Workgroup), c.pass = true → c.k = some k →
    (cueCtx s (.wgbar f) = some c → CueReady (opWgbar f) s c = true →
      (f.mod = 0 → AnswersCue (.wgbar f) s c { stayedCue (.wgbar f) c.c with park := some (.wgbar (f.a.toNat % 16)) } id)
        ∧ (f.mod ≠ 0 → warpsLeft k = true → AnswersCue (.wgbar f) s c { stayedCue (.wgbar f) c.c with park := some .wgbarExit } id)
        ∧ (f.mod ≠ 0 → warpsLeft k = false → AnswersCue (.wgbar f) s c (unparkCue (stayedCue (.wgbar f) c.c)) id))
    ∧ (cueCtx s (.cwait f) = some c → CueReady (opCwait f) s c = true →
      (cwaitDone s c.iss c.c f.b.toNat s.nextId = true → f.b.toNat < 64 → AnswersCue (.cwait f) s c (unparkCue (stayedCue (.cwait f) c.c)) fun t => acquire t c.iss 0x7F)
        ∧ (cwaitDone s c.iss c.c f.b.toNat s.nextId = false → f.b.toNat < 64 →
          AnswersCue (.cwait f) s c { stayedCue (.cwait f) c.c with park := some (.cwait (BitVec.ofNat 6 f.b.toNat) s.nextId) } id))
    ∧ (cueCtx s (.cend f) = some c → CueReady (opCend f) s c = true → AnswersCue (.cend f) s c { stayedCue (.cend f) c.c with park := some .cend } id)

/-- `dqpush` (10 R276): with room in the queue of every named warp that has not ended, the entry is at the end of each and the thread goes on; without, it parks and DQPUSH_WRITE does so when there is room; while a taking is asked for that finds the thread at a cut, nothing is written. `cmig` (10 R269) asks for the core, or cancels by naming the present one. What `dqpush` adds (10 R276): in every warp of the mask that has not ended the entry stands last in the decision queue; nothing else of any warp changes. -/
def Obligations.QueuesAndMoves : Prop :=
  ((∀ (s : State) (c : CCtx) (f : QF) (wg : Nat) (k : Workgroup), c.pass = true → c.iss = .cue wg → c.k = some k → undrained s (.cue wg) = true →
    (cueCtx s (.dqpush f) = some c → CueReady (opDqpush f) s c = true →
      let parked := { stayedCue (.dqpush f) c.c with park := some (.dqpush (cget c.c f.a.toNat) (cget c.c f.b.toNat)) }
      (dqRoom k (cget c.c f.a.toNat).toNat = true → k.take = none ∨ cueStands parked = false → ∃ g, exec (.dqpush f) s = .next (updWg s wg g)
        ∧ g k = { dqPut k (cget c.c f.a.toNat).toNat (cget c.c f.b.toNat) s.clk with cue := unparkCue (stayedCue (.dqpush f) c.c) })
      ∧ (dqRoom k (cget c.c f.a.toNat).toNat = false ∨ (k.take ≠ none ∧ cueStands parked = true) → AnswersCue (.dqpush f) s c parked id))
    ∧ ∀ v, cmigTarget (cueIssued (opCmig f) c s) c f = .ok v → cueCtx s (.cmig f) = some c → CueReady (opCmig f) s c = true →
      ∃ g, exec (.cmig f) s = .next (updWg s wg g)
        ∧ (v = k.core → (g k).cmig = none ∧ (g k).take = if k.take = some .migrate then none else k.take) ∧ (v ≠ k.core → (g k).cmig = some v ∧ (g k).take.isSome = true))
  ∧ ∀ (s : State) (wg : Nat) (k : Workgroup) (m e : DWord), findWg s wg = some k → k.cue.park = some (.dqpush m e) → dqRoom k m.toNat = true → undrained s (.cue wg) = true →
    (k.take = none ∨ cueStands k.cue = false → ∃ g, exec (.dqpushWrite wg) s = .next (updWg s wg g) ∧ g k = { dqPut k m.toNat e s.clk with cue := unparkCue k.cue })
    ∧ (k.take ≠ none → cueStands k.cue = true → exec (.dqpushWrite wg) s = .next s))
  ∧ (∀ (k : Workgroup) (m clk : Nat) (e : DWord) (i : Nat) (w : Warp), k.warps[i]? = some w →
    (dqPut k m e clk).warps[i]? = some (if i < 64 ∧ m.testBit i = true ∧ w.ended = false then { w with dq := w.dq ++ [e], dqAt := clk } else w) ∧ { dqPut k m e clk with warps := k.warps } = k)

/-- The memory instructions of the cue stream (10 R273 to R275; 09 R211, R214 to R216, R219, R220). `cld` sends what its place holds on its way to c(D), or the integrity cause; `cst` writes the register's low bytes at its place, after a release if it has one, or, for a strong store beyond T and a strongly consistent page, goes on its way; `catom` and `cforage` go into flight for their execution point, their granule dropped from the core's L1. Each opens its window; nothing else of the thread changes. -/
def Obligations.CueMemory : Prop :=
  ∀ (s : State) (c : CCtx) (f : QM) (loc loc' : Loc) (tr tr' : Trans), c.pass = true →
    (∀ bs cap u, cueCtx s (.cld f) = some c → CueReady (opCld f) s c = true →
      placeGlobal (cueIssued (opCld f) c s) c.iss (qmAddr c f) (qmBytes f) false false = .ok loc' tr' →
      let r := beforeAccess (cueIssued (opCld f) c s) c.iss [(loc', tr')]
      placeGlobal r c.iss (qmAddr c f) (qmBytes f) false false = .ok loc tr →
      loadAt r c.iss loc tr (qmBytes f) (f.ordr ≠ 0 && (f.ordr = 2 || obsBeyondT f.obs)) = (bs, cap, u) →
        exec (.cld f) s = .next (launchedCue c (.cld f) (match integrityCause 6 cap with
            | none => .load (cueWrites f.d.toNat (cldVal f (leNat bs)) (qmRegs f.wid.toNat)) [] []
            | some x => .load [] [] [(0, x, BitVec.ofNat 64 (qmAddr c f))]) false
          (acquireIf (f.ordr = 2) c.iss f.obs (touchTlb u c.iss (qmAddr c f) tr))))
    ∧ (cueCtx s (.cst f) = some c → CueReady (opCst f) s c = true →
      let a := qmAddr c f
      let strong := f.ordr ≠ 0 && obsBeyondT f.obs
      placeGlobal (cueIssued (opCst f) c s) c.iss a (qmBytes f) true false = .ok loc' tr' →
      let r := orderBefore (cueIssued (opCst f) c s) c.iss (f.ordr = 3) f.obs [(loc', tr')]
      placeGlobal r c.iss a (qmBytes f) true false = .ok loc tr →
        let u := touchTlb r c.iss a tr
        (cueOnWay c strong loc tr = false → exec (.cst f) s = .next (launchedCue c (.cst f) .plain false
          (markCueStore (storeAt u c.iss 0 loc tr (leBytes (qmBytes f) (qmData c f)) strong (c.pc, BitVec.ofNat 64 a)) c loc f.look.toNat)))
        ∧ (cueOnWay c strong loc tr = true → exec (.cst f) s = .next (launchedCue c (.cst f)
          (.exec (.cst f) [⟨0, loc, BitVec.ofNat 64 a, [BitVec.ofNat 64 (qmData c f), BitVec.ofNat 64 (qmData c f / 2 ^ 64)], tr.sc⟩] (issuerKey (cueIssued (opCst f) c s) c.iss)) false
          (markCueStore u c loc f.look.toNat))))
    ∧ ∀ (i : Instr) (op : COp) (g : QM) (n : Nat) (excl : Bool) (ops : List DWord), cuePointForm c i = some (g, n, excl, ops) → cueOp i = some op →
      cueCtx s i = some c → CueReady op s c = true →
      let r := orderBefore (cueIssued op c s) c.iss (isRel g.ordr.toNat) g.obs (placesOf (pointAccs g n excl (cueIssued op c s) c))
      placeGlobal r c.iss (qmAddr c g) n true excl = .ok loc tr →
        exec i s = .next (markCue (launchedCue c i (.exec i [⟨0, loc, BitVec.ofNat 64 (qmAddr c g), ops, tr.sc⟩] (issuerKey (cueIssued op c s) c.iss)) false
          (touchTlb (pointDrop r c.iss loc n) c.iss (qmAddr c g) tr)) c 2 g.look.toNat)

/-- `cfence` (09 R218, 10 R247, R275), `csvc` (13 R366, R385) and `cwake` (13 R368, R386) of a cue thread. A fence performs what its thread has on its way, then its release, then its acquire, and opens its window; a request is posted as a record, after the marks of a versioned task, and its window opens; one whose record is not in HBM-backed memory answers 0x1AA; a wake is a release naming H and D, and then the value is ORed into its wake register. -/
def Obligations.CueOrdering : Prop :=
  ∀ (s : State) (c : CCtx), c.pass = true →
    (∀ f : QM, cueCtx s (.cfence f) = some c → CueReady (opCfence f) s c = true →
      let u := drainStream (cueIssued (opCfence f) c s) c.iss
      exec (.cfence f) s = .next (launchedCue c (.cfence f) .plain false (acquireIf (isAcq f.ordr.toNat) c.iss f.obs (if isRel f.ordr.toNat then release u c.iss f.obs else u))))
    ∧ (∀ f : QM, cueCtx s (.csvc f) = some c → CueReady (opCsvc f) s c = true →
      let u := markCue (cueIssued (opCsvc f) c s) c 6 f.look.toNat
      let q := f.ofs.toNat % 16
      let n := f.ofs.toNat / 16 % 4 + 1
      let words := (List.range n).flatMap fun j => leBytes 8 (cget c.c (f.a.toNat + j)).toNat
      let posted := fun (h : List Byte) => let t := svcPost u c.iss q (h ++ words)
        launchedCue c (.csvc f) (.svc q (svcDesc u q).widx f.d.toNat [0] (64 + 8 * n) t.clk) true t
      (svcBacked u q = false → exec (.csvc f) s = .next (launchedCue c (.csvc f) (.load [] [] [(0, 0x1AA, 0)]) true u))
      ∧ (svcBacked u q = true → (∀ g k, c.g = some g → c.k = some k → exec (.csvc f) s = .next (posted (svcHeader q n 1 0 1 g.num (taskOf u k).toNat k.core)))
        ∧ (c.g = none → ∃ h : List Byte, h.length = 64 ∧ exec (.csvc f) s = .next (posted h))))
    ∧ ∀ f : QF, cueCtx s (.cwake f) = some c → CueReady (opCwake f) s c = true →
      exec (.cwake f) s = .next (markCue (wakeOr (release (drainStream (cueIssued (opCwake f) c s) c.iss) c.iss 0x44) (cget c.c f.a.toNat).toNat (cget c.c f.b.toNat).toNat) c 6 0)

/-- The life of a grid and of a cue thread. `launch` (10 R254, R255, R277) parks its thread and raises its token; NEST_QUEUE_APPEND accepts the child as the next grid, writes its number to c(D), and the thread goes on; or the thread takes the launch's cause, the token as before. CUE_THREAD_END (10 R272) ends a thread at `cend` with nothing pending: causes of long operations and untracked commands are taken first, and those of tracked commands go to the management core (13 R357). WORKGROUP_END (10 R253) flushes its L1 and counts the workgroup in its grid; it leaves once its engine commands, its collectives and the `adrainp` rows on their way to it have completed (11 R312). GRID_RETIREMENT (10 R253, R254) retires the grid, lets its token fall, and writes its signal. -/
def Obligations.GridLife : Prop :=
  (∀ (s : State) (c : CCtx) (f : QE) (wg : Nat), c.pass = true → c.iss = .cue wg → cueCtx s (.launch f) = some c → CueReady (opLaunch f) s c = true →
    AnswersCue (.launch f) s c { tokUp (tokNum f) (stayedCue (.launch f) c.c) with park := some (.launchHold (cget c.c f.a.toNat) f.d.toNat (tokNum f)) } id)
  ∧ (∀ (s : State) (wg run d : Nat) (a : DWord) (tok : Option Nat) (x : Cue), findCue s (.cue wg) = some x → x.park = some (.launchHold a d tok) → childRun s (.cue wg) = some run →
    (∀ cp, launchOf s (.cue wg) a.toNat = .ok cp →
      ∃ t g, exec (.nestQueueAppend wg) s = .next t ∧ t.grids = s.grids ++ [g] ∧ g.patterns = cp.pats ∧ homeBytes t (run + 0x1000) cp.rec_.length = cp.rec_ ∧ (cp.args.length ≤ 4096 → homeBytes t run 4096 = cp.args ++ List.replicate (4096 - cp.args.length) 0) ∧ g.num = s.nextGrid ∧ g.lrec = parseRec cp.rec_ ∧ g.run = run ∧ g.nextWg = 0 ∧ g.endedWgs = 0 ∧ g.retired = false
        ∧ g.notify = tok.map (fun n => (.cue wg, n)) ∧ t.nextGrid = s.nextGrid + 1 ∧ (undrained s (.cue wg) = true → findCue t (.cue wg) = some (unparkCue (cset x d (BitVec.ofNat 64 s.nextGrid)))))
    ∧ ∀ e, launchOf s (.cue wg) a.toNat = .error e → exec (.nestQueueAppend wg) s = .next (takeCue (addTok (updCue (launchNote s (.cue wg) a.toNat) (.cue wg) fun x => { x with park := none }) (.cue wg) tok false) (.cue wg)
        { cause := e.cause, kind := 0, fpc := x.pc.toNat, rpc := x.pc.toNat }))
  ∧ (∀ (s : State) (wg : Nat) (x : Cue), findCue s (.cue wg) = some x → x.park = some .cend → x.windows.all (·.done) = true → untrackedCmds s (.cue wg) s.nextId = false →
    (dueIn true 64 x.deferred = none → exec (.cueThreadEnd wg) s = .next (x.deferred.foldl (fun t d => postRec t (postedRec x d) (some wg))
      (updCue (drainStream s (.cue wg)) (.cue wg) fun x => { x with ended := true, park := none, clause := none, deferred := [] })))
    ∧ ∀ d, dueIn true 64 x.deferred = some d → exec (.cueThreadEnd wg) s = .next (takeCue (updCue s (.cue wg) fun x => { x with park := none, deferred := x.deferred.filter fun y => !isDue true 64 y }) (.cue wg) (dueRec d x.pc)))
  ∧ (∀ (s : State) (wg : Nat) (k : Workgroup), findWg s wg = some k →
    (wgFinished k = true → unperformed s k.core = false →
      ∃ t, exec (.workgroupEnd wg) s = .next t ∧ (wgHolds s k = false → findWg t wg = none) ∧ (wgCmds s wg = true → ∃ k', findWg t wg = some k' ∧ k'.st = .ended) ∧ (∀ l ∈ t.l1, l.core = k.core → l.dirty = 0)
        ∧ ∀ g, findGrid s k.grid = some g → g.retired = false → findGrid t k.grid = some { g with endedWgs := g.endedWgs + 1 })
    ∧ (wgFinished k = true → unperformed s k.core = true → exec (.workgroupEnd wg) s = .next (l1Flush s k.core))
    ∧ (k.st = .ended → wgHolds s k = false → exec (.workgroupEnd wg) s = .next (removeWg s wg)))
  ∧ ∀ (s : State) (n : Nat) (g : Grid), findGrid s n = some g → retirable s g = true →
    let t := dropRetired (updGrid s n fun x => { x with retired := true })
    (∀ iss tok, g.notify = some (iss, tok) → g.queue = none → exec (.gridRetirement n) s = .next (cwaitExamine (addTok t iss (some tok) false) iss))
      ∧ (g.notify = none → g.queue.isSome = true → g.lrec.signal = true → ∀ ok u, signalWrite t g.asid g.root g.lrec.sigaddr g.lrec.sigval.toNat = (ok, u) →
        exec (.gridRetirement n) s = .next (if ok then u else postAsync u 0x1D2 (BitVec.ofNat 64 g.lrec.sigaddr) none))
      ∧ (g.notify = none → g.queue = none ∨ g.lrec.signal = false → exec (.gridRetirement n) s = .next t)

/-- What the hardware does for waiting threads. FULL_EMPTY_SERVE (08 R185) reads, in lane order, each granule that has become full and that no earlier load waits for, and `.take` empties it; with the last of them the threads go on, after the acquire (09 R215). COUNTER_WAIT_SATISFIED (09 R243) serves the lanes whose comparison holds, and lets the threads go on with the last of them, after the acquire. JOIN_DEADLINE (07 R168) releases the threads whose deadline has passed with p = 0; YIELD_EXPIRY (13 R388) ends every rest that is over; RESERVATION_TIMEOUT (09 R221) ends reservations 4,096 clk old; WRITE_BACK_MERGE (08 R197) leaves an L1 line clean. The ends of a warp (07 R159). SLICE_LINE_RETURN: a slice whose threads have all exited gives up its lines, which read as zero; the other lanes keep theirs. WARP_END: a warp with no live thread and every token zero gives up its storage; the causes that none is left to wait for are posted, and a cue thread that waits for the last warp, or for a decision queue, goes on (10 R271, R276). -/
def Obligations.WaitingThreads : Prop :=
  ((∀ (s : State) (n : Nat) (fl : Flight) (i : Instr) (f : MF) (sp : Space) (o : LaneOp) (a : Nat) (wr : List RegWrite) (bad : List (Nat × Cause × BitVec 64)) (r : OpOut) (u : State),
    findFlight s n = some fl → fl.kind = .fullEmpty i [o] wr bad → feLoad i = some (f, sp) → o.loc = .ls a → feGet s (a / 16) = true → feAhead s fl.id (a / 16) = false →
    takeLane s fl.who f sp o.lane o.va.toNat o.loc Trans_none = (r, u) →
      let t := acquireIf (f.ordr = 2) fl.who f.obs (if f.fe = 2 then feSet u (a / 16) false else u)
      exec (.fullEmptyServe n) s = .next (openAfterPark { t with flights := t.flights.map fun x => if x.id = fl.id then { x with kind := .load (wr ++ r.writes) [] (bad ++ r.bad) } else x } fl i))
  ∧ (∀ (s : State) (n : Nat) (fl : Flight) (i : Instr) (f : MF) (sp : Space) (ops left : List LaneOp) (wr : List RegWrite) (bad : List (Nat × Cause × BitVec 64)) (r : OpOut) (u : State),
    findFlight s n = some fl → fl.kind = .fullEmpty i ops wr bad → feLoad i = some (f, sp) → feServe s fl.who f sp fl.id ops = (r, left, u) →
      let held := fun (t : State) (k : FlightKind) => { t with flights := t.flights.map fun x => if x.id = fl.id then { x with kind := k } else x }
      (left = [] → exec (.fullEmptyServe n) s = .next (openAfterPark (held (acquireIf (f.ordr = 2) fl.who f.obs u) (.load (wr ++ r.writes) [] (bad ++ r.bad))) fl i))
      ∧ (left ≠ [] → left.length < ops.length → exec (.fullEmptyServe n) s = .next (nowServed (held u (.fullEmpty i left (wr ++ r.writes) (bad ++ r.bad))) fl))
      ∧ (left ≠ [] → left.length = ops.length → exec (.fullEmptyServe n) s = .next (held u (.fullEmpty i left (wr ++ r.writes) (bad ++ r.bad)))))
  ∧ (∀ (s : State) (n : Nat) (fl : Flight) (f : MF) (ops left : List LaneOp) (bad new : List (Nat × Cause × BitVec 64)) (wg wi : Nat) (ls : List Nat),
    findFlight s n = some fl → fl.kind = .counter (.cntwt f) ops bad → fl.who = .warp wg wi ls → counterServe s ops = (left, new) →
    (left = [] → exec (.counterWaitSatisfied n) s = .next (counterBad (acquireIf (f.ordr = 2) fl.who f.obs
        (updWarp (updThreads (landedFlight n s) wg wi ls fun th => stepThread th.plen { th with park := none }) wg wi (doneIn n))) wg wi (bad ++ new) fl.pc fl.look))
      ∧ (left ≠ [] → exec (.counterWaitSatisfied n) s = .next { s with flights := s.flights.map fun x => if x.id = n then { x with kind := .counter (.cntwt f) left (bad ++ new) } else x }))
  ∧ (∀ (s : State) (k : Workgroup) (w : Warp), s.wgs = [k] → k.warps = [w] → w.threads.length ≤ 128 → (∃ m ∈ Warp_live w, (w.threads[m]?).bind joinOf = none) →
    ∃ g, exec .joinDeadline s = .next (updWarp s k.id 0 g) ∧ ∀ (l : Nat) (th : Thread) (d p : Nat) (h : VAddr), l ∈ Warp_live w → w.threads[l]? = some th → th.park = some (.join (some d) p h) →
      (d ≤ s.clk → (g w).threads[l]? = some (stepThread th.plen { th with park := none }) ∧ (p < 7 → pget (g w) p l = false)) ∧ (s.clk < d → (g w).threads[l]? = some th))
  ∧ (∀ s : State, ∃ t, exec .yieldExpiry s = .next t ∧ { t with wgs := s.wgs } = s
      ∧ ∀ i j l : Nat, ((t.wgs[i]?.bind (·.warps[j]?)).bind (·.threads[l]?)) =
        ((s.wgs[i]?.bind (·.warps[j]?)).bind (·.threads[l]?)).map fun th => { th with readyAt := if th.readyAt ≤ s.clk then 0 else th.readyAt })
  ∧ (∀ s : State, exec .reservationTimeout s = .next { s with resv := s.resv.filter fun r => decide (s.clk < r.at_ + 4096) })
  ∧ ∀ (s : State) (core line : Nat) (l : L1Line), l1Find s core line = some l →
      ∃ t, exec (.writeBackMerge core line) s = .next t ∧ l1Find t core line = some { l with dirty := 0, writers := [] } ∧ (128 * line < 2 ^ 45 → t.mem = (homeMerge s l.line l.dirty l.data l.key none).mem)
        ∧ (2 ^ 45 ≤ 128 * line → t.mem = s.mem))
  ∧ ((∀ (s : State) (wg i j : Nat) (w : Warp), findWarp s wg i = some w → w.tokens = [] → j ∉ w.returned → 32 * j < w.threads.length → (∀ l ∈ Warp_live w, l / 32 ≠ j) →
    ∃ g, exec (.sliceLineReturn wg i j) s = .next (updWarp s wg i g) ∧ (g w).returned = j :: w.returned ∧ { g w with returned := w.returned, vregs := w.vregs, preds := w.preds } = w
      ∧ (∀ r l, l < 128 → vget (g w) r l = if l / 32 = j then 0 else vget w r l) ∧ ∀ n l, l < 128 → n < 7 → pget (g w) n l = (pget w n l && l / 32 != j))
  ∧ (∀ (s : State) (wg i : Nat) (w : Warp) (x : Cue), findWarp s wg i = some w → findCue s (.cue wg) = some x → w.ended = false → Warp_live w = [] → w.tokens = [] →
    (∀ th ∈ w.threads, th.deferred = []) → x.park = none →
      ∃ g, exec (.warpEnd wg i) s = .next (updWarp s wg i g) ∧ g w = { w with ended := true, dq := [], sregs := [], vregs := [], preds := [] })
  ∧ ∀ (s : State) (wg i : Nat) (w : Warp), findWarp s wg i = some w → w.ended = false → Warp_live w = [] → w.tokens = [] →
      let t := updWarp (orphanCauses s wg (w.threads.flatMap (·.deferred))) wg i fun w => { w with
        ended := true, tokens := [], dq := [], sregs := [], vregs := [], preds := [], threads := w.threads.map fun th => { th with deferred := [] } }
      let leaves := (findWg t wg).any fun k => k.cue.park == some .wgbarExit && !warpsLeft k
      exec (.warpEnd wg i) s = .next (dqpushExamine (if leaves then acquire (updWg t wg fun k => { k with cue := unparkCue k.cue }) (.cue wg) 1 else t) wg))

/-- TAKING (13 R370, R372): when every thread of a workgroup stands at a cut, its engine work is done, no cause is due and every write of its core to a peer is acknowledged, the workgroup is taken: its dirty L1 bytes are at home, its reservations and operations in flight are gone, and its request is served. IMAGE_AREA_WRITE then writes its tiles, accumulators and local store to their places in its image (13 R377), REGISTER_LINE_EVICTION a register line, which reads back as it was, a dead one as zero (13 R375, R376), and CONTEXT_LINE_REFILL (13 R375) brings a line back. A resident workgroup of which no taking is requested is asked for one while the dispatcher has work that waits; one that is asked and does not stand at its cuts, or has engine work in flight, stays; causes due at its cuts are delivered first. -/
def Obligations.Taking : Prop :=
  (∀ (s : State) (wg : Nat) (k : Workgroup) (g : Grid) (why : TakeWhy), findWg s wg = some k → gridOf s k = some g → k.take = some why → k.st = .resident → allStand k = true → engineIdle s k = true →
    dueAtCut k = false → unperformed s k.core = false → k.image + imageSize g.lrec ≤ hbmCap s →
      ∃ t k', exec (.taking wg) s = .next t ∧ findWg t wg = some k' ∧ k'.st = .taken ∧ k'.take = none ∧ k'.takeAt = s.clk ∧ k'.image = k.image
        ∧ (∀ l ∈ t.l1, l.core = k.core → l.dirty = 0) ∧ (∀ f ∈ t.flights, f.who ≠ .cue wg ∧ ∀ i ls, f.who ≠ .warp wg i ls) ∧ (∀ r ∈ t.resv, ∀ i l, r.agent ≠ .cue wg ∧ r.agent ≠ .thread wg i l)
        ∧ ∀ a, (a < k.image ∨ k.image + imageSize g.lrec ≤ a) → (let posts := mreg s Reg.ERRBASE / 256 % 2 ^ 44 * 256 % 2 ^ 46; a < posts ∨ posts + 128 * errSlots s ≤ a) → homeByte t a = homeByte (l1Flush s k.core) a)
  ∧ (∀ (s : State) (wg : Nat) (k : Workgroup) (g : Grid), findWg s wg = some k → gridOf s k = some g →
    (k.take = none → k.st = .resident → dispatchWaits s = true → ∃ t, exec (.taking wg) s = .next t ∧ findWg t wg = some { k with take := some .dispatch, takeAt := s.clk, takeLate := false })
    ∧ (k.take ≠ none → k.st = .resident → allStand k = true → engineIdle s k = true → (dueAtCut k = true → exec (.taking wg) s = .next (deliverAtCut s wg))
      ∧ (dueAtCut k = false → unperformed s k.core = true → exec (.taking wg) s = .next (l1Flush s k.core)))
    ∧ (k.take ≠ none → allStand k = false ∨ engineIdle s k = false → exec (.taking wg) s = .next s))
  ∧ (∀ (s : State) (wg n : Nat) (k : Workgroup) (g : Grid), findWg s wg = some k → gridOf s k = some g → k.st = .taken → k.image % 128 = 0 → k.image + imageSize g.lrec ≤ hbmCap s →
    (∃ t k', exec (.imageAreaWrite wg) s = .next t ∧ findWg t wg = some k' ∧ k'.storedTiles = true ∧ k'.storedLocal = true
      ∧ (k.storedTiles = false → homeBytes t (k.image + imgTiles g.lrec) (4096 * g.lrec.tileg) = SMap.getList k.tiles 0 (4096 * g.lrec.tileg)
        ∧ ∀ i < 8192 * g.lrec.accs, homeNat t (k.image + imgAccs g.lrec + 4 * i) 4 = (SMap.get k.acc i).toNat)
      ∧ (k.storedLocal = false → ∀ x ∈ localPieces g k, homeBytes t (k.image + imgLocal g.lrec + x.1) x.2.1 = lsBytes s x.2.2 x.2.1))
      ∧ (n ∈ linesHere s k → ∃ t k', exec (.registerLineEviction wg n) s = .next t ∧ findWg t wg = some k' ∧ n ∈ k'.missing
        ∧ loadLine t g k' n = .ok (if lineLive s g k (lineKind g.lrec n) = true then lineGet g.lrec k (lineKind g.lrec n) else List.replicate 128 0)))
  ∧ ∀ (s : State) (wg n : Nat) (k : Workgroup) (g : Grid) (bs : List Byte), findWg s wg = some k → gridOf s k = some g → k.st = .resident → n ∈ k.missing → loadLine s g k n = .ok bs →
      ∃ h, exec (.contextLineRefill wg n) s = .next (updWg s wg h) ∧ h k = lineSet g.lrec { k with missing := k.missing.filter (· != n) } bs (lineKind g.lrec n)

/-- The dispatcher (10 R256 to R258, R269; 13 R373, R379): WORKGROUP_PLACEMENT starts the grid's next workgroup on the chosen core, RESUMPTION makes the chosen workgroup resident there, MIGRATION_MESSAGE does so on the migration's target, or leaves it taken when the message is corrupt. The dispatcher's timers: AGING_TICK (10 R256) raises every ready grid that has waited a further 1 ms; MIGRATION_FALLBACK (10 R269) gives up a target after 1 ms; PREEMPTION_TIMEOUT (13 R374) reports a late taking, which stays requested. -/
def Obligations.Dispatcher : Prop :=
  ((∀ (s : State) (level m num core image : Nat) (g : Grid) (room : Room), dispatchChoice s = some (.place level m num core) → findGrid s num = some g → allocRun s (imageSize g.lrec) = some image →
    admits s g.lrec core none = some room → makeRoom s g.lrec core room.bases 0 = none →
      ∃ t, exec .workgroupPlacement s = .next t ∧ t.wgs = s.wgs ++ [newWg g s.nextId g.nextWg core image room] ∧ t.nextId = s.nextId + 1
        ∧ findGrid t num = some { g with nextWg := g.nextWg + 1, aged := 0, readySince := s.clk })
  ∧ (∀ (s : State) (wg core : Nat) (k : Workgroup) (g : Grid) (room : Room), dispatchChoice s = some (.resume wg core) → findWg s wg = some k → gridOf s k = some g → leaveCore s k core = none →
    admits s g.lrec core (keepBases k core) = some room → makeRoom s g.lrec core room.bases wg = none →
      ∃ t k', exec .resumption s = .next t ∧ findWg t wg = some k' ∧ k'.st = .resident ∧ k'.core = core ∧ k'.held = false)
  ∧ ∀ (s : State) (wg core : Nat) (k : Workgroup) (g : Grid) (room : Room), findWg s wg = some k → migRoom s k = some (g, core, room) → makeRoom s g.lrec core room.bases wg = none →
      (∃ t k', exec (.migrationMessage wg true) s = .next t ∧ findWg t wg = some k' ∧ k'.st = .resident ∧ k'.core = core ∧ k'.cmig = none)
        ∧ ∃ t k', exec (.migrationMessage wg false) s = .next t ∧ findWg t wg = some k' ∧ k'.st = .taken ∧ k'.cmig = none)
  ∧ ((∀ s : State, exec .agingTick s = .next { s with grids := s.grids.map fun g => if g.nextWg < LaunchRec_wgs g.lrec ∧ g.readySince + (g.aged + 1) * Config.clkPerMs ≤ s.clk then { g with aged := g.aged + 1 } else g })
  ∧ (∀ (s : State) (k : Workgroup), s.wgs = [k] → k.st = .taken → k.cmig.isSome = true → k.held = false → k.takeAt + Config.clkPerMs ≤ s.clk →
    exec .migrationFallback s = .next (postAsync { s with wgs := [{ k with cmig := none, target := none }] } 0x06F 0 (some k.id)))
  ∧ (∀ s : State, (s.wgs.map (·.id)).Nodup → ∃ t, exec .migrationFallback s = .next t ∧ t.flights = s.flights ∧ t.cmds = s.cmds ∧
    t.wgs = s.wgs.map fun k => if k.st = .taken ∧ k.cmig.isSome = true ∧ k.held = false ∧ k.takeAt + Config.clkPerMs ≤ s.clk then { k with cmig := none, target := none } else k)
  ∧ (∀ (s : State) (k : Workgroup), s.wgs = [k] → k.take.isSome = true → k.takeLate = false → k.takeAt + mreg s Reg.PTIMEOUT * Config.clkPerUs ≤ s.clk →
    ∃ c : Cause, c ∈ [0x06A, 0x06B, 0x06C, 0x06D] ∧ exec .preemptionTimeout s = .next (postAsync { s with wgs := [{ k with takeLate := true }] } c 0 (some k.id)))
  ∧ ∀ s : State, (s.wgs.map (·.id)).Nodup → ∃ t, exec .preemptionTimeout s = .next t ∧ t.flights = s.flights ∧ t.cmds = s.cmds ∧
    t.wgs = s.wgs.map fun k => if k.take.isSome = true ∧ k.takeLate = false ∧ k.takeAt + mreg s Reg.PTIMEOUT * Config.clkPerUs ≤ s.clk then { k with takeLate := true } else k)

/-- ENGINE COMMANDS AT ISSUE (11 R286, 12 R313, 13 R393, 14 R414; 09 R216, R222, R224), every one of them: `tcfg`, `tld`, `tsd`, `tzero`, `txpose`, `arrw`, `arrmm`, `arrdist`, `arrmmg`, `arrcent`, `arrbest`, `adrain`, `aload`, `adrainp`, `adraine`, `azero`, `bcp`, `bfill`, `bpeer`, `bgat`, `bsca`, `bexp`, `mop`, `slxp`, `xopen`, `xclose`, `rsvfill`, `rsvdrop`, `rsvq`, `kvdrop`, `kvprio`, `rsvset`, `ctxsv`, `ctxld`, `tlbinv`, `ptwalk`, `pgdup`, `pgcol`, `pgsplit`, `pgjoin`, `pgmig`, `dirq`, `dirset`, `hostinv`. What the thread has on its way is performed first; the command goes last into the list of commands, with the registers of its thread as they stand, its token rises, and the ranges of its form are registered, each with the pieces of its own pages (R222). Where nothing is on its way to an execution point and no L1 line is dirty, no memory, no flight and no local store changes, and its thread goes on. `tcfg` also gives its tile the configuration (11 R284). -/
def Obligations.CommandsIssue : Prop :=
  (∀ (i : Instr) (op : COp) (s : State) (c : CCtx), engineCommand i = true → cueOp i = some op → c.pass = true → cueCtx s i = some c → CueReady op s c = true → ∃ x : ECmd, x.i = i ∧ op = cmdOp x ∧
    let u := drainStream (cueIssued op c s) c.iss
    let cmd := mkCmd u c i x.f (x.total u c) (x.aux u c)
    let v := addTok (x.pre c { u with nextId := u.nextId + 1, cmds := u.cmds ++ [cmd] }) c.iss cmd.tok true
    exec i s = .next (registerLocks v (rangeLocks v (engOf v cmd) cmd.id (x.ranges v c)))
    ∧ ((∀ y, x.pre c y = y) → (∀ f ∈ s.flights, execOps f = []) → (∀ l ∈ s.l1, l.dirty = 0) →
      ∃ t, exec i s = .next t ∧ t.cmds = s.cmds ++ [cmd] ∧ cmd.id = s.nextId ∧ cmd.op = i ∧ t.nextId = s.nextId + 1 ∧ t.mem = s.mem ∧ t.hostMem = s.hostMem ∧ t.lstore = s.lstore ∧ t.flights = s.flights
        ∧ findCue t c.iss = some (tokUp (tokNum x.f) (passedCue i c.c)) ∧ t.locks = s.locks ++ rangeLocks v (engOf v cmd) s.nextId (x.ranges v c)))
  ∧ ∀ (s : State) (c : CCtx) (f : QE) (wg : Nat) (k : Workgroup), c.pass = true → c.iss = .cue wg → c.k = some k → cueCtx s (.tcfg f) = some c → CueReady (opTcfg f) s c = true → undrained s c.iss = true →
    ∃ t k', exec (.tcfg f) s = .next t ∧ t.cmds = s.cmds ++ [mkCmd s c (.tcfg f) f 1 []] ∧ findWg t wg = some k' ∧ (∀ i, k'.tcfg.get i = if i = f.ta.toNat then cget c.c f.a.toNat else k.tcfg.get i)
      ∧ f.ta.toNat ∈ k'.tconf

/-- Starts of commands: ENGINE_COMMAND_START (12 R313) and ARRAY_COMMAND_START (11 R286, R287, R301) mark the command started, the planes swapped; `arrmmg` has then read its table, or met a cause in it. PLANE_LOAD (11 R287) leaves the tile's tag in a plane of the core, and counts the unit of an `arrw`. Units of commands (11 R306, R308; 12 R325, R335, R336): the step of a started command that is not done runs its next unit. A unit that goes on counts; one that meets a cause records it, and no unit after it runs; so does one whose unit fails its self-check (13 R350); one that must wait changes nothing. A row of `adrainp` leaves with its elements as the accumulator holds them then, and changes nothing else (11 R306). -/
def Obligations.CommandProgress : Prop :=
  (∀ (s : State) (n : Nat) (c : Cmd), findCmd s n = some c →
    ((bulkNext s (engOf s c).cluster).map (·.id) = some n → exec (.engineCommandStart n) s = .next { s with cmds := s.cmds.map fun x => if x.id = n then { x with started := true } else x })
    ∧ (arrayStartable s c = true → isMmg c.op = false → ∃ t, exec (.arrayCommandStart n) s = .next t ∧ findCmd t n = some { c with started := true })
    ∧ (∀ f, arrayStartable s c = true → c.op = .arrmmg f → let v := { planeSwap s c with cmds := s.cmds.map fun x => if x.id = n then { x with started := true } else x }
      (∀ u, mmgStart v c f = .go u → exec (.arrayCommandStart n) s = .next u)
        ∧ (∀ u x a, mmgStart v c f = .stop u x a → exec (.arrayCommandStart n) s = .next (updCmd (noteCause u n x a) n fun c => { c with done := c.total })))
    ∧ (planeLoadable s c = true → (isArrw c.op = true → cmdSelf s c = none) →
      ∃ t d, exec (.planeLoad n) s = .next t ∧ findCmd t n = some d ∧ (if isArrw c.op then d = { c with done := c.done + 1 } else d = { c with plane := true })
        ∧ ∀ tag, isCent c.op = false → cmdTag s c = some tag → (planesOf t c.core).active = some tag ∨ (planesOf t c.core).shadow = some tag))
  ∧ (∀ (s : State) (n : Nat) (c : Cmd) (ev : Instr), findCmd s n = some c → c.started = true → c.done < c.total →
    ((ev = .deliveryUnitAdvance n ∧ delivers c.op = true) ∨ (ev = .adrainpRowArrival n ∧ isDrainp c.op = true) ∨ (ev = .contributionAccept n ∧ contributes c.op = true)
      ∨ (ev = .xcloseAtSlice n ∧ isXclose c.op = true) ∨ (ev = .streamRowResult n ∧ streams c.op = true ∧ rowEntered c = true)) →
      exec ev s = .next (match cmdSelf s c with
        | some x => updCmd (noteCause { s with softErrors := s.softErrors.erase x } n x 0) n fun c => { c with done := c.total }
        | none => match cmdUnit s c with
          | .go u => updCmd u n fun c => { c with done := c.done + 1 }
          | .stop u x a => updCmd (noteCause u n x a) n fun c => { c with done := c.total }
          | .wait => s))
  ∧ (∀ (s : State) (n : Nat), chosen s = .unit n → step s = .next (stepEndPlain s (unitOf (begin_ s) n)))
  ∧ ∀ (s : State) (n : Nat) (c : Cmd), findCmd s n = some c → c.started = true → c.done < c.total →
    (isDrainp c.op = false → (∀ x, cmdSelf s c = some x → unitOf s n = updCmd (noteCause { s with softErrors := s.softErrors.erase x } n x 0) n fun c => { c with done := c.total })
      ∧ (∀ u, cmdSelf s c = none → cmdUnit s c = .go u → unitOf s n = updCmd u n fun c => { c with done := c.done + 1 })
      ∧ (∀ u x a, cmdSelf s c = none → cmdUnit s c = .stop u x a → unitOf s n = updCmd (noteCause u n x a) n fun c => { c with done := c.total })
      ∧ (cmdSelf s c = none → cmdUnit s c = .wait → unitOf s n = s))
    ∧ ∀ f wg k g, c.op = .adrainp f → c.owner = .cue wg → cmdWg s c = some (k, g) →
      let d := creg c f.d.toNat
      (drRows d ≤ c.half → unitOf s n = s)
      ∧ (c.half < drRows d → ∃ y, findCmd (unitOf s n) n = some y ∧ y = { c with half := c.half + 1, cfgs := y.cfgs } ∧ (∀ j < drCols d, SMap.get y.cfgs (256 * c.half + j) = BitVec.ofNat 64 (accGet k f.ac.toNat (drRow0 d + c.half) (drCol0 d + j)))
        ∧ (unitOf s n).wgs = s.wgs ∧ (unitOf s n).mem = s.mem)

/-- WHAT THE UNITS OF COMMANDS LEAVE. `azero` (11 R305): the elements it names read zero, every other element as before. A row of `arrmm` or `arrdist` (11 R298, R300): element n of the row is the exact sum of its prior value and the terms, rounded once. A row of `adrainp` that arrives is added to the target (11 R306), and without a target 0x13A is met. `tzero` and `txpose` (11 R297), `tld` and `tsd` (11 R296) between a tile and local stores, a row of `adrain` or `aload` between an accumulator and a tile (11 R304, R305): each element and each scale. `bfill` (12 R326), `bcp` with its conversion (12 R322) and `bsca` that adds (12 R329), between local stores: each element, every other byte as it was. A step of `mop` (12 R331) changes one element that it has not done at its home. A line of `rsvfill` (12 R338) is resident; `ctxsv` (13 R393) asks for the taking; `dirq` (14 R417) gives the entry's 16 bytes; `ptwalk` (14 R415): its answer goes to c(D). COMMAND_COMPLETION (09 R224): a command whose units are done and whose requests to peers are answered is gone with every range it registered, its destination bytes are in no L1 of its cluster, and its token falls; its counter rises first (12 R325), its cause is delivered (13 R357), and a copy queue's signals follow (15 R426). -/
def Obligations.UnitsAndCompletion : Prop :=
  (∀ (s : State) (c : Cmd) (f : QE) (wg : Nat) (k : Workgroup) (g : LaunchRec), c.owner = .cue wg → cmdWg s c = some (k, g) →
    let becomes := fun (P : State → Workgroup → Prop) => ∃ t k', cmdUnit s c = .go t ∧ findWg t wg = some k' ∧ P t k'
    let x := creg c f.a.toNat
    let d := creg c f.d.toNat
    let wa := ccfg c f.ta
    let wb := ccfg c f.tb
    let ac := f.ac.toNat
    let prior := fun (row n : Nat) => if f.opt.getLsbD 0 then FVal.fin false 0 0 else Fmt.f32.unpack (accGet k ac row n)
    let row := stAcrow0 x + c.done
    let streamed := fun (term : FVal → FVal → FVal) => becomes fun _ k' =>
      (∀ n, n < tCols wb → accGet k' ac row n = passSum (prior row n)
          ((List.range (tRows wb)).map fun j => term (elemVal g k wa (stArow0 x + c.done) (stKoff x + j)).1 (elemVal g k wb j n).1) % 2 ^ 32)
        ∧ ∀ r n, r < 32 → n < 256 → r ≠ row → accGet k' ac r n = accGet k ac r n
    (c.op = .azero f → f.mod ≠ 1 → becomes fun _ k' => ∀ a r n, r < 32 → n < 256 → accGet k' a r n = if a = ac then 0 else accGet k a r n)
    ∧ (c.op = .azero f → f.mod = 1 → drRow0 d + drRows d ≤ 32 → drCol0 d + drCols d ≤ 256 → becomes fun _ k' => ∀ a r n, r < 32 → n < 256 →
        accGet k' a r n = if a = ac ∧ drRow0 d ≤ r ∧ r < drRow0 d + drRows d ∧ drCol0 d ≤ n ∧ n < drCol0 d + drCols d then 0 else accGet k a r n)
    ∧ (c.op = .arrmm f → tCols wb ≤ 256 → streamed fun p q => (fMul p q).1)
    ∧ (c.op = .arrdist f → tCols wb ≤ 256 → streamed fun p q => let e := (fAdd 0 p q.neg).1; if f.opt.getLsbD 1 then (fMul e e).1 else e.abs)
    ∧ (c.op = .adrainp f → c.done < c.half → f.opt.getLsbD 0 = false →
      (∀ tgt id, (if c.done = 0 then (drainTarget s c f).map (·.id) else c.aux.head?) = some id → findWg s id = some tgt →
        ∃ t tgt', cmdUnit s c = .go t ∧ findWg t id = some tgt' ∧ ∀ j < drCols d, accGet tgt' (taAcc x) (drRow0 d + c.done) (drCol0 d + j) =
          f32Bits (fAdd 0 (Fmt.f32.unpack (accGet tgt (taAcc x) (drRow0 d + c.done) (drCol0 d + j))) (Fmt.f32.unpack (SMap.get c.cfgs (256 * c.done + j)).toNat)).1 % 2 ^ 32)
      ∧ (c.done = 0 → drainTarget s c f = none → cmdUnit s c = .stop s 0x13A 0))
    ∧ (c.op = .tzero f → becomes fun _ k' => (∀ r p, r < tRows wa → p < tCols wa → elemGet g k' wa r p = 0)
        ∧ ∀ y ∈ scaleCells g wa, tileNat k' wa y.2 (scaleSize (slSCF (tFmt g wa))) = if slSCF (tFmt g wa) = 0 then 0x7F else if slSCF (tFmt g wa) = 1 then 0x38 else 0x3C00)
    ∧ (c.op = .txpose f → tRows wb = tCols wa → tCols wb = tRows wa → becomes fun _ k' =>
        ∀ r p, r < tRows wa → p < tCols wa → elemGet g k' wb p r = codeBits g wb (elemGet g k wa r p) % 16 ^ tNib g wb)
    ∧ (c.op = .adrain f → f.mod = 3 → becomes fun _ k' => ∀ j < drCols d,
        elemGet g k' wa (toRow x + c.done) (toCol x + j) = codeBits g wa (drainOut g f (creg c (f.b.toNat + 1) % 2 ^ 32) (accGet k ac (drRow0 d + c.done) (drCol0 d + j))) % 16 ^ tNib g wa
          ∧ accGet k' ac (drRow0 d + c.done) (drCol0 d + j) = if f.opt.getLsbD 3 then 0 else accGet k ac (drRow0 d + c.done) (drCol0 d + j))
    ∧ (c.op = .aload f → f.mod = 3 → becomes fun _ k' => ∀ j < drCols d,
        let v := loadIn f (elemGet g k wa (toRow x + c.done) (toCol x + j))
        accGet k' ac (drRow0 d + c.done) (drCol0 d + j) = f32Bits (if f.opt.getLsbD 3 then (fAdd 0 (Fmt.f32.unpack (accGet k ac (drRow0 d + c.done) (drCol0 d + j))) v).1 else v) % 2 ^ 32)
    ∧ (∀ (elem : Nat × Nat → Nat) (scale : Nat × Nat → Nat), let sp := arrSpace f.mod.toNat
      let l := layOf x (creg c (f.a.toNat + 1))
      let nb := tNib g wa
      let z := scaleSize (slSCF (tFmt g wa))
      let at_ := fun (y : Nat × Nat) => viewOff l nb y.2 y.1 0 0
      (∀ y ∈ tileElems wa, EngAt s (engOf s c) sp (arrBase f.mod.toNat l (creg c f.b.toNat) + at_ y / 2) (nibBytes nb) (elem y)) →
      (∀ y ∈ scaleCells g wa, EngAt s (engOf s c) sp (creg c (f.b.toNat + 1) % (if f.mod = 2 then 2 ^ 64 else 2 ^ 32) + y.1) z (scale y)) →
        (c.op = .tld f → (∀ y ∈ tileElems wa, lsCaps s (elem y) (nibBytes nb) = .good) → (∀ y ∈ scaleCells g wa, lsCaps s (scale y) z = .good) → becomes fun t k' =>
          (∀ y ∈ tileElems wa, elemGet g k' wa y.1 y.2 = codeBits g wa (nibRead s nb (at_ y) (elem y)) % 16 ^ nb)
            ∧ (∀ y ∈ scaleCells g wa, tileNat k' wa y.2 z = leNat (lsBytes s (scale y) z)) ∧ t.lstore = s.lstore ∧ t.mem = s.mem)
        ∧ (c.op = .tsd f → 1 < nb → Apart (((tileElems wa).map fun y => (elem y, nb / 2)) ++ (scaleCells g wa).map fun y => (scale y, z)) → becomes fun t _ =>
          (∀ y ∈ tileElems wa, leNat (lsBytes t (elem y) (nb / 2)) = codeBits g wa (elemGet g k wa y.1 y.2)) ∧ (∀ y ∈ scaleCells g wa, leNat (lsBytes t (scale y) z) = tileNat k wa y.2 z) ∧ t.mem = s.mem)))
  ∧ (∀ (s : State) (c : Cmd) (f : QE) (m : Nat), c.owner = .mgmt m →
    let x := creg c f.a.toNat
    (∀ y, c.op = .ptwalk f → findCue s (.mgmt m) = some y → (∀ d, y.park ≠ some (.chalt d)) →
      ∃ u, cmdUnit s c = .go u ∧ findCue u (.mgmt m) = some (cset y f.d.toNat (BitVec.ofNat 64 (ptwalkResult s x (creg c f.b.toNat)))))
    ∧ (c.op = .dirq f → f.mod = 0 → x < hbmCap s → let e := mreg s Reg.DIRBASE + 16 * (x / 65536)
      (homeCap s (e / 16) = .good → cmdUnit s c = .go (updCue s (.mgmt m) fun y => cset (cset y f.d.toNat (BitVec.ofNat 64 (homeNat s e 8))) (f.d.toNat + 1) (BitVec.ofNat 64 (homeNat s (e + 8) 8))))
        ∧ (homeCap s (e / 16) ≠ .good → cmdUnit s c = .stop s 0x093 (BitVec.ofNat 64 x))))
  ∧ (∀ (s : State) (c : Cmd) (f : QE),
    let b := blkCmd c f
    let z := cmdSlot s c f
    let e := engOf s c
    (∀ p : Nat → Nat, f.mc = false → f.cnt = false → f.dsp = 1 ∨ f.dsp = 2 →
      (let nb := typNib z f.typ
       let el := unitElems c (extents b) nb
       c.op = .bfill f → 1 < nb → (∀ i ∈ el, EngAt s e f.dsp (destCell f b nb i / 2) (nb / 2) (p i)) → Apart (el.map fun i => (p i, nb / 2)) →
        ∃ t, cmdUnit s c = .go t ∧ (∀ i ∈ el, leNat (lsBytes t (p i) (nb / 2)) = b.sbase % 2 ^ (if f.typ = 0 then slW z else 4 * nb) % 16 ^ nb)
          ∧ (∀ a, (∀ i ∈ el, a < p i ∨ p i + nb / 2 ≤ a) → lsBytes t a 1 = lsBytes s a 1) ∧ t.mem = s.mem)
      ∧ (let snb := typNib z f.typ
         let dnb := typNib z f.dtyp
         let el := unitElems c (extents b) dnb
         ∀ q : Nat → Nat, c.op = .bcp f → f.typ ≠ 0 ∨ f.dtyp ≠ 0 → 1 < dnb → (∀ i ∈ el, EngAt s e f.dsp (destCell f b dnb i / 2) (dnb / 2) (p i)) → Apart (el.map fun i => (p i, dnb / 2)) →
          (∀ i ∈ el, ∀ sp a, bcpFrom f b snb i = .cell sp a → (sp = 1 ∨ sp = 2) ∧ EngAt s e sp (a / 2) (nibBytes snb) (q i) ∧ lsCaps s (q i) (nibBytes snb) = .good ∧ ∀ j ∈ el, q i + 32 ≤ p j ∨ p j + 32 ≤ q i) →
            ∃ t, cmdUnit s c = .go t ∧ (∀ i ∈ el, leNat (lsBytes t (p i) (dnb / 2)) = match bcpFrom f b snb i with
                | .cell _ a => typBits z f.dtyp (convElem z f.sat (bcpSigma z b) f.typ f.dtyp (nibRead s snb a (q i))) % 16 ^ dnb
                | _ => 0)
              ∧ (∀ a, (∀ i ∈ el, a < p i ∨ p i + dnb / 2 ≤ a) → lsBytes t a 1 = lsBytes s a 1) ∧ t.mem = s.mem))
    ∧ (∀ (ix p q : Nat), let nb := typNib z f.typ
       let src := 2 * viewBase f.ssp b.sbase b.slay + viewOff b.slay nb (c.done % max 1 b.n0) (c.done / max 1 b.n0) 0 0
       let dst := 2 * viewBase f.dsp b.dbase b.dlay + viewOff b.dlay nb (c.done % max 1 b.n0) ix 0 0
       c.op = .bsca f → f.dtyp = 1 → nb = 8 → findCmd s c.id = some c → c.aux = [c.done / max 1 b.n0, ix] → ix < 2 ^ 31 → ix < b.b1 → f.ssp = 1 ∨ f.ssp = 2 → f.dsp = 1 ∨ f.dsp = 2 → versionOf s e.iss = none →
        EngAt s e f.ssp (src / 2) 4 q → EngAt s e f.dsp (dst / 2) 4 p → lsCaps s q 4 = .good → lsCaps s p 4 = .good →
          ∃ t, cmdUnit s c = .go t ∧ LocalPut s t p (leBytes 4 (if f.typ = 3 then addF32 (leNat (lsBytes s p 4)) (leNat (lsBytes s q 4)) else (leNat (lsBytes s p 4) + leNat (lsBytes s q 4)) % 2 ^ 32)) ∧ t.mem = s.mem)
    ∧ (∀ (i pd ps : Nat) (tr tr' : Trans), c.op = .mop f → f.mod ≠ 6 → freeOf s (sliceNext b.n0 (fun i => elemSlice s c (b.dbase + 4 * i)) c.aux) = some i → versionOf s e.iss = none →
        engPlace s e 0 (b.dbase + 4 * i) 4 true = .ok (.mem pd) tr → homeCaps s pd 4 = .good → (f.mod ≠ 5 → engPlace s e 0 (b.sbase + 4 * i) 4 false = .ok (.mem ps) tr' ∧ homeCaps s ps 4 = .good) →
          i < b.n0 ∧ i ∉ c.aux ∧ ∃ t, cmdUnit s c = .go t ∧ HomePut s t pd (leBytes 4 (mopOp f.mod.toNat f.typ b.parm (homeNat s pd 4) (if f.mod = 5 then 0 else homeNat s ps 4)))
            ∧ ∀ y, findCmd s c.id = some y → findCmd t c.id = some { y with aux := y.aux ++ [i] })
    ∧ (∀ (pa : Nat) (tr : Trans), let a := max (creg c f.a.toNat) ((creg c f.a.toNat / 128 + c.done) * 128)
       c.op = .rsvfill f → engPlace s e 0 a 1 false = .ok (.mem pa) tr → writesThrough s (pa / 128) = false →
        ∃ t, cmdUnit s c = .go t ∧ t.mem = s.mem ∧ (t.comb.any fun l => l.line == pa / 128) = true ∧ ((s.comb.any fun l => l.line == pa / 128) = true → t = s))
    ∧ ∀ k, c.op = .ctxsv f → c.done = 0 → findImage s (creg c f.a.toNat) = some k → findWg s k.id = some k → k.st ≠ .taken → (∀ n h, k.take ≠ some (.ctxsv n h)) →
        ∃ t, cmdUnit s c = .go t ∧ findWg t k.id = some { k with take := some (.ctxsv c.id (f.opt.getLsbD 0)), takeAt := s.clk, takeLate := false } ∧ t.mem = s.mem)
  ∧ (∀ (s : State) (n wg : Nat) (c : Cmd), findCmd s n = some c → completable s c = true → c.owner = .cue wg → c.cause = none → completionCount s c = s →
    let mine := s.locks.filter fun l => l.cmd == n
    let t := mine.foldl (fun t l => if l.source || l.local_ then t else l1DropRange t l.cluster l.lo l.hi) s
    exec (.commandCompletion n) s = .next (cwaitExamine (addTok { t with locks := s.locks.filter (fun l => !(l.cmd == n)), cmds := s.cmds.filter fun x => !(x.id == n) } (.cue wg) c.tok false) (.cue wg)))
  ∧ ∀ (s : State) (n : Nat) (c : Cmd), findCmd s n = some c →
    (∀ d, completable s c = true → findCmd (completionCount s c) n = some d → exec (.commandCompletion n) s = .next (ownerSignals (completeCmd (blockDone (completionCount s c) d) d) d.owner))
      ∧ (completable s c = false → exec (.commandCompletion n) s = .next s)

/-- Host queues (15 R424 to R427), none of which is served before start-up has succeeded (01 R20). QUEUE_ENABLE takes a sound descriptor and turns an unsound one away with 0x1CF (that HELD and ERROR are cleared by an enabling is the model's: log 104); QUEUE_DISABLE discards what is outstanding; each acts on every queue that is due, in order. QUEUE_SERVE clears WAKE and reads WIDX; LAUNCH_ENTRY_ACCEPT accepts a sound entry as a grid of depth 1 and advances RIDX; COPY_BLOCK_ACCEPT puts a sound block's command into its queue, with its ranges registered, once the range file has room and no page of a range is in transition (log 108); an unsound one of either is rejected with its cause. -/
def Obligations.HostQueueEvents : Prop :=
  (∀ s : State, exec .queueEnable s = .next (((List.range 256).filter (enableDue s)).foldl enableQueue s) ∧ exec .queueDisable s = .next (((List.range 256).filter (disableDue s)).foldl disableQueue s))
  ∧ ∀ (s : State) (q : Nat), q < 256 →
    (queueOk s q = true → findQueue (enableQueue s q) q = some (readQueue s q) ∧ qCtl (enableQueue s q) q = 1)
    ∧ (queueOk s q = false → enableQueue s q = postAsync (setQctl (postCaps s (mreg s Reg.HQBASE + 64 * q) 64 q) q false true false) 0x1CF (BitVec.ofNat 64 q) none)
    ∧ (∀ x, findQueue s q = some x → findQueue (disableQueue s q) q = some { x with on := false } ∧ qRidx (disableQueue s q) q = qWidx s q)
    ∧ ((List.range 256).filter (enableDue s) = [q] →
      (queueOk s q = true → ∃ t, exec .queueEnable s = .next t ∧ findQueue t q = some (readQueue s q) ∧ qCtl t q = 1)
        ∧ (queueOk s q = false → exec .queueEnable s = .next (postAsync (setQctl (postCaps s (mreg s Reg.HQBASE + 64 * q) 64 q) q false true false) 0x1CF (BitVec.ofNat 64 q) none)))
    ∧ (∀ x, (List.range 256).filter (disableDue s) = [q] → findQueue s q = some x → ∃ t, exec .queueDisable s = .next t ∧ findQueue t q = some { x with on := false } ∧ qRidx t q = qWidx s q)
    ∧ (∀ x, deviceReady s = true → findQueue s q = some x → x.on = true → qHeld s q = false → qWake s q ≠ 0 → (qWidx s q + 2 ^ 32 - qRidx s q) % 2 ^ 32 ≤ x.slots →
      ∃ t, exec (.queueServe q) s = .next t ∧ qWake t q = 0 ∧ findQueue t q = some { x with seen := qWidx s q })
    ∧ (∀ x, findQueue s q = some x → deviceReady s = false → hasEntry s x = false ∧ exec (.queueServe q) s = .next s)
    ∧ (∀ x, findQueue s q = some x → x.kind = 0 → hasEntry s x = true → x.serial = true → x.faulted = true → exec (.launchEntryAccept q) s = .next (qHold s q 0x1D6))
    ∧ (∀ x, findQueue s q = some x → x.kind = 0 → hasEntry s x = true → x.serial = false ∨ x.faulted = false → prevDone s x = true →
      (∀ cp run, entryCheck s x = .ok cp → allocRun s 8192 = some run → ∃ t g, exec (.launchEntryAccept q) s = .next t ∧ t.grids = s.grids ++ [g] ∧ g.num = s.nextGrid ∧ g.lrec = parseRec cp.rec_ ∧ g.depth = 1
          ∧ g.queue = some q ∧ g.asid = x.asid ∧ g.root = x.root ∧ t.nextGrid = s.nextGrid + 1 ∧ qRidx t q = (qRidx s q + 1) % 2 ^ 32)
        ∧ ∀ e, entryCheck s x = .error e → exec (.launchEntryAccept q) s = .next (rejectEntry s x e))
    ∧ (∀ x, findQueue s q = some x → x.kind = 1 → hasEntry s x = true → (bulkQueue s x.cluster).length < 64 → entryBytes s x 64 = none →
      exec (.copyBlockAccept q) s = .next (signalBlocks (rejectBlock (entryNote s x 64) x 0x1D8) q (x.blocks.length + 1)))
    ∧ ∀ x bs, findQueue s q = some x → x.kind = 1 → hasEntry s x = true → (bulkQueue s x.cluster).length < 64 → entryBytes s x 64 = some bs →
      (∀ e, blockCause s bs = .ok e → locksUsed s x.cluster + (e.ranges s (blockCtx bs)).length ≤ 64 →
        let c := blockCommand s x e bs
        ((e.ranges s (blockCtx bs)).any (rangeWaits s (engOf s c)) = true → exec (.copyBlockAccept q) s = .next s)
        ∧ ((e.ranges s (blockCtx bs)).any (rangeWaits s (engOf s c)) = false →
        let t := { updQueue (takeEntry s q) q fun y => { y with blocks := y.blocks ++ [(x.taken, false, false)] } with nextId := s.nextId + 1, cmds := s.cmds ++ [c] }
        exec (.copyBlockAccept q) s = .next (registerLocks t (rangeLocks t (engOf t c) c.id (e.ranges s (blockCtx bs))))
          ∧ findQueue t q = some { x with taken := x.taken + 1, blocks := x.blocks ++ [(x.taken, false, false)] }))
        ∧ (∀ e, blockCause s bs = .ok e → 64 < locksUsed s x.cluster + (e.ranges s (blockCtx bs)).length → exec (.copyBlockAccept q) s = .next s)
        ∧ ∀ e, blockCause s bs = .error e → exec (.copyBlockAccept q) s = .next (signalBlocks (rejectBlock s x e) q (x.blocks.length + 1))

/-- The host's register writes (15 R422, R424) and what follows from registers: REGISTER_WRITE writes a listed register as its row accepts the value (a new TLIM also gives the enabled columns their classes, R428), and one that clears ENABLE of a queue disables it at once (R424); a write behind one of its module that is not performed yet waits (R421); MWAKE_WRITE ORs, and a core at `chalt` takes the value at once (13 R392); QUEUE_WAKE_WRITE ORs; WSHARE_UPDATE puts a written share in force in every cluster where nothing is resident; ERROR_QUEUE_DROP_REPORT (13 R361) reports the dropped entries; ATTESTATION (15 R434) sets DONE. -/
def Obligations.HostRegisters : Prop :=
  (∀ (s : State) (module off : Nat) (v : DWord), writesWait s module = false → regListed off = true → ¬(Reg.MWAKE ≤ off ∧ off < Reg.ATTNONCE) →
    exec (.registerWrite ⟨module, off⟩ 8 v) s = .next (let t := setMreg s off (regAccept s off v.toNat); if off = Reg.TLIM then reclass t else t))
  ∧ (∀ (s : State) (module q : Nat) (v : DWord) (x : QueueSt), writesWait s module = false → q < 256 → findQueue s q = some x → x.on = true → v.toNat % 2 = 0 →
    exec (.registerWrite ⟨module, Reg.QUEUE + 16 * q + 12⟩ 4 v) s = .next (disableQueue (setQreg s q 3 (qCtl s q / 2 * 2)) q))
  ∧ (∀ (s : State) (module off n k q : Nat) (v : DWord) (w : Word), writesWait s module = true →
    exec (.registerWrite ⟨module, off⟩ n v) s = .next { s with inbox := s.inbox ++ [.regWrite ⟨module, off⟩ n v] }
      ∧ exec (.mwakeWrite ⟨module, k⟩ v) s = .next { s with inbox := s.inbox ++ [.mwakeWrite ⟨module, k⟩ v] }
      ∧ exec (.queueWakeWrite ⟨module, q⟩ w) s = .next { s with inbox := s.inbox ++ [.wakeWrite ⟨module, q⟩ w] })
  ∧ (∀ (s : State) (module k : Nat) (v : DWord) (x : Mgmt), writesWait s module = false → k < 4 → s.mgmt[k]? = some x →
    ((∀ d, x.cue.park ≠ some (.chalt d)) → exec (.mwakeWrite ⟨module, k⟩ v) s = .next (setMreg s (Reg.MWAKE + 8 * k) (mreg s (Reg.MWAKE + 8 * k) ||| v.toNat)))
      ∧ ∀ d, x.cue.park = some (.chalt d) → v ≠ 0 → mreg s (Reg.MWAKE + 8 * k) = 0 → ∃ t, exec (.mwakeWrite ⟨module, k⟩ v) s = .next t ∧ mreg t (Reg.MWAKE + 8 * k) = 0
        ∧ findCue t (.mgmt k) = some (unparkCue (cset x.cue d v)))
  ∧ (∀ (s : State) (module q : Nat) (v : Word), writesWait s module = false → q < 256 → exec (.queueWakeWrite ⟨module, q⟩ v) s = .next (setQreg s q 0 (qWake s q ||| v.toNat)))
  ∧ (∀ (s : State) (c : Nat), (List.range 16).filter (shareDue s) = [c] → exec .wshareUpdate s = .next { s with wshare := s.wshare.set c (BitVec.ofNat 2 (mreg s Reg.WSHARE / 2 ^ (2 * c))) })
  ∧ (∀ s : State, ∃ t, exec .wshareUpdate s = .next t ∧ { t with wshare := s.wshare } = s
      ∧ ∀ c < 16, t.wshare.get c = if shareDue s c then BitVec.ofNat 2 (mreg s Reg.WSHARE / 2 ^ (2 * c)) else s.wshare.get c)
  ∧ (∀ s : State, s.errDropped ≠ 0 → errFree s = true → ∃ t, exec .errorQueueDropReport s = .next t ∧ t.errDropped = 0)
  ∧ ∀ s : State, mreg s Reg.ATTCTL % 4 = 1 → ∃ t, exec .attestation s = .next t ∧ mreg t Reg.ATTCTL = mreg s Reg.ATTCTL / 4 * 4 + 3

/-- Accesses of the host (14 R406, R407; 15 R420, R421): HOST_READ takes its lines in S, or in M for ownership; HOST_WRITE writes at home and takes them in M; both are refused with 0x089 where the page's state forbids them, and wait for one in transition, a write also behind an earlier one of its module; HOST_RECALL gives a line up, its modified data merged under the bytes that the device has written since (`pend`: log 102). -/
def Obligations.HostAccesses : Prop :=
  (∀ (s : State) (pa n : Nat) (own : Bool),
    (hostFind s pa n own = .ok → (∀ g ∈ granules pa n, homeCap s g = .good) → ∃ t, exec (.hostRead pa n own) s = .next t ∧ { t with hostLines := s.hostLines, comb := s.comb } = s
      ∧ ∀ l ∈ linesOf pa n, ∃ h ∈ t.hostLines, h.line = l ∧ (h.st = 2 ∨ (own = false ∧ h.st = 1)))
    ∧ (hostFind s pa n own = .refuse → exec (.hostRead pa n own) s = .next (postAsync s 0x089 (BitVec.ofNat 64 pa) none)) ∧ (hostFind s pa n own = .wait → exec (.hostRead pa n own) s = .next { s with inbox := s.inbox ++ [.hostRead pa n own] }))
  ∧ (∀ (s : State) (module pa : Nat) (data : List Byte), writesWait s module = true → exec (.hostWrite ⟨module, pa⟩ data) s = .next { s with inbox := s.inbox ++ [.hostWrite ⟨module, pa⟩ data] })
  ∧ (∀ (s : State) (module pa : Nat) (data : List Byte), writesWait s module = false →
    (hostFind s pa data.length true = .ok → ∃ t, exec (.hostWrite ⟨module, pa⟩ data) s = .next t ∧ { t with hostLines := [] } = { homeWrite s pa data 0 (some .host) with hostLines := [] }
      ∧ ∀ l ∈ linesOf pa data.length, ∃ h ∈ t.hostLines, h.line = l ∧ h.st = 2)
    ∧ (hostFind s pa data.length true = .refuse → exec (.hostWrite ⟨module, pa⟩ data) s = .next (postAsync s 0x089 (BitVec.ofNat 64 pa) none))
    ∧ (hostFind s pa data.length true = .wait → exec (.hostWrite ⟨module, pa⟩ data) s = .next { s with inbox := s.inbox ++ [.hostWrite ⟨module, pa⟩ data] }))
  ∧ ∀ (s : State) (line : Nat) (h : HostLine), (s.hostLines.find? fun h => h.line == line) = some h → h.st ≠ 0 →
    (exec (.hostRecall line none) s = .next { s with hostLines := s.hostLines.map fun h => if h.line = line then { h with st := 0, seq := h.seq + 1, pend := 0 } else h })
      ∧ ∀ bs, h.st = 2 → bs.length = 128 → 128 * line + 128 ≤ hbmCap s → ∃ t, exec (.hostRecall line (some bs)) s = .next t ∧ (∀ b < 128, homeByte t (128 * line + b) = if h.pend.getLsbD b then homeByte s (128 * line + b) else bs.getD b 0)
        ∧ (∀ a, a < 128 * line ∨ 128 * line + 128 ≤ a → homeByte t a = homeByte s a)
       ∧ ∀ x ∈ t.hostLines, x.line = line → x.st = 0

/-- Temperature, power and dies (15 R428 to R431; 08 R194). SENSOR_REFRESH leaves a column's reading with its class, and a column that falls to class 0 asks its workgroups to pre-empt, and a die that reaches TSHUT begins its alarm; GOVERNOR_INTERVAL moves the hold by one step, GOVERNOR_HOLD_LIMIT reports a limit that was not reached; COMB_LINE_ERROR drops a resident clean line and poisons a lost one, and the loss of a task's version line escalates (13 R351 reason 7); DIE_POWER_OFF ends the die's groups, DIE_RETURN puts it back. Start-up (15 R432, R433) and machine checks (13 R354). START_UP runs once: a part record or an image that fails its check leaves the failed state with its reason; past both, the memory's training, the links' and the configuration decide, in this order, and STARTUP 1 comes with an empty comb where no column is in class 0 (one that is has its 0x1F8 posted, R428); the measurement stands from the images on. MACHINE_CHECK_EVENT posts its cause; 0x1E0 is logged only, 0x1E1 meets the next instruction, 0x1E2 takes a line of one L1 with it, 0x1E4 marks a line of an instruction cache. -/
def Obligations.PowerAndStartUp : Prop :=
  ((∀ (s : State) (c : Nat) (v : BitVec 16), c < 1024 → let k := nextClass s (mreg s (Reg.COLSTAT + 8 * c) / 65536 % 4) v.toInt
    ∃ t, exec (.sensorRefresh [(c, v)] []) s = .next t ∧ mreg t (Reg.COLSTAT + 8 * c) = v.toNat + 65536 * k
      ∧ (k = 0 → mreg s (Reg.COLSTAT + 8 * c) / 65536 % 4 ≠ 0 → ∀ x ∈ t.wgs, x.core / 2 = c → x.st = .resident → x.take.isSome = true))
  ∧ (∀ (s : State) (p : Nat), p < 2 ^ 64 → ∃ t, exec (.governorInterval p) s = .next t ∧ mreg t Reg.PWRNOW = p ∧ mreg t Reg.GOVHOLD =
      (if mreg s Reg.PWRLIM < p then min 7 (mreg s Reg.GOVHOLD % 8 + 1) else if 100 * p < 95 * mreg s Reg.PWRLIM then mreg s Reg.GOVHOLD % 8 - 1 else mreg s Reg.GOVHOLD % 8))
  ∧ (∀ (s : State) (p : Nat), p < 2 ^ 64 → ∃ t, exec (.governorInterval p) s = .next t ∧ t.govTicks = if mreg s Reg.GOVHOLD % 8 = 7 ∧ mreg t Reg.GOVHOLD = 7 then s.govTicks + 1 else 0)
  ∧ (∀ s : State, (100 ≤ s.govTicks ∧ mreg s Reg.PWRLIM < mreg s Reg.PWRNOW → exec .governorHoldLimit s = .next (postAsync { s with govTicks := 0 } 0x1F9 (BitVec.ofNat 64 (mreg s Reg.PWRNOW)) none))
    ∧ (s.govTicks < 100 ∨ mreg s Reg.PWRNOW ≤ mreg s Reg.PWRLIM → exec .governorHoldLimit s = .next s))
  ∧ (∀ (s : State) (line : Nat), 128 * line + 128 ≤ hbmCap s →
    (versionsOf s line = [] → (∀ l ∈ s.comb, l.line ≠ line) → exec (.combLineError line) s = .next s)
      ∧ (∀ l, versionsOf s line = [] → (s.comb.find? fun l => l.line == line) = some l → l.dirty = 0 → unshadowed s line = false → exec (.combLineError line) s = .next { s with comb := s.comb.filter fun c => c.line != line })
      ∧ (∀ l, versionsOf s line = [] → (s.comb.find? fun l => l.line == line) = some l → l.dirty ≠ 0 ∨ unshadowed s line = true →
        exec (.combLineError line) s = .next (postAsync (poisonLine s line) 0x1E5 (BitVec.ofNat 64 (lineOwnerId s line)) none) ∧ ∀ j < 8, (poisonLine s line).memSynd.get (8 * line + j) = 0xFFFF)
      ∧ ∀ k v r, versionsOf s line = (k, v) :: r → exec (.combLineError line) s = .next (escalate (updWg s k.id fun k => { k with nonRestart := true }) k.id
          { cause := BitVec.ofNat 9 (0x17C + v.by_), kind := 2, task := taskOf s k, fpc := 0, rpc := 0, addr := BitVec.ofNat 64 (128 * v.line) } 0))
  ∧ (∀ (s : State) (d : Nat) (v : BitVec 16), d < 16 → mreg s (Reg.DIESTAT + 8 * d) / 65536 % 4 = 0 → tlim s 3 ≤ v.toInt →
    ∃ t, exec (.sensorRefresh [] [(d, v)]) s = .next t ∧ mreg t (Reg.DIESTAT + 8 * d) / 65536 % 4 = 1 ∧ t.dieAlarm = s.dieAlarm ++ [(d, s.clk)])
  ∧ (∀ s : State, let due := s.dieAlarm.filter fun x => decide (x.2 + 2 * Config.clkPerMs ≤ s.clk)
    ∃ t, exec .diePowerOff s = .next t ∧ t.dieOff = (due.map (·.1)).reverse ++ s.dieOff ∧ t.groups = s.groups.filter fun g => due.all fun x => sliceDie g.slice != x.1)
  ∧ (∀ s : State, ∃ t, exec .dieReturn s = .next t ∧ t.dieOff = s.dieOff.filter fun d => decide (mreg s (Reg.DIESTAT + 8 * d) / 65536 % 4 ≠ 3))
  ∧ (∀ (s : State) (d n : Nat), (s.dieAlarm.filter fun x => decide (x.2 + 2 * Config.clkPerMs ≤ s.clk)) = [(d, n)] →
    ∃ t, exec .diePowerOff s = .next t ∧ t.dieOff = d :: s.dieOff ∧ t.groups = s.groups.filter (fun g => sliceDie g.slice != d))
  ∧ ∀ (s : State) (d : Nat), d < 16 → (s.dieOff.filter fun d => mreg s (Reg.DIESTAT + 8 * d) / 65536 % 4 = 3) = [d] →
    ∃ t, exec .dieReturn s = .next t ∧ t.dieOff = s.dieOff.filter (· != d) ∧ mreg t (Reg.DIESTAT + 8 * d) / 65536 % 4 = 0)
  ∧ ((∀ (s : State) (links hbm : Bool) (cols dies : List (Nat × BitVec 16)), mreg s Reg.STARTUP = 0 → ∃ t, exec (.startUp links hbm cols dies) s = .next t ∧
    ((∃ r, partReason s.flash.part = some r ∧ t = setMreg s Reg.STARTUP (2 + 256 * r))
      ∨ (∃ r, partReason s.flash.part = none ∧ s.flash.images.findSome? imageReason = some r ∧ t = setMreg { s with part := s.flash.part } Reg.STARTUP (2 + 256 * r))
      ∨ (partReason s.flash.part = none ∧ s.flash.images.findSome? imageReason = none ∧ t.part = s.flash.part ∧ t.measure = measureOf s.flash
        ∧ mreg t Reg.STARTUP = (if hbm = false then 2 + 256 * 8 else if links = false then 2 + 256 * 9 else if configBad s.flash = true then 2 + 256 * 11 else 1)
        ∧ (mreg t Reg.STARTUP = 1 → 0 < tlim s 2 → (∀ x ∈ cols, x.2.toInt < tlim s 2) → (∀ x ∈ s.mregs, isCol x.1 = true → sextN x.2.toNat 16 < tlim s 2) → t.comb = []))))
  ∧ ∀ (s : State) (a : BitVec 64), exec (.machineCheckEvent 0 a) s = .next s ∧ exec (.machineCheckEvent 1 a) s = .next { s with softErrors := s.softErrors ++ [0x1E1] }
      ∧ ((∀ l ∈ s.l1, l.line ≠ a.toNat / 128) → exec (.machineCheckEvent 2 a) s = .next (postAsync s 0x1E2 a none))
      ∧ ((∃ l ∈ s.l1, l.line = a.toNat / 128) → ∃ x ∈ s.l1, x.line = a.toNat / 128 ∧ exec (.machineCheckEvent 2 a) s = .next (postAsync { s with l1 := s.l1.filter fun l => !(l.core == x.core && l.line == x.line) } 0x1E2 a none))
      ∧ ((∀ l ∈ s.icache, l.va = a.toNat / 128 * 128 → l.mark = none) → exec (.machineCheckEvent 4 a) s = .next { s with icache := s.icache.map fun l => if l.va = a.toNat / 128 * 128 then { l with mark := some 0x1E4 } else l })
      ∧ ((∃ l ∈ s.icache, l.va = a.toNat / 128 * 128 ∧ l.mark.isSome = true) → exec (.machineCheckEvent 4 a) s = .next { s with softErrors := s.softErrors ++ [0x1E4] })
      ∧ exec (.machineCheckEvent 26 a) s = .next (postAsync (if mreg s Reg.STARTUP % 16 = 0 then setMreg s Reg.STARTUP (2 + 256 * 10) else s) 0x1FA a none)
      ∧ exec (.machineCheckEvent 9 a) s = .next (postAsync (hostDrop s (a.toNat / 128 * 128) 128) 0x1E9 a none)
      ∧ ∀ d : BitVec 5, d ∉ [0, 1, 2, 4, 9, 26] → exec (.machineCheckEvent d a) s = .next (postAsync s (BitVec.ofNat 9 (0x1E0 + d.toNat)) a none))

/-- Messages to a home or an owner (14 R403 to R406), with the caps of their data (08 R196, 14 R404): READ_MSG answers with the bytes, WRITE_MSG writes and answers, ATOMIC_MSG writes the operation's value and answers the old one; a home whose page is owned by another forwards, in the sender's name; a write of a page in D is refused with reason 2, and any access where the entry's recovery has failed with reason 5 (log 105); an access to a page in X waits. FORWARDED_COMMAND (R405) becomes a command of its sender. The holder's side and the home's (14 R403 to R405, R409). GRANT with data fills the READY frame and enters the state, and is acknowledged with its own SEQ (19 R460); PROBE_INV, PROBE_RECALL, PROBE_SPLIT and PROBE_ALL answer a holder with no copy by an acknowledgement, a copy newer than the probe by STALE, and else drop the copy and acknowledge, an owner's data going with it where it is recalled; of a 2 MiB entry PROBE_SPLIT leaves 64 KiB entries, each with its part of the frame, the old state and the probe's SEQ plus 1 (19 R461), and names in the acknowledgement those for which no way was empty; ACK, with the awaited SEQ (of the probes, then of the grants), merges the data it returns and crosses its sender off; DIRECTORY_ERROR_RECOVERY holds the page until every device of the domain has answered. How a message's aux word tells an answer is the model's (log 28). -/
def Obligations.PeerMessages : Prop :=
  ((∀ (s : State) (src pa n : Nat), (∀ p, peerFind s pa n false = .mem p → exec (.readMsg src pa n) s = .next (sendData (combRead s p n 0) src 1 pa 0 (2 ^ 32) (homeBytes s p n) (homeSynds s p n)))
    ∧ ∀ d, peerFind s pa n false = .forward d → exec (.readMsg src pa n) s = .next (passOn s src { dst := d, kind := 1, page := pa, seq := 0, aux := n, data := [] }))
  ∧ (∀ (s : State) (src pa n : Nat), (peerFind s pa n false = .wait → exec (.readMsg src pa n) s = .next { s with inbox := s.inbox ++ [.read src pa n] })
    ∧ (∀ r, peerFind s pa n false = .refuse r → exec (.readMsg src pa n) s = .next (sendMsg s src 1 pa 0 (2 ^ 32 + r) [])))
  ∧ (∀ (s : State) (src pa : Nat) (data : List Byte) (sy : List (BitVec 16)),
    (∀ p, peerFind s pa data.length true = .mem p → exec (.writeMsg src pa ⟨data, sy⟩) s = .next (sendMsg (putSynds (homeWrite s p data 0 (some (.peer src))) (carriedGranules p data.length) sy) src 2 pa 0 (2 ^ 32) []))
    ∧ (∀ d, peerFind s pa data.length true = .forward d → exec (.writeMsg src pa ⟨data, sy⟩) s = .next (passOn s src { dst := d, kind := 2, page := pa, seq := 0, aux := 0, data := data, caps := sy }))
    ∧ (peerFind s pa data.length true = .wait → exec (.writeMsg src pa ⟨data, sy⟩) s = .next { s with inbox := s.inbox ++ [.write src pa ⟨data, sy⟩] })
    ∧ (∀ r, peerFind s pa data.length true = .refuse r → exec (.writeMsg src pa ⟨data, sy⟩) s = .next (sendMsg s src 2 pa 0 (2 ^ 32 + r) [])))
  ∧ (∀ (s : State) (src pa wid p : Nat) (aop : BitVec 6) (v : DWord), wid = 2 ∨ wid = 3 → pa % (2 ^ wid) = 0 → peerFind s pa (2 ^ wid) true = .mem p → homeCaps s p (2 ^ wid) = .good →
    exec (.atomicMsg src pa wid false aop v) s = .next (sendMsg (homeWrite s p (leBytes (2 ^ wid) (atomNew (aop.toNat % 32) (8 * 2 ^ wid) (homeNat s p (2 ^ wid)) (v.toNat % 2 ^ (8 * 2 ^ wid)))) 0 (some (.peer src)))
      src 3 pa 0 (2 ^ 32) (leBytes (2 ^ wid) (homeNat s p (2 ^ wid)))))
  ∧ (∀ (s : State) (src pa wid : Nat) (float : Bool) (aop : BitVec 6) (v : DWord), wid = 2 ∨ wid = 3 → pa % (2 ^ wid) = 0 →
    (∀ p, peerFind s pa (2 ^ wid) true = .mem p → homeCaps s p (2 ^ wid) = .good → float = true →
      exec (.atomicMsg src pa wid float aop v) s = .next (sendMsg (homeWrite s p (leBytes (2 ^ wid) (atomfNew (aop.toNat % 32) (homeNat s p (2 ^ wid)) v.toNat).1) 0 (some (.peer src))) src 3 pa 0 (2 ^ 32) (leBytes (2 ^ wid) (homeNat s p (2 ^ wid)))))
    ∧ (∀ p, peerFind s pa (2 ^ wid) true = .mem p → homeCaps s p (2 ^ wid) ≠ .good → exec (.atomicMsg src pa wid float aop v) s = .next (sendMsg s src 3 pa 0 (2 ^ 32 + 16) []))
    ∧ (∀ d, peerFind s pa (2 ^ wid) true = .forward d → exec (.atomicMsg src pa wid float aop v) s = .next (passOn s src { dst := d, kind := 3, page := pa, seq := 0, aux := aop.toNat % 32 + 64 * 2 ^ wid, data := leBytes 8 v.toNat }))
    ∧ (peerFind s pa (2 ^ wid) true = .wait → exec (.atomicMsg src pa wid float aop v) s = .next { s with inbox := s.inbox ++ [.atomic src pa wid float aop v] })
    ∧ (∀ r, peerFind s pa (2 ^ wid) true = .refuse r → exec (.atomicMsg src pa wid float aop v) s = .next (sendMsg s src 3 pa 0 (2 ^ 32 + r) [])))
  ∧ ∀ (s : State) (src pa : Nat) (op : BitVec 7) (v : DWord) (i : Instr), forwardInstr op.toNat = some i → pa / 2 ^ 46 = ownDev s →
    ∃ t c, exec (.forwardedCommand src op pa v) s = .next t ∧ t.cmds = s.cmds ++ [c] ∧ c.id = s.nextId ∧ c.op = i ∧ c.owner = .peer src ∧ creg c 0 = pa % 2 ^ 64 ∧ creg c 1 = v.toNat ∧ c.started = true ∧ c.done = 0
      ∧ t.nextId = s.nextId + 1 ∧ { t with cmds := s.cmds, nextId := s.nextId } = s)
  ∧ ((∀ (s : State) (page : Nat) (seq : BitVec 16) (e : Bool × Nat × Nat), holderEntry s page [1, 2] = some e → newer (localSeq e.2.2) seq = false →
    exec (.probeInv page seq) s = .next (sendAck (copyDrop s page e) page seq 0 [])
      ∧ exec (.probeRecall page seq) s = .next (sendAck (copyDrop s page e) page seq 0 (if e.2.2 % 16 = 2 then homeBytes (copyDrop s page e) (localFrame e.2.2) (frameSize e.1) else [])
          (if e.2.2 % 16 = 2 then homeSynds (copyDrop s page e) (localFrame e.2.2) (frameSize e.1) else []))
      ∧ (e.1 = false → exec (.probeSplit page seq) s = .next (sendAck s page seq 0 [])))
  ∧ (∀ (s : State) (page : Nat) (seq : BitVec 16) (ev : Instr), ev ∈ [.probeInv page seq, .probeRecall page seq, .probeSplit page seq] →
    (holderEntry s page [1, 2] = none → exec ev s = .next (sendAck s page seq 0 []))
      ∧ ∀ e, holderEntry s page [1, 2] = some e → newer (localSeq e.2.2) seq = true → exec ev s = .next (sendAck s page (localSeq e.2.2) 1 []))
  ∧ (∀ (s : State) (page home : Nat) (e : Bool × Nat × Nat), (holderEntry s page [1, 2] = none → exec (.probeAll page home) s = .next (sendMsg s home 6 page 0 0 []))
      ∧ (holderEntry s page [1, 2] = some e → exec (.probeAll page home) s = .next (sendData (copyDrop s page e) home 6 page (localSeq e.2.2) 0
          (if e.2.2 % 16 = 2 then homeBytes (copyDrop s page e) (localFrame e.2.2) (frameSize e.1) else []) (if e.2.2 % 16 = 2 then homeSynds (copyDrop s page e) (localFrame e.2.2) (frameSize e.1) else []))))
  ∧ (∀ (s : State) (page : Nat) (owned : Bool) (seq : BitVec 16) (bs : List Byte) (sy : List (BitVec 16)) (e : Bool × Nat × Nat), holderEntry s page [3] = some e → bs.length = frameSize e.1 →
    let t := homeWrite (holderDrop s page e) (localFrame e.2.2) bs 0 none
    exec (.grant page owned seq (some bs) sy) s = .next (sendAck (setLocal { t with memSynd := SMap.setList t.memSynd (localFrame e.2.2 / 16) (sy.take (frameSize e.1 / 16)) } e.2.1 (localFrame e.2.2) (if owned then 2 else 1) seq) page seq 0 []))
  ∧ (∀ (s : State) (page : Nat) (seq : BitVec 16) (sy : List (BitVec 16)) (e : Bool × Nat × Nat), holderEntry s page [1] = some e →
    exec (.grant page true seq none sy) s = .next (sendAck (setLocal (holderDrop s page e) e.2.1 (localFrame e.2.2) 2 seq) page seq 0 []))
  ∧ (∀ (s : State) (page : Nat) (seq : BitVec 16) (e : Bool × Nat × Nat), holderEntry s page [1, 2] = some e → newer (localSeq e.2.2) seq = false → e.1 = true →
    ∃ u drops, (exec (.probeSplit page seq) s = .next (sendAck u page seq (2 + 4 * (maskOf drops 32).toNat) (if e.2.2 % 16 = 2 then drops.flatMap fun i => homeBytes u (localFrame e.2.2 + i * 65536) 65536 else [])
        (if e.2.2 % 16 = 2 then drops.flatMap fun i => homeSynds u (localFrame e.2.2 + i * 65536) 65536 else [])))
      ∧ ∀ i < 32, let g := page % 2 ^ 52 / 2 ^ 21 * 2 ^ 21 + i * 65536
        if i ∈ drops then copyEmpty u g = none
        else ∃ w < 8, let a := copyAddr u (copySet false g) w
          homeNat u a 8 = g ∧ homeNat u (a + 8) 8 = localFrame e.2.2 + i * 65536 + e.2.2 % 16 + (seq + 1).toNat * 2 ^ 48)
  ∧ (∀ (s : State) (src page : Nat) (x : Transition), s.busy = [x] → x.index = page % 2 ^ 46 / 65536 → 65536 ≤ dirSize x.before → src ∈ x.waiting → x.cmd ≠ 0 →
    exec (.ack src page (x.before.seq + (if x.granted then 1 else 0)) none []) s = .next { s with busy := [{ x with waiting := x.waiting.filter (· != src) }] })
  ∧ (∀ (s : State) (src page : Nat) (seq : BitVec 16) (data : Option Carried) (dropped : List Nat),
    let i := page % 2 ^ 46 / 65536
    let awaited := s.busy.find? fun x => decide (x.index ≤ i ∧ i < x.index + dirSize x.before / 65536) && x.waiting.contains src && (x.cmd == 0 || x.before.seq + (if x.granted then 1 else 0) == seq)
    (awaited = none → exec (.ack src page seq data dropped) s = .next s)
    ∧ ∀ x, awaited = some x →
      let y := { x with waiting := x.waiting.filter (· != src), drops := x.drops ++ if x.cmd = 0 then [(src, seq.toNat)] else (dropped.filter (· < 32)).map fun d => (src, d) }
      let m := mergeAck s x data dropped
      let t := { m with busy := m.busy.map fun z => if z.cmd = x.cmd ∧ z.index = x.index then y else z }
      exec (.ack src page seq data dropped) s = .next (if x.cmd = 0 ∧ y.waiting = [] then recoverFinish t y else t))
  ∧ ∀ (s : State) (i : Nat) (known : Bool), i * 65536 < hbmCap s → let peers := (List.range 64).filter fun k => k ≠ ownDev s && (mreg s Reg.DOMAIN).testBit k
    (peers ≠ [] → ∃ t x, exec (.directoryErrorRecovery i known) s = .next t ∧ t.busy = s.busy.filter (fun y => y.index != i) ++ [x] ∧ x.cmd = 0 ∧ x.index = i ∧ x.waiting = peers)
    ∧ (peers = [] → ∃ t, exec (.directoryErrorRecovery i known) s = .next t ∧ t.busy = s.busy.filter fun y => y.index != i))

/-- Links (14 R410 to R412, 15 R423). A PACKET whose flits pass their CRC and hold what its header says acknowledges what the other end has received. In LSEQ order it is accepted, once its payload decodes: a message to this device takes its effect, and one to another goes on by another port with its caps; one whose payload cannot be decoded takes the link down. A flit that fails its CRC has the awaited packet asked for again, and a port that is down takes nothing. What a message is framed as is opened as it was (the CRC's form is the model's: log 37); a message enters its port's retry buffer in LSEQ order while the buffer has room, and else waits. NAK sends again; the eighth retry of the oldest takes the link down, and sixteen within 1 ms are reported. LINK_DOWN and LINK_UP. -/
def Obligations.Links : Prop :=
  (∀ (s : State) (p : Nat) (head rest : List Byte) (more : List (List Byte)) (x : Port), findPort s p = some x → x.up = true → let fs := (head ++ rest) :: more
    ((∃ f ∈ fs, flitGood f = false) → exec (.packet p head rest more) s = .next (updPort s p fun x => { x with naks := x.naks ++ [x.inSeq] }))
    ∧ ((∀ f ∈ fs, flitGood f = true) → openPacket fs = none → exec (.packet p head rest more) s = .next s)
    ∧ ∀ h payload, (∀ f ∈ fs, flitGood f = true) → openPacket fs = some (h, payload) →
      let t := ackPort s p (h.extractLsb' 40 12)
      (h.extractLsb' 52 12 ≠ x.inSeq → exec (.packet p head rest more) s = .next t)
      ∧ (h.extractLsb' 52 12 = x.inSeq → decodePayload x.dictIn payload = none → exec (.packet p head rest more) s = .next (portDown t p))
      ∧ ∀ d, h.extractLsb' 52 12 = x.inSeq → decodePayload x.dictIn payload = some d →
        let u := updPort t p fun x => { x with inSeq := x.inSeq + 1, dictIn := dictWrite x.dictIn d.ins }
        (h.toNat / 2 ^ 34 % 64 = ownDev s → exec (.packet p head rest more) s = .next (ownMessage u (h.toNat / 2 ^ 28 % 64) (h.toNat / 2 ^ 16 % 64) d.granules))
        ∧ (h.toNat / 2 ^ 34 % 64 ≠ ownDev s → exec (.packet p head rest more) s = .next (postMsg u {
            dst := h.toNat / 2 ^ 34 % 64, src := some (h.toNat / 2 ^ 28 % 64), via := some p, kind := BitVec.ofNat 6 (h.toNat / 2 ^ 16 % 64), page := 0, seq := 0, aux := 0, data := d.granules.flatMap fun g => leBytes 16 g.toNat
            caps := (List.range d.granules.length).map fun i => BitVec.ofNat 16 (leNat ((d.rest.drop (2 * i)).take 2)) })))
  ∧ (∀ (s : State) (p : Nat) (head rest : List Byte) (more : List (List Byte)) (x : Port), findPort s p = some x → x.up = false → exec (.packet p head rest more) s = .next s)
  ∧ (∀ (lseq ack : BitVec 12) (dst src kind : Nat) (payload : List Byte), dst < 64 → src < 64 → kind < 64 → payload.length ≤ 3832 →
    (∀ f ∈ framePacket lseq ack dst src kind payload, f.length = 64 ∧ flitGood f = true)
      ∧ ∃ h, openPacket (framePacket lseq ack dst src kind payload) = some (h, payload) ∧ h.extractLsb' 52 12 = lseq ∧ h.extractLsb' 40 12 = ack
        ∧ h.toNat / 2 ^ 34 % 64 = dst ∧ h.toNat / 2 ^ 28 % 64 = src ∧ h.toNat / 2 ^ 16 % 64 = kind)
  ∧ (∀ (s : State) (m : Msg) (p : Nat) (x : Port), m.data.length ≤ 2560 → portFor s m.dst m.via = some p → findPort s p = some x →
    let k := packetOf (ownDev s) x s.fresh m
    (x.queue = [] → retryFlits x + k.flits.length ≤ 1024 → findPort (postMsg s m) p = some { x with retry := x.retry ++ [k], outSeq := x.outSeq + 1 } ∧ k.lseq = x.outSeq
        ∧ ∃ payload, k.flits = framePacket x.outSeq (x.inSeq - 1) m.dst (m.src.getD (ownDev s)) m.kind.toNat payload)
      ∧ (x.queue ≠ [] ∨ 1024 < retryFlits x + k.flits.length → findPort (postMsg s m) p = some { x with queue := x.queue ++ [m] }))
  ∧ (∀ (s : State) (p : Nat) (q : BitVec 12) (x : Port), findPort s p = some x →
    let again := (q - x.acked).toNat
    let n := if q = x.acked then x.retries + 1 else 1
    let t := updPort (ackPort s p (q - 1)) p fun x => { x with retries := n, retryAt := x.retryAt ++ [s.clk] }
    (x.up = true → again < x.retry.length → n < 8 → exec (.nak p q) s = .next t
        ∧ (x.queue = [] → findPort t p = some { x with acked := q, retry := x.retry.drop again, retries := n, retryAt := x.retryAt ++ [s.clk], dictOut := (x.retry.take again).foldl (fun d k => dictWrite d k.ins) x.dictOut }))
    ∧ (x.up = true → again < x.retry.length → 8 ≤ n → exec (.nak p q) s = .next (portDown t p))
    ∧ (x.up = false ∨ x.retry.length ≤ again → exec (.nak p q) s = .next s))
  ∧ (∀ (s : State) (x : Port), s.ports.filter (retryDue s) = [x] → exec .linkRetryThreshold s = .next (postAsync (updPort s x.port fun y => { y with retryAt := [] }) 0x1EB (BitVec.ofNat 64 x.port) none))
  ∧ (∀ s : State, ∃ t, exec .linkRetryThreshold s = .next t ∧ t.ports = s.ports.map fun y => if s.ports.any fun z => retryDue s z && z.port == y.port then { y with retryAt := [] } else y)
  ∧ (∀ (s : State) (p : Nat) (x : Port), findPort s p = some x → x.up = true → ∃ t y, exec (.linkDown p) s = .next t ∧ findPort t p = some y ∧ y.up = false ∧ y.retry = [])
  ∧ (∀ (s : State) (p : Nat) (x : Port), findPort s p = some x → x.up = true → ∃ t, exec (.linkDown p) s = .next (postAsync t 0x1EA (BitVec.ofNat 64 p) none)
      ∧ t = (x.retry.map (·.msg) ++ x.queue).foldl routeMsg (updPort s p fun x => { x with up := false, retry := [], queue := [], retries := 0, retryAt := [] }))
  ∧ (∀ (s : State) (p : Nat) (x : Port), findPort s p = some x → x.up = false → s.part.peeren.getLsbD p = true → s.outbox = [] →
    ∃ t y, exec (.linkUp p) s = .next t ∧ findPort t p = some y ∧ y = { Port.reset p with up := true })
  ∧ ∀ (s : State) (p : Nat) (x : Port), findPort s p = some x →
    (x.up = false → s.part.peeren.getLsbD p = true → exec (.linkUp p) s = .next (s.outbox.foldl routeMsg (updPort { s with outbox := [] } p fun _ => { Port.reset p with up := true })))
    ∧ (x.up = true ∨ s.part.peeren.getLsbD p = false → exec (.linkUp p) s = .next s)

/-- FETCH_FILL (07 R157, 13 R358) brings in the line of an address that is not cached; a line that cannot be read is marked with its cause and raises nothing. TABLE_WALK (14 R398, R399) brings in a translation; a walk that fails on no cap leaves nothing, and the cap failure of a table read is posted (08 R200). -/
def Obligations.Fills : Prop :=
  (∀ (s u : State) (wg va : Nat) (k : Workgroup), findWg s wg = some k → va < 2 ^ 57 → findILine s (k.core / 2) (spaceOf s (.cue wg)).1 va = none →
    (∀ bs, fetchLine s (.cue wg) va = some (.ok bs, u) →
      ∃ t l, exec (.fetchFill wg va) s = .next t ∧ findILine t (k.core / 2) (spaceOf s (.cue wg)).1 va = some l ∧ l.data = bs ∧ l.mark = none ∧ { t with icache := u.icache } = u)
    ∧ ∀ c, fetchLine s (.cue wg) va = some (.error c, u) →
      ∃ t l, exec (.fetchFill wg va) s = .next t ∧ findILine t (k.core / 2) (spaceOf s (.cue wg)).1 va = some l ∧ l.mark = some c ∧ { t with icache := u.icache } = u)
  ∧ ∀ (s : State) (core asid root va : Nat), (∀ tr, walk s root va = .ok tr → exec (.tableWalk core asid root va) s = .next (tlbFill s core (BitVec.ofNat 16 asid) va tr))
    ∧ (∀ f, walk s root va = .error f → f.cap = .good → exec (.tableWalk core asid root va) s = .next s)
    ∧ ∀ f c, walk s root va = .error f → integrityCause 12 f.cap = some c → exec (.tableWalk core asid root va) s = .next (postAsync s c (BitVec.ofNat 64 va) none)

/-- What comes to the device from outside between instructions. An answer of a peer (09 R211 class P, 12 R327, R335, 14 R405) takes its request from those awaited, whatever it says; an upset of a self-check or of a parity check (13 R350, R354) stands until something meets it, and a machine check takes its own effect; an access of the host or of a peer that waited for a page in X, or behind one that did (15 R421), is made again (14 R405), as its event makes it; a directory or contract entry whose caps fail is posted (08 R200); a step with nothing to do leaves the device as it was. Each is the whole of its step. Which of them comes, and when, is free (log 3, log 11). -/
def Obligations.OutsideActs : Prop :=
  (∀ (s : State) (tag : Nat), chosen s = .answer tag → step s = .next (stepEndPlain s (answered (begin_ s) tag)))
  ∧ (∀ (s : State) (c : Cause) (a : BitVec 64), chosen s = .upset c a → step s = .next (stepEndPlain s (upsetState c a (begin_ s))))
  ∧ (∀ s : State, chosen s = .idle → step s = .next (stepEndPlain s (begin_ s)))
  ∧ (∀ (s : State) (a : Held), chosen s = .held a → step s = .next (stepEndPlain s (serveHeld a (begin_ s))))
  ∧ (∀ s t : State, (∀ pa n own, exec (.hostRead pa n own) s = .next t → serveHeld (.hostRead pa n own) s = t) ∧ (∀ pa data, exec (.hostWrite pa data) s = .next t → serveHeld (.hostWrite pa data) s = t)
    ∧ (∀ o n v, exec (.registerWrite o n v) s = .next t → serveHeld (.regWrite o n v) s = t) ∧ (∀ k v, exec (.mwakeWrite k v) s = .next t → serveHeld (.mwakeWrite k v) s = t)
    ∧ (∀ q v, exec (.queueWakeWrite q v) s = .next t → serveHeld (.wakeWrite q v) s = t)
    ∧ (∀ src pa n, exec (.readMsg src pa n) s = .next t → serveHeld (.read src pa n) s = t) ∧ (∀ src pa data, exec (.writeMsg src pa data) s = .next t → serveHeld (.write src pa data) s = t)
    ∧ ∀ src pa wid float aop v, exec (.atomicMsg src pa wid float aop v) s = .next t → serveHeld (.atomic src pa wid float aop v) s = t)
  ∧ (∀ (s : State) (tag : Nat) (x : Await), s.awaits.find? (fun a => a.tag == tag) = some x → x.core = none → x.cmd = none → (answered s tag).awaits = s.awaits.filter (fun a => a.tag != tag))
  ∧ (∀ (s : State) (tag id : Nat) (x : Await) (c : Cmd), s.awaits.find? (fun a => a.tag == tag) = some x → x.cmd = some id → findCmd s id = some c → copyFollows s c = true → (answered s tag).awaits = s.awaits.filter (fun a => a.tag != tag))
  ∧ (∀ (s : State) (g : Nat), chosen s = .entry g → step s = .next (stepEndPlain s (entryFound g (begin_ s))))
  ∧ (∀ (s : State) (g : Nat) (c : Cause), integrityCause 15 (homeCap s g) = some c → dirGranule s g = none → tableGranule s g = true →
    ∃ t, entryFound g s = { t with badEntries := g :: t.badEntries } ∧ t = postAsync s c (BitVec.ofNat 64 (16 * g)) none)
  ∧ ∀ (s : State) (c : Cause) (a : BitVec 64), causeClass c ≠ 15 → upsetState c a s = { s with softErrors := s.softErrors ++ [c] }
end

