-- ==== Sys2Proof/Laws/Approx.lean ====
section
/-! SUPPORT. The functions of 04 R112 that never fall. -/

namespace Sys2Proof.Machine

theorem rises_bounds (t : Nat → Nat) (x n acc : Nat) : acc ≤ rises t x n acc ∧ rises t x n acc < acc + 2 ^ n := by
  induction n generalizing acc with
  | zero => simp [rises]
  | succ n ih =>
    simp only [rises, Nat.pow_succ]
    split
    · have := ih (acc + 2 ^ n); omega
    · have := ih acc; omega

/-- What the thresholds give never falls. -/
theorem rises_mono (t : Nat → Nat) {x y : Nat} (h : x ≤ y) (n acc : Nat) : rises t x n acc ≤ rises t y n acc := by
  induction n generalizing acc with
  | zero => exact Nat.le_refl _
  | succ n ih =>
    simp only [rises]
    by_cases hx : t (acc + 2 ^ n) ≤ x
    · simp only [hx, Nat.le_trans hx h, if_true]; exact ih _
    · by_cases hy : t (acc + 2 ^ n) ≤ y
      · simp only [hx, hy, if_true, if_false]
        have a := (rises_bounds t x n acc).2
        have b := (rises_bounds t y n (acc + 2 ^ n)).1
        omega
      · simp only [hx, hy, if_false]; exact ih _

/-- A rank names its bits. -/
theorem unrank32_rank32 {b : Nat} (h : b < 2 ^ 32) : unrank32 (rank32 b) = b := by
  unfold rank32 unrank32
  split <;> split <;> omega

end Sys2Proof.Machine
end

