-- ==== Sys2Proof/Laws/State.lean ====
section
/-! SUPPORT. What each named update of the state leaves as it was: one lemma per field per update. -/

namespace Sys2Proof.Machine

/-! ### `updQueue` -/

@[simp] theorem updQueue_clk (s : State) (q : Nat) (f : QueueSt → QueueSt) : (updQueue s q f).clk = s.clk := rfl
@[simp] theorem updQueue_fresh (s : State) (q : Nat) (f : QueueSt → QueueSt) : (updQueue s q f).fresh = s.fresh := rfl
@[simp] theorem updQueue_cur (s : State) (q : Nat) (f : QueueSt → QueueSt) : (updQueue s q f).cur = s.cur := rfl
@[simp] theorem updQueue_agenda (s : State) (q : Nat) (f : QueueSt → QueueSt) : (updQueue s q f).agenda = s.agenda := rfl
@[simp] theorem updQueue_port (s : State) (q : Nat) (f : QueueSt → QueueSt) : (updQueue s q f).port = s.port := rfl
@[simp] theorem updQueue_rota (s : State) (q : Nat) (f : QueueSt → QueueSt) : (updQueue s q f).rota = s.rota := rfl
@[simp] theorem updQueue_passes (s : State) (q : Nat) (f : QueueSt → QueueSt) : (updQueue s q f).passes = s.passes := rfl
@[simp] theorem updQueue_stages (s : State) (q : Nat) (f : QueueSt → QueueSt) : (updQueue s q f).stages = s.stages := rfl
@[simp] theorem updQueue_cueNext (s : State) (q : Nat) (f : QueueSt → QueueSt) : (updQueue s q f).cueNext = s.cueNext := rfl
@[simp] theorem updQueue_softErrors (s : State) (q : Nat) (f : QueueSt → QueueSt) : (updQueue s q f).softErrors = s.softErrors := rfl
@[simp] theorem updQueue_badEntries (s : State) (q : Nat) (f : QueueSt → QueueSt) : (updQueue s q f).badEntries = s.badEntries := rfl
@[simp] theorem updQueue_flash (s : State) (q : Nat) (f : QueueSt → QueueSt) : (updQueue s q f).flash = s.flash := rfl
@[simp] theorem updQueue_part (s : State) (q : Nat) (f : QueueSt → QueueSt) : (updQueue s q f).part = s.part := rfl
@[simp] theorem updQueue_mregs (s : State) (q : Nat) (f : QueueSt → QueueSt) : (updQueue s q f).mregs = s.mregs := rfl
@[simp] theorem updQueue_wshare (s : State) (q : Nat) (f : QueueSt → QueueSt) : (updQueue s q f).wshare = s.wshare := rfl
@[simp] theorem updQueue_errDropped (s : State) (q : Nat) (f : QueueSt → QueueSt) : (updQueue s q f).errDropped = s.errDropped := rfl
@[simp] theorem updQueue_measure (s : State) (q : Nat) (f : QueueSt → QueueSt) : (updQueue s q f).measure = s.measure := rfl
@[simp] theorem updQueue_govTicks (s : State) (q : Nat) (f : QueueSt → QueueSt) : (updQueue s q f).govTicks = s.govTicks := rfl
@[simp] theorem updQueue_dieAlarm (s : State) (q : Nat) (f : QueueSt → QueueSt) : (updQueue s q f).dieAlarm = s.dieAlarm := rfl
@[simp] theorem updQueue_dieOff (s : State) (q : Nat) (f : QueueSt → QueueSt) : (updQueue s q f).dieOff = s.dieOff := rfl
@[simp] theorem updQueue_rounds (s : State) (q : Nat) (f : QueueSt → QueueSt) : (updQueue s q f).rounds = s.rounds := rfl
@[simp] theorem updQueue_nextGrid (s : State) (q : Nat) (f : QueueSt → QueueSt) : (updQueue s q f).nextGrid = s.nextGrid := rfl
@[simp] theorem updQueue_nextId (s : State) (q : Nat) (f : QueueSt → QueueSt) : (updQueue s q f).nextId = s.nextId := rfl
@[simp] theorem updQueue_grids (s : State) (q : Nat) (f : QueueSt → QueueSt) : (updQueue s q f).grids = s.grids := rfl
@[simp] theorem updQueue_wgs (s : State) (q : Nat) (f : QueueSt → QueueSt) : (updQueue s q f).wgs = s.wgs := rfl
@[simp] theorem updQueue_mgmt (s : State) (q : Nat) (f : QueueSt → QueueSt) : (updQueue s q f).mgmt = s.mgmt := rfl
@[simp] theorem updQueue_flights (s : State) (q : Nat) (f : QueueSt → QueueSt) : (updQueue s q f).flights = s.flights := rfl
@[simp] theorem updQueue_cmds (s : State) (q : Nat) (f : QueueSt → QueueSt) : (updQueue s q f).cmds = s.cmds := rfl
@[simp] theorem updQueue_locks (s : State) (q : Nat) (f : QueueSt → QueueSt) : (updQueue s q f).locks = s.locks := rfl
@[simp] theorem updQueue_planes (s : State) (q : Nat) (f : QueueSt → QueueSt) : (updQueue s q f).planes = s.planes := rfl
@[simp] theorem updQueue_exclusion (s : State) (q : Nat) (f : QueueSt → QueueSt) : (updQueue s q f).exclusion = s.exclusion := rfl
@[simp] theorem updQueue_resv (s : State) (q : Nat) (f : QueueSt → QueueSt) : (updQueue s q f).resv = s.resv := rfl
@[simp] theorem updQueue_groups (s : State) (q : Nat) (f : QueueSt → QueueSt) : (updQueue s q f).groups = s.groups := rfl
@[simp] theorem updQueue_serials (s : State) (q : Nat) (f : QueueSt → QueueSt) : (updQueue s q f).serials = s.serials := rfl
@[simp] theorem updQueue_mem (s : State) (q : Nat) (f : QueueSt → QueueSt) : (updQueue s q f).mem = s.mem := rfl
@[simp] theorem updQueue_memSynd (s : State) (q : Nat) (f : QueueSt → QueueSt) : (updQueue s q f).memSynd = s.memSynd := rfl
@[simp] theorem updQueue_comb (s : State) (q : Nat) (f : QueueSt → QueueSt) : (updQueue s q f).comb = s.comb := rfl
@[simp] theorem updQueue_keyPrio (s : State) (q : Nat) (f : QueueSt → QueueSt) : (updQueue s q f).keyPrio = s.keyPrio := rfl
@[simp] theorem updQueue_hostMem (s : State) (q : Nat) (f : QueueSt → QueueSt) : (updQueue s q f).hostMem = s.hostMem := rfl
@[simp] theorem updQueue_lstore (s : State) (q : Nat) (f : QueueSt → QueueSt) : (updQueue s q f).lstore = s.lstore := rfl
@[simp] theorem updQueue_lsSynd (s : State) (q : Nat) (f : QueueSt → QueueSt) : (updQueue s q f).lsSynd = s.lsSynd := rfl
@[simp] theorem updQueue_lsFull (s : State) (q : Nat) (f : QueueSt → QueueSt) : (updQueue s q f).lsFull = s.lsFull := rfl
@[simp] theorem updQueue_l1 (s : State) (q : Nat) (f : QueueSt → QueueSt) : (updQueue s q f).l1 = s.l1 := rfl
@[simp] theorem updQueue_tlb (s : State) (q : Nat) (f : QueueSt → QueueSt) : (updQueue s q f).tlb = s.tlb := rfl
@[simp] theorem updQueue_icache (s : State) (q : Nat) (f : QueueSt → QueueSt) : (updQueue s q f).icache = s.icache := rfl
@[simp] theorem updQueue_busy (s : State) (q : Nat) (f : QueueSt → QueueSt) : (updQueue s q f).busy = s.busy := rfl
@[simp] theorem updQueue_hostLines (s : State) (q : Nat) (f : QueueSt → QueueSt) : (updQueue s q f).hostLines = s.hostLines := rfl
@[simp] theorem updQueue_ports (s : State) (q : Nat) (f : QueueSt → QueueSt) : (updQueue s q f).ports = s.ports := rfl
@[simp] theorem updQueue_outbox (s : State) (q : Nat) (f : QueueSt → QueueSt) : (updQueue s q f).outbox = s.outbox := rfl
@[simp] theorem updQueue_awaits (s : State) (q : Nat) (f : QueueSt → QueueSt) : (updQueue s q f).awaits = s.awaits := rfl
@[simp] theorem updQueue_inbox (s : State) (q : Nat) (f : QueueSt → QueueSt) : (updQueue s q f).inbox = s.inbox := rfl

/-! ### `updGrid` -/

@[simp] theorem updGrid_clk (s : State) (n : Nat) (f : Grid → Grid) : (updGrid s n f).clk = s.clk := rfl
@[simp] theorem updGrid_fresh (s : State) (n : Nat) (f : Grid → Grid) : (updGrid s n f).fresh = s.fresh := rfl
@[simp] theorem updGrid_cur (s : State) (n : Nat) (f : Grid → Grid) : (updGrid s n f).cur = s.cur := rfl
@[simp] theorem updGrid_agenda (s : State) (n : Nat) (f : Grid → Grid) : (updGrid s n f).agenda = s.agenda := rfl
@[simp] theorem updGrid_port (s : State) (n : Nat) (f : Grid → Grid) : (updGrid s n f).port = s.port := rfl
@[simp] theorem updGrid_rota (s : State) (n : Nat) (f : Grid → Grid) : (updGrid s n f).rota = s.rota := rfl
@[simp] theorem updGrid_passes (s : State) (n : Nat) (f : Grid → Grid) : (updGrid s n f).passes = s.passes := rfl
@[simp] theorem updGrid_stages (s : State) (n : Nat) (f : Grid → Grid) : (updGrid s n f).stages = s.stages := rfl
@[simp] theorem updGrid_cueNext (s : State) (n : Nat) (f : Grid → Grid) : (updGrid s n f).cueNext = s.cueNext := rfl
@[simp] theorem updGrid_softErrors (s : State) (n : Nat) (f : Grid → Grid) : (updGrid s n f).softErrors = s.softErrors := rfl
@[simp] theorem updGrid_badEntries (s : State) (n : Nat) (f : Grid → Grid) : (updGrid s n f).badEntries = s.badEntries := rfl
@[simp] theorem updGrid_flash (s : State) (n : Nat) (f : Grid → Grid) : (updGrid s n f).flash = s.flash := rfl
@[simp] theorem updGrid_part (s : State) (n : Nat) (f : Grid → Grid) : (updGrid s n f).part = s.part := rfl
@[simp] theorem updGrid_mregs (s : State) (n : Nat) (f : Grid → Grid) : (updGrid s n f).mregs = s.mregs := rfl
@[simp] theorem updGrid_wshare (s : State) (n : Nat) (f : Grid → Grid) : (updGrid s n f).wshare = s.wshare := rfl
@[simp] theorem updGrid_errDropped (s : State) (n : Nat) (f : Grid → Grid) : (updGrid s n f).errDropped = s.errDropped := rfl
@[simp] theorem updGrid_measure (s : State) (n : Nat) (f : Grid → Grid) : (updGrid s n f).measure = s.measure := rfl
@[simp] theorem updGrid_govTicks (s : State) (n : Nat) (f : Grid → Grid) : (updGrid s n f).govTicks = s.govTicks := rfl
@[simp] theorem updGrid_dieAlarm (s : State) (n : Nat) (f : Grid → Grid) : (updGrid s n f).dieAlarm = s.dieAlarm := rfl
@[simp] theorem updGrid_dieOff (s : State) (n : Nat) (f : Grid → Grid) : (updGrid s n f).dieOff = s.dieOff := rfl
@[simp] theorem updGrid_queues (s : State) (n : Nat) (f : Grid → Grid) : (updGrid s n f).queues = s.queues := rfl
@[simp] theorem updGrid_rounds (s : State) (n : Nat) (f : Grid → Grid) : (updGrid s n f).rounds = s.rounds := rfl
@[simp] theorem updGrid_nextGrid (s : State) (n : Nat) (f : Grid → Grid) : (updGrid s n f).nextGrid = s.nextGrid := rfl
@[simp] theorem updGrid_nextId (s : State) (n : Nat) (f : Grid → Grid) : (updGrid s n f).nextId = s.nextId := rfl
@[simp] theorem updGrid_wgs (s : State) (n : Nat) (f : Grid → Grid) : (updGrid s n f).wgs = s.wgs := rfl
@[simp] theorem updGrid_mgmt (s : State) (n : Nat) (f : Grid → Grid) : (updGrid s n f).mgmt = s.mgmt := rfl
@[simp] theorem updGrid_flights (s : State) (n : Nat) (f : Grid → Grid) : (updGrid s n f).flights = s.flights := rfl
@[simp] theorem updGrid_cmds (s : State) (n : Nat) (f : Grid → Grid) : (updGrid s n f).cmds = s.cmds := rfl
@[simp] theorem updGrid_locks (s : State) (n : Nat) (f : Grid → Grid) : (updGrid s n f).locks = s.locks := rfl
@[simp] theorem updGrid_planes (s : State) (n : Nat) (f : Grid → Grid) : (updGrid s n f).planes = s.planes := rfl
@[simp] theorem updGrid_exclusion (s : State) (n : Nat) (f : Grid → Grid) : (updGrid s n f).exclusion = s.exclusion := rfl
@[simp] theorem updGrid_resv (s : State) (n : Nat) (f : Grid → Grid) : (updGrid s n f).resv = s.resv := rfl
@[simp] theorem updGrid_groups (s : State) (n : Nat) (f : Grid → Grid) : (updGrid s n f).groups = s.groups := rfl
@[simp] theorem updGrid_serials (s : State) (n : Nat) (f : Grid → Grid) : (updGrid s n f).serials = s.serials := rfl
@[simp] theorem updGrid_mem (s : State) (n : Nat) (f : Grid → Grid) : (updGrid s n f).mem = s.mem := rfl
@[simp] theorem updGrid_memSynd (s : State) (n : Nat) (f : Grid → Grid) : (updGrid s n f).memSynd = s.memSynd := rfl
@[simp] theorem updGrid_comb (s : State) (n : Nat) (f : Grid → Grid) : (updGrid s n f).comb = s.comb := rfl
@[simp] theorem updGrid_keyPrio (s : State) (n : Nat) (f : Grid → Grid) : (updGrid s n f).keyPrio = s.keyPrio := rfl
@[simp] theorem updGrid_hostMem (s : State) (n : Nat) (f : Grid → Grid) : (updGrid s n f).hostMem = s.hostMem := rfl
@[simp] theorem updGrid_lstore (s : State) (n : Nat) (f : Grid → Grid) : (updGrid s n f).lstore = s.lstore := rfl
@[simp] theorem updGrid_lsSynd (s : State) (n : Nat) (f : Grid → Grid) : (updGrid s n f).lsSynd = s.lsSynd := rfl
@[simp] theorem updGrid_lsFull (s : State) (n : Nat) (f : Grid → Grid) : (updGrid s n f).lsFull = s.lsFull := rfl
@[simp] theorem updGrid_l1 (s : State) (n : Nat) (f : Grid → Grid) : (updGrid s n f).l1 = s.l1 := rfl
@[simp] theorem updGrid_tlb (s : State) (n : Nat) (f : Grid → Grid) : (updGrid s n f).tlb = s.tlb := rfl
@[simp] theorem updGrid_icache (s : State) (n : Nat) (f : Grid → Grid) : (updGrid s n f).icache = s.icache := rfl
@[simp] theorem updGrid_busy (s : State) (n : Nat) (f : Grid → Grid) : (updGrid s n f).busy = s.busy := rfl
@[simp] theorem updGrid_hostLines (s : State) (n : Nat) (f : Grid → Grid) : (updGrid s n f).hostLines = s.hostLines := rfl
@[simp] theorem updGrid_ports (s : State) (n : Nat) (f : Grid → Grid) : (updGrid s n f).ports = s.ports := rfl
@[simp] theorem updGrid_outbox (s : State) (n : Nat) (f : Grid → Grid) : (updGrid s n f).outbox = s.outbox := rfl
@[simp] theorem updGrid_awaits (s : State) (n : Nat) (f : Grid → Grid) : (updGrid s n f).awaits = s.awaits := rfl
@[simp] theorem updGrid_inbox (s : State) (n : Nat) (f : Grid → Grid) : (updGrid s n f).inbox = s.inbox := rfl

/-! ### `updWg` -/

@[simp] theorem updWg_clk (s : State) (n : Nat) (f : Workgroup → Workgroup) : (updWg s n f).clk = s.clk := rfl
@[simp] theorem updWg_fresh (s : State) (n : Nat) (f : Workgroup → Workgroup) : (updWg s n f).fresh = s.fresh := rfl
@[simp] theorem updWg_cur (s : State) (n : Nat) (f : Workgroup → Workgroup) : (updWg s n f).cur = s.cur := rfl
@[simp] theorem updWg_agenda (s : State) (n : Nat) (f : Workgroup → Workgroup) : (updWg s n f).agenda = s.agenda := rfl
@[simp] theorem updWg_port (s : State) (n : Nat) (f : Workgroup → Workgroup) : (updWg s n f).port = s.port := rfl
@[simp] theorem updWg_rota (s : State) (n : Nat) (f : Workgroup → Workgroup) : (updWg s n f).rota = s.rota := rfl
@[simp] theorem updWg_passes (s : State) (n : Nat) (f : Workgroup → Workgroup) : (updWg s n f).passes = s.passes := rfl
@[simp] theorem updWg_stages (s : State) (n : Nat) (f : Workgroup → Workgroup) : (updWg s n f).stages = s.stages := rfl
@[simp] theorem updWg_cueNext (s : State) (n : Nat) (f : Workgroup → Workgroup) : (updWg s n f).cueNext = s.cueNext := rfl
@[simp] theorem updWg_softErrors (s : State) (n : Nat) (f : Workgroup → Workgroup) : (updWg s n f).softErrors = s.softErrors := rfl
@[simp] theorem updWg_badEntries (s : State) (n : Nat) (f : Workgroup → Workgroup) : (updWg s n f).badEntries = s.badEntries := rfl
@[simp] theorem updWg_flash (s : State) (n : Nat) (f : Workgroup → Workgroup) : (updWg s n f).flash = s.flash := rfl
@[simp] theorem updWg_part (s : State) (n : Nat) (f : Workgroup → Workgroup) : (updWg s n f).part = s.part := rfl
@[simp] theorem updWg_mregs (s : State) (n : Nat) (f : Workgroup → Workgroup) : (updWg s n f).mregs = s.mregs := rfl
@[simp] theorem updWg_wshare (s : State) (n : Nat) (f : Workgroup → Workgroup) : (updWg s n f).wshare = s.wshare := rfl
@[simp] theorem updWg_errDropped (s : State) (n : Nat) (f : Workgroup → Workgroup) : (updWg s n f).errDropped = s.errDropped := rfl
@[simp] theorem updWg_measure (s : State) (n : Nat) (f : Workgroup → Workgroup) : (updWg s n f).measure = s.measure := rfl
@[simp] theorem updWg_govTicks (s : State) (n : Nat) (f : Workgroup → Workgroup) : (updWg s n f).govTicks = s.govTicks := rfl
@[simp] theorem updWg_dieAlarm (s : State) (n : Nat) (f : Workgroup → Workgroup) : (updWg s n f).dieAlarm = s.dieAlarm := rfl
@[simp] theorem updWg_dieOff (s : State) (n : Nat) (f : Workgroup → Workgroup) : (updWg s n f).dieOff = s.dieOff := rfl
@[simp] theorem updWg_queues (s : State) (n : Nat) (f : Workgroup → Workgroup) : (updWg s n f).queues = s.queues := rfl
@[simp] theorem updWg_rounds (s : State) (n : Nat) (f : Workgroup → Workgroup) : (updWg s n f).rounds = s.rounds := rfl
@[simp] theorem updWg_nextGrid (s : State) (n : Nat) (f : Workgroup → Workgroup) : (updWg s n f).nextGrid = s.nextGrid := rfl
@[simp] theorem updWg_nextId (s : State) (n : Nat) (f : Workgroup → Workgroup) : (updWg s n f).nextId = s.nextId := rfl
@[simp] theorem updWg_grids (s : State) (n : Nat) (f : Workgroup → Workgroup) : (updWg s n f).grids = s.grids := rfl
@[simp] theorem updWg_mgmt (s : State) (n : Nat) (f : Workgroup → Workgroup) : (updWg s n f).mgmt = s.mgmt := rfl
@[simp] theorem updWg_flights (s : State) (n : Nat) (f : Workgroup → Workgroup) : (updWg s n f).flights = s.flights := rfl
@[simp] theorem updWg_cmds (s : State) (n : Nat) (f : Workgroup → Workgroup) : (updWg s n f).cmds = s.cmds := rfl
@[simp] theorem updWg_locks (s : State) (n : Nat) (f : Workgroup → Workgroup) : (updWg s n f).locks = s.locks := rfl
@[simp] theorem updWg_planes (s : State) (n : Nat) (f : Workgroup → Workgroup) : (updWg s n f).planes = s.planes := rfl
@[simp] theorem updWg_exclusion (s : State) (n : Nat) (f : Workgroup → Workgroup) : (updWg s n f).exclusion = s.exclusion := rfl
@[simp] theorem updWg_resv (s : State) (n : Nat) (f : Workgroup → Workgroup) : (updWg s n f).resv = s.resv := rfl
@[simp] theorem updWg_groups (s : State) (n : Nat) (f : Workgroup → Workgroup) : (updWg s n f).groups = s.groups := rfl
@[simp] theorem updWg_serials (s : State) (n : Nat) (f : Workgroup → Workgroup) : (updWg s n f).serials = s.serials := rfl
@[simp] theorem updWg_mem (s : State) (n : Nat) (f : Workgroup → Workgroup) : (updWg s n f).mem = s.mem := rfl
@[simp] theorem updWg_memSynd (s : State) (n : Nat) (f : Workgroup → Workgroup) : (updWg s n f).memSynd = s.memSynd := rfl
@[simp] theorem updWg_comb (s : State) (n : Nat) (f : Workgroup → Workgroup) : (updWg s n f).comb = s.comb := rfl
@[simp] theorem updWg_keyPrio (s : State) (n : Nat) (f : Workgroup → Workgroup) : (updWg s n f).keyPrio = s.keyPrio := rfl
@[simp] theorem updWg_hostMem (s : State) (n : Nat) (f : Workgroup → Workgroup) : (updWg s n f).hostMem = s.hostMem := rfl
@[simp] theorem updWg_lstore (s : State) (n : Nat) (f : Workgroup → Workgroup) : (updWg s n f).lstore = s.lstore := rfl
@[simp] theorem updWg_lsSynd (s : State) (n : Nat) (f : Workgroup → Workgroup) : (updWg s n f).lsSynd = s.lsSynd := rfl
@[simp] theorem updWg_lsFull (s : State) (n : Nat) (f : Workgroup → Workgroup) : (updWg s n f).lsFull = s.lsFull := rfl
@[simp] theorem updWg_l1 (s : State) (n : Nat) (f : Workgroup → Workgroup) : (updWg s n f).l1 = s.l1 := rfl
@[simp] theorem updWg_tlb (s : State) (n : Nat) (f : Workgroup → Workgroup) : (updWg s n f).tlb = s.tlb := rfl
@[simp] theorem updWg_icache (s : State) (n : Nat) (f : Workgroup → Workgroup) : (updWg s n f).icache = s.icache := rfl
@[simp] theorem updWg_busy (s : State) (n : Nat) (f : Workgroup → Workgroup) : (updWg s n f).busy = s.busy := rfl
@[simp] theorem updWg_hostLines (s : State) (n : Nat) (f : Workgroup → Workgroup) : (updWg s n f).hostLines = s.hostLines := rfl
@[simp] theorem updWg_ports (s : State) (n : Nat) (f : Workgroup → Workgroup) : (updWg s n f).ports = s.ports := rfl
@[simp] theorem updWg_outbox (s : State) (n : Nat) (f : Workgroup → Workgroup) : (updWg s n f).outbox = s.outbox := rfl
@[simp] theorem updWg_awaits (s : State) (n : Nat) (f : Workgroup → Workgroup) : (updWg s n f).awaits = s.awaits := rfl
@[simp] theorem updWg_inbox (s : State) (n : Nat) (f : Workgroup → Workgroup) : (updWg s n f).inbox = s.inbox := rfl

/-! ### `updWarp` -/

@[simp] theorem updWarp_clk (s : State) (n i : Nat) (f : Warp → Warp) : (updWarp s n i f).clk = s.clk := rfl
@[simp] theorem updWarp_fresh (s : State) (n i : Nat) (f : Warp → Warp) : (updWarp s n i f).fresh = s.fresh := rfl
@[simp] theorem updWarp_cur (s : State) (n i : Nat) (f : Warp → Warp) : (updWarp s n i f).cur = s.cur := rfl
@[simp] theorem updWarp_agenda (s : State) (n i : Nat) (f : Warp → Warp) : (updWarp s n i f).agenda = s.agenda := rfl
@[simp] theorem updWarp_port (s : State) (n i : Nat) (f : Warp → Warp) : (updWarp s n i f).port = s.port := rfl
@[simp] theorem updWarp_rota (s : State) (n i : Nat) (f : Warp → Warp) : (updWarp s n i f).rota = s.rota := rfl
@[simp] theorem updWarp_passes (s : State) (n i : Nat) (f : Warp → Warp) : (updWarp s n i f).passes = s.passes := rfl
@[simp] theorem updWarp_stages (s : State) (n i : Nat) (f : Warp → Warp) : (updWarp s n i f).stages = s.stages := rfl
@[simp] theorem updWarp_cueNext (s : State) (n i : Nat) (f : Warp → Warp) : (updWarp s n i f).cueNext = s.cueNext := rfl
@[simp] theorem updWarp_softErrors (s : State) (n i : Nat) (f : Warp → Warp) : (updWarp s n i f).softErrors = s.softErrors := rfl
@[simp] theorem updWarp_badEntries (s : State) (n i : Nat) (f : Warp → Warp) : (updWarp s n i f).badEntries = s.badEntries := rfl
@[simp] theorem updWarp_flash (s : State) (n i : Nat) (f : Warp → Warp) : (updWarp s n i f).flash = s.flash := rfl
@[simp] theorem updWarp_part (s : State) (n i : Nat) (f : Warp → Warp) : (updWarp s n i f).part = s.part := rfl
@[simp] theorem updWarp_mregs (s : State) (n i : Nat) (f : Warp → Warp) : (updWarp s n i f).mregs = s.mregs := rfl
@[simp] theorem updWarp_wshare (s : State) (n i : Nat) (f : Warp → Warp) : (updWarp s n i f).wshare = s.wshare := rfl
@[simp] theorem updWarp_errDropped (s : State) (n i : Nat) (f : Warp → Warp) : (updWarp s n i f).errDropped = s.errDropped := rfl
@[simp] theorem updWarp_measure (s : State) (n i : Nat) (f : Warp → Warp) : (updWarp s n i f).measure = s.measure := rfl
@[simp] theorem updWarp_govTicks (s : State) (n i : Nat) (f : Warp → Warp) : (updWarp s n i f).govTicks = s.govTicks := rfl
@[simp] theorem updWarp_dieAlarm (s : State) (n i : Nat) (f : Warp → Warp) : (updWarp s n i f).dieAlarm = s.dieAlarm := rfl
@[simp] theorem updWarp_dieOff (s : State) (n i : Nat) (f : Warp → Warp) : (updWarp s n i f).dieOff = s.dieOff := rfl
@[simp] theorem updWarp_queues (s : State) (n i : Nat) (f : Warp → Warp) : (updWarp s n i f).queues = s.queues := rfl
@[simp] theorem updWarp_rounds (s : State) (n i : Nat) (f : Warp → Warp) : (updWarp s n i f).rounds = s.rounds := rfl
@[simp] theorem updWarp_nextGrid (s : State) (n i : Nat) (f : Warp → Warp) : (updWarp s n i f).nextGrid = s.nextGrid := rfl
@[simp] theorem updWarp_nextId (s : State) (n i : Nat) (f : Warp → Warp) : (updWarp s n i f).nextId = s.nextId := rfl
@[simp] theorem updWarp_grids (s : State) (n i : Nat) (f : Warp → Warp) : (updWarp s n i f).grids = s.grids := rfl
@[simp] theorem updWarp_mgmt (s : State) (n i : Nat) (f : Warp → Warp) : (updWarp s n i f).mgmt = s.mgmt := rfl
@[simp] theorem updWarp_flights (s : State) (n i : Nat) (f : Warp → Warp) : (updWarp s n i f).flights = s.flights := rfl
@[simp] theorem updWarp_cmds (s : State) (n i : Nat) (f : Warp → Warp) : (updWarp s n i f).cmds = s.cmds := rfl
@[simp] theorem updWarp_locks (s : State) (n i : Nat) (f : Warp → Warp) : (updWarp s n i f).locks = s.locks := rfl
@[simp] theorem updWarp_planes (s : State) (n i : Nat) (f : Warp → Warp) : (updWarp s n i f).planes = s.planes := rfl
@[simp] theorem updWarp_exclusion (s : State) (n i : Nat) (f : Warp → Warp) : (updWarp s n i f).exclusion = s.exclusion := rfl
@[simp] theorem updWarp_resv (s : State) (n i : Nat) (f : Warp → Warp) : (updWarp s n i f).resv = s.resv := rfl
@[simp] theorem updWarp_groups (s : State) (n i : Nat) (f : Warp → Warp) : (updWarp s n i f).groups = s.groups := rfl
@[simp] theorem updWarp_serials (s : State) (n i : Nat) (f : Warp → Warp) : (updWarp s n i f).serials = s.serials := rfl
@[simp] theorem updWarp_mem (s : State) (n i : Nat) (f : Warp → Warp) : (updWarp s n i f).mem = s.mem := rfl
@[simp] theorem updWarp_memSynd (s : State) (n i : Nat) (f : Warp → Warp) : (updWarp s n i f).memSynd = s.memSynd := rfl
@[simp] theorem updWarp_comb (s : State) (n i : Nat) (f : Warp → Warp) : (updWarp s n i f).comb = s.comb := rfl
@[simp] theorem updWarp_keyPrio (s : State) (n i : Nat) (f : Warp → Warp) : (updWarp s n i f).keyPrio = s.keyPrio := rfl
@[simp] theorem updWarp_hostMem (s : State) (n i : Nat) (f : Warp → Warp) : (updWarp s n i f).hostMem = s.hostMem := rfl
@[simp] theorem updWarp_lstore (s : State) (n i : Nat) (f : Warp → Warp) : (updWarp s n i f).lstore = s.lstore := rfl
@[simp] theorem updWarp_lsSynd (s : State) (n i : Nat) (f : Warp → Warp) : (updWarp s n i f).lsSynd = s.lsSynd := rfl
@[simp] theorem updWarp_lsFull (s : State) (n i : Nat) (f : Warp → Warp) : (updWarp s n i f).lsFull = s.lsFull := rfl
@[simp] theorem updWarp_l1 (s : State) (n i : Nat) (f : Warp → Warp) : (updWarp s n i f).l1 = s.l1 := rfl
@[simp] theorem updWarp_tlb (s : State) (n i : Nat) (f : Warp → Warp) : (updWarp s n i f).tlb = s.tlb := rfl
@[simp] theorem updWarp_icache (s : State) (n i : Nat) (f : Warp → Warp) : (updWarp s n i f).icache = s.icache := rfl
@[simp] theorem updWarp_busy (s : State) (n i : Nat) (f : Warp → Warp) : (updWarp s n i f).busy = s.busy := rfl
@[simp] theorem updWarp_hostLines (s : State) (n i : Nat) (f : Warp → Warp) : (updWarp s n i f).hostLines = s.hostLines := rfl
@[simp] theorem updWarp_ports (s : State) (n i : Nat) (f : Warp → Warp) : (updWarp s n i f).ports = s.ports := rfl
@[simp] theorem updWarp_outbox (s : State) (n i : Nat) (f : Warp → Warp) : (updWarp s n i f).outbox = s.outbox := rfl
@[simp] theorem updWarp_awaits (s : State) (n i : Nat) (f : Warp → Warp) : (updWarp s n i f).awaits = s.awaits := rfl
@[simp] theorem updWarp_inbox (s : State) (n i : Nat) (f : Warp → Warp) : (updWarp s n i f).inbox = s.inbox := rfl

/-! ### `updThread` -/

@[simp] theorem updThread_clk (s : State) (n i l : Nat) (f : Thread → Thread) : (updThread s n i l f).clk = s.clk := rfl
@[simp] theorem updThread_fresh (s : State) (n i l : Nat) (f : Thread → Thread) : (updThread s n i l f).fresh = s.fresh := rfl
@[simp] theorem updThread_cur (s : State) (n i l : Nat) (f : Thread → Thread) : (updThread s n i l f).cur = s.cur := rfl
@[simp] theorem updThread_agenda (s : State) (n i l : Nat) (f : Thread → Thread) : (updThread s n i l f).agenda = s.agenda := rfl
@[simp] theorem updThread_port (s : State) (n i l : Nat) (f : Thread → Thread) : (updThread s n i l f).port = s.port := rfl
@[simp] theorem updThread_rota (s : State) (n i l : Nat) (f : Thread → Thread) : (updThread s n i l f).rota = s.rota := rfl
@[simp] theorem updThread_passes (s : State) (n i l : Nat) (f : Thread → Thread) : (updThread s n i l f).passes = s.passes := rfl
@[simp] theorem updThread_stages (s : State) (n i l : Nat) (f : Thread → Thread) : (updThread s n i l f).stages = s.stages := rfl
@[simp] theorem updThread_cueNext (s : State) (n i l : Nat) (f : Thread → Thread) : (updThread s n i l f).cueNext = s.cueNext := rfl
@[simp] theorem updThread_softErrors (s : State) (n i l : Nat) (f : Thread → Thread) : (updThread s n i l f).softErrors = s.softErrors := rfl
@[simp] theorem updThread_badEntries (s : State) (n i l : Nat) (f : Thread → Thread) : (updThread s n i l f).badEntries = s.badEntries := rfl
@[simp] theorem updThread_flash (s : State) (n i l : Nat) (f : Thread → Thread) : (updThread s n i l f).flash = s.flash := rfl
@[simp] theorem updThread_part (s : State) (n i l : Nat) (f : Thread → Thread) : (updThread s n i l f).part = s.part := rfl
@[simp] theorem updThread_mregs (s : State) (n i l : Nat) (f : Thread → Thread) : (updThread s n i l f).mregs = s.mregs := rfl
@[simp] theorem updThread_wshare (s : State) (n i l : Nat) (f : Thread → Thread) : (updThread s n i l f).wshare = s.wshare := rfl
@[simp] theorem updThread_errDropped (s : State) (n i l : Nat) (f : Thread → Thread) : (updThread s n i l f).errDropped = s.errDropped := rfl
@[simp] theorem updThread_measure (s : State) (n i l : Nat) (f : Thread → Thread) : (updThread s n i l f).measure = s.measure := rfl
@[simp] theorem updThread_govTicks (s : State) (n i l : Nat) (f : Thread → Thread) : (updThread s n i l f).govTicks = s.govTicks := rfl
@[simp] theorem updThread_dieAlarm (s : State) (n i l : Nat) (f : Thread → Thread) : (updThread s n i l f).dieAlarm = s.dieAlarm := rfl
@[simp] theorem updThread_dieOff (s : State) (n i l : Nat) (f : Thread → Thread) : (updThread s n i l f).dieOff = s.dieOff := rfl
@[simp] theorem updThread_queues (s : State) (n i l : Nat) (f : Thread → Thread) : (updThread s n i l f).queues = s.queues := rfl
@[simp] theorem updThread_rounds (s : State) (n i l : Nat) (f : Thread → Thread) : (updThread s n i l f).rounds = s.rounds := rfl
@[simp] theorem updThread_nextGrid (s : State) (n i l : Nat) (f : Thread → Thread) : (updThread s n i l f).nextGrid = s.nextGrid := rfl
@[simp] theorem updThread_nextId (s : State) (n i l : Nat) (f : Thread → Thread) : (updThread s n i l f).nextId = s.nextId := rfl
@[simp] theorem updThread_grids (s : State) (n i l : Nat) (f : Thread → Thread) : (updThread s n i l f).grids = s.grids := rfl
@[simp] theorem updThread_mgmt (s : State) (n i l : Nat) (f : Thread → Thread) : (updThread s n i l f).mgmt = s.mgmt := rfl
@[simp] theorem updThread_flights (s : State) (n i l : Nat) (f : Thread → Thread) : (updThread s n i l f).flights = s.flights := rfl
@[simp] theorem updThread_cmds (s : State) (n i l : Nat) (f : Thread → Thread) : (updThread s n i l f).cmds = s.cmds := rfl
@[simp] theorem updThread_locks (s : State) (n i l : Nat) (f : Thread → Thread) : (updThread s n i l f).locks = s.locks := rfl
@[simp] theorem updThread_planes (s : State) (n i l : Nat) (f : Thread → Thread) : (updThread s n i l f).planes = s.planes := rfl
@[simp] theorem updThread_exclusion (s : State) (n i l : Nat) (f : Thread → Thread) : (updThread s n i l f).exclusion = s.exclusion := rfl
@[simp] theorem updThread_resv (s : State) (n i l : Nat) (f : Thread → Thread) : (updThread s n i l f).resv = s.resv := rfl
@[simp] theorem updThread_groups (s : State) (n i l : Nat) (f : Thread → Thread) : (updThread s n i l f).groups = s.groups := rfl
@[simp] theorem updThread_serials (s : State) (n i l : Nat) (f : Thread → Thread) : (updThread s n i l f).serials = s.serials := rfl
@[simp] theorem updThread_mem (s : State) (n i l : Nat) (f : Thread → Thread) : (updThread s n i l f).mem = s.mem := rfl
@[simp] theorem updThread_memSynd (s : State) (n i l : Nat) (f : Thread → Thread) : (updThread s n i l f).memSynd = s.memSynd := rfl
@[simp] theorem updThread_comb (s : State) (n i l : Nat) (f : Thread → Thread) : (updThread s n i l f).comb = s.comb := rfl
@[simp] theorem updThread_keyPrio (s : State) (n i l : Nat) (f : Thread → Thread) : (updThread s n i l f).keyPrio = s.keyPrio := rfl
@[simp] theorem updThread_hostMem (s : State) (n i l : Nat) (f : Thread → Thread) : (updThread s n i l f).hostMem = s.hostMem := rfl
@[simp] theorem updThread_lstore (s : State) (n i l : Nat) (f : Thread → Thread) : (updThread s n i l f).lstore = s.lstore := rfl
@[simp] theorem updThread_lsSynd (s : State) (n i l : Nat) (f : Thread → Thread) : (updThread s n i l f).lsSynd = s.lsSynd := rfl
@[simp] theorem updThread_lsFull (s : State) (n i l : Nat) (f : Thread → Thread) : (updThread s n i l f).lsFull = s.lsFull := rfl
@[simp] theorem updThread_l1 (s : State) (n i l : Nat) (f : Thread → Thread) : (updThread s n i l f).l1 = s.l1 := rfl
@[simp] theorem updThread_tlb (s : State) (n i l : Nat) (f : Thread → Thread) : (updThread s n i l f).tlb = s.tlb := rfl
@[simp] theorem updThread_icache (s : State) (n i l : Nat) (f : Thread → Thread) : (updThread s n i l f).icache = s.icache := rfl
@[simp] theorem updThread_busy (s : State) (n i l : Nat) (f : Thread → Thread) : (updThread s n i l f).busy = s.busy := rfl
@[simp] theorem updThread_hostLines (s : State) (n i l : Nat) (f : Thread → Thread) : (updThread s n i l f).hostLines = s.hostLines := rfl
@[simp] theorem updThread_ports (s : State) (n i l : Nat) (f : Thread → Thread) : (updThread s n i l f).ports = s.ports := rfl
@[simp] theorem updThread_outbox (s : State) (n i l : Nat) (f : Thread → Thread) : (updThread s n i l f).outbox = s.outbox := rfl
@[simp] theorem updThread_awaits (s : State) (n i l : Nat) (f : Thread → Thread) : (updThread s n i l f).awaits = s.awaits := rfl
@[simp] theorem updThread_inbox (s : State) (n i l : Nat) (f : Thread → Thread) : (updThread s n i l f).inbox = s.inbox := rfl

/-! ### `updThreads` -/

@[simp] theorem updThreads_clk (s : State) (n i : Nat) (l : List Nat) (f : Thread → Thread) : (updThreads s n i l f).clk = s.clk := rfl
@[simp] theorem updThreads_fresh (s : State) (n i : Nat) (l : List Nat) (f : Thread → Thread) : (updThreads s n i l f).fresh = s.fresh := rfl
@[simp] theorem updThreads_cur (s : State) (n i : Nat) (l : List Nat) (f : Thread → Thread) : (updThreads s n i l f).cur = s.cur := rfl
@[simp] theorem updThreads_agenda (s : State) (n i : Nat) (l : List Nat) (f : Thread → Thread) : (updThreads s n i l f).agenda = s.agenda := rfl
@[simp] theorem updThreads_port (s : State) (n i : Nat) (l : List Nat) (f : Thread → Thread) : (updThreads s n i l f).port = s.port := rfl
@[simp] theorem updThreads_rota (s : State) (n i : Nat) (l : List Nat) (f : Thread → Thread) : (updThreads s n i l f).rota = s.rota := rfl
@[simp] theorem updThreads_passes (s : State) (n i : Nat) (l : List Nat) (f : Thread → Thread) : (updThreads s n i l f).passes = s.passes := rfl
@[simp] theorem updThreads_stages (s : State) (n i : Nat) (l : List Nat) (f : Thread → Thread) : (updThreads s n i l f).stages = s.stages := rfl
@[simp] theorem updThreads_cueNext (s : State) (n i : Nat) (l : List Nat) (f : Thread → Thread) : (updThreads s n i l f).cueNext = s.cueNext := rfl
@[simp] theorem updThreads_softErrors (s : State) (n i : Nat) (l : List Nat) (f : Thread → Thread) : (updThreads s n i l f).softErrors = s.softErrors := rfl
@[simp] theorem updThreads_badEntries (s : State) (n i : Nat) (l : List Nat) (f : Thread → Thread) : (updThreads s n i l f).badEntries = s.badEntries := rfl
@[simp] theorem updThreads_flash (s : State) (n i : Nat) (l : List Nat) (f : Thread → Thread) : (updThreads s n i l f).flash = s.flash := rfl
@[simp] theorem updThreads_part (s : State) (n i : Nat) (l : List Nat) (f : Thread → Thread) : (updThreads s n i l f).part = s.part := rfl
@[simp] theorem updThreads_mregs (s : State) (n i : Nat) (l : List Nat) (f : Thread → Thread) : (updThreads s n i l f).mregs = s.mregs := rfl
@[simp] theorem updThreads_wshare (s : State) (n i : Nat) (l : List Nat) (f : Thread → Thread) : (updThreads s n i l f).wshare = s.wshare := rfl
@[simp] theorem updThreads_errDropped (s : State) (n i : Nat) (l : List Nat) (f : Thread → Thread) : (updThreads s n i l f).errDropped = s.errDropped := rfl
@[simp] theorem updThreads_measure (s : State) (n i : Nat) (l : List Nat) (f : Thread → Thread) : (updThreads s n i l f).measure = s.measure := rfl
@[simp] theorem updThreads_govTicks (s : State) (n i : Nat) (l : List Nat) (f : Thread → Thread) : (updThreads s n i l f).govTicks = s.govTicks := rfl
@[simp] theorem updThreads_dieAlarm (s : State) (n i : Nat) (l : List Nat) (f : Thread → Thread) : (updThreads s n i l f).dieAlarm = s.dieAlarm := rfl
@[simp] theorem updThreads_dieOff (s : State) (n i : Nat) (l : List Nat) (f : Thread → Thread) : (updThreads s n i l f).dieOff = s.dieOff := rfl
@[simp] theorem updThreads_queues (s : State) (n i : Nat) (l : List Nat) (f : Thread → Thread) : (updThreads s n i l f).queues = s.queues := rfl
@[simp] theorem updThreads_rounds (s : State) (n i : Nat) (l : List Nat) (f : Thread → Thread) : (updThreads s n i l f).rounds = s.rounds := rfl
@[simp] theorem updThreads_nextGrid (s : State) (n i : Nat) (l : List Nat) (f : Thread → Thread) : (updThreads s n i l f).nextGrid = s.nextGrid := rfl
@[simp] theorem updThreads_nextId (s : State) (n i : Nat) (l : List Nat) (f : Thread → Thread) : (updThreads s n i l f).nextId = s.nextId := rfl
@[simp] theorem updThreads_grids (s : State) (n i : Nat) (l : List Nat) (f : Thread → Thread) : (updThreads s n i l f).grids = s.grids := rfl
@[simp] theorem updThreads_mgmt (s : State) (n i : Nat) (l : List Nat) (f : Thread → Thread) : (updThreads s n i l f).mgmt = s.mgmt := rfl
@[simp] theorem updThreads_flights (s : State) (n i : Nat) (l : List Nat) (f : Thread → Thread) : (updThreads s n i l f).flights = s.flights := rfl
@[simp] theorem updThreads_cmds (s : State) (n i : Nat) (l : List Nat) (f : Thread → Thread) : (updThreads s n i l f).cmds = s.cmds := rfl
@[simp] theorem updThreads_locks (s : State) (n i : Nat) (l : List Nat) (f : Thread → Thread) : (updThreads s n i l f).locks = s.locks := rfl
@[simp] theorem updThreads_planes (s : State) (n i : Nat) (l : List Nat) (f : Thread → Thread) : (updThreads s n i l f).planes = s.planes := rfl
@[simp] theorem updThreads_exclusion (s : State) (n i : Nat) (l : List Nat) (f : Thread → Thread) : (updThreads s n i l f).exclusion = s.exclusion := rfl
@[simp] theorem updThreads_resv (s : State) (n i : Nat) (l : List Nat) (f : Thread → Thread) : (updThreads s n i l f).resv = s.resv := rfl
@[simp] theorem updThreads_groups (s : State) (n i : Nat) (l : List Nat) (f : Thread → Thread) : (updThreads s n i l f).groups = s.groups := rfl
@[simp] theorem updThreads_serials (s : State) (n i : Nat) (l : List Nat) (f : Thread → Thread) : (updThreads s n i l f).serials = s.serials := rfl
@[simp] theorem updThreads_mem (s : State) (n i : Nat) (l : List Nat) (f : Thread → Thread) : (updThreads s n i l f).mem = s.mem := rfl
@[simp] theorem updThreads_memSynd (s : State) (n i : Nat) (l : List Nat) (f : Thread → Thread) : (updThreads s n i l f).memSynd = s.memSynd := rfl
@[simp] theorem updThreads_comb (s : State) (n i : Nat) (l : List Nat) (f : Thread → Thread) : (updThreads s n i l f).comb = s.comb := rfl
@[simp] theorem updThreads_keyPrio (s : State) (n i : Nat) (l : List Nat) (f : Thread → Thread) : (updThreads s n i l f).keyPrio = s.keyPrio := rfl
@[simp] theorem updThreads_hostMem (s : State) (n i : Nat) (l : List Nat) (f : Thread → Thread) : (updThreads s n i l f).hostMem = s.hostMem := rfl
@[simp] theorem updThreads_lstore (s : State) (n i : Nat) (l : List Nat) (f : Thread → Thread) : (updThreads s n i l f).lstore = s.lstore := rfl
@[simp] theorem updThreads_lsSynd (s : State) (n i : Nat) (l : List Nat) (f : Thread → Thread) : (updThreads s n i l f).lsSynd = s.lsSynd := rfl
@[simp] theorem updThreads_lsFull (s : State) (n i : Nat) (l : List Nat) (f : Thread → Thread) : (updThreads s n i l f).lsFull = s.lsFull := rfl
@[simp] theorem updThreads_l1 (s : State) (n i : Nat) (l : List Nat) (f : Thread → Thread) : (updThreads s n i l f).l1 = s.l1 := rfl
@[simp] theorem updThreads_tlb (s : State) (n i : Nat) (l : List Nat) (f : Thread → Thread) : (updThreads s n i l f).tlb = s.tlb := rfl
@[simp] theorem updThreads_icache (s : State) (n i : Nat) (l : List Nat) (f : Thread → Thread) : (updThreads s n i l f).icache = s.icache := rfl
@[simp] theorem updThreads_busy (s : State) (n i : Nat) (l : List Nat) (f : Thread → Thread) : (updThreads s n i l f).busy = s.busy := rfl
@[simp] theorem updThreads_hostLines (s : State) (n i : Nat) (l : List Nat) (f : Thread → Thread) : (updThreads s n i l f).hostLines = s.hostLines := rfl
@[simp] theorem updThreads_ports (s : State) (n i : Nat) (l : List Nat) (f : Thread → Thread) : (updThreads s n i l f).ports = s.ports := rfl
@[simp] theorem updThreads_outbox (s : State) (n i : Nat) (l : List Nat) (f : Thread → Thread) : (updThreads s n i l f).outbox = s.outbox := rfl
@[simp] theorem updThreads_awaits (s : State) (n i : Nat) (l : List Nat) (f : Thread → Thread) : (updThreads s n i l f).awaits = s.awaits := rfl
@[simp] theorem updThreads_inbox (s : State) (n i : Nat) (l : List Nat) (f : Thread → Thread) : (updThreads s n i l f).inbox = s.inbox := rfl

/-! ### `updCue` -/

@[simp] theorem updCue_clk (s : State) (i : Issuer) (f : Cue → Cue) : (updCue s i f).clk = s.clk := by cases i <;> rfl
@[simp] theorem updCue_fresh (s : State) (i : Issuer) (f : Cue → Cue) : (updCue s i f).fresh = s.fresh := by cases i <;> rfl
@[simp] theorem updCue_cur (s : State) (i : Issuer) (f : Cue → Cue) : (updCue s i f).cur = s.cur := by cases i <;> rfl
@[simp] theorem updCue_agenda (s : State) (i : Issuer) (f : Cue → Cue) : (updCue s i f).agenda = s.agenda := by cases i <;> rfl
@[simp] theorem updCue_port (s : State) (i : Issuer) (f : Cue → Cue) : (updCue s i f).port = s.port := by cases i <;> rfl
@[simp] theorem updCue_rota (s : State) (i : Issuer) (f : Cue → Cue) : (updCue s i f).rota = s.rota := by cases i <;> rfl
@[simp] theorem updCue_passes (s : State) (i : Issuer) (f : Cue → Cue) : (updCue s i f).passes = s.passes := by cases i <;> rfl
@[simp] theorem updCue_stages (s : State) (i : Issuer) (f : Cue → Cue) : (updCue s i f).stages = s.stages := by cases i <;> rfl
@[simp] theorem updCue_cueNext (s : State) (i : Issuer) (f : Cue → Cue) : (updCue s i f).cueNext = s.cueNext := by cases i <;> rfl
@[simp] theorem updCue_softErrors (s : State) (i : Issuer) (f : Cue → Cue) : (updCue s i f).softErrors = s.softErrors := by cases i <;> rfl
@[simp] theorem updCue_badEntries (s : State) (i : Issuer) (f : Cue → Cue) : (updCue s i f).badEntries = s.badEntries := by cases i <;> rfl
@[simp] theorem updCue_flash (s : State) (i : Issuer) (f : Cue → Cue) : (updCue s i f).flash = s.flash := by cases i <;> rfl
@[simp] theorem updCue_part (s : State) (i : Issuer) (f : Cue → Cue) : (updCue s i f).part = s.part := by cases i <;> rfl
@[simp] theorem updCue_mregs (s : State) (i : Issuer) (f : Cue → Cue) : (updCue s i f).mregs = s.mregs := by cases i <;> rfl
@[simp] theorem updCue_wshare (s : State) (i : Issuer) (f : Cue → Cue) : (updCue s i f).wshare = s.wshare := by cases i <;> rfl
@[simp] theorem updCue_errDropped (s : State) (i : Issuer) (f : Cue → Cue) : (updCue s i f).errDropped = s.errDropped := by cases i <;> rfl
@[simp] theorem updCue_measure (s : State) (i : Issuer) (f : Cue → Cue) : (updCue s i f).measure = s.measure := by cases i <;> rfl
@[simp] theorem updCue_govTicks (s : State) (i : Issuer) (f : Cue → Cue) : (updCue s i f).govTicks = s.govTicks := by cases i <;> rfl
@[simp] theorem updCue_dieAlarm (s : State) (i : Issuer) (f : Cue → Cue) : (updCue s i f).dieAlarm = s.dieAlarm := by cases i <;> rfl
@[simp] theorem updCue_dieOff (s : State) (i : Issuer) (f : Cue → Cue) : (updCue s i f).dieOff = s.dieOff := by cases i <;> rfl
@[simp] theorem updCue_queues (s : State) (i : Issuer) (f : Cue → Cue) : (updCue s i f).queues = s.queues := by cases i <;> rfl
@[simp] theorem updCue_rounds (s : State) (i : Issuer) (f : Cue → Cue) : (updCue s i f).rounds = s.rounds := by cases i <;> rfl
@[simp] theorem updCue_nextGrid (s : State) (i : Issuer) (f : Cue → Cue) : (updCue s i f).nextGrid = s.nextGrid := by cases i <;> rfl
@[simp] theorem updCue_nextId (s : State) (i : Issuer) (f : Cue → Cue) : (updCue s i f).nextId = s.nextId := by cases i <;> rfl
@[simp] theorem updCue_grids (s : State) (i : Issuer) (f : Cue → Cue) : (updCue s i f).grids = s.grids := by cases i <;> rfl
@[simp] theorem updCue_flights (s : State) (i : Issuer) (f : Cue → Cue) : (updCue s i f).flights = s.flights := by cases i <;> rfl
@[simp] theorem updCue_cmds (s : State) (i : Issuer) (f : Cue → Cue) : (updCue s i f).cmds = s.cmds := by cases i <;> rfl
@[simp] theorem updCue_locks (s : State) (i : Issuer) (f : Cue → Cue) : (updCue s i f).locks = s.locks := by cases i <;> rfl
@[simp] theorem updCue_planes (s : State) (i : Issuer) (f : Cue → Cue) : (updCue s i f).planes = s.planes := by cases i <;> rfl
@[simp] theorem updCue_exclusion (s : State) (i : Issuer) (f : Cue → Cue) : (updCue s i f).exclusion = s.exclusion := by cases i <;> rfl
@[simp] theorem updCue_resv (s : State) (i : Issuer) (f : Cue → Cue) : (updCue s i f).resv = s.resv := by cases i <;> rfl
@[simp] theorem updCue_groups (s : State) (i : Issuer) (f : Cue → Cue) : (updCue s i f).groups = s.groups := by cases i <;> rfl
@[simp] theorem updCue_serials (s : State) (i : Issuer) (f : Cue → Cue) : (updCue s i f).serials = s.serials := by cases i <;> rfl
@[simp] theorem updCue_mem (s : State) (i : Issuer) (f : Cue → Cue) : (updCue s i f).mem = s.mem := by cases i <;> rfl
@[simp] theorem updCue_memSynd (s : State) (i : Issuer) (f : Cue → Cue) : (updCue s i f).memSynd = s.memSynd := by cases i <;> rfl
@[simp] theorem updCue_comb (s : State) (i : Issuer) (f : Cue → Cue) : (updCue s i f).comb = s.comb := by cases i <;> rfl
@[simp] theorem updCue_keyPrio (s : State) (i : Issuer) (f : Cue → Cue) : (updCue s i f).keyPrio = s.keyPrio := by cases i <;> rfl
@[simp] theorem updCue_hostMem (s : State) (i : Issuer) (f : Cue → Cue) : (updCue s i f).hostMem = s.hostMem := by cases i <;> rfl
@[simp] theorem updCue_lstore (s : State) (i : Issuer) (f : Cue → Cue) : (updCue s i f).lstore = s.lstore := by cases i <;> rfl
@[simp] theorem updCue_lsSynd (s : State) (i : Issuer) (f : Cue → Cue) : (updCue s i f).lsSynd = s.lsSynd := by cases i <;> rfl
@[simp] theorem updCue_lsFull (s : State) (i : Issuer) (f : Cue → Cue) : (updCue s i f).lsFull = s.lsFull := by cases i <;> rfl
@[simp] theorem updCue_l1 (s : State) (i : Issuer) (f : Cue → Cue) : (updCue s i f).l1 = s.l1 := by cases i <;> rfl
@[simp] theorem updCue_tlb (s : State) (i : Issuer) (f : Cue → Cue) : (updCue s i f).tlb = s.tlb := by cases i <;> rfl
@[simp] theorem updCue_icache (s : State) (i : Issuer) (f : Cue → Cue) : (updCue s i f).icache = s.icache := by cases i <;> rfl
@[simp] theorem updCue_busy (s : State) (i : Issuer) (f : Cue → Cue) : (updCue s i f).busy = s.busy := by cases i <;> rfl
@[simp] theorem updCue_hostLines (s : State) (i : Issuer) (f : Cue → Cue) : (updCue s i f).hostLines = s.hostLines := by cases i <;> rfl
@[simp] theorem updCue_ports (s : State) (i : Issuer) (f : Cue → Cue) : (updCue s i f).ports = s.ports := by cases i <;> rfl
@[simp] theorem updCue_outbox (s : State) (i : Issuer) (f : Cue → Cue) : (updCue s i f).outbox = s.outbox := by cases i <;> rfl
@[simp] theorem updCue_awaits (s : State) (i : Issuer) (f : Cue → Cue) : (updCue s i f).awaits = s.awaits := by cases i <;> rfl
@[simp] theorem updCue_inbox (s : State) (i : Issuer) (f : Cue → Cue) : (updCue s i f).inbox = s.inbox := by cases i <;> rfl

/-! ### `updCmd` -/

@[simp] theorem updCmd_clk (s : State) (n : Nat) (f : Cmd → Cmd) : (updCmd s n f).clk = s.clk := rfl
@[simp] theorem updCmd_fresh (s : State) (n : Nat) (f : Cmd → Cmd) : (updCmd s n f).fresh = s.fresh := rfl
@[simp] theorem updCmd_cur (s : State) (n : Nat) (f : Cmd → Cmd) : (updCmd s n f).cur = s.cur := rfl
@[simp] theorem updCmd_agenda (s : State) (n : Nat) (f : Cmd → Cmd) : (updCmd s n f).agenda = s.agenda := rfl
@[simp] theorem updCmd_port (s : State) (n : Nat) (f : Cmd → Cmd) : (updCmd s n f).port = s.port := rfl
@[simp] theorem updCmd_rota (s : State) (n : Nat) (f : Cmd → Cmd) : (updCmd s n f).rota = s.rota := rfl
@[simp] theorem updCmd_passes (s : State) (n : Nat) (f : Cmd → Cmd) : (updCmd s n f).passes = s.passes := rfl
@[simp] theorem updCmd_stages (s : State) (n : Nat) (f : Cmd → Cmd) : (updCmd s n f).stages = s.stages := rfl
@[simp] theorem updCmd_cueNext (s : State) (n : Nat) (f : Cmd → Cmd) : (updCmd s n f).cueNext = s.cueNext := rfl
@[simp] theorem updCmd_softErrors (s : State) (n : Nat) (f : Cmd → Cmd) : (updCmd s n f).softErrors = s.softErrors := rfl
@[simp] theorem updCmd_badEntries (s : State) (n : Nat) (f : Cmd → Cmd) : (updCmd s n f).badEntries = s.badEntries := rfl
@[simp] theorem updCmd_flash (s : State) (n : Nat) (f : Cmd → Cmd) : (updCmd s n f).flash = s.flash := rfl
@[simp] theorem updCmd_part (s : State) (n : Nat) (f : Cmd → Cmd) : (updCmd s n f).part = s.part := rfl
@[simp] theorem updCmd_mregs (s : State) (n : Nat) (f : Cmd → Cmd) : (updCmd s n f).mregs = s.mregs := rfl
@[simp] theorem updCmd_wshare (s : State) (n : Nat) (f : Cmd → Cmd) : (updCmd s n f).wshare = s.wshare := rfl
@[simp] theorem updCmd_errDropped (s : State) (n : Nat) (f : Cmd → Cmd) : (updCmd s n f).errDropped = s.errDropped := rfl
@[simp] theorem updCmd_measure (s : State) (n : Nat) (f : Cmd → Cmd) : (updCmd s n f).measure = s.measure := rfl
@[simp] theorem updCmd_govTicks (s : State) (n : Nat) (f : Cmd → Cmd) : (updCmd s n f).govTicks = s.govTicks := rfl
@[simp] theorem updCmd_dieAlarm (s : State) (n : Nat) (f : Cmd → Cmd) : (updCmd s n f).dieAlarm = s.dieAlarm := rfl
@[simp] theorem updCmd_dieOff (s : State) (n : Nat) (f : Cmd → Cmd) : (updCmd s n f).dieOff = s.dieOff := rfl
@[simp] theorem updCmd_queues (s : State) (n : Nat) (f : Cmd → Cmd) : (updCmd s n f).queues = s.queues := rfl
@[simp] theorem updCmd_rounds (s : State) (n : Nat) (f : Cmd → Cmd) : (updCmd s n f).rounds = s.rounds := rfl
@[simp] theorem updCmd_nextGrid (s : State) (n : Nat) (f : Cmd → Cmd) : (updCmd s n f).nextGrid = s.nextGrid := rfl
@[simp] theorem updCmd_nextId (s : State) (n : Nat) (f : Cmd → Cmd) : (updCmd s n f).nextId = s.nextId := rfl
@[simp] theorem updCmd_grids (s : State) (n : Nat) (f : Cmd → Cmd) : (updCmd s n f).grids = s.grids := rfl
@[simp] theorem updCmd_wgs (s : State) (n : Nat) (f : Cmd → Cmd) : (updCmd s n f).wgs = s.wgs := rfl
@[simp] theorem updCmd_mgmt (s : State) (n : Nat) (f : Cmd → Cmd) : (updCmd s n f).mgmt = s.mgmt := rfl
@[simp] theorem updCmd_flights (s : State) (n : Nat) (f : Cmd → Cmd) : (updCmd s n f).flights = s.flights := rfl
@[simp] theorem updCmd_locks (s : State) (n : Nat) (f : Cmd → Cmd) : (updCmd s n f).locks = s.locks := rfl
@[simp] theorem updCmd_planes (s : State) (n : Nat) (f : Cmd → Cmd) : (updCmd s n f).planes = s.planes := rfl
@[simp] theorem updCmd_exclusion (s : State) (n : Nat) (f : Cmd → Cmd) : (updCmd s n f).exclusion = s.exclusion := rfl
@[simp] theorem updCmd_resv (s : State) (n : Nat) (f : Cmd → Cmd) : (updCmd s n f).resv = s.resv := rfl
@[simp] theorem updCmd_groups (s : State) (n : Nat) (f : Cmd → Cmd) : (updCmd s n f).groups = s.groups := rfl
@[simp] theorem updCmd_serials (s : State) (n : Nat) (f : Cmd → Cmd) : (updCmd s n f).serials = s.serials := rfl
@[simp] theorem updCmd_mem (s : State) (n : Nat) (f : Cmd → Cmd) : (updCmd s n f).mem = s.mem := rfl
@[simp] theorem updCmd_memSynd (s : State) (n : Nat) (f : Cmd → Cmd) : (updCmd s n f).memSynd = s.memSynd := rfl
@[simp] theorem updCmd_comb (s : State) (n : Nat) (f : Cmd → Cmd) : (updCmd s n f).comb = s.comb := rfl
@[simp] theorem updCmd_keyPrio (s : State) (n : Nat) (f : Cmd → Cmd) : (updCmd s n f).keyPrio = s.keyPrio := rfl
@[simp] theorem updCmd_hostMem (s : State) (n : Nat) (f : Cmd → Cmd) : (updCmd s n f).hostMem = s.hostMem := rfl
@[simp] theorem updCmd_lstore (s : State) (n : Nat) (f : Cmd → Cmd) : (updCmd s n f).lstore = s.lstore := rfl
@[simp] theorem updCmd_lsSynd (s : State) (n : Nat) (f : Cmd → Cmd) : (updCmd s n f).lsSynd = s.lsSynd := rfl
@[simp] theorem updCmd_lsFull (s : State) (n : Nat) (f : Cmd → Cmd) : (updCmd s n f).lsFull = s.lsFull := rfl
@[simp] theorem updCmd_l1 (s : State) (n : Nat) (f : Cmd → Cmd) : (updCmd s n f).l1 = s.l1 := rfl
@[simp] theorem updCmd_tlb (s : State) (n : Nat) (f : Cmd → Cmd) : (updCmd s n f).tlb = s.tlb := rfl
@[simp] theorem updCmd_icache (s : State) (n : Nat) (f : Cmd → Cmd) : (updCmd s n f).icache = s.icache := rfl
@[simp] theorem updCmd_busy (s : State) (n : Nat) (f : Cmd → Cmd) : (updCmd s n f).busy = s.busy := rfl
@[simp] theorem updCmd_hostLines (s : State) (n : Nat) (f : Cmd → Cmd) : (updCmd s n f).hostLines = s.hostLines := rfl
@[simp] theorem updCmd_ports (s : State) (n : Nat) (f : Cmd → Cmd) : (updCmd s n f).ports = s.ports := rfl
@[simp] theorem updCmd_outbox (s : State) (n : Nat) (f : Cmd → Cmd) : (updCmd s n f).outbox = s.outbox := rfl
@[simp] theorem updCmd_awaits (s : State) (n : Nat) (f : Cmd → Cmd) : (updCmd s n f).awaits = s.awaits := rfl
@[simp] theorem updCmd_inbox (s : State) (n : Nat) (f : Cmd → Cmd) : (updCmd s n f).inbox = s.inbox := rfl

/-! ### `setMreg` -/

@[simp] theorem setMreg_clk (s : State) (a v : Nat) : (setMreg s a v).clk = s.clk := rfl
@[simp] theorem setMreg_fresh (s : State) (a v : Nat) : (setMreg s a v).fresh = s.fresh := rfl
@[simp] theorem setMreg_cur (s : State) (a v : Nat) : (setMreg s a v).cur = s.cur := rfl
@[simp] theorem setMreg_agenda (s : State) (a v : Nat) : (setMreg s a v).agenda = s.agenda := rfl
@[simp] theorem setMreg_port (s : State) (a v : Nat) : (setMreg s a v).port = s.port := rfl
@[simp] theorem setMreg_rota (s : State) (a v : Nat) : (setMreg s a v).rota = s.rota := rfl
@[simp] theorem setMreg_passes (s : State) (a v : Nat) : (setMreg s a v).passes = s.passes := rfl
@[simp] theorem setMreg_stages (s : State) (a v : Nat) : (setMreg s a v).stages = s.stages := rfl
@[simp] theorem setMreg_cueNext (s : State) (a v : Nat) : (setMreg s a v).cueNext = s.cueNext := rfl
@[simp] theorem setMreg_softErrors (s : State) (a v : Nat) : (setMreg s a v).softErrors = s.softErrors := rfl
@[simp] theorem setMreg_badEntries (s : State) (a v : Nat) : (setMreg s a v).badEntries = s.badEntries := rfl
@[simp] theorem setMreg_flash (s : State) (a v : Nat) : (setMreg s a v).flash = s.flash := rfl
@[simp] theorem setMreg_part (s : State) (a v : Nat) : (setMreg s a v).part = s.part := rfl
@[simp] theorem setMreg_wshare (s : State) (a v : Nat) : (setMreg s a v).wshare = s.wshare := rfl
@[simp] theorem setMreg_errDropped (s : State) (a v : Nat) : (setMreg s a v).errDropped = s.errDropped := rfl
@[simp] theorem setMreg_measure (s : State) (a v : Nat) : (setMreg s a v).measure = s.measure := rfl
@[simp] theorem setMreg_govTicks (s : State) (a v : Nat) : (setMreg s a v).govTicks = s.govTicks := rfl
@[simp] theorem setMreg_dieAlarm (s : State) (a v : Nat) : (setMreg s a v).dieAlarm = s.dieAlarm := rfl
@[simp] theorem setMreg_dieOff (s : State) (a v : Nat) : (setMreg s a v).dieOff = s.dieOff := rfl
@[simp] theorem setMreg_queues (s : State) (a v : Nat) : (setMreg s a v).queues = s.queues := rfl
@[simp] theorem setMreg_rounds (s : State) (a v : Nat) : (setMreg s a v).rounds = s.rounds := rfl
@[simp] theorem setMreg_nextGrid (s : State) (a v : Nat) : (setMreg s a v).nextGrid = s.nextGrid := rfl
@[simp] theorem setMreg_nextId (s : State) (a v : Nat) : (setMreg s a v).nextId = s.nextId := rfl
@[simp] theorem setMreg_grids (s : State) (a v : Nat) : (setMreg s a v).grids = s.grids := rfl
@[simp] theorem setMreg_wgs (s : State) (a v : Nat) : (setMreg s a v).wgs = s.wgs := rfl
@[simp] theorem setMreg_mgmt (s : State) (a v : Nat) : (setMreg s a v).mgmt = s.mgmt := rfl
@[simp] theorem setMreg_flights (s : State) (a v : Nat) : (setMreg s a v).flights = s.flights := rfl
@[simp] theorem setMreg_cmds (s : State) (a v : Nat) : (setMreg s a v).cmds = s.cmds := rfl
@[simp] theorem setMreg_locks (s : State) (a v : Nat) : (setMreg s a v).locks = s.locks := rfl
@[simp] theorem setMreg_planes (s : State) (a v : Nat) : (setMreg s a v).planes = s.planes := rfl
@[simp] theorem setMreg_exclusion (s : State) (a v : Nat) : (setMreg s a v).exclusion = s.exclusion := rfl
@[simp] theorem setMreg_resv (s : State) (a v : Nat) : (setMreg s a v).resv = s.resv := rfl
@[simp] theorem setMreg_groups (s : State) (a v : Nat) : (setMreg s a v).groups = s.groups := rfl
@[simp] theorem setMreg_serials (s : State) (a v : Nat) : (setMreg s a v).serials = s.serials := rfl
@[simp] theorem setMreg_mem (s : State) (a v : Nat) : (setMreg s a v).mem = s.mem := rfl
@[simp] theorem setMreg_memSynd (s : State) (a v : Nat) : (setMreg s a v).memSynd = s.memSynd := rfl
@[simp] theorem setMreg_comb (s : State) (a v : Nat) : (setMreg s a v).comb = s.comb := rfl
@[simp] theorem setMreg_keyPrio (s : State) (a v : Nat) : (setMreg s a v).keyPrio = s.keyPrio := rfl
@[simp] theorem setMreg_hostMem (s : State) (a v : Nat) : (setMreg s a v).hostMem = s.hostMem := rfl
@[simp] theorem setMreg_lstore (s : State) (a v : Nat) : (setMreg s a v).lstore = s.lstore := rfl
@[simp] theorem setMreg_lsSynd (s : State) (a v : Nat) : (setMreg s a v).lsSynd = s.lsSynd := rfl
@[simp] theorem setMreg_lsFull (s : State) (a v : Nat) : (setMreg s a v).lsFull = s.lsFull := rfl
@[simp] theorem setMreg_l1 (s : State) (a v : Nat) : (setMreg s a v).l1 = s.l1 := rfl
@[simp] theorem setMreg_tlb (s : State) (a v : Nat) : (setMreg s a v).tlb = s.tlb := rfl
@[simp] theorem setMreg_icache (s : State) (a v : Nat) : (setMreg s a v).icache = s.icache := rfl
@[simp] theorem setMreg_busy (s : State) (a v : Nat) : (setMreg s a v).busy = s.busy := rfl
@[simp] theorem setMreg_hostLines (s : State) (a v : Nat) : (setMreg s a v).hostLines = s.hostLines := rfl
@[simp] theorem setMreg_ports (s : State) (a v : Nat) : (setMreg s a v).ports = s.ports := rfl
@[simp] theorem setMreg_outbox (s : State) (a v : Nat) : (setMreg s a v).outbox = s.outbox := rfl
@[simp] theorem setMreg_awaits (s : State) (a v : Nat) : (setMreg s a v).awaits = s.awaits := rfl
@[simp] theorem setMreg_inbox (s : State) (a v : Nat) : (setMreg s a v).inbox = s.inbox := rfl

/-! ### `lsWrite` -/

@[simp] theorem lsWrite_clk (s : State) (a : Nat) (b : List Byte) : (lsWrite s a b).clk = s.clk := rfl
@[simp] theorem lsWrite_fresh (s : State) (a : Nat) (b : List Byte) : (lsWrite s a b).fresh = s.fresh := rfl
@[simp] theorem lsWrite_cur (s : State) (a : Nat) (b : List Byte) : (lsWrite s a b).cur = s.cur := rfl
@[simp] theorem lsWrite_agenda (s : State) (a : Nat) (b : List Byte) : (lsWrite s a b).agenda = s.agenda := rfl
@[simp] theorem lsWrite_port (s : State) (a : Nat) (b : List Byte) : (lsWrite s a b).port = s.port := rfl
@[simp] theorem lsWrite_rota (s : State) (a : Nat) (b : List Byte) : (lsWrite s a b).rota = s.rota := rfl
@[simp] theorem lsWrite_passes (s : State) (a : Nat) (b : List Byte) : (lsWrite s a b).passes = s.passes := rfl
@[simp] theorem lsWrite_stages (s : State) (a : Nat) (b : List Byte) : (lsWrite s a b).stages = s.stages := rfl
@[simp] theorem lsWrite_cueNext (s : State) (a : Nat) (b : List Byte) : (lsWrite s a b).cueNext = s.cueNext := rfl
@[simp] theorem lsWrite_softErrors (s : State) (a : Nat) (b : List Byte) : (lsWrite s a b).softErrors = s.softErrors := rfl
@[simp] theorem lsWrite_badEntries (s : State) (a : Nat) (b : List Byte) : (lsWrite s a b).badEntries = s.badEntries := rfl
@[simp] theorem lsWrite_flash (s : State) (a : Nat) (b : List Byte) : (lsWrite s a b).flash = s.flash := rfl
@[simp] theorem lsWrite_part (s : State) (a : Nat) (b : List Byte) : (lsWrite s a b).part = s.part := rfl
@[simp] theorem lsWrite_mregs (s : State) (a : Nat) (b : List Byte) : (lsWrite s a b).mregs = s.mregs := rfl
@[simp] theorem lsWrite_wshare (s : State) (a : Nat) (b : List Byte) : (lsWrite s a b).wshare = s.wshare := rfl
@[simp] theorem lsWrite_errDropped (s : State) (a : Nat) (b : List Byte) : (lsWrite s a b).errDropped = s.errDropped := rfl
@[simp] theorem lsWrite_measure (s : State) (a : Nat) (b : List Byte) : (lsWrite s a b).measure = s.measure := rfl
@[simp] theorem lsWrite_govTicks (s : State) (a : Nat) (b : List Byte) : (lsWrite s a b).govTicks = s.govTicks := rfl
@[simp] theorem lsWrite_dieAlarm (s : State) (a : Nat) (b : List Byte) : (lsWrite s a b).dieAlarm = s.dieAlarm := rfl
@[simp] theorem lsWrite_dieOff (s : State) (a : Nat) (b : List Byte) : (lsWrite s a b).dieOff = s.dieOff := rfl
@[simp] theorem lsWrite_queues (s : State) (a : Nat) (b : List Byte) : (lsWrite s a b).queues = s.queues := rfl
@[simp] theorem lsWrite_rounds (s : State) (a : Nat) (b : List Byte) : (lsWrite s a b).rounds = s.rounds := rfl
@[simp] theorem lsWrite_nextGrid (s : State) (a : Nat) (b : List Byte) : (lsWrite s a b).nextGrid = s.nextGrid := rfl
@[simp] theorem lsWrite_nextId (s : State) (a : Nat) (b : List Byte) : (lsWrite s a b).nextId = s.nextId := rfl
@[simp] theorem lsWrite_grids (s : State) (a : Nat) (b : List Byte) : (lsWrite s a b).grids = s.grids := rfl
@[simp] theorem lsWrite_wgs (s : State) (a : Nat) (b : List Byte) : (lsWrite s a b).wgs = s.wgs := rfl
@[simp] theorem lsWrite_mgmt (s : State) (a : Nat) (b : List Byte) : (lsWrite s a b).mgmt = s.mgmt := rfl
@[simp] theorem lsWrite_flights (s : State) (a : Nat) (b : List Byte) : (lsWrite s a b).flights = s.flights := rfl
@[simp] theorem lsWrite_cmds (s : State) (a : Nat) (b : List Byte) : (lsWrite s a b).cmds = s.cmds := rfl
@[simp] theorem lsWrite_locks (s : State) (a : Nat) (b : List Byte) : (lsWrite s a b).locks = s.locks := rfl
@[simp] theorem lsWrite_planes (s : State) (a : Nat) (b : List Byte) : (lsWrite s a b).planes = s.planes := rfl
@[simp] theorem lsWrite_exclusion (s : State) (a : Nat) (b : List Byte) : (lsWrite s a b).exclusion = s.exclusion := rfl
@[simp] theorem lsWrite_resv (s : State) (a : Nat) (b : List Byte) : (lsWrite s a b).resv = s.resv := rfl
@[simp] theorem lsWrite_groups (s : State) (a : Nat) (b : List Byte) : (lsWrite s a b).groups = s.groups := rfl
@[simp] theorem lsWrite_serials (s : State) (a : Nat) (b : List Byte) : (lsWrite s a b).serials = s.serials := rfl
@[simp] theorem lsWrite_mem (s : State) (a : Nat) (b : List Byte) : (lsWrite s a b).mem = s.mem := rfl
@[simp] theorem lsWrite_memSynd (s : State) (a : Nat) (b : List Byte) : (lsWrite s a b).memSynd = s.memSynd := rfl
@[simp] theorem lsWrite_comb (s : State) (a : Nat) (b : List Byte) : (lsWrite s a b).comb = s.comb := rfl
@[simp] theorem lsWrite_keyPrio (s : State) (a : Nat) (b : List Byte) : (lsWrite s a b).keyPrio = s.keyPrio := rfl
@[simp] theorem lsWrite_hostMem (s : State) (a : Nat) (b : List Byte) : (lsWrite s a b).hostMem = s.hostMem := rfl
@[simp] theorem lsWrite_lsFull (s : State) (a : Nat) (b : List Byte) : (lsWrite s a b).lsFull = s.lsFull := rfl
@[simp] theorem lsWrite_l1 (s : State) (a : Nat) (b : List Byte) : (lsWrite s a b).l1 = s.l1 := rfl
@[simp] theorem lsWrite_tlb (s : State) (a : Nat) (b : List Byte) : (lsWrite s a b).tlb = s.tlb := rfl
@[simp] theorem lsWrite_icache (s : State) (a : Nat) (b : List Byte) : (lsWrite s a b).icache = s.icache := rfl
@[simp] theorem lsWrite_busy (s : State) (a : Nat) (b : List Byte) : (lsWrite s a b).busy = s.busy := rfl
@[simp] theorem lsWrite_hostLines (s : State) (a : Nat) (b : List Byte) : (lsWrite s a b).hostLines = s.hostLines := rfl
@[simp] theorem lsWrite_ports (s : State) (a : Nat) (b : List Byte) : (lsWrite s a b).ports = s.ports := rfl
@[simp] theorem lsWrite_outbox (s : State) (a : Nat) (b : List Byte) : (lsWrite s a b).outbox = s.outbox := rfl
@[simp] theorem lsWrite_awaits (s : State) (a : Nat) (b : List Byte) : (lsWrite s a b).awaits = s.awaits := rfl
@[simp] theorem lsWrite_inbox (s : State) (a : Nat) (b : List Byte) : (lsWrite s a b).inbox = s.inbox := rfl

/-! ### `feSet` -/

@[simp] theorem feSet_clk (s : State) (g : Nat) (b : Bool) : (feSet s g b).clk = s.clk := rfl
@[simp] theorem feSet_fresh (s : State) (g : Nat) (b : Bool) : (feSet s g b).fresh = s.fresh := rfl
@[simp] theorem feSet_cur (s : State) (g : Nat) (b : Bool) : (feSet s g b).cur = s.cur := rfl
@[simp] theorem feSet_agenda (s : State) (g : Nat) (b : Bool) : (feSet s g b).agenda = s.agenda := rfl
@[simp] theorem feSet_port (s : State) (g : Nat) (b : Bool) : (feSet s g b).port = s.port := rfl
@[simp] theorem feSet_rota (s : State) (g : Nat) (b : Bool) : (feSet s g b).rota = s.rota := rfl
@[simp] theorem feSet_passes (s : State) (g : Nat) (b : Bool) : (feSet s g b).passes = s.passes := rfl
@[simp] theorem feSet_stages (s : State) (g : Nat) (b : Bool) : (feSet s g b).stages = s.stages := rfl
@[simp] theorem feSet_cueNext (s : State) (g : Nat) (b : Bool) : (feSet s g b).cueNext = s.cueNext := rfl
@[simp] theorem feSet_softErrors (s : State) (g : Nat) (b : Bool) : (feSet s g b).softErrors = s.softErrors := rfl
@[simp] theorem feSet_badEntries (s : State) (g : Nat) (b : Bool) : (feSet s g b).badEntries = s.badEntries := rfl
@[simp] theorem feSet_flash (s : State) (g : Nat) (b : Bool) : (feSet s g b).flash = s.flash := rfl
@[simp] theorem feSet_part (s : State) (g : Nat) (b : Bool) : (feSet s g b).part = s.part := rfl
@[simp] theorem feSet_mregs (s : State) (g : Nat) (b : Bool) : (feSet s g b).mregs = s.mregs := rfl
@[simp] theorem feSet_wshare (s : State) (g : Nat) (b : Bool) : (feSet s g b).wshare = s.wshare := rfl
@[simp] theorem feSet_errDropped (s : State) (g : Nat) (b : Bool) : (feSet s g b).errDropped = s.errDropped := rfl
@[simp] theorem feSet_measure (s : State) (g : Nat) (b : Bool) : (feSet s g b).measure = s.measure := rfl
@[simp] theorem feSet_govTicks (s : State) (g : Nat) (b : Bool) : (feSet s g b).govTicks = s.govTicks := rfl
@[simp] theorem feSet_dieAlarm (s : State) (g : Nat) (b : Bool) : (feSet s g b).dieAlarm = s.dieAlarm := rfl
@[simp] theorem feSet_dieOff (s : State) (g : Nat) (b : Bool) : (feSet s g b).dieOff = s.dieOff := rfl
@[simp] theorem feSet_queues (s : State) (g : Nat) (b : Bool) : (feSet s g b).queues = s.queues := rfl
@[simp] theorem feSet_rounds (s : State) (g : Nat) (b : Bool) : (feSet s g b).rounds = s.rounds := rfl
@[simp] theorem feSet_nextGrid (s : State) (g : Nat) (b : Bool) : (feSet s g b).nextGrid = s.nextGrid := rfl
@[simp] theorem feSet_nextId (s : State) (g : Nat) (b : Bool) : (feSet s g b).nextId = s.nextId := rfl
@[simp] theorem feSet_grids (s : State) (g : Nat) (b : Bool) : (feSet s g b).grids = s.grids := rfl
@[simp] theorem feSet_wgs (s : State) (g : Nat) (b : Bool) : (feSet s g b).wgs = s.wgs := rfl
@[simp] theorem feSet_mgmt (s : State) (g : Nat) (b : Bool) : (feSet s g b).mgmt = s.mgmt := rfl
@[simp] theorem feSet_flights (s : State) (g : Nat) (b : Bool) : (feSet s g b).flights = s.flights := rfl
@[simp] theorem feSet_cmds (s : State) (g : Nat) (b : Bool) : (feSet s g b).cmds = s.cmds := rfl
@[simp] theorem feSet_locks (s : State) (g : Nat) (b : Bool) : (feSet s g b).locks = s.locks := rfl
@[simp] theorem feSet_planes (s : State) (g : Nat) (b : Bool) : (feSet s g b).planes = s.planes := rfl
@[simp] theorem feSet_exclusion (s : State) (g : Nat) (b : Bool) : (feSet s g b).exclusion = s.exclusion := rfl
@[simp] theorem feSet_resv (s : State) (g : Nat) (b : Bool) : (feSet s g b).resv = s.resv := rfl
@[simp] theorem feSet_groups (s : State) (g : Nat) (b : Bool) : (feSet s g b).groups = s.groups := rfl
@[simp] theorem feSet_serials (s : State) (g : Nat) (b : Bool) : (feSet s g b).serials = s.serials := rfl
@[simp] theorem feSet_mem (s : State) (g : Nat) (b : Bool) : (feSet s g b).mem = s.mem := rfl
@[simp] theorem feSet_memSynd (s : State) (g : Nat) (b : Bool) : (feSet s g b).memSynd = s.memSynd := rfl
@[simp] theorem feSet_comb (s : State) (g : Nat) (b : Bool) : (feSet s g b).comb = s.comb := rfl
@[simp] theorem feSet_keyPrio (s : State) (g : Nat) (b : Bool) : (feSet s g b).keyPrio = s.keyPrio := rfl
@[simp] theorem feSet_hostMem (s : State) (g : Nat) (b : Bool) : (feSet s g b).hostMem = s.hostMem := rfl
@[simp] theorem feSet_lstore (s : State) (g : Nat) (b : Bool) : (feSet s g b).lstore = s.lstore := rfl
@[simp] theorem feSet_lsSynd (s : State) (g : Nat) (b : Bool) : (feSet s g b).lsSynd = s.lsSynd := rfl
@[simp] theorem feSet_l1 (s : State) (g : Nat) (b : Bool) : (feSet s g b).l1 = s.l1 := rfl
@[simp] theorem feSet_tlb (s : State) (g : Nat) (b : Bool) : (feSet s g b).tlb = s.tlb := rfl
@[simp] theorem feSet_icache (s : State) (g : Nat) (b : Bool) : (feSet s g b).icache = s.icache := rfl
@[simp] theorem feSet_busy (s : State) (g : Nat) (b : Bool) : (feSet s g b).busy = s.busy := rfl
@[simp] theorem feSet_hostLines (s : State) (g : Nat) (b : Bool) : (feSet s g b).hostLines = s.hostLines := rfl
@[simp] theorem feSet_ports (s : State) (g : Nat) (b : Bool) : (feSet s g b).ports = s.ports := rfl
@[simp] theorem feSet_outbox (s : State) (g : Nat) (b : Bool) : (feSet s g b).outbox = s.outbox := rfl
@[simp] theorem feSet_awaits (s : State) (g : Nat) (b : Bool) : (feSet s g b).awaits = s.awaits := rfl
@[simp] theorem feSet_inbox (s : State) (g : Nat) (b : Bool) : (feSet s g b).inbox = s.inbox := rfl

end Sys2Proof.Machine
end

