-- ==== Sys2Proof/Laws/Cue.lean ====
section
/-! SUPPORT. Cue threads: what the issue of a cue instruction answers, and reads after updates. -/

namespace Sys2Proof.Machine

/-- A cue instruction that is ready and whose guard passes answers with its effect on the state after issue. -/
theorem cueIssue_ready {op : COp} {s : State} {c : CCtx} (hc : cueCtx s op.i = some c) (hr : CueReady op s c = true) (hp : c.pass = true) :
    cueIssue op s = .next (op.eff c (cueIssued op c s)) := by
  simp only [CueReady, Bool.and_eq_true, Bool.not_eq_true', Option.isNone_iff_eq_none, hp, Bool.and_true, Bool.true_and, if_true] at hr
  obtain ⟨⟨⟨⟨h1, h2⟩, h3⟩, h4⟩, h5⟩ := hr
  simp [cueIssue, hc, h1, h2, h3, h4, h5, hp]

/-- One whose guard fails only issues. -/
theorem cueIssue_failed {op : COp} {s : State} {c : CCtx} (hc : cueCtx s op.i = some c) (hr : CueReady op s c = true) (hp : c.pass = false) :
    cueIssue op s = .next (cueIssued op c s) := by
  simp only [CueReady, Bool.and_eq_true, Bool.not_eq_true', Option.isNone_iff_eq_none, hp, Bool.and_false, Bool.false_and, Bool.false_or, Bool.not_false] at hr
  obtain ⟨⟨⟨⟨h1, h2⟩, h3⟩, h4⟩, -⟩ := hr
  simp only [Bool.false_eq_true, if_false] at h3
  simp [cueIssue, hc, h1, h2, h3, h4, hp]

/-- The instruction that an operation of the table stands for, and its issue. -/
theorem exec_of_cueOp {i : Instr} {op : COp} {s : State} (h : cueOp i = some op) : exec i s = cueIssue op s := by
  cases i <;> first | (cases h; done) | (cases h; rfl) | skip
  rename_i b w
  cases b <;> cases h
  rfl

theorem findWg_updWg (s : State) (n : Nat) (f : Workgroup → Workgroup) (hf : ∀ k, (f k).id = k.id) : findWg (updWg s n f) n = (findWg s n).map f := by
  simp only [findWg, updWg]
  generalize s.wgs = l
  induction l with
  | nil => rfl
  | cons k l ih =>
    by_cases h : k.id = n
    · simp [h, hf]
    · simp only [List.map_cons, if_neg h, List.find?_cons]
      have : (k.id == n) = false := by simpa using h
      simp only [this, ih]

end Sys2Proof.Machine
end

