-- ==== Sys2Proof/Laws/Encoding.lean ====
section
/-! SUPPORT. The words of each layout give their fields back (02 R33 to R44), and the bytes of one or two words decode to their instruction. -/

namespace Sys2Proof

open Machine

/-! ### Fields of concatenated bits -/

theorem wordOf_bytesOf (w : Word) : wordOf (fld w 7 0) (fld w 15 8) (fld w 23 16) (fld w 31 24) = w := by
  apply BitVec.eq_of_getLsbD_eq
  intro i hi
  simp only [wordOf, fld, BitVec.getLsbD_append, BitVec.getLsbD_extractLsb']
  by_cases h0 : i < 8
  · simp [h0]
  · by_cases h1 : i < 16
    · have : i - 8 < 8 := by omega
      simp [h0, this]
      congr 1; omega
    · by_cases h2 : i < 24
      · have a : ¬ i - 8 < 8 := by omega
        have b : i - 8 - 8 < 8 := by omega
        simp [h0, a, b]
        congr 1; omega
      · have a : ¬ i - 8 < 8 := by omega
        have b : ¬ i - 8 - 8 < 8 := by omega
        have c : i - 8 - 8 - 8 < 8 := by omega
        simp [h0, a, b, c]
        congr 1; omega

/-- One word without a second one. -/
theorem decode_one (st : Stream) (w : Word) (rest : List Byte) (h : w.getLsbD 31 = false) :
    decode st (bytesOf w ++ rest) = .ok (decodeWords st w none, rest) := by
  simp only [bytesOf, List.cons_append, List.nil_append, decode, wordOf_bytesOf, h, Bool.false_and, Bool.false_eq_true, if_false]

/-- A word and its second one. -/
theorem decode_two (st : Stream) (w w' : Word) (rest : List Byte) (h : w.getLsbD 31 = true) (hl : opcodeLegal st w = true) :
    decode st (bytesOf w ++ (bytesOf w' ++ rest)) = .ok (decodeWords st w (some w'), rest) := by
  simp only [bytesOf, List.cons_append, List.nil_append, decode, wordOf_bytesOf, h, hl, Bool.and_self, if_true]

/-! ### The fields of each word -/

theorem flds_W0 (l : BitVec 1) (op : BitVec 7) (d : BitVec 7) (a : BitVec 7) (b : BitVec 7) (pg : BitVec 3) :
    fld (w := 32) (l ++ op ++ d ++ a ++ b ++ pg) 31 31 = l
      ∧ fld (w := 32) (l ++ op ++ d ++ a ++ b ++ pg) 30 24 = op
      ∧ fld (w := 32) (l ++ op ++ d ++ a ++ b ++ pg) 23 17 = d
      ∧ fld (w := 32) (l ++ op ++ d ++ a ++ b ++ pg) 16 10 = a
      ∧ fld (w := 32) (l ++ op ++ d ++ a ++ b ++ pg) 9 3 = b
      ∧ fld (w := 32) (l ++ op ++ d ++ a ++ b ++ pg) 2 0 = pg := by
  refine ⟨by simp only [fld]; rw [BitVec.extractLsb'_append_eq_of_le (by omega), BitVec.extractLsb'_append_eq_of_le (by omega), BitVec.extractLsb'_append_eq_of_le (by omega), BitVec.extractLsb'_append_eq_of_le (by omega), BitVec.extractLsb'_append_eq_of_le (by omega)]; simp,
    by simp only [fld]; rw [BitVec.extractLsb'_append_eq_of_le (by omega), BitVec.extractLsb'_append_eq_of_le (by omega), BitVec.extractLsb'_append_eq_of_le (by omega), BitVec.extractLsb'_append_eq_of_le (by omega), BitVec.extractLsb'_append_eq_of_add_le (by omega)]; simp,
    by simp only [fld]; rw [BitVec.extractLsb'_append_eq_of_le (by omega), BitVec.extractLsb'_append_eq_of_le (by omega), BitVec.extractLsb'_append_eq_of_le (by omega), BitVec.extractLsb'_append_eq_of_add_le (by omega)]; simp,
    by simp only [fld]; rw [BitVec.extractLsb'_append_eq_of_le (by omega), BitVec.extractLsb'_append_eq_of_le (by omega), BitVec.extractLsb'_append_eq_of_add_le (by omega)]; simp,
    by simp only [fld]; rw [BitVec.extractLsb'_append_eq_of_le (by omega), BitVec.extractLsb'_append_eq_of_add_le (by omega)]; simp,
    by simp only [fld]; rw [BitVec.extractLsb'_append_eq_of_add_le (by omega)]; simp⟩

theorem flds_Q0 (l : BitVec 1) (op : BitVec 7) (d : BitVec 6) (a : BitVec 6) (b : BitVec 6) (g : BitVec 3) (mod : BitVec 3) :
    fld (w := 32) (l ++ op ++ d ++ a ++ b ++ g ++ mod) 31 31 = l
      ∧ fld (w := 32) (l ++ op ++ d ++ a ++ b ++ g ++ mod) 30 24 = op
      ∧ fld (w := 32) (l ++ op ++ d ++ a ++ b ++ g ++ mod) 23 18 = d
      ∧ fld (w := 32) (l ++ op ++ d ++ a ++ b ++ g ++ mod) 17 12 = a
      ∧ fld (w := 32) (l ++ op ++ d ++ a ++ b ++ g ++ mod) 11 6 = b
      ∧ fld (w := 32) (l ++ op ++ d ++ a ++ b ++ g ++ mod) 5 3 = g
      ∧ fld (w := 32) (l ++ op ++ d ++ a ++ b ++ g ++ mod) 2 0 = mod := by
  refine ⟨by simp only [fld]; rw [BitVec.extractLsb'_append_eq_of_le (by omega), BitVec.extractLsb'_append_eq_of_le (by omega), BitVec.extractLsb'_append_eq_of_le (by omega), BitVec.extractLsb'_append_eq_of_le (by omega), BitVec.extractLsb'_append_eq_of_le (by omega), BitVec.extractLsb'_append_eq_of_le (by omega)]; simp,
    by simp only [fld]; rw [BitVec.extractLsb'_append_eq_of_le (by omega), BitVec.extractLsb'_append_eq_of_le (by omega), BitVec.extractLsb'_append_eq_of_le (by omega), BitVec.extractLsb'_append_eq_of_le (by omega), BitVec.extractLsb'_append_eq_of_le (by omega), BitVec.extractLsb'_append_eq_of_add_le (by omega)]; simp,
    by simp only [fld]; rw [BitVec.extractLsb'_append_eq_of_le (by omega), BitVec.extractLsb'_append_eq_of_le (by omega), BitVec.extractLsb'_append_eq_of_le (by omega), BitVec.extractLsb'_append_eq_of_le (by omega), BitVec.extractLsb'_append_eq_of_add_le (by omega)]; simp,
    by simp only [fld]; rw [BitVec.extractLsb'_append_eq_of_le (by omega), BitVec.extractLsb'_append_eq_of_le (by omega), BitVec.extractLsb'_append_eq_of_le (by omega), BitVec.extractLsb'_append_eq_of_add_le (by omega)]; simp,
    by simp only [fld]; rw [BitVec.extractLsb'_append_eq_of_le (by omega), BitVec.extractLsb'_append_eq_of_le (by omega), BitVec.extractLsb'_append_eq_of_add_le (by omega)]; simp,
    by simp only [fld]; rw [BitVec.extractLsb'_append_eq_of_le (by omega), BitVec.extractLsb'_append_eq_of_add_le (by omega)]; simp,
    by simp only [fld]; rw [BitVec.extractLsb'_append_eq_of_add_le (by omega)]; simp⟩

theorem flds_V1 (c : BitVec 7) (pa : BitVec 3) (pb : BitVec 3) (pc : BitVec 3) (look : BitVec 4) (pn : BitVec 1) (mod : BitVec 3) (ps : BitVec 1) (param : BitVec 7) :
    fld (w := 32) (c ++ pa ++ pb ++ pc ++ look ++ pn ++ mod ++ ps ++ param) 31 25 = c
      ∧ fld (w := 32) (c ++ pa ++ pb ++ pc ++ look ++ pn ++ mod ++ ps ++ param) 24 22 = pa
      ∧ fld (w := 32) (c ++ pa ++ pb ++ pc ++ look ++ pn ++ mod ++ ps ++ param) 21 19 = pb
      ∧ fld (w := 32) (c ++ pa ++ pb ++ pc ++ look ++ pn ++ mod ++ ps ++ param) 18 16 = pc
      ∧ fld (w := 32) (c ++ pa ++ pb ++ pc ++ look ++ pn ++ mod ++ ps ++ param) 15 12 = look
      ∧ fld (w := 32) (c ++ pa ++ pb ++ pc ++ look ++ pn ++ mod ++ ps ++ param) 11 11 = pn
      ∧ fld (w := 32) (c ++ pa ++ pb ++ pc ++ look ++ pn ++ mod ++ ps ++ param) 10 8 = mod
      ∧ fld (w := 32) (c ++ pa ++ pb ++ pc ++ look ++ pn ++ mod ++ ps ++ param) 7 7 = ps
      ∧ fld (w := 32) (c ++ pa ++ pb ++ pc ++ look ++ pn ++ mod ++ ps ++ param) 6 0 = param := by
  refine ⟨by simp only [fld]; rw [BitVec.extractLsb'_append_eq_of_le (by omega), BitVec.extractLsb'_append_eq_of_le (by omega), BitVec.extractLsb'_append_eq_of_le (by omega), BitVec.extractLsb'_append_eq_of_le (by omega), BitVec.extractLsb'_append_eq_of_le (by omega), BitVec.extractLsb'_append_eq_of_le (by omega), BitVec.extractLsb'_append_eq_of_le (by omega), BitVec.extractLsb'_append_eq_of_le (by omega)]; simp,
    by simp only [fld]; rw [BitVec.extractLsb'_append_eq_of_le (by omega), BitVec.extractLsb'_append_eq_of_le (by omega), BitVec.extractLsb'_append_eq_of_le (by omega), BitVec.extractLsb'_append_eq_of_le (by omega), BitVec.extractLsb'_append_eq_of_le (by omega), BitVec.extractLsb'_append_eq_of_le (by omega), BitVec.extractLsb'_append_eq_of_le (by omega), BitVec.extractLsb'_append_eq_of_add_le (by omega)]; simp,
    by simp only [fld]; rw [BitVec.extractLsb'_append_eq_of_le (by omega), BitVec.extractLsb'_append_eq_of_le (by omega), BitVec.extractLsb'_append_eq_of_le (by omega), BitVec.extractLsb'_append_eq_of_le (by omega), BitVec.extractLsb'_append_eq_of_le (by omega), BitVec.extractLsb'_append_eq_of_le (by omega), BitVec.extractLsb'_append_eq_of_add_le (by omega)]; simp,
    by simp only [fld]; rw [BitVec.extractLsb'_append_eq_of_le (by omega), BitVec.extractLsb'_append_eq_of_le (by omega), BitVec.extractLsb'_append_eq_of_le (by omega), BitVec.extractLsb'_append_eq_of_le (by omega), BitVec.extractLsb'_append_eq_of_le (by omega), BitVec.extractLsb'_append_eq_of_add_le (by omega)]; simp,
    by simp only [fld]; rw [BitVec.extractLsb'_append_eq_of_le (by omega), BitVec.extractLsb'_append_eq_of_le (by omega), BitVec.extractLsb'_append_eq_of_le (by omega), BitVec.extractLsb'_append_eq_of_le (by omega), BitVec.extractLsb'_append_eq_of_add_le (by omega)]; simp,
    by simp only [fld]; rw [BitVec.extractLsb'_append_eq_of_le (by omega), BitVec.extractLsb'_append_eq_of_le (by omega), BitVec.extractLsb'_append_eq_of_le (by omega), BitVec.extractLsb'_append_eq_of_add_le (by omega)]; simp,
    by simp only [fld]; rw [BitVec.extractLsb'_append_eq_of_le (by omega), BitVec.extractLsb'_append_eq_of_le (by omega), BitVec.extractLsb'_append_eq_of_add_le (by omega)]; simp,
    by simp only [fld]; rw [BitVec.extractLsb'_append_eq_of_le (by omega), BitVec.extractLsb'_append_eq_of_add_le (by omega)]; simp,
    by simp only [fld]; rw [BitVec.extractLsb'_append_eq_of_add_le (by omega)]; simp⟩

theorem flds_M1 (look : BitVec 4) (obs : BitVec 7) (ordr : BitVec 3) (wid : BitVec 3) (fe : BitVec 2) (sx : BitVec 1) (ofs : BitVec 12) :
    fld (w := 32) (look ++ obs ++ ordr ++ wid ++ fe ++ sx ++ ofs) 31 28 = look
      ∧ fld (w := 32) (look ++ obs ++ ordr ++ wid ++ fe ++ sx ++ ofs) 27 21 = obs
      ∧ fld (w := 32) (look ++ obs ++ ordr ++ wid ++ fe ++ sx ++ ofs) 20 18 = ordr
      ∧ fld (w := 32) (look ++ obs ++ ordr ++ wid ++ fe ++ sx ++ ofs) 17 15 = wid
      ∧ fld (w := 32) (look ++ obs ++ ordr ++ wid ++ fe ++ sx ++ ofs) 14 13 = fe
      ∧ fld (w := 32) (look ++ obs ++ ordr ++ wid ++ fe ++ sx ++ ofs) 12 12 = sx
      ∧ fld (w := 32) (look ++ obs ++ ordr ++ wid ++ fe ++ sx ++ ofs) 11 0 = ofs := by
  refine ⟨by simp only [fld]; rw [BitVec.extractLsb'_append_eq_of_le (by omega), BitVec.extractLsb'_append_eq_of_le (by omega), BitVec.extractLsb'_append_eq_of_le (by omega), BitVec.extractLsb'_append_eq_of_le (by omega), BitVec.extractLsb'_append_eq_of_le (by omega), BitVec.extractLsb'_append_eq_of_le (by omega)]; simp,
    by simp only [fld]; rw [BitVec.extractLsb'_append_eq_of_le (by omega), BitVec.extractLsb'_append_eq_of_le (by omega), BitVec.extractLsb'_append_eq_of_le (by omega), BitVec.extractLsb'_append_eq_of_le (by omega), BitVec.extractLsb'_append_eq_of_le (by omega), BitVec.extractLsb'_append_eq_of_add_le (by omega)]; simp,
    by simp only [fld]; rw [BitVec.extractLsb'_append_eq_of_le (by omega), BitVec.extractLsb'_append_eq_of_le (by omega), BitVec.extractLsb'_append_eq_of_le (by omega), BitVec.extractLsb'_append_eq_of_le (by omega), BitVec.extractLsb'_append_eq_of_add_le (by omega)]; simp,
    by simp only [fld]; rw [BitVec.extractLsb'_append_eq_of_le (by omega), BitVec.extractLsb'_append_eq_of_le (by omega), BitVec.extractLsb'_append_eq_of_le (by omega), BitVec.extractLsb'_append_eq_of_add_le (by omega)]; simp,
    by simp only [fld]; rw [BitVec.extractLsb'_append_eq_of_le (by omega), BitVec.extractLsb'_append_eq_of_le (by omega), BitVec.extractLsb'_append_eq_of_add_le (by omega)]; simp,
    by simp only [fld]; rw [BitVec.extractLsb'_append_eq_of_le (by omega), BitVec.extractLsb'_append_eq_of_add_le (by omega)]; simp,
    by simp only [fld]; rw [BitVec.extractLsb'_append_eq_of_add_le (by omega)]; simp⟩

theorem flds_A1 (look : BitVec 4) (obs : BitVec 7) (ordr : BitVec 3) (wid : BitVec 3) (aop : BitVec 6) (c : BitVec 7) (rsv : BitVec 2) :
    fld (w := 32) (look ++ obs ++ ordr ++ wid ++ aop ++ c ++ rsv) 31 28 = look
      ∧ fld (w := 32) (look ++ obs ++ ordr ++ wid ++ aop ++ c ++ rsv) 27 21 = obs
      ∧ fld (w := 32) (look ++ obs ++ ordr ++ wid ++ aop ++ c ++ rsv) 20 18 = ordr
      ∧ fld (w := 32) (look ++ obs ++ ordr ++ wid ++ aop ++ c ++ rsv) 17 15 = wid
      ∧ fld (w := 32) (look ++ obs ++ ordr ++ wid ++ aop ++ c ++ rsv) 14 9 = aop
      ∧ fld (w := 32) (look ++ obs ++ ordr ++ wid ++ aop ++ c ++ rsv) 8 2 = c
      ∧ fld (w := 32) (look ++ obs ++ ordr ++ wid ++ aop ++ c ++ rsv) 1 0 = rsv := by
  refine ⟨by simp only [fld]; rw [BitVec.extractLsb'_append_eq_of_le (by omega), BitVec.extractLsb'_append_eq_of_le (by omega), BitVec.extractLsb'_append_eq_of_le (by omega), BitVec.extractLsb'_append_eq_of_le (by omega), BitVec.extractLsb'_append_eq_of_le (by omega), BitVec.extractLsb'_append_eq_of_le (by omega)]; simp,
    by simp only [fld]; rw [BitVec.extractLsb'_append_eq_of_le (by omega), BitVec.extractLsb'_append_eq_of_le (by omega), BitVec.extractLsb'_append_eq_of_le (by omega), BitVec.extractLsb'_append_eq_of_le (by omega), BitVec.extractLsb'_append_eq_of_le (by omega), BitVec.extractLsb'_append_eq_of_add_le (by omega)]; simp,
    by simp only [fld]; rw [BitVec.extractLsb'_append_eq_of_le (by omega), BitVec.extractLsb'_append_eq_of_le (by omega), BitVec.extractLsb'_append_eq_of_le (by omega), BitVec.extractLsb'_append_eq_of_le (by omega), BitVec.extractLsb'_append_eq_of_add_le (by omega)]; simp,
    by simp only [fld]; rw [BitVec.extractLsb'_append_eq_of_le (by omega), BitVec.extractLsb'_append_eq_of_le (by omega), BitVec.extractLsb'_append_eq_of_le (by omega), BitVec.extractLsb'_append_eq_of_add_le (by omega)]; simp,
    by simp only [fld]; rw [BitVec.extractLsb'_append_eq_of_le (by omega), BitVec.extractLsb'_append_eq_of_le (by omega), BitVec.extractLsb'_append_eq_of_add_le (by omega)]; simp,
    by simp only [fld]; rw [BitVec.extractLsb'_append_eq_of_le (by omega), BitVec.extractLsb'_append_eq_of_add_le (by omega)]; simp,
    by simp only [fld]; rw [BitVec.extractLsb'_append_eq_of_add_le (by omega)]; simp⟩

theorem flds_T1 (look : BitVec 4) (tr : BitVec 4) (row0 : BitVec 8) (col0 : BitVec 8) (tok : BitVec 3) (rsv : BitVec 5) :
    fld (w := 32) (look ++ tr ++ row0 ++ col0 ++ tok ++ rsv) 31 28 = look
      ∧ fld (w := 32) (look ++ tr ++ row0 ++ col0 ++ tok ++ rsv) 27 24 = tr
      ∧ fld (w := 32) (look ++ tr ++ row0 ++ col0 ++ tok ++ rsv) 23 16 = row0
      ∧ fld (w := 32) (look ++ tr ++ row0 ++ col0 ++ tok ++ rsv) 15 8 = col0
      ∧ fld (w := 32) (look ++ tr ++ row0 ++ col0 ++ tok ++ rsv) 7 5 = tok
      ∧ fld (w := 32) (look ++ tr ++ row0 ++ col0 ++ tok ++ rsv) 4 0 = rsv := by
  refine ⟨by simp only [fld]; rw [BitVec.extractLsb'_append_eq_of_le (by omega), BitVec.extractLsb'_append_eq_of_le (by omega), BitVec.extractLsb'_append_eq_of_le (by omega), BitVec.extractLsb'_append_eq_of_le (by omega), BitVec.extractLsb'_append_eq_of_le (by omega)]; simp,
    by simp only [fld]; rw [BitVec.extractLsb'_append_eq_of_le (by omega), BitVec.extractLsb'_append_eq_of_le (by omega), BitVec.extractLsb'_append_eq_of_le (by omega), BitVec.extractLsb'_append_eq_of_le (by omega), BitVec.extractLsb'_append_eq_of_add_le (by omega)]; simp,
    by simp only [fld]; rw [BitVec.extractLsb'_append_eq_of_le (by omega), BitVec.extractLsb'_append_eq_of_le (by omega), BitVec.extractLsb'_append_eq_of_le (by omega), BitVec.extractLsb'_append_eq_of_add_le (by omega)]; simp,
    by simp only [fld]; rw [BitVec.extractLsb'_append_eq_of_le (by omega), BitVec.extractLsb'_append_eq_of_le (by omega), BitVec.extractLsb'_append_eq_of_add_le (by omega)]; simp,
    by simp only [fld]; rw [BitVec.extractLsb'_append_eq_of_le (by omega), BitVec.extractLsb'_append_eq_of_add_le (by omega)]; simp,
    by simp only [fld]; rw [BitVec.extractLsb'_append_eq_of_add_le (by omega)]; simp⟩

theorem flds_QM1 (look : BitVec 4) (obs : BitVec 7) (ordr : BitVec 3) (wid : BitVec 3) (rsv : BitVec 3) (ofs : BitVec 12) :
    fld (w := 32) (look ++ obs ++ ordr ++ wid ++ rsv ++ ofs) 31 28 = look
      ∧ fld (w := 32) (look ++ obs ++ ordr ++ wid ++ rsv ++ ofs) 27 21 = obs
      ∧ fld (w := 32) (look ++ obs ++ ordr ++ wid ++ rsv ++ ofs) 20 18 = ordr
      ∧ fld (w := 32) (look ++ obs ++ ordr ++ wid ++ rsv ++ ofs) 17 15 = wid
      ∧ fld (w := 32) (look ++ obs ++ ordr ++ wid ++ rsv ++ ofs) 14 12 = rsv
      ∧ fld (w := 32) (look ++ obs ++ ordr ++ wid ++ rsv ++ ofs) 11 0 = ofs := by
  refine ⟨by simp only [fld]; rw [BitVec.extractLsb'_append_eq_of_le (by omega), BitVec.extractLsb'_append_eq_of_le (by omega), BitVec.extractLsb'_append_eq_of_le (by omega), BitVec.extractLsb'_append_eq_of_le (by omega), BitVec.extractLsb'_append_eq_of_le (by omega)]; simp,
    by simp only [fld]; rw [BitVec.extractLsb'_append_eq_of_le (by omega), BitVec.extractLsb'_append_eq_of_le (by omega), BitVec.extractLsb'_append_eq_of_le (by omega), BitVec.extractLsb'_append_eq_of_le (by omega), BitVec.extractLsb'_append_eq_of_add_le (by omega)]; simp,
    by simp only [fld]; rw [BitVec.extractLsb'_append_eq_of_le (by omega), BitVec.extractLsb'_append_eq_of_le (by omega), BitVec.extractLsb'_append_eq_of_le (by omega), BitVec.extractLsb'_append_eq_of_add_le (by omega)]; simp,
    by simp only [fld]; rw [BitVec.extractLsb'_append_eq_of_le (by omega), BitVec.extractLsb'_append_eq_of_le (by omega), BitVec.extractLsb'_append_eq_of_add_le (by omega)]; simp,
    by simp only [fld]; rw [BitVec.extractLsb'_append_eq_of_le (by omega), BitVec.extractLsb'_append_eq_of_add_le (by omega)]; simp,
    by simp only [fld]; rw [BitVec.extractLsb'_append_eq_of_add_le (by omega)]; simp⟩

theorem flds_QE1 (tok : BitVec 3) (fsl : BitVec 3) (ta : BitVec 4) (tb : BitVec 4) (ac : BitVec 3) (opt : BitVec 15) :
    fld (w := 32) (tok ++ fsl ++ ta ++ tb ++ ac ++ opt) 31 29 = tok
      ∧ fld (w := 32) (tok ++ fsl ++ ta ++ tb ++ ac ++ opt) 28 26 = fsl
      ∧ fld (w := 32) (tok ++ fsl ++ ta ++ tb ++ ac ++ opt) 25 22 = ta
      ∧ fld (w := 32) (tok ++ fsl ++ ta ++ tb ++ ac ++ opt) 21 18 = tb
      ∧ fld (w := 32) (tok ++ fsl ++ ta ++ tb ++ ac ++ opt) 17 15 = ac
      ∧ fld (w := 32) (tok ++ fsl ++ ta ++ tb ++ ac ++ opt) 14 0 = opt := by
  refine ⟨by simp only [fld]; rw [BitVec.extractLsb'_append_eq_of_le (by omega), BitVec.extractLsb'_append_eq_of_le (by omega), BitVec.extractLsb'_append_eq_of_le (by omega), BitVec.extractLsb'_append_eq_of_le (by omega), BitVec.extractLsb'_append_eq_of_le (by omega)]; simp,
    by simp only [fld]; rw [BitVec.extractLsb'_append_eq_of_le (by omega), BitVec.extractLsb'_append_eq_of_le (by omega), BitVec.extractLsb'_append_eq_of_le (by omega), BitVec.extractLsb'_append_eq_of_le (by omega), BitVec.extractLsb'_append_eq_of_add_le (by omega)]; simp,
    by simp only [fld]; rw [BitVec.extractLsb'_append_eq_of_le (by omega), BitVec.extractLsb'_append_eq_of_le (by omega), BitVec.extractLsb'_append_eq_of_le (by omega), BitVec.extractLsb'_append_eq_of_add_le (by omega)]; simp,
    by simp only [fld]; rw [BitVec.extractLsb'_append_eq_of_le (by omega), BitVec.extractLsb'_append_eq_of_le (by omega), BitVec.extractLsb'_append_eq_of_add_le (by omega)]; simp,
    by simp only [fld]; rw [BitVec.extractLsb'_append_eq_of_le (by omega), BitVec.extractLsb'_append_eq_of_add_le (by omega)]; simp,
    by simp only [fld]; rw [BitVec.extractLsb'_append_eq_of_add_le (by omega)]; simp⟩

/-! ### Each layout -/

theorem toNat_fld {w : Nat} (x : BitVec w) (hi lo : Nat) : (fld x hi lo).toNat = fldN x hi lo := by
  simp [fld, fldN, BitVec.extractLsb'_toNat]

theorem getLsbD_31 {w : Word} {b : Bool} (h : fld w 31 31 = BitVec.ofBool b) : w.getLsbD 31 = b := by
  have : (fld w 31 31).getLsbD 0 = b := by rw [h]; cases b <;> rfl
  simpa [fld] using this

/-- An instruction of the V layout is what the decoder reads from its bytes. -/
theorem decode_V (k : VF → Instr) (op : BitVec 7) (hd : ∀ w0 w1, fldN w0 30 24 = op.toNat → warpDecode w0 w1 = some (k (decV w0 w1)))
    (f : VF) (he : encode (k f) = encV op f) (hc : f.canon = true) (rest : List Byte) : decode .warp (encodeBytes (k f) ++ rest) = .ok (k f, rest) := by
  obtain ⟨w, hw⟩ : ∃ w : Word, w = (BitVec.ofBool f.l ++ op ++ f.d ++ f.a ++ f.b ++ f.pg) := ⟨_, rfl⟩
  have hp := flds_W0 (BitVec.ofBool f.l) op f.d f.a f.b f.pg
  rw [show ((BitVec.ofBool f.l ++ op ++ f.d ++ f.a ++ f.b ++ f.pg) : Word) = w from hw.symm] at hp
  obtain ⟨hl, hop, h0d, h0a, h0b, h0pg⟩ := hp
  have h31 := getLsbD_31 hl
  have hop' : fldN w 30 24 = op.toNat := by rw [← toNat_fld, hop]
  unfold encodeBytes
  rw [he]
  cases hb : f.l with
  | true =>
    rw [hb] at h31
    obtain ⟨w', hw'⟩ : ∃ w' : Word, w' = encV1 f := ⟨_, rfl⟩
    have hq := flds_V1 f.c f.pa f.pb f.pc f.look f.pn f.mod f.ps f.param
    rw [show (f.c ++ f.pa ++ f.pb ++ f.pc ++ f.look ++ f.pn ++ f.mod ++ f.ps ++ f.param : Word) = w' from hw'.symm] at hq
    obtain ⟨h1c, h1pa, h1pb, h1pc, h1look, h1pn, h1mod, h1ps, h1param⟩ := hq
    have hx : encV op f = [w, encV1 f] := by rw [hw]; simp [encV, hb]
    have hf : decV w (some (encV1 f)) = f := by
      rw [← hw']
      simp only [decV, Option.isSome_some, Option.getD_some, h0d, h0a, h0b, h0pg, h1c, h1pa, h1pb, h1pc, h1look, h1pn, h1mod, h1ps, h1param, ← hb]
    have := decode_two .warp w (encV1 f) rest h31 (by simp only [opcodeLegal, hd _ _ hop', Option.isSome_some])
    simp only [hx, List.flatMap_cons, List.flatMap_nil, List.append_nil, List.append_assoc]
    rw [this]
    simp only [decodeWords, hd _ _ hop', hf, Option.getD_some]
  | false =>
    rw [hb] at h31
    obtain ⟨w', hw'⟩ : ∃ w' : Word, w' = encV1 f := ⟨_, rfl⟩
    have hq := flds_V1 f.c f.pa f.pb f.pc f.look f.pn f.mod f.ps f.param
    rw [show (f.c ++ f.pa ++ f.pb ++ f.pc ++ f.look ++ f.pn ++ f.mod ++ f.ps ++ f.param : Word) = w' from hw'.symm] at hq
    obtain ⟨h1c, h1pa, h1pb, h1pc, h1look, h1pn, h1mod, h1ps, h1param⟩ := hq
    have hx : encV op f = [w] := by rw [hw]; simp [encV, hb]
    simp only [VF.canon, hb, Bool.false_or, beq_iff_eq] at hc
    have hf : decV w none = f := by
      rw [hc] at hw'
      rw [hw'] at h1c h1pa h1pb h1pc h1look h1pn h1mod h1ps h1param
      simp only [decV, Option.isSome_none, Option.getD_none, h0d, h0a, h0b, h0pg, h1c, h1pa, h1pb, h1pc, h1look, h1pn, h1mod, h1ps, h1param, ← hb]
    have := decode_one .warp w rest h31
    simp only [hx, List.flatMap_cons, List.flatMap_nil, List.append_nil]
    rw [this]
    simp only [decodeWords, hd _ _ hop', hf, Option.getD_some]

/-- An instruction of the I layout is what the decoder reads from its bytes. -/
theorem decode_I (k : IF → Instr) (op : BitVec 7) (hd : ∀ w0 w1, fldN w0 30 24 = op.toNat → warpDecode w0 w1 = some (k (decI w0 w1)))
    (f : IF) (he : encode (k f) = encI op f) (hc : f.canon = true) (rest : List Byte) : decode .warp (encodeBytes (k f) ++ rest) = .ok (k f, rest) := by
  obtain ⟨w, hw⟩ : ∃ w : Word, w = (BitVec.ofBool f.l ++ op ++ f.d ++ f.a ++ f.b ++ f.pg) := ⟨_, rfl⟩
  have hp := flds_W0 (BitVec.ofBool f.l) op f.d f.a f.b f.pg
  rw [show ((BitVec.ofBool f.l ++ op ++ f.d ++ f.a ++ f.b ++ f.pg) : Word) = w from hw.symm] at hp
  obtain ⟨hl, hop, h0d, h0a, h0b, h0pg⟩ := hp
  have h31 := getLsbD_31 hl
  have hop' : fldN w 30 24 = op.toNat := by rw [← toNat_fld, hop]
  unfold encodeBytes
  rw [he]
  cases hb : f.l with
  | true =>
    rw [hb] at h31
    obtain ⟨w', hw'⟩ : ∃ w' : Word, w' = encI1 f := ⟨_, rfl⟩
    have hx : encI op f = [w, encI1 f] := by rw [hw]; simp [encI, hb]
    have hf : decI w (some (encI1 f)) = f := by
      simp only [decI, Option.isSome_some, Option.getD_some, h0d, h0a, h0b, h0pg, encI1, ← hb]
    have := decode_two .warp w (encI1 f) rest h31 (by simp only [opcodeLegal, hd _ _ hop', Option.isSome_some])
    simp only [hx, List.flatMap_cons, List.flatMap_nil, List.append_nil, List.append_assoc]
    rw [this]
    simp only [decodeWords, hd _ _ hop', hf, Option.getD_some]
  | false =>
    rw [hb] at h31
    obtain ⟨w', hw'⟩ : ∃ w' : Word, w' = encI1 f := ⟨_, rfl⟩
    have hx : encI op f = [w] := by rw [hw]; simp [encI, hb]
    simp only [IF.canon, hb, Bool.false_or, beq_iff_eq] at hc
    have hf : decI w none = f := by
      simp only [encI1] at hc
      simp only [decI, Option.isSome_none, Option.getD_none, h0d, h0a, h0b, h0pg, ← hc, ← hb]
    have := decode_one .warp w rest h31
    simp only [hx, List.flatMap_cons, List.flatMap_nil, List.append_nil]
    rw [this]
    simp only [decodeWords, hd _ _ hop', hf, Option.getD_some]

/-- An instruction of the M layout is what the decoder reads from its bytes. -/
theorem decode_M (k : MF → Instr) (op : BitVec 7) (hd : ∀ w0 w1, fldN w0 30 24 = op.toNat → warpDecode w0 w1 = some (k (decM w0 w1)))
    (f : MF) (he : encode (k f) = encM op f) (hc : f.canon = true) (rest : List Byte) : decode .warp (encodeBytes (k f) ++ rest) = .ok (k f, rest) := by
  obtain ⟨w, hw⟩ : ∃ w : Word, w = (BitVec.ofBool f.l ++ op ++ f.d ++ f.a ++ f.b ++ f.pg) := ⟨_, rfl⟩
  have hp := flds_W0 (BitVec.ofBool f.l) op f.d f.a f.b f.pg
  rw [show ((BitVec.ofBool f.l ++ op ++ f.d ++ f.a ++ f.b ++ f.pg) : Word) = w from hw.symm] at hp
  obtain ⟨hl, hop, h0d, h0a, h0b, h0pg⟩ := hp
  have h31 := getLsbD_31 hl
  have hop' : fldN w 30 24 = op.toNat := by rw [← toNat_fld, hop]
  unfold encodeBytes
  rw [he]
  cases hb : f.l with
  | true =>
    rw [hb] at h31
    obtain ⟨w', hw'⟩ : ∃ w' : Word, w' = encM1 f := ⟨_, rfl⟩
    have hq := flds_M1 f.look f.obs f.ordr f.wid f.fe f.sx f.ofs
    rw [show (f.look ++ f.obs ++ f.ordr ++ f.wid ++ f.fe ++ f.sx ++ f.ofs : Word) = w' from hw'.symm] at hq
    obtain ⟨h1look, h1obs, h1ordr, h1wid, h1fe, h1sx, h1ofs⟩ := hq
    have hx : encM op f = [w, encM1 f] := by rw [hw]; simp [encM, hb]
    have hf : decM w (some (encM1 f)) = f := by
      rw [← hw']
      simp only [decM, Option.isSome_some, Option.getD_some, h0d, h0a, h0b, h0pg, h1look, h1obs, h1ordr, h1wid, h1fe, h1sx, h1ofs, ← hb]
    have := decode_two .warp w (encM1 f) rest h31 (by simp only [opcodeLegal, hd _ _ hop', Option.isSome_some])
    simp only [hx, List.flatMap_cons, List.flatMap_nil, List.append_nil, List.append_assoc]
    rw [this]
    simp only [decodeWords, hd _ _ hop', hf, Option.getD_some]
  | false =>
    rw [hb] at h31
    obtain ⟨w', hw'⟩ : ∃ w' : Word, w' = encM1 f := ⟨_, rfl⟩
    have hq := flds_M1 f.look f.obs f.ordr f.wid f.fe f.sx f.ofs
    rw [show (f.look ++ f.obs ++ f.ordr ++ f.wid ++ f.fe ++ f.sx ++ f.ofs : Word) = w' from hw'.symm] at hq
    obtain ⟨h1look, h1obs, h1ordr, h1wid, h1fe, h1sx, h1ofs⟩ := hq
    have hx : encM op f = [w] := by rw [hw]; simp [encM, hb]
    simp only [MF.canon, hb, Bool.false_or, beq_iff_eq] at hc
    have hf : decM w none = f := by
      rw [hc] at hw'
      rw [hw'] at h1look h1obs h1ordr h1wid h1fe h1sx h1ofs
      simp only [decM, Option.isSome_none, Option.getD_none, h0d, h0a, h0b, h0pg, h1look, h1obs, h1ordr, h1wid, h1fe, h1sx, h1ofs, ← hb]
    have := decode_one .warp w rest h31
    simp only [hx, List.flatMap_cons, List.flatMap_nil, List.append_nil]
    rw [this]
    simp only [decodeWords, hd _ _ hop', hf, Option.getD_some]

/-- An instruction of the A layout is what the decoder reads from its bytes. -/
theorem decode_A (k : AF → Instr) (op : BitVec 7) (hd : ∀ w0 w1, fldN w0 30 24 = op.toNat → warpDecode w0 w1 = some (k (decA w0 w1)))
    (f : AF) (he : encode (k f) = encA op f) (hc : f.canon = true) (rest : List Byte) : decode .warp (encodeBytes (k f) ++ rest) = .ok (k f, rest) := by
  obtain ⟨w, hw⟩ : ∃ w : Word, w = (BitVec.ofBool f.l ++ op ++ f.d ++ f.a ++ f.b ++ f.pg) := ⟨_, rfl⟩
  have hp := flds_W0 (BitVec.ofBool f.l) op f.d f.a f.b f.pg
  rw [show ((BitVec.ofBool f.l ++ op ++ f.d ++ f.a ++ f.b ++ f.pg) : Word) = w from hw.symm] at hp
  obtain ⟨hl, hop, h0d, h0a, h0b, h0pg⟩ := hp
  have h31 := getLsbD_31 hl
  have hop' : fldN w 30 24 = op.toNat := by rw [← toNat_fld, hop]
  unfold encodeBytes
  rw [he]
  cases hb : f.l with
  | true =>
    rw [hb] at h31
    obtain ⟨w', hw'⟩ : ∃ w' : Word, w' = encA1 f := ⟨_, rfl⟩
    have hq := flds_A1 f.look f.obs f.ordr f.wid f.aop f.c f.rsv
    rw [show (f.look ++ f.obs ++ f.ordr ++ f.wid ++ f.aop ++ f.c ++ f.rsv : Word) = w' from hw'.symm] at hq
    obtain ⟨h1look, h1obs, h1ordr, h1wid, h1aop, h1c, h1rsv⟩ := hq
    have hx : encA op f = [w, encA1 f] := by rw [hw]; simp [encA, hb]
    have hf : decA w (some (encA1 f)) = f := by
      rw [← hw']
      simp only [decA, Option.isSome_some, Option.getD_some, h0d, h0a, h0b, h0pg, h1look, h1obs, h1ordr, h1wid, h1aop, h1c, h1rsv, ← hb]
    have := decode_two .warp w (encA1 f) rest h31 (by simp only [opcodeLegal, hd _ _ hop', Option.isSome_some])
    simp only [hx, List.flatMap_cons, List.flatMap_nil, List.append_nil, List.append_assoc]
    rw [this]
    simp only [decodeWords, hd _ _ hop', hf, Option.getD_some]
  | false =>
    rw [hb] at h31
    obtain ⟨w', hw'⟩ : ∃ w' : Word, w' = encA1 f := ⟨_, rfl⟩
    have hq := flds_A1 f.look f.obs f.ordr f.wid f.aop f.c f.rsv
    rw [show (f.look ++ f.obs ++ f.ordr ++ f.wid ++ f.aop ++ f.c ++ f.rsv : Word) = w' from hw'.symm] at hq
    obtain ⟨h1look, h1obs, h1ordr, h1wid, h1aop, h1c, h1rsv⟩ := hq
    have hx : encA op f = [w] := by rw [hw]; simp [encA, hb]
    simp only [AF.canon, hb, Bool.false_or, beq_iff_eq] at hc
    have hf : decA w none = f := by
      rw [hc] at hw'
      rw [hw'] at h1look h1obs h1ordr h1wid h1aop h1c h1rsv
      simp only [decA, Option.isSome_none, Option.getD_none, h0d, h0a, h0b, h0pg, h1look, h1obs, h1ordr, h1wid, h1aop, h1c, h1rsv, ← hb]
    have := decode_one .warp w rest h31
    simp only [hx, List.flatMap_cons, List.flatMap_nil, List.append_nil]
    rw [this]
    simp only [decodeWords, hd _ _ hop', hf, Option.getD_some]

/-- An instruction of the T layout is what the decoder reads from its bytes. -/
theorem decode_T (k : TF → Instr) (op : BitVec 7) (hd : ∀ w0 w1, fldN w0 30 24 = op.toNat → warpDecode w0 w1 = some (k (decT w0 w1)))
    (f : TF) (he : encode (k f) = encT op f) (hc : f.canon = true) (rest : List Byte) : decode .warp (encodeBytes (k f) ++ rest) = .ok (k f, rest) := by
  obtain ⟨w, hw⟩ : ∃ w : Word, w = (BitVec.ofBool f.l ++ op ++ f.d ++ f.a ++ f.b ++ f.pg) := ⟨_, rfl⟩
  have hp := flds_W0 (BitVec.ofBool f.l) op f.d f.a f.b f.pg
  rw [show ((BitVec.ofBool f.l ++ op ++ f.d ++ f.a ++ f.b ++ f.pg) : Word) = w from hw.symm] at hp
  obtain ⟨hl, hop, h0d, h0a, h0b, h0pg⟩ := hp
  have h31 := getLsbD_31 hl
  have hop' : fldN w 30 24 = op.toNat := by rw [← toNat_fld, hop]
  unfold encodeBytes
  rw [he]
  cases hb : f.l with
  | true =>
    rw [hb] at h31
    obtain ⟨w', hw'⟩ : ∃ w' : Word, w' = encT1 f := ⟨_, rfl⟩
    have hq := flds_T1 f.look f.tr f.row0 f.col0 f.tok f.rsv
    rw [show (f.look ++ f.tr ++ f.row0 ++ f.col0 ++ f.tok ++ f.rsv : Word) = w' from hw'.symm] at hq
    obtain ⟨h1look, h1tr, h1row0, h1col0, h1tok, h1rsv⟩ := hq
    have hx : encT op f = [w, encT1 f] := by rw [hw]; simp [encT, hb]
    have hf : decT w (some (encT1 f)) = f := by
      rw [← hw']
      simp only [decT, Option.isSome_some, Option.getD_some, h0d, h0a, h0b, h0pg, h1look, h1tr, h1row0, h1col0, h1tok, h1rsv, ← hb]
    have := decode_two .warp w (encT1 f) rest h31 (by simp only [opcodeLegal, hd _ _ hop', Option.isSome_some])
    simp only [hx, List.flatMap_cons, List.flatMap_nil, List.append_nil, List.append_assoc]
    rw [this]
    simp only [decodeWords, hd _ _ hop', hf, Option.getD_some]
  | false =>
    rw [hb] at h31
    obtain ⟨w', hw'⟩ : ∃ w' : Word, w' = encT1 f := ⟨_, rfl⟩
    have hq := flds_T1 f.look f.tr f.row0 f.col0 f.tok f.rsv
    rw [show (f.look ++ f.tr ++ f.row0 ++ f.col0 ++ f.tok ++ f.rsv : Word) = w' from hw'.symm] at hq
    obtain ⟨h1look, h1tr, h1row0, h1col0, h1tok, h1rsv⟩ := hq
    have hx : encT op f = [w] := by rw [hw]; simp [encT, hb]
    simp only [TF.canon, hb, Bool.false_or, beq_iff_eq] at hc
    have hf : decT w none = f := by
      rw [hc] at hw'
      rw [hw'] at h1look h1tr h1row0 h1col0 h1tok h1rsv
      simp only [decT, Option.isSome_none, Option.getD_none, h0d, h0a, h0b, h0pg, h1look, h1tr, h1row0, h1col0, h1tok, h1rsv, ← hb]
    have := decode_one .warp w rest h31
    simp only [hx, List.flatMap_cons, List.flatMap_nil, List.append_nil]
    rw [this]
    simp only [decodeWords, hd _ _ hop', hf, Option.getD_some]

/-- An instruction of the Q layout is what the decoder reads from its bytes. -/
theorem decode_Q (k : QF → Instr) (op : BitVec 7) (hd : ∀ w0 w1, fldN w0 30 24 = op.toNat → cueDecode w0 w1 = some (k (decQ w0 w1)))
    (f : QF) (he : encode (k f) = encQ op f) (hc : f.canon = true) (rest : List Byte) : decode .cue (encodeBytes (k f) ++ rest) = .ok (k f, rest) := by
  obtain ⟨w, hw⟩ : ∃ w : Word, w = (BitVec.ofBool f.l ++ op ++ f.d ++ f.a ++ f.b ++ f.g ++ f.mod) := ⟨_, rfl⟩
  have hp := flds_Q0 (BitVec.ofBool f.l) op f.d f.a f.b f.g f.mod
  rw [show ((BitVec.ofBool f.l ++ op ++ f.d ++ f.a ++ f.b ++ f.g ++ f.mod) : Word) = w from hw.symm] at hp
  obtain ⟨hl, hop, h0d, h0a, h0b, h0g, h0mod⟩ := hp
  have h31 := getLsbD_31 hl
  have hop' : fldN w 30 24 = op.toNat := by rw [← toNat_fld, hop]
  unfold encodeBytes
  rw [he]
  cases hb : f.l with
  | true =>
    rw [hb] at h31
    obtain ⟨w', hw'⟩ : ∃ w' : Word, w' = encQ1 f := ⟨_, rfl⟩
    have hx : encQ op f = [w, encQ1 f] := by rw [hw]; simp [encQ, hb]
    have hf : decQ w (some (encQ1 f)) = f := by
      simp only [decQ, Option.isSome_some, Option.getD_some, h0d, h0a, h0b, h0g, h0mod, encQ1, ← hb]
    have := decode_two .cue w (encQ1 f) rest h31 (by simp only [opcodeLegal, hd _ _ hop', Option.isSome_some])
    simp only [hx, List.flatMap_cons, List.flatMap_nil, List.append_nil, List.append_assoc]
    rw [this]
    simp only [decodeWords, hd _ _ hop', hf, Option.getD_some]
  | false =>
    rw [hb] at h31
    obtain ⟨w', hw'⟩ : ∃ w' : Word, w' = encQ1 f := ⟨_, rfl⟩
    have hx : encQ op f = [w] := by rw [hw]; simp [encQ, hb]
    simp only [QF.canon, hb, Bool.false_or, beq_iff_eq] at hc
    have hf : decQ w none = f := by
      simp only [encQ1] at hc
      simp only [decQ, Option.isSome_none, Option.getD_none, h0d, h0a, h0b, h0g, h0mod, ← hc, ← hb]
    have := decode_one .cue w rest h31
    simp only [hx, List.flatMap_cons, List.flatMap_nil, List.append_nil]
    rw [this]
    simp only [decodeWords, hd _ _ hop', hf, Option.getD_some]

/-- An instruction of the QM layout is what the decoder reads from its bytes. -/
theorem decode_QM (k : QM → Instr) (op : BitVec 7) (hd : ∀ w0 w1, fldN w0 30 24 = op.toNat → cueDecode w0 w1 = some (k (decQM w0 w1)))
    (f : QM) (he : encode (k f) = encQM op f) (hc : f.canon = true) (rest : List Byte) : decode .cue (encodeBytes (k f) ++ rest) = .ok (k f, rest) := by
  obtain ⟨w, hw⟩ : ∃ w : Word, w = (BitVec.ofBool f.l ++ op ++ f.d ++ f.a ++ f.b ++ f.g ++ f.mod) := ⟨_, rfl⟩
  have hp := flds_Q0 (BitVec.ofBool f.l) op f.d f.a f.b f.g f.mod
  rw [show ((BitVec.ofBool f.l ++ op ++ f.d ++ f.a ++ f.b ++ f.g ++ f.mod) : Word) = w from hw.symm] at hp
  obtain ⟨hl, hop, h0d, h0a, h0b, h0g, h0mod⟩ := hp
  have h31 := getLsbD_31 hl
  have hop' : fldN w 30 24 = op.toNat := by rw [← toNat_fld, hop]
  unfold encodeBytes
  rw [he]
  cases hb : f.l with
  | true =>
    rw [hb] at h31
    obtain ⟨w', hw'⟩ : ∃ w' : Word, w' = encQM1 f := ⟨_, rfl⟩
    have hq := flds_QM1 f.look f.obs f.ordr f.wid f.rsv f.ofs
    rw [show (f.look ++ f.obs ++ f.ordr ++ f.wid ++ f.rsv ++ f.ofs : Word) = w' from hw'.symm] at hq
    obtain ⟨h1look, h1obs, h1ordr, h1wid, h1rsv, h1ofs⟩ := hq
    have hx : encQM op f = [w, encQM1 f] := by rw [hw]; simp [encQM, hb]
    have hf : decQM w (some (encQM1 f)) = f := by
      rw [← hw']
      simp only [decQM, Option.isSome_some, Option.getD_some, h0d, h0a, h0b, h0g, h0mod, h1look, h1obs, h1ordr, h1wid, h1rsv, h1ofs, ← hb]
    have := decode_two .cue w (encQM1 f) rest h31 (by simp only [opcodeLegal, hd _ _ hop', Option.isSome_some])
    simp only [hx, List.flatMap_cons, List.flatMap_nil, List.append_nil, List.append_assoc]
    rw [this]
    simp only [decodeWords, hd _ _ hop', hf, Option.getD_some]
  | false =>
    rw [hb] at h31
    obtain ⟨w', hw'⟩ : ∃ w' : Word, w' = encQM1 f := ⟨_, rfl⟩
    have hq := flds_QM1 f.look f.obs f.ordr f.wid f.rsv f.ofs
    rw [show (f.look ++ f.obs ++ f.ordr ++ f.wid ++ f.rsv ++ f.ofs : Word) = w' from hw'.symm] at hq
    obtain ⟨h1look, h1obs, h1ordr, h1wid, h1rsv, h1ofs⟩ := hq
    have hx : encQM op f = [w] := by rw [hw]; simp [encQM, hb]
    simp only [QM.canon, hb, Bool.false_or, beq_iff_eq] at hc
    have hf : decQM w none = f := by
      rw [hc] at hw'
      rw [hw'] at h1look h1obs h1ordr h1wid h1rsv h1ofs
      simp only [decQM, Option.isSome_none, Option.getD_none, h0d, h0a, h0b, h0g, h0mod, h1look, h1obs, h1ordr, h1wid, h1rsv, h1ofs, ← hb]
    have := decode_one .cue w rest h31
    simp only [hx, List.flatMap_cons, List.flatMap_nil, List.append_nil]
    rw [this]
    simp only [decodeWords, hd _ _ hop', hf, Option.getD_some]

/-- An instruction of the QE layout is what the decoder reads from its bytes. -/
theorem decode_QE (k : QE → Instr) (op : BitVec 7) (hd : ∀ w0 w1, fldN w0 30 24 = op.toNat → cueDecode w0 w1 = some (k (decQE w0 w1)))
    (f : QE) (he : encode (k f) = encQE op f) (hc : f.canon = true) (rest : List Byte) : decode .cue (encodeBytes (k f) ++ rest) = .ok (k f, rest) := by
  obtain ⟨w, hw⟩ : ∃ w : Word, w = (BitVec.ofBool f.l ++ op ++ f.d ++ f.a ++ f.b ++ f.g ++ f.mod) := ⟨_, rfl⟩
  have hp := flds_Q0 (BitVec.ofBool f.l) op f.d f.a f.b f.g f.mod
  rw [show ((BitVec.ofBool f.l ++ op ++ f.d ++ f.a ++ f.b ++ f.g ++ f.mod) : Word) = w from hw.symm] at hp
  obtain ⟨hl, hop, h0d, h0a, h0b, h0g, h0mod⟩ := hp
  have h31 := getLsbD_31 hl
  have hop' : fldN w 30 24 = op.toNat := by rw [← toNat_fld, hop]
  unfold encodeBytes
  rw [he]
  cases hb : f.l with
  | true =>
    rw [hb] at h31
    obtain ⟨w', hw'⟩ : ∃ w' : Word, w' = encQE1 f := ⟨_, rfl⟩
    have hq := flds_QE1 f.tok f.fsl f.ta f.tb f.ac f.opt
    rw [show (f.tok ++ f.fsl ++ f.ta ++ f.tb ++ f.ac ++ f.opt : Word) = w' from hw'.symm] at hq
    obtain ⟨h1tok, h1fsl, h1ta, h1tb, h1ac, h1opt⟩ := hq
    have hx : encQE op f = [w, encQE1 f] := by rw [hw]; simp [encQE, hb]
    have hf : decQE w (some (encQE1 f)) = f := by
      rw [← hw']
      simp only [decQE, Option.isSome_some, Option.getD_some, h0d, h0a, h0b, h0g, h0mod, h1tok, h1fsl, h1ta, h1tb, h1ac, h1opt, ← hb]
    have := decode_two .cue w (encQE1 f) rest h31 (by simp only [opcodeLegal, hd _ _ hop', Option.isSome_some])
    simp only [hx, List.flatMap_cons, List.flatMap_nil, List.append_nil, List.append_assoc]
    rw [this]
    simp only [decodeWords, hd _ _ hop', hf, Option.getD_some]
  | false =>
    rw [hb] at h31
    obtain ⟨w', hw'⟩ : ∃ w' : Word, w' = encQE1 f := ⟨_, rfl⟩
    have hq := flds_QE1 f.tok f.fsl f.ta f.tb f.ac f.opt
    rw [show (f.tok ++ f.fsl ++ f.ta ++ f.tb ++ f.ac ++ f.opt : Word) = w' from hw'.symm] at hq
    obtain ⟨h1tok, h1fsl, h1ta, h1tb, h1ac, h1opt⟩ := hq
    have hx : encQE op f = [w] := by rw [hw]; simp [encQE, hb]
    simp only [QE.canon, hb, Bool.false_or, beq_iff_eq] at hc
    have hf : decQE w none = f := by
      rw [hc] at hw'
      rw [hw'] at h1tok h1fsl h1ta h1tb h1ac h1opt
      simp only [decQE, Option.isSome_none, Option.getD_none, h0d, h0a, h0b, h0g, h0mod, h1tok, h1fsl, h1ta, h1tb, h1ac, h1opt, ← hb]
    have := decode_one .cue w rest h31
    simp only [hx, List.flatMap_cons, List.flatMap_nil, List.append_nil]
    rw [this]
    simp only [decodeWords, hd _ _ hop', hf, Option.getD_some]

end Sys2Proof
end

