-- ==== Sys2Proof/Laws/Sparse.lean ====
section
/-! SUPPORT. Sparse maps: a read after a write, and the canonical form under every operation. -/

namespace Sys2Proof.Machine

theorem SMap.get_ins {w : Nat} (m : SMap w) (k j : Nat) (v : BitVec w) : (m.ins k v).get j = if j = k then v else m.get j := by
  induction m with
  | nil => simp only [ins, get]; rcases eq_or_ne j k with rfl | e <;> [simp; simp [e, e.symm]]
  | cons p r ih =>
    obtain ⟨a, b⟩ := p
    simp only [ins]
    split
    · subst a; simp only [get]; rcases eq_or_ne j k with rfl | e <;> [simp; simp [e, e.symm]]
    · split
      · simp only [get]; rcases eq_or_ne j k with rfl | e <;> [simp; simp [e, e.symm]]
      · simp only [get, ih]; by_cases e : a = j
        · have : j ≠ k := by omega
          simp [e, this]
        · simp [e]

theorem SMap.get_del {w : Nat} (m : SMap w) (k j : Nat) : (m.del k).get j = if j = k then 0 else m.get j := by
  induction m with
  | nil => simp [del, get]
  | cons p r ih =>
    obtain ⟨a, b⟩ := p
    simp only [del]
    split
    · subst a; simp only [ih, get]; rcases eq_or_ne j k with rfl | e <;> [simp; simp [e, e.symm]]
    · simp only [get, ih]; by_cases e : a = j
      · have : j ≠ k := by omega
        simp [e, this]
      · simp [e]

/-- A read after a write. -/
theorem SMap.get_set {w : Nat} (m : SMap w) (k j : Nat) (v : BitVec w) : (m.set k v).get j = if j = k then v else m.get j := by
  unfold set
  split
  · subst v; exact get_del m k j
  · exact get_ins m k j v

@[simp] theorem SMap.get_set_self {w : Nat} (m : SMap w) (k : Nat) (v : BitVec w) : (m.set k v).get k = v := by simp [get_set]
theorem SMap.get_set_of_ne {w : Nat} (m : SMap w) {k j : Nat} (v : BitVec w) (h : j ≠ k) : (m.set k v).get j = m.get j := by simp [get_set, h]

/-- A read after a run of writes at consecutive keys. -/
theorem SMap.get_setList {w : Nat} (vs : List (BitVec w)) (m : SMap w) (k j : Nat) :
    (m.setList k vs).get j = if k ≤ j ∧ j < k + vs.length then vs.getD (j - k) 0 else m.get j := by
  induction vs generalizing m k with
  | nil => simp only [setList, List.length_nil]; split <;> first | rfl | omega
  | cons v vs ih =>
    simp only [setList, ih, List.length_cons, get_set]
    by_cases h1 : j = k
    · subst h1; simp
    · by_cases h2 : k ≤ j ∧ j < k + (vs.length + 1)
      · have : k + 1 ≤ j ∧ j < k + 1 + vs.length := by omega
        simp only [h2, this, and_self, if_true]
        obtain ⟨n, hn⟩ : ∃ n, j - k = n + 1 := ⟨j - k - 1, by omega⟩
        have : j - (k + 1) = n := by omega
        simp [hn, this]
      · have : ¬ (k + 1 ≤ j ∧ j < k + 1 + vs.length) := by omega
        rw [if_neg this, if_neg h1, if_neg h2]

@[simp] theorem SMap.getList_length {w : Nat} (m : SMap w) (k n : Nat) : (m.getList k n).length = n := by
  induction n generalizing k with
  | zero => rfl
  | succ n ih => simp [getList, ih]

theorem SMap.getList_eq {w : Nat} (m : SMap w) (k n : Nat) : m.getList k n = (List.range n).map fun i => m.get (k + i) := by
  induction n generalizing k with
  | zero => rfl
  | succ n ih =>
    simp only [getList, ih, List.range_succ_eq_map, List.map_cons, List.map_map, Nat.add_zero]
    congr 1
    apply List.map_congr_left
    intro i _
    simp only [Function.comp_apply]
    congr 1
    omega

/-! ### The canonical form -/

theorem SMap.wfFrom_mono {w : Nat} {m : SMap w} {a b : Nat} (h : wfFrom b m = true) (hab : a ≤ b) : wfFrom a m = true := by
  cases m with
  | nil => rfl
  | cons p r =>
    obtain ⟨k, v⟩ := p
    simp only [wfFrom, Bool.and_eq_true, decide_eq_true_eq] at *
    exact ⟨⟨by omega, h.1.2⟩, h.2⟩

theorem SMap.wfFrom_ins {w : Nat} {m : SMap w} {a k : Nat} {v : BitVec w} (h : wfFrom a m = true) (hk : a ≤ k) (hv : v ≠ 0) :
    wfFrom a (m.ins k v) = true := by
  induction m generalizing a with
  | nil => simp only [ins, wfFrom, Bool.and_eq_true, decide_eq_true_eq]; exact ⟨⟨hk, hv⟩, trivial⟩
  | cons p r ih =>
    obtain ⟨k', v'⟩ := p
    simp only [wfFrom, Bool.and_eq_true, decide_eq_true_eq] at h
    simp only [ins]
    split
    · next e => subst e; simp only [wfFrom, Bool.and_eq_true, decide_eq_true_eq]; exact ⟨⟨hk, hv⟩, h.2⟩
    · split
      · next e l => simp only [wfFrom, Bool.and_eq_true, decide_eq_true_eq]; exact ⟨⟨hk, hv⟩, ⟨by omega, h.1.2⟩, h.2⟩
      · next e l => simp only [wfFrom, Bool.and_eq_true, decide_eq_true_eq]; exact ⟨h.1, ih h.2 (by omega)⟩

theorem SMap.wfFrom_del {w : Nat} {m : SMap w} {a k : Nat} (h : wfFrom a m = true) : wfFrom a (m.del k) = true := by
  induction m generalizing a with
  | nil => rfl
  | cons p r ih =>
    obtain ⟨k', v'⟩ := p
    simp only [wfFrom, Bool.and_eq_true, decide_eq_true_eq] at h
    simp only [del]
    split
    · exact wfFrom_mono (ih h.2) (by omega)
    · simp only [wfFrom, Bool.and_eq_true, decide_eq_true_eq]; exact ⟨h.1, ih h.2⟩

/-- A write keeps the canonical form. -/
theorem SMap.wf_set {w : Nat} {m : SMap w} (k : Nat) (v : BitVec w) (h : m.wf = true) : (m.set k v).wf = true := by
  unfold set wf at *
  split
  · exact wfFrom_del h
  · exact wfFrom_ins h (Nat.zero_le k) (by assumption)

/-- A run of writes keeps the canonical form. -/
theorem SMap.wf_setList {w : Nat} (vs : List (BitVec w)) {m : SMap w} (k : Nat) (h : m.wf = true) : (m.setList k vs).wf = true := by
  induction vs generalizing m k with
  | nil => exact h
  | cons v vs ih => exact ih (k + 1) (wf_set k v h)

/-- Writes of pairs keep the canonical form. -/
theorem SMap.wf_setAll {w : Nat} (l : List (Nat × BitVec w)) {m : SMap w} (h : m.wf = true) : (m.setAll l).wf = true := by
  induction l generalizing m with
  | nil => exact h
  | cons p r ih => exact ih (wf_set p.1 p.2 h)

/-- Two maps in canonical form that read alike are the same data. -/
theorem SMap.ext_of_wfFrom {w : Nat} {m n : SMap w} {a : Nat} (hm : wfFrom a m = true) (hn : wfFrom a n = true)
    (h : ∀ k, m.get k = n.get k) : m = n := by
  have low : ∀ {m : SMap w} {a k : Nat}, wfFrom a m = true → k < a → m.get k = 0 := by
    intro m
    induction m with
    | nil => intros; rfl
    | cons p r ih =>
      intro a k hw hk
      obtain ⟨k', v⟩ := p
      simp only [wfFrom, Bool.and_eq_true, decide_eq_true_eq] at hw
      simp only [get]
      rw [if_neg (by omega)]
      exact ih hw.2 (by omega)
  induction m generalizing n a with
  | nil =>
    cases n with
    | nil => rfl
    | cons q s =>
      obtain ⟨k, v⟩ := q
      simp only [wfFrom, Bool.and_eq_true, decide_eq_true_eq] at hn
      have := h k
      simp only [get, if_true] at this
      exact absurd this.symm hn.1.2
  | cons p r ih =>
    obtain ⟨k, v⟩ := p
    simp only [wfFrom, Bool.and_eq_true, decide_eq_true_eq] at hm
    cases n with
    | nil =>
      have := h k
      simp only [get, if_true] at this
      exact absurd this hm.1.2
    | cons q s =>
      obtain ⟨k', v'⟩ := q
      simp only [wfFrom, Bool.and_eq_true, decide_eq_true_eq] at hn
      have hkk : k = k' := by
        rcases Nat.lt_trichotomy k k' with l | e | l
        · have := h k
          simp only [get, if_true] at this
          rw [if_neg (by omega), low hn.2 (by omega)] at this
          exact absurd this hm.1.2
        · exact e
        · have := h k'
          simp only [get, if_true] at this
          rw [if_neg (by omega), low hm.2 (by omega)] at this
          exact absurd this.symm hn.1.2
      subst hkk
      have hv : v = v' := by simpa [get] using h k
      subst hv
      congr 1
      refine ih hm.2 hn.2 fun j => ?_
      have := h j
      simp only [get] at this
      by_cases e : k = j
      · subst e; rw [low hm.2 (by omega), low hn.2 (by omega)]
      · simpa [e] using this

/-- Equal memories are equal data. -/
theorem SMap.ext_of_wf {w : Nat} {m n : SMap w} (hm : m.wf = true) (hn : n.wf = true) (h : ∀ k, m.get k = n.get k) : m = n :=
  ext_of_wfFrom hm hn h

end Sys2Proof.Machine
end

