-- ==== Sys2Proof/Laws/Warp.lean ====
section
/-! SUPPORT. Warps: updates compose, reads of registers after writes, the threads of a group after an instruction, and what the issue of a warp instruction answers. -/

namespace Sys2Proof.Machine

/-! ### Updates compose -/

theorem updWg_updWg (s : State) (n : Nat) (f g : Workgroup → Workgroup) (hf : ∀ k, (f k).id = k.id) : updWg (updWg s n f) n g = updWg s n fun k => g (f k) := by
  simp only [updWg, List.map_map]
  congr 1
  apply List.map_congr_left
  intro k _
  by_cases h : k.id = n <;> simp [h, hf]

theorem updWarp_updWarp (s : State) (n i : Nat) (f g : Warp → Warp) : updWarp (updWarp s n i f) n i g = updWarp s n i fun w => g (f w) := by
  unfold updWarp
  rw [updWg_updWg s n (fun k => Workgroup_updWarp k i f) _ (fun _ => rfl)]
  congr 1
  funext k
  simp only [Workgroup_updWarp]
  congr 1
  apply List.ext_getElem?
  intro j
  simp only [List.getElem?_modify]
  by_cases h : i = j <;> simp [h, Function.comp_def]

/-- Read-modify-write of one element of a list twice. -/
theorem List.modify_modify_same {α : Type} (l : List α) (i : Nat) (f g : α → α) : (l.modify i f).modify i g = l.modify i fun x => g (f x) := by
  apply List.ext_getElem?
  intro j
  simp only [List.getElem?_modify]
  by_cases h : i = j <;> simp [h, Function.comp_def]

/-! ### Threads -/

theorem Warp_updThreads_threads (w : Warp) (ls : List Nat) (f : Thread → Thread) (hn : ls.Nodup) :
    (Warp_updThreads w ls f).threads = w.threads.mapIdx fun l th => if l ∈ ls then f th else th := by
  induction ls generalizing w with
  | nil => simp [Warp_updThreads]; apply List.ext_getElem? ; intro j; simp
  | cons a r ih =>
    have hr := (List.nodup_cons.mp hn)
    have : Warp_updThreads w (a :: r) f = Warp_updThreads (Warp_updThread w a f) r f := rfl
    rw [this, ih _ hr.2]
    apply List.ext_getElem?
    intro j
    simp only [Warp_updThread, List.getElem?_mapIdx, List.getElem?_modify]
    rcases h : w.threads[j]? with _ | th
    · simp
    · by_cases e : a = j
      · subst e; simp [hr.1]
      · have : ¬ j = a := fun h => e h.symm
        simp [e, this]

theorem Warp_updThreads_rest (w : Warp) (ls : List Nat) (f : Thread → Thread) : { Warp_updThreads w ls f with threads := w.threads } = w := by
  induction ls generalizing w with
  | nil => rfl
  | cons a r ih =>
    have : Warp_updThreads w (a :: r) f = Warp_updThreads (Warp_updThread w a f) r f := rfl
    rw [this]
    have h := ih (Warp_updThread w a f)
    have : { Warp_updThreads (Warp_updThread w a f) r f with threads := w.threads }
        = { ({ Warp_updThreads (Warp_updThread w a f) r f with threads := (Warp_updThread w a f).threads } : Warp) with threads := w.threads } := rfl
    rw [this, h]
    rfl

@[simp] theorem Warp_updThreads_vregs (w : Warp) (ls : List Nat) (f : Thread → Thread) : (Warp_updThreads w ls f).vregs = w.vregs := by
  have h := congrArg Warp.vregs (Warp_updThreads_rest w ls f)
  exact h
@[simp] theorem Warp_updThreads_preds (w : Warp) (ls : List Nat) (f : Thread → Thread) : (Warp_updThreads w ls f).preds = w.preds := by
  have h := congrArg Warp.preds (Warp_updThreads_rest w ls f)
  exact h

/-- A live lane is one of the warp's threads, and one of 128. -/
theorem mem_Warp_live {w : Warp} {l : Nat} (h : l ∈ Warp_live w) : l < 128 ∧ l < w.threads.length := by
  simp only [Warp_live, List.mem_filter, List.mem_range] at h
  omega

theorem Warp_live_nodup (w : Warp) : (Warp_live w).Nodup := List.Nodup.filter _ List.nodup_range

/-- What a context says of the state it was read from. -/
theorem warpCtx_spec {s : State} {i : Instr} {c : WCtx} (h : warpCtx s i = some c) :
    findWg s c.wg = some c.k ∧ gridOf s c.k = some c.g ∧ c.k.warps[c.wi]? = some c.w ∧ c.lanes.Nodup ∧ (∀ l ∈ c.lanes, l < 128 ∧ l < c.w.threads.length)
      ∧ c.cs = c.lanes.filter (guardPass c.w i) := by
  unfold warpCtx at h
  split at h
  · split at h
    · cases h
    · split at h
      · cases h
        refine ⟨by assumption, by assumption, by assumption, (Warp_live_nodup _).filter _, fun l hl => mem_Warp_live (List.mem_filter.mp hl).1, rfl⟩
      · cases h
  · cases h

theorem cs_sub {s : State} {i : Instr} {c : WCtx} (h : warpCtx s i = some c) {l : Nat} (hl : l ∈ c.cs) : l ∈ c.lanes := by
  rw [(warpCtx_spec h).2.2.2.2.2] at hl
  exact (List.mem_filter.mp hl).1

theorem cs_nodup {s : State} {i : Instr} {c : WCtx} (h : warpCtx s i = some c) : c.cs.Nodup := by
  rw [(warpCtx_spec h).2.2.2.2.2]
  exact (warpCtx_spec h).2.2.2.1.filter _

/-- A warp whose group has passed an instruction. -/
def passedWarp (c : WCtx) (i : Instr) (w : Warp) : Warp := Warp_updThreads (Warp_updThreads w c.lanes (passed c i)) c.cs (writeThread (WCtx_use c i))

/-- The threads of the group after an instruction that goes on to the next. -/
theorem issued_eq (op : WOp) (s : State) (c : WCtx) (hs : op.stay = false) : issued op c s = updWarp s c.wg c.wi (passedWarp c op.i) := by
  unfold issued updThreads passedWarp passed
  simp only [hs, Bool.false_eq_true, if_false, updWarp_updWarp]

theorem passedWarp_rest (c : WCtx) (i : Instr) (w : Warp) : { passedWarp c i w with threads := w.threads } = w := by
  have h := Warp_updThreads_rest w c.lanes (passed c i)
  have h2 := congrArg (fun v : Warp => { v with threads := w.threads }) (Warp_updThreads_rest (Warp_updThreads w c.lanes (passed c i)) c.cs (writeThread (WCtx_use c i)))
  exact h2.trans h

theorem passedWarp_threads {s : State} {i : Instr} {c : WCtx} (h : warpCtx s i = some c) (w : Warp) :
    (passedWarp c i w).threads = w.threads.mapIdx fun l th => if l ∈ c.lanes then passedAt c i l th else th := by
  unfold passedWarp passedAt
  rw [Warp_updThreads_threads _ _ _ (cs_nodup h), Warp_updThreads_threads _ _ _ (warpCtx_spec h).2.2.2.1]
  apply List.ext_getElem?
  intro j
  simp only [List.getElem?_mapIdx]
  rcases w.threads[j]? with _ | th
  · simp
  · by_cases h1 : j ∈ c.lanes
    · simp [h1]
    · have : j ∉ c.cs := fun h2 => h1 (cs_sub h h2)
      simp [h1, this]

@[simp] theorem passedWarp_vregs (c : WCtx) (i : Instr) (w : Warp) : (passedWarp c i w).vregs = w.vregs := by
  have h := congrArg Warp.vregs (passedWarp_rest c i w)
  exact h
@[simp] theorem passedWarp_preds (c : WCtx) (i : Instr) (w : Warp) : (passedWarp c i w).preds = w.preds := by
  have h := congrArg Warp.preds (passedWarp_rest c i w)
  exact h

/-- A warp whose group has passed an instruction, as one record. -/
theorem passedWarp_eq {s : State} {i : Instr} {c : WCtx} (h : warpCtx s i = some c) : passedWarp c i c.w = { c.w with threads := threadsAfter c i fun _ th => th } :=
  (congrArg (fun v : Warp => { v with threads := (passedWarp c i c.w).threads }) (passedWarp_rest c i c.w)).trans
    (congrArg (fun t => { c.w with threads := t }) (passedWarp_threads h c.w))

/-- A warp instruction that is ready answers with its effect on the state after issue. -/
theorem warpIssue_ready {op : WOp} {s : State} {c : WCtx} (hc : warpCtx s op.i = some c) (hr : WarpReady op s c = true) :
    warpIssue op s = .next (op.eff c (issued op c s)) := by
  simp only [WarpReady, Bool.and_eq_true, Bool.not_eq_true', decide_eq_true_eq, Option.isNone_iff_eq_none] at hr
  obtain ⟨⟨⟨⟨⟨h1, h2⟩, h3⟩, h4⟩, h5⟩, h6⟩ := hr
  simp [warpIssue, hc, h1, h2, h3, h4, h5, h6]

/-- The instruction that an operation of the table stands for, and its issue. -/
theorem exec_of_warpOp {i : Instr} {op : WOp} {s : State} (h : warpOp i = some op) : exec i s = warpIssue op s := by
  cases i <;> first | (cases h; done) | (cases h; rfl) | skip
  rename_i b w
  cases b <;> cases h
  rfl

end Sys2Proof.Machine
end

