-- ==== Sys2Proof/Laws/Lanes.lean ====
section
/-! SUPPORT. What the lane instructions write: registers, predicates and flags of the contributors, and nothing else of the warp. -/

namespace Sys2Proof.Machine

theorem vget_vset (w : Warp) (d a : Nat) (v : Word) (r l : Nat) (ha : a < 128) (hl : l < 128) :
    vget (vset w d a v) r l = if l = a ∧ r = d then v else vget w r l := by
  simp only [vget, vset, SMap.get_set]
  by_cases h : l = a ∧ r = d
  · obtain ⟨rfl, rfl⟩ := h; simp
  · rw [if_neg h, if_neg (by omega)]

/-- n registers of a lane after a write. -/
theorem vget_vsetN (n : Nat) (w : Warp) (d a v : Nat) (r l : Nat) (ha : a < 128) (hl : l < 128) :
    vget (vsetN w d a v n) r l = if l = a ∧ d ≤ r ∧ r < d + n then BitVec.ofNat 32 (v / 2 ^ (32 * (r - d))) else vget w r l := by
  induction n generalizing w d v with
  | zero => simp only [vsetN]; rw [if_neg (by omega)]
  | succ n ih =>
    simp only [vsetN, ih, vget_vset _ _ _ _ _ _ ha hl]
    by_cases h : l = a ∧ d ≤ r ∧ r < d + (n + 1)
    · rw [if_pos h]
      by_cases e : r = d
      · subst e; rw [if_neg (by omega), if_pos ⟨h.1, rfl⟩]; simp
      · rw [if_pos (by omega), Nat.div_div_eq_div_mul, ← Nat.pow_add]
        congr 3
        omega
    · rw [if_neg h, if_neg (by omega), if_neg (by omega)]

theorem vsetN_rest (n : Nat) (w : Warp) (d a v : Nat) : { vsetN w d a v n with vregs := w.vregs } = w := by
  induction n generalizing w d v with
  | zero => rfl
  | succ n ih =>
    have h := ih (vset w d a (BitVec.ofNat 32 v)) (d + 1) (v / 2 ^ 32)
    have e : ({ vsetN w d a v (n + 1) with vregs := w.vregs } : Warp)
        = { ({ vsetN (vset w d a (BitVec.ofNat 32 v)) (d + 1) a (v / 2 ^ 32) n with vregs := (vset w d a (BitVec.ofNat 32 v)).vregs } : Warp) with vregs := w.vregs } := rfl
    rw [e, h]
    rfl

@[simp] theorem vsetN_threads (n : Nat) (w : Warp) (d a v : Nat) : (vsetN w d a v n).threads = w.threads := by
  have h := congrArg Warp.threads (vsetN_rest n w d a v)
  exact h

theorem mergeFlags_rest (w : Warp) (a : Nat) (f : Flags) : { mergeFlags w a f with threads := w.threads } = w := by
  unfold mergeFlags
  split <;> rfl

@[simp] theorem mergeFlags_vregs (w : Warp) (a : Nat) (f : Flags) : (mergeFlags w a f).vregs = w.vregs := by
  unfold mergeFlags
  split <;> rfl
@[simp] theorem mergeFlags_preds (w : Warp) (a : Nat) (f : Flags) : (mergeFlags w a f).preds = w.preds := by
  unfold mergeFlags
  split <;> rfl

theorem mergeFlags_threads (w : Warp) (a : Nat) (f : Flags) :
    (mergeFlags w a f).threads = w.threads.mapIdx fun l th => if l = a ∧ f ≠ 0 then { th with fpstat := fpMerge th.fpstat f } else th := by
  unfold mergeFlags
  split
  · rename_i h
    simp only [h, ne_eq, not_true_eq_false, and_false, if_false]
    apply List.ext_getElem?
    intro j
    simp
  · rename_i h
    simp only [Warp_updThread]
    apply List.ext_getElem?
    intro j
    simp only [List.getElem?_modify, List.getElem?_mapIdx]
    rcases w.threads[j]? with _ | th
    · simp
    · by_cases e : a = j
      · simp only [e, if_true, true_and]
        rw [Option.map_eq_map, Option.map_some, Option.map_some, if_pos h]
      · have : ¬ j = a := fun h => e h.symm
        simp [e, this]

/-- Every contributor's registers d to d + n − 1 and flags are written, in lane order. -/
def writeAll (cs : List Nat) (d n : Nat) (val : Nat → Nat × Flags) (w : Warp) : Warp :=
  cs.foldl (fun w l => mergeFlags (vsetN w d l (val l).1 n) l (val l).2) w

theorem writeAll_vget (cs : List Nat) (d n : Nat) (val : Nat → Nat × Flags) (w : Warp) (hb : ∀ l ∈ cs, l < 128) (r l : Nat) (hl : l < 128) :
    vget (writeAll cs d n val w) r l = if l ∈ cs ∧ d ≤ r ∧ r < d + n then BitVec.ofNat 32 ((val l).1 / 2 ^ (32 * (r - d))) else vget w r l := by
  induction cs generalizing w with
  | nil => simp [writeAll]
  | cons a cs ih =>
    have hw : writeAll (a :: cs) d n val w = writeAll cs d n val (mergeFlags (vsetN w d a (val a).1 n) a (val a).2) := rfl
    rw [hw, ih _ fun l h => hb l (List.mem_cons_of_mem _ h)]
    have hv : vget (mergeFlags (vsetN w d a (val a).1 n) a (val a).2) r l = vget (vsetN w d a (val a).1 n) r l := by simp [vget]
    rw [hv, vget_vsetN _ _ _ _ _ _ _ (hb a List.mem_cons_self) hl]
    by_cases h1 : l ∈ cs ∧ d ≤ r ∧ r < d + n
    · rw [if_pos h1, if_pos ⟨List.mem_cons_of_mem _ h1.1, h1.2⟩]
    · rw [if_neg h1]
      by_cases h2 : l = a ∧ d ≤ r ∧ r < d + n
      · rw [if_pos h2, if_pos ⟨by simp [h2.1], h2.2⟩, h2.1]
      · rw [if_neg h2, if_neg]
        rintro ⟨h3, h4⟩
        rcases List.mem_cons.mp h3 with h | h
        · exact h2 ⟨h, h4⟩
        · exact h1 ⟨h, h4⟩

theorem writeAll_rest (cs : List Nat) (d n : Nat) (val : Nat → Nat × Flags) (w : Warp) :
    { writeAll cs d n val w with vregs := w.vregs, threads := w.threads } = w := by
  induction cs generalizing w with
  | nil => rfl
  | cons a cs ih =>
    have h := ih (mergeFlags (vsetN w d a (val a).1 n) a (val a).2)
    have e : ({ writeAll (a :: cs) d n val w with vregs := w.vregs, threads := w.threads } : Warp)
        = { ({ writeAll cs d n val (mergeFlags (vsetN w d a (val a).1 n) a (val a).2) with
                vregs := (mergeFlags (vsetN w d a (val a).1 n) a (val a).2).vregs
                threads := (mergeFlags (vsetN w d a (val a).1 n) a (val a).2).threads } : Warp) with vregs := w.vregs, threads := w.threads } := rfl
    rw [e, h]
    have h1 := mergeFlags_rest (vsetN w d a (val a).1 n) a (val a).2
    have h2 := vsetN_rest n w d a (val a).1
    have e2 : ({ mergeFlags (vsetN w d a (val a).1 n) a (val a).2 with vregs := w.vregs, threads := w.threads } : Warp)
        = { ({ mergeFlags (vsetN w d a (val a).1 n) a (val a).2 with threads := (vsetN w d a (val a).1 n).threads } : Warp) with vregs := w.vregs, threads := w.threads } := rfl
    rw [e2, h1]
    have e3 : ({ vsetN w d a (val a).1 n with vregs := w.vregs, threads := w.threads } : Warp)
        = { ({ vsetN w d a (val a).1 n with vregs := w.vregs } : Warp) with threads := w.threads } := rfl
    rw [e3, h2]

theorem writeAll_threads (cs : List Nat) (d n : Nat) (val : Nat → Nat × Flags) (w : Warp) (hn : cs.Nodup) :
    (writeAll cs d n val w).threads = w.threads.mapIdx fun l th => if l ∈ cs ∧ (val l).2 ≠ 0 then { th with fpstat := fpMerge th.fpstat (val l).2 } else th := by
  induction cs generalizing w with
  | nil =>
    simp only [writeAll, List.foldl_nil, List.not_mem_nil, false_and, if_false]
    apply List.ext_getElem?
    intro j
    simp
  | cons a cs ih =>
    have hw : writeAll (a :: cs) d n val w = writeAll cs d n val (mergeFlags (vsetN w d a (val a).1 n) a (val a).2) := rfl
    obtain ⟨h1, h2⟩ := List.nodup_cons.mp hn
    rw [hw, ih _ h2, mergeFlags_threads, vsetN_threads]
    apply List.ext_getElem?
    intro j
    simp only [List.getElem?_mapIdx]
    rcases w.threads[j]? with _ | th
    · simp
    · by_cases e : j = a
      · subst e; simp [h1]
      · simp [e]

/-- A warp instruction whose effect is one write of registers and flags in the contributors. -/
theorem warpIssue_gives {op : WOp} {s : State} {c : WCtx} (hc : warpCtx s op.i = some c) (hr : WarpReady op s c = true) (hs : op.stay = false)
    (d n : Nat) (val : Nat → Nat × Flags) (he : op.eff c (issued op c s) = updWarp (issued op c s) c.wg c.wi (writeAll c.cs d n val)) :
    ∃ g, warpIssue op s = .next (updWarp s c.wg c.wi g) ∧ GivesLanes c op.i d n val (g c.w) := by
  obtain ⟨-, -, -, hn, hb, -⟩ := warpCtx_spec hc
  refine ⟨fun w => writeAll c.cs d n val (passedWarp c op.i w), ?_, ?_, ?_, ?_⟩
  · rw [warpIssue_ready hc hr, he, issued_eq _ _ _ hs, updWarp_updWarp]
  · intro r l hl
    rw [writeAll_vget _ _ _ _ _ (fun l h => (hb l (cs_sub hc h)).1) _ _ hl]
    simp [vget]
  · have h1 := writeAll_rest c.cs d n val (passedWarp c op.i c.w)
    have h2 := passedWarp_rest c op.i c.w
    have e : ({ writeAll c.cs d n val (passedWarp c op.i c.w) with vregs := c.w.vregs, threads := c.w.threads } : Warp)
        = { ({ writeAll c.cs d n val (passedWarp c op.i c.w) with
                vregs := (passedWarp c op.i c.w).vregs
                threads := (passedWarp c op.i c.w).threads } : Warp) with vregs := c.w.vregs, threads := c.w.threads } := rfl
    rw [e, h1]
    have e2 : ({ passedWarp c op.i c.w with vregs := c.w.vregs, threads := c.w.threads } : Warp)
        = { ({ passedWarp c op.i c.w with threads := c.w.threads } : Warp) with vregs := c.w.vregs } := rfl
    rw [e2, h2]
  · rw [writeAll_threads _ _ _ _ _ (cs_nodup hc), passedWarp_threads hc]
    unfold threadsAfter withFlags
    apply List.ext_getElem?
    intro j
    simp only [List.getElem?_mapIdx]
    rcases c.w.threads[j]? with _ | th
    · simp
    · by_cases h1 : j ∈ c.lanes
      · simp [h1]
      · have : j ∉ c.cs := fun h => h1 (cs_sub hc h)
        simp [h1, this]

/-! ### Predicates -/

theorem pget_pset (w : Warp) (d a : Nat) (b : Bool) (n l : Nat) (ha : a < 128) (hl : l < 128) :
    pget (pset w d a b) n l = if l = a ∧ n = d ∧ d ≠ 7 then b else pget w n l := by
  unfold pset
  split
  · rename_i h; simp [h]
  · rename_i h
    simp only [pget, SMap.get_set]
    by_cases e : l = a ∧ n = d ∧ d ≠ 7
    · obtain ⟨rfl, rfl, h7⟩ := e
      cases b <;> simp [bit1, h]
    · rw [if_neg e]
      by_cases e2 : 128 * n + l = 128 * d + a
      · exact absurd ⟨by omega, by omega, h⟩ e
      · rw [if_neg e2]

theorem pset_rest (w : Warp) (d a : Nat) (b : Bool) : { pset w d a b with preds := w.preds } = w := by
  unfold pset
  split <;> rfl
@[simp] theorem pset_threads (w : Warp) (d a : Nat) (b : Bool) : (pset w d a b).threads = w.threads := by
  unfold pset
  split <;> rfl

/-- Every contributor's predicate and flags are written, in lane order. -/
def writePreds (cs : List Nat) (d : Nat) (val : Nat → Bool × Flags) (w : Warp) : Warp :=
  cs.foldl (fun w l => mergeFlags (pset w d l (val l).1) l (val l).2) w

theorem writePreds_pget (cs : List Nat) (d : Nat) (val : Nat → Bool × Flags) (w : Warp) (hb : ∀ l ∈ cs, l < 128) (n l : Nat) (hl : l < 128) :
    pget (writePreds cs d val w) n l = if l ∈ cs ∧ n = d ∧ d ≠ 7 then (val l).1 else pget w n l := by
  induction cs generalizing w with
  | nil => simp [writePreds]
  | cons a cs ih =>
    have hw : writePreds (a :: cs) d val w = writePreds cs d val (mergeFlags (pset w d a (val a).1) a (val a).2) := rfl
    rw [hw, ih _ fun l h => hb l (List.mem_cons_of_mem _ h)]
    have hv : pget (mergeFlags (pset w d a (val a).1) a (val a).2) n l = pget (pset w d a (val a).1) n l := by simp [pget]
    rw [hv, pget_pset _ _ _ _ _ _ (hb a List.mem_cons_self) hl]
    by_cases h1 : l ∈ cs ∧ n = d ∧ d ≠ 7
    · rw [if_pos h1, if_pos ⟨List.mem_cons_of_mem _ h1.1, h1.2⟩]
    · rw [if_neg h1]
      by_cases h2 : l = a ∧ n = d ∧ d ≠ 7
      · rw [if_pos h2, if_pos ⟨by simp [h2.1], h2.2⟩, h2.1]
      · rw [if_neg h2, if_neg]
        rintro ⟨h3, h4⟩
        rcases List.mem_cons.mp h3 with h | h
        · exact h2 ⟨h, h4⟩
        · exact h1 ⟨h, h4⟩

theorem writePreds_rest (cs : List Nat) (d : Nat) (val : Nat → Bool × Flags) (w : Warp) :
    { writePreds cs d val w with preds := w.preds, threads := w.threads } = w := by
  induction cs generalizing w with
  | nil => rfl
  | cons a cs ih =>
    have h := ih (mergeFlags (pset w d a (val a).1) a (val a).2)
    have e : ({ writePreds (a :: cs) d val w with preds := w.preds, threads := w.threads } : Warp)
        = { ({ writePreds cs d val (mergeFlags (pset w d a (val a).1) a (val a).2) with
                preds := (mergeFlags (pset w d a (val a).1) a (val a).2).preds
                threads := (mergeFlags (pset w d a (val a).1) a (val a).2).threads } : Warp) with preds := w.preds, threads := w.threads } := rfl
    rw [e, h]
    have h1 := mergeFlags_rest (pset w d a (val a).1) a (val a).2
    have h2 := pset_rest w d a (val a).1
    have e2 : ({ mergeFlags (pset w d a (val a).1) a (val a).2 with preds := w.preds, threads := w.threads } : Warp)
        = { ({ mergeFlags (pset w d a (val a).1) a (val a).2 with threads := (pset w d a (val a).1).threads } : Warp) with preds := w.preds, threads := w.threads } := rfl
    rw [e2, h1]
    have e3 : ({ pset w d a (val a).1 with preds := w.preds, threads := w.threads } : Warp) = { ({ pset w d a (val a).1 with preds := w.preds } : Warp) with threads := w.threads } := rfl
    rw [e3, h2]

theorem writePreds_threads (cs : List Nat) (d : Nat) (val : Nat → Bool × Flags) (w : Warp) (hn : cs.Nodup) :
    (writePreds cs d val w).threads = w.threads.mapIdx fun l th => if l ∈ cs ∧ (val l).2 ≠ 0 then { th with fpstat := fpMerge th.fpstat (val l).2 } else th := by
  induction cs generalizing w with
  | nil =>
    simp only [writePreds, List.foldl_nil, List.not_mem_nil, false_and, if_false]
    apply List.ext_getElem?
    intro j
    simp
  | cons a cs ih =>
    have hw : writePreds (a :: cs) d val w = writePreds cs d val (mergeFlags (pset w d a (val a).1) a (val a).2) := rfl
    obtain ⟨h1, h2⟩ := List.nodup_cons.mp hn
    rw [hw, ih _ h2, mergeFlags_threads, pset_threads]
    apply List.ext_getElem?
    intro j
    simp only [List.getElem?_mapIdx]
    rcases w.threads[j]? with _ | th
    · simp
    · by_cases e : j = a
      · subst e; simp [h1]
      · simp [e]

/-- A warp instruction whose effect is one write of a predicate and flags in the contributors. -/
theorem warpIssue_gives_preds {op : WOp} {s : State} {c : WCtx} (hc : warpCtx s op.i = some c) (hr : WarpReady op s c = true) (hs : op.stay = false)
    (d : Nat) (val : Nat → Bool × Flags) (he : op.eff c (issued op c s) = updWarp (issued op c s) c.wg c.wi (writePreds c.cs d val)) :
    ∃ g, warpIssue op s = .next (updWarp s c.wg c.wi g) ∧ GivesPreds c op.i d val (g c.w) := by
  obtain ⟨-, -, -, hn, hb, -⟩ := warpCtx_spec hc
  refine ⟨fun w => writePreds c.cs d val (passedWarp c op.i w), ?_, ?_, ?_, ?_⟩
  · rw [warpIssue_ready hc hr, he, issued_eq _ _ _ hs, updWarp_updWarp]
  · intro n l hl
    rw [writePreds_pget _ _ _ _ (fun l h => (hb l (cs_sub hc h)).1) _ _ hl]
    simp [pget]
  · have h1 := writePreds_rest c.cs d val (passedWarp c op.i c.w)
    have h2 := passedWarp_rest c op.i c.w
    have e : ({ writePreds c.cs d val (passedWarp c op.i c.w) with preds := c.w.preds, threads := c.w.threads } : Warp)
        = { ({ writePreds c.cs d val (passedWarp c op.i c.w) with
                preds := (passedWarp c op.i c.w).preds
                threads := (passedWarp c op.i c.w).threads } : Warp) with preds := c.w.preds, threads := c.w.threads } := rfl
    rw [e, h1]
    have e2 : ({ passedWarp c op.i c.w with preds := c.w.preds, threads := c.w.threads } : Warp)
        = { ({ passedWarp c op.i c.w with threads := c.w.threads } : Warp) with preds := c.w.preds } := rfl
    rw [e2, h2]
  · rw [writePreds_threads _ _ _ _ (cs_nodup hc), passedWarp_threads hc]
    unfold threadsAfter withFlags
    apply List.ext_getElem?
    intro j
    simp only [List.getElem?_mapIdx]
    rcases c.w.threads[j]? with _ | th
    · simp
    · by_cases h1 : j ∈ c.lanes
      · simp [h1]
      · have : j ∉ c.cs := fun h => h1 (cs_sub hc h)
        simp [h1, this]

end Sys2Proof.Machine
end

