-- ==== Sys2Proof/Laws/Memory.lean ====
section
/-! SUPPORT. Memory: every memory operation keeps the canonical form, the state after reset has it, and a byte read after a write at home or in a local store. -/

namespace Sys2Proof.Machine

/-! ### The canonical form under the remaining operations on sparse maps -/

theorem SMap.wfFrom_filter {w : Nat} (p : Nat × BitVec w → Bool) {m : SMap w} {a : Nat} (h : SMap.wfFrom a m = true) : SMap.wfFrom a (m.filter p) = true := by
  induction m generalizing a with
  | nil => rfl
  | cons x r ih =>
    obtain ⟨k, v⟩ := x
    simp only [SMap.wfFrom, Bool.and_eq_true, decide_eq_true_eq] at h
    rw [List.filter_cons]
    split
    · simp only [SMap.wfFrom, ih h.2, h.1.1, decide_true, Bool.true_and, Bool.and_true, decide_eq_true_eq]; exact h.1.2
    · exact ih (SMap.wfFrom_mono h.2 (by omega))

theorem Memory.wf_filter (p : Host.Cell → Bool) {m : Mem} (h : Memory.wf m = true) : Memory.wf (m.filter p) = true := SMap.wfFrom_filter (w := 8) p h
theorem Memory.wf_setAll (l : List (Nat × Byte)) {m : Mem} (h : Memory.wf m = true) : Memory.wf (SMap.setAll (w := 8) m l) = true := SMap.wf_setAll (w := 8) l h
theorem Memory.wf_setList (l : List Byte) {m : Mem} (k : Nat) (h : Memory.wf m = true) : Memory.wf (SMap.setList (w := 8) m k l) = true := SMap.wf_setList (w := 8) l k h

theorem SMap.setAll_append {w : Nat} (l r : List (Nat × BitVec w)) (m : SMap w) : m.setAll (l ++ r) = (m.setAll l).setAll r := by
  induction l generalizing m with
  | nil => rfl
  | cons x l ih => obtain ⟨k, v⟩ := x; simp only [List.cons_append, SMap.setAll, ih]

/-- A read after the writes of some keys of an interval. -/
theorem SMap.get_setAll_range {w : Nat} (p : Nat → Bool) (b : Nat) (v : Nat → BitVec w) (n : Nat) (m : SMap w) (j : Nat) :
    (m.setAll ((List.range n).filterMap fun k => if p k then some (b + k, v k) else none)).get j = if b ≤ j ∧ j < b + n ∧ p (j - b) = true then v (j - b) else m.get j := by
  induction n with
  | zero => simp only [List.range_zero, List.filterMap_nil, SMap.setAll]; split <;> first | rfl | omega
  | succ n ih =>
    rw [List.range_succ, List.filterMap_append, SMap.setAll_append]
    by_cases hp : p n = true
    · simp only [List.filterMap_cons, hp, if_true, List.filterMap_nil, SMap.setAll, SMap.get_set, ih]
      by_cases hj : j = b + n
      · subst hj; simp [hp]
      · rw [if_neg hj]
        have : (j < b + n ∧ p (j - b) = true) ↔ (j < b + (n + 1) ∧ p (j - b) = true) ∨ False := by
          constructor
          · rintro ⟨h, h'⟩; exact .inl ⟨by omega, h'⟩
          · rintro (⟨h, h'⟩ | h); exacts [⟨by omega, h'⟩, h.elim]
        simp only [this, or_false]
    · simp only [List.filterMap_cons, hp, Bool.false_eq_true, if_false, List.filterMap_nil, SMap.setAll, ih]
      by_cases hj : j = b + n
      · subst hj; simp [hp]
      · have : j < b + (n + 1) ↔ j < b + n := by omega
        simp only [this]

/-! ### Home memory -/

theorem combUse_eq (s : State) (line : Nat) (mask : BitVec 128) (key : BitVec 16) : ∃ c, combUse s line mask key = { s with comb := c } := ⟨_, rfl⟩

theorem foldl_endResv_eq {α : Type} (p : α → Bool) (g : α → Nat) (who : Option Agent) (l : List α) (s : State) :
    ∃ r, l.foldl (fun t j => if p j = true then endResv t (g j) who else t) s = { s with resv := r } := by
  induction l generalizing s with
  | nil => exact ⟨s.resv, rfl⟩
  | cons a l ih =>
    simp only [List.foldl_cons]
    split
    · obtain ⟨r, h⟩ := ih (endResv s (g a) who); exact ⟨r, h.trans rfl⟩
    · exact ih s

/-- The bytes that a merge writes, as pairs of the stored form. -/
theorem homeMerge_eq (s : State) (line : Nat) (mask : BitVec 128) (d : BitVec 1024) (key : BitVec 16) (who : Option Agent) :
    ∃ sy c h r, homeMerge s line mask d key who =
      { s with mem := SMap.setAll (w := 8) s.mem ((linePairs line mask d).map fun (a, b) => (a, b ^^^ dirDefault s a)), memSynd := sy, comb := c, hostLines := h, resv := r } := by
  unfold homeMerge
  split
  · next h =>
    subst h
    exact ⟨s.memSynd, s.comb, s.hostLines, s.resv, by simp [linePairs, SMap.setAll]⟩
  · obtain ⟨c, hc⟩ := combUse_eq s line mask key
    simp only [hc]
    obtain ⟨r, hr⟩ := foldl_endResv_eq (fun j => granMask mask j != 0) (fun j => 8 * line + j) who (List.range 8)
      { s with comb := c, mem := SMap.setAll (w := 8) s.mem ((linePairs line mask d).map fun (a, b) => (a, b ^^^ dirDefault s a)),
               memSynd := (List.range 8).foldl (fun m j => if granMask mask j = 0xFFFF then SMap.set m (8 * line + j) 0 else m) s.memSynd
               hostLines := s.hostLines.map (hostMeets line mask (who = some .host)) }
    simp only [bne_iff_ne] at hr
    exact ⟨_, _, _, r, hr⟩

/-- What a merge at home leaves of every byte. -/
theorem homeByte_homeMerge (s : State) (line : Nat) (mask : BitVec 128) (d : BitVec 1024) (key : BitVec 16) (who : Option Agent) (a : Nat) :
    homeByte (homeMerge s line mask d key who) a = if 128 * line ≤ a ∧ a < 128 * line + 128 ∧ mask.getLsbD (a - 128 * line) = true then lineByte d (a - 128 * line) else homeByte s a := by
  obtain ⟨sy, c, h, r, e⟩ := homeMerge_eq s line mask d key who
  have : ((linePairs line mask d).map fun (a, b) => (a, b ^^^ dirDefault s a)) =
      (List.range 128).filterMap fun k => if mask.getLsbD k = true then some (128 * line + k, lineByte d k ^^^ dirDefault s (128 * line + k)) else none := by
    rw [linePairs, List.map_filterMap]
    congr 1
    funext k
    split <;> rfl
  rw [e, this]
  show SMap.get (w := 8) (SMap.setAll (w := 8) s.mem _) a ^^^ dirDefault s a = _
  rw [SMap.get_setAll_range (w := 8) (fun k => mask.getLsbD k) (128 * line) (fun k => lineByte d k ^^^ dirDefault s (128 * line + k))]
  split
  · next h =>
    have : 128 * line + (a - 128 * line) = a := by omega
    rw [this, BitVec.xor_assoc, BitVec.xor_self, BitVec.xor_zero]
  · rfl

theorem homeMerge_wf {s : State} (line : Nat) (mask : BitVec 128) (d : BitVec 1024) (key : BitVec 16) (who : Option Agent) (h : s.wf = true) : (homeMerge s line mask d key who).wf = true := by
  obtain ⟨sy, c, l, r, e⟩ := homeMerge_eq s line mask d key who
  rw [e]
  simp only [State.wf, Bool.and_eq_true] at h ⊢
  exact ⟨⟨Memory.wf_setAll _ h.1.1, h.1.2⟩, h.2⟩

theorem foldl_wf {α : Type} (f : State → α → State) (hf : ∀ s a, s.wf = true → (f s a).wf = true) (l : List α) {s : State} (h : s.wf = true) : (l.foldl f s).wf = true := by
  induction l generalizing s with
  | nil => exact h
  | cons a l ih => exact ih (hf s a h)

theorem homeWrite_wf {s : State} (pa : Nat) (bs : List Byte) (key : BitVec 16) (who : Option Agent) (h : s.wf = true) : (homeWrite s pa bs key who).wf = true :=
  foldl_wf _ (fun _ _ h => homeMerge_wf _ _ _ _ _ h) _ h
theorem poisonGranule_wf {s : State} (g : Nat) (h : s.wf = true) : (poisonGranule s g).wf = true := homeWrite_wf (s := s) (16 * g) _ 0 none h
theorem carrySynd_wf {s : State} (src dst : Nat) (l : List (BitVec 16)) (h : s.wf = true) : (carrySynd s src dst l).wf = true := by
  unfold carrySynd
  split <;> exact h
theorem setDir_wf {s : State} (i : Nat) (d : DirEntry) (h : s.wf = true) : (setDir s i d).wf = true := homeWrite_wf _ _ _ _ h
theorem combRevert_wf {s : State} (l : CombLine) (h : s.wf = true) : (combRevert s l).wf = true := by
  simp only [State.wf, Bool.and_eq_true, combRevert] at h ⊢
  exact ⟨⟨Memory.wf_setAll _ h.1.1, h.1.2⟩, h.2⟩
theorem clearTables_wf {s : State} (f : Flash) (h : s.wf = true) : (clearTables s f).wf = true := by
  simp only [State.wf, Bool.and_eq_true, clearTables] at h ⊢
  exact ⟨⟨Memory.wf_filter _ h.1.1, h.1.2⟩, h.2⟩

/-! ### Local stores and host memory -/

theorem lsWrite_wf {s : State} (a : Nat) (bs : List Byte) (h : s.wf = true) : (lsWrite s a bs).wf = true := by
  simp only [State.wf, Bool.and_eq_true, lsWrite] at h ⊢
  exact ⟨h.1, Memory.wf_setList bs a h.2⟩
theorem feSet_wf {s : State} (g : Nat) (b : Bool) (h : s.wf = true) : (feSet s g b).wf = true := h
theorem hostWrite_wf {s : State} (a : Nat) (bs : List Byte) (h : s.wf = true) : ({ s with hostMem := SMap.setList (w := 8) s.hostMem a bs } : State).wf = true := by
  simp only [State.wf, Bool.and_eq_true] at h ⊢
  exact ⟨⟨h.1.1, Memory.wf_setList bs a h.1.2⟩, h.2⟩

/-- What a write to a local store leaves of every byte. -/
theorem lsWrite_get (s : State) (a : Nat) (bs : List Byte) (j : Nat) :
    SMap.get (w := 8) (lsWrite s a bs).lstore j = if a ≤ j ∧ j < a + bs.length then bs.getD (j - a) 0 else SMap.get (w := 8) s.lstore j :=
  SMap.get_setList (w := 8) bs s.lstore a j

/-- Memory after reset has the canonical form. -/
theorem reset_wf : State.reset.wf = true := by decide +kernel

/-! ### A byte after a write at home -/

theorem testBit_leNat (bs : List Byte) (k i : Nat) (hi : i < 8) : (leNat bs).testBit (8 * k + i) = (bs.getD k 0).getLsbD i := by
  induction bs generalizing k with
  | nil => simp [leNat]
  | cons b bs ih =>
    have e : leNat (b :: bs) = 2 ^ 8 * leNat bs + b.toNat := by simp only [leNat]; omega
    rw [e, Nat.testBit_two_pow_mul_add _ b.isLt]
    cases k with
    | zero => simp [hi, BitVec.getLsbD]
    | succ k =>
      have h1 : ¬ 8 * (k + 1) + i < 8 := by omega
      have h2 : 8 * (k + 1) + i - 8 = 8 * k + i := by omega
      rw [if_neg h1, h2, ih]
      rfl

theorem lineByte_lineOf (bs : List Byte) (o k : Nat) (hk : k < 128) (ho : o ≤ k) : lineByte (lineOf bs <<< (8 * o)) k = bs.getD (k - o) 0 := by
  apply BitVec.eq_of_getLsbD_eq
  intro i hi
  have h1 : 8 * k + i < 1024 := by omega
  have h2 : ¬ 8 * k + i < 8 * o := by omega
  have h3 : 8 * k + i - 8 * o = 8 * (k - o) + i := by omega
  have h4 : 8 * k + i - 8 * o < 1024 := by omega
  simp only [lineByte, lineOf, BitVec.getLsbD_extractLsb', BitVec.getLsbD_shiftLeft, BitVec.getLsbD_ofNat, hi, h1, h2, decide_true, decide_false, Bool.not_false, Bool.true_and]
  rw [h3] at h4 ⊢
  simp [h4, testBit_leNat _ _ _ hi]

theorem byteMask_get (o n k : Nat) (hk : k < 128) : (byteMask o n).getLsbD k = decide (o ≤ k ∧ k < o + n) := by
  simp only [byteMask, BitVec.getLsbD_ofNat, hk, decide_true, Bool.true_and, Nat.testBit_mul_two_pow, Nat.testBit_two_pow_sub_one]
  rw [← Bool.decide_and]
  apply decide_eq_decide.mpr
  omega

theorem homeByte_cutLines (key : BitVec 16) (who : Option Agent) (fuel : Nat) (bs : List Byte) (pa : Nat) (s : State) (a : Nat) (hf : pa % 128 + bs.length ≤ 128 * fuel) :
    homeByte ((cutLines pa bs fuel).foldl (fun t (line, o, b) => homeMerge t line (byteMask o b.length) (lineOf b <<< (8 * o)) key who) s) a =
      if pa ≤ a ∧ a < pa + bs.length then bs.getD (a - pa) 0 else homeByte s a := by
  induction fuel generalizing bs pa s with
  | zero =>
    have : bs = [] := List.length_eq_zero_iff.mp (by omega)
    subst this
    simp only [cutLines, List.foldl_nil, List.length_nil]
    split <;> first | rfl | omega
  | succ fuel ih =>
    cases bs with
    | nil =>
      simp only [cutLines, List.foldl_nil, List.length_nil]
      split <;> first | rfl | omega
    | cons b bs =>
      simp only [cutLines, List.foldl_cons]
      generalize hb : b :: bs = l at hf ⊢
      have hm : (pa + (128 - pa % 128)) % 128 = 0 := by omega
      have hlen : (l.drop (128 - pa % 128)).length = l.length - (128 - pa % 128) := List.length_drop ..
      rw [ih _ _ _ (by rw [hm, hlen]; omega), homeByte_homeMerge, hlen]
      have hpos : 0 < l.length := by simp [← hb]
      have hd : 128 * (pa / 128) + pa % 128 = pa := Nat.div_add_mod ..
      by_cases h1 : pa + (128 - pa % 128) ≤ a ∧ a < pa + (128 - pa % 128) + (l.length - (128 - pa % 128))
      · rw [if_pos h1, if_pos (by omega)]
        simp only [List.getD_eq_getElem?_getD, List.getElem?_drop]
        congr 2
        omega
      · rw [if_neg h1]
        by_cases h2 : 128 * (pa / 128) ≤ a ∧ a < 128 * (pa / 128) + 128
        · rw [byteMask_get _ _ _ (by omega)]
          by_cases h3 : pa ≤ a ∧ a < pa + l.length
          · have h4 : pa % 128 ≤ a - 128 * (pa / 128) ∧ a - 128 * (pa / 128) < pa % 128 + (l.take (128 - pa % 128)).length := by rw [List.length_take]; omega
            rw [if_pos ⟨h2.1, h2.2, by simpa using h4⟩, if_pos h3, lineByte_lineOf _ _ _ (by omega) h4.1]
            have h5 : a - 128 * (pa / 128) - pa % 128 = a - pa := by omega
            have h6 : a - pa < 128 - pa % 128 := by omega
            rw [h5]
            simp [List.getD_eq_getElem?_getD, h6]
          · rw [if_neg h3, if_neg]
            rintro ⟨-, -, h⟩
            rw [List.length_take] at h
            have := of_decide_eq_true h
            omega
        · rw [if_neg (fun h => h2 ⟨h.1, h.2.1⟩), if_neg (by omega)]

/-- What a write at home leaves of every byte of home memory. -/
theorem homeByte_homeWrite (s : State) (pa : Nat) (bs : List Byte) (key : BitVec 16) (who : Option Agent) (a : Nat) :
    homeByte (homeWrite s pa bs key who) a = if pa ≤ a ∧ a < pa + bs.length then bs.getD (a - pa) 0 else homeByte s a :=
  homeByte_cutLines key who _ bs pa s a (by omega)

/-- A write at home leaves all but home memory's bytes, caps and comb lines, the host's lines and the reservations. -/
theorem homeWrite_rest (s : State) (pa : Nat) (bs : List Byte) (key : BitVec 16) (who : Option Agent) :
    ∃ m sy c h r, homeWrite s pa bs key who = { s with mem := m, memSynd := sy, comb := c, hostLines := h, resv := r } := by
  unfold homeWrite
  generalize cutLines pa bs (bs.length / 128 + 2) = l
  induction l generalizing s with
  | nil => exact ⟨_, _, _, _, _, rfl⟩
  | cons x l ih =>
    rw [List.foldl_cons]
    obtain ⟨sy, c, h, r, e⟩ := homeMerge_eq s x.1 (byteMask x.2.1 x.2.2.length) (lineOf x.2.2 <<< (8 * x.2.1)) key who
    obtain ⟨m', sy', c', h', r', e'⟩ := ih (homeMerge s x.1 (byteMask x.2.1 x.2.2.length) (lineOf x.2.2 <<< (8 * x.2.1)) key who)
    refine ⟨m', sy', c', h', r', e'.trans ?_⟩
    rw [e]

end Sys2Proof.Machine
end

