-- ==== Sys2Proof/Laws/PerInstr.lean ====
section
/-! SUPPORT. Statements for all instructions, one lemma per constructor. -/

namespace Sys2Proof.Laws

open Sys2Proof.Machine

/-- The family Encoding: a canonical instruction of either stream is what the decoder reads from its bytes (02 R25, R33 to R44, R59, R60). -/
def Encoding.Statement (i : Instr) : Prop :=
  i.canon = true → isIllegal i = false → ∀ rest : List Byte,
    ((warpOp i).isSome = true → decode .warp (encodeBytes i ++ rest) = .ok (i, rest)) ∧ ((cueOp i).isSome = true → decode .cue (encodeBytes i ++ rest) = .ok (i, rest))

theorem Encoding.ofWarp {i : Instr} (h : i.canon = true → ∀ rest, decode .warp (encodeBytes i ++ rest) = .ok (i, rest)) (hn : cueOp i = none) : Encoding.Statement i :=
  fun hc _ rest => ⟨fun _ => h hc rest, fun h => by simp [hn] at h⟩
theorem Encoding.ofCue {i : Instr} (h : i.canon = true → ∀ rest, decode .cue (encodeBytes i ++ rest) = .ok (i, rest)) (hn : warpOp i = none) : Encoding.Statement i :=
  fun hc _ rest => ⟨fun h => by simp [hn] at h, fun _ => h hc rest⟩

theorem Encoding.add : ∀ f, Encoding.Statement (.add f) :=
  fun f => Encoding.ofWarp (fun hc => decode_V .add 0x01 (fun w0 w1 h => by unfold warpDecode; rw [h]; rfl) f rfl hc) rfl
theorem Encoding.sub : ∀ f, Encoding.Statement (.sub f) :=
  fun f => Encoding.ofWarp (fun hc => decode_V .sub 0x02 (fun w0 w1 h => by unfold warpDecode; rw [h]; rfl) f rfl hc) rfl
theorem Encoding.mul : ∀ f, Encoding.Statement (.mul f) :=
  fun f => Encoding.ofWarp (fun hc => decode_V .mul 0x03 (fun w0 w1 h => by unfold warpDecode; rw [h]; rfl) f rfl hc) rfl
theorem Encoding.mulh : ∀ f, Encoding.Statement (.mulh f) :=
  fun f => Encoding.ofWarp (fun hc => decode_V .mulh 0x04 (fun w0 w1 h => by unfold warpDecode; rw [h]; rfl) f rfl hc) rfl
theorem Encoding.mad : ∀ f, Encoding.Statement (.mad f) :=
  fun f => Encoding.ofWarp (fun hc => decode_V .mad 0x05 (fun w0 w1 h => by unfold warpDecode; rw [h]; rfl) f rfl hc) rfl
theorem Encoding.madw : ∀ f, Encoding.Statement (.madw f) :=
  fun f => Encoding.ofWarp (fun hc => decode_V .madw 0x06 (fun w0 w1 h => by unfold warpDecode; rw [h]; rfl) f rfl hc) rfl
theorem Encoding.min : ∀ f, Encoding.Statement (.min f) :=
  fun f => Encoding.ofWarp (fun hc => decode_V .min 0x07 (fun w0 w1 h => by unfold warpDecode; rw [h]; rfl) f rfl hc) rfl
theorem Encoding.max : ∀ f, Encoding.Statement (.max f) :=
  fun f => Encoding.ofWarp (fun hc => decode_V .max 0x08 (fun w0 w1 h => by unfold warpDecode; rw [h]; rfl) f rfl hc) rfl
theorem Encoding.abs : ∀ f, Encoding.Statement (.abs f) :=
  fun f => Encoding.ofWarp (fun hc => decode_V .abs 0x09 (fun w0 w1 h => by unfold warpDecode; rw [h]; rfl) f rfl hc) rfl
theorem Encoding.neg : ∀ f, Encoding.Statement (.neg f) :=
  fun f => Encoding.ofWarp (fun hc => decode_V .neg 0x0A (fun w0 w1 h => by unfold warpDecode; rw [h]; rfl) f rfl hc) rfl
theorem Encoding.sad : ∀ f, Encoding.Statement (.sad f) :=
  fun f => Encoding.ofWarp (fun hc => decode_V .sad 0x0B (fun w0 w1 h => by unfold warpDecode; rw [h]; rfl) f rfl hc) rfl
theorem Encoding.dot4 : ∀ f, Encoding.Statement (.dot4 f) :=
  fun f => Encoding.ofWarp (fun hc => decode_V .dot4 0x0C (fun w0 w1 h => by unfold warpDecode; rw [h]; rfl) f rfl hc) rfl
theorem Encoding.shl : ∀ f, Encoding.Statement (.shl f) :=
  fun f => Encoding.ofWarp (fun hc => decode_V .shl 0x0D (fun w0 w1 h => by unfold warpDecode; rw [h]; rfl) f rfl hc) rfl
theorem Encoding.shr : ∀ f, Encoding.Statement (.shr f) :=
  fun f => Encoding.ofWarp (fun hc => decode_V .shr 0x0E (fun w0 w1 h => by unfold warpDecode; rw [h]; rfl) f rfl hc) rfl
theorem Encoding.sar : ∀ f, Encoding.Statement (.sar f) :=
  fun f => Encoding.ofWarp (fun hc => decode_V .sar 0x0F (fun w0 w1 h => by unfold warpDecode; rw [h]; rfl) f rfl hc) rfl
theorem Encoding.rot : ∀ f, Encoding.Statement (.rot f) :=
  fun f => Encoding.ofWarp (fun hc => decode_V .rot 0x10 (fun w0 w1 h => by unfold warpDecode; rw [h]; rfl) f rfl hc) rfl
theorem Encoding.and : ∀ f, Encoding.Statement (.and f) :=
  fun f => Encoding.ofWarp (fun hc => decode_V .and 0x11 (fun w0 w1 h => by unfold warpDecode; rw [h]; rfl) f rfl hc) rfl
theorem Encoding.or : ∀ f, Encoding.Statement (.or f) :=
  fun f => Encoding.ofWarp (fun hc => decode_V .or 0x12 (fun w0 w1 h => by unfold warpDecode; rw [h]; rfl) f rfl hc) rfl
theorem Encoding.xor : ∀ f, Encoding.Statement (.xor f) :=
  fun f => Encoding.ofWarp (fun hc => decode_V .xor 0x13 (fun w0 w1 h => by unfold warpDecode; rw [h]; rfl) f rfl hc) rfl
theorem Encoding.not : ∀ f, Encoding.Statement (.not f) :=
  fun f => Encoding.ofWarp (fun hc => decode_V .not 0x14 (fun w0 w1 h => by unfold warpDecode; rw [h]; rfl) f rfl hc) rfl
theorem Encoding.bool3 : ∀ f, Encoding.Statement (.bool3 f) :=
  fun f => Encoding.ofWarp (fun hc => decode_V .bool3 0x15 (fun w0 w1 h => by unfold warpDecode; rw [h]; rfl) f rfl hc) rfl
theorem Encoding.bfx : ∀ f, Encoding.Statement (.bfx f) :=
  fun f => Encoding.ofWarp (fun hc => decode_V .bfx 0x16 (fun w0 w1 h => by unfold warpDecode; rw [h]; rfl) f rfl hc) rfl
theorem Encoding.bfi : ∀ f, Encoding.Statement (.bfi f) :=
  fun f => Encoding.ofWarp (fun hc => decode_V .bfi 0x17 (fun w0 w1 h => by unfold warpDecode; rw [h]; rfl) f rfl hc) rfl
theorem Encoding.brev : ∀ f, Encoding.Statement (.brev f) :=
  fun f => Encoding.ofWarp (fun hc => decode_V .brev 0x18 (fun w0 w1 h => by unfold warpDecode; rw [h]; rfl) f rfl hc) rfl
theorem Encoding.popc : ∀ f, Encoding.Statement (.popc f) :=
  fun f => Encoding.ofWarp (fun hc => decode_V .popc 0x19 (fun w0 w1 h => by unfold warpDecode; rw [h]; rfl) f rfl hc) rfl
theorem Encoding.clz : ∀ f, Encoding.Statement (.clz f) :=
  fun f => Encoding.ofWarp (fun hc => decode_V .clz 0x1A (fun w0 w1 h => by unfold warpDecode; rw [h]; rfl) f rfl hc) rfl
theorem Encoding.ctz : ∀ f, Encoding.Statement (.ctz f) :=
  fun f => Encoding.ofWarp (fun hc => decode_V .ctz 0x1B (fun w0 w1 h => by unfold warpDecode; rw [h]; rfl) f rfl hc) rfl
theorem Encoding.cmp : ∀ f, Encoding.Statement (.cmp f) :=
  fun f => Encoding.ofWarp (fun hc => decode_V .cmp 0x1C (fun w0 w1 h => by unfold warpDecode; rw [h]; rfl) f rfl hc) rfl
theorem Encoding.sel : ∀ f, Encoding.Statement (.sel f) :=
  fun f => Encoding.ofWarp (fun hc => decode_V .sel 0x1D (fun w0 w1 h => by unfold warpDecode; rw [h]; rfl) f rfl hc) rfl
theorem Encoding.mov : ∀ f, Encoding.Statement (.mov f) :=
  fun f => Encoding.ofWarp (fun hc => decode_V .mov 0x1E (fun w0 w1 h => by unfold warpDecode; rw [h]; rfl) f rfl hc) rfl
theorem Encoding.movi : ∀ f, Encoding.Statement (.movi f) :=
  fun f => Encoding.ofWarp (fun hc => decode_I .movi 0x1F (fun w0 w1 h => by unfold warpDecode; rw [h]; rfl) f rfl hc) rfl
theorem Encoding.fadd : ∀ f, Encoding.Statement (.fadd f) :=
  fun f => Encoding.ofWarp (fun hc => decode_V .fadd 0x20 (fun w0 w1 h => by unfold warpDecode; rw [h]; rfl) f rfl hc) rfl
theorem Encoding.fsub : ∀ f, Encoding.Statement (.fsub f) :=
  fun f => Encoding.ofWarp (fun hc => decode_V .fsub 0x21 (fun w0 w1 h => by unfold warpDecode; rw [h]; rfl) f rfl hc) rfl
theorem Encoding.fmul : ∀ f, Encoding.Statement (.fmul f) :=
  fun f => Encoding.ofWarp (fun hc => decode_V .fmul 0x22 (fun w0 w1 h => by unfold warpDecode; rw [h]; rfl) f rfl hc) rfl
theorem Encoding.ffma : ∀ f, Encoding.Statement (.ffma f) :=
  fun f => Encoding.ofWarp (fun hc => decode_V .ffma 0x23 (fun w0 w1 h => by unfold warpDecode; rw [h]; rfl) f rfl hc) rfl
theorem Encoding.fmin : ∀ f, Encoding.Statement (.fmin f) :=
  fun f => Encoding.ofWarp (fun hc => decode_V .fmin 0x24 (fun w0 w1 h => by unfold warpDecode; rw [h]; rfl) f rfl hc) rfl
theorem Encoding.fmax : ∀ f, Encoding.Statement (.fmax f) :=
  fun f => Encoding.ofWarp (fun hc => decode_V .fmax 0x25 (fun w0 w1 h => by unfold warpDecode; rw [h]; rfl) f rfl hc) rfl
theorem Encoding.fcmp : ∀ f, Encoding.Statement (.fcmp f) :=
  fun f => Encoding.ofWarp (fun hc => decode_V .fcmp 0x26 (fun w0 w1 h => by unfold warpDecode; rw [h]; rfl) f rfl hc) rfl
theorem Encoding.fclass : ∀ f, Encoding.Statement (.fclass f) :=
  fun f => Encoding.ofWarp (fun hc => decode_V .fclass 0x27 (fun w0 w1 h => by unfold warpDecode; rw [h]; rfl) f rfl hc) rfl
theorem Encoding.frnd : ∀ f, Encoding.Statement (.frnd f) :=
  fun f => Encoding.ofWarp (fun hc => decode_V .frnd 0x28 (fun w0 w1 h => by unfold warpDecode; rw [h]; rfl) f rfl hc) rfl
theorem Encoding.fscale : ∀ f, Encoding.Statement (.fscale f) :=
  fun f => Encoding.ofWarp (fun hc => decode_V .fscale 0x29 (fun w0 w1 h => by unfold warpDecode; rw [h]; rfl) f rfl hc) rfl
theorem Encoding.fclamp : ∀ f, Encoding.Statement (.fclamp f) :=
  fun f => Encoding.ofWarp (fun hc => decode_V .fclamp 0x2A (fun w0 w1 h => by unfold warpDecode; rw [h]; rfl) f rfl hc) rfl
theorem Encoding.fdiv : ∀ f, Encoding.Statement (.fdiv f) :=
  fun f => Encoding.ofWarp (fun hc => decode_V .fdiv 0x2B (fun w0 w1 h => by unfold warpDecode; rw [h]; rfl) f rfl hc) rfl
theorem Encoding.fsqrt : ∀ f, Encoding.Statement (.fsqrt f) :=
  fun f => Encoding.ofWarp (fun hc => decode_V .fsqrt 0x2C (fun w0 w1 h => by unfold warpDecode; rw [h]; rfl) f rfl hc) rfl
theorem Encoding.frcp : ∀ f, Encoding.Statement (.frcp f) :=
  fun f => Encoding.ofWarp (fun hc => decode_V .frcp 0x2D (fun w0 w1 h => by unfold warpDecode; rw [h]; rfl) f rfl hc) rfl
theorem Encoding.frsqrt : ∀ f, Encoding.Statement (.frsqrt f) :=
  fun f => Encoding.ofWarp (fun hc => decode_V .frsqrt 0x2E (fun w0 w1 h => by unfold warpDecode; rw [h]; rfl) f rfl hc) rfl
theorem Encoding.fexp2 : ∀ f, Encoding.Statement (.fexp2 f) :=
  fun f => Encoding.ofWarp (fun hc => decode_V .fexp2 0x2F (fun w0 w1 h => by unfold warpDecode; rw [h]; rfl) f rfl hc) rfl
theorem Encoding.flog2 : ∀ f, Encoding.Statement (.flog2 f) :=
  fun f => Encoding.ofWarp (fun hc => decode_V .flog2 0x30 (fun w0 w1 h => by unfold warpDecode; rw [h]; rfl) f rfl hc) rfl
theorem Encoding.fsin : ∀ f, Encoding.Statement (.fsin f) :=
  fun f => Encoding.ofWarp (fun hc => decode_V .fsin 0x31 (fun w0 w1 h => by unfold warpDecode; rw [h]; rfl) f rfl hc) rfl
theorem Encoding.fcos : ∀ f, Encoding.Statement (.fcos f) :=
  fun f => Encoding.ofWarp (fun hc => decode_V .fcos 0x32 (fun w0 w1 h => by unfold warpDecode; rw [h]; rfl) f rfl hc) rfl
theorem Encoding.ftanh : ∀ f, Encoding.Statement (.ftanh f) :=
  fun f => Encoding.ofWarp (fun hc => decode_V .ftanh 0x33 (fun w0 w1 h => by unfold warpDecode; rw [h]; rfl) f rfl hc) rfl
theorem Encoding.fsigm : ∀ f, Encoding.Statement (.fsigm f) :=
  fun f => Encoding.ofWarp (fun hc => decode_V .fsigm 0x34 (fun w0 w1 h => by unfold warpDecode; rw [h]; rfl) f rfl hc) rfl
theorem Encoding.pfma : ∀ f, Encoding.Statement (.pfma f) :=
  fun f => Encoding.ofWarp (fun hc => decode_V .pfma 0x35 (fun w0 w1 h => by unfold warpDecode; rw [h]; rfl) f rfl hc) rfl
theorem Encoding.padd : ∀ f, Encoding.Statement (.padd f) :=
  fun f => Encoding.ofWarp (fun hc => decode_V .padd 0x36 (fun w0 w1 h => by unfold warpDecode; rw [h]; rfl) f rfl hc) rfl
theorem Encoding.pmul : ∀ f, Encoding.Statement (.pmul f) :=
  fun f => Encoding.ofWarp (fun hc => decode_V .pmul 0x37 (fun w0 w1 h => by unfold warpDecode; rw [h]; rfl) f rfl hc) rfl
theorem Encoding.cvt : ∀ f, Encoding.Statement (.cvt f) :=
  fun f => Encoding.ofWarp (fun hc => decode_V .cvt 0x38 (fun w0 w1 h => by unfold warpDecode; rw [h]; rfl) f rfl hc) rfl
theorem Encoding.qto : ∀ f, Encoding.Statement (.qto f) :=
  fun f => Encoding.ofWarp (fun hc => decode_V .qto 0x39 (fun w0 w1 h => by unfold warpDecode; rw [h]; rfl) f rfl hc) rfl
theorem Encoding.qfrom : ∀ f, Encoding.Statement (.qfrom f) :=
  fun f => Encoding.ofWarp (fun hc => decode_V .qfrom 0x3A (fun w0 w1 h => by unfold warpDecode; rw [h]; rfl) f rfl hc) rfl
theorem Encoding.qpack : ∀ f, Encoding.Statement (.qpack f) :=
  fun f => Encoding.ofWarp (fun hc => decode_V .qpack 0x3B (fun w0 w1 h => by unfold warpDecode; rw [h]; rfl) f rfl hc) rfl
theorem Encoding.qunpk : ∀ f, Encoding.Statement (.qunpk f) :=
  fun f => Encoding.ofWarp (fun hc => decode_V .qunpk 0x3C (fun w0 w1 h => by unfold warpDecode; rw [h]; rfl) f rfl hc) rfl
theorem Encoding.bscl : ∀ f, Encoding.Statement (.bscl f) :=
  fun f => Encoding.ofWarp (fun hc => decode_V .bscl 0x3D (fun w0 w1 h => by unfold warpDecode; rw [h]; rfl) f rfl hc) rfl
theorem Encoding.fsld : ∀ f, Encoding.Statement (.fsld f) :=
  fun f => Encoding.ofWarp (fun hc => decode_V .fsld 0x3E (fun w0 w1 h => by unfold warpDecode; rw [h]; rfl) f rfl hc) rfl
theorem Encoding.cvtp : ∀ f, Encoding.Statement (.cvtp f) :=
  fun f => Encoding.ofWarp (fun hc => decode_V .cvtp 0x3F (fun w0 w1 h => by unfold warpDecode; rw [h]; rfl) f rfl hc) rfl
theorem Encoding.lsel : ∀ f, Encoding.Statement (.lsel f) :=
  fun f => Encoding.ofWarp (fun hc => decode_V .lsel 0x40 (fun w0 w1 h => by unfold warpDecode; rw [h]; rfl) f rfl hc) rfl
theorem Encoding.patld : ∀ f, Encoding.Statement (.patld f) :=
  fun f => Encoding.ofWarp (fun hc => decode_V .patld 0x41 (fun w0 w1 h => by unfold warpDecode; rw [h]; rfl) f rfl hc) rfl
theorem Encoding.poll : ∀ f, Encoding.Statement (.poll f) :=
  fun f => Encoding.ofWarp (fun hc => decode_V .poll 0x42 (fun w0 w1 h => by unfold warpDecode; rw [h]; rfl) f rfl hc) rfl
theorem Encoding.eqset : ∀ f, Encoding.Statement (.eqset f) :=
  fun f => Encoding.ofWarp (fun hc => decode_V .eqset 0x43 (fun w0 w1 h => by unfold warpDecode; rw [h]; rfl) f rfl hc) rfl
theorem Encoding.wred : ∀ f, Encoding.Statement (.wred f) :=
  fun f => Encoding.ofWarp (fun hc => decode_V .wred 0x44 (fun w0 w1 h => by unfold warpDecode; rw [h]; rfl) f rfl hc) rfl
theorem Encoding.wscan : ∀ f, Encoding.Statement (.wscan f) :=
  fun f => Encoding.ofWarp (fun hc => decode_V .wscan 0x45 (fun w0 w1 h => by unfold warpDecode; rw [h]; rfl) f rfl hc) rfl
theorem Encoding.lead : ∀ f, Encoding.Statement (.lead f) :=
  fun f => Encoding.ofWarp (fun hc => decode_V .lead 0x46 (fun w0 w1 h => by unfold warpDecode; rw [h]; rfl) f rfl hc) rfl
theorem Encoding.v2s : ∀ f, Encoding.Statement (.v2s f) :=
  fun f => Encoding.ofWarp (fun hc => decode_V .v2s 0x47 (fun w0 w1 h => by unfold warpDecode; rw [h]; rfl) f rfl hc) rfl
theorem Encoding.tfill : ∀ f, Encoding.Statement (.tfill f) :=
  fun f => Encoding.ofWarp (fun hc => decode_T .tfill 0x48 (fun w0 w1 h => by unfold warpDecode; rw [h]; rfl) f rfl hc) rfl
theorem Encoding.tread : ∀ f, Encoding.Statement (.tread f) :=
  fun f => Encoding.ofWarp (fun hc => decode_T .tread 0x49 (fun w0 w1 h => by unfold warpDecode; rw [h]; rfl) f rfl hc) rfl
theorem Encoding.ldG : ∀ f, Encoding.Statement (.ldG f) :=
  fun f => Encoding.ofWarp (fun hc => decode_M .ldG 0x50 (fun w0 w1 h => by unfold warpDecode; rw [h]; rfl) f rfl hc) rfl
theorem Encoding.stG : ∀ f, Encoding.Statement (.stG f) :=
  fun f => Encoding.ofWarp (fun hc => decode_M .stG 0x51 (fun w0 w1 h => by unfold warpDecode; rw [h]; rfl) f rfl hc) rfl
theorem Encoding.ldL : ∀ f, Encoding.Statement (.ldL f) :=
  fun f => Encoding.ofWarp (fun hc => decode_M .ldL 0x52 (fun w0 w1 h => by unfold warpDecode; rw [h]; rfl) f rfl hc) rfl
theorem Encoding.stL : ∀ f, Encoding.Statement (.stL f) :=
  fun f => Encoding.ofWarp (fun hc => decode_M .stL 0x53 (fun w0 w1 h => by unfold warpDecode; rw [h]; rfl) f rfl hc) rfl
theorem Encoding.ldC : ∀ f, Encoding.Statement (.ldC f) :=
  fun f => Encoding.ofWarp (fun hc => decode_M .ldC 0x54 (fun w0 w1 h => by unfold warpDecode; rw [h]; rfl) f rfl hc) rfl
theorem Encoding.stC : ∀ f, Encoding.Statement (.stC f) :=
  fun f => Encoding.ofWarp (fun hc => decode_M .stC 0x55 (fun w0 w1 h => by unfold warpDecode; rw [h]; rfl) f rfl hc) rfl
theorem Encoding.ldP : ∀ f, Encoding.Statement (.ldP f) :=
  fun f => Encoding.ofWarp (fun hc => decode_M .ldP 0x56 (fun w0 w1 h => by unfold warpDecode; rw [h]; rfl) f rfl hc) rfl
theorem Encoding.stP : ∀ f, Encoding.Statement (.stP f) :=
  fun f => Encoding.ofWarp (fun hc => decode_M .stP 0x57 (fun w0 w1 h => by unfold warpDecode; rw [h]; rfl) f rfl hc) rfl
theorem Encoding.pf : ∀ f, Encoding.Statement (.pf f) :=
  fun f => Encoding.ofWarp (fun hc => decode_M .pf 0x58 (fun w0 w1 h => by unfold warpDecode; rw [h]; rfl) f rfl hc) rfl
theorem Encoding.fe : ∀ f, Encoding.Statement (.fe f) :=
  fun f => Encoding.ofWarp (fun hc => decode_M .fe 0x59 (fun w0 w1 h => by unfold warpDecode; rw [h]; rfl) f rfl hc) rfl
theorem Encoding.l1wb : ∀ f, Encoding.Statement (.l1wb f) :=
  fun f => Encoding.ofWarp (fun hc => decode_M .l1wb 0x5A (fun w0 w1 h => by unfold warpDecode; rw [h]; rfl) f rfl hc) rfl
theorem Encoding.l1inv : ∀ f, Encoding.Statement (.l1inv f) :=
  fun f => Encoding.ofWarp (fun hc => decode_M .l1inv 0x5B (fun w0 w1 h => by unfold warpDecode; rw [h]; rfl) f rfl hc) rfl
theorem Encoding.kvkey : ∀ f, Encoding.Statement (.kvkey f) :=
  fun f => Encoding.ofWarp (fun hc => decode_V .kvkey 0x5C (fun w0 w1 h => by unfold warpDecode; rw [h]; rfl) f rfl hc) rfl
theorem Encoding.atom : ∀ f, Encoding.Statement (.atom f) :=
  fun f => Encoding.ofWarp (fun hc => decode_A .atom 0x60 (fun w0 w1 h => by unfold warpDecode; rw [h]; rfl) f rfl hc) rfl
theorem Encoding.atomf : ∀ f, Encoding.Statement (.atomf f) :=
  fun f => Encoding.ofWarp (fun hc => decode_A .atomf 0x61 (fun w0 w1 h => by unfold warpDecode; rw [h]; rfl) f rfl hc) rfl
theorem Encoding.cas : ∀ f, Encoding.Statement (.cas f) :=
  fun f => Encoding.ofWarp (fun hc => decode_A .cas 0x62 (fun w0 w1 h => by unfold warpDecode; rw [h]; rfl) f rfl hc) rfl
theorem Encoding.ldres : ∀ f, Encoding.Statement (.ldres f) :=
  fun f => Encoding.ofWarp (fun hc => decode_M .ldres 0x63 (fun w0 w1 h => by unfold warpDecode; rw [h]; rfl) f rfl hc) rfl
theorem Encoding.stcond : ∀ f, Encoding.Statement (.stcond f) :=
  fun f => Encoding.ofWarp (fun hc => decode_M .stcond 0x64 (fun w0 w1 h => by unfold warpDecode; rw [h]; rfl) f rfl hc) rfl
theorem Encoding.fence : ∀ f, Encoding.Statement (.fence f) :=
  fun f => Encoding.ofWarp (fun hc => decode_M .fence 0x65 (fun w0 w1 h => by unfold warpDecode; rw [h]; rfl) f rfl hc) rfl
theorem Encoding.forage : ∀ f, Encoding.Statement (.forage f) :=
  fun f => Encoding.ofWarp (fun hc => decode_M .forage 0x66 (fun w0 w1 h => by unfold warpDecode; rw [h]; rfl) f rfl hc) rfl
theorem Encoding.bar : ∀ f, Encoding.Statement (.bar f) :=
  fun f => Encoding.ofWarp (fun hc => decode_M .bar 0x67 (fun w0 w1 h => by unfold warpDecode; rw [h]; rfl) f rfl hc) rfl
theorem Encoding.cntwt : ∀ f, Encoding.Statement (.cntwt f) :=
  fun f => Encoding.ofWarp (fun hc => decode_M .cntwt 0x68 (fun w0 w1 h => by unfold warpDecode; rw [h]; rfl) f rfl hc) rfl
theorem Encoding.cntadd : ∀ f, Encoding.Statement (.cntadd f) :=
  fun f => Encoding.ofWarp (fun hc => decode_M .cntadd 0x69 (fun w0 w1 h => by unfold warpDecode; rw [h]; rfl) f rfl hc) rfl
theorem Encoding.bra : ∀ f, Encoding.Statement (.bra f) :=
  fun f => Encoding.ofWarp (fun hc => decode_I .bra 0x6C (fun w0 w1 h => by unfold warpDecode; rw [h]; rfl) f rfl hc) rfl
theorem Encoding.brx : ∀ f, Encoding.Statement (.brx f) :=
  fun f => Encoding.ofWarp (fun hc => decode_V .brx 0x6D (fun w0 w1 h => by unfold warpDecode; rw [h]; rfl) f rfl hc) rfl
theorem Encoding.call : ∀ f, Encoding.Statement (.call f) :=
  fun f => Encoding.ofWarp (fun hc => decode_I .call 0x6E (fun w0 w1 h => by unfold warpDecode; rw [h]; rfl) f rfl hc) rfl
theorem Encoding.callx : ∀ f, Encoding.Statement (.callx f) :=
  fun f => Encoding.ofWarp (fun hc => decode_V .callx 0x6F (fun w0 w1 h => by unfold warpDecode; rw [h]; rfl) f rfl hc) rfl
theorem Encoding.ret : ∀ f, Encoding.Statement (.ret f) :=
  fun f => Encoding.ofWarp (fun hc => decode_V .ret 0x70 (fun w0 w1 h => by unfold warpDecode; rw [h]; rfl) f rfl hc) rfl
theorem Encoding.join : ∀ f, Encoding.Statement (.join f) :=
  fun f => Encoding.ofWarp (fun hc => decode_I .join 0x71 (fun w0 w1 h => by unfold warpDecode; rw [h]; rfl) f rfl hc) rfl
theorem Encoding.dqpop : ∀ f, Encoding.Statement (.dqpop f) :=
  fun f => Encoding.ofWarp (fun hc => decode_V .dqpop 0x72 (fun w0 w1 h => by unfold warpDecode; rw [h]; rfl) f rfl hc) rfl
theorem Encoding.dqbr : ∀ f, Encoding.Statement (.dqbr f) :=
  fun f => Encoding.ofWarp (fun hc => decode_V .dqbr 0x73 (fun w0 w1 h => by unfold warpDecode; rw [h]; rfl) f rfl hc) rfl
theorem Encoding.exit : ∀ f, Encoding.Statement (.exit f) :=
  fun f => Encoding.ofWarp (fun hc => decode_V .exit 0x74 (fun w0 w1 h => by unfold warpDecode; rw [h]; rfl) f rfl hc) rfl
theorem Encoding.trap : ∀ f, Encoding.Statement (.trap f) :=
  fun f => Encoding.ofWarp (fun hc => decode_V .trap 0x75 (fun w0 w1 h => by unfold warpDecode; rw [h]; rfl) f rfl hc) rfl
theorem Encoding.brk : ∀ f, Encoding.Statement (.brk f) :=
  fun f => Encoding.ofWarp (fun hc => decode_V .brk 0x76 (fun w0 w1 h => by unfold warpDecode; rw [h]; rfl) f rfl hc) rfl
theorem Encoding.svc : ∀ f, Encoding.Statement (.svc f) :=
  fun f => Encoding.ofWarp (fun hc => decode_V .svc 0x77 (fun w0 w1 h => by unfold warpDecode; rw [h]; rfl) f rfl hc) rfl
theorem Encoding.wake : ∀ f, Encoding.Statement (.wake f) :=
  fun f => Encoding.ofWarp (fun hc => decode_V .wake 0x78 (fun w0 w1 h => by unfold warpDecode; rw [h]; rfl) f rfl hc) rfl
theorem Encoding.sreg : ∀ f, Encoding.Statement (.sreg f) :=
  fun f => Encoding.ofWarp (fun hc => decode_V .sreg 0x79 (fun w0 w1 h => by unfold warpDecode; rw [h]; rfl) f rfl hc) rfl
theorem Encoding.swreg : ∀ f, Encoding.Statement (.swreg f) :=
  fun f => Encoding.ofWarp (fun hc => decode_V .swreg 0x7A (fun w0 w1 h => by unfold warpDecode; rw [h]; rfl) f rfl hc) rfl
theorem Encoding.yield : ∀ f, Encoding.Statement (.yield f) :=
  fun f => Encoding.ofWarp (fun hc => decode_V .yield 0x7B (fun w0 w1 h => by unfold warpDecode; rw [h]; rfl) f rfl hc) rfl
theorem Encoding.nop : ∀ f, Encoding.Statement (.nop f) :=
  fun f => Encoding.ofWarp (fun hc => decode_V .nop 0x7C (fun w0 w1 h => by unfold warpDecode; rw [h]; rfl) f rfl hc) rfl
theorem Encoding.resume : ∀ f, Encoding.Statement (.resume f) :=
  fun f => Encoding.ofWarp (fun hc => decode_V .resume 0x7D (fun w0 w1 h => by unfold warpDecode; rw [h]; rfl) f rfl hc) rfl
theorem Encoding.twait : ∀ f, Encoding.Statement (.twait f) :=
  fun f => Encoding.ofWarp (fun hc => decode_V .twait 0x7E (fun w0 w1 h => by unfold warpDecode; rw [h]; rfl) f rfl hc) rfl
theorem Encoding.cadd : ∀ f, Encoding.Statement (.cadd f) :=
  fun f => Encoding.ofCue (fun hc => decode_Q .cadd 0x01 (fun w0 w1 h => by unfold cueDecode; rw [h]; rfl) f rfl hc) rfl
theorem Encoding.csub : ∀ f, Encoding.Statement (.csub f) :=
  fun f => Encoding.ofCue (fun hc => decode_Q .csub 0x02 (fun w0 w1 h => by unfold cueDecode; rw [h]; rfl) f rfl hc) rfl
theorem Encoding.cmul : ∀ f, Encoding.Statement (.cmul f) :=
  fun f => Encoding.ofCue (fun hc => decode_Q .cmul 0x03 (fun w0 w1 h => by unfold cueDecode; rw [h]; rfl) f rfl hc) rfl
theorem Encoding.cmulh : ∀ f, Encoding.Statement (.cmulh f) :=
  fun f => Encoding.ofCue (fun hc => decode_Q .cmulh 0x04 (fun w0 w1 h => by unfold cueDecode; rw [h]; rfl) f rfl hc) rfl
theorem Encoding.cdiv : ∀ f, Encoding.Statement (.cdiv f) :=
  fun f => Encoding.ofCue (fun hc => decode_Q .cdiv 0x05 (fun w0 w1 h => by unfold cueDecode; rw [h]; rfl) f rfl hc) rfl
theorem Encoding.cand : ∀ f, Encoding.Statement (.cand f) :=
  fun f => Encoding.ofCue (fun hc => decode_Q .cand 0x06 (fun w0 w1 h => by unfold cueDecode; rw [h]; rfl) f rfl hc) rfl
theorem Encoding.cor : ∀ f, Encoding.Statement (.cor f) :=
  fun f => Encoding.ofCue (fun hc => decode_Q .cor 0x07 (fun w0 w1 h => by unfold cueDecode; rw [h]; rfl) f rfl hc) rfl
theorem Encoding.cxor : ∀ f, Encoding.Statement (.cxor f) :=
  fun f => Encoding.ofCue (fun hc => decode_Q .cxor 0x08 (fun w0 w1 h => by unfold cueDecode; rw [h]; rfl) f rfl hc) rfl
theorem Encoding.cshl : ∀ f, Encoding.Statement (.cshl f) :=
  fun f => Encoding.ofCue (fun hc => decode_Q .cshl 0x09 (fun w0 w1 h => by unfold cueDecode; rw [h]; rfl) f rfl hc) rfl
theorem Encoding.cshr : ∀ f, Encoding.Statement (.cshr f) :=
  fun f => Encoding.ofCue (fun hc => decode_Q .cshr 0x0A (fun w0 w1 h => by unfold cueDecode; rw [h]; rfl) f rfl hc) rfl
theorem Encoding.csar : ∀ f, Encoding.Statement (.csar f) :=
  fun f => Encoding.ofCue (fun hc => decode_Q .csar 0x0B (fun w0 w1 h => by unfold cueDecode; rw [h]; rfl) f rfl hc) rfl
theorem Encoding.cmin : ∀ f, Encoding.Statement (.cmin f) :=
  fun f => Encoding.ofCue (fun hc => decode_Q .cmin 0x0C (fun w0 w1 h => by unfold cueDecode; rw [h]; rfl) f rfl hc) rfl
theorem Encoding.cmax : ∀ f, Encoding.Statement (.cmax f) :=
  fun f => Encoding.ofCue (fun hc => decode_Q .cmax 0x0D (fun w0 w1 h => by unfold cueDecode; rw [h]; rfl) f rfl hc) rfl
theorem Encoding.cbfx : ∀ f, Encoding.Statement (.cbfx f) :=
  fun f => Encoding.ofCue (fun hc => decode_Q .cbfx 0x0E (fun w0 w1 h => by unfold cueDecode; rw [h]; rfl) f rfl hc) rfl
theorem Encoding.cbfi : ∀ f, Encoding.Statement (.cbfi f) :=
  fun f => Encoding.ofCue (fun hc => decode_Q .cbfi 0x0F (fun w0 w1 h => by unfold cueDecode; rw [h]; rfl) f rfl hc) rfl
theorem Encoding.cpopc : ∀ f, Encoding.Statement (.cpopc f) :=
  fun f => Encoding.ofCue (fun hc => decode_Q .cpopc 0x10 (fun w0 w1 h => by unfold cueDecode; rw [h]; rfl) f rfl hc) rfl
theorem Encoding.cclz : ∀ f, Encoding.Statement (.cclz f) :=
  fun f => Encoding.ofCue (fun hc => decode_Q .cclz 0x11 (fun w0 w1 h => by unfold cueDecode; rw [h]; rfl) f rfl hc) rfl
theorem Encoding.cmov : ∀ f, Encoding.Statement (.cmov f) :=
  fun f => Encoding.ofCue (fun hc => decode_Q .cmov 0x12 (fun w0 w1 h => by unfold cueDecode; rw [h]; rfl) f rfl hc) rfl
theorem Encoding.cli : ∀ f, Encoding.Statement (.cli f) :=
  fun f => Encoding.ofCue (fun hc => decode_Q .cli 0x13 (fun w0 w1 h => by unfold cueDecode; rw [h]; rfl) f rfl hc) rfl
theorem Encoding.ccmp : ∀ f, Encoding.Statement (.ccmp f) :=
  fun f => Encoding.ofCue (fun hc => decode_Q .ccmp 0x14 (fun w0 w1 h => by unfold cueDecode; rw [h]; rfl) f rfl hc) rfl
theorem Encoding.csel : ∀ f, Encoding.Statement (.csel f) :=
  fun f => Encoding.ofCue (fun hc => decode_Q .csel 0x15 (fun w0 w1 h => by unfold cueDecode; rw [h]; rfl) f rfl hc) rfl
theorem Encoding.cb : ∀ f, Encoding.Statement (.cb f) :=
  fun f => Encoding.ofCue (fun hc => decode_Q .cb 0x16 (fun w0 w1 h => by unfold cueDecode; rw [h]; rfl) f rfl hc) rfl
theorem Encoding.cbx : ∀ f, Encoding.Statement (.cbx f) :=
  fun f => Encoding.ofCue (fun hc => decode_Q .cbx 0x17 (fun w0 w1 h => by unfold cueDecode; rw [h]; rfl) f rfl hc) rfl
theorem Encoding.ccall : ∀ f, Encoding.Statement (.ccall f) :=
  fun f => Encoding.ofCue (fun hc => decode_Q .ccall 0x18 (fun w0 w1 h => by unfold cueDecode; rw [h]; rfl) f rfl hc) rfl
theorem Encoding.cret : ∀ f, Encoding.Statement (.cret f) :=
  fun f => Encoding.ofCue (fun hc => decode_Q .cret 0x19 (fun w0 w1 h => by unfold cueDecode; rw [h]; rfl) f rfl hc) rfl
theorem Encoding.cld : ∀ f, Encoding.Statement (.cld f) :=
  fun f => Encoding.ofCue (fun hc => decode_QM .cld 0x1A (fun w0 w1 h => by unfold cueDecode; rw [h]; rfl) f rfl hc) rfl
theorem Encoding.cst : ∀ f, Encoding.Statement (.cst f) :=
  fun f => Encoding.ofCue (fun hc => decode_QM .cst 0x1B (fun w0 w1 h => by unfold cueDecode; rw [h]; rfl) f rfl hc) rfl
theorem Encoding.catom : ∀ f, Encoding.Statement (.catom f) :=
  fun f => Encoding.ofCue (fun hc => decode_QM .catom 0x1C (fun w0 w1 h => by unfold cueDecode; rw [h]; rfl) f rfl hc) rfl
theorem Encoding.cfence : ∀ f, Encoding.Statement (.cfence f) :=
  fun f => Encoding.ofCue (fun hc => decode_QM .cfence 0x1D (fun w0 w1 h => by unfold cueDecode; rw [h]; rfl) f rfl hc) rfl
theorem Encoding.dqpush : ∀ f, Encoding.Statement (.dqpush f) :=
  fun f => Encoding.ofCue (fun hc => decode_Q .dqpush 0x1E (fun w0 w1 h => by unfold cueDecode; rw [h]; rfl) f rfl hc) rfl
theorem Encoding.launch : ∀ f, Encoding.Statement (.launch f) :=
  fun f => Encoding.ofCue (fun hc => decode_QE .launch 0x1F (fun w0 w1 h => by unfold cueDecode; rw [h]; rfl) f rfl hc) rfl
theorem Encoding.wgbar : ∀ f, Encoding.Statement (.wgbar f) :=
  fun f => Encoding.ofCue (fun hc => decode_Q .wgbar 0x20 (fun w0 w1 h => by unfold cueDecode; rw [h]; rfl) f rfl hc) rfl
theorem Encoding.cwait : ∀ f, Encoding.Statement (.cwait f) :=
  fun f => Encoding.ofCue (fun hc => decode_Q .cwait 0x21 (fun w0 w1 h => by unfold cueDecode; rw [h]; rfl) f rfl hc) rfl
theorem Encoding.cforage : ∀ f, Encoding.Statement (.cforage f) :=
  fun f => Encoding.ofCue (fun hc => decode_QM .cforage 0x22 (fun w0 w1 h => by unfold cueDecode; rw [h]; rfl) f rfl hc) rfl
theorem Encoding.cmig : ∀ f, Encoding.Statement (.cmig f) :=
  fun f => Encoding.ofCue (fun hc => decode_Q .cmig 0x23 (fun w0 w1 h => by unfold cueDecode; rw [h]; rfl) f rfl hc) rfl
theorem Encoding.cend : ∀ f, Encoding.Statement (.cend f) :=
  fun f => Encoding.ofCue (fun hc => decode_Q .cend 0x24 (fun w0 w1 h => by unfold cueDecode; rw [h]; rfl) f rfl hc) rfl
theorem Encoding.cslot : ∀ f, Encoding.Statement (.cslot f) :=
  fun f => Encoding.ofCue (fun hc => decode_Q .cslot 0x25 (fun w0 w1 h => by unfold cueDecode; rw [h]; rfl) f rfl hc) rfl
theorem Encoding.wstat : ∀ f, Encoding.Statement (.wstat f) :=
  fun f => Encoding.ofCue (fun hc => decode_Q .wstat 0x26 (fun w0 w1 h => by unfold cueDecode; rw [h]; rfl) f rfl hc) rfl
theorem Encoding.tcfg : ∀ f, Encoding.Statement (.tcfg f) :=
  fun f => Encoding.ofCue (fun hc => decode_QE .tcfg 0x28 (fun w0 w1 h => by unfold cueDecode; rw [h]; rfl) f rfl hc) rfl
theorem Encoding.tld : ∀ f, Encoding.Statement (.tld f) :=
  fun f => Encoding.ofCue (fun hc => decode_QE .tld 0x29 (fun w0 w1 h => by unfold cueDecode; rw [h]; rfl) f rfl hc) rfl
theorem Encoding.tsd : ∀ f, Encoding.Statement (.tsd f) :=
  fun f => Encoding.ofCue (fun hc => decode_QE .tsd 0x2A (fun w0 w1 h => by unfold cueDecode; rw [h]; rfl) f rfl hc) rfl
theorem Encoding.tzero : ∀ f, Encoding.Statement (.tzero f) :=
  fun f => Encoding.ofCue (fun hc => decode_QE .tzero 0x2B (fun w0 w1 h => by unfold cueDecode; rw [h]; rfl) f rfl hc) rfl
theorem Encoding.arrw : ∀ f, Encoding.Statement (.arrw f) :=
  fun f => Encoding.ofCue (fun hc => decode_QE .arrw 0x2C (fun w0 w1 h => by unfold cueDecode; rw [h]; rfl) f rfl hc) rfl
theorem Encoding.arrmm : ∀ f, Encoding.Statement (.arrmm f) :=
  fun f => Encoding.ofCue (fun hc => decode_QE .arrmm 0x2D (fun w0 w1 h => by unfold cueDecode; rw [h]; rfl) f rfl hc) rfl
theorem Encoding.arrmmg : ∀ f, Encoding.Statement (.arrmmg f) :=
  fun f => Encoding.ofCue (fun hc => decode_QE .arrmmg 0x2E (fun w0 w1 h => by unfold cueDecode; rw [h]; rfl) f rfl hc) rfl
theorem Encoding.arrdist : ∀ f, Encoding.Statement (.arrdist f) :=
  fun f => Encoding.ofCue (fun hc => decode_QE .arrdist 0x2F (fun w0 w1 h => by unfold cueDecode; rw [h]; rfl) f rfl hc) rfl
theorem Encoding.arrbest : ∀ f, Encoding.Statement (.arrbest f) :=
  fun f => Encoding.ofCue (fun hc => decode_QE .arrbest 0x30 (fun w0 w1 h => by unfold cueDecode; rw [h]; rfl) f rfl hc) rfl
theorem Encoding.arrcent : ∀ f, Encoding.Statement (.arrcent f) :=
  fun f => Encoding.ofCue (fun hc => decode_QE .arrcent 0x31 (fun w0 w1 h => by unfold cueDecode; rw [h]; rfl) f rfl hc) rfl
theorem Encoding.adrain : ∀ f, Encoding.Statement (.adrain f) :=
  fun f => Encoding.ofCue (fun hc => decode_QE .adrain 0x32 (fun w0 w1 h => by unfold cueDecode; rw [h]; rfl) f rfl hc) rfl
theorem Encoding.adrainp : ∀ f, Encoding.Statement (.adrainp f) :=
  fun f => Encoding.ofCue (fun hc => decode_QE .adrainp 0x33 (fun w0 w1 h => by unfold cueDecode; rw [h]; rfl) f rfl hc) rfl
theorem Encoding.adraine : ∀ f, Encoding.Statement (.adraine f) :=
  fun f => Encoding.ofCue (fun hc => decode_QE .adraine 0x34 (fun w0 w1 h => by unfold cueDecode; rw [h]; rfl) f rfl hc) rfl
theorem Encoding.azero : ∀ f, Encoding.Statement (.azero f) :=
  fun f => Encoding.ofCue (fun hc => decode_QE .azero 0x35 (fun w0 w1 h => by unfold cueDecode; rw [h]; rfl) f rfl hc) rfl
theorem Encoding.aload : ∀ f, Encoding.Statement (.aload f) :=
  fun f => Encoding.ofCue (fun hc => decode_QE .aload 0x36 (fun w0 w1 h => by unfold cueDecode; rw [h]; rfl) f rfl hc) rfl
theorem Encoding.txpose : ∀ f, Encoding.Statement (.txpose f) :=
  fun f => Encoding.ofCue (fun hc => decode_QE .txpose 0x37 (fun w0 w1 h => by unfold cueDecode; rw [h]; rfl) f rfl hc) rfl
theorem Encoding.bcp : ∀ f, Encoding.Statement (.bcp f) :=
  fun f => Encoding.ofCue (fun hc => decode_QE .bcp 0x40 (fun w0 w1 h => by unfold cueDecode; rw [h]; rfl) f rfl hc) rfl
theorem Encoding.bgat : ∀ f, Encoding.Statement (.bgat f) :=
  fun f => Encoding.ofCue (fun hc => decode_QE .bgat 0x41 (fun w0 w1 h => by unfold cueDecode; rw [h]; rfl) f rfl hc) rfl
theorem Encoding.bsca : ∀ f, Encoding.Statement (.bsca f) :=
  fun f => Encoding.ofCue (fun hc => decode_QE .bsca 0x42 (fun w0 w1 h => by unfold cueDecode; rw [h]; rfl) f rfl hc) rfl
theorem Encoding.bexp : ∀ f, Encoding.Statement (.bexp f) :=
  fun f => Encoding.ofCue (fun hc => decode_QE .bexp 0x43 (fun w0 w1 h => by unfold cueDecode; rw [h]; rfl) f rfl hc) rfl
theorem Encoding.bfill : ∀ f, Encoding.Statement (.bfill f) :=
  fun f => Encoding.ofCue (fun hc => decode_QE .bfill 0x44 (fun w0 w1 h => by unfold cueDecode; rw [h]; rfl) f rfl hc) rfl
theorem Encoding.bpeer : ∀ f, Encoding.Statement (.bpeer f) :=
  fun f => Encoding.ofCue (fun hc => decode_QE .bpeer 0x45 (fun w0 w1 h => by unfold cueDecode; rw [h]; rfl) f rfl hc) rfl
theorem Encoding.mop : ∀ f, Encoding.Statement (.mop f) :=
  fun f => Encoding.ofCue (fun hc => decode_QE .mop 0x46 (fun w0 w1 h => by unfold cueDecode; rw [h]; rfl) f rfl hc) rfl
theorem Encoding.xopen : ∀ f, Encoding.Statement (.xopen f) :=
  fun f => Encoding.ofCue (fun hc => decode_QE .xopen 0x47 (fun w0 w1 h => by unfold cueDecode; rw [h]; rfl) f rfl hc) rfl
theorem Encoding.xclose : ∀ f, Encoding.Statement (.xclose f) :=
  fun f => Encoding.ofCue (fun hc => decode_QE .xclose 0x48 (fun w0 w1 h => by unfold cueDecode; rw [h]; rfl) f rfl hc) rfl
theorem Encoding.slxp : ∀ f, Encoding.Statement (.slxp f) :=
  fun f => Encoding.ofCue (fun hc => decode_QE .slxp 0x49 (fun w0 w1 h => by unfold cueDecode; rw [h]; rfl) f rfl hc) rfl
theorem Encoding.rsvfill : ∀ f, Encoding.Statement (.rsvfill f) :=
  fun f => Encoding.ofCue (fun hc => decode_QE .rsvfill 0x4A (fun w0 w1 h => by unfold cueDecode; rw [h]; rfl) f rfl hc) rfl
theorem Encoding.rsvdrop : ∀ f, Encoding.Statement (.rsvdrop f) :=
  fun f => Encoding.ofCue (fun hc => decode_QE .rsvdrop 0x4B (fun w0 w1 h => by unfold cueDecode; rw [h]; rfl) f rfl hc) rfl
theorem Encoding.rsvq : ∀ f, Encoding.Statement (.rsvq f) :=
  fun f => Encoding.ofCue (fun hc => decode_QE .rsvq 0x4C (fun w0 w1 h => by unfold cueDecode; rw [h]; rfl) f rfl hc) rfl
theorem Encoding.kvdrop : ∀ f, Encoding.Statement (.kvdrop f) :=
  fun f => Encoding.ofCue (fun hc => decode_QE .kvdrop 0x4D (fun w0 w1 h => by unfold cueDecode; rw [h]; rfl) f rfl hc) rfl
theorem Encoding.kvprio : ∀ f, Encoding.Statement (.kvprio f) :=
  fun f => Encoding.ofCue (fun hc => decode_QE .kvprio 0x4E (fun w0 w1 h => by unfold cueDecode; rw [h]; rfl) f rfl hc) rfl
theorem Encoding.rsvset : ∀ f, Encoding.Statement (.rsvset f) :=
  fun f => Encoding.ofCue (fun hc => decode_QE .rsvset 0x4F (fun w0 w1 h => by unfold cueDecode; rw [h]; rfl) f rfl hc) rfl
theorem Encoding.ctrap : ∀ f, Encoding.Statement (.ctrap f) :=
  fun f => Encoding.ofCue (fun hc => decode_Q .ctrap 0x50 (fun w0 w1 h => by unfold cueDecode; rw [h]; rfl) f rfl hc) rfl
theorem Encoding.cwake : ∀ f, Encoding.Statement (.cwake f) :=
  fun f => Encoding.ofCue (fun hc => decode_Q .cwake 0x51 (fun w0 w1 h => by unfold cueDecode; rw [h]; rfl) f rfl hc) rfl
theorem Encoding.csreg : ∀ f, Encoding.Statement (.csreg f) :=
  fun f => Encoding.ofCue (fun hc => decode_Q .csreg 0x52 (fun w0 w1 h => by unfold cueDecode; rw [h]; rfl) f rfl hc) rfl
theorem Encoding.cswreg : ∀ f, Encoding.Statement (.cswreg f) :=
  fun f => Encoding.ofCue (fun hc => decode_Q .cswreg 0x53 (fun w0 w1 h => by unfold cueDecode; rw [h]; rfl) f rfl hc) rfl
theorem Encoding.cresume : ∀ f, Encoding.Statement (.cresume f) :=
  fun f => Encoding.ofCue (fun hc => decode_Q .cresume 0x54 (fun w0 w1 h => by unfold cueDecode; rw [h]; rfl) f rfl hc) rfl
theorem Encoding.iret : ∀ f, Encoding.Statement (.iret f) :=
  fun f => Encoding.ofCue (fun hc => decode_Q .iret 0x55 (fun w0 w1 h => by unfold cueDecode; rw [h]; rfl) f rfl hc) rfl
theorem Encoding.chalt : ∀ f, Encoding.Statement (.chalt f) :=
  fun f => Encoding.ofCue (fun hc => decode_Q .chalt 0x56 (fun w0 w1 h => by unfold cueDecode; rw [h]; rfl) f rfl hc) rfl
theorem Encoding.ctxsv : ∀ f, Encoding.Statement (.ctxsv f) :=
  fun f => Encoding.ofCue (fun hc => decode_QE .ctxsv 0x57 (fun w0 w1 h => by unfold cueDecode; rw [h]; rfl) f rfl hc) rfl
theorem Encoding.ctxld : ∀ f, Encoding.Statement (.ctxld f) :=
  fun f => Encoding.ofCue (fun hc => decode_QE .ctxld 0x58 (fun w0 w1 h => by unfold cueDecode; rw [h]; rfl) f rfl hc) rfl
theorem Encoding.tabort : ∀ f, Encoding.Statement (.tabort f) :=
  fun f => Encoding.ofCue (fun hc => decode_Q .tabort 0x59 (fun w0 w1 h => by unfold cueDecode; rw [h]; rfl) f rfl hc) rfl
theorem Encoding.tcommit : ∀ f, Encoding.Statement (.tcommit f) :=
  fun f => Encoding.ofCue (fun hc => decode_Q .tcommit 0x5A (fun w0 w1 h => by unfold cueDecode; rw [h]; rfl) f rfl hc) rfl
theorem Encoding.csvc : ∀ f, Encoding.Statement (.csvc f) :=
  fun f => Encoding.ofCue (fun hc => decode_QM .csvc 0x5B (fun w0 w1 h => by unfold cueDecode; rw [h]; rfl) f rfl hc) rfl
theorem Encoding.tlbinv : ∀ f, Encoding.Statement (.tlbinv f) :=
  fun f => Encoding.ofCue (fun hc => decode_QE .tlbinv 0x5C (fun w0 w1 h => by unfold cueDecode; rw [h]; rfl) f rfl hc) rfl
theorem Encoding.ptwalk : ∀ f, Encoding.Statement (.ptwalk f) :=
  fun f => Encoding.ofCue (fun hc => decode_QE .ptwalk 0x5D (fun w0 w1 h => by unfold cueDecode; rw [h]; rfl) f rfl hc) rfl
theorem Encoding.pgdup : ∀ f, Encoding.Statement (.pgdup f) :=
  fun f => Encoding.ofCue (fun hc => decode_QE .pgdup 0x5E (fun w0 w1 h => by unfold cueDecode; rw [h]; rfl) f rfl hc) rfl
theorem Encoding.pgcol : ∀ f, Encoding.Statement (.pgcol f) :=
  fun f => Encoding.ofCue (fun hc => decode_QE .pgcol 0x5F (fun w0 w1 h => by unfold cueDecode; rw [h]; rfl) f rfl hc) rfl
theorem Encoding.pgsplit : ∀ f, Encoding.Statement (.pgsplit f) :=
  fun f => Encoding.ofCue (fun hc => decode_QE .pgsplit 0x60 (fun w0 w1 h => by unfold cueDecode; rw [h]; rfl) f rfl hc) rfl
theorem Encoding.pgjoin : ∀ f, Encoding.Statement (.pgjoin f) :=
  fun f => Encoding.ofCue (fun hc => decode_QE .pgjoin 0x61 (fun w0 w1 h => by unfold cueDecode; rw [h]; rfl) f rfl hc) rfl
theorem Encoding.pgmig : ∀ f, Encoding.Statement (.pgmig f) :=
  fun f => Encoding.ofCue (fun hc => decode_QE .pgmig 0x62 (fun w0 w1 h => by unfold cueDecode; rw [h]; rfl) f rfl hc) rfl
theorem Encoding.dirq : ∀ f, Encoding.Statement (.dirq f) :=
  fun f => Encoding.ofCue (fun hc => decode_QE .dirq 0x63 (fun w0 w1 h => by unfold cueDecode; rw [h]; rfl) f rfl hc) rfl
theorem Encoding.dirset : ∀ f, Encoding.Statement (.dirset f) :=
  fun f => Encoding.ofCue (fun hc => decode_QE .dirset 0x64 (fun w0 w1 h => by unfold cueDecode; rw [h]; rfl) f rfl hc) rfl
theorem Encoding.hostinv : ∀ f, Encoding.Statement (.hostinv f) :=
  fun f => Encoding.ofCue (fun hc => decode_QE .hostinv 0x65 (fun w0 w1 h => by unfold cueDecode; rw [h]; rfl) f rfl hc) rfl
theorem Encoding.illegalOpcode : ∀ b w, Encoding.Statement (.illegalOpcode b w) := fun _ _ _ h => nomatch h
theorem Encoding.memoryAccessCompletion : ∀ x0, Encoding.Statement (.memoryAccessCompletion x0) := fun _ h => nomatch h
theorem Encoding.vsfuCompletion : ∀ x0, Encoding.Statement (.vsfuCompletion x0) := fun _ h => nomatch h
theorem Encoding.executionPointOperation : ∀ x0, Encoding.Statement (.executionPointOperation x0) := fun _ h => nomatch h
theorem Encoding.writeBackMerge : ∀ x0 x1, Encoding.Statement (.writeBackMerge x0 x1) := fun _ _ h => nomatch h
theorem Encoding.fetchFill : ∀ x0 x1, Encoding.Statement (.fetchFill x0 x1) := fun _ _ h => nomatch h
theorem Encoding.returnAddressRefill : ∀ x0, Encoding.Statement (.returnAddressRefill x0) := fun _ h => nomatch h
theorem Encoding.contextLineRefill : ∀ x0 x1, Encoding.Statement (.contextLineRefill x0 x1) := fun _ _ h => nomatch h
theorem Encoding.fullEmptyServe : ∀ x0, Encoding.Statement (.fullEmptyServe x0) := fun _ h => nomatch h
theorem Encoding.counterWaitSatisfied : ∀ x0, Encoding.Statement (.counterWaitSatisfied x0) := fun _ h => nomatch h
theorem Encoding.decisionQueuePop : ∀ x0 x1, Encoding.Statement (.decisionQueuePop x0 x1) := fun _ _ h => nomatch h
theorem Encoding.dqpushWrite : ∀ x0, Encoding.Statement (.dqpushWrite x0) := fun _ h => nomatch h
theorem Encoding.engineCommandStart : ∀ x0, Encoding.Statement (.engineCommandStart x0) := fun _ h => nomatch h
theorem Encoding.arrayCommandStart : ∀ x0, Encoding.Statement (.arrayCommandStart x0) := fun _ h => nomatch h
theorem Encoding.planeLoad : ∀ x0, Encoding.Statement (.planeLoad x0) := fun _ h => nomatch h
theorem Encoding.streamRowResult : ∀ x0, Encoding.Statement (.streamRowResult x0) := fun _ h => nomatch h
theorem Encoding.commandCompletion : ∀ x0, Encoding.Statement (.commandCompletion x0) := fun _ h => nomatch h
theorem Encoding.deliveryUnitAdvance : ∀ x0, Encoding.Statement (.deliveryUnitAdvance x0) := fun _ h => nomatch h
theorem Encoding.collectiveCompletion : ∀ x0, Encoding.Statement (.collectiveCompletion x0) := fun _ h => nomatch h
theorem Encoding.adrainpRowArrival : ∀ x0, Encoding.Statement (.adrainpRowArrival x0) := fun _ h => nomatch h
theorem Encoding.contributionAccept : ∀ x0, Encoding.Statement (.contributionAccept x0) := fun _ h => nomatch h
theorem Encoding.xcloseAtSlice : ∀ x0, Encoding.Statement (.xcloseAtSlice x0) := fun _ h => nomatch h
theorem Encoding.tableWalk : ∀ x0 x1 x2 x3, Encoding.Statement (.tableWalk x0 x1 x2 x3) := fun _ _ _ _ h => nomatch h
theorem Encoding.nestQueueAppend : ∀ x0, Encoding.Statement (.nestQueueAppend x0) := fun _ h => nomatch h
theorem Encoding.queueServe : ∀ x0, Encoding.Statement (.queueServe x0) := fun _ h => nomatch h
theorem Encoding.launchEntryAccept : ∀ x0, Encoding.Statement (.launchEntryAccept x0) := fun _ h => nomatch h
theorem Encoding.copyBlockAccept : ∀ x0, Encoding.Statement (.copyBlockAccept x0) := fun _ h => nomatch h
theorem Encoding.warpEnd : ∀ x0 x1, Encoding.Statement (.warpEnd x0 x1) := fun _ _ h => nomatch h
theorem Encoding.sliceLineReturn : ∀ x0 x1 x2, Encoding.Statement (.sliceLineReturn x0 x1 x2) := fun _ _ _ h => nomatch h
theorem Encoding.cueThreadEnd : ∀ x0, Encoding.Statement (.cueThreadEnd x0) := fun _ h => nomatch h
theorem Encoding.workgroupEnd : ∀ x0, Encoding.Statement (.workgroupEnd x0) := fun _ h => nomatch h
theorem Encoding.gridRetirement : ∀ x0, Encoding.Statement (.gridRetirement x0) := fun _ h => nomatch h
theorem Encoding.taking : ∀ x0, Encoding.Statement (.taking x0) := fun _ h => nomatch h
theorem Encoding.imageAreaWrite : ∀ x0, Encoding.Statement (.imageAreaWrite x0) := fun _ h => nomatch h
theorem Encoding.registerLineEviction : ∀ x0 x1, Encoding.Statement (.registerLineEviction x0 x1) := fun _ _ h => nomatch h
theorem Encoding.migrationMessage : ∀ x0 x1, Encoding.Statement (.migrationMessage x0 x1) := fun _ _ h => nomatch h
theorem Encoding.serviceReply : ∀ x0, Encoding.Statement (.serviceReply x0) := fun _ h => nomatch h
theorem Encoding.errorQueueDropReport : Encoding.Statement .errorQueueDropReport := fun h => nomatch h
theorem Encoding.reservationTimeout : Encoding.Statement .reservationTimeout := fun h => nomatch h
theorem Encoding.joinDeadline : Encoding.Statement .joinDeadline := fun h => nomatch h
theorem Encoding.yieldExpiry : Encoding.Statement .yieldExpiry := fun h => nomatch h
theorem Encoding.workgroupPlacement : Encoding.Statement .workgroupPlacement := fun h => nomatch h
theorem Encoding.agingTick : Encoding.Statement .agingTick := fun h => nomatch h
theorem Encoding.resumption : Encoding.Statement .resumption := fun h => nomatch h
theorem Encoding.migrationFallback : Encoding.Statement .migrationFallback := fun h => nomatch h
theorem Encoding.preemptionTimeout : Encoding.Statement .preemptionTimeout := fun h => nomatch h
theorem Encoding.serviceTimeout : Encoding.Statement .serviceTimeout := fun h => nomatch h
theorem Encoding.sensorRefresh : ∀ x0 x1, Encoding.Statement (.sensorRefresh x0 x1) := fun _ _ h => nomatch h
theorem Encoding.governorInterval : ∀ x0, Encoding.Statement (.governorInterval x0) := fun _ h => nomatch h
theorem Encoding.governorHoldLimit : Encoding.Statement .governorHoldLimit := fun h => nomatch h
theorem Encoding.diePowerOff : Encoding.Statement .diePowerOff := fun h => nomatch h
theorem Encoding.dieReturn : Encoding.Statement .dieReturn := fun h => nomatch h
theorem Encoding.combLineError : ∀ x0, Encoding.Statement (.combLineError x0) := fun _ h => nomatch h
theorem Encoding.machineCheckEvent : ∀ x0 x1, Encoding.Statement (.machineCheckEvent x0 x1) := fun _ _ h => nomatch h
theorem Encoding.directoryErrorRecovery : ∀ x0 x1, Encoding.Statement (.directoryErrorRecovery x0 x1) := fun _ _ h => nomatch h
theorem Encoding.startUp : ∀ x0 x1 x2 x3, Encoding.Statement (.startUp x0 x1 x2 x3) := fun _ _ _ _ h => nomatch h
theorem Encoding.attestation : Encoding.Statement .attestation := fun h => nomatch h
theorem Encoding.mwakeWrite : ∀ x0 x1, Encoding.Statement (.mwakeWrite x0 x1) := fun _ _ h => nomatch h
theorem Encoding.queueWakeWrite : ∀ x0 x1, Encoding.Statement (.queueWakeWrite x0 x1) := fun _ _ h => nomatch h
theorem Encoding.queueEnable : Encoding.Statement .queueEnable := fun h => nomatch h
theorem Encoding.queueDisable : Encoding.Statement .queueDisable := fun h => nomatch h
theorem Encoding.wshareUpdate : Encoding.Statement .wshareUpdate := fun h => nomatch h
theorem Encoding.registerWrite : ∀ x0 x1 x2, Encoding.Statement (.registerWrite x0 x1 x2) := fun _ _ _ h => nomatch h
theorem Encoding.hostRead : ∀ x0 x1 x2, Encoding.Statement (.hostRead x0 x1 x2) := fun _ _ _ h => nomatch h
theorem Encoding.hostWrite : ∀ x0 x1, Encoding.Statement (.hostWrite x0 x1) := fun _ _ h => nomatch h
theorem Encoding.hostRecall : ∀ x0 x1, Encoding.Statement (.hostRecall x0 x1) := fun _ _ h => nomatch h
theorem Encoding.readMsg : ∀ x0 x1 x2, Encoding.Statement (.readMsg x0 x1 x2) := fun _ _ _ h => nomatch h
theorem Encoding.writeMsg : ∀ x0 x1 x2, Encoding.Statement (.writeMsg x0 x1 x2) := fun _ _ _ h => nomatch h
theorem Encoding.atomicMsg : ∀ x0 x1 x2 x3 x4 x5, Encoding.Statement (.atomicMsg x0 x1 x2 x3 x4 x5) := fun _ _ _ _ _ _ h => nomatch h
theorem Encoding.grant : ∀ x0 x1 x2 x3 x4, Encoding.Statement (.grant x0 x1 x2 x3 x4) := fun _ _ _ _ _ h => nomatch h
theorem Encoding.probeInv : ∀ x0 x1, Encoding.Statement (.probeInv x0 x1) := fun _ _ h => nomatch h
theorem Encoding.probeRecall : ∀ x0 x1, Encoding.Statement (.probeRecall x0 x1) := fun _ _ h => nomatch h
theorem Encoding.probeSplit : ∀ x0 x1, Encoding.Statement (.probeSplit x0 x1) := fun _ _ h => nomatch h
theorem Encoding.probeAll : ∀ x0 x1, Encoding.Statement (.probeAll x0 x1) := fun _ _ h => nomatch h
theorem Encoding.ack : ∀ x0 x1 x2 x3 x4, Encoding.Statement (.ack x0 x1 x2 x3 x4) := fun _ _ _ _ _ h => nomatch h
theorem Encoding.forwardedCommand : ∀ x0 x1 x2 x3, Encoding.Statement (.forwardedCommand x0 x1 x2 x3) := fun _ _ _ _ h => nomatch h
theorem Encoding.packet : ∀ x0 x1 x2 x3, Encoding.Statement (.packet x0 x1 x2 x3) := fun _ _ _ _ h => nomatch h
theorem Encoding.nak : ∀ x0 x1, Encoding.Statement (.nak x0 x1) := fun _ _ h => nomatch h
theorem Encoding.linkRetryThreshold : Encoding.Statement .linkRetryThreshold := fun h => nomatch h
theorem Encoding.linkDown : ∀ x0, Encoding.Statement (.linkDown x0) := fun _ h => nomatch h
theorem Encoding.linkUp : ∀ x0, Encoding.Statement (.linkUp x0) := fun _ h => nomatch h

end Sys2Proof.Laws
end

