-- ==== Sys2Proof/Laws/Threads.lean ====
section
/-! SUPPORT. Threads of a warp: what a fold of thread updates leaves, and the answer of a warp instruction that changes its warp alone. -/

namespace Sys2Proof.Machine

theorem List.mapIdx_mapIdx_same {α β γ : Type} (l : List α) (f : Nat → α → β) (g : Nat → β → γ) : (l.mapIdx f).mapIdx g = l.mapIdx fun i x => g i (f i x) := by
  apply List.ext_getElem?; intro j; simp [List.getElem?_mapIdx, Function.comp_def]

theorem updThreads_eq (s : State) (wg wi ls f) : updThreads s wg wi ls f = updWarp s wg wi fun w => Warp_updThreads w ls f := rfl

/-- Updates of several threads of a warp, as one update of the warp. -/
theorem foldl_updThread (s : State) (wg wi : Nat) (ls : List Nat) (f : Nat → Thread → Thread) :
    ls.foldl (fun t l => updThread t wg wi l (f l)) s = updWarp s wg wi fun w => ls.foldl (fun w l => Warp_updThread w l (f l)) w := by
  induction ls generalizing s with
  | nil =>
    simp only [List.foldl_nil]
    simp only [updWarp, updWg, Workgroup_updWarp]
    cases s; simp only; congr 1
    symm
    apply List.map_id''
    intro k
    split
    · cases k; simp only; congr 1; apply List.ext_getElem?; intro j; simp [List.getElem?_modify]; 
    · rfl
  | cons a r ih => simp only [List.foldl_cons, ih]; unfold updThread; rw [updWarp_updWarp]

theorem foldl_Warp_threads (w : Warp) (ls : List Nat) (f : Nat → Thread → Thread) (hn : ls.Nodup) :
    ls.foldl (fun w l => Warp_updThread w l (f l)) w = { w with threads := w.threads.mapIdx fun l th => if l ∈ ls then f l th else th } := by
  induction ls generalizing w with
  | nil => cases w; simp; apply List.ext_getElem?; intro j; simp
  | cons a r ih =>
    have hr := (List.nodup_cons.mp hn)
    simp only [List.foldl_cons]
    rw [ih _ hr.2]
    simp only [Warp_updThread]
    congr 1
    apply List.ext_getElem?
    intro j
    simp only [List.getElem?_mapIdx, List.getElem?_modify]
    rcases h : w.threads[j]? with _ | th
    · simp
    · by_cases e : a = j
      · subst e; simp [hr.1]
      · have : ¬ j = a := fun h => e h.symm
        simp [e, this]
theorem Warp_updThreads_eq (w : Warp) (ls : List Nat) (f : Thread → Thread) (hn : ls.Nodup) :
   Warp_updThreads w ls f = { w with threads := w.threads.mapIdx fun l th => if l ∈ ls then f th else th } := foldl_Warp_threads w ls (fun _ => f) hn

/-- A warp instruction whose effect changes its warp alone answers so. -/
theorem ready_warp {i : Instr} {op : WOp} {s : State} {c : WCtx} (hx : exec i s = warpIssue op s) (hi : op.i = i) (hc : warpCtx s i = some c) (hr : WarpReady op s c = true) (hs : op.stay = false)
   (g : Warp → Warp) (he : op.eff c (issued op c s) = updWarp (issued op c s) c.wg c.wi g) (w' : Warp)
   (hg : g { c.w with threads := threadsAfter c i fun _ th => th } = w') : AnswersWarp i s c w' := by
  subst hi
  refine ⟨fun w => g (passedWarp c op.i w), ?_, ?_⟩
  · rw [hx, warpIssue_ready hc hr, he, issued_eq _ _ _ hs, updWarp_updWarp]
  · show g (passedWarp c op.i c.w) = w'
    rw [← hg, passedWarp_eq hc]

theorem updWarp_id (s : State) (wg wi) : updWarp s wg wi (fun w => w) = s := by
    simp only [updWarp, updWg, Workgroup_updWarp]
    cases s; simp only; congr 1
    apply List.map_id''
    intro k
    split
    · cases k; simp only; congr 1; apply List.ext_getElem?; intro j; simp [List.getElem?_modify]; 
    · rfl

/-- A warp instruction whose effect changes its contributors' threads alone, each by itself. -/
theorem ready_threads {i : Instr} {op : WOp} {s : State} {c : WCtx} (hx : exec i s = warpIssue op s) (hi : op.i = i) (hc : warpCtx s i = some c) (hr : WarpReady op s c = true)
    (hs : op.stay = false) (f : Nat → Thread → Thread) (he : op.eff c (issued op c s) = c.cs.foldl (fun t l => updThread t c.wg c.wi l (f l)) (issued op c s)) :
    AnswersWarp i s c { c.w with threads := threadsAfter c i fun l th => if l ∈ c.cs then f l th else th } := by
  refine ready_warp hx hi hc hr hs _ (he.trans (foldl_updThread _ _ _ _ _)) _ ?_
  rw [foldl_Warp_threads _ _ f (cs_nodup hc)]
  simp only [threadsAfter, List.mapIdx_mapIdx_same]
  congr 1
  congr 1
  funext l th
  by_cases h : l ∈ c.cs
  · simp [h, cs_sub hc h]
  · simp [h]

/-- Updating threads by one function is updating each of them. -/
theorem updThreads_fold (s : State) (wg wi : Nat) (ls : List Nat) (f : Thread → Thread) : updThreads s wg wi ls f = ls.foldl (fun t l => updThread t wg wi l f) s := by
  rw [foldl_updThread]; rfl

end Sys2Proof.Machine
end

