-- ==== Sys2Proof/Tests/Slice0.lean ====
section
/-! SUPPORT. Tests on fixed values: ill-formed terms that WellFormed refuses, words written out bit by bit from the encodings of 02 and what they decode to, results that the spec works out by hand, and a witness of the hypotheses of each statement (`witness_<statement>_<clause>`). Expected values come from the worked examples of the rules named, or from hand calculation by them. -/

open Sys2Proof Sys2Proof.Machine

namespace Sys2Proof.Tests

set_option maxRecDepth 100000
-- One theorem after another: many at once would each hold a thread's stack.
set_option Elab.async false

/-! ### Instructions by their word-0 fields, the second word absent -/

def vf (d a b pg : Nat) : VF := { l := false, d := .ofNat 7 d, a := .ofNat 7 a, b := .ofNat 7 b, pg := .ofNat 3 pg, c := 0, pa := 0, pb := 0, pc := 0, look := 0, pn := 0, mod := 0, ps := 0, param := 0 }
def jf (d a b pg : Nat) : IF := { l := false, d := .ofNat 7 d, a := .ofNat 7 a, b := .ofNat 7 b, pg := .ofNat 3 pg, imm := 0 }
def mf (d a b pg : Nat) : MF := { l := false, d := .ofNat 7 d, a := .ofNat 7 a, b := .ofNat 7 b, pg := .ofNat 3 pg, look := 0, obs := 0, ordr := 0, wid := 2, fe := 0, sx := 0, ofs := 0 }
def af (d a b pg : Nat) : AF := { l := false, d := .ofNat 7 d, a := .ofNat 7 a, b := .ofNat 7 b, pg := .ofNat 3 pg, look := 0, obs := 0, ordr := 0, wid := 0, aop := 0, c := 0, rsv := 0 }
def tf (d a b pg : Nat) : TF := { l := false, d := .ofNat 7 d, a := .ofNat 7 a, b := .ofNat 7 b, pg := .ofNat 3 pg, look := 0, tr := 0, row0 := 0, col0 := 0, tok := 0, rsv := 0 }
def qf (d a b g mod : Nat) : QF := { l := false, d := .ofNat 6 d, a := .ofNat 6 a, b := .ofNat 6 b, g := .ofNat 3 g, mod := .ofNat 3 mod, imm := 0 }
def qm (d a b g mod : Nat) : QM := { l := false, d := .ofNat 6 d, a := .ofNat 6 a, b := .ofNat 6 b, g := .ofNat 3 g, mod := .ofNat 3 mod, look := 0, obs := 0, ordr := 0, wid := 3, rsv := 0, ofs := 0 }
def qe (d a b g mod : Nat) : QE := { l := false, d := .ofNat 6 d, a := .ofNat 6 a, b := .ofNat 6 b, g := .ofNat 3 g, mod := .ofNat 3 mod, tok := 0, fsl := 0, ta := 0, tb := 0, ac := 0, opt := 0 }
/-- Instructions of two words, guard p7 or none. -/
def vx (d a b m : Nat) : VF := { vf d a b 7 with l := true, mod := .ofNat 3 m }
def jx (d imm : Nat) : IF := { jf d 0 0 7 with l := true, imm := .ofNat 32 imm }
def mx (d a b : Nat) : MF := { mf d a b 7 with l := true }
def ax (d a b : Nat) : AF := { af d a b 7 with l := true, wid := 2, obs := 4 }
def kq (d a b m : Nat) : QF := qf d a b 4 m
def ki (d imm : Nat) : QF := { qf d 0 0 4 0 with l := true, imm := .ofNat 32 imm }
def km (d a b : Nat) : QM := { qm d a b 4 0 with l := true }
def ke (d a b : Nat) (opt : Nat := 0) (m : Nat := 0) (ta tb : Nat := 0) : QE := { qe d a b 4 m with l := true, opt := .ofNat 15 opt, ta := .ofNat 4 ta, tb := .ofNat 4 tb, tok := 1 }

/-! ### WellFormed refuses an ill-formed term for each check (02 R32 to R44) -/

/-- An instruction that has neither second word nor default fields. -/
theorem test_wf_canon : Instr.wf (.add { vf 1 2 3 7 with mod := 1 }) = false := by decide
def refuses (p : Nat × Instr) : Bool := (warpEnc 32 p.2 == some p.1 || cueEnc p.2 == some (p.1 + 0x10)) && !p.2.wf
/-- Each class-0 encoding reason of the warp stream: a field that must be 0, ORDR, WID, FE, TOK, OBS, MOD, L, and an order that the instruction has not. -/
theorem test_wf_warp : [
    (6, .abs (vf 1 2 3 7)), (7, .ldG { mx 8 16 2 with ordr := 5, obs := 4 }), (8, .ldG { mx 8 16 2 with wid := 5 }), (9, .ldG { mx 8 16 2 with fe := 1 }),
    (10, .tfill { tf 8 0 0 7 with l := true, tok := 7 }), (11, .ldG { mx 8 16 2 with ordr := 1 }), (12, .and (vx 1 2 3 2)), (14, .movi (jf 8 0 0 7)),
    (15, .ldG { mx 8 16 2 with ordr := 3, obs := 4 })].all refuses = true := by decide
/-- The same of the cue stream, and its guards 5 to 7. -/
theorem test_wf_cue : [
    (6, .cret (kq 1 0 0 0)), (7, .cld { km 8 16 0 with ordr := 5, obs := 4 }), (8, .cld { km 8 16 0 with wid := 5 }), (10, .tzero { ke 0 0 0 with tok := 7 }),
    (11, .cld { km 8 16 0 with ordr := 1 }), (12, .cand (kq 1 2 3 1)), (13, .cadd (qf 1 2 3 5 0)), (14, .cb (kq 0 0 0 0)),
    (15, .cld { km 8 16 0 with ordr := 3, obs := 4 })].all refuses = true := by decide

/-! ### Words written out from the encodings (02 R33, R41, R59, R60): L, OP, D, A, B and PG; L, OP, D, A, B, G and MOD -/

def reads (st : Stream) (p : Word × Instr) : Bool := decodeWords st p.1 none = p.2

/-- Opcodes 0x00 to 0x0F of the warp stream. -/
theorem test_decode_warp_0 : [
    (0b0_0000001_0010101_0101010_1010011_101, .add (vf 21 42 83 5)),
    (0b0_0000010_0010101_0101010_1010011_101, .sub (vf 21 42 83 5)),
    (0b0_0000011_0010101_0101010_1010011_101, .mul (vf 21 42 83 5)),
    (0b0_0000100_0010101_0101010_1010011_101, .mulh (vf 21 42 83 5)),
    (0b0_0000101_0010101_0101010_1010011_101, .mad (vf 21 42 83 5)),
    (0b0_0000110_0010101_0101010_1010011_101, .madw (vf 21 42 83 5)),
    (0b0_0000111_0010101_0101010_1010011_101, .min (vf 21 42 83 5)),
    (0b0_0001000_0010101_0101010_1010011_101, .max (vf 21 42 83 5)),
    (0b0_0001001_0010101_0101010_1010011_101, .abs (vf 21 42 83 5)),
    (0b0_0001010_0010101_0101010_1010011_101, .neg (vf 21 42 83 5)),
    (0b0_0001011_0010101_0101010_1010011_101, .sad (vf 21 42 83 5)),
    (0b0_0001100_0010101_0101010_1010011_101, .dot4 (vf 21 42 83 5)),
    (0b0_0001101_0010101_0101010_1010011_101, .shl (vf 21 42 83 5)),
    (0b0_0001110_0010101_0101010_1010011_101, .shr (vf 21 42 83 5)),
    (0b0_0001111_0010101_0101010_1010011_101, .sar (vf 21 42 83 5))].all (reads .warp) = true := by decide

/-- Opcodes 0x10 to 0x1F of the warp stream. -/
theorem test_decode_warp_1 : [
    (0b0_0010000_0010101_0101010_1010011_101, .rot (vf 21 42 83 5)),
    (0b0_0010001_0010101_0101010_1010011_101, .and (vf 21 42 83 5)),
    (0b0_0010010_0010101_0101010_1010011_101, .or (vf 21 42 83 5)),
    (0b0_0010011_0010101_0101010_1010011_101, .xor (vf 21 42 83 5)),
    (0b0_0010100_0010101_0101010_1010011_101, .not (vf 21 42 83 5)),
    (0b0_0010101_0010101_0101010_1010011_101, .bool3 (vf 21 42 83 5)),
    (0b0_0010110_0010101_0101010_1010011_101, .bfx (vf 21 42 83 5)),
    (0b0_0010111_0010101_0101010_1010011_101, .bfi (vf 21 42 83 5)),
    (0b0_0011000_0010101_0101010_1010011_101, .brev (vf 21 42 83 5)),
    (0b0_0011001_0010101_0101010_1010011_101, .popc (vf 21 42 83 5)),
    (0b0_0011010_0010101_0101010_1010011_101, .clz (vf 21 42 83 5)),
    (0b0_0011011_0010101_0101010_1010011_101, .ctz (vf 21 42 83 5)),
    (0b0_0011100_0010101_0101010_1010011_101, .cmp (vf 21 42 83 5)),
    (0b0_0011101_0010101_0101010_1010011_101, .sel (vf 21 42 83 5)),
    (0b0_0011110_0010101_0101010_1010011_101, .mov (vf 21 42 83 5)),
    (0b0_0011111_0010101_0101010_1010011_101, .movi (jf 21 42 83 5))].all (reads .warp) = true := by decide

/-- Opcodes 0x20 to 0x2F of the warp stream. -/
theorem test_decode_warp_2 : [
    (0b0_0100000_0010101_0101010_1010011_101, .fadd (vf 21 42 83 5)),
    (0b0_0100001_0010101_0101010_1010011_101, .fsub (vf 21 42 83 5)),
    (0b0_0100010_0010101_0101010_1010011_101, .fmul (vf 21 42 83 5)),
    (0b0_0100011_0010101_0101010_1010011_101, .ffma (vf 21 42 83 5)),
    (0b0_0100100_0010101_0101010_1010011_101, .fmin (vf 21 42 83 5)),
    (0b0_0100101_0010101_0101010_1010011_101, .fmax (vf 21 42 83 5)),
    (0b0_0100110_0010101_0101010_1010011_101, .fcmp (vf 21 42 83 5)),
    (0b0_0100111_0010101_0101010_1010011_101, .fclass (vf 21 42 83 5)),
    (0b0_0101000_0010101_0101010_1010011_101, .frnd (vf 21 42 83 5)),
    (0b0_0101001_0010101_0101010_1010011_101, .fscale (vf 21 42 83 5)),
    (0b0_0101010_0010101_0101010_1010011_101, .fclamp (vf 21 42 83 5)),
    (0b0_0101011_0010101_0101010_1010011_101, .fdiv (vf 21 42 83 5)),
    (0b0_0101100_0010101_0101010_1010011_101, .fsqrt (vf 21 42 83 5)),
    (0b0_0101101_0010101_0101010_1010011_101, .frcp (vf 21 42 83 5)),
    (0b0_0101110_0010101_0101010_1010011_101, .frsqrt (vf 21 42 83 5)),
    (0b0_0101111_0010101_0101010_1010011_101, .fexp2 (vf 21 42 83 5))].all (reads .warp) = true := by decide

/-- Opcodes 0x30 to 0x3F of the warp stream. -/
theorem test_decode_warp_3 : [
    (0b0_0110000_0010101_0101010_1010011_101, .flog2 (vf 21 42 83 5)),
    (0b0_0110001_0010101_0101010_1010011_101, .fsin (vf 21 42 83 5)),
    (0b0_0110010_0010101_0101010_1010011_101, .fcos (vf 21 42 83 5)),
    (0b0_0110011_0010101_0101010_1010011_101, .ftanh (vf 21 42 83 5)),
    (0b0_0110100_0010101_0101010_1010011_101, .fsigm (vf 21 42 83 5)),
    (0b0_0110101_0010101_0101010_1010011_101, .pfma (vf 21 42 83 5)),
    (0b0_0110110_0010101_0101010_1010011_101, .padd (vf 21 42 83 5)),
    (0b0_0110111_0010101_0101010_1010011_101, .pmul (vf 21 42 83 5)),
    (0b0_0111000_0010101_0101010_1010011_101, .cvt (vf 21 42 83 5)),
    (0b0_0111001_0010101_0101010_1010011_101, .qto (vf 21 42 83 5)),
    (0b0_0111010_0010101_0101010_1010011_101, .qfrom (vf 21 42 83 5)),
    (0b0_0111011_0010101_0101010_1010011_101, .qpack (vf 21 42 83 5)),
    (0b0_0111100_0010101_0101010_1010011_101, .qunpk (vf 21 42 83 5)),
    (0b0_0111101_0010101_0101010_1010011_101, .bscl (vf 21 42 83 5)),
    (0b0_0111110_0010101_0101010_1010011_101, .fsld (vf 21 42 83 5)),
    (0b0_0111111_0010101_0101010_1010011_101, .cvtp (vf 21 42 83 5))].all (reads .warp) = true := by decide

/-- Opcodes 0x40 to 0x4F of the warp stream. -/
theorem test_decode_warp_4 : [
    (0b0_1000000_0010101_0101010_1010011_101, .lsel (vf 21 42 83 5)),
    (0b0_1000001_0010101_0101010_1010011_101, .patld (vf 21 42 83 5)),
    (0b0_1000010_0010101_0101010_1010011_101, .poll (vf 21 42 83 5)),
    (0b0_1000011_0010101_0101010_1010011_101, .eqset (vf 21 42 83 5)),
    (0b0_1000100_0010101_0101010_1010011_101, .wred (vf 21 42 83 5)),
    (0b0_1000101_0010101_0101010_1010011_101, .wscan (vf 21 42 83 5)),
    (0b0_1000110_0010101_0101010_1010011_101, .lead (vf 21 42 83 5)),
    (0b0_1000111_0010101_0101010_1010011_101, .v2s (vf 21 42 83 5)),
    (0b0_1001000_0010101_0101010_1010011_101, .tfill (tf 21 42 83 5)),
    (0b0_1001001_0010101_0101010_1010011_101, .tread (tf 21 42 83 5))].all (reads .warp) = true := by decide

/-- Opcodes 0x50 to 0x5F of the warp stream. -/
theorem test_decode_warp_5 : [
    (0b0_1010000_0010101_0101010_1010011_101, .ldG (mf 21 42 83 5)),
    (0b0_1010001_0010101_0101010_1010011_101, .stG (mf 21 42 83 5)),
    (0b0_1010010_0010101_0101010_1010011_101, .ldL (mf 21 42 83 5)),
    (0b0_1010011_0010101_0101010_1010011_101, .stL (mf 21 42 83 5)),
    (0b0_1010100_0010101_0101010_1010011_101, .ldC (mf 21 42 83 5)),
    (0b0_1010101_0010101_0101010_1010011_101, .stC (mf 21 42 83 5)),
    (0b0_1010110_0010101_0101010_1010011_101, .ldP (mf 21 42 83 5)),
    (0b0_1010111_0010101_0101010_1010011_101, .stP (mf 21 42 83 5)),
    (0b0_1011000_0010101_0101010_1010011_101, .pf (mf 21 42 83 5)),
    (0b0_1011001_0010101_0101010_1010011_101, .fe (mf 21 42 83 5)),
    (0b0_1011010_0010101_0101010_1010011_101, .l1wb (mf 21 42 83 5)),
    (0b0_1011011_0010101_0101010_1010011_101, .l1inv (mf 21 42 83 5)),
    (0b0_1011100_0010101_0101010_1010011_101, .kvkey (vf 21 42 83 5))].all (reads .warp) = true := by decide

/-- Opcodes 0x60 to 0x6F of the warp stream. -/
theorem test_decode_warp_6 : [
    (0b0_1100000_0010101_0101010_1010011_101, .atom (af 21 42 83 5)),
    (0b0_1100001_0010101_0101010_1010011_101, .atomf (af 21 42 83 5)),
    (0b0_1100010_0010101_0101010_1010011_101, .cas (af 21 42 83 5)),
    (0b0_1100011_0010101_0101010_1010011_101, .ldres (mf 21 42 83 5)),
    (0b0_1100100_0010101_0101010_1010011_101, .stcond (mf 21 42 83 5)),
    (0b0_1100101_0010101_0101010_1010011_101, .fence (mf 21 42 83 5)),
    (0b0_1100110_0010101_0101010_1010011_101, .forage (mf 21 42 83 5)),
    (0b0_1100111_0010101_0101010_1010011_101, .bar (mf 21 42 83 5)),
    (0b0_1101000_0010101_0101010_1010011_101, .cntwt (mf 21 42 83 5)),
    (0b0_1101001_0010101_0101010_1010011_101, .cntadd (mf 21 42 83 5)),
    (0b0_1101100_0010101_0101010_1010011_101, .bra (jf 21 42 83 5)),
    (0b0_1101101_0010101_0101010_1010011_101, .brx (vf 21 42 83 5)),
    (0b0_1101110_0010101_0101010_1010011_101, .call (jf 21 42 83 5)),
    (0b0_1101111_0010101_0101010_1010011_101, .callx (vf 21 42 83 5))].all (reads .warp) = true := by decide

/-- Opcodes 0x70 to 0x7F of the warp stream. -/
theorem test_decode_warp_7 : [
    (0b0_1110000_0010101_0101010_1010011_101, .ret (vf 21 42 83 5)),
    (0b0_1110001_0010101_0101010_1010011_101, .join (jf 21 42 83 5)),
    (0b0_1110010_0010101_0101010_1010011_101, .dqpop (vf 21 42 83 5)),
    (0b0_1110011_0010101_0101010_1010011_101, .dqbr (vf 21 42 83 5)),
    (0b0_1110100_0010101_0101010_1010011_101, .exit (vf 21 42 83 5)),
    (0b0_1110101_0010101_0101010_1010011_101, .trap (vf 21 42 83 5)),
    (0b0_1110110_0010101_0101010_1010011_101, .brk (vf 21 42 83 5)),
    (0b0_1110111_0010101_0101010_1010011_101, .svc (vf 21 42 83 5)),
    (0b0_1111000_0010101_0101010_1010011_101, .wake (vf 21 42 83 5)),
    (0b0_1111001_0010101_0101010_1010011_101, .sreg (vf 21 42 83 5)),
    (0b0_1111010_0010101_0101010_1010011_101, .swreg (vf 21 42 83 5)),
    (0b0_1111011_0010101_0101010_1010011_101, .yield (vf 21 42 83 5)),
    (0b0_1111100_0010101_0101010_1010011_101, .nop (vf 21 42 83 5)),
    (0b0_1111101_0010101_0101010_1010011_101, .resume (vf 21 42 83 5)),
    (0b0_1111110_0010101_0101010_1010011_101, .twait (vf 21 42 83 5))].all (reads .warp) = true := by decide

/-- Opcodes 0x00 to 0x0F of the cue stream. -/
theorem test_decode_cue_0 : [
    (0b0_0000001_010101_101010_110011_011_100, .cadd (qf 21 42 51 3 4)),
    (0b0_0000010_010101_101010_110011_011_100, .csub (qf 21 42 51 3 4)),
    (0b0_0000011_010101_101010_110011_011_100, .cmul (qf 21 42 51 3 4)),
    (0b0_0000100_010101_101010_110011_011_100, .cmulh (qf 21 42 51 3 4)),
    (0b0_0000101_010101_101010_110011_011_100, .cdiv (qf 21 42 51 3 4)),
    (0b0_0000110_010101_101010_110011_011_100, .cand (qf 21 42 51 3 4)),
    (0b0_0000111_010101_101010_110011_011_100, .cor (qf 21 42 51 3 4)),
    (0b0_0001000_010101_101010_110011_011_100, .cxor (qf 21 42 51 3 4)),
    (0b0_0001001_010101_101010_110011_011_100, .cshl (qf 21 42 51 3 4)),
    (0b0_0001010_010101_101010_110011_011_100, .cshr (qf 21 42 51 3 4)),
    (0b0_0001011_010101_101010_110011_011_100, .csar (qf 21 42 51 3 4)),
    (0b0_0001100_010101_101010_110011_011_100, .cmin (qf 21 42 51 3 4)),
    (0b0_0001101_010101_101010_110011_011_100, .cmax (qf 21 42 51 3 4)),
    (0b0_0001110_010101_101010_110011_011_100, .cbfx (qf 21 42 51 3 4)),
    (0b0_0001111_010101_101010_110011_011_100, .cbfi (qf 21 42 51 3 4))].all (reads .cue) = true := by decide

/-- Opcodes 0x10 to 0x1F of the cue stream. -/
theorem test_decode_cue_1 : [
    (0b0_0010000_010101_101010_110011_011_100, .cpopc (qf 21 42 51 3 4)),
    (0b0_0010001_010101_101010_110011_011_100, .cclz (qf 21 42 51 3 4)),
    (0b0_0010010_010101_101010_110011_011_100, .cmov (qf 21 42 51 3 4)),
    (0b0_0010011_010101_101010_110011_011_100, .cli (qf 21 42 51 3 4)),
    (0b0_0010100_010101_101010_110011_011_100, .ccmp (qf 21 42 51 3 4)),
    (0b0_0010101_010101_101010_110011_011_100, .csel (qf 21 42 51 3 4)),
    (0b0_0010110_010101_101010_110011_011_100, .cb (qf 21 42 51 3 4)),
    (0b0_0010111_010101_101010_110011_011_100, .cbx (qf 21 42 51 3 4)),
    (0b0_0011000_010101_101010_110011_011_100, .ccall (qf 21 42 51 3 4)),
    (0b0_0011001_010101_101010_110011_011_100, .cret (qf 21 42 51 3 4)),
    (0b0_0011010_010101_101010_110011_011_100, .cld (qm 21 42 51 3 4)),
    (0b0_0011011_010101_101010_110011_011_100, .cst (qm 21 42 51 3 4)),
    (0b0_0011100_010101_101010_110011_011_100, .catom (qm 21 42 51 3 4)),
    (0b0_0011101_010101_101010_110011_011_100, .cfence (qm 21 42 51 3 4)),
    (0b0_0011110_010101_101010_110011_011_100, .dqpush (qf 21 42 51 3 4)),
    (0b0_0011111_010101_101010_110011_011_100, .launch (qe 21 42 51 3 4))].all (reads .cue) = true := by decide

/-- Opcodes 0x20 to 0x2F of the cue stream. -/
theorem test_decode_cue_2 : [
    (0b0_0100000_010101_101010_110011_011_100, .wgbar (qf 21 42 51 3 4)),
    (0b0_0100001_010101_101010_110011_011_100, .cwait (qf 21 42 51 3 4)),
    (0b0_0100010_010101_101010_110011_011_100, .cforage (qm 21 42 51 3 4)),
    (0b0_0100011_010101_101010_110011_011_100, .cmig (qf 21 42 51 3 4)),
    (0b0_0100100_010101_101010_110011_011_100, .cend (qf 21 42 51 3 4)),
    (0b0_0100101_010101_101010_110011_011_100, .cslot (qf 21 42 51 3 4)),
    (0b0_0100110_010101_101010_110011_011_100, .wstat (qf 21 42 51 3 4)),
    (0b0_0101000_010101_101010_110011_011_100, .tcfg (qe 21 42 51 3 4)),
    (0b0_0101001_010101_101010_110011_011_100, .tld (qe 21 42 51 3 4)),
    (0b0_0101010_010101_101010_110011_011_100, .tsd (qe 21 42 51 3 4)),
    (0b0_0101011_010101_101010_110011_011_100, .tzero (qe 21 42 51 3 4)),
    (0b0_0101100_010101_101010_110011_011_100, .arrw (qe 21 42 51 3 4)),
    (0b0_0101101_010101_101010_110011_011_100, .arrmm (qe 21 42 51 3 4)),
    (0b0_0101110_010101_101010_110011_011_100, .arrmmg (qe 21 42 51 3 4)),
    (0b0_0101111_010101_101010_110011_011_100, .arrdist (qe 21 42 51 3 4))].all (reads .cue) = true := by decide

/-- Opcodes 0x30 to 0x3F of the cue stream. -/
theorem test_decode_cue_3 : [
    (0b0_0110000_010101_101010_110011_011_100, .arrbest (qe 21 42 51 3 4)),
    (0b0_0110001_010101_101010_110011_011_100, .arrcent (qe 21 42 51 3 4)),
    (0b0_0110010_010101_101010_110011_011_100, .adrain (qe 21 42 51 3 4)),
    (0b0_0110011_010101_101010_110011_011_100, .adrainp (qe 21 42 51 3 4)),
    (0b0_0110100_010101_101010_110011_011_100, .adraine (qe 21 42 51 3 4)),
    (0b0_0110101_010101_101010_110011_011_100, .azero (qe 21 42 51 3 4)),
    (0b0_0110110_010101_101010_110011_011_100, .aload (qe 21 42 51 3 4)),
    (0b0_0110111_010101_101010_110011_011_100, .txpose (qe 21 42 51 3 4))].all (reads .cue) = true := by decide

/-- Opcodes 0x40 to 0x4F of the cue stream. -/
theorem test_decode_cue_4 : [
    (0b0_1000000_010101_101010_110011_011_100, .bcp (qe 21 42 51 3 4)),
    (0b0_1000001_010101_101010_110011_011_100, .bgat (qe 21 42 51 3 4)),
    (0b0_1000010_010101_101010_110011_011_100, .bsca (qe 21 42 51 3 4)),
    (0b0_1000011_010101_101010_110011_011_100, .bexp (qe 21 42 51 3 4)),
    (0b0_1000100_010101_101010_110011_011_100, .bfill (qe 21 42 51 3 4)),
    (0b0_1000101_010101_101010_110011_011_100, .bpeer (qe 21 42 51 3 4)),
    (0b0_1000110_010101_101010_110011_011_100, .mop (qe 21 42 51 3 4)),
    (0b0_1000111_010101_101010_110011_011_100, .xopen (qe 21 42 51 3 4)),
    (0b0_1001000_010101_101010_110011_011_100, .xclose (qe 21 42 51 3 4)),
    (0b0_1001001_010101_101010_110011_011_100, .slxp (qe 21 42 51 3 4)),
    (0b0_1001010_010101_101010_110011_011_100, .rsvfill (qe 21 42 51 3 4)),
    (0b0_1001011_010101_101010_110011_011_100, .rsvdrop (qe 21 42 51 3 4)),
    (0b0_1001100_010101_101010_110011_011_100, .rsvq (qe 21 42 51 3 4)),
    (0b0_1001101_010101_101010_110011_011_100, .kvdrop (qe 21 42 51 3 4)),
    (0b0_1001110_010101_101010_110011_011_100, .kvprio (qe 21 42 51 3 4)),
    (0b0_1001111_010101_101010_110011_011_100, .rsvset (qe 21 42 51 3 4))].all (reads .cue) = true := by decide

/-- Opcodes 0x50 to 0x5F of the cue stream. -/
theorem test_decode_cue_5 : [
    (0b0_1010000_010101_101010_110011_011_100, .ctrap (qf 21 42 51 3 4)),
    (0b0_1010001_010101_101010_110011_011_100, .cwake (qf 21 42 51 3 4)),
    (0b0_1010010_010101_101010_110011_011_100, .csreg (qf 21 42 51 3 4)),
    (0b0_1010011_010101_101010_110011_011_100, .cswreg (qf 21 42 51 3 4)),
    (0b0_1010100_010101_101010_110011_011_100, .cresume (qf 21 42 51 3 4)),
    (0b0_1010101_010101_101010_110011_011_100, .iret (qf 21 42 51 3 4)),
    (0b0_1010110_010101_101010_110011_011_100, .chalt (qf 21 42 51 3 4)),
    (0b0_1010111_010101_101010_110011_011_100, .ctxsv (qe 21 42 51 3 4)),
    (0b0_1011000_010101_101010_110011_011_100, .ctxld (qe 21 42 51 3 4)),
    (0b0_1011001_010101_101010_110011_011_100, .tabort (qf 21 42 51 3 4)),
    (0b0_1011010_010101_101010_110011_011_100, .tcommit (qf 21 42 51 3 4)),
    (0b0_1011011_010101_101010_110011_011_100, .csvc (qm 21 42 51 3 4)),
    (0b0_1011100_010101_101010_110011_011_100, .tlbinv (qe 21 42 51 3 4)),
    (0b0_1011101_010101_101010_110011_011_100, .ptwalk (qe 21 42 51 3 4)),
    (0b0_1011110_010101_101010_110011_011_100, .pgdup (qe 21 42 51 3 4)),
    (0b0_1011111_010101_101010_110011_011_100, .pgcol (qe 21 42 51 3 4))].all (reads .cue) = true := by decide

/-- Opcodes 0x60 to 0x6F of the cue stream. -/
theorem test_decode_cue_6 : [
    (0b0_1100000_010101_101010_110011_011_100, .pgsplit (qe 21 42 51 3 4)),
    (0b0_1100001_010101_101010_110011_011_100, .pgjoin (qe 21 42 51 3 4)),
    (0b0_1100010_010101_101010_110011_011_100, .pgmig (qe 21 42 51 3 4)),
    (0b0_1100011_010101_101010_110011_011_100, .dirq (qe 21 42 51 3 4)),
    (0b0_1100100_010101_101010_110011_011_100, .dirset (qe 21 42 51 3 4)),
    (0b0_1100101_010101_101010_110011_011_100, .hostinv (qe 21 42 51 3 4))].all (reads .cue) = true := by decide

/-- The second words (R35 to R39, R42 to R44): C PA PB PC LOOK PN MOD PS PARAM; IMM; LOOK OBS ORDR WID FE SX OFS; LOOK OBS ORDR WID AOP C; LOOK TR ROW0 COL0 TOK; IMM; LOOK OBS ORDR WID OFS; TOK FSL TA TB AC OPT. -/
theorem test_decode_second_words :
    decodeWords .warp 0x81060417 (some 0b0100001_110_101_011_1001_1_110_1_0010011) = .add { vx 3 1 2 6 with c := 33, pa := 6, pb := 5, pc := 3, look := 9, pn := 1, ps := 1, param := 19 }
    ∧ decodeWords .warp 0x9F0A0007 (some 0x12345678) = .movi (jx 5 0x12345678)
    ∧ decodeWords .warp 0xD0104017 (some 0b0011_0001100_010_011_01_1_000000010100) = .ldG { mx 8 16 2 with look := 3, obs := 12, ordr := 2, wid := 3, fe := 1, sx := 1, ofs := 20 }
    ∧ decodeWords .warp 0xE010082F (some 0x00850000) = .atom { ax 8 2 5 with ordr := 1 }
    ∧ decodeWords .warp 0xC810041F (some 0x03000040) = .tfill { tf 8 1 3 7 with l := true, tr := 3, tok := 2 }
    ∧ decodeWords .cue 0x81202060 (some 0xFFFFFFFE) = .cadd { qf 8 2 1 4 0 with l := true, imm := 0xFFFFFFFE }
    ∧ decodeWords .cue 0x9A210020 (some 0b0011_0001100_010_100_000_000000010100) = .cld { km 8 16 0 with look := 3, obs := 12, ordr := 2, wid := 4, ofs := 20 }
    ∧ decodeWords .cue 0xAD008020 (some 0b010_001_0011_0100_101_000000000000001) = .arrmm { qe 0 8 0 4 0 with l := true, tok := 2, fsl := 1, ta := 3, tb := 4, ac := 5, opt := 1 } := by decide +kernel
/-- Encodings that the rules give whole: `cmp` (R90), `fcmp` (R106), `padd` (R114), `bool3` (R87), `svc` (R385), `bar` (R240), `callx` (R166), `bra` (R165), `wscan` (R146). -/
theorem test_decode_examples :
    decodeWords .warp 0x1C240417 none = .cmp (vf 18 1 2 7) ∧ decodeWords .warp 0x2622102F none = .fcmp (vf 17 4 5 7)
    ∧ decodeWords .warp 0xB6060417 (some 0x400) = .padd (vx 3 1 2 4) ∧ decodeWords .warp 0x95100417 (some 0x06000158) = .bool3 { vx 8 1 2 1 with c := 3, param := 0x58 }
    ∧ decodeWords .warp 0xF7141097 (some 0x3000) = .svc { vx 10 4 18 0 with look := 3 } ∧ decodeWords .warp 0x67000007 none = .bar (mf 0 0 0 7)
    ∧ decodeWords .warp 0x6F001807 none = .callx (vf 0 6 0 7) ∧ decodeWords .warp 0xEC000003 (some 0xFFFFFFFA) = .bra { jf 0 0 0 3 with l := true, imm := 0xFFFFFFFA }
    ∧ decodeWords .warp 0xC5090401 (some 0x01800100) = .wscan { vf 4 65 0 1 with l := true, mod := 1, pa := 6 } := by decide +kernel
/-- What the decoder reads from bytes, and what it leaves. -/
def decodes (st : Stream) (bs : List Byte) (i : Instr) (r : List Byte) : Bool := match decode st bs with
  | .ok (j, q) => j = i && q = r
  | .error _ => false
/-- A second word follows L, and the bytes after the instruction are left; an illegal opcode takes one word (02 R25, R61). -/
theorem test_decode_bytes : (decodes .warp [0x07, 0x00, 0x0A, 0x9F, 0x78, 0x56, 0x34, 0x12, 0xAA] (.movi (jx 5 0x12345678)) [0xAA]
  && decodes .warp [0x07, 0x00, 0x00, 0xFF, 0xAA] (.illegalOpcode false 0xFF000007) [0xAA]) = true := by decide +kernel

/-! ### A device with one workgroup: a warp of four threads and a cue thread, each past the first instruction of a clause -/

def rec4 : LaunchRec :=
  { placedRec with wdim := (4, 1, 1), slots := [0x00240095, 0x000103B9, 0x00040095, 0, 0, 0, 0, 0], locals := [0x1000, 0, 0, 0], pbase := 0x48000000, psize := 1024, whandler := 0x20000, chandler := 0x30000, hmask := 0xFFFFFFFF }
def grid4 : Grid := { placedGrid State.reset with lrec := rec4, run := 0x2000000 }
/-- v16:v17 hold global addresses, v20 local offsets; c16 and c17 hold global addresses. -/
def warp4 (x : Warp) : Warp := { (List.range 4).foldl (fun w l => vset (vsetN w 16 l (0x40001000 + 64 * l) 2) 20 l (.ofNat 32 (64 * l))) x with
  threads := x.threads.map fun th => { th with pc := placedPc, sp := 512, clause := some (placedClause false) } }
def wg4 : Workgroup :=
  let k := newWg grid4 1 0 0 0x3000000 { ctx := 0, places := [(0, 0)], bases := [0] }
  { k with warps := k.warps.map warp4, cue := cset (cset { k.cue with pc := placedPc, clause := some (placedClause true) } 16 0x40002000) 17 0x40003000 }
/-- VA 0x40000000 to 0x7FFFFFFF is PA 0 onwards, writable. -/
def page : TlbEntry := { second := false, unit := 0, asid := 0, page := 0x40000000, size := 0x40000000, pa := 0, flags := 0x18 }
def base : State := { State.reset with nextId := 2, nextGrid := 2, grids := [grid4], wgs := [wg4], tlb := [page], wshare := [(0, 1)], cur := .warp 1 0 [0, 1, 2, 3] }
/-- The same with one thread in the group, with the cue thread, or with management core 0 issuing. -/
def one (s : State) : State := { s with cur := .warp 1 0 [0] }
def onCue (s : State) : State := { s with cur := .cue 1 }
def onMgmt (s : State) : State := { s with cur := .mgmt 0 }
def inWarp (f : Warp → Warp) (s : State) : State := updWarp s 1 0 f
def inThreads (f : Thread → Thread) (s : State) : State := inWarp (fun w => { w with threads := w.threads.map fun th => if th.life = .live then f th else th }) s
def inCue (f : Cue → Cue) (s : State) : State := updCue s (.cue 1) f
/-- Vector registers in every thread; registers of the issuing cue thread; bytes of home memory. -/
def vregs (l : List (Nat × Nat)) (s : State) : State := inWarp (fun w => (List.range 4).foldl (fun w t => l.foldl (fun w (r, v) => vset w r t (.ofNat 32 v)) w) w) s
def cregs (l : List (Nat × Nat)) (s : State) : State := updCue s s.cur fun x => l.foldl (fun x (r, v) => cset x r (.ofNat 64 v)) x
def put (a : Nat) (bs : List Byte) (s : State) : State := homeWrite s a bs 0 none
/-- The group, or the cue thread, executes the instruction (Safety.lean). -/
def readyW (s : State) (i : Instr) : Bool := match warpOp i, warpCtx s i with
  | some op, some c => WarpReady op s c
  | _, _ => false
def readyQ (s : State) (i : Instr) : Bool := match cueOp i, cueCtx s i with
  | some op, some c => CueReady op s c && c.pass
  | _, _ => false
/-- What holds of the next state, of the warp, or of the cue thread after an instruction. -/
def after (s : State) (i : Instr) (p : State → Bool) : Bool := match exec i s with
  | .next t => p t
  | _ => false
def afterW (s : State) (i : Instr) (p : Warp → Bool) : Bool := after s i fun t => match findWarp t 1 0 with
  | some w => p w
  | none => false
def afterQ (s : State) (i : Instr) (p : Cue → Bool) : Bool := after s i fun t => match findCue t s.cur with
  | some x => p x
  | none => false
def ctxW (s : State) (i : Instr) (p : WCtx → Bool) : Bool := match warpCtx s i with
  | some c => p c
  | none => false
def ctxQ (s : State) (i : Instr) (p : CCtx → Bool) : Bool := match cueCtx s i with
  | some c => p c
  | none => false
/-- Register d of thread t. -/
def holdsV (d t v : Nat) (w : Warp) : Bool := (vget w d t).toNat == v

/-! ### Results worked out in the rules -/

/-- R79: `add.i16.sat` of 0x7FF00005 and 0x0020FFF0. -/
theorem test_add_sat : afterW (vregs [(1, 0x7FF00005), (2, 0x0020FFF0)] base) (.add (vx 3 1 2 6)) (holdsV 3 2 0x7FFFFFF5) = true := by decide +kernel
/-- R87: the bitwise select, FN 0xD8, of its three constants. -/
theorem test_bool3 : afterW (vregs [(1, 0xAA), (2, 0xCC), (3, 0xF0)] base) (.bool3 { vx 8 1 2 1 with c := 3, param := 0x58 }) (holdsV 8 0 0xD8) = true := by decide +kernel
/-- R88: a field of 4 bits at 8, and at 12 with its sign. -/
theorem test_bfx : (afterW (vregs [(1, 0xB700), (2, 0x408)] base) (.bfx (vx 3 1 2 0)) (holdsV 3 0 7)
  && afterW (vregs [(1, 0xB700), (2, 0x40C)] base) (.bfx (vx 3 1 2 1)) (holdsV 3 0 0xFFFFFFFB)) = true := by decide +kernel
/-- R104: 1.0 + 2^−24 is a tie, to even under `.rn` and up under `.ru`, with NX. -/
theorem test_fadd : (afterW (vregs [(1, 0x3F800000), (2, 0x33800000)] base) (.fadd (vf 3 1 2 7)) (fun w => holdsV 3 0 0x3F800000 w && (w.threads[0]?).map (·.fpstat) == some 16)
  && afterW (vregs [(1, 0x3F800000), (2, 0x33800000)] base) (.fadd (vx 3 1 2 2)) (holdsV 3 0 0x3F800001)) = true := by decide +kernel
/-- R109: `fscale` of 1.0 by −149. -/
theorem test_fscale : afterW (vregs [(1, 0x3F800000), (2, 0xFFFFFF6B)] base) (.fscale (vf 3 1 2 7)) (holdsV 3 0 1) = true := by decide +kernel
/-- R114: `padd.bh2` of 0x3F804000 and 0x3B80C000. -/
theorem test_padd : afterW (vregs [(1, 0x3F804000), (2, 0x3B80C000)] base) (.padd (vx 3 1 2 4)) (holdsV 3 0 0x3F800000) = true := by decide +kernel
/-- R119: 2.5 is a tie of E2M1, to even, code 4; 1.0 and −0.001 are codes 0x38 and 0x81 of E4M3. -/
theorem test_qto : (afterW (vregs [(1, 0x40200000), (2, 0x3F800000)] base) (.qto (vf 3 1 2 7)) (holdsV 3 0 4)
  && afterW (vregs [(1, 0x3F800000), (2, 0x3F800000)] base) (.qto { vx 3 1 2 0 with c := 1 }) (holdsV 3 0 0x38)
  && afterW (vregs [(1, 0xBA83126F), (2, 0x3F800000)] base) (.qto { vx 3 1 2 0 with c := 1 }) (holdsV 3 0 0x81)) = true := by decide +kernel
/-- R145: FP32 values are summed exactly and rounded once: 2^24 + 1 + 1 + 1 = 16,777,219 rounds to 16,777,220. -/
theorem test_wred : afterW (inWarp (fun w => vset w 3 0 0x4B800000) (vregs [(3, 0x3F800000)] base)) (.wred (vf 10 3 8 7)) (holdsV 10 3 0x4B800002) = true := by decide +kernel
/-- R146: an exclusive count of the lanes under p1, here 1 and 3. -/
theorem test_wscan : afterW (inWarp (fun w => pset (pset w 1 1 true) 1 3 true) base) (.wscan { vf 4 65 0 1 with l := true, mod := 1, pa := 6 }) (fun w => holdsV 4 1 0 w && holdsV 4 3 1 w) = true := by decide +kernel
/-- R165: a branch back 24 bytes, taken by the lanes under p3 alone. -/
theorem test_bra : afterW (inWarp (fun w => pset w 3 2 true) base) (.bra { jf 0 0 0 3 with l := true, imm := 0xFFFFFFFA }) (fun w =>
  (w.threads[2]?).map (·.pc) == some 0xFFE8 && (w.threads[0]?).map (·.pc) == some 0x10008) = true := by decide +kernel
/-- R264: −7 by 2, and −7 by 0. -/
theorem test_cdiv : (afterQ (cregs [(8, 2 ^ 64 - 7), (9, 2)] (onCue base)) (.cdiv (kq 10 8 9 0)) (fun x => (cget x 10).toInt == -3 && (cget x 11).toInt == -1 && !gget x 3)
  && afterQ (cregs [(8, 2 ^ 64 - 7), (9, 0)] (onCue base)) (.cdiv (kq 10 8 9 0)) (fun x => (cget x 10).toInt == -1 && (cget x 11).toInt == -7 && gget x 3)) = true := by decide +kernel

/-! ### Witnesses: the hypotheses of each statement hold together in a state -/

def isOk : Acc → Bool
  | .ok _ _ => true
  | _ => false
def isLs (a : Nat) : Acc → Bool
  | .ok (.ls x) t => x = a && t = Trans_none
  | _ => false
/-- An instruction placed alone in the state after reset. -/
def placed1 (w : Nat) : State := State.reset.withFetchWord 32 w
def fetchedB (s : State) (unit : Nat) (st : Stream) (i : Instr) : Bool := match pieceAt s unit 0 0x10000 with
  | .bytes b => b.length == 4 && decodes st b i []
  | _ => false
def stepsTo (s : State) (p : State → Bool) : Bool := match step s with
  | .next t => p t
  | _ => false

/-- `mov v3, v4`: port 0 votes for the thread, which is past its clause's first instruction; the step goes on past it. -/
theorem witness_StepRunsInstruction_warp : (chosen (placed1 0x1E061007) == .warp 1 0 0
  && (match findWg (placed1 0x1E061007) 1 with
    | some k => k.st == .resident && k.missing == [] && (match gridOf (placed1 0x1E061007) k, k.warps[0]? with
      | some g, some w => portGroup (begin_ (placed1 0x1E061007)) g k w 0 0 == [0] && ((w.threads[0]?).bind (·.clause)).any (·.started)
      | _, _ => false)
    | none => false)
  && fetchedB (placed1 0x1E061007) 0 .warp (.mov (vf 3 4 0 7))
  && stepsTo (placed1 0x1E061007) fun t => ((findThread t 1 0 0).map (·.pc)) == some 0x10004) = true := by decide +kernel
/-- `cmov c3, c4` on the cue thread, and `iret` on management core 0. -/
theorem witness_StepRunsInstruction_cue : ([(placeInWg State.reset 32 0x120C0120 (.cue 1), Issuer.cue 1, 0, Instr.cmov (kq 3 0 4 0)), (placeInMgmt State.reset 32 0x55000020, .mgmt 0, 1024, .iret (kq 0 0 0 0))].all
  fun (s, iss, u, i) => chosen s == (if iss == .mgmt 0 then .mgmt 0 else .cue 1)
    && (match findCue s iss with
      | some c => cueReady (begin_ s) iss c && c.clause.any (·.started)
      | none => false)
    && (issuerWg s iss).all (fun k => k.missing == []) && fetchedB s u .cue i && stepsTo s fun _ => true) = true := by decide +kernel
theorem witness_DecodeEncode : (let i : Instr := .add (vx 3 1 2 6)
  let j : Instr := .cadd (ki 8 5)
  i.canon && (warpOp i).isSome && !isIllegal i && j.canon && (cueOp j).isSome && !isIllegal j) = true := by decide +kernel
theorem witness_StepKeepsSound : (State.reset.wf && (placed1 0x1E061007).wf && stepsTo (placed1 0x1E061007) fun t => t.wf) = true := by decide +kernel

/-- The instructions of each lane statement. -/
def x3 : VF := vf 8 16 24 7
def x2 : VF := vf 8 16 0 7
def laneInstrs : List Instr := [.add x3, .sub x3, .mul x3, .mulh x3, .mad x3, .madw x3, .min x3, .max x3, .abs x2, .neg x2, .sad x3, .dot4 x3, .shl x3, .shr x3, .sar x3, .rot x3, .and x3, .or x3, .xor x3, .not x2, .bool3 x3,
  .bfx x3, .bfi x3, .brev x2, .popc x2, .clz x2, .ctz x2, .sel x3, .mov x2, .movi (jx 8 9)]
def laneInstrs2 : List Instr := [.fadd x3, .fsub x3, .fmul x3, .ffma x3, .fmin x3, .fmax x3, .fclass x2, .frnd x2, .fscale x3, .fclamp x3, .pfma x3, .padd x3, .pmul x3, .cvt (vf 8 16 2 7), .qto x3, .qfrom x3, .qpack x3, .qunpk x3,
  .bscl x2, .fsld (vf 8 0 0 7), .cvtp x3, .lsel x3, .poll { vx 8 2 0 3 with a := 2 }, .eqset x2, .wred x2, .wscan x2, .sreg (vf 8 0 0 7)]
def givesLane (i : Instr) : Bool := readyW base i && ctxW base i (fun c => (vectorResult base c i).isSome) && after base i fun _ => true
theorem witness_LaneResults_integer : laneInstrs.all givesLane = true := by decide +kernel
theorem witness_LaneResults_others : laneInstrs2.all givesLane = true := by decide +kernel
theorem witness_LaneResults_predicate : ([.cmp x3, .fcmp x3, .poll (vf 1 2 0 7), .lead (vf 1 2 0 7)] : List Instr).all
  (fun i => readyW base i && ctxW base i (fun c => (predicateResult c i).isSome) && after base i fun _ => true) = true := by decide +kernel
theorem witness_BitCounts : ([.brev x2, .popc x2, .clz x2, .ctz x2, .brev (vx 8 16 0 1), .popc (vx 8 16 0 1), .clz (vx 8 16 0 1), .ctz (vx 8 16 0 1)] : List Instr).all
  (fun i => readyW base i && ctxW base i fun c => c.cs == [0, 1, 2, 3]) = true := by decide +kernel
theorem witness_WarpStateWrites : ([.nop (vf 0 0 0 7), .yield (vf 0 0 0 7), .swreg (vf 0 16 21 7), .swreg (vf 0 16 23 7), .kvkey { vx 0 8 0 0 with pa := 6 }, .patld (vf 0 8 0 7), .v2s (vf 8 16 0 7), .v2s (vx 8 16 0 3)] : List Instr).all
  (fun i => readyW base i && ctxW base i fun c => c.cs == [0, 1, 2, 3]) = true := by decide +kernel
theorem witness_WarpTransfers : (([.bra (jx 0 16), .brx (vf 0 16 0 7), .call (jx 0 16), .callx (vf 0 16 0 7)] : List Instr).all (readyW base)
  && readyW (inThreads (fun th => { th with rstack := [0x20000], depth := 1 }) base) (.ret (vf 0 0 0 7))
  && (findThread base 1 0 0).any (fun th => decide (th.rstack.length < 4))) = true := by decide +kernel
theorem witness_SpecialFunctionsIssue : ([.fdiv x3, .fsqrt x2, .frcp x2, .frsqrt x2, .fexp2 x2, .flog2 x2, .fsin x2, .fcos x2, .ftanh x2, .fsigm x2] : List Instr).all
  (fun i => readyW base i && ctxW base i fun c => (specialResult c i).isSome) = true := by decide +kernel
/-- A full return stack; an empty one; the refill that is in flight. -/
def fullStack : State := one (inThreads (fun th => { th with rstack := [4, 8, 12, 16], depth := 4 }) base)
def called : State := one (inThreads (fun th => { th with depth := 5 }) base)
theorem witness_CallsAndReturns_call : (([.call (jx 0 16), .callx (vf 0 16 0 7)] : List Instr).all fun i =>
  readyW fullStack i && ctxW fullStack i fun c => c.cs == [0] && isOk (place fullStack (WCtx_iss c) .priv 0 0 504 8 true)) = true := by decide +kernel
theorem witness_CallsAndReturns_return : (readyW called (.ret (vf 0 0 0 7)) && ctxW called (.ret (vf 0 0 0 7)) (fun c => isOk (place called (WCtx_iss c) .priv 0 0 512 8 false))
  && after called (.ret (vf 0 0 0 7)) fun t => (findFlight t 2).any (fun f => f.kind == .refill [(0, 0)])
    && after t (.returnAddressRefill 2) fun u => u.flights == [] && (findThread u 1 0 0).any fun th => th.park == none && th.sp == 520) = true := by decide +kernel
theorem witness_JoinParksOrConverges : (readyW (one base) (.join (jx 1 100)) && ctxW (one base) (.join (jx 1 100)) (fun c => Warp_live c.w == [0, 1, 2, 3] && c.cs == [0] && c.w.threads.all fun th => th.park == none)
  && readyW base (.join (jx 1 100)) && ctxW base (.join (jx 1 100)) (fun c => c.cs == Warp_live c.w && c.cs.all fun l => (c.w.threads[l]?).all fun th => th.pc == c.pc)) = true := by decide +kernel
def withDq (l : List DWord) : State := inWarp (fun w => { w with dq := l }) base
theorem witness_DecisionQueues : ([withDq [], withDq [0x10_00000010]].all fun s => ([.dqpop (vf 8 0 0 7), .dqbr (vf 9 0 0 7)] : List Instr).all fun i => readyW s i && ctxW s i fun c => c.cs == c.lanes) = true := by decide +kernel
def parkedAt (p : Park) : State := inThreads (fun th => { th with park := some p }) (withDq [0x10_00000010])
theorem witness_DecisionQueues_pop : ([(parkedAt (.dqpop 8), 16), (parkedAt (.dqbr (some 9)), 0)].all fun (s, v) => after s (.decisionQueuePop 1 0) fun t =>
  (findWarp t 1 0).any fun w => w.dq == [] && (sget w 8).toNat == v && w.threads.all fun th => th.park == none) = true := by decide +kernel
theorem witness_ExitEndsThreads : (readyW base (.exit (vf 0 0 0 7)) && ctxW base (.exit (vf 0 0 0 7)) (fun c => c.w.threads.all (fun th => th.park == none) && (List.range 16).all fun n => arrivals c.k n == [])) = true := by decide +kernel
theorem witness_SoftwareTraps : (readyW base (.trap (vf 0 0 5 7)) && readyW base (.brk (vf 0 0 1 7)) && readyQ (onCue base) (.ctrap (kq 0 0 3 0))) = true := by decide +kernel
theorem witness_IllegalOpcodes : (ctxW base (.illegalOpcode false 0xFF000007) (fun c => c.k.st == .resident && c.lanes != [] && cutLanes c == [] && c.w.threads.all (fun th => th.park == none && th.windows == [] && th.deferred == []) && softCause base c (.illegalOpcode false 0xFF000007) == none)
  && ctxQ (onCue base) (.illegalOpcode true 0x7F000000) (fun c => !cueStopped (onCue base) c && c.c.windows == [] && c.c.deferred == [] && c.g.all (fun g => decide (cueNextDist c.c ≤ g.lrec.cutmax)) && cueSoft (onCue base) (.illegalOpcode true 0x7F000000) == none)
  && after base (.illegalOpcode false 0xFF000007) (fun t => (findThread t 1 0 3).any fun th => th.inHandler && th.sp == 448 && th.pc == 0x20000)) = true := by decide +kernel
/-- Service queue 0: base 0x5010000, 4 records of 512 bytes, 1,000 us, no wake, enabled. -/
def served : State := put 0x5000000 (leBytes 8 0x5010000 ++ leBytes 4 4 ++ leBytes 4 512 ++ leBytes 4 1000 ++ leBytes 2 0xFFFF ++ [1]) (setMreg base Reg.SVCBASE 0x5000000)
theorem witness_ServiceRequests_issue : (readyW served (.svc (vf 8 16 16 7)) && svcBacked served 0 && ctxW served (.svc (vf 8 16 16 7)) (fun c => c.cs != [] && !c.k.taskOn) && readyW base (.wake (vf 0 16 8 7))
  && after served (.svc (vf 8 16 16 7)) fun t => (svcDesc t 0).widx == 1) = true := by decide +kernel
/-- The reply of that request for lanes 0 to 3, and a request that has waited for 1,000 us. -/
def svcFlight (d : Nat) (who : Issuer) : Flight := { id := 7, who := who, pc := placedPc, look := 0, kind := .svc 0 0 d [0, 1, 2, 3] 64 0 }
def replied : State := put 0x5010000 (List.replicate 40 0 ++ leBytes 8 1 ++ List.replicate 16 0 ++ leBytes 4 77 ++ leBytes 4 78 ++ leBytes 4 79 ++ leBytes 4 80) { served with flights := [svcFlight 8 (.warp 1 0 [0, 1, 2, 3])] }
theorem witness_ServiceRequests_reply : (after replied (.serviceReply 7) (fun t => (findWarp t 1 0).any (holdsV 8 2 79) && t.flights == [])
  && after { replied with flights := [svcFlight 8 (.cue 1)] } (.serviceReply 7) (fun t => (findCue t (.cue 1)).any fun x => x.windows == [])
  && ({ served with clk := 10 ^ 9, flights := [svcFlight 8 (.warp 1 0 [0, 1, 2, 3])] }.flights.filter fun f => (svcLate { served with clk := 10 ^ 9 } f).isSome) == [svcFlight 8 (.warp 1 0 [0, 1, 2, 3])]) = true := by decide +kernel
/-- A retake stub in progress; a record at `%sp` that returns to 0x10008; tokens. -/
def stubbed : State := inThreads (fun th => { th with stub := some { target := 0x11000, issued := 0, deadV := [], deadS := [], deadP := [] } }) base
def handling : State := one (inThreads (fun th => { th with inHandler := true }) (put (0x8000000 + 512) (recBytes { cause := 0x180, kind := 0, fpc := 0x10000, rpc := 0x10008 }) base))
theorem witness_ResumeAndTokenWait : (readyW stubbed (.resume (vf 0 0 0 7)) && readyW handling (.resume (vx 0 0 0 1)) && (readRecord handling 1 0 0).1.isSome
  && readyW base (.twait (vf 0 0 0 7)) && readyW base (.twait (vf 0 0 63 7)) && ctxW base (.twait (vf 0 0 0 7)) (fun c => c.w.threads.all fun th => th.park == none)
  && readyW (inWarp (fun w => { w with tokens := [(5, 1)] }) base) (.twait (vf 0 0 32 7))
  && after handling (.resume (vx 0 0 0 1)) fun t => (findThread t 1 0 0).any fun th => th.pc == 0x10008 && th.sp == 576 && !th.inHandler) = true := by decide +kernel
/-- Tiles: t0 4 by 16 FP16, t1 16 by 4 FP16, t2 4 by 1 INT32, t3 8 by 32 FP32, t4 16 by 4 FP16. -/
def tiled : State := updWg base 1 fun k => { k with tconf := [0, 1, 2, 3, 4], tcfg := [(0, 0x40F03), (1, 0x10104030F), (2, 0x200100003), (3, 0x3000C1F07), (4, 0x40004030F)] }
theorem witness_Collectives : (let f : TF := { tf 8 0 0 7 with l := true, tr := 3, tok := 1 }
  readyW tiled (.tfill f) && readyW tiled (.tread f)
    && after tiled (.tfill f) fun t => (findFlight t 2).isSome && after t (.collectiveCompletion 2) fun u => u.flights == [] && (findWarp u 1 0).any fun w => w.colls == [] && w.tokens == []) = true := by decide +kernel
theorem witness_BarrierAndCounterWait_bar : (readyW (one base) (.bar (mf 0 0 0 7)) && ctxW (one base) (.bar (mf 0 0 0 7)) (fun c => c.lanes == [0] && Warp_live c.w == [0, 1, 2, 3] && (List.range 16).all fun n => arrivals c.k n == [])
  && readyW base (.bar (mf 0 0 0 7)) && ctxW base (.bar (mf 0 0 0 7)) (fun c => c.k.warps == [c.w] && c.lanes == Warp_live c.w && barCount c (mf 0 0 0 7) == 0)
  && after base (.bar (mf 0 0 0 7)) fun t => (findWg t 1).any fun k => k.phase.get 0 == 1) = true := by decide +kernel
def cntf : MF := { mx 8 20 0 with wid := 3 }
theorem witness_BarrierAndCounterWait_counter : ([base, vregs [(8, 1)] base].all (fun s => readyW s (.cntwt cntf) && undrained s (.warp 1 0 [0, 1, 2, 3])
    && ctxW s (.cntwt cntf) fun c => (counterAccs cntf false s c).all (fun a => isLs (64 * a.lane) a.acc) && c.cs.all fun l => lsCap s (4 * l) == .good && leNat (lsBytes s (64 * l + 8) 8) == 0)
  && afterW base (.cntwt cntf) (fun w => (w.threads[0]?).bind (·.park) == none) && afterW (vregs [(8, 1)] base) (.cntwt cntf) (fun w => ((w.threads[0]?).bind (·.park)).isSome)) = true := by decide +kernel
theorem witness_Loads_local : ([(.ldL (mf 8 20 0 7), mf 8 20 0 7, Space.local_), (.ldC (mf 8 20 0 7), mf 8 20 0 7, .cluster)] : List (Instr × MF × Space)).all (fun (i, f, sp) => readyW base i && undrained base (.warp 1 0 [0, 1, 2, 3])
  && ctxW base i fun c => c.cs.all fun l => match place base (WCtx_iss c) sp 0 l (mAddr c.w f .off false l) 4 false with
    | .ok (.ls a) t => t == Trans_none && lsCaps base a 4 == .good
    | _ => false) = true := by decide +kernel
/-- A word of home memory at VA 0x40001000, which v16:v17 of lane 0 holds. -/
def wordAt : State := one (put 0x1000 (leBytes 4 0xCAFE0001) base)
theorem witness_Loads_any : ([(.ldG (mf 8 16 2 7), Space.global, 0x40001000), (.ldP (mf 8 20 0 7), .priv, 512), (.ldL (mf 8 20 0 7), .local_, 0), (.ldC (mf 8 20 0 7), .cluster, 0)] : List (Instr × Space × Nat)).all (fun (i, sp, a) =>
    readyW wordAt i && undrained wordAt (.warp 1 0 [0]) && isOk (place wordAt (.warp 1 0 [0]) sp 0 0 a 4 false))
  && after wordAt (.ldG (mf 8 16 2 7)) (fun t => (findFlight t 2).any (fun f => f.kind == .load [⟨0, 8, 0xCAFE0001⟩] [] []) && afterW t (.memoryAccessCompletion 2) (holdsV 8 0 0xCAFE0001)) = true := by decide +kernel
def feF (n : Nat) : MF := { mx 8 20 0 with fe := .ofNat 2 n }
theorem witness_FullEmptyLoads : ([feSet (one base) 0 true, one base].all (fun s => [1, 2].all fun n => readyW s (.ldL (feF n)) && undrained s (.warp 1 0 [0]) && isLs 0 (place s (.warp 1 0 [0]) .local_ 0 0 0 4 false))
  && feGet (feSet (one base) 0 true) 0 && !feGet (one base) 0 && !feAhead (one base) 2 0 && lsCaps (one base) 0 4 == .good
  && after (feSet (one base) 0 true) (.ldL (feF 2)) fun t => !feGet t 0) = true := by decide +kernel
theorem witness_Stores_local : ([(.stL (mf 8 20 0 7), mf 8 20 0 7, Space.local_), (.stL { mx 8 20 0 with fe := 3 }, mf 8 20 0 7, Space.local_), (.stC (mf 8 20 0 7), mf 8 20 0 7, .cluster)] : List (Instr × MF × Space)).all (fun (i, f, sp) => readyW base i
  && ctxW base i fun c => c.cs.all fun l => match place base (WCtx_iss c) sp 0 l (mAddr c.w f .off false l) 4 true with
    | .ok (.ls _) t => t == Trans_none
    | _ => false) = true := by decide +kernel
theorem witness_Stores_any : (([(.stG (mf 16 16 2 7), Space.global, 0x40001000), (.stP (mf 16 20 0 7), .priv, 512), (.stG { mx 16 16 2 with ordr := 3, obs := 4 }, .global, 0x40001000)] : List (Instr × Space × Nat)).all (fun (i, sp, a) =>
    readyW (one base) i && undrained (one base) (.warp 1 0 [0]) && isOk (place (one base) (.warp 1 0 [0]) sp 0 0 a 4 true))
  && after (one base) (.stG { mx 16 16 2 with ordr := 1, obs := 4 }) (fun t => (findFlight t 2).isSome && homeNat t 0x1000 4 == 0 && after t (.executionPointOperation 2) fun u => homeNat u 0x1000 4 == 0x40001000)) = true := by decide +kernel
/-- An L1 line of the issuing core, dirty in its first byte. -/
def cached : State := one { base with l1 := [{ core := 0, line := 0x20, valid := BitVec.allOnes 128, dirty := 1, data := 0x5A, synd := 0, imm := false, key := 0, writers := [] }] }
theorem witness_CachesAndOrder : (([.l1wb { mx 0 0 0 with sx := 1 }, .l1wb (mf 0 16 2 7), .l1inv { mx 0 0 0 with sx := 1 }, .l1inv (mf 0 16 2 7), .fence { mx 0 0 0 with ordr := 4, obs := 12 }] : List Instr).all (readyW cached)
  && readyW (one base) (.pf (mf 0 16 2 7)) && ctxW cached (.l1wb (mf 0 16 2 7)) (fun c => c.cs == [0] && (lineAt cached c (mf 0 16 2 7) 0).any fun (loc, pa, tr) => loc == .mem 0x1000 && pa == 0x1000 && !tr.sc && mAddr c.w (mf 0 16 2 7) .base false 0 == 0x40001000)
  && (l1Find cached 0 0x20).isSome && (l1Find (one base) 0 0x20).isNone && homeCap (one base) 0x100 != .poison && issuerCore cached (.warp 1 0 [0]) == some 0
  && after cached (.l1wb (mf 0 16 2 7)) fun t => homeNat t 0x1000 4 == 0x5A) = true := by decide +kernel
/-- v16:v17 name the local window of each lane. -/
def windowed : State := inWarp (fun w => (List.range 4).foldl (fun w l => vset w 17 l 0x1FFFFFE) ((List.range 4).foldl (fun w l => vset w 16 l (.ofNat 32 (64 * l))) w)) base
def pointInstrs : List Instr := [.atom (ax 8 16 10), .atomf (ax 8 16 10), .cas (ax 8 16 10), .ldres (mf 8 16 0 7), .stcond (mf 8 16 0 7), .forage { mx 8 16 0 with wid := 4 }]
/-- Each of the seven is a point operation in the sense of the statement. -/
theorem witness_PointOperations_forms (f : AF) (g : MF) : (∀ i ∈ [Instr.atom f, .atomf f, .cas f, .ldres g, .stcond g, .forage g, .cntadd g], ∃ p : PointOp, p.i = i ∧ warpOp i = some (pointIssue p)) := by
  simp only [List.forall_mem_cons, List.not_mem_nil, false_implies, implies_true, and_true]
  exact ⟨⟨_, rfl, rfl⟩, ⟨_, rfl, rfl⟩, ⟨_, rfl, rfl⟩, ⟨_, rfl, rfl⟩, ⟨_, rfl, rfl⟩, ⟨_, rfl, rfl⟩, ⟨_, rfl, rfl⟩⟩
theorem witness_PointOperations : (([.atom (ax 8 16 10), .atomf (ax 8 16 10), .cas (ax 8 16 10)] : List Instr).all (readyW windowed) && readyW base (.cntadd { mx 8 20 0 with wid := 3 })
  && pointInstrs.all (readyW (one base)) && undrained base (.warp 1 0 [0, 1, 2, 3])
  && ctxW windowed (.atom (ax 8 16 10)) (fun c => c.cs.all fun l => isLs (64 * l) (place windowed (WCtx_iss c) .global 0 l (vgetN c.w 16 l 2) 4 true))
  && isOk (place (one base) (.warp 1 0 [0]) .global 0 0 0x40001000 4 true)) = true := by decide +kernel
/-- `atom.add` of 5 on a word that holds 0xCAFE0001, from issue to completion. -/
def added : State := vregs [(10, 5)] wordAt
theorem witness_FlightProgress_point : after added (.atom (ax 8 16 10)) (fun t => (findFlight t 2).any (fun f => match f.kind with
    | .exec _ [_] _ => true
    | _ => false)
  && after t (.executionPointOperation 2) fun u => homeNat u 0x1000 4 == 0xCAFE0006 && (findFlight u 2).any (fun f => f.kind == .load [⟨0, 8, 0xCAFE0001⟩] [] []) && afterW u (.memoryAccessCompletion 2) (holdsV 8 0 0xCAFE0001)) = true := by decide +kernel
theorem witness_FlightProgress_vsfu : after (vregs [(16, 0x40800000)] base) (.fsqrt x2) (fun t => (findFlight t 2).isSome && t.softErrors == [] && afterW t (.vsfuCompletion 2) (holdsV 8 3 0x40000000)) = true := by decide +kernel
def laneOp (loc : Loc) : LaneOp := { lane := 0, loc := loc, va := 0, ops := [0, 7, 9], sc := false }
def reserving : State := { base with resv := [{ slice := homeSlice base 0x1000, granule := 0x100, agent := .thread 1 0 0, at_ := 0, claim := some 5 }] }
/-- A forage counter: NEXT 3, END 10, MINC 1, DIV 2. -/
def foraging : State := put 0x1000 (leBytes 8 3 ++ leBytes 8 10 ++ leBytes 4 1 ++ leBytes 4 2 ++ leBytes 8 0) base
theorem witness_PointResults : (lsCaps base 64 4 == .good && lsCaps base 64 8 == .good
  && (pointOp base ⟨.warp 1 0 [0], .ldres (mf 8 16 0 7), 0, 5⟩ (laneOp (.mem 0x1000))).1.bad == [] && ((pointOp base ⟨.warp 1 0 [0], .ldres (mf 8 16 0 7), 0, 5⟩ (laneOp (.mem 0x1000))).2.resv.any fun r => r.agent == .thread 1 0 0 && r.granule == 0x100 && r.claim == none)
  && [4, 8, 16].all (fun n => homeCaps base 0x1000 n == .good) && leNat (lsBytes base 72 8) == 0 && lsCap base 4 == .good
  && homeCaps foraging 0x1000 32 == .good && homeNat foraging 0x1010 4 != 0 && homeNat foraging 0x1014 4 != 0 && homeNat foraging 0x1018 8 == 0
  && homeNat (pointOp foraging ⟨.warp 1 0 [0], .forage (mf 8 16 0 7), 0, 5⟩ (laneOp (.mem 0x1000))).2 0x1000 8 == 7
  && holds reserving 5 (agentOf (.warp 1 0 [0]) 0) 0x100 && !holds base 5 (agentOf (.warp 1 0 [0]) 0) 0x100) = true := by decide +kernel
/-- A thread at a header: of one instruction of engine 3, no wait and no cut; and a word that is no header. -/
def atHeader (w : Nat) : State := let s := placeInWg State.reset 32 w (.warp 1 0 0)
  inThreads (fun th => { th with clause := none }) s
theorem witness_StepEntersClause : ([0x31, 0x70].map (fun w => (chosen (atHeader w) == .warp 1 0 0, (findThread (atHeader w) 1 0 0).map (fun th => th.clause == none), pieceAt (atHeader w) 0 0 0x10000, (headerCause false 0 (.ofNat 32 w)).isSome))
  == [(true, some true, .bytes [0x31, 0, 0, 0], false), (true, some true, .bytes [0x70, 0, 0, 0], true)]
  && (match findWg (atHeader 0x31) 1 with
    | some k => (match gridOf (atHeader 0x31) k, k.warps[0]? with
      | some g, some w => portGroup (begin_ (atHeader 0x31)) g k w 0 0 == [0]
      | _, _ => false)
    | none => false)
  && stepsTo (atHeader 0x31) fun t => (findThread t 1 0 0).any fun th => th.pc == 0x10004 && th.clause.isSome) = true := by decide +kernel
/-- A misaligned load (08 R201). -/
theorem witness_WarpPreciseCauses : (let s := vregs [(16, 0x40001002)] base
  ctxW s (.ldG (mf 8 16 2 7)) (fun c => c.k.st == .resident && c.lanes != [] && !c.lanes.any (heldLane (opLdG (mf 8 16 2 7)) c) && !c.lanes.any (fun l => (laneDue (opLdG (mf 8 16 2 7)) c l).isSome) && (issueCause (opLdG (mf 8 16 2 7)) s c).any (fun o => o.cause == 0x0A0) && (softCause s c (.ldG (mf 8 16 2 7))).isNone)
    && after s (.ldG (mf 8 16 2 7)) fun t => (findThread t 1 0 0).any fun th => th.inHandler) = true := by decide +kernel
theorem witness_CueTraps : (let s := cregs [(16, 0x40001002)] (onCue base)
  ctxQ s (.cld (km 8 16 0)) (fun c => !cueStopped s c && c.c.windows == [] && (dueIn false 0 c.c.deferred).isNone && (cueCause (opCld (km 8 16 0)) s c).any (fun o => o.cause == 0x0A0) && (cueSoft s (.cld (km 8 16 0))).isNone)
    && ctxQ (onCue base) (.iret (kq 0 0 0 0)) (fun c => cuePriv (.iret (kq 0 0 0 0)) && c.iss == .cue 1 && !cueStopped (onCue base) c && c.c.windows == [] && c.c.deferred == [] && c.g.all fun g => decide (cueNextDist c.c ≤ g.lrec.cutmax))
    && after (onCue base) (.iret (kq 0 0 0 0)) fun t => (findCue t (.cue 1)).any fun x => x.inHandler && x.pc == 0x30000) = true := by decide +kernel
def aCause : TrapRec := { cause := 0x180, kind := 0, fpc := 0x10000, rpc := 0x10004 }
/-- No class has a handler. -/
def unhandled : State := { base with grids := [{ grid4 with lrec := { rec4 with hmask := 0 } }] }
theorem witness_WarpHandler : (recordFault base (.warp 1 0 [0]) 0 0 448 true == none && (findThread base 1 0 0).any (fun th => !th.inHandler) && rec4.hmask.getLsbD (aCause.cause.toNat / 32)
  && (findWg unhandled 1).any (fun k => k.st != .halted && !hmaskBit unhandled k 12) && (findWg base 1).any (fun k => hmaskBit base k 12)
  && (recordFault base (.warp 1 0 [0]) 0 0 ((8 + 2 ^ 32 - 64) % 2 ^ 32) true).isSome) = true := by decide +kernel
/-- The error queue at 0x6000000, with 16 entries. -/
def errQueue (s : State) : State := setMreg s Reg.ERRBASE 0x6000004
theorem witness_Escalation : ((findWg base 1).any (fun k => !k.taskOn && ((gridOf base k).bind (·.queue)).isNone) && base.errDropped == 0 && !errFree base && errFree (errQueue base)
  && (base.mgmt[0]?).all (fun x => x.cue.park.isNone) && (let t := escalate (errQueue base) 1 aCause 0
    mreg t Reg.ERRWIDX == 1 && homeNat t 0x6000000 2 != 0)) = true := by decide +kernel
/-- The cue thread in its handler, with its record in the CTRAP slot and c63 at the slot. -/
def cueHandling : State := cregs [(63, 0x1FFFFFD00002000)] (inCue (fun x => { x with inHandler := true }) (put (0x3000000 + 0x80) (recBytes aCause) (onCue base)))
theorem witness_CueHandlerEntry : ((findWg base 1).any (fun k => k.st != .halted && !k.cue.inHandler && (gridOf base k).any fun g => g.lrec.hmask.getLsbD 12)
  && readyQ cueHandling (.cresume (kq 0 0 0 1)) && ctxQ cueHandling (.cresume (kq 0 0 0 1)) (fun c => (cueRecord cueHandling c).1.isSome)
  && afterQ cueHandling (.cresume (kq 0 0 0 1)) fun x => !x.inHandler && x.pc == 0x10004) = true := by decide +kernel
theorem witness_ManagementTrap : ((base.mgmt[0]?).any (fun x => !x.inTrap) && ((takeCue base (.mgmt 0) aCause).mgmt[0]?).any fun x => x.inTrap && x.mepc == 0x10004) = true := by decide +kernel
def q0 : State := onCue base
def scalarInstrs : List Instr := [.cadd (kq 8 9 10 0), .csub (kq 8 9 10 0), .cmul (kq 8 9 10 0), .cmulh (kq 8 9 10 0), .cand (kq 8 9 10 0), .cor (kq 8 9 10 0), .cxor (kq 8 9 10 0), .cshl (kq 8 9 10 0), .cshr (kq 8 9 10 0), .csar (kq 8 9 10 0),
  .cmin (kq 8 9 10 0), .cmax (kq 8 9 10 0), .cbfx (kq 8 9 10 0), .cbfi (kq 8 9 10 0), .cpopc (kq 8 0 10 0), .cclz (kq 8 0 10 0), .cmov (kq 8 0 10 0), .cli (ki 8 5)]
theorem witness_ScalarResults : (scalarInstrs.all (fun i => readyQ q0 i && (scalarFn i).isSome) && afterQ (cregs [(9, 2 ^ 63 - 1), (10, 1)] q0) (.cadd (kq 8 9 10 1)) (fun x => cget x 8 == 0x7FFFFFFFFFFFFFFF)) = true := by decide +kernel
theorem witness_CueRegisters : ([.cdiv (kq 8 9 10 0), .cdiv (kq 8 9 10 1), .csel (kq 8 9 10 5), .ccmp (kq 8 9 10 0), .ccmp (kq 8 9 10 1), .cslot (kq 8 0 0 0), .wstat (kq 8 0 0 0), .csreg (kq 8 0 20 0)] : List Instr).all (fun i => readyQ q0 i
  && ctxQ q0 i fun c => (sregCue (cueIssued (opCsreg (kq 8 0 20 0)) c q0) c 20).isSome) = true := by decide +kernel
/-- Guard g0 is 0 in `q0`. -/
theorem witness_FailedGuards : ([.cadd (qf 8 9 10 0 0), .cst { qm 8 16 0 0 0 with l := true }, .cend (qf 0 0 0 0 0), .tzero { qe 0 0 0 0 0 with l := true }] : List Instr).all (fun i => match cueOp i, cueCtx q0 i with
  | some op, some c => CueReady op q0 c && !c.pass && afterQ q0 i fun x => x.pc == placedPc + BitVec.ofNat 57 (4 * instrLen (cueWord i).1) && x.park.isNone
  | _, _ => false) = true := by decide +kernel
def cueStub : State := inCue (fun x => { x with rstack := [0x20000], stub := some { target := 0x11000, issued := 0, deadV := [], deadS := [], deadP := [] } }) q0
theorem witness_CueTransfers : (([.cb (ki 0 16), .ccall (ki 0 16), .cbx (kq 0 16 0 0), .cbx (kq 0 16 0 1), .cret (kq 0 0 0 0), .cresume (kq 0 0 0 0)] : List Instr).all (readyQ cueStub)
  && readyQ cueHandling (.cresume (kq 0 0 0 1)) && afterQ cueStub (.cret (kq 0 0 0 0)) fun x => x.pc == 0x20000 && x.rstack == []) = true := by decide +kernel
/-- Management core 0 naming the workgroup by its image. -/
def m0 : State := cregs [(9, 0x3000000)] (onMgmt base)
theorem witness_ManagementCommands : (([.iret (kq 0 0 0 0), .cswreg (kq 0 9 48 0), .cswreg (kq 0 9 51 0), .cswreg (kq 0 9 52 0), .chalt (kq 8 0 0 0), .chalt (kq 0 9 0 1)] : List Instr).all (readyQ m0)
  && mreg m0 Reg.MWAKE == 0 && (findImage m0 0x3000000).any (fun k => findWg m0 k.id == some k)
  && (let t : State := { updWg m0 1 (fun k => { k with taskOn := true }) with grids := [{ grid4 with lrec := { rec4 with versioned := true, vbudget := 4096 } }] }
    readyQ t (.tabort (kq 0 9 0 0)) && readyQ t (.tcommit (kq 0 9 0 0))
      && after t (.tabort (kq 0 9 0 0)) fun u => u.wgs.all fun k => k.st == .ended)) = true := by decide +kernel
theorem witness_CueWaits : (([.wgbar (kq 0 0 0 0), .wgbar (kq 0 0 0 1), .cwait (kq 0 0 5 0), .cwait (kq 0 0 0 0), .cend (kq 0 0 0 0)] : List Instr).all (readyQ q0)
  && ctxQ q0 (.cwait (kq 0 0 5 0)) (fun c => c.k.any (fun k => warpsLeft k) && cwaitDone q0 c.iss c.c 5 q0.nextId && cwaitDone q0 c.iss c.c 0 q0.nextId)
  && (let t := inCue (fun x => { x with tokens := [(2, 1)] }) q0
    readyQ t (.cwait (kq 0 0 4 0)) && ctxQ t (.cwait (kq 0 0 4 0)) fun c => !cwaitDone t c.iss c.c 4 t.nextId)
  && (let t := onCue (inWarp (fun w => { w with ended := true }) base)
    readyQ t (.wgbar (kq 0 0 0 1)) && ctxQ t (.wgbar (kq 0 0 0 1)) fun c => c.k.any fun k => !warpsLeft k)) = true := by decide +kernel
def pushing (l : List DWord) : State := cregs [(9, 1), (10, 77)] (onCue (withDq l))
theorem witness_QueuesAndMoves : (readyQ (pushing []) (.dqpush (kq 0 9 10 0)) && readyQ (pushing (List.replicate 8 0)) (.dqpush (kq 0 9 10 0)) && undrained q0 (.cue 1)
  && ctxQ (pushing []) (.dqpush (kq 0 9 10 0)) (fun c => c.k.any fun k => dqRoom k 1) && ctxQ (pushing (List.replicate 64 0)) (.dqpush (kq 0 9 10 0)) (fun c => c.k.any fun k => !dqRoom k 1)
  && after (pushing []) (.dqpush (kq 0 9 10 0)) (fun t => (findWarp t 1 0).any fun w => w.dq == [77])
  && (findWg (inCue (fun x => { x with park := some (.dqpush 1 77) }) (pushing [])) 1).any (fun k => k.cue.park == some (.dqpush 1 77) && dqRoom k 1)
  && ([0, 5].all fun v => let t := cregs [(9, v)] q0
    readyQ t (.cmig (kq 0 9 0 0)) && ctxQ t (.cmig (kq 0 9 0 0)) fun c => match cmigTarget (cueIssued (opCmig (kq 0 9 0 0)) c t) c (kq 0 9 0 0) with
      | .ok x => x == v
      | .error _ => false)) = true := by decide +kernel
theorem witness_CueMemory : (([.cld (km 8 16 0), .cst (km 8 16 0), .cst { km 8 16 0 with ordr := 3, obs := 4 }, .catom { km 8 16 9 with obs := 4 }, .cforage { km 8 16 0 with wid := 4 }] : List Instr).all (readyQ q0) && undrained q0 (.cue 1)
  && ctxQ q0 (.catom { km 8 16 9 with obs := 4 }) (fun c => untasked c && (cuePointForm c (.catom { km 8 16 9 with obs := 4 })).isSome && (cuePointForm c (.cforage { km 8 16 0 with wid := 4 })).isSome)
  && isOk (placeGlobal q0 (.cue 1) 0x40002000 8 false false) && isOk (placeGlobal q0 (.cue 1) 0x40002000 32 true true)
  && after q0 (.cst { km 17 16 0 with look := 1 }) fun t => after t (.cld (km 8 16 0)) fun u => (findFlight u 3).any fun f => f.kind == .load [⟨0, 8, 0x40003000⟩] [] []) = true := by decide +kernel
theorem witness_CueOrdering : (readyQ q0 (.cfence { km 0 0 0 with ordr := 4, obs := 4 }) && readyQ (onCue served) (.csvc (km 8 16 0)) && svcBacked (onCue served) 0 && readyQ (cregs [(9, 256), (10, 1)] q0) (.cwake (kq 0 9 10 0))
  && after (cregs [(9, 256), (10, 3)] q0) (.cwake (kq 0 9 10 0)) fun t => mreg t Reg.MWAKE == 3) = true := by decide +kernel
/-- A launch record of one thread at PA 0x7000, and a context region of 1 MiB. -/
def childRec : List Byte := leBytes 6 1 ++ leBytes 2 100 ++ leBytes 8 0x10000 ++ leBytes 8 0x10000 ++ List.replicate 32 0 ++ leBytes 4 1 ++ leBytes 4 1 ++ leBytes 4 1 ++ leBytes 2 1 ++ leBytes 2 1 ++ leBytes 2 1 ++ [8, 8, 0, 0] ++ List.replicate 178 0
def contexts (s : State) : State := setMreg (setMreg s Reg.CTXBASE 0x4000000) Reg.CTXSIZE 0x100000
def launching : State := cregs [(16, 0x40007000)] (onCue (put 0x7000 childRec (contexts base)))
theorem witness_GridLife_launch : (childRec.length == 256 && readyQ launching (.launch (ke 8 16 0)) && after launching (.launch (ke 8 16 0)) fun t => (findCue t (.cue 1)).any (fun x => x.park == some (.launchHold 0x40007000 8 (some 1)))
  && undrained t (.cue 1) && (childRun t (.cue 1)).isSome && after t (.nestQueueAppend 1) fun u => u.grids.map (·.num) == [1, 2] && (findCue u (.cue 1)).any fun x => cget x 8 == 2 && x.park.isNone) = true := by decide +kernel
def ending (f : Workgroup → Workgroup) : State := updWg base 1 fun k => f { k with warps := k.warps.map fun w => { w with ended := true } }
theorem witness_GridLife_ends : (let p := inCue (fun x => { x with park := some .cend }) base
  let f := ending fun k => { k with cue := { k.cue with ended := true } }
  let g : State := { base with wgs := [], grids := [{ grid4 with endedWgs := 1, notify := some (.mgmt 0, 0) }] }
  (findCue p (.cue 1)).any (fun x => x.park == some .cend && x.windows == [] && x.deferred == []) && !untrackedCmds p (.cue 1) p.nextId && undrained p (.cue 1)
    && (findWg f 1).any (wgFinished) && g.grids.all (retirable g) && after g (.gridRetirement 1) (fun t => t.grids == [])
    && after f (.workgroupEnd 1) fun t => t.wgs == [] && t.grids.map (·.endedWgs) == [1]) = true := by decide +kernel
/-- A load that waits for a full granule, on a flight. -/
def feWaiting : State := { feSet base 0 true with flights := [{ id := 7, who := .warp 1 0 [0], pc := placedPc, look := 0, kind := .fullEmpty (.ldL (feF 2)) [laneOp (.ls 0)] [] [] }] }
def counting (v : Nat) : State := { base with lstore := SMap.setList (w := 8) base.lstore 0 (leBytes 8 v), flights := [{ id := 7, who := .warp 1 0 [0], pc := placedPc, look := 0, kind := .counter (.cntwt cntf) [{ laneOp (.ls 0) with ops := [3] }] [] }] }
theorem witness_WaitingThreads_flights : (feGet feWaiting 0 && !feAhead feWaiting 7 0 && (feLoad (.ldL (feF 2))).isSome && after feWaiting (.fullEmptyServe 7) (fun t => !feGet t 0)
  && (counterServe (counting 3) [{ laneOp (.ls 0) with ops := [3] }]).1 == [] && (counterServe (counting 2) [{ laneOp (.ls 0) with ops := [3] }]).1.length == 1
  && after (counting 3) (.counterWaitSatisfied 7) fun t => t.flights == []) = true := by decide +kernel
/-- Lane 0 waits at a join until clk 5; the others are elsewhere. -/
def joining : State := { inWarp (fun w => { w with threads := w.threads.mapIdx fun l th => if l = 0 then { th with park := some (.join (some 5) 1 placedPc), plen := 2 } else th }) base with clk := 5 }
theorem witness_WaitingThreads_rest : (joining.wgs.map (fun k => k.warps.length) == [1] && (findWarp joining 1 0).any (fun w => decide (w.threads.length ≤ 128) && (Warp_live w).any fun m => (((w.threads[m]?).bind joinOf)).isNone)
  && after joining .joinDeadline (fun t => (findThread t 1 0 0).any fun th => th.park.isNone && th.pc == 0x10008) && (l1Find cached 0 0x20).isSome) = true := by decide +kernel
def exited : State := inThreads (fun th => { th with life := .exited }) base
theorem witness_WaitingThreads_ends : ((findWarp exited 1 0).any (fun w => w.tokens == [] && w.colls == [] && !w.returned.contains 0 && Warp_live w == [] && !w.ended && w.threads.length == 32 && w.threads.all fun th => th.deferred == [])
  && (findCue exited (.cue 1)).any (fun x => x.park.isNone) && after exited (.sliceLineReturn 1 0 0) (fun t => (findWarp t 1 0).any (holdsV 16 0 0))
  && after exited (.warpEnd 1 0) fun t => (findWarp t 1 0).any (·.ended)) = true := by decide +kernel
/-- Every thread at a cut, and a taking requested. -/
def atCut : State :=
  let f := fun (th : Thread) => { th with clause := some { placedClause false with cut := true, first := true }, cutPc := placedPc, moved := true }
  { updWg (inThreads f (inCue (fun x => { x with clause := some { placedClause true with cut := true, first := true }, cutPc := placedPc, moved := true }) base)) 1 (fun k => { k with take := some .thermal }) with clk := 9 }
theorem witness_Taking : ((findWg atCut 1).any (fun k => (gridOf atCut k).isSome && k.take.isSome && k.st == .resident && allStand k && engineIdle atCut k && !dueAtCut k && decide (k.image + imageSize rec4 ≤ hbmCap atCut))
  && (let s := updWg atCut 1 fun k => { k with st := .taken, take := none }
    (findWg s 1).any fun k => (gridOf s k).isSome && k.st == .taken && (linesHere s k).contains 0)) = true := by decide +kernel
/-- The register line of v16 of the warp stands in the image alone. -/
def missing16 : State := storeLine base grid4 wg4 16
theorem witness_Taking_refill : ((findWg missing16 1).any (fun k => (gridOf missing16 k).any fun g => match loadLine missing16 g k 16 with
    | .ok _ => true
    | .error _ => false)
  && after missing16 (.contextLineRefill 1 16) fun t => (findWg t 1).any fun k => k.missing == []) = true := by decide +kernel
/-- One enabled pair, start-up done, and a grid of one workgroup to place. -/
def dispatching : State := setMreg (contexts { State.reset with nextGrid := 2, grids := [{ grid4 with nextWg := 0 }], part := { PartRecord.rz9600 with pairen := 1 } }) Reg.STARTUP 1
def resuming : State := { setMreg (contexts base) Reg.STARTUP 1 with part := { PartRecord.rz9600 with pairen := 1 }, wgs := [{ wg4 with st := .taken, storedTiles := true, storedLocal := true }] }
theorem witness_Dispatcher_placement : (dispatchChoice dispatching == some (.place 0 256 1 0) && (allocRun dispatching (imageSize rec4)).isSome && (match admits dispatching rec4 0 none with
    | some room => (makeRoom dispatching rec4 0 room.bases 0).isNone
    | none => false)
  && after dispatching .workgroupPlacement fun t => t.wgs.map (·.grid) == [1] && t.grids.map (·.nextWg) == [1]) = true := by decide +kernel
theorem witness_Dispatcher_resumption : (dispatchChoice resuming == some (.resume 1 0) && (findWg resuming 1).any (fun k => (leaveCore resuming k 0).isNone && match admits resuming rec4 0 (keepBases k 0) with
    | some room => (makeRoom resuming rec4 0 room.bases 1).isNone
    | none => false)) = true := by decide +kernel
/-- A taken workgroup on its way to core 1, its lines in the image. -/
def migrating : State := { base with wgs := [{ wg4 with st := .taken, cmig := some 1, target := some 1, storedTiles := true, storedLocal := true, missing := List.range (LaunchRec_lines rec4) }], clk := 10 ^ 9 }
theorem witness_Dispatcher_migration : ((findWg migrating 1).any (fun k => (migRoom migrating k).any fun (g, core, room) => core == 1 && (makeRoom migrating g.lrec core room.bases 1).isNone)
  && migrating.wgs.all (fun k => k.cmig.isSome && !k.held && decide (k.takeAt + Config.clkPerMs ≤ migrating.clk))
  && (let s : State := { atCut with clk := 10 ^ 9 }
    s.wgs.all fun k => k.take.isSome && !k.takeLate && decide (k.takeAt + mreg s Reg.PTIMEOUT * Config.clkPerUs ≤ s.clk))) = true := by decide +kernel
/-- A command of the cue thread goes into the list, and its token rises. -/
def issuesCmd (s : State) (p : Instr × List (Nat × Nat)) : Bool := let t := cregs p.2 s
  readyQ t p.1 && undrained t t.cur && after t p.1 fun u => u.cmds.map (·.op) == [p.1] && u.nextId == t.nextId + 1 && u.flights == t.flights
/-- A command block of extents 4, 1, 1, 1. -/
def blk (src dst : Nat) : List (Nat × Nat) := [(16, src), (17, 0), (19, dst), (20, 0), (22, 4 + 2 ^ 20 + 2 ^ 40 + 2 ^ 52)]
theorem witness_CommandsIssue_array : ([(.tcfg (ke 0 8 0 0 0 5), [(8, 0x500040303)]), (.tld (ke 0 8 10 0 2 0), [(8, 16 * 2 ^ 32), (10, 0x40004000)]), (.tsd (ke 0 8 10 0 2 0), [(8, 16 * 2 ^ 32), (10, 0x40004000)]), (.tzero (ke 0 0 0), []),
  (.txpose (ke 0 0 0 0 0 0 4), []), (.arrw (ke 0 0 0 0 0 0 1), []), (.arrmm (ke 0 8 0 0 0 0 1), []), (.arrdist (ke 0 8 0 0 0 0 1), []), (.arrmmg (ke 0 8 9), []), (.arrcent (ke 0 8 0 0 0 0 2), [(8, 32)]), (.arrbest (ke 0 8 9), [(9, 32 + 2048)]),
  (.adrain (ke 8 10 12 0 2), [(8, 32 + 2 ^ 19), (10, 16 * 2 ^ 32), (12, 0x40004000)]), (.aload (ke 8 10 12 0 2), [(8, 32 + 2 ^ 19), (10, 16 * 2 ^ 32), (12, 0x40004000)]), (.adrainp (ke 8 9 10), [(8, 32 + 2 ^ 19)]), (.adraine (ke 8 9 10), [(8, 32 + 2 ^ 19)]),
  (.azero (ke 0 0 0), [])] : List (Instr × List (Nat × Nat))).all (issuesCmd (onCue tiled)) = true := by decide +kernel
theorem witness_CommandsIssue_bulk : ([(.bcp (ke 0 16 0 54), blk 0x40004000 0x40005000), (.bfill (ke 0 16 0 6), blk 7 0x40005000), (.bpeer (ke 0 16 0 6), blk 0x40004000 0x40005000), (.bgat (ke 0 16 8 6), (8, 0x40006000) :: (23, 2 ^ 16) :: blk 0x40004000 0x40005000),
  (.bsca (ke 0 16 8 6), (8, 0x40006000) :: (23, 2 ^ 16) :: blk 0x40004000 0x40005000), (.bexp (ke 0 16 8 6), (8, 0x40006000) :: (23, 2 ^ 16) :: blk 0x40004000 0x40005000), (.mop (ke 0 16 0 6), blk 0x40004000 0x40005000), (.xopen (ke 8 9 10), [(9, 0x40004000), (10, 4)]),
  (.xclose (ke 0 16 8 3), blk 0 0x40005000), (.slxp (ke 0 16 0 6), blk 0x40004000 0x40005000), (.rsvfill (ke 0 9 10), []), (.rsvdrop (ke 0 9 0), []), (.rsvq (ke 8 9 0), []), (.kvdrop (ke 0 9 10), []), (.kvprio (ke 0 9 10), [])]
  : List (Instr × List (Nat × Nat))).all (issuesCmd (onCue tiled)) = true := by decide +kernel
theorem witness_CommandsIssue_privileged : ([.rsvset (ke 0 9 10), .ctxsv (ke 0 9 0), .ctxld (ke 0 9 10), .tlbinv (ke 0 9 10), .ptwalk (ke 8 9 10), .pgdup (ke 8 9 10), .pgcol (ke 0 9 10), .pgsplit (ke 0 9 0), .pgjoin (ke 0 9 0), .pgmig (ke 0 9 10),
  .dirq (ke 8 9 0), .dirset (ke 0 9 10), .hostinv (ke 0 9 10)] : List Instr).all (fun i => issuesCmd (onMgmt base) (i, [])) = true := by decide +kernel
/-- Each of them is a command in the sense of the statement. -/
theorem witness_CommandsIssue_forms (f : QE) : ∀ i ∈ [Instr.tcfg f, .tld f, .tsd f, .tzero f, .arrw f, .arrmm f, .arrmmg f, .arrdist f, .arrbest f, .arrcent f, .adrain f, .adrainp f, .adraine f, .azero f, .aload f, .txpose f, .bcp f, .bgat f, .bsca f, .bexp f, .bfill f,
    .bpeer f, .mop f, .xopen f, .xclose f, .slxp f, .rsvfill f, .rsvdrop f, .rsvq f, .kvdrop f, .kvprio f, .rsvset f, .ctxsv f, .ctxld f, .tlbinv f, .ptwalk f, .pgdup f, .pgcol f, .pgsplit f, .pgjoin f, .pgmig f, .dirq f, .dirset f, .hostinv f],
    ∃ x : ECmd, x.i = i ∧ cueOp i = some (cmdOp x) := by
  simp only [List.forall_mem_cons, List.not_mem_nil, false_implies, implies_true, and_true]
  repeat' apply And.intro
  all_goals exact ⟨_, rfl, rfl⟩

/-! ### Commands, host, peers: the events of units -/

/-- The state in which an instruction of the cue thread has been executed; its command is number 2. -/
def did (i : Instr) (s : State) : State := match exec i s with
  | .next t => t
  | _ => s
def run1 (s : State) : State := { s with cmds := s.cmds.map fun c => { c with started := true } }
def cmd2 (s : State) (p : Cmd → Bool) : Bool := (findCmd s 2).any p
def bulk1 : State := did (.bcp (ke 0 16 0 54)) (cregs (blk 0x40004000 0x40005000) (onCue (put 0x4000 [1, 2, 3, 4] tiled)))
def mm1 : State := did (.arrmm (ke 0 8 0 0 0 0 1)) (onCue tiled)
def mmg1 : State := did (.arrmmg (ke 0 8 9)) (onCue tiled)
theorem witness_CommandProgress_starts : (cmd2 bulk1 (fun c => (bulkNext bulk1 (engOf bulk1 c).cluster).map (·.id) == some 2) && after bulk1 (.engineCommandStart 2) (fun t => cmd2 t (·.started))
  && cmd2 mm1 (fun c => !arrayStartable mm1 c && planeLoadable mm1 c && !isMmg c.op) && after mm1 (.planeLoad 2) (fun t => cmd2 t fun c => c.plane && arrayStartable t c)
  && cmd2 mmg1 (fun c => arrayStartable mmg1 c && (match c.op with
    | .arrmmg f => (match mmgStart (run1 (planeSwap mmg1 c)) c f with
      | .go _ => true
      | _ => false)
    | _ => false)) && after mmg1 (.arrayCommandStart 2) fun t => cmd2 t (·.started)) = true := by decide +kernel
/-- Command 2, started, has a unit to run. -/
def unitDue (s : State) (stops : Bool) (p : Instr → Bool) : Bool := cmd2 s fun c => c.started && decide (c.done < c.total) && p c.op && (match cmdUnit s c with
  | .go _ => !stops
  | .stop _ _ _ => stops
  | .wait => false)
def bulkBad : State := run1 (did (.bcp (ke 0 16 0 54)) (cregs (blk 0x80004000 0x80005000) (onCue tiled)))
theorem witness_CommandProgress_units : (unitDue (run1 bulk1) false isBulk && unitDue bulkBad true isBulk && unitDue (run1 mm1) false streams
  && unitDue (unitOf (run1 (did (.adrainp (ke 8 9 10)) (cregs [(8, 32 + 2 ^ 19)] (onCue tiled)))) 2) false isDrainp
  && unitDue (run1 (did (.adraine (ke 8 9 10)) (cregs [(8, 32 + 2 ^ 19)] (onCue tiled)))) false contributes
  && unitDue (run1 (did (.xclose (ke 0 16 8 3)) (cregs (blk 0 0x40005000) (onCue tiled)))) true isXclose
  && after (run1 bulk1) (.deliveryUnitAdvance 2) (fun t => cmd2 t fun c => c.done == 1) && after bulkBad (.deliveryUnitAdvance 2) (fun t => cmd2 t fun c => c.done == c.total && c.cause.isSome)) = true := by decide +kernel
theorem witness_UnitsAndCompletion_units : (cmd2 mm1 (fun c => c.owner == .cue 1 && decide (tCols (ccfg c 0) ≤ 256) && (cmdWg mm1 c).isSome)
  && (let s := did (.azero (ke 0 0 0)) (onCue tiled)
    cmd2 s fun c => (cmdWg s c).isSome && match cmdUnit s c with
      | .go _ => true
      | _ => false)
  && (let s := did (.ptwalk (ke 8 9 10)) (onMgmt base)
    cmd2 s fun c => c.op == .ptwalk (ke 8 9 10))) = true := by decide +kernel
/-- Every unit of command 2 has run. -/
def doneAll : State := let s := run1 bulk1; { s with cmds := s.cmds.map fun c => { c with done := c.total } }
theorem witness_UnitsAndCompletion_completion : (cmd2 doneAll (fun c => c.started && decide (c.total ≤ c.done) && c.owner == .cue 1 && c.cause == none && completionCount doneAll c == doneAll) && doneAll.softErrors == []
  && !doneAll.locks.isEmpty && after doneAll (.commandCompletion 2) fun t => t.cmds == [] && t.locks == []) = true := by decide +kernel

/-! ### Host queues and the host -/

/-- A queue descriptor: base, KIND, FLAGS; 4 slots. -/
def qdesc (kind : Nat) : List Byte := leBytes 8 0x7100000 ++ leBytes 4 4 ++ [BitVec.ofNat 8 kind, 3, 1, 0] ++ leBytes 2 1 ++ leBytes 2 0 ++ List.replicate 44 0
def qreset : State := setMreg (setMreg (contexts { base with mregs := [(2, 0x8000000000)] }) Reg.HQBASE 0x7000000) Reg.STARTUP 1
/-- Queue 0 of a kind, with one entry to accept, or not yet enabled. -/
def queued (kind : Nat) (bs : List Byte) : State := let s := setQreg (setQreg (put 0x7100000 bs (put 0x7000000 (qdesc kind) qreset)) 0 1 1) 0 3 1
  { s with queues := [{ readQueue s 0 with seen := 1 }] }
def toEnable (kind : Nat) : State := { queued kind [] with queues := [] }
def toServe : State := setQreg { queued 0 [] with queues := [readQueue (queued 0 []) 0] } 0 0 1
def copyBlock (op : Nat) : List Byte := ((List.range 7).flatMap fun i => leBytes 8 (((blk 0x40004000 0x40005000).find? fun x => x.1 = 16 + i).elim 0 (·.2))) ++ leBytes 4 0 ++ leBytes 4 (op * 2 ^ 25 + 54 * 16)
def q0of (s : State) (p : QueueSt → Bool) : Bool := (findQueue s 0).any p
def toDisable : State := setQreg (queued 0 []) 0 3 0
theorem witness_HostQueueEvents_queues : ([0, 2].all (fun k => (List.range 256).filter (enableDue (toEnable k)) == [0] && queueOk (toEnable k) 0 == (k == 0)) && (List.range 256).filter (disableDue toDisable) == [0] && (findQueue toDisable 0).isSome
  && q0of toServe (fun x => x.on && !qHeld toServe 0 && qWake toServe 0 != 0 && decide ((qWidx toServe 0 + 2 ^ 32 - qRidx toServe 0) % 2 ^ 32 ≤ x.slots))) = true := by decide +kernel
def isGood {α β : Type} : Except α β → Bool
  | .ok _ => true
  | .error _ => false
theorem witness_HostQueueEvents_entries : ([childRec, []].all (fun r => q0of (queued 0 r) fun x => x.kind == 0 && hasEntry (queued 0 r) x && !x.faulted && prevDone (queued 0 r) x)
  && q0of (queued 0 childRec) (fun x => isGood (entryCheck (queued 0 childRec) x)) && (allocRun (queued 0 childRec) 8192).isSome && q0of (queued 0 []) (fun x => !isGood (entryCheck (queued 0 []) x))
  && [0x40, 0x41].all (fun op => let s := queued 1 (copyBlock op)
    q0of s fun x => x.kind == 1 && hasEntry s x && decide ((bulkQueue s x.cluster).length < 64) && match entryBytes s x 64 with
      | some bs => isGood (blockCause s bs) == (op == 0x40) && (match blockCause s bs with
        | .ok e => decide (locksUsed s x.cluster + (e.ranges s (blockCtx bs)).length ≤ 64)
        | .error _ => true)
      | none => false)
  && after (queued 0 childRec) (.launchEntryAccept 0) (fun t => t.grids.length == 2) && after (queued 1 (copyBlock 0x40)) (.copyBlockAccept 0) (fun t => t.cmds.length == 1)) = true := by decide +kernel
/-- The management core at `chalt`. -/
def halted : State := updCue base (.mgmt 0) fun x => { x with park := some (.chalt 8) }
theorem witness_HostRegisters : (regListed Reg.PTIMEOUT && !(decide (Reg.MWAKE ≤ Reg.PTIMEOUT ∧ Reg.PTIMEOUT < Reg.ATTNONCE)) && (halted.mgmt[0]?).any (fun x => x.cue.park == some (.chalt 8)) && (base.mgmt[0]?).any (fun x => x.cue.park == none)
  && mreg halted Reg.MWAKE == 0 && after halted (.mwakeWrite ⟨0, 0⟩ 5) (fun t => (findCue t (.mgmt 0)).any fun x => cget x 8 == 5)
  && (List.range 16).filter (shareDue (setMreg base Reg.WSHARE 0x31)) == [2] && (let s := { errQueue base with errDropped := 3 }
    errFree s && after s .errorQueueDropReport fun t => t.errDropped == 0)
  && mreg (setMreg base Reg.ATTCTL 0x9001) Reg.ATTCTL % 4 == 1) = true := by decide +kernel
/-- The directory: page 2 of 64 KiB in D, page 3 in X; the host holds line 0 in M. -/
def dirs : State := setDir (setDir { setMreg base Reg.DIRBASE 0x9000000 with hostLines := [{ line := 0, st := 2, seq := 1, pend := 0 }] } 2 { seq := 1, st := 1, size := 0, owner := 0, set := 2 }) 3 { seq := 1, st := 3, size := 0, owner := 0, set := 0 }
theorem witness_HostAccesses : (hostFind dirs 0x100 300 false == .ok && hostFind dirs 0x20000 8 true == .refuse && hostFind dirs 0x30000 8 false == .wait && hostFind dirs 0x30000 8 true == .wait
  && hostFind dirs 0x100 3 true == .ok && hostFind dirs (2 ^ 45) 8 false == .refuse && (granules 0x100 300).all (fun g => homeCap dirs g == .good) && decide (128 ≤ hbmCap dirs)
  && (dirs.hostLines.find? fun h => h.line == 0).any (fun h => h.st != 0) && after dirs (.hostRecall 0 (some (List.replicate 128 7))) (fun t => homeNat t 0 1 == 7 && t.hostLines.all fun h => h.st == 0)) = true := by decide +kernel
def alarmed : State := { base with dieAlarm := [(3, 0)], clk := 3 * Config.clkPerMs }
def coming : State := setMreg { base with dieOff := [3] } (Reg.DIESTAT + 24) 0x30000
def combed (d : BitVec 128) : State := { base with comb := [{ line := 5, slice := 0, dirty := d, image := 0, imageSynd := 0, key := 0, wrote := 0, lost := false }] }
theorem witness_PowerAndStartUp : (nextClass base 3 2000 == 0 && decide (100 ≤ { base with govTicks := 100 }.govTicks) && decide (128 * 5 + 128 ≤ hbmCap (combed 0)) && !unshadowed (combed 0) 5 && (combed 0).comb.all (·.dirty == 0)
  && (combed 1).comb.any (fun l => l.line == 5 && l.dirty != 0) && (alarmed.dieAlarm.filter fun x => decide (x.2 + 2 * Config.clkPerMs ≤ alarmed.clk)) == [(3, 0)]
  && (coming.dieOff.filter fun d => mreg coming (Reg.DIESTAT + 8 * d) / 65536 % 4 = 3) == [3] && mreg State.reset Reg.STARTUP == 0) = true := by decide +kernel

/-! ### Peers and links -/

/-- Device 0 of a domain with device 1, and ports up; copy table at 0xA000000. -/
def peers : State := let s := setMreg (setMreg (setMreg (setMreg dirs Reg.DOMAIN 3) (Reg.ROUTE + 8) 1) Reg.COPYBASE 0xA000000) Reg.DEVNUM 0x100
  { s with ports := (List.range 16).map fun p => { Port.reset p with up := true } }
def gpage : Nat := 2 ^ 46 + 0x50000
/-- A copy of a page of device 1 in a state: 1 D, 2 O, 3 READY. -/
def holding (st : Nat) : State := let a := copyAddr peers (copySet false gpage) 0; setLocal (homeWrite peers a (leBytes 8 (gpage % 2 ^ 52)) 0 none) a 0x60000 st 9
def owned3 : State := setDir peers 4 { seq := 1, st := 2, size := 0, owner := 3, set := 8 }
theorem witness_PeerMessages_accesses : (peerFind peers 0x100 8 false == .mem 0x100 && peerFind owned3 0x40000 8 false == .forward 3 && peerFind peers 0x100 8 true == .mem 0x100 && peerFind peers 0x20000 8 true == .refuse 2
  && homeCaps peers 0x100 8 == .good && (forwardInstr 0x5E).isSome && ownDev peers == 0) = true := by decide +kernel
def acking : State := { peers with busy := [{ cmd := 7, index := 4, before := { seq := 1, st := 1, size := 0, owner := 0, set := 2 }, after := { seq := 2, st := 0, size := 0, owner := 0, set := 0 }, split := false, waiting := [1], grants := [], granted := false, asks := [], drops := [] }] }
theorem witness_PeerMessages_copies : ([1, 2].all (fun st => (holderEntry (holding st) gpage [1, 2]).any fun e => !e.1 && localSeq e.2.2 == 9 && !newer 9 10 && newer 9 8) && holderEntry peers gpage [1, 2] == none
  && (holderEntry (holding 3) gpage [3]).any (fun e => frameSize e.1 == 65536) && acking.busy.all (fun x => x.index == 0x40000 / 65536 && dirSize x.before == 65536 && x.waiting.contains 1)
  && decide (4 * 65536 < hbmCap peers) && peers.busy == [] && domainPeers (setDir peers 4 (holdX (dirAt peers 4))) == [1]) = true := by decide +kernel
def port0 (f : Port → Port) : State := updPort peers 0 f
theorem witness_Links : ((findPort peers 0).any (fun x => x.up && x.inSeq == 0 && decodePayload x.dictIn [] != none && decodePayload x.dictIn [1, 2, 3] == none) && ownDev peers == 0
  && (findPort (port0 fun x => { x with retry := [{ lseq := 0, flits := [], msg := { dst := 1, kind := 1, page := 0, seq := 0, aux := 0, data := [] }, ins := [] }] }) 0).any (fun x => x.up && decide (0 < x.retry.length) && decide (x.retries < 7))
  && (let s := port0 fun x => { x with retryAt := List.replicate 16 0 }
    (s.ports.filter (retryDue s)).length == 1)
  && (findPort (port0 fun x => { x with up := false }) 0).any (fun x => !x.up) && peers.part.peeren.getLsbD 0 && peers.outbox == []) = true := by decide +kernel
/-- Tables at 0x20000000 that map VA 0 to 1 GiB. -/
def placedTable : State := put 0x20002000 (leBytes 8 0xF) (put 0x20001000 (leBytes 8 0x20002001) (put 0x20000000 (leBytes 8 0x20001001) base))
theorem witness_Fills : (findILine base 0 (spaceOf base (.cue 1)).1 0x40010000 == none && (match fetchLine base (.cue 1) 0x40010000 with
    | some (.ok _, _) => true
    | _ => false)
  && isGood (walk placedTable 0x20000000 0x10000) && (match walk base 0 0x10000 with
    | .error f => f.cap == .good
    | .ok _ => false)) = true := by decide +kernel

/-! ### Witnesses of the further clauses -/

/-- An act that comes next. -/
def nextIs (a : Act) (s : State) : State := { s with agenda := [a] }
/-- The group issues on port B, beside what its quarter issued on port A. -/
theorem witness_StepRunsInstruction_beside : (let s := nextIs (.beside 1 0 [0] [] [0]) (placed1 0x1E061007)
  chosen s == .beside 1 0 [0] [] [0] && (match findWg s 1 with
    | some k => (match gridOf s k, k.warps[0]? with
      | some g, some w => ([0].filter fun l => (readyLanes (begin_ s) g k w 0 1).contains l) == [0]
      | _, _ => false)
    | none => false)
  && stepsTo s fun t => (findThread t 1 0 0).map (·.pc) == some 0x10004) = true := by decide +kernel
/-- All four threads at one join; lane 0 alone at one whose deadline has passed, or has not. -/
theorem witness_JoinParksOrConverges_examined : (let all := inThreads (fun th => { th with park := some (.join none 1 placedPc), plen := 2 }) base
  (base.wgs.map (·.id)) == [1] && after all .joinDeadline (fun t => (findThread t 1 0 3).any (fun th => th.park.isNone && th.pc == 0x10008) && (findWarp t 1 0).any fun w => pget w 1 3)
    && after joining .joinDeadline (fun t => (findThread t 1 0 0).any (·.park.isNone))
    && after { joining with clk := 4 } .joinDeadline fun t => (findThread t 1 0 0).any (·.park.isSome)) = true := by decide +kernel
/-- No thread contributes: the guard is p1, which is 0 in every lane. -/
def none_ (i : Instr) : Bool := readyW base i && ctxW base i (fun c => c.cs == []) && after base i fun t => (findFlight t 2).any (fun f => f.kind == .plain)
theorem witness_no_contributor : ([.svc (vf 8 16 16 1), .ldG (mf 8 16 2 1), .ldP (mf 8 20 0 1), .fe { mf 8 20 0 1 with fe := 0 }, .stG (mf 16 16 2 1), .stL (mf 8 20 0 1), .atom { ax 8 16 10 with pg := 1 }] : List Instr).all none_ = true
  ∧ (readyW base (.wake (vf 0 16 8 1)) && readyW base (.exit (vf 0 0 0 1)) && ctxW base (.exit (vf 0 0 0 1)) fun c => c.cs == []) = true := by decide +kernel
/-- A record outside the memory; a reply with a cause; no reply yet. -/
theorem witness_ServiceRequests_others : (let far : State := put 0x5000000 (leBytes 8 (2 ^ 44) ++ leBytes 4 4 ++ leBytes 4 512 ++ leBytes 4 1000 ++ leBytes 2 0xFFFF ++ [1]) (setMreg base Reg.SVCBASE 0x5000000)
  let f := svcFlight 8 (.warp 1 0 [0, 1, 2, 3])
  readyW far (.svc (vf 8 16 16 7)) && !svcBacked far 0 && (match svcLook { served with flights := [f] } 0 0 64 4 [0, 1, 2, 3] with
    | .notYet => true
    | _ => false) && readyQ (onCue far) (.csvc (km 8 16 0)) && !svcBacked (onCue far) 0) = true := by decide +kernel
/-- The port's self-check has failed under a collective that is due. -/
theorem witness_Collectives_check : (let f : TF := { tf 8 0 0 7 with l := true, tr := 3, tok := 1 }
  after tiled (.tread f) fun t => let s := { t with softErrors := [0x13C] }
    (findFlight s 2).isSome && after s (.collectiveCompletion 2) fun u => u.softErrors == [] && (findThread u 1 0 3).any fun th => th.deferred.map (·.cause) == [0x13C]) = true := by decide +kernel
theorem witness_BarrierAndCounterWait_order : (let f : MF := { mx 0 0 0 with ordr := 4, obs := 4 }
  readyW base (.bar f) && ctxW base (.bar f) (fun c => c.k.warps == [c.w] && c.lanes == Warp_live c.w && barCount c f == 0)
  && !relHold base (.warp 1 0 []) 4 && after base (.bar f) fun t => (findWg t 1).any fun k => k.phase.get 0 == 1) = true := by decide +kernel
/-- `fe.set` and `fe.tst` of one granule of the local store. -/
theorem witness_FullEmptyLoads_fe : ([1, 3].all (fun n => let f : MF := { feF n with d := 0 }
    let s := one base
    readyW s (.fe f) && ctxW s (.fe f) (fun c => c.cs == [0] && isLs 0 (place s (WCtx_iss c) (sxSpace f) 0 0 (mAddr c.w f .off false 0 / 16 * 16) 16 true)))
  && after (one base) (.fe { feF 3 with d := 0 }) fun t => feGet t 0) = true := by decide +kernel
/-- The slice's self-check has failed under an atomic, and the special-function unit's under a square root. -/
theorem witness_FlightProgress_checks : (after added (.atom (ax 8 16 10)) (fun t => let s := { t with softErrors := [0x11C] }
    pointSoft (.atom (ax 8 16 10)) == some 0x11C && after s (.executionPointOperation 2) fun u => u.softErrors == [] && homeNat u 0x1000 4 == 0xCAFE0001)
  && after (vregs [(16, 0x40800000)] base) (.fsqrt x2) fun t => (findFlight t 2).any (fun f => match f.kind with
    | .vsfu u _ _ => after { t with softErrors := [BitVec.ofNat 9 (0x10C + u)] } (.vsfuCompletion 2) fun v => v.softErrors == [] && (findThread v 1 0 0).any fun th => th.deferred.length == 1
    | _ => false)) = true := by decide +kernel
/-- The cue thread at a word that is no header. -/
theorem witness_StepEntersClause_cue : (let s := inCue (fun x => { x with clause := none }) (placeInWg State.reset 32 0x70 (.cue 1))
  chosen s == .cue 1 && (findCue s (.cue 1)).any (fun x => cueReady (begin_ s) (.cue 1) x && x.clause.isNone) && pieceAt s (fetchUnit s (.cue 1)) (spaceOf s (.cue 1)).1 0x10000 == .bytes [0x70, 0, 0, 0]
    && (headerCause true (cueRec s (.cue 1)).cutcnt 0x70).isSome && stepsTo s fun t => (findCue t (.cue 1)).any fun x => x.clause.isNone) = true := by decide +kernel
/-- A header without a cut opens its clause at the end of a clk; one with a cut stays. -/
theorem witness_StepEntersClause_opens : ([0x31, 0x2031].map fun w => let s := Tests.atHeader w
  ((findThread s 1 0 0).any Machine.atHeader, headerCause false 1 (.ofNat 32 w) == none, ((enterAll s).wgs.head?.bind (·.warps.head?)).bind (·.threads.head?) |>.any (·.clause.isSome))) = [(true, true, true), (true, true, false)] := by decide +kernel
/-- A self-check of the cue's adder has failed; the instruction traps. -/
theorem witness_CueTraps_check : (let s := { onCue base with softErrors := [0x110] }
  ctxQ s (.cadd (kq 8 9 10 0)) (fun c => c.pass && (cueSoft s (.cadd (kq 8 9 10 0))).any (fun o => o.cause == 0x110) && (cueCause (opCadd (kq 8 9 10 0)) s c).any fun o => o.cause == 0x110)
    && after s (.cadd (kq 8 9 10 0)) fun t => t.softErrors == [] && (findCue t (.cue 1)).any (·.inHandler)) = true := by decide +kernel
/-- A management core at a slot read; no grid is behind it. -/
theorem witness_CueRegisters_management : (readyQ (onMgmt base) (.cslot (kq 8 0 0 0)) && ctxQ (onMgmt base) (.cslot (kq 8 0 0 0)) fun c => c.g.isNone) = true := by decide +kernel
/-- A launch whose record is nowhere; a cue thread at its end with causes left; workgroups with a command left, with a write on its way to a peer, and past its end; a retirement that writes a signal. -/
theorem witness_GridLife_others : (let l := inCue (fun x => { x with park := some (.launchHold 0x80007000 8 (some 1)) }) (onCue (contexts base))
  let d : Deferred := ⟨0x14A, 0, 0, 0, some 2, 0, true, 0, 3⟩
  let p := inCue (fun x => { x with park := some .cend, deferred := [d] }) base
  let q := inCue (fun x => { x with park := some .cend, deferred := [{ d with tok := none }] }) base
  let f := ending fun k => { k with cue := { k.cue with ended := true } }
  let wait : State := { f with awaits := [{ tag := 1, dev := 1, who := .warp 1 0 [0], core := some 0, cmd := none, pc := 0, addr := 0 }] }
  let busy : State := { f with cmds := (did (.azero (ke 0 0 0)) (onCue tiled)).cmds }
  let past : State := updWg f 1 fun k => { k with st := .ended }
  let sg : Grid := { grid4 with endedWgs := 1, queue := some 0, root := 0x20000000, lrec := { rec4 with signal := true, sigaddr := 0x8000, sigval := 7 } }
  (childRun l (.cue 1)).isSome && !isGood (launchOf l (.cue 1) 0x80007000)
    && dueIn true 64 [d] == none && after p (.cueThreadEnd 1) (fun t => (findCue t (.cue 1)).any (·.ended)) && (dueIn true 64 [{ d with tok := none }]).isSome && after q (.cueThreadEnd 1) (fun t => (findCue t (.cue 1)).any (·.inHandler))
    && (findWg wait 1).any (fun k => wgFinished k && unperformed wait k.core) && (findWg busy 1).any (fun k => wgFinished k && !unperformed busy k.core && wgCmds busy 1)
    && (findWg past 1).any (fun k => k.st == .ended && !wgCmds past 1) && after past (.workgroupEnd 1) (fun t => t.wgs == [])
    && (let s : State := { placedTable with wgs := [], grids := [sg] }
      s.grids.all (retirable s) && after s (.gridRetirement 1) fun t => homeNat t 0x8000 8 == 7)
    && (let s : State := { base with wgs := [], grids := [{ grid4 with endedWgs := 1 }] }
      s.grids.all (retirable s))) = true := by decide +kernel
/-- Two granules awaited, one of them full; counters of two lanes, one of them reached. -/
theorem witness_WaitingThreads_partly : (let f (k : FlightKind) : State := { feSet base 0 true with flights := [{ id := 7, who := .warp 1 0 [0, 1], pc := placedPc, look := 0, kind := k }] }
  let o := fun a l => ({ laneOp (.ls a) with lane := l } : LaneOp)
  let s := f (.fullEmpty (.ldL (feF 2)) [o 0 0, o 64 1] [] [])
  let c := { f (.counter (.cntwt cntf) [{ o 0 0 with ops := [0] }, { o 64 1 with ops := [3] }] []) with lstore := [] }
  (feServe s (.warp 1 0 [0, 1]) (feF 2) .local_ 7 [o 0 0, o 64 1]).2.1.length == 1 && (counterServe c [{ o 0 0 with ops := [0] }, { o 64 1 with ops := [3] }]).1.length == 1
    && after s (.fullEmptyServe 7) (fun t => t.flights.length == 1 && !feGet t 0) && after c (.counterWaitSatisfied 7) fun t => t.flights.length == 1) = true := by decide +kernel
theorem witness_WaitingThreads_causes : (let s := inThreads (fun th => { th with life := .exited, deferred := [⟨0x13C, 0, 1, placedPc, some 2, 0, false, 0, 5⟩] }) (errQueue base)
  (findWarp s 1 0).any (fun w => !w.ended && Warp_live w == [] && w.tokens == [] && w.colls == []) && after s (.warpEnd 1 0) fun t => mreg t Reg.ERRWIDX == 1 && (findWarp t 1 0).any (·.ended)) = true := by decide +kernel
/-- A taking that waits for a peer is none; two workgroups and their timers. -/
theorem witness_Dispatcher_timers : (let two (f : Workgroup → Workgroup) : State := { base with wgs := [f wg4, f { wg4 with id := 2, core := 2 }], clk := 10 ^ 9 }
  let m := two fun k => { k with st := .taken, cmig := some 1 }
  let p := two fun k => { k with take := some .thermal }
  (m.wgs.map (·.id)) == [1, 2] && after m .migrationFallback (fun t => t.wgs.all fun k => k.cmig.isNone) && after p .preemptionTimeout fun t => t.wgs.all (·.takeLate)) = true := by decide +kernel
/-- A command whose unit fails its check, and one that a unit of its own steps. -/
theorem witness_CommandProgress_others : (let s := let t := run1 mm1; { t with softErrors := [0x13D], cmds := t.cmds.map fun c => { c with half := 100000 } }
  cmd2 s (fun c => cmdSelf s c == some 0x13D && streams c.op && rowEntered c) && (let t := run1 bulk1
    let u := nextIs (.unit 2) t
    chosen u == .unit 2 && (findCmd (begin_ u) 2).any (fun c => c.started && decide (c.done < c.total) && cmdSelf (begin_ u) c == none)
      && stepsTo u fun v => (findCmd v 2).any fun c => decide (0 < c.done))) = true := by decide +kernel
theorem witness_HostQueueEvents_refusals : (let s := setMreg (queued 0 childRec) Reg.STARTUP 2
  let x : State := { queued 0 childRec with queues := [{ readQueue (queued 0 childRec) 0 with seen := 1, serial := true, faulted := true }] }
  !deviceReady s && q0of s (fun y => !hasEntry s y) && deviceReady x && q0of x fun y => y.kind == 0 && hasEntry x y && y.serial && y.faulted) = true := by decide +kernel
theorem witness_HostRegisters_shares : ((List.range 16).filter (shareDue (setMreg base Reg.WSHARE 0x39)) == [1, 2]) = true := by decide +kernel
/-- A version line on comb line 5; a line of an L1 and of the instruction cache. -/
def versioning : State := updWg base 1 fun k => { k with taskOn := true, vlines := [{ line := 5, mask := 1, data := 0, synd := 0, key := 0, by_ := 0 }] }
theorem witness_PowerAndStartUp_lines : ((versionsOf versioning 5).length == 1 && versionsOf base 5 == [] && after versioning (.combLineError 5) (fun t => (findWg t 1).any fun k => k.st == .halted)
  && cached.l1.any (fun l => l.line == 0x1000 / 128) && after (placed1 0x1E061007) (.machineCheckEvent 4 0x10000) (fun t => t.icache.all fun l => l.mark.isSome)
  && after base (.machineCheckEvent 26 0) fun t => mreg t Reg.STARTUP == 2 + 256 * 10) = true := by decide +kernel
/-- Atomics of a peer: on FP32, on a poisoned granule, on a page that another device owns, on a page in D. -/
theorem witness_PeerMessages_atomics : (let p := homeWrite peers 0x100 (leBytes 4 0x3F800000) 0 none
  let bad := poisonGranule peers 0x10
  peerFind p 0x100 4 true == .mem 0x100 && homeCaps p 0x100 4 == .good && peerFind bad 0x100 4 true == .mem 0x100 && homeCaps bad 0x100 4 != .good && peerFind owned3 0x40000 4 true == .forward 3 && peerFind peers 0x20000 4 true == .refuse 2
    && after { p with ports := [] } (.atomicMsg 1 0x100 2 true 0 0x3F800000) fun t => homeNat t 0x100 4 == 0x40000000) = true := by decide +kernel
/-- The home's own access of a page in O goes to the owner (14 R406). -/
theorem test_owner_serves_home : (peerDev owned3 (ownDev owned3 * 2 ^ 46 + 0x40000) == 3 && peerDev owned3 (5 * 2 ^ 46) == 5) = true := by decide +kernel
/-- A commit leaves no older copy of the version's bytes in the core's L1 (13 R364). -/
theorem test_commit_drops_copies : ((findWg versioning 1).any fun k => (versionCommit { versioning with l1 := [{ core := k.core, line := 5, valid := 3, dirty := 0, data := 0, synd := 0, imm := false, key := 0, writers := [] }] } 1).l1.all fun l => l.valid == 2) = true := by decide +kernel
theorem witness_PeerMessages_acks : ((acking.busy.find? fun x => decide (x.index ≤ 4 ∧ 4 < x.index + dirSize x.before / 65536) && x.waiting.contains 1 && (x.cmd == 0 || x.before.seq == 1)).isSome
  && domainPeers peers == [1] && domainPeers base == [] && after acking (.ack 1 0x40000 1 none []) fun t => t.busy.all fun x => x.waiting == []) = true := by decide +kernel
/-- A NAK of the packet after the one acknowledged last, the eighth of one packet, and one on a port that is down; a port that comes up with messages waiting. -/
theorem witness_Links_naks : (let m : Msg := { dst := 1, kind := 1, page := 0, seq := 0, aux := 0, data := [] }
  let k : Packet := { lseq := 0, flits := [], msg := m, ins := [] }
  let s (n : Nat) := port0 fun x => { x with retry := [k, k], retries := n }
  let down := { port0 (fun x => { x with up := false }) with outbox := [m] }
  (findPort (s 0) 0).any (fun x => decide (((x.acked + 1) - x.acked).toNat < x.retry.length)) && after (s 0) (.nak 0 ((port0 id).ports.map (·.acked) |>.headD 0)) (fun t => (findPort t 0).any fun x => x.retries == 1)
    && after (s 7) (.nak 0 ((port0 id).ports.map (·.acked) |>.headD 0)) (fun t => (findPort t 0).any fun x => !x.up)
    && (findPort down 0).any (fun x => !x.up) && after down (.linkUp 0) (fun t => (findPort t 0).any (·.up) && t.outbox.length ≤ 1)) = true := by decide +kernel
theorem witness_Fills_cap : (let s := poisonGranule placedTable (0x20001000 / 16)
  match walk s 0x20000000 0x10000 with
  | .error f => (integrityCause 12 f.cap).isSome
  | .ok _ => false) = true := by decide +kernel
/-- A peer's answer, an upset and an idle step, each next. -/
theorem witness_OutsideActs : (let a : Await := { tag := 1, dev := 1, who := .warp 1 0 [0], core := none, cmd := none, pc := 0, addr := 0 }
  let s : State := { base with awaits := [a] }
  chosen (nextIs (.answer 1) s) == .answer 1 && chosen (nextIs (.upset 0x104 0) s) == .upset 0x104 0 && chosen (nextIs .idle s) == .idle
    && stepsTo (nextIs (.answer 1) s) (fun t => t.awaits == []) && stepsTo (nextIs (.upset 0x104 0) s) fun t => t.softErrors == [0x104]) = true := by decide +kernel
/-- Accesses wait for a page in X, and one is made again when its turn comes (14 R405); a halted workgroup's record says so (13 R378). -/
theorem witness_Waiting_accesses : (peerFind peers 0x30000 8 false == .wait && peerFind peers 0x30000 4 true == .wait
  && after dirs (.hostRead 0x30000 8 false) (fun t => t.inbox == [.hostRead 0x30000 8 false]) && stepsTo (nextIs (.held (.hostRead 0x100 8 false)) dirs) (fun t => t.hostLines.any fun h => h.line == 2 && h.st == 1)
  && homeNat (escalate base 1 aCause 0) (((findWg base 1).map (·.image)).getD 0 + 0x14) 1 == 2) = true := by decide +kernel
/-! ### Witnesses of what further clauses say of memory, of images and of messages -/

/-- Dirty lines of home memory and of host memory: a flush, and the write-back of one of them. -/
theorem witness_CachesAndOrder_home : (let far : L1Line := { core := 0, line := 2 ^ 38 + 1, valid := BitVec.allOnes 128, dirty := 2, data := 0x5B00, synd := 0, imm := false, key := 0, writers := [] }
  let s : State := { cached with l1 := cached.l1 ++ [far] }
  s.l1.map (fun l => (l.core, l.line)) == [(0, 0x20), (0, 2 ^ 38 + 1)] && homeNat (l1Flush s 0) 0x1000 2 == 0x5A && SMap.get (l1Flush s 0).hostMem 129 == 0x5B
    && SMap.get (l1WriteBack s far).hostMem 129 == 0x5B && homeNat (l1WriteBack s far) 0x1000 1 == 0) = true := by decide +kernel
/-- Two reductions that a warp's ports issued in one clk: the operation of port A comes first. -/
theorem witness_FlightProgress_ahead : (let op := fun (v : Nat) => ({ laneOp (.mem 0x1000) with ops := [.ofNat 64 v] } : LaneOp)
  let i := Instr.atom { ax 8 16 10 with aop := 42 }
  let f : Flight := { id := 7, who := .warp 1 0 [0], pc := placedPc, look := 0, kind := .exec i [op 5] 0 }
  let g : Flight := { f with id := 8, who := .warp 1 0 [1], kind := .exec i [op 9] 0 }
  let s : State := { base with flights := [f, g] }
  pointAhead s g == [f] && pointAhead s f == [] && after s (.executionPointOperation 8) fun t => (findFlight t 7).any fun x => execOps x == []) = true := by decide +kernel
/-- A header whose tokens read zero is met for good, another is not. -/
theorem witness_StepEntersClause_waited : ([[], [(0, 1)]].map fun tk => let s := inWarp (fun w => { w with tokens := tk }) (Tests.atHeader 0x0B1)
  ((((enterAll s).wgs.head?.bind (·.warps.head?)).bind (·.threads.head?)).bind (·.clause)).map (·.waited)) = [some true, some false] := by decide +kernel
/-- A versioned task; the grid of a host queue; an error queue with entries dropped before, and room for both entries or for one. -/
theorem witness_Escalation_others : (let v : State := updWg (errQueue base) 1 fun k => { k with taskOn := true, vlines := [{ line := 5, mask := 1, data := 0, synd := 0, key := 0, by_ := 0 }], vbytes := 1 }
  let q : State := { queued 0 [] with grids := [{ grid4 with queue := some 0 }] }
  let d : State := { errQueue base with errDropped := 3 }
  let e : State := setMreg d Reg.ERRWIDX 15
  (findWg (escalate v 1 aCause 0) 1).any (fun k => k.vlines == [] && !k.taskOn && k.vdone) && (findWg q 1).any (fun k => (gridOf q k).bind (·.queue) == some 0) && q0of q (fun x => !x.faulted)
    && q0of (escalate q 1 aCause 0) (·.faulted) && !errFree base && (escalate base 1 aCause 0).errDropped == 1
    && errFree d && mreg (escalate d 1 aCause 0) Reg.ERRWIDX == 2 && homeNat (escalate d 1 aCause 0) 0x6000000 2 == 0x1FE
    && errFree e && errSlots e == 16 && (escalate e 1 aCause 0).errDropped == 1 && mreg (escalate e 1 aCause 0) Reg.ERRWIDX == 16) = true := by decide +kernel
/-- The line of c63 stands in the image alone; its side entry checks, or not. -/
def missing63 : State := storeLine base grid4 wg4 (cueLine rec4 63)
theorem witness_Escalation_line : ((findWg missing63 1).any (fun k => k.st != .halted && k.missing.contains (cueLine rec4 63) && isGood (bringLine missing63 grid4 k (cueLine rec4 63))
    && (match bringLine missing63 grid4 k (cueLine rec4 63) with
      | .ok t => (findWg t 1).any fun j => !j.missing.contains (cueLine rec4 63) && (gridOf t j).isSome
      | .error _ => false))
  && (let s := put (sideAt rec4 wg4 (cueLine rec4 63)) [0xFF, 0xFF] missing63
    (findWg s 1).any fun k => match bringLine s grid4 k (cueLine rec4 63) with
      | .ok _ => false
      | .error c => c != 0)
  && (findWg base 1).any fun k => !k.missing.contains (cueLine rec4 63)) = true := by decide +kernel
/-- A task with two version lines is committed. -/
theorem witness_ManagementCommands_commit : (let v := fun n d => ({ line := n, mask := 3, data := d, synd := 0, key := 0, by_ := 0 } : VLine)
  let t : State := { updWg m0 1 (fun k => { k with taskOn := true, vlines := [v 40 0x0102, v 41 0x0304] }) with grids := [{ grid4 with lrec := { rec4 with versioned := true, vbudget := 4096 } }] }
  readyQ t (.tcommit (kq 0 9 0 0)) && after t (.tcommit (kq 0 9 0 0)) (fun u => homeNat u (128 * 40) 4 == 0x0102 && homeNat u (128 * 41) 4 == 0x0304 && (findWg u 1).any fun k => k.vlines == [] && k.nonRestart)
    && after t (.tabort (kq 0 9 0 0)) fun u => homeNat u (128 * 40) 4 == 0 && u.wgs.all fun k => k.vlines == []) = true := by decide +kernel
/-- A taking is asked for and the thread stands at a cut: `dqpush` parks, and a parked one writes nothing. -/
theorem witness_QueuesAndMoves_cut : (let s := updWg (inCue (fun x => { x with clause := some { placedClause true with cut := true, first := true }, cutPc := placedPc, moved := true }) (pushing [])) 1 fun k => { k with take := some .thermal }
  readyQ s (.dqpush (kq 0 9 10 0)) && ctxQ s (.dqpush (kq 0 9 10 0)) (fun c => c.k.any (fun k => dqRoom k 1 && k.take != none) && cueStands { stayedCue (.dqpush (kq 0 9 10 0)) c.c with park := some (.dqpush 1 77) })
    && after s (.dqpush (kq 0 9 10 0)) (fun t => (findWarp t 1 0).any (fun w => w.dq == []) && (findWg t 1).any (fun k => k.cue.park == some (.dqpush 1 77) && cueStands k.cue && dqRoom k 1)
      && after t (.dqpushWrite 1) fun u => (findWarp u 1 0).any fun w => w.dq == [])) = true := by decide +kernel
/-- A child whose record is sound; a workgroup that has ended with nothing left, and one whose collective is unfinished. -/
theorem witness_GridLife_holds : (after launching (.launch (ke 8 16 0)) (fun t => isGood (launchOf t (.cue 1) 0x40007000) && (findCue t (.cue 1)).any fun x => x.windows.all (·.done))
  && (let f := ending fun k => { k with cue := { k.cue with ended := true } }
    (findWg f 1).any (fun k => wgFinished k && !wgHolds f k) && (findWg (inWarp (fun w => { w with colls := [{ id := 7, fill := true, tile := 0, tok := none }] }) f) 1).any fun k => wgHolds (inWarp (fun w => { w with colls := [{ id := 7, fill := true, tile := 0, tok := none }] }) f) k)) = true := by decide +kernel
/-- No granule full; every one full; every counter reached. -/
theorem witness_WaitingThreads_served : (let o := fun a l => ({ laneOp (.ls a) with lane := l } : LaneOp)
  (feServe base (.warp 1 0 [0, 1]) (feF 2) .local_ 7 [o 0 0, o 64 1]).2.1.length == 2 && (feServe (feSet (feSet base 0 true) 4 true) (.warp 1 0 [0, 1]) (feF 2) .local_ 7 [o 0 0, o 64 1]).2.1 == []
    && (counterServe (counting 3) [{ laneOp (.ls 0) with ops := [3] }]).1 == []) = true := by decide +kernel
/-- A workgroup that the dispatcher may ask for; one that does not stand; causes due at its cuts; a write of its core on its way to a peer; tiles and local bytes to store. -/
theorem witness_Taking_others : (let two : State := { base with wgs := [wg4, { wg4 with id := 2, st := .taken }] }
  let d : Deferred := ⟨0x14A, 0, 0, 0, none, 0, true, 0, 3⟩
  let due := inCue (fun x => { x with deferred := [d] }) atCut
  let wait : State := { atCut with awaits := [{ tag := 1, dev := 1, who := .warp 1 0 [0], core := some 0, cmd := none, pc := 0, addr := 0 }] }
  let early := updWg base 1 fun k => { k with take := some .thermal }
  let small : Grid := { grid4 with lrec := { rec4 with tiles := 0, accs := 0, tileg := 0, locals := [512, 0, 0, 0] } }
  let taken := updWg { base with grids := [small], lstore := SMap.setList (w := 8) base.lstore 16 [1, 2, 3] } 1 fun k => { k with st := .taken, take := none }
  dispatchWaits two && (findWg two 1).any (fun k => k.take == none && k.st == .resident) && after two (.taking 1) (fun t => (findWg t 1).any fun k => k.take == some .dispatch)
    && (findWg due 1).any (fun k => k.take != none && allStand k && engineIdle due k && dueAtCut k) && after due (.taking 1) (fun t => (findCue t (.cue 1)).any fun x => x.inHandler)
    && (findWg wait 1).any (fun k => allStand k && engineIdle wait k && !dueAtCut k && unperformed wait k.core) && (findWg early 1).any (fun k => !allStand k)
    && (findWg taken 1).any (fun k => k.image % 128 == 0 && decide (k.image + imageSize small.lrec ≤ hbmCap taken) && !k.storedTiles && !k.storedLocal && (localPieces small k).length == 1)
    && after taken (.imageAreaWrite 1) (fun t => homeNat t (0x3000000 + imgLocal small.lrec + 16) 3 == 0x030201 && (findWg t 1).any fun k => k.storedTiles && k.storedLocal)
    && (findWg taken 1).any (fun k => (linesHere taken k).contains 16) && after taken (.registerLineEviction 1 16) fun t => (findWg t 1).any fun k => k.missing == [16]) = true := by decide +kernel
/-- Command 2 of the cue thread, started, with its configurations and registers. -/
def cmdOn (i : Instr) (r : List (Nat × Nat)) : State := run1 (did i (cregs r (onCue tiled)))
def unitOk (s : State) (p : Cmd → Workgroup → LaunchRec → Bool) : Bool := (findCmd s 2).any fun c => (cmdWg s c).any (fun (k, g) => p c k g) && match cmdUnit s c with
  | .go _ => true
  | _ => false
def engAt (s : State) (c : Cmd) (sp a n p : Nat) : Bool := [false, true].all fun w => isLs p (engPlace s (engOf s c) sp a n w)
/-- A table of `arrmmg` in its local store, and none. -/
theorem witness_CommandProgress_table : ([0, 2 ^ 31].map fun a => let s := did (.arrmmg (ke 0 8 9)) (cregs [(8, a)] (onCue tiled))
  (findCmd s 2).any fun c => arrayStartable s c && (match c.op with
    | .arrmmg f => (match mmgStart (run1 (planeSwap s c)) c f with
      | .go _ => a == 0
      | .stop _ _ _ => a != 0
      | .wait => false)
    | _ => false)) = [true, true] := by decide +kernel
/-- A row of `adrainp` leaves, arrives at its target, or finds none. -/
def draining (x : Nat) : State := cmdOn (.adrainp (ke 8 9 10)) [(8, 32 + 2 ^ 19), (9, x)]
theorem witness_CommandProgress_rows : (cmd2 (draining 0) (fun c => (cmdWg (draining 0) c).isSome && c.owner == .cue 1 && decide (c.half < drRows (creg c 8)) && decide (c.done < c.total))
  && (let s := unitOf (draining 0) 2
    cmd2 s fun c => decide (drRows (creg c 8) ≤ c.half) && decide (c.done < c.half) && (drainTarget s c (ke 8 9 10)).any (fun k => k.id == 1) && unitOk s fun _ _ _ => true)
  && (let s := unitOf (draining (5 * 2 ^ 32)) 2
    cmd2 s fun c => c.done == 0 && decide (c.done < c.half) && (drainTarget s c (ke 8 9 10)).isNone && match cmdUnit s c with
      | .stop _ x _ => x == 0x13A
      | _ => false)) = true := by decide +kernel
/-- Commands between tiles and accumulators. -/
theorem witness_UnitsAndCompletion_tiles : (unitOk (cmdOn (.azero (ke 0 0 0)) []) (fun c _ _ => c.owner == .cue 1) && unitOk (cmdOn (.azero (ke 8 0 0 0 1)) [(8, 32 + 2 ^ 19)]) (fun c _ _ => let d := creg c 8; decide (drRow0 d + drRows d ≤ 32 ∧ drCol0 d + drCols d ≤ 256))
  && unitOk (cmdOn (.arrdist (ke 0 8 0 0 0 0 1)) []) (fun c _ _ => decide (tCols (ccfg c 1) ≤ 256)) && unitOk (cmdOn (.arrmm (ke 0 8 0 0 0 0 1)) []) (fun c _ _ => decide (tCols (ccfg c 1) ≤ 256))
  && unitOk (cmdOn (.tzero (ke 0 0 0)) []) (fun _ _ _ => true) && unitOk (cmdOn (.txpose (ke 0 0 0 0 0 0 4)) []) (fun c _ _ => tRows (ccfg c 4) == tCols (ccfg c 0) && tCols (ccfg c 4) == tRows (ccfg c 0))
  && unitOk (cmdOn (.adrain (ke 8 10 0 1 3)) [(8, 32 + 2 ^ 19)]) (fun _ _ _ => true) && unitOk (cmdOn (.aload (ke 8 10 0 1 3)) [(8, 32 + 2 ^ 19)]) fun _ _ _ => true) = true := by decide +kernel
/-- `tld` and `tsd` between t0 and the local store. -/
theorem witness_UnitsAndCompletion_localTiles : ([Instr.tld (ke 0 8 10), .tsd (ke 0 8 10)].all fun i => let s := cmdOn i [(8, 16 * 2 ^ 32)]
  unitOk s fun c _ g => let wa := ccfg c 0
    let l := layOf (creg c 8) (creg c 9)
    tNib g wa == 4 && (tileElems wa).length == 64 && (scaleCells g wa).isEmpty && (tileElems wa).all fun y => let p := viewOff l 4 y.2 y.1 0 0 / 2
      engAt s c 1 (arrBase 0 l (creg c 10) + p) 2 p && lsCaps s p 2 == .good) = true := by decide +kernel
/-- A scaled tile: its scales are zero of their format. -/
theorem witness_UnitsAndCompletion_scales : (let s := run1 (did (.tzero (ke 0 0 0 0 0 5)) (onCue (updWg base 1 fun k => { k with tconf := [5], tcfg := [(5, 0x500001F03)] })))
  unitOk s fun c _ g => (tileElems (ccfg c 5)).length == 128 && !(scaleCells g (ccfg c 5)).isEmpty) = true := by decide +kernel
/-- Bulk commands between local stores: extents 4, 1, 1, 1; from 0 to 0x100. -/
def lblk : List (Nat × Nat) := [(16, 0), (17, 0), (19, 0), (20, 0x100), (22, 4 + 2 ^ 20 + 2 ^ 40 + 2 ^ 52)]
/-- Each element of a unit stands in the local store, at p. -/
def putsAt (s : State) (c : Cmd) (f : QE) (nb p : Nat) : Bool := (unitElems c 4 nb) == [0, 1, 2, 3] && [0, 1, 2, 3].all fun i => engAt s c f.dsp (destCell f (blkCmd c f) nb i / 2) (nb / 2) (p + nb / 2 * i)
theorem witness_UnitsAndCompletion_bulk : ((let f : QE := ke 0 16 0 1027
    let s := cmdOn (.bfill f) lblk
    unitOk s fun c _ _ => !f.mc && !f.cnt && f.dsp == 1 && typNib (cmdSlot s c f) f.typ == 8 && putsAt s c f 8 0x100)
  && (let f : QE := ke 0 16 0 (1 + 3 * 8 + 256 + 1024)
    let s := cmdOn (.bcp f) lblk
    unitOk s fun c _ _ => f.dsp == 1 && f.typ == 1 && typNib (cmdSlot s c f) f.dtyp == 8 && typNib (cmdSlot s c f) f.typ == 4 && putsAt s c f 8 0x100 && [0, 1, 2, 3].all fun i => match bcpFrom f (blkCmd c f) 4 i with
      | .cell sp a => sp == 1 && engAt s c sp (a / 2) 2 (2 * i) && lsCaps s (2 * i) 2 == .good
      | _ => false)
  && (let f : QE := ke 0 16 8 (3 + 8 + 256 + 1024)
    let t := cmdOn (.bsca f) ((8, 0x40006000) :: (23, 2 ^ 16) :: lblk)
    let s : State := { t with cmds := t.cmds.map fun c => { c with aux := [0, 0] } }
    unitOk s fun c _ _ => f.dtyp == 1 && typNib (cmdSlot s c f) f.typ == 8 && (blkCmd c f).b1 == 1 && (versionOf s (engOf s c).iss).isNone && engAt s c 1 0 4 0 && engAt s c 1 0x100 4 0x100 && lsCaps s 0 4 == .good && lsCaps s 0x100 4 == .good)) = true := by decide +kernel
/-- With one element left, it is the free choice. -/
theorem witness_UnitsAndCompletion_choice (s : State) : freeOf s [0] = some 0 := by simp [freeOf, Nat.mod_one]
/-- A step of `mop`, a line of `rsvfill`, `ctxsv`, `ptwalk` and `dirq`. -/
theorem witness_UnitsAndCompletion_others : ((let f : QE := ke 0 16 0 3
    let s := cmdOn (.mop f) [(16, 0x40004000), (17, 0), (19, 0x40005000), (20, 0), (22, 1 + 2 ^ 20 + 2 ^ 40 + 2 ^ 52)]
    cmd2 s fun c => f.mod == 0 && sliceNext (blkCmd c f).n0 (fun i => elemSlice s c ((blkCmd c f).dbase + 4 * i)) c.aux == [0] && (versionOf s (engOf s c).iss).isNone && isOk (engPlace s (engOf s c) 0 0x40005000 4 true)
      && isOk (engPlace s (engOf s c) 0 0x40004000 4 false) && homeCaps s 0x5000 4 == .good && homeCaps s 0x4000 4 == .good)
  && (let s := cmdOn (.rsvfill (ke 0 9 10)) [(9, 0x40004000), (10, 128)]
    unitOk s fun c _ _ => isOk (engPlace s (engOf s c) 0 (max (creg c 9) ((creg c 9 / 128 + c.done) * 128)) 1 false) && !writesThrough s (0x4000 / 128))
  && (let s := run1 (did (.ctxsv (ke 0 9 0)) m0)
    cmd2 s fun c => c.done == 0 && creg c 9 == 0x3000000 && (findImage s 0x3000000).any fun k => findWg s k.id == some k && k.st != .taken && k.take == none)
  && (let s := run1 (did (.ptwalk (ke 8 9 10)) (onMgmt base))
    cmd2 s fun c => c.owner == .mgmt 0 && (findCue s (.mgmt 0)).any fun y => y.park == none)
  && [0x20000, 0x30000].all fun a => let s := run1 (did (.dirq (ke 8 9 0)) (cregs [(9, a)] (onMgmt (poisonGranule dirs (0x9000030 / 16)))))
    cmd2 s fun c => c.owner == .mgmt 0 && decide (creg c 9 < hbmCap s) && (homeCap s ((mreg s Reg.DIRBASE + 16 * (a / 65536)) / 16) == .good) == (a == 0x20000) && match cmdUnit s c with
      | .go _ => a == 0x20000
      | .stop _ x _ => x == 0x093 && a == 0x30000
      | .wait => false) = true := by decide +kernel
/-- A copy block from VA 0x4000 to 0x5000, in a queue whose tables map them. -/
def lowBlock : List Byte := ((List.range 7).flatMap fun i => leBytes 8 (((blk 0x4000 0x5000).find? fun x => x.1 = 16 + i).elim 0 (·.2))) ++ leBytes 4 0 ++ leBytes 4 (0x40 * 2 ^ 25 + 54 * 16)
def mapped : State := let s := put 0x20002000 (leBytes 8 0xF) (put 0x20001000 (leBytes 8 0x20002001) (put 0x20000000 (leBytes 8 0x20001001) (queued 1 lowBlock)))
  { s with queues := s.queues.map fun x => { x with root := 0x20000000 } }
/-- A slot that cannot be read; ranges that wait for a page in X; a range file without room. -/
theorem witness_HostQueueEvents_waits : (let s := mapped
  let far : State := { s with queues := s.queues.map fun x => { x with base := 2 ^ 44 } }
  let inX := setDir { s with mregs := (setMreg s Reg.DIRBASE 0x9000000).mregs } 0 { seq := 1, st := 3, size := 0, owner := 0, set := 0 }
  let full : State := { s with locks := (List.range 64).map fun i => { cluster := 0, local_ := false, lo := 0, hi := 1, source := true, wg := none, cmd := 90, rng := i } }
  let due (s : State) (p : QueueSt → ECmd → Bool) : Bool := q0of s fun x => x.kind == 1 && hasEntry s x && decide ((bulkQueue s x.cluster).length < 64) && match entryBytes s x 64 with
    | some bs => (match blockCause s bs with
      | .ok e => p x e
      | .error _ => false)
    | none => false
  q0of far (fun x => x.kind == 1 && hasEntry far x && (entryBytes far x 64).isNone) && due full (fun x e => decide (64 < locksUsed full x.cluster + (e.ranges full (blockCtx lowBlock)).length))
    && due s (fun x e => !(e.ranges s (blockCtx lowBlock)).any (rangeWaits s (engOf s (blockCommand s x e lowBlock))))
    && due inX fun x e => decide (locksUsed inX x.cluster + (e.ranges inX (blockCtx lowBlock)).length ≤ 64) && (e.ranges inX (blockCtx lowBlock)).any (rangeWaits inX (engOf inX (blockCommand inX x e lowBlock)))) = true := by decide +kernel
/-- A module whose write waits for a page in X, and one whose writes go on; ENABLE of a queue that is on is cleared. -/
theorem witness_HostRegisters_order : (let s : State := { dirs with inbox := [.hostWrite ⟨0, 0x30000⟩ [1]] }
  writesWait s 0 && !writesWait base 0 && after s (.registerWrite ⟨0, Reg.PTIMEOUT⟩ 8 5) (fun t => t.inbox.length == 2) && after s (.hostWrite ⟨0, 0x100⟩ [1]) (fun t => t.inbox.length == 2)
    && q0of (queued 0 []) (·.on) && after (queued 0 []) (.registerWrite ⟨0, Reg.QUEUE + 12⟩ 4 0) fun t => q0of t fun x => !x.on) = true := by decide +kernel
/-- The device has written byte 0 of a line that the host holds modified; the host's bytes come back. -/
theorem witness_HostAccesses_pend : (let s : State := { dirs with hostLines := [{ line := 0, st := 2, seq := 1, pend := 1 }] }
  after (put 0 [9] s) (.hostRecall 0 (some (List.replicate 128 7))) fun t => homeNat t 0 2 == 0x0709) = true := by decide +kernel
/-- A die reaches TSHUT; the hold stands at its limit; a column in each class; an image as it should be. -/
theorem witness_PowerAndStartUp_more : (mreg base (Reg.DIESTAT + 24) / 65536 % 4 == 0 && decide (tlim base 3 ≤ (2000 : Int)) && after base (.sensorRefresh [] [(3, 2000)]) (fun t => t.dieAlarm == [(3, 0)])
  && (let s := setMreg (setMreg base Reg.GOVHOLD 7) Reg.PWRLIM 10
    after s (.governorInterval 11) (fun t => t.govTicks == 1) && after (setMreg s Reg.GOVHOLD 6) (.governorInterval 11) (fun t => t.govTicks == 0 && mreg t Reg.GOVHOLD == 7))
  && (let s := setMreg (setMreg { base with govTicks := 100 } Reg.PWRLIM 10) Reg.PWRNOW 11
    decide (mreg s Reg.PWRLIM < mreg s Reg.PWRNOW)) && decide (0 < tlim base 2)
  && (combed 1).comb.any (fun l => l.line == 5 && l.dirty != 0) && base.comb == []) = true := by decide +kernel
/-- Requests that a home refuses; an entry whose recovery has failed; a GRANT awaited after the probes; two devices to ask. -/
theorem witness_PeerMessages_more : (let lost : State := { setDir acking 4 { seq := 1, st := 3, size := 0, owner := 0, set := 2 } with ports := [], busy := acking.busy.map fun x => { x with cmd := 0 } }
  let granted : State := { acking with busy := acking.busy.map fun x => { x with granted := true } }
  peerFind lost 0x40000 8 false == .refuse 5 && recoveryFailed lost 0x40000 && (granted.busy.find? fun x => x.waiting.contains 1 && x.before.seq + 1 == 2).isSome
    && after granted (.ack 1 0x40000 2 none []) (fun t => t.busy.all fun x => x.waiting == [])
    && ((List.range 64).filter fun k => k ≠ ownDev peers && (mreg peers Reg.DOMAIN).testBit k) == [1] && ((List.range 64).filter fun k => k ≠ ownDev base && (mreg base Reg.DOMAIN).testBit k) == []) = true := by decide +kernel
/-- A 2 MiB copy of a page of device 1, in D at SEQ 9, met by a split. -/
theorem witness_PeerMessages_split : (let g : Nat := 2 ^ 46 + 0x400000
  let a := copyAddr peers (copySet true g) 0
  let s : State := { setLocal (homeWrite peers a (leBytes 8 (g % 2 ^ 52 + 1)) 0 none) a 0x600000 1 9 with ports := [] }
  (holderEntry s g [1, 2]).any fun e => e.1 && localSeq e.2.2 == 9 && !newer 9 10) = true := by decide +kernel
/-- Packets of a message: sent, damaged, out of order, and one for another device; a port with room and one without. -/
theorem witness_Links_packets : (let fs := framePacket 0 0 0 1 6 []
  let x := (findPort peers 0).getD (Port.reset 0)
  let m : Msg := { dst := 1, kind := 1, page := 0, seq := 0, aux := 0, data := [] }
  fs.all flitGood && (fs.map fun f => f.set 3 0xFF).any (fun f => !flitGood f) && (openPacket fs).isSome && (openPacket [flit []]).isNone == false && (openPacket (fs ++ fs)).isNone && (openPacket (framePacket 1 0 1 1 6 [])).any (fun (h, p) => h.extractLsb' 52 12 != x.inSeq && p == [])
    && after peers (.packet 0 [] (((fs.getD 0 []).set 3 0xFF)) []) (fun t => (findPort t 0).any fun y => y.naks == [0]) && portFor peers 1 none == some 0 && x.queue == [] && (findPort (port0 fun y => { y with queue := [m] }) 0).any (fun y => y.queue != [])
    && (findPort (port0 fun y => { y with up := false }) 0).any (fun y => !y.up)) = true := by decide +kernel
/-- Writes of a module made again in their order; an entry of the contract table that fails its check; a command's answer. -/
theorem witness_OutsideActs_more : (let h : State := { base with inbox := [] }
  let c : State := poisonGranule (setMreg base Reg.CTBASE 0xB000000) (0xB000000 / 16)
  let a : Await := { tag := 1, dev := 1, who := .cue 1, core := none, cmd := some 2, pc := 0, addr := 0 }
  let w : State := { run1 bulk1 with awaits := [a] }
  chosen (nextIs (.held (.regWrite ⟨0, Reg.PTIMEOUT⟩ 8 5)) h) == .held (.regWrite ⟨0, Reg.PTIMEOUT⟩ 8 5) && stepsTo (nextIs (.held (.regWrite ⟨0, Reg.PTIMEOUT⟩ 8 5)) h) (fun t => mreg t Reg.PTIMEOUT == 5)
    && (integrityCause 15 (homeCap c (0xB000000 / 16))).isSome && (dirGranule c (0xB000000 / 16)).isNone && tableGranule c (0xB000000 / 16) && chosen (nextIs (.entry (0xB000000 / 16)) c) == .entry (0xB000000 / 16)
    && (findCmd w 2).any (copyFollows w) && causeClass 0x104 != 15) = true := by decide +kernel

end Sys2Proof.Tests
end

section
/-! The bit-count instructions of 03 R89 (family 03_integer.md): bit by bit meaning of the lane functions, what an integer instruction leaves, and the obligation O9. -/

namespace Sys2Proof.Machine

/-! ### The lane functions, bit by bit -/

theorem brevN_succ (x n : Nat) : brevN x (n + 1) = 2 ^ n * (x.testBit 0).toNat + brevN (x / 2) n := by
  cases h : x.testBit 0 <;> simp [brevN, h]

theorem brevN_lt (x n : Nat) : brevN x n < 2 ^ n := by
  induction n generalizing x with
  | zero => simp [brevN]
  | succ n ih =>
    have hrest := ih (x / 2)
    rw [brevN, Nat.pow_succ]
    split <;> omega

theorem testBit_brevN (x n i : Nat) (hi : i < n) : (brevN x n).testBit (n - 1 - i) = x.testBit i := by
  induction n generalizing x i with
  | zero => omega
  | succ n ih =>
    rw [brevN_succ, Nat.testBit_two_pow_mul_add _ (brevN_lt _ _)]
    cases i with
    | zero => cases h : x.testBit 0 <;> simp
    | succ i =>
      rw [if_pos (by omega), show n + 1 - 1 - (i + 1) = n - 1 - i by omega, ih _ _ (by omega), Nat.testBit_succ]

theorem popcountN_eq_length_filter (x n : Nat) : popcountN x n = ((List.range n).filter fun i => x.testBit i).length := by
  induction n with
  | zero => rfl
  | succ n ih =>
    rw [popcountN, ih, List.range_succ, List.filter_append, List.length_append, Nat.add_comm]
    cases h : x.testBit n <;> simp [h]

theorem popcountN_le (x n : Nat) : popcountN x n ≤ n := by
  rw [popcountN_eq_length_filter]
  exact (List.length_filter_le _ _).trans_eq List.length_range

theorem clzN_le (x n : Nat) : clzN x n ≤ n := by
  induction n with
  | zero => rfl
  | succ n ih => rw [clzN]; split <;> omega

theorem testBit_of_clzN_le (x n i : Nat) (hlo : n - clzN x n ≤ i) (hi : i < n) : x.testBit i = false := by
  induction n with
  | zero => omega
  | succ n ih =>
    rw [clzN] at hlo
    split at hlo
    case isTrue => omega
    case isFalse htop =>
      rcases Nat.lt_succ_iff_lt_or_eq.mp hi with hlt | rfl
      · exact ih (by omega) hlt
      · simpa using htop

theorem testBit_clzN (x n : Nat) (h : clzN x n < n) : x.testBit (n - 1 - clzN x n) = true := by
  induction n with
  | zero => omega
  | succ n ih =>
    rw [clzN] at h ⊢
    split at h
    case isTrue htop => simp [htop]
    case isFalse htop =>
      rw [if_neg htop, show n + 1 - 1 - (1 + clzN x n) = n - 1 - clzN x n by omega]
      exact ih (by omega)

theorem ctzFrom_le (x i n : Nat) : ctzFrom x i n ≤ n := by
  induction n generalizing i with
  | zero => rfl
  | succ n ih =>
    have hrest := ih (i + 1)
    rw [ctzFrom]
    split <;> omega

theorem testBit_of_lt_ctzFrom (x i n j : Nat) (hj : j < ctzFrom x i n) : x.testBit (i + j) = false := by
  induction n generalizing i j with
  | zero => simp [ctzFrom] at hj
  | succ n ih =>
    rw [ctzFrom] at hj
    split at hj
    case isTrue => omega
    case isFalse hlow =>
      cases j with
      | zero => simpa using hlow
      | succ j => rw [show i + (j + 1) = i + 1 + j by omega]; exact ih (i + 1) j (by omega)

theorem testBit_ctzFrom (x i n : Nat) (h : ctzFrom x i n < n) : x.testBit (i + ctzFrom x i n) = true := by
  induction n generalizing i with
  | zero => omega
  | succ n ih =>
    rw [ctzFrom] at h ⊢
    split at h
    case isTrue hlow => simp [hlow]
    case isFalse hlow =>
      rw [if_neg hlow, ← Nat.add_assoc]
      exact ih (i + 1) (by omega)

/-! ### What an integer instruction leaves in a contributor's registers -/

/-- Consecutive registers that hold the words of a number read back as that number, reduced to their width. -/
theorem vgetN_of_words (w : Warp) (r l x n : Nat) (h : ∀ k < n, vget w (r + k) l = BitVec.ofNat 32 (x / 2 ^ (32 * k))) :
    vgetN w r l n = x % 2 ^ (32 * n) := by
  induction n generalizing r x with
  | zero => simp [vgetN, Nat.mod_one]
  | succ n ih =>
    have hrest : vgetN w (r + 1) l n = x / 2 ^ 32 % 2 ^ (32 * n) := by
      refine ih (r + 1) (x / 2 ^ 32) fun k hk => ?_
      rw [show r + 1 + k = r + (k + 1) by omega, h (k + 1) (by omega), Nat.div_div_eq_div_mul, ← Nat.pow_add, Nat.mul_succ, Nat.add_comm]
    have hfirst : (vget w r l).toNat = x % 2 ^ 32 := by simpa using congrArg BitVec.toNat (h 0 (by omega))
    rw [vgetN, hrest, hfirst, Nat.mul_succ, Nat.add_comm (32 * n), Nat.pow_add, Nat.mod_mul]

/-- The destination of a contributor after an instruction that gives its registers a value. -/
theorem GivesLanes.vgetN_dst {c : WCtx} {i : Instr} {d n : Nat} {val : Nat → Nat × Flags} {w : Warp} (h : GivesLanes c i d n val w)
    {l : Nat} (hl : l ∈ c.cs) (hb : l < 128) : vgetN w d l n = (val l).1 % 2 ^ (32 * n) := by
  obtain ⟨hregs, -, -⟩ := h
  refine vgetN_of_words w d l _ n fun k hk => ?_
  rw [hregs _ _ hb, if_pos ⟨hl, by omega, by omega⟩, Nat.add_sub_cancel_left]

theorem onOperands_of_shape {α : Type} {c : WCtx} {i : Instr} {f : VF} {v : VSpec} (h : shapeOf c i = some (f, v)) (z : α) (fn : VF → Nat → Nat → Nat → α) (l : Nat) :
    onOperands c i z fn l = fn f (operands c f v l).1 (operands c f v l).2.1 (operands c f v l).2.2 := by
  simp only [onOperands, h]

/-- An elementwise instruction that does not read its old destination writes a function of its operands. -/
theorem elementwise_eff {c : WCtx} {i : Instr} {f : VF} {v : VSpec} (h : shapeOf c i = some (f, v)) (fn : VF → Nat → Nat → Nat → Nat × Flags) (t : State) :
    (elementwise i fun _ f x y z _ => fn f x y z).eff c t = updWarp t c.wg c.wi (writeAll c.cs f.d.toNat (Dst.regs v.d) (onOperands c i (0, 0) fn)) := by
  have hspec : vSpec c.W (WCtx_slot c) i = some (f, v) := h
  simp only [elementwise, hspec, funext (onOperands_of_shape h (0, 0) fn)]
  rfl

/-- An integer instruction that executes gives each contributor the function of its operands, with no flags (03 R74, R75). -/
theorem exec_intOp_gives {i : Instr} {fn : Nat → Nat → Nat → Nat → Nat} {s : State} {c : WCtx} {f : VF} {v : VSpec}
    (hop : warpOp i = some (intOp i fn)) (hshape : shapeOf c i = some (f, v)) (hc : warpCtx s i = some c) (hr : WarpReady (intOp i fn) s c = true) :
    ∃ g, exec i s = .next (updWarp s c.wg c.wi g) ∧
      GivesLanes c i f.d.toNat (Dst.regs v.d) (onOperands c i (0, 0) fun f x y z => (fn f.m x y z, 0)) (g c.w) := by
  rw [exec_of_warpOp hop]
  exact warpIssue_gives (op := intOp i fn) hc hr rfl _ _ _ (elementwise_eff hshape (fun f x y z => (fn f.m x y z, 0)) _)

/-- The destination of a contributor after an integer instruction that reads operand A alone. -/
theorem exec_intOp_unary {i : Instr} {fn : Nat → Nat → Nat → Nat → Nat} {s : State} {c : WCtx} {f : VF} {v : VSpec} {u : Nat → Nat}
    (hu : ∀ a b z, fn f.m a b z = u a) (hop : warpOp i = some (intOp i fn)) (hshape : shapeOf c i = some (f, v))
    (hc : warpCtx s i = some c) (hr : WarpReady (intOp i fn) s c = true) {l : Nat} (hl : l ∈ c.cs) :
    ∃ g, exec i s = .next (updWarp s c.wg c.wi g) ∧ vgetN (g c.w) f.d.toNat l (Dst.regs v.d) = u (sourceA c i l) % 2 ^ (32 * Dst.regs v.d) := by
  obtain ⟨g, hexec, hgives⟩ := exec_intOp_gives hop hshape hc hr
  obtain ⟨-, -, -, -, hlanes, -⟩ := warpCtx_spec hc
  refine ⟨g, hexec, ?_⟩
  rw [hgives.vgetN_dst hl (hlanes l (cs_sub hc hl)).1]
  simp only [sourceA, onOperands_of_shape hshape, hu]

/-- The same for a count, which its one register holds whole. -/
theorem exec_intOp_count {i : Instr} {fn : Nat → Nat → Nat → Nat → Nat} {s : State} {c : WCtx} {f : VF} {v : VSpec} {u : Nat → Nat}
    (hu : ∀ a b z, fn f.m a b z = u a) (hle : ∀ a, u a ≤ 64) (hop : warpOp i = some (intOp i fn)) (hshape : shapeOf c i = some (f, v))
    (hd : v.d = .vec 1) (hc : warpCtx s i = some c) (hr : WarpReady (intOp i fn) s c = true) {l : Nat} (hl : l ∈ c.cs) :
    ∃ g, exec i s = .next (updWarp s c.wg c.wi g) ∧ (vget (g c.w) f.d.toNat l).toNat = u (sourceA c i l) := by
  obtain ⟨g, hexec, hval⟩ := exec_intOp_unary hu hop hshape hc hr hl
  have hlt := hle (sourceA c i l)
  rw [hd, Dst.regs, Nat.mod_eq_of_lt (by omega)] at hval
  exact ⟨g, hexec, by simpa [vgetN] using hval⟩

/-! ### The four instructions (03 R89) -/

theorem tabB_le (m : Nat) : tabB m ≤ 64 := by
  unfold tabB
  split <;> omega

/-- The registers of a table B operand hold its width. -/
theorem tabB_eq_regs (m : Nat) : 32 * (if m = 1 then 2 else 1) = tabB m := by
  unfold tabB
  split <;> rfl

theorem tabB_div (m : Nat) : tabB m / 32 = if m = 1 then 2 else 1 := by
  unfold tabB
  split <;> rfl

section
variable {s : State} {c : WCtx} {f : VF} {l : Nat}

theorem exec_brev (hl : l ∈ c.cs) (hc : warpCtx s (.brev f) = some c) (hr : WarpReady (opBrev f) s c = true) :
    ∃ g, exec (.brev f) s = .next (updWarp s c.wg c.wi g) ∧ vgetN (g c.w) f.d.toNat l (tabB f.m / 32) = brevN (sourceA c (.brev f) l) (tabB f.m) := by
  obtain ⟨g, hexec, hval⟩ := exec_intOp_unary (u := fun a => brevN a (tabB f.m)) (fun _ _ _ => rfl) rfl rfl hc hr hl
  rw [Dst.regs, tabB_eq_regs, Nat.mod_eq_of_lt (brevN_lt _ _)] at hval
  exact ⟨g, hexec, by rw [tabB_div, hval]⟩

theorem exec_popc (hl : l ∈ c.cs) (hc : warpCtx s (.popc f) = some c) (hr : WarpReady (opPopc f) s c = true) :
    ∃ g, exec (.popc f) s = .next (updWarp s c.wg c.wi g) ∧ (vget (g c.w) f.d.toNat l).toNat = popcountN (sourceA c (.popc f) l) (tabB f.m) :=
  exec_intOp_count (u := fun a => popcountN a (tabB f.m)) (fun _ _ _ => rfl) (fun _ => (popcountN_le _ _).trans (tabB_le _)) rfl rfl rfl hc hr hl

theorem exec_clz (hl : l ∈ c.cs) (hc : warpCtx s (.clz f) = some c) (hr : WarpReady (opClz f) s c = true) :
    ∃ g, exec (.clz f) s = .next (updWarp s c.wg c.wi g) ∧ (vget (g c.w) f.d.toNat l).toNat = clzN (sourceA c (.clz f) l) (tabB f.m) :=
  exec_intOp_count (u := fun a => clzN a (tabB f.m)) (fun _ _ _ => rfl) (fun _ => (clzN_le _ _).trans (tabB_le _)) rfl rfl rfl hc hr hl

theorem exec_ctz (hl : l ∈ c.cs) (hc : warpCtx s (.ctz f) = some c) (hr : WarpReady (opCtz f) s c = true) :
    ∃ g, exec (.ctz f) s = .next (updWarp s c.wg c.wi g) ∧ (vget (g c.w) f.d.toNat l).toNat = ctzFrom (sourceA c (.ctz f) l) 0 (tabB f.m) :=
  exec_intOp_count (u := fun a => ctzFrom a 0 (tabB f.m)) (fun _ _ _ => rfl) (fun _ => (ctzFrom_le _ _ _).trans (tabB_le _)) rfl rfl rfl hc hr hl

end

/-- Settles O9: each instruction writes its lane function of operand A, whose bits the lemmas above give by induction on the width. -/
theorem bitCounts : Obligations.BitCounts := by
  unfold Obligations.BitCounts
  intro s c f l hl _
  refine ⟨fun hc hr => ?brev, fun hc hr => ?popc, fun hc hr => ?clz, fun hc hr => ?ctz⟩
  case brev =>
    obtain ⟨g, hexec, hval⟩ := exec_brev hl hc hr
    exact ⟨g, hexec, fun i hi => (congrArg (Nat.testBit · _) hval).trans (testBit_brevN _ _ i hi)⟩
  case popc =>
    obtain ⟨g, hexec, hval⟩ := exec_popc hl hc hr
    exact ⟨g, hexec, hval.trans (popcountN_eq_length_filter _ _)⟩
  case clz =>
    obtain ⟨g, hexec, hval⟩ := exec_clz hl hc hr
    exact ⟨g, hexec, _, clzN_le _ _, hval, fun i => testBit_of_clzN_le _ _ i, testBit_clzN _ _⟩
  case ctz =>
    obtain ⟨g, hexec, hval⟩ := exec_ctz hl hc hr
    refine ⟨g, hexec, _, ctzFrom_le _ _ _, hval, fun i hi => ?_, fun h => ?_⟩
    · simpa using testBit_of_lt_ctzFrom _ 0 _ i hi
    · simpa using testBit_ctzFrom _ 0 _ h

end Sys2Proof.Machine
end

section
/-! A cue thread's handler (family 13_system.md): what entering it leaves (13 R360), what `cresume` with MOD 1 leaves (13 R389), and the obligation O35. -/

namespace Sys2Proof.Machine

/-! ### Entering the handler (13 R360) -/

/-- A workgroup whose cue thread has entered its handler at pc: c63 holds the window's address of the CTRAP slot. -/
def enterCueHandler (pc : VAddr) (k : Workgroup) : Workgroup :=
  { k with cue := { cset k.cue 63 0x1FFFFFD00002000 with inHandler := true, saved := k.cue.clause, clause := none, pc := pc, park := none } }

/-- The record of a cue thread (13 R355, R356): the cue bit of KIND, the task, and c63 in LANES. -/
def cueTrapRec (s : State) (k : Workgroup) (r : TrapRec) : TrapRec :=
  { r with kind := r.kind + 4, task := taskOf s k, lanes := (cget k.cue 63).setWidth 128 }

section
variable {s u : State} {wg : Nat} {k : Workgroup} {g : Grid}

theorem hmaskBit_of_gridOf (hgrid : gridOf s k = some g) (n : Nat) : hmaskBit s k n = g.lrec.hmask.getLsbD n := by
  simp only [hmaskBit, hgrid]

/-- Where c63's line stands in the core, no line is brought back before the record saves it. -/
theorem cueLine3_of_present (hwg : findWg s wg = some k) (hgrid : gridOf s k = some g) (hline : k.missing.contains (cueLine g.lrec 63) = false) :
    cueLine3 s wg = (s, 0) := by
  have hstay : (decide (k.st = .halted) || !k.missing.contains (cueLine g.lrec 63)) = true := by rw [hline, Bool.not_false, Bool.or_true]
  simp only [cueLine3, hwg, hgrid, hstay, if_true]

/-- A cause of a handled class outside the handler neither escalates nor is lost: the record goes to the CTRAP slot and the thread to CHANDLER. -/
theorem takeCue_enters {r : TrapRec} (hwg : findWg s wg = some k) (hgrid : gridOf s k = some g) (hlive : k.st ≠ .halted) (hout : k.cue.inHandler = false)
    (hclass : g.lrec.hmask.getLsbD (causeClass r.cause) = true) (hline : k.missing.contains (cueLine g.lrec 63) = false) :
    takeCue s (.cue wg) r
      = updWg (homeWrite s (k.image + 0x80) (recBytes (cueTrapRec s k r)) 0 none) wg (enterCueHandler (BitVec.ofNat 57 g.lrec.chandler)) := by
  have hhandled : (k.cue.inHandler || !hmaskBit s k (causeClass r.cause)) = false := by
    rw [hmaskBit_of_gridOf hgrid, hclass, hout, Bool.not_true, Bool.or_false]
  simp only [takeCue, cueLine3_of_present hwg hgrid hline, hwg, hgrid, if_neg hlive, ne_eq, not_true_eq_false, if_false, hhandled, Bool.false_eq_true]
  rfl

/-! ### Leaving it (13 R389) -/

/-- A cue thread that goes on from its record: at RPC, with c63 as the record's LANES hold it. -/
def leaveCueHandler (bs : List Byte) (x : Cue) : Cue :=
  let rpc := leNat ((bs.drop 16).take 8)
  { cset x 63 (BitVec.ofNat 64 (leNat ((bs.drop 32).take 8))) with
    inHandler := false, pc := BitVec.ofNat 57 rpc, clause := resumeClause x.saved rpc, saved := none, moved := false }

theorem opCresume_eff_of_record {c : CCtx} {f : QF} {bs : List Byte} (hmod : f.mod ≠ 0) (hrec : cueRecord s c = (some bs, u)) :
    (opCresume f).eff c s = updCue u c.iss (leaveCueHandler bs) := by
  simp only [opCresume, if_neg hmod, hrec]
  rfl

/-- `cresume` with MOD 1, when it executes and its record reads back. -/
theorem exec_cresume_leaves {c : CCtx} {f : QF} {bs : List Byte} (hctx : cueCtx s (.cresume f) = some c) (hready : CueReady (opCresume f) s c = true)
    (hpass : c.pass = true) (hmod : f.mod ≠ 0) (hrec : cueRecord (cueIssued (opCresume f) c s) c = (some bs, u)) :
    exec (.cresume f) s = .next (updCue u c.iss (leaveCueHandler bs)) :=
  calc exec (.cresume f) s
      = cueIssue (opCresume f) s := exec_of_cueOp rfl
    _ = .next ((opCresume f).eff c (cueIssued (opCresume f) c s)) := cueIssue_ready hctx hready hpass
    _ = .next (updCue u c.iss (leaveCueHandler bs)) := by rw [opCresume_eff_of_record hmod hrec]

end

/-- Settles O35: entry by the one branch of `takeCue` that a handled cause takes, and return by the effect of `cresume` on a record that reads back. -/
theorem cueHandlerEntry : Obligations.CueHandlerEntry := by
  unfold Obligations.CueHandlerEntry
  refine ⟨?entry, ?leave⟩
  case entry =>
    intro s wg r k g hwg hgrid hlive hout hclass hline
    exact ⟨_, takeCue_enters hwg hgrid hlive hout hclass hline, rfl⟩
  case leave =>
    intro s c f wg bs u hctx hready hpass hiss hmod hrec
    have hmod0 : f.mod ≠ 0 := by rw [hmod]; decide
    refine ⟨fun k => { k with cue := leaveCueHandler bs k.cue }, ?_, fun _ => rfl⟩
    rw [exec_cresume_leaves hctx hready hpass hmod0 hrec, hiss]
    rfl

end Sys2Proof.Machine
end

section
/-! Encoding and reset (family other): the decoder reads back every canonical instruction of either stream (02 R25, R33 to R44), the words that the spec writes out, and what the registers and the memories hold after reset (15 R422). Obligations O2 to O5. -/

open Sys2Proof.Machine

namespace Sys2Proof.Laws

/-- What the decoder reads from the bytes of an instruction, one lemma of the family for each constructor. -/
theorem Encoding.all : ∀ i, Encoding.Statement i :=
  Instr.rec
    Encoding.add Encoding.sub Encoding.mul Encoding.mulh Encoding.mad Encoding.madw Encoding.min Encoding.max Encoding.abs Encoding.neg Encoding.sad
    Encoding.dot4 Encoding.shl Encoding.shr Encoding.sar Encoding.rot Encoding.and Encoding.or Encoding.xor Encoding.not Encoding.bool3 Encoding.bfx
    Encoding.bfi Encoding.brev Encoding.popc Encoding.clz Encoding.ctz Encoding.cmp Encoding.sel Encoding.mov Encoding.movi Encoding.fadd Encoding.fsub
    Encoding.fmul Encoding.ffma Encoding.fmin Encoding.fmax Encoding.fcmp Encoding.fclass Encoding.frnd Encoding.fscale Encoding.fclamp Encoding.fdiv
    Encoding.fsqrt Encoding.frcp Encoding.frsqrt Encoding.fexp2 Encoding.flog2 Encoding.fsin Encoding.fcos Encoding.ftanh Encoding.fsigm Encoding.pfma
    Encoding.padd Encoding.pmul Encoding.cvt Encoding.qto Encoding.qfrom Encoding.qpack Encoding.qunpk Encoding.bscl Encoding.fsld Encoding.cvtp
    Encoding.lsel Encoding.patld Encoding.poll Encoding.eqset Encoding.wred Encoding.wscan Encoding.lead Encoding.v2s Encoding.tfill Encoding.tread
    Encoding.ldG Encoding.stG Encoding.ldL Encoding.stL Encoding.ldC Encoding.stC Encoding.ldP Encoding.stP Encoding.pf Encoding.fe Encoding.l1wb
    Encoding.l1inv Encoding.kvkey Encoding.atom Encoding.atomf Encoding.cas Encoding.ldres Encoding.stcond Encoding.fence Encoding.forage Encoding.bar
    Encoding.cntwt Encoding.cntadd Encoding.bra Encoding.brx Encoding.call Encoding.callx Encoding.ret Encoding.join Encoding.dqpop Encoding.dqbr
    Encoding.exit Encoding.trap Encoding.brk Encoding.svc Encoding.wake Encoding.sreg Encoding.swreg Encoding.yield Encoding.nop Encoding.resume
    Encoding.twait Encoding.cadd Encoding.csub Encoding.cmul Encoding.cmulh Encoding.cdiv Encoding.cand Encoding.cor Encoding.cxor Encoding.cshl
    Encoding.cshr Encoding.csar Encoding.cmin Encoding.cmax Encoding.cbfx Encoding.cbfi Encoding.cpopc Encoding.cclz Encoding.cmov Encoding.cli
    Encoding.ccmp Encoding.csel Encoding.cb Encoding.cbx Encoding.ccall Encoding.cret Encoding.cld Encoding.cst Encoding.catom Encoding.cfence
    Encoding.dqpush Encoding.launch Encoding.wgbar Encoding.cwait Encoding.cforage Encoding.cmig Encoding.cend Encoding.cslot Encoding.wstat Encoding.tcfg
    Encoding.tld Encoding.tsd Encoding.tzero Encoding.arrw Encoding.arrmm Encoding.arrmmg Encoding.arrdist Encoding.arrbest Encoding.arrcent
    Encoding.adrain Encoding.adrainp Encoding.adraine Encoding.azero Encoding.aload Encoding.txpose Encoding.bcp Encoding.bgat Encoding.bsca Encoding.bexp
    Encoding.bfill Encoding.bpeer Encoding.mop Encoding.xopen Encoding.xclose Encoding.slxp Encoding.rsvfill Encoding.rsvdrop Encoding.rsvq
    Encoding.kvdrop Encoding.kvprio Encoding.rsvset Encoding.ctrap Encoding.cwake Encoding.csreg Encoding.cswreg Encoding.cresume Encoding.iret
    Encoding.chalt Encoding.ctxsv Encoding.ctxld Encoding.tabort Encoding.tcommit Encoding.csvc Encoding.tlbinv Encoding.ptwalk Encoding.pgdup
    Encoding.pgcol Encoding.pgsplit Encoding.pgjoin Encoding.pgmig Encoding.dirq Encoding.dirset Encoding.hostinv Encoding.illegalOpcode
    Encoding.memoryAccessCompletion Encoding.vsfuCompletion Encoding.executionPointOperation Encoding.writeBackMerge Encoding.fetchFill
    Encoding.returnAddressRefill Encoding.contextLineRefill Encoding.fullEmptyServe Encoding.counterWaitSatisfied Encoding.decisionQueuePop
    Encoding.dqpushWrite Encoding.engineCommandStart Encoding.arrayCommandStart Encoding.planeLoad Encoding.streamRowResult Encoding.commandCompletion
    Encoding.deliveryUnitAdvance Encoding.collectiveCompletion Encoding.adrainpRowArrival Encoding.contributionAccept Encoding.xcloseAtSlice
    Encoding.tableWalk Encoding.nestQueueAppend Encoding.queueServe Encoding.launchEntryAccept Encoding.copyBlockAccept Encoding.warpEnd
    Encoding.sliceLineReturn Encoding.cueThreadEnd Encoding.workgroupEnd Encoding.gridRetirement Encoding.taking Encoding.imageAreaWrite
    Encoding.registerLineEviction Encoding.migrationMessage Encoding.serviceReply Encoding.errorQueueDropReport Encoding.reservationTimeout
    Encoding.joinDeadline Encoding.yieldExpiry Encoding.workgroupPlacement Encoding.agingTick Encoding.resumption Encoding.migrationFallback
    Encoding.preemptionTimeout Encoding.serviceTimeout Encoding.sensorRefresh Encoding.governorInterval Encoding.governorHoldLimit Encoding.diePowerOff
    Encoding.dieReturn Encoding.combLineError Encoding.machineCheckEvent Encoding.directoryErrorRecovery Encoding.startUp Encoding.attestation
    Encoding.mwakeWrite Encoding.queueWakeWrite Encoding.queueEnable Encoding.queueDisable Encoding.wshareUpdate Encoding.registerWrite Encoding.hostRead
    Encoding.hostWrite Encoding.hostRecall Encoding.readMsg Encoding.writeMsg Encoding.atomicMsg Encoding.grant Encoding.probeInv Encoding.probeRecall
    Encoding.probeSplit Encoding.probeAll Encoding.ack Encoding.forwardedCommand Encoding.packet Encoding.nak Encoding.linkRetryThreshold
    Encoding.linkDown Encoding.linkUp

end Sys2Proof.Laws

namespace Sys2Proof.Machine

/-- Settles O3, from the lemma of each constructor. -/
theorem decodeEncode : Obligations.DecodeEncode := by
  unfold Obligations.DecodeEncode
  intro i rest hcanon
  exact ⟨fun hwarp hlegal => (Laws.Encoding.all i hcanon hlegal rest).1 hwarp, fun hcue hlegal => (Laws.Encoding.all i hcanon hlegal rest).2 hcue⟩

/-- Settles O2: the decoder evaluated on each word. -/
theorem decodeWords : Obligations.DecodeWords := by
  unfold Obligations.DecodeWords
  refine ⟨?fence, ?exit, ?trap, ?ctrap, ?twait⟩
  case fence => exact ⟨_, rfl, by decide, by decide, by decide, by decide⟩
  case exit => exact ⟨_, rfl, by decide, by decide⟩
  case trap => exact ⟨_, rfl, by decide, by decide⟩
  case ctrap => exact ⟨_, rfl, by decide⟩
  case twait => exact ⟨_, rfl, by decide, by decide⟩

/-! ### The register map at reset -/

theorem SMap.get_of_not_key {w : Nat} {m : SMap w} {k : Nat} (h : ∀ p ∈ m, p.1 ≠ k) : m.get k = 0 := by
  induction m with
  | nil => rfl
  | cons p r ih =>
    obtain ⟨hp, hr⟩ := List.forall_mem_cons.mp h
    exact (if_neg hp).trans (ih hr)

/-- No register but the listed ones reads other than zero: the six of the table's first rows, DIESTAT and COLSTAT. -/
theorem reset_mreg_zero {off : Nat} (h : off / 8 ∉ [0, 2, 3, 6, 7, 11]) (hdie : off / 8 < 32 ∨ 48 ≤ off / 8) (hcol : off / 8 < 128 ∨ 1152 ≤ off / 8) : mreg State.reset off = 0 := by
  have hkeys : ∀ p ∈ State.resetRegs, p.1 ≠ off / 8 := by
    simp only [State.resetRegs, List.mem_append, List.mem_map, List.mem_range]
    rintro p ((hp | ⟨d, hd, rfl⟩) | ⟨d, hd, rfl⟩)
    · intro hk
      exact h (hk ▸ List.mem_map_of_mem (f := Prod.fst) hp)
    · show 32 + d ≠ off / 8
      omega
    · show 128 + d ≠ off / 8
      omega
  exact congrArg BitVec.toNat (SMap.get_of_not_key hkeys)

theorem regRead_route {s : State} {k : Nat} (hk : k < 64) : regRead s (0x200 + 8 * k) 8 = mreg s (0x200 + 8 * k) := by
  have hlisted : regListed ((0x200 + 8 * k) / 8 * 8) = true := by
    simp only [regListed, Bool.and_eq_true, Bool.or_eq_true, decide_eq_true_eq]
    omega
  have hqueue : ¬(Reg.QUEUE ≤ 0x200 + 8 * k ∧ 0x200 + 8 * k < 0x4000) := by
    have hoff : Reg.QUEUE = 0x3000 := rfl
    omega
  unfold regRead
  rw [if_neg (by omega), if_neg hqueue, if_neg (by simp [hlisted]), if_pos rfl]

theorem regRead_queue {s : State} {q j : Nat} (hq : q < 256) (hj : j < 4) : regRead s (0x3000 + 16 * q + 4 * j) 4 = qreg s q j := by
  have hfield : (0x3000 + 16 * q + 4 * j) / 4 % 4 = j := by omega
  have hqueue : (0x3000 + 16 * q + 4 * j - 0x3000) / 16 = q := by omega
  simp only [regRead, Reg.QUEUE, hfield, hqueue]
  rw [if_neg (by omega), if_pos (by omega)]
  rfl

theorem reset_qreg_zero (q j : Nat) : qreg State.reset q j = 0 := by
  have hzero : mreg State.reset (Reg.QUEUE + 16 * q + j / 2 * 8) = 0 := by
    have hoff : Reg.QUEUE = 0x3000 := rfl
    refine reset_mreg_zero ?_ (by omega) (by omega)
    simp only [List.mem_cons, List.not_mem_nil, or_false]
    omega
  rw [qreg, hzero, Nat.zero_div, Nat.zero_mod]

/-- Settles O4: the listed registers by evaluation; ROUTE and the queue blocks lie at offsets that the reset map does not list. -/
theorem resetRegisters : Obligations.ResetRegisters := by
  unfold Obligations.ResetRegisters
  refine ⟨by decide +kernel, by decide +kernel, by decide +kernel, by decide +kernel, by decide +kernel, by decide +kernel, ?route, ?queue⟩
  case route =>
    intro k hk
    refine (regRead_route hk).trans (reset_mreg_zero ?_ (by omega) (by omega))
    simp only [List.mem_cons, List.not_mem_nil, or_false]
    omega
  case queue =>
    intro q hq j hj
    rw [regRead_queue hq hj, reset_qreg_zero]

/-- Settles O5. -/
theorem resetSound : Obligations.ResetSound := reset_wf

end Sys2Proof.Machine
end

section
/-! The canonical form of the three memories is kept (family other): no step of the model leaves a memory that is not in canonical form, and no step stops. Obligations O6 and O7. One lemma for each function of the model that answers a state, named after it with `_wf`; they are tagged `simp`, and each is proved from those of the functions it calls. -/

open Sys2Proof

namespace Sys2Proof.Machine

/-! ### What is kept -/

/-- The canonical form of three memories. -/
def memsWf (mem host ls : Mem) : Bool := Memory.wf mem && Memory.wf host && Memory.wf ls
/-- A unit of a command leaves memories in canonical form. -/
def Run.Wf : Run → Prop
  | .go s => s.wf = true
  | .stop s _ _ => s.wf = true
  | .wait => True
/-- A plan's state has memories in canonical form. -/
def Plan.Wf : Plan → Prop
  | .done s => s.wf = true
  | .run _ s => s.wf = true
/-- From a state, an answer goes on, and keeps the canonical form. -/
def Sound (s : State) (o : Host.Outcome State Fault Refusal) : Prop := ∃ t, o = .next t ∧ (s.wf = true → t.wf = true)

@[simp] theorem memsWf_state (s : State) : memsWf s.mem s.hostMem s.lstore = s.wf := rfl
@[simp] theorem State.wf_mk {clk fresh cur agenda port rota passes stages cueNext softErrors badEntries flash part mregs wshare errDropped measure govTicks dieAlarm dieOff queues rounds
      nextGrid nextId grids wgs mgmt flights cmds locks planes exclusion resv groups serials mem memSynd comb keyPrio hostMem lstore lsSynd lsFull l1 tlb icache busy hostLines ports outbox awaits inbox} :
    (State.mk clk fresh cur agenda port rota passes stages cueNext softErrors badEntries flash part mregs wshare errDropped measure govTicks dieAlarm dieOff queues rounds
      nextGrid nextId grids wgs mgmt flights cmds locks planes exclusion resv groups serials mem memSynd comb keyPrio hostMem lstore lsSynd lsFull l1 tlb icache busy hostLines ports outbox awaits inbox).wf
      = memsWf mem hostMem lstore := rfl
@[simp] theorem memsWf_host_setList {s : State} (h : s.wf = true) (a : Nat) (bs : List Byte) : memsWf s.mem (SMap.setList (w := 8) s.hostMem a bs) s.lstore = true := hostWrite_wf a bs h
@[simp] theorem memsWf_host_setAll {s : State} (h : s.wf = true) (l : List (Nat × Byte)) : memsWf s.mem (SMap.setAll (w := 8) s.hostMem l) s.lstore = true := by
  simp only [State.wf, Bool.and_eq_true, memsWf] at h ⊢
  exact ⟨⟨h.1.1, Memory.wf_setAll l h.1.2⟩, h.2⟩
@[simp] theorem Run.wf_go (s : State) : (Run.go s).Wf ↔ s.wf = true := Iff.rfl
@[simp] theorem Run.wf_stop (s : State) (c : Cause) (a : BitVec 64) : (Run.stop s c a).Wf ↔ s.wf = true := Iff.rfl
@[simp] theorem Run.wf_wait : Run.wait.Wf := trivial
@[simp] theorem Plan.wf_done (s : State) : (Plan.done s).Wf ↔ s.wf = true := Iff.rfl
@[simp] theorem Plan.wf_run (i : Instr) (s : State) : (Plan.run i s).Wf ↔ s.wf = true := Iff.rfl
@[simp] theorem sound_next (s t : State) : Sound s (.next t) ↔ (s.wf = true → t.wf = true) := by simp [Sound]
theorem Sound.wf {s t : State} {o : Host.Outcome State Fault Refusal} (h : Sound s o) (heq : o = .next t) (hs : s.wf = true) : t.wf = true := by
  obtain ⟨u, hu, hwf⟩ := h
  cases hu.symm.trans heq
  exact hwf hs
@[simp] theorem Run.wf_andThen {r : Run} {f : State → Run} (hr : r.Wf) (hf : ∀ t, t.wf = true → (f t).Wf) : (r.andThen f).Wf := by
  cases r with
  | go t => exact hf t hr
  | stop t c a => exact hr
  | wait => trivial
/-- Units one after another, each of which keeps the form. -/
@[simp] theorem runList_wf {α : Type} {f : State → α → Run} {l : List α} {s : State} (hf : ∀ t a, t.wf = true → (f t a).Wf) (hs : s.wf = true) : (runList f l s).Wf := by
  induction l generalizing s with
  | nil => exact hs
  | cons a r ih =>
    have hstep := hf s a hs
    unfold runList
    split
    case h_1 t heq => exact ih (by rw [heq] at hstep; exact hstep)
    case h_2 => exact hstep
@[simp] theorem homeWrite_keeps {s : State} (h : s.wf = true) (pa : Nat) (bs : List Byte) (key : BitVec 16) (who : Option Agent) : (homeWrite s pa bs key who).wf = true := homeWrite_wf pa bs key who h
@[simp] theorem homeMerge_keeps {s : State} (h : s.wf = true) (line : Nat) (mask : BitVec 128) (d : BitVec 1024) (key : BitVec 16) (who : Option Agent) : (homeMerge s line mask d key who).wf = true := homeMerge_wf line mask d key who h
@[simp] theorem lsWrite_keeps {s : State} (h : s.wf = true) (a : Nat) (bs : List Byte) : (lsWrite s a bs).wf = true := lsWrite_wf a bs h
@[simp] theorem feSet_keeps {s : State} (h : s.wf = true) (g : Nat) (b : Bool) : (feSet s g b).wf = true := h
@[simp] theorem carrySynd_keeps {s : State} (h : s.wf = true) (src dst : Nat) (l : List (BitVec 16)) : (carrySynd s src dst l).wf = true := carrySynd_wf src dst l h
/-- Updates one after another, each of which keeps the form. -/
@[simp] theorem foldl_keeps {α : Type} {f : State → α → State} {l : List α} {s : State} (hf : ∀ t a, t.wf = true → (f t a).wf = true) (h : s.wf = true) : (l.foldl f s).wf = true := foldl_wf f hf l h
@[simp] theorem foldl_snd_keeps {α β : Type} {f : β × State → α → β × State} {l : List α} {p : β × State} (hf : ∀ t a, t.2.wf = true → (f t a).2.wf = true) (h : p.2.wf = true) : (l.foldl f p).2.wf = true := by
  induction l generalizing p with
  | nil => exact h
  | cons a r ih => exact ih (hf _ _ h)
@[simp] theorem foldl_third_keeps {α β γ : Type} {f : β × γ × State → α → β × γ × State} {l : List α} {p : β × γ × State} (hf : ∀ t a, t.2.2.wf = true → (f t a).2.2.wf = true) (h : p.2.2.wf = true) :
    (l.foldl f p).2.2.wf = true := by
  induction l generalizing p with
  | nil => exact h
  | cons a r ih => exact ih (hf _ _ h)
theorem fresh_keeps {s : State} (h : s.wf = true) (n : Nat) : State.wf { s with fresh := n } = true := h
theorem badEntries_keeps {s : State} (h : s.wf = true) (l : List Nat) : State.wf { s with badEntries := l } = true := h
@[simp] theorem wf_ite {p : Prop} [Decidable p] {s t : State} (hs : p → s.wf = true) (ht : ¬p → t.wf = true) : (if p then s else t).wf = true := by
  split <;> simp_all

@[simp] theorem updWg_wf {s : State} (id : ℕ) (f : Workgroup → Workgroup) (hs : s.wf = true) : (updWg s id f).wf = true := by
  simp +contextual [updWg, *]
@[simp] theorem updWarp_wf {s : State} (wg : ℕ) (i : ℕ) (f : Warp → Warp) (hs : s.wf = true) : (updWarp s wg i f).wf = true := by
  simp +contextual [updWarp, *]
@[simp] theorem addFlight_wf {s : State} (who : Issuer) (pc : VAddr) (look : ℕ) (kind : FlightKind) (hs : s.wf = true) : (addFlight s who pc look kind).2.wf = true := by
  simp +contextual [addFlight, *]
@[simp] theorem updThreads_wf {s : State} (wg : ℕ) (i : ℕ) (lanes : List ℕ) (f : Thread → Thread) (hs : s.wf = true) : (updThreads s wg i lanes f).wf = true := by
  simp +contextual [updThreads, *]
@[simp] theorem openIn_wf {s : State} (c : WCtx) (lanes : List ℕ) (flight : ℕ) (look : ℕ) (u : Use) (isSvc : Bool) (isPriv : Bool) (hs : s.wf = true) : (openIn s c lanes flight look u isSvc isPriv).wf = true := by
  simp +contextual [openIn, *]
@[simp] theorem openWindow_wf {s : State} (c : WCtx) (flight : ℕ) (look : ℕ) (u : Use) (isSvc : Bool) (isPriv : Bool) (hs : s.wf = true) : (openWindow s c flight look u isSvc isPriv).wf = true := by
  simp +contextual [openWindow, *]
@[simp] theorem launchFlight_wf {s : State} (c : WCtx) (i : Instr) (kind : FlightKind) (isSvc : Bool) (isPriv : Bool) (hs : s.wf = true) : (launchFlight s c i kind isSvc isPriv).wf = true := by
  simp +contextual [launchFlight, *]
@[simp] theorem emptyFlight_wf {s : State} (c : WCtx) (i : Instr) (isSvc : Bool) (isPriv : Bool) (hs : s.wf = true) : (emptyFlight s c i isSvc isPriv).wf = true := by
  simp +contextual [emptyFlight, *]
@[simp] theorem softTake_wf {s : State} (lo : ℕ) (hi : ℕ) (hs : s.wf = true) : (softTake s lo hi).2.wf = true := by
  unfold softTake
  split <;> simp +contextual [*]
@[simp] theorem updPort_wf {s : State} (p : ℕ) (f : Port → Port) (hs : s.wf = true) : (updPort s p f).wf = true := by
  simp +contextual [updPort, *]
@[simp] theorem offerPort_wf {s : State} (p : ℕ) (m : Msg) (hs : s.wf = true) : (offerPort s p m).wf = true := by
  unfold offerPort
  split <;> simp +contextual [*]
@[simp] theorem routeMsg_wf {s : State} (m : Msg) (hs : s.wf = true) : (routeMsg s m).wf = true := by
  unfold routeMsg
  split <;> simp +contextual [*]
@[simp] theorem postMsg_wf {s : State} (m : Msg) (hs : s.wf = true) : (postMsg s m).wf = true := by
  simp +contextual [postMsg, *]
@[simp] theorem askPeer_wf {s : State} (a : Asker) (m : Msg) (hs : s.wf = true) : (askPeer s a m).wf = true := by
  simp +contextual [askPeer, *]
@[simp] theorem peerPoint_wf {s : State} (p : Point) (o : LaneOp) (pa : ℕ) (n : ℕ) (hs : s.wf = true) : (peerPoint s p o pa n).2.2.wf = true := by
  simp +contextual [peerPoint, *]
@[simp] theorem combUse_wf {s : State} (line : ℕ) (mask : BitVec 128) (key : BitVec 16) (hs : s.wf = true) : (combUse s line mask key).wf = true := by
  simp +contextual [combUse, *]
@[simp] theorem combRead_wf {s : State} (pa : ℕ) (n : ℕ) (key : BitVec 16) (hs : s.wf = true) : (combRead s pa n key).wf = true := by
  unfold combRead
  split <;> simp +contextual [*]
@[simp] theorem sendMsg_wf {s : State} (dst : ℕ) (kind : BitVec 6) (page : ℕ) (seq : BitVec 16) (aux : ℕ) (data : List Byte) (hs : s.wf = true) : (sendMsg s dst kind page seq aux data).wf = true := by
  simp +contextual [sendMsg, *]
@[simp] theorem peerRead_wf {s : State} (pa : ℕ) (n : ℕ) (hs : s.wf = true) : (peerRead s pa n).2.wf = true := by
  simp +contextual [peerRead, *]
@[simp] theorem behindRead_wf {s : State} (loc : Loc) (n : ℕ) (key : BitVec 16) (hs : s.wf = true) : (behindRead s loc n key).2.2.wf = true := by
  unfold behindRead
  (repeat' split) <;> grind [combRead_wf, peerRead_wf, foldl_keeps, State.wf_mk, memsWf_state]
@[simp] theorem pointRead_wf {s : State} (p : Point) (o : LaneOp) (n : ℕ) (hs : s.wf = true) : (pointRead s p o n).2.2.wf = true := by
  unfold pointRead
  split <;> simp +contextual [*]
@[simp] theorem setMreg_wf {s : State} (off : ℕ) (v : ℕ) (hs : s.wf = true) : (setMreg s off v).wf = true := by
  simp +contextual [setMreg, *]
@[simp] theorem setQreg_wf {s : State} (q : ℕ) (f : ℕ) (v : ℕ) (hs : s.wf = true) : (setQreg s q f v).wf = true := by
  simp +contextual [setQreg, *]
@[simp] theorem chaltRelease_wf {s : State} (m : ℕ) (hs : s.wf = true) : (chaltRelease s m).wf = true := by
  unfold chaltRelease
  (repeat' split) <;> simp +contextual [*]
@[simp] theorem wakeOr_wf {s : State} (target : ℕ) (v : ℕ) (hs : s.wf = true) : (wakeOr s target v).wf = true := by
  unfold wakeOr
  (repeat' split) <;> simp +contextual [*]
@[simp] theorem queueWrite_wf {s : State} (q : ℕ) (f : ℕ) (v : ℕ) (hs : s.wf = true) : (queueWrite s q f v).wf = true := by
  unfold queueWrite
  (repeat' split) <;> simp +contextual [*]
@[simp] theorem regStore_wf {s : State} (off : ℕ) (n : ℕ) (v : ℕ) (hs : s.wf = true) : (regStore s off n v).wf = true := by
  unfold regStore
  (repeat' split) <;> simp +contextual [*]
@[simp] theorem regWrite_wf {s : State} (off : ℕ) (n : ℕ) (v : ℕ) (hs : s.wf = true) : (regWrite s off n v).wf = true := by
  unfold regWrite
  split <;> simp +contextual [*]
@[simp] theorem takePair_wf {s : State} (pair : ℕ) (hs : s.wf = true) : (takePair s pair).wf = true := by
  simp +contextual [takePair, *]
@[simp] theorem endResv_wf {s : State} (g : ℕ) (who : Option Agent) (hs : s.wf = true) : (endResv s g who).wf = true := by
  simp +contextual [endResv, *]
@[simp] theorem errWrite_wf {s : State} (bs : List Byte) (hs : s.wf = true) : (errWrite s bs).wf = true := by
  unfold errWrite
  grind [homeWrite_keeps, wakeOr_wf, setMreg_wf, foldl_keeps, State.wf_mk, memsWf_state]
@[simp] theorem errReport_wf {s : State} (hs : s.wf = true) : (errReport s).wf = true := by
  simp +contextual [errReport, *]
@[simp] theorem postEntry_wf {s : State} (bs : List Byte) (hs : s.wf = true) : (postEntry s bs).wf = true := by
  simp only [postEntry]
  split <;> simp [hs]
@[simp] theorem postRec_wf {s : State} (r : TrapRec) (wg : Option ℕ) (hs : s.wf = true) : (postRec s r wg).wf = true := by
  unfold postRec
  split <;> simp +contextual [*]
@[simp] theorem postAsync_wf {s : State} (cause : Cause) (addr : BitVec 64) (wg : Option ℕ) (hs : s.wf = true) : (postAsync s cause addr wg).wf = true := by
  simp +contextual [postAsync, *]
@[simp] theorem colRead_wf {s : State} (c : ℕ) (v : BitVec 16) (hs : s.wf = true) : (colRead s c v).wf = true := by
  unfold colRead
  (repeat' split) <;> grind [setMreg_wf, takePair_wf, postAsync_wf, foldl_keeps, State.wf_mk, memsWf_state]
@[simp] theorem reclass_wf {s : State} (hs : s.wf = true) : (reclass s).wf = true := by
  unfold reclass
  grind [colRead_wf, foldl_keeps, State.wf_mk, memsWf_state]
@[simp] theorem updQueue_wf {s : State} (q : ℕ) (f : QueueSt → QueueSt) (hs : s.wf = true) : (updQueue s q f).wf = true := by
  simp +contextual [updQueue, *]
@[simp] theorem disableQueue_wf {s : State} (q : ℕ) (hs : s.wf = true) : (disableQueue s q).wf = true := by
  unfold disableQueue
  (repeat' split) <;> grind [postAsync_wf, updQueue_wf, setQreg_wf, foldl_keeps, State.wf_mk, memsWf_state]
@[simp] theorem mapWrite_wf {s : State} (off : ℕ) (n : ℕ) (v : ℕ) (hs : s.wf = true) : (mapWrite s off n v).wf = true := by
  unfold mapWrite
  (repeat' split) <;> grind [regWrite_wf, reclass_wf, disableQueue_wf, foldl_keeps, State.wf_mk, memsWf_state]
@[simp] theorem peerWrite_wf {s : State} (a : Asker) (pa : ℕ) (bs : List Byte) (caps : List (BitVec 16)) (hs : s.wf = true) : (peerWrite s a pa bs caps).wf = true := by
  simp +contextual [peerWrite, *]
@[simp] theorem behindWrite_wf {s : State} (iss : Issuer) (lane : ℕ) (loc : Loc) (bs : List Byte) (key : BitVec 16) (at_ : optParam (VAddr × BitVec 64) (0, 0)) (hs : s.wf = true) : (behindWrite s iss lane loc bs key at_).wf = true := by
  unfold behindWrite
  split <;> simp +contextual [*]
@[simp] theorem pointWrite_wf {s : State} (p : Point) (o : LaneOp) (bs : List Byte) (hs : s.wf = true) : (pointWrite s p o bs).wf = true := by
  unfold pointWrite
  split <;> simp +contextual [*]
@[simp] theorem rmw_wf {s : State} (p : Point) (o : LaneOp) (n : ℕ) (consumer : ℕ) (fn : ℕ → Option ℕ × OpOut) (hs : s.wf = true) : (rmw s p o n consumer fn).2.wf = true := by
  unfold rmw
  (repeat' split) <;> grind [pointRead_wf, pointWrite_wf, foldl_keeps, State.wf_mk, memsWf_state]
@[simp] theorem dropResv_wf {s : State} (a : Agent) (hs : s.wf = true) : (dropResv s a).wf = true := by
  simp +contextual [dropResv, *]
@[simp] theorem addResv_wf {s : State} (a : Agent) (pa : ℕ) (hs : s.wf = true) : (addResv s a pa).wf = true := by
  simp +contextual [addResv, *]
@[simp] theorem dropClaim_wf {s : State} (flight : ℕ) (a : Agent) (hs : s.wf = true) : (dropClaim s flight a).wf = true := by
  simp +contextual [dropClaim, *]
@[simp] theorem peerMerge_wf {s : State} (l : L1Line) (mask : BitVec 128) (hs : s.wf = true) : (peerMerge s l mask).wf = true := by
  unfold peerMerge
  grind [peerWrite_wf, foldl_keeps, State.wf_mk, memsWf_state]
@[simp] theorem backMerge_wf {s : State} (l : L1Line) (mask : BitVec 128) (hs : s.wf = true) : (backMerge s l mask).wf = true := by
  simp only [backMerge]
  split
  · exact peerMerge_wf l mask hs
  · split
    · exact memsWf_host_setAll hs _
    · exact homeMerge_keeps hs _ _ _ _ _
@[simp] theorem l1DropGranule_wf {s : State} (core : ℕ) (a : ℕ) (n : ℕ) (hs : s.wf = true) : (l1DropGranule s core a n).wf = true := by
  unfold l1DropGranule
  split <;> simp +contextual [*]
@[simp] theorem l1Del_wf {s : State} (core : ℕ) (line : ℕ) (hs : s.wf = true) : (l1Del s core line).wf = true := by
  simp +contextual [l1Del, *]
@[simp] theorem l1WriteBack_wf {s : State} (l : L1Line) (hs : s.wf = true) : (l1WriteBack s l).wf = true := by
  simp +contextual [l1WriteBack, *]
@[simp] theorem l1Room_wf {s : State} (core : ℕ) (line : ℕ) (hs : s.wf = true) : (l1Room s core line).wf = true := by
  unfold l1Room
  grind [l1Del_wf, l1WriteBack_wf, foldl_keeps, State.wf_mk, memsWf_state]
@[simp] theorem l1Take_wf {s : State} (core : ℕ) (line : ℕ) (imm : Bool) (hs : s.wf = true) : (l1Take s core line imm).2.wf = true := by
  unfold l1Take
  split <;> simp +contextual [*]
@[simp] theorem l1Put_wf {s : State} (l : L1Line) (hs : s.wf = true) : (l1Put s l).wf = true := by
  simp +contextual [l1Put, *]
@[simp] theorem l1Write_wf {s : State} (core : ℕ) (a : ℕ) (bs : List Byte) (key : BitVec 16) (imm : Bool) (hs : s.wf = true) : (l1Write s core a bs key imm).wf = true := by
  simp +contextual [l1Write, *]
@[simp] theorem l1Sign_wf {s : State} (core : ℕ) (a : ℕ) (n : ℕ) (who : Issuer) (pc : VAddr) (addr : BitVec 64) (hs : s.wf = true) : (l1Sign s core a n who pc addr).wf = true := by
  simp +contextual [l1Sign, *]
@[simp] theorem cachedWrite_wf {s : State} (iss : Issuer) (lane : ℕ) (core : ℕ) (a : ℕ) (bs : List Byte) (key : BitVec 16) (imm : Bool) (at_ : VAddr × BitVec 64) (hs : s.wf = true) : (cachedWrite s iss lane core a bs key imm at_).wf = true := by
  unfold cachedWrite
  split <;> simp +contextual [*]
@[simp] theorem plainStore_wf {s : State} (iss : Issuer) (key : BitVec 16) (lane : ℕ) (loc : Loc) (t : Trans) (bs : List Byte) (home : Bool) (at_ : optParam (VAddr × BitVec 64) (0, 0)) (hs : s.wf = true) : (plainStore s iss key lane loc t bs home at_).wf = true := by
  unfold plainStore
  (repeat' split) <;> simp +contextual [*]
@[simp] theorem storePoint_wf {s : State} (p : Point) (o : LaneOp) (n : ℕ) (hs : s.wf = true) : (storePoint s p o n).2.wf = true := by
  simp +contextual [storePoint, *]
@[simp] theorem forageAt_wf {s : State} (p : Point) (o : LaneOp) (out : ℕ → ℕ → List RegWrite) (hs : s.wf = true) : (forageAt s p o out).2.wf = true := by
  unfold forageAt
  (repeat' split) <;> grind [pointRead_wf, pointWrite_wf, foldl_keeps, State.wf_mk, memsWf_state]
@[simp] theorem advance_wf {s : State} (a : ℕ) (by_ : ℤ) (hs : s.wf = true) : (advance s a by_).2.wf = true := by
  unfold advance
  (repeat' split) <;> grind [lsWrite_keeps, foldl_keeps, State.wf_mk, memsWf_state]
@[simp] theorem pointOp_wf {s : State} (p : Point) (o : LaneOp) (hs : s.wf = true) : (pointOp s p o).2.wf = true := by
  unfold pointOp
  (repeat' split) <;> grind [rmw_wf, addResv_wf, dropResv_wf, peerPoint_wf, dropClaim_wf, pointWrite_wf, storePoint_wf, forageAt_wf, advance_wf, foldl_keeps, State.wf_mk, memsWf_state]
@[simp] theorem l1FreshGranule_wf {s : State} (core : ℕ) (a : ℕ) (n : ℕ) (hs : s.wf = true) : (l1FreshGranule s core a n).wf = true := by
  simp +contextual [l1FreshGranule, *]
@[simp] theorem pointFresh_wf {s : State} (iss : Issuer) (loc : Loc) (n : ℕ) (hs : s.wf = true) : (pointFresh s iss loc n).wf = true := by
  unfold pointFresh
  split <;> simp +contextual [*]
@[simp] theorem nameAwaits_wf {s : State} (from_ : ℕ) (pc : VAddr) (a : BitVec 64) (hs : s.wf = true) : (nameAwaits s from_ pc a).wf = true := by
  simp +contextual [nameAwaits, *]
@[simp] theorem l1Inv_wf {s : State} (core : ℕ) (hs : s.wf = true) : (l1Inv s core).wf = true := by
  simp +contextual [l1Inv, *]
@[simp] theorem acquire_wf {s : State} (iss : Issuer) (obs : BitVec 7) (hs : s.wf = true) : (acquire s iss obs).wf = true := by
  unfold acquire
  split <;> simp +contextual [*]
@[simp] theorem runOps_wf {s : State} (f : Flight) (hs : s.wf = true) : (runOps s f).wf = true := by
  unfold runOps
  split
  case h_2 => exact hs
  case h_1 i ops key heq =>
    have hsoft : (match pointSoft i with
      | some x => softTake s x x
      | none => (none, s)).2.wf = true := by
      split
      · exact softTake_wf _ _ hs
      · exact hs
    have hpoint : ∀ acc : OpOut × State, ∀ o : LaneOp, acc.2.wf = true →
        (nameAwaits (pointOp (pointFresh acc.2 f.who o.loc 32) { iss := f.who, i := i, key := key, flight := f.id } o).2 acc.2.nextId f.pc o.va).wf = true :=
      fun acc o ht => nameAwaits_wf _ _ _ (pointOp_wf _ _ (pointFresh_wf _ _ _ ht))
    have hdone : ∀ acq : Bool, ∀ u : State, u.wf = true → (if acq then acquire u f.who (pointOrder i).2 else u).wf = true :=
      fun acq u hu => wf_ite (fun _ => acquire_wf _ _ hu) fun _ => hu
    refine hdone _ _ ?_
    split
    · exact hsoft
    · exact foldl_snd_keeps hpoint hsoft
@[simp] theorem runPoint_wf {s : State} (f : Flight) (hs : s.wf = true) : (runPoint s f).wf = true := by
  unfold runPoint
  grind [runOps_wf, foldl_keeps, State.wf_mk, memsWf_state]
@[simp] theorem drainFor_wf {s : State} (iss : Issuer) (locs : List Loc) (hs : s.wf = true) : (drainFor s iss locs).wf = true := by
  simp +contextual [drainFor, *]
@[simp] theorem drainCore_wf {s : State} (iss : Issuer) (hs : s.wf = true) : (drainCore s iss).wf = true := by
  unfold drainCore
  split <;> simp +contextual [*]
@[simp] theorem beforeAccess_wf {s : State} (iss : Issuer) (ps : List (Loc × Trans)) (hs : s.wf = true) : (beforeAccess s iss ps).wf = true := by
  unfold beforeAccess
  split <;> simp +contextual [*]
@[simp] theorem backRead_wf {s : State} (line : ℕ) (key : BitVec 16) (hs : s.wf = true) : (backRead s line key).2.wf = true := by
  unfold backRead
  grind [peerRead_wf, combRead_wf, foldl_keeps, State.wf_mk, memsWf_state]
@[simp] theorem l1Fill_wf {s : State} (l : L1Line) (key : BitVec 16) (hs : s.wf = true) : (l1Fill s l key).2.wf = true := by
  unfold l1Fill
  (repeat' split) <;> grind [backRead_wf, foldl_keeps, State.wf_mk, memsWf_state]
@[simp] theorem l1Read_wf {s : State} (core : ℕ) (a : ℕ) (n : ℕ) (imm : Bool) (key : BitVec 16) (hs : s.wf = true) : (l1Read s core a n imm key).2.2.wf = true := by
  unfold l1Read
  (repeat' split) <;> grind [l1Take_wf, l1Fill_wf, l1Put_wf, foldl_keeps, State.wf_mk, memsWf_state]
@[simp] theorem cachedRead_wf {s : State} (iss : Issuer) (loc : Loc) (a : ℕ) (t : Trans) (n : ℕ) (home : Bool) (hs : s.wf = true) : (cachedRead s iss loc a t n home).2.2.wf = true := by
  unfold cachedRead
  (repeat' split) <;> grind [behindRead_wf, l1Read_wf, foldl_keeps, State.wf_mk, memsWf_state]
@[simp] theorem loadAt_wf {s : State} (iss : Issuer) (loc : Loc) (t : Trans) (n : ℕ) (home : Bool) (hs : s.wf = true) : (loadAt s iss loc t n home).2.2.wf = true := by
  unfold loadAt
  (repeat' split) <;> grind [cachedRead_wf, behindRead_wf, foldl_keeps, State.wf_mk, memsWf_state]
@[simp] theorem takeLane_wf {s : State} (iss : Issuer) (f : MF) (sp : Space) (lane : ℕ) (a : ℕ) (loc : Loc) (t : Trans) (hs : s.wf = true) : (takeLane s iss f sp lane a loc t).2.wf = true := by
  unfold takeLane
  (repeat' split) <;> grind [loadAt_wf, foldl_keeps, State.wf_mk, memsWf_state]
@[simp] theorem feServe_wf {s : State} (iss : Issuer) (f : MF) (sp : Space) (id : ℕ) (waiting : List LaneOp) (hs : s.wf = true) : (feServe s iss f sp id waiting).2.2.wf = true := by
  unfold feServe
  refine foldl_third_keeps (fun acc o ht => ?_) hs
  obtain ⟨out, left, t⟩ := acc
  dsimp only at ht ⊢
  have htake := fun loc => takeLane_wf iss f sp o.lane o.va.toNat loc Trans_none ht
  split
  · split
    · exact wf_ite (fun _ => feSet_keeps (htake _) _ _) fun _ => htake _
    · exact ht
  · exact ht
@[simp] theorem tlbFill_wf {s : State} (core : ℕ) (asid : BitVec 16) (va : ℕ) (t : Trans) (hs : s.wf = true) : (tlbFill s core asid va t).wf = true := by
  simp +contextual [tlbFill, *]
@[simp] theorem touchTlb_wf {s : State} (iss : Issuer) (va : ℕ) (t : Trans) (hs : s.wf = true) : (touchTlb s iss va t).wf = true := by
  unfold touchTlb
  split <;> simp +contextual [*]
@[simp] theorem loadEff_wf {s : State} (i : Instr) (f : MF) (sp : Space) (m : MA) (c : WCtx) (hs : s.wf = true) : (loadEff i f sp m c s).wf = true := by
  unfold loadEff
  dsimp only
  have hread : ∀ l u ops, State.wf u = true → (feServe (beforeAccess u (WCtx_iss c) l) (WCtx_iss c) f sp (beforeAccess u (WCtx_iss c) l).nextId ops).2.2.wf = true :=
    fun l u ops hu => feServe_wf _ _ _ _ _ (beforeAccess_wf _ _ hu)
  split
  · have hissue := updThreads_wf c.wg c.wi (c.lanes.filter fun l => !c.cs.contains l) (stepThread (instrLen f.l)) hs
    split
    · exact emptyFlight_wf _ _ _ _ hissue
    · split
      · exact launchFlight_wf _ _ _ _ _ (updThreads_wf _ _ _ _ (wf_ite (fun _ => acquire_wf _ _ (hread _ _ _ hissue)) fun _ => hread _ _ _ hissue))
      · exact updThreads_wf _ _ _ _ (openIn_wf _ _ _ _ _ _ _ (addFlight_wf _ _ _ _ (hread _ _ _ hissue)))
  · split
    · exact emptyFlight_wf _ _ _ _ hs
    · refine launchFlight_wf _ _ _ _ _ (wf_ite (fun _ => acquire_wf _ _ ?_) fun _ => ?_) <;>
        exact foldl_snd_keeps (fun t x ht => touchTlb_wf _ _ _ (takeLane_wf _ _ _ _ _ _ _ ht)) (beforeAccess_wf _ _ hs)
@[simp] theorem drainStream_wf {s : State} (iss : Issuer) (hs : s.wf = true) : (drainStream s iss).wf = true := by
  simp +contextual [drainStream, *]
@[simp] theorem l1Flush_wf {s : State} (core : ℕ) (hs : s.wf = true) : (l1Flush s core).wf = true := by
  simp +contextual [l1Flush, *]
@[simp] theorem relFlush_wf {s : State} (iss : Issuer) (obs : BitVec 7) (hs : s.wf = true) : (relFlush s iss obs).all State.wf = true := by
  unfold relFlush
  (repeat' split) <;> simp +contextual [*]
@[simp] theorem release_wf {s : State} (iss : Issuer) (obs : BitVec 7) (hs : s.wf = true) : (release s iss obs).wf = true := by
  unfold release
  split <;> simp +contextual [*]
@[simp] theorem orderBefore_wf {s : State} (iss : Issuer) (rel : Bool) (obs : BitVec 7) (ps : List (Loc × Trans)) (hs : s.wf = true) : (orderBefore s iss rel obs ps).wf = true := by
  unfold orderBefore
  (repeat' split) <;> grind [release_wf, drainStream_wf, drainCore_wf, beforeAccess_wf, foldl_keeps, State.wf_mk, memsWf_state]
@[simp] theorem trimSlices_wf {s : State} (xs : List ℕ) (hs : s.wf = true) : (trimSlices s xs).wf = true := by
  simp +contextual [trimSlices, *]
@[simp] theorem versionWrite_wf {s : State} (wg : ℕ) (pa : ℕ) (bs : List Byte) (key : BitVec 16) (by_ : ℕ) (hs : s.wf = true) : (versionWrite s wg pa bs key by_).wf = true := by
  simp +contextual [versionWrite, *]
@[simp] theorem commitLine_wf {s : State} (v : VLine) (hs : s.wf = true) : (commitLine s v).wf = true := by
  simp +contextual [commitLine, *]
@[simp] theorem commitLines_wf {s : State} (core : ℕ) (vs : List VLine) (hs : s.wf = true) : (commitLines s core vs).wf = true := by
  simp +contextual [commitLines, *]
@[simp] theorem versionCommit_wf {s : State} (wg : ℕ) (hs : s.wf = true) : (versionCommit s wg).wf = true := by
  unfold versionCommit
  split <;> simp +contextual [*]
@[simp] theorem storeAt_wf {s : State} (iss : Issuer) (lane : ℕ) (loc : Loc) (t : Trans) (bs : List Byte) (home : Bool) (at_ : optParam (VAddr × BitVec 64) (0, 0)) (hs : s.wf = true) : (storeAt s iss lane loc t bs home at_).wf = true := by
  unfold storeAt
  (repeat' split) <;> grind [versionWrite_wf, plainStore_wf, updWg_wf, versionCommit_wf, lsWrite_keeps, behindWrite_wf, mapWrite_wf, foldl_keeps, State.wf_mk, memsWf_state]
@[simp] theorem feSetAll_wf {s : State} (a : ℕ) (n : ℕ) (b : Bool) (hs : s.wf = true) : (feSetAll s a n b).wf = true := by
  simp +contextual [feSetAll, *]
@[simp] theorem takeId_wf {s : State} (hs : s.wf = true) : (takeId s).2.wf = true := by
  simp +contextual [takeId, *]
@[simp] theorem deferLanes_wf {s : State} (wg : ℕ) (wi : ℕ) (lanes : List ℕ) (cause : Cause) (addr : BitVec 64) (fpc : VAddr) (left : ℕ) (hs : s.wf = true) : (deferLanes s wg wi lanes cause addr fpc left).wf = true := by
  simp +contextual [deferLanes, *]
@[simp] theorem markTask_wf {s : State} (c : WCtx) (reason : ℕ) (left : ℕ) (hs : s.wf = true) : (markTask s c reason left).wf = true := by
  unfold markTask
  (repeat' split) <;> simp +contextual [*]
@[simp] theorem markStores_wf {s : State} (c : WCtx) (locs : List Loc) (look : ℕ) (hs : s.wf = true) : (markStores s c locs look).wf = true := by
  unfold markStores
  (repeat' split) <;> simp +contextual [*]
@[simp] theorem storeEff_wf {s : State} (i : Instr) (f : MF) (sp : Space) (m : MA) (c : WCtx) (hs : s.wf = true) : (storeEff i f sp m c s).wf = true := by
  unfold storeEff
  (repeat' split) <;> grind [emptyFlight_wf, orderBefore_wf, touchTlb_wf, storeAt_wf, feSetAll_wf, markStores_wf, launchFlight_wf, foldl_keeps, State.wf_mk, memsWf_state]
@[simp] theorem prefetch_wf {s : State} (c : WCtx) (comb : Bool) (va : ℕ) (loc : Loc) (a : ℕ) (tr : Trans) (hs : s.wf = true) : (prefetch s c comb va loc a tr).wf = true := by
  unfold prefetch
  (repeat' split) <;> grind [combRead_wf, l1Take_wf, l1Fill_wf, touchTlb_wf, l1Put_wf, foldl_keeps, State.wf_mk, memsWf_state]
@[simp] theorem writeBackLines_wf {s : State} (c : WCtx) (f : MF) (hs : s.wf = true) : (writeBackLines s c f).wf = true := by
  unfold writeBackLines
  (repeat' split) <;> grind [l1Flush_wf, l1WriteBack_wf, foldl_keeps, State.wf_mk, memsWf_state]
@[simp] theorem l1InvLine_wf {s : State} (core : ℕ) (line : ℕ) (hs : s.wf = true) : (l1InvLine s core line).wf = true := by
  simp +contextual [l1InvLine, *]
@[simp] theorem invalidateLines_wf {s : State} (c : WCtx) (f : MF) (hs : s.wf = true) : (invalidateLines s c f).wf = true := by
  unfold invalidateLines
  (repeat' split) <;> grind [l1Inv_wf, l1InvLine_wf, foldl_keeps, State.wf_mk, memsWf_state]
@[simp] theorem pointDrop_wf {s : State} (iss : Issuer) (loc : Loc) (n : ℕ) (hs : s.wf = true) : (pointDrop s iss loc n).wf = true := by
  unfold pointDrop
  split <;> simp +contextual [*]
@[simp] theorem issueResv_wf {s : State} (iss : Issuer) (i : Instr) (flight : ℕ) (ops : List (ℕ × Loc)) (hs : s.wf = true) : (issueResv s iss i flight ops).wf = true := by
  unfold issueResv
  split <;> simp +contextual [*]
@[simp] theorem fenceNow_wf {s : State} (iss : Issuer) (ordr : ℕ) (obs : BitVec 7) (hs : s.wf = true) : (fenceNow s iss ordr obs).wf = true := by
  unfold fenceNow
  (repeat' split) <;> grind [drainStream_wf, release_wf, acquire_wf, foldl_keeps, State.wf_mk, memsWf_state]
@[simp] theorem noteWg_wf {s : State} (wg : ℕ) (hs : s.wf = true) : (noteWg s wg).wf = true := by
  unfold noteWg
  (repeat' split) <;> simp +contextual [*]
@[simp] theorem versionDiscard_wf {s : State} (wg : ℕ) (hs : s.wf = true) : (versionDiscard s wg).wf = true := by
  simp +contextual [versionDiscard, *]
@[simp] theorem escalate_wf {s : State} (wg : ℕ) (r : TrapRec) (ncause : Cause) (hs : s.wf = true) : (escalate s wg r ncause).wf = true := by
  unfold escalate
  (repeat' split) <;> grind [noteWg_wf, updWg_wf, versionDiscard_wf, updQueue_wf, postEntry_wf, foldl_keeps, State.wf_mk, memsWf_state]
@[simp] theorem postWalkAt_wf {s : State} (iss : Issuer) (root : ℕ) (cause : Cause) (va : BitVec 64) (hs : s.wf = true) : (postWalkAt s iss root cause va).wf = true := by
  unfold postWalkAt
  (repeat' split) <;> simp +contextual [*]
@[simp] theorem postWalk_wf {s : State} (iss : Issuer) (cause : Cause) (va : BitVec 64) (hs : s.wf = true) : (postWalk s iss cause va).wf = true := by
  simp +contextual [postWalk, *]
@[simp] theorem updThread_wf {s : State} (wg : ℕ) (i : ℕ) (lane : ℕ) (f : Thread → Thread) (hs : s.wf = true) : (updThread s wg i lane f).wf = true := by
  simp +contextual [updThread, *]
@[simp] theorem takeThread_wf {s : State} (wg : ℕ) (wi : ℕ) (r : TrapRec) (lane : ℕ) (hs : s.wf = true) : (takeThread s wg wi r lane).wf = true := by
  unfold takeThread
  (repeat' split) <;> grind [escalate_wf, postWalk_wf, storeAt_wf, updThread_wf, foldl_keeps, State.wf_mk, memsWf_state]
@[simp] theorem takeWarp_wf {s : State} (wg : ℕ) (wi : ℕ) (lanes : List ℕ) (r : TrapRec) (hs : s.wf = true) : (takeWarp s wg wi lanes r).wf = true := by
  simp +contextual [takeWarp, *]
@[simp] theorem raiseWarp_wf {s : State} (wg : ℕ) (wi : ℕ) (cause : Cause) (hs : s.wf = true) : (raiseWarp s wg wi cause).wf = true := by
  unfold raiseWarp
  split <;> simp +contextual [*]
@[simp] theorem barFlush_wf {s : State} (wg : ℕ) (arr : List (ℕ × ℕ × Bool × BitVec 7)) (hs : s.wf = true) : (barFlush s wg arr).wf = true := by
  unfold barFlush
  refine foldl_keeps (fun t x ht => ?_) hs
  have hflush := relFlush_wf (.warp wg x.1 []) (barMask arr) ht
  cases hrel : relFlush t (.warp wg x.1 []) (barMask arr) with
  | none => simpa [hrel] using ht
  | some u => simpa [hrel] using hflush
@[simp] theorem barComplete_wf {s : State} (wg : ℕ) (n : ℕ) (arr : List (ℕ × ℕ × Bool × BitVec 7)) (hs : s.wf = true) : (barComplete s wg n arr).wf = true := by
  unfold barComplete
  grind [drainStream_wf, acquire_wf, release_wf, updWg_wf, foldl_keeps, State.wf_mk, memsWf_state]
@[simp] theorem barExamine_wf {s : State} (wg : ℕ) (n : ℕ) (hs : s.wf = true) : (barExamine s wg n).wf = true := by
  unfold barExamine
  (repeat' split) <;> grind [raiseWarp_wf, barFlush_wf, barComplete_wf, foldl_keeps, State.wf_mk, memsWf_state]
@[simp] theorem barArrive_wf {s : State} (wg : ℕ) (wi : ℕ) (hs : s.wf = true) : (barArrive s wg wi).wf = true := by
  unfold barArrive
  (repeat' split) <;> simp +contextual [*]
@[simp] theorem counterBad_wf {s : State} (wg : ℕ) (wi : ℕ) (bad : List (ℕ × Cause × BitVec 64)) (pc : VAddr) (look : ℕ) (hs : s.wf = true) : (counterBad s wg wi bad pc look).wf = true := by
  simp +contextual [counterBad, *]
@[simp] theorem jumpLanes_wf {s : State} (c : WCtx) (f : VF) (hs : s.wf = true) : (jumpLanes s c f).wf = true := by
  simp +contextual [jumpLanes, *]
@[simp] theorem pushReturn_wf {s : State} (c : WCtx) (ra : VAddr) (lane : ℕ) (hs : s.wf = true) : (pushReturn s c ra lane).wf = true := by
  unfold pushReturn
  (repeat' split) <;> grind [touchTlb_wf, nameAwaits_wf, storeAt_wf, updThread_wf, foldl_keeps, State.wf_mk, memsWf_state]
@[simp] theorem pushReturns_wf {s : State} (c : WCtx) (ra : VAddr) (hs : s.wf = true) : (pushReturns s c ra).wf = true := by
  unfold pushReturns
  grind [pushReturn_wf, beforeAccess_wf, markStores_wf, foldl_keeps, State.wf_mk, memsWf_state]
@[simp] theorem refillLoads_wf {s : State} (c : WCtx) (hs : s.wf = true) : (refillLoads s c).2.wf = true := by
  unfold refillLoads
  refine foldl_snd_keeps (fun t x ht => ?_) (by simp [hs])
  exact touchTlb_wf _ _ _ (loadAt_wf _ _ _ _ _ ht)
@[simp] theorem raiseSoft_wf {s : State} (cause : Cause) (n : ℕ) (c : WCtx) (hs : s.wf = true) : (raiseSoft cause n c s).wf = true := by
  simp +contextual [raiseSoft, *]
@[simp] theorem svcPost_wf {s : State} (iss : Issuer) (q : ℕ) (bs : List Byte) (hs : s.wf = true) : (svcPost s iss q bs).wf = true := by
  unfold svcPost
  grind [release_wf, drainStream_wf, homeWrite_keeps, wakeOr_wf, foldl_keeps, State.wf_mk, memsWf_state]
@[simp] theorem wakeNow_wf {s : State} (iss : Issuer) (target : ℕ) (v : ℕ) (hs : s.wf = true) : (wakeNow s iss target v).wf = true := by
  unfold wakeNow
  grind [wakeOr_wf, release_wf, drainStream_wf, foldl_keeps, State.wf_mk, memsWf_state]
@[simp] theorem readRecord_wf {s : State} (wg : ℕ) (wi : ℕ) (lane : ℕ) (hs : s.wf = true) : (readRecord s wg wi lane).2.wf = true := by
  unfold readRecord
  (repeat' split) <;> grind [loadAt_wf, foldl_keeps, State.wf_mk, memsWf_state]
@[simp] theorem deliverOne_wf {s : State} (wg : ℕ) (wi : ℕ) (lane : ℕ) (due : Deferred → Bool) (d : Deferred) (pc : VAddr) (hs : s.wf = true) : (deliverOne s wg wi lane due d pc).wf = true := by
  simp +contextual [deliverOne, *]
@[simp] theorem twaitExamine_wf {s : State} (wg : ℕ) (wi : ℕ) (hs : s.wf = true) : (twaitExamine s wg wi).wf = true := by
  unfold twaitExamine
  (repeat' split) <;> grind [deliverOne_wf, updThread_wf, foldl_keeps, State.wf_mk, memsWf_state]
@[simp] theorem warpWait_wf {s : State} (wg : ℕ) (wi : ℕ) (w : Warp) (lanes : List ℕ) (mask : ℕ) (hs : s.wf = true) : (warpWait s wg wi w lanes mask).wf = true := by
  unfold warpWait
  grind [deliverOne_wf, foldl_keeps, State.wf_mk, memsWf_state]
theorem fetchLine_wf {s t : State} {iss : Issuer} {va : Nat} {r : Except Cause (List Byte)} (hs : s.wf = true) (hf : fetchLine s iss va = some (r, t)) : t.wf = true := by
  unfold fetchLine at hf
  have hread := fun loc => behindRead_wf loc 128 0 hs
  split at hf
  · cases hf; exact hs
  · split at hf
    · cases hf
    · cases hf; exact postWalk_wf _ _ _ hs
    · cases hf; exact hs
    · dsimp only at hf
      split at hf <;> cases hf <;> exact hread _
@[simp] theorem putILine_wf {s : State} (l : ILine) (hs : s.wf = true) : (putILine s l).wf = true := by
  simp +contextual [putILine, *]
@[simp] theorem fillLine_wf {s : State} (iss : Issuer) (va : ℕ) (hs : s.wf = true) : (fillLine s iss va).wf = true := by
  unfold fillLine
  split
  · exact hs
  · exact putILine_wf _ (fetchLine_wf hs ‹_›)
  · exact putILine_wf _ (fetchLine_wf hs ‹_›)
@[simp] theorem refetch_wf {s : State} (iss : Issuer) (va : ℕ) (deliver : Cause → State → State) (hs : s.wf = true) (hdeliver : ∀ y0 y1, y1.wf = true → (deliver y0 y1).wf = true) : (refetch s iss va deliver).wf = true := by
  unfold refetch
  have hsoft := softTake_wf 0x1E4 0x1E4 hs
  split
  case h_1 heq => exact hdeliver _ _ (by rwa [heq] at hsoft)
  case h_2 heq =>
    rw [heq] at hsoft
    split
    · exact hsoft
    · exact hdeliver _ _ (fetchLine_wf hsoft ‹_›)
    · exact fillLine_wf _ _ hsoft
@[simp] theorem postCut_wf {s : State} (wg : ℕ) (g : LaunchRec) (n : ℕ) (cause : Cause) (hs : s.wf = true) : (postCut s wg g n cause).wf = true := by
  unfold postCut
  (repeat' split) <;> simp +contextual [*]
@[simp] theorem planGroup_wf {s : State} (g : Grid) (k : Workgroup) (w : Warp) (wg : ℕ) (wi : ℕ) (lanes : List ℕ) (th : Thread) (hs : s.wf = true) : (planGroup s g k w wg wi lanes th).Wf := by
  unfold planGroup
  (repeat' split) <;> grind [takeWarp_wf, warpWait_wf, refetch_wf, postCut_wf, updWarp_wf, foldl_keeps, State.wf_mk, memsWf_state, Plan.Wf]
@[simp] theorem planOn_wf {s : State} (wg : ℕ) (wi : ℕ) (port : ℕ) (pick : Warp → List ℕ → List ℕ) (hs : s.wf = true) : (planOn s wg wi port pick).Wf := by
  unfold planOn
  (repeat' split) <;> grind [planGroup_wf, foldl_keeps, State.wf_mk, memsWf_state, Plan.Wf]
@[simp] theorem planWarp_wf {s : State} (wg : ℕ) (wi : ℕ) (port : ℕ) (hs : s.wf = true) : (planWarp s wg wi port).Wf := by
  simp +contextual [planWarp, *]
@[simp] theorem planBeside_wf {s : State} (wg : ℕ) (wi : ℕ) (lanes : List ℕ) (hs : s.wf = true) : (planBeside s wg wi lanes).Wf := by
  simp +contextual [planBeside, *]
theorem bringLine_wf {s t : State} {g : Grid} {k : Workgroup} {n : Nat} (hs : s.wf = true) (hb : bringLine s g k n = .ok t) : t.wf = true := by
  unfold bringLine at hb
  split at hb
  · cases hb
    exact updWg_wf _ _ hs
  · cases hb
@[simp] theorem cueLine3_wf {s : State} (wg : ℕ) (hs : s.wf = true) : (cueLine3 s wg).1.wf = true := by
  unfold cueLine3
  (repeat' split) <;> try exact hs
  case h_1 hb => exact bringLine_wf hs hb
@[simp] theorem takeCue_wf {s : State} (iss : Issuer) (r : TrapRec) (hs : s.wf = true) : (takeCue s iss r).wf = true := by
  unfold takeCue
  (repeat' split) <;> grind [cueLine3_wf, escalate_wf, updWg_wf, homeWrite_keeps, postAsync_wf, foldl_keeps, State.wf_mk, memsWf_state]
@[simp] theorem updCue_wf {s : State} (i : Issuer) (f : Cue → Cue) (hs : s.wf = true) : (updCue s i f).wf = true := by
  unfold updCue
  split <;> simp +contextual [*]
@[simp] theorem cueEnd_wf {s : State} (iss : Issuer) (hs : s.wf = true) : (cueEnd s iss).wf = true := by
  unfold cueEnd
  (repeat' split) <;> grind [takeCue_wf, updCue_wf, postRec_wf, drainStream_wf, foldl_keeps, State.wf_mk, memsWf_state]
@[simp] theorem waitAcquire_wf {s : State} (iss : Issuer) (cl : Option Clause) (hs : s.wf = true) : (waitAcquire s iss cl).wf = true := by
  simp +contextual [waitAcquire, *]
@[simp] theorem setC_wf {s : State} (c : CCtx) (r : ℕ) (v : DWord) (hs : s.wf = true) : (setC s c r v).wf = true := by
  simp +contextual [setC, *]
@[simp] theorem launchCueFlight_wf {s : State} (c : CCtx) (i : Instr) (kind : FlightKind) (isSvc : Bool) (hs : s.wf = true) : (launchCueFlight s c i kind isSvc).wf = true := by
  simp +contextual [launchCueFlight, *]
@[simp] theorem cueRelPrep_wf {s : State} (rel : Bool) (obs : BitVec 7) (c : CCtx) (hs : s.wf = true) : (cueRelPrep rel obs s c).all State.wf = true := by
  unfold cueRelPrep
  split <;> simp +contextual [*]
@[simp] theorem deferCue_wf {s : State} (iss : Issuer) (cause : Cause) (addr : BitVec 64) (fpc : VAddr) (left : ℕ) (hs : s.wf = true) : (deferCue s iss cause addr fpc left).wf = true := by
  simp +contextual [deferCue, *]
@[simp] theorem markCue_wf {s : State} (c : CCtx) (reason : ℕ) (left : ℕ) (hs : s.wf = true) : (markCue s c reason left).wf = true := by
  unfold markCue
  (repeat' split) <;> simp +contextual [*]
@[simp] theorem markCueStore_wf {s : State} (c : CCtx) (loc : Loc) (look : ℕ) (hs : s.wf = true) : (markCueStore s c loc look).wf = true := by
  unfold markCueStore
  split <;> simp +contextual [*]
@[simp] theorem dqpushExamine_wf {s : State} (wg : ℕ) (hs : s.wf = true) : (dqpushExamine s wg).wf = true := by
  unfold dqpushExamine
  (repeat' split) <;> simp +contextual [*]
@[simp] theorem launchView_wf {s : State} (iss : Issuer) (hs : s.wf = true) : (launchView s iss).wf = true := by
  simp +contextual [launchView, *]
@[simp] theorem postNote_wf {s : State} (note : Option Cause) (a : BitVec 64) (wg : Option ℕ) (hs : s.wf = true) : (postNote s note a wg).wf = true := by
  unfold postNote
  split <;> simp +contextual [*]
@[simp] theorem launchNote_wf {s : State} (iss : Issuer) (a : ℕ) (hs : s.wf = true) : (launchNote s iss a).wf = true := by
  unfold launchNote
  split <;> simp +contextual [*]
@[simp] theorem addTok_wf {s : State} (iss : Issuer) (tok : Option ℕ) (up : Bool) (hs : s.wf = true) : (addTok s iss tok up).wf = true := by
  unfold addTok
  split <;> simp +contextual [*]
@[simp] theorem acceptGrid_wf {s : State} (run : ℕ) (c : Copies) (o : Origin) (hs : s.wf = true) : (acceptGrid s run c o).wf = true := by
  simp +contextual [acceptGrid, *]
@[simp] theorem nestAppend_wf {s : State} (iss : Issuer) (a : ℕ) (d : ℕ) (tok : Option ℕ) (hs : s.wf = true) : (nestAppend s iss a d tok).wf = true := by
  unfold nestAppend
  (repeat' split) <;> grind [launchView_wf, acceptGrid_wf, updCue_wf, takeCue_wf, addTok_wf, launchNote_wf, foldl_keeps, State.wf_mk, memsWf_state]
@[simp] theorem cwaitExamine_wf {s : State} (iss : Issuer) (hs : s.wf = true) : (cwaitExamine s iss).wf = true := by
  unfold cwaitExamine
  (repeat' split) <;> simp +contextual [*]
@[simp] theorem l1FlushRange_wf {s : State} (cluster : ℕ) (lo : ℕ) (hi : ℕ) (hs : s.wf = true) : (l1FlushRange s cluster lo hi).wf = true := by
  simp +contextual [l1FlushRange, *]
@[simp] theorem registerLocks_wf {s : State} (ls : List Lock) (hs : s.wf = true) : (registerLocks s ls).wf = true := by
  unfold registerLocks
  grind [runPoint_wf, l1FlushRange_wf, foldl_keeps, State.wf_mk, memsWf_state]
@[simp] theorem updCmd_wf {s : State} (id : ℕ) (f : Cmd → Cmd) (hs : s.wf = true) : (updCmd s id f).wf = true := by
  simp +contextual [updCmd, *]
@[simp] theorem noteCause_wf {s : State} (id : ℕ) (cause : Cause) (a : BitVec 64) (hs : s.wf = true) : (noteCause s id cause a).wf = true := by
  unfold noteCause
  (repeat' split) <;> simp +contextual [*]
@[simp] theorem noteDone_wf {s : State} (id : ℕ) (x : Cause) (a : ℕ) (hs : s.wf = true) : (noteDone s id x a).wf = true := by
  simp +contextual [noteDone, *]
@[simp] theorem cueRecord_wf {s : State} (c : CCtx) (hs : s.wf = true) : (cueRecord s c).2.wf = true := by
  unfold cueRecord
  refine foldl_third_keeps (f := fun (acc : List Byte × Bool × State) o => _) (fun acc o ht => ?_) hs
  obtain ⟨bs, ok, t⟩ := acc
  dsimp only at ht ⊢
  split
  · split
    · exact ht
    · exact touchTlb_wf _ _ _ (loadAt_wf _ _ _ _ _ (beforeAccess_wf _ _ ht))
  · exact ht
@[simp] theorem updGrid_wf {s : State} (num : ℕ) (f : Grid → Grid) (hs : s.wf = true) : (updGrid s num f).wf = true := by
  simp +contextual [updGrid, *]
@[simp] theorem dropRetired_wf {s : State} (hs : s.wf = true) : (dropRetired s).wf = true := by
  simp +contextual [dropRetired, *]
@[simp] theorem removeWg_wf {s : State} (wg : ℕ) (hs : s.wf = true) : (removeWg s wg).wf = true := by
  simp +contextual [removeWg, *]
@[simp] theorem countEnded_wf {s : State} (k : Workgroup) (hs : s.wf = true) : (countEnded s k).wf = true := by
  unfold countEnded
  grind [updGrid_wf, noteWg_wf, updWg_wf, removeWg_wf, foldl_keeps, State.wf_mk, memsWf_state]
@[simp] theorem endWg_wf {s : State} (wg : ℕ) (cause : Cause) (hs : s.wf = true) : (endWg s wg cause).wf = true := by
  unfold endWg
  (repeat' split) <;> grind [postAsync_wf, versionDiscard_wf, countEnded_wf, foldl_keeps, State.wf_mk, memsWf_state]
@[simp] theorem planCue_wf {s : State} (iss : Issuer) (hs : s.wf = true) : (planCue s iss).Wf := by
  unfold planCue
  (repeat' split) <;> grind [cueEnd_wf, takeCue_wf, fillLine_wf, updCue_wf, refetch_wf, postCut_wf, waitAcquire_wf, foldl_keeps, State.wf_mk, memsWf_state, Plan.Wf]
@[simp] theorem leaveCaps_wf {s : State} (pa : ℕ) (n : ℕ) (hs : s.wf = true) : (leaveCaps s pa n).wf = true := by
  unfold leaveCaps
  grind [postAsync_wf, foldl_keeps, State.wf_mk, memsWf_state]
@[simp] theorem hostTake_wf {s : State} (v : BitVec 2) (line : ℕ) (hs : s.wf = true) : (hostTake s v line).wf = true := by
  unfold hostTake
  split <;> simp +contextual [*]
@[simp] theorem execHostRead_wf (s : State) (pa : ℕ) (n : ℕ) (own : Bool) : Sound s (execHostRead pa n own s) := by
  unfold execHostRead
  split
  · simp
  · simp +contextual
  · exact (sound_next _ _).2 fun hs => leaveCaps_wf _ _ (foldl_keeps (fun t l ht => hostTake_wf _ _ ht) (combRead_wf _ _ _ hs))
@[simp] theorem execHostWrite_wf (s : State) (pa : HostPlace) (data : List Byte) : Sound s (execHostWrite pa data s) := by
  unfold execHostWrite
  (repeat' split) <;> simp +contextual [*]
@[simp] theorem execRegisterWrite_wf (s : State) (offset : HostPlace) (bytes : ℕ) (value : DWord) : Sound s (execRegisterWrite offset bytes value s) := by
  refine (sound_next _ _).2 fun hs => wf_ite (fun _ => hs) fun _ => wf_ite (fun _ => mapWrite_wf _ _ _ hs) fun _ => hs
@[simp] theorem execMwakeWrite_wf (s : State) (stack : HostPlace) (value : DWord) : Sound s (execMwakeWrite stack value s) := by
  refine (sound_next _ _).2 fun hs => wf_ite (fun _ => hs) fun _ => wf_ite (fun _ => mapWrite_wf _ _ _ hs) fun _ => hs
@[simp] theorem execQueueWakeWrite_wf (s : State) (q : HostPlace) (value : Word) : Sound s (execQueueWakeWrite q value s) := by
  refine (sound_next _ _).2 fun hs => wf_ite (fun _ => hs) fun _ => wf_ite (fun _ => wakeOr_wf _ _ hs) fun _ => hs
@[simp] theorem sendData_wf {s : State} (dst : ℕ) (kind : BitVec 6) (page : ℕ) (seq : BitVec 16) (aux : ℕ) (data : List Byte) (caps : List (BitVec 16)) (hs : s.wf = true) : (sendData s dst kind page seq aux data caps).wf = true := by
  simp +contextual [sendData, *]
@[simp] theorem passOn_wf {s : State} (src : ℕ) (m : Msg) (hs : s.wf = true) : (passOn s src m).wf = true := by
  simp +contextual [passOn, *]
@[simp] theorem execReadMsg_wf (s : State) (src : ℕ) (pa : ℕ) (n : ℕ) : Sound s (execReadMsg src pa n s) := by
  unfold execReadMsg
  split <;> simp +contextual [*]
@[simp] theorem putSynds_wf {s : State} (gs : List ℕ) (caps : List (BitVec 16)) (hs : s.wf = true) : (putSynds s gs caps).wf = true := by
  simp +contextual [putSynds, *]
@[simp] theorem execWriteMsg_wf (s : State) (src : ℕ) (pa : ℕ) (data : Carried) : Sound s (execWriteMsg src pa data s) := by
  unfold execWriteMsg
  split
  case h_1 => exact (sound_next _ _).2 fun hs => sendMsg_wf _ _ _ _ _ _ (putSynds_wf _ _ (homeWrite_keeps hs _ _ _ _))
  all_goals simp +contextual
@[simp] theorem execAtomicMsg_wf (s : State) (src : ℕ) (pa : ℕ) (wid : ℕ) (float : Bool) (aop : BitVec 6) (operand : DWord) : Sound s (execAtomicMsg src pa wid float aop operand s) := by
  simp only [execAtomicMsg]
  (repeat' split) <;> simp +contextual
@[simp] theorem serveHeld_wf {s : State} (a : Held) (hs : s.wf = true) : (serveHeld a s).wf = true := by
  unfold serveHeld
  split
  case h_2 => exact hs
  case h_1 t heq =>
    have hsound : Sound s (.next t) := by
      rw [← heq]
      cases a <;> simp
    exact (sound_next s t).1 hsound hs
@[simp] theorem drainpLeave_wf {s : State} (c : Cmd) (f : QE) (hs : s.wf = true) : (drainpLeave s c f).wf = true := by
  unfold drainpLeave
  split <;> simp +contextual [*]
@[simp] theorem stopCmd_wf {s : State} (id : ℕ) (x : Cause) (a : BitVec 64) (hs : s.wf = true) : (stopCmd s id x a).wf = true := by
  simp +contextual [stopCmd, *]
@[simp] theorem onWg_wf {s : State} (c : Cmd) (f : Workgroup → Workgroup) (hs : s.wf = true) : (onWg s c f).wf = true := by
  unfold onWg
  split <;> simp +contextual [*]
@[simp] theorem engFetch_wf {s : State} (e : Eng) (space : ℕ) (a : ℕ) (n : ℕ) (consumer : Option ℕ) (k : List Byte → State → Run) (hs : s.wf = true) (hk : ∀ y0 y1, y1.wf = true → (k y0 y1).Wf) : (engFetch s e space a n consumer k).Wf := by
  unfold engFetch
  (repeat' split) <;> grind [behindRead_wf, foldl_keeps, State.wf_mk, memsWf_state, Run.Wf]
@[simp] theorem engGet_wf {s : State} (e : Eng) (space : ℕ) (a : ℕ) (n : ℕ) (consumer : ℕ) (k : List Byte → State → Run) (hs : s.wf = true) (hk : ∀ y0 y1, y1.wf = true → (k y0 y1).Wf) : (engGet s e space a n consumer k).Wf := by
  simp +contextual [engGet, *]
@[simp] theorem engGetElem_wf {s : State} (e : Eng) (space : ℕ) (base : ℕ) (off : ℕ) (nb : ℕ) (consumer : ℕ) (k : ℕ → State → Run) (hs : s.wf = true) (hk : ∀ y0 y1, y1.wf = true → (k y0 y1).Wf) : (engGetElem s e space base off nb consumer k).Wf := by
  unfold engGetElem
  split <;> simp +contextual [*]
@[simp] theorem tldRun_wf {s : State} (c : Cmd) (f : QE) (hs : s.wf = true) : (tldRun s c f).Wf := by
  simp only [tldRun]
  (repeat' split) <;> grind [engGetElem_wf, onWg_wf, engGet_wf, foldl_keeps, State.wf_mk, memsWf_state, Run.wf_andThen, runList_wf, Run.Wf]
@[simp] theorem engMark_wf {s : State} (e : Eng) (reason : ℕ) (a : ℕ) (hs : s.wf = true) : (engMark s e reason a).Wf := by
  unfold engMark
  (repeat' split) <;> simp +contextual [*]
@[simp] theorem engHome_wf {s : State} (e : Eng) (pa : ℕ) (a : ℕ) (bs : List Byte) (key : BitVec 16) (hs : s.wf = true) : (engHome s e pa a bs key).Wf := by
  unfold engHome
  (repeat' split) <;> grind [homeWrite_keeps, engMark_wf, versionWrite_wf, updWg_wf, versionCommit_wf, foldl_keeps, State.wf_mk, memsWf_state, Run.Wf]
@[simp] theorem engPut_wf {s : State} (e : Eng) (space : ℕ) (a : ℕ) (bs : List Byte) (hs : s.wf = true) : (engPut s e space a bs).Wf := by
  unfold engPut
  (repeat' split) <;> simp +contextual [*]
@[simp] theorem engPutElem_wf {s : State} (e : Eng) (space : ℕ) (base : ℕ) (off : ℕ) (nb : ℕ) (v : ℕ) (hs : s.wf = true) : (engPutElem s e space base off nb v).Wf := by
  unfold engPutElem
  split <;> simp +contextual [*]
@[simp] theorem versionSynd_wf {s : State} (wg : ℕ) (pa : ℕ) (synd : BitVec 16) (hs : s.wf = true) : (versionSynd s wg pa synd).wf = true := by
  simp +contextual [versionSynd, *]
@[simp] theorem engSetSynd_wf {s : State} (e : Eng) (space : ℕ) (a : ℕ) (v : BitVec 16) (hs : s.wf = true) : (engSetSynd s e space a v).wf = true := by
  unfold engSetSynd
  (repeat' split) <;> simp +contextual [*]
@[simp] theorem freshen_wf {s : State} (e : Eng) (space : ℕ) (cells : List ℕ) (nb : ℕ) (hs : s.wf = true) : (freshen s e space cells nb).wf = true := by
  simp +contextual [freshen, *]
@[simp] theorem tsdRun_wf {s : State} (c : Cmd) (f : QE) (hs : s.wf = true) : (tsdRun s c f).Wf := by
  simp only [tsdRun]
  (repeat' split) <;> grind [engPutElem_wf, freshen_wf, engPut_wf, foldl_keeps, State.wf_mk, memsWf_state, Run.wf_andThen, runList_wf, Run.Wf]
@[simp] theorem tzeroRun_wf {s : State} (c : Cmd) (f : QE) (hs : s.wf = true) : (tzeroRun s c f).Wf := by
  unfold tzeroRun
  split <;> simp +contextual [*]
@[simp] theorem txposeRun_wf {s : State} (c : Cmd) (f : QE) (hs : s.wf = true) : (txposeRun s c f).Wf := by
  unfold txposeRun
  split <;> simp +contextual [*]
@[simp] theorem setPlanes_wf {s : State} (p : Planes) (hs : s.wf = true) : (setPlanes s p).wf = true := by
  simp +contextual [setPlanes, *]
@[simp] theorem planeFill_wf {s : State} (c : Cmd) (hs : s.wf = true) : (planeFill s c).wf = true := by
  unfold planeFill
  (repeat' split) <;> simp +contextual [*]
@[simp] theorem passRow_wf {s : State} (c : Cmd) (mode : ℕ) (zero : Bool) (wa : DWord) (wb : DWord) (ac : ℕ) (arow : ℕ) (acrow : ℕ) (koff : ℕ) (hs : s.wf = true) : (passRow s c mode zero wa wb ac arow acrow koff).Wf := by
  unfold passRow
  (repeat' split) <;> grind [updWg_wf, noteCause_wf, foldl_keeps, State.wf_mk, memsWf_state, Run.Wf]
@[simp] theorem mmgRow_wf {s : State} (c : Cmd) (f : QE) (hs : s.wf = true) : (mmgRow s c f).Wf := by
  unfold mmgRow
  grind [setPlanes_wf, passRow_wf, foldl_keeps, State.wf_mk, memsWf_state, Run.Wf]
@[simp] theorem centRow_wf {s : State} (c : Cmd) (f : QE) (d : ℕ) (hs : s.wf = true) : (centRow s c f d).Wf := by
  unfold centRow
  (repeat' split) <;> grind [updWg_wf, noteCause_wf, foldl_keeps, State.wf_mk, memsWf_state, Run.Wf]
@[simp] theorem bestRow_wf {s : State} (c : Cmd) (f : QE) (i : ℕ) (hs : s.wf = true) : (bestRow s c f i).Wf := by
  unfold bestRow
  (repeat' split) <;> simp +contextual [*]
@[simp] theorem drainRow_wf {s : State} (c : Cmd) (f : QE) (i : ℕ) (hs : s.wf = true) : (drainRow s c f i).Wf := by
  simp only [drainRow]
  (repeat' split) <;> grind [onWg_wf, engPutElem_wf, freshen_wf, foldl_keeps, State.wf_mk, memsWf_state, Run.wf_andThen, runList_wf, Run.Wf]
@[simp] theorem aloadRow_wf {s : State} (c : Cmd) (f : QE) (i : ℕ) (hs : s.wf = true) : (aloadRow s c f i).Wf := by
  unfold aloadRow
  split
  · exact hs
  · refine runList_wf (fun t j ht => ?_) hs
    split
    · split
      · exact onWg_wf _ _ ht
      · exact ht
    · exact engGetElem_wf _ _ _ _ _ _ _ ht fun v u hu => onWg_wf _ _ hu
@[simp] theorem bumpCounter_wf {s : State} (c : Cmd) (e : Eng) (space : ℕ) (a : ℕ) (n : ℕ) (hs : s.wf = true) : (bumpCounter s c e space a n).Wf := by
  unfold bumpCounter
  (repeat' split) <;> grind [advance_wf, noteCause_wf, foldl_keeps, State.wf_mk, memsWf_state, Run.Wf]
@[simp] theorem drainpRow_wf {s : State} (c : Cmd) (f : QE) (i : ℕ) (hs : s.wf = true) : (drainpRow s c f i).Wf := by
  unfold drainpRow
  (repeat' split) <;> grind [updWg_wf, updCmd_wf, bumpCounter_wf, foldl_keeps, State.wf_mk, memsWf_state, Run.Wf]
@[simp] theorem updGroup_wf {s : State} (g : Group) (f : Group → Group) (hs : s.wf = true) : (updGroup s g f).wf = true := by
  simp +contextual [updGroup, *]
@[simp] theorem contribute_wf {s : State} (h : ℕ) (idx : ℕ) (v : FVal) (hs : s.wf = true) : (contribute s h idx v).2.wf = true := by
  unfold contribute
  (repeat' split) <;> simp +contextual [*]
@[simp] theorem sendContribution_wf {s : State} (e : Eng) (id : ℕ) (h : ℕ) (idx : ℕ) (bits : ℕ) (bad : Cause) (hs : s.wf = true) : (sendContribution s e id h idx bits bad).Wf := by
  simp only [sendContribution]
  have hadd := fun v => contribute_wf h idx v hs
  (repeat' split) <;> grind [Run.Wf, noteCause_wf, engMark_wf, askPeer_wf]
@[simp] theorem draineElem_wf {s : State} (c : Cmd) (f : QE) (n : ℕ) (hs : s.wf = true) : (draineElem s c f n).Wf := by
  unfold draineElem
  split <;> simp +contextual [*]
@[simp] theorem azeroRun_wf {s : State} (c : Cmd) (f : QE) (hs : s.wf = true) : (azeroRun s c f).Wf := by
  simp +contextual [azeroRun, *]
@[simp] theorem arrayUnit_wf {s : State} (c : Cmd) (hs : s.wf = true) : (arrayUnit s c).Wf := by
  unfold arrayUnit
  split <;> simp +contextual [*]
@[simp] theorem putWindow_wf {s : State} (e : Eng) (ps : List ℕ) (a : ℕ) (nb : ℕ) (v : ℕ) (hs : s.wf = true) : (putWindow s e ps a nb v).Wf := by
  unfold putWindow
  (repeat' split) <;> grind [feSetAll_wf, lsWrite_keeps, foldl_keeps, State.wf_mk, memsWf_state, Run.Wf]
@[simp] theorem putDest_wf {s : State} (e : Eng) (d : Dest) (a : ℕ) (nb : ℕ) (v : ℕ) (hs : s.wf = true) : (putDest s e d a nb v).Wf := by
  unfold putDest
  (repeat' split) <;> simp +contextual [*]
@[simp] theorem engCarryElem_wf {s : State} (e : Eng) (space : ℕ) (off : ℕ) (nb : ℕ) (k : ℕ → State → Run) (hs : s.wf = true) (hk : ∀ y0 y1, y1.wf = true → (k y0 y1).Wf) : (engCarryElem s e space off nb k).Wf := by
  unfold engCarryElem
  split <;> simp +contextual [*]
@[simp] theorem copyCells_wf {s : State} (c : Cmd) (d : Dest) (snb : ℕ) (dnb : ℕ) (conv : ℕ → ℕ) (carry : Bool) (all : List (From × ℕ)) (dests : List ℕ) (later : List ℕ) (cells : List (From × ℕ)) (hs : s.wf = true) : (copyCells s c d snb dnb conv carry all dests later cells).Wf := by
  simp only [copyCells]
  (repeat' split) <;> grind [putDest_wf, engCarryElem_wf, engGetElem_wf, engSetSynd_wf, foldl_keeps, State.wf_mk, memsWf_state, Run.wf_andThen, runList_wf, Run.Wf]
@[simp] theorem cntAdvance_wf {s : State} (c : Cmd) (f : QE) (b : Blk) (n : ℕ) (hs : s.wf = true) : (cntAdvance s c f b n).Wf := by
  unfold cntAdvance
  dsimp only
  split
  · refine runList_wf (fun t p ht => ?_) hs
    have hadd := advance_wf (p * 1048576 + (1048576 - shareOf s (engOf s c).cluster) + b.caddr) n ht
    split
    · next heq =>
      rw [heq] at hadd
      exact noteCause_wf _ _ _ hadd
    · next heq => rwa [heq] at hadd
  · exact bumpCounter_wf _ _ _ _ _ hs
@[simp] theorem unitCount_wf {s : State} (c : Cmd) (f : QE) (b : Blk) (nib : ℕ) (elems : ℕ) (hs : s.wf = true) : (unitCount s c f b nib elems).Wf := by
  unfold unitCount
  split <;> simp +contextual [*]
@[simp] theorem bcpUnit_wf {s : State} (c : Cmd) (f : QE) (hs : s.wf = true) : (bcpUnit s c f).Wf := by
  simp +contextual [bcpUnit, *]
@[simp] theorem readIndices_wf {x5 : State} (c : Cmd) (f : QE) (x2 : ℕ) (x3 : ℕ) (x4 : List ℕ) (x6 : List ℕ → State → Run) (hs : x5.wf = true) (hx6 : ∀ y0 y1, y1.wf = true → (x6 y0 y1).Wf) : (readIndices c f x2 x3 x4 x5 x6).Wf := by
  induction x2 generalizing x3 x4 x5 with
  | zero => exact hx6 _ _ hs
  | succ n ih => exact engGet_wf _ _ _ _ _ _ hs fun bs t ht => ih _ _ ht
@[simp] theorem withWindow_wf {s : State} (c : Cmd) (f : QE) (n1 : ℕ) (w : ℕ) (k : State → Run) (hs : s.wf = true) (hk : ∀ y0, y0.wf = true → (k y0).Wf) : (withWindow s c f n1 w k).Wf := by
  unfold withWindow
  (repeat' split) <;> grind [readIndices_wf, updCmd_wf, foldl_keeps, State.wf_mk, memsWf_state, Run.Wf]
@[simp] theorem bufFetch_wf {s : State} (c : Cmd) (sp : ℕ) (a : ℕ) (nb : ℕ) (held : Cmd → List ℕ) (k : State → Run) (hs : s.wf = true) (hk : ∀ y0, y0.wf = true → (k y0).Wf) : (bufFetch s c sp a nb held k).Wf := by
  unfold bufFetch
  grind [engFetch_wf, updCmd_wf, foldl_keeps, State.wf_mk, memsWf_state, Run.Wf]
@[simp] theorem bufAll_wf {x5 : State} (c : Cmd) (sp : ℕ) (nb : ℕ) (held : Cmd → List ℕ) (x4 : List ℕ) (x6 : State → Run) (hs : x5.wf = true) (hx6 : ∀ y0, y0.wf = true → (x6 y0).Wf) : (bufAll c sp nb held x4 x5 x6).Wf := by
  induction x4 generalizing x5 with
  | nil => exact hx6 _ hs
  | cons a r ih => exact bufFetch_wf _ _ _ _ _ _ hs fun t ht => ih ht
@[simp] theorem bgatWindow_wf {s : State} (c : Cmd) (f : QE) (b : Blk) (z : Word) (nb : ℕ) (w : ℕ) (el : List ℕ) (hs : s.wf = true) : (bgatWindow s c f b z nb w el).Wf := by
  simp only [bgatWindow]
  grind [withWindow_wf, bufAll_wf, copyCells_wf, foldl_keeps, State.wf_mk, memsWf_state, Run.wf_andThen, runList_wf, Run.Wf]
@[simp] theorem bgatUnit_wf {s : State} (c : Cmd) (f : QE) (hs : s.wf = true) : (bgatUnit s c f).Wf := by
  simp only [bgatUnit]
  grind [bgatWindow_wf, unitCount_wf, foldl_keeps, State.wf_mk, memsWf_state, Run.wf_andThen, runList_wf, Run.Wf]
@[simp] theorem withIndex_read_wf {s : State} (c : Cmd) (f : QE) (r : ℕ) (k : ℤ → State → Run) (hs : s.wf = true) (hk : ∀ y0 y1, y1.wf = true → (k y0 y1).Wf) : (withIndex.read s c f r k).Wf := by
  unfold withIndex.read
  grind [readIndices_wf, updCmd_wf, foldl_keeps, State.wf_mk, memsWf_state, Run.Wf]
@[simp] theorem withIndex_wf {s : State} (c : Cmd) (f : QE) (r : ℕ) (k : ℤ → State → Run) (hs : s.wf = true) (hk : ∀ y0 y1, y1.wf = true → (k y0 y1).Wf) : (withIndex s c f r k).Wf := by
  unfold withIndex
  (repeat' split) <;> simp +contextual [*]
@[simp] theorem sliceRmw_wf {s : State} (c : Cmd) (space : ℕ) (a : ℕ) (fn : ℕ → ℕ) (hs : s.wf = true) : (sliceRmw s c space a fn).Wf := by
  unfold sliceRmw
  grind [behindRead_wf, engMark_wf, homeWrite_keeps, feSetAll_wf, lsWrite_keeps, foldl_keeps, State.wf_mk, memsWf_state, Run.Wf]
@[simp] theorem bscaElem_wf {s : State} (c : Cmd) (f : QE) (b : Blk) (nb : ℕ) (i : ℕ) (hs : s.wf = true) : (bscaElem s c f b nb i).Wf := by
  unfold bscaElem
  (repeat' split) <;> grind [withIndex_wf, engGetElem_wf, sliceRmw_wf, sendContribution_wf, foldl_keeps, State.wf_mk, memsWf_state, Run.Wf]
@[simp] theorem bscaUnit_wf {s : State} (c : Cmd) (f : QE) (hs : s.wf = true) : (bscaUnit s c f).Wf := by
  unfold bscaUnit
  dsimp only
  split
  · refine runList_wf (fun t r ht => withIndex_wf _ _ _ _ ht fun ix u hu => ?_) hs
    split
    · exact copyCells_wf _ _ _ _ _ _ _ _ _ _ hu
    · split <;> exact hu
  · exact bscaElem_wf _ _ _ _ _ hs
@[simp] theorem readCodes_wf {x5 : State} (c : Cmd) (f : QE) (b : Blk) (x3 : List ℕ) (x4 : List (ℕ × ℕ)) (x6 : List (ℕ × ℕ) → Option ℕ → State → Run) (hs : x5.wf = true) (hx6 : ∀ y0 y1 y2, y2.wf = true → (x6 y0 y1 y2).Wf) : (readCodes c f b x3 x4 x5 x6).Wf := by
  induction x3 generalizing x4 x5 with
  | nil => exact hx6 _ _ _ hs
  | cons q r ih =>
    refine engGetElem_wf _ _ _ _ _ _ _ hs fun v t ht => ?_
    split
    · exact hx6 _ _ _ ht
    · exact ih _ ht
@[simp] theorem bexpUnit_wf {s : State} (c : Cmd) (f : QE) (hs : s.wf = true) : (bexpUnit s c f).Wf := by
  simp only [bexpUnit]
  (repeat' split) <;> grind [bufAll_wf, readCodes_wf, copyCells_wf, unitCount_wf, foldl_keeps, State.wf_mk, memsWf_state, Run.wf_andThen, runList_wf, Run.Wf]
@[simp] theorem bfillUnit_wf {s : State} (c : Cmd) (f : QE) (hs : s.wf = true) : (bfillUnit s c f).Wf := by
  simp +contextual [bfillUnit, *]
@[simp] theorem bpeerUnit_wf {s : State} (c : Cmd) (f : QE) (hs : s.wf = true) : (bpeerUnit s c f).Wf := by
  simp +contextual [bpeerUnit, *]
@[simp] theorem sumUnit_wf {s : State} (c : Cmd) (f : QE) (b : Blk) (hs : s.wf = true) : (sumUnit s c f b).Wf := by
  simp only [sumUnit]
  (repeat' split) <;> grind [updCmd_wf, sliceRmw_wf, engGet_wf, foldl_keeps, State.wf_mk, memsWf_state, Run.wf_andThen, runList_wf, Run.Wf]
@[simp] theorem nextElem_wf {s : State} (c : Cmd) (n : ℕ) (slice : ℕ → ℕ) (k : ℕ → State → Run) (hs : s.wf = true) (hk : ∀ y0 y1, y1.wf = true → (k y0 y1).Wf) : (nextElem s c n slice k).Wf := by
  unfold nextElem
  split <;> simp +contextual [*]
@[simp] theorem mopUnit_wf {s : State} (c : Cmd) (f : QE) (hs : s.wf = true) : (mopUnit s c f).Wf := by
  unfold mopUnit
  grind [sumUnit_wf, nextElem_wf, sliceRmw_wf, engGet_wf, foldl_keeps, State.wf_mk, memsWf_state, Run.Wf]
@[simp] theorem cmdResult_wf {s : State} (c : Cmd) (r : ℕ) (v : ℕ) (hs : s.wf = true) : (cmdResult s c r v).wf = true := by
  unfold cmdResult
  split <;> simp +contextual [*]
@[simp] theorem openGroup_wf {s : State} (pa : ℕ) (n : ℕ) (hs : s.wf = true) : (openGroup s pa n).2.wf = true := by
  unfold openGroup
  grind [foldl_keeps, State.wf_mk, memsWf_state]
@[simp] theorem xopenRun_wf {s : State} (c : Cmd) (f : QE) (hs : s.wf = true) : (xopenRun s c f).Wf := by
  unfold xopenRun
  (repeat' split) <;> grind [askPeer_wf, cmdResult_wf, openGroup_wf, foldl_keeps, State.wf_mk, memsWf_state, Run.Wf]
@[simp] theorem closeGroup_wf {s : State} (h : ℕ) (n : ℕ) (keep : Bool) (hs : s.wf = true) : (closeGroup s h n keep).2.wf = true := by
  unfold closeGroup
  (repeat' split) <;> simp +contextual [*]
@[simp] theorem xcloseUnit_wf {s : State} (c : Cmd) (f : QE) (hs : s.wf = true) : (xcloseUnit s c f).Wf := by
  simp only [xcloseUnit]
  (repeat' split) <;> grind [askPeer_wf, closeGroup_wf, updCmd_wf, putDest_wf, freshen_wf, foldl_keeps, State.wf_mk, memsWf_state, Run.wf_andThen, runList_wf, Run.Wf]
@[simp] theorem slxpUnit_wf {s : State} (c : Cmd) (f : QE) (hs : s.wf = true) : (slxpUnit s c f).Wf := by
  simp only [slxpUnit]
  grind [nextElem_wf, engGetElem_wf, putDest_wf, freshen_wf, foldl_keeps, State.wf_mk, memsWf_state, Run.wf_andThen, runList_wf, Run.Wf]
@[simp] theorem rsvfillLine_wf {s : State} (c : Cmd) (f : QE) (hs : s.wf = true) : (rsvfillLine s c f).Wf := by
  unfold rsvfillLine
  grind [combUse_wf, foldl_keeps, State.wf_mk, memsWf_state, Run.Wf]
@[simp] theorem rsvEntry_wf {s : State} (c : Cmd) (i : ℕ) (k : Contract → Run) (hs : s.wf = true) (hk : ∀ y0, (k y0).Wf) : (rsvEntry s c i k).Wf := by
  unfold rsvEntry
  split
  · exact hs
  · split
    · exact postAsync_wf _ _ _ hs
    · split
      · exact hs
      · split
        · exact hk _
        · exact hs
@[simp] theorem resettle_wf {s : State} (hs : s.wf = true) : (resettle s).wf = true := by
  simp +contextual [resettle, *]
@[simp] theorem putEntry_wf {s : State} (i : ℕ) (bs : List Byte) (hs : s.wf = true) : (putEntry s i bs).wf = true := by
  simp +contextual [putEntry, *]
@[simp] theorem dropKeys_wf {s : State} (i : ℕ) (hs : s.wf = true) : (dropKeys s i).wf = true := by
  simp +contextual [dropKeys, *]
@[simp] theorem leaveMode_wf {s : State} (x : Contract) (stay : ℕ → Bool) (hs : s.wf = true) : (leaveMode s x stay).wf = true := by
  simp +contextual [leaveMode, *]
@[simp] theorem rsvdropRun_wf {s : State} (c : Cmd) (f : QE) (hs : s.wf = true) : (rsvdropRun s c f).Wf := rsvEntry_wf _ _ _ hs fun _ => resettle_wf (putEntry_wf _ _ (dropKeys_wf _ (leaveMode_wf _ _ hs)))
@[simp] theorem rsvqRun_wf {s : State} (c : Cmd) (f : QE) (hs : s.wf = true) : (rsvqRun s c f).Wf := by
  unfold rsvqRun
  (repeat' split) <;> grind [cmdResult_wf, rsvEntry_wf, foldl_keeps, State.wf_mk, memsWf_state, Run.Wf]
@[simp] theorem kvdropRun_wf {s : State} (c : Cmd) (f : QE) (hs : s.wf = true) : (kvdropRun s c f).Wf := by
  refine rsvEntry_wf _ _ _ hs fun x => ?_
  split
  · exact hs
  · exact foldl_keeps (fun t l ht => combRevert_wf l ht) hs
@[simp] theorem kvprioRun_wf {s : State} (c : Cmd) (f : QE) (hs : s.wf = true) : (kvprioRun s c f).Wf := by
  refine rsvEntry_wf _ _ _ hs fun x => ?_
  dsimp only
  split
  · exact hs
  · split <;> exact hs
@[simp] theorem rsvsetRun_wf {s : State} (c : Cmd) (f : QE) (hs : s.wf = true) : (rsvsetRun s c f).Wf := by
  unfold rsvsetRun
  grind [engGet_wf, leaveMode_wf, dropKeys_wf, resettle_wf, putEntry_wf, foldl_keeps, State.wf_mk, memsWf_state, Run.Wf]
@[simp] theorem bulkUnit_wf {s : State} (c : Cmd) (hs : s.wf = true) : (bulkUnit s c).Wf := by
  unfold bulkUnit
  split <;> simp +contextual [*]
@[simp] theorem ctxsvUnit_wf {s : State} (c : Cmd) (f : QE) (hs : s.wf = true) : (ctxsvUnit s c f).Wf := by
  unfold ctxsvUnit
  (repeat' split) <;> simp +contextual [*]
@[simp] theorem ctxldUnit_wf {s : State} (c : Cmd) (f : QE) (hs : s.wf = true) : (ctxldUnit s c f).Wf := by
  unfold ctxldUnit
  (repeat' split) <;> simp +contextual [*]
@[simp] theorem tlbDrop_wf {s : State} (p : TlbEntry → Bool) (hs : s.wf = true) : (tlbDrop s p).wf = true := by
  simp +contextual [tlbDrop, *]
@[simp] theorem execMeeting_wf {s : State} (lo : ℕ) (n : ℕ) (hs : s.wf = true) : (execMeeting s lo n).wf = true := by
  simp +contextual [execMeeting, *]
@[simp] theorem settle_wf {s : State} (lo : ℕ) (n : ℕ) (hs : s.wf = true) : (settle s lo n).wf = true := by
  simp +contextual [settle, *]
@[simp] theorem settlePa_wf {s : State} (pa : ℕ) (n : ℕ) (hs : s.wf = true) : (settlePa s pa n).wf = true := by
  unfold settlePa
  (repeat' split) <;> simp +contextual [*]
@[simp] theorem tlbDropPa_wf {s : State} (base : ℕ) (size : ℕ) (hs : s.wf = true) : (tlbDropPa s base size).wf = true := by
  simp +contextual [tlbDropPa, *]
@[simp] theorem tlbinvOn_wf {s : State} (mod : ℕ) (va : ℕ) (asid : ℕ) (hs : s.wf = true) : (tlbinvOn s mod va asid).wf = true := by
  unfold tlbinvOn
  (repeat' split) <;> grind [tlbDrop_wf, settlePa_wf, tlbDropPa_wf, foldl_keeps, State.wf_mk, memsWf_state]
@[simp] theorem tlbinvUnit_wf {s : State} (c : Cmd) (f : QE) (hs : s.wf = true) : (tlbinvUnit s c f).Wf := by
  unfold tlbinvUnit
  (repeat' split) <;> grind [tlbinvOn_wf, updCmd_wf, askPeer_wf, foldl_keeps, State.wf_mk, memsWf_state, Run.Wf]
@[simp] theorem ptwalkNote_wf {s : State} (va : ℕ) (asid : ℕ) (hs : s.wf = true) : (ptwalkNote s va asid).wf = true := by
  unfold ptwalkNote
  split <;> simp +contextual [*]
@[simp] theorem ptwalkUnit_wf {s : State} (c : Cmd) (f : QE) (hs : s.wf = true) : (ptwalkUnit s c f).Wf := by
  simp +contextual [ptwalkUnit, *]
@[simp] theorem sendGrants_wf {s : State} (x : Transition) (hs : s.wf = true) : (sendGrants s x).wf = true := by
  simp +contextual [sendGrants, *]
@[simp] theorem wakeInbox_wf {s : State} (hs : s.wf = true) : (wakeInbox s).wf = true := by
  simp +contextual [wakeInbox, *]
@[simp] theorem finishTransition_wf {s : State} (x : Transition) (hs : s.wf = true) : (finishTransition s x).wf = true := by
  unfold finishTransition
  (repeat' split) <;> grind [setDir_wf, wakeInbox_wf, foldl_keeps, State.wf_mk, memsWf_state]
@[simp] theorem pgUnit_wf {s : State} (c : Cmd) (pa : ℕ) (home : State → PgOut) (done : State → Transition → State) (hs : s.wf = true) (hhome : ∀ y0, y0.wf = true → (home y0).s.wf = true) (hdone : ∀ y0 y1, y0.wf = true → (done y0 y1).wf = true) : (pgUnit s c pa home done).Wf := by
  unfold pgUnit
  (repeat' split) <;> grind [askPeer_wf, noteCause_wf, sendGrants_wf, finishTransition_wf, foldl_keeps, State.wf_mk, memsWf_state, Run.Wf]
@[simp] theorem l1Leave_wf {s : State} (lo : ℕ) (n : ℕ) (hs : s.wf = true) : (l1Leave s lo n).wf = true := by
  simp +contextual [l1Leave, *]
@[simp] theorem hostDrop_wf {s : State} (lo : ℕ) (n : ℕ) (hs : s.wf = true) : (hostDrop s lo n).wf = true := by
  simp +contextual [hostDrop, *]
@[simp] theorem probe_wf {s : State} (dev : ℕ) (page : ℕ) (seq : BitVec 16) (kind : ℕ) (hs : s.wf = true) : (probe s dev page seq kind).wf = true := by
  simp +contextual [probe, *]
@[simp] theorem startTransition_wf {s : State} (cmd : ℕ) (i : ℕ) (after : DirEntry) (split : Bool) (probes : List (ℕ × ℕ)) (grants : List (ℕ × Bool × Bool)) (hs : s.wf = true) : (startTransition s cmd i after split probes grants).wf = true := by
  unfold startTransition
  grind [l1Leave_wf, setDir_wf, hostDrop_wf, tlbDropPa_wf, probe_wf, foldl_keeps, State.wf_mk, memsWf_state]
@[simp] theorem pgdupHome_wf {s : State} (cmd : ℕ) (pa : ℕ) (devs : ℕ) (hs : s.wf = true) : (pgdupHome s cmd pa devs).s.wf = true := by
  unfold pgdupHome
  (repeat' split) <;> simp +contextual [*]
@[simp] theorem pgcolHome_wf {s : State} (cmd : ℕ) (pa : ℕ) (keeper : ℕ) (hs : s.wf = true) : (pgcolHome s cmd pa keeper).s.wf = true := by
  unfold pgcolHome
  (repeat' split) <;> simp +contextual [*]
@[simp] theorem pgsplitHome_wf {s : State} (cmd : ℕ) (pa : ℕ) (hs : s.wf = true) : (pgsplitHome s cmd pa).s.wf = true := by
  unfold pgsplitHome
  (repeat' split) <;> simp +contextual [*]
@[simp] theorem pgjoinHome_wf {s : State} (pa : ℕ) (hs : s.wf = true) : (pgjoinHome s pa).s.wf = true := by
  unfold pgjoinHome
  grind [tlbDropPa_wf, settlePa_wf, setDir_wf, foldl_keeps, State.wf_mk, memsWf_state]
@[simp] theorem pgmigHome_wf {s : State} (cmd : ℕ) (pa : ℕ) (target : ℕ) (hs : s.wf = true) : (pgmigHome s cmd pa target).s.wf = true := by
  unfold pgmigHome
  (repeat' split) <;> simp +contextual [*]
@[simp] theorem dirqUnit_wf {s : State} (c : Cmd) (f : QE) (hs : s.wf = true) : (dirqUnit s c f).Wf := by
  unfold dirqUnit
  (repeat' split) <;> grind [cmdResult_wf, foldl_keeps, State.wf_mk, memsWf_state, Run.Wf]
@[simp] theorem dirsetUnit_wf {s : State} (c : Cmd) (f : QE) (hs : s.wf = true) : (dirsetUnit s c f).Wf := by
  unfold dirsetUnit
  (repeat' split) <;> grind [tlbinvOn_wf, homeWrite_keeps, foldl_keeps, State.wf_mk, memsWf_state, Run.Wf]
@[simp] theorem hostinvUnit_wf {s : State} (c : Cmd) (f : QE) (hs : s.wf = true) : (hostinvUnit s c f).Wf := by
  unfold hostinvUnit
  (repeat' split) <;> grind [hostDrop_wf, foldl_keeps, State.wf_mk, memsWf_state, Run.Wf]
@[simp] theorem privUnit_wf {s : State} (c : Cmd) (hs : s.wf = true) : (privUnit s c).Wf := by
  simp only [privUnit]
  (repeat' split) <;> simp +contextual [*]
@[simp] theorem cmdUnit_wf {s : State} (c : Cmd) (hs : s.wf = true) : (cmdUnit s c).Wf := by
  unfold cmdUnit
  (repeat' split) <;> simp +contextual [*]
@[simp] theorem stepUnit_wf {s : State} (id : ℕ) (hs : s.wf = true) : (stepUnit s id).wf = true := by
  unfold stepUnit
  have hunit := fun c => cmdUnit_wf c hs
  (repeat' split) <;> grind [Run.Wf, stopCmd_wf, updCmd_wf, State.wf_mk, memsWf_state]
@[simp] theorem unitOf_wf {s : State} (cmd : ℕ) (hs : s.wf = true) : (unitOf s cmd).wf = true := by
  unfold unitOf
  (repeat' split) <;> simp +contextual [*]
@[simp] theorem answerValues_wf {s : State} (c : Cmd) (hs : s.wf = true) : (answerValues s c).wf = true := by
  unfold answerValues
  split <;> simp +contextual [*]
@[simp] theorem cmdAnswered_wf {s : State} (c : Cmd) (x : Option Cause) (reach : Bool) (hs : s.wf = true) : (cmdAnswered s c x reach).wf = true := by
  unfold cmdAnswered
  (repeat' split) <;> grind [answerValues_wf, noteCause_wf, stopCmd_wf, foldl_keeps, State.wf_mk, memsWf_state]
@[simp] theorem coreBars_wf {s : State} (core : Option ℕ) (hs : s.wf = true) : (coreBars s core).wf = true := by
  unfold coreBars
  grind [barExamine_wf, foldl_keeps, State.wf_mk, memsWf_state]
@[simp] theorem answered_wf {s : State} (tag : ℕ) (hs : s.wf = true) : (answered s tag).wf = true := by
  unfold answered
  (repeat' split) <;> grind [cmdAnswered_wf, coreBars_wf, deferLanes_wf, postAsync_wf, deferCue_wf, foldl_keeps, State.wf_mk, memsWf_state]
@[simp] theorem recoverFinish_wf {s : State} (x : Transition) (hs : s.wf = true) : (recoverFinish s x).wf = true := by
  unfold recoverFinish
  grind [setDir_wf, wakeInbox_wf, postAsync_wf, foldl_keeps, State.wf_mk, memsWf_state]
@[simp] theorem execDirectoryErrorRecovery_wf (s : State) (index : ℕ) (sizeKnown : Bool) : Sound s (execDirectoryErrorRecovery index sizeKnown s) := by
  simp only [execDirectoryErrorRecovery]
  (repeat' split) <;> grind [noteCause_wf, setDir_wf, probe_wf, recoverFinish_wf, foldl_keeps, State.wf_mk, memsWf_state, Run.wf_andThen, runList_wf, sound_next]
@[simp] theorem entryFound_wf {s : State} (g : ℕ) (hs : s.wf = true) : (entryFound g s).wf = true := by
  unfold entryFound
  split
  · exact hs
  · next c _ =>
    have hpost := postAsync_wf c (BitVec.ofNat 64 (16 * g)) none hs
    revert hpost
    generalize postAsync s c (BitVec.ofNat 64 (16 * g)) none = t
    intro hpost
    split
    · dsimp only
      split
      · next hu => exact Sound.wf (execDirectoryErrorRecovery_wf _ _ _) hu (fresh_keeps hpost _)
      · exact hpost
    · split
      · exact badEntries_keeps hpost _
      · exact hs
@[simp] theorem startFail_wf {s : State} (reason : ℕ) (hs : s.wf = true) : (startFail s reason).wf = true := by
  simp +contextual [startFail, *]
@[simp] theorem machineCheck_wf {s : State} (detail : BitVec 5) (addr : BitVec 64) (hs : s.wf = true) : (machineCheck detail addr s).wf = true := by
  unfold machineCheck
  (repeat' split) <;> grind [postAsync_wf, l1Del_wf, hostDrop_wf, startFail_wf, foldl_keeps, State.wf_mk, memsWf_state]
@[simp] theorem upsetState_wf {s : State} (c : Cause) (a : BitVec 64) (hs : s.wf = true) : (upsetState c a s).wf = true := by
  simp +contextual [upsetState, *]
@[simp] theorem planOf_wf {s : State} (a : Act) (hs : s.wf = true) : (planOf s a).Wf := by
  unfold planOf
  (repeat' split) <;> simp +contextual [*]
@[simp] theorem streamTick_wf {s : State} (hs : s.wf = true) : (streamTick s).wf = true := by
  simp +contextual [streamTick, *]
@[simp] theorem begin_wf {s : State} (hs : s.wf = true) : (begin_ s).wf = true := by
  simp +contextual [begin_, *]
@[simp] theorem enterAll_wf {s : State} (hs : s.wf = true) : (enterAll s).wf = true := by
  simp +contextual [enterAll, *]
@[simp] theorem redoLate_wf {s : State} (g : Grid) (wg : ℕ) (wi : ℕ) (p : LatePass) (hs : s.wf = true) : (redoLate s g wg wi p).wf = true := by
  unfold redoLate
  (repeat' split) <;> grind [updWarp_wf, foldl_keeps, State.wf_mk, memsWf_state]
@[simp] theorem logIssue_wf {r : State} {t : State} (i : Instr) (_ : r.wf = true) (hs1 : t.wf = true) : (logIssue i r t).wf = true := by
  unfold logIssue
  (repeat' split) <;> grind [updWarp_wf, redoLate_wf, foldl_keeps, State.wf_mk, memsWf_state]
@[simp] theorem countPasses_wf {t : State} (wg : ℕ) (wi : ℕ) (issued : List ℕ) (ready : List ℕ) (hs : t.wf = true) : (countPasses t wg wi issued ready).wf = true := by
  unfold countPasses
  split <;> simp +contextual [*]
@[simp] theorem endClk_wf {t : State} (hs : t.wf = true) : (endClk t).wf = true := by
  simp +contextual [endClk, *]
@[simp] theorem logCue_wf {r : State} {t : State} (_ : r.wf = true) (hs1 : t.wf = true) : (logCue r t).wf = true := by
  unfold logCue
  (repeat' split) <;> simp +contextual [*]
@[simp] theorem finishAct_wf {p : State} {r : State} {t : State} (tick : Bool) (a : Act) (i : Option Instr) (_ : p.wf = true) (hs1 : r.wf = true) (hs2 : t.wf = true) : (finishAct tick a i p r t).wf = true := by
  unfold finishAct
  (repeat' split) <;> grind [logIssue_wf, countPasses_wf, endClk_wf, logCue_wf, foldl_keeps, State.wf_mk, memsWf_state]
@[simp] theorem deliverDue_wf {s : State} (op : WOp) (c : WCtx) (hs : s.wf = true) : (deliverDue op s c).wf = true := by
  unfold deliverDue
  grind [deliverOne_wf, foldl_keeps, State.wf_mk, memsWf_state]
@[simp] theorem preciseAt_wf {s : State} (c : WCtx) (lanes : List ℕ) (o : OwnC) (hs : s.wf = true) : (preciseAt s c lanes o).wf = true := by
  simp +contextual [preciseAt, *]
@[simp] theorem issued_wf {s : State} (op : WOp) (c : WCtx) (hs : s.wf = true) : (issued op c s).wf = true := by
  simp +contextual [issued, *]
@[simp] theorem cueDeliver_wf {s : State} (all : Bool) (toks : ℕ) (c : CCtx) (d : Deferred) (hs : s.wf = true) : (cueDeliver all toks s c d).wf = true := by
  simp +contextual [cueDeliver, *]
@[simp] theorem cuePrecise_wf {s : State} (c : CCtx) (o : OwnC) (hs : s.wf = true) : (cuePrecise s c o).wf = true := by
  simp +contextual [cuePrecise, *]
@[simp] theorem cueIssued_wf {s : State} (op : COp) (c : CCtx) (hs : s.wf = true) : (cueIssued op c s).wf = true := by
  simp +contextual [cueIssued, *]
@[simp] theorem dropFlight_wf {s : State} (id : ℕ) (hs : s.wf = true) : (dropFlight s id).wf = true := by
  simp +contextual [dropFlight, *]
@[simp] theorem finishWarp_wf {s : State} (f : Flight) (wg : ℕ) (wi : ℕ) (writes : List RegWrite) (flags : List (ℕ × BitVec 7)) (bad : List (ℕ × Cause × BitVec 64)) (hs : s.wf = true) : (finishWarp s f wg wi writes flags bad).wf = true := by
  simp +contextual [finishWarp, *]
@[simp] theorem finishCue_wf {s : State} (f : Flight) (writes : List RegWrite) (bad : List (ℕ × Cause × BitVec 64)) (hs : s.wf = true) : (finishCue s f writes bad).wf = true := by
  simp +contextual [finishCue, *]
@[simp] theorem finishFlight_wf {s : State} (f : Flight) (hs : s.wf = true) : (finishFlight s f).wf = true := by
  unfold finishFlight
  (repeat' split) <;> grind [finishWarp_wf, finishCue_wf, softTake_wf, foldl_keeps, State.wf_mk, memsWf_state]
@[simp] theorem execMemoryAccessCompletion_wf (s : State) (flight : ℕ) : Sound s (execMemoryAccessCompletion flight s) := by
  unfold execMemoryAccessCompletion
  (repeat' split) <;> simp +contextual [*]
@[simp] theorem execVsfuCompletion_wf (s : State) (flight : ℕ) : Sound s (execVsfuCompletion flight s) := by
  unfold execVsfuCompletion
  (repeat' split) <;> simp +contextual [*]
@[simp] theorem execExecutionPointOperation_wf (s : State) (flight : ℕ) : Sound s (execExecutionPointOperation flight s) := by
  unfold execExecutionPointOperation
  split <;> simp +contextual [*]
@[simp] theorem execWriteBackMerge_wf (s : State) (core : ℕ) (line : ℕ) : Sound s (execWriteBackMerge core line s) := by
  unfold execWriteBackMerge
  split <;> simp +contextual [*]
@[simp] theorem execFetchFill_wf (s : State) (wg : ℕ) (va : ℕ) : Sound s (execFetchFill wg va s) := by
  unfold execFetchFill
  split <;> simp +contextual [*]
@[simp] theorem execReturnAddressRefill_wf (s : State) (flight : ℕ) : Sound s (execReturnAddressRefill flight s) := by
  unfold execReturnAddressRefill
  (repeat' split) <;> simp +contextual [*]
@[simp] theorem execContextLineRefill_wf (s : State) (wg : ℕ) (line : ℕ) : Sound s (execContextLineRefill wg line s) := by
  simp only [execContextLineRefill]
  (repeat' split) <;> grind [updWg_wf, takeWarp_wf, takeCue_wf, foldl_keeps, State.wf_mk, memsWf_state, Run.wf_andThen, runList_wf, sound_next]
@[simp] theorem openAfterPark_wf {s : State} (f : Flight) (i : Instr) (hs : s.wf = true) : (openAfterPark s f i).wf = true := by
  unfold openAfterPark
  split <;> simp +contextual [*]
@[simp] theorem nowServed_wf {s : State} (f : Flight) (hs : s.wf = true) : (nowServed s f).wf = true := by
  unfold nowServed
  split <;> simp +contextual [*]
@[simp] theorem execFullEmptyServe_wf (s : State) (flight : ℕ) : Sound s (execFullEmptyServe flight s) := by
  simp only [execFullEmptyServe]
  (repeat' split) <;> grind [feServe_wf, acquire_wf, openAfterPark_wf, nowServed_wf, foldl_keeps, State.wf_mk, memsWf_state, Run.wf_andThen, runList_wf, sound_next]
@[simp] theorem execCounterWaitSatisfied_wf (s : State) (flight : ℕ) : Sound s (execCounterWaitSatisfied flight s) := by
  simp only [execCounterWaitSatisfied]
  (repeat' split) <;> grind [updThreads_wf, dropFlight_wf, updWarp_wf, acquire_wf, counterBad_wf, foldl_keeps, State.wf_mk, memsWf_state, Run.wf_andThen, runList_wf, sound_next]
@[simp] theorem execDecisionQueuePop_wf (s : State) (wg : ℕ) (warp : ℕ) : Sound s (execDecisionQueuePop wg warp s) := by
  unfold execDecisionQueuePop
  (repeat' split) <;> simp +contextual [*]
@[simp] theorem execDqpushWrite_wf (s : State) (wg : ℕ) : Sound s (execDqpushWrite wg s) := by
  simp +contextual [execDqpushWrite, *]
@[simp] theorem execEngineCommandStart_wf (s : State) (cmd : ℕ) : Sound s (execEngineCommandStart cmd s) := by
  unfold execEngineCommandStart
  split <;> simp +contextual [*]
@[simp] theorem planeSwap_wf {s : State} (c : Cmd) (hs : s.wf = true) : (planeSwap s c).wf = true := by
  unfold planeSwap
  (repeat' split) <;> simp +contextual [*]
@[simp] theorem mmgStart_read_wf {x4 : State} (c : Cmd) (x1 : ℕ) (x2 : ℕ) (x3 : List ℕ) (x5 : List ℕ → State → Run) (hs : x4.wf = true) (hx5 : ∀ y0 y1, y1.wf = true → (x5 y0 y1).Wf) : (mmgStart.read c x1 x2 x3 x4 x5).Wf := by
  induction x1 generalizing x2 x3 x4 with
  | zero => exact hx5 _ _ hs
  | succ n ih => exact engGet_wf _ _ _ _ _ _ hs fun bs t ht => ih _ _ ht
@[simp] theorem mmgStart_wf {s : State} (c : Cmd) (f : QE) (hs : s.wf = true) : (mmgStart s c f).Wf := by
  unfold mmgStart
  (repeat' split) <;> grind [mmgStart_read_wf, noteCause_wf, updCmd_wf, foldl_keeps, State.wf_mk, memsWf_state, Run.Wf]
@[simp] theorem execArrayCommandStart_wf (s : State) (cmd : ℕ) : Sound s (execArrayCommandStart cmd s) := by
  unfold execArrayCommandStart
  split
  case h_2 => simp
  case h_1 c _ =>
    split
    · simp
    · have hstart := fun hs : s.wf = true => updCmd_wf cmd (fun c => { c with started := true }) (planeSwap_wf c hs)
      dsimp only
      split
      · next f _ =>
        have hread := fun hs => mmgStart_wf c f (hstart hs)
        split
        · next heq => exact (sound_next _ _).2 fun hs => by simpa [heq] using hread hs
        · next heq => exact (sound_next _ _).2 fun hs => stopCmd_wf _ _ _ (by simpa [heq] using hread hs)
        · simp
      · exact (sound_next _ _).2 hstart
@[simp] theorem execPlaneLoad_wf (s : State) (cmd : ℕ) : Sound s (execPlaneLoad cmd s) := by
  unfold execPlaneLoad
  (repeat' split) <;> simp +contextual [*]
@[simp] theorem execStreamRowResult_wf (s : State) (cmd : ℕ) : Sound s (execStreamRowResult cmd s) := by
  unfold execStreamRowResult
  split <;> simp +contextual [*]
@[simp] theorem completionCount_wf {s : State} (c : Cmd) (hs : s.wf = true) : (completionCount s c).wf = true := by
  have hgo : ∀ (f : QE) (n : Nat), (match cntAdvance s c f (blkCmd c f) n with
      | .go t => t
      | .stop t x a => noteCause t c.id x a
      | .wait => s).wf = true := by
    intro f n
    have hcount := cntAdvance_wf c f (blkCmd c f) n hs
    split
    · next heq => rwa [heq] at hcount
    · next heq =>
      rw [heq] at hcount
      exact noteCause_wf _ _ _ hcount
    · exact hs
  unfold completionCount
  split
  · exact wf_ite (fun _ => hgo _ _) fun _ => hs
  · exact wf_ite (fun _ => hgo _ _) fun _ => hs
  · exact wf_ite (fun _ => hgo _ _) fun _ => hs
  · exact wf_ite (fun _ => hgo _ _) fun _ => hs
  · exact hs
@[simp] theorem signalWrite_wf {s : State} (asid : BitVec 16) (root : ℕ) (a : ℕ) (v : ℕ) (hs : s.wf = true) : (signalWrite s asid root a v).2.wf = true := by
  simp only [signalWrite]
  (repeat' split) <;> simp +contextual [*]
@[simp] theorem signalBlocks_wf {s : State} (q fuel : Nat) (hs : s.wf = true) : (signalBlocks s q fuel).wf = true := by
  induction fuel generalizing s with
  | zero => exact hs
  | succ n ih =>
    unfold signalBlocks
    split
    · next x _ =>
      split
      · have hsent := fun r a b c d => signalWrite_wf a b c d (updQueue_wf q (fun y => { y with blocks := r }) hs)
        exact ih (wf_ite (fun _ => hsent _ _ _ _ _) fun _ => postAsync_wf _ _ _ (hsent _ _ _ _ _))
      · exact hs
    · exact hs
@[simp] theorem ownerSignals_wf {s : State} (o : CmdOwner) (hs : s.wf = true) : (ownerSignals s o).wf = true := by
  unfold ownerSignals
  split <;> simp +contextual [*]
@[simp] theorem l1DropRange_wf {s : State} (cluster : ℕ) (lo : ℕ) (hi : ℕ) (hs : s.wf = true) : (l1DropRange s cluster lo hi).wf = true := by
  simp +contextual [l1DropRange, *]
@[simp] theorem answerForwarded_wf {s : State} (c : Cmd) (hs : s.wf = true) : (answerForwarded s c).wf = true := by
  unfold answerForwarded
  split <;> simp +contextual [*]
@[simp] theorem cmdCause_wf {s : State} (c : Cmd) (hs : s.wf = true) : (cmdCause s c).wf = true := by
  unfold cmdCause
  (repeat' split) <;> simp +contextual [*]
@[simp] theorem completeCmd_wf {s : State} (c : Cmd) (hs : s.wf = true) : (completeCmd s c).wf = true := by
  unfold completeCmd
  grind [l1DropRange_wf, answerForwarded_wf, cmdCause_wf, cwaitExamine_wf, addTok_wf, foldl_keeps, State.wf_mk, memsWf_state]
@[simp] theorem blockDone_wf {s : State} (c : Cmd) (hs : s.wf = true) : (blockDone s c).wf = true := by
  unfold blockDone
  split <;> simp +contextual [*]
@[simp] theorem execCommandCompletion_wf (s : State) (cmd : ℕ) : Sound s (execCommandCompletion cmd s) := by
  simp only [execCommandCompletion]
  (repeat' split) <;> grind [completionCount_wf, ownerSignals_wf, completeCmd_wf, blockDone_wf, foldl_keeps, State.wf_mk, memsWf_state, Run.wf_andThen, runList_wf, sound_next]
theorem oneUnit_wf (s : State) (cmd : ℕ) (p : Instr → Bool) : Sound s (oneUnit s cmd p) := by
  unfold oneUnit
  split
  · exact (sound_next _ _).2 fun hs => wf_ite (fun _ => stepUnit_wf cmd hs) fun _ => hs
  · exact (sound_next _ _).2 id
@[simp] theorem execDeliveryUnitAdvance_wf (s : State) (cmd : ℕ) : Sound s (execDeliveryUnitAdvance cmd s) := oneUnit_wf s cmd delivers
@[simp] theorem orphanCauses_wf {s : State} (wg : ℕ) (l : List Deferred) (hs : s.wf = true) : (orphanCauses s wg l).wf = true := by
  simp +contextual [orphanCauses, *]
@[simp] theorem execCollectiveCompletion_wf (s : State) (flight : ℕ) : Sound s (execCollectiveCompletion flight s) := by
  simp only [execCollectiveCompletion]
  (repeat' split) <;> grind [softTake_wf, updWg_wf, updWarp_wf, orphanCauses_wf, twaitExamine_wf, dropFlight_wf, foldl_keeps, State.wf_mk, memsWf_state, Run.wf_andThen, runList_wf, sound_next]
@[simp] theorem execAdrainpRowArrival_wf (s : State) (cmd : ℕ) : Sound s (execAdrainpRowArrival cmd s) := oneUnit_wf s cmd isDrainp
@[simp] theorem execContributionAccept_wf (s : State) (cmd : ℕ) : Sound s (execContributionAccept cmd s) := oneUnit_wf s cmd contributes
@[simp] theorem execXcloseAtSlice_wf (s : State) (cmd : ℕ) : Sound s (execXcloseAtSlice cmd s) := oneUnit_wf s cmd isXclose
@[simp] theorem execTableWalk_wf (s : State) (core : ℕ) (asid : ℕ) (root : ℕ) (va : ℕ) : Sound s (execTableWalk core asid root va s) := by
  unfold execTableWalk
  (repeat' split) <;> simp +contextual [*]
@[simp] theorem execNestQueueAppend_wf (s : State) (wg : ℕ) : Sound s (execNestQueueAppend wg s) := by
  unfold execNestQueueAppend
  (repeat' split) <;> simp +contextual [*]
@[simp] theorem setQctl_wf {s : State} (q : ℕ) (enable : Bool) (error : Bool) (held : Bool) (hs : s.wf = true) : (setQctl s q enable error held).wf = true := by
  simp +contextual [setQctl, *]
@[simp] theorem qHold_wf {s : State} (q : ℕ) (cause : Cause) (hs : s.wf = true) : (qHold s q cause).wf = true := by
  simp +contextual [qHold, *]
@[simp] theorem execQueueServe_wf (s : State) (q : ℕ) : Sound s (execQueueServe q s) := by
  simp only [execQueueServe]
  (repeat' split) <;> grind [updQueue_wf, setQreg_wf, qHold_wf, foldl_keeps, State.wf_mk, memsWf_state, Run.wf_andThen, runList_wf, sound_next]
@[simp] theorem takeEntry_wf {s : State} (q : ℕ) (hs : s.wf = true) : (takeEntry s q).wf = true := by
  simp +contextual [takeEntry, *]
@[simp] theorem postCaps_wf {s : State} (a : ℕ) (n : ℕ) (q : ℕ) (hs : s.wf = true) : (postCaps s a n q).wf = true := by
  simp +contextual [postCaps, *]
@[simp] theorem entryNote_wf {s : State} (x : QueueSt) (n : ℕ) (hs : s.wf = true) : (entryNote s x n).wf = true := by
  simp +contextual [entryNote, *]
@[simp] theorem rejectEntry_wf {s : State} (x : QueueSt) (r : Reject) (hs : s.wf = true) : (rejectEntry s x r).wf = true := by
  unfold rejectEntry
  (repeat' split) <;> grind [postAsync_wf, takeEntry_wf, postNote_wf, entryNote_wf, signalWrite_wf, foldl_keeps, State.wf_mk, memsWf_state]
@[simp] theorem execLaunchEntryAccept_wf (s : State) (q : ℕ) : Sound s (execLaunchEntryAccept q s) := by
  simp only [execLaunchEntryAccept]
  (repeat' split) <;> grind [qHold_wf, rejectEntry_wf, acceptGrid_wf, updQueue_wf, takeEntry_wf, foldl_keeps, State.wf_mk, memsWf_state, Run.wf_andThen, runList_wf, sound_next]
@[simp] theorem rejectBlock_wf {s : State} (x : QueueSt) (c : Cause) (hs : s.wf = true) : (rejectBlock s x c).wf = true := by
  unfold rejectBlock
  grind [updQueue_wf, postAsync_wf, takeEntry_wf, foldl_keeps, State.wf_mk, memsWf_state]
@[simp] theorem execCopyBlockAccept_wf (s : State) (q : ℕ) : Sound s (execCopyBlockAccept q s) := by
  simp only [execCopyBlockAccept]
  (repeat' split) <;> grind [signalBlocks_wf, rejectBlock_wf, entryNote_wf, updQueue_wf, takeEntry_wf, registerLocks_wf, foldl_keeps, State.wf_mk, memsWf_state, Run.wf_andThen, runList_wf, sound_next]
@[simp] theorem execWarpEnd_wf (s : State) (wg : ℕ) (warp : ℕ) : Sound s (execWarpEnd wg warp s) := by
  simp only [execWarpEnd]
  (repeat' split) <;> grind [orphanCauses_wf, updWarp_wf, acquire_wf, updWg_wf, dqpushExamine_wf, foldl_keeps, State.wf_mk, memsWf_state, Run.wf_andThen, runList_wf, sound_next]
@[simp] theorem execSliceLineReturn_wf (s : State) (wg : ℕ) (warp : ℕ) (slice : ℕ) : Sound s (execSliceLineReturn wg warp slice s) := by
  unfold execSliceLineReturn
  (repeat' split) <;> simp +contextual [*]
@[simp] theorem execCueThreadEnd_wf (s : State) (wg : ℕ) : Sound s (execCueThreadEnd wg s) := by
  simp +contextual [execCueThreadEnd, *]
@[simp] theorem execWorkgroupEnd_wf (s : State) (wg : ℕ) : Sound s (execWorkgroupEnd wg s) := by
  simp only [execWorkgroupEnd]
  (repeat' split) <;> grind [l1Flush_wf, countEnded_wf, versionCommit_wf, removeWg_wf, foldl_keeps, State.wf_mk, memsWf_state, Run.wf_andThen, runList_wf, sound_next]
@[simp] theorem execGridRetirement_wf (s : State) (grid : ℕ) : Sound s (execGridRetirement grid s) := by
  simp only [execGridRetirement]
  (repeat' split) <;> grind [dropRetired_wf, updGrid_wf, cwaitExamine_wf, addTok_wf, signalWrite_wf, postAsync_wf, foldl_keeps, State.wf_mk, memsWf_state, Run.wf_andThen, runList_wf, sound_next]
@[simp] theorem deliverAtCut_wf {s : State} (wg : ℕ) (hs : s.wf = true) : (deliverAtCut s wg).wf = true := by
  unfold deliverAtCut
  split
  · exact hs
  · next k _ =>
    have hlane : ∀ (w : Warp) (i : Nat) (t : State) (l : Nat), t.wf = true → (match w.threads[l]? with
        | some th => (match dueIn true 0 (th.deferred.filter fun d => d.tok.isNone) with
          | some d => takeWarp (updThread t wg i l fun th => { th with deferred := th.deferred.filter fun d => d.tok.isSome }) wg i [l] (dueRec d th.pc)
          | none => t)
        | none => t).wf = true := by
      intro w i t l ht
      split
      · split
        · exact takeWarp_wf _ _ _ _ (updThread_wf _ _ _ _ ht)
        · exact ht
      · exact ht
    have hwarps : ((List.range k.warps.length).foldl (fun t i => match k.warps[i]? with
        | some w => (Warp_live w).foldl (fun t l => match w.threads[l]? with
          | some th => (match dueIn true 0 (th.deferred.filter fun d => d.tok.isNone) with
            | some d => takeWarp (updThread t wg i l fun th => { th with deferred := th.deferred.filter fun d => d.tok.isSome }) wg i [l] (dueRec d th.pc)
            | none => t)
          | none => t) t
        | none => t) s).wf = true := by
      refine foldl_keeps (fun t i ht => ?_) hs
      split
      · exact foldl_keeps (fun u l hu => hlane _ _ u l hu) ht
      · exact ht
    dsimp only
    split
    · exact takeCue_wf _ _ (updCue_wf _ _ hwarps)
    · exact hwarps
@[simp] theorem loseAtTaking_wf {s : State} (g : Grid) (k : Workgroup) (hs : s.wf = true) : (loseAtTaking s g k).wf = true := by
  simp +contextual [loseAtTaking, *]
@[simp] theorem storeRecords_wf {s : State} (g : Grid) (k : Workgroup) (hs : s.wf = true) : (storeRecords s g k).wf = true := by
  unfold storeRecords
  grind [homeWrite_keeps, foldl_keeps, State.wf_mk, memsWf_state]
@[simp] theorem takeEvents_wf {s : State} (wg : ℕ) (why : TakeWhy) (hs : s.wf = true) : (takeEvents s wg why).wf = true := by
  unfold takeEvents
  (repeat' split) <;> simp +contextual [*]
@[simp] theorem execTaking_wf (s : State) (wg : ℕ) : Sound s (execTaking wg s) := by
  simp only [execTaking]
  (repeat' split) <;> grind [updWg_wf, deliverAtCut_wf, l1Flush_wf, postAsync_wf, loseAtTaking_wf, storeRecords_wf, updCmd_wf, takeEvents_wf, foldl_keeps, State.wf_mk, memsWf_state, Run.wf_andThen, runList_wf, sound_next]
@[simp] theorem storeTiles_wf {s : State} (g : Grid) (k : Workgroup) (hs : s.wf = true) : (storeTiles s g k).wf = true := by
  unfold storeTiles
  grind [homeWrite_keeps, updWg_wf, foldl_keeps, State.wf_mk, memsWf_state]
@[simp] theorem storeLocal_wf {s : State} (g : Grid) (k : Workgroup) (hs : s.wf = true) : (storeLocal s g k).wf = true := by
  unfold storeLocal
  grind [homeWrite_keeps, updWg_wf, foldl_keeps, State.wf_mk, memsWf_state]
@[simp] theorem storeAreas_wf {s : State} (wg : ℕ) (hs : s.wf = true) : (storeAreas s wg).wf = true := by
  unfold storeAreas
  (repeat' split) <;> simp +contextual [*]
@[simp] theorem execImageAreaWrite_wf (s : State) (wg : ℕ) : Sound s (execImageAreaWrite wg s) := by
  unfold execImageAreaWrite
  split <;> simp +contextual [*]
@[simp] theorem storeLine_wf {s : State} (g : Grid) (k : Workgroup) (n : ℕ) (hs : s.wf = true) : (storeLine s g k n).wf = true := by
  unfold storeLine
  grind [homeWrite_keeps, updWg_wf, foldl_keeps, State.wf_mk, memsWf_state]
@[simp] theorem execRegisterLineEviction_wf (s : State) (wg : ℕ) (line : ℕ) : Sound s (execRegisterLineEviction wg line s) := by
  unfold execRegisterLineEviction
  (repeat' split) <;> simp +contextual [*]
@[simp] theorem loadLocal_wf {s : State} (g : Grid) (k : Workgroup) (hs : s.wf = true) : (loadLocal s g k).wf = true := by
  unfold loadLocal
  grind [lsWrite_keeps, foldl_keeps, State.wf_mk, memsWf_state]
@[simp] theorem installWg_wf {s : State} (g : Grid) (k : Workgroup) (core : ℕ) (room : Room) (hs : s.wf = true) : (installWg s g k core room).wf = true := by
  unfold installWg
  (repeat' split) <;> grind [updWg_wf, loadLocal_wf, deferCue_wf, postAsync_wf, noteWg_wf, l1Inv_wf, foldl_keeps, State.wf_mk, memsWf_state]
@[simp] theorem moveLocal_wf {s : State} (g : Grid) (old : Workgroup) (new : Workgroup) (hs : s.wf = true) : (moveLocal s g old new).wf = true := by
  unfold moveLocal
  grind [lsWrite_keeps, foldl_keeps, State.wf_mk, memsWf_state]
@[simp] theorem storeLines_wf {s : State} (wg : ℕ) (hs : s.wf = true) : (storeLines s wg).wf = true := by
  unfold storeLines
  (repeat' split) <;> grind [storeLine_wf, foldl_keeps, State.wf_mk, memsWf_state]
@[simp] theorem execMigrationMessage_wf (s : State) (wg : ℕ) (intact : Bool) : Sound s (execMigrationMessage wg intact s) := by
  simp only [execMigrationMessage]
  (repeat' split) <;> grind [installWg_wf, updWg_wf, moveLocal_wf, postAsync_wf, storeAreas_wf, storeLines_wf, foldl_keeps, State.wf_mk, memsWf_state, Run.wf_andThen, runList_wf, sound_next]
@[simp] theorem svcFinish_wf {s : State} (f : Flight) (writes : List RegWrite) (bad : List (ℕ × Cause × BitVec 64)) (hs : s.wf = true) : (svcFinish s f writes bad).wf = true := by
  unfold svcFinish
  split <;> simp +contextual [*]
@[simp] theorem execServiceReply_wf (s : State) (flight : ℕ) : Sound s (execServiceReply flight s) := by
  simp only [execServiceReply]
  (repeat' split) <;> simp +contextual [*]
@[simp] theorem execErrorQueueDropReport_wf (s : State) : Sound s (execErrorQueueDropReport s) := by
  simp +contextual [execErrorQueueDropReport, *]
@[simp] theorem execReservationTimeout_wf (s : State) : Sound s (execReservationTimeout s) := by
  simp +contextual [execReservationTimeout, *]
@[simp] theorem joinExamine_wf {s : State} (wg : ℕ) (wi : ℕ) (hs : s.wf = true) : (joinExamine s wg wi).wf = true := by
  simp +contextual [joinExamine, *]
@[simp] theorem execJoinDeadline_wf (s : State) : Sound s (execJoinDeadline s) := by
  simp only [execJoinDeadline]
  grind [joinExamine_wf, foldl_keeps, State.wf_mk, memsWf_state, Run.wf_andThen, runList_wf, sound_next]
@[simp] theorem execYieldExpiry_wf (s : State) : Sound s (execYieldExpiry s) := by
  simp +contextual [execYieldExpiry, *]
@[simp] theorem placeWg_wf {s : State} (g : Grid) (core : ℕ) (hs : s.wf = true) : (placeWg s g core).all State.wf = true := by
  unfold placeWg
  have hplaced := fun t (ht : State.wf t = true) => noteWg_wf s.nextId (l1Inv_wf core ht)
  cases allocRun s (imageSize g.lrec) with
  | none => rfl
  | some image =>
    cases admits s g.lrec core none with
    | none => rfl
    | some room =>
      dsimp only [Option.bind]
      split
      · rfl
      · exact hplaced _ (updGrid_wf _ _ hs)
@[simp] theorem execWorkgroupPlacement_wf (s : State) : Sound s (execWorkgroupPlacement s) := by
  unfold execWorkgroupPlacement
  split
  case h_2 => simp
  case h_1 level member grid core _ =>
    cases findGrid s grid with
    | none => simp
    | some g =>
      have hplace := fun hs : s.wf = true => placeWg_wf g core hs
      cases hp : placeWg s g core with
      | none => simp [hp]
      | some t => simpa [hp] using hplace
@[simp] theorem execAgingTick_wf (s : State) : Sound s (execAgingTick s) := by
  simp +contextual [execAgingTick, *]
@[simp] theorem execResumption_wf (s : State) : Sound s (execResumption s) := by
  unfold execResumption
  (repeat' split) <;> simp +contextual [*]
@[simp] theorem execMigrationFallback_wf (s : State) : Sound s (execMigrationFallback s) := by
  simp only [execMigrationFallback]
  grind [postAsync_wf, updWg_wf, foldl_keeps, State.wf_mk, memsWf_state, Run.wf_andThen, runList_wf, sound_next]
@[simp] theorem execPreemptionTimeout_wf (s : State) : Sound s (execPreemptionTimeout s) := by
  simp only [execPreemptionTimeout]
  grind [postAsync_wf, updWg_wf, foldl_keeps, State.wf_mk, memsWf_state, Run.wf_andThen, runList_wf, sound_next]
@[simp] theorem execServiceTimeout_wf (s : State) : Sound s (execServiceTimeout s) := by
  simp only [execServiceTimeout]
  grind [svcFinish_wf, foldl_keeps, State.wf_mk, memsWf_state, Run.wf_andThen, runList_wf, sound_next]
@[simp] theorem postLost_wf {s : State} (ls : List CombLine) (hs : s.wf = true) : (postLost s ls).wf = true := by
  simp +contextual [postLost, *]
@[simp] theorem dieAlarmed_wf {s : State} (d : ℕ) (hs : s.wf = true) : (dieAlarmed s d).wf = true := by
  simp +contextual [dieAlarmed, *]
@[simp] theorem dieRead_wf {s : State} (d : ℕ) (v : BitVec 16) (hs : s.wf = true) : (dieRead s d v).wf = true := by
  unfold dieRead
  (repeat' split) <;> grind [setMreg_wf, dieAlarmed_wf, foldl_keeps, State.wf_mk, memsWf_state]
@[simp] theorem execSensorRefresh_wf (s : State) (cols : List (ℕ × BitVec 16)) (dies : List (ℕ × BitVec 16)) : Sound s (execSensorRefresh cols dies s) := by
  simp only [execSensorRefresh]
  grind [dieRead_wf, colRead_wf, foldl_keeps, State.wf_mk, memsWf_state, Run.wf_andThen, runList_wf, sound_next]
@[simp] theorem execGovernorInterval_wf (s : State) (power : ℕ) : Sound s (execGovernorInterval power s) := by
  simp +contextual [execGovernorInterval, *]
@[simp] theorem execGovernorHoldLimit_wf (s : State) : Sound s (execGovernorHoldLimit s) := by
  simp +contextual [execGovernorHoldLimit, *]
@[simp] theorem combGone_wf {s : State} (line : ℕ) (hs : s.wf = true) : (combGone s line).wf = true := by
  simp +contextual [combGone, *]
@[simp] theorem poisonLine_wf {s : State} (line : ℕ) (hs : s.wf = true) : (poisonLine s line).wf = true := by
  unfold poisonLine
  grind [combGone_wf, poisonGranule_wf, foldl_keeps, State.wf_mk, memsWf_state]
@[simp] theorem rehome_wf {s : State} (hs : s.wf = true) : (rehome s).wf = true := by
  simp +contextual [rehome, *]
@[simp] theorem powerOff_wf {s : State} (d : ℕ) (hs : s.wf = true) : (powerOff s d).wf = true := by
  unfold powerOff
  grind [combRevert_wf, poisonLine_wf, rehome_wf, setMreg_wf, postLost_wf, postAsync_wf, foldl_keeps, State.wf_mk, memsWf_state]
@[simp] theorem execDiePowerOff_wf (s : State) : Sound s (execDiePowerOff s) := by
  simp +contextual [execDiePowerOff, *]
@[simp] theorem execDieReturn_wf (s : State) : Sound s (execDieReturn s) := by
  simp +contextual [execDieReturn, *]
@[simp] theorem versionLost_wf {s : State} (k : Workgroup) (v : VLine) (hs : s.wf = true) : (versionLost s k v).wf = true := by
  simp +contextual [versionLost, *]
@[simp] theorem execCombLineError_wf (s : State) (line : ℕ) : Sound s (execCombLineError line s) := by
  unfold execCombLineError
  (repeat' split) <;> simp +contextual [*]
@[simp] theorem execMachineCheckEvent_wf (s : State) (detail : BitVec 5) (addr : BitVec 64) : Sound s (execMachineCheckEvent detail addr s) := by
  simp +contextual [execMachineCheckEvent, *]
@[simp] theorem writeIdentity_wf {s : State} (f : Flash) (hs : s.wf = true) : (writeIdentity s f).wf = true := by
  unfold writeIdentity
  grind [setMreg_wf, foldl_keeps, State.wf_mk, memsWf_state]
@[simp] theorem firstTemps_wf {s : State} (cols : List (ℕ × BitVec 16)) (hs : s.wf = true) : (firstTemps s cols).wf = true := by
  unfold firstTemps
  grind [setMreg_wf, foldl_keeps, State.wf_mk, memsWf_state]
@[simp] theorem firstReadings_wf {s : State} (cols : List (ℕ × BitVec 16)) (dies : List (ℕ × BitVec 16)) (hs : s.wf = true) : (firstReadings s cols dies).wf = true := by
  unfold firstReadings
  grind [firstTemps_wf, postAsync_wf, dieRead_wf, foldl_keeps, State.wf_mk, memsWf_state]
@[simp] theorem execStartUp_wf (s : State) (linksTrained : Bool) (hbmTrained : Bool) (cols : List (ℕ × BitVec 16)) (dies : List (ℕ × BitVec 16)) : Sound s (execStartUp linksTrained hbmTrained cols dies s) := by
  simp only [execStartUp]
  (repeat' split) <;> grind [startFail_wf, writeIdentity_wf, setMreg_wf, firstReadings_wf, clearTables_wf, foldl_keeps, State.wf_mk, memsWf_state, Run.wf_andThen, runList_wf, sound_next]
@[simp] theorem takeFresh_wf {s : State} (hs : s.wf = true) : (takeFresh s).2.wf = true := by
  simp +contextual [takeFresh, *]
@[simp] theorem execAttestation_wf (s : State) : Sound s (execAttestation s) := by
  simp only [execAttestation]
  (repeat' split) <;> grind [takeFresh_wf, setMreg_wf, homeWrite_keeps, postAsync_wf, foldl_keeps, State.wf_mk, memsWf_state, Run.wf_andThen, runList_wf, sound_next]
@[simp] theorem enableQueue_wf {s : State} (q : ℕ) (hs : s.wf = true) : (enableQueue s q).wf = true := by
  unfold enableQueue
  (repeat' split) <;> grind [setQctl_wf, postAsync_wf, postCaps_wf, foldl_keeps, State.wf_mk, memsWf_state]
@[simp] theorem execQueueEnable_wf (s : State) : Sound s (execQueueEnable s) := by
  simp +contextual [execQueueEnable, *]
@[simp] theorem execQueueDisable_wf (s : State) : Sound s (execQueueDisable s) := by
  simp +contextual [execQueueDisable, *]
@[simp] theorem execWshareUpdate_wf (s : State) : Sound s (execWshareUpdate s) := by
  simp +contextual [execWshareUpdate, *]
@[simp] theorem execHostRecall_wf (s : State) (line : ℕ) (dirty : Option (List Byte)) : Sound s (execHostRecall line dirty s) := by
  unfold execHostRecall
  (repeat' split) <;> simp +contextual [*]
@[simp] theorem holderDrop_wf {s : State} (page : ℕ) (e : Bool × ℕ × ℕ) (hs : s.wf = true) : (holderDrop s page e).wf = true := by
  unfold holderDrop
  grind [tlbDropPa_wf, l1Leave_wf, foldl_keeps, State.wf_mk, memsWf_state]
@[simp] theorem sendAck_wf {s : State} (page : ℕ) (seq : BitVec 16) (aux : ℕ) (data : List Byte) (caps : optParam (List (BitVec 16)) []) (hs : s.wf = true) : (sendAck s page seq aux data caps).wf = true := by
  simp +contextual [sendAck, *]
@[simp] theorem setLocal_wf {s : State} (a : ℕ) (frame : ℕ) (st : ℕ) (seq : BitVec 16) (hs : s.wf = true) : (setLocal s a frame st seq).wf = true := by
  simp +contextual [setLocal, *]
@[simp] theorem execGrant_wf (s : State) (page : ℕ) (owned : Bool) (seq : BitVec 16) (data : Option (List Byte)) (syndromes : List (BitVec 16)) : Sound s (execGrant page owned seq data syndromes s) := by
  simp only [execGrant]
  (repeat' split) <;> grind [homeWrite_keeps, holderDrop_wf, sendAck_wf, setLocal_wf, foldl_keeps, State.wf_mk, memsWf_state, Run.wf_andThen, runList_wf, sound_next]
@[simp] theorem probed_wf {s : State} (page : ℕ) (seq : BitVec 16) (act : Bool × ℕ × ℕ → State) (hs : s.wf = true) (hact : ∀ y0, (act y0).wf = true) : (probed s page seq act).wf = true := by
  unfold probed
  split
  · exact sendAck_wf _ _ _ _ _ hs
  · split
    · exact sendAck_wf _ _ _ _ _ hs
    · exact hact _
@[simp] theorem copyDrop_wf {s : State} (page : ℕ) (e : Bool × ℕ × ℕ) (hs : s.wf = true) : (copyDrop s page e).wf = true := by
  simp +contextual [copyDrop, *]
@[simp] theorem execProbeInv_wf (s : State) (page : ℕ) (seq : BitVec 16) : Sound s (execProbeInv page seq s) := (sound_next _ _).2 fun hs => probed_wf _ _ _ hs fun _ => sendAck_wf _ _ _ _ _ (copyDrop_wf _ _ hs)
@[simp] theorem execProbeRecall_wf (s : State) (page : ℕ) (seq : BitVec 16) : Sound s (execProbeRecall page seq s) := (sound_next _ _).2 fun hs => probed_wf _ _ _ hs fun _ => sendAck_wf _ _ _ _ _ (copyDrop_wf _ _ hs)
@[simp] theorem splitOne_wf {s : State} (page : ℕ) (seq : BitVec 16) (e : Bool × ℕ × ℕ) (i : ℕ) (hs : s.wf = true) : (splitOne s page seq e i).all State.wf = true := by
  simp [splitOne, Option.all_eq_true, hs]
@[simp] theorem execProbeSplit_wf (s : State) (page : ℕ) (seq : BitVec 16) : Sound s (execProbeSplit page seq s) := by
  unfold execProbeSplit
  refine (sound_next _ _).2 fun hs => probed_wf _ _ _ hs fun e => ?_
  split
  · exact sendAck_wf _ _ _ _ _ hs
  · split
    next drops t heq =>
      have ht : (drops, t).2.wf = true := by
        rw [← heq]
        refine foldl_snd_keeps (fun ⟨d, u⟩ i hu => ?_) (copyDrop_wf page e hs)
        have hsplit := splitOne_wf page seq e i hu
        cases ho : splitOne u page seq e i with
        | none => simpa only [ho] using hu
        | some v => simpa only [ho, Option.all_some] using hsplit
      exact sendAck_wf _ _ _ _ _ ht
@[simp] theorem execProbeAll_wf (s : State) (page : ℕ) (home : ℕ) : Sound s (execProbeAll page home s) := by
  unfold execProbeAll
  split <;> simp +contextual [*]
@[simp] theorem mergeAck_wf {s : State} (x : Transition) (data : Option Carried) (dropped : List ℕ) (hs : s.wf = true) : (mergeAck s x data dropped).wf = true := by
  unfold mergeAck
  (repeat' split) <;> grind [putSynds_wf, homeWrite_keeps, foldl_keeps, State.wf_mk, memsWf_state]
@[simp] theorem execAck_wf (s : State) (src : ℕ) (page : ℕ) (seq : BitVec 16) (data : Option Carried) (dropped : List ℕ) : Sound s (execAck src page seq data dropped s) := by
  simp only [execAck]
  (repeat' split) <;> simp +contextual [*]
@[simp] theorem execForwardedCommand_wf (s : State) (src : ℕ) (op : BitVec 7) (pa : ℕ) (operand : DWord) : Sound s (execForwardedCommand src op pa operand s) := by
  unfold execForwardedCommand
  (repeat' split) <;> simp +contextual [*]
@[simp] theorem drainPort_wf {s : State} (p : ℕ) (hs : s.wf = true) : (drainPort s p).wf = true := by
  unfold drainPort
  split <;> simp +contextual [*]
@[simp] theorem ackPort_wf {s : State} (port : ℕ) (ack : BitVec 12) (hs : s.wf = true) : (ackPort s port ack).wf = true := by
  simp +contextual [ackPort, *]
@[simp] theorem portDown_wf {s : State} (p : ℕ) (hs : s.wf = true) : (portDown s p).wf = true := by
  unfold portDown
  (repeat' split) <;> grind [updPort_wf, postAsync_wf, routeMsg_wf, foldl_keeps, State.wf_mk, memsWf_state]
@[simp] theorem ownMessage_wf {s : State} (src : ℕ) (kind : ℕ) (gs : List (BitVec 128)) (hs : s.wf = true) : (ownMessage s src kind gs).wf = true := by
  unfold ownMessage
  (repeat' split) <;> grind [sendMsg_wf, contribute_wf, openGroup_wf, closeGroup_wf, tlbinvOn_wf, foldl_keeps, State.wf_mk, memsWf_state]
@[simp] theorem acceptPacket_wf {s : State} (port : ℕ) (header : DWord) (d : Decoded) (hs : s.wf = true) : (acceptPacket s port header d).wf = true := by
  unfold acceptPacket
  grind [updPort_wf, ownMessage_wf, postMsg_wf, foldl_keeps, State.wf_mk, memsWf_state]
@[simp] theorem execPacket_wf (s : State) (port : ℕ) (header : List Byte) (rest : List Byte) (more : List (List Byte)) : Sound s (execPacket port header rest more s) := by
  simp only [execPacket]
  (repeat' split) <;> simp +contextual [*]
@[simp] theorem execNak_wf (s : State) (port : ℕ) (lseq : BitVec 12) : Sound s (execNak port lseq s) := by
  simp only [execNak]
  (repeat' split) <;> grind [updPort_wf, ackPort_wf, portDown_wf, foldl_keeps, State.wf_mk, memsWf_state, Run.wf_andThen, runList_wf, sound_next]
@[simp] theorem execLinkRetryThreshold_wf (s : State) : Sound s (execLinkRetryThreshold s) := by
  simp only [execLinkRetryThreshold]
  grind [postAsync_wf, updPort_wf, foldl_keeps, State.wf_mk, memsWf_state, Run.wf_andThen, runList_wf, sound_next]
@[simp] theorem execLinkDown_wf (s : State) (port : ℕ) : Sound s (execLinkDown port s) := by
  simp +contextual [execLinkDown, *]
@[simp] theorem execLinkUp_wf (s : State) (port : ℕ) : Sound s (execLinkUp port s) := by
  unfold execLinkUp
  (repeat' split) <;> simp +contextual [*]
end Sys2Proof.Machine
end

section
/-! The canonical form of the three memories is kept (family other), continued: the operations of the instructions, and the step. -/

open Sys2Proof

namespace Sys2Proof.Machine

/-! ### Operations -/

/-- The effect of a warp instruction, and what it does first when it is held, keep the form. -/
def WOp.Keeps (op : WOp) : Prop := ∀ c s, s.wf = true → (op.eff c s).wf = true ∧ (op.prep s c).all State.wf = true
/-- The same of a cue instruction; also what a cause of its own posts. -/
def COp.Keeps (op : COp) : Prop := ∀ c s, s.wf = true → (op.eff c s).wf = true ∧ (op.prep s c).all State.wf = true ∧ (op.note c s).wf = true
/-- What the issue of an engine command itself changes keeps the form. -/
def ECmd.Keeps (x : ECmd) : Prop := ∀ c s, s.wf = true → (x.pre c s).wf = true

theorem elementwise_keeps (i : Instr) (fn : WCtx → VF → Nat → Nat → Nat → Nat → Nat × Flags) : (elementwise i fn).Keeps := by
  intro c s hs
  refine ⟨?_, ?_⟩
  · simp only [elementwise]
    (repeat' split) <;> simp +contextual [hs]
  · simp only [elementwise]
    simp
theorem predwise_keeps (i : Instr) (fn : VF → Nat → Nat → Bool × Flags) : (predwise i fn).Keeps := by
  intro c s hs
  refine ⟨?_, ?_⟩
  · simp only [predwise]
    (repeat' split) <;> simp +contextual [hs]
  · simp only [predwise]
    simp
theorem special_keeps (i : Instr) (fn : VF → Nat → Nat → Nat × Flags) : (special i fn).Keeps := by
  intro c s hs
  refine ⟨?_, ?_⟩
  · simp only [special]
    (repeat' split) <;> simp +contextual [hs]
  · simp only [special]
    simp
theorem loadOp_keeps (i : Instr) (f : MF) (sp : Space) (m : MA) : (loadOp i f sp m).Keeps := by
  intro c s hs
  simp +contextual [loadOp, hs]
theorem storeOp_keeps (i : Instr) (f : MF) (sp : Space) (m : MA) : (storeOp i f sp m).Keeps := by
  intro c s hs
  refine ⟨?_, ?_⟩
  · simp only [storeOp]
    simp +contextual [hs]
  · simp only [storeOp]
    (repeat' split) <;> simp [hs]
theorem pointIssue_keeps (p : PointOp) : (pointIssue p).Keeps := by
  intro c s hs
  refine ⟨wf_ite (fun _ => emptyFlight_wf _ _ _ _ hs) fun _ => ?_, ?_⟩
  · have hdropped := fun ps : List (Nat × Nat × Loc × Trans) => foldl_keeps (l := ps) (f := fun t (_, a, loc, tr) => touchTlb (pointDrop t (WCtx_iss c) loc p.n) (WCtx_iss c) a tr)
      (fun _ _ ht => touchTlb_wf _ _ _ (pointDrop_wf _ _ _ ht)) (orderBefore_wf (WCtx_iss c) (isRel p.ordr) p.obs (placesOf (p.accs s c)) hs)
    exact wf_ite (fun _ => markTask_wf _ _ _ (launchFlight_wf _ _ _ _ _ (issueResv_wf _ _ _ _ (hdropped _)))) fun _ => launchFlight_wf _ _ _ _ _ (issueResv_wf _ _ _ _ (hdropped _))
  · dsimp only [pointIssue]
    split
    · exact relFlush_wf _ _ hs
    · rfl
theorem laneOp_keeps (i : Instr) (fn : WCtx → VF → VSpec → Nat → Nat × Flags) : (laneOp i fn).Keeps := by
  intro c s hs
  refine ⟨?_, ?_⟩
  · simp only [laneOp]
    (repeat' split) <;> simp +contextual [hs]
  · simp only [laneOp]
    simp
theorem collective_keeps (i : Instr) (f : TF) (fill : Bool) : (collective i f fill).Keeps := by
  intro c s hs
  simp +contextual [collective, hs]
theorem cueAlu_keeps (i : Instr) (f : QF) (fn : Nat → Nat → Nat → Int) : (cueAlu i f fn).Keeps := by
  intro c s hs
  simp +contextual [cueAlu, hs]
theorem cuePoint_keeps (i : Instr) (f : QM) (n : Nat) (excl : Bool) (own : State → CCtx → List LAcc → Option OwnC) (ops : CCtx → List DWord) : (cuePoint i f n excl own ops).Keeps := by
  intro c s hs
  refine ⟨?_, cueRelPrep_wf _ _ _ hs, hs⟩
  have hbefore := orderBefore_wf c.iss (isRel f.ordr.toNat) f.obs (placesOf (pointAccs f n excl s c)) hs
  dsimp only [cuePoint]
  split
  · exact markCue_wf _ _ _ (launchCueFlight_wf _ _ _ _ (touchTlb_wf _ _ _ (pointDrop_wf _ _ _ hbefore)))
  · exact hbefore
theorem cmdOp_keeps {x : ECmd} (hx : x.Keeps) : (cmdOp x).Keeps := fun _ _ hs => ⟨registerLocks_wf _ (addTok_wf _ _ _ (hx _ _ (drainStream_wf _ hs))), rfl, hs⟩
theorem maOp_keeps (i : Instr) (f : AF) (own : State → WCtx → List LAcc → Option OwnC) (data : WCtx → Nat → List DWord) : (maOp i f own data).Keeps := pointIssue_keeps _
theorem pairOp_keeps (i : Instr) (f : MF) (n : Nat) (w marks excl : Bool) (own : State → WCtx → List LAcc → Option OwnC) (data : WCtx → Nat → List DWord) : (pairOp i f n w marks excl own data).Keeps := pointIssue_keeps _
theorem fpOp_keeps (i : Instr) (fn : Nat → Nat → Nat → Nat → Nat × Flags) : (fpOp i fn).Keeps := elementwise_keeps _ _
theorem slotOp_keeps (i : Instr) (f : VF) (fn : Word → Nat → Nat → Nat → Nat × Flags) : (slotOp i f fn).Keeps := by
  intro c s hs
  simp only [slotOp, elementwise, Option.all_none, and_true]
  split
  · exact hs
  · apply updWarp_wf
    exact hs
theorem intOp_keeps (i : Instr) (fn : Nat → Nat → Nat → Nat → Nat) : (intOp i fn).Keeps := elementwise_keeps _ _
theorem opLdG_keeps (f : MF) : (opLdG f).Keeps := loadOp_keeps _ _ _ _
theorem opStG_keeps (f : MF) : (opStG f).Keeps := storeOp_keeps _ _ _ _
theorem opLdL_keeps (f : MF) : (opLdL f).Keeps := loadOp_keeps _ _ _ _
theorem opStL_keeps (f : MF) : (opStL f).Keeps := storeOp_keeps _ _ _ _
theorem opLdC_keeps (f : MF) : (opLdC f).Keeps := loadOp_keeps _ _ _ _
theorem opStC_keeps (f : MF) : (opStC f).Keeps := storeOp_keeps _ _ _ _
theorem opLdP_keeps (f : MF) : (opLdP f).Keeps := loadOp_keeps _ _ _ _
theorem opStP_keeps (f : MF) : (opStP f).Keeps := storeOp_keeps _ _ _ _
theorem opPf_keeps (f : MF) : (opPf f).Keeps := by
  intro c s hs
  refine ⟨foldl_keeps (fun t l ht => ?_) hs, rfl⟩
  split
  · exact prefetch_wf _ _ _ _ _ _ ht
  · exact ht
theorem opFe_keeps (f : MF) : (opFe f).Keeps := by
  intro c s hs
  refine ⟨wf_ite (fun _ => emptyFlight_wf _ _ _ _ hs) fun _ => ?_, ?_⟩
  · refine launchFlight_wf _ _ _ _ _ (wf_ite (fun _ => acquire_wf _ _ ?_) fun _ => ?_)
    all_goals
      refine foldl_snd_keeps (fun t x ht => ?_) (orderBefore_wf _ _ _ _ hs)
      dsimp only
      (repeat' split) <;> exact ht
  · dsimp only [opFe]
    split
    · exact relFlush_wf _ _ hs
    · rfl
theorem opL1wb_keeps (f : MF) : (opL1wb f).Keeps := by
  intro c s hs
  refine ⟨?_, ?_⟩
  · simp only [opL1wb]
    (repeat' split) <;> simp +contextual [hs]
  · simp only [opL1wb]
    simp
theorem opL1inv_keeps (f : MF) : (opL1inv f).Keeps := by
  intro c s hs
  refine ⟨?_, ?_⟩
  · simp only [opL1inv]
    (repeat' split) <;> simp +contextual [hs]
  · simp only [opL1inv]
    simp
theorem opKvkey_keeps (f : VF) : (opKvkey f).Keeps := by
  intro c s hs
  simp +contextual [opKvkey, hs]
theorem opBra_keeps (f : IF) : (opBra f).Keeps := by
  intro c s hs
  simp +contextual [opBra, hs]
theorem opCall_keeps (f : IF) : (opCall f).Keeps := by
  intro c s hs
  simp +contextual [opCall, hs]
theorem opBrx_keeps (f : VF) : (opBrx f).Keeps := by
  intro c s hs
  simp +contextual [opBrx, hs]
theorem opCallx_keeps (f : VF) : (opCallx f).Keeps := by
  intro c s hs
  simp +contextual [opCallx, hs]
theorem opRet_keeps (f : VF) : (opRet f).Keeps := by
  intro c s hs
  have hloads := refillLoads_wf c hs
  refine ⟨?_, rfl⟩
  dsimp only [opRet]
  split
  · exact updThreads_wf _ _ _ _ (updThreads_wf _ _ _ _ hloads)
  · exact updThreads_wf _ _ _ _ (addFlight_wf _ _ _ _ (updThreads_wf _ _ _ _ (updThreads_wf _ _ _ _ hloads)))
theorem opJoin_keeps (f : IF) : (opJoin f).Keeps := by
  intro c s hs
  simp +contextual [opJoin, hs]
theorem opDqpop_keeps (f : VF) : (opDqpop f).Keeps := by
  intro c s hs
  simp +contextual [opDqpop, hs]
theorem opDqbr_keeps (f : VF) : (opDqbr f).Keeps := by
  intro c s hs
  simp +contextual [opDqbr, hs]
theorem opAtom_keeps (f : AF) : (opAtom f).Keeps := maOp_keeps _ _ _ _
theorem opAtomf_keeps (f : AF) : (opAtomf f).Keeps := maOp_keeps _ _ _ _
theorem opCas_keeps (f : AF) : (opCas f).Keeps := maOp_keeps _ _ _ _
theorem opLdres_keeps (f : MF) : (opLdres f).Keeps := pairOp_keeps _ _ _ _ _ _ _ _
theorem opStcond_keeps (f : MF) : (opStcond f).Keeps := pairOp_keeps _ _ _ _ _ _ _ _
theorem opForage_keeps (f : MF) : (opForage f).Keeps := pairOp_keeps _ _ _ _ _ _ _ _
theorem opFence_keeps (f : MF) : (opFence f).Keeps := by
  intro c s hs
  refine ⟨?_, ?_⟩
  · simp only [opFence]
    (repeat' split) <;> simp +contextual [hs]
  · simp only [opFence]
    (repeat' split) <;> simp [hs]
theorem opBar_keeps (f : MF) : (opBar f).Keeps := by
  intro c s hs
  simp +contextual [opBar, hs]
theorem opCntadd_keeps (f : MF) : (opCntadd f).Keeps := pointIssue_keeps _
theorem opCntwt_keeps (f : MF) : (opCntwt f).Keeps := by
  intro c s hs
  have hopen := fun others kind lanes u => openIn_wf c lanes (addFlight (updThreads (beforeAccess s (WCtx_iss c) (placesOf (counterAccs f false s c))) c.wg c.wi others (stepThread (instrLen f.l))) (WCtx_iss c) c.pc f.look.toNat kind).1
    f.look.toNat u false false (addFlight_wf (WCtx_iss c) c.pc f.look.toNat kind (updThreads_wf c.wg c.wi others (stepThread (instrLen f.l)) (beforeAccess_wf (WCtx_iss c) (placesOf (counterAccs f false s c)) hs)))
  refine ⟨?_, rfl⟩
  dsimp only [opCntwt]
  split
  · exact counterBad_wf _ _ _ _ _ (updThreads_wf _ _ _ _ (wf_ite (fun _ => acquire_wf _ _ (hopen _ _ _ _)) fun _ => hopen _ _ _ _))
  · exact updThreads_wf _ _ _ _ (hopen _ _ _ _)
theorem opExit_keeps (f : VF) : (opExit f).Keeps := by
  intro c s hs
  refine ⟨?_, ?_⟩
  · simp only [opExit]
    (repeat' split) <;> simp +contextual [hs]
  · simp only [opExit]
    simp
theorem opTrap_keeps (f : VF) : (opTrap f).Keeps := by
  intro c s hs
  simp +contextual [opTrap, hs]
theorem opBrk_keeps (f : VF) : (opBrk f).Keeps := by
  intro c s hs
  simp +contextual [opBrk, hs]
theorem opSvc_keeps (f : VF) : (opSvc f).Keeps := by
  intro c s hs
  have hmark := markTask_wf c 6 f.look.toNat hs
  refine ⟨wf_ite (fun _ => emptyFlight_wf _ _ _ _ hs) fun _ => ?_, rfl⟩
  exact wf_ite (fun _ => launchFlight_wf _ _ _ _ _ hmark) fun _ => openWindow_wf _ _ _ _ _ _ (addFlight_wf _ _ _ _ (svcPost_wf _ _ _ hmark))
theorem opWake_keeps (f : VF) : (opWake f).Keeps := by
  intro c s hs
  refine ⟨?_, ?_⟩
  · simp only [opWake]
    (repeat' split) <;> simp +contextual [hs]
  · simp only [opWake]
    simp
theorem opSreg_keeps (f : VF) : (opSreg f).Keeps := by
  intro c s hs
  simp +contextual [opSreg, hs]
theorem opSwreg_keeps (f : VF) : (opSwreg f).Keeps := by
  intro c s hs
  simp +contextual [opSwreg, hs]
theorem opYield_keeps (f : VF) : (opYield f).Keeps := by
  intro c s hs
  simp +contextual [opYield, hs]
theorem opNop_keeps (f : VF) : (opNop f).Keeps := by
  intro c s hs
  simp +contextual [opNop, hs]
theorem opResume_keeps (f : VF) : (opResume f).Keeps := by
  intro c s hs
  refine ⟨wf_ite (fun _ => updThreads_wf _ _ _ _ hs) fun _ => foldl_keeps (fun t l ht => ?_) hs, rfl⟩
  have hread := readRecord_wf c.wg c.wi l ht
  split
  · next heq =>
    rw [heq] at hread
    exact updThread_wf _ _ _ _ hread
  · next heq => rwa [heq] at hread
theorem opTwait_keeps (f : VF) : (opTwait f).Keeps := fun _ _ hs => ⟨twaitExamine_wf _ _ (updThreads_wf _ _ _ _ (updThreads_wf _ _ _ _ hs)), rfl⟩
theorem opFadd_keeps (f : VF) : (opFadd f).Keeps := fpOp_keeps _ _
theorem opFsub_keeps (f : VF) : (opFsub f).Keeps := fpOp_keeps _ _
theorem opFmul_keeps (f : VF) : (opFmul f).Keeps := fpOp_keeps _ _
theorem opFfma_keeps (f : VF) : (opFfma f).Keeps := fpOp_keeps _ _
theorem opFmin_keeps (f : VF) : (opFmin f).Keeps := fpOp_keeps _ _
theorem opFmax_keeps (f : VF) : (opFmax f).Keeps := fpOp_keeps _ _
theorem opFclass_keeps (f : VF) : (opFclass f).Keeps := fpOp_keeps _ _
theorem opFrnd_keeps (f : VF) : (opFrnd f).Keeps := fpOp_keeps _ _
theorem opFscale_keeps (f : VF) : (opFscale f).Keeps := fpOp_keeps _ _
theorem opFclamp_keeps (f : VF) : (opFclamp f).Keeps := fpOp_keeps _ _
theorem opPfma_keeps (f : VF) : (opPfma f).Keeps := fpOp_keeps _ _
theorem opPadd_keeps (f : VF) : (opPadd f).Keeps := fpOp_keeps _ _
theorem opPmul_keeps (f : VF) : (opPmul f).Keeps := fpOp_keeps _ _
theorem opFcmp_keeps (f : VF) : (opFcmp f).Keeps := predwise_keeps _ _
theorem opFdiv_keeps (f : VF) : (opFdiv f).Keeps := special_keeps _ _
theorem opFsqrt_keeps (f : VF) : (opFsqrt f).Keeps := special_keeps _ _
theorem opFrcp_keeps (f : VF) : (opFrcp f).Keeps := special_keeps _ _
theorem opFrsqrt_keeps (f : VF) : (opFrsqrt f).Keeps := special_keeps _ _
theorem opFexp2_keeps (f : VF) : (opFexp2 f).Keeps := special_keeps _ _
theorem opFlog2_keeps (f : VF) : (opFlog2 f).Keeps := special_keeps _ _
theorem opFsin_keeps (f : VF) : (opFsin f).Keeps := special_keeps _ _
theorem opFcos_keeps (f : VF) : (opFcos f).Keeps := special_keeps _ _
theorem opFtanh_keeps (f : VF) : (opFtanh f).Keeps := special_keeps _ _
theorem opFsigm_keeps (f : VF) : (opFsigm f).Keeps := special_keeps _ _
theorem opCvt_keeps (f : VF) : (opCvt f).Keeps := elementwise_keeps _ _
theorem opQto_keeps (f : VF) : (opQto f).Keeps := slotOp_keeps _ _ _
theorem opQfrom_keeps (f : VF) : (opQfrom f).Keeps := slotOp_keeps _ _ _
theorem opQpack_keeps (f : VF) : (opQpack f).Keeps := slotOp_keeps _ _ _
theorem opQunpk_keeps (f : VF) : (opQunpk f).Keeps := slotOp_keeps _ _ _
theorem opFsld_keeps (f : VF) : (opFsld f).Keeps := elementwise_keeps _ _
theorem opCvtp_keeps (f : VF) : (opCvtp f).Keeps := elementwise_keeps _ _
theorem opBscl_keeps (f : VF) : (opBscl f).Keeps := by
  intro c s hs
  refine ⟨?_, ?_⟩
  · simp only [opBscl]
    (repeat' split) <;> simp +contextual [hs]
  · simp only [opBscl]
    simp
theorem opAdd_keeps (f : VF) : (opAdd f).Keeps := intOp_keeps _ _
theorem opSub_keeps (f : VF) : (opSub f).Keeps := intOp_keeps _ _
theorem opMul_keeps (f : VF) : (opMul f).Keeps := intOp_keeps _ _
theorem opMulh_keeps (f : VF) : (opMulh f).Keeps := intOp_keeps _ _
theorem opMad_keeps (f : VF) : (opMad f).Keeps := intOp_keeps _ _
theorem opMadw_keeps (f : VF) : (opMadw f).Keeps := intOp_keeps _ _
theorem opMin_keeps (f : VF) : (opMin f).Keeps := intOp_keeps _ _
theorem opMax_keeps (f : VF) : (opMax f).Keeps := intOp_keeps _ _
theorem opAbs_keeps (f : VF) : (opAbs f).Keeps := intOp_keeps _ _
theorem opNeg_keeps (f : VF) : (opNeg f).Keeps := intOp_keeps _ _
theorem opSad_keeps (f : VF) : (opSad f).Keeps := intOp_keeps _ _
theorem opDot4_keeps (f : VF) : (opDot4 f).Keeps := intOp_keeps _ _
theorem opShl_keeps (f : VF) : (opShl f).Keeps := intOp_keeps _ _
theorem opShr_keeps (f : VF) : (opShr f).Keeps := intOp_keeps _ _
theorem opSar_keeps (f : VF) : (opSar f).Keeps := intOp_keeps _ _
theorem opRot_keeps (f : VF) : (opRot f).Keeps := intOp_keeps _ _
theorem opAnd_keeps (f : VF) : (opAnd f).Keeps := intOp_keeps _ _
theorem opOr_keeps (f : VF) : (opOr f).Keeps := intOp_keeps _ _
theorem opXor_keeps (f : VF) : (opXor f).Keeps := intOp_keeps _ _
theorem opNot_keeps (f : VF) : (opNot f).Keeps := intOp_keeps _ _
theorem opBfx_keeps (f : VF) : (opBfx f).Keeps := intOp_keeps _ _
theorem opBfi_keeps (f : VF) : (opBfi f).Keeps := intOp_keeps _ _
theorem opBrev_keeps (f : VF) : (opBrev f).Keeps := intOp_keeps _ _
theorem opPopc_keeps (f : VF) : (opPopc f).Keeps := intOp_keeps _ _
theorem opClz_keeps (f : VF) : (opClz f).Keeps := intOp_keeps _ _
theorem opCtz_keeps (f : VF) : (opCtz f).Keeps := intOp_keeps _ _
theorem opMov_keeps (f : VF) : (opMov f).Keeps := intOp_keeps _ _
theorem opBool3_keeps (f : VF) : (opBool3 f).Keeps := elementwise_keeps _ _
theorem opCmp_keeps (f : VF) : (opCmp f).Keeps := predwise_keeps _ _
theorem opSel_keeps (f : VF) : (opSel f).Keeps := by
  intro c s hs
  refine ⟨?_, ?_⟩
  · simp only [opSel]
    (repeat' split) <;> simp +contextual [hs]
  · simp only [opSel]
    simp
theorem opMovi_keeps (f : IF) : (opMovi f).Keeps := by
  intro c s hs
  simp +contextual [opMovi, hs]
theorem opLsel_keeps (f : VF) : (opLsel f).Keeps := laneOp_keeps _ _
theorem opPatld_keeps (f : VF) : (opPatld f).Keeps := by
  intro c s hs
  simp +contextual [opPatld, hs]
theorem opPoll_keeps (f : VF) : (opPoll f).Keeps := by
  intro c s hs
  refine ⟨?_, ?_⟩
  · simp only [opPoll]
    (repeat' split) <;> simp +contextual [hs]
  · simp only [opPoll]
    simp
theorem opEqset_keeps (f : VF) : (opEqset f).Keeps := laneOp_keeps _ _
theorem opLead_keeps (f : VF) : (opLead f).Keeps := by
  intro c s hs
  simp +contextual [opLead, hs]
theorem opWred_keeps (f : VF) : (opWred f).Keeps := laneOp_keeps _ _
theorem opWscan_keeps (f : VF) : (opWscan f).Keeps := laneOp_keeps _ _
theorem opV2s_keeps (f : VF) : (opV2s f).Keeps := by
  intro c s hs
  refine ⟨?_, ?_⟩
  · simp only [opV2s]
    (repeat' split) <;> simp +contextual [hs]
  · simp only [opV2s]
    simp
theorem opTfill_keeps (f : TF) : (opTfill f).Keeps := collective_keeps _ _ _
theorem opTread_keeps (f : TF) : (opTread f).Keeps := collective_keeps _ _ _
theorem opCadd_keeps (f : QF) : (opCadd f).Keeps := cueAlu_keeps _ _ _
theorem opCsub_keeps (f : QF) : (opCsub f).Keeps := cueAlu_keeps _ _ _
theorem opCmul_keeps (f : QF) : (opCmul f).Keeps := cueAlu_keeps _ _ _
theorem opCmulh_keeps (f : QF) : (opCmulh f).Keeps := cueAlu_keeps _ _ _
theorem opCand_keeps (f : QF) : (opCand f).Keeps := cueAlu_keeps _ _ _
theorem opCor_keeps (f : QF) : (opCor f).Keeps := cueAlu_keeps _ _ _
theorem opCxor_keeps (f : QF) : (opCxor f).Keeps := cueAlu_keeps _ _ _
theorem opCshl_keeps (f : QF) : (opCshl f).Keeps := cueAlu_keeps _ _ _
theorem opCshr_keeps (f : QF) : (opCshr f).Keeps := cueAlu_keeps _ _ _
theorem opCsar_keeps (f : QF) : (opCsar f).Keeps := cueAlu_keeps _ _ _
theorem opCmin_keeps (f : QF) : (opCmin f).Keeps := cueAlu_keeps _ _ _
theorem opCmax_keeps (f : QF) : (opCmax f).Keeps := cueAlu_keeps _ _ _
theorem opCbfx_keeps (f : QF) : (opCbfx f).Keeps := cueAlu_keeps _ _ _
theorem opCbfi_keeps (f : QF) : (opCbfi f).Keeps := cueAlu_keeps _ _ _
theorem opCpopc_keeps (f : QF) : (opCpopc f).Keeps := cueAlu_keeps _ _ _
theorem opCclz_keeps (f : QF) : (opCclz f).Keeps := cueAlu_keeps _ _ _
theorem opCmov_keeps (f : QF) : (opCmov f).Keeps := cueAlu_keeps _ _ _
theorem opCsel_keeps (f : QF) : (opCsel f).Keeps := by
  intro c s hs
  simp +contextual [opCsel, hs]
theorem opCli_keeps (f : QF) : (opCli f).Keeps := cueAlu_keeps _ _ _
theorem opCdiv_keeps (f : QF) : (opCdiv f).Keeps := by
  intro c s hs
  simp +contextual [opCdiv, hs]
theorem opCcmp_keeps (f : QF) : (opCcmp f).Keeps := by
  intro c s hs
  simp +contextual [opCcmp, hs]
theorem opCb_keeps (f : QF) : (opCb f).Keeps := by
  intro c s hs
  simp +contextual [opCb, hs]
theorem opCcall_keeps (f : QF) : (opCcall f).Keeps := by
  intro c s hs
  simp +contextual [opCcall, hs]
theorem opCbx_keeps (f : QF) : (opCbx f).Keeps := by
  intro c s hs
  simp +contextual [opCbx, hs]
theorem opCret_keeps (f : QF) : (opCret f).Keeps := by
  intro c s hs
  refine ⟨?_, ?_⟩
  · simp only [opCret]
    (repeat' split) <;> simp +contextual [hs]
  · simp only [opCret]
    simp [hs]
theorem opDqpush_keeps (f : QF) : (opDqpush f).Keeps := by
  intro c s hs
  refine ⟨?_, ?_⟩
  · simp only [opDqpush]
    (repeat' split) <;> simp +contextual [hs]
  · simp only [opDqpush]
    simp [hs]
theorem opWgbar_keeps (f : QF) : (opWgbar f).Keeps := by
  intro c s hs
  refine ⟨?_, ?_⟩
  · simp only [opWgbar]
    (repeat' split) <;> simp +contextual [hs]
  · simp only [opWgbar]
    simp [hs]
theorem opCwait_keeps (f : QF) : (opCwait f).Keeps := by
  intro c s hs
  simp +contextual [opCwait, hs]
theorem opCend_keeps (f : QF) : (opCend f).Keeps := by
  intro c s hs
  simp +contextual [opCend, hs]
theorem opCmig_keeps (f : QF) : (opCmig f).Keeps := by
  intro c s hs
  refine ⟨?_, ?_⟩
  · simp only [opCmig]
    (repeat' split) <;> simp +contextual [hs]
  · simp only [opCmig]
    simp [hs]
theorem opCslot_keeps (f : QF) : (opCslot f).Keeps := by
  intro c s hs
  simp +contextual [opCslot, hs]
theorem opWstat_keeps (f : QF) : (opWstat f).Keeps := by
  intro c s hs
  simp +contextual [opWstat, hs]
theorem opCtrap_keeps (f : QF) : (opCtrap f).Keeps := by
  intro c s hs
  simp +contextual [opCtrap, hs]
theorem opCwake_keeps (f : QF) : (opCwake f).Keeps := by
  intro c s hs
  simp +contextual [opCwake, hs]
theorem opCsreg_keeps (f : QF) : (opCsreg f).Keeps := by
  intro c s hs
  simp +contextual [opCsreg, hs]
theorem opCswreg_keeps (f : QF) : (opCswreg f).Keeps := by
  intro c s hs
  refine ⟨?_, ?_⟩
  · simp only [opCswreg]
    (repeat' split) <;> simp +contextual [hs]
  · simp only [opCswreg]
    simp [hs]
theorem opCresume_keeps (f : QF) : (opCresume f).Keeps := by
  intro c s hs
  have hread := cueRecord_wf c hs
  refine ⟨wf_ite (fun _ => updCue_wf _ _ hs) fun _ => ?_, rfl, hs⟩
  split
  · next heq =>
    rw [heq] at hread
    exact updCue_wf _ _ hread
  · next heq => rwa [heq] at hread
theorem opIret_keeps (f : QF) : (opIret f).Keeps := by
  intro c s hs
  refine ⟨?_, ?_⟩
  · simp only [opIret]
    (repeat' split) <;> simp +contextual [hs]
  · simp only [opIret]
    simp [hs]
theorem opCld_keeps (f : QM) : (opCld f).Keeps := by
  intro c s hs
  have hbefore := beforeAccess_wf c.iss (placesOf (qmAccs (qmAddr c f) (qmBytes f) false false s c)) hs
  refine ⟨?_, rfl, hs⟩
  dsimp only [opCld]
  split
  · next loc tr _ =>
    have htouch := touchTlb_wf c.iss (qmAddr c f) tr (loadAt_wf c.iss loc tr (qmBytes f) (f.ordr ≠ 0 && (f.ordr = 2 || obsBeyondT f.obs)) hbefore)
    exact launchCueFlight_wf _ _ _ _ (wf_ite (fun _ => acquire_wf _ _ htouch) fun _ => htouch)
  · exact hbefore
theorem opCst_keeps (f : QM) : (opCst f).Keeps := by
  intro c s hs
  have hbefore := orderBefore_wf c.iss (f.ordr = 3) f.obs (placesOf (qmAccs (qmAddr c f) (qmBytes f) true false s c)) hs
  refine ⟨?_, cueRelPrep_wf _ _ _ hs, hs⟩
  dsimp only [opCst]
  split
  · exact wf_ite (fun _ => launchCueFlight_wf _ _ _ _ (markCueStore_wf _ _ _ (touchTlb_wf _ _ _ hbefore)))
      fun _ => launchCueFlight_wf _ _ _ _ (markCueStore_wf _ _ _ (storeAt_wf _ _ _ _ _ _ _ (touchTlb_wf _ _ _ hbefore)))
  · exact hbefore
theorem opCatom_keeps (f : QM) : (opCatom f).Keeps := cuePoint_keeps (.catom f) { f with ofs := 0 } (qmBytes f) false
  (fun s c l => locCause s c.iss l (some 0x0FE) (if f.mod = 2 && decide (3 ≤ f.ofs.toNat % 32) then some 0x0FE else none)) fun c => [cget c.c f.b.toNat, cget c.c f.d.toNat]
theorem opCfence_keeps (f : QM) : (opCfence f).Keeps := by
  intro c s hs
  simp +contextual [opCfence, hs]
theorem opCforage_keeps (f : QM) : (opCforage f).Keeps := cuePoint_keeps _ _ _ _ _ _
theorem opCsvc_keeps (f : QM) : (opCsvc f).Keeps := by
  intro c s hs
  have hmark := markCue_wf c 6 f.look.toNat hs
  exact ⟨wf_ite (fun _ => launchCueFlight_wf _ _ _ _ hmark) fun _ => launchCueFlight_wf _ _ _ _ (svcPost_wf _ _ _ hmark), rfl, hs⟩
theorem opTcfg_keeps (f : QE) : (opTcfg f).Keeps := cmdOp_keeps fun c t ht => by
  dsimp only
  split
  · exact updWg_wf _ _ ht
  · exact ht
theorem opTld_keeps (f : QE) : (opTld f).Keeps := cmdOp_keeps fun _ _ hs => hs
theorem opTsd_keeps (f : QE) : (opTsd f).Keeps := cmdOp_keeps fun _ _ hs => hs
theorem opTzero_keeps (f : QE) : (opTzero f).Keeps := cmdOp_keeps fun _ _ hs => hs
theorem opTxpose_keeps (f : QE) : (opTxpose f).Keeps := cmdOp_keeps fun _ _ hs => hs
theorem opArrw_keeps (f : QE) : (opArrw f).Keeps := cmdOp_keeps fun _ _ hs => hs
theorem opArrmm_keeps (f : QE) : (opArrmm f).Keeps := cmdOp_keeps fun _ _ hs => hs
theorem opArrdist_keeps (f : QE) : (opArrdist f).Keeps := cmdOp_keeps fun _ _ hs => hs
theorem opArrmmg_keeps (f : QE) : (opArrmmg f).Keeps := cmdOp_keeps fun _ _ hs => hs
theorem opArrcent_keeps (f : QE) : (opArrcent f).Keeps := cmdOp_keeps fun _ _ hs => hs
theorem opArrbest_keeps (f : QE) : (opArrbest f).Keeps := cmdOp_keeps fun _ _ hs => hs
theorem opAdrain_keeps (f : QE) : (opAdrain f).Keeps := cmdOp_keeps fun _ _ hs => hs
theorem opAload_keeps (f : QE) : (opAload f).Keeps := cmdOp_keeps fun _ _ hs => hs
theorem opAdrainp_keeps (f : QE) : (opAdrainp f).Keeps := cmdOp_keeps fun _ _ hs => hs
theorem opAdraine_keeps (f : QE) : (opAdraine f).Keeps := cmdOp_keeps fun _ _ hs => hs
theorem opAzero_keeps (f : QE) : (opAzero f).Keeps := cmdOp_keeps fun _ _ hs => hs
theorem opBcp_keeps (f : QE) : (opBcp f).Keeps := cmdOp_keeps fun _ _ hs => hs
theorem opBfill_keeps (f : QE) : (opBfill f).Keeps := cmdOp_keeps fun _ _ hs => hs
theorem opBpeer_keeps (f : QE) : (opBpeer f).Keeps := cmdOp_keeps fun _ _ hs => hs
theorem opBgat_keeps (f : QE) : (opBgat f).Keeps := cmdOp_keeps fun _ _ hs => hs
theorem opBsca_keeps (f : QE) : (opBsca f).Keeps := by
  unfold opBsca
  exact cmdOp_keeps fun _ _ ht => ht
theorem opBexp_keeps (f : QE) : (opBexp f).Keeps := cmdOp_keeps fun _ _ hs => hs
theorem opMop_keeps (f : QE) : (opMop f).Keeps := by
  unfold opMop
  exact cmdOp_keeps fun _ _ ht => ht
theorem opSlxp_keeps (f : QE) : (opSlxp f).Keeps := by
  unfold opSlxp
  exact cmdOp_keeps fun _ _ ht => ht
theorem opXopen_keeps (f : QE) : (opXopen f).Keeps := cmdOp_keeps fun c t ht => by
  dsimp only
  split
  · exact noteDone_wf _ _ _ ht
  · exact updCmd_wf _ _ ht
theorem opXclose_keeps (f : QE) : (opXclose f).Keeps := cmdOp_keeps fun c t ht => by
  dsimp only
  split
  · exact noteDone_wf _ _ _ ht
  · exact ht
theorem opRsvfill_keeps (f : QE) : (opRsvfill f).Keeps := cmdOp_keeps fun _ _ hs => hs
theorem opRsvdrop_keeps (f : QE) : (opRsvdrop f).Keeps := cmdOp_keeps fun _ _ hs => hs
theorem opRsvq_keeps (f : QE) : (opRsvq f).Keeps := cmdOp_keeps fun _ _ hs => hs
theorem opKvdrop_keeps (f : QE) : (opKvdrop f).Keeps := cmdOp_keeps fun _ _ hs => hs
theorem opKvprio_keeps (f : QE) : (opKvprio f).Keeps := cmdOp_keeps fun _ _ hs => hs
theorem opRsvset_keeps (f : QE) : (opRsvset f).Keeps := cmdOp_keeps fun _ _ hs => hs
theorem opLaunch_keeps (f : QE) : (opLaunch f).Keeps := by
  intro c s hs
  have hpark := updCue_wf c.iss (fun x => { x with park := some (.launchHold (cget c.c f.a.toNat) f.d.toNat (tokNum f)) }) (addTok_wf c.iss (tokNum f) true hs)
  refine ⟨?_, rfl, launchNote_wf _ _ hs⟩
  dsimp only [opLaunch]
  split
  · exact nestAppend_wf _ _ _ _ hpark
  · exact hpark
theorem opChalt_keeps (f : QF) : (opChalt f).Keeps := by
  intro c s hs
  refine ⟨?_, ?_⟩
  · simp only [opChalt]
    (repeat' split) <;> simp +contextual [hs]
  · simp only [opChalt]
    simp [hs]
theorem opTabort_keeps (f : QF) : (opTabort f).Keeps := by
  intro c s hs
  refine ⟨?_, ?_⟩
  · simp only [opTabort]
    (repeat' split) <;> simp +contextual [hs]
  · simp only [opTabort]
    simp [hs]
theorem opTcommit_keeps (f : QF) : (opTcommit f).Keeps := by
  intro c s hs
  refine ⟨?_, rfl, hs⟩
  dsimp only [opTcommit]
  split
  · next k _ =>
    have hcommit := updWg_wf k.id (fun k => { k with nonRestart := true }) (versionCommit_wf k.id hs)
    exact wf_ite (fun _ => homeWrite_keeps hcommit _ _ _ _) fun _ => hcommit
  · exact hs
theorem opCtxsv_keeps (f : QE) : (opCtxsv f).Keeps := cmdOp_keeps fun _ _ hs => hs
theorem opCtxld_keeps (f : QE) : (opCtxld f).Keeps := cmdOp_keeps fun _ _ hs => hs
theorem opTlbinv_keeps (f : QE) : (opTlbinv f).Keeps := cmdOp_keeps fun _ _ hs => hs
theorem opPtwalk_keeps (f : QE) : (opPtwalk f).Keeps := cmdOp_keeps fun _ _ hs => hs
theorem opPgdup_keeps (f : QE) : (opPgdup f).Keeps := cmdOp_keeps fun _ _ hs => hs
theorem opPgcol_keeps (f : QE) : (opPgcol f).Keeps := cmdOp_keeps fun _ _ hs => hs
theorem opPgsplit_keeps (f : QE) : (opPgsplit f).Keeps := cmdOp_keeps fun _ _ hs => hs
theorem opPgjoin_keeps (f : QE) : (opPgjoin f).Keeps := cmdOp_keeps fun _ _ hs => hs
theorem opPgmig_keeps (f : QE) : (opPgmig f).Keeps := cmdOp_keeps fun _ _ hs => hs
theorem opDirq_keeps (f : QE) : (opDirq f).Keeps := cmdOp_keeps fun _ _ hs => hs
theorem opDirset_keeps (f : QE) : (opDirset f).Keeps := cmdOp_keeps fun _ _ hs => hs
theorem opHostinv_keeps (f : QE) : (opHostinv f).Keeps := cmdOp_keeps fun _ _ hs => hs
end Sys2Proof.Machine
end

section
/-! The canonical form of the three memories is kept (family other), concluded: what `exec` answers, and the step. Obligations O6 and O7. -/


namespace Sys2Proof.Machine

/-! ### The operation of every instruction -/

theorem warpOp_keeps {i : Instr} {op : WOp} (h : warpOp i = some op) : op.Keeps := by
  unfold warpOp at h
  split at h <;> cases h
  · exact opAdd_keeps _
  · exact opSub_keeps _
  · exact opMul_keeps _
  · exact opMulh_keeps _
  · exact opMad_keeps _
  · exact opMadw_keeps _
  · exact opMin_keeps _
  · exact opMax_keeps _
  · exact opAbs_keeps _
  · exact opNeg_keeps _
  · exact opSad_keeps _
  · exact opDot4_keeps _
  · exact opShl_keeps _
  · exact opShr_keeps _
  · exact opSar_keeps _
  · exact opRot_keeps _
  · exact opAnd_keeps _
  · exact opOr_keeps _
  · exact opXor_keeps _
  · exact opNot_keeps _
  · exact opBool3_keeps _
  · exact opBfx_keeps _
  · exact opBfi_keeps _
  · exact opBrev_keeps _
  · exact opPopc_keeps _
  · exact opClz_keeps _
  · exact opCtz_keeps _
  · exact opCmp_keeps _
  · exact opSel_keeps _
  · exact opMov_keeps _
  · exact opMovi_keeps _
  · exact opFadd_keeps _
  · exact opFsub_keeps _
  · exact opFmul_keeps _
  · exact opFfma_keeps _
  · exact opFmin_keeps _
  · exact opFmax_keeps _
  · exact opFcmp_keeps _
  · exact opFclass_keeps _
  · exact opFrnd_keeps _
  · exact opFscale_keeps _
  · exact opFclamp_keeps _
  · exact opFdiv_keeps _
  · exact opFsqrt_keeps _
  · exact opFrcp_keeps _
  · exact opFrsqrt_keeps _
  · exact opFexp2_keeps _
  · exact opFlog2_keeps _
  · exact opFsin_keeps _
  · exact opFcos_keeps _
  · exact opFtanh_keeps _
  · exact opFsigm_keeps _
  · exact opPfma_keeps _
  · exact opPadd_keeps _
  · exact opPmul_keeps _
  · exact opCvt_keeps _
  · exact opQto_keeps _
  · exact opQfrom_keeps _
  · exact opQpack_keeps _
  · exact opQunpk_keeps _
  · exact opBscl_keeps _
  · exact opFsld_keeps _
  · exact opCvtp_keeps _
  · exact opLsel_keeps _
  · exact opPatld_keeps _
  · exact opPoll_keeps _
  · exact opEqset_keeps _
  · exact opWred_keeps _
  · exact opWscan_keeps _
  · exact opLead_keeps _
  · exact opV2s_keeps _
  · exact opTfill_keeps _
  · exact opTread_keeps _
  · exact opLdG_keeps _
  · exact opStG_keeps _
  · exact opLdL_keeps _
  · exact opStL_keeps _
  · exact opLdC_keeps _
  · exact opStC_keeps _
  · exact opLdP_keeps _
  · exact opStP_keeps _
  · exact opPf_keeps _
  · exact opFe_keeps _
  · exact opL1wb_keeps _
  · exact opL1inv_keeps _
  · exact opKvkey_keeps _
  · exact opAtom_keeps _
  · exact opAtomf_keeps _
  · exact opCas_keeps _
  · exact opLdres_keeps _
  · exact opStcond_keeps _
  · exact opFence_keeps _
  · exact opForage_keeps _
  · exact opBar_keeps _
  · exact opCntwt_keeps _
  · exact opCntadd_keeps _
  · exact opBra_keeps _
  · exact opBrx_keeps _
  · exact opCall_keeps _
  · exact opCallx_keeps _
  · exact opRet_keeps _
  · exact opJoin_keeps _
  · exact opDqpop_keeps _
  · exact opDqbr_keeps _
  · exact opExit_keeps _
  · exact opTrap_keeps _
  · exact opBrk_keeps _
  · exact opSvc_keeps _
  · exact opWake_keeps _
  · exact opSreg_keeps _
  · exact opSwreg_keeps _
  · exact opYield_keeps _
  · exact opNop_keeps _
  · exact opResume_keeps _
  · exact opTwait_keeps _
  · exact fun _ _ hs => ⟨hs, rfl⟩
theorem cueOp_keeps {i : Instr} {op : COp} (h : cueOp i = some op) : op.Keeps := by
  unfold cueOp at h
  split at h <;> cases h
  · exact opCadd_keeps _
  · exact opCsub_keeps _
  · exact opCmul_keeps _
  · exact opCmulh_keeps _
  · exact opCdiv_keeps _
  · exact opCand_keeps _
  · exact opCor_keeps _
  · exact opCxor_keeps _
  · exact opCshl_keeps _
  · exact opCshr_keeps _
  · exact opCsar_keeps _
  · exact opCmin_keeps _
  · exact opCmax_keeps _
  · exact opCbfx_keeps _
  · exact opCbfi_keeps _
  · exact opCpopc_keeps _
  · exact opCclz_keeps _
  · exact opCmov_keeps _
  · exact opCli_keeps _
  · exact opCcmp_keeps _
  · exact opCsel_keeps _
  · exact opCb_keeps _
  · exact opCbx_keeps _
  · exact opCcall_keeps _
  · exact opCret_keeps _
  · exact opCld_keeps _
  · exact opCst_keeps _
  · exact opCatom_keeps _
  · exact opCfence_keeps _
  · exact opDqpush_keeps _
  · exact opLaunch_keeps _
  · exact opWgbar_keeps _
  · exact opCwait_keeps _
  · exact opCforage_keeps _
  · exact opCmig_keeps _
  · exact opCend_keeps _
  · exact opCslot_keeps _
  · exact opWstat_keeps _
  · exact opTcfg_keeps _
  · exact opTld_keeps _
  · exact opTsd_keeps _
  · exact opTzero_keeps _
  · exact opArrw_keeps _
  · exact opArrmm_keeps _
  · exact opArrmmg_keeps _
  · exact opArrdist_keeps _
  · exact opArrbest_keeps _
  · exact opArrcent_keeps _
  · exact opAdrain_keeps _
  · exact opAdrainp_keeps _
  · exact opAdraine_keeps _
  · exact opAzero_keeps _
  · exact opAload_keeps _
  · exact opTxpose_keeps _
  · exact opBcp_keeps _
  · exact opBgat_keeps _
  · exact opBsca_keeps _
  · exact opBexp_keeps _
  · exact opBfill_keeps _
  · exact opBpeer_keeps _
  · exact opMop_keeps _
  · exact opXopen_keeps _
  · exact opXclose_keeps _
  · exact opSlxp_keeps _
  · exact opRsvfill_keeps _
  · exact opRsvdrop_keeps _
  · exact opRsvq_keeps _
  · exact opKvdrop_keeps _
  · exact opKvprio_keeps _
  · exact opRsvset_keeps _
  · exact opCtrap_keeps _
  · exact opCwake_keeps _
  · exact opCsreg_keeps _
  · exact opCswreg_keeps _
  · exact opCresume_keeps _
  · exact opIret_keeps _
  · exact opChalt_keeps _
  · exact opCtxsv_keeps _
  · exact opCtxld_keeps _
  · exact opTabort_keeps _
  · exact opTcommit_keeps _
  · exact opCsvc_keeps _
  · exact opTlbinv_keeps _
  · exact opPtwalk_keeps _
  · exact opPgdup_keeps _
  · exact opPgcol_keeps _
  · exact opPgsplit_keeps _
  · exact opPgjoin_keeps _
  · exact opPgmig_keeps _
  · exact opDirq_keeps _
  · exact opDirset_keeps _
  · exact opHostinv_keeps _
  · exact fun _ _ hs => ⟨hs, rfl, hs⟩

/-! ### Issue -/

/-- A warp's group is named as the issuer, and its warp is there. -/
def IssuesWarp (s : State) : Prop := ∀ i, (warpCtx s i).isSome = true
/-- A cue thread or management core is named as the issuer, and is there. -/
def IssuesCue (s : State) : Prop := ∀ i, (cueCtx s i).isSome = true

theorem warpIssue_sound {op : WOp} {s : State} (hk : op.Keeps) (hc : IssuesWarp s) : Sound s (warpIssue op s) := by
  obtain ⟨c, hctx⟩ := Option.isSome_iff_exists.mp (hc op.i)
  have hprep : s.wf = true → ((op.prep s c).getD s).wf = true := fun hs => by
    have hp := (hk c s hs).2
    cases heq : op.prep s c with
    | none => exact hs
    | some t => simpa [heq] using hp
  simp only [warpIssue, hctx]
  (repeat' split) <;> rw [sound_next] <;> intro hs
  · exact hs
  · exact deliverDue_wf _ _ hs
  · exact preciseAt_wf _ _ _ hs
  · exact preciseAt_wf _ _ _ hs
  · exact hprep hs
  · exact (hk _ _ (issued_wf _ _ hs)).1
theorem cueIssue_sound {op : COp} {s : State} (hk : op.Keeps) (hc : IssuesCue s) : Sound s (cueIssue op s) := by
  obtain ⟨c, hctx⟩ := Option.isSome_iff_exists.mp (hc op.i)
  have hprep : s.wf = true → ((op.prep s c).getD s).wf = true := fun hs => by
    have hp := (hk c s hs).2.1
    cases heq : op.prep s c with
    | none => exact hs
    | some t => simpa [heq] using hp
  rw [cueIssue, hctx]
  dsimp only
  split
  · exact (sound_next _ _).2 id
  split
  · exact (sound_next _ _).2 fun hs => cueDeliver_wf _ _ _ _ hs
  split
  · exact (sound_next _ _).2 fun hs => cuePrecise_wf _ _ (wf_ite (fun _ => hs) fun _ => wf_ite (fun _ => (hk _ _ hs).2.2) fun _ => hs)
  split
  · exact (sound_next _ _).2 hprep
  split
  · exact (sound_next _ _).2 fun hs => (hk _ _ (cueIssued_wf _ _ hs)).1
  · exact (sound_next _ _).2 fun hs => cueIssued_wf _ _ hs

/-! ### What the decoder gives -/

/-- An instruction of a stream: it has an operation there. -/
def inStream (st : Stream) (i : Instr) : Bool :=
  match st with
  | .warp => (warpOp i).isSome
  | .cue => (cueOp i).isSome

theorem warpDecode_op {w0 : Word} {w1 : Option Word} {i : Instr} (h : warpDecode w0 w1 = some i) : (warpOp i).isSome = true := by
  unfold warpDecode at h
  split at h <;> cases h <;> rfl
theorem cueDecode_op {w0 : Word} {w1 : Option Word} {i : Instr} (h : cueDecode w0 w1 = some i) : (cueOp i).isSome = true := by
  unfold cueDecode at h
  split at h <;> cases h <;> rfl
theorem decodeWords_inStream (st : Stream) (w0 : Word) (w1 : Option Word) : inStream st (Sys2Proof.decodeWords st w0 w1) = true := by
  cases st with
  | warp =>
    cases h : warpDecode w0 w1 with
    | none => simp [Sys2Proof.decodeWords, h, inStream, warpOp]
    | some i => simpa [Sys2Proof.decodeWords, h, inStream] using warpDecode_op h
  | cue =>
    cases h : cueDecode w0 w1 with
    | none => simp [Sys2Proof.decodeWords, h, inStream, cueOp]
    | some i => simpa [Sys2Proof.decodeWords, h, inStream] using cueDecode_op h
theorem decode_inStream {st : Stream} {bs r : List Byte} {i : Instr} (h : decode st bs = .ok (i, r)) : inStream st i = true := by
  unfold decode at h
  dsimp only at h
  split at h
  · split at h
    · split at h
      · cases h
        exact decodeWords_inStream _ _ _
      · cases h
    · cases h
      exact decodeWords_inStream _ _ _
  · cases h
theorem decodeAt_inStream {st : Stream} {bs : List Byte} {i : Instr} (h : decodeAt st bs = .instr i) : inStream st i = true := by
  unfold decodeAt at h
  split at h
  · next hd =>
    cases Ahead.instr.inj h
    exact decode_inStream hd
  · cases Ahead.instr.inj h
    cases st <;> rfl
theorem aheadOf_inStream {s : State} {unit pc : Nat} {asid : BitVec 16} {st : Stream} {cl : Option Clause} {i : Instr} (h : aheadOf s unit asid st pc cl = .instr i) : inStream st i = true := by
  unfold aheadOf at h
  split at h
  · cases h
  · cases h
  · cases h
  · split at h
    · split at h
      · exact decodeAt_inStream h
      · split at h
        · cases h
        · cases h
        · exact decodeAt_inStream h
    · exact decodeAt_inStream h

/-! ### What exec answers -/

theorem exec_warp_sound {i : Instr} {s : State} (hi : inStream .warp i = true) (hc : IssuesWarp s) : Sound s (exec i s) := by
  obtain ⟨op, hop⟩ := Option.isSome_iff_exists.mp hi
  rw [exec_of_warpOp hop]
  exact warpIssue_sound (warpOp_keeps hop) hc
theorem exec_cue_sound {i : Instr} {s : State} (hi : inStream .cue i = true) (hc : IssuesCue s) : Sound s (exec i s) := by
  obtain ⟨op, hop⟩ := Option.isSome_iff_exists.mp hi
  rw [exec_of_cueOp hop]
  exact cueIssue_sound (cueOp_keeps hop) hc

theorem encV_ne_nil (op : BitVec 7) (f : VF) : encV op f ≠ [] := by unfold encV; split <;> simp
theorem encI_ne_nil (op : BitVec 7) (f : IF) : encI op f ≠ [] := by unfold encI; split <;> simp
theorem encM_ne_nil (op : BitVec 7) (f : MF) : encM op f ≠ [] := by unfold encM; split <;> simp
theorem encA_ne_nil (op : BitVec 7) (f : AF) : encA op f ≠ [] := by unfold encA; split <;> simp
theorem encT_ne_nil (op : BitVec 7) (f : TF) : encT op f ≠ [] := by unfold encT; split <;> simp
theorem encQ_ne_nil (op : BitVec 7) (f : QF) : encQ op f ≠ [] := by unfold encQ; split <;> simp
theorem encQM_ne_nil (op : BitVec 7) (f : QM) : encQM op f ≠ [] := by unfold encQM; split <;> simp
theorem encQE_ne_nil (op : BitVec 7) (f : QE) : encQE op f ≠ [] := by unfold encQE; split <;> simp
/-- An instruction with no words is an event, and goes on. -/
theorem exec_event_sound {i : Instr} (s : State) (h : encode i = []) : Sound s (exec i s) := by
  cases i with
  | memoryAccessCompletion flight => exact execMemoryAccessCompletion_wf s flight
  | vsfuCompletion flight => exact execVsfuCompletion_wf s flight
  | executionPointOperation flight => exact execExecutionPointOperation_wf s flight
  | writeBackMerge core line => exact execWriteBackMerge_wf s core line
  | fetchFill wg va => exact execFetchFill_wf s wg va
  | returnAddressRefill flight => exact execReturnAddressRefill_wf s flight
  | contextLineRefill wg line => exact execContextLineRefill_wf s wg line
  | fullEmptyServe flight => exact execFullEmptyServe_wf s flight
  | counterWaitSatisfied flight => exact execCounterWaitSatisfied_wf s flight
  | decisionQueuePop wg warp => exact execDecisionQueuePop_wf s wg warp
  | dqpushWrite wg => exact execDqpushWrite_wf s wg
  | engineCommandStart cmd => exact execEngineCommandStart_wf s cmd
  | arrayCommandStart cmd => exact execArrayCommandStart_wf s cmd
  | planeLoad cmd => exact execPlaneLoad_wf s cmd
  | streamRowResult cmd => exact execStreamRowResult_wf s cmd
  | commandCompletion cmd => exact execCommandCompletion_wf s cmd
  | deliveryUnitAdvance cmd => exact execDeliveryUnitAdvance_wf s cmd
  | collectiveCompletion flight => exact execCollectiveCompletion_wf s flight
  | adrainpRowArrival cmd => exact execAdrainpRowArrival_wf s cmd
  | contributionAccept cmd => exact execContributionAccept_wf s cmd
  | xcloseAtSlice cmd => exact execXcloseAtSlice_wf s cmd
  | tableWalk core asid root va => exact execTableWalk_wf s core asid root va
  | nestQueueAppend wg => exact execNestQueueAppend_wf s wg
  | queueServe q => exact execQueueServe_wf s q
  | launchEntryAccept q => exact execLaunchEntryAccept_wf s q
  | copyBlockAccept q => exact execCopyBlockAccept_wf s q
  | warpEnd wg warp => exact execWarpEnd_wf s wg warp
  | sliceLineReturn wg warp slice => exact execSliceLineReturn_wf s wg warp slice
  | cueThreadEnd wg => exact execCueThreadEnd_wf s wg
  | workgroupEnd wg => exact execWorkgroupEnd_wf s wg
  | gridRetirement grid => exact execGridRetirement_wf s grid
  | taking wg => exact execTaking_wf s wg
  | imageAreaWrite wg => exact execImageAreaWrite_wf s wg
  | registerLineEviction wg line => exact execRegisterLineEviction_wf s wg line
  | migrationMessage wg intact => exact execMigrationMessage_wf s wg intact
  | serviceReply flight => exact execServiceReply_wf s flight
  | errorQueueDropReport => exact execErrorQueueDropReport_wf s
  | reservationTimeout => exact execReservationTimeout_wf s
  | joinDeadline => exact execJoinDeadline_wf s
  | yieldExpiry => exact execYieldExpiry_wf s
  | workgroupPlacement => exact execWorkgroupPlacement_wf s
  | agingTick => exact execAgingTick_wf s
  | resumption => exact execResumption_wf s
  | migrationFallback => exact execMigrationFallback_wf s
  | preemptionTimeout => exact execPreemptionTimeout_wf s
  | serviceTimeout => exact execServiceTimeout_wf s
  | sensorRefresh cols dies => exact execSensorRefresh_wf s cols dies
  | governorInterval power => exact execGovernorInterval_wf s power
  | governorHoldLimit => exact execGovernorHoldLimit_wf s
  | diePowerOff => exact execDiePowerOff_wf s
  | dieReturn => exact execDieReturn_wf s
  | combLineError line => exact execCombLineError_wf s line
  | machineCheckEvent detail addr => exact execMachineCheckEvent_wf s detail addr
  | directoryErrorRecovery index sizeKnown => exact execDirectoryErrorRecovery_wf s index sizeKnown
  | startUp linksTrained hbmTrained cols dies => exact execStartUp_wf s linksTrained hbmTrained cols dies
  | attestation => exact execAttestation_wf s
  | mwakeWrite stack value => exact execMwakeWrite_wf s stack value
  | queueWakeWrite q value => exact execQueueWakeWrite_wf s q value
  | queueEnable => exact execQueueEnable_wf s
  | queueDisable => exact execQueueDisable_wf s
  | wshareUpdate => exact execWshareUpdate_wf s
  | registerWrite offset bytes value => exact execRegisterWrite_wf s offset bytes value
  | hostRead pa n own => exact execHostRead_wf s pa n own
  | hostWrite pa data => exact execHostWrite_wf s pa data
  | hostRecall line dirty => exact execHostRecall_wf s line dirty
  | readMsg src pa n => exact execReadMsg_wf s src pa n
  | writeMsg src pa data => exact execWriteMsg_wf s src pa data
  | atomicMsg src pa wid float aop operand => exact execAtomicMsg_wf s src pa wid float aop operand
  | grant page owned seq data syndromes => exact execGrant_wf s page owned seq data syndromes
  | probeInv page seq => exact execProbeInv_wf s page seq
  | probeRecall page seq => exact execProbeRecall_wf s page seq
  | probeSplit page seq => exact execProbeSplit_wf s page seq
  | probeAll page home => exact execProbeAll_wf s page home
  | ack src page seq data dropped => exact execAck_wf s src page seq data dropped
  | forwardedCommand src op pa operand => exact execForwardedCommand_wf s src op pa operand
  | packet port header rest more => exact execPacket_wf s port header rest more
  | nak port lseq => exact execNak_wf s port lseq
  | linkRetryThreshold => exact execLinkRetryThreshold_wf s
  | linkDown port => exact execLinkDown_wf s port
  | linkUp port => exact execLinkUp_wf s port
  | _ => simp [encode, encV_ne_nil, encI_ne_nil, encM_ne_nil, encA_ne_nil, encT_ne_nil, encQ_ne_nil, encQM_ne_nil, encQE_ne_nil] at h

/-! ### The step -/

/-- What a plan runs, where it runs something, goes on. -/
def Plan.Sound : Plan → Prop
  | .done _ => True
  | .run i s => Machine.Sound s (exec i s)

theorem Plan.sound_ite {p : Prop} [Decidable p] {x y : Plan} (hx : x.Sound) (hy : y.Sound) : (if p then x else y).Sound := by
  split
  · exact hx
  · exact hy
theorem issuesWarp_of_found {s : State} {wg wi : Nat} {lanes : List Nat} {k : Workgroup} {g : Grid} {w : Warp} (hcur : s.cur = .warp wg wi lanes) (hk : findWg s wg = some k) (hg : gridOf s k = some g) (hw : k.warps[wi]? = some w) :
    IssuesWarp s := fun i => by simp [warpCtx, hcur, hk, hg, hw]
theorem issuesCue_of_found {s : State} {c : Cue} (hc : findCue s s.cur = some c) : IssuesCue s := fun i => by
  unfold cueCtx
  unfold findCue at hc
  split at hc
  · obtain ⟨k, hk, -⟩ := Option.map_eq_some_iff.mp hc
    simp [*]
  · obtain ⟨k, hk, -⟩ := Option.map_eq_some_iff.mp hc
    simp [*]
  · cases hc

theorem laneAhead_inStream {s : State} {g : Grid} {k : Workgroup} {w : Warp} {port lane : Nat} {i : Instr} (h : laneAhead s g k w port lane = some (.instr i)) : inStream .warp i = true := by
  unfold laneAhead at h
  split at h
  · cases h
  · split at h
    · cases h
    · split at h
      · cases h
      · next heq =>
        split at h
        · cases h
        · cases h
          exact aheadOf_inStream heq
      · next hno => exact (hno i (Option.some.inj h)).elim

theorem planGroup_sound {s : State} {g : Grid} {k : Workgroup} {w : Warp} {wg wi : Nat} {lanes : List Nat} {th : Thread} (hk : findWg s wg = some k) (hg : gridOf s k = some g) (hw : k.warps[wi]? = some w) :
    (planGroup s g k w wg wi lanes th).Sound := by
  have hctx : ∀ u, IssuesWarp (updWarp { s with cur := .warp wg wi lanes } wg wi u) := fun u => by
    have hfound : findWg (updWarp { s with cur := .warp wg wi lanes } wg wi u) wg = some (Workgroup_updWarp k wi u) := by
      have hupd := findWg_updWg { s with cur := .warp wg wi lanes } wg (fun k => Workgroup_updWarp k wi u) fun _ => rfl
      exact hupd.trans (congrArg _ hk)
    exact issuesWarp_of_found rfl hfound hg (by simp only [Workgroup_updWarp, List.getElem?_modify_eq, hw, Option.map_eq_map, Option.map_some]; rfl)
  unfold planGroup
  dsimp only
  split
  · (repeat' split) <;> trivial
  · trivial
  · next i heq =>
    obtain ⟨l, -, hl⟩ := Option.bind_eq_some_iff.mp heq
    split
    · trivial
    · split
      · exact execContextLineRefill_wf _ _ _
      · exact exec_warp_sound (laneAhead_inStream hl) (hctx _)
  · trivial
theorem planOn_sound (s : State) (wg wi port : Nat) (pick : Warp → List Nat → List Nat) : (planOn s wg wi port pick).Sound := by
  unfold planOn
  split
  · trivial
  · next k hk =>
    split
    · next g w hg hw =>
      split
      · trivial
      · dsimp only
        split
        · exact planGroup_sound hk hg hw
        · trivial
    · trivial
theorem waitAcquire_cur (s : State) (iss : Issuer) (cl : Option Clause) : (waitAcquire s iss cl).cur = s.cur := by
  unfold waitAcquire acquire
  (repeat' split) <;> rfl
theorem findCue_waitAcquire (s : State) (iss who : Issuer) (cl : Option Clause) : findCue (waitAcquire s iss cl) who = findCue s who := by
  unfold waitAcquire acquire
  (repeat' split) <;> rfl
theorem planCue_sound (s : State) (iss : Issuer) : (planCue s iss).Sound := by
  unfold planCue
  split
  · trivial
  next c hc =>
  have hctx : IssuesCue (waitAcquire { s with cur := iss } iss c.clause) := issuesCue_of_found (c := c) (by rw [waitAcquire_cur, findCue_waitAcquire]; exact hc)
  refine Plan.sound_ite trivial (Plan.sound_ite trivial (Plan.sound_ite trivial ?_))
  split
  · trivial
  · split
    · trivial
    · exact Plan.sound_ite trivial trivial
  · trivial
  · next i heq =>
    split
    · trivial
    · dsimp only
      split
      · exact execContextLineRefill_wf _ _ _
      · exact exec_cue_sound (aheadOf_inStream heq) hctx
theorem planOf_sound (s : State) (a : Act) : (planOf s a).Sound := by
  cases a with
  | warp wg wi port => exact planOn_sound _ _ _ _ _
  | beside wg wi lanes _ _ => exact planOn_sound s wg wi 1 fun _ ls => lanes.filter ls.contains
  | cue wg => exact planCue_sound _ _
  | mgmt m => exact planCue_sound _ _
  | event i =>
    unfold planOf
    dsimp only
    split
    · next h => exact exec_event_sound s h
    · trivial
  | _ => trivial
theorem step_sound (s : State) : Sound s (step s) := by
  have hplan := planOf_sound (begin_ s) (chosen s)
  have hwf : s.wf = true → (planOf (begin_ s) (chosen s)).Wf := fun hs => planOf_wf _ (begin_wf hs)
  unfold step
  split
  · next t heq =>
    rw [heq] at hwf
    exact (sound_next _ _).2 fun hs => enterAll_wf (finishAct_wf _ _ _ (begin_wf hs) (begin_wf hs) (hwf hs))
  · next i r heq =>
    rw [heq] at hplan hwf
    obtain ⟨t, ht, hkeeps⟩ := hplan
    rw [ht]
    exact (sound_next _ _).2 fun hs => enterAll_wf (finishAct_wf _ _ _ (begin_wf hs) (hwf hs) (hkeeps (hwf hs)))

/-- Settles O6: what a step answers keeps the form, by `step_sound`. -/
theorem stepKeepsSound : Obligations.StepKeepsSound := fun s _ hs hstep => (step_sound s).wf hstep hs
/-- Settles O7: every step answers a next state, by `step_sound`. -/
theorem noStepStops : Obligations.NoStepStops := fun s => by
  obtain ⟨t, ht, -⟩ := step_sound s
  exact ⟨t, ht⟩

end Sys2Proof.Machine
end

section
/-! Warp instructions that write the warp's own registers, transfer control or go into flight (family other). Obligations O10, O11 and O12. -/

namespace Sys2Proof.Machine

/-! ### O10: one other piece of the warp -/

theorem nop_answers {s : State} {c : WCtx} {f : VF} (hc : warpCtx s (.nop f) = some c) (hr : WarpReady (opNop f) s c = true) :
    AnswersWarp (.nop f) s c { c.w with threads := threadsAfter c (.nop f) fun _ th => th } :=
  ready_warp rfl rfl hc hr rfl (fun w => w) (updWarp_id _ _ _).symm _ rfl

theorem yield_answers {s : State} {c : WCtx} {f : VF} (hc : warpCtx s (.yield f) = some c) (hr : WarpReady (opYield f) s c = true) :
    AnswersWarp (.yield f) s c { c.w with threads := threadsAfter c (.yield f) (onCs c fun th => { th with readyAt := s.clk + 4 * ((c.lanes.map (· / 32)).eraseDups.length - 1) + 16 }) } :=
  ready_threads rfl rfl hc hr rfl (fun _ th => { th with readyAt := s.clk + 4 * ((c.lanes.map (· / 32)).eraseDups.length - 1) + 16 }) (updThreads_fold _ _ _ _ _)

theorem swreg_answers {s : State} {c : WCtx} {f : VF} (hc : warpCtx s (.swreg f) = some c) (hr : WarpReady (opSwreg f) s c = true) :
    AnswersWarp (.swreg f) s c { c.w with threads := threadsAfter c (.swreg f) fun l th => if l ∈ c.cs then (if f.b = 21 then { th with fpstat := BitVec.ofNat 32 (operand (laneW c f l) f f.a f.pa 1 l % 128) }
      else { th with sp := BitVec.ofNat 32 (operand (laneW c f l) f f.a f.pa 1 l) }) else th } :=
  ready_threads rfl rfl hc hr rfl (fun l th => if f.b = 21 then { th with fpstat := BitVec.ofNat 32 (operand (laneW c f l) f f.a f.pa 1 l % 128) } else { th with sp := BitVec.ofNat 32 (operand (laneW c f l) f f.a f.pa 1 l) }) rfl

theorem kvkey_answers {s : State} {c : WCtx} {f : VF} (hc : warpCtx s (.kvkey f) = some c) (hr : WarpReady (opKvkey f) s c = true) (hcs : c.cs ≠ []) :
    AnswersWarp (.kvkey f) s c { c.w with kvkey := BitVec.ofNat 16 (operand c.w f f.a 6 1 0), threads := threadsAfter c (.kvkey f) fun _ th => th } :=
  ready_warp rfl rfl hc hr rfl (fun w => { w with kvkey := BitVec.ofNat 16 (operand c.w f f.a 6 1 0) }) (if_neg hcs) _ rfl

theorem patld_answers {s : State} {c : WCtx} {f : VF} (hc : warpCtx s (.patld f) = some c) (hr : WarpReady (opPatld f) s c = true) (hcs : c.cs ≠ []) :
    AnswersWarp (.patld f) s c { c.w with
      patterns := c.w.patterns.take (32 * (f.d.toNat % 4)) ++ leBytes 32 (sseeN c.w f.a.toNat 8) ++ c.w.patterns.drop (32 * (f.d.toNat % 4) + 32)
      threads := threadsAfter c (.patld f) fun _ th => th } :=
  ready_warp rfl rfl hc hr rfl (fun w => setTable w (f.d.toNat % 4) (leBytes 32 (sseeN c.w f.a.toNat 8))) (if_neg hcs) _ rfl

/-- A write of uniform registers does not look at the threads. -/
theorem sset_setThreads (w : Warp) (th : List Thread) (d : Nat) (v : Word) : sset { w with threads := th } d v = { sset w d v with threads := th } := rfl
theorem ssetN_setThreads (n : Nat) (w : Warp) (th : List Thread) (d v : Nat) : ssetN { w with threads := th } d v n = { ssetN w d v n with threads := th } := by
  induction n generalizing w d v with
  | zero => rfl
  | succ n ih => exact ih (sset w d (BitVec.ofNat 32 v)) (d + 1) (v / 2 ^ 32)

theorem v2s_answers {s : State} {c : WCtx} {f : VF} {l : Nat} (hl : (if 2 ≤ f.m then c.cs.getLast? else c.cs.head?) = some l) (hc : warpCtx s (.v2s f) = some c) (hr : WarpReady (opV2s f) s c = true) :
    AnswersWarp (.v2s f) s c { ssetN c.w f.d.toNat (groupA c (.v2s f) l) (1 + f.m % 2) with threads := threadsAfter c (.v2s f) fun _ th => th } := by
  refine ready_warp rfl rfl hc hr rfl (fun w => ssetN w f.d.toNat (groupA c (.v2s f) l) (1 + f.m % 2)) ?_ _ (ssetN_setThreads _ _ _ _ _)
  simp only [opV2s, ge_iff_le, hl]
  rfl

/-- Settles O10, instruction by instruction. -/
theorem warpStateWrites : Obligations.WarpStateWrites := fun _ _ _ =>
  ⟨nop_answers, yield_answers, swreg_answers, kvkey_answers, patld_answers, fun _ hl => v2s_answers hl⟩

/-! ### What the contributors' threads become -/

/-- The threads after an instruction, when each of a context's is changed alike. -/
theorem threadsAfter_congr {c : WCtx} {i : Instr} {f g : Nat → Thread → Thread} (h : ∀ l th, l ∈ c.lanes → c.w.threads[l]? = some th → f l (passedAt c i l th) = g l (passedAt c i l th)) :
    threadsAfter c i f = threadsAfter c i g := by
  apply List.ext_getElem?
  intro l
  simp only [threadsAfter, List.getElem?_mapIdx]
  cases hth : c.w.threads[l]? with
  | none => rfl
  | some th =>
    by_cases hl : l ∈ c.lanes
    · simp [hl, h l th hl hth]
    · simp [hl]
/-- A change of the contributors' threads after the instruction. -/
theorem threadsAfter_mapIdx {s : State} {c : WCtx} {i : Instr} (hc : warpCtx s i = some c) (h g : Nat → Thread → Thread) :
    (threadsAfter c i g).mapIdx (fun l th => if l ∈ c.cs then h l th else th) = threadsAfter c i fun l th => if l ∈ c.cs then h l (g l th) else g l th := by
  simp only [threadsAfter, List.mapIdx_mapIdx_same]
  congr 1
  funext l th
  by_cases hl : l ∈ c.cs
  · simp [hl, cs_sub hc hl]
  · simp [hl]
/-- The record of a thread that a thread keeps as it issues. -/
@[simp] theorem passedAt_rstack (c : WCtx) (i : Instr) (l : Nat) (th : Thread) : (passedAt c i l th).rstack = th.rstack := by
  unfold passedAt passed stepThread countThread writeThread
  dsimp only
  (repeat' split) <;> rfl

/-! ### Instructions that park or step by themselves -/

/-- A warp whose group has issued an instruction that keeps its PC. -/
def stayedWarp (c : WCtx) (i : Instr) (w : Warp) : Warp :=
  Warp_updThreads (Warp_updThreads w c.lanes fun th => { countThread c.w th with plen := instrLen (warpL i) }) c.cs (writeThread (WCtx_use c i))
theorem issued_stayed (op : WOp) (s : State) (c : WCtx) (hs : op.stay = true) : issued op c s = updWarp s c.wg c.wi (stayedWarp c op.i) := by
  simp only [issued, hs, if_true, updThreads_eq, updWarp_updWarp]
  rfl
/-- A warp instruction that keeps its PC, and whose effect changes its warp alone, answers so. -/
theorem ready_stayed {i : Instr} {op : WOp} {s : State} {c : WCtx} (hx : exec i s = warpIssue op s) (hi : op.i = i) (hc : warpCtx s i = some c) (hr : WarpReady op s c = true) (hs : op.stay = true)
    (g : Warp → Warp) (he : op.eff c (issued op c s) = updWarp (issued op c s) c.wg c.wi g) (w' : Warp) (hg : g (stayedWarp c i c.w) = w') : AnswersWarp i s c w' := by
  subst hi
  refine ⟨fun w => g (stayedWarp c op.i w), ?_, hg⟩
  rw [hx, warpIssue_ready hc hr, he, issued_stayed _ _ _ hs, updWarp_updWarp]
/-- The threads of a group that has issued an instruction that keeps its PC: contributors `f`, the others `g`. -/
theorem stayedWarp_upd {s : State} {c : WCtx} {i : Instr} (hc : warpCtx s i = some c) (f g : Thread → Thread) :
    Warp_updThreads (Warp_updThreads (stayedWarp c i c.w) (c.lanes.filter fun l => !c.cs.contains l) g) c.cs f
      = { c.w with threads := c.w.threads.mapIdx fun l th => if l ∈ c.cs then f (writeThread (WCtx_use c i) { countThread c.w th with plen := instrLen (warpL i) })
          else if l ∈ c.lanes then g { countThread c.w th with plen := instrLen (warpL i) } else th } := by
  have hlanes := (warpCtx_spec hc).2.2.2.1
  rw [stayedWarp, Warp_updThreads_eq _ _ _ (cs_nodup hc), Warp_updThreads_eq _ _ _ (hlanes.filter _), Warp_updThreads_eq _ _ _ (cs_nodup hc), Warp_updThreads_eq _ _ _ hlanes]
  simp only [List.mapIdx_mapIdx_same, List.mem_filter, List.contains_eq_mem, Bool.not_eq_true', decide_eq_false_iff_not]
  congr 2
  funext l th
  by_cases hl : l ∈ c.cs
  · simp [hl, cs_sub hc hl]
  · by_cases hm : l ∈ c.lanes <;> simp [hl, hm]
/-- A parking instruction: the others of the group step past it, the contributors become `f`. -/
theorem stayedWarp_parked {s : State} {c : WCtx} {i : Instr} (hc : warpCtx s i = some c) (f : Thread → Thread) :
    Warp_updThreads (Warp_updThreads (stayedWarp c i c.w) (c.lanes.filter fun l => !c.cs.contains l) (stepThread (instrLen (warpL i)))) c.cs f = { c.w with threads := threadsParked c i f } :=
  stayedWarp_upd hc f _
/-- A parking instruction of the whole group. -/
theorem stayedWarp_whole {s : State} {c : WCtx} {i : Instr} (hc : warpCtx s i = some c) (hall : c.cs = c.lanes) (f : Thread → Thread) :
    Warp_updThreads (stayedWarp c i c.w) c.lanes f = { c.w with threads := threadsParked c i f } := by
  have hothers : c.lanes.filter (fun l => !c.lanes.contains l) = [] := List.filter_eq_nil_iff.mpr (by simp)
  rw [← stayedWarp_parked hc f, hall, hothers]
  rfl

/-! ### O11: transfers of control -/

theorem bra_answers {s : State} {c : WCtx} {f : IF} (hc : warpCtx s (.bra f) = some c) (hr : WarpReady (opBra f) s c = true) :
    AnswersWarp (.bra f) s c { c.w with threads := threadsAfter c (.bra f) (onCs c (landed (c.pc + BitVec.ofInt 57 (4 * f.imm.toInt)))) } :=
  ready_threads rfl rfl hc hr rfl (fun _ => jumpThread (relTarget c.pc f.imm)) (updThreads_fold _ _ _ _ _)

theorem laneTarget_ofNat (c : WCtx) (f : VF) (l : Nat) : BitVec.ofNat 57 (laneTarget c f l) = BitVec.ofNat 57 (operand (laneW c f l) f f.a f.pa 2 l) :=
  BitVec.eq_of_toNat_eq (by simp [laneTarget])
theorem jumpThread_laneTarget (c : WCtx) (f : VF) (l : Nat) : jumpThread (BitVec.ofNat 57 (laneTarget c f l)) = landed (BitVec.ofNat 57 (operand (laneW c f l) f f.a f.pa 2 l)) := by
  rw [laneTarget_ofNat]
  rfl
theorem brx_answers {s : State} {c : WCtx} {f : VF} (hc : warpCtx s (.brx f) = some c) (hr : WarpReady (opBrx f) s c = true) :
    AnswersWarp (.brx f) s c { c.w with threads := threadsAfter c (.brx f) fun l th => if l ∈ c.cs then landed (BitVec.ofNat 57 (operand (laneW c f l) f f.a f.pa 2 l)) th else th } := by
  refine ready_threads rfl rfl hc hr rfl (fun l => landed (BitVec.ofNat 57 (operand (laneW c f l) f f.a f.pa 2 l))) ?_
  simp only [← jumpThread_laneTarget]
  rfl

/-- Contributors none of which meets a condition. -/
theorem who_nil {c : WCtx} {p : Thread → Bool} (h : ∀ l ∈ c.cs, ∀ th, c.w.threads[l]? = some th → p th = false) : WCtx_who c p = [] := by
  refine List.filter_eq_nil_iff.mpr fun l hl => ?_
  cases hth : WCtx_th c l with
  | none => simp
  | some th => simpa using h l hl th hth
/-- Contributors all of which meet it. -/
theorem who_all {s : State} {i : Instr} {c : WCtx} (hc : warpCtx s i = some c) {p : Thread → Bool} (h : ∀ l ∈ c.cs, ∀ th, c.w.threads[l]? = some th → p th = true) : WCtx_who c p = c.cs := by
  refine List.filter_eq_self.mpr fun l hl => ?_
  have hlt := ((warpCtx_spec hc).2.2.2.2.1 l (cs_sub hc hl)).2
  have hth : WCtx_th c l = some c.w.threads[l] := List.getElem?_eq_getElem hlt
  simpa [hth] using h l hl _ hth

/-- A call in a thread that holds fewer than four addresses stores nothing. -/
theorem pushReturn_short {t : State} {c : WCtx} {ra : VAddr} {l : Nat} {th : Thread} (hth : c.w.threads[l]? = some th) (hshort : th.rstack.length < 4) :
    pushReturn t c ra l = updThread t c.wg c.wi l fun x => { x with rstack := ra :: th.rstack, depth := x.depth + 1 } := by
  have hlen : ¬ th.rstack.length ≥ 4 := by omega
  have hctx : WCtx_th c l = some th := hth
  simp only [pushReturn, hctx, if_neg hlen]
/-- A call that spills nothing pushes in each contributor's stack. -/
theorem pushReturns_short {s t : State} {i : Instr} {c : WCtx} {ra : VAddr} (hc : warpCtx s i = some c) (h : ∀ l ∈ c.cs, ∀ th, c.w.threads[l]? = some th → th.rstack.length < 4) :
    pushReturns t c ra = c.cs.foldl (fun t l => updThread t c.wg c.wi l fun x => { x with rstack := ra :: ((c.w.threads[l]?).map (·.rstack)).getD [], depth := x.depth + 1 }) t := by
  have hnone : spillAccs t c = [] := by
    rw [spillAccs, who_nil fun l hl th hth => by simpa using h l hl th hth]
    rfl
  have hpush : pushReturns t c ra = c.cs.foldl (fun t l => pushReturn t c ra l) t := by simp [pushReturns, hnone, placed, markStores]
  rw [hpush]
  refine List.foldl_ext _ _ _ fun u l hl => ?_
  have hth := List.getElem?_eq_getElem ((warpCtx_spec hc).2.2.2.2.1 l (cs_sub hc hl)).2
  rw [pushReturn_short hth (h l hl _ hth), hth]
  rfl
/-- A warp whose contributors have pushed a return address and spilled nothing. -/
def pushedIn (c : WCtx) (ra : VAddr) (w : Warp) : Warp :=
  c.cs.foldl (fun w l => Warp_updThread w l fun x => { x with rstack := ra :: ((c.w.threads[l]?).map (·.rstack)).getD [], depth := x.depth + 1 }) w
/-- A call that spills nothing: each contributor pushes its return address, and lands on its target. -/
theorem call_answers {i : Instr} {op : WOp} {s : State} {c : WCtx} {ra : VAddr} {dest : Nat → VAddr} (hx : exec i s = warpIssue op s) (hi : op.i = i) (hc : warpCtx s i = some c) (hr : WarpReady op s c = true) (hs : op.stay = false)
    (he : op.eff c (issued op c s) = c.cs.foldl (fun t l => updThread t c.wg c.wi l (jumpThread (dest l))) (pushReturns (issued op c s) c ra))
    (h : ∀ l ∈ c.cs, ∀ th, c.w.threads[l]? = some th → th.rstack.length < 4) :
    AnswersWarp i s c { c.w with threads := threadsAfter c i fun l th => if l ∈ c.cs then landed (dest l) { th with rstack := ra :: th.rstack, depth := th.depth + 1 } else th } := by
  refine ready_warp hx hi hc hr hs (fun w => c.cs.foldl (fun w l => Warp_updThread w l (jumpThread (dest l))) (pushedIn c ra w)) ?_ _ ?_
  · simp only [pushedIn]
    rw [he, pushReturns_short hc h, foldl_updThread, foldl_updThread, updWarp_updWarp]
  · simp only [pushedIn]
    rw [foldl_Warp_threads _ _ _ (cs_nodup hc), foldl_Warp_threads _ _ _ (cs_nodup hc)]
    simp only [threadsAfter_mapIdx hc]
    congr 1
    refine threadsAfter_congr fun l th _ hth => ?_
    by_cases hl : l ∈ c.cs
    · simp only [if_pos hl, hth, Option.map_some, Option.getD_some, passedAt_rstack]
      rfl
    · simp only [if_neg hl]
theorem ret_answers {s : State} {c : WCtx} {f : VF} (hc : warpCtx s (.ret f) = some c) (hr : WarpReady (opRet f) s c = true) (h : ∀ l ∈ c.cs, ∀ th, c.w.threads[l]? = some th → th.rstack ≠ []) :
    AnswersWarp (.ret f) s c { c.w with threads := threadsParked c (.ret f) fun th => landed (th.rstack.headD 0) { th with rstack := th.rstack.tail, depth := th.depth - 1 } } := by
  have hnone : ∀ t, refillAccs t c = [] := fun t => by
    rw [refillAccs, who_nil fun l hl th hth => by simp [h l hl th hth]]
    rfl
  have hall : WCtx_who c (fun th => th.rstack != []) = c.cs := who_all hc fun l hl th hth => by simpa using h l hl th hth
  refine ready_stayed rfl rfl hc hr rfl (fun w => Warp_updThreads (Warp_updThreads w (c.lanes.filter fun l => !c.cs.contains l) (stepThread (instrLen f.l))) c.cs fun th =>
    jumpThread (th.rstack.headD 0) { th with rstack := th.rstack.tail, depth := th.depth - 1 }) ?_ _ (stayedWarp_parked hc _)
  simp only [opRet, refillLoads, hnone, hall, placed, List.filterMap_nil, List.foldl_nil, if_true, updThreads_eq, updWarp_updWarp]

/-- Settles O11, instruction by instruction. -/
theorem warpTransfers : Obligations.WarpTransfers := fun _ c =>
  ⟨fun _ => bra_answers, fun _ => brx_answers,
    fun f hc hr => call_answers (dest := fun _ => c.pc + BitVec.ofInt 57 (4 * f.imm.toInt)) rfl rfl hc hr rfl (updThreads_fold _ _ _ _ _),
    fun f hc hr => call_answers (dest := fun l => BitVec.ofNat 57 (operand (laneW c f l) f f.a f.pa 2 l)) rfl rfl hc hr rfl (by simp only [← laneTarget_ofNat]; rfl),
    fun _ => ret_answers⟩

/-! ### O12: special functions go into flight -/

/-- A long instruction that has issued, as a change of its warp and the flight. -/
theorem launched_eq (c : WCtx) (i : Instr) (kind : FlightKind) (isSvc isPriv : Bool) (t : State) :
    launched c i kind isSvc isPriv t = inFlight (WCtx_iss c) c.pc ((warpLook i).getD 0) kind (updWarp t c.wg c.wi fun w => Warp_updThreads w c.lanes (openedWindow c i t.nextId isSvc isPriv)) := rfl
/-- An instruction whose effect is its flight and its window answers so. -/
theorem ready_launched {i : Instr} {op : WOp} {s : State} {c : WCtx} {kind : FlightKind} {isSvc isPriv : Bool} (hx : exec i s = warpIssue op s) (hi : op.i = i) (hc : warpCtx s i = some c) (hr : WarpReady op s c = true) (hs : op.stay = false)
    (he : op.eff c (issued op c s) = launched c i kind isSvc isPriv (issued op c s)) :
    AnswersWith i s c { c.w with threads := threadsAfter c i fun _ => openedWindow c i s.nextId isSvc isPriv } (inFlight (WCtx_iss c) c.pc ((warpLook i).getD 0) kind) := by
  subst hi
  refine ⟨fun w => Warp_updThreads (passedWarp c op.i w) c.lanes (openedWindow c op.i s.nextId isSvc isPriv), ?_, ?_⟩
  · rw [hx, warpIssue_ready hc hr, he, launched_eq, issued_eq _ _ _ hs, updWarp_updWarp]
    rfl
  · dsimp only
    rw [passedWarp_eq hc, Warp_updThreads_eq _ _ _ (warpCtx_spec hc).2.2.2.1]
    simp only [threadsAfter, List.mapIdx_mapIdx_same]
    congr 2
    funext l th
    by_cases hl : l ∈ c.lanes <;> simp [hl]

theorem warpOp_of_specialFn {i : Instr} {fn : VF → Nat → Nat → Nat × Flags} (h : specialFn i = some fn) : warpOp i = some (special i fn) := by
  unfold specialFn at h
  split at h <;> cases h <;> rfl
theorem special_eff {c : WCtx} {i : Instr} {fn : VF → Nat → Nat → Nat × Flags} {f : VF} {v : VSpec} (hshape : shapeOf c i = some (f, v)) (t : State) :
    (special i fn).eff c t = launched c i (.vsfu (vsfuUnit i) (c.cs.map fun l => ⟨l, f.d.toNat, BitVec.ofNat 64 (fn f (sourceA c i l) (sourceB c i l)).1⟩) (c.cs.map fun l => (l, (fn f (sourceA c i l) (sourceB c i l)).2))) false false t := by
  have hspec : vSpec c.W (WCtx_slot c) i = some (f, v) := hshape
  simp only [special, hspec, List.map_map, sourceA, sourceB, onOperands, hshape]
  rfl

/-- Settles O12: the operation is `special`, whose effect is a flight with its results. -/
theorem specialFunctionsIssue : Obligations.SpecialFunctionsIssue := fun i op s c wr fl hop hres hc hr => by
  obtain ⟨fn, hfn, hres⟩ := Option.bind_eq_some_iff.mp hres
  obtain ⟨⟨f, v⟩, hshape, hres⟩ := Option.map_eq_some_iff.mp hres
  cases hres
  cases (warpOp_of_specialFn hfn).symm.trans hop
  exact ready_launched (exec_of_warpOp hop) rfl hc hr rfl (special_eff hshape _)

end Sys2Proof.Machine
end

section
/-! The result of every lane instruction (family other). Obligation O8: each operation writes its registers or its predicate in every contributor. -/

namespace Sys2Proof.Machine

/-! ### Instructions that write vector registers -/

/-- An operation whose effect writes some registers of every contributor gives them. -/
theorem gives_of_writeAll {i : Instr} {op : WOp} {s : State} {c : WCtx} {d n : Nat} {val : Nat → Nat × Flags} (hop : warpOp i = some op) (hi : op.i = i) (hs : op.stay = false) (hc : warpCtx s i = some c) (hr : WarpReady op s c = true)
    (he : op.eff c (issued op c s) = updWarp (issued op c s) c.wg c.wi (writeAll c.cs d n val)) : ∃ g, exec i s = .next (updWarp s c.wg c.wi g) ∧ GivesLanes c i d n val (g c.w) := by
  subst hi
  rw [exec_of_warpOp hop]
  exact warpIssue_gives hc hr hs d n val he

theorem warpOp_of_floatFn {i : Instr} {fn : Nat → Nat → Nat → Nat → Nat × Flags} (h : floatFn i = some fn) : warpOp i = some (fpOp i fn) := by
  unfold floatFn at h
  split at h <;> cases h <;> rfl

theorem mergeFlags_zero (w : Warp) (l : Nat) : mergeFlags w l 0 = w := by simp [mergeFlags]

theorem warpOp_of_intFn {i : Instr} {fn : Nat → Nat → Nat → Nat → Nat} (hfn : intFn i = some fn) (hbool : ∀ g, i ≠ .bool3 g) : warpOp i = some (intOp i fn) := by
  unfold intFn at hfn
  split at hfn
  case h_28 g => exact (hbool g rfl).elim
  case h_29 => cases hfn
  all_goals
    cases hfn
    rfl
/-- The effect of an integer instruction; `bool3` has its table in its second word. -/
theorem intFn_eff {c : WCtx} {i : Instr} {op : WOp} {fn : Nat → Nat → Nat → Nat → Nat} {f : VF} {v : VSpec} (hfn : intFn i = some fn) (hop : warpOp i = some op) (hshape : shapeOf c i = some (f, v)) :
    op.i = i ∧ op.stay = false ∧ ∀ t, op.eff c t = updWarp t c.wg c.wi (writeAll c.cs f.d.toNat (Dst.regs v.d) (onOperands c i (0, 0) fun f x y z => (fn f.m x y z, 0))) := by
  by_cases hbool : ∀ g, i ≠ .bool3 g
  · cases (warpOp_of_intFn hfn hbool).symm.trans hop
    exact ⟨rfl, rfl, fun t => elementwise_eff hshape (fun f x y z => (fn f.m x y z, 0)) t⟩
  · obtain ⟨g, rfl⟩ : ∃ g, i = .bool3 g := by simpa using hbool
    obtain rfl : opBool3 g = op := Option.some.inj hop
    obtain rfl : (fun m a b z => aluBool3 (g.param.toNat + 128 * (m % 2)) a b z) = fn := Option.some.inj hfn
    have hfg : g = f := congrArg Prod.fst (Option.some.inj hshape)
    refine ⟨rfl, rfl, fun t => (elementwise_eff hshape (fun f a b z => (aluBool3 (f.param.toNat + 128 * (f.m % 2)) a b z, 0)) t).trans ?_⟩
    have hval : onOperands c (.bool3 g) (0, 0) (fun f a b z => (aluBool3 (f.param.toNat + 128 * (f.m % 2)) a b z, (0 : Flags)))
        = onOperands c (.bool3 g) (0, 0) fun f a b z => (aluBool3 (g.param.toNat + 128 * (f.m % 2)) a b z, 0) := by
      funext l
      rw [onOperands_of_shape hshape, onOperands_of_shape hshape, hfg]
    rw [hval]
theorem eqset_eff {c : WCtx} (f : VF) (t : State) :
    (opEqset f).eff c t = updWarp t c.wg c.wi (writeAll c.cs f.d.toNat (dstRegs c (.eqset f)) fun l =>
      let same := c.cs.filter fun m => groupA c (.eqset f) m == groupA c (.eqset f) l
      (if f.m / 2 = 0 then (laneMask same).toNat
        else if f.m / 2 = 1 then (if same.length = c.cs.length then (laneMask c.cs).toNat else 0)
        else (same.filter fun m => decide (m < l)).length, 0)) := by
  have hspec : ∃ v, vSpec c.W (WCtx_slot c) (.eqset f) = some (f, v) := ⟨_, rfl⟩
  obtain ⟨v, hspec⟩ := hspec
  simp only [opEqset, laneOp, hspec, dstRegs, shapeOf, groupA]
  rcases h : f.m / 2 with _ | _ | n
  · rfl
  · rfl
  · rfl
theorem poll_eff {c : WCtx} {f : VF} (hm : 3 ≤ f.m) (t : State) :
    (opPoll f).eff c t = updWarp t c.wg c.wi (writeAll c.cs f.d.toNat (dstRegs c (.poll f)) fun _ =>
      (if f.m = 3 then (laneMask (pollYes c f)).toNat else if f.m = 4 then (pollYes c f).length else (pollYes c f).headD 0xFFFFFFFF, 0)) := by
  have hspec : ∃ v, vSpec c.W (WCtx_slot c) (.poll f) = some (f, v) := ⟨_, rfl⟩
  obtain ⟨v, hspec⟩ := hspec
  simp only [opPoll, hspec, dstRegs, shapeOf, pollYes]
  obtain ⟨n, hn⟩ := Nat.exists_eq_add_of_le' hm
  rw [hn]
  rcases n with _ | _ | n
  · rfl
  · rfl
  · cases hyes : c.cs.filter (pollQ c f) with
    | nil => rfl
    | cons l r => rfl

/-- The effect of an instruction with a vector result. -/
theorem vectorResult_eff {s : State} {c : WCtx} {i : Instr} {op : WOp} {d n : Nat} {val : Nat → Nat × Flags} (hop : warpOp i = some op) (hres : vectorResult s c i = some (d, n, val)) :
    op.i = i ∧ op.stay = false ∧ op.eff c (issued op c s) = updWarp (issued op c s) c.wg c.wi (writeAll c.cs d n val) := by
  unfold vectorResult at hres
  split at hres
  · cases hop; cases hres; exact ⟨rfl, rfl, rfl⟩
  · cases hop; cases hres; exact ⟨rfl, rfl, rfl⟩
  · cases hop; cases hres; exact ⟨rfl, rfl, rfl⟩
  · cases hop; cases hres; exact ⟨rfl, rfl, rfl⟩
  · cases hop; cases hres; exact ⟨rfl, rfl, rfl⟩
  · cases hop; cases hres; exact ⟨rfl, rfl, rfl⟩
  · cases hop; cases hres; exact ⟨rfl, rfl, rfl⟩
  · cases hop; cases hres; exact ⟨rfl, rfl, rfl⟩
  · cases hop; cases hres; exact ⟨rfl, rfl, rfl⟩
  · cases hop; cases hres; exact ⟨rfl, rfl, rfl⟩
  · cases hop; cases hres; exact ⟨rfl, rfl, rfl⟩
  · cases hop; cases hres
    refine ⟨rfl, rfl, ?_⟩
    rename_i f
    exact eqset_eff f _
  · cases hop; cases hres; exact ⟨rfl, rfl, rfl⟩
  · cases hop; cases hres; exact ⟨rfl, rfl, rfl⟩
  · cases hop
    split at hres
    · cases hres
    next hm =>
    cases hres
    refine ⟨rfl, rfl, ?_⟩
    rename_i f
    exact poll_eff (by omega) _
  · cases hop; cases hres
    refine ⟨rfl, rfl, congrArg (updWarp _ c.wg c.wi) (funext fun w => ?_)⟩
    simp only [writeAll, mergeFlags_zero]
    rfl
  · split at hres
    · next fn hfn =>
      obtain ⟨⟨f, v⟩, hshape, hres⟩ := Option.map_eq_some_iff.mp hres
      cases hres
      have hdst : dstRegs c i = Dst.regs v.d := by simp only [dstRegs, hshape]
      rw [hdst]
      obtain ⟨hi, hs, he⟩ := intFn_eff hfn hop hshape
      exact ⟨hi, hs, he _⟩
    · obtain ⟨fn, hfn, hres⟩ := Option.bind_eq_some_iff.mp hres
      obtain ⟨⟨f, v⟩, hshape, hres⟩ := Option.map_eq_some_iff.mp hres
      cases (warpOp_of_floatFn hfn).symm.trans hop
      cases hres
      refine ⟨rfl, rfl, ?_⟩
      have hdst : dstRegs c i = Dst.regs v.d := by simp only [dstRegs, hshape]
      rw [hdst]
      exact elementwise_eff hshape (fun f x y z => fn f.m x y z) _

/-! ### Instructions that write a predicate -/

theorem poll_pred_eff {c : WCtx} {f : VF} (hm : f.m < 3) (t : State) :
    (opPoll f).eff c t = updWarp t c.wg c.wi (writePreds c.cs (f.d.toNat % 8) fun _ =>
      (if f.m = 0 then (pollYes c f).length == c.cs.length else if f.m = 1 then pollYes c f != [] else pollYes c f == [] || (pollYes c f).length == c.cs.length, 0)) := by
  have hspec : ∃ v, vSpec c.W (WCtx_slot c) (.poll f) = some (f, v) := ⟨_, rfl⟩
  obtain ⟨v, hspec⟩ := hspec
  simp only [opPoll, hspec, pollYes]
  obtain h | h | h : f.m = 0 ∨ f.m = 1 ∨ f.m = 2 := by omega
  all_goals
    rw [h]
    rfl
/-- The effect of an instruction with a predicate result. -/
theorem predicateResult_eff {c : WCtx} {i : Instr} {op : WOp} {d : Nat} {val : Nat → Bool × Flags} (hop : warpOp i = some op) (hres : predicateResult c i = some (d, val)) :
    op.i = i ∧ op.stay = false ∧ ∀ t, op.eff c t = updWarp t c.wg c.wi (writePreds c.cs d val) := by
  unfold predicateResult at hres
  split at hres
  · cases hop; cases hres; exact ⟨rfl, rfl, fun t => rfl⟩
  · cases hop; cases hres; exact ⟨rfl, rfl, fun t => rfl⟩
  · cases hop
    split at hres
    · cases hres
      exact ⟨rfl, rfl, fun t => poll_pred_eff (by assumption) t⟩
    · cases hres
  · cases hop; cases hres; exact ⟨rfl, rfl, fun t => rfl⟩
  · cases hres

/-- Settles O8, by the effect of each operation. -/
theorem laneResults : Obligations.LaneResults := by
  refine ⟨fun i op s c d n val hop hres hc hr => ?_, fun i op s c d val hop hres hc hr => ?_⟩
  · obtain ⟨hi, hs, he⟩ := vectorResult_eff hop hres
    exact gives_of_writeAll hop hi hs hc hr he
  · obtain ⟨hi, hs, he⟩ := predicateResult_eff hop hres
    subst hi
    rw [exec_of_warpOp hop]
    exact warpIssue_gives_preds hc hr hs d val (he _)

end Sys2Proof.Machine
end

section
/-! What performs the accesses of a stream (07 to 09) leaves every workgroup its number, its cue thread and its warps: a barrier's ordering (09 R240) moves no thread. -/

namespace Sys2Proof.Machine

/-- A workgroup's number, its place in its grid, its cue thread, and its warps. -/
def wgWarps (k : Workgroup) : (Nat × Nat × Nat × Cue) × List Warp := ((k.id, k.grid, k.lin, k.cue), k.warps)
@[simp] theorem foldl_warps {α : Type} (l : List α) (f : State → α → State) (s : State) (h : ∀ t x, (f t x).wgs.map wgWarps = t.wgs.map wgWarps) : (l.foldl f s).wgs.map wgWarps = s.wgs.map wgWarps := by
  induction l generalizing s with
  | nil => rfl
  | cons x r ih => rw [List.foldl_cons, ih, h]
theorem foldl_snd_warps {α β : Type} (l : List α) (f : β × State → α → β × State) (a : β × State) (h : ∀ t x, (f t x).2.wgs.map wgWarps = t.2.wgs.map wgWarps) : (l.foldl f a).2.wgs.map wgWarps = a.2.wgs.map wgWarps := by
  induction l generalizing a with
  | nil => rfl
  | cons x r ih => rw [List.foldl_cons, ih, h]
@[simp] theorem combUse_warps (s : State) (line : ℕ) (mask : BitVec 128) (key : BitVec 16) : (combUse s line mask key).wgs.map wgWarps = s.wgs.map wgWarps := by
  simp [combUse]
@[simp] theorem endResv_warps (s : State) (g : ℕ) (who : Option Agent) : (endResv s g who).wgs.map wgWarps = s.wgs.map wgWarps := by
  simp [endResv]
@[simp] theorem homeMerge_warps (s : State) (line : Nat) (mask : BitVec 128) (d : BitVec 1024) (key : BitVec 16) (who : Option Agent) : (homeMerge s line mask d key who).wgs.map wgWarps = s.wgs.map wgWarps := by
  unfold homeMerge
  split
  · rfl
  · refine (foldl_warps _ _ _ fun t j => ?_).trans ?_
    · split <;> simp
    · simp
@[simp] theorem homeWrite_warps (s : State) (pa : Nat) (bs : List Byte) (key : BitVec 16) (who : Option Agent) : (homeWrite s pa bs key who).wgs.map wgWarps = s.wgs.map wgWarps := by
  simp [homeWrite]
@[simp] theorem softTake_warps (s : State) (lo : ℕ) (hi : ℕ) : (softTake s lo hi).2.wgs.map wgWarps = s.wgs.map wgWarps := by
  unfold softTake
  split <;> simp
@[simp] theorem updPort_warps (s : State) (p : ℕ) (f : Port → Port) : (updPort s p f).wgs.map wgWarps = s.wgs.map wgWarps := by
  simp [updPort]
@[simp] theorem offerPort_warps (s : State) (p : ℕ) (m : Msg) : (offerPort s p m).wgs.map wgWarps = s.wgs.map wgWarps := by
  simp only [offerPort]
  (repeat' split) <;> simp [*]
@[simp] theorem routeMsg_warps (s : State) (m : Msg) : (routeMsg s m).wgs.map wgWarps = s.wgs.map wgWarps := by
  unfold routeMsg
  split <;> simp
@[simp] theorem postMsg_warps (s : State) (m : Msg) : (postMsg s m).wgs.map wgWarps = s.wgs.map wgWarps := by
  simp [postMsg]
@[simp] theorem askPeer_warps (s : State) (a : Asker) (m : Msg) : (askPeer s a m).wgs.map wgWarps = s.wgs.map wgWarps := by
  simp [askPeer]
@[simp] theorem peerPoint_warps (s : State) (p : Point) (o : LaneOp) (pa : ℕ) (n : ℕ) : (peerPoint s p o pa n).2.2.wgs.map wgWarps = s.wgs.map wgWarps := by
  simp [peerPoint]
@[simp] theorem combRead_warps (s : State) (pa : ℕ) (n : ℕ) (key : BitVec 16) : (combRead s pa n key).wgs.map wgWarps = s.wgs.map wgWarps := by
  unfold combRead
  split <;> simp
@[simp] theorem sendMsg_warps (s : State) (dst : ℕ) (kind : BitVec 6) (page : ℕ) (seq : BitVec 16) (aux : ℕ) (data : List Byte) : (sendMsg s dst kind page seq aux data).wgs.map wgWarps = s.wgs.map wgWarps := by
  simp [sendMsg]
@[simp] theorem peerRead_warps (s : State) (pa : ℕ) (n : ℕ) : (peerRead s pa n).2.wgs.map wgWarps = s.wgs.map wgWarps := by
  simp [peerRead]
@[simp] theorem behindRead_warps (s : State) (loc : Loc) (n : ℕ) (key : BitVec 16) : (behindRead s loc n key).2.2.wgs.map wgWarps = s.wgs.map wgWarps := by
  cases loc <;> simp only [behindRead, combRead_warps]
  case peer pa => split <;> (rename_i h; rw [← peerRead_warps s pa n, h])
@[simp] theorem pointRead_warps (s : State) (p : Point) (o : LaneOp) (n : ℕ) : (pointRead s p o n).2.2.wgs.map wgWarps = s.wgs.map wgWarps := by
  unfold pointRead
  split <;> simp
@[simp] theorem setMreg_warps (s : State) (off : ℕ) (v : ℕ) : (setMreg s off v).wgs.map wgWarps = s.wgs.map wgWarps := by
  simp [setMreg]
@[simp] theorem setQreg_warps (s : State) (q : ℕ) (f : ℕ) (v : ℕ) : (setQreg s q f v).wgs.map wgWarps = s.wgs.map wgWarps := by
  simp [setQreg]
@[simp] theorem chaltRelease_warps (s : State) (m : ℕ) : (chaltRelease s m).wgs.map wgWarps = s.wgs.map wgWarps := by
  simp only [chaltRelease]
  (repeat' split) <;> simp [*]
@[simp] theorem wakeOr_warps (s : State) (target : ℕ) (v : ℕ) : (wakeOr s target v).wgs.map wgWarps = s.wgs.map wgWarps := by
  unfold wakeOr
  (repeat' split) <;> simp [*]
@[simp] theorem queueWrite_warps (s : State) (q : ℕ) (f : ℕ) (v : ℕ) : (queueWrite s q f v).wgs.map wgWarps = s.wgs.map wgWarps := by
  unfold queueWrite
  (repeat' split) <;> simp [*]
@[simp] theorem regStore_warps (s : State) (off : ℕ) (n : ℕ) (v : ℕ) : (regStore s off n v).wgs.map wgWarps = s.wgs.map wgWarps := by
  simp only [regStore]
  (repeat' split) <;> simp [*]
@[simp] theorem regWrite_warps (s : State) (off : ℕ) (n : ℕ) (v : ℕ) : (regWrite s off n v).wgs.map wgWarps = s.wgs.map wgWarps := by
  unfold regWrite
  split <;> simp
@[simp] theorem takePair_warps (s : State) (pair : ℕ) : (takePair s pair).wgs.map wgWarps = s.wgs.map wgWarps := by
  simp only [takePair, List.map_map]
  congr 1
  funext k
  simp only [Function.comp_apply, takeHot]
  (repeat' split) <;> rfl
@[simp] theorem errWrite_warps (s : State) (bs : List Byte) : (errWrite s bs).wgs.map wgWarps = s.wgs.map wgWarps := by
  simp [errWrite]
@[simp] theorem errReport_warps (s : State) : (errReport s).wgs.map wgWarps = s.wgs.map wgWarps := by
  unfold errReport
  split <;> simp
@[simp] theorem postEntry_warps (s : State) (bs : List Byte) : (postEntry s bs).wgs.map wgWarps = s.wgs.map wgWarps := by
  simp only [postEntry]
  (repeat' split) <;> simp [*]
@[simp] theorem postRec_warps (s : State) (r : TrapRec) (wg : Option ℕ) : (postRec s r wg).wgs.map wgWarps = s.wgs.map wgWarps := by
  unfold postRec
  split <;> simp
@[simp] theorem postAsync_warps (s : State) (cause : Cause) (addr : BitVec 64) (wg : Option ℕ) : (postAsync s cause addr wg).wgs.map wgWarps = s.wgs.map wgWarps := by
  simp [postAsync]
@[simp] theorem colRead_warps (s : State) (c : ℕ) (v : BitVec 16) : (colRead s c v).wgs.map wgWarps = s.wgs.map wgWarps := by
  simp only [colRead]
  (repeat' split) <;> simp [*]
@[simp] theorem reclass_warps (s : State) : (reclass s).wgs.map wgWarps = s.wgs.map wgWarps := by
  refine foldl_warps _ _ _ fun t c => ?_
  split <;> simp
@[simp] theorem updQueue_warps (s : State) (q : ℕ) (f : QueueSt → QueueSt) : (updQueue s q f).wgs.map wgWarps = s.wgs.map wgWarps := by
  simp [updQueue]
@[simp] theorem disableQueue_warps (s : State) (q : ℕ) : (disableQueue s q).wgs.map wgWarps = s.wgs.map wgWarps := by
  unfold disableQueue
  split
  · rfl
  · simp only [updQueue_warps, setQreg_warps]
    split <;> simp
@[simp] theorem mapWrite_warps (s : State) (off : ℕ) (n : ℕ) (v : ℕ) : (mapWrite s off n v).wgs.map wgWarps = s.wgs.map wgWarps := by
  simp only [mapWrite]
  (repeat' split) <;> simp [*]
@[simp] theorem peerWrite_warps (s : State) (a : Asker) (pa : ℕ) (bs : List Byte) (caps : List (BitVec 16)) : (peerWrite s a pa bs caps).wgs.map wgWarps = s.wgs.map wgWarps := by
  simp [peerWrite]
@[simp] theorem behindWrite_warps (s : State) (iss : Issuer) (lane : ℕ) (loc : Loc) (bs : List Byte) (key : BitVec 16) (at_ : optParam (VAddr × BitVec 64) (0, 0)) : (behindWrite s iss lane loc bs key at_).wgs.map wgWarps = s.wgs.map wgWarps := by
  unfold behindWrite
  split <;> simp
@[simp] theorem pointWrite_warps (s : State) (p : Point) (o : LaneOp) (bs : List Byte) : (pointWrite s p o bs).wgs.map wgWarps = s.wgs.map wgWarps := by
  unfold pointWrite
  split <;> simp
@[simp] theorem rmw_warps (s : State) (p : Point) (o : LaneOp) (n : ℕ) (consumer : ℕ) (fn : ℕ → Option ℕ × OpOut) : (rmw s p o n consumer fn).2.wgs.map wgWarps = s.wgs.map wgWarps := by
  simp only [rmw]
  (repeat' split) <;> simp [*]
@[simp] theorem dropResv_warps (s : State) (a : Agent) : (dropResv s a).wgs.map wgWarps = s.wgs.map wgWarps := by
  simp [dropResv]
@[simp] theorem addResv_warps (s : State) (a : Agent) (pa : ℕ) : (addResv s a pa).wgs.map wgWarps = s.wgs.map wgWarps := by
  simp [addResv]
@[simp] theorem dropClaim_warps (s : State) (flight : ℕ) (a : Agent) : (dropClaim s flight a).wgs.map wgWarps = s.wgs.map wgWarps := by
  simp [dropClaim]
@[simp] theorem peerMerge_warps (s : State) (l : L1Line) (mask : BitVec 128) : (peerMerge s l mask).wgs.map wgWarps = s.wgs.map wgWarps := by
  simp [peerMerge]
@[simp] theorem backMerge_warps (s : State) (l : L1Line) (mask : BitVec 128) : (backMerge s l mask).wgs.map wgWarps = s.wgs.map wgWarps := by
  simp only [backMerge]
  (repeat' split) <;> simp [*]
@[simp] theorem l1DropGranule_warps (s : State) (core : ℕ) (a : ℕ) (n : ℕ) : (l1DropGranule s core a n).wgs.map wgWarps = s.wgs.map wgWarps := by
  unfold l1DropGranule
  split <;> simp
@[simp] theorem l1Del_warps (s : State) (core : ℕ) (line : ℕ) : (l1Del s core line).wgs.map wgWarps = s.wgs.map wgWarps := by
  simp [l1Del]
@[simp] theorem l1WriteBack_warps (s : State) (l : L1Line) : (l1WriteBack s l).wgs.map wgWarps = s.wgs.map wgWarps := by
  simp [l1WriteBack]
@[simp] theorem l1Room_warps (s : State) (core : ℕ) (line : ℕ) : (l1Room s core line).wgs.map wgWarps = s.wgs.map wgWarps := by
  simp only [l1Room]
  (repeat' split) <;> simp [*]
@[simp] theorem l1Take_warps (s : State) (core : ℕ) (line : ℕ) (imm : Bool) : (l1Take s core line imm).2.wgs.map wgWarps = s.wgs.map wgWarps := by
  unfold l1Take
  split <;> simp
@[simp] theorem l1Put_warps (s : State) (l : L1Line) : (l1Put s l).wgs.map wgWarps = s.wgs.map wgWarps := by
  simp [l1Put]
@[simp] theorem l1Write_warps (s : State) (core : ℕ) (a : ℕ) (bs : List Byte) (key : BitVec 16) (imm : Bool) : (l1Write s core a bs key imm).wgs.map wgWarps = s.wgs.map wgWarps := by
  simp [l1Write]
@[simp] theorem l1Sign_warps (s : State) (core : ℕ) (a : ℕ) (n : ℕ) (who : Issuer) (pc : VAddr) (addr : BitVec 64) : (l1Sign s core a n who pc addr).wgs.map wgWarps = s.wgs.map wgWarps := by
  simp [l1Sign]
@[simp] theorem cachedWrite_warps (s : State) (iss : Issuer) (lane : ℕ) (core : ℕ) (a : ℕ) (bs : List Byte) (key : BitVec 16) (imm : Bool) (at_ : VAddr × BitVec 64) : (cachedWrite s iss lane core a bs key imm at_).wgs.map wgWarps = s.wgs.map wgWarps := by
  unfold cachedWrite
  split <;> simp
@[simp] theorem plainStore_warps (s : State) (iss : Issuer) (key : BitVec 16) (lane : ℕ) (loc : Loc) (t : Trans) (bs : List Byte) (home : Bool) (at_ : optParam (VAddr × BitVec 64) (0, 0)) : (plainStore s iss key lane loc t bs home at_).wgs.map wgWarps = s.wgs.map wgWarps := by
  unfold plainStore
  (repeat' split) <;> simp [*]
@[simp] theorem storePoint_warps (s : State) (p : Point) (o : LaneOp) (n : ℕ) : (storePoint s p o n).2.wgs.map wgWarps = s.wgs.map wgWarps := by
  simp [storePoint]
@[simp] theorem forageAt_warps (s : State) (p : Point) (o : LaneOp) (out : ℕ → ℕ → List RegWrite) : (forageAt s p o out).2.wgs.map wgWarps = s.wgs.map wgWarps := by
  simp only [forageAt]
  (repeat' split) <;> simp [*]
@[simp] theorem advance_warps (s : State) (a : ℕ) (by_ : ℤ) : (advance s a by_).2.wgs.map wgWarps = s.wgs.map wgWarps := by
  simp only [advance]
  (repeat' split) <;> simp [*]
@[simp] theorem pointOp_warps (s : State) (p : Point) (o : LaneOp) : (pointOp s p o).2.wgs.map wgWarps = s.wgs.map wgWarps := by
  simp only [pointOp]
  (repeat' split) <;> simp [*]
@[simp] theorem l1FreshGranule_warps (s : State) (core : ℕ) (a : ℕ) (n : ℕ) : (l1FreshGranule s core a n).wgs.map wgWarps = s.wgs.map wgWarps := by
  simp [l1FreshGranule]
@[simp] theorem pointFresh_warps (s : State) (iss : Issuer) (loc : Loc) (n : ℕ) : (pointFresh s iss loc n).wgs.map wgWarps = s.wgs.map wgWarps := by
  unfold pointFresh
  split <;> simp
@[simp] theorem nameAwaits_warps (s : State) (from_ : ℕ) (pc : VAddr) (a : BitVec 64) : (nameAwaits s from_ pc a).wgs.map wgWarps = s.wgs.map wgWarps := by
  simp [nameAwaits]
@[simp] theorem l1Inv_warps (s : State) (core : ℕ) : (l1Inv s core).wgs.map wgWarps = s.wgs.map wgWarps := by
  simp [l1Inv]
@[simp] theorem acquire_warps (s : State) (iss : Issuer) (obs : BitVec 7) : (acquire s iss obs).wgs.map wgWarps = s.wgs.map wgWarps := by
  unfold acquire
  (repeat' split) <;> simp [*]
@[simp] theorem runOps_warps (s : State) (f : Flight) : (runOps s f).wgs.map wgWarps = s.wgs.map wgWarps := by
  unfold runOps
  split
  case h_2 => rfl
  case h_1 i ops key heq =>
    have hsoft : (match pointSoft i with
      | some x => softTake s x x
      | none => (none, s)).2.wgs.map wgWarps = s.wgs.map wgWarps := by split <;> simp
    have hdone : ∀ (acq : Bool) (u : State), u.wgs.map wgWarps = s.wgs.map wgWarps → (if acq then acquire u f.who (pointOrder i).2 else u).wgs.map wgWarps = s.wgs.map wgWarps :=
      fun acq u hu => by cases acq <;> simp [hu]
    refine hdone _ _ ?_
    split
    · exact hsoft
    · exact (foldl_snd_warps _ _ _ fun acc o => by simp).trans hsoft
@[simp] theorem runPoint_warps (s : State) (f : Flight) : (runPoint s f).wgs.map wgWarps = s.wgs.map wgWarps := by
  refine foldl_warps _ _ _ fun t g => ?_
  split <;> simp
@[simp] theorem drainFor_warps (s : State) (iss : Issuer) (locs : List Loc) : (drainFor s iss locs).wgs.map wgWarps = s.wgs.map wgWarps := by
  simp [drainFor]
@[simp] theorem drainCore_warps (s : State) (iss : Issuer) : (drainCore s iss).wgs.map wgWarps = s.wgs.map wgWarps := by
  unfold drainCore
  split <;> simp
@[simp] theorem drainStream_warps (s : State) (iss : Issuer) : (drainStream s iss).wgs.map wgWarps = s.wgs.map wgWarps := by
  simp [drainStream]
@[simp] theorem l1Flush_warps (s : State) (core : ℕ) : (l1Flush s core).wgs.map wgWarps = s.wgs.map wgWarps := by
  simp [l1Flush]
@[simp] theorem release_warps (s : State) (iss : Issuer) (obs : BitVec 7) : (release s iss obs).wgs.map wgWarps = s.wgs.map wgWarps := by
  unfold release
  (repeat' split) <;> simp [*]
end Sys2Proof.Machine
end

section
/-! Accesses of a stream that has nothing on its way (08 R179, 09 R216, R219): they wait for nothing. -/

namespace Sys2Proof.Machine

theorem issuerWg_updWarp (s : State) (wg wi : Nat) (g : Warp → Warp) (iss : Issuer) : issuerWg (updWarp s wg wi g) iss = (issuerWg s iss).map fun k => if k.id = wg then Workgroup_updWarp k wi g else k := by
  have hfind : ∀ n, findWg (updWarp s wg wi g) n = (findWg s n).map fun k => if k.id = wg then Workgroup_updWarp k wi g else k := fun n => by
    simp only [findWg, updWarp, updWg, List.find?_map]
    congr 2
    funext k
    simp only [Function.comp_apply]
    split <;> rfl
  cases iss <;> simp only [issuerWg, hfind, Option.map_none]
@[simp] theorem issuerCore_updWarp (s : State) (wg wi : Nat) (g : Warp → Warp) (iss : Issuer) : issuerCore (updWarp s wg wi g) iss = issuerCore s iss := by
  rw [issuerCore, issuerWg_updWarp, Option.map_map]
  refine congrArg (fun f => Option.map f (issuerWg s iss)) (funext fun k => ?_)
  simp only [Function.comp_apply]
  split <;> rfl
@[simp] theorem undrained_updWarp (s : State) (wg wi : Nat) (g : Warp → Warp) (iss : Issuer) : undrained (updWarp s wg wi g) iss = undrained s iss := by
  simp only [undrained, issuerCore_updWarp]
  rfl
theorem issued_updWarp (op : WOp) (s : State) (c : WCtx) : ∃ g, issued op c s = updWarp s c.wg c.wi g := by
  cases hs : op.stay
  · exact ⟨_, issued_eq _ _ _ hs⟩
  · exact ⟨_, issued_stayed _ _ _ hs⟩
theorem undrained_issued (op : WOp) (s : State) (c : WCtx) (iss : Issuer) : undrained (issued op c s) iss = undrained s iss := by
  obtain ⟨g, hg⟩ := issued_updWarp op s c
  rw [hg, undrained_updWarp]

section
variable {s : State} {iss : Issuer}
/-- Nothing is on its way of the stream, nor of its core to a strongly consistent page. -/
theorem undrained_exec (h : undrained s iss = true) {f : Flight} (hf : f ∈ s.flights) {i : Instr} {ops : List LaneOp} {key : BitVec 16} (hk : f.kind = .exec i ops key) :
    sameStream f.who iss = false ∧ (issuerCore s f.who = issuerCore s iss → ops.any (·.sc) = false) := by
  have hno := List.all_eq_true.mp h f hf
  simp only [hk, Bool.and_eq_true, Bool.not_eq_true', Bool.and_eq_false_iff, decide_eq_false_iff_not] at hno
  exact ⟨hno.1, fun hcore => hno.2.resolve_left fun hn => hn hcore⟩
theorem execOps_of_undrained (h : undrained s iss = true) {f : Flight} (hf : f ∈ s.flights) (hs : sameStream f.who iss = true) : execOps f = [] ∧ execAcq f = false := by
  cases hk : f.kind with
  | exec i ops key => exact absurd ((undrained_exec h hf hk).1.symm.trans hs) (by simp)
  | _ => simp [execOps, execAcq, hk]
theorem foldl_filter_none {α β : Type} {p : α → Bool} {l : List α} {f : β → α → β} {a : β} (h : ∀ x ∈ l, p x = false) : (l.filter p).foldl f a = a := by
  rw [List.filter_eq_nil_iff.mpr fun x hx => by simp [h x hx]]
  rfl
theorem drainFor_undrained (h : undrained s iss = true) (locs : List Loc) : drainFor s iss locs = s := by
  refine foldl_filter_none fun f hf => ?_
  cases hs : sameStream f.who iss
  · rfl
  · obtain ⟨hops, hacq⟩ := execOps_of_undrained h hf hs
    simp [hops, hacq]
theorem drainCore_undrained (h : undrained s iss = true) : drainCore s iss = s := by
  unfold drainCore
  cases hcore : issuerCore s iss with
  | none => rfl
  | some core =>
    refine foldl_filter_none fun f hf => ?_
    by_cases hsame : issuerCore s f.who = some core
    · cases hk : f.kind with
      | exec i ops key => simp [execOps, hk, (undrained_exec h hf hk).2 (hsame.trans hcore.symm)]
      | _ => simp [execOps, hk]
    · simp [hsame]
theorem beforeAccess_undrained (h : undrained s iss = true) (ps : List (Loc × Trans)) : beforeAccess s iss ps = s := by
  simp only [beforeAccess, drainFor_undrained h, drainCore_undrained h, ite_self]
end

end Sys2Proof.Machine
end

section
/-! The ends of threads, and barriers (family other). Obligations O16 and the barrier half of O22. -/

namespace Sys2Proof.Machine

/-! ### Barriers at which nobody stands -/

theorem arrivals_eq_nil_iff (k : Workgroup) (n : Nat) : arrivals k n = [] ↔ ∀ (i : Nat) (w : Warp), k.warps[i]? = some w → arrived w n = none := by
  simp only [arrivals, List.filterMap_eq_nil_iff, List.mem_range, Option.map_eq_none_iff, Option.bind_eq_none_iff]
  constructor
  · intro h i w hw
    exact h i (List.getElem?_eq_some_iff.mp hw).1 w hw
  · intro h i _ w hw
    exact h i w hw
theorem arrived_of_warpBars {w : Warp} (h : warpBars w = []) (n : Nat) : arrived w n = none := by simp only [arrived, h]
/-- A change of one warp that leaves it at no barrier. -/
theorem arrivals_updWarp {k : Workgroup} {wi : Nat} {w : Warp} {g : Warp → Warp} (harr : ∀ n, arrivals k n = []) (hw : k.warps[wi]? = some w) (hbars : warpBars (g w) = []) (n : Nat) :
    arrivals (Workgroup_updWarp k wi g) n = [] := by
  refine (arrivals_eq_nil_iff _ _).mpr fun i x hx => ?_
  simp only [Workgroup_updWarp, List.getElem?_modify] at hx
  by_cases hi : wi = i
  · subst hi
    simp only [hw, if_true] at hx
    cases hx
    exact arrived_of_warpBars hbars n
  · obtain ⟨y, hy, rfl⟩ := Option.map_eq_some_iff.mp hx
    simpa [hi] using (arrivals_eq_nil_iff _ _).mp (harr n) i y hy
/-- A warp one of whose live threads is at no barrier has arrived at none. -/
theorem warpBars_of_free {w : Warp} {l : Nat} (hl : l ∈ Warp_live w) (h : (w.threads[l]?).bind barOf = none) : warpBars w = [] := by
  have hany : ((Warp_live w).map fun i => (w.threads[i]?).bind barOf).any Option.isNone = true := List.any_eq_true.mpr ⟨_, List.mem_map.mpr ⟨l, hl, rfl⟩, by simp [h]⟩
  simp only [warpBars, hany, if_true]
theorem warpBars_of_unparked {w : Warp} (h : ∀ (l : Nat) (th : Thread), w.threads[l]? = some th → th.park = none) : warpBars w = [] := by
  cases hlive : Warp_live w with
  | nil => simp [warpBars, hlive]
  | cons l r =>
    refine warpBars_of_free (l := l) (by simp [hlive]) ?_
    cases hth : w.threads[l]? with
    | none => rfl
    | some th => simp [barOf, h l th hth]
/-- The examination of barriers changes nothing where no warp stands at one. -/
theorem barArrive_idle {t : State} {wg wi : Nat} {k : Workgroup} (hk : findWg t wg = some k) (hbars : ∀ w, k.warps[wi]? = some w → warpBars w = []) (harr : ∀ n, arrivals k n = []) : barArrive t wg wi = t := by
  have hexamine : ∀ n, barExamine t wg n = t := fun n => by simp only [barExamine, hk, harr]
  have hfold : ∀ l : List Nat, l.foldl (fun t n => barExamine t wg n) t = t := fun l => by
    induction l with
    | nil => rfl
    | cons n r ih => simp only [List.foldl_cons, hexamine, ih]
  have hmine : (k.warps[wi]?).map warpBars = none ∨ (k.warps[wi]?).map warpBars = some [] := by
    cases hw : k.warps[wi]? with
    | none => exact .inl rfl
    | some w => exact .inr (congrArg some (hbars w hw))
  obtain hmine | hmine := hmine <;> simp only [barArrive, hk, hmine, hfold]

/-! ### O16 -/

theorem findWg_updWarp {s : State} {wg wi : Nat} {k : Workgroup} (hk : findWg s wg = some k) (g : Warp → Warp) : findWg (updWarp s wg wi g) wg = some (Workgroup_updWarp k wi g) := by
  exact (findWg_updWg s wg (fun k => Workgroup_updWarp k wi g) fun _ => rfl).trans (congrArg _ hk)
theorem warps_updWarp {k : Workgroup} {wi : Nat} {w : Warp} (hw : k.warps[wi]? = some w) (g : Warp → Warp) : (Workgroup_updWarp k wi g).warps[wi]? = some (g w) := by
  simp [Workgroup_updWarp, hw]

/-- What a thread is parked at as it issues. -/
@[simp] theorem passedAt_park (c : WCtx) (i : Instr) (l : Nat) (th : Thread) : (passedAt c i l th).park = th.park := by
  unfold passedAt passed stepThread countThread writeThread
  dsimp only
  (repeat' split) <;> rfl

theorem exit_none {s : State} {c : WCtx} {f : VF} (hc : warpCtx s (.exit f) = some c) (hr : WarpReady (opExit f) s c = true) (hcs : c.cs = []) :
    AnswersWarp (.exit f) s c { c.w with threads := threadsAfter c (.exit f) fun _ th => th } :=
  ready_warp rfl rfl hc hr rfl (fun w => w) ((if_pos hcs).trans (updWarp_id _ _ _).symm) _ rfl
theorem exit_some {s : State} {c : WCtx} {f : VF} (hc : warpCtx s (.exit f) = some c) (hr : WarpReady (opExit f) s c = true) (hcs : c.cs ≠ []) :
    exec (.exit f) s = .next (barArrive (updThreads (issued (opExit f) c s) c.wg c.wi c.cs fun th => { th with life := .exited }) c.wg c.wi) :=
  (warpIssue_ready hc hr).trans (congrArg _ (if_neg hcs))

/-- The warp after `exit`. -/
def exitedWarp (c : WCtx) (i : Instr) (w : Warp) : Warp := Warp_updThreads (passedWarp c i w) c.cs fun th => { th with life := .exited }
theorem exitedWarp_eq {s : State} {i : Instr} {c : WCtx} (hc : warpCtx s i = some c) : exitedWarp c i c.w = { c.w with threads := threadsAfter c i (onCs c fun th => { th with life := .exited }) } := by
  rw [exitedWarp, passedWarp_eq hc, Warp_updThreads_eq _ _ _ (cs_nodup hc)]
  simp only [threadsAfter_mapIdx hc]
  rfl
theorem exit_alone {s : State} {c : WCtx} {f : VF} (hc : warpCtx s (.exit f) = some c) (hr : WarpReady (opExit f) s c = true)
    (hfree : ∀ (l : Nat) (th : Thread), c.w.threads[l]? = some th → th.park = none) (harr : ∀ n, arrivals c.k n = []) :
    AnswersWarp (.exit f) s c { c.w with threads := threadsAfter c (.exit f) (onCs c fun th => { th with life := .exited }) } := by
  by_cases hcs : c.cs = []
  · have hsame : onCs c (fun th => { th with life := .exited }) = fun _ th => th := by
      funext l th
      simp [onCs, hcs]
    rw [hsame]
    exact exit_none hc hr hcs
  · obtain ⟨hk, -, hw, -⟩ := warpCtx_spec hc
    have hunparked : warpBars (exitedWarp c (.exit f) c.w) = [] := by
      refine warpBars_of_unparked fun l th hth => ?_
      rw [exitedWarp_eq hc] at hth
      simp only [threadsAfter, List.getElem?_mapIdx, Option.map_eq_some_iff] at hth
      obtain ⟨x, hx, rfl⟩ := hth
      by_cases hl : l ∈ c.lanes <;> by_cases hm : l ∈ c.cs <;> simp [hl, hm, onCs, hfree l x hx]
    refine ⟨exitedWarp c (.exit f), ?_, exitedWarp_eq hc⟩
    rw [exit_some hc hr hcs, issued_eq _ _ _ rfl, updThreads_eq, updWarp_updWarp]
    congr 1
    exact barArrive_idle (findWg_updWarp hk _) (fun w hw' => by rw [warps_updWarp hw] at hw'; cases hw'; exact hunparked) (arrivals_updWarp harr hw hunparked)

/-- Settles O16. -/
theorem exitEndsThreads : Obligations.ExitEndsThreads := fun _ _ _ hc hr => ⟨exit_some hc hr, exit_none hc hr, exit_alone hc hr⟩

/-! ### O22: barriers -/

theorem Warp_live_mapIdx (w : Warp) (f : Nat → Thread → Thread) (hf : ∀ l th, (f l th).life = th.life) : Warp_live { w with threads := w.threads.mapIdx f } = Warp_live w := by
  have hlife : ∀ l : Nat, (w.threads.mapIdx f)[l]?.map Thread.life = w.threads[l]?.map Thread.life := fun l => by
    cases h : w.threads[l]? <;> simp [h, hf]
  unfold Warp_live
  rw [List.length_mapIdx]
  exact List.filter_congr fun l _ => by rw [← hlife l]

/-- A thread that has parked at an instruction. -/
def parkedAt (c : WCtx) (i : Instr) (p : Park) (l : Nat) (th : Thread) : Thread :=
  { (if l ∈ c.cs then writeThread (WCtx_use c i) (countThread c.w th) else countThread c.w th) with plen := instrLen (warpL i), park := some p }
theorem parkedAt_life (c : WCtx) (i : Instr) (p : Park) (l : Nat) (th : Thread) : (parkedAt c i p l th).life = th.life := by
  unfold parkedAt
  split <;> rfl
/-- A warp whose whole group has parked at an instruction. -/
def groupParked (c : WCtx) (i : Instr) (p : Park) (w : Warp) : Warp := Warp_updThreads (stayedWarp c i w) c.lanes fun th => { th with park := some p }
theorem groupParked_eq {s : State} {i : Instr} {c : WCtx} (hc : warpCtx s i = some c) (p : Park) :
    groupParked c i p c.w = { c.w with threads := c.w.threads.mapIdx fun l th => if l ∈ c.lanes then parkedAt c i p l th else th } := by
  have hlanes := (warpCtx_spec hc).2.2.2.1
  rw [groupParked, stayedWarp, Warp_updThreads_eq _ _ _ hlanes, Warp_updThreads_eq _ _ _ (cs_nodup hc), Warp_updThreads_eq _ _ _ hlanes]
  simp only [List.mapIdx_mapIdx_same]
  congr 2
  funext l th
  by_cases hl : l ∈ c.cs
  · simp only [hl, cs_sub hc hl, if_true, parkedAt]
    rfl
  · by_cases hm : l ∈ c.lanes <;> simp [hl, hm, parkedAt]
theorem live_groupParked {s : State} {i : Instr} {c : WCtx} (hc : warpCtx s i = some c) (p : Park) : Warp_live (groupParked c i p c.w) = Warp_live c.w := by
  rw [groupParked_eq hc]
  refine Warp_live_mapIdx _ _ fun l th => ?_
  by_cases hl : l ∈ c.lanes
  · simp only [hl, if_true, parkedAt_life]
  · simp only [hl, if_false]

/-- What `bar` parks at. -/
def barPark (c : WCtx) (f : MF) : Park := .bar f.ofs.toNat (barCount c f) (f.ordr = 4) f.obs
theorem bar_exec {s : State} {c : WCtx} {f : MF} (hc : warpCtx s (.bar f) = some c) (hr : WarpReady (opBar f) s c = true) :
    exec (.bar f) s = .next (barArrive (updThreads (issued (opBar f) c s) c.wg c.wi c.lanes fun th => { th with park := some (barPark c f) }) c.wg c.wi) := warpIssue_ready hc hr
theorem bar_state {s : State} {c : WCtx} {f : MF} : updThreads (issued (opBar f) c s) c.wg c.wi c.lanes (fun th => { th with park := some (barPark c f) }) = updWarp s c.wg c.wi (groupParked c (.bar f) (barPark c f)) := by
  rw [issued_stayed _ _ _ rfl, updThreads_eq, updWarp_updWarp]
  rfl
/-- While a live thread of the warp is elsewhere, its barrier does nothing more than park. -/
theorem bar_waits {s : State} {c : WCtx} {f : MF} (hc : warpCtx s (.bar f) = some c) (hr : WarpReady (opBar f) s c = true)
    (hfree : ∃ l ∈ Warp_live c.w, l ∉ c.lanes ∧ (c.w.threads[l]?).bind (·.park) = none) (harr : ∀ n, arrivals c.k n = []) :
    exec (.bar f) s = .next (updWarp s c.wg c.wi (groupParked c (.bar f) (barPark c f))) := by
  obtain ⟨hk, -, hw, -⟩ := warpCtx_spec hc
  obtain ⟨l, hlive, hout, hpark⟩ := hfree
  have hbars : warpBars (groupParked c (.bar f) (barPark c f) c.w) = [] := by
    refine warpBars_of_free (l := l) (by rwa [live_groupParked hc]) ?_
    rw [groupParked_eq hc]
    simp only [List.getElem?_mapIdx, hout, if_false]
    cases hth : c.w.threads[l]? with
    | none => rfl
    | some th =>
      simp only [hth, Option.bind_some] at hpark
      simp [barOf, hpark]
  rw [bar_exec hc hr, bar_state]
  exact congrArg _ (barArrive_idle (findWg_updWarp hk _) (fun w hw' => by rw [warps_updWarp hw] at hw'; cases hw'; exact hbars) (arrivals_updWarp harr hw hbars))

/-- The mask that the threads of a warp at one barrier name together. -/
theorem foldl_mask_replicate (j n : Nat) (o : Bool) (m : BitVec 7) :
    (List.replicate (j + 1) (n, 0, o, m)).foldl (fun (x : BitVec 7) (y : Nat × Nat × Bool × BitVec 7) => if y.2.2.1 then x ||| y.2.2.2 else x) 0 = if o then m else 0 := by
  induction j with
  | zero => cases o <;> simp
  | succ j ih =>
    rw [List.replicate_succ', List.foldl_append, ih]
    cases o <;> simp
theorem arrived_replicate {w : Warp} {j n : Nat} {o : Bool} {m : BitVec 7} (h : warpBars w = List.replicate (j + 1) (n, 0, o, m)) (n' : Nat) :
    arrived w n' = if n' = n then some (0, o, if o then m else 0) else none := by
  have hmask := foldl_mask_replicate j n o m
  rw [List.replicate_succ] at h hmask
  simp only [arrived, h]
  by_cases hn : n' = n
  · subst hn
    have hall : (n' :: (List.replicate j (n', 0, o, m)).map (·.1)).all (· == n') = true := by simp
    have hor : (o || (List.replicate j (n', 0, o, m)).any fun x => x.2.2.1) = o := by cases o <;> simp
    rw [if_pos hall, if_pos rfl]
    exact congrArg some (Prod.ext rfl (Prod.ext hor hmask))
  · have hall : ¬ (n :: (List.replicate j (n, 0, o, m)).map (·.1)).all (· == n') = true := by simp [Ne.symm hn]
    rw [if_neg hall, if_neg hn]
/-- All live threads of the warp have parked at the barrier. -/
theorem warpBars_groupParked {s : State} {c : WCtx} {f : MF} (hc : warpCtx s (.bar f) = some c) (hall : c.lanes = Warp_live c.w) :
    warpBars (groupParked c (.bar f) (barPark c f) c.w) = List.replicate (Warp_live c.w).length (f.ofs.toNat, barCount c f, decide (f.ordr = 4), f.obs) := by
  have hbars : ((Warp_live c.w).map fun l => ((groupParked c (.bar f) (barPark c f) c.w).threads[l]?).bind barOf) = (Warp_live c.w).map fun _ => some (f.ofs.toNat, barCount c f, decide (f.ordr = 4), f.obs) := by
    refine List.map_congr_left fun l hl => ?_
    have hth := List.getElem?_eq_getElem (mem_Warp_live hl).2
    rw [groupParked_eq hc]
    simp only [List.getElem?_mapIdx, hth, hall, hl, if_true, Option.map_some, Option.bind_some]
    rfl
  simp only [warpBars, live_groupParked hc, hbars]
  simp [List.filterMap_map, List.map_const']

theorem foldl_only {α β : Type} {f : β → α → β} {l : List α} {n : α} {a b : β} (hl : l.Nodup) (hn : n ∈ l) (hfirst : ∀ x ∈ l, x ≠ n → f a x = a) (hdo : f a n = b) (hlast : ∀ x ∈ l, x ≠ n → f b x = b) : l.foldl f a = b := by
  obtain ⟨u, v, rfl⟩ := List.append_of_mem hn
  have hidle : ∀ (z : β) (w : List α), (∀ x ∈ w, f z x = z) → w.foldl f z = z := fun z w h => by
    induction w with
    | nil => rfl
    | cons x r ih => rw [List.foldl_cons, h x (by simp), ih fun y hy => h y (by simp [hy])]
  have hnu : n ∉ u := fun h => List.disjoint_of_nodup_append hl h (by simp)
  have hnv : n ∉ v := (List.nodup_cons.mp (List.nodup_append.mp hl).2.1).1
  rw [List.foldl_append, hidle a u fun x hx => hfirst x (by simp [hx]) fun h => hnu (h ▸ hx), List.foldl_cons, hdo]
  exact hidle b v fun x hx => hlast x (by simp [hx]) fun h => hnv (h ▸ hx)

theorem findWg_wgWarps {t p : State} (h : t.wgs.map wgWarps = p.wgs.map wgWarps) (wg : Nat) : (findWg t wg).map wgWarps = (findWg p wg).map wgWarps := by
  have hfind : ∀ s : State, (findWg s wg).map wgWarps = (s.wgs.map wgWarps).find? fun x => x.1.1 == wg := fun s => by
    rw [findWg, List.find?_map]
    rfl
  rw [hfind, hfind, h]
theorem findWg_of_warps {t p : State} (h : t.wgs.map wgWarps = p.wgs.map wgWarps) (wg : Nat) : (findWg t wg).map (·.warps) = (findWg p wg).map (·.warps) := by
  simpa [Option.map_map, Function.comp_def, wgWarps] using congrArg (Option.map Prod.snd) (findWg_wgWarps h wg)
theorem unpark_life (th : Thread) : (unpark th).life = th.life := by
  unfold unpark stepThread
  dsimp only
  (repeat' split) <;> rfl
theorem unpark_park (th : Thread) : (unpark th).park = none := by
  unfold unpark stepThread
  dsimp only
  (repeat' split) <;> rfl
theorem warpBars_of_dead {w : Warp} (h : Warp_live w = []) : warpBars w = [] := by simp [warpBars, h]
/-- A warp whose live threads have gone on stands at no barrier. -/
theorem warpBars_unparked (w : Warp) : warpBars (Warp_updThreads w (Warp_live w) unpark) = [] := by
  have hlife : ∀ l th, (if l ∈ Warp_live w then unpark th else th).life = th.life := fun l th => by split <;> simp only [unpark_life]
  rw [Warp_updThreads_eq _ _ _ (Warp_live_nodup w)]
  cases hlive : Warp_live w with
  | nil =>
    rw [← hlive]
    exact warpBars_of_dead ((Warp_live_mapIdx _ _ hlife).trans hlive)
  | cons l r =>
    rw [← hlive]
    have hl : l ∈ Warp_live w := by simp [hlive]
    refine warpBars_of_free (l := l) (by rwa [Warp_live_mapIdx _ _ hlife]) ?_
    simp only [List.getElem?_mapIdx, List.getElem?_eq_getElem (mem_Warp_live hl).2, hl, if_true, Option.map_some, Option.bind_some, barOf, unpark_park]
theorem arrivals_single {k : Workgroup} {w : Warp} (hk : k.warps = [w]) (n : Nat) : arrivals k n = ((arrived w n).map fun x => (0, x)).toList := by
  simp only [arrivals, hk]
  cases h : arrived w n <;> simp [h]
/-- What a barrier performs for one warp that completes it: its release and its acquire (09 R240). -/
def barOrders (p : State) (wg i : Nat) (obs : BitVec 7) : State :=
  if obs = 0 then p else acquire (release (drainStream p (.warp wg i [])) (.cue wg) obs) (.cue wg) obs
theorem barOrders_warps (p : State) (wg i : Nat) (obs : BitVec 7) : (barOrders p wg i obs).wgs.map wgWarps = p.wgs.map wgWarps := by
  unfold barOrders
  split <;> simp
/-- A workgroup of which one warp has completed a barrier. -/
def barGone (n i : Nat) (k : Workgroup) : Workgroup :=
  { Workgroup_updWarp k i fun w => Warp_updThreads w (Warp_live w) unpark with
    phase := SMap.set k.phase n (k.phase.get n + 1), cue := if k.cue.park = some (.wgbar n) then unparkCue k.cue else k.cue }
theorem barComplete_one (p : State) (wg n : Nat) (x : Nat × Nat × Bool × BitVec 7) : barComplete p wg n [x] = updWg (barOrders p wg x.1 (barMask [x])) wg (barGone n x.1) := rfl
/-- What a barrier that one warp completes leaves of the warps. -/
theorem barComplete_warps (p : State) (wg n : Nat) (x : Nat × Nat × Bool × BitVec 7) :
    (findWg (barComplete p wg n [x]) wg).map (·.warps) = (findWg p wg).map fun k => k.warps.modify x.1 fun w => Warp_updThreads w (Warp_live w) unpark := by
  have hwarps := findWg_of_warps (barOrders_warps p wg x.1 (barMask [x])) wg
  rw [barComplete_one, findWg_updWg _ _ (barGone n x.1) fun _ => rfl, Option.map_map]
  simpa [Option.map_map, Function.comp_def, barGone, Workgroup_updWarp] using congrArg (Option.map fun l => l.modify x.1 fun w => Warp_updThreads w (Warp_live w) unpark) hwarps
/-- The barrier of a workgroup's only warp is complete as it reaches it, and no other is. -/
theorem barArrive_completes {p : State} {wg j n : Nat} {k : Workgroup} {w : Warp} {o : Bool} {m : BitVec 7} (hk : findWg p wg = some k) (hw : k.warps = [w]) (hbars : warpBars w = List.replicate (j + 1) (n, 0, o, m)) (hn : n < 16)
    (hlive : Warp_live w ≠ []) (hheld : barHeld p wg [(0, 0, o, if o then m else 0)] = false) : barArrive p wg 0 = barComplete p wg n [(0, 0, o, if o then m else 0)] := by
  have harr : ∀ x, arrivals k x = if x = n then [(0, 0, o, if o then m else 0)] else [] := fun x => by
    rw [arrivals_single hw, arrived_replicate hbars]
    split <;> rfl
  have hcount : liveWarps k = 1 := by simp [liveWarps, hw, hlive]
  have hmine : (k.warps[0]?).map warpBars = some ((n, 0, o, m) :: List.replicate j (n, 0, o, m)) := by simp [hw, hbars, List.replicate_succ]
  have hraise : ((List.replicate j (n, 0, o, m)).any fun x => decide (x.1 ≠ n)) = false := by simp
  have hnone : ∀ x, ((arrivals k x).any fun y => y.1 ≠ 0 && y.2.1 ≠ 0) = false := fun x => by
    rw [harr]
    split <;> simp
  have hstart : barArrive p wg 0 = (List.range 16).foldl (fun t n => barExamine t wg n) p := by
    simp only [barArrive, hk, hmine, hraise, hnone, Bool.false_eq_true, if_false]
  rw [hstart]
  refine foldl_only List.nodup_range (List.mem_range.mpr hn) (fun x _ hx => ?_) ?_ fun x _ hx => ?_
  · simp only [barExamine, hk, harr, hx, if_false]
  · simp only [barExamine, hk, harr, hcount, hheld, if_true, Nat.not_lt_zero, if_false, List.length_singleton, le_refl, Bool.false_eq_true]
  · have hafter : (findWg (barComplete p wg n [(0, 0, o, if o then m else 0)]) wg).map (·.warps) = some [Warp_updThreads w (Warp_live w) unpark] := by
      rw [barComplete_warps, hk]
      simp [hw]
    obtain ⟨k', hk', hw'⟩ := Option.map_eq_some_iff.mp hafter
    simp only [barExamine, hk', arrivals_single hw', arrived_of_warpBars (warpBars_unparked w)]
    rfl

theorem barMask_one (i n : Nat) (o : Bool) (m : BitVec 7) : barMask [(i, n, o, if o then m else 0)] = if o then m else 0 := by cases o <;> simp [barMask]
/-- The barrier that the whole of a workgroup's only warp has reached completes. -/
theorem bar_completes {s : State} {c : WCtx} {f : MF} (hc : warpCtx s (.bar f) = some c) (hr : WarpReady (opBar f) s c = true) (hone : c.k.warps = [c.w]) (hall : c.lanes = Warp_live c.w) (hcount : barCount c f = 0) (hn : f.ofs.toNat < 16)
    (hheld : f.ordr = 4 → relHold (updThreads (issued (opBar f) c s) c.wg c.wi c.lanes fun th => { th with park := some (barPark c f) }) (.warp c.wg 0 []) f.obs = false) :
    exec (.bar f) s = .next (updWg (barOrders (updThreads (issued (opBar f) c s) c.wg c.wi c.lanes fun th => { th with park := some (barPark c f) }) c.wg 0 (if f.ordr = 4 then f.obs else 0)) c.wg (barGone f.ofs.toNat 0)) := by
  obtain ⟨hk, -, hw, -⟩ := warpCtx_spec hc
  have hwi : c.wi = 0 := by
    have := (List.getElem?_eq_some_iff.mp hw).1
    simp only [hone, List.length_singleton] at this
    omega
  have hlive : Warp_live c.w ≠ [] := by
    simp only [WarpReady, Bool.and_eq_true, decide_eq_true_eq] at hr
    exact hall ▸ hr.1.1.1.1.2
  obtain ⟨j, hj⟩ := Nat.exists_eq_succ_of_ne_zero (List.length_eq_zero_iff.not.mpr hlive)
  have hbars := warpBars_groupParked hc hall
  rw [hj, hcount] at hbars
  have hmask : barMask [(0, 0, decide (f.ordr = 4), if decide (f.ordr = 4) then f.obs else 0)] = if f.ordr = 4 then f.obs else 0 := by
    rw [barMask_one]
    exact if_congr decide_eq_true_iff rfl rfl
  rw [bar_exec hc hr]
  rw [bar_state] at hheld ⊢
  refine congrArg _ ((congrArg _ hwi).trans ((barArrive_completes (findWg_updWarp hk _) (by simp [Workgroup_updWarp, hone, hwi]) hbars hn (by rwa [live_groupParked hc]) ?_).trans ?_))
  · simp only [barHeld, List.any_cons, List.any_nil, Bool.or_false, hmask]
    by_cases h : f.ordr = 4
    · rw [if_pos h]
      exact hheld h
    · rw [if_neg h]
      rfl
  · rw [barComplete_one, hmask]

/-! ### O22: `cntwt` -/

theorem vgetN_lt (w : Warp) (r l n : Nat) : vgetN w r l n < 2 ^ (32 * n) := by
  induction n generalizing r with
  | zero => simp [vgetN]
  | succ n ih =>
    have hhigh := ih (r + 1)
    have hlow := (vget w r l).isLt
    rw [vgetN, Nat.mul_succ, Nat.pow_add, Nat.mul_comm (2 ^ (32 * n))]
    omega
theorem acquire_updWarp (s : State) (wg wi : Nat) (g : Warp → Warp) (iss : Issuer) (obs : BitVec 7) : acquire (updWarp s wg wi g) iss obs = updWarp (acquire s iss obs) wg wi g := by
  unfold acquire
  rw [issuerCore_updWarp]
  cases issuerCore s iss with
  | none => rfl
  | some c =>
    cases obsBeyondT obs <;> rfl
theorem acquireIf_updWarp (b : Bool) (s : State) (wg wi : Nat) (g : Warp → Warp) (iss : Issuer) (obs : BitVec 7) : acquireIf b iss obs (updWarp s wg wi g) = updWarp (acquireIf b iss obs s) wg wi g := by
  cases b
  · rfl
  · exact acquire_updWarp ..
theorem placed_local {accs : List LAcc} {loc : Nat → Loc} {tr : Trans} (h : ∀ a ∈ accs, a.acc = .ok (loc a.lane) tr) : placed accs = accs.map fun a => (a.lane, a.addr, loc a.lane, tr) := by
  induction accs with
  | nil => rfl
  | cons a r ih =>
    have hr := ih fun x hx => h x (by simp [hx])
    simp only [placed] at hr ⊢
    simp [h a (by simp), hr]

section
variable {s : State} {c : WCtx} {f : MF} {adr : Nat → Nat}
/-- What a contributor of `cntwt` waits for. -/
def counterOp (c : WCtx) (f : MF) (adr : Nat → Nat) (l : Nat) : LaneOp := ⟨l, .ls (adr l), BitVec.ofNat 64 (mAddr (passW c l) f .off false l), wordsOf c f.d.toNat l 2, false⟩
/-- The counter of a contributor has not reached its target. -/
def counterShort (s : State) (c : WCtx) (f : MF) (adr : Nat → Nat) (l : Nat) : Bool := decide (sextN (leNat (lsBytes s (adr l) 8)) 64 < sextN (vgetN c.w f.d.toNat l 2) 64)
theorem counterTest_counterOp (l : Nat) (h : lsCap s (adr l / 16) = .good ∧ leNat (lsBytes s (adr l + 8) 8) = 0) :
    counterTest s (counterOp c f adr l) = if counterShort s c f adr l then none else some none := by
  have hword : (BitVec.ofNat 64 (vgetN c.w f.d.toNat l 2)).toNat = vgetN c.w f.d.toNat l 2 := Nat.mod_eq_of_lt (vgetN_lt c.w f.d.toNat l 2)
  have hgood : integrityCause 11 .good = none := rfl
  simp only [counterTest, counterOp, h.1, h.2, hgood, wordsOf, List.getD_cons_zero, hword, ne_eq, not_true_eq_false, if_false, counterShort, decide_eq_true_eq]
  by_cases hshort : sextN (leNat (lsBytes s (adr l) 8)) 64 < sextN (vgetN c.w f.d.toNat l 2) 64
  · rw [if_pos hshort, if_neg (not_le.mpr hshort)]
  · rw [if_neg hshort, if_pos (not_lt.mp hshort)]
theorem counterServe_counterOps (ls : List Nat) (h : ∀ l ∈ ls, lsCap s (adr l / 16) = .good ∧ leNat (lsBytes s (adr l + 8) 8) = 0) :
    counterServe s (ls.map (counterOp c f adr)) = ((ls.filter (counterShort s c f adr)).map (counterOp c f adr), []) := by
  have htest : ∀ l ∈ ls, counterTest s (counterOp c f adr l) = if counterShort s c f adr l then none else some none := fun l hl => counterTest_counterOp l (h l hl)
  refine Prod.ext ?_ ?_
  · simp only [counterServe, List.filter_map]
    congr 1
    refine List.filter_congr fun l hl => ?_
    rw [Function.comp_apply, htest l hl]
    cases counterShort s c f adr l <;> rfl
  · simp only [counterServe, List.filterMap_map, List.filterMap_eq_nil_iff, Function.comp_apply]
    intro l hl
    rw [htest l hl]
    cases counterShort s c f adr l <;> rfl

/-- A change of the other threads of a group and then of its contributors. -/
def groupStep (c : WCtx) (f g : Thread → Thread) (w : Warp) : Warp := Warp_updThreads (Warp_updThreads w (c.lanes.filter fun l => !c.cs.contains l) g) c.cs f
theorem Warp_updThreads_twice (w : Warp) {ls : List Nat} (h : ls.Nodup) (f g : Thread → Thread) : Warp_updThreads (Warp_updThreads w ls f) ls g = Warp_updThreads w ls fun th => g (f th) := by
  simp only [Warp_updThreads_eq _ _ _ h, List.mapIdx_mapIdx_same]
  congr 2
  funext l th
  by_cases hl : l ∈ ls <;> simp [hl]
/-- What `cntwt` does: the contributors whose counter is short are its flight's, and with none of them the group goes on. -/
theorem cntwt_eff {u : State} (hu : undrained u (WCtx_iss c) = true) (hlanes : c.lanes.Nodup)
    (hacc : ∀ a ∈ counterAccs f false u c, a.acc = .ok (.ls (adr a.lane)) Trans_none) (hgood : ∀ l ∈ c.cs, lsCap u (adr l / 16) = .good ∧ leNat (lsBytes u (adr l + 8) 8) = 0) :
    (opCntwt f).eff c u = if (c.cs.filter (counterShort u c f adr)).map (counterOp c f adr) = []
      then updWarp (acquireIf (f.ordr = 2) (WCtx_iss c) f.obs (inFlight (WCtx_iss c) c.pc f.look.toNat .plain u)) c.wg c.wi
        (groupStep c (stepThread (instrLen f.l)) fun th => openedWindow c (.cntwt f) u.nextId false false (stepThread (instrLen f.l) th))
      else updWarp (inFlight (WCtx_iss c) c.pc f.look.toNat (.counter (.cntwt f) ((c.cs.filter (counterShort u c f adr)).map (counterOp c f adr)) []) u) c.wg c.wi
        (groupStep c (fun th => { th with park := some (.counter u.nextId) }) fun th => openedWindow c (.cntwt f) u.nextId false false (stepThread (instrLen f.l) th)) := by
  have hothers := hlanes.filter fun l => !c.cs.contains l
  have hplaced : (placed (counterAccs f false u c)).map (fun x => (⟨x.1, x.2.2.1, BitVec.ofNat 64 x.2.1, wordsOf c f.d.toNat x.1 2, x.2.2.2.sc⟩ : LaneOp)) = c.cs.map (counterOp c f adr) := by
    rw [placed_local (loc := fun l => .ls (adr l)) hacc]
    simp only [counterAccs, List.map_map]
    rfl
  have hserve : counterServe (updThreads u c.wg c.wi (c.lanes.filter fun l => !c.cs.contains l) (stepThread (instrLen f.l))) (c.cs.map (counterOp c f adr))
      = ((c.cs.filter (counterShort u c f adr)).map (counterOp c f adr), []) := counterServe_counterOps (c := c) (f := f) c.cs hgood
  simp only [opCntwt, beforeAccess_undrained hu, hplaced, hserve]
  have hopen : ∀ kind, openIn (inFlight (WCtx_iss c) c.pc f.look.toNat kind (updThreads u c.wg c.wi (c.lanes.filter fun l => !c.cs.contains l) (stepThread (instrLen f.l)))) c (c.lanes.filter fun l => !c.cs.contains l) u.nextId f.look.toNat (WCtx_use c (.cntwt f)) false false
      = updWarp (inFlight (WCtx_iss c) c.pc f.look.toNat kind u) c.wg c.wi fun w => Warp_updThreads w (c.lanes.filter fun l => !c.cs.contains l) fun th => openedWindow c (.cntwt f) u.nextId false false (stepThread (instrLen f.l) th) := fun kind =>
    (updWarp_updWarp (inFlight (WCtx_iss c) c.pc f.look.toNat kind u) c.wg c.wi _ _).trans (congrArg (updWarp _ c.wg c.wi) (funext fun w => Warp_updThreads_twice w hothers _ _))
  have hacquire : ∀ t, (if f.ordr = 2 then acquire t (WCtx_iss c) f.obs else t) = acquireIf (f.ordr = 2) (WCtx_iss c) f.obs t := fun t => by by_cases h : f.ordr = 2 <;> simp [acquireIf, h]
  by_cases hnone : (c.cs.filter (counterShort u c f adr)).map (counterOp c f adr) = []
  · simp only [hnone, if_true, hacquire]
    refine (congrArg (fun t => updThreads (acquireIf (f.ordr = 2) (WCtx_iss c) f.obs t) c.wg c.wi c.cs (stepThread (instrLen f.l))) (hopen .plain)).trans ?_
    rw [acquireIf_updWarp]
    exact updWarp_updWarp _ _ _ _ _
  · simp only [hnone, if_false]
    refine (congrArg (fun t => updThreads t c.wg c.wi c.cs fun th => { th with park := some (.counter u.nextId) }) (hopen _)).trans ?_
    exact updWarp_updWarp _ _ _ _ _
end

section
variable {s : State} {c : WCtx} {f : MF} {adr : Nat → Nat}
theorem cntwt_answers (hc : warpCtx s (.cntwt f) = some c) (hr : WarpReady (opCntwt f) s c = true) (hu : undrained s (WCtx_iss c) = true)
    (hacc : ∀ a ∈ counterAccs f false (issued (opCntwt f) c s) c, a.acc = .ok (.ls (adr a.lane)) Trans_none) (hgood : ∀ l ∈ c.cs, lsCap s (adr l / 16) = .good ∧ leNat (lsBytes s (adr l + 8) 8) = 0) :
    (c.cs.any (counterShort s c f adr) = false →
      AnswersWith (.cntwt f) s c { c.w with threads := threadsParkedWith c (.cntwt f) (fun th => stepThread (instrLen f.l) th) (openedWindow c (.cntwt f) s.nextId false false) }
        (fun t => acquireIf (f.ordr = 2) (WCtx_iss c) f.obs (inFlight (WCtx_iss c) c.pc f.look.toNat .plain t)))
    ∧ (c.cs.any (counterShort s c f adr) = true →
      AnswersWith (.cntwt f) s c { c.w with threads := threadsParkedWith c (.cntwt f) (fun th => { th with park := some (.counter s.nextId) }) (openedWindow c (.cntwt f) s.nextId false false) }
        (inFlight (WCtx_iss c) c.pc f.look.toNat (.counter (.cntwt f) ((c.cs.filter (counterShort s c f adr)).map (counterOp c f adr)) []))) := by
  have hexec : exec (.cntwt f) s = .next ((opCntwt f).eff c (issued (opCntwt f) c s)) := warpIssue_ready hc hr
  have hstate := issued_stayed (opCntwt f) s c rfl
  have heff := cntwt_eff (u := issued (opCntwt f) c s) (by rw [undrained_issued]; exact hu) (warpCtx_spec hc).2.2.2.1 hacc (by rw [hstate]; exact hgood)
  have hlast : ∀ park, groupStep c park (fun th => openedWindow c (.cntwt f) s.nextId false false (stepThread (instrLen f.l) th)) (stayedWarp c (.cntwt f) c.w) = { c.w with threads := threadsParkedWith c (.cntwt f) park (openedWindow c (.cntwt f) s.nextId false false) } :=
    fun park => stayedWarp_upd hc park _
  have hshort : counterShort (issued (opCntwt f) c s) c f adr = counterShort s c f adr := by
    rw [hstate]
    rfl
  rw [hshort] at heff
  refine ⟨fun hnone => ?_, fun hsome => ?_⟩
  · have hempty : (c.cs.filter (counterShort s c f adr)).map (counterOp c f adr) = [] := by
      rw [List.filter_eq_nil_iff.mpr fun l hl => by simpa using List.any_eq_false.mp hnone l hl]
      rfl
    rw [if_pos hempty] at heff
    rw [heff, hstate] at hexec
    refine ⟨fun w => groupStep c _ _ (stayedWarp c _ w), hexec.trans (congrArg _ ?_), hlast (stepThread (instrLen f.l))⟩
    refine (congrArg (updWarp · c.wg c.wi _) (acquireIf_updWarp _ (inFlight _ _ _ _ s) ..)).trans ?_
    exact (updWarp_updWarp ..).trans (acquireIf_updWarp _ (inFlight _ _ _ _ s) ..).symm
  · have hleft : (c.cs.filter (counterShort s c f adr)).map (counterOp c f adr) ≠ [] := by
      obtain ⟨l, hl, hs⟩ := List.any_eq_true.mp hsome
      exact fun h => List.ne_nil_of_mem (List.mem_filter.mpr ⟨hl, hs⟩) (List.map_eq_nil_iff.mp h)
    rw [if_neg hleft] at heff
    rw [heff, hstate] at hexec
    exact ⟨fun w => groupStep c _ _ (stayedWarp c _ w), hexec.trans (congrArg _ (updWarp_updWarp (inFlight _ _ _ _ s) ..)), hlast fun th => { th with park := some (.counter s.nextId) }⟩
end

/-- Settles O22. -/
theorem barrierAndCounterWait : Obligations.BarrierAndCounterWait := by
  refine ⟨fun s c f hc hr => ⟨bar_exec hc hr, fun hfree harr => ?_, fun hone hall hcount hn => ?_⟩, fun s c f adr hc hr hu hacc hgood => cntwt_answers hc hr hu hacc hgood⟩
  · exact ⟨_, bar_waits hc hr hfree harr, by rw [groupParked_eq hc]; rfl, by rw [groupParked_eq hc]⟩
  · intro p hheld t
    have hpark : barPark c f = .bar f.ofs.toNat 0 (f.ordr = 4) f.obs := by rw [barPark, hcount]
    refine (bar_completes hc hr hone hall hcount hn (by rw [hpark]; exact hheld)).trans ?_
    rw [hpark]
    refine congrArg (fun u => Host.Outcome.next (updWg u c.wg (barGone f.ofs.toNat 0))) ?_
    by_cases ho : f.ordr = 4 <;> by_cases hm : f.obs = 0 <;> simp only [barOrders, t, p, ho, hm, if_true, if_false, true_and, false_and, ne_eq, not_true, not_false_eq_true]

end Sys2Proof.Machine
end

section
/-! Where instructions trap (13 R346, R355, R362, R383, R384), and what a cue instruction leaves in its thread (10). Obligations O17, O18, O31, O32, O36 to O40. -/

namespace Sys2Proof.Machine

/-! ### Operations and their instructions -/

theorem warpOp_i {i : Instr} {op : WOp} (h : warpOp i = some op) : op.i = i := by
  cases i <;> first | (cases h; done) | (obtain rfl := Option.some.inj h; rfl) | skip
  rename_i b w
  cases b
  · obtain rfl := Option.some.inj h
    rfl
  · cases h
theorem cueOp_i {i : Instr} {op : COp} (h : cueOp i = some op) : op.i = i := by
  cases i <;> first | (cases h; done) | (obtain rfl := Option.some.inj h; rfl) | skip
  rename_i b w
  cases b
  · cases h
  · obtain rfl := Option.some.inj h
    rfl

/-! ### The first cause that an instruction meets -/

theorem warpIssue_traps {op : WOp} {s : State} {c : WCtx} {o : OwnC} (hc : warpCtx s op.i = some c) (hst : c.k.st = .resident) (hlanes : c.lanes ≠ []) (hheld : c.lanes.any (heldLane op c) = false)
    (hdue : c.lanes.any (fun l => (laneDue op c l).isSome) = false) (ho : issueCause op s c = some o) :
    warpIssue op s = .next (preciseAt (if softCause s c op.i = some o then { s with softErrors := s.softErrors.erase o.cause } else s) c c.lanes o) := by
  simp only [warpIssue, hc, hst, hlanes, hheld, hdue, ho, ne_eq, not_true, decide_false, Bool.or_self, Bool.false_eq_true, if_false]
theorem cueIssue_traps {op : COp} {s : State} {c : CCtx} {o : OwnC} (hc : cueCtx s op.i = some c) (hst : cueStopped s c = false)
    (hw : c.c.windows.any (fun x => !x.done && ((op.drain && c.pass) || x.left = 0)) = false) (hdue : cueFalls s c.iss (op.drain && c.pass) (if c.pass then op.toks s c else 0) c.c = none) (ho : cueCause op s c = some o) :
    cueIssue op s = .next (cuePrecise (if c.pass ∧ cueSoft s op.i = some o then { s with softErrors := s.softErrors.erase o.cause } else if c.pass ∧ op.rest s c = some o then op.note c s else s) c o) := by
  simp only [cueIssue, hc, hst, hw, hdue, ho, Bool.or_false, Bool.false_eq_true, if_false, Bool.and_eq_true, decide_eq_true_eq]

/-- Settles O31. -/
theorem warpPreciseCauses : Obligations.WarpPreciseCauses := by
  intro i op s c o hop hc hst hlanes hheld hdue ho
  obtain rfl := warpOp_i hop
  exact (exec_of_warpOp hop).trans (warpIssue_traps hc hst hlanes hheld hdue ho)

/-! ### What a cue instruction leaves in its thread -/

section
variable {s : State} {c : CCtx} {i : Instr} {op : COp}
theorem cueIssued_passed (hp : c.pass = true) (hs : op.stay = false) : cueIssued op c s = updCue s c.iss (passedCue op.i) := by
  simp only [cueIssued, hs, hp, Bool.false_and, Bool.false_eq_true, if_false]
  rfl
theorem cueIssued_missed (hp : c.pass = false) : cueIssued op c s = updCue s c.iss (missedCue op.i) := by
  simp only [cueIssued, hp, Bool.and_false, Bool.false_eq_true, if_false]
  rfl
theorem cueIssued_stayed (hp : c.pass = true) (hs : op.stay = true) : cueIssued op c s = updCue s c.iss (stayedCue op.i) := by
  simp only [cueIssued, hs, hp, Bool.true_and, if_true]
  rfl
theorem updCue_updCue (s : State) (iss : Issuer) (f g : Cue → Cue) : updCue (updCue s iss f) iss g = updCue s iss fun x => g (f x) := by
  cases iss with
  | cue wg =>
    simp only [updCue, updWg, List.map_map]
    congr 2
    funext k
    simp only [Function.comp_apply]
    split <;> simp_all
  | mgmt m =>
    simp only [updCue, List.modify_modify_eq]
    rfl
  | _ => rfl
/-- A cue instruction that passes its thread on answers with the thread that its effect leaves. -/
theorem ready_cue {h : State → State} {g : Cue → Cue} (hop : cueOp i = some op) (hc : cueCtx s i = some c) (hr : CueReady op s c = true) (hp : c.pass = true) (hs : op.stay = false)
    (he : op.eff c (updCue s c.iss (passedCue i)) = h (updCue (updCue s c.iss (passedCue i)) c.iss g)) : AnswersCue i s c (g (passedCue i c.c)) h := by
  obtain rfl := cueOp_i hop
  refine ⟨fun x => g (passedCue op.i x), ?_, rfl⟩
  rw [exec_of_cueOp hop, cueIssue_ready hc hr hp, cueIssued_passed hp hs, he, updCue_updCue]
/-- The same of one that stays at the instruction. -/
theorem ready_cue_stay {h : State → State} {g : Cue → Cue} (hop : cueOp i = some op) (hc : cueCtx s i = some c) (hr : CueReady op s c = true) (hp : c.pass = true) (hs : op.stay = true)
    (he : op.eff c (updCue s c.iss (stayedCue i)) = h (updCue (updCue s c.iss (stayedCue i)) c.iss g)) : AnswersCue i s c (g (stayedCue i c.c)) h := by
  obtain rfl := cueOp_i hop
  refine ⟨fun x => g (stayedCue op.i x), ?_, rfl⟩
  rw [exec_of_cueOp hop, cueIssue_ready hc hr hp, cueIssued_stayed hp hs, he, updCue_updCue]
theorem exec_of_cueReady (hop : cueOp i = some op) (hc : cueCtx s i = some c) (hr : CueReady op s c = true) (hp : c.pass = true) : exec i s = .next (op.eff c (cueIssued op c s)) := by
  obtain rfl := cueOp_i hop
  exact (exec_of_cueOp hop).trans (cueIssue_ready hc hr hp)
end

/-- Settles O39. -/
theorem failedGuards : Obligations.FailedGuards := by
  intro i op s c hop hc hr hp
  obtain rfl := cueOp_i hop
  exact ⟨missedCue op.i, by rw [exec_of_cueOp hop, cueIssue_failed hc hr hp, cueIssued_missed hp]; rfl, rfl⟩

/-! ### Causes that no self-check and no table read gives -/

theorem mem_of_lowestCause {l : List Cause} {x : Cause} (h : lowestCause l = some x) : x ∈ l := by
  have hfold : ∀ (r : List Cause) (b : Option Cause), (∀ y, b = some y → y ∈ l) → r ⊆ l → ∀ y, r.foldl (fun b x => match b with
      | none => some x
      | some y => if x.toNat < y.toNat then some x else some y) b = some y → y ∈ l := by
    intro r
    induction r with
    | nil => exact fun b hb _ y hy => hb y hy
    | cons a r ih =>
      intro b hb hr y hy
      refine ih _ (fun z hz => ?_) (fun z hz => hr (List.mem_cons_of_mem _ hz)) y hy
      have ha : a ∈ l := hr (by simp)
      cases b with
      | none =>
        cases hz
        exact ha
      | some w =>
        dsimp only at hz
        split at hz <;> cases hz
        · exact ha
        · exact hb _ rfl
  exact hfold l none (by simp) (List.Subset.refl _) x h
theorem postWalk_of_no_cap (s : State) (iss : Issuer) {cause : Cause} (va : BitVec 64) (h : cause.toNat / 4 ≠ 0x24) : postWalk s iss cause va = s := by
  simp only [postWalk, postWalkAt, h, ne_eq, not_false_eq_true, if_true]
/-- An opcode without a computation has no self-check of its own. -/
theorem cueSoft_of_no_unit {s : State} {i : Instr} {o : OwnC} (hu : cueUnit i = none) (h : cueSoft s i = some o) : o.cause = 0x1E1 := by
  obtain ⟨x, hx, rfl⟩ := Option.map_eq_some_iff.mp h
  have hmem := (List.mem_filter.mp (mem_of_lowestCause hx)).2
  simpa [hu] using hmem
theorem softCause_illegal {s : State} {c : WCtx} {b : Bool} {w : Word} {o : OwnC} (h : softCause s c (.illegalOpcode b w) = some o) : o.cause ≠ 0 := by
  obtain ⟨x, hx, rfl⟩ := Option.map_eq_some_iff.mp h
  have hmem := (List.mem_filter.mp (mem_of_lowestCause hx)).2
  intro h0
  obtain rfl : x = 0 := h0
  have hzero : (0 : Nat) = (260 + 4 * s.port + 2) % 2 ^ 9 := by
    simp [softMeets, pipeUnits] at hmem
    exact congrArg BitVec.toNat hmem.2
  omega

/-! ### Illegal and privileged opcodes -/

/-- A thread that is not held and has nothing due. -/
theorem quiet_lane {op : WOp} {c : WCtx} {l : Nat} {th : Thread} (hth : c.w.threads[l]? = some th) (h : th.park = none ∧ th.windows = [] ∧ th.deferred = []) : heldLane op c l = false ∧ (laneDue op c l).isSome = false := by
  obtain ⟨hpark, hwin, hdef⟩ := h
  simp [heldLane, laneDue, hth, hpark, hwin, dueOf, dueIn, hdef]
theorem lane_thread {s : State} {i : Instr} {c : WCtx} (hc : warpCtx s i = some c) {l : Nat} (hl : l ∈ c.lanes) : ∃ th, c.w.threads[l]? = some th := by
  obtain ⟨-, -, -, -, hbound, -⟩ := warpCtx_spec hc
  exact ⟨_, List.getElem?_eq_getElem (hbound l hl).2⟩
theorem warp_illegal {s : State} {c : WCtx} {w : Word} (hc : warpCtx s (.illegalOpcode false w) = some c) (hst : c.k.st = .resident) (hlanes : c.lanes ≠ []) (hcut : cutLanes c = [])
    (hquiet : ∀ l ∈ c.lanes, ∀ th, c.w.threads[l]? = some th → th.park = none ∧ th.windows = [] ∧ th.deferred = []) :
    exec (.illegalOpcode false w) s = .next (takeWarp s c.wg c.wi c.lanes { cause := 0x000, kind := 0, fpc := c.pc.toNat, rpc := c.pc.toNat, lanes := laneMask c.lanes }) := by
  have hlane : ∀ (op : WOp), ∀ l ∈ c.lanes, heldLane op c l = false ∧ (laneDue op c l).isSome = false := fun op l hl => by
    obtain ⟨th, hth⟩ := lane_thread hc hl
    exact quiet_lane hth (hquiet l hl th hth)
  have hcause : ∀ op : WOp, op.i = .illegalOpcode false w → issueCause op s c = some ⟨0, 0, c.lanes⟩ := fun op hi => by
    simp [issueCause, earlyCause, encCause, isIllegal, hi, hcut, firstC]
  have hsoft : softCause s c (.illegalOpcode false w) ≠ some ⟨0, 0, c.lanes⟩ := fun h => softCause_illegal h rfl
  refine (warpIssue_traps (op := { i := .illegalOpcode false w, eff := fun _ s => s }) hc hst hlanes (List.any_eq_false.mpr fun l hl => by simp [(hlane _ l hl).1]) (List.any_eq_false.mpr fun l hl => by simp [(hlane _ l hl).2]) (hcause _ rfl)).trans ?_
  rw [if_neg hsoft, preciseAt, postWalk_of_no_cap _ _ _ (show (0 : Cause).toNat / 4 ≠ 0x24 by decide)]
/-- The first cause of a cue thread without a window or a deferred cause, where no self-check gave it. -/
theorem cue_quiet_traps {op : COp} {s : State} {c : CCtx} {x : Cause} (hc : cueCtx s op.i = some c) (hst : cueStopped s c = false) (hwin : c.c.windows = []) (hdef : c.c.deferred = [])
    (hcause : cueCause op s c = some ⟨x, 0, []⟩) (hunit : cueUnit op.i = none) (hx : x ≠ 0x1E1) (hcap : x.toNat / 4 ≠ 0x24) (hnote : op.note c s = s) :
    cueIssue op s = .next (takeCue s c.iss { cause := x, kind := 0, fpc := c.pc.toNat, rpc := c.pc.toNat }) := by
  have hsoft : ¬ (c.pass = true ∧ cueSoft s op.i = some ⟨x, 0, []⟩) := fun h => hx (cueSoft_of_no_unit hunit h.2)
  rw [cueIssue_traps hc hst (by simp [hwin]) (by simp [cueFalls, hdef, dueIn]) hcause, if_neg hsoft, hnote, ite_self, cuePrecise, postWalk_of_no_cap _ _ _ hcap]
/-- The cut distance of a thread that may go on. -/
theorem cueOver_false {c : CCtx} (h : ∀ g, c.g = some g → cueNextDist c.c ≤ g.lrec.cutmax) : cueOver c.g c.c = false := by
  cases hg : c.g with
  | none => rfl
  | some g => simp [cueOver, h g hg]
theorem cue_illegal {s : State} {c : CCtx} {w : Word} (hc : cueCtx s (.illegalOpcode true w) = some c) (hst : cueStopped s c = false) (hwin : c.c.windows = []) (hdef : c.c.deferred = []) (hcut : ∀ g, c.g = some g → cueNextDist c.c ≤ g.lrec.cutmax) :
    exec (.illegalOpcode true w) s = .next (takeCue s c.iss { cause := 0x010, kind := 0, fpc := c.pc.toNat, rpc := c.pc.toNat }) := by
  have hcause : cueCause { i := .illegalOpcode true w, eff := fun _ s => s } s c = some ⟨0x010, 0, []⟩ := by
    simp only [cueCause, cueEarly, cueOver_false hcut, cuePriv, cueEncAt, isIllegal]
    cases c.iss <;> cases c.pass <;> rfl
  exact cue_quiet_traps (op := { i := .illegalOpcode true w, eff := fun _ s => s }) hc hst hwin hdef hcause rfl (by decide) (by decide) rfl

/-- Settles O18. -/
theorem illegalOpcodes : Obligations.IllegalOpcodes := ⟨fun _ _ _ hc hst hlanes hcut hquiet => warp_illegal hc hst hlanes hcut hquiet, fun _ _ _ hc hst hwin hdef hcut => cue_illegal hc hst hwin hdef hcut⟩

/-- The privileged opcodes have neither a self-check nor anything to note. -/
theorem cuePriv_plain {i : Instr} {op : COp} (hop : cueOp i = some op) (h : cuePriv i = true) (c : CCtx) (s : State) : cueUnit i = none ∧ op.note c s = s := by
  cases i <;> first | (cases h; done) | (obtain rfl := Option.some.inj hop; exact ⟨rfl, rfl⟩)
/-- Settles O32. -/
theorem cueTraps : Obligations.CueTraps := by
  refine ⟨fun i op s c o hop hc hst hwin hdue ho => ?_, fun i op s c wg hop hpriv hc hiss hst hwin hdef hcut => ?_⟩
  · obtain rfl := cueOp_i hop
    exact (exec_of_cueOp hop).trans (cueIssue_traps hc hst hwin hdue ho)
  · obtain ⟨hunit, hnote⟩ := cuePriv_plain hop hpriv c s
    obtain rfl := cueOp_i hop
    have hcause : cueCause op s c = some ⟨0x02F, 0, []⟩ := by
      simp only [cueCause, cueEarly, cueOver_false hcut, hpriv, hiss]
      rfl
    rw [exec_of_cueOp hop, cue_quiet_traps hc hst hwin hdef hcause hunit (by decide) (by decide) hnote, hiss]

/-- Settles O17. -/
theorem softwareTraps : Obligations.SoftwareTraps := by
  refine ⟨fun s c f => ⟨fun hc hr => warpIssue_ready hc hr, fun hc hr => warpIssue_ready hc hr⟩, fun s c f hc hr hp => exec_of_cueReady rfl hc hr hp, ?_, ?_⟩
  · exact ⟨_, rfl, by decide, by decide⟩
  · exact ⟨_, rfl, by decide, by decide⟩

/-- Settles O36. -/
theorem managementTrap : Obligations.ManagementTrap := by
  intro s m r x hx
  refine ⟨fun hfree => ?_, fun htrap => ?_⟩
  · simp only [takeCue, hx, hfree, Bool.false_eq_true, if_false]
  · simp only [takeCue, hx, htrap, if_true]

end Sys2Proof.Machine
end

section
/-! The scalar instructions, the registers and the transfers of a cue thread (10 R262 to R268, R280, 13 R387, R389). Obligations O37, O38, O40. -/

namespace Sys2Proof.Machine

/-! ### O37: scalar results -/

theorem satCue_eq (m : BitVec 3) (op : Int → Int → Int) (a b : Nat) :
    satCue m.toNat op a b = if m = 1 then max (-2 ^ 63) (min (2 ^ 63 - 1) (op (sextN a 64) (sextN b 64))) else if m = 2 then max 0 (min (2 ^ 64 - 1) (op a b)) else op a b := by
  have hclamp : ∀ x lo hi : Int, lo ≤ hi → clampI x lo hi = max lo (min hi x) := fun x lo hi h => by
    unfold clampI
    split
    · omega
    · split <;> omega
  by_cases h1 : m = 1
  · subst h1
    exact hclamp _ _ _ (by decide)
  · by_cases h2 : m = 2
    · subst h2
      exact hclamp _ _ _ (by decide)
    · have hm1 : m.toNat ≠ 1 := fun h => h1 (BitVec.eq_of_toNat_eq h)
      have hm2 : m.toNat ≠ 2 := fun h => h2 (BitVec.eq_of_toNat_eq h)
      rw [if_neg h1, if_neg h2]
      unfold satCue
      split <;> simp_all
theorem asI64_eq (p : Prop) [Decidable p] (x : Nat) : asI64 (decide p) x = if p then sextN x 64 else x := by
  by_cases h : p <;> simp [asI64, h]
theorem wrap_toNat (w : Nat) (x : Int) : ((wrap w x).toNat : Int) = x % 2 ^ w := by
  rw [wrap, BitVec.toNat_ofInt]
  have := Int.emod_nonneg x (b := 2 ^ w) (by positivity)
  push_cast
  omega
/-- Every scalar instruction is the ALU operation of its function. -/
theorem scalar_op {i : Instr} {op : COp} {f : QF} {fn : Nat → Nat → Nat → Int} (hop : cueOp i = some op) (h : scalarFn i = some (f, fn)) :
    ∃ fn', op = cueAlu i f fn' ∧ ∀ a b d, a < 2 ^ 64 → b < 2 ^ 64 → fn' a b d = fn a b d := by
  cases i <;> first | (cases h; done) | (obtain ⟨rfl, rfl⟩ := Prod.mk.inj (Option.some.inj h); obtain rfl := Option.some.inj hop; refine ⟨_, rfl, fun a b d ha hb => ?_⟩)
  case cadd =>
    rw [satCue_eq, max_eq_right (a := 0) (le_min (by decide) (by positivity))]
  case csub => simp only [satCue_eq, min_eq_right (show (a : Int) - b ≤ 2 ^ 64 - 1 by omega)]
  case cmulh =>
    simp only [asI64_eq]
    split <;> rfl
  case cmin => 
    simp only [asI64_eq]
    split
    · rfl
    · exact (Nat.cast_min ..).symm
  case cmax =>
    simp only [asI64_eq]
    split
    · rfl
    · exact (Nat.cast_max ..).symm
  case cli g =>
    have h0 : g.mod = 0 ↔ g.mod.toNat = 0 := by simp [← BitVec.toNat_inj]
    have h1 : g.mod = 1 ↔ g.mod.toNat = 1 := by simp [← BitVec.toNat_inj]
    simp only [h0, h1, wrap_toNat]
    split <;> simp_all [cliImm]
  all_goals rfl

/-- Settles O37. -/
theorem scalarResults : Obligations.ScalarResults := by
  intro i op s c f fn hop hfn hc hr hp
  obtain ⟨fn', rfl, hval⟩ := scalar_op hop hfn
  refine ready_cue (g := fun x => cset x f.d.toNat _) hop hc hr hp rfl ?_
  rw [← hval _ _ _ (BitVec.isLt _) (BitVec.isLt _)]
  rfl

/-! ### O38: division, and the instructions that write one register or flag -/

theorem sextN_toNat (a : DWord) : sextN a.toNat 64 = a.toInt := by
  have hlt := a.isLt
  rw [sextN, if_neg (by decide), BitVec.toInt_eq_toNat_cond]
  simp only [Nat.mod_eq_of_lt hlt]
  split <;> split <;> omega
theorem asI64_toNat (p : Prop) [Decidable p] (a : DWord) : asI64 (decide p) a.toNat = if p then a.toInt else a.toNat := by rw [asI64_eq, sextN_toNat]
/-- What `cdiv` writes: quotient, remainder, and its flag. -/
def cdivWords (m : BitVec 3) (a b : DWord) : DWord × DWord × Bool :=
  (wrap 64 (cdivOf (m = 0) a.toNat b.toNat).1, wrap 64 (cdivOf (m = 0) a.toNat b.toNat).2.1, (cdivOf (m = 0) a.toNat b.toNat).2.2)
theorem cdivWords_eq (m : BitVec 3) (a b : DWord) : cdivWords m a b = if b = 0 then (BitVec.allOnes 64, a, true)
      else if m = 0 then (if a = 0x8000000000000000 ∧ b = BitVec.allOnes 64 then (a, 0, true) else (BitVec.ofInt 64 (Int.tdiv a.toInt b.toInt), BitVec.ofInt 64 (Int.tmod a.toInt b.toInt), false))
      else (BitVec.ofNat 64 (a.toNat / b.toNat), BitVec.ofNat 64 (a.toNat % b.toNat), false) := by
  have ha : a = 0x8000000000000000 ↔ a.toNat = 2 ^ 63 := by rw [← BitVec.toNat_inj]; rfl
  have hb : b = BitVec.allOnes 64 ↔ b.toNat = 2 ^ 64 - 1 := by rw [← BitVec.toNat_inj]; rfl
  have hz : b = 0 ↔ b.toNat = 0 := by rw [← BitVec.toNat_inj]; rfl
  by_cases h0 : b = 0
  · rw [if_pos h0]
    simp [cdivWords, cdivOf, hz.mp h0, wrap]
  · have hn : ¬ b.toNat = 0 := fun h => h0 (hz.mpr h)
    rw [if_neg h0]
    by_cases hm : m = 0
    · rw [if_pos hm]
      by_cases hover : a = 0x8000000000000000 ∧ b = BitVec.allOnes 64
      · obtain ⟨rfl, rfl⟩ := hover
        subst hm
        rfl
      · have hno : ¬ ((decide (m = 0) && decide (a.toNat = 2 ^ 63) && decide (b.toNat = 2 ^ 64 - 1)) = true) := by
          simp only [hm, decide_true, Bool.true_and, Bool.and_eq_true, decide_eq_true_eq]
          exact fun h => hover ⟨ha.mpr h.1, hb.mpr h.2⟩
        simp only [cdivWords, cdivOf, if_neg hn, if_neg hno, if_neg hover, asI64_toNat, if_pos hm]
        rfl
    · have hno : ¬ ((decide (m = 0) && decide (a.toNat = 2 ^ 63) && decide (b.toNat = 2 ^ 64 - 1)) = true) := by simp only [hm, decide_false, Bool.false_and, Bool.false_eq_true, not_false_eq_true]
      simp only [cdivWords, cdivOf, if_neg hn, if_neg hno, if_neg hm, asI64_toNat, ← Int.ofNat_tdiv, ← Int.ofNat_tmod, wrap, BitVec.ofInt_natCast]

/-- Settles O38. -/
theorem cueRegisters : Obligations.CueRegisters := by
  refine ⟨fun s c f hc hr hp => ?_, fun s c f hp => ⟨fun hc hr => ?_, fun hc hr hm => ?_, fun g hg hc hr => ?_, fun hg hc hr => ?_, fun hc hr => ?_, fun v hv hc hr => ?_⟩⟩
  · intro a b
    rw [← cdivWords_eq f.mod a b]
    refine ready_cue (g := fun x => { gset (cset (cset x f.d.toNat _) (f.d.toNat + 1) _) 3 _ with nextAt := s.clk + 34 }) rfl hc hr hp rfl ?_
    simp only [opCdiv, updCue_clk]
    rfl
  · exact ready_cue (g := fun x => cset x f.d.toNat _) rfl hc hr hp rfl rfl
  · refine ready_cue (g := fun x => gset x (f.d.toNat % 4) _) rfl hc hr hp rfl ?_
    simp only [opCcmp, asI64_toNat, BitVec.toNat_and]
    rfl
  · exact ready_cue (g := fun x => cset x f.d.toNat _) rfl hc hr hp rfl (by simp only [opCslot, hg]; rfl)
  · exact ⟨0, ready_cue (g := fun x => cset x f.d.toNat _) rfl hc hr hp rfl (by simp only [opCslot, hg]; rfl)⟩
  · exact ready_cue (g := fun x => cset x f.d.toNat _) rfl hc hr hp rfl rfl
  · rw [cueIssued_passed hp rfl] at hv
    refine ready_cue (g := fun x => cset x f.d.toNat _) rfl hc hr hp rfl ?_
    simp only [opCsreg]
    exact congrArg (fun o => setC _ c f.d.toNat (Option.getD o 0)) hv

/-! ### O40: transfers -/

theorem signExtend_shift (x : BitVec 32) : x.signExtend 57 <<< 2 = BitVec.ofInt 57 (4 * x.toInt) := by
  rw [BitVec.shiftLeft_eq_mul_twoPow, mul_comm 4, BitVec.ofInt_mul]
  rfl
theorem cbTarget_eq (c : CCtx) (f : QF) : cbTarget c f = c.pc + BitVec.ofInt 57 (4 * f.imm.toInt) := by rw [cbTarget, signExtend_shift]
/-- A thread that has issued an instruction keeps the return addresses and the handler's flag it had. -/
@[simp] theorem passedCue_rstack (i : Instr) (x : Cue) : (passedCue i x).rstack = x.rstack := by
  unfold passedCue stepCue countCue
  dsimp only
  (repeat' split) <;> rfl
/-- A thread that leaves its retake stub. -/
def leaveCueStub (x : Cue) : Cue :=
  match x.stub with
  | some st => { jumpCue st.target x with stub := none, cutDist := 0, moved := false }
  | none => x
theorem passedCue_stub {i : Instr} {x : Cue} {st : Stub} (h : cueStub x = some st) : ∃ st', (passedCue i x).stub = some st' ∧ st'.target = st.target := by
  have hout : x.inHandler = false := by
    by_contra hin
    simp [cueStub, hin] at h
  have hstub : x.stub = some st := by simpa [cueStub, hout] using h
  have hkeep : ∀ n y, (stepCue n y).stub = y.stub := fun n y => by
    unfold stepCue
    dsimp only
    (repeat' split) <;> rfl
  simp [passedCue, hkeep, countCue, hout, hstub]
/-- Settles O40. -/
theorem cueTransfers : Obligations.CueTransfers := by
  intro s c f hp
  refine ⟨fun hc hr => ?_, fun hc hr => ?_, fun hc hr => ?_, fun a r hstack hc hr => ?_, fun st hst hm hc hr => ?_, fun bs u hm hrec hc hr => exec_cresume_leaves hc hr hp (by rw [hm]; decide) hrec⟩
  · rw [← cbTarget_eq]
    exact ready_cue (g := jumpCue _) rfl hc hr hp rfl rfl
  · rw [← cbTarget_eq, ← passedCue_rstack (.ccall f)]
    exact ready_cue (g := fun x => jumpCue _ (pushCue x (c.pc + 8))) rfl hc hr hp rfl rfl
  · have hanswer := ready_cue (g := fun x => jumpCue ((cget c.c f.a.toNat).setWidth 57) (if f.mod = 1 then pushCue x (c.pc + 4) else x)) (h := id) rfl hc hr hp rfl rfl
    by_cases hm : f.mod = 1
    · simpa only [if_pos hm, pushCue, jumpCue, landedCue, passedCue_rstack] using hanswer
    · simpa only [if_neg hm, jumpCue, landedCue, ← passedCue_rstack (.cbx f) c.c] using hanswer
  · exact ready_cue (g := fun x => { jumpCue a x with rstack := r }) rfl hc hr hp rfl (by simp only [opCret, hstack]; rfl)
  · obtain ⟨st', hst', htarget⟩ := passedCue_stub (i := .cresume f) hst
    obtain ⟨g, hexec, hg⟩ := ready_cue (g := leaveCueStub) (h := id) rfl hc hr hp rfl (by simp only [opCresume, hm, if_true]; rfl)
    refine ⟨g, hexec, ?_⟩
    simp only [hg, leaveCueStub, hst', jumpCue, htarget, true_and]

end Sys2Proof.Machine
end

section
/-! `join`, decision queues, `resume` and `twait` (07 R168, R171, R172, 13 R389, R390). Obligations O14, O15, O20. -/

namespace Sys2Proof.Machine

/-! ### O14: `join` also ends the cadence of its threads -/

/-- A thread parked at `join` that its port's cadence (02 R54) does not let issue before clk 5. -/
def cadencedThread : Thread :=
  { pc := 0, clause := none, rstack := [], depth := 0, pass := 0, life := .live, park := some (.join none 7 0), plen := 0, readyAt := 0, nextAt := 5, cutDist := 0, fpstat := 0, sp := 0, inHandler := false, saved := none, stub := none
    cutPc := 0, cutRec := 0, moved := true, windows := [], deferred := [] }
def cadencedWarp : Warp :=
  { threads := [cadencedThread], vregs := [], sregs := [], preds := [], tokens := [], patterns := [], dq := [], kvkey := 0, colls := [], quarter := 0, position := 0, ended := false, returned := [], dqAt := 0, recent := [], view := View.none
    late := [], portA := 0, portB := 0 }
def cadencedWg : Workgroup :=
  { id := 1, grid := 0, lin := 0, st := .resident, core := 0, ctx := 0, image := 0, bases := [], warps := [cadencedWarp], cue := Cue.zero, tiles := [], tcfg := [], tconf := [], tgen := [], acc := [], phase := [], take := none, takeAt := 0
    takeLate := false, cmig := none, target := none, held := false, taskOn := false, nonRestart := false, vlines := [], vbytes := 0, vdone := false, missing := [], storedTiles := false, storedLocal := false }
/-- The examination of JOIN_DEADLINE at the device that holds this workgroup alone: its thread goes on, and its cadence is over. -/
theorem joinDeadline_cadenced (s : State) (hs : s.wgs = [cadencedWg]) {t : State} (h : exec .joinDeadline s = .next t) :
    t.wgs[0]?.bind (fun k => k.warps[0]?) = some (joinRelease cadencedWarp [0] true) := by
  have ht : joinExamine s 1 0 = t := by
    have h' : execJoinDeadline s = .next t := h
    simp only [execJoinDeadline, hs] at h'
    exact Host.Outcome.next.inj h'
  rw [← ht]
  simp only [joinExamine, updWarp, updWg, hs]
  rfl
/-- Refutes O14: a thread that its `join` releases has its cadence ended with it (`nextAt`), so it is not the parked thread stepped on and otherwise unchanged. -/
theorem not_joinParksOrConverges : ¬ Obligations.JoinParksOrConverges := by
  intro h
  obtain ⟨t, hexec, -, hall⟩ := h.2 { State.reset with wgs := [cadencedWg] } (by decide)
  obtain ⟨w', hw', hone⟩ := hall 0 0 cadencedWg cadencedWarp rfl rfl
  obtain rfl : joinRelease cadencedWarp [0] true = w' := Option.some.inj ((joinDeadline_cadenced _ rfl hexec).symm.trans hw')
  have hthread := ((hone 0 cadencedThread none 7 0 (by decide) (by decide) rfl rfl (by decide)).1 ⟨0, fun l hl => ⟨none, 7, by
    obtain rfl : l = 0 := by simpa [show Warp_live cadencedWarp = [0] by decide] using hl
    rfl⟩⟩).1
  exact absurd hthread (by decide)

/-! ### O15: decision queues -/

theorem live_stayedWarp {s : State} {i : Instr} {c : WCtx} (hc : warpCtx s i = some c) : Warp_live (stayedWarp c i c.w) = Warp_live c.w := by
  rw [stayedWarp, Warp_updThreads_eq _ _ _ (cs_nodup hc), Warp_updThreads_eq _ _ _ (warpCtx_spec hc).2.2.2.1]
  simp only [List.mapIdx_mapIdx_same]
  refine Warp_live_mapIdx _ _ fun l th => ?_
  by_cases hl : l ∈ c.cs <;> by_cases hm : l ∈ c.lanes <;> simp [hl, hm, writeThread, countThread]
theorem Warp_updThreads_congr (w : Warp) {a b : List Nat} (ha : a.Nodup) (hb : b.Nodup) (h : ∀ l, l ∈ a ↔ l ∈ b) (f : Thread → Thread) : Warp_updThreads w a f = Warp_updThreads w b f := by
  simp only [Warp_updThreads_eq _ _ _ ha, Warp_updThreads_eq _ _ _ hb, h]
theorem lanes_live {s : State} {i : Instr} {c : WCtx} (hc : warpCtx s i = some c) {l : Nat} (hl : l ∈ c.lanes) : l ∈ Warp_live c.w := by
  unfold warpCtx at hc
  split at hc
  · split at hc
    · cases hc
    · split at hc
      · cases hc
        exact (List.mem_filter.mp hl).1
      · cases hc
  · cases hc
/-- A converging instruction that executes has all live threads of its warp in its group. -/
theorem live_of_converged {s : State} {i : Instr} {c : WCtx} (hc : warpCtx s i = some c) (h : converged c = true) (l : Nat) : l ∈ Warp_live c.w ↔ l ∈ c.lanes := by
  exact ⟨fun hl => by simpa using List.all_eq_true.mp h l hl, lanes_live hc⟩
theorem converged_of_ready {op : WOp} {s : State} {c : WCtx} (hconv : op.conv = true) (hr : WarpReady op s c = true) : converged c = true := by
  by_contra hn
  simp only [WarpReady, Bool.and_eq_true, Option.isNone_iff_eq_none] at hr
  obtain ⟨⟨-, hcause⟩, -⟩ := hr
  simp [issueCause, firstC, hconv, hn] at hcause

section
variable {s : State} {i : Instr} {c : WCtx}
theorem stayedWarp_threads (hc : warpCtx s i = some c) : stayedWarp c i c.w = { c.w with threads := (stayedWarp c i c.w).threads } := by
  rw [stayedWarp, Warp_updThreads_eq _ _ _ (cs_nodup hc), Warp_updThreads_eq _ _ _ (warpCtx_spec hc).2.2.2.1]
/-- All live threads of a warp whose whole group has issued an instruction that keeps its PC. -/
theorem whole_updLive (hc : warpCtx s i = some c) (hall : c.cs = c.lanes) (hconv : converged c = true) {v : Warp} (hv : v.threads = (stayedWarp c i c.w).threads) (f : Thread → Thread) :
    Warp_updThreads v (Warp_live v) f = { v with threads := threadsParked c i f } := by
  have hlive : Warp_live v = Warp_live c.w := by
    rw [← live_stayedWarp hc]
    simp only [Warp_live, hv]
  have hlanes := (warpCtx_spec hc).2.2.2.1
  have hwhole := congrArg Warp.threads (stayedWarp_whole hc hall f)
  rw [hlive, Warp_updThreads_congr v (Warp_live_nodup _) hlanes (live_of_converged hc hconv), Warp_updThreads_eq _ _ _ hlanes, hv]
  rw [Warp_updThreads_eq _ _ _ hlanes] at hwhole
  exact congrArg (fun x => { v with threads := x }) hwhole
theorem threadsParked_congr {f g : Thread → Thread} (h : ∀ th, th.plen = instrLen (warpL i) → f th = g th) : threadsParked c i f = threadsParked c i g := by
  refine congrArg (fun x => c.w.threads.mapIdx x) (funext fun l => funext fun th => ?_)
  have hplen := h (writeThread (WCtx_use c i) { countThread c.w th with plen := instrLen (warpL i) }) rfl
  simp only [hplen]
theorem unpark_eq (th : Thread) : unpark th = { stepThread th.plen th with park := none } := by
  unfold unpark stepThread
  dsimp only
  (repeat' split) <;> rfl
end

section
variable {s : State} {c : WCtx} {f : VF}
theorem dqpop_waits (hc : warpCtx s (.dqpop f) = some c) (hr : WarpReady (opDqpop f) s c = true) (hall : c.cs = c.lanes) (hdq : c.w.dq = []) :
    AnswersWarp (.dqpop f) s c { c.w with threads := threadsParked c (.dqpop f) fun th => { th with park := some (.dqpop f.d.toNat) } } :=
  ready_stayed rfl rfl hc hr rfl (fun w => Warp_updThreads w c.lanes _) (if_pos hdq) _ (stayedWarp_whole hc hall _)
theorem dqpop_takes (hc : warpCtx s (.dqpop f) = some c) (hr : WarpReady (opDqpop f) s c = true) (hall : c.cs = c.lanes) {e : DWord} {r : List DWord} (hdq : c.w.dq = e :: r) :
    AnswersWarp (.dqpop f) s c { ssetN { c.w with dq := r } f.d.toNat e.toNat 2 with threads := threadsParked c (.dqpop f) fun th => { stepThread (instrLen f.l) th with park := none } } := by
  have hne : ¬ c.w.dq = [] := by simp [hdq]
  refine ready_stayed rfl rfl hc hr rfl (fun w => popPair w f.d.toNat) (if_neg hne) _ ?_
  have hstep : threadsParked c (.dqpop f) unpark = threadsParked c (.dqpop f) fun th => { stepThread (instrLen f.l) th with park := none } :=
    threadsParked_congr fun th hth => by rw [unpark_eq, hth]; rfl
  have hpop : popPair (stayedWarp c (.dqpop f) c.w) f.d.toNat
      = (fun v => Warp_updThreads v (Warp_live v) unpark) { ssetN { c.w with dq := r } f.d.toNat e.toNat 2 with threads := (stayedWarp c (.dqpop f) c.w).threads } := by
    refine (congrArg (popPair · f.d.toNat) (stayedWarp_threads hc)).trans ?_
    simp only [popPair, hdq, ← ssetN_setThreads]
  exact hpop.trans ((whole_updLive hc hall (converged_of_ready rfl hr) (v := { ssetN { c.w with dq := r } f.d.toNat e.toNat 2 with threads := (stayedWarp c (.dqpop f) c.w).threads }) rfl unpark).trans (by rw [hstep]))
theorem dqbr_waits (hc : warpCtx s (.dqbr f) = some c) (hr : WarpReady (opDqbr f) s c = true) (hall : c.cs = c.lanes) (hdq : c.w.dq = []) :
    AnswersWarp (.dqbr f) s c { c.w with threads := threadsParked c (.dqbr f) fun th => { th with park := some (.dqbr (if f.m = 0 then some f.d.toNat else none)) } } :=
  ready_stayed rfl rfl hc hr rfl (fun w => Warp_updThreads w c.lanes _) (if_pos hdq) _ (stayedWarp_whole hc hall _)
theorem dqbr_takes (hc : warpCtx s (.dqbr f) = some c) (hr : WarpReady (opDqbr f) s c = true) (hall : c.cs = c.lanes) {e : DWord} {r : List DWord} (hdq : c.w.dq = e :: r) :
    AnswersWarp (.dqbr f) s c { (if f.m = 0 then sset { c.w with dq := r } f.d.toNat (hi32 e) else { c.w with dq := r }) with
      threads := threadsParked c (.dqbr f) fun th => { landed (BitVec.ofNat 57 (c.g.lrec.wstream + e.toNat % 2 ^ 32)) th with park := none } } := by
  have hne : ¬ c.w.dq = [] := by simp [hdq]
  refine ready_stayed rfl rfl hc hr rfl (fun w => popBranch c.g w (if f.m = 0 then some f.d.toNat else none)) (if_neg hne) _ ?_
  refine (congrArg (popBranch c.g · _) (stayedWarp_threads hc)).trans ?_
  have hlive := @whole_updLive s (.dqbr f) c hc hall (converged_of_ready rfl hr)
  by_cases hm : f.m = 0
  · simp only [popBranch, hdq, if_pos hm]
    exact hlive (v := sset { { c.w with threads := (stayedWarp c (.dqbr f) c.w).threads } with dq := r } f.d.toNat (hi32 e)) rfl _
  · simp only [popBranch, hdq, if_neg hm]
    exact hlive (v := { { c.w with threads := (stayedWarp c (.dqbr f) c.w).threads } with dq := r }) rfl _
end

/-! DECISION_QUEUE_POP -/

section
variable {s : State} {wg wi : Nat} {k : Workgroup} {g : Grid} {w : Warp} {th : Thread} {e : DWord} {r : List DWord}
/-- The event's cases at a warp whose first live thread is parked at p. -/
theorem decisionQueuePop_eq (hk : findWg s wg = some k) (hg : gridOf s k = some g) (hw : k.warps[wi]? = some w) (hth : w.threads[(Warp_live w).headD 0]? = some th) (hdq : w.dq = e :: r) :
    (∀ d, th.park = some (.dqpop d) → exec (.decisionQueuePop wg wi) s = .next (updWarp s wg wi fun w => popPair w d))
      ∧ ∀ d, th.park = some (.dqbr d) → e.toNat % 4 = 0 → exec (.decisionQueuePop wg wi) s = .next (updWarp s wg wi fun w => popBranch g w d) := by
  have hwarp : findWarp s wg wi = some w := by simp only [findWarp, hk, Option.bind_some, hw]
  have hevent : exec (.decisionQueuePop wg wi) s = execDecisionQueuePop wg wi s := rfl
  refine ⟨fun d hd => ?_, fun d hd hal => ?_⟩
  · simp only [hevent, execDecisionQueuePop, hk, hwarp, hg, hth, hdq, Option.bind_some, hd]
  · simp only [hevent, execDecisionQueuePop, hk, hwarp, hg, hth, hdq, Option.bind_some, hd, hal, ne_eq, not_true, if_false]
/-- Settles O15. -/
theorem decisionQueues : Obligations.DecisionQueues := by
  refine ⟨fun s c f => ⟨fun hc hr hall => ⟨dqpop_waits hc hr hall, fun e r => dqpop_takes hc hr hall⟩, fun hc hr hall => ⟨dqbr_waits hc hr hall, fun e r => dqbr_takes hc hr hall⟩⟩,
    fun s wg wi k g w th e r hk hg hw hth hdq => ⟨fun d hd => ⟨_, (decisionQueuePop_eq hk hg hw hth hdq).1 d hd, ?_⟩, fun d hd hal => ⟨_, (decisionQueuePop_eq hk hg hw hth hdq).2 d hd hal, ?_⟩⟩⟩
  · simp only [popPair, hdq]
    rfl
  · simp only [popBranch, hdq]
    cases d <;> rfl
end

/-! ### O20: `resume` -/

section
variable {s : State} {c : WCtx} {f : VF}
theorem resume_stub (hc : warpCtx s (.resume f) = some c) (hr : WarpReady (opResume f) s c = true) (hm : f.mod = 0) :
    AnswersWarp (.resume f) s c { c.w with threads := threadsAfter c (.resume f) (onCs c leaveStub) } := by
  refine ready_threads rfl rfl hc hr rfl (fun _ => leaveStub) ?_
  simp only [opResume, hm, if_true]
  exact updThreads_fold ..
theorem resume_handler {l : Nat} {bs : List Byte} {u : State} (hc : warpCtx s (.resume f) = some c) (hr : WarpReady (opResume f) s c = true) (hm : f.mod ≠ 0) (hcs : c.cs = [l])
    (hrec : readRecord (issued (opResume f) c s) c.wg c.wi l = (some bs, u)) : exec (.resume f) s = .next (updThread u c.wg c.wi l fun th => leaveHandler th bs) := by
  have hexec : exec (.resume f) s = .next ((opResume f).eff c (issued (opResume f) c s)) := warpIssue_ready hc hr
  rw [hexec]
  have heff : (opResume f).eff c (issued (opResume f) c s) = c.cs.foldl (fun t l => match readRecord t c.wg c.wi l with
      | (some bs, u) => updThread u c.wg c.wi l fun th => leaveHandler th bs
      | (none, u) => u) (issued (opResume f) c s) := if_neg hm
  rw [heff, hcs, List.foldl_cons, List.foldl_nil, hrec]
end

/-! ### O20: `twait` -/

theorem dueIn_eq_none_iff {all : Bool} {toks : Nat} {l : List Deferred} : dueIn all toks l = none ↔ ∀ d ∈ l, isDue all toks d = false := by
  have hsome : ∀ (r : List Deferred) (x : Deferred), ∃ y, r.foldl (fun b d => match b with
      | none => some d
      | some x => if d.stamp < x.stamp then some d else some x) (some x) = some y := by
    intro r
    induction r with
    | nil => exact fun x => ⟨x, rfl⟩
    | cons d r ih =>
      intro x
      by_cases hd : d.stamp < x.stamp
      · simpa [hd] using ih d
      · simpa [hd] using ih x
  unfold dueIn
  constructor
  · intro h d hd
    by_contra hdue
    obtain ⟨a, r, har⟩ := List.exists_cons_of_ne_nil (List.ne_nil_of_mem (List.mem_filter.mpr ⟨hd, by simpa using hdue⟩))
    obtain ⟨y, hy⟩ := hsome r a
    rw [har, List.foldl_cons] at h
    exact absurd (hy.symm.trans h) (by simp)
  · intro h
    rw [List.filter_eq_nil_iff.mpr fun d hd => by simp [h d hd]]
    rfl
@[simp] theorem stepThread_park (n : Nat) (th : Thread) : (stepThread n th).park = th.park := by
  unfold stepThread
  dsimp only
  (repeat' split) <;> rfl
@[simp] theorem stepThread_life (n : Nat) (th : Thread) : (stepThread n th).life = th.life := by
  unfold stepThread
  dsimp only
  (repeat' split) <;> rfl
/-- The threads of a group that executes are not parked, and no cause of theirs is due. -/
theorem ready_unparked {op : WOp} {s : State} {c : WCtx} (hr : WarpReady op s c = true) {l : Nat} (hl : l ∈ c.lanes) {th : Thread} (hth : c.w.threads[l]? = some th) : th.park = none := by
  simp only [WarpReady, Bool.and_eq_true, Bool.not_eq_true', List.any_eq_false] at hr
  obtain ⟨⟨⟨⟨-, hheld⟩, -⟩, -⟩, -⟩ := hr
  have := hheld l hl
  simp only [heldLane, hth, Bool.or_eq_true, not_or] at this
  simpa using this.1
theorem ready_undue {op : WOp} {s : State} {c : WCtx} (hr : WarpReady op s c = true) {l : Nat} (hl : l ∈ c.lanes) {th : Thread} (hth : c.w.threads[l]? = some th) {d : Deferred} (hd : d ∈ th.deferred) :
    isDue (laneDrain op c l) (laneToks op c l) d = false := by
  simp only [WarpReady, Bool.and_eq_true, Bool.not_eq_true', List.any_eq_false] at hr
  obtain ⟨⟨⟨-, hdue⟩, -⟩, -⟩ := hr
  have hnone : laneDue op c l = none := by simpa using hdue l hl
  exact dueIn_eq_none_iff.mp (by simpa [laneDue, hth, dueOf] using hnone) d hd
/-- A thread is parked at `twait`. -/
def atTwait (w : Warp) (l : Nat) : Bool := match (w.threads[l]?).bind (·.park) with
  | some (.twait _) => true
  | _ => false
/-- Where no thread that waits has its tokens at zero, none goes on. -/
theorem twaitExamine_waits {s : State} {wg wi : Nat} {w : Warp} (hw : findWarp s wg wi = some w)
    (h : ∀ (l : Nat) (th : Thread) (m : BitVec 6), w.threads[l]? = some th → th.park = some (.twait m) → zeroToks w m.toNat ≠ m.toNat) : twaitExamine s wg wi = s := by
  simp only [twaitExamine, hw]
  refine (List.foldl_ext _ (fun t _ => t) s fun t l _ => ?_).trans (List.foldl_fixed ..)
  cases hth : w.threads[l]? with
  | none => rfl
  | some th =>
    dsimp only
    split
    · next m hpark => exact if_pos (h l th m hth hpark)
    · rfl
/-- Where each thread that waits has its tokens at zero and no cause of them is due, all go on. -/
theorem twaitExamine_goes {s : State} {wg wi : Nat} {w : Warp} (hw : findWarp s wg wi = some w)
    (h : ∀ (l : Nat) (th : Thread) (m : BitVec 6), w.threads[l]? = some th → th.park = some (.twait m) → zeroToks w m.toNat = m.toNat ∧ ∀ d ∈ th.deferred, d.tok.isSome → isDue false m.toNat d = false) :
    twaitExamine s wg wi = updWarp s wg wi fun x => Warp_updThreads x ((Warp_live w).filter (atTwait w)) unpark := by
  simp only [twaitExamine, hw]
  refine (List.foldl_ext _ (fun t l => if atTwait w l then updThread t wg wi l unpark else t) s fun t l _ => ?_).trans ?_
  · cases hth : w.threads[l]? with
    | none => simp [atTwait, hth]
    | some th =>
      dsimp only
      split
      · next m hpark =>
        obtain ⟨hzero, hdue⟩ := h l th m hth hpark
        have hnone : dueOf false m.toNat { th with deferred := th.deferred.filter fun d => d.tok.isSome } = none :=
          dueIn_eq_none_iff.mpr fun d hd => hdue d (List.mem_filter.mp hd).1 (List.mem_filter.mp hd).2
        simp only [hzero, atTwait, hth, hpark, ne_eq, not_true, if_false, Option.bind_some, if_true]
        split
        · next d hd => exact absurd (hnone.symm.trans hd) (by simp)
        · rfl
      · next hpark =>
        rw [if_neg]
        simp [atTwait, hth]
  · rw [← List.foldl_filter, ← updThreads_fold]
    rfl

section
variable {s : State} {c : WCtx} {f : VF}
/-- The named tokens of a warp all read zero. -/
theorem zeroToks_eq_iff {w : Warp} {m : Nat} : zeroToks w m = m ↔ m = 0 ∨ ∀ i < 6, m.testBit i = true → Warp_tok w i = 0 := by
  have hall : ((maskList m 6).all fun i => decide (Warp_tok w i = 0)) = true ↔ ∀ i < 6, m.testBit i = true → Warp_tok w i = 0 := by
    simp only [maskList, List.all_eq_true, List.mem_filter, List.mem_range, decide_eq_true_eq, and_imp]
  by_cases h : ∀ i < 6, m.testBit i = true → Warp_tok w i = 0
  · rw [zeroToks, if_pos (hall.mpr h)]
    exact ⟨fun _ => .inr h, fun _ => rfl⟩
  · rw [zeroToks, if_neg (hall.not.mpr h)]
    simp only [h, or_false]
    exact eq_comm
/-- `twait` before its examination: its contributors have parked. -/
theorem twait_exec (hc : warpCtx s (.twait f) = some c) (hr : WarpReady (opTwait f) s c = true) :
    ∃ g, exec (.twait f) s = .next (twaitExamine (updWarp s c.wg c.wi g) c.wg c.wi) ∧ g c.w = { c.w with threads := threadsParked c (.twait f) fun th => { th with park := some (.twait (BitVec.ofNat 6 (f.b.toNat % 64))) } } := by
  refine ⟨fun w => groupStep c (fun th => { th with park := some (.twait (BitVec.ofNat 6 (f.b.toNat % 64))) }) (stepThread (instrLen f.l)) (stayedWarp c (.twait f) w), ?_, stayedWarp_parked hc _⟩
  have hexec : exec (.twait f) s = .next ((opTwait f).eff c (issued (opTwait f) c s)) := warpIssue_ready hc hr
  rw [hexec, issued_stayed _ _ _ rfl]
  simp only [opTwait, updThreads_eq, updWarp_updWarp]
  rfl
theorem twaitMask_toNat (f : VF) : (BitVec.ofNat 6 (f.b.toNat % 64)).toNat = f.b.toNat % 64 := by simp
/-- The threads that wait at `twait` after one of them: its contributors. -/
theorem threadsParked_twait {m : BitVec 6} {n : BitVec 6} (hno : ∀ (l : Nat) (th : Thread) (m : BitVec 6), c.w.threads[l]? = some th → th.park ≠ some (.twait m)) {l : Nat} {th : Thread}
    (hth : (threadsParked c (.twait f) fun th => { th with park := some (.twait n) })[l]? = some th) (hpark : th.park = some (.twait m)) :
    m = n ∧ l ∈ c.cs ∧ ∃ th', c.w.threads[l]? = some th' ∧ th = { writeThread (WCtx_use c (.twait f)) { countThread c.w th' with plen := instrLen (warpL (.twait f)) } with park := some (.twait n) } := by
  simp only [threadsParked, threadsParkedWith, List.getElem?_mapIdx, Option.map_eq_some_iff] at hth
  obtain ⟨th', hth', rfl⟩ := hth
  by_cases hl : l ∈ c.cs
  · rw [if_pos hl] at hpark ⊢
    cases hpark
    exact ⟨rfl, hl, th', hth', rfl⟩
  · rw [if_neg hl] at hpark
    refine absurd ?_ (hno l th' m hth')
    by_cases hm : l ∈ c.lanes
    · simpa [hm, passed, countThread] using hpark
    · rwa [if_neg hm] at hpark
/-- The threads that wait after a `twait` of a warp of which none waited are its contributors. -/
theorem mem_atTwait {n : BitVec 6} (hc : warpCtx s (.twait f) = some c) (hno : ∀ (l : Nat) (th : Thread) (m : BitVec 6), c.w.threads[l]? = some th → th.park ≠ some (.twait m)) (l : Nat) :
    l ∈ (Warp_live { c.w with threads := threadsParked c (.twait f) fun th => { th with park := some (.twait n) } }).filter (atTwait { c.w with threads := threadsParked c (.twait f) fun th => { th with park := some (.twait n) } }) ↔ l ∈ c.cs := by
  have hlive : Warp_live { c.w with threads := threadsParked c (.twait f) fun th => { th with park := some (.twait n) } } = Warp_live c.w := by
    refine Warp_live_mapIdx _ _ fun l th => ?_
    by_cases hl : l ∈ c.cs
    · simp [hl, writeThread, countThread]
    · by_cases hm : l ∈ c.lanes <;> simp [hl, hm, passed, countThread]
  rw [List.mem_filter, hlive]
  constructor
  · rintro ⟨-, hat⟩
    simp only [atTwait] at hat
    split at hat
    · next m hm =>
      obtain ⟨th, hth, hpark⟩ := Option.bind_eq_some_iff.mp hm
      exact (threadsParked_twait hno hth hpark).2.1
    · cases hat
  · intro hl
    have hlv := lanes_live hc (cs_sub hc hl)
    refine ⟨hlv, ?_⟩
    simp only [atTwait, threadsParked, threadsParkedWith, List.getElem?_mapIdx, List.getElem?_eq_getElem (mem_Warp_live hlv).2, hl, if_true, Option.map_some, Option.bind_some]
theorem twait_waits (hc : warpCtx s (.twait f) = some c) (hr : WarpReady (opTwait f) s c = true) (hno : ∀ (l : Nat) (th : Thread) (m : BitVec 6), c.w.threads[l]? = some th → th.park ≠ some (.twait m))
    (hsome : ∃ i < 6, (f.b.toNat % 64).testBit i = true ∧ Warp_tok c.w i ≠ 0) :
    AnswersWarp (.twait f) s c { c.w with threads := threadsParked c (.twait f) fun th => { th with park := some (.twait (BitVec.ofNat 6 (f.b.toNat % 64))) } } := by
  obtain ⟨g, hexec, hg⟩ := twait_exec hc hr
  obtain ⟨hk, -, hw, -⟩ := warpCtx_spec hc
  refine ⟨g, hexec.trans (congrArg _ ?_), hg⟩
  refine twaitExamine_waits (w := g c.w) ?_ fun l th m hth hpark => ?_
  · simp only [findWarp, findWg_updWarp hk, Option.bind_some, warps_updWarp hw]
  · rw [hg] at hth ⊢
    obtain ⟨rfl, -, -⟩ := threadsParked_twait hno hth hpark
    obtain ⟨i, hi, hbit, htok⟩ := hsome
    rw [twaitMask_toNat]
    refine zeroToks_eq_iff.not.mpr (not_or.mpr ⟨fun h0 => ?_, fun hall => htok (hall i hi hbit)⟩)
    rw [h0, Nat.zero_testBit] at hbit
    cases hbit
theorem twait_goes (hc : warpCtx s (.twait f) = some c) (hr : WarpReady (opTwait f) s c = true) (hno : ∀ (l : Nat) (th : Thread) (m : BitVec 6), c.w.threads[l]? = some th → th.park ≠ some (.twait m))
    (hzero : ∀ i < 6, (f.b.toNat % 64).testBit i = true → Warp_tok c.w i = 0) :
    AnswersWarp (.twait f) s c { c.w with threads := threadsParked c (.twait f) fun th => stepThread (instrLen f.l) th } := by
  obtain ⟨g, hexec, hg⟩ := twait_exec hc hr
  obtain ⟨hk, -, hw, -⟩ := warpCtx_spec hc
  refine ⟨fun w => Warp_updThreads (g w) ((Warp_live (g c.w)).filter (atTwait (g c.w))) unpark, hexec.trans (congrArg _ ?_), ?_⟩
  · refine (twaitExamine_goes (w := g c.w) ?_ fun l th m hth hpark => ?_).trans (updWarp_updWarp ..)
    · simp only [findWarp, findWg_updWarp hk, Option.bind_some, warps_updWarp hw]
    · rw [hg] at hth ⊢
      obtain ⟨rfl, hl, th', hth', rfl⟩ := threadsParked_twait hno hth hpark
      have hmask : zeroToks c.w (f.b.toNat % 64) = f.b.toNat % 64 := zeroToks_eq_iff.mpr (.inr hzero)
      rw [twaitMask_toNat]
      refine ⟨hmask, fun d hd htok => ?_⟩
      obtain ⟨d', hd', rfl⟩ := List.mem_map.mp hd
      have hdue := ready_undue hr (cs_sub hc hl) hth' hd'
      have htoks : laneToks (opTwait f) c l = f.b.toNat % 64 := by
        rw [laneToks, if_pos (by simpa using hl)]
        exact hmask
      rw [htoks] at hdue
      obtain ⟨n, hn : d'.tok = some n⟩ := Option.isSome_iff_exists.mp htok
      simp only [isDue, hn] at hdue ⊢
      exact hdue
  · dsimp only
    rw [hg, Warp_updThreads_congr _ ((Warp_live_nodup _).filter _) (cs_nodup hc) (mem_atTwait hc hno), Warp_updThreads_eq _ _ _ (cs_nodup hc)]
    refine congrArg (fun x => { c.w with threads := x }) (List.ext_getElem? fun l => ?_)
    simp only [threadsParked, threadsParkedWith, List.mapIdx_mapIdx_same, List.getElem?_mapIdx]
    refine Option.map_congr fun th hth => ?_
    by_cases hl : l ∈ c.cs
    · have hpark := ready_unparked hr (cs_sub hc hl) hth
      have hsame : ∀ (x : Thread) (p : Option Park), x.park = none → { { x with park := p } with park := none } = x := fun x p hx => by
        cases x
        cases hx
        rfl
      simp only [hl, if_true, unpark]
      rw [hsame _ _ (by simpa [writeThread, countThread] using hpark)]
      rfl
    · simp only [hl, if_false]

/-- Settles O20. -/
theorem resumeAndTokenWait : Obligations.ResumeAndTokenWait := by
  refine ⟨fun s c f hc hr => ⟨fun hm => ?_, fun l bs u hm hcs hrec => resume_handler hc hr hm hcs hrec⟩, fun s c f hc hr hno => ⟨fun hzero => twait_goes hc hr hno hzero, fun hsome => twait_waits hc hr hno hsome⟩⟩
  exact resume_stub hc hr hm
end

end Sys2Proof.Machine
end

section
/-! Collectives (11 R293, R310, R311). Obligation O21. -/

namespace Sys2Proof.Machine

/-! ### Issue -/

/-- A warp with one more collective in flight (11 R310, R311). -/
def countColl (f : TF) (fill : Bool) (id : Nat) (w : Warp) : Warp :=
  { warpTok w (tokOf f.tok) true with colls := w.colls ++ [{ id := id, fill := fill, tile := f.tr.toNat, tok := tokOf f.tok }] }
theorem warpTok_setThreads (w : Warp) (ths : List Thread) (t : Option Nat) (up : Bool) : warpTok { w with threads := ths } t up = { warpTok w t up with threads := ths } := by cases t <;> rfl
theorem inFlight_updWarp (who : Issuer) (pc : VAddr) (look : Nat) (kind : FlightKind) (s : State) (wg wi : Nat) (g : Warp → Warp) : inFlight who pc look kind (updWarp s wg wi g) = updWarp (inFlight who pc look kind s) wg wi g := rfl
theorem collective_answers {i : Instr} {f : TF} {fill : Bool} {s : State} {c : WCtx} {kind : FlightKind} (hx : exec i s = warpIssue (collective i f fill) s) (hc : warpCtx s i = some c) (hr : WarpReady (collective i f fill) s c = true)
    (he : ∀ u, (collective i f fill).eff c u = updWarp (inFlight (WCtx_iss c) c.pc 0 kind u) c.wg c.wi (countColl f fill u.nextId)) :
    AnswersWith i s c { countColl f fill s.nextId c.w with threads := threadsAfter c i fun _ th => th } (inFlight (WCtx_iss c) c.pc 0 kind) := by
  have hissued : issued (collective i f fill) c s = updWarp s c.wg c.wi (passedWarp c i) := issued_eq _ _ _ rfl
  have hexec : exec i s = .next ((collective i f fill).eff c (issued (collective i f fill) c s)) := hx.trans (warpIssue_ready hc hr)
  refine ⟨fun w => countColl f fill s.nextId (passedWarp c i w), ?_, ?_⟩
  · rw [hexec, he, hissued, inFlight_updWarp, inFlight_updWarp, updWarp_updWarp]
    rfl
  · dsimp only
    rw [passedWarp_eq hc, countColl, warpTok_setThreads]
    rfl
theorem tfill_answers {s : State} {c : WCtx} {f : TF} (hc : warpCtx s (.tfill f) = some c) (hr : WarpReady (opTfill f) s c = true) :
    AnswersWith (.tfill f) s c { warpTok c.w (tokOf f.tok) true with colls := c.w.colls ++ [{ id := s.nextId, fill := true, tile := f.tr.toNat, tok := tokOf f.tok }], threads := threadsAfter c (.tfill f) fun _ th => th }
      (inFlight (WCtx_iss c) c.pc 0 (.collective f.tr.toNat (tokOf f.tok) []
        ((c.cs.flatMap fun l => (List.range (f.b.toNat % 16 + 1)).filterMap fun k => (containerAt c.g.lrec (c.k.tcfg.get f.tr.toNat) c.W f l k).map fun a => (l, f.d.toNat + k, a)).flatMap fun (l, r, a) => (List.range 4).zip (leBytes 4 (vget c.w r l).toNat) |>.map fun (j, b) => (tGbase (c.k.tcfg.get f.tr.toNat) * 4096 + a + j, b)))) :=
  collective_answers rfl hc hr fun _ => rfl
theorem tread_answers {s : State} {c : WCtx} {f : TF} (hc : warpCtx s (.tread f) = some c) (hr : WarpReady (opTread f) s c = true) :
    AnswersWith (.tread f) s c { warpTok c.w (tokOf f.tok) true with colls := c.w.colls ++ [{ id := s.nextId, fill := false, tile := f.tr.toNat, tok := tokOf f.tok }], threads := threadsAfter c (.tread f) fun _ th => th }
      (inFlight (WCtx_iss c) c.pc 0 (.collective f.tr.toNat (tokOf f.tok)
        ((c.cs.flatMap fun l => (List.range (f.b.toNat % 16 + 1)).filterMap fun k => (containerAt c.g.lrec (c.k.tcfg.get f.tr.toNat) c.W f l k).map fun a => (l, f.d.toNat + k, a)).map fun (l, r, a) => ⟨l, r, BitVec.ofNat 64 (tileNat c.k (c.k.tcfg.get f.tr.toNat) a 4)⟩) [])) :=
  collective_answers rfl hc hr fun _ => rfl

/-! ### Completion -/

/-- The self-check of one cause is taken where it is due. -/
theorem softTake_one (s : State) (x : Cause) : softTake s x.toNat x.toNat = if x ∈ s.softErrors then (some x, { s with softErrors := s.softErrors.erase x }) else (none, s) := by
  have hone : ∀ y : Cause, decide (x.toNat ≤ y.toNat ∧ y.toNat ≤ x.toNat) = true ↔ y = x := fun y => by
    rw [decide_eq_true_eq, ← BitVec.toNat_inj]
    omega
  unfold softTake
  by_cases hx : x ∈ s.softErrors
  · obtain ⟨y, hy⟩ := Option.isSome_iff_exists.mp (List.find?_isSome (p := fun y : Cause => decide (x.toNat ≤ y.toNat ∧ y.toNat ≤ x.toNat)).mpr ⟨x, hx, (hone x).mpr rfl⟩)
    have hxy := (hone y).mp (List.find?_some (p := fun y : Cause => decide (x.toNat ≤ y.toNat ∧ y.toNat ≤ x.toNat)) hy)
    subst hxy
    rw [hy, if_pos hx]
  · have hnone : s.softErrors.find? (fun y => decide (x.toNat ≤ y.toNat ∧ y.toNat ≤ x.toNat)) = none :=
      List.find?_eq_none.mpr fun y hy h => hx ((hone y).mp h ▸ hy)
    rw [hnone, if_neg hx]

/-- A warp whose collective is done: its token has fallen. -/
def uncountColl (tok : Option Nat) (n : Nat) (x : Warp) : Warp := { warpTok x tok false with colls := x.colls.filter fun c => !(c.id == n) }
/-- The tile that a `tfill` has written. -/
def filled (tile : Nat) (bytes : List (Nat × Byte)) (k : Workgroup) : Workgroup := if bytes = [] then k else bumpGen { k with tiles := SMap.setAll k.tiles bytes } tile

section
variable {s : State} {n : Nat} {fl : Flight} {tile : Nat} {tok : Option Nat} {wr : List RegWrite} {bytes : List (Nat × Byte)} {wg wi : Nat} {ls : List Nat} {k : Workgroup} {w : Warp}

/-- No thread of the warp waits at `twait`. -/
def NoTwait (w : Warp) : Prop := ∀ (l : Nat) (th : Thread) (m : BitVec 6), w.threads[l]? = some th → th.park ≠ some (.twait m)
/-- A collective that completes, once what its threads hold is known: its warp becomes G, and its tile's bytes are written. -/
theorem collective_completes {u : State} {G : Warp → Warp} (hu : u.wgs = s.wgs) (hk : findWg s wg = some k) (hw : k.warps[wi]? = some w) (hG : NoTwait (G w)) :
    twaitExamine (dropFlight (updWarp (updWg u wg (filled tile bytes)) wg wi G) n) wg wi = updWg (landedFlight n u) wg fun k => Workgroup_updWarp (filled tile bytes k) wi G := by
  have hboth : dropFlight (updWarp (updWg u wg (filled tile bytes)) wg wi G) n = updWg (landedFlight n u) wg fun k => Workgroup_updWarp (filled tile bytes k) wi G := by
    refine congrArg (dropFlight · n) (updWg_updWg u wg _ _ fun k => ?_)
    unfold filled
    split <;> rfl
  rw [hboth]
  refine twaitExamine_waits (w := G w) ?_ fun l th m hth hpark => absurd hpark (hG l th m hth)
  have hku : findWg (landedFlight n u) wg = some k := by
    rw [← hk]
    simp only [findWg, landedFlight, hu]
  rw [findWarp, findWg_updWg _ _ (fun k => Workgroup_updWarp (filled tile bytes k) wi G) (fun k => by simp only [Workgroup_updWarp, filled]; split <;> rfl), hku]
  have hwarps : (filled tile bytes k).warps = k.warps := by
    unfold filled
    split <;> rfl
  simp [Workgroup_updWarp, hwarps, hw]
theorem exec_collectiveCompletion (hf : findFlight s n = some fl) (hkind : fl.kind = .collective tile tok wr bytes) (hwho : fl.who = .warp wg wi ls) (hk : findWg s wg = some k) (hw : k.warps[wi]? = some w) :
    ((∀ x ∈ w.colls, x.id = n → x.fill = true) ∨ 0x13C ∉ s.softErrors → exec (.collectiveCompletion n) s = .next (twaitExamine (dropFlight (updWarp (updWg s wg (filled tile bytes)) wg wi
        fun x => uncountColl tok n ((wr.filter fun r => !w.ended && !w.returned.contains (r.lane / 32)).foldl (fun x r => vset x r.reg r.lane (r.val.setWidth 32)) x)) n) wg wi))
    ∧ ((∃ x ∈ w.colls, x.id = n ∧ x.fill = false) → 0x13C ∈ s.softErrors → w.ended = false →
      exec (.collectiveCompletion n) s = .next (twaitExamine (dropFlight (updWarp (updWg { s with softErrors := s.softErrors.erase 0x13C } wg (filled tile bytes)) wg wi
        fun x => uncountColl tok n (Warp_updThreads x ls fun th => { th with
            deferred := th.deferred ++ [{ cause := 0x13C, addr := 0, lanes := laneMask ls, fpc := fl.pc, tok := some (tok.getD 6), left := 0, engine := false, words := 0, stamp := n }] })) n) wg wi)) := by
  have hwarp : findWarp s wg wi = some w := by simp only [findWarp, hk, Option.bind_some, hw]
  have hevent : exec (.collectiveCompletion n) s = execCollectiveCompletion n s := rfl
  have hid : fl.id = n := by simpa using List.find?_some hf
  have htake : softTake s 0x13C 0x13C = if 0x13C ∈ s.softErrors then (some 0x13C, { s with softErrors := s.softErrors.erase 0x13C }) else (none, s) := softTake_one s 0x13C
  refine ⟨fun hnone => ?_, fun hread hsoft hended => ?_⟩
  · have hno : (if w.colls.any fun c => c.id == n && !c.fill then softTake s 0x13C 0x13C else (none, s)) = (none, s) := by
      obtain hfill | hsoft := hnone
      · refine if_neg (Bool.not_eq_true _ ▸ List.any_eq_false.mpr fun x hx hany => ?_)
        simp only [Bool.and_eq_true, beq_iff_eq, Bool.not_eq_true'] at hany
        exact absurd (hfill x hx hany.1) (by simp [hany.2])
      · rw [htake.trans (if_neg hsoft), ite_self]
    simp only [hevent, execCollectiveCompletion, hf, hkind, hwho, hwarp, Option.any_some, Option.all_some, hno]
    rfl
  · have hyes : (if w.colls.any fun c => c.id == n && !c.fill then softTake s 0x13C 0x13C else (none, s)) = (some 0x13C, { s with softErrors := s.softErrors.erase 0x13C }) := by
      obtain ⟨x, hx, hxid, hfill⟩ := hread
      rw [htake.trans (if_pos hsoft), if_pos (List.any_eq_true.mpr ⟨x, hx, by simp [hxid, hfill]⟩)]
    simp only [hevent, execCollectiveCompletion, hf, hkind, hwho, hwarp, Option.any_some, Option.all_some, hyes, hended, hid]
    rfl
theorem noTwait_of_parks {w v : Warp} (hno : NoTwait w) (h : ∀ l : Nat, v.threads[l]?.map Thread.park = w.threads[l]?.map Thread.park) : NoTwait v := by
  intro l th m hth hpark
  have hl := h l
  rw [hth] at hl
  obtain ⟨th', hth', hp⟩ := Option.map_eq_some_iff.mp hl.symm
  exact hno l th' m hth' (hp.trans hpark)
theorem uncountColl_threads (tok : Option Nat) (n : Nat) (x : Warp) : (uncountColl tok n x).threads = x.threads := by cases tok <;> rfl
theorem foldl_vset_threads (l : List RegWrite) (x : Warp) : (l.foldl (fun x r => vset x r.reg r.lane (r.val.setWidth 32)) x).threads = x.threads := by
  induction l generalizing x with
  | nil => rfl
  | cons r l ih => rw [List.foldl_cons, ih]; rfl
theorem Warp_updThreads_park (w : Warp) (ls : List Nat) (f : Thread → Thread) (hf : ∀ th, (f th).park = th.park) (l : Nat) : (Warp_updThreads w ls f).threads[l]?.map Thread.park = w.threads[l]?.map Thread.park := by
  induction ls generalizing w with
  | nil => rfl
  | cons a r ih =>
    refine (ih (Warp_updThread w a f)).trans ?_
    simp only [Warp_updThread, List.getElem?_modify]
    by_cases h : a = l <;> cases w.threads[l]? <;> simp [h, hf]
/-- Settles O21. -/
theorem collectives : Obligations.Collectives := by
  refine ⟨fun s c f => ⟨tfill_answers, tread_answers⟩, fun s n fl tile tok wr bytes wg wi ls k w hf hkind hwho hk hw hno => ?_⟩
  intro over_
  obtain ⟨hdone, hsoft⟩ := exec_collectiveCompletion hf hkind hwho hk hw
  refine ⟨fun hwr hfill => ?_, fun hb hread => ⟨fun hclean => ?_, fun hdue hended => ?_⟩⟩
  · refine ⟨_, (hdone (.inl hfill)).trans (congrArg _ (collective_completes rfl hk hw (noTwait_of_parks hno fun l => ?_))), ?_⟩
    · rw [uncountColl_threads, foldl_vset_threads]
    · subst hwr
      by_cases hb : bytes = [] <;> simp only [filled, hb, if_true, if_false] <;> rfl
  · refine ⟨_, (hdone (.inr hclean)).trans (congrArg _ (collective_completes rfl hk hw (noTwait_of_parks hno fun l => ?_))), ?_⟩
    · rw [uncountColl_threads, foldl_vset_threads]
    · simp only [filled, hb, if_true]
      rfl
  · refine ⟨_, (hsoft hread hdue hended).trans (congrArg _ (collective_completes rfl hk hw (noTwait_of_parks hno fun l => ?_))), ?_⟩
    · rw [uncountColl_threads]
      exact Warp_updThreads_park w ls (fun th => { th with deferred := th.deferred ++ _ }) (fun _ => rfl) l
    · simp only [filled, hb, if_true]
      rfl
end

end Sys2Proof.Machine
end

section
/-! Waits, decision queues, moves, fences, services and wakes of a cue thread (10 R269, R271, R272, R276, R278, 09 R218, 13 R366, R368). Obligations O42, O43, O45. -/

namespace Sys2Proof.Machine

/-! ### A cue thread in its context -/

section
variable {s : State} {i : Instr} {c : CCtx}
theorem cueCtx_find (hc : cueCtx s i = some c) : findCue s c.iss = some c.c := by
  unfold cueCtx at hc
  split at hc
  · split at hc
    · next k hk =>
      cases hc
      simp only [findCue, hk, Option.map_some]
    · cases hc
  · split at hc
    · next x hx =>
      cases hc
      simp only [findCue, hx, Option.map_some]
    · cases hc
  · cases hc
theorem cueCtx_cue {wg : Nat} (hc : cueCtx s i = some c) (hiss : c.iss = .cue wg) : ∃ k, findWg s wg = some k ∧ c.k = some k ∧ c.c = k.cue ∧ c.g = gridOf s k := by
  unfold cueCtx at hc
  split at hc
  · split at hc
    · next k hk =>
      cases hc
      cases hiss
      exact ⟨k, hk, rfl, rfl, rfl⟩
    · cases hc
  · split at hc
    · cases hc
      cases hiss
    · cases hc
  · cases hc
end
theorem findCue_updCue {s : State} {iss : Issuer} {x : Cue} (h : findCue s iss = some x) (f : Cue → Cue) : findCue (updCue s iss f) iss = some (f x) := by
  cases iss with
  | cue wg =>
    obtain ⟨k, hk, rfl⟩ := Option.map_eq_some_iff.mp h
    exact congrArg (Option.map (·.cue)) ((findWg_updWg s wg (fun k => { k with cue := f k.cue }) fun _ => rfl).trans (congrArg _ hk))
  | mgmt m =>
    obtain ⟨y, hy, rfl⟩ := Option.map_eq_some_iff.mp h
    simp [findCue, updCue, hy]
  | none => cases h
  | warp => cases h
/-- A cue instruction that keeps its PC answers as its effect leaves its thread. -/
theorem ready_cue_parks {i : Instr} {op : COp} {s : State} {c : CCtx} {h : State → State} {x' : Cue} (g : Cue → Cue) (hop : cueOp i = some op) (hc : cueCtx s i = some c) (hr : CueReady op s c = true) (hp : c.pass = true) (hs : op.stay = true)
    (he : op.eff c (updCue s c.iss (stayedCue i)) = h (updCue s c.iss fun x => g (stayedCue i x))) (hx : g (stayedCue i c.c) = x') : AnswersCue i s c x' h := by
  subst hx
  exact ready_cue_stay hop hc hr hp hs (he.trans (congrArg h (updCue_updCue ..).symm))

/-! ### O42: waits -/

theorem cueFalls_none {op : COp} {s : State} {c : CCtx} (hr : CueReady op s c = true) : cueFalls s c.iss (op.drain && c.pass) (if c.pass then op.toks s c else 0) c.c = none := by
  simp only [CueReady, Bool.and_eq_true, Option.isNone_iff_eq_none] at hr
  obtain ⟨⟨⟨-, h⟩, -⟩, -⟩ := hr
  exact h
@[simp] theorem inTrap_updCue (s : State) (iss who : Issuer) (f : Cue → Cue) : inTrap (updCue s iss f) who = inTrap s who := by
  cases who with
  | mgmt m =>
    cases iss with
    | mgmt n =>
      simp only [inTrap, updCue, List.getElem?_modify]
      cases s.mgmt[m]? with
      | none => rfl
      | some x => by_cases h : n = m <;> simp [h]
    | _ => rfl
  | _ => rfl
/-- What a wait of a cue thread asks for does not change as the thread parks. -/
theorem cwaitDone_updCue (s : State) (iss : Issuer) (f : Cue → Cue) (x y : Cue) (h : y.tokens = x.tokens) (m n : Nat) : cwaitDone (updCue s iss f) iss y m n = cwaitDone s iss x m n := by
  simp only [cwaitDone, untrackedCmds, updCue_cmds, Cue_tok, h]
  rfl
section
variable {s : State} {c : CCtx} {f : QF}
theorem cwait_cases (hc : cueCtx s (.cwait f) = some c) (hr : CueReady (opCwait f) s c = true) (hp : c.pass = true) (hb : f.b.toNat < 64) :
    (cwaitDone s c.iss c.c f.b.toNat s.nextId = true → AnswersCue (.cwait f) s c (unparkCue (stayedCue (.cwait f) c.c)) fun t => acquire t c.iss 0x7F)
      ∧ (cwaitDone s c.iss c.c f.b.toNat s.nextId = false → AnswersCue (.cwait f) s c { stayedCue (.cwait f) c.c with park := some (.cwait (BitVec.ofNat 6 f.b.toNat) s.nextId) } id) := by
  have hmask : (BitVec.ofNat 6 f.b.toNat).toNat = f.b.toNat := by
    rw [BitVec.toNat_ofNat]
    exact Nat.mod_eq_of_lt hb
  have hpark : (opCwait f).eff c (updCue s c.iss (stayedCue (.cwait f))) = cwaitExamine (updCue s c.iss fun x => { stayedCue (.cwait f) x with park := some (.cwait (BitVec.ofNat 6 f.b.toNat) s.nextId) }) c.iss := by
    simp only [opCwait, updCue_updCue, updCue_nextId]
  have hcue := findCue_updCue (cueCtx_find hc) fun x => { stayedCue (.cwait f) x with park := some (.cwait (BitVec.ofNat 6 f.b.toNat) s.nextId) }
  have hdone := cwaitDone_updCue s c.iss (fun x => { stayedCue (.cwait f) x with park := some (.cwait (BitVec.ofNat 6 f.b.toNat) s.nextId) }) c.c { stayedCue (.cwait f) c.c with park := some (.cwait (BitVec.ofNat 6 f.b.toNat) s.nextId) } rfl f.b.toNat s.nextId
  refine ⟨fun h => ?_, fun h => ?_⟩
  · refine ready_cue_parks (fun x => unparkCue x) rfl hc hr hp rfl ?_ rfl
    rw [hpark]
    have hdue : (if inTrap (updCue s c.iss fun x => { stayedCue (.cwait f) x with park := some (.cwait (BitVec.ofNat 6 f.b.toNat) s.nextId) }) c.iss then none
        else engineDue { stayedCue (.cwait f) c.c with park := some (.cwait (BitVec.ofNat 6 f.b.toNat) s.nextId) } (cwaitToks f.b.toNat)) = none := by
      have hfalls := cueFalls_none hr
      have htoks : (opCwait f).toks s c = cwaitToks f.b.toNat := if_pos h
      rw [if_pos hp, htoks] at hfalls
      rw [inTrap_updCue]
      by_cases htrap : inTrap s c.iss = true
      · exact if_pos htrap
      · rw [cueFalls, if_neg htrap] at hfalls
        rw [if_neg htrap, engineDue, dueIn_eq_none_iff]
        intro d hd
        obtain ⟨hmem, htok⟩ := List.mem_filter.mp hd
        obtain ⟨d', hd', rfl⟩ := List.mem_map.mp hmem
        obtain ⟨n, hn : d'.tok = some n⟩ := Option.isSome_iff_exists.mp htok
        have hfree := dueIn_eq_none_iff.mp hfalls d' hd'
        simp only [isDue, hn] at hfree ⊢
        exact hfree
    simp only [cwaitExamine, hcue, hmask, hdone, h, hdue, Bool.not_true, Bool.false_eq_true, if_false, updCue_updCue]
    rfl
  · refine ready_cue_parks (fun x => { x with park := some (.cwait (BitVec.ofNat 6 f.b.toNat) s.nextId) }) rfl hc hr hp rfl ?_ rfl
    rw [hpark]
    simp only [cwaitExamine, hcue, hmask, hdone, h]
    rfl
end
/-- Settles O42. -/
theorem cueWaits : Obligations.CueWaits := by
  intro s c f k hp hk
  refine ⟨fun hc hr => ⟨fun hm => ?_, fun hm hleft => ?_, fun hm hleft => ?_⟩, fun hc hr => ⟨fun hd hb => (cwait_cases hc hr hp hb).1 hd, fun hd hb => (cwait_cases hc hr hp hb).2 hd⟩, fun hc hr => ?_⟩
  · exact ready_cue_stay (g := fun x => { x with park := some (.wgbar (f.a.toNat % 16)) }) rfl hc hr hp rfl (if_pos hm)
  · exact ready_cue_stay (g := fun x => { x with park := some .wgbarExit }) rfl hc hr hp rfl (by simp only [opWgbar, hm, hk, hleft, if_false, if_true]; rfl)
  · exact ready_cue_stay (g := unparkCue) rfl hc hr hp rfl (by simp only [opWgbar, hm, hk, hleft, if_false, Bool.false_eq_true]; rfl)
  · exact ready_cue_stay (g := fun x => { x with park := some .cend }) rfl hc hr hp rfl rfl

/-! ### O43: the numbers of flights -/

/-- A workgroup whose cue thread waits at `dqpush`. -/
def pushingWg : Workgroup :=
  { id := 1, grid := 0, lin := 0, st := .resident, core := 0, ctx := 0, image := 0, bases := [], warps := [], cue := { Cue.zero with park := some (.dqpush 0 0) }, tiles := [], tcfg := [], tconf := [], tgen := [], acc := [], phase := [], take := none
    takeAt := 0, takeLate := false, cmig := none, target := none, held := false, taskOn := false, nonRestart := false, vlines := [], vbytes := 0, vdone := false, missing := [], storedTiles := false, storedLocal := false }
/-- Another thread's operation at an execution point, under the number that a flight of this one has too. -/
def otherPoint : Flight := { id := 0, who := .cue 2, pc := 0, look := 0, clk := 0, kind := .exec (.cforage { l := true, d := 0, a := 0, b := 0, g := 4, mod := 0, look := 0, obs := 0, ordr := 0, wid := 4, rsv := 0, ofs := 0 }) [] 0 }
def ownFlight : Flight := { id := 0, who := .cue 1, pc := 0, look := 0, clk := 0, kind := .plain }
def sharedNumber : State := { State.reset with wgs := [pushingWg], flights := [otherPoint, ownFlight] }
/-- Refutes O43: nothing of the pushing thread is on its way, yet where another thread's operation has the number of one of its flights, that operation is executed before the push, and its flight changes. -/
theorem not_queuesAndMoves : ¬ Obligations.QueuesAndMoves := by
  intro h
  obtain ⟨g, hexec, -⟩ := (h.1.2 sharedNumber 1 pushingWg 0 0 rfl rfl (by decide) (by decide)).1 (.inl rfl)
  have hflights : (dqpushExamine sharedNumber 1).flights = [otherPoint, ownFlight] := congrArg State.flights (Host.Outcome.next.inj hexec)
  exact absurd hflights (by decide)

/-! ### O45: fences, services, wakes -/

/-- Settles O45. -/
theorem cueOrdering : Obligations.CueOrdering := by
  intro s c hp
  refine ⟨fun f hc hr => exec_of_cueReady rfl hc hr hp, fun f hc hr => ?_, fun f hc hr => exec_of_cueReady rfl hc hr hp⟩
  intro u q n words posted
  have hexec : exec (.csvc f) s = .next ((opCsvc f).eff c (cueIssued (opCsvc f) c s)) := exec_of_cueReady rfl hc hr hp
  rw [hexec]
  refine ⟨fun hb => ?_, fun hb => ⟨fun g k hg hk => ?_, fun hg => ⟨svcHeader q n 1 0 1 0 0xFFFFFFFF 0, ?_, ?_⟩⟩⟩
  · exact congrArg _ (if_pos (by rw [Bool.not_eq_true']; exact hb))
  · refine congrArg _ ((if_neg (by rw [Bool.not_eq_true', Bool.not_eq_false]; exact hb)).trans ?_)
    simp only [hg, hk]
    rfl
  · simp [svcHeader, leBytes]
  · refine congrArg _ ((if_neg (by rw [Bool.not_eq_true', Bool.not_eq_false]; exact hb)).trans ?_)
    simp only [hg]
    rfl

end Sys2Proof.Machine
end

section
/-! What comes to the device from outside between instructions (13 R350, R354, 14 R405). Obligation O60. -/

namespace Sys2Proof.Machine

/-! ### A posted entry leaves the requests that peers have not answered -/

@[simp] theorem foldl_awaits {α : Type} (l : List α) (f : State → α → State) (s : State) (h : ∀ t x, (f t x).awaits = t.awaits) : (l.foldl f s).awaits = s.awaits := by
  induction l generalizing s with
  | nil => rfl
  | cons x r ih => rw [List.foldl_cons, ih, h]
@[simp] theorem combUse_awaits (s : State) (line : ℕ) (mask : BitVec 128) (key : BitVec 16) : (combUse s line mask key).awaits = s.awaits := by
  simp [combUse]
@[simp] theorem endResv_awaits (s : State) (g : ℕ) (who : Option Agent) : (endResv s g who).awaits = s.awaits := by
  simp [endResv]
@[simp] theorem homeMerge_awaits (s : State) (line : Nat) (mask : BitVec 128) (d : BitVec 1024) (key : BitVec 16) (who : Option Agent) : (homeMerge s line mask d key who).awaits = s.awaits := by
  unfold homeMerge
  split
  · rfl
  · refine (foldl_awaits _ _ _ fun t j => ?_).trans ?_
    · split <;> simp
    · simp
@[simp] theorem homeWrite_awaits (s : State) (pa : Nat) (bs : List Byte) (key : BitVec 16) (who : Option Agent) : (homeWrite s pa bs key who).awaits = s.awaits := by
  simp [homeWrite]
@[simp] theorem setQreg_awaits (s : State) (q : ℕ) (f : ℕ) (v : ℕ) : (setQreg s q f v).awaits = s.awaits := by
  simp [setQreg]
@[simp] theorem chaltRelease_awaits (s : State) (m : ℕ) : (chaltRelease s m).awaits = s.awaits := by
  simp only [chaltRelease]
  (repeat' split) <;> simp [*]
@[simp] theorem wakeOr_awaits (s : State) (target : ℕ) (v : ℕ) : (wakeOr s target v).awaits = s.awaits := by
  unfold wakeOr
  (repeat' split) <;> simp [*]
@[simp] theorem errWrite_awaits (s : State) (bs : List Byte) : (errWrite s bs).awaits = s.awaits := by
  simp [errWrite]
@[simp] theorem errReport_awaits (s : State) : (errReport s).awaits = s.awaits := by
  unfold errReport
  split <;> simp
@[simp] theorem postEntry_awaits (s : State) (bs : List Byte) : (postEntry s bs).awaits = s.awaits := by
  simp only [postEntry]
  (repeat' split) <;> simp [*]
@[simp] theorem postRec_awaits (s : State) (r : TrapRec) (wg : Option ℕ) : (postRec s r wg).awaits = s.awaits := by
  unfold postRec
  split <;> simp
@[simp] theorem postAsync_awaits (s : State) (cause : Cause) (addr : BitVec 64) (wg : Option ℕ) : (postAsync s cause addr wg).awaits = s.awaits := by
  simp [postAsync]
theorem postWalkAt_awaits (s : State) (iss : Issuer) (root : Nat) (cause : Cause) (va : BitVec 64) : (postWalkAt s iss root cause va).awaits = s.awaits := by
  unfold postWalkAt
  (repeat' split) <;> simp
@[simp] theorem noteCause_awaits (s : State) (id : Nat) (cause : Cause) (a : BitVec 64) : (noteCause s id cause a).awaits = s.awaits := by
  unfold noteCause
  (repeat' split) <;> simp [postWalkAt_awaits]
theorem stopCmd_awaits (s : State) (id : Nat) (x : Cause) (a : BitVec 64) : (stopCmd s id x a).awaits = s.awaits := by simp [stopCmd]
theorem answerValues_awaits (s : State) (c : Cmd) : (answerValues s c).awaits = s.awaits := by
  unfold answerValues
  split <;> simp
theorem cmdAnswered_awaits (s : State) (c : Cmd) (x : Option Cause) (reach : Bool) : (cmdAnswered s c x reach).awaits = s.awaits := by
  unfold cmdAnswered
  dsimp only
  split
  · exact answerValues_awaits s c
  · split
    · exact noteCause_awaits ..
    · exact stopCmd_awaits ..
theorem deferLanes_awaits (s : State) (wg wi : Nat) (ls : List Nat) (cause : Cause) (a : BitVec 64) (pc : VAddr) (left : Nat) : (deferLanes s wg wi ls cause a pc left).awaits = s.awaits := updThreads_awaits ..
theorem deferCue_awaits (s : State) (iss : Issuer) (cause : Cause) (a : BitVec 64) (pc : VAddr) (left : Nat) : (deferCue s iss cause a pc left).awaits = s.awaits := updCue_awaits ..

/-! ### O60 -/

theorem coreBars_none (s : State) : coreBars s none = s := by
  have hnone : s.wgs.filter (fun k => some k.core == (none : Option Nat)) = [] := List.filter_eq_nil_iff.mpr fun k _ => by simp
  rw [coreBars, hnone]
  rfl
theorem step_of_done {s t : State} (h : planOf (begin_ s) (chosen s) = .done t) : step s = .next (stepEndPlain s t) := by
  simp only [step, h]
  rfl
/-- An answer takes its request from those awaited. -/
theorem answered_takes {s : State} {tag : Nat} {x : Await} (hx : s.awaits.find? (fun a => a.tag == tag) = some x) (hcore : x.core = none) (hcmd : x.cmd = none) : (answered s tag).awaits = s.awaits.filter fun a => a.tag != tag := by
  simp only [answered, hx, hcmd, hcore, coreBars_none]
  split
  · rfl
  · split
    · exact deferLanes_awaits ..
    · exact postAsync_awaits ..
    · exact deferCue_awaits ..
theorem answered_takes_command {s : State} {tag id : Nat} {x : Await} {c : Cmd} (hx : s.awaits.find? (fun a => a.tag == tag) = some x) (hcmd : x.cmd = some id) (hc : findCmd s id = some c) (hfollow : copyFollows s c = true) :
    (answered s tag).awaits = s.awaits.filter fun a => a.tag != tag := by
  have hc' : findCmd { s with awaits := s.awaits.filter (fun a => a.tag != tag), fresh := s.fresh + 1 } id = some c := hc
  simp only [answered, hx, hcmd, hc', hfollow, Bool.not_true, Bool.and_false, Bool.false_eq_true, if_false]
  exact cmdAnswered_awaits ..
/-- A held access is made as its event makes it. -/
theorem serveHeld_of_event (s t : State) : (∀ pa n own, exec (.hostRead pa n own) s = .next t → serveHeld (.hostRead pa n own) s = t) ∧ (∀ pa data, exec (.hostWrite pa data) s = .next t → serveHeld (.hostWrite pa data) s = t)
    ∧ (∀ o n v, exec (.registerWrite o n v) s = .next t → serveHeld (.regWrite o n v) s = t) ∧ (∀ k v, exec (.mwakeWrite k v) s = .next t → serveHeld (.mwakeWrite k v) s = t)
    ∧ (∀ q v, exec (.queueWakeWrite q v) s = .next t → serveHeld (.wakeWrite q v) s = t)
    ∧ (∀ src pa n, exec (.readMsg src pa n) s = .next t → serveHeld (.read src pa n) s = t) ∧ (∀ src pa data, exec (.writeMsg src pa data) s = .next t → serveHeld (.write src pa data) s = t)
    ∧ ∀ src pa wid float aop v, exec (.atomicMsg src pa wid float aop v) s = .next t → serveHeld (.atomic src pa wid float aop v) s = t := by
  have hserve : ∀ o : Host.Outcome State Fault Refusal, o = .next t → (match o with
      | .next t => t
      | _ => s) = t := fun o h => by rw [h]
  exact ⟨fun _ _ _ => hserve _, fun _ _ => hserve _, fun _ _ _ => hserve _, fun _ _ => hserve _, fun _ _ => hserve _, fun _ _ _ => hserve _, fun _ _ _ => hserve _, fun _ _ _ _ _ _ => hserve _⟩
/-- Settles O60. -/
theorem outsideActs : Obligations.OutsideActs := by
  refine ⟨fun s tag h => step_of_done (by rw [h]; rfl), fun s c a h => step_of_done (by rw [h]; rfl), fun s h => step_of_done (by rw [h]; rfl), fun s a h => step_of_done (by rw [h]; rfl), serveHeld_of_event,
    fun s tag x => answered_takes, fun s tag id x c => answered_takes_command, fun s g h => step_of_done (by rw [h]; rfl), fun s g c hcap hdir htable => ⟨_, ?_, rfl⟩, fun s c a hclass => if_neg hclass⟩
  simp only [entryFound, hcap, hdir, htable, if_true]

end Sys2Proof.Machine
end

section
/-! What a step runs, and the clause headers it enters (02 R26, R27, R29, 07 R147 to R157, 10 R244). Obligations O1 and O30. -/

namespace Sys2Proof.Machine

/-! ### The state in which a step is taken -/

section
variable (s : State)
theorem begin_fields : (begin_ s).wgs = s.wgs ∧ (begin_ s).grids = s.grids ∧ (begin_ s).icache = s.icache ∧ (begin_ s).mgmt = s.mgmt ∧ (begin_ s).mregs = s.mregs := by
  unfold begin_ streamTick
  dsimp only
  (repeat' split) <;> exact ⟨rfl, rfl, rfl, rfl, rfl⟩
@[simp] theorem begin_wgs : (begin_ s).wgs = s.wgs := (begin_fields s).1
@[simp] theorem begin_grids : (begin_ s).grids = s.grids := (begin_fields s).2.1
@[simp] theorem begin_icache : (begin_ s).icache = s.icache := (begin_fields s).2.2.1
@[simp] theorem begin_mgmt : (begin_ s).mgmt = s.mgmt := (begin_fields s).2.2.2.1
@[simp] theorem begin_mregs : (begin_ s).mregs = s.mregs := (begin_fields s).2.2.2.2
@[simp] theorem findWg_begin (wg : Nat) : findWg (begin_ s) wg = findWg s wg := by simp only [findWg, begin_wgs]
@[simp] theorem gridOf_begin (k : Workgroup) : gridOf (begin_ s) k = gridOf s k := by simp only [gridOf, findGrid, begin_grids]
@[simp] theorem pieceAt_begin (u : Nat) (asid : BitVec 16) (pc : Nat) : pieceAt (begin_ s) u asid pc = pieceAt s u asid pc := by simp only [pieceAt, findILine, begin_icache]
@[simp] theorem issuerWg_begin (iss : Issuer) : issuerWg (begin_ s) iss = issuerWg s iss := by cases iss <;> simp only [issuerWg, findWg_begin]
@[simp] theorem findCue_begin (iss : Issuer) : findCue (begin_ s) iss = findCue s iss := by cases iss <;> simp only [findCue, findWg_begin, begin_mgmt]
@[simp] theorem fetchUnit_begin (iss : Issuer) : fetchUnit (begin_ s) iss = fetchUnit s iss := by cases iss <;> simp only [fetchUnit, issuerWg_begin]
@[simp] theorem spaceOf_begin (iss : Issuer) : spaceOf (begin_ s) iss = spaceOf s iss := by
  have hgrid : gridOf (begin_ s) = gridOf s := funext fun k => gridOf_begin s k
  simp only [spaceOf, issuerWg_begin, hgrid, mreg, begin_mregs]
@[simp] theorem cueRec_begin (iss : Issuer) : cueRec (begin_ s) iss = cueRec s iss := by
  have hgrid : gridOf (begin_ s) = gridOf s := funext fun k => gridOf_begin s k
  simp only [cueRec, issuerWg_begin, hgrid]
end

/-! ### What stands at a PC -/

theorem aheadOf_header {s : State} {unit pc : Nat} {asid : BitVec 16} {st : Stream} {b : List Byte} (h : pieceAt s unit asid pc = .bytes b) : aheadOf s unit asid st pc none = .header (leWord b) := by simp only [aheadOf, h]
theorem leWord_four (b0 b1 b2 b3 : Byte) : leWord [b0, b1, b2, b3] = wordOf b0 b1 b2 b3 := by
  have h0 := b0.isLt
  have h1 := b1.isLt
  have h2 := b2.isLt
  refine BitVec.eq_of_toNat_eq ?_
  simp only [leWord, wordOf, leNat, BitVec.toNat_ofNat, BitVec.toNat_append]
  rw [← Nat.shiftLeft_add_eq_or_of_lt h2, ← Nat.shiftLeft_add_eq_or_of_lt h1, ← Nat.shiftLeft_add_eq_or_of_lt h0]
  have h3 := b3.isLt
  simp only [Nat.shiftLeft_eq]
  omega
/-- What a stream's cache holds at a PC inside a clause is the instruction that the bytes decode to. -/
theorem aheadOf_fetched {s : State} {unit pc : Nat} {asid : BitVec 16} {st : Stream} {cl : Clause} {i : Instr} (h : Fetched s unit asid st pc cl.left i) : aheadOf s unit asid st pc (some cl) = .instr i := by
  obtain ⟨b, hb, hlen, hdec⟩ := h
  obtain ⟨b0, b1, b2, b3, rfl⟩ := List.length_eq_four.mp hlen
  by_cases hlong : ((wordOf b0 b1 b2 b3).getLsbD 31 && opcodeLegal st (wordOf b0 b1 b2 b3)) = true
  · obtain hone | ⟨hleft, b', hb', htwo⟩ := hdec
    · simp only [decode, hlong, if_true] at hone
      cases hone
    · simp only [aheadOf, hb, leWord_four, hlong, if_true, hb', decodeAt, htwo, if_neg (by omega : ¬ cl.left < 2)]
  · have hshort : ∀ r, decode st ([b0, b1, b2, b3] ++ r) = .ok (Sys2Proof.decodeWords st (wordOf b0 b1 b2 b3) none, r) := fun r => by simp only [List.cons_append, List.nil_append, decode, if_neg hlong]
    have hi : Sys2Proof.decodeWords st (wordOf b0 b1 b2 b3) none = i := by
      obtain hone | ⟨-, b', -, htwo⟩ := hdec
      · exact congrArg Prod.fst (Except.ok.inj ((hshort []).symm.trans hone))
      · exact congrArg Prod.fst (Except.ok.inj ((hshort b').symm.trans htwo))
    have hat : decodeAt st [b0, b1, b2, b3] = .instr i := by
      rw [← hi]
      simp only [decodeAt, show decode st [b0, b1, b2, b3] = _ from hshort []]
    simp only [aheadOf, hb, leWord_four, if_neg hlong, hat]

/-! ### O1: the plan of a warp's port -/

theorem waitMask_started {cl : Clause} (h : cl.started = true) : waitMask (some cl) = 0 := by
  simp only [Clause.started, Bool.or_eq_true, Bool.not_eq_true', beq_iff_eq] at h
  rcases h with h | h <;> simp [waitMask, h]
/-- A lane that is ready has something ahead of it. -/
theorem ahead_of_ready {s : State} {g : Grid} {k : Workgroup} {w : Warp} {wi port l : Nat} (h : l ∈ readyLanes s g k w wi port) : (laneAhead s g k w port l).isSome = true := by
  unfold readyLanes at h
  split at h
  · cases h
  · exact (List.mem_filter.mp (List.mem_filter.mp h).1).2
theorem voteA_sub {w : Warp} {ls : List Nat} {l : Nat} (h : l ∈ voteA w ls) : l ∈ ls := by
  unfold voteA at h
  dsimp only at h
  split at h
  · unfold sameGroup at h
    split at h
    · exact (List.mem_filter.mp h).1
    · cases h
  · cases h
section
variable {s : State} {g : Grid} {k : Workgroup} {w : Warp} {wg wi port l : Nat} {ls : List Nat} {th : Thread}
/-- What a ready lane has ahead of it is what its stream's cache holds. -/
theorem laneAhead_ready (hready : (laneAhead s g k w port l).isSome = true) (hth : w.threads[l]? = some th) {a : Ahead} (ha : aheadOf s (k.core / 2) g.asid .warp th.pc.toNat th.clause = a) : laneAhead s g k w port l = some a := by
  subst ha
  simp only [laneAhead, hth] at hready ⊢
  split at hready
  · cases hready
  · next hn =>
    rw [if_neg hn]
    split at hready <;> simp_all
/-- A group whose lines all stand in the core brings none back before it issues. -/
theorem refill_none {t : State} {lanes : List Nat} {i : Instr} (hcur : t.cur = .warp wg wi lanes) (hk : findWg t wg = some k) (hmiss : k.missing = []) : ((warpCtx t i).bind fun c => groupRefill t c i) = none := by
  cases hc : warpCtx t i with
  | none => rfl
  | some c =>
    have hwg : c.k = k := by
      obtain ⟨hck, -⟩ := warpCtx_spec hc
      have hcwg : c.wg = wg := by
        unfold warpCtx at hc
        rw [hcur] at hc
        dsimp only at hc
        split at hc
        · cases hc
        · split at hc
          · cases hc
            rfl
          · cases hc
      rw [hcwg, hk] at hck
      exact (Option.some.inj hck).symm
    simp only [Option.bind_some, groupRefill, warpMissing, hwg, hmiss, if_true]
theorem planGroup_instr {i : Instr} (hk : findWg s wg = some k) (hmiss : k.missing = []) (hahead : laneAhead s g k w s.port l = some (.instr i)) (hwait : waitMask th.clause = 0) :
    planGroup s g k w wg wi (l :: ls) th = .run i (updWarp { s with cur := .warp wg wi (l :: ls) } wg wi fun x => { x with view := viewOf s.clk (l :: ls) w }) := by
  have hrefill := refill_none (t := updWarp { s with cur := .warp wg wi (l :: ls) } wg wi fun x => { x with view := viewOf s.clk (l :: ls) w }) (i := i) (wi := wi) rfl
    (findWg_updWarp (s := { s with cur := .warp wg wi (l :: ls) }) hk _) hmiss
  simp only [planGroup, List.head?_cons, Option.bind_some, hahead, hwait, ne_eq, not_true, false_and, if_false]
  rw [hrefill]
theorem planOn_group {pick : Warp → List Nat → List Nat} (hk : findWg s wg = some k) (hst : k.st = .resident) (hg : gridOf s k = some g) (hw : k.warps[wi]? = some w) (hpick : pick w (readyLanes s g k w wi port) = l :: ls) (hth : w.threads[l]? = some th) :
    planOn s wg wi port pick = planGroup { s with port := port } g k w wg wi (l :: ls) th := by
  simp only [planOn, hk, hg, hw, hst, ne_eq, not_true, if_false, hpick, List.head?_cons, Option.bind_some, hth]
/-- A group at an instruction past its clause's wait runs it, in the state in which it issues on its port. -/
theorem planOn_runs {pick : Warp → List Nat → List Nat} {cl : Clause} {i : Instr} (hk : findWg s wg = some k) (hst : k.st = .resident) (hmiss : k.missing = []) (hg : gridOf s k = some g) (hw : k.warps[wi]? = some w)
    (hpick : pick (w) (readyLanes (begin_ s) g k w wi port) = l :: ls) (hsub : l ∈ readyLanes (begin_ s) g k w wi port) (hth : w.threads[l]? = some th) (hcl : th.clause = some cl) (hstart : cl.started = true)
    (hf : Fetched s (k.core / 2) g.asid .warp th.pc.toNat cl.left i) : planOn (begin_ s) wg wi port pick = .run i (atPort s wg wi port w (l :: ls)) := by
  have hahead : laneAhead (begin_ s) g k w port l = some (.instr i) := by
    refine laneAhead_ready (ahead_of_ready hsub) hth ?_
    rw [hcl]
    refine aheadOf_fetched ?_
    simpa only [Fetched, pieceAt_begin] using hf
  rw [planOn_group (by rw [findWg_begin]; exact hk) hst (by rw [gridOf_begin]; exact hg) hw hpick hth]
  exact planGroup_instr (s := { begin_ s with port := port }) ((findWg_begin s wg).trans hk) hmiss hahead (by rw [hcl]; exact waitMask_started hstart)
end
theorem step_of_run {s r : State} {i : Instr} (h : planOf (begin_ s) (chosen s) = .run i r) : step s = match exec i r with
    | .next t => .next (stepEnd s i r t)
    | .fault x => .fault x
    | .refused x => .refused x := by
  simp only [step, h]
  rfl

/-! ### O1: the plan of a cue thread -/

theorem waitHolds_started {cl : Clause} {tokens : SMap 6} (h : cl.started = true) : waitHolds tokens cl = true := by
  simp only [Clause.started, Bool.or_eq_true, Bool.not_eq_true', beq_iff_eq] at h
  rcases h with h | h <;> simp [waitHolds, h, maskList]
theorem planCue_instr {s : State} {iss : Issuer} {c : Cue} {i : Instr} (hcue : findCue s iss = some c) (hready : cueReady s iss c = true) (hmask : waitMask c.clause = 0)
    (hwait : ∀ cl, c.clause = some cl → waitHolds c.tokens cl = true) (hahead : cueAhead s iss c = .instr i) (hrefill : ((cueCtx { s with cur := iss } i).bind fun x => cueRefill { s with cur := iss } x i) = none) : planCue s iss = .run i { s with cur := iss } := by
  have hpark : ¬ c.park = some .cend := fun h => by simp [cueReady, h] at hready
  have hdue : cueDue s iss c (waitMask c.clause) = none := if_pos hmask
  have hacquire : waitAcquire { s with cur := iss } iss c.clause = { s with cur := iss } := if_pos hmask
  unfold planCue
  rw [hcue]
  dsimp only
  rw [if_neg hpark, if_neg (by simp [hready]), if_neg (by cases hcl : c.clause with
    | none => simp
    | some cl => simp [hwait cl hcl]), hahead]
  dsimp only
  rw [hdue]
  dsimp only
  rw [hacquire, hrefill]
/-- A cue thread whose lines all stand in the core brings none back before it issues. -/
theorem cueRefill_none {s : State} {iss : Issuer} {i : Instr} (hcur : s.cur = iss) (hmiss : ∀ k, issuerWg s iss = some k → k.missing = []) : ((cueCtx s i).bind fun x => cueRefill s x i) = none := by
  cases hc : cueCtx s i with
  | none => rfl
  | some x =>
    have hk : ∀ k, x.k = some k → k.missing = [] := fun k hk => by
      unfold cueCtx at hc
      split at hc
      · next wg hwg =>
        split at hc
        · next k' hk' =>
          cases hc
          cases hk
          exact hmiss k (by rw [← hcur, hwg]; exact hk')
        · cases hc
      · split at hc
        · cases hc
          cases hk
        · cases hc
      · cases hc
    simp only [Option.bind_some, cueRefill]
    split
    · next k g hxk hxg => simp only [cueMissing, hk k hxk, if_true]
    · rfl
/-- A cue thread at an instruction past its clause's wait runs it. -/
theorem planCue_runs {s : State} {iss : Issuer} {c : Cue} {cl : Clause} {i : Instr} (hcue : findCue s iss = some c) (hready : cueReady (begin_ s) iss c = true) (hmiss : ∀ k, issuerWg s iss = some k → k.missing = [])
    (hcl : c.clause = some cl) (hstart : cl.started = true) (hf : Fetched s (fetchUnit s iss) (spaceOf s iss).1 .cue c.pc.toNat cl.left i) : planCue (begin_ s) iss = .run i (atIssue s iss) := by
  have hahead : cueAhead (begin_ s) iss c = .instr i := by
    rw [cueAhead, hcl]
    refine aheadOf_fetched ?_
    simpa only [Fetched, pieceAt_begin, fetchUnit_begin, spaceOf_begin] using hf
  refine planCue_instr ((findCue_begin s iss).trans hcue) hready (by rw [hcl]; exact waitMask_started hstart) (fun cl' h => ?_) hahead (cueRefill_none rfl fun k hk => hmiss k ?_)
  · obtain rfl := Option.some.inj (hcl.symm.trans h)
    exact waitHolds_started hstart
  · rw [← issuerWg_begin]
    cases iss <;> exact hk

/-- Settles O1. -/
theorem stepRunsInstruction : Obligations.StepRunsInstruction := by
  refine ⟨fun s wg wi port k g w l ls th cl i hch hk hst hmiss hg hw hgrp hth hcl hstart hf => ?_, fun s wg wi lanes first ready k g w l ls th cl i hch hk hst hmiss hg hw hgrp hth hcl hstart hf => ?_,
    fun s iss c cl i hch hcue hready hmiss hcl hstart hf => ?_⟩
  · have hplan : planOf (begin_ s) (chosen s) = .run i (atPort s wg wi port w (l :: ls)) := by
      rw [hch]
      exact planOn_runs hk hst hmiss hg hw hgrp (voteA_sub (by rw [show voteA w _ = l :: ls from hgrp]; simp)) hth hcl hstart hf
    exact (step_of_run hplan).trans rfl
  · have hplan : planOf (begin_ s) (chosen s) = .run i (atPort s wg wi 1 w (l :: ls)) := by
      rw [hch]
      have hl : l ∈ lanes.filter (readyLanes (begin_ s) g k w wi 1).contains := by rw [hgrp]; simp
      exact planOn_runs (pick := fun _ r => lanes.filter r.contains) hk hst hmiss hg hw hgrp (by simpa using (List.mem_filter.mp hl).2) hth hcl hstart hf
    exact (step_of_run hplan).trans rfl
  · have hplan : planOf (begin_ s) (chosen s) = .run i (atIssue s iss) := by
      obtain ⟨wg, rfl, hch⟩ | ⟨m, rfl, hch⟩ := hch <;> rw [hch] <;> exact planCue_runs hcue hready hmiss hcl hstart hf
    exact (step_of_run hplan).trans rfl

/-! ### O30: headers that are not entered -/

theorem mem_of_firstReason {l : List (Bool × Nat)} {x : Nat} (h : firstReason l = some x) : x ∈ l.map Prod.snd := by
  induction l with
  | nil => cases h
  | cons a r ih =>
    obtain ⟨c, n⟩ := a
    cases c
    · exact List.mem_cons_of_mem _ (ih h)
    · cases h
      simp
/-- A header's own causes are none of the cut record's. -/
theorem headerCause_ne {cue : Bool} {n : Nat} {h : Word} {c : Cause} (hc : headerCause cue n h = some c) : c ≠ 0x066 := by
  obtain ⟨x, hx, rfl⟩ := Option.map_eq_some_iff.mp hc
  have hmem := mem_of_firstReason hx
  simp only [List.map_cons, List.map_nil] at hmem
  revert hmem
  cases cue
  · exact fun hmem => (by decide : ∀ y ∈ [0x002 + 0, 0x001 + 0, 0x003 + 0, 0x062], BitVec.ofNat 9 y ≠ 0x066) x hmem
  · exact fun hmem => (by decide : ∀ y ∈ [0x002 + 0x10, 0x001 + 0x10, 0x003 + 0x10, 0x062], BitVec.ofNat 9 y ≠ 0x066) x hmem
theorem enterCause_header {s : State} {wg : Nat} {r : LaunchRec} {cue inStub : Bool} {h : Word} {c : Cause} (hc : headerCause cue r.cutcnt h = some c) : enterCause s wg r cue inStub h = some c := by simp only [enterCause, hc]
theorem postCut_ne {s : State} {wg n : Nat} {r : LaunchRec} {c : Cause} (h : c ≠ 0x066) : postCut s wg r n c = s := if_pos h
theorem planGroup_header {s : State} {g : Grid} {k : Workgroup} {w : Warp} {wg wi l : Nat} {ls : List Nat} {th : Thread} {h : Word} {c : Cause} (hahead : laneAhead s g k w s.port l = some (.header h)) (hc : headerCause false g.lrec.cutcnt h = some c) :
    planGroup s g k w wg wi (l :: ls) th = .done (takeWarp s wg wi (l :: ls) { cause := c, kind := 0, fpc := th.pc.toNat, rpc := th.pc.toNat, lanes := laneMask (l :: ls) }) := by
  simp only [planGroup, List.head?_cons, Option.bind_some, hahead, enterCause_header hc, postCut_ne (headerCause_ne hc)]
theorem planCue_header {s : State} {wg : Nat} {x : Cue} {h : Word} {c : Cause} (hcue : findCue s (.cue wg) = some x) (hready : cueReady s (.cue wg) x = true) (hcl : x.clause = none) (hahead : cueAhead s (.cue wg) x = .header h)
    (hc : headerCause true (cueRec s (.cue wg)).cutcnt h = some c) : planCue s (.cue wg) = .done (takeCue s (.cue wg) { cause := c, kind := 0, fpc := x.pc.toNat, rpc := x.pc.toNat }) := by
  have hpark : ¬ x.park = some .cend := fun h => by simp [cueReady, h] at hready
  unfold planCue
  rw [hcue]
  dsimp only
  rw [if_neg hpark, if_neg (by simp [hready]), hcl, if_neg (by simp), hahead]
  dsimp only
  rw [enterCause_header hc]
  dsimp only
  rw [postCut_ne (headerCause_ne hc)]

/-! ### O30: headers that are entered -/

/-- A step ends with the streams at sound headers entering their clauses. -/
theorem step_enters {s t : State} (h : step s = .next t) : ∃ u, t = enterAll u := by
  unfold step at h
  split at h
  · exact ⟨_, (Host.Outcome.next.inj h).symm⟩
  · split at h
    · exact ⟨_, (Host.Outcome.next.inj h).symm⟩
    · cases h
    · cases h
/-- A thread after it has entered the clause of a sound header that marks no cut. -/
def enteredThread (tokens : SMap 6) (h : Word) (th : Thread) : Thread :=
  { th with pc := th.pc + 4, clause := some {
      hdr := th.pc, eng := fld h 6 4, wait := fld h 12 7, left := fldN h 3 0, len := fldN h 3 0, cut := false, strict := false, cutix := fld h 31 16, first := true,
      waited := (List.range 6).all fun j => !(fld h 12 7).getLsbD j || tokens.get j == 0 } }
section
variable {u : State} {k : Workgroup} {g : Grid} {w : Warp} {th : Thread} {b : List Byte}
/-- What becomes of a thread of a warp as its streams enter their clauses, before its WAIT is looked at. -/
def enterOnly (u : State) (g : Grid) (k : Workgroup) (w : Warp) (th : Thread) : Thread :=
  if w.ended || !atHeader th then th
  else match entered u (k.core / 2) g.asid th.pc th.clause fun h => (enterCause u k.id g.lrec false (stubOf th).isSome h).isNone with
    | some h => enterThread h (strictOf u k.id g.lrec h) th
    | none => th
theorem enterWarp_eq : enterWarp u g k w = { w with threads := w.threads.map (enterOnly u g k w) } := by
  unfold enterWarp
  by_cases hidle : (w.ended || !w.threads.any atHeader) = true
  · rw [if_pos hidle]
    have hsame : w.threads.map (enterOnly u g k w) = w.threads := by
      refine (List.map_congr_left fun th hth => ?_).trans (List.map_id _)
      refine if_pos ?_
      simp only [Bool.or_eq_true, Bool.not_eq_true', List.any_eq_false] at hidle ⊢
      exact hidle.imp_right fun h => by simpa using h th hth
    rw [hsame]
  · rw [if_neg hidle]
    simp only [Bool.or_eq_true, not_or, Bool.not_eq_true] at hidle
    have hend : w.ended = false := hidle.1
    refine congrArg (fun x => { w with threads := x }) (List.map_congr_left fun th _ => ?_)
    simp only [enterOnly, hend, Bool.false_or] <;> rfl
theorem latchWarp_eq : latchWarp w = { w with threads := w.threads.map fun th => { th with clause := latchClause w.tokens th.clause } } := by
  unfold latchWarp
  split
  · rfl
  · next hno =>
    have hsame : (w.threads.map fun th => { th with clause := latchClause w.tokens th.clause }) = w.threads := by
      refine (List.map_congr_left fun th hth => ?_).trans (List.map_id _)
      have hth' : latchClause w.tokens th.clause = th.clause := by
        by_contra hne
        exact hno (List.any_eq_true.mpr ⟨th, hth, by simpa using hne⟩)
      simp only [hth', id]
    rw [hsame]
/-- A thread after the streams have entered their clauses and their waits have been looked at. -/
def enterTh (u : State) (g : Grid) (k : Workgroup) (w : Warp) (th : Thread) : Thread := { enterOnly u g k w th with clause := latchClause w.tokens (enterOnly u g k w th).clause }
theorem enterWarp_latch : latchWarp (enterWarp u g k w) = { w with threads := w.threads.map (enterTh u g k w) } := by
  rw [latchWarp_eq, enterWarp_eq]
  simp only [List.map_map]
  rfl
@[simp] theorem latchClause_isNone (tokens : SMap 6) (c : Option Clause) : (latchClause tokens c).isNone = c.isNone := by simp [latchClause]
/-- A thread still at a header after the streams have entered their clauses was there, and its stream did not enter. -/
theorem atHeader_enterTh (h : atHeader (enterTh u g k w th) = true) : atHeader th = true ∧ enterOnly u g k w th = th := by
  have hx : atHeader (enterOnly u g k w th) = true := by
    have heq : atHeader (enterTh u g k w th) = atHeader (enterOnly u g k w th) := by
      unfold atHeader
      rw [show (enterTh u g k w th).clause.isNone = (enterOnly u g k w th).clause.isNone from latchClause_isNone _ _]
      rfl
    exact heq ▸ h
  have hsame : enterOnly u g k w th = th := by
    unfold enterOnly at hx ⊢
    split
    · rfl
    · next hn =>
      rw [if_neg hn] at hx
      split at hx
      · cases hx
      · rfl
  exact ⟨hsame ▸ hx, hsame⟩
/-- A WAIT holds where each token it names reads zero. -/
theorem waits_all (tokens : SMap 6) (m : BitVec 6) : ((maskList m.toNat 6).all fun i => decide (tokens.get i = 0)) = (List.range 6).all fun j => !m.getLsbD j || tokens.get j == 0 := by
  rw [maskList, List.all_filter]
  rfl
theorem enterTh_sound (hend : w.ended = false) (hat : atHeader th = true) (hb : pieceAt u (k.core / 2) g.asid th.pc.toNat = .bytes b) (hc : headerCause false g.lrec.cutcnt (leWord b) = none) (hcut : (leWord b).getLsbD 13 = false) :
    enterTh u g k w th = enteredThread w.tokens (leWord b) th := by
  have hcl : th.clause = none := by
    simp only [atHeader, Bool.and_eq_true, Option.isNone_iff_eq_none] at hat
    exact hat.1.1
  have hcause : enterCause u k.id g.lrec false (stubOf th).isSome (leWord b) = none := by simp only [enterCause, hc, hcut, Bool.not_false, if_true]
  have hent : entered u (k.core / 2) g.asid th.pc th.clause (fun h => (enterCause u k.id g.lrec false (stubOf th).isSome h).isNone) = some (leWord b) := by simp [entered, hcl, hb, hcause]
  have honly : enterOnly u g k w th = enterThread (leWord b) false th := by
    have hstrict : strictOf u k.id g.lrec (leWord b) = false := by simp only [strictOf, hcut, Bool.false_and]
    simp only [enterOnly, hend, hat, Bool.not_true, Bool.or_self, Bool.false_eq_true, if_false, hent, hstrict]
  rw [enterTh, honly]
  have hlatch : latchClause w.tokens (some (clauseOf th.pc (leWord b) false)) = (enteredThread w.tokens (leWord b) th).clause := by
    have hwaits := waits_all w.tokens (fld (leWord b) 12 7)
    simp only [latchClause, Option.map_some, waitHolds, clauseOf, hwaits, hcut, Bool.not_true, Bool.false_or, Bool.not_false, Bool.true_and, enteredThread]
    split
    · next h => simp only [h]
    · next h => simp only [h]
  simp only [enterThread, hcut, Bool.false_and, Bool.false_eq_true, if_false, hlatch]
  rfl
end

/-- Settles O30. -/
theorem stepEntersClause : Obligations.StepEntersClause := by
  refine ⟨fun s wg wi port k g w l ls th b c hch hk hst hg hw hgrp hth hcl hb hc => ?_, fun s wg x b c hch hcue hready hcl hb hc => ?_, fun s t k g w th b hstep hk hst hg hw hend hth hat hb hc => ?_,
    fun u n i l k g w th b hk hst hg hw hend hth hat hb hc hcut => ?_⟩
  · refine step_of_done ?_
    rw [hch]
    have hahead : laneAhead (begin_ s) g k w port l = some (.header (leWord b)) := by
      refine laneAhead_ready (ahead_of_ready (voteA_sub (by rw [show voteA w (readyLanes (begin_ s) g k w wi port) = l :: ls from hgrp]; simp))) hth ?_
      rw [hcl]
      exact aheadOf_header (by rw [pieceAt_begin]; exact hb)
    exact (planOn_group ((findWg_begin s wg).trans hk) hst ((gridOf_begin s k).trans hg) hw hgrp hth).trans (planGroup_header (s := { begin_ s with port := port }) hahead hc)
  · refine step_of_done ?_
    rw [hch]
    refine planCue_header ((findCue_begin s _).trans hcue) hready hcl ?_ (by rw [cueRec_begin]; exact hc)
    rw [cueAhead, hcl]
    exact aheadOf_header (by rw [pieceAt_begin, fetchUnit_begin, spaceOf_begin]; exact hb)
  · obtain ⟨u, rfl⟩ := step_enters hstep
    obtain ⟨k0, -, rfl⟩ := List.mem_map.mp hk
    by_contra hcut
    rw [Bool.not_eq_true] at hcut
    by_cases hst0 : k0.st = .resident
    · cases hg0 : gridOf u k0 with
      | none =>
        simp only [hst0, hg0, ne_eq, not_true, if_false] at hg
        exact absurd (hg0.symm.trans hg) (by simp)
      | some g0 =>
        simp only [hst0, hg0, ne_eq, not_true, if_false] at hg hw hb
        obtain rfl : g0 = g := Option.some.inj (hg0.symm.trans hg)
        obtain ⟨w0, -, rfl⟩ := List.mem_map.mp hw
        rw [enterWarp_latch] at hend hth
        obtain ⟨th0, -, rfl⟩ := List.mem_map.mp hth
        obtain ⟨hat0, hsame⟩ := atHeader_enterTh hat
        have hpc : (enterTh u g0 k0 w0 th0).pc = th0.pc := by rw [enterTh, hsame]
        rw [hpc] at hb
        have hent : enterTh u g0 k0 w0 th0 = enteredThread w0.tokens (leWord b) th0 := enterTh_sound hend hat0 hb hc hcut
        rw [hent] at hat
        simp [atHeader, enteredThread] at hat
    · simp only [hst0, ne_eq, not_false_eq_true, if_true] at hst
  · have hwg : (enterAll u).wgs[n]? = some { k with warps := k.warps.map fun w => latchWarp (enterWarp u g k w), cue := latchCue (enterCueThread u (.cue k.id) k.cue) } := by
      simp only [enterAll, List.getElem?_map, hk, Option.map_some, hst, ne_eq, not_true, if_false, hg]
    rw [hwg]
    simp only [Option.bind_some, List.getElem?_map, hw, Option.map_some, enterWarp_latch, hth, enterTh_sound hend hat hb hc hcut]
    rfl

end Sys2Proof.Machine
end

section
/-! The accesses of a stream (07 to 09) leave the grids as they are. -/

namespace Sys2Proof.Machine

@[simp] theorem foldl_grids {α : Type} (l : List α) (f : State → α → State) (s : State) (h : ∀ t x, (f t x).grids = t.grids) : (l.foldl f s).grids = s.grids := by
  induction l generalizing s with
  | nil => rfl
  | cons x r ih => rw [List.foldl_cons, ih, h]
theorem foldl_snd_grids {α β : Type} (l : List α) (f : β × State → α → β × State) (a : β × State) (h : ∀ t x, (f t x).2.grids = t.2.grids) : (l.foldl f a).2.grids = a.2.grids := by
  induction l generalizing a with
  | nil => rfl
  | cons x r ih => rw [List.foldl_cons, ih, h]
@[simp] theorem combUse_grids (s : State) (line : ℕ) (mask : BitVec 128) (key : BitVec 16) : (combUse s line mask key).grids = s.grids := by
  simp [combUse]
@[simp] theorem endResv_grids (s : State) (g : ℕ) (who : Option Agent) : (endResv s g who).grids = s.grids := by
  simp [endResv]
@[simp] theorem homeMerge_grids (s : State) (line : Nat) (mask : BitVec 128) (d : BitVec 1024) (key : BitVec 16) (who : Option Agent) : (homeMerge s line mask d key who).grids = s.grids := by
  unfold homeMerge
  split
  · rfl
  · refine (foldl_grids _ _ _ fun t j => ?_).trans ?_
    · split <;> simp
    · simp
@[simp] theorem homeWrite_grids (s : State) (pa : Nat) (bs : List Byte) (key : BitVec 16) (who : Option Agent) : (homeWrite s pa bs key who).grids = s.grids := by
  simp [homeWrite]
@[simp] theorem softTake_grids (s : State) (lo : ℕ) (hi : ℕ) : (softTake s lo hi).2.grids = s.grids := by
  unfold softTake
  split <;> simp
@[simp] theorem updPort_grids (s : State) (p : ℕ) (f : Port → Port) : (updPort s p f).grids = s.grids := by
  simp [updPort]
@[simp] theorem offerPort_grids (s : State) (p : ℕ) (m : Msg) : (offerPort s p m).grids = s.grids := by
  simp only [offerPort]
  (repeat' split) <;> simp [*]
@[simp] theorem routeMsg_grids (s : State) (m : Msg) : (routeMsg s m).grids = s.grids := by
  unfold routeMsg
  split <;> simp
@[simp] theorem postMsg_grids (s : State) (m : Msg) : (postMsg s m).grids = s.grids := by
  simp [postMsg]
@[simp] theorem askPeer_grids (s : State) (a : Asker) (m : Msg) : (askPeer s a m).grids = s.grids := by
  simp [askPeer]
@[simp] theorem peerPoint_grids (s : State) (p : Point) (o : LaneOp) (pa : ℕ) (n : ℕ) : (peerPoint s p o pa n).2.2.grids = s.grids := by
  simp [peerPoint]
@[simp] theorem combRead_grids (s : State) (pa : ℕ) (n : ℕ) (key : BitVec 16) : (combRead s pa n key).grids = s.grids := by
  unfold combRead
  split <;> simp
@[simp] theorem sendMsg_grids (s : State) (dst : ℕ) (kind : BitVec 6) (page : ℕ) (seq : BitVec 16) (aux : ℕ) (data : List Byte) : (sendMsg s dst kind page seq aux data).grids = s.grids := by
  simp [sendMsg]
@[simp] theorem peerRead_grids (s : State) (pa : ℕ) (n : ℕ) : (peerRead s pa n).2.grids = s.grids := by
  simp [peerRead]
@[simp] theorem behindRead_grids (s : State) (loc : Loc) (n : ℕ) (key : BitVec 16) : (behindRead s loc n key).2.2.grids = s.grids := by
  unfold behindRead
  (repeat' split) <;> grind [combRead_grids, peerRead_grids, foldl_grids]
@[simp] theorem pointRead_grids (s : State) (p : Point) (o : LaneOp) (n : ℕ) : (pointRead s p o n).2.2.grids = s.grids := by
  unfold pointRead
  split <;> simp
@[simp] theorem setQreg_grids (s : State) (q : ℕ) (f : ℕ) (v : ℕ) : (setQreg s q f v).grids = s.grids := by
  simp [setQreg]
@[simp] theorem chaltRelease_grids (s : State) (m : ℕ) : (chaltRelease s m).grids = s.grids := by
  simp only [chaltRelease]
  (repeat' split) <;> simp [*]
@[simp] theorem wakeOr_grids (s : State) (target : ℕ) (v : ℕ) : (wakeOr s target v).grids = s.grids := by
  unfold wakeOr
  (repeat' split) <;> simp [*]
@[simp] theorem queueWrite_grids (s : State) (q : ℕ) (f : ℕ) (v : ℕ) : (queueWrite s q f v).grids = s.grids := by
  unfold queueWrite
  (repeat' split) <;> simp [*]
@[simp] theorem regStore_grids (s : State) (off : ℕ) (n : ℕ) (v : ℕ) : (regStore s off n v).grids = s.grids := by
  simp only [regStore]
  (repeat' split) <;> simp [*]
@[simp] theorem regWrite_grids (s : State) (off : ℕ) (n : ℕ) (v : ℕ) : (regWrite s off n v).grids = s.grids := by
  unfold regWrite
  split <;> simp
@[simp] theorem takePair_grids (s : State) (pair : ℕ) : (takePair s pair).grids = s.grids := by
  simp [takePair]
@[simp] theorem errWrite_grids (s : State) (bs : List Byte) : (errWrite s bs).grids = s.grids := by
  simp [errWrite]
@[simp] theorem errReport_grids (s : State) : (errReport s).grids = s.grids := by
  unfold errReport
  split <;> simp
@[simp] theorem postEntry_grids (s : State) (bs : List Byte) : (postEntry s bs).grids = s.grids := by
  simp only [postEntry]
  (repeat' split) <;> simp [*]
@[simp] theorem postRec_grids (s : State) (r : TrapRec) (wg : Option ℕ) : (postRec s r wg).grids = s.grids := by
  unfold postRec
  split <;> simp
@[simp] theorem postAsync_grids (s : State) (cause : Cause) (addr : BitVec 64) (wg : Option ℕ) : (postAsync s cause addr wg).grids = s.grids := by
  simp [postAsync]
@[simp] theorem colRead_grids (s : State) (c : ℕ) (v : BitVec 16) : (colRead s c v).grids = s.grids := by
  simp only [colRead]
  (repeat' split) <;> simp [*]
@[simp] theorem reclass_grids (s : State) : (reclass s).grids = s.grids := by
  unfold reclass
  grind [colRead_grids, foldl_grids]
@[simp] theorem disableQueue_grids (s : State) (q : ℕ) : (disableQueue s q).grids = s.grids := by
  unfold disableQueue
  (repeat' split) <;> grind [postAsync_grids, updQueue_grids, setQreg_grids, foldl_grids]
@[simp] theorem mapWrite_grids (s : State) (off : ℕ) (n : ℕ) (v : ℕ) : (mapWrite s off n v).grids = s.grids := by
  simp only [mapWrite]
  (repeat' split) <;> simp [*]
@[simp] theorem peerWrite_grids (s : State) (a : Asker) (pa : ℕ) (bs : List Byte) (caps : List (BitVec 16)) : (peerWrite s a pa bs caps).grids = s.grids := by
  simp [peerWrite]
@[simp] theorem behindWrite_grids (s : State) (iss : Issuer) (lane : ℕ) (loc : Loc) (bs : List Byte) (key : BitVec 16) (at_ : optParam (VAddr × BitVec 64) (0, 0)) : (behindWrite s iss lane loc bs key at_).grids = s.grids := by
  unfold behindWrite
  split <;> simp
@[simp] theorem pointWrite_grids (s : State) (p : Point) (o : LaneOp) (bs : List Byte) : (pointWrite s p o bs).grids = s.grids := by
  unfold pointWrite
  split <;> simp
@[simp] theorem rmw_grids (s : State) (p : Point) (o : LaneOp) (n : ℕ) (consumer : ℕ) (fn : ℕ → Option ℕ × OpOut) : (rmw s p o n consumer fn).2.grids = s.grids := by
  simp only [rmw]
  (repeat' split) <;> simp [*]
@[simp] theorem dropResv_grids (s : State) (a : Agent) : (dropResv s a).grids = s.grids := by
  simp [dropResv]
@[simp] theorem addResv_grids (s : State) (a : Agent) (pa : ℕ) : (addResv s a pa).grids = s.grids := by
  simp [addResv]
@[simp] theorem dropClaim_grids (s : State) (flight : ℕ) (a : Agent) : (dropClaim s flight a).grids = s.grids := by
  simp [dropClaim]
@[simp] theorem peerMerge_grids (s : State) (l : L1Line) (mask : BitVec 128) : (peerMerge s l mask).grids = s.grids := by
  simp [peerMerge]
@[simp] theorem backMerge_grids (s : State) (l : L1Line) (mask : BitVec 128) : (backMerge s l mask).grids = s.grids := by
  simp only [backMerge]
  (repeat' split) <;> simp [*]
@[simp] theorem l1DropGranule_grids (s : State) (core : ℕ) (a : ℕ) (n : ℕ) : (l1DropGranule s core a n).grids = s.grids := by
  unfold l1DropGranule
  split <;> simp
@[simp] theorem l1Del_grids (s : State) (core : ℕ) (line : ℕ) : (l1Del s core line).grids = s.grids := by
  simp [l1Del]
@[simp] theorem l1WriteBack_grids (s : State) (l : L1Line) : (l1WriteBack s l).grids = s.grids := by
  simp [l1WriteBack]
@[simp] theorem l1Room_grids (s : State) (core : ℕ) (line : ℕ) : (l1Room s core line).grids = s.grids := by
  simp only [l1Room]
  (repeat' split) <;> simp [*]
@[simp] theorem l1Take_grids (s : State) (core : ℕ) (line : ℕ) (imm : Bool) : (l1Take s core line imm).2.grids = s.grids := by
  unfold l1Take
  split <;> simp
@[simp] theorem l1Put_grids (s : State) (l : L1Line) : (l1Put s l).grids = s.grids := by
  simp [l1Put]
@[simp] theorem l1Write_grids (s : State) (core : ℕ) (a : ℕ) (bs : List Byte) (key : BitVec 16) (imm : Bool) : (l1Write s core a bs key imm).grids = s.grids := by
  simp [l1Write]
@[simp] theorem l1Sign_grids (s : State) (core : ℕ) (a : ℕ) (n : ℕ) (who : Issuer) (pc : VAddr) (addr : BitVec 64) : (l1Sign s core a n who pc addr).grids = s.grids := by
  simp [l1Sign]
@[simp] theorem cachedWrite_grids (s : State) (iss : Issuer) (lane : ℕ) (core : ℕ) (a : ℕ) (bs : List Byte) (key : BitVec 16) (imm : Bool) (at_ : VAddr × BitVec 64) : (cachedWrite s iss lane core a bs key imm at_).grids = s.grids := by
  unfold cachedWrite
  split <;> simp
@[simp] theorem plainStore_grids (s : State) (iss : Issuer) (key : BitVec 16) (lane : ℕ) (loc : Loc) (t : Trans) (bs : List Byte) (home : Bool) (at_ : optParam (VAddr × BitVec 64) (0, 0)) : (plainStore s iss key lane loc t bs home at_).grids = s.grids := by
  unfold plainStore
  (repeat' split) <;> simp [*]
@[simp] theorem storePoint_grids (s : State) (p : Point) (o : LaneOp) (n : ℕ) : (storePoint s p o n).2.grids = s.grids := by
  simp [storePoint]
@[simp] theorem forageAt_grids (s : State) (p : Point) (o : LaneOp) (out : ℕ → ℕ → List RegWrite) : (forageAt s p o out).2.grids = s.grids := by
  simp only [forageAt]
  (repeat' split) <;> simp [*]
@[simp] theorem advance_grids (s : State) (a : ℕ) (by_ : ℤ) : (advance s a by_).2.grids = s.grids := by
  simp only [advance]
  (repeat' split) <;> simp [*]
@[simp] theorem pointOp_grids (s : State) (p : Point) (o : LaneOp) : (pointOp s p o).2.grids = s.grids := by
  simp only [pointOp]
  (repeat' split) <;> simp [*]
@[simp] theorem l1FreshGranule_grids (s : State) (core : ℕ) (a : ℕ) (n : ℕ) : (l1FreshGranule s core a n).grids = s.grids := by
  simp [l1FreshGranule]
@[simp] theorem pointFresh_grids (s : State) (iss : Issuer) (loc : Loc) (n : ℕ) : (pointFresh s iss loc n).grids = s.grids := by
  unfold pointFresh
  split <;> simp
@[simp] theorem nameAwaits_grids (s : State) (from_ : ℕ) (pc : VAddr) (a : BitVec 64) : (nameAwaits s from_ pc a).grids = s.grids := by
  simp [nameAwaits]
@[simp] theorem l1Inv_grids (s : State) (core : ℕ) : (l1Inv s core).grids = s.grids := by
  simp [l1Inv]
@[simp] theorem acquire_grids (s : State) (iss : Issuer) (obs : BitVec 7) : (acquire s iss obs).grids = s.grids := by
  unfold acquire
  (repeat' split) <;> simp [*]
@[simp] theorem runOps_grids (s : State) (f : Flight) : (runOps s f).grids = s.grids := by
  unfold runOps
  split
  case h_2 => rfl
  case h_1 i ops key heq =>
    have hsoft : (match pointSoft i with
      | some x => softTake s x x
      | none => (none, s)).2.grids = s.grids := by split <;> simp
    have hdone : ∀ (acq : Bool) (u : State), u.grids = s.grids → (if acq then acquire u f.who (pointOrder i).2 else u).grids = s.grids :=
      fun acq u hu => by cases acq <;> simp [hu]
    refine hdone _ _ ?_
    split
    · exact hsoft
    · exact (foldl_snd_grids _ _ _ fun acc o => by simp).trans hsoft
@[simp] theorem runPoint_grids (s : State) (f : Flight) : (runPoint s f).grids = s.grids := by
  refine foldl_grids _ _ _ fun t g => ?_
  split <;> simp
@[simp] theorem drainFor_grids (s : State) (iss : Issuer) (locs : List Loc) : (drainFor s iss locs).grids = s.grids := by
  simp [drainFor]
@[simp] theorem drainCore_grids (s : State) (iss : Issuer) : (drainCore s iss).grids = s.grids := by
  unfold drainCore
  split <;> simp
@[simp] theorem beforeAccess_grids (s : State) (iss : Issuer) (ps : List (Loc × Trans)) : (beforeAccess s iss ps).grids = s.grids := by
  unfold beforeAccess
  split <;> simp
@[simp] theorem backRead_grids (s : State) (line : ℕ) (key : BitVec 16) : (backRead s line key).2.grids = s.grids := by
  simp only [backRead]
  (repeat' split) <;> simp [*]
@[simp] theorem l1Fill_grids (s : State) (l : L1Line) (key : BitVec 16) : (l1Fill s l key).2.grids = s.grids := by
  unfold l1Fill
  (repeat' split) <;> grind [backRead_grids, foldl_grids]
@[simp] theorem l1Read_grids (s : State) (core : ℕ) (a : ℕ) (n : ℕ) (imm : Bool) (key : BitVec 16) : (l1Read s core a n imm key).2.2.grids = s.grids := by
  unfold l1Read
  (repeat' split) <;> grind [l1Take_grids, l1Fill_grids, l1Put_grids, foldl_grids]
@[simp] theorem cachedRead_grids (s : State) (iss : Issuer) (loc : Loc) (a : ℕ) (t : Trans) (n : ℕ) (home : Bool) : (cachedRead s iss loc a t n home).2.2.grids = s.grids := by
  simp only [cachedRead]
  (repeat' split) <;> simp [*]
@[simp] theorem loadAt_grids (s : State) (iss : Issuer) (loc : Loc) (t : Trans) (n : ℕ) (home : Bool) : (loadAt s iss loc t n home).2.2.grids = s.grids := by
  simp only [loadAt]
  (repeat' split) <;> simp [*]
@[simp] theorem tlbFill_grids (s : State) (core : ℕ) (asid : BitVec 16) (va : ℕ) (t : Trans) : (tlbFill s core asid va t).grids = s.grids := by
  unfold tlbFill
  (repeat' split) <;> simp [*]
@[simp] theorem touchTlb_grids (s : State) (iss : Issuer) (va : ℕ) (t : Trans) : (touchTlb s iss va t).grids = s.grids := by
  unfold touchTlb
  split <;> simp
@[simp] theorem l1Flush_grids (s : State) (core : ℕ) : (l1Flush s core).grids = s.grids := by
  simp [l1Flush]
@[simp] theorem release_grids (s : State) (iss : Issuer) (obs : BitVec 7) : (release s iss obs).grids = s.grids := by
  unfold release
  (repeat' split) <;> simp [*]
@[simp] theorem trimSlices_grids (s : State) (xs : List ℕ) : (trimSlices s xs).grids = s.grids := by
  simp [trimSlices]
@[simp] theorem versionWrite_grids (s : State) (wg : ℕ) (pa : ℕ) (bs : List Byte) (key : BitVec 16) (by_ : ℕ) : (versionWrite s wg pa bs key by_).grids = s.grids := by
  simp [versionWrite]
@[simp] theorem commitLine_grids (s : State) (v : VLine) : (commitLine s v).grids = s.grids := by
  simp [commitLine]
@[simp] theorem commitLines_grids (s : State) (core : ℕ) (vs : List VLine) : (commitLines s core vs).grids = s.grids := by
  simp [commitLines]
@[simp] theorem versionCommit_grids (s : State) (wg : ℕ) : (versionCommit s wg).grids = s.grids := by
  unfold versionCommit
  split <;> simp
@[simp] theorem storeAt_grids (s : State) (iss : Issuer) (lane : ℕ) (loc : Loc) (t : Trans) (bs : List Byte) (home : Bool) (at_ : optParam (VAddr × BitVec 64) (0, 0)) : (storeAt s iss lane loc t bs home at_).grids = s.grids := by
  simp only [storeAt]
  (repeat' split) <;> simp [*]
@[simp] theorem prefetch_grids (s : State) (c : WCtx) (comb : Bool) (va : ℕ) (loc : Loc) (a : ℕ) (tr : Trans) : (prefetch s c comb va loc a tr).grids = s.grids := by
  unfold prefetch
  (repeat' split) <;> grind [combRead_grids, l1Take_grids, l1Fill_grids, touchTlb_grids, l1Put_grids, foldl_grids]
@[simp] theorem l1InvLine_grids (s : State) (core : ℕ) (line : ℕ) : (l1InvLine s core line).grids = s.grids := by
  simp [l1InvLine]
end Sys2Proof.Machine
end

section
/-! O23: what a load leaves (08 R178, R198, R204). -/

namespace Sys2Proof.Machine

@[simp] theorem beforeAccess_warps (s : State) (iss : Issuer) (ps : List (Loc × Trans)) : (beforeAccess s iss ps).wgs.map wgWarps = s.wgs.map wgWarps := by
  unfold beforeAccess
  (repeat' split) <;> simp

theorem acquireIf_eq (b : Prop) [Decidable b] (iss : Issuer) (obs : BitVec 7) (t : State) : (if b then acquire t iss obs else t) = acquireIf (decide b) iss obs t := by
  by_cases h : b <;> simp [acquireIf, h]

@[simp] theorem acquireIf_nextId (b : Bool) (iss : Issuer) (obs : BitVec 7) (t : State) : (acquireIf b iss obs t).nextId = t.nextId := by
  unfold acquireIf acquire
  (repeat' split) <;> rfl

/-- An instruction that executes leaves what its effect makes of the issued state. -/
theorem exec_ready {i : Instr} {op : WOp} {s : State} {c : WCtx} (ho : warpOp i = some op) (hi : op.i = i) (hc : warpCtx s i = some c) (hr : WarpReady op s c = true) :
    exec i s = .next (op.eff c (issued op c s)) := by
  subst hi
  rw [exec_of_warpOp ho, warpIssue_ready hc hr]

theorem launchFlight_eq (t : State) (c : WCtx) (i : Instr) (kind : FlightKind) (isSvc isPriv : Bool) : launchFlight t c i kind isSvc isPriv = launched c i kind isSvc isPriv t := rfl

/-- A launch after other work on the state in which the instruction has issued. -/
theorem ready_launchedWith {i : Instr} {op : WOp} {s : State} {c : WCtx} {kind : FlightKind} {isSvc isPriv : Bool} {h : State → State}
    (ho : warpOp i = some op) (hi : op.i = i) (hc : warpCtx s i = some c) (hr : WarpReady op s c = true) (hs : op.stay = false)
    (hh : ∀ t wg wi g, h (updWarp t wg wi g) = updWarp (h t) wg wi g) (hn : ∀ t, (h t).nextId = t.nextId)
    (he : op.eff c (issued op c s) = launched c i kind isSvc isPriv (h (issued op c s))) :
    AnswersWith i s c { c.w with threads := threadsAfter c i fun _ => openedWindow c i s.nextId isSvc isPriv } fun t => inFlight (WCtx_iss c) c.pc ((warpLook i).getD 0) kind (h t) := by
  subst hi
  refine ⟨fun w => Warp_updThreads (passedWarp c op.i w) c.lanes (openedWindow c op.i s.nextId isSvc isPriv), ?_, ?_⟩
  · rw [exec_ready ho rfl hc hr, he, launched_eq, issued_eq _ _ _ hs, hh, updWarp_updWarp]
    simp only [hh, updWarp_nextId, hn]
  · dsimp only
    rw [passedWarp_eq hc, Warp_updThreads_eq _ _ _ (warpCtx_spec hc).2.2.2.1]
    simp only [threadsAfter, List.mapIdx_mapIdx_same]
    congr 2
    funext l th
    by_cases hl : l ∈ c.lanes <;> simp [hl]

theorem loadOp_of_form {i : Instr} {op : WOp} {f : MF} {sp : Space} {m : MA} (ho : warpOp i = some op) (h : loadForm i = some (f, sp, m)) :
    op = loadOp i f sp m ∧ (warpLook i).getD 0 = f.look.toNat := by
  unfold loadForm at h
  split at h <;> cases h <;> cases ho <;> exact ⟨rfl, rfl⟩

@[simp] theorem touchTlb_none (s : State) (iss : Issuer) (va : Nat) : touchTlb s iss va Trans_none = s := by
  unfold touchTlb
  split <;> rfl

/-- A granule of a local store that is sound is read without a change of the device (08 R198). -/
theorem takeLane_local {s : State} {iss : Issuer} {f : MF} {sp : Space} {l a x : Nat} (h : lsCaps s x (mBytes f) = .good) :
    takeLane s iss f sp l a (.ls x) Trans_none = ({ writes := laneWrites l f.d.toNat (loadVal f (leNat (lsBytes s x (mBytes f)))) (widRegs f.wid.toNat) }, s) := by
  have hload : loadAt s iss (.ls x) Trans_none (2 ^ f.wid.toNat) (homeRead f) = (lsBytes s x (mBytes f), .good, s) :=
    congrArg (fun cap => (lsBytes s x (mBytes f), cap, s)) h
  simp only [takeLane, hload, integrityCause]

@[simp] theorem OpOut.join_empty (a : OpOut) : OpOut.join {} a = a := by
  simp [OpOut.join]

/-- Reads of local stores gather their registers lane by lane. -/
theorem foldl_takeLane_local {s : State} {iss : Issuer} {f : MF} {sp : Space} {addr adr va : Nat → Nat} (ls : List Nat) (h : ∀ l ∈ ls, lsCaps s (adr l) (mBytes f) = .good) (out : OpOut) :
    ls.foldl (fun (acc : OpOut × State) l => (acc.1.join (takeLane acc.2 iss f sp l (addr l) (.ls (adr l)) Trans_none).1, touchTlb (takeLane acc.2 iss f sp l (addr l) (.ls (adr l)) Trans_none).2 iss (va l) Trans_none)) (out, s)
      = ({ out with writes := out.writes ++ ls.flatMap fun l => laneWrites l f.d.toNat (loadVal f (leNat (lsBytes s (adr l) (mBytes f)))) (widRegs f.wid.toNat) }, s) := by
  induction ls generalizing out with
  | nil => simp
  | cons l r ih =>
    rw [List.foldl_cons, takeLane_local (h l (by simp)), touchTlb_none, ih fun x hx => h x (by simp [hx])]
    simp [OpOut.join]

section
variable {i : Instr} {f : MF} {sp : Space} {m : MA} {s : State} {c : WCtx}

theorem place_accs_local {t : State} {adr : Nat → Nat} {w : Bool} (h : AtLocal t c f m sp w adr) : ∀ a ∈ accs t c f m sp (2 ^ f.wid.toNat) w, a.acc = .ok (.ls (adr a.lane)) Trans_none := by
  intro a ha
  obtain ⟨l, hl, rfl⟩ := List.mem_map.mp ha
  exact h l hl

theorem placed_accs_local {t : State} {adr : Nat → Nat} {w : Bool} (h : AtLocal t c f m sp w adr) :
    placed (accs t c f m sp (2 ^ f.wid.toNat) w) = c.cs.map fun l => (l, mAddr (passW c l) f m (sp == .priv) l, .ls (adr l), Trans_none) := by
  rw [placed_local (loc := fun l => .ls (adr l)) (place_accs_local h)]
  simp [accs]

/-- The place of the only contributor's access. -/
theorem placed_accs_one {t : State} {w : Bool} {l : Nat} {loc : Loc} {tr : Trans} (hcs : c.cs = [l])
    (h : place t (WCtx_iss c) sp c.wi l (mAddr (passW c l) f m (sp == .priv) l) (2 ^ f.wid.toNat) w = .ok loc tr) :
    placed (accs t c f m sp (2 ^ f.wid.toNat) w) = [(l, mAddr (passW c l) f m (sp == .priv) l, loc, tr)] := by
  simp [accs, hcs, placed, h]

theorem loadEff_local {u : State} {adr : Nat → Nat} (hfe : f.fe = 0) (hcs : c.cs ≠ []) (hu : undrained u (WCtx_iss c) = true) (hat : AtLocal u c f m sp false adr)
    (hgood : ∀ l ∈ c.cs, lsCaps u (adr l) (mBytes f) = .good) :
    loadEff i f sp m c u = launched c i (.load (c.cs.flatMap fun l => laneWrites l f.d.toNat (loadVal f (leNat (lsBytes u (adr l) (mBytes f)))) (widRegs f.wid.toNat)) [] []) false (sp == .priv)
      (acquireIf (f.ordr = 2) (WCtx_iss c) f.obs u) := by
  unfold loadEff
  simp only [hfe, ne_eq, not_true_eq_false, if_false, hcs, placed_accs_local hat, beforeAccess_undrained hu, List.foldl_map, foldl_takeLane_local c.cs hgood, acquireIf_eq]
  rfl

theorem loads_local {op : WOp} {adr : Nat → Nat} (ho : warpOp i = some op) (hform : loadForm i = some (f, sp, m)) (hfe : f.fe = 0) (hcs : c.cs ≠ []) (hc : warpCtx s i = some c)
    (hr : WarpReady op s c = true) (hu : undrained s (WCtx_iss c) = true) (hat : AtLocal (issued op c s) c f m sp false adr) (hgood : ∀ l ∈ c.cs, lsCaps s (adr l) (mBytes f) = .good) :
    AnswersWith i s c { c.w with threads := threadsAfter c i fun _ => openedWindow c i s.nextId false (sp == .priv) }
      (fun t => inFlight (WCtx_iss c) c.pc f.look.toNat
        (.load (c.cs.flatMap fun l => laneWrites l f.d.toNat (loadVal f (leNat (lsBytes s (adr l) (mBytes f)))) (widRegs f.wid.toNat)) [] [])
        (acquireIf (f.ordr = 2) (WCtx_iss c) f.obs t)) := by
  obtain ⟨hop, hlook⟩ := loadOp_of_form ho hform
  have hi : op.i = i := by rw [hop]; rfl
  have hstay : op.stay = false := by rw [hop]; simp [loadOp, hfe]
  obtain ⟨g, hg⟩ := issued_updWarp op s c
  have hcaps : ∀ l ∈ c.cs, lsCaps (issued op c s) (adr l) (mBytes f) = .good := fun l hl => by rw [hg]; exact hgood l hl
  have hbytes : ∀ l, lsBytes (issued op c s) (adr l) (mBytes f) = lsBytes s (adr l) (mBytes f) := fun l => by rw [hg]; rfl
  have he := loadEff_local (i := i) hfe hcs (by rw [undrained_issued]; exact hu) hat hcaps
  simp only [hbytes] at he
  rw [← hlook]
  refine ready_launchedWith ho hi hc hr hstay (fun t wg wi g => acquireIf_updWarp _ t wg wi g _ _) (fun t => acquireIf_nextId ..) ?_
  · rw [← he]
    exact congrFun (congrFun (congrArg WOp.eff hop) c) _

theorem load_none {op : WOp} (ho : warpOp i = some op) (hform : loadForm i = some (f, sp, m)) (hfe : f.fe = 0) (hcs : c.cs = []) (hc : warpCtx s i = some c) (hr : WarpReady op s c = true) :
    exec i s = .next (launched c i .plain false (sp == .priv) (issued op c s)) := by
  obtain ⟨rfl, -⟩ := loadOp_of_form ho hform
  rw [exec_ready ho rfl hc hr]
  simp only [loadOp, loadEff, hfe, ne_eq, not_true_eq_false, if_false, hcs, if_true]
  rfl

/-- No integrity cause of a memory space is of class 5 (08 R198). -/
theorem causeClass_integrity {sp : Space} {cap : CapState} {k : Cause} (h : integrityCause (Space_num sp) cap = some k) : causeClass k ≠ 5 := by
  cases sp <;> cases cap <;> simp [integrityCause, Space_num] at h <;> subst h <;> decide

/-- The virtual address in the record of a failing access to the memory of one thread (13 R355), whatever has been done since the instruction issued. -/
theorem privFailing_accVa {op : WOp} {u : State} {l a : Nat} {k : Cause} (hc : warpCtx s i = some c) (hw : u.wgs.map wgWarps = (issued op c s).wgs.map wgWarps) (hg : u.grids = (issued op c s).grids)
    (hk : causeClass k ≠ 5) : privFailing u (WCtx_iss c) c.wi l a k = accVa c .priv l a := by
  obtain ⟨hk0, hg0, -⟩ := warpCtx_spec hc
  obtain ⟨x, hx, hgrid, hlin⟩ : ∃ x, findWg u c.wg = some x ∧ x.grid = c.k.grid ∧ x.lin = c.k.lin := by
    have hmap : (findWg u c.wg).map wgWarps = (findWg (issued op c s) c.wg).map wgWarps := findWg_wgWarps hw c.wg
    obtain ⟨y, hy⟩ := issued_updWarp op s c
    rw [hy, findWg_updWarp hk0] at hmap
    obtain ⟨x, hx, he⟩ := Option.map_eq_some_iff.mp hmap
    have hplace := congrArg Prod.fst he
    exact ⟨x, hx, congrArg (fun p => p.2.1) hplace, congrArg (fun p => p.2.2.1) hplace⟩
  have hfind : (findWg u c.wg).bind (fun k => (gridOf u k).map fun g => (privBase g.lrec k c.wi l + a) % 2 ^ 57) = some (accVa c .priv l a) := by
    obtain ⟨y, hy⟩ := issued_updWarp op s c
    have hgrids : u.grids = s.grids := by rw [hg, hy]; rfl
    have hgrid' : gridOf u x = some c.g := by
      rw [← hg0]
      simp only [gridOf, findGrid, hgrid, hgrids]
    rw [hx, Option.bind_some, hgrid', Option.map_some]
    simp only [accVa, if_true, privBase, hlin]
  have hiss : issuerWg u (WCtx_iss c) = findWg u c.wg := rfl
  rw [privFailing, if_neg fun h => hk h.1, hiss, hfind]

/-- What a load of one contributor reads at its place, once what it waits for has been performed. -/
theorem takeLane_eq {op : WOp} {u v : State} {l a : Nat} {loc : Loc} {tr : Trans} {bs : List Byte} {cap : CapState} (hc : warpCtx s i = some c)
    (hw : u.wgs.map wgWarps = (issued op c s).wgs.map wgWarps) (hg : u.grids = (issued op c s).grids) (hload : loadAt u (WCtx_iss c) loc tr (mBytes f) (homeRead f) = (bs, cap, v)) :
    takeLane u (WCtx_iss c) f sp l a loc tr = (match integrityCause (Space_num (spaceAt sp a)) cap with
      | none => { writes := laneWrites l f.d.toNat (loadVal f (leNat bs)) (widRegs f.wid.toNat) }
      | some x => { bad := [(l, x, BitVec.ofNat 64 (accVa c sp l a))] }, v) := by
  unfold takeLane
  have hload' : loadAt u (WCtx_iss c) loc tr (2 ^ f.wid.toNat) (homeRead f) = (bs, cap, v) := hload
  rw [hload']
  dsimp only
  cases hk : integrityCause (Space_num (spaceAt sp a)) cap with
  | none => rfl
  | some k =>
    cases sp with
    | priv =>
      dsimp only
      rw [← privFailing_accVa (op := op) hc hw hg (causeClass_integrity hk)]
      rfl
    | global => rfl
    | local_ => rfl
    | cluster => rfl

theorem load_one {op : WOp} {l : Nat} {loc : Loc} {tr : Trans} {bs : List Byte} {cap : CapState} {u : State} (ho : warpOp i = some op) (hform : loadForm i = some (f, sp, m)) (hfe : f.fe = 0) (hcs : c.cs = [l])
    (hc : warpCtx s i = some c) (hr : WarpReady op s c = true) (hplace : place (issued op c s) (WCtx_iss c) sp c.wi l (mAddr (passW c l) f m (sp == .priv) l) (mBytes f) false = .ok loc tr)
    (hload : loadAt (beforeAccess (issued op c s) (WCtx_iss c) [(loc, tr)]) (WCtx_iss c) loc tr (mBytes f) (homeRead f) = (bs, cap, u)) :
    exec i s = .next (launched c i
      (match integrityCause (Space_num (spaceAt sp (mAddr (passW c l) f m (sp == .priv) l))) cap with
        | none => .load (laneWrites l f.d.toNat (loadVal f (leNat bs)) (widRegs f.wid.toNat)) [] []
        | some x => .load [] [] [(l, x, BitVec.ofNat 64 (accVa c sp l (mAddr (passW c l) f m (sp == .priv) l)))]) false (sp == .priv)
      (acquireIf (f.ordr = 2) (WCtx_iss c) f.obs (touchTlb u (WCtx_iss c) (accVa c sp l (mAddr (passW c l) f m (sp == .priv) l)) tr))) := by
  obtain ⟨rfl, -⟩ := loadOp_of_form ho hform
  rw [exec_ready ho rfl hc hr]
  have haccs := placed_accs_one hcs hplace
  generalize hu : issued (loadOp i f sp m) c s = t at *
  generalize mAddr (passW c l) f m (sp == .priv) l = a at *
  have hplaces : placesOf (accs t c f m sp (2 ^ f.wid.toNat) false) = [(loc, tr)] := by
    rw [placesOf, haccs]
    rfl
  have htake := takeLane_eq (f := f) (sp := sp) (l := l) (a := a) (op := loadOp i f sp m) hc (u := beforeAccess t (WCtx_iss c) [(loc, tr)]) (by rw [hu]; simp) (by rw [hu]; simp) hload
  simp only [loadOp, loadEff, hfe, ne_eq, not_true_eq_false, if_false, hcs, reduceCtorEq, haccs, hplaces, List.foldl_cons, List.foldl_nil, htake, acquireIf_eq, OpOut.join_empty]
  cases integrityCause (Space_num (spaceAt sp a)) cap <;> rfl
end

/-- Settles O23: a load reads at issue, local stores lane by lane, and its flight takes what was read. -/
theorem loads : Obligations.Loads := by
  unfold Obligations.Loads
  refine ⟨?_, ?_, ?_⟩
  · intro i op f sp m s c adr ho hform hfe hcs hc hr hu hat hgood
    exact loads_local ho hform hfe hcs hc hr hu hat hgood
  · intro i op f sp m s c l loc tr bs cap u ho hform hfe hcs hc hr a hplace hload
    exact load_one ho hform hfe hcs hc hr hplace hload
  · intro i op f sp m s c ho hform hfe hcs hc hr
    exact load_none ho hform hfe hcs hc hr
end Sys2Proof.Machine
end

section
/-! O24: loads on full/empty bits (08 R185, R206). -/

namespace Sys2Proof.Machine

/-- A virtual address never leads to a local store: only the windows do (08 R175, R178). -/
theorem placeVa_not_local {s : State} {iss : Issuer} {sp : Space} {va kind x : Nat} {tr : Trans} : placeVa s iss sp va kind ≠ .ok (.ls x) tr := by
  unfold placeVa
  dsimp only
  split
  · simp
  · unfold placeOf
    dsimp only
    (repeat' split) <;> simp
theorem placeGridWin_not_local {s : State} {iss : Issuer} {off n x : Nat} {w excl : Bool} {tr : Trans} : placeGridWin s iss off n w excl ≠ .ok (.ls x) tr := by
  unfold placeGridWin
  dsimp only
  split
  · simp
  · split
    · simp
    · by_cases hx : excl = true
      · simp [hx]
      · rw [if_neg hx]
        (repeat' split) <;> simp

section
variable {s : State} {iss : Issuer} {l a n x wg wi : Nat} {w : Bool} {tr : Trans} {g : Warp → Warp}

theorem placeLocal_updWarp (k : Workgroup) (b : Prop) [Decidable b] : placeLocal (updWarp s wg wi g) (if b then Workgroup_updWarp k wi g else k) a n w = placeLocal s k a n w := by
  by_cases h : b
  · rw [if_pos h]
    rfl
  · rw [if_neg h]
    rfl
theorem issuerCluster_updWarp : issuerCluster (updWarp s wg wi g) iss = issuerCluster s iss := by
  unfold issuerCluster
  split
  · rfl
  · rw [issuerWg_updWarp]
    cases issuerWg s iss with
    | none => rfl
    | some k => by_cases h : k.id = wg <;> simp [h] <;> rfl

/-- The local-store address of an access does not move when a warp of the group changes. -/
theorem placeGlobal_local_updWarp (h : placeGlobal s iss a n w false = .ok (.ls x) tr) : placeGlobal (updWarp s wg wi g) iss a n w false = .ok (.ls x) tr := by
  unfold placeGlobal at h ⊢
  split at h
  · rw [issuerWg_updWarp]
    cases hk : issuerWg s iss with
    | none => simpa [hk] using h
    | some k => simpa only [hk, Option.map_some, placeLocal_updWarp] using h
  · rw [issuerCluster_updWarp]
    exact h
  · split at h
    · cases h
    · split at h
      · cases h
      · split at h
        · exact absurd h placeGridWin_not_local
        · exact absurd h placeVa_not_local

theorem place_local_updWarp {sp : Space} {wp : Nat} (h : place s iss sp wp l a n w = .ok (.ls x) tr) : place (updWarp s wg wi g) iss sp wp l a n w = .ok (.ls x) tr := by
  cases sp with
  | global => exact placeGlobal_local_updWarp h
  | local_ =>
    simp only [place] at h ⊢
    rw [issuerWg_updWarp]
    cases hk : issuerWg s iss with
    | none => simpa [hk] using h
    | some k => simpa only [hk, Option.map_some, placeLocal_updWarp] using h
  | cluster =>
    simp only [place] at h ⊢
    rw [issuerCluster_updWarp]
    exact h
  | priv =>
    simp only [place, placePriv] at h
    split at h
    · cases h
    · split at h
      · cases h
      · split at h
        · cases h
        · split at h
          · cases h
          · split at h
            · cases h
            · exact absurd h placeVa_not_local
end

section
variable {s : State} {c : WCtx} {i : Instr} {f : MF} {sp : Space} {m : MA} {l a : Nat}

/-- What a load waits with on one granule. -/
def feOp (c : WCtx) (f : MF) (sp : Space) (m : MA) (l a : Nat) : LaneOp := ⟨l, .ls a, BitVec.ofNat 64 (mAddr (passW c l) f m (sp == .priv) l), [], false⟩

/-- The granule that one waiting lane wants is served exactly when it is full and no earlier load waits there (08 R185). -/
theorem feServe_one {u : State} {id : Nat} {iss : Issuer} {va : BitVec 64} {ws : List (BitVec 64)} {b : Bool} :
    (feGet u (a / 16) = true → feAhead u id (a / 16) = false → lsCaps u a (mBytes f) = .good →
      feServe u iss f sp id [⟨l, .ls a, va, ws, b⟩] = ({ writes := laneWrites l f.d.toNat (loadVal f (leNat (lsBytes u a (mBytes f)))) (widRegs f.wid.toNat) }, [], if f.fe = 2 then feSet u (a / 16) false else u))
    ∧ (feGet u (a / 16) = false ∨ feAhead u id (a / 16) = true → feServe u iss f sp id [⟨l, .ls a, va, ws, b⟩] = ({}, [⟨l, .ls a, va, ws, b⟩], u)) := by
  refine ⟨fun hfull hfirst hgood => ?_, fun hwait => ?_⟩
  · simp [feServe, hfull, hfirst, takeLane_local hgood]
  · have hno : (feGet u (a / 16) && !feAhead u id (a / 16)) = false := by
      rcases hwait with h | h <;> simp [h]
    simp only [feServe, List.foldl_cons, List.foldl_nil, hno, Bool.false_eq_true, if_false, List.nil_append]

theorem loadEff_fe {u t : State} (hfe : f.fe ≠ 0) (hcs : c.cs = [l]) (ht : t = updThreads u c.wg c.wi (c.lanes.filter fun l => !c.cs.contains l) (stepThread (instrLen f.l)))
    (hu : undrained t (WCtx_iss c) = true) (hplace : place u (WCtx_iss c) sp c.wi l (mAddr (passW c l) f m (sp == .priv) l) (mBytes f) false = .ok (.ls a) Trans_none) :
    (feGet t (a / 16) = true → feAhead t t.nextId (a / 16) = false → lsCaps t a (mBytes f) = .good →
      loadEff i f sp m c u = launched c i (.load (laneWrites l f.d.toNat (loadVal f (leNat (lsBytes t a (mBytes f)))) (widRegs f.wid.toNat)) [] []) false false
        (updThreads (acquireIf (f.ordr = 2) (WCtx_iss c) f.obs (if f.fe = 2 then feSet t (a / 16) false else t)) c.wg c.wi c.cs (stepThread (instrLen f.l))))
    ∧ (feGet t (a / 16) = false ∨ feAhead t t.nextId (a / 16) = true →
      loadEff i f sp m c u = updThreads (openIn (inFlight (WCtx_iss c) c.pc f.look.toNat (.fullEmpty i [feOp c f sp m l a] [] []) t) c (c.lanes.filter fun l => !c.cs.contains l) t.nextId f.look.toNat (WCtx_use c i) false false)
        c.wg c.wi c.cs fun th => { th with park := some (.fullEmpty t.nextId false), plen := instrLen f.l }) := by
  have haccs : placed (accs t c f m sp (2 ^ f.wid.toNat) false) = [(l, mAddr (passW c l) f m (sp == .priv) l, .ls a, Trans_none)] := placed_accs_one hcs (by rw [ht]; exact place_local_updWarp hplace)
  have hserve := @feServe_one f sp l a t t.nextId (WCtx_iss c) (BitVec.ofNat 64 (mAddr (passW c l) f m (sp == .priv) l)) [] Trans_none.sc
  refine ⟨fun hfull hfirst hgood => ?_, fun hwait => ?_⟩
  · unfold loadEff
    simp only [hfe, ne_eq, not_false_eq_true, if_true, ← ht, haccs, beforeAccess_undrained hu, List.map_cons, List.map_nil, hserve.1 hfull hfirst hgood, acquireIf_eq]
    simp only [hcs, reduceCtorEq, if_false]
    rfl
  · unfold loadEff
    simp only [hfe, ne_eq, not_false_eq_true, if_true, ← ht, haccs, beforeAccess_undrained hu, List.map_cons, List.map_nil, hserve.2 hwait]
    simp only [hcs, reduceCtorEq, if_false]
    rfl

/-- The threads of the group after both halves of it have been changed. -/
theorem updWarp_groupStep {t : State} (f g : Thread → Thread) (h : Warp → Warp) :
    updThreads (updThreads (updWarp t c.wg c.wi h) c.wg c.wi (c.lanes.filter fun l => !c.cs.contains l) g) c.wg c.wi c.cs f = updWarp t c.wg c.wi fun w => groupStep c f g (h w) := by
  simp only [updThreads, updWarp_updWarp]
  rfl

theorem groupStep_open {f g k : Thread → Thread} (hc : warpCtx s i = some c) (w : Warp) :
    Warp_updThreads (groupStep c f g w) c.lanes k = groupStep c (fun th => k (f th)) (fun th => k (g th)) w := by
  obtain ⟨-, -, -, hnodup, -, hcs⟩ := warpCtx_spec hc
  have hcs' : c.cs.Nodup := hcs ▸ hnodup.filter _
  have hsub : ∀ x ∈ c.cs, x ∈ c.lanes := fun x hx => by rw [hcs] at hx; exact (List.mem_filter.mp hx).1
  simp only [groupStep, Warp_updThreads_eq _ _ _ hnodup, Warp_updThreads_eq _ _ _ hcs', Warp_updThreads_eq _ _ _ (hnodup.filter _), List.mapIdx_mapIdx_same]
  congr 2
  funext x th
  by_cases hx : x ∈ c.cs
  · simp [hx, hsub x hx]
  · by_cases hl : x ∈ c.lanes <;> simp [hx, hl]

/-- What a load that has read its granule leaves of it. -/
def feTaken (f : MF) (g : Nat) (t : State) : State := if f.fe = 2 then feSet t g false else t
theorem feTaken_updWarp {f : MF} {gr wg wi : Nat} {t : State} {g : Warp → Warp} : feTaken f gr (updWarp t wg wi g) = updWarp (feTaken f gr t) wg wi g := by
  unfold feTaken
  split <;> rfl
@[simp] theorem feTaken_nextId {f : MF} {gr : Nat} {t : State} : (feTaken f gr t).nextId = t.nextId := by
  unfold feTaken
  split <;> rfl

theorem loads_fullEmpty {op : WOp} (ho : warpOp i = some op) (hform : loadForm i = some (f, sp, m)) (hfe : f.fe ≠ 0) (hcs : c.cs = [l]) (hc : warpCtx s i = some c) (hr : WarpReady op s c = true)
    (hu : undrained s (WCtx_iss c) = true) (hplace : place (issued op c s) (WCtx_iss c) sp c.wi l (mAddr (passW c l) f m (sp == .priv) l) (mBytes f) false = .ok (.ls a) Trans_none) :
    (feGet s (a / 16) = true → feAhead s s.nextId (a / 16) = false → lsCaps s a (mBytes f) = .good →
      AnswersWith i s c { c.w with threads := threadsParkedWith c i (fun th => openedWindow c i s.nextId false false (stepThread (instrLen f.l) th)) (openedWindow c i s.nextId false false) }
        (fun t => inFlight (WCtx_iss c) c.pc f.look.toNat (.load (laneWrites l f.d.toNat (loadVal f (leNat (lsBytes s a (mBytes f)))) (widRegs f.wid.toNat)) [] [])
          (acquireIf (f.ordr = 2) (WCtx_iss c) f.obs (if f.fe = 2 then feSet t (a / 16) false else t))))
    ∧ (feGet s (a / 16) = false ∨ feAhead s s.nextId (a / 16) = true →
      AnswersWith i s c { c.w with threads := threadsParkedWith c i (fun th => { th with park := some (.fullEmpty s.nextId false), plen := instrLen f.l }) (openedWindow c i s.nextId false false) }
        (inFlight (WCtx_iss c) c.pc f.look.toNat (.fullEmpty i [feOp c f sp m l a] [] []))) := by
  obtain ⟨rfl, hlook⟩ := loadOp_of_form ho hform
  have hlen : instrLen (warpL i) = instrLen f.l := by
    unfold loadForm at hform
    split at hform <;> cases hform <;> rfl
  have hexec := exec_ready ho rfl hc hr
  have hstate : issued (loadOp i f sp m) c s = updWarp s c.wg c.wi (stayedWarp c i) := issued_stayed _ s c (by simpa [loadOp] using hfe)
  obtain ⟨hfull, hempty⟩ := loadEff_fe (i := i) (m := m) hfe hcs rfl (by rw [updThreads, undrained_updWarp, undrained_issued]; exact hu) hplace
  refine ⟨fun h1 h2 h3 => ?_, fun hwait => ?_⟩
  · refine ⟨fun w => Warp_updThreads (groupStep c (stepThread (instrLen f.l)) (stepThread (instrLen f.l)) (stayedWarp c i w)) c.lanes (openedWindow c i s.nextId false false), ?_, ?_⟩
    · have heff := hfull (by rw [hstate]; exact h1) (by rw [hstate]; exact h2) (by rw [hstate]; exact h3)
      rw [hexec]
      refine congrArg Host.Outcome.next (heff.trans ?_)
      rw [hstate, ← hlook]
      change launched c i _ false false (updThreads (acquireIf _ _ _ (feTaken f (a / 16) (updThreads (updWarp s c.wg c.wi (stayedWarp c i)) c.wg c.wi _ _))) c.wg c.wi c.cs _)
        = inFlight _ _ _ _ (acquireIf _ _ _ (feTaken f (a / 16) (updWarp s c.wg c.wi _)))
      simp only [updThreads, updWarp_updWarp, feTaken_updWarp, acquireIf_updWarp, launched_eq, updWarp_nextId, acquireIf_nextId, feTaken_nextId]
      rfl
    · dsimp only
      rw [groupStep_open hc]
      refine (stayedWarp_upd hc _ _).trans ?_
      rw [threadsParkedWith, ← hlen]
      rfl
  · refine ⟨fun w => groupStep c (fun th => { th with park := some (.fullEmpty s.nextId false), plen := instrLen f.l }) (fun th => openedWindow c i s.nextId false false (stepThread (instrLen f.l) th)) (stayedWarp c i w), ?_, ?_⟩
    · have heff := hempty (by rw [hstate]; exact hwait)
      rw [hexec]
      refine congrArg Host.Outcome.next (heff.trans ?_)
      rw [hstate, ← hlook]
      change updThreads (updThreads (inFlight _ _ _ _ (updThreads (updWarp s c.wg c.wi (stayedWarp c i)) c.wg c.wi _ _)) c.wg c.wi _ (openedWindow c i s.nextId false false)) c.wg c.wi c.cs _ = inFlight _ _ _ _ (updWarp s c.wg c.wi _)
      simp only [updThreads, inFlight_updWarp, updWarp_updWarp, Warp_updThreads_twice _ ((warpCtx_spec hc).2.2.2.1.filter _)]
      rfl
    · refine (stayedWarp_upd hc _ _).trans ?_
      rw [threadsParkedWith, ← hlen]
      rfl
end

section
variable {s u : State} {c : WCtx} {f : MF} {l a : Nat}

/-- A granule's bit after `fe` (08 R206). -/
theorem opFe_eff_one {loc : Loc} {tr : Trans} (hcs : c.cs = [l])
    (hfirst : place s (WCtx_iss c) (sxSpace f) c.wi l (mAddr (passW c l) f .off false l / 16 * 16) 16 true = .ok loc tr)
    (hu : orderBefore s (WCtx_iss c) (isRel f.ordr.toNat) f.obs [(loc, tr)] = u)
    (hplace : place u (WCtx_iss c) (sxSpace f) c.wi l (mAddr (passW c l) f .off false l / 16 * 16) 16 true = .ok (.ls a) Trans_none) :
    (opFe f).eff c s = launched c (.fe f) (.load (if f.fe = 0 ∨ f.fe = 2 then [⟨l, f.d.toNat, if feGet u (a / 16) then 1 else 0⟩] else []) [] []) false false
      (acquireIf (isAcq f.ordr.toNat) (WCtx_iss c) f.obs (if f.fe = 0 then u else feSet u (a / 16) (f.fe == 3))) := by
  have hbefore : placesOf (feAccs s c f (sxSpace f)) = [(loc, tr)] := by simp [placesOf, feAccs, hcs, placed, hfirst]
  have haccs : placed (feAccs u c f (sxSpace f)) = [(l, mAddr (passW c l) f .off false l / 16 * 16, .ls a, Trans_none)] := by simp [feAccs, hcs, placed, hplace]
  have hbits : f.fe = 0 ∨ f.fe = 1 ∨ f.fe = 2 ∨ f.fe = 3 := by
    generalize f.fe = x
    revert x
    decide
  simp only [opFe, hbefore, hu, haccs, List.foldl_cons, List.foldl_nil]
  rw [if_neg (by simp [hcs])]
  rcases hbits with h | h | h | h <;> simp only [h, launchFlight_eq, acquireIf] <;> rfl
end

/-- Settles O24. -/
theorem fullEmptyLoads : Obligations.FullEmptyLoads := by
  unfold Obligations.FullEmptyLoads
  refine ⟨?_, fun s c f hc hr => ⟨fun hcs => ?_, ?_⟩⟩
  · intro i op f sp m s c l a ho hform hfe hcs hc hr hu hplace
    exact loads_fullEmpty ho hform hfe hcs hc hr hu hplace
  · rw [exec_ready (i := .fe f) (op := opFe f) rfl rfl hc hr]
    simp only [opFe, hcs, if_true]
    rfl
  · intro l loc tr a hcs va hfirst u hplace
    rw [exec_ready (i := .fe f) (op := opFe f) rfl rfl hc hr, opFe_eff_one hcs hfirst rfl hplace]
end Sys2Proof.Machine
end

section
/-! O25: what a store leaves (08 R178, R204, 09 R211, R214, R219). -/

namespace Sys2Proof.Machine

@[simp] theorem leBytes_length (n v : Nat) : (leBytes n v).length = n := by
  induction n generalizing v with
  | zero => rfl
  | succ n ih => simp [leBytes, ih]

theorem storeOp_of_form {i : Instr} {op : WOp} {f : MF} {sp : Space} {m : MA} (ho : warpOp i = some op) (h : storeForm i = some (f, sp, m)) :
    op = storeOp i f sp m ∧ (warpLook i).getD 0 = f.look.toNat := by
  unfold storeForm at h
  split at h <;> cases h <;> cases ho <;> exact ⟨rfl, rfl⟩

theorem store_none {i : Instr} {op : WOp} {f : MF} {sp : Space} {m : MA} {s : State} {c : WCtx} (ho : warpOp i = some op) (hform : storeForm i = some (f, sp, m)) (hcs : c.cs = [])
    (hc : warpCtx s i = some c) (hr : WarpReady op s c = true) : exec i s = .next (launched c i .plain false (sp == .priv) (issued op c s)) := by
  obtain ⟨rfl, -⟩ := storeOp_of_form ho hform
  rw [exec_ready ho rfl hc hr]
  simp only [storeOp, storeEff, hcs, if_true]
  rfl

/-! ### One contributor -/

/-- What one lane's store makes of its place (08 R204). -/
def storeLane (c : WCtx) (f : MF) (sp : Space) (l a : Nat) (loc : Loc) (tr : Trans) (u : State) : State :=
  let w := storeAt u (WCtx_iss c) l loc tr (leBytes (mBytes f) (vgetN c.w f.d.toNat l (widRegs f.wid.toNat))) (f.ordr ≠ 0 && obsBeyondT f.obs) (c.pc, BitVec.ofNat 64 (accVa c sp l a))
  match loc with
  | .ls y => if f.fe = 3 then feSetAll w y (mBytes f) true else w
  | _ => w

section
variable {i : Instr} {f : MF} {sp : Space} {m : MA} {c : WCtx} {l : Nat} {loc loc' : Loc} {tr tr' : Trans}

theorem storeEff_one {t r : State} {a : Nat} (ha : mAddr (passW c l) f m (sp == .priv) l = a) (hcs : c.cs = [l]) (hfirst : place t (WCtx_iss c) sp c.wi l a (mBytes f) true = .ok loc' tr')
    (hr : orderBefore t (WCtx_iss c) (f.ordr = 3) f.obs [(loc', tr')] = r) (hplace : place r (WCtx_iss c) sp c.wi l a (mBytes f) true = .ok loc tr) :
    (onItsWay c (f.ordr ≠ 0 && obsBeyondT f.obs) loc tr = false →
      storeEff i f sp m c t = launched c i .plain false (sp == .priv) (markStores (storeLane c f sp l a loc tr (touchTlb r (WCtx_iss c) (accVa c sp l a) tr)) c [loc] f.look.toNat))
    ∧ (onItsWay c (f.ordr ≠ 0 && obsBeyondT f.obs) loc tr = true →
      storeEff i f sp m c t = launched c i
        (.exec i [⟨l, loc, BitVec.ofNat 64 (accVa c sp l a), [BitVec.ofNat 64 (vgetN c.w f.d.toNat l (widRegs f.wid.toNat)), BitVec.ofNat 64 (vgetN c.w f.d.toNat l (widRegs f.wid.toNat) / 2 ^ 64)], tr.sc⟩] (issuerKey t (WCtx_iss c)))
        false (sp == .priv) (markStores (touchTlb r (WCtx_iss c) (accVa c sp l a) tr) c [loc] f.look.toNat)) := by
  subst ha
  have hbefore : placesOf (accs t c f m sp (2 ^ f.wid.toNat) true) = [(loc', tr')] := by
    rw [placesOf, placed_accs_one hcs hfirst]
    rfl
  have haccs := placed_accs_one hcs hplace
  refine ⟨fun hnow => ?_, fun hlater => ?_⟩
  · simp only [storeEff, hcs, reduceCtorEq, if_false, hbefore, hr, haccs, List.foldl_cons, List.foldl_nil, List.map_cons, List.map_nil, hnow, Bool.false_eq_true, List.filter_cons, List.filter_nil, if_true]
    rfl
  · simp only [storeEff, hcs, reduceCtorEq, if_false, hbefore, hr, haccs, List.foldl_cons, List.foldl_nil, List.map_cons, List.map_nil, hlater, List.filter_cons, List.filter_nil, if_true]
    rfl
end

/-! ### Local stores -/

section
variable {c : WCtx} {f : MF} {adr : Nat → Nat}

/-- One lane's store into a local store. -/
def localStore (c : WCtx) (f : MF) (adr : Nat → Nat) (t : State) (l : Nat) : State :=
  let u := lsWrite t (adr l) (leBytes (mBytes f) (vgetN c.w f.d.toNat l (widRegs f.wid.toNat)))
  if f.fe = 3 then feSetAll u (adr l) (mBytes f) true else u

theorem feSetAll_eq (s : State) (a n : Nat) (b : Bool) : ∃ x, feSetAll s a n b = { s with lsFull := x } := by
  unfold feSetAll
  generalize granules a n = gs
  induction gs generalizing s with
  | nil => exact ⟨_, rfl⟩
  | cons g r ih => exact ih (feSet s g b)

theorem localStore_eq (t : State) (l : Nat) : ∃ x y z, localStore c f adr t l = { t with lstore := x, lsSynd := y, lsFull := z } := by
  unfold localStore
  split
  · obtain ⟨x, hx⟩ := feSetAll_eq (lsWrite t (adr l) (leBytes (mBytes f) (vgetN c.w f.d.toNat l (widRegs f.wid.toNat)))) (adr l) (mBytes f) true
    exact ⟨_, _, _, hx⟩
  · exact ⟨_, _, _, rfl⟩

/-- Stores into local stores touch nothing else. -/
theorem foldl_localStore_eq (ls : List Nat) (t : State) : ∃ x y z, ls.foldl (localStore c f adr) t = { t with lstore := x, lsSynd := y, lsFull := z } := by
  induction ls generalizing t with
  | nil => exact ⟨_, _, _, rfl⟩
  | cons l r ih =>
    obtain ⟨x, y, z, h⟩ := localStore_eq (c := c) (f := f) (adr := adr) t l
    rw [List.foldl_cons, h]
    exact ih _

theorem localStore_byte (t : State) (l x : Nat) : SMap.get (w := 8) (localStore c f adr t l).lstore x
    = if adr l ≤ x ∧ x < adr l + mBytes f then (leBytes (mBytes f) (vgetN c.w f.d.toNat l (widRegs f.wid.toNat))).getD (x - adr l) 0 else SMap.get (w := 8) t.lstore x := by
  have hwrite := lsWrite_get t (adr l) (leBytes (mBytes f) (vgetN c.w f.d.toNat l (widRegs f.wid.toNat))) x
  rw [leBytes_length] at hwrite
  rw [← hwrite, localStore]
  split
  · obtain ⟨y, hy⟩ := feSetAll_eq (lsWrite t (adr l) (leBytes (mBytes f) (vgetN c.w f.d.toNat l (widRegs f.wid.toNat)))) (adr l) (mBytes f) true
    rw [hy]
  · rfl

/-- Each byte takes the value of the last lane that covers it. -/
theorem foldl_localStore_byte (ls : List Nat) (t : State) (x : Nat) : SMap.get (w := 8) (ls.foldl (localStore c f adr) t).lstore x
    = match (ls.filter fun l => decide (adr l ≤ x ∧ x < adr l + mBytes f)).getLast? with
      | some l => (leBytes (mBytes f) (vgetN c.w f.d.toNat l (widRegs f.wid.toNat))).getD (x - adr l) 0
      | none => SMap.get (w := 8) t.lstore x := by
  induction ls using List.reverseRecOn with
  | nil => rfl
  | append_singleton ls l ih =>
    rw [List.foldl_append, List.foldl_cons, List.foldl_nil, localStore_byte, ih, List.filter_append]
    by_cases hl : adr l ≤ x ∧ x < adr l + mBytes f
    · simp [hl]
    · simp [hl]

theorem feGet_feSet (s : State) (g h : Nat) (b : Bool) : feGet (feSet s g b) h = if h = g then b else feGet s h := by
  simp only [feGet, feSet, SMap.get_set]
  by_cases hg : h = g
  · cases b <;> simp [hg, bit1]
  · simp [hg]
theorem feGet_feSetAll (s : State) (a n g : Nat) : feGet (feSetAll s a n true) g = (feGet s g || (granules a n).contains g) := by
  unfold feSetAll
  generalize granules a n = gs
  induction gs generalizing s with
  | nil => simp
  | cons h r ih =>
    rw [List.foldl_cons, ih, feGet_feSet]
    by_cases hg : g = h <;> simp [hg]
theorem localStore_full (t : State) (l g : Nat) : feGet (localStore c f adr t l) g = (feGet t g || (f.fe == 3 && (granules (adr l) (mBytes f)).contains g)) := by
  unfold localStore
  by_cases h : f.fe = 3
  · rw [if_pos h, feGet_feSetAll, beq_iff_eq.mpr h, Bool.true_and]
    rfl
  · rw [if_neg h, beq_eq_false_iff_ne.mpr h, Bool.false_and, Bool.or_false]
    rfl
theorem foldl_localStore_full (ls : List Nat) (t : State) (g : Nat) :
    feGet (ls.foldl (localStore c f adr) t) g = (feGet t g || (f.fe == 3 && ls.any fun l => (granules (adr l) (mBytes f)).contains g)) := by
  induction ls generalizing t with
  | nil => simp
  | cons l r ih =>
    rw [List.foldl_cons, ih, localStore_full, List.any_cons]
    cases feGet t g <;> cases (f.fe == 3) <;> simp

theorem storeEff_local {i : Instr} {sp : Space} {m : MA} {u : State} (hcs : c.cs ≠ []) (hordr : f.ordr = 0) (hu : undrained u (WCtx_iss c) = true) (hat : AtLocal u c f m sp true adr) :
    storeEff i f sp m c u = launched c i .plain false (sp == .priv) (c.cs.foldl (localStore c f adr) u) := by
  have hbefore : ∀ ps, orderBefore u (WCtx_iss c) (f.ordr = 3) f.obs ps = u := fun ps => by
    simp only [orderBefore, hordr]
    exact beforeAccess_undrained hu ps
  have hway : ∀ l, onItsWay c (f.ordr ≠ 0 && obsBeyondT f.obs) (.ls (adr l)) Trans_none = false := fun l => by simp [onItsWay]
  have hmarks : ∀ t, markStores t c (c.cs.map fun l => .ls (adr l)) f.look.toNat = t := fun t => by simp [markStores]
  simp only [storeEff, hcs, if_false, hbefore, placed_accs_local hat, List.foldl_map, List.map_map, List.filter_map, Function.comp_def, hway, Bool.false_eq_true, if_false, touchTlb_none, List.filter_false, List.map_nil, if_true]
  exact congrArg (launched c i .plain false (sp == .priv)) (hmarks _)

theorem lsBytes_one (t : State) (x : Nat) : lsBytes t x 1 = [SMap.get (w := 8) t.lstore x] := rfl

theorem stores_local {i : Instr} {op : WOp} {sp : Space} {m : MA} {s : State} (ho : warpOp i = some op) (hform : storeForm i = some (f, sp, m)) (hcs : c.cs ≠ []) (hordr : f.ordr = 0)
    (hc : warpCtx s i = some c) (hr : WarpReady op s c = true) (hu : undrained s (WCtx_iss c) = true) (hat : AtLocal (issued op c s) c f m sp true adr) :
    ∃ t, exec i s = .next t ∧ t.mem = s.mem ∧ t.hostMem = s.hostMem ∧ t.l1 = s.l1
      ∧ (∀ x, lsBytes t x 1 = match lastWriter c (mBytes f) adr x with
        | some l => [(leBytes (mBytes f) (vgetN c.w f.d.toNat l (widRegs f.wid.toNat))).getD (x - adr l) 0]
        | none => lsBytes s x 1)
      ∧ (∀ g, feGet t g = (feGet s g || (f.fe == 3 && c.cs.any fun l => (granules (adr l) (mBytes f)).contains g)))
      ∧ t.flights = s.flights ++ [{ id := s.nextId, who := WCtx_iss c, pc := c.pc, look := f.look.toNat, clk := s.clk, kind := .plain }]
      ∧ ∃ h, t.wgs = (updWarp s c.wg c.wi h).wgs ∧ h c.w = { c.w with threads := threadsAfter c i fun _ => openedWindow c i s.nextId false (sp == .priv) } := by
  obtain ⟨rfl, hlook⟩ := storeOp_of_form ho hform
  have hstate := issued_eq (storeOp i f sp m) s c rfl
  have hexec := exec_ready ho rfl hc hr
  have heff : (storeOp i f sp m).eff c _ = _ := storeEff_local (i := i) hcs hordr (by rw [undrained_issued]; exact hu) hat
  rw [heff, hstate] at hexec
  change exec i s = .next (launched c i .plain false (sp == .priv) (c.cs.foldl (localStore c f adr) (updWarp s c.wg c.wi (passedWarp c i)))) at hexec
  have hbyte := foldl_localStore_byte (c := c) (f := f) (adr := adr) c.cs (updWarp s c.wg c.wi (passedWarp c i))
  have hfull := foldl_localStore_full (c := c) (f := f) (adr := adr) c.cs (updWarp s c.wg c.wi (passedWarp c i))
  obtain ⟨x, y, z, hfold⟩ := foldl_localStore_eq (c := c) (f := f) (adr := adr) c.cs (updWarp s c.wg c.wi (passedWarp c i))
  generalize c.cs.foldl (localStore c f adr) (updWarp s c.wg c.wi (passedWarp c i)) = u at hexec hbyte hfull hfold
  refine ⟨_, hexec, ?_, ?_, ?_, fun a => ?_, fun g => ?_, ?_, fun w => Warp_updThreads (passedWarp c i w) c.lanes (openedWindow c i s.nextId false (sp == .priv)), ?_, ?_⟩
  · change u.mem = s.mem
    rw [hfold]
    rfl
  · change u.hostMem = s.hostMem
    rw [hfold]
    rfl
  · change u.l1 = s.l1
    rw [hfold]
    rfl
  · change [SMap.get (w := 8) u.lstore a] = _
    rw [hbyte, lastWriter]
    cases (c.cs.filter fun l => decide (adr l ≤ a ∧ a < adr l + mBytes f)).getLast? <;> rfl
  · exact hfull g
  · rw [← hlook]
    change u.flights ++ [({ id := u.nextId, who := WCtx_iss c, pc := c.pc, look := (warpLook i).getD 0, clk := u.clk, kind := .plain } : Flight)] = _
    rw [hfold]
    rfl
  · have hnext : u.nextId = s.nextId := by rw [hfold]; rfl
    rw [launched_eq, hnext]
    refine Eq.trans ?_ (congrArg State.wgs (updWarp_updWarp s c.wg c.wi (passedWarp c i) fun w => Warp_updThreads w c.lanes (openedWindow c i s.nextId false (sp == .priv))))
    rw [hfold]
    rfl
  · dsimp only
    rw [passedWarp_eq hc, Warp_updThreads_eq _ _ _ (warpCtx_spec hc).2.2.2.1]
    simp only [threadsAfter, List.mapIdx_mapIdx_same]
    congr 2
    funext l th
    by_cases hl : l ∈ c.lanes <;> simp [hl]
end

/-- Settles O25. -/
theorem stores : Obligations.Stores := by
  unfold Obligations.Stores
  refine ⟨?_, ?_, ?_⟩
  · intro i op f sp m s c adr ho hform hcs hordr hc hr hu hat
    exact stores_local ho hform hcs hordr hc hr hu hat
  · intro i op f sp m s c l loc loc' tr tr' ho hform hcs hc hr n a va v strong hfirst r hplace
    obtain ⟨rfl, -⟩ := storeOp_of_form ho hform
    obtain ⟨hnow, hlater⟩ := storeEff_one (i := i) rfl hcs hfirst rfl hplace
    rw [exec_ready ho rfl hc hr]
    exact ⟨fun h => congrArg Host.Outcome.next (hnow h), fun h => congrArg Host.Outcome.next (hlater h)⟩
  · intro i op f sp m s c ho hform hcs hc hr
    exact store_none ho hform hcs hc hr
end Sys2Proof.Machine
end

section
/-! O27: operations at execution points go into flight (09 R220, R232 to R242). -/

namespace Sys2Proof.Machine

section
variable {p : PointOp} {s : State} {c : WCtx}

theorem point_none (ho : warpOp p.i = some (pointIssue p)) (hc : warpCtx s p.i = some c) (hr : WarpReady (pointIssue p) s c = true) (hcs : c.cs = []) :
    exec p.i s = .next (launched c p.i .plain false false (issued (pointIssue p) c s)) := by
  rw [exec_ready ho rfl hc hr]
  simp only [pointIssue, hcs, if_true]
  rfl

/-- The flight of an operation at an execution point, its granules dropped from the L1 and its agents' reservations ended (09 R220, R221). -/
theorem point_eff (hcs : c.cs ≠ []) (t : State) :
    let r := orderBefore t (WCtx_iss c) (isRel p.ordr) p.obs (placesOf (p.accs t c))
    let ps := placed (p.accs r c)
    let v := ps.foldl (fun t (_, a, loc, tr) => touchTlb (pointDrop t (WCtx_iss c) loc p.n) (WCtx_iss c) a tr) r
    let x := launched c p.i (.exec p.i (ps.map fun (l, a, loc, tr) => ⟨l, loc, BitVec.ofNat 64 a, p.data c l, tr.sc⟩) (issuerKey t (WCtx_iss c))) false false
      (issueResv v (WCtx_iss c) p.i v.nextId (ps.map fun x => (x.1, x.2.2.1)))
    (pointIssue p).eff c t = if p.marks then markTask x c 2 p.look else x := by
  simp only [pointIssue, hcs, if_false]
  rfl

theorem pointDrop_local (t : State) (iss : Issuer) (x n : Nat) : pointDrop t iss (.ls x) n = t := by
  unfold pointDrop
  split
  · rename_i h
    cases h
  · rfl

theorem issueResv_other {i : Instr} (h : ∀ f, i ≠ .ldres f ∧ i ≠ .stcond f) (t : State) (iss : Issuer) (n : Nat) (ops : List (Nat × Loc)) : issueResv t iss i n ops = t := by
  unfold issueResv
  split
  · exact absurd rfl (h _).1
  · exact absurd rfl (h _).2
  · rfl

theorem mem_placed {accs : List LAcc} {x : Nat × Nat × Loc × Trans} (h : x ∈ placed accs) : ∃ a ∈ accs, a.acc = .ok x.2.2.1 x.2.2.2 := by
  obtain ⟨a, ha, hx⟩ := List.mem_filterMap.mp h
  refine ⟨a, ha, ?_⟩
  split at hx
  · rename_i he
    cases hx
    exact he
  · cases hx

/-- In local stores nothing is dropped and no translation is used. -/
theorem foldl_pointDrop_local {accs : List LAcc} {n : Nat} {t : State} {iss : Issuer} (h : ∀ a ∈ accs, ∃ x, a.acc = .ok (.ls x) Trans_none) :
    (placed accs).foldl (fun t (x : Nat × Nat × Loc × Trans) => touchTlb (pointDrop t iss x.2.2.1 n) iss x.2.1 x.2.2.2) t = t := by
  have hstep : ∀ x ∈ placed accs, ∀ u : State, touchTlb (pointDrop u iss x.2.2.1 n) iss x.2.1 x.2.2.2 = u := fun x hx u => by
    obtain ⟨a, ha, hacc⟩ := mem_placed hx
    obtain ⟨y, hy⟩ := h a ha
    rw [hy] at hacc
    injection hacc with hloc htr
    rw [← hloc, ← htr, pointDrop_local, touchTlb_none]
  generalize placed accs = l at hstep
  induction l with
  | nil => rfl
  | cons x r ih =>
    rw [List.foldl_cons, hstep x (by simp)]
    exact ih fun y hy => hstep y (by simp [hy])

theorem issuerKey_issued {op : WOp} (hs : op.stay = false) (hc : warpCtx s op.i = some c) : issuerKey (issued op c s) (WCtx_iss c) = ksee c.w := by
  obtain ⟨hk, -, hw, -⟩ := warpCtx_spec hc
  have hfind : findWarp (issued op c s) c.wg c.wi = some (passedWarp c op.i c.w) := by
    rw [issued_eq _ _ _ hs, findWarp, findWg_updWarp hk]
    exact warps_updWarp hw _
  simp only [issuerKey, WCtx_iss, hfind, passedWarp_eq hc, ksee]

theorem point_local (ho : warpOp p.i = some (pointIssue p)) (hcs : c.cs ≠ []) (hordr : p.ordr ≠ 3 ∧ p.ordr ≠ 4) (htask : c.k.taskOn = false) (hno : ∀ f, p.i ≠ .ldres f ∧ p.i ≠ .stcond f)
    (hc : warpCtx s p.i = some c) (hr : WarpReady (pointIssue p) s c = true) (hu : undrained s (WCtx_iss c) = true) (hat : ∀ a ∈ p.accs (issued (pointIssue p) c s) c, ∃ x, a.acc = .ok (.ls x) Trans_none) :
    AnswersWith p.i s c { c.w with threads := threadsAfter c p.i fun _ => openedWindow c p.i s.nextId false false }
      (inFlight (WCtx_iss c) c.pc ((warpLook p.i).getD 0)
        (.exec p.i ((placed (p.accs (issued (pointIssue p) c s) c)).map fun (l, a, loc, _) => ⟨l, loc, BitVec.ofNat 64 a, p.data c l, false⟩) (ksee c.w))) := by
  refine ready_launched (exec_of_warpOp ho) rfl hc hr rfl ?_
  have hrel : isRel p.ordr = false := by
    obtain ⟨h3, h4⟩ := hordr
    simp [isRel, h3, h4]
  have hbefore : ∀ ps, orderBefore (issued (pointIssue p) c s) (WCtx_iss c) (isRel p.ordr) p.obs ps = issued (pointIssue p) c s := fun ps => by
    rw [hrel]
    exact beforeAccess_undrained (by rw [undrained_issued]; exact hu) ps
  have hsc : ∀ x ∈ placed (p.accs (issued (pointIssue p) c s) c), x.2.2.2.sc = false := fun x hx => by
    obtain ⟨a, ha, hacc⟩ := mem_placed hx
    obtain ⟨y, hy⟩ := hat a ha
    rw [hy] at hacc
    injection hacc with _ htr
    rw [← htr]
    rfl
  have hmark : ∀ t, markTask t c 2 p.look = t := fun t => by simp [markTask, htask]
  have hops : (placed (p.accs (issued (pointIssue p) c s) c)).map (fun x => (⟨x.1, x.2.2.1, BitVec.ofNat 64 x.2.1, p.data c x.1, x.2.2.2.sc⟩ : LaneOp))
      = (placed (p.accs (issued (pointIssue p) c s) c)).map fun x => ⟨x.1, x.2.2.1, BitVec.ofNat 64 x.2.1, p.data c x.1, false⟩ :=
    List.map_congr_left fun x hx => by rw [hsc x hx]
  rw [point_eff hcs]
  simp only [hbefore, foldl_pointDrop_local hat, issueResv_other hno, hmark, ite_self, hops, issuerKey_issued (op := pointIssue p) rfl hc]
end

/-- Settles O27. -/
theorem pointOperations : Obligations.PointOperations := by
  unfold Obligations.PointOperations
  refine ⟨fun p s c ho hcs hordr htask hno hc hr hu hat => point_local ho hcs hordr htask hno hc hr hu hat, fun p s c ho hc hr => ⟨point_none ho hc hr, fun hcs => ?_⟩⟩
  intro r ps t
  rw [exec_ready ho rfl hc hr, point_eff hcs]
end Sys2Proof.Machine
end

section
/-! O44: the memory instructions of the cue stream (10 R273 to R275). -/

namespace Sys2Proof.Machine

section
variable {s t r u : State} {c : CCtx} {f : QM} {loc loc' : Loc} {tr tr' : Trans}

/-- The one access of a cue thread's memory instruction. -/
theorem placesOf_qmAccs {a n : Nat} {w excl : Bool} (h : placeGlobal t c.iss a n w excl = .ok loc tr) : placesOf (qmAccs a n w excl t c) = [(loc, tr)] := by
  simp [placesOf, placed, qmAccs, h]

theorem opCld_eff {bs : List Byte} {cap : CapState} (hfirst : placeGlobal t c.iss (qmAddr c f) (qmBytes f) false false = .ok loc' tr') (hr : beforeAccess t c.iss [(loc', tr')] = r)
    (hplace : placeGlobal r c.iss (qmAddr c f) (qmBytes f) false false = .ok loc tr) (hload : loadAt r c.iss loc tr (qmBytes f) (f.ordr ≠ 0 && (f.ordr = 2 || obsBeyondT f.obs)) = (bs, cap, u)) :
    (opCld f).eff c t = launchedCue c (.cld f) (match integrityCause 6 cap with
        | none => .load (cueWrites f.d.toNat (cldVal f (leNat bs)) (qmRegs f.wid.toNat)) [] []
        | some x => .load [] [] [(0, x, BitVec.ofNat 64 (qmAddr c f))]) false
      (acquireIf (f.ordr = 2) c.iss f.obs (touchTlb u c.iss (qmAddr c f) tr)) := by
  simp only [opCld, placesOf_qmAccs hfirst, hr, hplace, hload, acquireIf_eq]
  cases integrityCause 6 cap <;> rfl

theorem opCst_eff (hfirst : placeGlobal t c.iss (qmAddr c f) (qmBytes f) true false = .ok loc' tr') (hr : orderBefore t c.iss (f.ordr = 3) f.obs [(loc', tr')] = r)
    (hplace : placeGlobal r c.iss (qmAddr c f) (qmBytes f) true false = .ok loc tr) (hu : touchTlb r c.iss (qmAddr c f) tr = u) :
    (opCst f).eff c t = if cueOnWay c (f.ordr ≠ 0 && obsBeyondT f.obs) loc tr = true then launchedCue c (.cst f)
        (.exec (.cst f) [⟨0, loc, BitVec.ofNat 64 (qmAddr c f), [BitVec.ofNat 64 (qmData c f), BitVec.ofNat 64 (qmData c f / 2 ^ 64)], tr.sc⟩] (issuerKey t c.iss)) false
        (markCueStore u c loc f.look.toNat)
      else launchedCue c (.cst f) .plain false
        (markCueStore (storeAt u c.iss 0 loc tr (leBytes (qmBytes f) (qmData c f)) (f.ordr ≠ 0 && obsBeyondT f.obs) (c.pc, BitVec.ofNat 64 (qmAddr c f))) c loc f.look.toNat) := by
  simp only [opCst, placesOf_qmAccs hfirst, hr, hplace, hu]
  rfl

theorem cuePoint_eff {i : Instr} {op : COp} {g : QM} {n : Nat} {excl : Bool} {ops : List DWord} (hform : cuePointForm c i = some (g, n, excl, ops)) (hop : cueOp i = some op)
    (hr : orderBefore t c.iss (isRel g.ordr.toNat) g.obs (placesOf (pointAccs g n excl t c)) = r) (hplace : placeGlobal r c.iss (qmAddr c g) n true excl = .ok loc tr) :
    op.eff c t = markCue (launchedCue c i (.exec i [⟨0, loc, BitVec.ofNat 64 (qmAddr c g), ops, tr.sc⟩] (issuerKey t c.iss)) false (touchTlb (pointDrop r c.iss loc n) c.iss (qmAddr c g) tr)) c 2 g.look.toNat := by
  unfold cuePointForm at hform
  split at hform
  · cases hform
    cases hop
    have hr' : orderBefore t c.iss (isRel _) _ (placesOf (pointAccs _ (qmBytes _) false t c)) = r := hr
    have hplace' : placeGlobal r c.iss (qmAddr c _) (qmBytes _) true false = .ok loc tr := hplace
    simp only [opCatom, cuePoint, hr', hplace']
    rfl
  · cases hform
    cases hop
    simp only [opCforage, cuePoint, hr, hplace]
    rfl
  · cases hform
end

/-- Settles O44. -/
theorem cueMemory : Obligations.CueMemory := by
  unfold Obligations.CueMemory
  intro s c f loc loc' tr tr' hp
  refine ⟨?_, ?_, ?_⟩
  · intro bs cap u hc hr hfirst r hplace hload
    exact (exec_of_cueReady (op := opCld f) rfl hc hr hp).trans (congrArg Host.Outcome.next (opCld_eff hfirst rfl hplace hload))
  · intro hc hr a strong hfirst r hplace u
    rw [exec_of_cueReady (op := opCst f) rfl hc hr hp, opCst_eff hfirst rfl hplace rfl]
    exact ⟨fun h => congrArg Host.Outcome.next (if_neg (by rw [h]; decide)), fun h => congrArg Host.Outcome.next (if_pos h)⟩
  · intro i op g n excl ops hform hop hc hr r hplace
    rw [exec_of_cueReady hop hc hr hp, cuePoint_eff hform hop rfl hplace]
end Sys2Proof.Machine
end

section
/-! What happens at an execution point leaves the list of flights as it is. -/

namespace Sys2Proof.Machine

@[simp] theorem foldl_flights {α : Type} (l : List α) (f : State → α → State) (s : State) (h : ∀ t x, (f t x).flights = t.flights) : (l.foldl f s).flights = s.flights := by
  induction l generalizing s with
  | nil => rfl
  | cons x r ih => rw [List.foldl_cons, ih, h]
theorem foldl_snd_flights {α β : Type} (l : List α) (f : β × State → α → β × State) (a : β × State) (h : ∀ t x, (f t x).2.flights = t.2.flights) : (l.foldl f a).2.flights = a.2.flights := by
  induction l generalizing a with
  | nil => rfl
  | cons x r ih => rw [List.foldl_cons, ih, h]
@[simp] theorem combUse_flights (s : State) (line : ℕ) (mask : BitVec 128) (key : BitVec 16) : (combUse s line mask key).flights = s.flights := by
  simp [combUse]
@[simp] theorem endResv_flights (s : State) (g : ℕ) (who : Option Agent) : (endResv s g who).flights = s.flights := by
  simp [endResv]
@[simp] theorem homeMerge_flights (s : State) (line : Nat) (mask : BitVec 128) (d : BitVec 1024) (key : BitVec 16) (who : Option Agent) : (homeMerge s line mask d key who).flights = s.flights := by
  unfold homeMerge
  split
  · rfl
  · refine (foldl_flights _ _ _ fun t j => ?_).trans ?_
    · split <;> simp
    · simp
@[simp] theorem homeWrite_flights (s : State) (pa : Nat) (bs : List Byte) (key : BitVec 16) (who : Option Agent) : (homeWrite s pa bs key who).flights = s.flights := by
  simp [homeWrite]
@[simp] theorem softTake_flights (s : State) (lo : ℕ) (hi : ℕ) : (softTake s lo hi).2.flights = s.flights := by
  unfold softTake
  split <;> simp
@[simp] theorem updPort_flights (s : State) (p : ℕ) (f : Port → Port) : (updPort s p f).flights = s.flights := by
  simp [updPort]
@[simp] theorem offerPort_flights (s : State) (p : ℕ) (m : Msg) : (offerPort s p m).flights = s.flights := by
  simp only [offerPort]
  (repeat' split) <;> simp [*]
@[simp] theorem routeMsg_flights (s : State) (m : Msg) : (routeMsg s m).flights = s.flights := by
  unfold routeMsg
  split <;> simp
@[simp] theorem postMsg_flights (s : State) (m : Msg) : (postMsg s m).flights = s.flights := by
  simp [postMsg]
@[simp] theorem askPeer_flights (s : State) (a : Asker) (m : Msg) : (askPeer s a m).flights = s.flights := by
  simp [askPeer]
@[simp] theorem peerPoint_flights (s : State) (p : Point) (o : LaneOp) (pa : ℕ) (n : ℕ) : (peerPoint s p o pa n).2.2.flights = s.flights := by
  simp [peerPoint]
@[simp] theorem combRead_flights (s : State) (pa : ℕ) (n : ℕ) (key : BitVec 16) : (combRead s pa n key).flights = s.flights := by
  unfold combRead
  split <;> simp
@[simp] theorem sendMsg_flights (s : State) (dst : ℕ) (kind : BitVec 6) (page : ℕ) (seq : BitVec 16) (aux : ℕ) (data : List Byte) : (sendMsg s dst kind page seq aux data).flights = s.flights := by
  simp [sendMsg]
@[simp] theorem peerRead_flights (s : State) (pa : ℕ) (n : ℕ) : (peerRead s pa n).2.flights = s.flights := by
  simp [peerRead]
@[simp] theorem behindRead_flights (s : State) (loc : Loc) (n : ℕ) (key : BitVec 16) : (behindRead s loc n key).2.2.flights = s.flights := by
  unfold behindRead
  (repeat' split) <;> grind [combRead_flights, peerRead_flights, foldl_flights]
@[simp] theorem pointRead_flights (s : State) (p : Point) (o : LaneOp) (n : ℕ) : (pointRead s p o n).2.2.flights = s.flights := by
  unfold pointRead
  split <;> simp
@[simp] theorem setQreg_flights (s : State) (q : ℕ) (f : ℕ) (v : ℕ) : (setQreg s q f v).flights = s.flights := by
  simp [setQreg]
@[simp] theorem chaltRelease_flights (s : State) (m : ℕ) : (chaltRelease s m).flights = s.flights := by
  simp only [chaltRelease]
  (repeat' split) <;> simp [*]
@[simp] theorem wakeOr_flights (s : State) (target : ℕ) (v : ℕ) : (wakeOr s target v).flights = s.flights := by
  unfold wakeOr
  (repeat' split) <;> simp [*]
@[simp] theorem queueWrite_flights (s : State) (q : ℕ) (f : ℕ) (v : ℕ) : (queueWrite s q f v).flights = s.flights := by
  unfold queueWrite
  (repeat' split) <;> simp [*]
@[simp] theorem regStore_flights (s : State) (off : ℕ) (n : ℕ) (v : ℕ) : (regStore s off n v).flights = s.flights := by
  simp only [regStore]
  (repeat' split) <;> simp [*]
@[simp] theorem regWrite_flights (s : State) (off : ℕ) (n : ℕ) (v : ℕ) : (regWrite s off n v).flights = s.flights := by
  unfold regWrite
  split <;> simp
@[simp] theorem takePair_flights (s : State) (pair : ℕ) : (takePair s pair).flights = s.flights := by
  simp [takePair]
@[simp] theorem errWrite_flights (s : State) (bs : List Byte) : (errWrite s bs).flights = s.flights := by
  simp [errWrite]
@[simp] theorem errReport_flights (s : State) : (errReport s).flights = s.flights := by
  unfold errReport
  split <;> simp
@[simp] theorem postEntry_flights (s : State) (bs : List Byte) : (postEntry s bs).flights = s.flights := by
  simp only [postEntry]
  (repeat' split) <;> simp [*]
@[simp] theorem postRec_flights (s : State) (r : TrapRec) (wg : Option ℕ) : (postRec s r wg).flights = s.flights := by
  unfold postRec
  split <;> simp
@[simp] theorem postAsync_flights (s : State) (cause : Cause) (addr : BitVec 64) (wg : Option ℕ) : (postAsync s cause addr wg).flights = s.flights := by
  simp [postAsync]
@[simp] theorem colRead_flights (s : State) (c : ℕ) (v : BitVec 16) : (colRead s c v).flights = s.flights := by
  simp only [colRead]
  (repeat' split) <;> simp [*]
@[simp] theorem reclass_flights (s : State) : (reclass s).flights = s.flights := by
  unfold reclass
  grind [colRead_flights, foldl_flights]
@[simp] theorem disableQueue_flights (s : State) (q : ℕ) : (disableQueue s q).flights = s.flights := by
  unfold disableQueue
  (repeat' split) <;> grind [postAsync_flights, updQueue_flights, setQreg_flights, foldl_flights]
@[simp] theorem mapWrite_flights (s : State) (off : ℕ) (n : ℕ) (v : ℕ) : (mapWrite s off n v).flights = s.flights := by
  simp only [mapWrite]
  (repeat' split) <;> simp [*]
@[simp] theorem peerWrite_flights (s : State) (a : Asker) (pa : ℕ) (bs : List Byte) (caps : List (BitVec 16)) : (peerWrite s a pa bs caps).flights = s.flights := by
  simp [peerWrite]
@[simp] theorem behindWrite_flights (s : State) (iss : Issuer) (lane : ℕ) (loc : Loc) (bs : List Byte) (key : BitVec 16) (at_ : optParam (VAddr × BitVec 64) (0, 0)) : (behindWrite s iss lane loc bs key at_).flights = s.flights := by
  unfold behindWrite
  split <;> simp
@[simp] theorem pointWrite_flights (s : State) (p : Point) (o : LaneOp) (bs : List Byte) : (pointWrite s p o bs).flights = s.flights := by
  unfold pointWrite
  split <;> simp
@[simp] theorem rmw_flights (s : State) (p : Point) (o : LaneOp) (n : ℕ) (consumer : ℕ) (fn : ℕ → Option ℕ × OpOut) : (rmw s p o n consumer fn).2.flights = s.flights := by
  simp only [rmw]
  (repeat' split) <;> simp [*]
@[simp] theorem dropResv_flights (s : State) (a : Agent) : (dropResv s a).flights = s.flights := by
  simp [dropResv]
@[simp] theorem addResv_flights (s : State) (a : Agent) (pa : ℕ) : (addResv s a pa).flights = s.flights := by
  simp [addResv]
@[simp] theorem dropClaim_flights (s : State) (flight : ℕ) (a : Agent) : (dropClaim s flight a).flights = s.flights := by
  simp [dropClaim]
@[simp] theorem peerMerge_flights (s : State) (l : L1Line) (mask : BitVec 128) : (peerMerge s l mask).flights = s.flights := by
  simp [peerMerge]
@[simp] theorem backMerge_flights (s : State) (l : L1Line) (mask : BitVec 128) : (backMerge s l mask).flights = s.flights := by
  simp only [backMerge]
  (repeat' split) <;> simp [*]
@[simp] theorem l1DropGranule_flights (s : State) (core : ℕ) (a : ℕ) (n : ℕ) : (l1DropGranule s core a n).flights = s.flights := by
  unfold l1DropGranule
  split <;> simp
@[simp] theorem l1Del_flights (s : State) (core : ℕ) (line : ℕ) : (l1Del s core line).flights = s.flights := by
  simp [l1Del]
@[simp] theorem l1WriteBack_flights (s : State) (l : L1Line) : (l1WriteBack s l).flights = s.flights := by
  simp [l1WriteBack]
@[simp] theorem l1Room_flights (s : State) (core : ℕ) (line : ℕ) : (l1Room s core line).flights = s.flights := by
  simp only [l1Room]
  (repeat' split) <;> simp [*]
@[simp] theorem l1Take_flights (s : State) (core : ℕ) (line : ℕ) (imm : Bool) : (l1Take s core line imm).2.flights = s.flights := by
  unfold l1Take
  split <;> simp
@[simp] theorem l1Put_flights (s : State) (l : L1Line) : (l1Put s l).flights = s.flights := by
  simp [l1Put]
@[simp] theorem l1Write_flights (s : State) (core : ℕ) (a : ℕ) (bs : List Byte) (key : BitVec 16) (imm : Bool) : (l1Write s core a bs key imm).flights = s.flights := by
  simp [l1Write]
@[simp] theorem l1Sign_flights (s : State) (core : ℕ) (a : ℕ) (n : ℕ) (who : Issuer) (pc : VAddr) (addr : BitVec 64) : (l1Sign s core a n who pc addr).flights = s.flights := by
  simp [l1Sign]
@[simp] theorem cachedWrite_flights (s : State) (iss : Issuer) (lane : ℕ) (core : ℕ) (a : ℕ) (bs : List Byte) (key : BitVec 16) (imm : Bool) (at_ : VAddr × BitVec 64) : (cachedWrite s iss lane core a bs key imm at_).flights = s.flights := by
  unfold cachedWrite
  split <;> simp
@[simp] theorem plainStore_flights (s : State) (iss : Issuer) (key : BitVec 16) (lane : ℕ) (loc : Loc) (t : Trans) (bs : List Byte) (home : Bool) (at_ : optParam (VAddr × BitVec 64) (0, 0)) : (plainStore s iss key lane loc t bs home at_).flights = s.flights := by
  unfold plainStore
  (repeat' split) <;> simp [*]
@[simp] theorem storePoint_flights (s : State) (p : Point) (o : LaneOp) (n : ℕ) : (storePoint s p o n).2.flights = s.flights := by
  simp [storePoint]
@[simp] theorem forageAt_flights (s : State) (p : Point) (o : LaneOp) (out : ℕ → ℕ → List RegWrite) : (forageAt s p o out).2.flights = s.flights := by
  simp only [forageAt]
  (repeat' split) <;> simp [*]
@[simp] theorem advance_flights (s : State) (a : ℕ) (by_ : ℤ) : (advance s a by_).2.flights = s.flights := by
  simp only [advance]
  (repeat' split) <;> simp [*]
@[simp] theorem pointOp_flights (s : State) (p : Point) (o : LaneOp) : (pointOp s p o).2.flights = s.flights := by
  simp only [pointOp]
  (repeat' split) <;> simp [*]
@[simp] theorem l1FreshGranule_flights (s : State) (core : ℕ) (a : ℕ) (n : ℕ) : (l1FreshGranule s core a n).flights = s.flights := by
  simp [l1FreshGranule]
@[simp] theorem pointFresh_flights (s : State) (iss : Issuer) (loc : Loc) (n : ℕ) : (pointFresh s iss loc n).flights = s.flights := by
  unfold pointFresh
  split <;> simp
@[simp] theorem nameAwaits_flights (s : State) (from_ : ℕ) (pc : VAddr) (a : BitVec 64) : (nameAwaits s from_ pc a).flights = s.flights := by
  simp [nameAwaits]
@[simp] theorem l1Inv_flights (s : State) (core : ℕ) : (l1Inv s core).flights = s.flights := by
  simp [l1Inv]
@[simp] theorem acquire_flights (s : State) (iss : Issuer) (obs : BitVec 7) : (acquire s iss obs).flights = s.flights := by
  unfold acquire
  (repeat' split) <;> simp [*]
end Sys2Proof.Machine
end

section
/-! O28: execution points and completions of operations in flight (09 R220, 02 R55, 04 R102, 08 R204). -/

namespace Sys2Proof.Machine

section
variable {s t u : State} {n : Nat} {fl g : Flight} {i : Instr} {ops : List LaneOp} {key : BitVec 16}

theorem findFlight_mem (h : findFlight s n = some fl) : fl ∈ s.flights ∧ fl.id = n := ⟨List.mem_of_find?_eq_some h, by simpa using List.find?_some h⟩

/-- A flight after its operations have been performed (09 R220). -/
def pointEnds (n : Nat) (fl : Flight) (i : Instr) (u : State) (out : OpOut) : State :=
  let v := acquireIf (isAcq (pointOrder i).1) fl.who (pointOrder i).2 u
  { v with flights := v.flights.map fun x => if x.id = n then { x with kind := .load out.writes out.flags out.bad } else x }

/-- The operations of a flight, lane by lane. -/
def lanesDone (s : State) (n : Nat) (fl : Flight) (i : Instr) (ops : List LaneOp) (key : BitVec 16) : OpOut × State :=
  ops.foldl (fun (acc : OpOut × State) o =>
    let (r, u) := pointOp (pointFresh acc.2 fl.who o.loc 32) ⟨fl.who, i, key, n⟩ o
    (acc.1.join r, nameAwaits u acc.2.nextId fl.pc o.va)) (({} : OpOut), s)

theorem softTake_none {lo hi : Nat} (h : ∀ y ∈ s.softErrors, ¬(lo ≤ y.toNat ∧ y.toNat ≤ hi)) : softTake s lo hi = (none, s) := by
  have hnone : s.softErrors.find? (fun x => decide (lo ≤ x.toNat ∧ x.toNat ≤ hi)) = none := List.find?_eq_none.mpr fun y hy => by simpa using h y hy
  rw [softTake, hnone]

/-- The self-check code that a range of one number finds. -/
theorem softTake_mem {x : Cause} (h : x ∈ s.softErrors) : softTake s x.toNat x.toNat = (some x, { s with softErrors := s.softErrors.erase x }) := by
  cases hf : s.softErrors.find? (fun y => decide (x.toNat ≤ y.toNat ∧ y.toNat ≤ x.toNat)) with
  | none => exact absurd (List.find?_eq_none.mp hf x h) (by simp)
  | some y =>
    have hy := List.find?_some hf
    simp only [decide_eq_true_eq] at hy
    have hxy : y = x := BitVec.eq_of_toNat_eq (by omega)
    rw [softTake, hf, hxy]

theorem runOps_sound (hk : fl.kind = .exec i ops key) (hid : fl.id = n) (hsoft : ∀ x y, pointSoft i = some x → y ∈ s.softErrors → y.toNat ≠ x) :
    runOps s fl = pointEnds n fl i (lanesDone s n fl i ops key).2 (lanesDone s n fl i ops key).1 := by
  cases hp : pointSoft i with
  | none =>
    simp only [runOps, hk, hp, hid]
    rfl
  | some x =>
    have htake : softTake s x x = (none, s) := softTake_none fun y hy h => hsoft x y hp hy (by omega)
    simp only [runOps, hk, hp, htake, hid]
    rfl

theorem runOps_upset {x : Nat} (hk : fl.kind = .exec i ops key) (hid : fl.id = n) (hp : pointSoft i = some x) (hx : BitVec.ofNat 9 x ∈ s.softErrors) :
    runOps s fl = pointEnds n fl i { s with softErrors := s.softErrors.erase (BitVec.ofNat 9 x) } { bad := ops.map fun o => (o.lane, BitVec.ofNat 9 x, o.va) } := by
  have hlt : (BitVec.ofNat 9 x).toNat = x := by
    unfold pointSoft at hp
    split at hp <;> cases hp <;> rfl
  have htake := softTake_mem hx
  rw [hlt] at htake
  simp only [runOps, hk, hp, htake, hid, pointEnds, acquireIf]

/-- With nothing before it on port A, a flight's operations are performed at its own point. -/
theorem runPoint_alone (hf : findFlight s n = some fl) (hahead : pointAhead s fl = []) : runPoint s fl = runOps s fl := by
  have hfind : s.flights.find? (fun h => h.id == fl.id) = some fl := by
    rw [(findFlight_mem hf).2]
    exact hf
  simp only [runPoint, hahead, List.nil_append, List.foldl_cons, List.foldl_nil, hfind]

theorem exec_point (hf : findFlight s n = some fl) : exec (.executionPointOperation n) s = .next (runPoint s fl) := by
  change execExecutionPointOperation n s = _
  simp only [execExecutionPointOperation, hf]

theorem lanesDone_flights : (lanesDone s n fl i ops key).2.flights = s.flights :=
  foldl_snd_flights ops _ _ fun acc o => by simp

/-- What the operations of a flight leave of the flights: its own has its results, and is for no execution point any more. -/
theorem pointEnds_flights {out : OpOut} (hu : u.flights = s.flights) :
    (pointEnds n fl i u out).flights = s.flights.map fun x => if x.id = n then { x with kind := .load out.writes out.flags out.bad } else x := by
  have hacq : (acquireIf (isAcq (pointOrder i).1) fl.who (pointOrder i).2 u).flights = s.flights := by
    unfold acquireIf
    split <;> simp [hu]
  rw [← hacq]
  rfl
theorem runOps_flights (hk : g.kind = .exec i ops key) : ∃ out : OpOut, (runOps s g).flights = s.flights.map fun x => if x.id = g.id then { x with kind := .load out.writes out.flags out.bad } else x := by
  by_cases hsoft : ∀ x y, pointSoft i = some x → y ∈ s.softErrors → y.toNat ≠ x
  · rw [runOps_sound hk rfl hsoft]
    exact ⟨_, pointEnds_flights lanesDone_flights⟩
  · simp only [not_forall, ne_eq, not_not] at hsoft
    obtain ⟨x, y, hp, hy, rfl⟩ := hsoft
    rw [runOps_upset hk rfl hp (by rwa [BitVec.ofNat_toNat, BitVec.setWidth_eq])]
    exact ⟨_, pointEnds_flights rfl⟩

/-- What port A issued in the same clk is executed first (07 R150). -/
theorem exec_point_behind (hf : findFlight s n = some fl) (hg : findFlight s g.id = some g) (hahead : pointAhead s fl = [g]) (hfirst : pointAhead s g = []) (ht : exec (.executionPointOperation g.id) s = .next t) :
    exec (.executionPointOperation n) s = exec (.executionPointOperation n) t := by
  have hmem : g ∈ pointAhead s fl := by simp [hahead]
  have hpoint : pointFlight fl = true := by
    by_contra h
    simp [pointAhead, h] at hahead
  rw [pointAhead, if_pos hpoint] at hmem hahead
  obtain ⟨-, hg'⟩ := List.mem_filter.mp hmem
  simp only [Bool.and_eq_true, decide_eq_true_eq] at hg'
  obtain ⟨⟨⟨hlt, hclk⟩, hstream⟩, hgpoint⟩ := hg'
  obtain ⟨i, ops, key, hkind⟩ : ∃ i ops key, g.kind = .exec i ops key := by
    unfold pointFlight at hgpoint
    split at hgpoint
    · exact ⟨_, _, _, by assumption⟩
    · cases hgpoint
  have hst : runOps s g = t := by
    rw [exec_point hg, runPoint_alone hg hfirst] at ht
    injection ht
  obtain ⟨out, hflights⟩ := runOps_flights (s := s) hkind
  rw [hst] at hflights
  have hid := (findFlight_mem hf).2
  have hfl : findFlight t n = some fl := by
    have hne : fl.id ≠ g.id := by omega
    have hp : (fun h : Flight => h.id == n) ∘ (fun x => if x.id = g.id then { x with kind := .load out.writes out.flags out.bad } else x) = fun h => h.id == n := by
      funext x
      simp only [Function.comp]
      split <;> rfl
    rw [findFlight, hflights, List.find?_map, hp]
    change Option.map _ (findFlight s n) = _
    rw [hf, Option.map_some, if_neg hne]
  have hnone : pointAhead t fl = [] := by
    rw [pointAhead, if_pos hpoint, hflights]
    refine List.filter_eq_nil_iff.mpr fun y hy h => ?_
    obtain ⟨x, hx, rfl⟩ := List.mem_map.mp hy
    by_cases hxg : x.id = g.id
    · simp [hxg, pointFlight] at h
    · rw [if_neg hxg] at h
      have hmemx : x ∈ [g] := hahead ▸ List.mem_filter.mpr ⟨hx, h⟩
      exact hxg (congrArg Flight.id (List.mem_singleton.mp hmemx))
  rw [exec_point hf, exec_point hfl, runPoint_alone hfl hnone, runPoint, pointAhead, if_pos hpoint, hahead]
  have hfindg : s.flights.find? (fun h => h.id == g.id) = some g := hg
  have hfindt : t.flights.find? (fun h => h.id == fl.id) = some fl := by rw [hid]; exact hfl
  simp only [List.cons_append, List.nil_append, List.foldl_cons, List.foldl_nil, hfindg, hst, hfindt]

/-- A completion acts on its flight. -/
theorem exec_completion (hf : findFlight s n = some fl) (hk : ∀ u w x, fl.kind ≠ .vsfu u w x) : exec (.memoryAccessCompletion n) s = .next (finishFlight s fl) := by
  change execMemoryAccessCompletion n s = _
  simp only [execMemoryAccessCompletion, hf]
theorem exec_vsfuCompletion {v : Nat} {wr : List RegWrite} {fs : List (Nat × Flags)} (hf : findFlight s n = some fl) (hk : fl.kind = .vsfu v wr fs) : exec (.vsfuCompletion n) s = .next (finishFlight s fl) := by
  change execVsfuCompletion n s = _
  simp only [execVsfuCompletion, hf, hk]

/-- The warp of a flight that has completed. -/
def finishedWarp (n : Nat) (fl : Flight) (wr : List RegWrite) (fs : List (Nat × Flags)) (bad : List (Nat × Cause × BitVec 64)) (w : Warp) : Warp :=
  doneIn n (recorded fl bad (fs.foldl (fun w (l, x) => mergeFlags w l x) (wr.foldl (fun w r => vset w r.reg r.lane (r.val.setWidth 32)) w)))
theorem finishWarp_eq {wg wi : Nat} {wr : List RegWrite} {fs : List (Nat × Flags)} {bad : List (Nat × Cause × BitVec 64)} (hid : fl.id = n) :
    finishWarp s fl wg wi wr fs bad = updWarp (landedFlight n s) wg wi (finishedWarp n fl wr fs bad) := by
  subst hid
  rfl
theorem foldl_cset_rest (wr : List RegWrite) (x : Cue) : (wr.foldl (fun x r => cset x r.reg r.val) x).deferred = x.deferred ∧ (wr.foldl (fun x r => cset x r.reg r.val) x).windows = x.windows := by
  induction wr generalizing x with
  | nil => exact ⟨rfl, rfl⟩
  | cons r rs ih => exact ih (cset x r.reg r.val)
theorem finishCue_eq {wr : List RegWrite} {bad : List (Nat × Cause × BitVec 64)} (hid : fl.id = n) :
    finishCue s fl wr bad = updCue (landedFlight n s) fl.who fun x => { wr.foldl (fun x r => cset x r.reg r.val) x with
      deferred := x.deferred ++ bad.map fun (_, y, a) => ⟨y, a, 0, fl.pc, none, windowLeft x.windows n, false, 0, n⟩, windows := doneWindow x.windows n } := by
  subst hid
  have hdrop : ∀ f, dropFlight (updCue s fl.who f) fl.id = updCue (landedFlight fl.id s) fl.who f := fun f => by
    cases fl.who <;> rfl
  rw [finishCue, hdrop]
  refine congrArg (updCue (landedFlight fl.id s) fl.who) (funext fun x => ?_)
  obtain ⟨hdef, hwin⟩ := foldl_cset_rest wr x
  simp only [hdef, hwin]

theorem finishFlight_load {wg wi : Nat} {ls : List Nat} {wr : List RegWrite} {fs : List (Nat × Flags)} {bad : List (Nat × Cause × BitVec 64)} (hid : fl.id = n) (hwho : fl.who = .warp wg wi ls) (hk : fl.kind = .load wr fs bad) :
    finishFlight s fl = updWarp (landedFlight n s) wg wi (finishedWarp n fl wr fs bad) := by
  simp only [finishFlight, hk, hwho]
  exact finishWarp_eq hid
theorem finishFlight_plain {wg wi : Nat} {ls : List Nat} (hid : fl.id = n) (hwho : fl.who = .warp wg wi ls) (hk : fl.kind = .plain) :
    finishFlight s fl = updWarp (landedFlight n s) wg wi (finishedWarp n fl [] [] []) := by
  simp only [finishFlight, hk, hwho]
  exact finishWarp_eq hid
/-- A special-function unit whose self-check found nothing writes its results (13 R350). -/
theorem finishFlight_vsfu {wg wi v : Nat} {ls : List Nat} {wr : List RegWrite} {fs : List (Nat × Flags)} (hid : fl.id = n) (hwho : fl.who = .warp wg wi ls) (hk : fl.kind = .vsfu v wr fs)
    (hsoft : ∀ y ∈ s.softErrors, y.toNat ≠ 0x10C + v) : finishFlight s fl = updWarp (landedFlight n s) wg wi (finishedWarp n fl wr fs []) := by
  have htake : softTake s (0x10C + v) (0x10C + v) = (none, s) := softTake_none fun y hy h => hsoft y hy (by omega)
  simp only [finishFlight, hk, hwho, htake]
  exact finishWarp_eq hid
theorem finishFlight_upset {wg wi v : Nat} {ls : List Nat} {wr : List RegWrite} {fs : List (Nat × Flags)} {y : Cause} (hid : fl.id = n) (hwho : fl.who = .warp wg wi ls) (hk : fl.kind = .vsfu v wr fs)
    (hy : y ∈ s.softErrors) (hv : y.toNat = 0x10C + v) :
    finishFlight s fl = updWarp (landedFlight n { s with softErrors := s.softErrors.erase y }) wg wi (finishedWarp n fl [] [] (ls.map fun l => (l, y, 0))) := by
  have htake := softTake_mem hy
  rw [hv] at htake
  simp only [finishFlight, hk, hwho, htake]
  exact finishWarp_eq hid
theorem finishFlight_cue {wr : List RegWrite} {fs : List (Nat × Flags)} {bad : List (Nat × Cause × BitVec 64)} (hwho : ∀ wg wi ls, fl.who ≠ .warp wg wi ls) (hk : fl.kind = .load wr fs bad) :
    finishFlight s fl = finishCue s fl wr bad := by
  simp only [finishFlight, hk]
end

/-- Settles O28. -/
theorem flightProgress : Obligations.FlightProgress := by
  unfold Obligations.FlightProgress
  refine ⟨?_, ?_, ?_⟩
  · intro s n fl i ops key hf hid hk hahead ends
    rw [exec_point hf, runPoint_alone hf hahead]
    exact ⟨fun hsoft => congrArg Host.Outcome.next (runOps_sound hk hid hsoft), fun x hp hx => congrArg Host.Outcome.next (runOps_upset hk hid hp hx)⟩
  · intro s t n fl g hf hg hahead hfirst ht
    exact exec_point_behind hf hg hahead hfirst ht
  · intro s n fl hf hid
    refine ⟨fun wg wi ls hwho => ⟨fun wr fs bad hk => ?_, fun hk => ?_, fun v wr fs hk => ⟨fun hsoft => ?_, fun y hy hv => ?_⟩⟩, fun hwho wr fs bad hk => ?_⟩
    · exact ⟨_, (exec_completion hf (by simp [hk])).trans (congrArg _ (finishFlight_load hid hwho hk)), fun w => rfl⟩
    · exact ⟨_, (exec_completion hf (by simp [hk])).trans (congrArg _ (finishFlight_plain hid hwho hk)), fun w => rfl⟩
    · exact ⟨_, (exec_vsfuCompletion hf hk).trans (congrArg _ (finishFlight_vsfu hid hwho hk hsoft)), fun w => rfl⟩
    · exact ⟨_, (exec_vsfuCompletion hf hk).trans (congrArg _ (finishFlight_upset hid hwho hk hy hv)), fun w => rfl⟩
    · exact ⟨_, (exec_completion hf (by simp [hk])).trans (congrArg _ ((finishFlight_cue hwho hk).trans (finishCue_eq hid))), fun x => rfl⟩
end Sys2Proof.Machine
end

section
/-! O29: operations at their execution point (09 R220, R221, R232 to R242, 10 R274, R275). -/

namespace Sys2Proof.Machine

/-! ### Bytes and numbers -/

theorem leNat_lt (bs : List Byte) : leNat bs < 2 ^ (8 * bs.length) := by
  induction bs with
  | nil => simp [leNat]
  | cons b bs ih =>
    have hb := b.isLt
    rw [leNat, List.length_cons, show 8 * (bs.length + 1) = 8 * bs.length + 8 by ring, pow_add]
    omega
theorem leBytes_leNat (bs : List Byte) : leBytes bs.length (leNat bs) = bs := by
  induction bs with
  | nil => rfl
  | cons b bs ih =>
    have hb := b.isLt
    have hhead : BitVec.ofNat 8 (b.toNat + 256 * leNat bs) = b := BitVec.eq_of_toNat_eq (by simp; omega)
    have htail : (b.toNat + 256 * leNat bs) / 256 = leNat bs := by omega
    simp only [List.length_cons, leBytes, leNat, hhead, htail, ih]
theorem wrap_sextN {v : Nat} (h : v < 2 ^ 64) : (wrap 64 (sextN v 64)).toNat = v := by
  have hv : (BitVec.ofNat 64 v).toNat = v := by simpa using h
  rw [← hv, sextN_toNat, wrap, BitVec.ofInt_toInt, hv]

section
variable {s t : State} {a pa n : Nat} {bs : List Byte}

@[simp] theorem homeBytes_length (s : State) (pa n : Nat) : (homeBytes s pa n).length = n := by
  induction n generalizing pa with
  | zero => rfl
  | succ n ih => rw [homeBytes, List.length_cons, ih]
theorem homeBytes_of_bytes (h : ∀ j < bs.length, homeByte t (pa + j) = bs.getD j 0) : homeBytes t pa bs.length = bs := by
  induction bs generalizing pa with
  | nil => rfl
  | cons b bs ih =>
    have hhead := h 0 (by simp)
    rw [List.length_cons, homeBytes, ih fun j hj => by simpa [Nat.add_assoc, Nat.add_comm 1] using h (j + 1) (by simpa using hj)]
    simpa using hhead
theorem homeBytes_congr (h : ∀ x, homeByte t x = homeByte s x) (pa n : Nat) : homeBytes t pa n = homeBytes s pa n := by
  induction n generalizing pa with
  | zero => rfl
  | succ n ih => rw [homeBytes, homeBytes, h, ih]
theorem leBytes_homeNat (s : State) (pa n : Nat) : leBytes n (homeNat s pa n) = homeBytes s pa n := by
  simpa [homeNat] using leBytes_leNat (homeBytes s pa n)
theorem leBytes_lsBytes (s : State) (a n : Nat) : leBytes n (leNat (lsBytes s a n)) = lsBytes s a n := by
  have hlen : (lsBytes s a n).length = n := SMap.getList_length ..
  have h := leBytes_leNat (lsBytes s a n)
  rwa [hlen] at h

/-! ### Writes that change their own bytes alone -/

/-- Bytes that were written at home from a state with the same home memory. -/
theorem homePut_homeWrite {r : State} {key : BitVec 16} {who : Option Agent} (h : ∀ x, homeByte r x = homeByte s x) : HomePut s (homeWrite r pa bs key who) pa bs := by
  refine ⟨homeBytes_of_bytes fun j hj => ?_, fun x hx => ?_⟩
  · rw [homeByte_homeWrite, if_pos (by omega), Nat.add_sub_cancel_left]
  · rw [homeByte_homeWrite, if_neg (by omega), h]
theorem homePut_same (h : ∀ x, homeByte t x = homeByte s x) : HomePut s t pa (leBytes n (homeNat s pa n)) := by
  rw [leBytes_homeNat]
  refine ⟨?_, fun x _ => h x⟩
  rw [homeBytes_length, homeBytes_congr h]
theorem localPut_lsWrite : LocalPut s (lsWrite s a bs) a bs := by
  refine ⟨?_, fun x hx => ?_⟩
  · refine List.ext_getElem (by simp [lsBytes]) fun j hj _ => ?_
    simp only [lsBytes, SMap.getList_length] at hj
    simp only [lsBytes, SMap.getList_eq, List.getElem_map, List.getElem_range]
    rw [lsWrite_get, if_pos (by omega), Nat.add_sub_cancel_left]
    simp [hj]
  · rw [lsBytes_one, lsBytes_one, lsWrite_get, if_neg (by omega)]
theorem localPut_same : LocalPut s s a (leBytes n (leNat (lsBytes s a n))) := by
  rw [leBytes_lsBytes]
  exact ⟨congrArg (lsBytes s a) (SMap.getList_length ..), fun _ _ => rfl⟩
end

/-! ### Reading and writing at a point -/

section
variable {s : State} {p : Point} {o : LaneOp} {a pa n k : Nat} {fn : Nat → Option Nat × OpOut}

theorem combRead_eq (s : State) (pa n : Nat) (key : BitVec 16) : ∃ x, combRead s pa n key = { s with comb := x } := by
  unfold combRead
  split
  · exact ⟨_, rfl⟩
  · rename_i h
    clear h
    generalize (List.range ((pa + n + 127) / 128 - pa / 128)).map (pa / 128 + ·) = l
    induction l generalizing s with
    | nil => exact ⟨_, rfl⟩
    | cons x r ih => exact ih (combUse s x 0 key)
theorem homeByte_combRead (s : State) (pa n : Nat) (key : BitVec 16) (x : Nat) : homeByte (combRead s pa n key) x = homeByte s x := by
  obtain ⟨y, hy⟩ := combRead_eq s pa n key
  rw [hy]
  rfl

/-- An operation on a local store: its value, and what memory takes (09 R233). -/
theorem rmw_local (hloc : o.loc = .ls a) (hgood : lsCaps s a n = .good) :
    ∃ t, rmw s p o n k fn = ((fn (leNat (lsBytes s a n))).2, t) ∧ LocalPut s t a (leBytes n ((fn (leNat (lsBytes s a n))).1.getD (leNat (lsBytes s a n)))) := by
  have hread : pointRead s p o n = (lsBytes s a n, .good, s) := by simp only [pointRead, hloc, behindRead, hgood]
  have hwrite : ∀ bs, pointWrite s p o bs = lsWrite s a bs := fun bs => by simp only [pointWrite, hloc]
  simp only [rmw, hread, integrityCause, hwrite]
  refine ⟨_, rfl, ?_⟩
  cases (fn (leNat (lsBytes s a n))).1 with
  | none => exact localPut_same
  | some v => exact localPut_lsWrite

/-- The same in home memory. -/
theorem rmw_home (hloc : o.loc = .mem pa) (hgood : homeCaps s pa n = .good) :
    ∃ t, rmw s p o n k fn = ((fn (homeNat s pa n)).2, t) ∧ HomePut s t pa (leBytes n ((fn (homeNat s pa n)).1.getD (homeNat s pa n))) := by
  have hread : pointRead s p o n = (homeBytes s pa n, .good, combRead s pa n p.key) := by simp only [pointRead, hloc, behindRead, hgood]
  have hwrite : ∀ t bs, pointWrite t p o bs = homeWrite t pa bs p.key (some (agentOf p.iss o.lane)) := fun t bs => by simp only [pointWrite, hloc, behindWrite]
  simp only [rmw, hread, integrityCause, hwrite]
  refine ⟨_, rfl, ?_⟩
  change HomePut s (match (fn (homeNat s pa n)).1 with
    | some v => _
    | none => _) pa _
  cases (fn (homeNat s pa n)).1 with
  | none => exact homePut_same (homeByte_combRead s pa n p.key)
  | some v => exact homePut_homeWrite (homeByte_combRead s pa n p.key)
end

/-! ### What the operations answer -/

section
variable {s : State} {iss : Issuer} {key : BitVec 16} {id a pa : Nat} {o : LaneOp}

theorem getD_ite_some (b : Prop) [Decidable b] (x y : Nat) : (if b then some x else none).getD y = if b then x else y := by
  by_cases h : b <;> simp [h]

/-- What an atomic makes of the old value (09 R233 to R236). -/
def atomNewOut (f : AF) (o : LaneOp) (old : Nat) : Option Nat × OpOut :=
  (some (atomNew (f.aop.toNat % 32) (8 * 2 ^ f.wid.toNat) old (opN o 0 (2 ^ f.wid.toNat))), { writes := if f.aop.getLsbD 5 then [] else laneWrites o.lane f.d.toNat old (2 ^ f.wid.toNat / 4) })
def atomfNewOut (f : AF) (o : LaneOp) (old : Nat) : Option Nat × OpOut :=
  (some (atomfNew (f.aop.toNat % 32) old (opN o 0 4)).1, { writes := if f.aop.getLsbD 5 then [] else laneWrites o.lane f.d.toNat old 1, flags := [(o.lane, (atomfNew (f.aop.toNat % 32) old (opN o 0 4)).2)] })
def casOut (f : AF) (o : LaneOp) (old : Nat) : Option Nat × OpOut :=
  (if old = opN o 0 (2 ^ f.wid.toNat) then some (opN o 2 (2 ^ f.wid.toNat)) else none, { writes := laneWrites o.lane f.d.toNat old (2 ^ f.wid.toNat / 4) })
theorem casOut_getD (f : AF) (o : LaneOp) (old : Nat) : (casOut f o old).1.getD old = if old = opN o 0 (2 ^ f.wid.toNat) then opN o 2 (2 ^ f.wid.toNat) else old := getD_ite_some ..
theorem pointOp_atom (f : AF) : pointOp s ⟨iss, .atom f, key, id⟩ o = rmw s ⟨iss, .atom f, key, id⟩ o (2 ^ f.wid.toNat) 4 (atomNewOut f o) := rfl
theorem pointOp_atomf (f : AF) : pointOp s ⟨iss, .atomf f, key, id⟩ o = rmw s ⟨iss, .atomf f, key, id⟩ o 4 4 (atomfNewOut f o) := rfl
theorem pointOp_cas (f : AF) : pointOp s ⟨iss, .cas f, key, id⟩ o = rmw s ⟨iss, .cas f, key, id⟩ o (2 ^ f.wid.toNat) 4 (casOut f o) := rfl

/-- A counter advances, unless it would fall below zero (09 R242). -/
theorem cntadd_local (hloc : o.loc = .ls a) (f : MF) (hgood : lsCap s (a / 16) = .good) (hzero : leNat (lsBytes s (a + 8) 8) = 0) :
    let v := sextN (leNat (lsBytes s a 8)) 64 + sextN (o.ops.getD 0 0).toNat (if f.wid = 2 then 32 else 64)
    (0 ≤ v → ∃ t, pointOp s ⟨iss, .cntadd f, key, id⟩ o = ({}, t) ∧ LocalPut s t a (leBytes 8 (wrap 64 v).toNat)) ∧ (v < 0 → pointOp s ⟨iss, .cntadd f, key, id⟩ o = ({ bad := [(o.lane, 0x0E7, o.va)] }, s)) := by
  intro v
  have hadv : advance s a (sextN (o.ops.getD 0 0).toNat (if f.wid = 2 then 32 else 64)) = if v < 0 then (some 0x0E7, s) else (none, lsWrite s a (leBytes 8 (wrap 64 v).toNat)) := by
    simp only [advance, hgood, integrityCause, hzero, ne_eq, not_true_eq_false, if_false]
    rfl
  have hop : pointOp s ⟨iss, .cntadd f, key, id⟩ o = ({ bad := match (advance s a (sextN (o.ops.getD 0 0).toNat (if f.wid = 2 then 32 else 64))).1 with
        | some x => [(o.lane, x, o.va)]
        | none => [] }, (advance s a (sextN (o.ops.getD 0 0).toNat (if f.wid = 2 then 32 else 64))).2) := by
    simp only [pointOp, hloc] <;> rfl
  rw [hop, hadv]
  refine ⟨fun h => ?_, fun h => ?_⟩
  · rw [if_neg (by omega)]
    exact ⟨_, rfl, localPut_lsWrite⟩
  · rw [if_pos h]

/-- What `catom` makes of the old value, by its MOD (10 R274). -/
def catomNew (f : QM) (o : LaneOp) (old : Nat) : Option Nat × OpOut :=
  match f.mod.toNat with
  | 0 => (some (atomNew (f.ofs.toNat % 32) (8 * 2 ^ f.wid.toNat) old (opN o 0 (2 ^ f.wid.toNat))), { writes := if f.ofs.getLsbD 5 then [] else [⟨0, f.d.toNat, BitVec.ofNat 64 old⟩] })
  | 1 => (if old = opN o 0 (2 ^ f.wid.toNat) then some (opN o 1 (2 ^ f.wid.toNat)) else none, { writes := [⟨0, f.d.toNat, BitVec.ofNat 64 old⟩] })
  | _ => (some (atomfNew (f.ofs.toNat % 32) old (opN o 0 (2 ^ f.wid.toNat))).1, { writes := if f.ofs.getLsbD 5 then [] else [⟨0, f.d.toNat, BitVec.ofNat 64 old⟩] })
theorem catomNew_eq (f : QM) (o : LaneOp) (old : Nat) :
    (catomNew f o old).2 = { writes := if f.mod ≠ 1 ∧ f.ofs.getLsbD 5 then [] else [⟨0, f.d.toNat, BitVec.ofNat 64 old⟩] }
    ∧ (catomNew f o old).1.getD old = if f.mod = 0 then atomNew (f.ofs.toNat % 32) (8 * 2 ^ f.wid.toNat) old (opN o 0 (2 ^ f.wid.toNat))
      else if f.mod = 1 then (if old = opN o 0 (2 ^ f.wid.toNat) then opN o 1 (2 ^ f.wid.toNat) else old) else (atomfNew (f.ofs.toNat % 32) old (opN o 0 (2 ^ f.wid.toNat))).1 := by
  by_cases h0 : f.mod = 0
  · simp [catomNew, h0]
  · by_cases h1 : f.mod = 1
    · simp [catomNew, h1, getD_ite_some]
    · have hne : ∀ x : Nat, f.mod.toNat = x → f.mod = BitVec.ofNat _ x := fun x hx => BitVec.eq_of_toNat_eq (by rw [hx, BitVec.toNat_ofNat, Nat.mod_eq_of_lt (hx ▸ f.mod.isLt)])
      obtain ⟨m, hm⟩ : ∃ m, f.mod.toNat = m + 2 := ⟨f.mod.toNat - 2, by have := mt (hne 0) h0; have := mt (hne 1) h1; omega⟩
      simp only [catomNew, hm, h0, h1, if_false, ne_eq, not_false_eq_true, true_and, Option.getD_some, and_self]
theorem catom_home (hloc : o.loc = .mem pa) (f : QM) (hgood : homeCaps s pa (2 ^ f.wid.toNat) = .good) :
    ∃ t, pointOp s ⟨iss, .catom f, key, id⟩ o = ({ writes := if f.mod ≠ 1 ∧ f.ofs.getLsbD 5 then [] else [⟨0, f.d.toNat, BitVec.ofNat 64 (homeNat s pa (2 ^ f.wid.toNat))⟩] }, t)
      ∧ HomePut s t pa (leBytes (2 ^ f.wid.toNat) (if f.mod = 0 then atomNew (f.ofs.toNat % 32) (8 * 2 ^ f.wid.toNat) (homeNat s pa (2 ^ f.wid.toNat)) (opN o 0 (2 ^ f.wid.toNat))
        else if f.mod = 1 then (if homeNat s pa (2 ^ f.wid.toNat) = opN o 0 (2 ^ f.wid.toNat) then opN o 1 (2 ^ f.wid.toNat) else homeNat s pa (2 ^ f.wid.toNat))
        else (atomfNew (f.ofs.toNat % 32) (homeNat s pa (2 ^ f.wid.toNat)) (opN o 0 (2 ^ f.wid.toNat))).1)) := by
  obtain ⟨t, ht, hput⟩ := rmw_home (p := ⟨iss, .catom f, key, id⟩) (k := 6) (fn := catomNew f o) hloc hgood
  obtain ⟨hout, hnew⟩ := catomNew_eq f o (homeNat s pa (2 ^ f.wid.toNat))
  rw [hnew] at hput
  rw [hout] at ht
  exact ⟨t, ht, hput⟩

/-! ### Chunks -/

theorem forageChunk_eq (next last : Int) (minc div : Nat) : forageChunk next last minc div = ((forageNext next last minc div).1, (forageNext next last minc div).2, (forageNext next last minc div).1 + (forageNext next last minc div).2) := by
  simp only [forageChunk, forageNext]
  split <;> rfl

/-- A chunk is taken, and the counter stands at the next (09 R239). -/
theorem forageAt_home {p : Point} {out : Nat → Nat → List RegWrite} (hloc : o.loc = .mem pa) (hgood : homeCaps s pa 32 = .good) (hmin : homeNat s (pa + 16) 4 ≠ 0) (hdiv : homeNat s (pa + 20) 4 ≠ 0) (hzero : homeNat s (pa + 24) 8 = 0) :
    let r := forageChunk (sextN (homeNat s pa 8) 64) (sextN (homeNat s (pa + 8) 8) 64) (homeNat s (pa + 16) 4) (homeNat s (pa + 20) 4)
    ∃ t, forageAt s p o out = ({ writes := out (wrap 64 r.1).toNat (wrap 64 r.2.1).toNat }, t) ∧ HomePut s t pa (leBytes 8 (wrap 64 r.2.2).toNat) := by
  intro r
  have hread : pointRead s p o 32 = (homeBytes s pa 32, .good, combRead s pa 32 p.key) := by simp only [pointRead, hloc, behindRead, hgood]
  have hwrite : ∀ t bs, pointWrite t p o bs = homeWrite t pa bs p.key (some (agentOf p.iss o.lane)) := fun t bs => by simp only [pointWrite, hloc, behindWrite]
  have h0 : leNat (((homeBytes s pa 32).drop 0).take 8) = homeNat s pa 8 := rfl
  have h8 : leNat (((homeBytes s pa 32).drop 8).take 8) = homeNat s (pa + 8) 8 := rfl
  have h16 : leNat (((homeBytes s pa 32).drop 16).take 4) = homeNat s (pa + 16) 4 := rfl
  have h20 : leNat (((homeBytes s pa 32).drop 20).take 4) = homeNat s (pa + 20) 4 := rfl
  have h24 : leNat (((homeBytes s pa 32).drop 24).take 8) = homeNat s (pa + 24) 8 := rfl
  have hr : r = _ := forageChunk_eq _ _ _ _
  simp only [forageAt, hread, integrityCause, h0, h8, h16, h20, h24, hmin, hdiv, hzero, hwrite, or_self, if_false, ne_eq, not_true_eq_false]
  refine ⟨_, by rw [hr], ?_⟩
  rw [hr]
  dsimp only
  split
  · rename_i hsize
    have hnext : ∀ n l m d, (forageNext n l m d).1 = n := fun n l m d => by
      unfold forageNext
      dsimp only
      split <;> rfl
    have hlt : homeNat s pa 8 < 2 ^ 64 := by simpa [homeNat] using leNat_lt (homeBytes s pa 8)
    rw [hsize, add_zero, hnext, wrap_sextN hlt]
    exact homePut_same (homeByte_combRead s pa 32 p.key)
  · exact homePut_homeWrite (homeByte_combRead s pa 32 p.key)

theorem foraged_home (hloc : o.loc = .mem pa) (hgood : homeCaps s pa 32 = .good) (hmin : homeNat s (pa + 16) 4 ≠ 0) (hdiv : homeNat s (pa + 20) 4 ≠ 0) (hzero : homeNat s (pa + 24) 8 = 0) :
    let (start, size, next) := forageChunk (sextN (homeNat s pa 8) 64) (sextN (homeNat s (pa + 8) 8) 64) (homeNat s (pa + 16) 4) (homeNat s (pa + 20) 4)
    (∀ f : MF, ∃ t, pointOp s ⟨iss, .forage f, key, id⟩ o = ({ writes := laneWrites o.lane f.d.toNat ((wrap 64 start).toNat + 2 ^ 64 * (wrap 64 size).toNat) 4 }, t) ∧ HomePut s t pa (leBytes 8 (wrap 64 next).toNat))
    ∧ ∀ f : QM, ∃ t, pointOp s ⟨iss, .cforage f, key, id⟩ o = ({ writes := [⟨0, f.d.toNat, wrap 64 start⟩, ⟨0, f.d.toNat + 1, wrap 64 size⟩] }, t) ∧ HomePut s t pa (leBytes 8 (wrap 64 next).toNat) := by
  have htaken := fun p out => forageAt_home (p := p) (out := out) hloc hgood hmin hdiv hzero
  generalize forageChunk (sextN (homeNat s pa 8) 64) (sextN (homeNat s (pa + 8) 8) 64) (homeNat s (pa + 16) 4) (homeNat s (pa + 20) 4) = r at htaken ⊢
  obtain ⟨start, size, next⟩ := r
  refine ⟨fun f => htaken ⟨iss, .forage f, key, id⟩ fun start size => laneWrites o.lane f.d.toNat (start + 2 ^ 64 * size) 4, fun f => ?_⟩
  have h := htaken ⟨iss, .cforage f, key, id⟩ fun start size => [⟨0, f.d.toNat, BitVec.ofNat 64 start⟩, ⟨0, f.d.toNat + 1, BitVec.ofNat 64 size⟩]
  simp only [BitVec.ofNat_toNat, BitVec.setWidth_eq] at h
  exact h

/-! ### Reservations -/

/-- A write at home makes no reservation (09 R221). -/
theorem homeMerge_resv {u : State} {line : Nat} {mask : BitVec 128} {d : BitVec 1024} {who : Option Agent} : (homeMerge u line mask d key who).resv ⊆ u.resv := by
  have hend : ∀ (l : List Nat) (t : State), (l.foldl (fun t j => if granMask mask j ≠ 0 then endResv t (8 * line + j) who else t) t).resv ⊆ t.resv := fun l => by
    induction l with
    | nil => exact fun t => List.Subset.refl _
    | cons j r ih =>
      intro t
      refine List.Subset.trans (ih _) ?_
      dsimp only
      split
      · exact fun x hx => (List.mem_filter.mp hx).1
      · exact List.Subset.refl _
  unfold homeMerge
  split
  · exact List.Subset.refl _
  · exact hend _ _
theorem homeWrite_resv {u : State} {bs : List Byte} {who : Option Agent} : (homeWrite u pa bs key who).resv ⊆ u.resv := by
  unfold homeWrite
  generalize cutLines pa bs (bs.length / 128 + 2) = l
  induction l generalizing u with
  | nil => exact List.Subset.refl _
  | cons x r ih => exact List.Subset.trans ih homeMerge_resv
theorem holds_dropClaim {t : State} {g : Nat} (h : t.resv ⊆ (dropClaim s id (agentOf iss o.lane)).resv) : holds t id (agentOf iss o.lane) g = false := by
  refine List.any_eq_false.mpr fun r hr hh => ?_
  have hin := (List.mem_filter.mp (h hr)).2
  simp only [Bool.and_eq_true] at hh
  simp [hh.1.1, hh.1.2] at hin

theorem ldres_home (hloc : o.loc = .mem pa) (f : MF) (hgood : homeCaps s pa (2 ^ f.wid.toNat) = .good) :
    ∃ t, pointOp s ⟨iss, .ldres f, key, id⟩ o = ({ writes := laneWrites o.lane f.d.toNat (homeNat s pa (2 ^ f.wid.toNat)) (2 ^ f.wid.toNat / 4) }, t) ∧ t.mem = s.mem
      ∧ ∃ r ∈ t.resv, r.agent = agentOf iss o.lane ∧ r.granule = pa / 16 ∧ r.claim = none := by
  have hread : pointRead s ⟨iss, .ldres f, key, id⟩ o (2 ^ f.wid.toNat) = (homeBytes s pa (2 ^ f.wid.toNat), .good, combRead s pa (2 ^ f.wid.toNat) key) := by simp only [pointRead, hloc, behindRead, hgood]
  simp only [pointOp, rmw, hread, integrityCause, hloc]
  refine ⟨_, rfl, ?_, _, List.mem_append_right _ (List.mem_singleton.mpr rfl), rfl, rfl, rfl⟩
  obtain ⟨x, hx⟩ := combRead_eq s pa (2 ^ f.wid.toNat) key
  rw [hx]
  rfl

theorem stcond_home (hloc : o.loc = .mem pa) (f : MF) :
    (holds s id (agentOf iss o.lane) (pa / 16) = true → ∃ t, pointOp s ⟨iss, .stcond f, key, id⟩ o = ({ writes := [⟨o.lane, f.d.toNat, 0⟩] }, t)
      ∧ HomePut s t pa (leBytes (2 ^ f.wid.toNat) (opN o 0 (2 ^ f.wid.toNat))) ∧ holds t id (agentOf iss o.lane) (pa / 16) = false)
    ∧ (holds s id (agentOf iss o.lane) (pa / 16) = false → pointOp s ⟨iss, .stcond f, key, id⟩ o = ({ writes := [⟨o.lane, f.d.toNat, 1⟩] }, dropClaim s id (agentOf iss o.lane))) := by
  refine ⟨fun h => ?_, fun h => ?_⟩
  · simp only [pointOp, hloc, h, if_true, pointWrite, behindWrite]
    refine ⟨_, rfl, homePut_homeWrite fun x => rfl, holds_dropClaim homeWrite_resv⟩
  · simp only [pointOp, hloc, h, Bool.false_eq_true, if_false]

/-- The issue of `ldres` ends what its agent holds, and that of `stcond` but for the use that it makes of it (09 R221). -/
theorem issueResv_ldres {l : Nat} (f : MF) : ∀ r ∈ (issueResv s iss (.ldres f) id [(l, .mem pa)]).resv, r ∈ s.resv ∧ (r.claim = none → r.agent ≠ agentOf iss l) := by
  intro r hr
  obtain ⟨x, hx, hone⟩ := List.mem_filterMap.mp hr
  by_cases hclaim : x.claim.isSome = true
  · rw [if_pos hclaim] at hone
    cases hone
    exact ⟨hx, fun h => by simp [h] at hclaim⟩
  · rw [if_neg hclaim] at hone
    by_cases hag : x.agent = agentOf iss l
    · simp [hag] at hone
    · simp [hag] at hone
      exact ⟨hone ▸ hx, fun _ => hone ▸ hag⟩
/-- What becomes of a reservation as a `stcond` issues. -/
theorem mem_issueResv_stcond {l : Nat} {f : MF} {r : Resv} : r ∈ (issueResv s iss (.stcond f) id [(l, .mem pa)]).resv ↔
    ∃ x ∈ s.resv, (x.claim.isSome = true ∧ r = x) ∨ (x.claim = none ∧ x.agent ≠ agentOf iss l ∧ r = x) ∨ (x.claim = none ∧ x.agent = agentOf iss l ∧ x.granule = pa / 16 ∧ r = { x with claim := some id }) := by
  refine List.mem_filterMap.trans (exists_congr fun x => and_congr_right fun _ => ?_)
  cases hclaim : x.claim with
  | some n =>
    simp
    exact eq_comm
  | none =>
    by_cases hag : x.agent = agentOf iss l
    · by_cases hg : x.granule = pa / 16
      · simp [hag, hg]
        exact eq_comm
      · have hg' : pa / 16 ≠ x.granule := fun h => hg h.symm
        simp [hag, hg, hg']
    · simp [hag]
      exact eq_comm
theorem issueResv_stcond {l : Nat} (f : MF) (hfree : ∀ r ∈ s.resv, r.claim ≠ some id) : (∀ r ∈ (issueResv s iss (.stcond f) id [(l, .mem pa)]).resv, r.claim = none → r.agent ≠ agentOf iss l)
    ∧ (holds (issueResv s iss (.stcond f) id [(l, .mem pa)]) id (agentOf iss l) (pa / 16) = true ↔ ∃ r ∈ s.resv, r.claim = none ∧ r.agent = agentOf iss l ∧ r.granule = pa / 16) := by
  refine ⟨fun r hr hnone => ?_, ?_⟩
  · obtain ⟨x, -, ⟨hsome, rfl⟩ | ⟨-, hag, rfl⟩ | ⟨-, -, -, rfl⟩⟩ := mem_issueResv_stcond.mp hr
    · simp [hnone] at hsome
    · exact hag
    · cases hnone
  · simp only [holds, List.any_eq_true, Bool.and_eq_true, beq_iff_eq]
    refine ⟨fun ⟨r, hr, ⟨hclaim, hag⟩, hg⟩ => ?_, fun ⟨r, hr, hclaim, hag, hg⟩ => ⟨{ r with claim := some id }, mem_issueResv_stcond.mpr ⟨r, hr, .inr (.inr ⟨hclaim, hag, hg, rfl⟩)⟩, ⟨rfl, hag⟩, hg⟩⟩
    obtain ⟨x, hx, ⟨-, rfl⟩ | ⟨hnone, -, rfl⟩ | ⟨hnone, hxag, hxg, rfl⟩⟩ := mem_issueResv_stcond.mp hr
    · exact absurd hclaim (hfree r hx)
    · rw [hnone] at hclaim
      cases hclaim
    · exact ⟨x, hx, hnone, hxag, hxg⟩
end

/-- Settles O29. -/
theorem pointResults : Obligations.PointResults := by
  unfold Obligations.PointResults
  refine ⟨?_, ?_, ?_⟩
  · intro s iss key id o a hloc at_ old
    refine ⟨?_, ?_, ?_⟩
    · intro f _ hgood n
      obtain ⟨t, ht, hput⟩ := rmw_local (p := ⟨iss, .cas f, key, id⟩) (k := 4) (fn := casOut f o) hloc hgood
      exact ⟨rmw_local (p := ⟨iss, .atom f, key, id⟩) (fn := atomNewOut f o) hloc hgood, t, ht, casOut_getD f o _ ▸ hput⟩
    · intro f hgood
      have h := rmw_local (p := ⟨iss, .atomf f, key, id⟩) (k := 4) (fn := atomfNewOut f o) hloc hgood
      rw [← pointOp_atomf] at h
      exact h
    · intro f hgood hzero v
      exact cntadd_local hloc f hgood hzero
  · intro s iss key id o pa hloc at_ old
    refine ⟨?_, ?_, ?_, ?_, ?_⟩
    · intro f _ hgood n
      obtain ⟨t, ht, hput⟩ := rmw_home (p := ⟨iss, .cas f, key, id⟩) (k := 4) (fn := casOut f o) hloc hgood
      exact ⟨fun _ => rmw_home (p := ⟨iss, .atom f, key, id⟩) (fn := atomNewOut f o) hloc hgood, t, ht, casOut_getD f o _ ▸ hput⟩
    · intro f hgood
      have h := rmw_home (p := ⟨iss, .atomf f, key, id⟩) (k := 4) (fn := atomfNewOut f o) hloc hgood
      rw [← pointOp_atomf] at h
      exact h
    · intro f _ hgood n
      exact catom_home hloc f hgood
    · intro hgood hmin hdiv hzero
      exact foraged_home hloc hgood hmin hdiv hzero
    · intro f n me
      exact ⟨ldres_home hloc f, stcond_home hloc f⟩
  · intro s iss id l pa hfree
    exact ⟨issueResv_ldres, fun f => issueResv_stcond f hfree⟩
end Sys2Proof.Machine
end

section
/-! O19: service requests, their replies and timeouts, and wakes (13 R366 to R368, R385, R386). -/

namespace Sys2Proof.Machine

section
variable {s t : State} {c : WCtx} {f : VF}

theorem opSvc_eff (t : State) : (opSvc f).eff c t = if c.cs = [] then launched c (.svc f) .plain true false t
    else if svcBacked (markTask t c 6 f.look.toNat) (f.b.toNat % 16) = false then launched c (.svc f) (.load [] [] (c.cs.map fun l => (l, 0x1AA, 0))) true false (markTask t c 6 f.look.toNat)
    else let u := svcPost (markTask t c 6 f.look.toNat) (WCtx_iss c) (f.b.toNat % 16)
          (svcHeader (f.b.toNat % 16) (f.b.toNat / 16 % 4 + 1) 0 (c.W / 32) (laneMask c.cs).toNat c.g.num (taskOf (markTask t c 6 f.look.toNat) c.k).toNat c.k.core ++ svcRequest c f (f.b.toNat / 16 % 4 + 1))
      launched c (.svc f) (.svc (f.b.toNat % 16) (svcDesc (markTask t c 6 f.look.toNat) (f.b.toNat % 16)).widx f.d.toNat c.cs (64 + (f.b.toNat / 16 % 4 + 1) * 4 * c.W) u.clk) true false u := by
  by_cases hcs : c.cs = []
  · simp only [opSvc, hcs, if_true]
    rfl
  · by_cases hb : svcBacked (markTask t c 6 f.look.toNat) (f.b.toNat % 16) = false
    · simp only [opSvc, hcs, if_false, svcSize, hb, Bool.not_false, if_true]
      rfl
    · simp only [opSvc, hcs, if_false, svcSize]
      rw [Bool.not_eq_false] at hb
      simp only [hb, Bool.not_true, Bool.false_eq_true, if_false]
      rfl

theorem wake_none (hc : warpCtx s (.wake f) = some c) (hr : WarpReady (opWake f) s c = true) (hcs : c.cs = []) : exec (.wake f) s = .next (issued (opWake f) c s) := by
  rw [exec_ready (i := .wake f) (op := opWake f) rfl rfl hc hr]
  simp only [opWake, wakeArgs, hcs, List.head?_nil, Option.map_none]
theorem wake_some {l : Nat} (hc : warpCtx s (.wake f) = some c) (hr : WarpReady (opWake f) s c = true) (hl : c.cs.head? = some l) :
    exec (.wake f) s = .next (markTask (wakeOr (release (drainStream (issued (opWake f) c s) (WCtx_iss c)) (WCtx_iss c) 0x44) (ssee c.w (f.b.toNat % 64)).toNat (operand c.w f f.a f.pa 1 l)) c 6 0) := by
  rw [exec_ready (i := .wake f) (op := opWake f) rfl rfl hc hr]
  simp only [opWake, wakeArgs, hl, Option.map_some]
  rfl
end

/-! ### Replies -/

section
variable {s : State} {n q num d reply posted : Nat} {fl : Flight} {lanes : List Nat}

/-- What a reply of a warp's request brings, by what its record holds (13 R366). -/
theorem exec_serviceReply {wg wi : Nat} {ls : List Nat} (hf : findFlight s n = some fl) (hk : fl.kind = .svc q num d lanes reply posted) (hwho : fl.who = .warp wg wi ls) :
    (∀ bs, svcLook s q num reply 4 lanes = .reply bs → exec (.serviceReply n) s = .next (svcFinish s fl (lanes.map fun l => ⟨l, d, BitVec.ofNat 64 (leNat (bs l))⟩) []))
    ∧ (∀ x, svcLook s q num reply 4 lanes = .bad x → exec (.serviceReply n) s = .next (svcFinish s fl [] (lanes.map fun l => (l, x, 0))))
    ∧ (svcLook s q num reply 4 lanes = .notYet → exec (.serviceReply n) s = .next s) := by
  have hexec : exec (.serviceReply n) s = execServiceReply n s := rfl
  refine ⟨fun bs h => ?_, fun x h => ?_, fun h => ?_⟩ <;> simp only [hexec, execServiceReply, hf, hk, hwho, if_true, h]
theorem exec_serviceReply_cue {wg : Nat} {bs : Nat → List Byte} (hf : findFlight s n = some fl) (hk : fl.kind = .svc q num d lanes reply posted) (hwho : fl.who = .cue wg) (h : svcLook s q num reply 8 lanes = .reply bs) :
    exec (.serviceReply n) s = .next (svcFinish s fl (lanes.map fun l => ⟨l, d, BitVec.ofNat 64 (leNat (bs l))⟩) []) := by
  have hexec : exec (.serviceReply n) s = execServiceReply n s := rfl
  simp only [hexec, execServiceReply, hf, hk, hwho, Bool.false_eq_true, if_false, h]

theorem svcFinish_warp {wg wi : Nat} {ls : List Nat} {wr : List RegWrite} {bad : List (Nat × Cause × BitVec 64)} (hid : fl.id = n) (hwho : fl.who = .warp wg wi ls) :
    svcFinish s fl wr bad = updWarp (landedFlight n (acquire s fl.who 4)) wg wi (finishedWarp n fl wr [] bad) := by
  simp only [svcFinish, hwho]
  exact finishWarp_eq hid
theorem svcFinish_cue {wg : Nat} {wr : List RegWrite} (hid : fl.id = n) (hwho : fl.who = .cue wg) :
    svcFinish s fl wr [] = updCue (landedFlight n (acquire s fl.who 4)) fl.who fun x => { wr.foldl (fun x r => cset x r.reg r.val) x with deferred := x.deferred, windows := doneWindow x.windows n } := by
  simp only [svcFinish, hwho]
  refine (finishCue_eq hid).trans ?_
  rw [hwho]
  simp only [List.map_nil, List.append_nil]
end

/-! ### Timeouts -/

section
variable {s : State} {fl : Flight}

theorem finishCue_flights (t : State) (f : Flight) (wr : List RegWrite) (bad : List (Nat × Cause × BitVec 64)) : (finishCue t f wr bad).flights = t.flights.filter fun x => !(x.id == f.id) := by
  rw [finishCue_eq rfl]
  simp [landedFlight]
theorem svcFinish_flights (t : State) (f : Flight) (wr : List RegWrite) (bad : List (Nat × Cause × BitVec 64)) : (svcFinish t f wr bad).flights = t.flights.filter fun x => !(x.id == f.id) := by
  unfold svcFinish
  split
  · rw [finishWarp_eq rfl]
    simp [landedFlight]
  · rw [finishCue_flights, acquire_flights]

/-- What a late request of a list of flights leaves; the lateness is that at the event. -/
def timeOut (s t : State) (f : Flight) : State := match svcLate s f with
  | some lanes => svcFinish t f [] (lanes.map fun l => (l, 0x1AB, 0))
  | none => t
theorem exec_serviceTimeout : exec .serviceTimeout s = .next (s.flights.foldl (timeOut s) s) := rfl

theorem foldl_timeOut_flights (l : List Flight) (t : State) :
    (l.foldl (timeOut s) t).flights = t.flights.filter fun x => !(l.any fun f => (svcLate s f).isSome && x.id == f.id) := by
  induction l generalizing t with
  | nil => simp
  | cons f r ih =>
    rw [List.foldl_cons, ih]
    cases hlate : svcLate s f with
    | none => simp [timeOut, hlate]
    | some lanes =>
      simp only [timeOut, hlate, svcFinish_flights, List.filter_filter, List.any_cons, Option.isSome_some, Bool.true_and]
      congr 1
      funext x
      cases x.id == f.id <;> simp

theorem foldl_timeOut_filter (l : List Flight) (t : State) : l.foldl (timeOut s) t = (l.filter fun f => (svcLate s f).isSome).foldl (timeOut s) t := by
  induction l generalizing t with
  | nil => rfl
  | cons f r ih =>
    cases hlate : svcLate s f with
    | none => simp [timeOut, hlate, ih]
    | some lanes => simp [hlate, ih]
end

/-- Settles O19. -/
theorem serviceRequests : Obligations.ServiceRequests := by
  unfold Obligations.ServiceRequests
  refine ⟨fun s c f => ⟨?_, fun hc hr => ⟨wake_none hc hr, fun l => wake_some hc hr⟩⟩, ?_, ?_, ?_⟩
  · intro hc hr u q n
    rw [exec_ready (i := .svc f) (op := opSvc f) rfl rfl hc hr, opSvc_eff]
    refine ⟨fun hcs => ?_, fun hcs hb => ?_, fun hcs hb => ?_⟩
    · rw [if_pos hcs]
    · rw [if_neg hcs]
      exact congrArg Host.Outcome.next (if_pos hb)
    · rw [if_neg hcs]
      exact congrArg Host.Outcome.next (if_neg fun h => Bool.noConfusion (h.symm.trans hb))
  · intro s n fl q num d reply posted lanes hf hk
    have hid := (findFlight_mem hf).2
    refine ⟨fun wg wi ls hwho => ?_, fun wg bs hwho hlook => ?_⟩
    · obtain ⟨hreply, hbad, hnot⟩ := exec_serviceReply hf hk hwho
      refine ⟨fun bs h => ⟨_, (hreply bs h).trans (congrArg _ (svcFinish_warp hid hwho)), fun w => ?_⟩, fun x h => ⟨_, (hbad x h).trans (congrArg _ (svcFinish_warp hid hwho)), fun w => rfl⟩, hnot⟩
      have hval : ∀ x, (BitVec.ofNat 64 x).setWidth 32 = BitVec.ofNat 32 (x % 2 ^ 64) := fun x => BitVec.eq_of_toNat_eq (by simp)
      simp only [finishedWarp, recorded, List.foldl_nil, List.foldl_map, hval]
    · refine ⟨_, (exec_serviceReply_cue hf hk hwho hlook).trans (congrArg _ (svcFinish_cue hid hwho)), fun x => ?_⟩
      have hdef := (foldl_cset_rest (lanes.map fun l => ⟨l, d, BitVec.ofNat 64 (leNat (bs l))⟩) x).1
      simp only [List.foldl_map] at hdef ⊢
      rw [← hdef]
  · intro s fl lanes wg wi ls hone hlate hwho
    rw [exec_serviceTimeout, foldl_timeOut_filter, hone, List.foldl_cons, List.foldl_nil, timeOut, hlate]
    simp only [svcFinish, hwho]
  · intro s
    refine ⟨_, exec_serviceTimeout, fun f hf => ?_, fun hnodup f hf hnone => ?_⟩
    · rw [foldl_timeOut_flights] at hf
      obtain ⟨hmem, hno⟩ := List.mem_filter.mp hf
      simp only [Bool.not_eq_true', List.any_eq_false] at hno
      refine ⟨hmem, ?_⟩
      have := hno f hmem
      simpa using this
    · rw [foldl_timeOut_flights]
      refine List.mem_filter.mpr ⟨hf, ?_⟩
      simp only [Bool.not_eq_true', List.any_eq_false]
      intro g hg h
      simp only [Bool.and_eq_true, beq_iff_eq] at h
      have hsame : f = g := List.inj_on_of_nodup_map hnodup hf hg h.2
      rw [← hsame, hnone] at h
      cases h.1
end Sys2Proof.Machine
end

section
/-! O33 and O34: a cause enters a handler, or escalates (13 R359 to R361). -/

namespace Sys2Proof.Machine

section
variable {s : State} {wg wi lane : Nat} {r : TrapRec} {k : Workgroup} {g : Grid} {th : Thread}

theorem takeThread_handler (hk : findWg s wg = some k) (hg : gridOf s k = some g) (hth : findThread s wg wi lane = some th) (hst : k.st ≠ .halted) (hin : th.inHandler = false)
    (hmask : g.lrec.hmask.getLsbD (r.cause.toNat / 32) = true) (hrec : recordFault s (.warp wg wi [lane]) wi lane ((th.sp.toNat + 2 ^ 32 - 64) % 2 ^ 32) true = none) :
    takeThread s wg wi r lane = updThread ([0, 16, 32, 48].foldl (fun t o => match recordPlace t (.warp wg wi [lane]) wi lane (((th.sp.toNat + 2 ^ 32 - 64) % 2 ^ 32 + o) % 2 ^ 32) true with
        | .ok loc tr => storeAt t (.warp wg wi [lane]) lane loc tr (((recBytes r).drop o).take 16) false
        | _ => t) s) wg wi lane fun th' => { th' with
      sp := BitVec.ofNat 32 ((th.sp.toNat + 2 ^ 32 - 64) % 2 ^ 32), inHandler := true, saved := th'.clause, clause := none, pc := BitVec.ofNat 57 g.lrec.whandler, park := none } := by
  have hbit : hmaskBit s k (causeClass r.cause) = true := by
    rw [hmaskBit, hg]
    exact hmask
  simp only [takeThread, hk, hth, hst, if_false, hin, hbit, Bool.not_true, Bool.or_self, Bool.false_eq_true, hrec, hg] <;> rfl

theorem takeThread_nested (hk : findWg s wg = some k) (hth : findThread s wg wi lane = some th) (hst : k.st ≠ .halted) (hin : th.inHandler = true) :
    takeThread s wg wi r lane = escalate s wg { r with kind := r.kind + 16 } 0 := by
  simp only [takeThread, hk, hth, hst, if_false, hin, Bool.true_or, if_true]

theorem takeThread_masked (hk : findWg s wg = some k) (hth : findThread s wg wi lane = some th) (hst : k.st ≠ .halted) (hin : th.inHandler = false) (hmask : hmaskBit s k (r.cause.toNat / 32) = false) :
    takeThread s wg wi r lane = escalate s wg r 0 := by
  have hbit : hmaskBit s k (causeClass r.cause) = false := hmask
  simp only [takeThread, hk, hth, hst, if_false, hin, hbit, Bool.not_false, Bool.or_true, if_true]
  rfl

theorem takeThread_unstored {c : Cause} (hk : findWg s wg = some k) (hg : gridOf s k = some g) (hth : findThread s wg wi lane = some th) (hst : k.st ≠ .halted) (hin : th.inHandler = false)
    (hmask : hmaskBit s k (r.cause.toNat / 32) = true) (hrec : recordFault s (.warp wg wi [lane]) wi lane ((th.sp.toNat + 2 ^ 32 - 64) % 2 ^ 32) true = some c) :
    takeThread s wg wi r lane = escalate (postWalk s (.warp wg wi [lane]) c (BitVec.ofNat 64 ((privBase g.lrec k wi lane + (th.sp.toNat + 2 ^ 32 - 64) % 2 ^ 32) % 2 ^ 57))) wg { r with kind := r.kind + 16 } c := by
  have hbit : hmaskBit s k (causeClass r.cause) = true := hmask
  simp only [takeThread, hk, hth, hst, if_false, hin, hbit, Bool.not_true, Bool.or_self, Bool.false_eq_true, hrec, hg]
end

/-- Settles O33. -/
theorem warpHandler : Obligations.WarpHandler := by
  unfold Obligations.WarpHandler
  refine ⟨?_, fun s wg wi lane r k g th hk hg hth hst => ⟨fun hin => ?_, fun hin hmask => ?_, fun c hin hmask hrec => ?_⟩⟩
  · intro s wg wi lane r k g th hk hg hth hst hin hmask sp hrec
    exact takeThread_handler hk hg hth hst hin hmask hrec
  · exact takeThread_nested hk hth hst hin
  · exact takeThread_masked hk hth hst hin hmask
  · exact takeThread_unstored hk hg hth hst hin hmask hrec
end Sys2Proof.Machine
end

section
/-! O34: escalation (13 R361). -/

namespace Sys2Proof.Machine

/-! ### The error queue -/

theorem mreg_setMreg (s : State) (a b v : Nat) : mreg (setMreg s a v) b = if b / 8 = a / 8 then v % 2 ^ 64 else mreg s b := by
  simp only [mreg, setMreg, SMap.get_set]
  split
  · exact BitVec.toNat_ofNat ..
  · rfl

section
variable {s t : State} {bs : List Byte}

/-- Waking a management core touches its wake register and what it waits at. -/
theorem chaltRelease_eq (s : State) (m : Nat) : ∃ mr mg, chaltRelease s m = { s with mregs := mr, mgmt := mg } ∧ ∀ i, i ≠ (Reg.MWAKE + 8 * m) / 8 → mr.get i = s.mregs.get i := by
  unfold chaltRelease
  dsimp only
  split
  · exact ⟨_, _, rfl, fun _ _ => rfl⟩
  · split
    · split
      · exact ⟨_, _, rfl, fun i hi => SMap.get_set_of_ne _ _ hi⟩
      · exact ⟨_, _, rfl, fun _ _ => rfl⟩
    · exact ⟨_, _, rfl, fun _ _ => rfl⟩
/-- A core that waits at no `chalt` keeps its wake register. -/
theorem chaltRelease_idle {m : Nat} (h : ∀ x d, s.mgmt[m]? = some x → x.cue.park ≠ some (.chalt d)) : chaltRelease s m = s := by
  unfold chaltRelease
  dsimp only
  split
  · rfl
  · split
    · split
      · exact absurd (by assumption) (h _ _ (by assumption))
      · rfl
    · rfl
theorem wakeOr_core0 (s : State) : wakeOr s 256 1 = chaltRelease (setMreg s Reg.MWAKE (mreg s Reg.MWAKE ||| 1)) 0 := rfl

/-- Slot of the error queue by index. -/
def errSlotAt (s : State) (i : Nat) : Nat := mreg s Reg.ERRBASE / 256 % 2 ^ 44 * 256 % 2 ^ 46 + 128 * (i % errSlots s)

/-- The state in which an entry stands in the queue, core 0 not yet woken. -/
def errEntered (s : State) (bs : List Byte) : State := setMreg (homeWrite s (errSlotAt s (mreg s Reg.ERRWIDX)) bs 0 none) Reg.ERRWIDX (mreg s Reg.ERRWIDX + 1)
theorem errWrite_eq (s : State) (bs : List Byte) : errWrite s bs = chaltRelease (setMreg (errEntered s bs) Reg.MWAKE (mreg (errEntered s bs) Reg.MWAKE ||| 1)) 0 := rfl

/-- An entry that is written changes memory, its index and the wake of core 0. -/
theorem errWrite_rest (s : State) (bs : List Byte) : ∃ m sy c h r mr mg, errWrite s bs = { s with mem := m, memSynd := sy, comb := c, hostLines := h, resv := r, mregs := mr, mgmt := mg } := by
  obtain ⟨m, sy, c, h, r, hw⟩ := homeWrite_rest s (errSlotAt s (mreg s Reg.ERRWIDX)) bs 0 none
  obtain ⟨mr, mg, hc, -⟩ := chaltRelease_eq (setMreg (errEntered s bs) Reg.MWAKE (mreg (errEntered s bs) Reg.MWAKE ||| 1)) 0
  refine ⟨m, sy, c, h, r, mr, mg, ?_⟩
  rw [errWrite_eq, hc, errEntered, hw]
  rfl

theorem homeByte_of_mem (hm : t.mem = s.mem) (hb : mreg t Reg.DIRBASE = mreg s Reg.DIRBASE) (hc : mreg t Reg.HBMCAP = mreg s Reg.HBMCAP) (x : Nat) : homeByte t x = homeByte s x := by
  unfold homeByte dirDefault hbmCap
  rw [hm, hb, hc]

theorem mreg_homeWrite (s : State) (pa : Nat) (bs : List Byte) (key : BitVec 16) (who : Option Agent) (off : Nat) : mreg (homeWrite s pa bs key who) off = mreg s off := by
  obtain ⟨m, sy, c, h, r, hw⟩ := homeWrite_rest s pa bs key who
  rw [hw]
  rfl
theorem errEntered_mreg (off : Nat) : mreg (errEntered s bs) off = if off / 8 = Reg.ERRWIDX / 8 then (mreg s Reg.ERRWIDX + 1) % 2 ^ 64 else mreg s off := by
  rw [errEntered, mreg_setMreg, mreg_homeWrite]

theorem errWrite_mreg {off : Nat} (h : off / 8 ≠ Reg.MWAKE / 8) : mreg (errWrite s bs) off = if off / 8 = Reg.ERRWIDX / 8 then (mreg s Reg.ERRWIDX + 1) % 2 ^ 64 else mreg s off := by
  obtain ⟨mr, mg, hc, hget⟩ := chaltRelease_eq (setMreg (errEntered s bs) Reg.MWAKE (mreg (errEntered s bs) Reg.MWAKE ||| 1)) 0
  have hoff : mreg (errWrite s bs) off = mreg (setMreg (errEntered s bs) Reg.MWAKE (mreg (errEntered s bs) Reg.MWAKE ||| 1)) off := by
    rw [errWrite_eq, hc]
    exact congrArg BitVec.toNat (hget (off / 8) h)
  rw [hoff, mreg_setMreg, if_neg h, errEntered_mreg]

theorem errWrite_byte (x : Nat) : homeByte (errWrite s bs) x = if errSlotAt s (mreg s Reg.ERRWIDX) ≤ x ∧ x < errSlotAt s (mreg s Reg.ERRWIDX) + bs.length then bs.getD (x - errSlotAt s (mreg s Reg.ERRWIDX)) 0 else homeByte s x := by
  rw [← homeByte_homeWrite s _ bs 0 none]
  obtain ⟨mr, mg, hc, -⟩ := chaltRelease_eq (setMreg (errEntered s bs) Reg.MWAKE (mreg (errEntered s bs) Reg.MWAKE ||| 1)) 0
  refine homeByte_of_mem ?_ ?_ ?_ x
  · rw [errWrite_eq, hc]
    rfl
  · rw [errWrite_mreg (by decide), mreg_homeWrite, if_neg (by decide)]
  · rw [errWrite_mreg (by decide), mreg_homeWrite, if_neg (by decide)]
theorem errWrite_woken (h : ∀ x d, s.mgmt[0]? = some x → x.cue.park ≠ some (.chalt d)) : (mreg (errWrite s bs) Reg.MWAKE).testBit 0 = true ∧ (errWrite s bs).mgmt = s.mgmt := by
  obtain ⟨m, sy, c, hl, r, hw⟩ := homeWrite_rest s (errSlotAt s (mreg s Reg.ERRWIDX)) bs 0 none
  have hm : (errEntered s bs).mgmt = s.mgmt := by
    rw [errEntered, hw]
    rfl
  rw [errWrite_eq, chaltRelease_idle (s := setMreg (errEntered s bs) Reg.MWAKE _) (by rw [setMreg_mgmt, hm]; exact h)]
  refine ⟨?_, hm⟩
  rw [mreg_setMreg, if_pos rfl, Nat.testBit_mod_two_pow]
  simp
theorem errWrite_mreg_other {off : Nat} (h : off / 8 ≠ Reg.MWAKE / 8) (h' : off / 8 ≠ Reg.ERRWIDX / 8) : mreg (errWrite s bs) off = mreg s off := by
  rw [errWrite_mreg h, if_neg h']
theorem errSlots_errWrite : errSlots (errWrite s bs) = errSlots s := by
  unfold errSlots
  rw [errWrite_mreg_other (by decide) (by decide)]
theorem errSlotAt_errWrite (i : Nat) : errSlotAt (errWrite s bs) i = errSlotAt s i := by
  unfold errSlotAt
  rw [errSlots_errWrite, errWrite_mreg_other (by decide) (by decide)]
theorem homeBytes_congr_range {pa n : Nat} (h : ∀ j < n, homeByte t (pa + j) = homeByte s (pa + j)) : homeBytes t pa n = homeBytes s pa n := by
  induction n generalizing pa with
  | zero => rfl
  | succ n ih =>
    have hrest := ih (pa := pa + 1) fun j hj => by simpa [Nat.add_assoc, Nat.add_comm 1] using h (j + 1) (by omega)
    have hhead := h 0 (by omega)
    rw [homeBytes, homeBytes, hrest]
    simpa using hhead
/-- The entry stands in its slot. -/
theorem errWrite_slot : homeBytes (errWrite s bs) (errSlotAt s (mreg s Reg.ERRWIDX)) bs.length = bs :=
  homeBytes_of_bytes fun j hj => by rw [errWrite_byte, if_pos (by omega), Nat.add_sub_cancel_left]
/-- A further entry leaves the one before it (R361). -/
theorem errWrite_slot_kept {i : Nat} (hlen : bs.length = 128) (hi : i % errSlots s ≠ mreg s Reg.ERRWIDX % errSlots s) : homeBytes (errWrite s bs) (errSlotAt s i) 128 = homeBytes s (errSlotAt s i) 128 := by
  refine homeBytes_congr_range fun j hj => ?_
  rw [errWrite_byte, if_neg]
  simp only [errSlotAt, hlen]
  omega
end

section
variable {r : TrapRec} {image grid core ctx : Nat} {n : Cause}
theorem recBytes_length (r : TrapRec) : (recBytes r).length = 64 := by
  simp [recBytes]
theorem errBytes_length (r : TrapRec) (image grid core ctx : Nat) (n : Cause) : (errBytes r image grid core ctx n).length = 128 := by
  simp [errBytes, recBytes_length]
end

section
variable {p : State} {e : List Byte}
theorem errReport_none (h : p.errDropped = 0) : errReport p = p := by
  simp [errReport, h]
theorem postEntry_full (h : errFree p = false) : postEntry p e = { p with errDropped := p.errDropped + 1 } := by
  have hreport : errReport p = p := by simp [errReport, h]
  simp [postEntry, hreport, h]
theorem postEntry_free (h : errFree p = true) (hd : p.errDropped = 0) : postEntry p e = errWrite p e := by
  rw [postEntry, errReport_none hd, if_pos h]
/-- The report of the entries that were dropped (13 R361). -/
def droppedEntry (p : State) : List Byte := errBytes { cause := 0x1FE, kind := 2, fpc := 0, rpc := 0, addr := BitVec.ofNat 64 p.errDropped } 0 0 0 0 0
theorem errReport_dropped (hd : p.errDropped ≠ 0) (h : errFree p = true) : errReport p = { errWrite p (droppedEntry p) with errDropped := 0 } := by
  rw [errReport, h, if_pos (by simpa using hd), droppedEntry]
theorem postEntry_after (h : errFree p = true) (hd : p.errDropped ≠ 0) :
    postEntry p e = if errFree { errWrite p (droppedEntry p) with errDropped := 0 } then errWrite { errWrite p (droppedEntry p) with errDropped := 0 } e
      else { errWrite p (droppedEntry p) with errDropped := 1 } := by
  rw [postEntry, errReport_dropped hd h]
end

/-! ### The workgroup and its queue -/

section
variable {s : State} {wg : Nat} {r : TrapRec} {n : Cause} {k : Workgroup}

/-- A workgroup that has escalated. -/
def haltedWg (k : Workgroup) : Workgroup := if k.taskOn then { k with st := .halted, vlines := [], vbytes := 0, taskOn := false, vdone := true } else { k with st := .halted }
/-- The state in which an escalation posts its entry. -/
def haltedState (s : State) (wg : Nat) (k : Workgroup) : State :=
  match (gridOf s k).bind (·.queue) with
  | some q => updQueue (noteWg (updWg (versionDiscard s wg) wg fun k => { k with st := .halted }) wg) q fun x => { x with faulted := true }
  | none => noteWg (updWg (versionDiscard s wg) wg fun k => { k with st := .halted }) wg
theorem escalate_eq (hk : findWg s wg = some k) : escalate s wg r n = postEntry (haltedState s wg k) (errBytes r k.image k.grid k.core k.ctx n) := by
  rw [escalate, hk]
  rfl
theorem noteWg_rest (s : State) (wg : Nat) : ∃ m sy c h r, noteWg s wg = { s with mem := m, memSynd := sy, comb := c, hostLines := h, resv := r } := by
  unfold noteWg
  split
  · exact ⟨_, _, _, _, _, rfl⟩
  · split
    · split
      · exact homeWrite_rest ..
      · exact ⟨_, _, _, _, _, rfl⟩
    · exact ⟨_, _, _, _, _, rfl⟩
/-- What an escalation does before its entry: the halt, the queue's mark and the record's head. -/
theorem haltedState_rest : ∃ m sy c h rv qs, haltedState s wg k = { updWg (versionDiscard s wg) wg fun k => { k with st := .halted } with mem := m, memSynd := sy, comb := c, hostLines := h, resv := rv, queues := qs }
    ∧ m = (noteWg (updWg (versionDiscard s wg) wg fun k => { k with st := .halted }) wg).mem
    ∧ ∀ q, (gridOf s k).bind (·.queue) = some q → qs = s.queues.map fun x => if x.q = q then { x with faulted := true } else x := by
  obtain ⟨m, sy, c, h, rv, hn⟩ := noteWg_rest (updWg (versionDiscard s wg) wg fun k => { k with st := .halted }) wg
  unfold haltedState
  rw [hn]
  split
  · rename_i q hq
    refine ⟨m, sy, c, h, rv, _, rfl, rfl, fun q' hq' => ?_⟩
    rw [hq] at hq'
    cases hq'
    rfl
  · rename_i hq
    refine ⟨m, sy, c, h, rv, _, rfl, rfl, fun q' hq' => ?_⟩
    rw [hq] at hq'
    cases hq'
theorem postEntry_rest (p : State) (e : List Byte) : (postEntry p e).wgs = p.wgs ∧ (postEntry p e).queues = p.queues := by
  have hw : ∀ t b, (errWrite t b).wgs = t.wgs ∧ (errWrite t b).queues = t.queues := fun t b => by
    obtain ⟨m, sy, c, h, r, mr, mg, he⟩ := errWrite_rest t b
    rw [he]
    exact ⟨rfl, rfl⟩
  have hreport : (errReport p).wgs = p.wgs ∧ (errReport p).queues = p.queues := by
    by_cases h : p.errDropped ≠ 0 ∧ errFree p = true
    · obtain ⟨hwgs, hqueues⟩ := hw p (droppedEntry p)
      rw [errReport_dropped h.1 h.2]
      exact ⟨hwgs, hqueues⟩
    · rw [errReport, if_neg (by simpa using h)]
      exact ⟨rfl, rfl⟩
  obtain ⟨hwgs, hqueues⟩ := hw (errReport p) e
  rw [postEntry]
  split
  · rw [hwgs, hqueues]
    exact hreport
  · exact hreport

theorem escalate_halts (hk : findWg s wg = some k) : findWg (escalate s wg r n) wg = some (haltedWg k) := by
  obtain ⟨m, sy, c, h, rv, qs, hp, -, -⟩ := haltedState_rest (s := s) (wg := wg) (k := k)
  have hwgs : (escalate s wg r n).wgs = (updWg (versionDiscard s wg) wg fun k => { k with st := .halted }).wgs := by
    rw [escalate_eq hk, (postEntry_rest _ _).1, hp]
  have hfind : findWg (escalate s wg r n) wg = findWg (updWg (versionDiscard s wg) wg fun k => { k with st := .halted }) wg := by
    rw [findWg, findWg, hwgs]
  rw [hfind, findWg_updWg (versionDiscard s wg) wg (fun k => { k with st := .halted }) fun _ => rfl, versionDiscard, findWg_updWg s wg _ fun x => by split <;> rfl, hk]
  unfold haltedWg
  simp only [Option.map_some]
  split <;> rfl
theorem escalate_queue {q : Nat} {x : QueueSt} (hk : findWg s wg = some k) (hq : (gridOf s k).bind (·.queue) = some q) (hx : findQueue s q = some x) : findQueue (escalate s wg r n) q = some { x with faulted := true } := by
  obtain ⟨m, sy, c, h, rv, qs, hp, -, hqs⟩ := haltedState_rest (s := s) (wg := wg) (k := k)
  have hqueues : (escalate s wg r n).queues = s.queues.map fun x => if x.q = q then { x with faulted := true } else x := by
    rw [escalate_eq hk, (postEntry_rest _ _).2, hp]
    exact hqs q hq
  have hp' : (fun y : QueueSt => y.q == q) ∘ (fun x => if x.q = q then { x with faulted := true } else x) = fun y => y.q == q := by
    funext y
    simp only [Function.comp]
    split <;> rfl
  have hxq : x.q = q := by simpa using List.find?_some hx
  rw [findQueue, hqueues, List.find?_map, hp']
  change Option.map _ (findQueue s q) = _
  rw [hx, Option.map_some, if_pos hxq]

theorem haltedState_same : (haltedState s wg k).mregs = s.mregs ∧ (haltedState s wg k).mgmt = s.mgmt ∧ (haltedState s wg k).errDropped = s.errDropped := by
  obtain ⟨m, sy, c, h, rv, qs, hp, -, -⟩ := haltedState_rest (s := s) (wg := wg) (k := k)
  rw [hp]
  exact ⟨rfl, rfl, rfl⟩
end

/-! ### What stands in the queue -/

section
variable {p : State} {e : List Byte}

/-- Core 0 waits at no `chalt`. -/
def Core0Awake (p : State) : Prop := ∀ x d, p.mgmt[0]? = some x → x.cue.park ≠ some (.chalt d)

theorem posted_first (hlen : e.length = 128) (hfree : errFree p = true) (hd : p.errDropped = 0) (hw : mreg p Reg.ERRWIDX + 1 < 2 ^ 64) :
    (postEntry p e).errDropped = 0 ∧ mreg (postEntry p e) Reg.ERRWIDX = mreg p Reg.ERRWIDX + 1 ∧ (Core0Awake p → (mreg (postEntry p e) Reg.MWAKE).testBit 0 = true)
      ∧ homeBytes (postEntry p e) (errSlotAt p (mreg p Reg.ERRWIDX)) 128 = e := by
  rw [postEntry_free hfree hd]
  refine ⟨?_, ?_, fun h => (errWrite_woken h).1, ?_⟩
  · obtain ⟨m, sy, c, h, r, mr, mg, he⟩ := errWrite_rest p e
    rw [he]
    exact hd
  · rw [errWrite_mreg (by decide), if_pos rfl, Nat.mod_eq_of_lt hw]
  · rw [← hlen]
    exact errWrite_slot

theorem errSlots_pos (h : errFree p = true) : 16 ≤ errSlots p := by
  have hpos : 0 < errSlots p := by
    simp only [errFree, decide_eq_true_eq] at h
    omega
  unfold errSlots at hpos ⊢
  dsimp only at hpos ⊢
  split at hpos
  · rename_i hn
    rw [if_pos hn]
    calc 16 = 2 ^ 4 := rfl
      _ ≤ 2 ^ (mreg p Reg.ERRBASE % 256) := Nat.pow_le_pow_right (by omega) hn.1
  · omega

theorem succ_mod_ne {n w : Nat} (hn : 2 ≤ n) : w % n ≠ (w + 1) % n := by
  intro h
  have hdvd : n ∣ w + 1 - w := (Nat.modEq_iff_dvd' (by omega)).mp h
  have := Nat.le_of_dvd (by omega) hdvd
  omega

/-- After dropped entries the first slot takes their report, and the next the entry (13 R361). -/
theorem posted_after (hlen : e.length = 128) (hfree : errFree p = true) (hd : p.errDropped ≠ 0) (hw : mreg p Reg.ERRWIDX + 2 < 2 ^ 64) :
    (Core0Awake p → (mreg (postEntry p e) Reg.MWAKE).testBit 0 = true) ∧ homeBytes (postEntry p e) (errSlotAt p (mreg p Reg.ERRWIDX)) 128 = droppedEntry p
      ∧ if (mreg p Reg.ERRWIDX + 1 + 2 ^ 64 - mreg p Reg.ERRRIDX) % 2 ^ 64 < errSlots p
        then (postEntry p e).errDropped = 0 ∧ mreg (postEntry p e) Reg.ERRWIDX = mreg p Reg.ERRWIDX + 2 ∧ homeBytes (postEntry p e) (errSlotAt p (mreg p Reg.ERRWIDX + 1)) 128 = e
        else (postEntry p e).errDropped = 1 ∧ mreg (postEntry p e) Reg.ERRWIDX = mreg p Reg.ERRWIDX + 1 := by
  have hdlen : (droppedEntry p).length = 128 := errBytes_length ..
  generalize hu : errWrite p (droppedEntry p) = u
  have hidx : mreg u Reg.ERRWIDX = mreg p Reg.ERRWIDX + 1 := by rw [← hu, errWrite_mreg (by decide), if_pos rfl, Nat.mod_eq_of_lt (by omega)]
  have hslots : errSlots u = errSlots p := by rw [← hu, errSlots_errWrite]
  have hslot : ∀ i, errSlotAt u i = errSlotAt p i := fun i => by rw [← hu, errSlotAt_errWrite]
  have hridx : mreg u Reg.ERRRIDX = mreg p Reg.ERRRIDX := by rw [← hu, errWrite_mreg_other (by decide) (by decide)]
  have hfirst : homeBytes u (errSlotAt p (mreg p Reg.ERRWIDX)) 128 = droppedEntry p := by
    rw [← hu, ← hdlen]
    exact errWrite_slot
  have hawake : Core0Awake p → (mreg u Reg.MWAKE).testBit 0 = true ∧ Core0Awake u := fun h => by
    obtain ⟨hbit, hm⟩ := errWrite_woken (bs := droppedEntry p) h
    rw [hu] at hbit hm
    exact ⟨hbit, by rw [Core0Awake, hm]; exact h⟩
  have hpost := postEntry_after (e := e) hfree hd
  rw [hu] at hpost
  by_cases hroom : (mreg p Reg.ERRWIDX + 1 + 2 ^ 64 - mreg p Reg.ERRRIDX) % 2 ^ 64 < errSlots p
  · obtain ⟨v, hv⟩ : ∃ v : State, { u with errDropped := 0 } = v := ⟨_, rfl⟩
    have hvm : ∀ off, mreg v off = mreg u off := fun off => by rw [← hv]; rfl
    have hvb : homeBytes v (errSlotAt p (mreg p Reg.ERRWIDX)) 128 = droppedEntry p := by
      rw [← hfirst]
      exact homeBytes_congr (fun x => by rw [← hv]; rfl) _ _
    have hvs : errSlots v = errSlots p := by rw [← hslots, ← hv]; rfl
    have hvslot : ∀ i, errSlotAt v i = errSlotAt p i := fun i => by rw [← hslot, ← hv]; rfl
    have hva : Core0Awake p → Core0Awake v := fun h => by rw [← hv]; exact (hawake h).2
    have hvd : v.errDropped = 0 := by rw [← hv]
    have hvfree : errFree v = true := by
      rw [errFree, hvm, hvm, hvs, hidx, hridx]
      exact decide_eq_true hroom
    rw [hv, if_pos hvfree] at hpost
    rw [if_pos hroom, hpost]
    have hpos := errSlots_pos hfree
    have hvidx : mreg v Reg.ERRWIDX = mreg p Reg.ERRWIDX + 1 := (hvm _).trans hidx
    refine ⟨fun h => (errWrite_woken (hva h)).1, ?_, ?_, ?_, ?_⟩
    · have hkept := errWrite_slot_kept (s := v) (i := mreg p Reg.ERRWIDX) hlen (by rw [hvs, hvidx]; exact fun h => succ_mod_ne (by omega) h)
      rw [hvslot] at hkept
      rw [hkept, hvb]
    · obtain ⟨m, sy, c, h, r, mr, mg, he⟩ := errWrite_rest v e
      rw [he]
      exact hvd
    · rw [errWrite_mreg (by decide), if_pos rfl, hvidx, Nat.mod_eq_of_lt (by omega)]
    · have hsecond := errWrite_slot (s := v) (bs := e)
      rw [hvidx, hvslot, hlen] at hsecond
      exact hsecond
  · have hvfree : errFree { u with errDropped := 0 } = false := by
      have h : errFree u = false := by
        rw [errFree, hslots, hidx, hridx]
        exact decide_eq_false hroom
      exact h
    rw [if_neg (by rw [hvfree]; decide)] at hpost
    rw [if_neg hroom, hpost]
    exact ⟨fun h => (hawake h).1, hfirst, rfl, hidx⟩
end

/-! ### A cue thread's c63 (13 R375) -/

section
variable {s t : State} {wg : Nat} {r : TrapRec} {k j : Workgroup} {g : Grid}

theorem cueLine3_missing (hk : findWg s wg = some k) (hg : gridOf s k = some g) (hst : k.st ≠ .halted) (hmiss : k.missing.contains (cueLine g.lrec 63) = true) :
    (∀ t, bringLine s g k (cueLine g.lrec 63) = .ok t → cueLine3 s wg = (t, 0)) ∧ ∀ c, bringLine s g k (cueLine g.lrec 63) = .error c → cueLine3 s wg = (s, c) := by
  have hgo : (decide (k.st = .halted) || !k.missing.contains (cueLine g.lrec 63)) = false := by rw [hmiss, decide_eq_false hst]; rfl
  refine ⟨fun t h => ?_, fun c h => ?_⟩ <;> simp only [cueLine3, hk, hg, hgo, Bool.false_eq_true, if_false, h]

theorem takeCue_brought (hk : findWg s wg = some k) (hg : gridOf s k = some g) (hst : k.st ≠ .halted) (hmiss : k.missing.contains (cueLine g.lrec 63) = true)
    (hb : bringLine s g k (cueLine g.lrec 63) = .ok t) (hj : findWg t wg = some j) (hjg : gridOf t j = some g) (hhave : j.missing.contains (cueLine g.lrec 63) = false) : takeCue s (.cue wg) r = takeCue t (.cue wg) r := by
  have hthere : cueLine3 t wg = (t, 0) := cueLine3_of_present hj hjg hhave
  simp only [takeCue, (cueLine3_missing hk hg hst hmiss).1 t hb, hthere]

theorem takeCue_lost {c : Cause} (hk : findWg s wg = some k) (hg : gridOf s k = some g) (hst : k.st ≠ .halted) (hmiss : k.missing.contains (cueLine g.lrec 63) = true)
    (hb : bringLine s g k (cueLine g.lrec 63) = .error c) (hc : c ≠ 0) : takeCue s (.cue wg) r = escalate s wg { r with kind := r.kind + 20, task := taskOf s k, lanes := (cget k.cue 63).setWidth 128 } c := by
  simp only [takeCue, (cueLine3_missing hk hg hst hmiss).2 c hb, hk, hst, if_false, ne_eq, hc, not_false_eq_true, if_true]
end

/-- Settles O34. -/
theorem escalation : Obligations.Escalation := by
  unfold Obligations.Escalation
  refine ⟨?_, ?_⟩
  · intro s wg r n k hk t w slot entry woken
    obtain ⟨hregs, hmgmt, hdropped⟩ := haltedState_same (s := s) (wg := wg) (k := k)
    have ht : t = postEntry (haltedState s wg k) entry := escalate_eq hk
    have hmreg : ∀ off, mreg (haltedState s wg k) off = mreg s off := fun off => by rw [mreg, hregs, mreg]
    have hslots : errSlots (haltedState s wg k) = errSlots s := by unfold errSlots; rw [hmreg]
    have hfree : errFree (haltedState s wg k) = errFree s := by rw [errFree, errFree, hmreg, hmreg, hslots]
    have hat : ∀ i, homeBytes t (errSlotAt (haltedState s wg k) i) 128 = slot i := fun i => by rw [errSlotAt, hmreg, hslots]
    have hawake : (∀ x d, s.mgmt[0]? = some x → x.cue.park ≠ some (.chalt d)) → Core0Awake (haltedState s wg k) := fun h => by rw [Core0Awake, hmgmt]; exact h
    have hlen : entry.length = 128 := errBytes_length ..
    refine ⟨escalate_halts hk, fun q x hq hx => escalate_queue hk hq hx, fun hfull => ?_, fun hroom hd hw => ?_, fun hroom hd hw => ?_⟩
    · rw [ht, postEntry_full (hfree.trans hfull)]
      obtain ⟨m, sy, c, h, rv, qs, hp, hmem, -⟩ := haltedState_rest (s := s) (wg := wg) (k := k)
      refine ⟨congrArg (· + 1) hdropped, hregs, ?_⟩
      rw [← hmem, hp]
    · obtain ⟨h1, h2, h3, h4⟩ := posted_first hlen (hfree.trans hroom) (hdropped.trans hd) (by rw [hmreg]; exact hw)
      rw [← ht] at h1 h2 h3 h4
      rw [hmreg] at h2 h4
      exact ⟨h1, h2, fun h => h3 (hawake h), (hat w).symm.trans h4⟩
    · obtain ⟨h1, h2, h3⟩ := posted_after hlen (hfree.trans hroom) (by rw [hdropped]; exact hd) (by rw [hmreg]; exact hw)
      rw [← ht] at h1 h2 h3
      rw [hmreg] at h2
      have hentry : droppedEntry (haltedState s wg k) = errBytes { cause := 0x1FE, kind := 2, fpc := 0, rpc := 0, addr := BitVec.ofNat 64 s.errDropped } 0 0 0 0 0 := by rw [droppedEntry, hdropped]
      refine ⟨fun h => h1 (hawake h), (hat w).symm.trans (h2.trans hentry), ?_⟩
      rw [hmreg, hmreg, hslots, hat] at h3
      exact h3
  · intro s wg r k g hk hg hst hmiss
    exact ⟨fun t j hb hj hjg hhave => takeCue_brought hk hg hst hmiss hb hj hjg hhave, fun c hb hc => takeCue_lost hk hg hst hmiss hb hc⟩
end Sys2Proof.Machine
end

section
/-! O41: refuted. Two workgroup records of one number: the management core ends both, but discards the version of a task only where `taskOn` stands, so the second keeps its version's lines. -/

namespace Sys2Proof.Machine

/-- A task whose warp has a collective in flight. -/
def taskWg : Workgroup := { pushingWg with cue := Cue.zero, taskOn := true, warps := (placedWg State.reset).warps.map fun w => { w with colls := [{ id := 7, fill := true, tile := 0, tok := none }] } }
/-- A record of the same number that is no task's and still lists a version line. -/
def twinWg : Workgroup := { taskWg with taskOn := false, vlines := [{ line := 40, mask := 3, data := 0, synd := 0, key := 0, by_ := 0 }] }
/-- Both records in a device whose management core 0 issues. -/
def twins : State := { State.reset with wgs := [taskWg, twinWg], cur := .mgmt 0 }
/-- `chalt` with MOD 1 of the image that c0 names. -/
def endImage : QF := { l := false, d := 0, a := 0, b := 0, g := 4, mod := 1, imm := 0 }
/-- What the management core issues it with. -/
def twinsCtx : CCtx := { iss := .mgmt 0, c := Cue.zero, k := none, g := none, pass := true, pc := 0 }

theorem twins_keep_line : (match exec (.chalt endImage) twins with
  | .next t => t.wgs.any fun x => x.id == 1 && x.vlines != []
  | _ => false) = true := by decide +kernel
theorem twinsCtx_eq : cueCtx twins (.chalt endImage) = some twinsCtx := by decide +kernel
theorem twins_ready : CueReady (opChalt endImage) twins twinsCtx = true := by decide +kernel

/-- Refutes O41. -/
theorem not_managementCommands : ¬ Obligations.ManagementCommands := by
  intro h
  obtain ⟨t, hexec, hended, -⟩ := ((h.2 twins twinsCtx endImage 0 rfl rfl).2 taskWg rfl rfl).1 (by decide) twinsCtx_eq twins_ready
  have hkeep := twins_keep_line
  rw [hexec] at hkeep
  obtain ⟨x, hx, hid⟩ := List.any_eq_true.mp hkeep
  simp only [Bool.and_eq_true, beq_iff_eq, bne_iff_ne] at hid
  exact hid.2 ((hended x hx hid.1).2 rfl).1
end Sys2Proof.Machine
end

section
/-! O47: refuted, as O14 is. JOIN_DEADLINE also ends the cadence (`nextAt`, 02 R54) of a thread that it releases, which the statement leaves as it was. -/

namespace Sys2Proof.Machine

/-- A thread at a `join` whose deadline is clk 0, and that its cadence holds until clk 5. -/
def overdueThread : Thread := { cadencedThread with park := some (.join (some 0) 7 0) }
/-- Beside it a thread that is not parked. -/
def overdueWarp : Warp := { cadencedWarp with threads := [overdueThread, { cadencedThread with park := none }] }
def overdueWg : Workgroup := { cadencedWg with warps := [overdueWarp] }
def overdue : State := { State.reset with wgs := [overdueWg] }

theorem overdue_examined : joinExamine overdue 1 0 = updWarp overdue 1 0 fun w => joinExamine.late overdue w (Warp_live w) := by
  refine congrArg (fun k => ({ overdue with wgs := [k] } : State)) ?_
  decide +kernel
theorem overdue_released : ((joinExamine.late overdue overdueWarp (Warp_live overdueWarp)).threads[0]?).map Thread.nextAt = some 0 := by decide +kernel

/-- Refutes O47. -/
theorem not_waitingThreads : ¬ Obligations.WaitingThreads := by
  intro h
  obtain ⟨g, hexec, hall⟩ := h.1.2.2.2.1 overdue overdueWg overdueWarp rfl rfl (by decide) ⟨1, by decide, rfl⟩
  have hthread := ((hall 0 overdueThread 0 7 0 (by decide) rfl rfl).1 (by decide)).1
  have hstate : joinExamine overdue 1 0 = updWarp overdue 1 0 g := Host.Outcome.next.inj hexec
  have hwarp : g overdueWarp = joinExamine.late overdue overdueWarp (Warp_live overdueWarp) := by
    rw [overdue_examined] at hstate
    have hwgs := congrArg (fun t : State => (t.wgs.head?).bind fun k => k.warps.head?) hstate
    exact (Option.some.inj hwgs).symm
  have hnext := overdue_released
  rw [← hwarp, hthread] at hnext
  exact absurd hnext (by decide)
end Sys2Proof.Machine
end

section
/-! O48: refuted. TAKING writes a record for each warp that the workgroup holds, while its image has room for the warps of its launch record: a workgroup that holds more is written past its image's end. -/

namespace Sys2Proof.Machine

/-- A grid whose launch record, all of it zero, has no warps. -/
def bareGrid : Grid := { placedGrid State.reset with num := 0, lrec := parseRec [] }
/-- A warp with no threads, whose record's first byte is 1. -/
def markedWarp : Warp := { cadencedWarp with threads := [], patterns := [1] }
/-- Seventeen such warps in a workgroup that is to be taken; their records take 8,704 bytes from the image's offset 4,096. -/
def crowdedWg : Workgroup := { cadencedWg with warps := List.replicate 17 markedWarp, cue := { Cue.zero with ended := true }, take := some .dispatch }
def crowded : State := { State.reset with wgs := [crowdedWg], grids := [bareGrid] }

theorem crowded_image : imageSize bareGrid.lrec = 12288 := by decide +kernel
/-- The workgroup once it is taken, as its records are written. -/
def crowdedTaken : Workgroup := { crowdedWg with st := .taken, take := none, takeAt := State.reset.clk }
/-- The device when the records are written. -/
def crowdedFlushed : State := { l1Flush (loseAtTaking crowded bareGrid crowdedWg) crowdedWg.core with wgs := [crowdedTaken] }

theorem storeRecords_byte (s : State) (g : Grid) {k : Workgroup} {i : Nat} (hthreads : k.warps.flatMap (fun w => w.threads.flatMap ctlBytes) = [])
    (hi : i < (k.warps.flatMap warpRecord).length) : homeByte (storeRecords s g k) (k.image + imgWarps + i) = (k.warps.flatMap warpRecord).getD i 0 := by
  simp only [storeRecords, hthreads]
  rw [homeByte_homeWrite, if_neg (by simp), homeByte_homeWrite, if_pos (by omega), Nat.add_sub_cancel_left]

theorem crowded_taken : exec (.taking 1) crowded = .next (storeRecords crowdedFlushed bareGrid crowdedTaken) := by
  change execTaking 1 crowded = _
  have hwg : findWg crowded 1 = some crowdedWg := by decide +kernel
  have hgrid : gridOf crowded crowdedWg = some bareGrid := by decide +kernel
  have hdone : unperformed crowded crowdedWg.core = false := by decide +kernel
  have hroom : ¬ hbmCap crowded < crowdedWg.image + imageSize bareGrid.lrec := by decide +kernel
  have hnotRes : ¬((crowdedWg.st ≠ .resident ∧ crowdedWg.st ≠ .halted) ∨ allStand crowdedWg = false ∨ engineIdle crowded crowdedWg = false) := by decide +kernel
  have hdue : dueAtCut crowdedWg = false := by decide +kernel
  have htake : crowdedWg.take = some .dispatch := rfl
  have hlost : (l1Flush (loseAtTaking crowded bareGrid crowdedWg) crowdedWg.core).wgs = [crowdedWg] := by decide +kernel
  have hthen : ∀ f : Workgroup → Workgroup, f crowdedWg = crowdedTaken → updWg (l1Flush (loseAtTaking crowded bareGrid crowdedWg) crowdedWg.core) 1 f = crowdedFlushed := fun f hf => by
    have hwgs : (l1Flush (loseAtTaking crowded bareGrid crowdedWg) crowdedWg.core).wgs.map (fun k => if k.id = 1 then f k else k) = [crowdedTaken] := by
      rw [hlost, ← hf]
      rfl
    exact congrArg (fun ws => ({ l1Flush (loseAtTaking crowded bareGrid crowdedWg) crowdedWg.core with wgs := ws } : State)) hwgs
  have hfind : findWg crowdedFlushed 1 = some crowdedTaken := by decide +kernel
  simp only [execTaking, hwg, hgrid, htake]
  rw [if_neg hnotRes, hdue, hdone, if_neg hroom, hthen _ (by decide +kernel), hfind]
  rfl
theorem crowded_overrun {t : State} (h : exec (.taking 1) crowded = .next t) : homeByte t 12288 = 1 := by
  rw [crowded_taken] at h
  obtain rfl := Host.Outcome.next.inj h
  have hbyte := storeRecords_byte crowdedFlushed bareGrid (k := crowdedTaken) (i := 8192) (by decide +kernel) (by decide +kernel)
  refine hbyte.trans ?_
  decide +kernel
theorem crowded_flushed : homeByte (l1Flush crowded 0) 12288 = 0 := by decide +kernel

/-- Refutes O48. -/
theorem not_taking : ¬ Obligations.Taking := by
  intro h
  obtain ⟨t, k', hexec, -, -, -, -, -, -, -, -, hrest⟩ :=
    h.1 crowded 1 crowdedWg bareGrid .dispatch (by decide +kernel) (by decide +kernel) (by decide) (by decide) (by decide +kernel) (by decide +kernel) (by decide +kernel) (by decide +kernel) (by decide +kernel)
  have hsame := hrest 12288 (Or.inr (by decide +kernel)) (by decide +kernel)
  have hflush : homeByte (l1Flush crowded crowdedWg.core) 12288 = 0 := crowded_flushed
  have hone : homeByte t 12288 = 1 := crowded_overrun hexec
  exact absurd (hone.symm.trans (hsame.trans hflush)) (by decide)
end Sys2Proof.Machine
end

section
/-! O52: refuted. `tzero` writes the 1.0 of a scale format that is neither UE8M0 nor UE4M3 as 0x3C00, also where the format field holds 3 and a scale takes one byte, of which 0x3C00 leaves zero. -/

namespace Sys2Proof.Machine

/-- A grid whose slot 0 names one scale for its tile, of the scale format 3. -/
def scaledGrid : Grid := { bareGrid with lrec := { parseRec [] with slots := [0x01820000] } }
def scaledDevice : State := { State.reset with wgs := [cadencedWg], grids := [scaledGrid] }
def zeroFields : QE := { l := true, d := 0, a := 0, b := 0, g := 4, mod := 0, tok := 0, fsl := 0, ta := 0, tb := 0, ac := 0, opt := 0 }
/-- `tzero` of a tile of one element of that slot. -/
def zeroCmd : Cmd :=
  { id := 1, op := .tzero zeroFields, owner := .cue 1, core := 0, regs := [], tok := none, pc := 0, words := 0, stamp := 0, started := true, plane := false, done := 0, total := 1, half := 0, cause := none, aux := []
    buf := [], bufSynd := [], cfgs := [] }

theorem zeroCmd_scale : (match cmdUnit scaledDevice zeroCmd with
  | .go t => (findWg t 1).map fun k => tileNat k 0 16 1
  | _ => none) = some 0 := by decide +kernel

/-- Refutes O52. -/
theorem not_unitsAndCompletion : ¬ Obligations.UnitsAndCompletion := by
  intro h
  obtain ⟨-, -, -, -, -, htzero, -⟩ := h.1 scaledDevice zeroCmd zeroFields 1 cadencedWg scaledGrid.lrec rfl (by decide +kernel)
  obtain ⟨t, k', hunit, hfind, -, hscales⟩ := htzero rfl
  have hscale : tileNat k' 0 16 1 = 0x3C00 := hscales (0, 16) (by decide +kernel)
  have hzero := zeroCmd_scale
  rw [hunit] at hzero
  have hread : (findWg t 1).map (fun k => tileNat k 0 16 1) = some 0 := hzero
  rw [hfind] at hread
  exact absurd (hscale.symm.trans (Option.some.inj hread)) (by decide)
end Sys2Proof.Machine
end

section
/-! Starts, plane loads and units of engine commands (11 R286, R287, R301, R306; 12 R313). Obligation O51. -/

namespace Sys2Proof.Machine

/-! ### Commands by number -/

theorem findCmd_id {s : State} {n : Nat} {c : Cmd} (h : findCmd s n = some c) : c.id = n := by
  have hid := List.find?_some h
  exact eq_of_beq hid
theorem findCmd_updCmd {s : State} {n : Nat} {c : Cmd} {f : Cmd → Cmd} (h : findCmd s n = some c) (hf : ∀ x, (f x).id = x.id) : findCmd (updCmd s n f) n = some (f c) := by
  have hid : ((fun x : Cmd => x.id == n) ∘ fun x : Cmd => if x.id = n then f x else x) = fun x => x.id == n := by
    funext x
    simp only [Function.comp_apply]
    split
    · rw [hf]
    · rfl
  simp only [findCmd, updCmd, List.find?_map, hid]
  rw [show s.cmds.find? (fun x => x.id == n) = some c from h, Option.map_some, if_pos (findCmd_id h)]

/-! ### Planes -/

@[simp] theorem setPlanes_cmds (s : State) (p : Planes) : (setPlanes s p).cmds = s.cmds := rfl
@[simp] theorem planeSwap_cmds (s : State) (c : Cmd) : (planeSwap s c).cmds = s.cmds := by
  unfold planeSwap
  dsimp only
  (repeat' split) <;> rfl
@[simp] theorem planeFill_cmds (s : State) (c : Cmd) : (planeFill s c).cmds = s.cmds := by
  unfold planeFill
  dsimp only
  (repeat' split) <;> rfl
theorem planesOf_core (s : State) (core : Nat) : (planesOf s core).core = core := by
  unfold planesOf
  cases hp : s.planes.find? fun p => p.core == core with
  | none => rfl
  | some p => exact eq_of_beq (List.find?_some (p := fun p : Planes => p.core == core) hp)
theorem planesOf_setPlanes (s : State) (p : Planes) : planesOf (setPlanes s p) p.core = p := by simp [planesOf, setPlanes]
/-- A plane load leaves the tile's tag in a plane of the core. -/
theorem planeFill_tag {s : State} {c : Cmd} {tag : PlaneTag} (hcent : isCent c.op = false) (htag : cmdTag s c = some tag) :
    (planesOf (planeFill s c) c.core).active = some tag ∨ (planesOf (planeFill s c) c.core).shadow = some tag := by
  simp only [planeFill, hcent, htag, Bool.false_eq_true, if_false]
  split
  case isTrue h =>
    simpa using h
  case isFalse =>
    have hset := planesOf_setPlanes s { planesOf s c.core with shadow := some tag }
    rw [planesOf_core] at hset
    rw [hset]
    exact Or.inr rfl

/-! ### Starts -/

theorem array_started {s : State} {n : Nat} {c : Cmd} (hc : findCmd s n = some c) (hs : arrayStartable s c = true) (hm : isMmg c.op = false) :
    ∃ t, exec (.arrayCommandStart n) s = .next t ∧ findCmd t n = some { c with started := true } := by
  have hfind : findCmd (planeSwap s c) n = some c := by rw [findCmd, planeSwap_cmds]; exact hc
  refine ⟨updCmd (planeSwap s c) n fun c => { c with started := true }, ?_, findCmd_updCmd hfind fun _ => rfl⟩
  change execArrayCommandStart n s = _
  simp only [execArrayCommandStart, hc, hs, Bool.not_true, Bool.false_eq_true, if_false]
  split
  case h_1 f hop => simp [hop, isMmg] at hm
  case h_2 => rfl
theorem mmg_started {s : State} {n : Nat} {c : Cmd} {f : QE} (hc : findCmd s n = some c) (hs : arrayStartable s c = true) (hop : c.op = .arrmmg f) :
    let v := { planeSwap s c with cmds := s.cmds.map fun x => if x.id = n then { x with started := true } else x }
    (∀ u, mmgStart v c f = .go u → exec (.arrayCommandStart n) s = .next u)
      ∧ ∀ u x a, mmgStart v c f = .stop u x a → exec (.arrayCommandStart n) s = .next (updCmd (noteCause u n x a) n fun c => { c with done := c.total }) := by
  intro v
  have hv : updCmd (planeSwap s c) n (fun c => { c with started := true }) = v := by rw [updCmd, planeSwap_cmds]
  have hexec : exec (.arrayCommandStart n) s = match mmgStart v c f with
      | .go u => .next u
      | .stop u x a => .next (stopCmd u n x a)
      | .wait => .next s := by
    change execArrayCommandStart n s = _
    simp only [execArrayCommandStart, hc, hs, Bool.not_true, Bool.false_eq_true, if_false, hop, hv] <;> rfl
  refine ⟨fun u hu => ?_, fun u x a hu => ?_⟩
  · rw [hexec, hu]
  · rw [hexec, hu]
    rfl

/-! ### Units -/

/-- The step of a started command that is not done, by what its unit answers. -/
theorem stepUnit_eq {s : State} {n : Nat} {c : Cmd} (hc : findCmd s n = some c) (hs : c.started = true) (hd : c.done < c.total) :
    stepUnit s n = match cmdSelf s c with
      | some x => updCmd (noteCause { s with softErrors := s.softErrors.erase x } n x 0) n fun c => { c with done := c.total }
      | none => match cmdUnit s c with
        | .go u => updCmd u n fun c => { c with done := c.done + 1 }
        | .stop u x a => updCmd (noteCause u n x a) n fun c => { c with done := c.total }
        | .wait => s := by
  have hopen : decide (c.total ≤ c.done) = false := by simpa using hd
  simp only [stepUnit, hc, hs, hopen, Bool.not_true, Bool.or_self, Bool.false_eq_true, if_false]
  rfl
theorem oneUnit_eq {s : State} {n : Nat} {c : Cmd} {p : Instr → Bool} (hc : findCmd s n = some c) (hp : p c.op = true) : oneUnit s n p = .next (stepUnit s n) := by
  simp only [oneUnit, hc, hp, if_true]
theorem unit_event {s : State} {n : Nat} {c : Cmd} {ev : Instr} (hc : findCmd s n = some c)
    (hev : (ev = .deliveryUnitAdvance n ∧ delivers c.op = true) ∨ (ev = .adrainpRowArrival n ∧ isDrainp c.op = true) ∨ (ev = .contributionAccept n ∧ contributes c.op = true)
      ∨ (ev = .xcloseAtSlice n ∧ isXclose c.op = true) ∨ (ev = .streamRowResult n ∧ streams c.op = true ∧ rowEntered c = true)) :
    exec ev s = .next (stepUnit s n) := by
  obtain ⟨rfl, h⟩ | ⟨rfl, h⟩ | ⟨rfl, h⟩ | ⟨rfl, h⟩ | ⟨rfl, h, hrow⟩ := hev
  · exact oneUnit_eq hc h
  · exact oneUnit_eq hc h
  · exact oneUnit_eq hc h
  · exact oneUnit_eq hc h
  · change execStreamRowResult n s = _
    simp only [execStreamRowResult, hc, h, hrow, Bool.and_self, if_true]
theorem plane_loaded {s : State} {n : Nat} {c : Cmd} (hc : findCmd s n = some c) (hl : planeLoadable s c = true) (hself : isArrw c.op = true → cmdSelf s c = none) :
    ∃ t d, exec (.planeLoad n) s = .next t ∧ findCmd t n = some d ∧ (if isArrw c.op then d = { c with done := c.done + 1 } else d = { c with plane := true })
      ∧ ∀ tag, isCent c.op = false → cmdTag s c = some tag → (planesOf t c.core).active = some tag ∨ (planesOf t c.core).shadow = some tag := by
  have hfind : findCmd (planeFill s c) n = some c := by rw [findCmd, planeFill_cmds]; exact hc
  have hexec : exec (.planeLoad n) s = .next (if isArrw c.op then stepUnit s n else updCmd (planeFill s c) n fun c => { c with plane := true }) := by
    change execPlaneLoad n s = _
    simp only [execPlaneLoad, hc, hl, Bool.not_true, Bool.false_eq_true, if_false]
    split <;> rfl
  cases harrw : isArrw c.op with
  | false =>
    simp only [harrw, Bool.false_eq_true, if_false] at hexec ⊢
    exact ⟨_, _, hexec, (findCmd_updCmd hfind fun _ => rfl), rfl, fun tag => planeFill_tag⟩
  | true =>
    simp only [planeLoadable, harrw, if_true, Bool.and_eq_true, decide_eq_true_eq] at hl
    have hunit : cmdUnit s c = .go (planeFill s c) := by
      cases hop : c.op <;> simp only [hop, isArrw, Bool.false_eq_true] at harrw
      simp only [cmdUnit, hop, arrayUnit]
      rfl
    rw [hexec, if_pos harrw, stepUnit_eq hc hl.1.1 hl.1.2, hself harrw, hunit]
    exact ⟨_, _, rfl, (findCmd_updCmd hfind fun _ => rfl), rfl, fun tag => planeFill_tag⟩

/-! ### Rows of `adrainp` (R306) -/

theorem unitOf_drainp {s : State} {n : Nat} {c : Cmd} {f : QE} {k : Workgroup} {g : LaunchRec} (hc : findCmd s n = some c) (hs : c.started = true) (hd : c.done < c.total) (hop : c.op = .adrainp f)
    (hwg : cmdWg s c = some (k, g)) : let d := creg c f.d.toNat
    unitOf s n = if c.half < drRows d then updCmd s n fun y => { y with half := y.half + 1, cfgs := SMap.setAll y.cfgs ((List.range (drCols d)).map fun j => (256 * y.half + j, BitVec.ofNat 64 (accGet k f.ac.toNat (drRow0 d + y.half) (drCol0 d + j)))) } else s := by
  simp only [unitOf, hc, hop, hs, hd, decide_true, Bool.and_self, if_true, drainpLeave, hwg, findCmd_id hc]
theorem unitOf_other {s : State} {n : Nat} {c : Cmd} (hc : findCmd s n = some c) (hop : isDrainp c.op = false) : unitOf s n = stepUnit s n := by
  simp only [unitOf, hc]
  split
  case h_1 f h => simp [h, isDrainp] at hop
  case h_2 => rfl
theorem drainp_row {s : State} {n : Nat} {c : Cmd} {f : QE} {k : Workgroup} {g : LaunchRec} (hc : findCmd s n = some c) (hs : c.started = true) (hd : c.done < c.total) (hop : c.op = .adrainp f)
    (hwg : cmdWg s c = some (k, g)) : let d := creg c f.d.toNat
    (drRows d ≤ c.half → unitOf s n = s)
      ∧ (c.half < drRows d → ∃ y, findCmd (unitOf s n) n = some y ∧ y = { c with half := c.half + 1, cfgs := y.cfgs } ∧ (∀ j < drCols d, SMap.get y.cfgs (256 * c.half + j) = BitVec.ofNat 64 (accGet k f.ac.toNat (drRow0 d + c.half) (drCol0 d + j)))
        ∧ (unitOf s n).wgs = s.wgs ∧ (unitOf s n).mem = s.mem) := by
  intro d
  have hunit := unitOf_drainp hc hs hd hop hwg
  refine ⟨fun h => hunit.trans (if_neg (Nat.not_lt.mpr h)), fun h => ?_⟩
  have hleave := hunit.trans (if_pos h)
  refine ⟨_, (congrArg (findCmd · n) hleave).trans (findCmd_updCmd hc fun _ => rfl), rfl, fun j hj => ?_, ?_, ?_⟩
  · have hkeys := SMap.get_setAll_range (fun _ => true) (256 * c.half) (fun j => BitVec.ofNat 64 (accGet k f.ac.toNat (drRow0 d + c.half) (drCol0 d + j))) (drCols d) c.cfgs (256 * c.half + j)
    simpa [hj] using hkeys
  · rw [hleave]; rfl
  · rw [hleave]; rfl

/-- Settles O51. -/
theorem commandProgress : Obligations.CommandProgress := by
  refine ⟨fun s n c hc => ⟨fun hnext => ?_, array_started hc, fun f hs hop => mmg_started hc hs hop, plane_loaded hc⟩, fun s n c ev hc hs hd hev => ?_, fun s n h => step_of_done (by rw [h]; rfl), fun s n c hc hs hd => ⟨fun hop => ?_, fun f wg k g hop _ hwg => drainp_row hc hs hd hop hwg⟩⟩
  · change execEngineCommandStart n s = _
    simp only [execEngineCommandStart, hc, hnext, if_true]
    rfl
  · exact (unit_event hc hev).trans (congrArg Host.Outcome.next (stepUnit_eq hc hs hd))
  · rw [unitOf_other hc hop]
    have hunit := stepUnit_eq hc hs hd
    refine ⟨fun x hx => ?_, fun u hx hu => ?_, fun u x a hx hu => ?_, fun hx hu => ?_⟩
    · simpa only [hx] using hunit
    · simpa only [hx, hu] using hunit
    · simpa only [hx, hu] using hunit
    · simpa only [hx, hu] using hunit
end Sys2Proof.Machine
end

section
/-! Instruction-cache fills and table walks (07 R157, 13 R358, 14 R398). Obligation O59. -/

namespace Sys2Proof.Machine

/-- A line put into the instruction cache is found there, whichever line of a full set left. -/
theorem findILine_putILine (s : State) (unit : Nat) (asid : BitVec 16) (va : Nat) (bs : List Byte) (m : Option Cause) :
    findILine (putILine s { pair := unit, asid := asid, va := lineBase va, data := bs, mark := m }) unit asid va = some { pair := unit, asid := asid, va := lineBase va, data := bs, mark := m } := by
  simp [findILine, putILine]
theorem fetchUnit_cue {s : State} {wg : Nat} {k : Workgroup} (h : findWg s wg = some k) : fetchUnit s (.cue wg) = k.core / 2 := by simp only [fetchUnit, issuerWg, h]
theorem fetchFill_missing {s : State} {wg va : Nat} {k : Workgroup} (hwg : findWg s wg = some k) (hva : va < 2 ^ 57) (hmiss : findILine s (k.core / 2) (spaceOf s (.cue wg)).1 va = none) :
    exec (.fetchFill wg va) s = .next (fillLine s (.cue wg) va) := by
  change execFetchFill wg va s = _
  simp only [execFetchFill, hwg, hva, hmiss, Option.isNone_none, and_self, if_true]
theorem tableWalk_failed {s : State} {core asid root va : Nat} {f : WalkFault} (h : walk s root va = .error f) :
    exec (.tableWalk core asid root va) s = .next (match integrityCause 12 f.cap with
      | some c => postAsync s c (BitVec.ofNat 64 va) none
      | none => s) := by
  change execTableWalk core asid root va s = _
  simp only [execTableWalk, h] <;> rfl

/-- Settles O59. -/
theorem fills : Obligations.Fills := by
  refine ⟨fun s u wg va k hwg hva hmiss => ⟨fun bs h => ?_, fun c h => ?_⟩, fun s core asid root va => ⟨fun tr h => ?_, fun f h hcap => ?_, fun f c h hcap => ?_⟩⟩
  · rw [fetchFill_missing hwg hva hmiss, fillLine, h, fetchUnit_cue hwg]
    exact ⟨_, _, rfl, findILine_putILine .., rfl, rfl, rfl⟩
  · rw [fetchFill_missing hwg hva hmiss, fillLine, h, fetchUnit_cue hwg]
    exact ⟨_, _, rfl, findILine_putILine .., rfl, rfl⟩
  · change execTableWalk core asid root va s = _
    simp only [execTableWalk, h]
  · rw [tableWalk_failed h, hcap]
    rfl
  · rw [tableWalk_failed h, hcap]
end Sys2Proof.Machine
end

section
/-! What posting an entry in the error queue (13 R361) leaves as it was: everything but memory, the entry index and what core 0 waits at. -/

namespace Sys2Proof.Machine

/-- `t` follows from `s` by entries of the error queue alone. -/
structure Posted (s t : State) : Prop where
  rest : ∃ m sy c h r mr mg n, t = { s with mem := m, memSynd := sy, comb := c, hostLines := h, resv := r, mregs := mr, mgmt := mg, errDropped := n }
  regs : ∀ off, off / 8 ≠ Reg.MWAKE / 8 → off / 8 ≠ Reg.ERRWIDX / 8 → mreg t off = mreg s off

namespace Posted
variable {s t u : State}

theorem refl (s : State) : Posted s s := ⟨⟨_, _, _, _, _, _, _, _, rfl⟩, fun _ _ _ => rfl⟩
theorem trans (h : Posted s t) (h' : Posted t u) : Posted s u := by
  obtain ⟨m, sy, c, hl, r, mr, mg, n, rfl⟩ := h.rest
  obtain ⟨m', sy', c', hl', r', mr', mg', n', rfl⟩ := h'.rest
  exact ⟨⟨m', sy', c', hl', r', mr', mg', n', rfl⟩, fun off hw he => (h'.regs off hw he).trans (h.regs off hw he)⟩

/-! What it leaves as it was, field by field. -/
theorem wgs (h : Posted s t) : t.wgs = s.wgs := by obtain ⟨_, _, _, _, _, _, _, _, rfl⟩ := h.rest; rfl
theorem grids (h : Posted s t) : t.grids = s.grids := by obtain ⟨_, _, _, _, _, _, _, _, rfl⟩ := h.rest; rfl
theorem cmds (h : Posted s t) : t.cmds = s.cmds := by obtain ⟨_, _, _, _, _, _, _, _, rfl⟩ := h.rest; rfl
theorem flights (h : Posted s t) : t.flights = s.flights := by obtain ⟨_, _, _, _, _, _, _, _, rfl⟩ := h.rest; rfl
theorem queues (h : Posted s t) : t.queues = s.queues := by obtain ⟨_, _, _, _, _, _, _, _, rfl⟩ := h.rest; rfl
theorem ports (h : Posted s t) : t.ports = s.ports := by obtain ⟨_, _, _, _, _, _, _, _, rfl⟩ := h.rest; rfl
theorem outbox (h : Posted s t) : t.outbox = s.outbox := by obtain ⟨_, _, _, _, _, _, _, _, rfl⟩ := h.rest; rfl
theorem busy (h : Posted s t) : t.busy = s.busy := by obtain ⟨_, _, _, _, _, _, _, _, rfl⟩ := h.rest; rfl
theorem l1 (h : Posted s t) : t.l1 = s.l1 := by obtain ⟨_, _, _, _, _, _, _, _, rfl⟩ := h.rest; rfl
theorem clk (h : Posted s t) : t.clk = s.clk := by obtain ⟨_, _, _, _, _, _, _, _, rfl⟩ := h.rest; rfl
theorem findWg (h : Posted s t) (wg : Nat) : Machine.findWg t wg = Machine.findWg s wg := by unfold Machine.findWg; rw [h.wgs]
theorem findQueue (h : Posted s t) (q : Nat) : Machine.findQueue t q = Machine.findQueue s q := by unfold Machine.findQueue; rw [h.queues]
end Posted

theorem posted_errWrite (s : State) (bs : List Byte) : Posted s (errWrite s bs) := by
  obtain ⟨m, sy, c, h, r, mr, mg, hw⟩ := errWrite_rest s bs
  exact ⟨⟨m, sy, c, h, r, mr, mg, s.errDropped, hw⟩, fun _ => errWrite_mreg_other⟩
theorem Posted.setDropped {s t : State} (h : Posted s t) (n : Nat) : Posted s { t with errDropped := n } := by
  obtain ⟨m, sy, c, hl, r, mr, mg, d, rfl⟩ := h.rest
  exact ⟨⟨m, sy, c, hl, r, mr, mg, n, rfl⟩, h.regs⟩
theorem posted_errReport (s : State) : Posted s (errReport s) := by
  unfold errReport
  split
  · exact (posted_errWrite s _).setDropped 0
  · exact .refl s
theorem posted_postEntry (s : State) (bs : List Byte) : Posted s (postEntry s bs) := by
  unfold postEntry
  dsimp only
  split
  · exact (posted_errReport s).trans (posted_errWrite ..)
  · exact (posted_errReport s).setDropped _
theorem posted_postRec (s : State) (r : TrapRec) (wg : Option Nat) : Posted s (postRec s r wg) := by
  unfold postRec
  split <;> exact posted_postEntry ..
theorem posted_postAsync (s : State) (cause : Cause) (a : BitVec 64) (wg : Option Nat) : Posted s (postAsync s cause a wg) := posted_postRec ..
theorem posted_postNote (s : State) (c : Option Cause) (a : BitVec 64) (wg : Option Nat) : Posted s (postNote s c a wg) := by
  unfold postNote
  split
  · exact posted_postAsync ..
  · exact .refl s
end Sys2Proof.Machine
end

section
/-! Host queues (15 R424 to R427). Obligation O53. -/

namespace Sys2Proof.Machine

/-! ### Registers and states of queues -/

section
variable {s t : State} {q : Nat} {x : QueueSt}

theorem qreg_lt (s : State) (q f : Nat) : qreg s q f < 2 ^ 32 := Nat.mod_lt _ (by decide)
theorem qreg_setQreg (s : State) (q f v : Nat) : qreg (setQreg s q f v) q f = v % 2 ^ 32 := by
  have hlt : mreg s (Reg.QUEUE + 16 * q + f / 2 * 8) < 2 ^ 64 := BitVec.isLt _
  obtain hf | hf := Nat.mod_two_eq_zero_or_one f
  · simp only [qreg, setQreg, mreg_setMreg, hf, if_true]
    omega
  · simp only [qreg, setQreg, mreg_setMreg, hf, if_true, if_false, Nat.one_ne_zero]
    omega
/-- Entries of the error queue leave the queues' registers as they were. -/
theorem Posted.qreg (h : Posted s t) {f : Nat} (hf : f < 4) : Machine.qreg t q f = Machine.qreg s q f := by
  unfold Machine.qreg
  rw [h.regs _ (by simp only [Reg.QUEUE, Reg.MWAKE]; omega) (by simp only [Reg.QUEUE, Reg.ERRWIDX]; omega)]
theorem findQueue_q (h : findQueue s q = some x) : x.q = q := eq_of_beq (List.find?_some (p := fun x : QueueSt => x.q == q) h)
theorem findQueue_updQueue {f : QueueSt → QueueSt} (h : findQueue s q = some x) (hf : ∀ y, (f y).q = y.q) : findQueue (updQueue s q f) q = some (f x) := by
  have hid : ((fun y : QueueSt => y.q == q) ∘ fun y : QueueSt => if y.q = q then f y else y) = fun y => y.q == q := by
    funext y
    simp only [Function.comp_apply]
    split
    · rw [hf]
    · rfl
  simp only [findQueue, updQueue, List.find?_map, hid]
  rw [show s.queues.find? (fun y => y.q == q) = some x from h, Option.map_some, if_pos (findQueue_q h)]

theorem findQueue_of_queues (h : t.queues = s.queues) (q : Nat) : findQueue t q = findQueue s q := by unfold findQueue; rw [h]
theorem setQreg_queues (s : State) (q f v : Nat) : (setQreg s q f v).queues = s.queues := rfl
theorem findQueue_setQreg (s : State) (r f v q : Nat) : findQueue (setQreg s r f v) q = findQueue s q := findQueue_of_queues (setQreg_queues ..) q
theorem qreg_of_mregs (h : t.mregs = s.mregs) (q f : Nat) : qreg t q f = qreg s q f := by simp only [qreg, mreg, h]
theorem qreg_updQueue (s : State) (r : Nat) (g : QueueSt → QueueSt) (q f : Nat) : qreg (updQueue s r g) q f = qreg s q f := qreg_of_mregs (updQueue_mregs ..) q f

/-! ### Enabling and disabling -/

theorem qCtl_withQueues (s : State) (l : List QueueSt) (q : Nat) : qCtl { s with queues := l } q = qCtl s q := rfl
theorem readQueue_q (s : State) (q : Nat) : (readQueue s q).q = q := by simp only [readQueue]
theorem enableQueue_eq (h : queueOk s q = true) : enableQueue s q = { setQctl s q true false false with queues := s.queues.filter (fun x => x.q != q) ++ [readQueue s q] } := by
  simp only [enableQueue, h, if_true]
  rw [setQctl, setQreg_queues]
theorem enableQueue_ok (h : queueOk s q = true) : findQueue (enableQueue s q) q = some (readQueue s q) ∧ qCtl (enableQueue s q) q = 1 := by
  rw [enableQueue_eq h]
  refine ⟨?_, ?_⟩
  · have hnone : (List.filter (fun x : QueueSt => x.q != q) s.queues).find? (fun x => x.q == q) = none := by simp
    have hnew : ((readQueue s q).q == q) = true := by rw [readQueue_q]; exact beq_self_eq_true q
    unfold findQueue
    dsimp only
    rw [List.find?_append, hnone, Option.none_or, List.find?_cons, hnew]
  · rw [qCtl_withQueues, qCtl, setQctl, qreg_setQreg]
    decide
theorem enableQueue_bad (h : queueOk s q = false) : enableQueue s q = postAsync (setQctl (postCaps s (mreg s Reg.HQBASE + 64 * q) 64 q) q false true false) 0x1CF (BitVec.ofNat 64 q) none := by
  simp only [enableQueue, h, Bool.false_eq_true, if_false]
theorem disableQueue_off (h : findQueue s q = some x) : findQueue (disableQueue s q) q = some { x with on := false } ∧ qRidx (disableQueue s q) q = qWidx s q := by
  simp only [disableQueue, h]
  generalize ht : (if qRidx s q = qWidx s q then s else postAsync s (if x.kind = 0 then 0x1D3 else 0x1DB) (BitVec.ofNat 64 q) none) = t
  have hposted : Posted s t := by
    subst ht
    split
    · exact .refl s
    · exact posted_postAsync ..
  have hfind : findQueue (setQreg t q 2 (qWidx t q)) q = some x := by rw [findQueue_setQreg, hposted.findQueue, h]
  have hwidx : qWidx t q = qWidx s q := hposted.qreg (by decide)
  refine ⟨findQueue_updQueue hfind fun _ => rfl, ?_⟩
  rw [qRidx, qreg_updQueue, qreg_setQreg, hwidx]
  exact Nat.mod_eq_of_lt (qreg_lt s q 1)
theorem queueEnable_one (h : (List.range 256).filter (enableDue s) = [q]) : exec .queueEnable s = .next (enableQueue s q) := by
  change execQueueEnable s = _
  rw [execQueueEnable, h]
  rfl
theorem queueDisable_one (h : (List.range 256).filter (disableDue s) = [q]) : exec .queueDisable s = .next (disableQueue s q) := by
  change execQueueDisable s = _
  rw [execQueueDisable, h]
  rfl

/-! ### Serving -/

theorem queueServe_reads (hd : deviceReady s = true) (hx : findQueue s q = some x) (hon : x.on = true) (hheld : qHeld s q = false) (hwake : qWake s q ≠ 0) (hroom : (qWidx s q + 2 ^ 32 - qRidx s q) % 2 ^ 32 ≤ x.slots) :
    ∃ t, exec (.queueServe q) s = .next t ∧ qWake t q = 0 ∧ findQueue t q = some { x with seen := qWidx s q } := by
  refine ⟨updQueue (setQreg s q 0 0) q fun x => { x with seen := qWidx s q }, ?_, ?_, findQueue_updQueue ((findQueue_setQreg ..).trans hx) fun _ => rfl⟩
  case refine_2 => rw [qWake, qreg_updQueue, qreg_setQreg, Nat.zero_mod]
  change execQueueServe q s = _
  simp only [execQueueServe, hx, hd, hon, hheld, hwake, Bool.not_true, Bool.or_self, decide_false, Bool.false_eq_true, if_false, if_neg (Nat.not_lt.mpr hroom)]
theorem queueServe_early (hx : findQueue s q = some x) (hd : deviceReady s = false) : hasEntry s x = false ∧ exec (.queueServe q) s = .next s := by
  refine ⟨by simp only [hasEntry, hd, Bool.false_and], ?_⟩
  change execQueueServe q s = _
  simp only [execQueueServe, hx, hd, Bool.not_false, Bool.true_or, if_true]

/-! ### Launch entries -/

theorem entry_considered (hx : findQueue s q = some x) (hk : x.kind = 0) (he : hasEntry s x = true) :
    exec (.launchEntryAccept q) s = if x.serial && x.faulted then .next (qHold s q 0x1D6) else if !prevDone s x then .next s else match entryCheck s x with
      | .error c => .next (rejectEntry s x c)
      | .ok c => match allocRun s 8192 with
        | none => .next s
        | some run =>
          .next (updQueue (takeEntry (acceptGrid s run c { depth := 1, parent := none, notify := none, queue := some q, asid := x.asid, root := x.root, owner := x.owner, svcOk := x.svc, wakeOk := x.wake, prio := x.prio }) q) q
            fun x => { x with cur := some s.nextGrid, faulted := false }) := by
  change execLaunchEntryAccept q s = _
  simp only [execLaunchEntryAccept, hx, hk, he, ne_eq, not_true_eq_false, Bool.not_true, Bool.false_eq_true, or_self, if_false] <;> rfl
/-- What an accepted launch leaves: two writes of its run and one more grid. -/
theorem acceptGrid_grid (s : State) (run : Nat) (c : Copies) (o : Origin) : ∃ g, (acceptGrid s run c o).grids = s.grids ++ [g] ∧ g.num = s.nextGrid ∧ g.lrec = parseRec c.rec_ ∧ g.depth = o.depth ∧ g.queue = o.queue ∧ g.asid = o.asid ∧ g.root = o.root
    ∧ g.patterns = c.pats ∧ g.run = run ∧ g.nextWg = 0 ∧ g.endedWgs = 0 ∧ g.retired = false ∧ g.notify = o.notify ∧ (acceptGrid s run c o).nextGrid = s.nextGrid + 1 := by
  obtain ⟨m, sy, cb, h, r, hw⟩ := homeWrite_rest s run (c.args ++ List.replicate (4096 - c.args.length) 0) 0 none
  obtain ⟨m', sy', cb', h', r', hw'⟩ := homeWrite_rest (homeWrite s run (c.args ++ List.replicate (4096 - c.args.length) 0) 0 none) (run + 0x1000) c.rec_ 0 none
  have hgrids := congrArg State.grids hw'
  have hnext := congrArg State.nextGrid hw'
  rw [hw] at hgrids hnext
  unfold acceptGrid
  dsimp only
  rw [hw, hgrids, hnext]
  exact ⟨_, rfl, rfl, rfl, rfl, rfl, rfl, rfl, rfl, rfl, rfl, rfl, rfl, rfl, rfl⟩
theorem takeEntry_find (h : findQueue s q = some x) : findQueue (takeEntry s q) q = some { x with taken := x.taken + 1 } :=
  findQueue_updQueue ((findQueue_setQreg ..).trans h) fun _ => rfl
theorem takeEntry_ridx (s : State) (q : Nat) : qRidx (takeEntry s q) q = (qRidx s q + 1) % 2 ^ 32 := by rw [qRidx, takeEntry, qreg_updQueue, qreg_setQreg]
theorem takeEntry_grids (s : State) (q : Nat) : (takeEntry s q).grids = s.grids ∧ (takeEntry s q).nextGrid = s.nextGrid := by
  simp only [takeEntry, updQueue, setQreg, setMreg, and_self]
theorem acceptGrid_mreg (s : State) (run : Nat) (c : Copies) (o : Origin) (off : Nat) : mreg (acceptGrid s run c o) off = mreg s off := by
  have hfirst := mreg_homeWrite s run (c.args ++ List.replicate (4096 - c.args.length) 0) 0 none off
  exact (mreg_homeWrite _ (run + 0x1000) c.rec_ 0 none off).trans hfirst
theorem entry_accepted (hx : findQueue s q = some x) (hk : x.kind = 0) (he : hasEntry s x = true) (hfree : x.serial = false ∨ x.faulted = false) (hprev : prevDone s x = true) :
    (∀ cp run, entryCheck s x = .ok cp → allocRun s 8192 = some run → ∃ t g, exec (.launchEntryAccept q) s = .next t ∧ t.grids = s.grids ++ [g] ∧ g.num = s.nextGrid ∧ g.lrec = parseRec cp.rec_ ∧ g.depth = 1
        ∧ g.queue = some q ∧ g.asid = x.asid ∧ g.root = x.root ∧ t.nextGrid = s.nextGrid + 1 ∧ qRidx t q = (qRidx s q + 1) % 2 ^ 32)
      ∧ ∀ e, entryCheck s x = .error e → exec (.launchEntryAccept q) s = .next (rejectEntry s x e) := by
  have hexec := entry_considered hx hk he
  have hser : (x.serial && x.faulted) = false := by rw [Bool.and_eq_false_iff]; exact hfree
  simp only [hser, hprev, Bool.not_true, Bool.false_eq_true, if_false] at hexec
  refine ⟨fun cp run hcp hrun => ?_, fun e he => ?_⟩
  · rw [hcp] at hexec
    simp only [hrun] at hexec
    generalize ho : ({ depth := 1, parent := none, notify := none, queue := some q, asid := x.asid, root := x.root, owner := x.owner, svcOk := x.svc, wakeOk := x.wake, prio := x.prio } : Origin) = o at hexec
    obtain ⟨g, hgrids, hnum, hrec, hdepth, hqueue, hasid, hroot, -, -, -, -, -, -, hnext⟩ := acceptGrid_grid s run cp o
    have hridx : qRidx (acceptGrid s run cp o) q = qRidx s q := by simp only [qRidx, qreg, acceptGrid_mreg]
    subst ho
    obtain ⟨htake, htakeNext⟩ := takeEntry_grids (acceptGrid s run cp { depth := 1, parent := none, notify := none, queue := some q, asid := x.asid, root := x.root, owner := x.owner, svcOk := x.svc, wakeOk := x.wake, prio := x.prio }) q
    refine ⟨_, g, hexec, htake.trans hgrids, hnum, hrec, hdepth, hqueue, hasid, hroot, htakeNext.trans hnext, ?_⟩
    rw [qRidx, qreg_updQueue]
    exact (takeEntry_ridx ..).trans (by rw [hridx])
  · rw [he] at hexec
    exact hexec

/-! ### Copy blocks -/

theorem block_considered (hx : findQueue s q = some x) (hk : x.kind = 1) (he : hasEntry s x = true) (hroom : (bulkQueue s x.cluster).length < 64) :
    exec (.copyBlockAccept q) s = match entryBytes s x 64 with
      | none => .next (signalBlocks (rejectBlock (entryNote s x 64) x 0x1D8) q (x.blocks.length + 1))
      | some bs => match blockCause s bs with
        | .error c => .next (signalBlocks (rejectBlock s x c) q (x.blocks.length + 1))
        | .ok e =>
          let cmd := blockCommand s x e bs
          if 64 < locksUsed s x.cluster + (e.ranges s (blockCtx bs)).length ∨ ((e.ranges s (blockCtx bs)).any (rangeWaits s (engOf s cmd))) then .next s
          else
            let t := { updQueue (takeEntry s q) q fun y => { y with blocks := y.blocks ++ [(x.taken, false, false)] } with nextId := s.nextId + 1, cmds := s.cmds ++ [cmd] }
            .next (registerLocks t (rangeLocks t (engOf t cmd) cmd.id (e.ranges s (blockCtx bs)))) := by
  change execCopyBlockAccept q s = _
  have hid : ∀ f : QueueSt → QueueSt, (updQueue (takeEntry s q) q f).nextId = s.nextId ∧ (updQueue (takeEntry s q) q f).cmds = s.cmds := fun f => by simp only [takeEntry, updQueue, setQreg, setMreg, and_self]
  simp only [execCopyBlockAccept, hx, hk, he, ne_eq, not_true_eq_false, Bool.not_true, Bool.false_eq_true, false_or, if_neg (Nat.not_le.mpr hroom), hid] <;> rfl
theorem block_taken (hx : findQueue s q = some x) (n : Nat) (c : List Cmd) : findQueue { updQueue (takeEntry s q) q fun y => { y with blocks := y.blocks ++ [(x.taken, false, false)] } with nextId := n, cmds := c } q
    = some { x with taken := x.taken + 1, blocks := x.blocks ++ [(x.taken, false, false)] } := by
  have hput := findQueue_updQueue (f := fun y => { y with blocks := y.blocks ++ [(x.taken, false, false)] }) (takeEntry_find hx) fun _ => rfl
  exact (findQueue_of_queues (by rfl) q).trans hput
end

/-- Settles O53. -/
theorem hostQueueEvents : Obligations.HostQueueEvents := by
  refine ⟨fun s => ⟨rfl, rfl⟩, fun s q hq => ⟨enableQueue_ok, enableQueue_bad, fun x => disableQueue_off, fun hdue => ⟨fun hok => ⟨_, queueEnable_one hdue, enableQueue_ok hok⟩, fun hbad => (queueEnable_one hdue).trans (congrArg _ (enableQueue_bad hbad))⟩,
    fun x hdue hx => ⟨_, queueDisable_one hdue, disableQueue_off hx⟩, fun x => queueServe_reads, fun x => queueServe_early, fun x hx hk he hser hfault => ?_, fun x => entry_accepted, fun x hx hk he hroom hnone => ?_, fun x bs hx hk he hroom hbs => ?_⟩⟩
  · rw [entry_considered hx hk he, hser, hfault]
    rfl
  · rw [block_considered hx hk he hroom, hnone]
  · have hexec := block_considered hx hk he hroom
    rw [hbs] at hexec
    refine ⟨fun e hok hlocks => ⟨fun hwait => ?_, fun hgo => ⟨?_, block_taken hx ..⟩⟩, fun e hok hlocks => ?_, fun e herr => ?_⟩
    · simp only [hok, hwait, or_true, if_true] at hexec
      exact hexec
    · simp only [hok, hgo, Nat.not_lt.mpr hlocks, Bool.false_eq_true, or_self, if_false] at hexec
      exact hexec
    · simp only [hok, hlocks, true_or, if_true] at hexec
      exact hexec
    · simp only [herr] at hexec
      exact hexec
end Sys2Proof.Machine
end

section
/-! The dispatcher: placement, resumption, migration and its timers (10 R256 to R258, R269; 13 R373, R374, R379). Obligation O49. -/

namespace Sys2Proof.Machine

/-! ### What stands of a workgroup -/

/-- The first workgroup of a number is one for which `p` holds. -/
def Stands (p : Workgroup → Prop) (wg : Nat) (s : State) : Prop := ∃ k, findWg s wg = some k ∧ p k

section
variable {s t : State} {wg : Nat} {p : Workgroup → Prop}

theorem findWg_id {k : Workgroup} (h : findWg s wg = some k) : k.id = wg := eq_of_beq (List.find?_some (p := fun k : Workgroup => k.id == wg) h)
theorem findWg_of_wgs (h : t.wgs = s.wgs) (wg : Nat) : findWg t wg = findWg s wg := by unfold findWg; rw [h]
theorem Stands.of_wgs (hs : Stands p wg s) (h : t.wgs = s.wgs) : Stands p wg t := by rwa [Stands, findWg_of_wgs h]
theorem Stands.posted (hs : Stands p wg s) (h : Posted s t) : Stands p wg t := hs.of_wgs h.wgs
theorem findWg_updWg_ne {n : Nat} {f : Workgroup → Workgroup} (hf : ∀ k, (f k).id = k.id) (hn : wg ≠ n) : findWg (updWg s n f) wg = findWg s wg := by
  have hid : ((fun x : Workgroup => x.id == wg) ∘ fun x : Workgroup => if x.id = n then f x else x) = fun x => x.id == wg := by
    funext x
    simp only [Function.comp_apply]
    split
    · rw [hf]
    · rfl
  simp only [findWg, updWg, List.find?_map, hid]
  cases hx : s.wgs.find? fun x => x.id == wg with
  | none => rfl
  | some x =>
    have hxid : x.id = wg := eq_of_beq (List.find?_some (p := fun k : Workgroup => k.id == wg) hx)
    rw [Option.map_some, if_neg (by rw [hxid]; exact hn)]
/-- A change of any workgroup's record that keeps its number and `p`. -/
theorem Stands.updWg (hs : Stands p wg s) (n : Nat) {f : Workgroup → Workgroup} (hid : ∀ k, (f k).id = k.id) (hp : ∀ k, p k → p (f k)) : Stands p wg (updWg s n f) := by
  obtain ⟨k, hk, hpk⟩ := hs
  by_cases hn : wg = n
  · subst hn
    exact ⟨f k, by rw [findWg_updWg s wg f hid, hk, Option.map_some], hp k hpk⟩
  · exact ⟨k, by rw [findWg_updWg_ne hid hn, hk], hpk⟩
theorem Stands.mono {q : Workgroup → Prop} (hs : Stands p wg s) (h : ∀ k, p k → q k) : Stands q wg s := hs.imp fun k hk => ⟨hk.1, h k hk.2⟩
theorem Stands.foldl {α : Type} {f : State → α → State} (l : List α) (hf : ∀ t a, Stands p wg t → Stands p wg (f t a)) (hs : Stands p wg s) : Stands p wg (l.foldl f s) := by
  induction l generalizing s with
  | nil => exact hs
  | cons a l ih => exact ih (hf s a hs)

theorem findWg_put {k u : Workgroup} (h : findWg s wg = some k) (hu : u.id = wg) : findWg (Machine.updWg s wg fun _ => u) wg = some u := by
  have hid : ((fun x : Workgroup => x.id == wg) ∘ fun x : Workgroup => if x.id = wg then u else x) = fun x => x.id == wg := by
    funext x
    simp only [Function.comp_apply]
    split
    next hx => rw [hx, hu]
    next => rfl
  simp only [findWg, Machine.updWg, List.find?_map, hid]
  rw [show s.wgs.find? (fun x => x.id == wg) = some k from h, Option.map_some, if_pos (findWg_id h)]
theorem Stands.l1Inv (hs : Stands p wg s) (core : Nat) : Stands p wg (l1Inv s core) := hs.of_wgs rfl
theorem Stands.withCmds (hs : Stands p wg s) (c : List Cmd) : Stands p wg { s with cmds := c } := hs.of_wgs rfl
theorem Stands.ite {c : Prop} [Decidable c] (hs : Stands p wg s) (ht : Stands p wg t) : Stands p wg (if c then s else t) := by split <;> assumption

/-! ### Frames -/

theorem homeWrite_wgs (s : State) (pa : Nat) (bs : List Byte) (key : BitVec 16) (who : Option Agent) : (homeWrite s pa bs key who).wgs = s.wgs := by
  obtain ⟨_, _, _, _, _, hw⟩ := homeWrite_rest s pa bs key who
  rw [hw]
theorem noteWg_wgs (s : State) (wg : Nat) : (noteWg s wg).wgs = s.wgs := by
  obtain ⟨_, _, _, _, _, hw⟩ := noteWg_rest s wg
  rw [hw]
theorem noteWg_grids_nextId (s : State) (wg : Nat) : (noteWg s wg).grids = s.grids ∧ (noteWg s wg).nextId = s.nextId := by
  obtain ⟨_, _, _, _, _, hw⟩ := noteWg_rest s wg
  rw [hw]
  exact ⟨rfl, rfl⟩
theorem foldl_wgs {α : Type} {f : State → α → State} (l : List α) (s : State) (h : ∀ t x, (f t x).wgs = t.wgs) : (l.foldl f s).wgs = s.wgs := by
  induction l generalizing s with
  | nil => rfl
  | cons x l ih => exact (ih (f s x)).trans (h s x)
theorem loadLocal_wgs (s : State) (g : Grid) (k : Workgroup) : (loadLocal s g k).wgs = s.wgs := foldl_wgs _ s fun _ _ => rfl
theorem moveLocal_wgs (s : State) (g : Grid) (k n : Workgroup) : (moveLocal s g k n).wgs = s.wgs := foldl_wgs _ s fun _ _ => rfl
theorem Stands.deferCue (hs : Stands p wg s) (w : Nat) (cause : Cause) (a : BitVec 64) (pc : VAddr) (n : Nat) (hp : ∀ k c, p k → p { k with cue := c }) : Stands p wg (deferCue s (.cue w) cause a pc n) :=
  Stands.updWg (s := (takeId s).2) (hs.of_wgs rfl) w (fun _ => rfl) fun _ => hp _ _
end

/-! ### Placement -/

theorem findGrid_updGrid {s : State} {n : Nat} {g : Grid} {f : Grid → Grid} (h : findGrid s n = some g) (hf : ∀ x, (f x).num = x.num) : findGrid (updGrid s n f) n = some (f g) := by
  have hg : g.num = n := eq_of_beq (List.find?_some (p := fun g : Grid => g.num == n) h)
  have hid : ((fun x : Grid => x.num == n) ∘ fun x : Grid => if x.num = n then f x else x) = fun x => x.num == n := by
    funext x
    simp only [Function.comp_apply]
    split
    · rw [hf]
    · rfl
  simp only [findGrid, updGrid, List.find?_map, hid]
  rw [show s.grids.find? (fun x => x.num == n) = some g from h, Option.map_some, if_pos hg]
theorem placement {s : State} {level m num core image : Nat} {g : Grid} {room : Room} (hc : dispatchChoice s = some (.place level m num core)) (hg : findGrid s num = some g) (hi : allocRun s (imageSize g.lrec) = some image)
    (ha : admits s g.lrec core none = some room) (hr : makeRoom s g.lrec core room.bases 0 = none) :
    ∃ t, exec .workgroupPlacement s = .next t ∧ t.wgs = s.wgs ++ [newWg g s.nextId g.nextWg core image room] ∧ t.nextId = s.nextId + 1
      ∧ findGrid t num = some { g with nextWg := g.nextWg + 1, aged := 0, readySince := s.clk } := by
  have hnum : g.num = num := eq_of_beq (List.find?_some (p := fun g : Grid => g.num == num) hg)
  let v : State := { s with nextId := s.nextId + 1, wgs := s.wgs ++ [newWg g s.nextId g.nextWg core image room] }
  let u := updGrid v g.num fun g => { g with nextWg := g.nextWg + 1, aged := 0, readySince := s.clk }
  have hplace : placeWg s g core = some (noteWg (l1Inv u core) s.nextId) := by
    simp only [placeWg, hi, ha, hr, Option.bind_some, Option.isSome_none, Bool.false_eq_true, if_false]
    rfl
  have hexec : exec .workgroupPlacement s = .next { noteWg (l1Inv u core) s.nextId with rounds := roundAfter s level m } := by
    change execWorkgroupPlacement s = _
    simp only [execWorkgroupPlacement, hc, hg, Option.bind_some, hplace]
  obtain ⟨hgrids, hid⟩ := noteWg_grids_nextId (l1Inv u core) s.nextId
  refine ⟨_, hexec, (noteWg_wgs ..).trans rfl, hid.trans rfl, ?_⟩
  have hfind : findGrid u num = some { g with nextWg := g.nextWg + 1, aged := 0, readySince := s.clk } := by
    rw [← hnum] at hg ⊢
    exact findGrid_updGrid (s := v) hg fun _ => rfl
  rw [← hfind]
  unfold findGrid
  dsimp only
  rw [hgrids]
  rfl

/-! ### Resumption and migration -/

/-- A workgroup as it stands where it has been installed. -/
structure Installed (core : Nat) (m : Option Nat) (k : Workgroup) : Prop where
  st : k.st = .resident
  core : k.core = core
  held : k.held = false
  cmig : k.cmig = m
/-- The record of a workgroup as `installWg` writes it. -/
def installed (s : State) (g : Grid) (k : Workgroup) (core : Nat) (room : Room) : Workgroup :=
  let u := loadRecords s g k
  let u := if u.storedTiles then loadTiles s g u else u
  let u := setPlaces { u with st := .resident, core := core, ctx := room.ctx, bases := room.bases, held := false, target := none, storedLocal := false
                              take := if k.cmig.isSome then some .migrate else none, takeAt := s.clk, takeLate := false } room.places
  { u with cue := stubCue s g k.id u.cue, warps := u.warps.map fun w => { w with threads := w.threads.map (stubThread s g k.id) } }
theorem installed_id (s : State) (g : Grid) (k : Workgroup) (core : Nat) (room : Room) : (installed s g k core room).id = k.id := by
  unfold installed
  dsimp only
  split <;> rfl
theorem installed_spec (s : State) (g : Grid) (k : Workgroup) (core : Nat) (room : Room) : Installed core k.cmig (installed s g k core room) := by
  unfold installed
  dsimp only
  split <;> exact ⟨rfl, rfl, rfl, rfl⟩
theorem installWg_stands {s : State} {g : Grid} {k k0 : Workgroup} (core : Nat) (room : Room) (hk : findWg s k.id = some k0) : Stands (Installed core k.cmig) k.id (installWg s g k core room) := by
  have hcue : ∀ (x : Workgroup) (c : Cue), Installed core k.cmig x → Installed core k.cmig { x with cue := c } := fun x c h => ⟨h.st, h.core, h.held, h.cmig⟩
  have hput : Stands (Installed core k.cmig) k.id (updWg s k.id fun _ => installed s g k core room) := by
    exact ⟨_, findWg_put hk (installed_id ..), installed_spec ..⟩
  have hload : Stands (Installed core k.cmig) k.id (if k.storedLocal then loadLocal (updWg s k.id fun _ => installed s g k core room) g (installed s g k core room) else updWg s k.id fun _ => installed s g k core room) :=
    (hput.of_wgs (loadLocal_wgs ..)).ite hput
  refine Stands.of_wgs ?_ (noteWg_wgs ..)
  refine (Stands.withCmds ?_ _).l1Inv core
  refine Stands.ite ?_ (Stands.posted ?_ (posted_postAsync ..))
  all_goals exact (hload.deferCue _ _ _ _ _ hcue).ite hload
theorem resumption {s : State} {wg core : Nat} {k : Workgroup} {g : Grid} {room : Room} (hc : dispatchChoice s = some (.resume wg core)) (hk : findWg s wg = some k) (hg : gridOf s k = some g) (hl : leaveCore s k core = none)
    (ha : admits s g.lrec core (keepBases k core) = some room) (hr : makeRoom s g.lrec core room.bases wg = none) :
    ∃ t k', exec .resumption s = .next t ∧ findWg t wg = some k' ∧ k'.st = .resident ∧ k'.core = core ∧ k'.held = false := by
  have hexec : exec .resumption s = .next (if core = k.core then installWg s g k core room else postAsync (installWg s g k core room) 0x079 0 (some wg)) := by
    change execResumption s = _
    simp only [execResumption, hc, hk, hg, hl, ha, hr, Option.isSome_none, Bool.false_eq_true, if_false]
  obtain rfl := findWg_id hk
  have hin := installWg_stands (g := g) core room hk
  obtain ⟨k', hfind, hst, hcore, hheld, -⟩ : Stands (Installed core k.cmig) k.id (if core = k.core then installWg s g k core room else postAsync (installWg s g k core room) 0x079 0 (some k.id)) := hin.ite (hin.posted (posted_postAsync ..))
  exact ⟨_, k', hexec, hfind, hst, hcore, hheld⟩

/-! A migration whose message is corrupt leaves the workgroup taken, all of it in its image. -/

theorem storeLine_taken {s : State} {g : Grid} {k : Workgroup} {n wg : Nat} (h : Stands (·.st = .taken) wg s) : Stands (·.st = .taken) wg (storeLine s g k n) := by
  have hset : ∀ (r : LaunchRec) (x : Workgroup) (bs : List Byte) (kind : LineKind), (lineSet r x bs kind).id = x.id ∧ (lineSet r x bs kind).st = x.st := fun r x bs kind => by
    cases kind <;> simp only [lineSet, Workgroup_updWarp, and_self]
  unfold storeLine
  dsimp only
  refine Stands.updWg (Stands.of_wgs (Stands.of_wgs h (homeWrite_wgs ..)) (homeWrite_wgs ..)) _ (fun x => ?_) fun x hx => ?_
  · exact (hset ..).1
  · exact (hset ..).2.trans hx
theorem storeLines_taken {s : State} {w wg : Nat} (h : Stands (·.st = .taken) wg s) : Stands (·.st = .taken) wg (storeLines s w) := by
  unfold storeLines
  split
  · exact h
  · split
    · exact h
    · refine h.foldl _ fun t n ht => ?_
      split
      · exact storeLine_taken ht
      · exact ht
theorem storeAreas_taken {s : State} {w wg : Nat} (h : Stands (·.st = .taken) wg s) : Stands (·.st = .taken) wg (storeAreas s w) := by
  have htiles : ∀ g k, Stands (·.st = .taken) wg (storeTiles s g k) := fun g k => ((h.of_wgs (homeWrite_wgs ..)).of_wgs (homeWrite_wgs ..)).updWg _ (fun _ => rfl) fun _ => id
  have hlocal : ∀ t g k, Stands (·.st = .taken) wg t → Stands (·.st = .taken) wg (storeLocal t g k) := fun t g k ht => by
    unfold storeLocal
    refine Stands.updWg (Stands.of_wgs ht (foldl_wgs _ t fun u x => ?_)) _ (fun _ => rfl) fun _ => id
    exact homeWrite_wgs u _ _ _ _
  unfold storeAreas
  split
  · exact h
  · split
    · exact h
    · exact ((h.ite (htiles _ _))).ite (hlocal _ _ _ (h.ite (htiles _ _)))
theorem migRoom_spec {s : State} {k : Workgroup} {r : Grid × Nat × Room} (hm : migRoom s k = some r) : k.st = .taken := by
  by_contra h
  simp [migRoom, h] at hm
theorem migration_intact {s : State} {wg core : Nat} {k : Workgroup} {g : Grid} {room : Room} (hk : findWg s wg = some k) (hm : migRoom s k = some (g, core, room)) (hr : makeRoom s g.lrec core room.bases wg = none) :
    ∃ t, exec (.migrationMessage wg true) s = .next t ∧ Stands (Installed core none) wg t := by
  change ∃ t, execMigrationMessage wg true s = .next t ∧ _
  simp only [execMigrationMessage, hk, hm, hr, Option.isSome_none, Bool.false_eq_true, if_false, if_true]
  refine ⟨_, rfl, Stands.posted (Stands.posted ?_ (posted_postAsync ..)) (posted_postAsync ..)⟩
  obtain rfl := findWg_id hk
  have hfind : findWg (updWg s k.id fun k => { k with cmig := none }) k.id = some { k with cmig := none } := by rw [findWg_updWg s k.id (fun k => { k with cmig := none }) fun _ => rfl, hk, Option.map_some]
  have hin := installWg_stands (k := { k with cmig := none }) (g := g) core room hfind
  split
  · exact hin.ite (hin.of_wgs (moveLocal_wgs ..))
  · exact hin
theorem migration_corrupt {s : State} {wg core : Nat} {k : Workgroup} {g : Grid} {room : Room} (hk : findWg s wg = some k) (hm : migRoom s k = some (g, core, room)) (hr : makeRoom s g.lrec core room.bases wg = none) :
    ∃ t, exec (.migrationMessage wg false) s = .next t ∧ Stands (fun k => k.st = .taken ∧ k.cmig = none) wg t := by
  change ∃ t, execMigrationMessage wg false s = .next t ∧ _
  simp only [execMigrationMessage, hk, hm, hr, Option.isSome_none, Bool.false_eq_true, if_false]
  refine ⟨_, rfl, Stands.posted ?_ (posted_postAsync ..)⟩
  obtain ⟨k', hfind, hst⟩ := storeAreas_taken (w := wg) (storeLines_taken (w := wg) ⟨k, hk, migRoom_spec hm⟩)
  exact ⟨{ k' with cmig := none }, by rw [findWg_updWg _ wg (fun k => { k with cmig := none }) fun _ => rfl, hfind, Option.map_some], hst, rfl⟩

/-! ### Timers -/

/-- A walk over workgroups of different numbers that changes those that are due. -/
theorem foldl_due_wgs {due : Workgroup → Bool} {f : Workgroup → Workgroup} {post : State → Workgroup → State} (hf : ∀ k, (f k).id = k.id) (hpost : ∀ t k, (post t k).wgs = t.wgs) (l : List Workgroup) (hl : (l.map (·.id)).Nodup) (t : State) :
    (l.foldl (fun t k => if due k then post (updWg t k.id f) k else t) t).wgs = t.wgs.map fun x => if l.any fun k => due k && k.id == x.id then f x else x := by
  induction l generalizing t with
  | nil => simp
  | cons k l ih =>
    obtain ⟨hnew, hrest⟩ := List.nodup_cons.mp hl
    rw [List.foldl_cons, ih hrest]
    cases hd : due k with
    | false => simp [hd]
    | true =>
      simp only [if_true, hpost, updWg, List.map_map]
      refine List.map_congr_left fun x _ => ?_
      simp only [Function.comp_apply, List.any_cons, hd, Bool.true_and]
      by_cases hx : x.id = k.id
      · have hnone : (l.any fun j => due j && j.id == k.id) = false := by
          rw [List.any_eq_false]
          intro j hj
          have hne : j.id ≠ k.id := fun h => hnew (List.mem_map.mpr ⟨j, hj, h⟩)
          simp [hne]
        simp [hx, hf, hnone]
      · have hne : (k.id == x.id) = false := beq_false_of_ne fun h => hx h.symm
        simp [hx, hne]
theorem any_due_self {due : Workgroup → Bool} {l : List Workgroup} (hl : (l.map (·.id)).Nodup) {x : Workgroup} (hx : x ∈ l) : (l.any fun k => due k && k.id == x.id) = due x := by
  cases hd : due x with
  | true => exact List.any_eq_true.mpr ⟨x, hx, by simp [hd]⟩
  | false =>
    rw [List.any_eq_false]
    intro k hk
    by_cases hid : k.id = x.id
    · obtain rfl := List.inj_on_of_nodup_map hl hk hx hid
      simp [hd]
    · simp [hid]
theorem foldl_field {α β : Type} {p : State → β} {f : State → α → State} (l : List α) (s : State) (h : ∀ t x, p (f t x) = p t) : p (l.foldl f s) = p s := by
  induction l generalizing s with
  | nil => rfl
  | cons x l ih => exact (ih (f s x)).trans (h s x)
/-- What such a walk leaves where it posts an entry for each that is due. -/
theorem foldl_due {s : State} {due : Workgroup → Bool} {f : Workgroup → Workgroup} {post : State → Workgroup → State} (hf : ∀ k, (f k).id = k.id) (hpost : ∀ t k, Posted t (post t k)) (hids : (s.wgs.map (·.id)).Nodup) :
    let t := s.wgs.foldl (fun t k => if due k then post (updWg t k.id f) k else t) s
    t.flights = s.flights ∧ t.cmds = s.cmds ∧ t.wgs = s.wgs.map fun k => if due k then f k else k := by
  refine ⟨foldl_field (p := State.flights) _ s fun t k => ?_, foldl_field (p := State.cmds) _ s fun t k => ?_, ?_⟩
  · split
    · exact (hpost ..).flights
    · rfl
  · split
    · exact (hpost ..).cmds
    · rfl
  · rw [foldl_due_wgs hf (fun t k => (hpost t k).wgs) _ hids]
    exact List.map_congr_left fun x hx => by rw [any_due_self hids hx]
/-- A migration whose message has not come in time. -/
def migLate (s : State) (k : Workgroup) : Bool := decide (k.st = .taken ∧ k.cmig.isSome = true ∧ k.held = false ∧ k.takeAt + Config.clkPerMs ≤ s.clk)
/-- A taking that is late and not reported. -/
def takingLate (s : State) (k : Workgroup) : Bool := decide (k.take.isSome = true ∧ k.takeLate = false ∧ k.takeAt + mreg s Reg.PTIMEOUT * Config.clkPerUs ≤ s.clk)
/-- What a late taking is reported with: the first unit found waiting. -/
def lateCause (k : Workgroup) : Cause :=
  match k.warps.findSome? fun w => (liveThreads w).find? fun th => !threadStands w th with
  | some th => if th.inHandler then 0x06D else 0x06A
  | none => if !cueStands k.cue then (if k.cue.inHandler then 0x06D else 0x06B) else 0x06C
theorem migrationFallback_eq (s : State) :
    exec .migrationFallback s = .next (s.wgs.foldl (fun t k => if migLate s k then postAsync (updWg t k.id fun k => { k with cmig := none, target := none }) 0x06F 0 (some k.id) else t) s) := by
  simp only [migLate, decide_eq_true_eq]
  rfl
theorem preemptionTimeout_eq (s : State) :
    exec .preemptionTimeout s = .next (s.wgs.foldl (fun t k => if takingLate s k then postAsync (updWg t k.id fun k => { k with takeLate := true }) (lateCause k) 0 (some k.id) else t) s) := by
  simp only [takingLate, decide_eq_true_eq]
  rfl
theorem lateCause_mem (k : Workgroup) : lateCause k ∈ [(0x06A : Cause), 0x06B, 0x06C, 0x06D] := by
  unfold lateCause
  (repeat' split) <;> decide

/-- Settles O49. -/
theorem dispatcher : Obligations.Dispatcher := by
  refine ⟨⟨fun s level m num core image g room => placement, fun s wg core k g room => resumption, fun s wg core k g room hk hm hr => ⟨?_, ?_⟩⟩, fun s => ?_, fun s k hk hst hcmig hheld hclk => ?_, fun s hids => ?_, fun s k hk htake hlate hclk => ?_, fun s hids => ?_⟩
  · obtain ⟨t, hexec, k', hfind, hin⟩ := migration_intact hk hm hr
    exact ⟨t, k', hexec, hfind, hin.st, hin.core, hin.cmig⟩
  · obtain ⟨t, hexec, k', hfind, hst, hcmig⟩ := migration_corrupt hk hm hr
    exact ⟨t, k', hexec, hfind, hst, hcmig⟩
  · change execAgingTick s = _
    simp only [execAgingTick, readyGrid, decide_eq_true_eq]
  · have hdue : migLate s k = true := decide_eq_true ⟨hst, hcmig, hheld, hclk⟩
    rw [migrationFallback_eq, hk]
    simp only [List.foldl_cons, List.foldl_nil, hdue, if_true, updWg, hk, List.map_cons, List.map_nil]
  · have hall := foldl_due (s := s) (due := migLate s) (f := fun k => { k with cmig := none, target := none }) (post := fun t k => postAsync t 0x06F 0 (some k.id)) (fun _ => rfl) (fun t k => posted_postAsync ..) hids
    simp only [migLate, decide_eq_true_eq] at hall
    exact ⟨_, rfl, hall⟩
  · have hdue : takingLate s k = true := decide_eq_true ⟨htake, hlate, hclk⟩
    refine ⟨lateCause k, lateCause_mem k, ?_⟩
    rw [preemptionTimeout_eq, hk]
    simp only [List.foldl_cons, List.foldl_nil, hdue, if_true, updWg, hk, List.map_cons, List.map_nil]
  · have hall := foldl_due (s := s) (due := takingLate s) (f := fun k => { k with takeLate := true }) (post := fun t k => postAsync t (lateCause k) 0 (some k.id)) (fun _ => rfl) (fun t k => posted_postAsync ..) hids
    simp only [takingLate, decide_eq_true_eq] at hall
    exact ⟨_, rfl, hall⟩
end Sys2Proof.Machine
end

section
namespace Sys2Proof.Machine

@[simp] theorem foldl_nextGrid {α : Type} (l : List α) (f : State → α → State) (s : State) (h : ∀ t x, (f t x).nextGrid = t.nextGrid) : (l.foldl f s).nextGrid = s.nextGrid := by
  induction l generalizing s with
  | nil => rfl
  | cons x r ih => rw [List.foldl_cons, ih, h]
theorem foldl_snd_nextGrid {α β : Type} (l : List α) (f : β × State → α → β × State) (a : β × State) (h : ∀ t x, (f t x).2.nextGrid = t.2.nextGrid) : (l.foldl f a).2.nextGrid = a.2.nextGrid := by
  induction l generalizing a with
  | nil => rfl
  | cons x r ih => rw [List.foldl_cons, ih, h]
@[simp] theorem combUse_nextGrid (s : State) (line : ℕ) (mask : BitVec 128) (key : BitVec 16) : (combUse s line mask key).nextGrid = s.nextGrid := by
  simp [combUse]
@[simp] theorem endResv_nextGrid (s : State) (g : ℕ) (who : Option Agent) : (endResv s g who).nextGrid = s.nextGrid := by
  simp [endResv]
@[simp] theorem homeMerge_nextGrid (s : State) (line : Nat) (mask : BitVec 128) (d : BitVec 1024) (key : BitVec 16) (who : Option Agent) : (homeMerge s line mask d key who).nextGrid = s.nextGrid := by
  unfold homeMerge
  split
  · rfl
  · refine (foldl_nextGrid _ _ _ fun t j => ?_).trans ?_
    · split <;> simp
    · simp
@[simp] theorem homeWrite_nextGrid (s : State) (pa : Nat) (bs : List Byte) (key : BitVec 16) (who : Option Agent) : (homeWrite s pa bs key who).nextGrid = s.nextGrid := by
  simp [homeWrite]
@[simp] theorem softTake_nextGrid (s : State) (lo : ℕ) (hi : ℕ) : (softTake s lo hi).2.nextGrid = s.nextGrid := by
  unfold softTake
  split <;> simp
@[simp] theorem updPort_nextGrid (s : State) (p : ℕ) (f : Port → Port) : (updPort s p f).nextGrid = s.nextGrid := by
  simp [updPort]
@[simp] theorem offerPort_nextGrid (s : State) (p : ℕ) (m : Msg) : (offerPort s p m).nextGrid = s.nextGrid := by
  simp only [offerPort]
  (repeat' split) <;> simp [*]
@[simp] theorem routeMsg_nextGrid (s : State) (m : Msg) : (routeMsg s m).nextGrid = s.nextGrid := by
  unfold routeMsg
  split <;> simp
@[simp] theorem postMsg_nextGrid (s : State) (m : Msg) : (postMsg s m).nextGrid = s.nextGrid := by
  simp [postMsg]
@[simp] theorem askPeer_nextGrid (s : State) (a : Asker) (m : Msg) : (askPeer s a m).nextGrid = s.nextGrid := by
  simp [askPeer]
@[simp] theorem peerPoint_nextGrid (s : State) (p : Point) (o : LaneOp) (pa : ℕ) (n : ℕ) : (peerPoint s p o pa n).2.2.nextGrid = s.nextGrid := by
  simp [peerPoint]
@[simp] theorem combRead_nextGrid (s : State) (pa : ℕ) (n : ℕ) (key : BitVec 16) : (combRead s pa n key).nextGrid = s.nextGrid := by
  unfold combRead
  split <;> simp
@[simp] theorem sendMsg_nextGrid (s : State) (dst : ℕ) (kind : BitVec 6) (page : ℕ) (seq : BitVec 16) (aux : ℕ) (data : List Byte) : (sendMsg s dst kind page seq aux data).nextGrid = s.nextGrid := by
  simp [sendMsg]
@[simp] theorem peerRead_nextGrid (s : State) (pa : ℕ) (n : ℕ) : (peerRead s pa n).2.nextGrid = s.nextGrid := by
  simp [peerRead]
@[simp] theorem behindRead_nextGrid (s : State) (loc : Loc) (n : ℕ) (key : BitVec 16) : (behindRead s loc n key).2.2.nextGrid = s.nextGrid := by
  unfold behindRead
  (repeat' split) <;> grind [combRead_nextGrid, peerRead_nextGrid, foldl_nextGrid]
@[simp] theorem pointRead_nextGrid (s : State) (p : Point) (o : LaneOp) (n : ℕ) : (pointRead s p o n).2.2.nextGrid = s.nextGrid := by
  unfold pointRead
  split <;> simp
@[simp] theorem setQreg_nextGrid (s : State) (q : ℕ) (f : ℕ) (v : ℕ) : (setQreg s q f v).nextGrid = s.nextGrid := by
  simp [setQreg]
@[simp] theorem chaltRelease_nextGrid (s : State) (m : ℕ) : (chaltRelease s m).nextGrid = s.nextGrid := by
  simp only [chaltRelease]
  (repeat' split) <;> simp [*]
@[simp] theorem wakeOr_nextGrid (s : State) (target : ℕ) (v : ℕ) : (wakeOr s target v).nextGrid = s.nextGrid := by
  unfold wakeOr
  (repeat' split) <;> simp [*]
@[simp] theorem queueWrite_nextGrid (s : State) (q : ℕ) (f : ℕ) (v : ℕ) : (queueWrite s q f v).nextGrid = s.nextGrid := by
  unfold queueWrite
  (repeat' split) <;> simp [*]
@[simp] theorem regStore_nextGrid (s : State) (off : ℕ) (n : ℕ) (v : ℕ) : (regStore s off n v).nextGrid = s.nextGrid := by
  simp only [regStore]
  (repeat' split) <;> simp [*]
@[simp] theorem regWrite_nextGrid (s : State) (off : ℕ) (n : ℕ) (v : ℕ) : (regWrite s off n v).nextGrid = s.nextGrid := by
  unfold regWrite
  split <;> simp
@[simp] theorem takePair_nextGrid (s : State) (pair : ℕ) : (takePair s pair).nextGrid = s.nextGrid := by
  simp [takePair]
@[simp] theorem errWrite_nextGrid (s : State) (bs : List Byte) : (errWrite s bs).nextGrid = s.nextGrid := by
  simp [errWrite]
@[simp] theorem errReport_nextGrid (s : State) : (errReport s).nextGrid = s.nextGrid := by
  unfold errReport
  split <;> simp
@[simp] theorem postEntry_nextGrid (s : State) (bs : List Byte) : (postEntry s bs).nextGrid = s.nextGrid := by
  simp only [postEntry]
  (repeat' split) <;> simp [*]
@[simp] theorem postRec_nextGrid (s : State) (r : TrapRec) (wg : Option ℕ) : (postRec s r wg).nextGrid = s.nextGrid := by
  unfold postRec
  split <;> simp
@[simp] theorem postAsync_nextGrid (s : State) (cause : Cause) (addr : BitVec 64) (wg : Option ℕ) : (postAsync s cause addr wg).nextGrid = s.nextGrid := by
  simp [postAsync]
@[simp] theorem colRead_nextGrid (s : State) (c : ℕ) (v : BitVec 16) : (colRead s c v).nextGrid = s.nextGrid := by
  simp only [colRead]
  (repeat' split) <;> simp [*]
@[simp] theorem reclass_nextGrid (s : State) : (reclass s).nextGrid = s.nextGrid := by
  unfold reclass
  grind [colRead_nextGrid, foldl_nextGrid]
@[simp] theorem disableQueue_nextGrid (s : State) (q : ℕ) : (disableQueue s q).nextGrid = s.nextGrid := by
  unfold disableQueue
  (repeat' split) <;> grind [postAsync_nextGrid, updQueue_nextGrid, setQreg_nextGrid, foldl_nextGrid]
@[simp] theorem mapWrite_nextGrid (s : State) (off : ℕ) (n : ℕ) (v : ℕ) : (mapWrite s off n v).nextGrid = s.nextGrid := by
  simp only [mapWrite]
  (repeat' split) <;> simp [*]
@[simp] theorem peerWrite_nextGrid (s : State) (a : Asker) (pa : ℕ) (bs : List Byte) (caps : List (BitVec 16)) : (peerWrite s a pa bs caps).nextGrid = s.nextGrid := by
  simp [peerWrite]
@[simp] theorem behindWrite_nextGrid (s : State) (iss : Issuer) (lane : ℕ) (loc : Loc) (bs : List Byte) (key : BitVec 16) (at_ : optParam (VAddr × BitVec 64) (0, 0)) : (behindWrite s iss lane loc bs key at_).nextGrid = s.nextGrid := by
  unfold behindWrite
  split <;> simp
@[simp] theorem pointWrite_nextGrid (s : State) (p : Point) (o : LaneOp) (bs : List Byte) : (pointWrite s p o bs).nextGrid = s.nextGrid := by
  unfold pointWrite
  split <;> simp
@[simp] theorem rmw_nextGrid (s : State) (p : Point) (o : LaneOp) (n : ℕ) (consumer : ℕ) (fn : ℕ → Option ℕ × OpOut) : (rmw s p o n consumer fn).2.nextGrid = s.nextGrid := by
  simp only [rmw]
  (repeat' split) <;> simp [*]
@[simp] theorem dropResv_nextGrid (s : State) (a : Agent) : (dropResv s a).nextGrid = s.nextGrid := by
  simp [dropResv]
@[simp] theorem addResv_nextGrid (s : State) (a : Agent) (pa : ℕ) : (addResv s a pa).nextGrid = s.nextGrid := by
  simp [addResv]
@[simp] theorem dropClaim_nextGrid (s : State) (flight : ℕ) (a : Agent) : (dropClaim s flight a).nextGrid = s.nextGrid := by
  simp [dropClaim]
@[simp] theorem peerMerge_nextGrid (s : State) (l : L1Line) (mask : BitVec 128) : (peerMerge s l mask).nextGrid = s.nextGrid := by
  simp [peerMerge]
@[simp] theorem backMerge_nextGrid (s : State) (l : L1Line) (mask : BitVec 128) : (backMerge s l mask).nextGrid = s.nextGrid := by
  simp only [backMerge]
  (repeat' split) <;> simp [*]
@[simp] theorem l1DropGranule_nextGrid (s : State) (core : ℕ) (a : ℕ) (n : ℕ) : (l1DropGranule s core a n).nextGrid = s.nextGrid := by
  unfold l1DropGranule
  split <;> simp
@[simp] theorem l1Del_nextGrid (s : State) (core : ℕ) (line : ℕ) : (l1Del s core line).nextGrid = s.nextGrid := by
  simp [l1Del]
@[simp] theorem l1WriteBack_nextGrid (s : State) (l : L1Line) : (l1WriteBack s l).nextGrid = s.nextGrid := by
  simp [l1WriteBack]
@[simp] theorem l1Room_nextGrid (s : State) (core : ℕ) (line : ℕ) : (l1Room s core line).nextGrid = s.nextGrid := by
  simp only [l1Room]
  (repeat' split) <;> simp [*]
@[simp] theorem l1Take_nextGrid (s : State) (core : ℕ) (line : ℕ) (imm : Bool) : (l1Take s core line imm).2.nextGrid = s.nextGrid := by
  unfold l1Take
  split <;> simp
@[simp] theorem l1Put_nextGrid (s : State) (l : L1Line) : (l1Put s l).nextGrid = s.nextGrid := by
  simp [l1Put]
@[simp] theorem l1Write_nextGrid (s : State) (core : ℕ) (a : ℕ) (bs : List Byte) (key : BitVec 16) (imm : Bool) : (l1Write s core a bs key imm).nextGrid = s.nextGrid := by
  simp [l1Write]
@[simp] theorem l1Sign_nextGrid (s : State) (core : ℕ) (a : ℕ) (n : ℕ) (who : Issuer) (pc : VAddr) (addr : BitVec 64) : (l1Sign s core a n who pc addr).nextGrid = s.nextGrid := by
  simp [l1Sign]
@[simp] theorem cachedWrite_nextGrid (s : State) (iss : Issuer) (lane : ℕ) (core : ℕ) (a : ℕ) (bs : List Byte) (key : BitVec 16) (imm : Bool) (at_ : VAddr × BitVec 64) : (cachedWrite s iss lane core a bs key imm at_).nextGrid = s.nextGrid := by
  unfold cachedWrite
  split <;> simp
@[simp] theorem plainStore_nextGrid (s : State) (iss : Issuer) (key : BitVec 16) (lane : ℕ) (loc : Loc) (t : Trans) (bs : List Byte) (home : Bool) (at_ : optParam (VAddr × BitVec 64) (0, 0)) : (plainStore s iss key lane loc t bs home at_).nextGrid = s.nextGrid := by
  unfold plainStore
  (repeat' split) <;> simp [*]
@[simp] theorem storePoint_nextGrid (s : State) (p : Point) (o : LaneOp) (n : ℕ) : (storePoint s p o n).2.nextGrid = s.nextGrid := by
  simp [storePoint]
@[simp] theorem forageAt_nextGrid (s : State) (p : Point) (o : LaneOp) (out : ℕ → ℕ → List RegWrite) : (forageAt s p o out).2.nextGrid = s.nextGrid := by
  simp only [forageAt]
  (repeat' split) <;> simp [*]
@[simp] theorem advance_nextGrid (s : State) (a : ℕ) (by_ : ℤ) : (advance s a by_).2.nextGrid = s.nextGrid := by
  simp only [advance]
  (repeat' split) <;> simp [*]
@[simp] theorem pointOp_nextGrid (s : State) (p : Point) (o : LaneOp) : (pointOp s p o).2.nextGrid = s.nextGrid := by
  simp only [pointOp]
  (repeat' split) <;> simp [*]
@[simp] theorem l1FreshGranule_nextGrid (s : State) (core : ℕ) (a : ℕ) (n : ℕ) : (l1FreshGranule s core a n).nextGrid = s.nextGrid := by
  simp [l1FreshGranule]
@[simp] theorem pointFresh_nextGrid (s : State) (iss : Issuer) (loc : Loc) (n : ℕ) : (pointFresh s iss loc n).nextGrid = s.nextGrid := by
  unfold pointFresh
  split <;> simp
@[simp] theorem nameAwaits_nextGrid (s : State) (from_ : ℕ) (pc : VAddr) (a : BitVec 64) : (nameAwaits s from_ pc a).nextGrid = s.nextGrid := by
  simp [nameAwaits]
@[simp] theorem l1Inv_nextGrid (s : State) (core : ℕ) : (l1Inv s core).nextGrid = s.nextGrid := by
  simp [l1Inv]
@[simp] theorem acquire_nextGrid (s : State) (iss : Issuer) (obs : BitVec 7) : (acquire s iss obs).nextGrid = s.nextGrid := by
  unfold acquire
  (repeat' split) <;> simp [*]
@[simp] theorem runOps_nextGrid (s : State) (f : Flight) : (runOps s f).nextGrid = s.nextGrid := by
  unfold runOps
  split
  case h_2 => rfl
  case h_1 i ops key heq =>
    have hsoft : (match pointSoft i with
      | some x => softTake s x x
      | none => (none, s)).2.nextGrid = s.nextGrid := by split <;> simp
    have hdone : ∀ (acq : Bool) (u : State), u.nextGrid = s.nextGrid → (if acq then acquire u f.who (pointOrder i).2 else u).nextGrid = s.nextGrid :=
      fun acq u hu => by cases acq <;> simp [hu]
    refine hdone _ _ ?_
    split
    · exact hsoft
    · exact (foldl_snd_nextGrid _ _ _ fun acc o => by simp).trans hsoft
@[simp] theorem runPoint_nextGrid (s : State) (f : Flight) : (runPoint s f).nextGrid = s.nextGrid := by
  refine foldl_nextGrid _ _ _ fun t g => ?_
  split <;> simp
@[simp] theorem drainStream_nextGrid (s : State) (iss : Issuer) : (drainStream s iss).nextGrid = s.nextGrid := by
  simp [drainStream]
@[simp] theorem l1Flush_nextGrid (s : State) (core : ℕ) : (l1Flush s core).nextGrid = s.nextGrid := by
  simp [l1Flush]
@[simp] theorem release_nextGrid (s : State) (iss : Issuer) (obs : BitVec 7) : (release s iss obs).nextGrid = s.nextGrid := by
  unfold release
  (repeat' split) <;> simp [*]
end Sys2Proof.Machine
end

section
/-! What traffic with memory, the host and the peers leaves as it was: all but memory, the caches, the ports and what is awaited. -/

namespace Sys2Proof.Machine

/-- `t` follows from `s` by reads and writes of memory, of the host's memory, and messages. -/
structure Traffic (s t : State) : Prop where
  rest : ∃ m sy c h r hm po ob fr ni aw l, t = { s with mem := m, memSynd := sy, comb := c, hostLines := h, resv := r, hostMem := hm, ports := po, outbox := ob, fresh := fr, nextId := ni, awaits := aw, l1 := l }

namespace Traffic
variable {s t u : State}

theorem refl (s : State) : Traffic s s := ⟨⟨_, _, _, _, _, _, _, _, _, _, _, _, rfl⟩⟩
theorem trans (h : Traffic s t) (h' : Traffic t u) : Traffic s u := by
  obtain ⟨_, _, _, _, _, _, _, _, _, _, _, _, rfl⟩ := h.rest
  obtain ⟨_, _, _, _, _, _, _, _, _, _, _, _, rfl⟩ := h'.rest
  exact ⟨⟨_, _, _, _, _, _, _, _, _, _, _, _, rfl⟩⟩
theorem foldl {α : Type} {f : State → α → State} (l : List α) (hf : ∀ t a, Traffic t (f t a)) (s : State) : Traffic s (l.foldl f s) := by
  induction l generalizing s with
  | nil => exact refl s
  | cons a l ih => exact (hf s a).trans (ih _)
theorem ite {c : Prop} [Decidable c] (ht : Traffic s t) (hu : Traffic s u) : Traffic s (if c then t else u) := by split <;> assumption
theorem withL1 (h : Traffic s t) (l : List L1Line) : Traffic s { t with l1 := l } := by
  obtain ⟨_, _, _, _, _, _, _, _, _, _, _, _, rfl⟩ := h.rest
  exact ⟨⟨_, _, _, _, _, _, _, _, _, _, _, _, rfl⟩⟩
theorem withSynd (h : Traffic s t) (m : SMap 16) : Traffic s { t with memSynd := m } := by
  obtain ⟨_, _, _, _, _, _, _, _, _, _, _, _, rfl⟩ := h.rest
  exact ⟨⟨_, _, _, _, _, _, _, _, _, _, _, _, rfl⟩⟩

/-! What it leaves as it was, field by field. -/
theorem wgs (h : Traffic s t) : t.wgs = s.wgs := by obtain ⟨_, _, _, _, _, _, _, _, _, _, _, _, rfl⟩ := h.rest; rfl
theorem grids (h : Traffic s t) : t.grids = s.grids := by obtain ⟨_, _, _, _, _, _, _, _, _, _, _, _, rfl⟩ := h.rest; rfl
theorem cmds (h : Traffic s t) : t.cmds = s.cmds := by obtain ⟨_, _, _, _, _, _, _, _, _, _, _, _, rfl⟩ := h.rest; rfl
theorem flights (h : Traffic s t) : t.flights = s.flights := by obtain ⟨_, _, _, _, _, _, _, _, _, _, _, _, rfl⟩ := h.rest; rfl
theorem busy (h : Traffic s t) : t.busy = s.busy := by obtain ⟨_, _, _, _, _, _, _, _, _, _, _, _, rfl⟩ := h.rest; rfl
theorem mregs (h : Traffic s t) : t.mregs = s.mregs := by obtain ⟨_, _, _, _, _, _, _, _, _, _, _, _, rfl⟩ := h.rest; rfl
theorem mgmt (h : Traffic s t) : t.mgmt = s.mgmt := by obtain ⟨_, _, _, _, _, _, _, _, _, _, _, _, rfl⟩ := h.rest; rfl
theorem locks (h : Traffic s t) : t.locks = s.locks := by obtain ⟨_, _, _, _, _, _, _, _, _, _, _, _, rfl⟩ := h.rest; rfl
theorem mreg (h : Traffic s t) (off : Nat) : Machine.mreg t off = Machine.mreg s off := by unfold Machine.mreg; rw [h.mregs]
theorem findWg (h : Traffic s t) (wg : Nat) : Machine.findWg t wg = Machine.findWg s wg := by unfold Machine.findWg; rw [h.wgs]
theorem findCmd (h : Traffic s t) (n : Nat) : Machine.findCmd t n = Machine.findCmd s n := by unfold Machine.findCmd; rw [h.cmds]
theorem findGrid (h : Traffic s t) (n : Nat) : Machine.findGrid t n = Machine.findGrid s n := by unfold Machine.findGrid; rw [h.grids]
end Traffic

/-! ### Memory -/

theorem homeMerge_rest (s : State) (line : Nat) (mask : BitVec 128) (d : BitVec 1024) (key : BitVec 16) (who : Option Agent) :
    ∃ m sy c h r, homeMerge s line mask d key who = { s with mem := m, memSynd := sy, comb := c, hostLines := h, resv := r } := by
  obtain ⟨sy, c, h, r, hw⟩ := homeMerge_eq s line mask d key who
  exact ⟨_, sy, c, h, r, hw⟩
theorem traffic_homeMerge (s : State) (line : Nat) (mask : BitVec 128) (d : BitVec 1024) (key : BitVec 16) (who : Option Agent) : Traffic s (homeMerge s line mask d key who) := by
  obtain ⟨_, _, _, _, _, hw⟩ := homeMerge_rest s line mask d key who
  exact ⟨⟨_, _, _, _, _, _, _, _, _, _, _, _, hw⟩⟩
theorem homeMerge_l1 (s : State) (line : Nat) (mask : BitVec 128) (d : BitVec 1024) (key : BitVec 16) (who : Option Agent) : (homeMerge s line mask d key who).l1 = s.l1 := by
  obtain ⟨_, _, _, _, _, hw⟩ := homeMerge_rest s line mask d key who
  rw [hw]
theorem traffic_homeWrite (s : State) (pa : Nat) (bs : List Byte) (key : BitVec 16) (who : Option Agent) : Traffic s (homeWrite s pa bs key who) := by
  obtain ⟨_, _, _, _, _, hw⟩ := homeWrite_rest s pa bs key who
  exact ⟨⟨_, _, _, _, _, _, _, _, _, _, _, _, hw⟩⟩
theorem traffic_noteWg (s : State) (wg : Nat) : Traffic s (noteWg s wg) := by
  obtain ⟨_, _, _, _, _, hw⟩ := noteWg_rest s wg
  exact ⟨⟨_, _, _, _, _, _, _, _, _, _, _, _, hw⟩⟩
theorem noteWg_l1 (s : State) (wg : Nat) : (noteWg s wg).l1 = s.l1 := by
  obtain ⟨_, _, _, _, _, hw⟩ := noteWg_rest s wg
  rw [hw]

/-! ### Messages -/

/-- `t` follows from `s` by messages alone. -/
structure Sent (s t : State) : Prop where
  rest : ∃ po ob fr, t = { s with ports := po, outbox := ob, fresh := fr }
theorem Sent.refl (s : State) : Sent s s := ⟨⟨_, _, _, rfl⟩⟩
theorem Sent.trans {s t u : State} (h : Sent s t) (h' : Sent t u) : Sent s u := by
  obtain ⟨_, _, _, rfl⟩ := h.rest
  obtain ⟨_, _, _, rfl⟩ := h'.rest
  exact ⟨⟨_, _, _, rfl⟩⟩
theorem Sent.foldl {α : Type} {f : State → α → State} (l : List α) (hf : ∀ t a, Sent t (f t a)) (s : State) : Sent s (l.foldl f s) := by
  induction l generalizing s with
  | nil => exact .refl s
  | cons a l ih => exact (hf s a).trans (ih _)
theorem Sent.traffic {s t : State} (h : Sent s t) : Traffic s t := by
  obtain ⟨_, _, _, rfl⟩ := h.rest
  exact ⟨⟨_, _, _, _, _, _, _, _, _, _, _, _, rfl⟩⟩
theorem sent_offerPort (s : State) (p : Nat) (m : Msg) : Sent s (offerPort s p m) := by
  unfold offerPort
  split
  · exact .refl s
  · dsimp only
    split <;> exact ⟨⟨_, _, _, rfl⟩⟩
theorem sent_routeMsg (s : State) (m : Msg) : Sent s (routeMsg s m) := by
  unfold routeMsg
  split
  · exact sent_offerPort ..
  · exact ⟨⟨_, _, _, rfl⟩⟩
theorem sent_postMsg (s : State) (m : Msg) : Sent s (postMsg s m) := .foldl _ sent_routeMsg s
theorem sent_sendMsg (s : State) (dst : Nat) (kind : BitVec 6) (page : Nat) (seq : BitVec 16) (aux : Nat) (data : List Byte) : Sent s (sendMsg s dst kind page seq aux data) := sent_postMsg ..
theorem Sent.l1 {s t : State} (h : Sent s t) : t.l1 = s.l1 := by
  obtain ⟨_, _, _, rfl⟩ := h.rest
  rfl

/-! ### Lines of an L1 -/

theorem traffic_peerWrite (s : State) (a : Asker) (pa : Nat) (bs : List Byte) (caps : List (BitVec 16)) : Traffic s (peerWrite s a pa bs caps) := by
  unfold peerWrite askPeer
  exact Traffic.trans ⟨⟨_, _, _, _, _, _, _, _, _, _, _, _, rfl⟩⟩ (sent_postMsg ..).traffic
theorem peerWrite_l1 (s : State) (a : Asker) (pa : Nat) (bs : List Byte) (caps : List (BitVec 16)) : (peerWrite s a pa bs caps).l1 = s.l1 := (sent_postMsg ..).l1.trans rfl
theorem traffic_peerMerge (s : State) (l : L1Line) (mask : BitVec 128) : Traffic s (peerMerge s l mask) :=
  (Traffic.foldl _ (fun t _ => .foldl _ (fun _ _ => traffic_peerWrite ..) t) s).trans (.foldl _ (fun _ _ => traffic_peerWrite ..) _)
theorem foldl_l1 {α : Type} {f : State → α → State} (l : List α) (s : State) (h : ∀ t x, (f t x).l1 = t.l1) : (l.foldl f s).l1 = s.l1 := by
  induction l generalizing s with
  | nil => rfl
  | cons x l ih => exact (ih (f s x)).trans (h s x)
theorem peerMerge_l1 (s : State) (l : L1Line) (mask : BitVec 128) : (peerMerge s l mask).l1 = s.l1 :=
  (foldl_l1 _ _ fun _ _ => peerWrite_l1 ..).trans (foldl_l1 _ _ fun _ _ => foldl_l1 _ _ fun _ _ => peerWrite_l1 ..)
theorem traffic_backMerge (s : State) (l : L1Line) (mask : BitVec 128) : Traffic s (backMerge s l mask) := by
  unfold backMerge
  dsimp only
  split
  · exact traffic_peerMerge ..
  · split
    · exact ⟨⟨_, _, _, _, _, _, _, _, _, _, _, _, rfl⟩⟩
    · exact traffic_homeMerge ..
theorem backMerge_l1 (s : State) (l : L1Line) (mask : BitVec 128) : (backMerge s l mask).l1 = s.l1 := by
  unfold backMerge
  dsimp only
  split
  · exact peerMerge_l1 ..
  · split
    · rfl
    · exact homeMerge_l1 ..
theorem traffic_l1WriteBack (s : State) (l : L1Line) : Traffic s (l1WriteBack s l) := (traffic_backMerge s l l.dirty).withL1 _
theorem traffic_l1Flush (s : State) (core : Nat) : Traffic s (l1Flush s core) := .foldl _ traffic_l1WriteBack s
theorem traffic_release (s : State) (iss : Issuer) (obs : BitVec 7) : Traffic s (release s iss obs) := by
  unfold release
  split
  · exact (traffic_l1Flush ..).ite (.refl s)
  · exact .refl s
theorem l1WriteBack_l1 (s : State) (l : L1Line) : (l1WriteBack s l).l1 = s.l1.map fun x => if x.core = l.core ∧ x.line = l.line then { x with dirty := 0, writers := [] } else x := by
  unfold l1WriteBack
  dsimp only
  rw [backMerge_l1]
/-- A line that is still dirty after write-backs is none of those written back. -/
theorem foldl_writeBack_dirty (ls : List L1Line) (s : State) {x : L1Line} (hx : x ∈ (ls.foldl l1WriteBack s).l1) (hd : x.dirty ≠ 0) : x ∈ s.l1 ∧ ∀ l ∈ ls, ¬(x.core = l.core ∧ x.line = l.line) := by
  induction ls generalizing s with
  | nil => exact ⟨hx, fun _ h => absurd h List.not_mem_nil⟩
  | cons l ls ih =>
    obtain ⟨hmem, hrest⟩ := ih (l1WriteBack s l) hx
    rw [l1WriteBack_l1] at hmem
    obtain ⟨y, hy, hyx⟩ := List.mem_map.mp hmem
    by_cases hl : y.core = l.core ∧ y.line = l.line
    · rw [if_pos hl] at hyx
      exact absurd (congrArg L1Line.dirty hyx).symm hd
    · rw [if_neg hl] at hyx
      subst hyx
      exact ⟨hy, fun z hz => by
        obtain rfl | hz := List.mem_cons.mp hz
        · exact hl
        · exact hrest z hz⟩
/-- A flush leaves no dirty byte in the L1 of its core (08 R181, 09 R214). -/
theorem l1Flush_clean (s : State) (core : Nat) {l : L1Line} (hl : l ∈ (l1Flush s core).l1) (hc : l.core = core) : l.dirty = 0 := by
  by_contra hd
  obtain ⟨hmem, hnone⟩ := foldl_writeBack_dirty _ s hl hd
  exact hnone l (List.mem_filter.mpr ⟨hmem, by simpa [hc] using hd⟩) ⟨rfl, rfl⟩
end Sys2Proof.Machine
end

section
/-! The life of a grid and of a cue thread (10 R253 to R255, R272, R277; 11 R312; 13 R357). Obligation O46. -/

namespace Sys2Proof.Machine

/-! ### `launch` -/

theorem launch_parks {s : State} {c : CCtx} {f : QE} {wg : Nat} (hp : c.pass = true) (hiss : c.iss = .cue wg) (hc : cueCtx s (.launch f) = some c) (hr : CueReady (opLaunch f) s c = true) :
    AnswersCue (.launch f) s c { tokUp (tokNum f) (stayedCue (.launch f) c.c) with park := some (.launchHold (cget c.c f.a.toNat) f.d.toNat (tokNum f)) } id := by
  have htok : ∀ (u : State) (tok : Option Nat) (h : Cue → Cue), updCue (addTok u c.iss tok true) c.iss h = updCue u c.iss fun x => h (tokUp tok x) := fun u tok h => by
    cases tok with
    | none => rfl
    | some n => exact updCue_updCue ..
  refine ready_cue_stay (g := fun x => { tokUp (tokNum f) x with park := some (.launchHold (cget c.c f.a.toNat) f.d.toNat (tokNum f)) }) rfl hc hr hp rfl ?_
  simp only [opLaunch, htok, id_eq]
  rw [hiss]
theorem nest_append {s : State} {wg d : Nat} {a : DWord} {tok : Option Nat} {x : Cue} (hx : findCue s (.cue wg) = some x) (hp : x.park = some (.launchHold a d tok)) :
    exec (.nestQueueAppend wg) s = .next (nestAppend s (.cue wg) a.toNat d tok) := by
  change execNestQueueAppend wg s = _
  simp only [execNestQueueAppend, hx, hp]
/-- What the copies of an accepted launch leave of the run: the arguments, padded, and the record behind them. -/
theorem acceptGrid_bytes (s : State) (run : Nat) (c : Copies) (o : Origin) : homeBytes (acceptGrid s run c o) (run + 0x1000) c.rec_.length = c.rec_
    ∧ (c.args.length ≤ 4096 → homeBytes (acceptGrid s run c o) run 4096 = c.args ++ List.replicate (4096 - c.args.length) 0) := by
  have hput : ∀ y, homeByte (acceptGrid s run c o) y = homeByte (homeWrite (homeWrite s run (c.args ++ List.replicate (4096 - c.args.length) 0) 0 none) (run + 0x1000) c.rec_ 0 none) y := fun _ => rfl
  refine ⟨homeBytes_of_bytes fun j hj => ?_, fun hargs => ?_⟩
  · rw [hput, homeByte_homeWrite, if_pos (by omega), Nat.add_sub_cancel_left]
  · have hlen : (c.args ++ List.replicate (4096 - c.args.length) (0 : Byte)).length = 4096 := by rw [List.length_append, List.length_replicate]; omega
    have hall : homeBytes (acceptGrid s run c o) run (c.args ++ List.replicate (4096 - c.args.length) 0).length = c.args ++ List.replicate (4096 - c.args.length) 0 := ?_
    case refine_2 => rwa [hlen] at hall
    refine homeBytes_of_bytes fun j hj => ?_
    rw [hput, homeByte_homeWrite, if_neg (by omega), homeByte_homeWrite, if_pos (by omega), Nat.add_sub_cancel_left]
theorem drainStream_grids (s : State) (iss : Issuer) : (drainStream s iss).grids = s.grids := foldl_grids _ _ _ fun _ _ => runPoint_grids ..
theorem launchView_grids (s : State) (iss : Issuer) : (launchView s iss).grids = s.grids ∧ (launchView s iss).nextGrid = s.nextGrid :=
  ⟨(release_grids ..).trans (drainStream_grids ..), (release_nextGrid ..).trans (drainStream_nextGrid ..)⟩
theorem findCue_of_warps {s t : State} (h : t.wgs.map wgWarps = s.wgs.map wgWarps) (wg : Nat) : findCue t (.cue wg) = findCue s (.cue wg) := by
  simpa [findCue, Option.map_map, Function.comp_def, wgWarps] using congrArg (Option.map fun x => x.1.2.2.2) (findWg_wgWarps h wg)
theorem launchView_cue (s : State) (iss : Issuer) (wg : Nat) : findCue (launchView s iss) (.cue wg) = findCue s (.cue wg) :=
  findCue_of_warps ((release_warps ..).trans (drainStream_warps ..)) wg
theorem acceptGrid_cue (s : State) (run : Nat) (c : Copies) (o : Origin) (iss : Issuer) : findCue (acceptGrid s run c o) iss = findCue s iss := by
  obtain ⟨_, _, _, _, _, hw⟩ := homeWrite_rest s run (c.args ++ List.replicate (4096 - c.args.length) 0) 0 none
  obtain ⟨_, _, _, _, _, hw'⟩ := homeWrite_rest (homeWrite s run (c.args ++ List.replicate (4096 - c.args.length) 0) 0 none) (run + 0x1000) c.rec_ 0 none
  unfold acceptGrid
  dsimp only
  rw [hw', hw]
  cases iss <;> rfl
theorem homeBytes_updCue (s : State) (wg : Nat) (f : Cue → Cue) (pa n : Nat) : homeBytes (updCue s (.cue wg) f) pa n = homeBytes s pa n := homeBytes_congr (homeByte_of_mem (s := s) (t := updCue s (.cue wg) f) rfl rfl rfl) pa n
theorem launch_accepted {s : State} {wg run d : Nat} {a : DWord} {tok : Option Nat} {x : Cue} (hx : findCue s (.cue wg) = some x) (hp : x.park = some (.launchHold a d tok)) (hrun : childRun s (.cue wg) = some run) {cp : Copies} (hcp : launchOf s (.cue wg) a.toNat = .ok cp) :
    ∃ t g, exec (.nestQueueAppend wg) s = .next t ∧ t.grids = s.grids ++ [g] ∧ g.patterns = cp.pats ∧ homeBytes t (run + 0x1000) cp.rec_.length = cp.rec_ ∧ (cp.args.length ≤ 4096 → homeBytes t run 4096 = cp.args ++ List.replicate (4096 - cp.args.length) 0) ∧ g.num = s.nextGrid ∧ g.lrec = parseRec cp.rec_ ∧ g.run = run ∧ g.nextWg = 0 ∧ g.endedWgs = 0 ∧ g.retired = false
      ∧ g.notify = tok.map (fun n => (.cue wg, n)) ∧ t.nextGrid = s.nextGrid + 1 ∧ (undrained s (.cue wg) = true → findCue t (.cue wg) = some (unparkCue (cset x d (BitVec.ofNat 64 s.nextGrid)))) := by
  have hnotify : (childOrigin s (.cue wg) tok (parseRec cp.rec_).prio).notify = tok.map fun n => (.cue wg, n) := by
    unfold childOrigin
    split <;> rfl
  have hexec : exec (.nestQueueAppend wg) s = .next (updCue (acceptGrid (launchView s (.cue wg)) run cp (childOrigin s (.cue wg) tok (parseRec cp.rec_).prio)) (.cue wg) fun x => unparkCue (cset x d (BitVec.ofNat 64 s.nextGrid))) := by
    rw [nest_append hx hp, nestAppend, hrun]
    simp only [hcp]
  generalize childOrigin s (.cue wg) tok (parseRec cp.rec_).prio = o at hnotify hexec
  obtain ⟨hgrids, hnext⟩ := launchView_grids s (.cue wg)
  have hcue : findCue (acceptGrid (launchView s (.cue wg)) run cp o) (.cue wg) = some x := by rw [acceptGrid_cue, launchView_cue, hx]
  generalize launchView s (.cue wg) = v at hexec hgrids hnext hcue
  obtain ⟨g, hg, hnum, hrec, -, -, -, -, hpat, hgrun, hnextWg, hended, hret, hnot, hgn⟩ := acceptGrid_grid v run cp o
  obtain ⟨hrecb, hargs⟩ := acceptGrid_bytes v run cp o
  generalize acceptGrid v run cp o = u at hexec hcue hg hgn hrecb hargs
  exact ⟨_, g, hexec, hgrids ▸ hg, hpat, (homeBytes_updCue ..).trans hrecb, fun h => (homeBytes_updCue ..).trans (hargs h), hnum.trans hnext, hrec, hgrun, hnextWg, hended, hret, hnot.trans hnotify, hgn.trans (by rw [hnext]), fun _ => findCue_updCue hcue _⟩
theorem launch_rejected {s : State} {wg run d : Nat} {a : DWord} {tok : Option Nat} {x : Cue} (hx : findCue s (.cue wg) = some x) (hp : x.park = some (.launchHold a d tok)) (hrun : childRun s (.cue wg) = some run) {e : Reject} (he : launchOf s (.cue wg) a.toNat = .error e) :
    exec (.nestQueueAppend wg) s = .next (takeCue (addTok (updCue (launchNote s (.cue wg) a.toNat) (.cue wg) fun x => { x with park := none }) (.cue wg) tok false) (.cue wg) { cause := e.cause, kind := 0, fpc := x.pc.toNat, rpc := x.pc.toNat }) := by
  rw [nest_append hx hp, nestAppend, hrun]
  simp only [he, hx]

/-! ### The end of a cue thread -/

theorem cue_ends {s : State} {wg : Nat} {x : Cue} (hx : findCue s (.cue wg) = some x) (hp : x.park = some .cend) (hw : x.windows.all (·.done) = true) (hu : untrackedCmds s (.cue wg) s.nextId = false) :
    exec (.cueThreadEnd wg) s = .next (match dueIn true 64 x.deferred with
      | some d => takeCue (updCue s (.cue wg) fun y => { y with park := none, deferred := y.deferred.filter fun y => !isDue true 64 y }) (.cue wg) (dueRec d x.pc)
      | none => x.deferred.foldl (fun t d => postRec t (postedRec x d) ((issuerWg s (.cue wg)).map (·.id))) (updCue (drainStream s (.cue wg)) (.cue wg) fun x => { x with ended := true, park := none, clause := none, deferred := [] })) := by
  have hdue : cendDue s (.cue wg) x = true := by simp [cendDue, hp, hw, hu, inTrap]
  change execCueThreadEnd wg s = _
  simp only [execCueThreadEnd, cueEnd, hx, hdue, Bool.not_true, Bool.false_eq_true, if_false] <;> rfl
theorem issuerWg_cue_id {s : State} {wg : Nat} {x : Cue} (hx : findCue s (.cue wg) = some x) : (issuerWg s (.cue wg)).map (·.id) = some wg := by
  obtain ⟨k, hk, -⟩ := Option.map_eq_some_iff.mp hx
  simp only [issuerWg, hk, Option.map_some, findWg_id hk]

/-! ### The end of a workgroup -/

/-- A commit makes lines current at home, after its core's flush: no line of the core's L1 is dirty. -/
theorem traffic_commitLines (s : State) (core : Nat) (vs : List VLine) : Traffic s (commitLines s core vs) := by
  have hfold : Traffic (l1Flush s core) (vs.foldl commitLine (l1Flush s core)) := .foldl vs (fun t v => (traffic_homeMerge ..).withSynd _) _
  exact ((traffic_l1Flush s core).trans hfold).withL1 _
theorem commitLines_clean (s : State) (core : Nat) (vs : List VLine) {l : L1Line} (hl : l ∈ (commitLines s core vs).l1) (hc : l.core = core) : l.dirty = 0 := by
  have hfold : (vs.foldl commitLine (l1Flush s core)).l1 = (l1Flush s core).l1 := foldl_l1 vs _ fun t v => homeMerge_l1 t v.line v.mask v.data v.key none
  unfold commitLines at hl
  dsimp only at hl
  rw [hfold] at hl
  obtain ⟨y, hy, rfl⟩ := List.mem_map.mp (List.mem_filter.mp hl).1
  refine (?_ : _ = y.dirty).trans (l1Flush_clean s core hy (Eq.trans ?_ hc))
  · split <;> rfl
  · split <;> rfl
/-- The device once the L1 is flushed and a task's version is settled. -/
def settledWg (s : State) (k : Workgroup) : State := if k.taskOn then versionCommit (l1Flush s k.core) k.id else l1Flush s k.core
theorem settledWg_rest {s : State} {k : Workgroup} (hk : findWg s k.id = some k) : (settledWg s k).grids = s.grids ∧ (settledWg s k).cmds = s.cmds ∧ (∃ k', findWg (settledWg s k) k.id = some k') ∧ ∀ l ∈ (settledWg s k).l1, l.core = k.core → l.dirty = 0 := by
  have hflush := traffic_l1Flush s k.core
  have hk' : findWg (l1Flush s k.core) k.id = some k := (hflush.findWg _).trans hk
  unfold settledWg
  split
  · have hcommit := hflush.trans (traffic_commitLines (l1Flush s k.core) k.core k.vlines)
    simp only [versionCommit, hk']
    refine ⟨hcommit.grids, hcommit.cmds, ?_, fun l hl hc => commitLines_clean _ _ _ hl hc⟩
    exact ⟨_, by rw [findWg_updWg _ k.id (fun k => { k with vlines := [], vbytes := 0, taskOn := false, vdone := true }) fun _ => rfl, hcommit.findWg, hk, Option.map_some]⟩
  · exact ⟨hflush.grids, hflush.cmds, ⟨k, hk'⟩, fun l hl hc => l1Flush_clean s k.core hl hc⟩
theorem workgroupEnd_finished {s : State} {wg : Nat} {k : Workgroup} (hk : findWg s wg = some k) (hf : wgFinished k = true) :
    exec (.workgroupEnd wg) s = .next (if unperformed s k.core then l1Flush s k.core else countEnded (settledWg s k) k) := by
  obtain rfl := findWg_id hk
  change execWorkgroupEnd k.id s = _
  simp only [execWorkgroupEnd, hk, hf, if_true, settledWg]
  split <;> rfl
/-- The device as a workgroup has been counted in its grid. -/
def countedWg (s : State) (k : Workgroup) : State :=
  noteWg (updWg (updGrid s k.grid fun g => { g with endedWgs := g.endedWgs + 1 }) k.id fun k => { k with st := .ended, take := none, takeLate := false }) k.id
theorem countEnded_eq (s : State) (k : Workgroup) : countEnded s k = if wgHolds (countedWg s k) k then countedWg s k else removeWg (countedWg s k) k.id := rfl
theorem countedWg_rest (s : State) (k : Workgroup) : (countedWg s k).grids = s.grids.map (fun g => if g.num = k.grid then { g with endedWgs := g.endedWgs + 1 } else g) ∧ (countedWg s k).cmds = s.cmds ∧ (countedWg s k).l1 = s.l1
    ∧ (countedWg s k).wgs = s.wgs.map fun x => if x.id = k.id then { x with st := .ended, take := none, takeLate := false } else x :=
  have h := traffic_noteWg (updWg (updGrid s k.grid fun g => { g with endedWgs := g.endedWgs + 1 }) k.id fun k => { k with st := .ended, take := none, takeLate := false }) k.id
  ⟨h.grids, h.cmds, noteWg_l1 .., h.wgs⟩
/-- No row is on its way to a workgroup whose records have all ended, unless it had arrived before. -/
theorem drainTarget_ended {s : State} {k t : Workgroup} {c : Cmd} {f : QE} (ht : drainTarget (countedWg s k) c f = some t) : t.id ≠ k.id := by
  unfold drainTarget at ht
  dsimp only at ht
  split at ht
  · cases ht
  · obtain ⟨-, -, -, hwgs⟩ := countedWg_rest s k
    have hmem := List.mem_of_find?_eq_some ht
    have hst := List.find?_some ht
    rw [hwgs] at hmem
    obtain ⟨x, -, rfl⟩ := List.mem_map.mp hmem
    by_cases hx : x.id = k.id
    · simp [hx] at hst
    · rwa [if_neg hx]
theorem wgHolds_counted {s v : State} {k : Workgroup} (hcmds : v.cmds = s.cmds) (h : wgHolds s k = false) : wgHolds (countedWg v k) k = false := by
  obtain ⟨-, hc, -, -⟩ := countedWg_rest v k
  simp only [wgHolds, Bool.or_eq_false_iff] at h ⊢
  refine ⟨⟨?_, h.1.2⟩, ?_⟩
  · rw [wgCmds, hc, hcmds]
    exact h.1.1
  · have hdrain := h.2
    simp only [drainsTo, hc, hcmds, List.any_eq_false] at hdrain ⊢
    intro c hcm
    have hno := hdrain c hcm
    split
    · next f hop =>
      simp only [hop] at hno
      by_cases haux : c.aux = []
      · simp only [haux, if_true, Bool.and_eq_true, not_and]
        intro _
        cases ht : drainTarget (countedWg v k) c f with
        | none => simp
        | some t => simpa using drainTarget_ended ht
      · simpa only [haux, if_false] using hno
    · simp
theorem find_filter_of_find {α : Type} {p q : α → Bool} {l : List α} {a : α} (h : l.find? p = some a) (hq : q a = true) : (l.filter q).find? p = some a := by
  rw [List.find?_filter]
  induction l with
  | nil => cases h
  | cons b l ih =>
    rw [List.find?_cons] at h ⊢
    cases hb : p b with
    | true =>
      obtain rfl : b = a := by simpa [hb] using h
      simp [hq]
    | false =>
      simp only [hb] at h
      simpa [hb] using ih h
theorem workgroup_ends {s : State} {wg : Nat} {k : Workgroup} (hk : findWg s wg = some k) (hf : wgFinished k = true) (hu : unperformed s k.core = false) :
    ∃ t, exec (.workgroupEnd wg) s = .next t ∧ (wgHolds s k = false → findWg t wg = none) ∧ (wgCmds s wg = true → ∃ k', findWg t wg = some k' ∧ k'.st = .ended) ∧ (∀ l ∈ t.l1, l.core = k.core → l.dirty = 0)
      ∧ ∀ g, findGrid s k.grid = some g → g.retired = false → findGrid t k.grid = some { g with endedWgs := g.endedWgs + 1 } := by
  have hexec := workgroupEnd_finished hk hf
  simp only [hu, Bool.false_eq_true, if_false, countEnded_eq] at hexec
  obtain rfl := findWg_id hk
  obtain ⟨hgrids, hcmds, ⟨k', hk'⟩, hclean⟩ := settledWg_rest hk
  have hnoHold : wgHolds s k = false → wgHolds (countedWg (settledWg s k) k) k = false := wgHolds_counted hcmds
  obtain ⟨hg, hc, hl, hw⟩ := countedWg_rest (settledWg s k) k
  refine ⟨_, hexec, fun h => ?_, fun h => ?_, fun l => ?_, fun g hfg hret => ?_⟩
  · rw [if_neg (by simp [hnoHold h])]
    simp [findWg, removeWg, dropRetired]
  · have hhold : wgHolds (countedWg (settledWg s k) k) k = true := by
      have hmine : wgCmds (countedWg (settledWg s k) k) k.id = true := by rw [wgCmds, hc, hcmds]; exact h
      simp [wgHolds, hmine]
    rw [if_pos hhold]
    refine ⟨{ k' with st := .ended, take := none, takeLate := false }, ?_, rfl⟩
    rw [findWg_of_wgs (s := updWg (settledWg s k) k.id fun k => { k with st := .ended, take := none, takeLate := false }) hw, findWg_updWg _ k.id (fun k => { k with st := .ended, take := none, takeLate := false }) fun _ => rfl, hk', Option.map_some]
  · have hl1 : (if wgHolds (countedWg (settledWg s k) k) k = true then countedWg (settledWg s k) k else removeWg (countedWg (settledWg s k) k) k.id).l1 = (settledWg s k).l1 := by
      split
      · exact hl
      · exact hl
    rw [hl1]
    exact hclean l
  · have hfind : (countedWg (settledWg s k) k).grids.find? (fun x => x.num == k.grid) = some { g with endedWgs := g.endedWgs + 1 } := by
      rw [hg, hgrids]
      exact findGrid_updGrid hfg (f := fun g => { g with endedWgs := g.endedWgs + 1 }) fun _ => rfl
    split
    · exact hfind
    · exact find_filter_of_find hfind (by simp [hret])
theorem workgroup_removed {s : State} {wg : Nat} {k : Workgroup} (hk : findWg s wg = some k) (hst : k.st = .ended) (hh : wgHolds s k = false) : exec (.workgroupEnd wg) s = .next (removeWg s wg) := by
  have hf : wgFinished k = false := by simp [wgFinished, hst]
  change execWorkgroupEnd wg s = _
  simp only [execWorkgroupEnd, hk, hf, hst, hh, Bool.false_eq_true, if_false, and_self, if_true]

/-! ### Retirement -/

theorem gridRetirement_eq {s : State} {n : Nat} {g : Grid} (hg : findGrid s n = some g) (hr : retirable s g = true) :
    exec (.gridRetirement n) s = (
      let t := dropRetired (updGrid s n fun x => { x with retired := true })
      let t := match g.notify with
        | some (iss, tok) => cwaitExamine (addTok t iss (some tok) false) iss
        | none => t
      if g.queue.isSome && g.lrec.signal then
        .next (if (signalWrite t g.asid g.root g.lrec.sigaddr g.lrec.sigval.toNat).1 then (signalWrite t g.asid g.root g.lrec.sigaddr g.lrec.sigval.toNat).2
          else postAsync (signalWrite t g.asid g.root g.lrec.sigaddr g.lrec.sigval.toNat).2 0x1D2 (BitVec.ofNat 64 g.lrec.sigaddr) none)
      else .next t) := by
  change execGridRetirement n s = _
  simp only [execGridRetirement, hg, hr, Bool.not_true, Bool.false_eq_true, if_false] <;> rfl

/-- Settles O46. -/
theorem gridLife : Obligations.GridLife := by
  refine ⟨fun s c f wg => launch_parks, fun s wg run d a tok x hx hp hrun => ⟨fun cp hcp => launch_accepted hx hp hrun hcp, fun e he => launch_rejected hx hp hrun he⟩, fun s wg x hx hp hw hu => ?_,
    fun s wg k hk => ⟨workgroup_ends hk, fun hf hu => ?_, workgroup_removed hk⟩, fun s n g hg hr => ?_⟩
  · have hexec := cue_ends hx hp hw hu
    rw [issuerWg_cue_id hx] at hexec
    exact ⟨fun hnone => by simpa only [hnone] using hexec, fun d hd => by simpa only [hd] using hexec⟩
  · rw [workgroupEnd_finished hk hf, hu]
    rfl
  · have hexec := gridRetirement_eq hg hr
    refine ⟨fun iss tok hn hq => ?_, fun hn hq hsig ok u hsw => ?_, fun hn hq => ?_⟩
    · simpa only [hn, hq, Option.isSome_none, Bool.false_and, Bool.false_eq_true, if_false] using hexec
    · simpa only [hn, hq, hsig, Bool.and_self, if_true, hsw] using hexec
    · have hno : (g.queue.isSome && g.lrec.signal) = false := by
        obtain h | h := hq
        · simp [h]
        · simp [h]
      simpa only [hn, hno, Bool.false_eq_true, if_false] using hexec
end Sys2Proof.Machine
end

section
/-! Accesses of the host (14 R406, R407; 15 R420, R421). Obligation O55. -/

namespace Sys2Proof.Machine

/-! ### Lines that the host takes -/

/-- The host holds a line in M or as it asked. -/
def HostHolds (v : BitVec 2) (line : Nat) (s : State) : Prop := ∃ h ∈ s.hostLines, h.line = line ∧ (h.st = 2 ∨ h.st = v)

section
variable {s : State} {v : BitVec 2} {line : Nat}

theorem hostTake_rest (s : State) (v : BitVec 2) (line : Nat) : ∃ h, hostTake s v line = { s with hostLines := h } := by
  unfold hostTake
  split
  · split <;> exact ⟨_, rfl⟩
  · exact ⟨_, rfl⟩
theorem foldl_hostTake_rest (ls : List Nat) (s : State) (v : BitVec 2) : ∃ h, ls.foldl (fun t l => hostTake t v l) s = { s with hostLines := h } := by
  induction ls generalizing s with
  | nil => exact ⟨_, rfl⟩
  | cons l ls ih =>
    obtain ⟨h, hh⟩ := hostTake_rest s v l
    obtain ⟨h', hh'⟩ := ih (hostTake s v l)
    exact ⟨h', by rw [List.foldl_cons, hh', hh]⟩
theorem hostTake_holds (s : State) (v : BitVec 2) (line : Nat) : HostHolds v line (hostTake s v line) := by
  unfold hostTake
  split
  next h hfind =>
    have hmem := List.mem_of_find?_eq_some hfind
    have hline : h.line = line := eq_of_beq (List.find?_some (p := fun h : HostLine => h.line == line) hfind)
    split
    next hst => exact ⟨h, hmem, hline, hst⟩
    next => exact ⟨_, List.mem_map_of_mem hmem, by simp [hline], by simp [hline]⟩
  next => exact ⟨_, List.mem_cons_self, rfl, Or.inr rfl⟩
theorem HostHolds.hostTake (h : HostHolds v line s) (l : Nat) : HostHolds v line (hostTake s v l) := by
  by_cases hl : l = line
  · exact hl ▸ hostTake_holds s v l
  · obtain ⟨x, hx, hline, hst⟩ := h
    unfold Machine.hostTake
    split
    · split
      · exact ⟨x, hx, hline, hst⟩
      · exact ⟨x, List.mem_map.mpr ⟨x, hx, if_neg fun h => hl (h.symm.trans hline)⟩, hline, hst⟩
    · exact ⟨x, List.mem_cons_of_mem _ hx, hline, hst⟩
theorem foldl_hostTake_keeps (ls : List Nat) (h : HostHolds v line s) : HostHolds v line (ls.foldl (fun t l => Machine.hostTake t v l) s) := by
  induction ls generalizing s with
  | nil => exact h
  | cons l ls ih => exact ih (h.hostTake l)
theorem foldl_hostTake_holds (ls : List Nat) (s : State) (hl : line ∈ ls) : HostHolds v line (ls.foldl (fun t l => Machine.hostTake t v l) s) := by
  induction ls generalizing s with
  | nil => exact absurd hl List.not_mem_nil
  | cons l ls ih =>
    obtain rfl | hl := List.mem_cons.mp hl
    · exact foldl_hostTake_keeps ls (hostTake_holds s v line)
    · exact ih _ hl

/-! ### Reads and writes -/

theorem leaveCaps_good {pa n : Nat} (h : ∀ g ∈ granules pa n, homeCap s g = .good) : leaveCaps s pa n = s := by
  unfold leaveCaps
  have hfold : ∀ ls : List Nat, (∀ g ∈ ls, homeCap s g = .good) → ∀ t, ls.foldl (fun t g => match integrityCause 13 (homeCap s g) with
      | some c => postAsync t c (BitVec.ofNat 64 (16 * g)) none
      | none => t) t = t := by
    intro ls
    induction ls with
    | nil => exact fun _ _ => rfl
    | cons g ls ih =>
      intro hls t
      rw [List.foldl_cons, hls g List.mem_cons_self]
      exact ih (fun g hg => hls g (List.mem_cons_of_mem _ hg)) t
  exact hfold _ h s
theorem homeCap_of_frame (c : List CombLine) (h : List HostLine) (g : Nat) : homeCap { s with comb := c, hostLines := h } g = homeCap s g := by
  unfold homeCap
  rw [homeBytes_congr (t := { s with comb := c, hostLines := h }) (s := s) (homeByte_of_mem (s := s) (t := { s with comb := c, hostLines := h }) rfl rfl rfl)]
theorem host_reads {pa n : Nat} {own : Bool} (hf : hostFind s pa n own = .ok) (hcap : ∀ g ∈ granules pa n, homeCap s g = .good) :
    ∃ t, exec (.hostRead pa n own) s = .next t ∧ { t with hostLines := s.hostLines, comb := s.comb } = s ∧ ∀ l ∈ linesOf pa n, ∃ h ∈ t.hostLines, h.line = l ∧ (h.st = 2 ∨ (own = false ∧ h.st = 1)) := by
  obtain ⟨c, hc⟩ := combRead_eq s pa n 0
  obtain ⟨hl, hhl⟩ := foldl_hostTake_rest (linesOf pa n) (combRead s pa n 0) (if own then 2 else 1)
  have hall := fun l (hl : l ∈ linesOf pa n) => foldl_hostTake_holds (v := if own then 2 else 1) (linesOf pa n) (combRead s pa n 0) hl
  have hexec : exec (.hostRead pa n own) s = .next (leaveCaps ((linesOf pa n).foldl (fun t l => hostTake t (if own then 2 else 1) l) (combRead s pa n 0)) pa n) := by
    change execHostRead pa n own s = _
    simp only [execHostRead, hf]
  generalize (linesOf pa n).foldl (fun t l => hostTake t (if own then 2 else 1) l) (combRead s pa n 0) = u at hhl hall hexec
  rw [hc] at hhl
  subst hhl
  rw [leaveCaps_good fun g hg => (homeCap_of_frame c hl g).trans (hcap g hg)] at hexec
  refine ⟨_, hexec, rfl, fun l hlm => ?_⟩
  obtain ⟨h, hh, hline, hst⟩ := hall l hlm
  refine ⟨h, hh, hline, ?_⟩
  cases own with
  | true => exact Or.inl (or_self_iff.mp hst)
  | false => exact hst.imp_right fun h => ⟨rfl, h⟩
theorem host_writes {module pa : Nat} {data : List Byte} (hw : writesWait s module = false) (hf : hostFind s pa data.length true = .ok) :
    ∃ t, exec (.hostWrite ⟨module, pa⟩ data) s = .next t ∧ { t with hostLines := [] } = { homeWrite s pa data 0 (some .host) with hostLines := [] }
      ∧ ∀ l ∈ linesOf pa data.length, ∃ h ∈ t.hostLines, h.line = l ∧ h.st = 2 := by
  have hexec : exec (.hostWrite ⟨module, pa⟩ data) s = .next ((linesOf pa data.length).foldl (fun t l => hostTake t 2 l) (homeWrite s pa data 0 (some .host))) := by
    change execHostWrite ⟨module, pa⟩ data s = _
    simp only [execHostWrite, hw, hf, Bool.false_eq_true, if_false]
  obtain ⟨hl, hhl⟩ := foldl_hostTake_rest (linesOf pa data.length) (homeWrite s pa data 0 (some .host)) 2
  refine ⟨_, hexec, by rw [hhl], fun l hlm => ?_⟩
  obtain ⟨h, hh, hline, hst⟩ := foldl_hostTake_holds (v := 2) (linesOf pa data.length) (homeWrite s pa data 0 (some .host)) hlm
  exact ⟨h, hh, hline, or_self_iff.mp hst⟩

/-! ### Recalls -/

theorem recall_clean {h : HostLine} (hf : (s.hostLines.find? fun h => h.line == line) = some h) (hst : h.st ≠ 0) :
    exec (.hostRecall line none) s = .next { s with hostLines := s.hostLines.map fun h => if h.line = line then { h with st := 0, seq := h.seq + 1, pend := 0 } else h } := by
  change execHostRecall line none s = _
  simp only [execHostRecall, hf, hst, if_false]
theorem recall_modified {h : HostLine} {bs : List Byte} (hf : (s.hostLines.find? fun h => h.line == line) = some h) (hm : h.st = 2) (hlen : bs.length = 128) (hcap : 128 * line + 128 ≤ hbmCap s) :
    ∃ t, exec (.hostRecall line (some bs)) s = .next t ∧ (∀ b < 128, homeByte t (128 * line + b) = if h.pend.getLsbD b then homeByte s (128 * line + b) else bs.getD b 0)
      ∧ (∀ a, a < 128 * line ∨ 128 * line + 128 ≤ a → homeByte t a = homeByte s a) ∧ ∀ x ∈ t.hostLines, x.line = line → x.st = 0 := by
  let u := homeMerge s line (~~~h.pend) (lineOf bs) 0 (some .host)
  have hexec : exec (.hostRecall line (some bs)) s = .next { u with hostLines := u.hostLines.map fun h => if h.line = line then { h with st := 0, seq := h.seq + 1, pend := 0 } else h } := by
    change execHostRecall line (some bs) s = _
    simp only [execHostRecall, hf, hm, hlen, hcap, and_self, if_true]
    rfl
  have hbyte : ∀ a, homeByte { u with hostLines := u.hostLines.map fun h => if h.line = line then { h with st := 0, seq := h.seq + 1, pend := 0 } else h } a
      = if 128 * line ≤ a ∧ a < 128 * line + 128 ∧ (~~~h.pend).getLsbD (a - 128 * line) = true then lineByte (lineOf bs) (a - 128 * line) else homeByte s a := fun a =>
    (homeByte_of_mem (s := u) rfl rfl rfl a).trans (homeByte_homeMerge ..)
  refine ⟨_, hexec, fun b hb => ?_, fun a ha => ?_, fun x hx hline => ?_⟩
  · rw [hbyte, Nat.add_sub_cancel_left, BitVec.getLsbD_not]
    have hdata : lineByte (lineOf bs) b = bs.getD b 0 := by simpa using lineByte_lineOf bs 0 b hb (Nat.zero_le b)
    cases hp : h.pend.getLsbD b with
    | true => simp
    | false => simp [hb, hdata]
  · rw [hbyte, if_neg (by omega)]
  · obtain ⟨y, -, rfl⟩ := List.mem_map.mp hx
    by_cases hy : y.line = line
    · simp [hy]
    · rw [if_neg hy] at hline
      exact absurd hline hy
end

/-- Settles O55. -/
theorem hostAccesses : Obligations.HostAccesses := by
  refine ⟨fun s pa n own => ⟨host_reads, fun h => ?_, fun h => ?_⟩, fun s module pa data hw => ?_, fun s module pa data hw => ⟨host_writes hw, fun h => ?_, fun h => ?_⟩, fun s line h hf hst => ⟨recall_clean hf hst, fun bs => recall_modified hf⟩⟩
  · change execHostRead pa n own s = _
    simp only [execHostRead, h]
  · change execHostRead pa n own s = _
    simp only [execHostRead, h]
  · change execHostWrite ⟨module, pa⟩ data s = _
    simp only [execHostWrite, hw, if_true]
  · change execHostWrite ⟨module, pa⟩ data s = _
    simp only [execHostWrite, hw, h, Bool.false_eq_true, if_false]
  · change execHostWrite ⟨module, pa⟩ data s = _
    simp only [execHostWrite, hw, h, Bool.false_eq_true, if_false]
end Sys2Proof.Machine
end

section
/-! Messages of peers (14 R403 to R406, R409). Obligation O57. -/

namespace Sys2Proof.Machine

/-! ### Numbers at home -/

theorem leNat_leBytes (n v : Nat) : leNat (leBytes n v) = v % 256 ^ n := by
  induction n generalizing v with
  | zero => simp [leBytes, leNat, Nat.mod_one]
  | succ n ih =>
    rw [leBytes, leNat, ih, Nat.pow_succ', Nat.mod_mul, BitVec.toNat_ofNat]
theorem homeNat_of_bytes {s : State} {pa n v : Nat} (h : homeBytes s pa n = leBytes n v) (hv : v < 256 ^ n) : homeNat s pa n = v := by
  rw [homeNat, h, leNat_leBytes, Nat.mod_eq_of_lt hv]
theorem homeNat_congr_range {s t : State} {pa n : Nat} (h : ∀ j < n, homeByte t (pa + j) = homeByte s (pa + j)) : homeNat t pa n = homeNat s pa n := congrArg leNat (homeBytes_congr_range h)
theorem homeNat_homeWrite_same (s : State) (pa : Nat) {n v : Nat} (key : BitVec 16) (who : Option Agent) (hv : v < 256 ^ n) : homeNat (homeWrite s pa (leBytes n v) key who) pa n = v := by
  refine homeNat_of_bytes ?_ hv
  have hput := (homePut_homeWrite (s := s) (r := s) (pa := pa) (bs := leBytes n v) (key := key) (who := who) fun _ => rfl).1
  rwa [leBytes_length] at hput
theorem homeNat_homeWrite_apart (s : State) {pa a n : Nat} {bs : List Byte} (key : BitVec 16) (who : Option Agent) (h : a + n ≤ pa ∨ pa + bs.length ≤ a) : homeNat (homeWrite s pa bs key who) a n = homeNat s a n :=
  homeNat_congr_range fun j hj => by rw [homeByte_homeWrite, if_neg (by omega)]

/-! ### Holders -/

section
variable {s : State} {page : Nat} {seq : BitVec 16} {e : Bool × Nat × Nat}

theorem copyFind_state {big : Bool} {g : Nat} {l : List Nat} {x : Nat × Nat} (h : copyFind s big g l = some x) : x.2 % 16 ∈ l := by
  have hp := List.find?_some h
  simp only [Bool.and_eq_true] at hp
  exact List.contains_iff_mem.mp hp.1
theorem holderEntry_state {l : List Nat} (h : holderEntry s page l = some e) : e.2.2 % 16 ∈ l := by
  unfold holderEntry copyLookup at h
  split at h
  · next a b hf =>
    obtain rfl := Option.some.inj h
    exact copyFind_state hf
  · obtain ⟨x, hf, rfl⟩ := Option.map_eq_some_iff.mp h
    exact copyFind_state hf
theorem probed_held {act : Bool × Nat × Nat → State} (h : holderEntry s page [1, 2] = some e) (hn : newer (localSeq e.2.2) seq = false) : probed s page seq act = act e := by
  simp only [probed, h, hn, Bool.false_eq_true, if_false]
theorem probed_none {act : Bool × Nat × Nat → State} (h : holderEntry s page [1, 2] = none) : probed s page seq act = sendAck s page seq 0 [] := by simp only [probed, h]
theorem probed_stale {act : Bool × Nat × Nat → State} (h : holderEntry s page [1, 2] = some e) (hn : newer (localSeq e.2.2) seq = true) : probed s page seq act = sendAck s page (localSeq e.2.2) 1 [] := by
  simp only [probed, h, hn, if_true]
theorem ownedData_eq (s : State) (e : Bool × Nat × Nat) : ownedData s e = (if e.2.2 % 16 = 2 then homeBytes s (localFrame e.2.2) (frameSize e.1) else [], if e.2.2 % 16 = 2 then homeSynds s (localFrame e.2.2) (frameSize e.1) else []) := by
  unfold ownedData
  split <;> rfl

/-! ### A split at a holder (19 R461) -/

/-- Global address of subpage i of a 2 MiB page, and the word of its entry. -/
def splitPage (page i : Nat) : Nat := page % 2 ^ 52 / 2 ^ 21 * 2 ^ 21 + i * 65536
def splitWord (seq : BitVec 16) (e : Bool × Nat × Nat) (i : Nat) : Nat := localFrame e.2.2 + i * 65536 + e.2.2 % 16 + (seq + 1).toNat * 2 ^ 48
/-- An entry of the copy table that stands for subpage i. -/
def SplitEntry (page : Nat) (seq : BitVec 16) (e : Bool × Nat × Nat) (t : State) (i : Nat) : Prop :=
  ∃ w < 8, let a := copyAddr t (copySet false (splitPage page i)) w
    homeNat t a 8 = splitPage page i ∧ homeNat t (a + 8) 8 = splitWord seq e i
/-- What stands for subpage i after its turn: its entry, or no way was empty. -/
def SplitDone (page : Nat) (seq : BitVec 16) (e : Bool × Nat × Nat) (d : List Nat) (t : State) (i : Nat) : Prop := if i ∈ d then copyEmpty t (splitPage page i) = none else SplitEntry page seq e t i

theorem splitPage_even (page i : Nat) : (splitPage page i % 2 = 1) = False := by
  simp only [splitPage, eq_iff_iff, iff_false]
  omega
theorem splitPage_lt {i : Nat} (hi : i < 32) : splitPage page i < 256 ^ 8 := by
  unfold splitPage
  omega
theorem splitWord_mod (seq : BitVec 16) (e : Bool × Nat × Nat) (i : Nat) : splitWord seq e i % 16 = e.2.2 % 16 := by
  simp only [splitWord, localFrame]
  omega
theorem splitWord_lt (seq : BitVec 16) (e : Bool × Nat × Nat) {i : Nat} (hi : i < 32) : splitWord seq e i < 256 ^ 8 := by
  have hseq := (seq + 1).isLt
  simp only [splitWord, localFrame]
  omega
/-- An empty way of a subpage's set. -/
theorem copyEmpty_way {t : State} {i a : Nat} (h : copyEmpty t (splitPage page i) = some a) : (∃ w < 8, a = copyAddr t (copySet false (splitPage page i)) w) ∧ homeNat t (a + 8) 8 % 16 = 0 := by
  unfold copyEmpty at h
  obtain ⟨w, hw, rfl⟩ := List.mem_map.mp (List.mem_of_find?_eq_some h)
  have hp := List.find?_some h
  simp only [splitPage_even, decide_false, decide_eq_true_eq] at hp ⊢
  exact ⟨⟨w, List.mem_range.mp hw, rfl⟩, hp⟩
/-- The state after a subpage's entry has been written to a way. -/
def splitWrite (t : State) (page : Nat) (seq : BitVec 16) (e : Bool × Nat × Nat) (i a : Nat) : State := homeWrite (homeWrite t a (leBytes 8 (splitPage page i)) 0 none) (a + 8) (leBytes 8 (splitWord seq e i)) 0 none
theorem splitOne_eq (t : State) (page : Nat) (seq : BitVec 16) (e : Bool × Nat × Nat) (i : Nat) : splitOne t page seq e i = (copyEmpty t (splitPage page i)).map (splitWrite t page seq e i) := rfl
theorem splitWrite_addr (t : State) (page : Nat) (seq : BitVec 16) (e : Bool × Nat × Nat) (i a k w : Nat) : copyAddr (splitWrite t page seq e i a) k w = copyAddr t k w := by
  simp only [copyAddr, splitWrite, mreg_homeWrite]
theorem splitWrite_apart {t : State} {i a b n : Nat} (h : b + n ≤ a ∨ a + 16 ≤ b) : homeNat (splitWrite t page seq e i a) b n = homeNat t b n := by
  unfold splitWrite
  rw [homeNat_homeWrite_apart _ _ _ (by rw [leBytes_length]; omega), homeNat_homeWrite_apart _ _ _ (by rw [leBytes_length]; omega)]
theorem splitWrite_entry {t : State} {i a : Nat} (hi : i < 32) (ha : ∃ w < 8, a = copyAddr t (copySet false (splitPage page i)) w) : SplitEntry page seq e (splitWrite t page seq e i a) i := by
  obtain ⟨w, hw, rfl⟩ := ha
  refine ⟨w, hw, ?_⟩
  dsimp only
  rw [splitWrite_addr]
  constructor
  · unfold splitWrite
    rw [homeNat_homeWrite_apart _ _ _ (Or.inl (Nat.le_refl _)), homeNat_homeWrite_same _ _ _ _ (splitPage_lt hi)]
  · exact homeNat_homeWrite_same _ _ _ _ (splitWord_lt seq e hi)
/-- Writing an empty way leaves the entries and the full sets as they were. -/
theorem SplitDone.splitWrite {t : State} {d : List Nat} {i j a k w : Nat} (he : e.2.2 % 16 ≠ 0) (ha : a = copyAddr t k w) (hempty : homeNat t (a + 8) 8 % 16 = 0) (h : SplitDone page seq e d t j) :
    SplitDone page seq e d (splitWrite t page seq e i a) j := by
  have hother : ∀ k' w', homeNat t (copyAddr t k' w' + 8) 8 % 16 ≠ 0 → copyAddr t k' w' + 16 ≤ a ∨ a + 16 ≤ copyAddr t k' w' := fun k' w' hfull => by
    have hne : copyAddr t k' w' ≠ a := fun heq => hfull (by rw [heq]; exact hempty)
    subst ha
    simp only [copyAddr] at hne ⊢
    omega
  unfold SplitDone at h ⊢
  split
  · next hj =>
    rw [if_pos hj] at h
    unfold copyEmpty at h ⊢
    rw [List.find?_eq_none] at h ⊢
    intro b hb
    obtain ⟨w', hw', rfl⟩ := List.mem_map.mp hb
    have hfull := h _ (List.mem_map_of_mem hw')
    simp only [decide_eq_true_eq] at hfull
    have hapart := hother _ _ hfull
    rw [splitWrite_addr, splitWrite_apart (by omega)]
    simpa using hfull
  · next hj =>
    rw [if_neg hj] at h
    obtain ⟨w', hw', hpage, hword⟩ := h
    have hapart := hother _ _ (by rw [hword, splitWord_mod]; exact he)
    refine ⟨w', hw', ?_⟩
    dsimp only
    rw [splitWrite_addr, splitWrite_apart (by omega), splitWrite_apart (by omega)]
    exact ⟨hpage, hword⟩
/-- One turn of a split. -/
def splitTurn (page : Nat) (seq : BitVec 16) (e : Bool × Nat × Nat) (x : List Nat × State) (i : Nat) : List Nat × State := match splitOne x.2 page seq e i with
  | some u => (x.1, u)
  | none => (x.1 ++ [i], x.2)
theorem foldl_splitTurn {F : List Nat × State → Nat → List Nat × State} (hF : ∀ d t i, F (d, t) i = splitTurn page seq e (d, t) i) (l : List Nat) (x : List Nat × State) : l.foldl F x = l.foldl (splitTurn page seq e) x := by
  have hFun : F = splitTurn page seq e := by
    funext ⟨d, t⟩ i
    exact hF d t i
  rw [hFun]
theorem splitTurns_done (he : e.2.2 % 16 ≠ 0) (t : State) (n : Nat) (hn : n ≤ 32) :
    let x := (List.range n).foldl (splitTurn page seq e) ([], t)
    (∀ i ∈ x.1, i < n) ∧ ∀ i < n, SplitDone page seq e x.1 x.2 i := by
  induction n with
  | zero => exact ⟨fun i h => absurd h List.not_mem_nil, fun i h => absurd h (Nat.not_lt_zero i)⟩
  | succ n ih =>
    obtain ⟨hlt, hdone⟩ := ih (by omega)
    rw [List.range_succ, List.foldl_append]
    generalize (List.range n).foldl (splitTurn page seq e) ([], t) = x at hlt hdone
    obtain ⟨d, u⟩ := x
    have hnew : n ∉ d := fun h => absurd (hlt n h) (Nat.lt_irrefl n)
    simp only [List.foldl_cons, List.foldl_nil, splitTurn, splitOne_eq]
    cases hempty : copyEmpty u (splitPage page n) with
    | some a =>
      obtain ⟨hway, hfree⟩ := copyEmpty_way hempty
      obtain ⟨w, hw, ha⟩ := hway
      simp only [Option.map_some]
      refine ⟨fun i hi => Nat.lt_succ_of_lt (hlt i hi), fun i hi => ?_⟩
      obtain hi | rfl := Nat.lt_succ_iff_lt_or_eq.mp hi
      · exact (hdone i hi).splitWrite he ha hfree
      · simp only [SplitDone, hnew, if_false]
        exact splitWrite_entry (by omega) ⟨w, hw, ha⟩
    | none =>
      simp only [Option.map_none]
      refine ⟨fun i hi => ?_, fun i hi => ?_⟩
      · obtain hi | hi := List.mem_append.mp hi
        · exact Nat.lt_succ_of_lt (hlt i hi)
        · rw [List.mem_singleton.mp hi]
          exact Nat.lt_succ_self n
      · obtain hi | rfl := Nat.lt_succ_iff_lt_or_eq.mp hi
        · have hold := hdone i hi
          have hmem : i ∈ d ++ [n] ↔ i ∈ d := by simp [Nat.ne_of_lt hi]
          simpa only [SplitDone, Option.map_none, hmem] using hold
        · simpa only [SplitDone, List.mem_append, List.mem_singleton, or_true, if_true] using hempty
theorem probeSplit_turns (h : holderEntry s page [1, 2] = some e) (hn : newer (localSeq e.2.2) seq = false) (hbig : e.1 = true) :
    let x := (List.range 32).foldl (splitTurn page seq e) ([], copyDrop s page e)
    exec (.probeSplit page seq) s = .next (sendAck x.2 page seq (2 + 4 * (maskOf x.1 32).toNat) (if e.2.2 % 16 = 2 then x.1.flatMap fun i => homeBytes x.2 (localFrame e.2.2 + i * 65536) 65536 else [])
      (if e.2.2 % 16 = 2 then x.1.flatMap fun i => homeSynds x.2 (localFrame e.2.2 + i * 65536) 65536 else [])) := by
  change execProbeSplit page seq s = _
  rw [execProbeSplit, probed_held h hn]
  simp only [hbig, Bool.not_true, Bool.false_eq_true, if_false]
  rw [foldl_splitTurn (page := page) (seq := seq) (e := e) fun d t i => ?_]
  dsimp only [splitTurn] <;> cases splitOne t page seq e i <;> rfl
theorem probeSplit_big (h : holderEntry s page [1, 2] = some e) (hn : newer (localSeq e.2.2) seq = false) (hbig : e.1 = true) :
    ∃ u drops, (exec (.probeSplit page seq) s = .next (sendAck u page seq (2 + 4 * (maskOf drops 32).toNat) (if e.2.2 % 16 = 2 then drops.flatMap fun i => homeBytes u (localFrame e.2.2 + i * 65536) 65536 else [])
        (if e.2.2 % 16 = 2 then drops.flatMap fun i => homeSynds u (localFrame e.2.2 + i * 65536) 65536 else [])))
      ∧ ∀ i < 32, let g := page % 2 ^ 52 / 2 ^ 21 * 2 ^ 21 + i * 65536
        if i ∈ drops then copyEmpty u g = none
        else ∃ w < 8, let a := copyAddr u (copySet false g) w
          homeNat u a 8 = g ∧ homeNat u (a + 8) 8 = localFrame e.2.2 + i * 65536 + e.2.2 % 16 + (seq + 1).toNat * 2 ^ 48 := by
  have hst : e.2.2 % 16 ≠ 0 := fun h0 => by
    have hmem := holderEntry_state h
    rw [h0] at hmem
    exact absurd hmem (by decide)
  obtain ⟨-, hdone⟩ := splitTurns_done (page := page) (seq := seq) hst (copyDrop s page e) 32 (Nat.le_refl _)
  have hexec := probeSplit_turns h hn hbig
  generalize (List.range 32).foldl (splitTurn page seq e) ([], copyDrop s page e) = x at hdone hexec
  refine ⟨x.2, x.1, hexec, fun i hi => ?_⟩
  have hi := hdone i hi
  simpa only [SplitDone, SplitEntry, splitPage, splitWord] using hi
end

/-! ### Messages to a home -/

theorem atomic_eq (s : State) (src pa wid : Nat) (float : Bool) (aop : BitVec 6) (v : DWord) (hw : wid = 2 ∨ wid = 3) (ha : pa % 2 ^ wid = 0) :
    exec (.atomicMsg src pa wid float aop v) s = match peerFind s pa (2 ^ wid) true with
      | .mem p => if homeCaps s p (2 ^ wid) ≠ .good then .next (sendMsg s src 3 pa 0 (2 ^ 32 + 16) []) else
        .next (sendMsg (homeWrite s p (leBytes (2 ^ wid) (if float then (atomfNew (aop.toNat % 32) (homeNat s p (2 ^ wid)) v.toNat).1
          else atomNew (aop.toNat % 32) (8 * 2 ^ wid) (homeNat s p (2 ^ wid)) (v.toNat % 2 ^ (8 * 2 ^ wid)))) 0 (some (.peer src))) src 3 pa 0 (2 ^ 32) (leBytes (2 ^ wid) (homeNat s p (2 ^ wid))))
      | .forward d => .next (passOn s src { dst := d, kind := 3, page := pa, seq := 0, aux := aop.toNat % 32 + 64 * 2 ^ wid, data := leBytes 8 v.toNat })
      | .wait => .next { s with inbox := s.inbox ++ [.atomic src pa wid float aop v] }
      | .refuse r => .next (sendMsg s src 3 pa 0 (2 ^ 32 + r) [])
      | .lost => .next s := by
  have hn : (if wid = 3 then 8 else 4) = 2 ^ wid := by obtain rfl | rfl := hw <;> rfl
  change execAtomicMsg src pa wid float aop v s = _
  simp only [execAtomicMsg, hn, ha, ne_eq, not_true_eq_false, if_false]
  cases peerFind s pa (2 ^ wid) true <;> rfl
theorem forwarded_command {s : State} {src pa : Nat} {op : BitVec 7} {v : DWord} {i : Instr} (hi : forwardInstr op.toNat = some i) (hd : pa / 2 ^ 46 = ownDev s) :
    ∃ t c, exec (.forwardedCommand src op pa v) s = .next t ∧ t.cmds = s.cmds ++ [c] ∧ c.id = s.nextId ∧ c.op = i ∧ c.owner = .peer src ∧ creg c 0 = pa % 2 ^ 64 ∧ creg c 1 = v.toNat ∧ c.started = true ∧ c.done = 0
      ∧ t.nextId = s.nextId + 1 ∧ { t with cmds := s.cmds, nextId := s.nextId } = s := by
  have hregs : ∀ r, SMap.get (w := 64) (SMap.setAll [] [(0, BitVec.ofNat 64 pa), (1, v)]) r = if r = 1 then v else if r = 0 then BitVec.ofNat 64 pa else 0 := fun r => by
    simp only [SMap.setAll, SMap.get_set]
    rfl
  have hexec : exec (.forwardedCommand src op pa v) s = execForwardedCommand src op pa v s := rfl
  simp only [hexec, execForwardedCommand, hi, hd, ne_eq, not_true_eq_false, if_false]
  refine ⟨_, _, rfl, rfl, rfl, rfl, rfl, ?_, ?_, rfl, rfl, rfl, rfl⟩
  · simp only [creg, hregs]
    exact BitVec.toNat_ofNat ..
  · simp only [creg, hregs, if_true]

/-! ### Recovery of a directory entry (R409) -/

theorem noteCause_same (s : State) (id : Nat) (x : Cause) (a : BitVec 64) : (noteCause s id x a).busy = s.busy ∧ mreg (noteCause s id x a) Reg.DOMAIN = mreg s Reg.DOMAIN ∧ mreg (noteCause s id x a) Reg.DEVNUM = mreg s Reg.DEVNUM := by
  have hposted : ∀ (iss : Issuer) (root : Nat), Posted s (postWalkAt s iss root x a) := fun iss root => by
    unfold postWalkAt
    split
    · exact .refl s
    · split
      · split
        · exact posted_postAsync ..
        · exact .refl s
      · exact .refl s
  unfold noteCause
  split
  · exact ⟨rfl, rfl, rfl⟩
  · split
    · exact ⟨rfl, rfl, rfl⟩
    · exact ⟨(hposted ..).busy, (hposted ..).regs _ (by decide) (by decide), (hposted ..).regs _ (by decide) (by decide)⟩
theorem foldl_noteCause_same {α : Type} (l : List α) (id : α → Nat) (x : Cause) (a : BitVec 64) (s : State) : (l.foldl (fun t y => noteCause t (id y) x a) s).busy = s.busy
    ∧ mreg (l.foldl (fun t y => noteCause t (id y) x a) s) Reg.DOMAIN = mreg s Reg.DOMAIN ∧ mreg (l.foldl (fun t y => noteCause t (id y) x a) s) Reg.DEVNUM = mreg s Reg.DEVNUM := by
  induction l generalizing s with
  | nil => exact ⟨rfl, rfl, rfl⟩
  | cons y l ih =>
    obtain ⟨hb, hd, hn⟩ := ih (noteCause s (id y) x a)
    obtain ⟨hb', hd', hn'⟩ := noteCause_same s (id y) x a
    exact ⟨hb.trans hb', hd.trans hd', hn.trans hn'⟩
theorem wakeInbox_busy (s : State) : (wakeInbox s).busy = s.busy := rfl
theorem traffic_setDir (s : State) (i : Nat) (d : DirEntry) : Traffic s (setDir s i d) := by
  rw [setDir]
  exact traffic_homeWrite ..
theorem sent_probe (s : State) (dev page : Nat) (seq : BitVec 16) (kind : Nat) : Sent s (probe s dev page seq kind) := sent_sendMsg ..
theorem recoverFinish_busy (s : State) (x : Transition) : (recoverFinish s x).busy = s.busy.filter fun y => !(y.cmd = 0 && y.index == x.index) := by
  rw [recoverFinish]
  dsimp only
  rw [wakeInbox_busy, (posted_postAsync ..).busy]
  dsimp only
  rw [(traffic_setDir ..).busy]
theorem ownDev_of_mreg {s t : State} (h : mreg t Reg.DEVNUM = mreg s Reg.DEVNUM) : ownDev t = ownDev s := by
  simp only [ownDev, h]
theorem recovery_starts {s : State} {i : Nat} {known : Bool} (hi : i * 65536 < hbmCap s) : let peers := (List.range 64).filter fun k => k ≠ ownDev s && (mreg s Reg.DOMAIN).testBit k
    (peers ≠ [] → ∃ t x, exec (.directoryErrorRecovery i known) s = .next t ∧ t.busy = s.busy.filter (fun y => y.index != i) ++ [x] ∧ x.cmd = 0 ∧ x.index = i ∧ x.waiting = peers)
      ∧ (peers = [] → ∃ t, exec (.directoryErrorRecovery i known) s = .next t ∧ t.busy = s.busy.filter fun y => y.index != i) := by
  intro peers
  have hexec : exec (.directoryErrorRecovery i known) s = execDirectoryErrorRecovery i known s := rfl
  rw [hexec, execDirectoryErrorRecovery, if_neg (Nat.not_le.mpr hi)]
  obtain ⟨hbusy, hdomain, hdev⟩ := foldl_noteCause_same (s.busy.filter fun x => x.index == i) (·.cmd) 0x093 (BitVec.ofNat 64 (i * 65536)) s
  generalize (s.busy.filter fun x => x.index == i).foldl (fun t x => noteCause t x.cmd 0x093 (BitVec.ofNat 64 (i * 65536))) s = u at hbusy hdomain hdev
  dsimp only
  have hset : Traffic { u with busy := u.busy.filter fun x => x.index != i } (setDir { u with busy := u.busy.filter fun x => x.index != i } i (holdX (dirAt s i))) := traffic_setDir ..
  generalize setDir { u with busy := u.busy.filter fun x => x.index != i } i (holdX (dirAt s i)) = v at hset
  have hvbusy : v.busy = s.busy.filter fun x => x.index != i := by rw [hset.busy, hbusy]
  have hvpeers : ((List.range 64).filter fun k => k ≠ ownDev v && (mreg v Reg.DOMAIN).testBit k) = peers := by
    have hown : ownDev v = ownDev s := ownDev_of_mreg ((hset.mreg _).trans hdev)
    have hdom : mreg v Reg.DOMAIN = mreg s Reg.DOMAIN := (hset.mreg _).trans hdomain
    rw [hown, hdom]
  rw [hvpeers]
  generalize hx : (Transition.mk 0 i _ _ _ peers _ _ _ _) = x
  have hprobed := (Sent.foldl peers (fun t k => sent_probe t k (ownDev t * 2 ^ 46 + i * 65536) 0 3) { v with busy := v.busy ++ [x] }).traffic.busy
  refine ⟨fun hne => ⟨_, x, rfl, ?_, by rw [← hx], by rw [← hx], by rw [← hx]⟩, fun hnil => ⟨_, rfl, ?_⟩⟩
  · rw [if_neg hne]
    exact hprobed.trans (by rw [hvbusy])
  · rw [if_pos hnil, recoverFinish_busy]
    refine (congrArg _ hprobed).trans ?_
    rw [hvbusy, ← hx, List.filter_append, List.filter_filter, List.filter_singleton]
    simp only [decide_true, beq_self_eq_true, Bool.and_self, Bool.not_true, cond_false, List.append_nil]
    refine List.filter_congr fun y _ => ?_
    cases hne : y.index != i
    · rw [Bool.and_false]
    · rw [Bool.and_true, beq_eq_false_iff_ne.mpr (by simpa using hne), Bool.and_false, Bool.not_false]

/-! ### The clauses by message -/

section
variable (s : State) (src pa n : Nat) (page : Nat) (seq : BitVec 16) (e : Bool × Nat × Nat)

theorem readMsg_eq : exec (.readMsg src pa n) s = match peerFind s pa n false with
    | .mem p => .next (sendData (combRead s p n 0) src 1 pa 0 (2 ^ 32) (homeBytes s p n) (homeSynds s p n))
    | .forward d => .next (passOn s src { dst := d, kind := 1, page := pa, seq := 0, aux := n, data := [] })
    | .wait => .next { s with inbox := s.inbox ++ [.read src pa n] }
    | .refuse r => .next (sendMsg s src 1 pa 0 (2 ^ 32 + r) [])
    | .lost => .next s := by
  change execReadMsg src pa n s = _
  rewrite [execReadMsg]
  cases peerFind s pa n false <;> rfl
theorem writeMsg_eq (data : List Byte) (sy : List (BitVec 16)) : exec (.writeMsg src pa ⟨data, sy⟩) s = match peerFind s pa data.length true with
    | .mem p => .next (sendMsg (putSynds (homeWrite s p data 0 (some (.peer src))) (carriedGranules p data.length) sy) src 2 pa 0 (2 ^ 32) [])
    | .forward d => .next (passOn s src { dst := d, kind := 2, page := pa, seq := 0, aux := 0, data := data, caps := sy })
    | .wait => .next { s with inbox := s.inbox ++ [.write src pa ⟨data, sy⟩] }
    | .refuse r => .next (sendMsg s src 2 pa 0 (2 ^ 32 + r) [])
    | .lost => .next s := by
  change execWriteMsg src pa ⟨data, sy⟩ s = _
  rewrite [execWriteMsg]
  cases peerFind s pa data.length true <;> rfl
theorem probeInv_eq : exec (.probeInv page seq) s = .next (probed s page seq fun e => sendAck (copyDrop s page e) page seq 0 []) := rfl
theorem probeRecall_eq : exec (.probeRecall page seq) s = .next (probed s page seq fun e => sendAck (copyDrop s page e) page seq 0 (if e.2.2 % 16 = 2 then homeBytes (copyDrop s page e) (localFrame e.2.2) (frameSize e.1) else [])
    (if e.2.2 % 16 = 2 then homeSynds (copyDrop s page e) (localFrame e.2.2) (frameSize e.1) else [])) := by
  change execProbeRecall page seq s = _
  rw [execProbeRecall]
  simp only [ownedData_eq]
theorem probeSplit_small {s : State} {page : Nat} {seq : BitVec 16} {e : Bool × Nat × Nat} (h : holderEntry s page [1, 2] = some e) (hn : newer (localSeq e.2.2) seq = false) (hsmall : e.1 = false) :
    exec (.probeSplit page seq) s = .next (sendAck s page seq 0 []) := by
  change execProbeSplit page seq s = _
  rw [execProbeSplit, probed_held h hn]
  simp only [hsmall, Bool.not_false, if_true]
theorem probe_none {s : State} {page : Nat} {seq : BitVec 16} {ev : Instr} (hev : ev ∈ [.probeInv page seq, .probeRecall page seq, .probeSplit page seq]) (h : holderEntry s page [1, 2] = none) : exec ev s = .next (sendAck s page seq 0 []) := by
  simp only [List.mem_cons, List.not_mem_nil, or_false] at hev
  obtain rfl | rfl | rfl := hev
  · rw [probeInv_eq, probed_none h]
  · rw [probeRecall_eq, probed_none h]
  · change execProbeSplit page seq s = _
    rw [execProbeSplit, probed_none h]
theorem probe_stale {s : State} {page : Nat} {seq : BitVec 16} {ev : Instr} {e : Bool × Nat × Nat} (hev : ev ∈ [.probeInv page seq, .probeRecall page seq, .probeSplit page seq]) (h : holderEntry s page [1, 2] = some e)
    (hn : newer (localSeq e.2.2) seq = true) : exec ev s = .next (sendAck s page (localSeq e.2.2) 1 []) := by
  simp only [List.mem_cons, List.not_mem_nil, or_false] at hev
  obtain rfl | rfl | rfl := hev
  · rw [probeInv_eq, probed_stale h hn]
  · rw [probeRecall_eq, probed_stale h hn]
  · change execProbeSplit page seq s = _
    rw [execProbeSplit, probed_stale h hn]
theorem probeAll_eq (home : Nat) : exec (.probeAll page home) s = match holderEntry s page [1, 2] with
    | none => .next (sendMsg s home 6 page 0 0 [])
    | some e => .next (sendData (copyDrop s page e) home 6 page (localSeq e.2.2) 0 (if e.2.2 % 16 = 2 then homeBytes (copyDrop s page e) (localFrame e.2.2) (frameSize e.1) else [])
        (if e.2.2 % 16 = 2 then homeSynds (copyDrop s page e) (localFrame e.2.2) (frameSize e.1) else [])) := by
  change execProbeAll page home s = _
  rewrite [execProbeAll]
  simp only [ownedData_eq] <;> cases holderEntry s page [1, 2] <;> rfl
theorem grant_data {s : State} {page : Nat} {e : Bool × Nat × Nat} (owned : Bool) (seq : BitVec 16) {bs : List Byte} (sy : List (BitVec 16)) (h : holderEntry s page [3] = some e) (hlen : bs.length = frameSize e.1) :
    let t := homeWrite (holderDrop s page e) (localFrame e.2.2) bs 0 none
    exec (.grant page owned seq (some bs) sy) s = .next (sendAck (setLocal { t with memSynd := SMap.setList t.memSynd (localFrame e.2.2 / 16) (sy.take (frameSize e.1 / 16)) } e.2.1 (localFrame e.2.2) (if owned then 2 else 1) seq) page seq 0 []) := by
  change execGrant page owned seq (some bs) sy s = _
  simp only [execGrant, h, hlen, ne_eq, not_true_eq_false, if_false]
theorem grant_owned {s : State} {page : Nat} {e : Bool × Nat × Nat} (seq : BitVec 16) (sy : List (BitVec 16)) (h : holderEntry s page [1] = some e) :
    exec (.grant page true seq none sy) s = .next (sendAck (setLocal (holderDrop s page e) e.2.1 (localFrame e.2.2) 2 seq) page seq 0 []) := by
  change execGrant page true seq none sy s = _
  simp only [execGrant, h, if_true]
/-- The transition whose acknowledgement of this sender and SEQ a home awaits. -/
def ackAwaited : Option Transition := s.busy.find? fun x => decide (x.index ≤ page % 2 ^ 46 / 65536 ∧ page % 2 ^ 46 / 65536 < x.index + dirSize x.before / 65536) && x.waiting.contains src && (x.cmd == 0 || x.before.seq + (if x.granted then 1 else 0) == seq)
theorem ack_unawaited {s : State} {src page : Nat} {seq : BitVec 16} {data : Option Carried} {dropped : List Nat} (h : ackAwaited s src page seq = none) : exec (.ack src page seq data dropped) s = .next s := by
  change execAck src page seq data dropped s = _
  unfold ackAwaited at h
  simp only [execAck, h]
theorem ack_awaited {s : State} {src page : Nat} {seq : BitVec 16} {x : Transition} {data : Option Carried} {dropped : List Nat} (h : ackAwaited s src page seq = some x) :
    let y := { x with waiting := x.waiting.filter (· != src), drops := x.drops ++ if x.cmd = 0 then [(src, seq.toNat)] else (dropped.filter (· < 32)).map fun d => (src, d) }
    let m := mergeAck s x data dropped
    let t := { m with busy := m.busy.map fun z => if z.cmd = x.cmd ∧ z.index = x.index then y else z }
    exec (.ack src page seq data dropped) s = .next (if x.cmd = 0 ∧ y.waiting = [] then recoverFinish t y else t) := by
  change execAck src page seq data dropped s = _
  unfold ackAwaited at h
  simp only [execAck, h]
theorem ack_only {s : State} {src page : Nat} {x : Transition} (hbusy : s.busy = [x]) (hi : x.index = page % 2 ^ 46 / 65536) (hsize : 65536 ≤ dirSize x.before) (hsrc : src ∈ x.waiting) (hcmd : x.cmd ≠ 0) :
    exec (.ack src page (x.before.seq + (if x.granted then 1 else 0)) none []) s = .next { s with busy := [{ x with waiting := x.waiting.filter (· != src) }] } := by
  have hin : x.index ≤ page % 2 ^ 46 / 65536 ∧ page % 2 ^ 46 / 65536 < x.index + dirSize x.before / 65536 := by
    rw [← hi]
    omega
  have hmine : ackAwaited s src page (x.before.seq + (if x.granted then 1 else 0)) = some x := by
    rw [ackAwaited, hbusy]
    simp only [List.find?_cons, decide_eq_true hin, List.contains_iff_mem.mpr hsrc, beq_self_eq_true, Bool.or_true, Bool.and_self]
  rw [ack_awaited hmine]
  simp only [mergeAck, hbusy, hcmd, false_and, if_false, List.filter_nil, List.map_nil, List.append_nil, List.map_cons, and_self, if_true]
end

/-- Settles O57, message by message: the equation of each event, the turns of a split, and the devices that a recovery waits for. -/
theorem peerMessages : Obligations.PeerMessages := by
  unfold Obligations.PeerMessages
  refine ⟨⟨fun s src pa n => ⟨fun p h => ?_, fun d h => ?_⟩, fun s src pa n => ⟨fun h => ?_, fun r h => ?_⟩, fun s src pa data sy => ⟨fun p h => ?_, fun d h => ?_, fun h => ?_, fun r h => ?_⟩, fun s src pa wid p aop v hw ha h hc => ?_,
      fun s src pa wid float aop v hw ha => ⟨fun p h hc hf => ?_, fun p h hc => ?_, fun d h => ?_, fun h => ?_, fun r h => ?_⟩, fun s src pa op v i hi hd => forwarded_command hi hd⟩,
    fun s page seq e h hn => ⟨?_, ?_, probeSplit_small h hn⟩, fun s page seq ev hev => ⟨probe_none hev, fun e h hn => probe_stale hev h hn⟩, fun s page home e => ⟨fun h => ?_, fun h => ?_⟩,
    fun s page owned seq bs sy e h hlen => grant_data owned seq sy h hlen, fun s page seq sy e h => grant_owned seq sy h, fun s page seq e h hn hbig => probeSplit_big h hn hbig,
    fun s src page x hbusy hi hsize hsrc hcmd => ack_only hbusy hi hsize hsrc hcmd, fun s src page seq data dropped => ⟨fun h => ack_unawaited h, fun x h => ack_awaited h⟩, fun s i known hi => recovery_starts hi⟩
  · rw [readMsg_eq, h]
  · rw [readMsg_eq, h]
  · rw [readMsg_eq, h]
  · rw [readMsg_eq, h]
  · rw [writeMsg_eq, h]
  · rw [writeMsg_eq, h]
  · rw [writeMsg_eq, h]
  · rw [writeMsg_eq, h]
  · simp only [atomic_eq s src pa wid false aop v hw ha, h, hc, ne_eq, not_true_eq_false, Bool.false_eq_true, if_false]
  · subst hf
    simp only [atomic_eq s src pa wid true aop v hw ha, h, hc, ne_eq, not_true_eq_false, if_true, if_false]
  · simp only [atomic_eq s src pa wid float aop v hw ha, h, if_pos hc]
  · simp only [atomic_eq s src pa wid float aop v hw ha, h]
  · simp only [atomic_eq s src pa wid float aop v hw ha, h]
  · simp only [atomic_eq s src pa wid float aop v hw ha, h]
  · rw [probeInv_eq, probed_held h hn]
  · rw [probeRecall_eq, probed_held h hn]
  · rw [probeAll_eq, h]
  · rw [probeAll_eq, h]
end Sys2Proof.Machine
end

section
/-! Links (14 R410 to R412, 15 R423). Obligation O58. -/

namespace Sys2Proof.Machine

/-! ### Ports -/

theorem findPort_num {s : State} {p : Nat} {x : Port} (h : findPort s p = some x) : x.port = p := by
  simpa using List.find?_some h
theorem findPort_updPort_same {s : State} {p : Nat} {x : Port} {f : Port → Port} (h : findPort s p = some x) (hf : ∀ y, y.port = p → (f y).port = p) : findPort (updPort s p f) p = some (f x) := by
  have hpred : ((fun y => y.port == p) ∘ fun y : Port => if y.port = p then f y else y) = fun y => y.port == p := by
    funext y
    by_cases hy : y.port = p
    · simp only [Function.comp_apply, hy, if_true, hf y hy]
    · simp only [Function.comp_apply, hy, if_false]
  rw [findPort, updPort, List.find?_map, hpred]
  rw [findPort] at h
  rw [h, Option.map_some, if_pos (findPort_num h)]
theorem findPort_updPort_ne {s : State} {p q : Nat} {f : Port → Port} (hq : p ≠ q) (hf : ∀ y, y.port = q → (f y).port = q) : findPort (updPort s q f) p = findPort s p := by
  rw [findPort, findPort, updPort]
  induction s.ports with
  | nil => rfl
  | cons y l ih =>
    by_cases hy : y.port = q
    · have hne : (q == p) = false := beq_eq_false_iff_ne.mpr (Ne.symm hq)
      simp only [List.map_cons, List.find?_cons, hy, if_true, hf y hy, hne, ih]
    · simp only [List.map_cons, List.find?_cons, hy, if_false, ih]
theorem findPort_of_ports {s t : State} (h : t.ports = s.ports) (p : Nat) : findPort t p = findPort s p := by
  rw [findPort, findPort, h]
theorem findPort_offerPort_ne {p q : Nat} (s : State) (m : Msg) (hq : p ≠ q) : findPort (offerPort s q m) p = findPort s p := by
  unfold offerPort
  split
  · rfl
  · dsimp only
    split
    · exact findPort_updPort_ne hq fun _ h => h
    · exact findPort_updPort_ne (s := { s with fresh := s.fresh + (msgGranules m).length }) hq fun _ h => h

/-! ### A link that goes down -/

/-- No link of this number is up. -/
def Shut (p : Nat) (s : State) : Prop := ∀ y ∈ s.ports, y.port = p → y.up = false

theorem portFor_up {s : State} {dev p : Nat} {via : Option Nat} (h : portFor s dev via = some p) : ∃ y ∈ s.ports, y.port = p ∧ y.up = true := by
  have hp := List.find?_some h
  simp only [Bool.and_eq_true, List.any_eq_true, beq_iff_eq] at hp
  exact hp.2
theorem portFor_ne {s : State} {dev p q : Nat} {via : Option Nat} (hs : Shut p s) (h : portFor s dev via = some q) : p ≠ q := fun hpq => by
  obtain ⟨y, hy, hport, hup⟩ := portFor_up h
  rw [hs y hy (hport.trans hpq.symm)] at hup
  exact Bool.noConfusion hup
theorem Shut.updPort {s : State} {p q : Nat} {f : Port → Port} (h : Shut p s) (hf : ∀ y, (f y).port = y.port ∧ (f y).up = y.up) : Shut p (updPort s q f) := fun y hy hp => by
  obtain ⟨z, hz, rfl⟩ := List.mem_map.mp hy
  obtain ⟨hport, hup⟩ := hf z
  split
  · next hq =>
    rw [if_pos hq, hport] at hp
    rw [hup]
    exact h z hz hp
  · next hq =>
    rw [if_neg hq] at hp
    exact h z hz hp
theorem Shut.routeMsg {s : State} {p : Nat} (h : Shut p s) (m : Msg) : Shut p (routeMsg s m) ∧ findPort (routeMsg s m) p = findPort s p := by
  unfold Machine.routeMsg
  split
  · next q hq =>
    refine ⟨?_, findPort_offerPort_ne s m (portFor_ne h hq)⟩
    unfold offerPort
    split
    · exact h
    · dsimp only
      split
      · exact h.updPort fun _ => ⟨rfl, rfl⟩
      · exact Shut.updPort (s := { s with fresh := s.fresh + (msgGranules m).length }) h fun _ => ⟨rfl, rfl⟩
  · exact ⟨h, rfl⟩
theorem Shut.foldl_routeMsg {s : State} {p : Nat} (h : Shut p s) (l : List Msg) : findPort (l.foldl Machine.routeMsg s) p = findPort s p := by
  induction l generalizing s with
  | nil => rfl
  | cons m l ih =>
    obtain ⟨hshut, hfind⟩ := h.routeMsg m
    exact (ih hshut).trans hfind
/-- A port whose link has gone down. -/
def downPort (x : Port) : Port := { x with up := false, retry := [], queue := [], retries := 0, retryAt := [] }
theorem shut_downPort (s : State) (p : Nat) : Shut p (updPort s p downPort) := fun y hy hp => by
  obtain ⟨z, -, rfl⟩ := List.mem_map.mp hy
  split
  · rfl
  · next hz =>
    rw [if_neg hz] at hp
    exact absurd hp hz
theorem portDown_eq {s : State} {p : Nat} {x : Port} (h : findPort s p = some x) (hup : x.up = true) :
    portDown s p = postAsync ((x.retry.map (·.msg) ++ x.queue).foldl routeMsg (updPort s p downPort)) 0x1EA (BitVec.ofNat 64 p) none := by
  simp only [portDown, h, hup, Bool.not_true, Bool.false_eq_true, if_false]
  rfl
theorem findPort_portDown {s : State} {p : Nat} {x : Port} (h : findPort s p = some x) (hup : x.up = true) : findPort (portDown s p) p = some (downPort x) := by
  rw [portDown_eq h hup, findPort_of_ports (posted_postAsync ..).ports, (shut_downPort s p).foldl_routeMsg]
  exact findPort_updPort_same h fun _ hy => hy

/-! ### A link that comes up -/

theorem linkDown_eq (s : State) (p : Nat) : exec (.linkDown p) s = .next (portDown s p) := rfl
theorem threshold_eq (s : State) : exec .linkRetryThreshold s
    = .next ((s.ports.filter (retryDue s)).foldl (fun t x => postAsync (updPort t x.port fun y => { y with retryAt := [] }) 0x1EB (BitVec.ofNat 64 x.port) none) s) := rfl
theorem linkUp_eq {s : State} {p : Nat} {x : Port} (h : findPort s p = some x) : exec (.linkUp p) s = if x.up || s.part.peeren.getLsbD p = false then .next s
    else .next (s.outbox.foldl routeMsg (updPort { s with outbox := [] } p fun _ => { Port.reset p with up := true })) := by
  change execLinkUp p s = _
  simp only [execLinkUp, h]
theorem linkUp_comes {s : State} {p : Nat} {x : Port} (h : findPort s p = some x) (hup : x.up = false) (hen : s.part.peeren.getLsbD p = true) :
    exec (.linkUp p) s = .next (s.outbox.foldl routeMsg (updPort { s with outbox := [] } p fun _ => { Port.reset p with up := true })) := by
  rw [linkUp_eq h, if_neg (by rw [hup, hen]; decide)]
theorem findPort_linkUp {s : State} {p : Nat} {x : Port} (h : findPort s p = some x) : findPort (updPort { s with outbox := [] } p fun _ => { Port.reset p with up := true }) p = some { Port.reset p with up := true } :=
  findPort_updPort_same (s := { s with outbox := [] }) h fun _ _ => rfl

/-! ### Acknowledgements and NAK -/

theorem nak_eq {s : State} {p : Nat} {x : Port} (q : BitVec 12) (h : findPort s p = some x) : let n := if q = x.acked then x.retries + 1 else 1
    let t := updPort (ackPort s p (q - 1)) p fun x => { x with retries := n, retryAt := x.retryAt ++ [s.clk] }
    exec (.nak p q) s = if !x.up || decide (x.retry.length ≤ (q - x.acked).toNat) then .next s else .next (if 8 ≤ n then portDown t p else t) := by
  change execNak p q s = _
  simp only [execNak, h]
theorem acked_port (x : Port) (a : BitVec 12) : (acked x a).port = x.port := by
  unfold acked
  dsimp only
  split <;> rfl
theorem acked_before {x : Port} {q : BitVec 12} (h : (q - x.acked).toNat < x.retry.length) :
    ∃ r, acked x (q - 1) = { x with acked := q, retry := x.retry.drop (q - x.acked).toNat, retries := r, dictOut := (x.retry.take (q - x.acked).toNat).foldl (fun d k => dictWrite d k.ins) x.dictOut } := by
  have hq : q - 1 - x.acked + 1 = q - x.acked := by bv_omega
  rw [acked, hq]
  by_cases h0 : (q - x.acked).toNat = 0
  · have hx : q = x.acked := by bv_omega
    refine ⟨x.retries, ?_⟩
    simp only [h0, true_or, if_true, List.drop_zero, List.take_zero, List.foldl_nil]
    rw [hx]
  · refine ⟨0, ?_⟩
    simp only [h0, Nat.not_lt.mpr (Nat.le_of_lt h), or_self, if_false, BitVec.ofNat_toNat, BitVec.setWidth_eq]
    rw [show x.acked + (q - x.acked) = q by bv_omega]
theorem findPort_ackPort {s : State} {p : Nat} {x : Port} {a : BitVec 12} (h : findPort s p = some x) (hq : (acked x a).queue = []) : findPort (ackPort s p a) p = some (acked x a) := by
  have hfind : findPort (updPort s p fun x => acked x a) p = some (acked x a) := findPort_updPort_same h fun y hy => (acked_port y a).trans hy
  rw [ackPort, drainPort, hfind]
  dsimp only
  rw [hq, List.foldl_nil, findPort_updPort_same hfind (by exact fun _ hy => hy), ← hq]
theorem nak_port {s : State} {p : Nat} {q : BitVec 12} {x : Port} {n : Nat} (h : findPort s p = some x) (hlt : (q - x.acked).toNat < x.retry.length) (hq : x.queue = []) :
    findPort (updPort (ackPort s p (q - 1)) p fun x => { x with retries := n, retryAt := x.retryAt ++ [s.clk] }) p
      = some { x with acked := q, retry := x.retry.drop (q - x.acked).toNat, retries := n, retryAt := x.retryAt ++ [s.clk], dictOut := (x.retry.take (q - x.acked).toNat).foldl (fun d k => dictWrite d k.ins) x.dictOut } := by
  obtain ⟨r, hacked⟩ := acked_before hlt
  have hport : findPort (ackPort s p (q - 1)) p = some (acked x (q - 1)) := findPort_ackPort h (by rw [hacked]; exact hq)
  rw [findPort_updPort_same hport (by exact fun _ hy => hy), hacked]
theorem sent_updPort (s : State) (p : Nat) (f : Port → Port) : Sent s (updPort s p f) := ⟨⟨_, _, _, rfl⟩⟩
theorem ackPort_own (s : State) (p : Nat) (a : BitVec 12) : ownDev (ackPort s p a) = ownDev s := by
  refine ownDev_of_mreg (Sent.traffic ?_ |>.mreg _)
  unfold ackPort drainPort
  split
  · exact sent_updPort ..
  · exact (sent_updPort ..).trans ((sent_updPort ..).trans (.foldl _ (fun t m => sent_offerPort t p m) _))

/-! ### A message at its port -/

theorem postMsg_port {s : State} {m : Msg} {p : Nat} {x : Port} (hlen : m.data.length ≤ 2560) (hroute : portFor s m.dst m.via = some p) (h : findPort s p = some x) :
    findPort (postMsg s m) p = some (if x.queue ≠ [] ∨ 1024 < retryFlits x + (packetOf (ownDev s) x s.fresh m).flits.length then { x with queue := x.queue ++ [m] }
      else { x with retry := x.retry ++ [packetOf (ownDev s) x s.fresh m], outSeq := x.outSeq + 1 }) := by
  simp only [postMsg, cutMsg, hlen, if_true, List.foldl_cons, List.foldl_nil, routeMsg, hroute, offerPort, h]
  split
  · exact findPort_updPort_same h fun _ hy => hy
  · exact findPort_updPort_same (s := { s with fresh := s.fresh + (msgGranules m).length }) h fun _ hy => hy
theorem packetOf_flits (own : Nat) (x : Port) (n : Nat) (m : Msg) : ∃ payload, (packetOf own x n m).flits = framePacket x.outSeq (x.inSeq - 1) m.dst (m.src.getD own) m.kind.toNat payload := ⟨_, rfl⟩

/-! ### Sixteen retries -/

/-- Ports numbered as one of a list forget their retries. -/
def forget (l : List Port) (y : Port) : Port := if l.any fun z => z.port == y.port then { y with retryAt := [] } else y
theorem forget_cons (z : Port) (l : List Port) (y : Port) : forget l (if y.port = z.port then { y with retryAt := [] } else y) = forget (z :: l) y := by
  unfold forget
  by_cases hy : y.port = z.port
  · simp only [hy, if_true, List.any_cons, beq_self_eq_true, Bool.true_or]
    split <;> rfl
  · simp only [hy, if_false, List.any_cons, beq_eq_false_iff_ne.mpr (Ne.symm hy), Bool.false_or]
theorem foldl_forget (l : List Port) (s : State) :
    (l.foldl (fun t z => postAsync (updPort t z.port fun x => { x with retryAt := [] }) 0x1EB (BitVec.ofNat 64 z.port) none) s).ports = s.ports.map (forget l) := by
  induction l generalizing s with
  | nil => exact (List.map_id _).symm
  | cons z l ih =>
    rw [List.foldl_cons, ih, (posted_postAsync ..).ports, updPort, List.map_map]
    exact List.map_congr_left fun y _ => forget_cons z l y

/-! ### Flits and headers -/

/-- The 60 bytes that a flit carries for up to 60 bytes. -/
def pad60 (bs : List Byte) : List Byte := bs ++ List.replicate (60 - bs.length) 0
theorem pad60_length {bs : List Byte} (h : bs.length ≤ 60) : (pad60 bs).length = 60 := by
  rw [pad60, List.length_append, List.length_replicate]
  omega
theorem flit_eq (bs : List Byte) : flit bs = pad60 bs ++ leBytes 4 (crc32c (pad60 bs)).toNat := rfl
theorem flit_take {bs : List Byte} (h : bs.length ≤ 60) : (flit bs).take 60 = pad60 bs := by
  rw [flit_eq, List.take_append_of_le_length (Nat.le_of_eq (pad60_length h).symm), List.take_of_length_le (Nat.le_of_eq (pad60_length h))]
theorem flit_good {bs : List Byte} (h : bs.length ≤ 60) : (flit bs).length = 64 ∧ flitGood (flit bs) = true := by
  have hlen : (flit bs).length = 64 := by rw [flit_eq, List.length_append, pad60_length h, leBytes_length]
  have hdrop : (flit bs).drop 60 = leBytes 4 (crc32c (pad60 bs)).toNat := by
    rw [flit_eq, List.drop_append_of_le_length (Nat.le_of_eq (pad60_length h).symm), List.drop_of_length_le (Nat.le_of_eq (pad60_length h)), List.nil_append]
  refine ⟨hlen, ?_⟩
  rw [flitGood, hlen, hdrop, flit_take h, leNat_leBytes, Nat.mod_eq_of_lt (show (crc32c (pad60 bs)).toNat < 256 ^ 4 from (crc32c (pad60 bs)).isLt)]
  simp only [decide_true, Bool.and_self]
/-- Cut into chunks of 60 bytes, the last filled up, bytes stand one after the other again. -/
theorem flatMap_chunks (n : Nat) (bs : List Byte) (h : bs.length ≤ 60 * n) :
    ((List.range n).flatMap fun i => pad60 ((bs.drop (60 * i)).take 60)) = bs ++ List.replicate (60 * n - bs.length) 0 := by
  induction n generalizing bs with
  | zero =>
    have hnil : bs = [] := List.length_eq_zero_iff.mp (by omega)
    rw [hnil]
    rfl
  | succ n ih =>
    have hrest := ih (bs.drop 60) (by rw [List.length_drop]; omega)
    have hshift : ∀ i, bs.drop (60 * (i + 1)) = (bs.drop 60).drop (60 * i) := fun i => by rw [List.drop_drop, Nat.mul_succ, Nat.add_comm]
    simp only [List.range_succ_eq_map, List.flatMap_cons, List.flatMap_map, hshift, hrest, Nat.mul_zero, List.drop_zero, List.length_drop]
    by_cases hlong : 60 ≤ bs.length
    · have htake : pad60 (bs.take 60) = bs.take 60 := by rw [pad60, List.length_take, Nat.min_eq_left hlong, Nat.sub_self, List.replicate_zero, List.append_nil]
      rw [htake, ← List.append_assoc, List.take_append_drop]
      congr 2
      omega
    · rw [List.take_of_length_le (by omega), List.drop_of_length_le (by omega), List.nil_append, pad60, List.append_assoc, List.replicate_append_replicate]
      congr 2
      omega
/-- The flits of a frame. -/
def frameFlits (payload : List Byte) : Nat := (8 + payload.length + 59) / 60
/-- The header word of a frame. -/
def frameHeader (lseq ack : BitVec 12) (dst src kind : Nat) (payload : List Byte) : Nat :=
  lseq.toNat * 2 ^ 52 + ack.toNat * 2 ^ 40 + dst % 64 * 2 ^ 34 + src % 64 * 2 ^ 28 + (frameFlits payload - 1) * 2 ^ 22 + kind % 64 * 2 ^ 16 + payload.length
section
variable (lseq ack : BitVec 12) {dst src kind : Nat} {payload : List Byte}

theorem framePacket_eq (dst src kind : Nat) (payload : List Byte) : framePacket lseq ack dst src kind payload
    = (List.range (frameFlits payload)).map fun i => flit (((leBytes 8 (frameHeader lseq ack dst src kind payload) ++ payload).drop (60 * i)).take 60) := rfl
theorem framePacket_good (dst src kind : Nat) (payload : List Byte) : ∀ f ∈ framePacket lseq ack dst src kind payload, f.length = 64 ∧ flitGood f = true := fun f hf => by
  rw [framePacket_eq] at hf
  obtain ⟨i, -, rfl⟩ := List.mem_map.mp hf
  exact flit_good (List.length_take_le ..)
theorem framePacket_bytes (dst src kind : Nat) (payload : List Byte) : ∃ n, (framePacket lseq ack dst src kind payload).flatMap (·.take 60) = leBytes 8 (frameHeader lseq ack dst src kind payload) ++ payload ++ List.replicate n 0 := by
  have htake : ∀ i, (flit (((leBytes 8 (frameHeader lseq ack dst src kind payload) ++ payload).drop (60 * i)).take 60)).take 60 = pad60 (((leBytes 8 (frameHeader lseq ack dst src kind payload) ++ payload).drop (60 * i)).take 60) :=
    fun i => flit_take (List.length_take_le ..)
  rw [framePacket_eq, List.flatMap_map]
  simp only [htake]
  exact ⟨_, flatMap_chunks _ _ (by rw [List.length_append, leBytes_length, frameFlits]; omega)⟩
theorem frameHeader_fields (hd : dst < 64) (hs : src < 64) (hk : kind < 64) (hp : payload.length ≤ 3832) : let h := frameHeader lseq ack dst src kind payload
    h < 2 ^ 64 ∧ h / 2 ^ 52 % 2 ^ 12 = lseq.toNat ∧ h / 2 ^ 40 % 2 ^ 12 = ack.toNat ∧ h / 2 ^ 34 % 64 = dst ∧ h / 2 ^ 28 % 64 = src ∧ h / 2 ^ 22 % 64 + 1 = frameFlits payload ∧ h / 2 ^ 16 % 64 = kind ∧ h % 2 ^ 16 = payload.length := by
  have hl := lseq.isLt
  have ha := ack.isLt
  have hn : 1 ≤ frameFlits payload ∧ frameFlits payload ≤ 64 := by
    rw [frameFlits]
    omega
  simp only [frameHeader, Nat.mod_eq_of_lt hd, Nat.mod_eq_of_lt hs, Nat.mod_eq_of_lt hk]
  generalize frameFlits payload = n at *
  refine ⟨?_, ?_, ?_, ?_, ?_, ?_, ?_, ?_⟩ <;> omega
theorem openPacket_framePacket (hd : dst < 64) (hs : src < 64) (hk : kind < 64) (hp : payload.length ≤ 3832) :
    openPacket (framePacket lseq ack dst src kind payload) = some (BitVec.ofNat 64 (frameHeader lseq ack dst src kind payload), payload) := by
  obtain ⟨hlt, -, -, -, -, hflits, -, hlen⟩ := frameHeader_fields lseq ack hd hs hk hp
  obtain ⟨n, hbytes⟩ := framePacket_bytes lseq ack dst src kind payload
  have hnum : (framePacket lseq ack dst src kind payload).length = frameFlits payload := by rw [framePacket_eq, List.length_map, List.length_range]
  generalize hh : frameHeader lseq ack dst src kind payload = h at *
  have hword : (BitVec.ofNat 64 h).toNat = h := by rw [BitVec.toNat_ofNat, Nat.mod_eq_of_lt hlt]
  have h1 : fldN (BitVec.ofNat 64 h) 27 22 + 1 = frameFlits payload := by rw [fldN, hword, Nat.shiftRight_eq_div_pow]; exact hflits
  have h2 : fldN (BitVec.ofNat 64 h) 15 0 = payload.length := by rw [fldN, hword]; exact hlen
  have htake : (leBytes 8 h ++ payload ++ List.replicate n 0).take 8 = leBytes 8 h := by
    rw [List.append_assoc, List.take_append_of_le_length (by rw [leBytes_length]), List.take_of_length_le (by rw [leBytes_length])]
  have hdrop : ((leBytes 8 h ++ payload ++ List.replicate n 0).drop 8).take payload.length = payload := by
    rw [List.append_assoc, List.drop_append_of_le_length (by rw [leBytes_length]), List.drop_of_length_le (by rw [leBytes_length]), List.nil_append, List.take_append_of_le_length (Nat.le_refl _), List.take_length]
  have hbig : 8 + payload.length ≤ 60 * frameFlits payload := by
    rw [frameFlits]
    omega
  simp only [openPacket, hbytes, htake, leNat_leBytes, Nat.mod_eq_of_lt (show h < 256 ^ 8 from hlt), h1, h2, hnum, hdrop, hbig, and_self, if_true]
theorem framePacket_opens (hd : dst < 64) (hs : src < 64) (hk : kind < 64) (hp : payload.length ≤ 3832) :
    ∃ h, openPacket (framePacket lseq ack dst src kind payload) = some (h, payload) ∧ h.extractLsb' 52 12 = lseq ∧ h.extractLsb' 40 12 = ack
        ∧ h.toNat / 2 ^ 34 % 64 = dst ∧ h.toNat / 2 ^ 28 % 64 = src ∧ h.toNat / 2 ^ 16 % 64 = kind := by
  obtain ⟨hlt, hlseq, hack, hdst, hsrc, -, hkind, -⟩ := frameHeader_fields lseq ack hd hs hk hp
  refine ⟨_, openPacket_framePacket lseq ack hd hs hk hp, ?_⟩
  generalize frameHeader lseq ack dst src kind payload = h at *
  have hword : (BitVec.ofNat 64 h).toNat = h := by rw [BitVec.toNat_ofNat, Nat.mod_eq_of_lt hlt]
  refine ⟨BitVec.eq_of_toNat_eq ?_, BitVec.eq_of_toNat_eq ?_, ?_, ?_, ?_⟩
  · rw [BitVec.extractLsb'_toNat, hword, Nat.shiftRight_eq_div_pow, hlseq]
  · rw [BitVec.extractLsb'_toNat, hword, Nat.shiftRight_eq_div_pow, hack]
  · rw [hword, hdst]
  · rw [hword, hsrc]
  · rw [hword, hkind]
end

/-! ### Packets -/

theorem packet_eq {s : State} {p : Nat} {x : Port} (head rest : List Byte) (more : List (List Byte)) (h : findPort s p = some x) : let fs := (head ++ rest) :: more
    exec (.packet p head rest more) s = if !x.up then .next s else if !fs.all flitGood then .next (updPort s p fun x => { x with naks := x.naks ++ [x.inSeq] }) else match openPacket fs with
      | none => .next s
      | some (h, payload) => if fld h 63 52 ≠ x.inSeq then .next (ackPort s p (fld h 51 40)) else match decodePayload x.dictIn payload with
        | none => .next (portDown (ackPort s p (fld h 51 40)) p)
        | some d => .next (acceptPacket (ackPort s p (fld h 51 40)) p h d) := by
  change execPacket p head rest more s = _
  simp only [execPacket, h] <;> rfl
theorem acceptPacket_eq (s : State) (p : Nat) (h : DWord) (d : Decoded) : let u := updPort s p fun x => { x with inSeq := x.inSeq + 1, dictIn := dictWrite x.dictIn d.ins }
    acceptPacket s p h d = if h.toNat / 2 ^ 34 % 64 = ownDev s then ownMessage u (h.toNat / 2 ^ 28 % 64) (h.toNat / 2 ^ 16 % 64) d.granules else postMsg u {
        dst := h.toNat / 2 ^ 34 % 64, src := some (h.toNat / 2 ^ 28 % 64), via := some p, kind := BitVec.ofNat 6 (h.toNat / 2 ^ 16 % 64), page := 0, seq := 0, aux := 0, data := d.granules.flatMap fun g => leBytes 16 g.toNat
        caps := (List.range d.granules.length).map fun i => BitVec.ofNat 16 (leNat ((d.rest.drop (2 * i)).take 2)) } := by
  simp only [acceptPacket, fldN, Nat.shiftRight_eq_div_pow, Nat.reduceSub, Nat.reduceAdd, Nat.reducePow]

section
variable {s : State} {p : Nat} {head rest : List Byte} {more : List (List Byte)} {x : Port}

theorem packet_down (h : findPort s p = some x) (hup : x.up = false) : exec (.packet p head rest more) s = .next s := by
  rw [packet_eq head rest more h]
  simp only [hup, Bool.not_false, if_true]
theorem packet_bad (h : findPort s p = some x) (hup : x.up = true) (hbad : ∃ f ∈ (head ++ rest) :: more, flitGood f = false) : exec (.packet p head rest more) s = .next (updPort s p fun x => { x with naks := x.naks ++ [x.inSeq] }) := by
  have hall : ((head ++ rest) :: more).all flitGood = false := List.all_eq_false.mpr (by simpa using hbad)
  rw [packet_eq head rest more h]
  rw [hall]
  simp only [hup, Bool.not_true, Bool.not_false, Bool.false_eq_true, if_true, if_false]
theorem packet_good (h : findPort s p = some x) (hup : x.up = true) (hgood : ∀ f ∈ (head ++ rest) :: more, flitGood f = true) : exec (.packet p head rest more) s = match openPacket ((head ++ rest) :: more) with
      | none => .next s
      | some (h, payload) => if h.extractLsb' 52 12 ≠ x.inSeq then .next (ackPort s p (h.extractLsb' 40 12)) else match decodePayload x.dictIn payload with
        | none => .next (portDown (ackPort s p (h.extractLsb' 40 12)) p)
        | some d => .next (acceptPacket (ackPort s p (h.extractLsb' 40 12)) p h d) := by
  rw [packet_eq head rest more h]
  rw [List.all_eq_true.mpr hgood]
  simp only [hup, Bool.not_true, Bool.false_eq_true, if_false]
  rfl
end

/-- Settles O58: what a packet and a NAK do by their cases, the frame of a message and its opening, a message at its port, and a link going down or coming up. -/
theorem links : Obligations.Links := by
  unfold Obligations.Links
  refine ⟨fun s p head rest more x h hup => ⟨packet_bad h hup, fun hgood hopen => ?_, fun hd payload hgood hopen => ?_⟩, fun s p head rest more x h hup => packet_down h hup,
    fun lseq ack dst src kind payload hd hs hk hp => ⟨framePacket_good lseq ack dst src kind payload, framePacket_opens lseq ack hd hs hk hp⟩,
    fun s m p x hlen hroute h => ⟨fun hq hroom => ⟨?_, rfl, packetOf_flits ..⟩, fun hfull => ?_⟩, fun s p q x h => ⟨fun hup hlt hn => ⟨?_, nak_port h hlt⟩, fun hup hlt hn => ?_, fun hno => ?_⟩,
    fun s x hone => ?_, fun s => ⟨_, threshold_eq s, ?_⟩, fun s p x h hup => ⟨_, downPort x, linkDown_eq s p, findPort_portDown h hup, rfl, rfl⟩, fun s p x h hup => ⟨_, ?_, rfl⟩,
    fun s p x h hup hen hout => ⟨_, _, linkUp_comes h hup hen, ?_, rfl⟩, fun s p x h => ⟨fun hup hen => linkUp_comes h hup hen, fun hno => ?_⟩⟩
  · rw [packet_good h hup hgood, hopen]
  · dsimp only
    rw [packet_good h hup hgood, hopen]
    dsimp only
    refine ⟨fun hseq => if_pos hseq, fun hseq hdec => ?_, fun d hseq hdec => ?_⟩
    · rw [if_neg (not_not_intro hseq), hdec]
    · rw [if_neg (not_not_intro hseq), hdec]
      dsimp only
      rw [acceptPacket_eq, ackPort_own]
      exact ⟨fun hown => by rw [if_pos hown], fun hown => by rw [if_neg hown]⟩
  · rw [postMsg_port hlen hroute h, if_neg (by rw [not_or, not_not, Nat.not_lt]; exact ⟨hq, hroom⟩)]
  · rw [postMsg_port hlen hroute h, if_pos hfull]
  · rw [nak_eq q h]
    simp only [hup, Bool.not_true, Bool.false_or, decide_eq_true_eq, Nat.not_le.mpr hlt, Nat.not_le.mpr hn, if_false]
  · rw [nak_eq q h]
    simp only [hup, Bool.not_true, Bool.false_or, decide_eq_true_eq, Nat.not_le.mpr hlt, hn, if_true, if_false]
  · rw [nak_eq q h]
    have hskip : (!x.up || decide (x.retry.length ≤ (q - x.acked).toNat)) = true := by simpa using hno
    simp only [hskip, if_true]
  · rw [threshold_eq, hone, List.foldl_cons, List.foldl_nil]
  · rw [foldl_forget]
    refine List.map_congr_left fun y _ => ?_
    rw [forget, List.any_filter]
  · rw [linkDown_eq, portDown_eq h hup]
    rfl
  · rw [hout]
    exact findPort_linkUp h
  · rw [linkUp_eq h]
    exact if_pos (by simpa using hno)
end Sys2Proof.Machine
end

section
/-! Temperature, power, dies, start-up and machine checks (15 R428 to R433, 08 R194, 13 R354). Obligation O56. -/

namespace Sys2Proof.Machine

/-! ### What posting leaves as it was -/

section
variable {s t : State}

theorem Posted.dieAlarm (h : Posted s t) : t.dieAlarm = s.dieAlarm := by obtain ⟨m, sy, c, hl, r, mr, mg, n, rfl⟩ := h.rest; rfl
theorem Posted.dieOff (h : Posted s t) : t.dieOff = s.dieOff := by obtain ⟨m, sy, c, hl, r, mr, mg, n, rfl⟩ := h.rest; rfl
theorem Posted.groups (h : Posted s t) : t.groups = s.groups := by obtain ⟨m, sy, c, hl, r, mr, mg, n, rfl⟩ := h.rest; rfl
theorem Posted.part (h : Posted s t) : t.part = s.part := by obtain ⟨m, sy, c, hl, r, mr, mg, n, rfl⟩ := h.rest; rfl
theorem Posted.measure (h : Posted s t) : t.measure = s.measure := by obtain ⟨m, sy, c, hl, r, mr, mg, n, rfl⟩ := h.rest; rfl
theorem Posted.foldl {α : Type} {f : State → α → State} (l : List α) (hf : ∀ t a, Posted t (f t a)) (s : State) : Posted s (l.foldl f s) := by
  induction l generalizing s with
  | nil => exact .refl s
  | cons a l ih => exact (hf s a).trans (ih _)
/-- The registers of the sensors stand beyond those that posting writes. -/
theorem Posted.sensor (h : Posted s t) {off : Nat} (hoff : 0x100 ≤ off) : mreg t off = mreg s off := by
  refine h.regs off ?_ ?_
  · rw [show Reg.MWAKE = 0xA8 from rfl]
    omega
  · rw [show Reg.ERRWIDX = 0x90 from rfl]
    omega
end
theorem posted_postLost (s : State) (ls : List CombLine) : Posted s (postLost s ls) := .foldl _ (fun _ _ => posted_postAsync ..) s
theorem mreg_lt (s : State) (off : Nat) : mreg s off < 2 ^ 64 := BitVec.isLt _

/-! ### Columns (R428) -/

theorem headClass_le (s : State) (x : Int) : headClass s x ≤ 3 := by
  unfold headClass
  split
  · exact Nat.zero_le 3
  · split
    · decide
    · split <;> decide
theorem nextClass_le {s : State} {old : Nat} {x : Int} (h : old < 4) : nextClass s old x ≤ 3 := by
  unfold nextClass
  split
  · exact headClass_le ..
  · exact Nat.max_le.mpr ⟨Nat.le_of_lt_succ h, headClass_le ..⟩
theorem takeHot_asked (n : Nat) (k : Workgroup) : (takeHot n k).take.isSome = true := by
  unfold takeHot
  split
  · rfl
  · rfl
  · rfl
  · next h _ _ => exact Option.isSome_iff_ne_none.mpr h
theorem takeHot_same (n : Nat) (k : Workgroup) : (takeHot n k).core = k.core ∧ (takeHot n k).st = k.st := by
  unfold takeHot
  split <;> exact ⟨rfl, rfl⟩
theorem takePair_asked {s : State} {c : Nat} {x : Workgroup} (hx : x ∈ (takePair s c).wgs) (hc : x.core / 2 = c) (hst : x.st = .resident) : x.take.isSome = true := by
  obtain ⟨k, -, rfl⟩ := List.mem_map.mp hx
  by_cases hk : k.core / 2 = c ∧ k.st = .resident
  · rw [if_pos hk]
    exact takeHot_asked ..
  · rw [if_neg hk] at hc hst
    exact absurd ⟨hc, hst⟩ hk
theorem takePair_mreg (s : State) (c off : Nat) : mreg (takePair s c) off = mreg s off := rfl
theorem colRead_reads (s : State) {c : Nat} (v : BitVec 16) (hc : c < 1024) : let old := mreg s (Reg.COLSTAT + 8 * c) / 65536 % 4
    let k := nextClass s old v.toInt
    mreg (colRead s c v) (Reg.COLSTAT + 8 * c) = v.toNat + 65536 * k ∧ (k = 0 → old ≠ 0 → ∀ x ∈ (colRead s c v).wgs, x.core / 2 = c → x.st = .resident → x.take.isSome = true) := by
  dsimp only
  have hk : nextClass s (mreg s (Reg.COLSTAT + 8 * c) / 65536 % 4) v.toInt ≤ 3 := nextClass_le (Nat.mod_lt _ (by decide))
  have hv := v.isLt
  rw [colRead, if_neg (by omega)]
  dsimp only
  generalize nextClass s (mreg s (Reg.COLSTAT + 8 * c) / 65536 % 4) v.toInt = k at hk
  have hoff : 0x100 ≤ Reg.COLSTAT + 8 * c := Nat.le_add_right_of_le (by decide)
  generalize Reg.COLSTAT + 8 * c = off at hoff
  have hset : mreg (setMreg s off (v.toNat + 65536 * k)) off = v.toNat + 65536 * k := by
    rw [mreg_setMreg, if_pos rfl, Nat.mod_eq_of_lt (by omega)]
  generalize setMreg s off (v.toNat + 65536 * k) = t at hset
  have htake : mreg (takePair (postAsync t 0x1F8 (BitVec.ofNat 64 c) none) c) off = v.toNat + 65536 * k := by rw [takePair_mreg, (posted_postAsync t 0x1F8 (BitVec.ofNat 64 c) none).sensor hoff, hset]
  refine ⟨?_, fun h0 hold => ?_⟩
  · split
    · exact htake
    · exact hset
  · rw [if_pos ⟨h0, hold⟩]
    exact fun x hx => takePair_asked hx

/-! ### The governor (R429) -/

theorem governor_eq (s : State) (p : Nat) : exec (.governorInterval p) s = .next { setMreg (setMreg s Reg.PWRNOW p) Reg.GOVHOLD
      (if mreg s Reg.PWRLIM < p then min 7 (mreg s Reg.GOVHOLD % 8 + 1) else if 100 * p < 95 * mreg s Reg.PWRLIM then mreg s Reg.GOVHOLD % 8 - 1 else mreg s Reg.GOVHOLD % 8)
    with govTicks := if mreg s Reg.GOVHOLD % 8 = 7 ∧ (if mreg s Reg.PWRLIM < p then min 7 (mreg s Reg.GOVHOLD % 8 + 1) else if 100 * p < 95 * mreg s Reg.PWRLIM then mreg s Reg.GOVHOLD % 8 - 1 else mreg s Reg.GOVHOLD % 8) = 7
      then s.govTicks + 1 else 0 } := rfl
theorem governor_step (s : State) {p : Nat} (hp : p < 2 ^ 64) : let h' := if mreg s Reg.PWRLIM < p then min 7 (mreg s Reg.GOVHOLD % 8 + 1) else if 100 * p < 95 * mreg s Reg.PWRLIM then mreg s Reg.GOVHOLD % 8 - 1 else mreg s Reg.GOVHOLD % 8
    ∃ t, exec (.governorInterval p) s = .next t ∧ mreg t Reg.PWRNOW = p ∧ mreg t Reg.GOVHOLD = h' ∧ t.govTicks = if mreg s Reg.GOVHOLD % 8 = 7 ∧ h' = 7 then s.govTicks + 1 else 0 := by
  intro h'
  have hlt : h' < 2 ^ 64 := by
    have hle : h' ≤ 7 := by
      dsimp only [h']
      split
      · exact Nat.min_le_left ..
      · split <;> omega
    omega
  have hnow : mreg (setMreg (setMreg s Reg.PWRNOW p) Reg.GOVHOLD h') Reg.PWRNOW = p := by rw [mreg_setMreg, if_neg (by decide), mreg_setMreg, if_pos rfl, Nat.mod_eq_of_lt hp]
  have hhold : mreg (setMreg (setMreg s Reg.PWRNOW p) Reg.GOVHOLD h') Reg.GOVHOLD = h' := by rw [mreg_setMreg, if_pos rfl, Nat.mod_eq_of_lt hlt]
  exact ⟨_, governor_eq s p, hnow, hhold, rfl⟩
theorem holdLimit_eq (s : State) : exec .governorHoldLimit s = .next (if 100 ≤ s.govTicks ∧ mreg s Reg.PWRLIM < mreg s Reg.PWRNOW then postAsync { s with govTicks := 0 } 0x1F9 (BitVec.ofNat 64 (mreg s Reg.PWRNOW)) none else s) := by
  change execGovernorHoldLimit s = _
  simp only [execGovernorHoldLimit, holdDue, decide_eq_true_eq]

/-! ### Comb lines (08 R194) -/

theorem combLineError_eq {s : State} {line : Nat} (hcap : 128 * line + 128 ≤ hbmCap s) : exec (.combLineError line) s = match versionsOf s line with
    | (k, v) :: _ => .next (versionLost s k v)
    | [] => match s.comb.find? fun c => c.line == line with
      | none => .next s
      | some c => if c.dirty ≠ 0 || unshadowed s line then .next (postAsync (poisonLine s line) 0x1E5 (BitVec.ofNat 64 (lineOwnerId s line)) none) else .next (combGone s line) := by
  change execCombLineError line s = _
  rewrite [execCombLineError, if_neg (Nat.not_lt.mpr hcap)]
  cases versionsOf s line <;> rfl
theorem foldl_endResv_synd (l : List Nat) (p : Nat → Bool) (line : Nat) (who : Option Agent) (s : State) : (l.foldl (fun t j => if p j then endResv t (8 * line + j) who else t) s).memSynd = s.memSynd := by
  induction l generalizing s with
  | nil => rfl
  | cons j l ih =>
    rw [List.foldl_cons, ih]
    split <;> rfl
theorem get_foldl_set {l : List Nat} {p : Nat → Bool} {f : Nat → Nat} {g : Nat} (m : SMap 16) (h : ∀ j ∈ l, p j = true → f j ≠ g) : (l.foldl (fun m j => if p j then SMap.set m (f j) 0 else m) m).get g = m.get g := by
  induction l generalizing m with
  | nil => rfl
  | cons j l ih =>
    obtain ⟨hj, hl⟩ := List.forall_mem_cons.mp h
    rw [List.foldl_cons, ih _ hl]
    split
    · next hp => exact SMap.get_set_of_ne m 0 (Ne.symm (hj hp))
    · rfl
theorem homeMerge_synd {s : State} {line g : Nat} {mask : BitVec 128} (d : BitVec 1024) (key : BitVec 16) (who : Option Agent) (h : ∀ j ∈ List.range 8, granMask mask j = 0xFFFF → 8 * line + j ≠ g) :
    (homeMerge s line mask d key who).memSynd.get g = s.memSynd.get g := by
  unfold homeMerge
  split
  · rfl
  · have hres := foldl_endResv_synd (List.range 8) (fun j => decide (granMask mask j ≠ 0)) line who
    have hset := get_foldl_set (p := fun j => decide (granMask mask j = 0xFFFF)) s.memSynd fun j hj hp => h j hj (of_decide_eq_true hp)
    simp only [decide_eq_true_eq] at hres hset
    exact (congrArg (SMap.get · g) (hres _)).trans hset
theorem homeWrite_granule (s : State) (g : Nat) {bs : List Byte} (hlen : bs.length = 16) (key : BitVec 16) (who : Option Agent) : homeWrite s (16 * g) bs key who = homeMerge s (g / 8) (byteMask (16 * (g % 8)) 16) (lineOf bs <<< (8 * (16 * (g % 8)))) key who := by
  have hline : 16 * g / 128 = g / 8 := by omega
  have hofs : 16 * g % 128 = 16 * (g % 8) := by omega
  obtain ⟨b, r, rfl⟩ := List.exists_cons_of_length_pos (show 0 < bs.length by omega)
  rw [homeWrite, hlen]
  simp only [cutLines, hline, hofs]
  rw [List.take_of_length_le (by omega), List.drop_of_length_le (by omega)]
  simp only [List.foldl_cons, List.foldl_nil, hlen]
theorem poisonGranule_synd (s : State) (g h : Nat) : (poisonGranule s g).memSynd.get h = if h = g then 0xFFFF else s.memSynd.get h := by
  rw [poisonGranule, homeWrite_granule s g List.length_replicate]
  dsimp only
  rw [SMap.get_set]
  split
  · rfl
  · next hne =>
    refine homeMerge_synd _ _ _ fun j hj hfull heq => hne ?_
    have hbit : (granMask (byteMask (16 * (g % 8)) 16) j).getLsbD 0 = true := by
      rw [hfull]
      rfl
    have hj : j < 8 := List.mem_range.mp hj
    rw [granMask, BitVec.getLsbD_extractLsb', byteMask_get _ _ _ (by omega)] at hbit
    simp only [Nat.add_zero, Bool.and_eq_true, decide_eq_true_eq] at hbit
    omega
theorem foldl_poison_synd (line n : Nat) (s : State) {j : Nat} (hj : j < n) : ((List.range n).foldl (fun t j => poisonGranule t (8 * line + j)) s).memSynd.get (8 * line + j) = 0xFFFF := by
  induction n with
  | zero => exact absurd hj (Nat.not_lt_zero j)
  | succ n ih =>
    rw [List.range_succ, List.foldl_append, List.foldl_cons, List.foldl_nil, poisonGranule_synd]
    split
    · rfl
    · exact ih (by omega)
theorem poisonLine_synd (s : State) (line : Nat) {j : Nat} (hj : j < 8) : (poisonLine s line).memSynd.get (8 * line + j) = 0xFFFF := foldl_poison_synd line 8 s hj

/-! ### Dies (R428, R430, R431) -/

theorem traffic_poisonGranule (s : State) (g : Nat) : Traffic s (poisonGranule s g) := (traffic_homeWrite ..).withSynd _
theorem Traffic.withComb {s t : State} (h : Traffic s t) (c : List CombLine) : Traffic s { t with comb := c } := by
  obtain ⟨_, _, _, _, _, _, _, _, _, _, _, _, rfl⟩ := h.rest
  exact ⟨⟨_, _, _, _, _, _, _, _, _, _, _, _, rfl⟩⟩
theorem Traffic.groups {s t : State} (h : Traffic s t) : t.groups = s.groups := by obtain ⟨_, _, _, _, _, _, _, _, _, _, _, _, rfl⟩ := h.rest; rfl
theorem Traffic.dieOff {s t : State} (h : Traffic s t) : t.dieOff = s.dieOff := by obtain ⟨_, _, _, _, _, _, _, _, _, _, _, _, rfl⟩ := h.rest; rfl
theorem traffic_poisonLine (s : State) (line : Nat) : Traffic s (poisonLine s line) := (Traffic.foldl _ (fun t j => traffic_poisonGranule t (8 * line + j)) s).withComb _
theorem traffic_combRevert (s : State) (l : CombLine) : Traffic s (combRevert s l) := ⟨⟨_, _, _, _, _, _, _, _, _, _, _, _, rfl⟩⟩

theorem dieAlarmed_posted (s : State) (d : Nat) : ∃ c, Posted { s with comb := c, dieAlarm := s.dieAlarm ++ [(d, s.clk)] } (dieAlarmed s d) := ⟨_, posted_postLost ..⟩
theorem dieRead_alarm {s : State} {d : Nat} {v : BitVec 16} (hd : d < 16) (hrun : mreg s (Reg.DIESTAT + 8 * d) / 65536 % 4 = 0) (hhot : tlim s 3 ≤ v.toInt) :
    mreg (dieRead s d v) (Reg.DIESTAT + 8 * d) / 65536 % 4 = 1 ∧ (dieRead s d v).dieAlarm = s.dieAlarm ++ [(d, s.clk)] := by
  have hold := mreg_lt s (Reg.DIESTAT + 8 * d)
  have hv := v.isLt
  have hoff : 0x100 ≤ Reg.DIESTAT + 8 * d := Nat.le_add_right_of_le (by decide)
  rw [dieRead, if_neg (by omega)]
  dsimp only
  rw [if_pos ⟨hrun, hhot⟩]
  generalize Reg.DIESTAT + 8 * d = off at *
  generalize mreg s off = old at *
  have hset : mreg (setMreg (setMreg s off (old / 65536 * 65536 + v.toNat)) off (old / 2 ^ 18 * 2 ^ 18 + 65536 + v.toNat)) off / 65536 % 4 = 1 := by
    have hq : old / 2 ^ 18 < 2 ^ 46 := by omega
    generalize old / 2 ^ 18 = q at hq
    have hlt : q * 2 ^ 18 + 65536 + v.toNat < 2 ^ 64 := by omega
    rw [mreg_setMreg, if_pos rfl, Nat.mod_eq_of_lt hlt]
    omega
  obtain ⟨c, hposted⟩ := dieAlarmed_posted (setMreg (setMreg s off (old / 65536 * 65536 + v.toNat)) off (old / 2 ^ 18 * 2 ^ 18 + 65536 + v.toNat)) d
  refine ⟨?_, hposted.dieAlarm⟩
  rw [hposted.sensor hoff]
  exact hset
theorem traffic_reverts (l : List CombLine) (s : State) : Traffic s (l.foldl combRevert s) := .foldl l traffic_combRevert s
theorem traffic_poisonLines (l : List CombLine) (s : State) : Traffic s (l.foldl (fun t c => poisonLine t c.line) s) := .foldl l (fun t c => traffic_poisonLine t c.line) s
theorem posted_slices (l : List Nat) (s : State) : Posted s (l.foldl (fun t x => postAsync t 0x1FD (BitVec.ofNat 64 x) none) s) := .foldl l (fun _ _ => posted_postAsync ..) s
theorem rehomed_dieOff (s : State) (off v : Nat) : (rehome (setMreg s off v)).dieOff = s.dieOff := rfl
theorem rehomed_groups (s : State) (off v : Nat) : (rehome (setMreg s off v)).groups = s.groups := rfl
theorem powerOff_leaves (s : State) (d : Nat) : (powerOff s d).dieOff = d :: s.dieOff ∧ (powerOff s d).groups = s.groups.filter fun g => sliceDie g.slice != d := by
  generalize hu : powerOff s d = u
  unfold powerOff at hu
  dsimp only at hu
  generalize (s.comb.filter fun c => sliceDie c.slice == d) = mine at hu
  generalize (mine.filter fun c => !c.lost && unshadowed s c.line) = late at hu
  have hhome : Traffic s (late.foldl (fun t c => poisonLine t c.line) ((mine.filter (·.lost)).foldl combRevert s)) := (traffic_reverts _ s).trans (traffic_poisonLines late _)
  generalize late.foldl (fun t c => poisonLine t c.line) ((mine.filter (·.lost)).foldl combRevert s) = t at hhome hu
  generalize ((s.groups.filter fun g => sliceDie g.slice == d).map (·.slice)).eraseDups = slices at hu
  rw [← hhome.dieOff, ← hhome.groups]
  rw [← hu]
  refine ⟨?_, ?_⟩
  · rw [(posted_postAsync ..).dieOff, (posted_slices slices _).dieOff, (posted_postLost ..).dieOff, rehomed_dieOff]
  · rw [(posted_postAsync ..).groups, (posted_slices slices _).groups, (posted_postLost ..).groups, rehomed_groups]
theorem foldl_powerOff (l : List (Nat × Nat)) (s : State) : (l.foldl (fun t x => powerOff t x.1) s).dieOff = (l.map (·.1)).reverse ++ s.dieOff
    ∧ (l.foldl (fun t x => powerOff t x.1) s).groups = s.groups.filter fun g => l.all fun x => sliceDie g.slice != x.1 := by
  induction l generalizing s with
  | nil => exact ⟨rfl, (List.filter_true _).symm⟩
  | cons x l ih =>
    obtain ⟨hoff, hgroups⟩ := powerOff_leaves s x.1
    obtain ⟨ihoff, ihgroups⟩ := ih (powerOff s x.1)
    rw [List.foldl_cons]
    refine ⟨?_, ?_⟩
    · rw [ihoff, hoff, List.map_cons, List.reverse_cons, List.append_assoc, List.singleton_append]
    · rw [ihgroups, hgroups, List.filter_filter]
      exact List.filter_congr fun g _ => by rw [List.all_cons, Bool.and_comm]
/-- One die's return. -/
def dieBack (t : State) (d : Nat) : State := rehome { setMreg t (Reg.DIESTAT + 8 * d) (mreg t (Reg.DIESTAT + 8 * d) / 2 ^ 18 * 2 ^ 18 + mreg t (Reg.DIESTAT + 8 * d) % 65536) with
      comb := t.comb.filter (fun c => sliceDie (bornSlice t (128 * c.line)) != d), dieOff := t.dieOff.filter (· != d) }
theorem dieReturn_eq (s : State) : exec .dieReturn s = .next ((s.dieOff.filter fun d => mreg s (Reg.DIESTAT + 8 * d) / 65536 % 4 = 3).foldl dieBack s) := rfl
theorem dieBack_off (s : State) (d : Nat) : (dieBack s d).dieOff = s.dieOff.filter (· != d) := rfl
theorem dieBack_state (s : State) (d : Nat) : mreg (dieBack s d) (Reg.DIESTAT + 8 * d) / 65536 % 4 = 0 := by
  have hold := mreg_lt s (Reg.DIESTAT + 8 * d)
  have hset : mreg (dieBack s d) (Reg.DIESTAT + 8 * d) = (mreg s (Reg.DIESTAT + 8 * d) / 2 ^ 18 * 2 ^ 18 + mreg s (Reg.DIESTAT + 8 * d) % 65536) % 2 ^ 64 := (mreg_setMreg ..).trans (if_pos rfl)
  rw [hset]
  generalize mreg s (Reg.DIESTAT + 8 * d) = old at *
  have hq : old / 2 ^ 18 < 2 ^ 46 := by omega
  generalize old / 2 ^ 18 = q at hq
  have hlt : q * 2 ^ 18 + old % 65536 < 2 ^ 64 := by omega
  rw [Nat.mod_eq_of_lt hlt]
  omega
theorem foldl_dieBack (l : List Nat) (s : State) : (l.foldl dieBack s).dieOff = s.dieOff.filter fun d => l.all (d != ·) := by
  induction l generalizing s with
  | nil => exact (List.filter_true _).symm
  | cons x l ih =>
    rw [List.foldl_cons, ih, dieBack_off, List.filter_filter]
    exact List.filter_congr fun d _ => by rw [List.all_cons, Bool.and_comm]

/-! ### Start-up (R432, R433) -/

theorem mem_ins {w : Nat} {m : SMap w} {k : Nat} {v : BitVec w} {x : Nat × BitVec w} (h : x ∈ m.ins k v) : x = (k, v) ∨ x ∈ m := by
  induction m with
  | nil => exact Or.inl (List.mem_singleton.mp h)
  | cons y r ih =>
    obtain ⟨k', v'⟩ := y
    unfold SMap.ins at h
    split at h
    · exact Or.imp_right (fun h => List.mem_cons_of_mem _ h) (List.mem_cons.mp h)
    · split at h
      · exact List.mem_cons.mp h
      · obtain rfl | h := List.mem_cons.mp h
        · exact Or.inr List.mem_cons_self
        · exact (ih h).imp_right (List.mem_cons_of_mem _)
theorem mem_del {w : Nat} {m : SMap w} {k : Nat} {x : Nat × BitVec w} (h : x ∈ m.del k) : x ∈ m := by
  induction m with
  | nil => exact h
  | cons y r ih =>
    obtain ⟨k', v'⟩ := y
    unfold SMap.del at h
    split at h
    · exact List.mem_cons_of_mem _ (ih h)
    · obtain rfl | h := List.mem_cons.mp h
      · exact List.mem_cons_self
      · exact List.mem_cons_of_mem _ (ih h)
theorem mem_set {w : Nat} {m : SMap w} {k : Nat} {v : BitVec w} {x : Nat × BitVec w} (h : x ∈ m.set k v) : x = (k, v) ∨ x ∈ m := by
  unfold SMap.set at h
  split at h
  · exact Or.inr (mem_del h)
  · exact mem_ins h

/-- `t` follows from `s` by writes of registers that leave TLIM, and every column's reading below `L` where they were. -/
structure Cool (L : Int) (s t : State) : Prop where
  rest : ∃ mr, t = { s with mregs := mr }
  tlim : mreg t Reg.TLIM = mreg s Reg.TLIM
  cols : (∀ x ∈ s.mregs, isCol x.1 = true → sextN x.2.toNat 16 < L) → ∀ x ∈ t.mregs, isCol x.1 = true → sextN x.2.toNat 16 < L

section
variable {L : Int} {s t u : State}

theorem Cool.refl (s : State) : Cool L s s := ⟨⟨_, rfl⟩, rfl, id⟩
theorem Cool.trans (h : Cool L s t) (h' : Cool L t u) : Cool L s u := by
  obtain ⟨⟨mr, rfl⟩, ht, hc⟩ := h
  obtain ⟨⟨mr', rfl⟩, ht', hc'⟩ := h'
  exact ⟨⟨mr', rfl⟩, ht'.trans ht, fun hs => hc' (hc hs)⟩
theorem Cool.foldl {α : Type} {f : State → α → State} (l : List α) (hf : ∀ a ∈ l, ∀ t, Cool L t (f t a)) (s : State) : Cool L s (l.foldl f s) := by
  induction l generalizing s with
  | nil => exact .refl s
  | cons a l ih =>
    obtain ⟨ha, hl⟩ := List.forall_mem_cons.mp hf
    exact (ha s).trans (ih hl _)
theorem cool_setMreg (s : State) {off v : Nat} (htlim : Reg.TLIM / 8 ≠ off / 8) (hcol : isCol (off / 8) = true → sextN (BitVec.ofNat 64 v).toNat 16 < L) : Cool L s (setMreg s off v) := by
  refine ⟨⟨_, rfl⟩, ?_, fun hs x hx hx' => ?_⟩
  · rw [mreg_setMreg, if_neg htlim]
  · obtain rfl | hx := mem_set hx
    · exact hcol hx'
    · exact hs x hx hx'
end
/-- A register that is no column's, nor TLIM. -/
def plainReg (off : Nat) : Bool := decide (Reg.TLIM / 8 ≠ off / 8) && !isCol (off / 8)
theorem cool_plain {L : Int} (s : State) {off : Nat} (v : Nat) (h : plainReg off = true) : Cool L s (setMreg s off v) := by
  simp only [plainReg, Bool.and_eq_true, decide_eq_true_eq, Bool.not_eq_true'] at h
  obtain ⟨htlim, hcol⟩ := h
  exact cool_setMreg s htlim fun hc => absurd hc (by rw [hcol]; decide)
theorem plainReg_route {k : Nat} (hk : k < 64) : plainReg (Reg.ROUTE + 8 * k) = true := by
  have hr : Reg.ROUTE = 0x200 := rfl
  have ht : Reg.TLIM = 0x30 := rfl
  have hc : Reg.COLSTAT = 0x400 := rfl
  simp only [plainReg, isCol, hr, ht, hc, Bool.and_eq_true, decide_eq_true_eq, Bool.not_eq_true', decide_eq_false_iff_not]
  omega
theorem cool_writeIdentity {L : Int} (s : State) (f : Flash) : Cool L s (writeIdentity s f) := by
  unfold writeIdentity
  refine (Cool.foldl _ (fun a ha t => ?_) s).trans (.foldl _ (fun k hk t => cool_plain t _ (plainReg_route (List.mem_range.mp hk))) _)
  have hregs : ∀ off ∈ [Reg.ID, Reg.HBMCAP, Reg.PWRLIM, Reg.DEVNUM, Reg.DOMAIN, Reg.DIRBASE, Reg.COPYBASE], plainReg off = true := by decide
  exact cool_plain t a.2 (hregs a.1 (List.mem_map_of_mem (f := Prod.fst) ha))
theorem sextN_reading (v : BitVec 16) (k : Nat) (_ : k < 4) : sextN (BitVec.ofNat 64 (v.toNat + 65536 * k)).toNat 16 = v.toInt := by
  have hv := v.isLt
  have hmod : (v.toNat + 65536 * k) % 2 ^ 64 % 2 ^ 16 = v.toNat := by omega
  simp only [sextN, BitVec.toNat_ofNat, hmod, BitVec.toInt_eq_toNat_cond]
  omega
theorem tlim_col (c : Nat) : Reg.TLIM / 8 ≠ (Reg.COLSTAT + 8 * c) / 8 := by
  have ht : Reg.TLIM = 0x30 := rfl
  have hc : Reg.COLSTAT = 0x400 := rfl
  rw [ht, hc]
  omega
theorem cool_firstTemps {L : Int} (s : State) {cols : List (Nat × BitVec 16)} (h0 : 0 < L) (hcols : ∀ x ∈ cols, x.2.toInt < L) : Cool L s (firstTemps s cols) := by
  have hnamed : Cool L s ((cols.filter fun x => decide (x.1 < 1024)).foldl (fun t (c, v) => setMreg t (Reg.COLSTAT + 8 * c) (v.toNat + 65536 * 3)) s) :=
    .foldl _ (fun a ha t => cool_setMreg t (tlim_col _) fun _ => by rw [sextN_reading _ _ (by decide)]; exact hcols a (List.mem_filter.mp ha).1) s
  unfold firstTemps
  dsimp only
  split
  · exact hnamed
  · refine hnamed.trans (.foldl _ (fun c _ t => cool_setMreg t (tlim_col c) fun _ => ?_) _)
    have hzero : sextN (BitVec.ofNat 64 (65536 * 3)).toNat 16 = 0 := by decide
    rw [hzero]
    exact h0
/-- What start-up settles before its readings stays: the part, and the measurement. -/
structure Settled (s t : State) : Prop where
  part : t.part = s.part
  measure : t.measure = s.measure
theorem Settled.trans {s t u : State} (h : Settled s t) (h' : Settled t u) : Settled s u := ⟨h'.part.trans h.part, h'.measure.trans h.measure⟩
theorem Settled.foldl {α : Type} {f : State → α → State} (l : List α) (hf : ∀ t a, Settled t (f t a)) (s : State) : Settled s (l.foldl f s) := by
  induction l generalizing s with
  | nil => exact ⟨rfl, rfl⟩
  | cons a l ih => exact (hf s a).trans (ih _)
theorem Posted.settled {s t : State} (h : Posted s t) : Settled s t := ⟨h.part, h.measure⟩
theorem Cool.settled {L : Int} {s t : State} (h : Cool L s t) : Settled s t := by
  obtain ⟨⟨mr, rfl⟩, -, -⟩ := h
  exact ⟨rfl, rfl⟩
theorem settled_dieAlarmed (s : State) (d : Nat) : Settled s (dieAlarmed s d) := by
  obtain ⟨c, hposted⟩ := dieAlarmed_posted s d
  exact Settled.trans (t := { s with comb := c, dieAlarm := s.dieAlarm ++ [(d, s.clk)] }) ⟨rfl, rfl⟩ hposted.settled
theorem settled_setMreg (s : State) (off v : Nat) : Settled s (setMreg s off v) := ⟨rfl, rfl⟩
theorem settled_dieRead (s : State) (d : Nat) (v : BitVec 16) : Settled s (dieRead s d v) := by
  unfold dieRead
  split
  · exact ⟨rfl, rfl⟩
  · dsimp only
    split
    · exact ((settled_setMreg ..).trans (settled_setMreg ..)).trans (settled_dieAlarmed ..)
    · exact settled_setMreg ..
theorem comb_dieAlarmed {s : State} {d : Nat} (h : s.comb = []) : (dieAlarmed s d).comb = [] := by
  simp only [dieAlarmed, h, List.filter_nil, List.map_nil]
  rfl
theorem comb_dieRead {s : State} {d : Nat} {v : BitVec 16} (h : s.comb = []) : (dieRead s d v).comb = [] := by
  unfold dieRead
  split
  · exact h
  · dsimp only
    split
    · exact comb_dieAlarmed h
    · exact h
theorem foldl_comb {α : Type} {f : State → α → State} (l : List α) {s : State} (hf : ∀ t a, t.comb = [] → (f t a).comb = []) (h : s.comb = []) : (l.foldl f s).comb = [] := by
  induction l generalizing s with
  | nil => exact h
  | cons a l ih => exact ih (hf s a h)
theorem headClass_cool {s : State} {x : Int} (h : x < tlim s 2) : headClass s x ≠ 0 := by
  unfold headClass
  rw [if_neg (Int.not_le.mpr h)]
  split
  · decide
  · split <;> decide
theorem tlim_of_mreg {s t : State} (h : mreg t Reg.TLIM = mreg s Reg.TLIM) (i : Nat) : tlim t i = tlim s i := by
  simp only [tlim, h]
theorem settled_firstTemps (s : State) (cols : List (Nat × BitVec 16)) : Settled s (firstTemps s cols) := by
  have hnamed : Settled s ((cols.filter fun x => decide (x.1 < 1024)).foldl (fun t (c, v) => setMreg t (Reg.COLSTAT + 8 * c) (v.toNat + 65536 * 3)) s) := .foldl _ (fun t _ => settled_setMreg t ..) s
  unfold firstTemps
  dsimp only
  split
  · exact hnamed
  · exact hnamed.trans (.foldl _ (fun t _ => settled_setMreg t ..) _)
theorem settled_firstReadings (s : State) (cols dies : List (Nat × BitVec 16)) : Settled s (firstReadings s cols dies) := by
  unfold firstReadings
  have htemps := settled_firstTemps s cols
  generalize firstTemps s cols = t at htemps
  dsimp only
  generalize (t.mregs.filter fun x => isCol x.1 && headClass t (sextN x.2.toNat 16) == 0).map (fun x => x.1 - Reg.COLSTAT / 8) = hot
  generalize hmregs : List.filter _ (List.map _ t.mregs) = mr
  have hheads : Settled t { t with mregs := mr } := ⟨rfl, rfl⟩
  exact htemps.trans (hheads.trans ((Posted.foldl hot (fun _ _ => posted_postAsync ..) _).settled.trans (.foldl _ (fun t _ => settled_dieRead t ..) _)))
theorem comb_firstReadings {s : State} {cols : List (Nat × BitVec 16)} (dies : List (Nat × BitVec 16)) (hcomb : s.comb = []) (h0 : 0 < tlim s 2) (hcols : ∀ x ∈ cols, x.2.toInt < tlim s 2)
    (hold : ∀ x ∈ s.mregs, isCol x.1 = true → sextN x.2.toNat 16 < tlim s 2) : (firstReadings s cols dies).comb = [] := by
  unfold firstReadings
  have hcool : Cool (tlim s 2) s (firstTemps s cols) := cool_firstTemps s h0 hcols
  generalize firstTemps s cols = t at hcool
  have hnone : (t.mregs.filter fun x => isCol x.1 && headClass t (sextN x.2.toNat 16) == 0) = [] := by
    rw [List.filter_eq_nil_iff]
    intro x hx
    have hlim : tlim t 2 = tlim s 2 := tlim_of_mreg hcool.tlim 2
    simp only [Bool.and_eq_true, beq_iff_eq, not_and]
    exact fun hc => headClass_cool (by rw [hlim]; exact hcool.cols hold x hx hc)
  have htcomb : t.comb = [] := by
    obtain ⟨⟨mr, rfl⟩, -, -⟩ := hcool
    exact hcomb
  dsimp only
  rw [hnone]
  exact foldl_comb _ (fun _ _ => comb_dieRead) htcomb
/-- The state past the images' checks. -/
def measured (s : State) : State := { s with part := s.flash.part, measure := measureOf s.flash }
/-- The state with the ports and the identity of the flash. -/
def identified (s : State) : State := writeIdentity { measured s with ports := (List.range 16).map fun p => { Port.reset p with up := s.flash.part.peeren.getLsbD p } } s.flash
/-- The state before the first readings. -/
def cleared (s : State) : State := clearTables (setMreg (identified s) Reg.DEVNUM (s.flash.devnum.toNat + 256)) s.flash
theorem startUp_eq {s : State} (links hbm : Bool) (cols dies : List (Nat × BitVec 16)) (h : mreg s Reg.STARTUP = 0) : exec (.startUp links hbm cols dies) s = match partReason s.flash.part with
    | some r => .next (setMreg s Reg.STARTUP (2 + 256 * r))
    | none => match s.flash.images.findSome? imageReason with
      | some r => .next (setMreg { s with part := s.flash.part } Reg.STARTUP (2 + 256 * r))
      | none => if hbm = false then .next (startFail (measured s) 8) else if links = false then .next (startFail (measured s) 9) else if configBad s.flash = true then .next (startFail (identified s) 11)
        else .next (setMreg (firstReadings (cleared s) cols dies) Reg.STARTUP 1) := by
  change execStartUp links hbm cols dies s = _
  rewrite [execStartUp]
  rw [if_neg (not_not_intro h)]
  cases partReason s.flash.part with
  | some r => rfl
  | none =>
    cases s.flash.images.findSome? imageReason with
    | some r => rfl
    | none =>
      cases hbm
      · rfl
      · cases links
        · rfl
        · rfl
theorem settled_identified (s : State) : Settled (measured s) (identified s) := Settled.trans (t := { measured s with ports := (List.range 16).map fun p => { Port.reset p with up := s.flash.part.peeren.getLsbD p } }) ⟨rfl, rfl⟩ (cool_writeIdentity (L := 0) _ s.flash).settled
theorem settled_clearTables (s : State) (f : Flash) : Settled s (clearTables s f) := ⟨rfl, rfl⟩
theorem settled_cleared (s : State) : Settled (measured s) (cleared s) := ((settled_identified s).trans (settled_setMreg ..)).trans (settled_clearTables ..)
theorem startFail_mreg (s : State) {r : Nat} (hr : r < 16) : mreg (startFail s r) Reg.STARTUP = 2 + 256 * r := by
  rw [startFail, mreg_setMreg, if_pos rfl, Nat.mod_eq_of_lt (by omega)]
theorem clearTables_regs (s : State) (f : Flash) : (clearTables s f).mregs = s.mregs ∧ (clearTables s f).comb = [] := ⟨rfl, rfl⟩
theorem tlim_of_mregs {s t : State} (h : t.mregs = s.mregs) (i : Nat) : tlim t i = tlim s i := by
  simp only [tlim, mreg, h]
theorem cool_cleared {L : Int} (s : State) : tlim (cleared s) 2 = tlim s 2 ∧ (cleared s).comb = [] ∧ ((∀ x ∈ s.mregs, isCol x.1 = true → sextN x.2.toNat 16 < L) → ∀ x ∈ (cleared s).mregs, isCol x.1 = true → sextN x.2.toNat 16 < L) := by
  obtain ⟨hregs, hcomb⟩ := clearTables_regs (setMreg (identified s) Reg.DEVNUM (s.flash.devnum.toNat + 256)) s.flash
  have hcool : Cool L _ (setMreg (identified s) Reg.DEVNUM (s.flash.devnum.toNat + 256)) := (cool_writeIdentity _ s.flash).trans (cool_plain (identified s) _ (by decide))
  refine ⟨(tlim_of_mregs hregs 2).trans ((tlim_of_mreg hcool.tlim 2).trans (tlim_of_mregs (by exact rfl) 2)), hcomb, fun hs => ?_⟩
  rw [cleared, hregs]
  exact hcool.cols hs
theorem startUp_runs {s : State} (links hbm : Bool) (cols dies : List (Nat × BitVec 16)) (h : mreg s Reg.STARTUP = 0) (hpart : partReason s.flash.part = none) (himg : s.flash.images.findSome? imageReason = none) :
    ∃ t, exec (.startUp links hbm cols dies) s = .next t ∧ t.part = s.flash.part ∧ t.measure = measureOf s.flash
        ∧ mreg t Reg.STARTUP = (if hbm = false then 2 + 256 * 8 else if links = false then 2 + 256 * 9 else if configBad s.flash = true then 2 + 256 * 11 else 1)
        ∧ (mreg t Reg.STARTUP = 1 → 0 < tlim s 2 → (∀ x ∈ cols, x.2.toInt < tlim s 2) → (∀ x ∈ s.mregs, isCol x.1 = true → sextN x.2.toNat 16 < tlim s 2) → t.comb = []) := by
  have hfail : ∀ r, r < 16 → mreg (startFail (measured s) r) Reg.STARTUP ≠ 1 := fun r hr => by
    rw [startFail_mreg _ hr]
    omega
  rw [startUp_eq links hbm cols dies h, hpart, himg]
  dsimp only
  by_cases hhbm : hbm = false
  · rw [if_pos hhbm, if_pos hhbm]
    exact ⟨_, rfl, rfl, rfl, startFail_mreg _ (by decide), fun h1 => absurd h1 (hfail 8 (by decide))⟩
  · rw [if_neg hhbm, if_neg hhbm]
    by_cases hlinks : links = false
    · rw [if_pos hlinks, if_pos hlinks]
      exact ⟨_, rfl, rfl, rfl, startFail_mreg _ (by decide), fun h1 => absurd h1 (hfail 9 (by decide))⟩
    · rw [if_neg hlinks, if_neg hlinks]
      by_cases hbad : configBad s.flash = true
      · rw [if_pos hbad, if_pos hbad]
        have hsettled := (settled_identified s).trans (settled_setMreg _ Reg.STARTUP (2 + 256 * 11))
        refine ⟨_, rfl, hsettled.part, hsettled.measure, startFail_mreg _ (by decide), fun h1 => ?_⟩
        rw [startFail_mreg _ (by decide)] at h1
        exact absurd h1 (by decide)
      · rw [if_neg hbad, if_neg hbad]
        have hsettled := ((settled_cleared s).trans (settled_firstReadings (cleared s) cols dies)).trans (settled_setMreg _ Reg.STARTUP 1)
        obtain ⟨htlim, hcomb, hcool⟩ := cool_cleared (L := tlim s 2) s
        refine ⟨_, rfl, hsettled.part, hsettled.measure, ?_, fun _ h0 hcols hold => ?_⟩
        · rw [mreg_setMreg, if_pos rfl, Nat.mod_eq_of_lt (by decide)]
        · exact comb_firstReadings dies hcomb (by rw [htlim]; exact h0) (by rw [htlim]; exact hcols) (by rw [htlim]; exact hcool hold)

/-! ### Machine checks (13 R354) -/

section
variable (s : State) (a : BitVec 64)

theorem machineCheck_exec (d : BitVec 5) : exec (.machineCheckEvent d a) s = .next (machineCheck d a s) := rfl
theorem machineCheck_l1_none (h : ∀ l ∈ s.l1, l.line ≠ a.toNat / 128) : machineCheck 2 a s = postAsync s 0x1E2 a none := by
  have hnone : (s.l1.filter fun l => l.line == a.toNat / 128) = [] := List.filter_eq_nil_iff.mpr fun l hl => by simpa using h l hl
  simp only [machineCheck, BitVec.reduceToNat, hnone, List.length_nil, Nat.mod_zero, List.getElem?_nil] <;> rfl
theorem machineCheck_l1_some (h : ∃ l ∈ s.l1, l.line = a.toNat / 128) : ∃ x ∈ s.l1, x.line = a.toNat / 128 ∧ machineCheck 2 a s = postAsync { s with l1 := s.l1.filter fun l => !(l.core == x.core && l.line == x.line) } 0x1E2 a none := by
  obtain ⟨l, hl, hline⟩ := h
  have hpos : 0 < (s.l1.filter fun l => l.line == a.toNat / 128).length := List.length_pos_of_mem (List.mem_filter.mpr ⟨hl, by simpa using hline⟩)
  have hget := List.getElem?_eq_getElem (Nat.mod_lt (Config.pick s.fresh) hpos)
  obtain ⟨hx, hxline⟩ := List.mem_filter.mp (List.getElem_mem (Nat.mod_lt (Config.pick s.fresh) hpos))
  refine ⟨_, hx, by simpa using hxline, ?_⟩
  simp only [machineCheck, BitVec.reduceToNat, hget] <;> rfl
theorem machineCheck_icache (h : ∀ l ∈ s.icache, l.va = a.toNat / 128 * 128 → l.mark = none) : machineCheck 4 a s = { s with icache := s.icache.map fun l => if l.va = a.toNat / 128 * 128 then { l with mark := some 0x1E4 } else l } := by
  have hnone : (s.icache.any fun l => l.va == a.toNat / 128 * 128 && l.mark.isSome) = false := by
    rw [List.any_eq_false]
    intro l hl
    simp only [Bool.and_eq_true, beq_iff_eq, not_and]
    exact fun hva => by simp [h l hl hva]
  simp only [machineCheck, BitVec.reduceToNat, hnone, Bool.false_eq_true, if_false, beq_iff_eq]
theorem machineCheck_icache_marked (h : ∃ l ∈ s.icache, l.va = a.toNat / 128 * 128 ∧ l.mark.isSome = true) : machineCheck 4 a s = { s with softErrors := s.softErrors ++ [0x1E4] } := by
  have hany : (s.icache.any fun l => l.va == a.toNat / 128 * 128 && l.mark.isSome) = true := by
    rw [List.any_eq_true]
    obtain ⟨l, hl, hva, hmark⟩ := h
    exact ⟨l, hl, by simp [hva, hmark]⟩
  simp only [machineCheck, BitVec.reduceToNat, hany, if_true]
theorem machineCheck_startUp : machineCheck 26 a s = postAsync (if mreg s Reg.STARTUP % 16 = 0 then setMreg s Reg.STARTUP (2 + 256 * 10) else s) 0x1FA a none := by
  simp only [machineCheck, BitVec.reduceToNat, startFail] <;> rfl
theorem machineCheck_host : machineCheck 9 a s = postAsync (hostDrop s (a.toNat / 128 * 128) 128) 0x1E9 a none := by
  simp only [machineCheck, BitVec.reduceToNat] <;> rfl
theorem machineCheck_posted {d : BitVec 5} (h : d ∉ [0, 1, 2, 4, 9, 26]) : machineCheck d a s = postAsync s (BitVec.ofNat 9 (0x1E0 + d.toNat)) a none := by
  have hne : ∀ n : Nat, n < 32 → BitVec.ofNat 5 n ∈ [0, 1, 2, 4, 9, 26] → d.toNat ≠ n := fun n hn hmem heq => h (by
    have hd : d = BitVec.ofNat 5 n := BitVec.eq_of_toNat_eq (by rw [heq, BitVec.toNat_ofNat, Nat.mod_eq_of_lt (by omega)])
    rwa [hd])
  unfold machineCheck
  split
  · next h0 => exact absurd h0 (hne 0 (by decide) (by decide))
  · next h0 => exact absurd h0 (hne 1 (by decide) (by decide))
  · next h0 => exact absurd h0 (hne 4 (by decide) (by decide))
  · next h0 => exact absurd h0 (hne 2 (by decide) (by decide))
  · next h0 => exact absurd h0 (hne 9 (by decide) (by decide))
  · next h0 => exact absurd h0 (hne 26 (by decide) (by decide))
  · rfl
end

/-! ### The obligation, in two parts -/

theorem sensorRefresh_col (s : State) (c : Nat) (v : BitVec 16) : exec (.sensorRefresh [(c, v)] []) s = .next (colRead s c v) := rfl
theorem sensorRefresh_die (s : State) (d : Nat) (v : BitVec 16) : exec (.sensorRefresh [] [(d, v)]) s = .next (dieRead s d v) := rfl
theorem diePowerOff_eq (s : State) : exec .diePowerOff s = .next ((s.dieAlarm.filter fun x => decide (x.2 + 2 * Config.clkPerMs ≤ s.clk)).foldl (fun t x => powerOff t x.1) s) := rfl
theorem combLine_error {s : State} {line : Nat} (hcap : 128 * line + 128 ≤ hbmCap s) :
    (versionsOf s line = [] → (∀ l ∈ s.comb, l.line ≠ line) → exec (.combLineError line) s = .next s)
      ∧ (∀ l, versionsOf s line = [] → (s.comb.find? fun l => l.line == line) = some l → l.dirty = 0 → unshadowed s line = false → exec (.combLineError line) s = .next { s with comb := s.comb.filter fun c => c.line != line })
      ∧ (∀ l, versionsOf s line = [] → (s.comb.find? fun l => l.line == line) = some l → l.dirty ≠ 0 ∨ unshadowed s line = true →
        exec (.combLineError line) s = .next (postAsync (poisonLine s line) 0x1E5 (BitVec.ofNat 64 (lineOwnerId s line)) none) ∧ ∀ j < 8, (poisonLine s line).memSynd.get (8 * line + j) = 0xFFFF)
      ∧ ∀ k v r, versionsOf s line = (k, v) :: r → exec (.combLineError line) s = .next (escalate (updWg s k.id fun k => { k with nonRestart := true }) k.id
          { cause := BitVec.ofNat 9 (0x17C + v.by_), kind := 2, task := taskOf s k, fpc := 0, rpc := 0, addr := BitVec.ofNat 64 (128 * v.line) } 0) := by
  rw [combLineError_eq hcap]
  refine ⟨fun hv hc => ?_, fun l hv hl hd hs => ?_, fun l hv hl hd => ⟨?_, fun j hj => poisonLine_synd s line hj⟩, fun k v r hv => ?_⟩
  · have hnone : (s.comb.find? fun l => l.line == line) = none := List.find?_eq_none.mpr fun l hl => by simpa using hc l hl
    simp only [hv, hnone]
  · simp only [hv, hl, hd, hs, ne_eq, not_true_eq_false, decide_false, Bool.or_self, Bool.false_eq_true, if_false]
    rfl
  · have hlost : (decide (l.dirty ≠ 0) || unshadowed s line) = true := by simpa using hd
    simp only [hv, hl, hlost, if_true]
  · simp only [hv] <;> rfl
theorem dieReturn_off (s : State) : ((s.dieOff.filter fun d => mreg s (Reg.DIESTAT + 8 * d) / 65536 % 4 = 3).foldl dieBack s).dieOff = s.dieOff.filter fun d => decide (mreg s (Reg.DIESTAT + 8 * d) / 65536 % 4 ≠ 3) := by
  rw [foldl_dieBack]
  refine List.filter_congr fun d hd => ?_
  by_cases hst : mreg s (Reg.DIESTAT + 8 * d) / 65536 % 4 = 3
  · rw [decide_eq_false (not_not_intro hst), List.all_eq_false]
    exact ⟨d, List.mem_filter.mpr ⟨hd, decide_eq_true hst⟩, by simp⟩
  · rw [decide_eq_true hst, List.all_eq_true]
    intro x hx
    have hxst := of_decide_eq_true (List.mem_filter.mp hx).2
    exact bne_iff_ne.mpr fun heq => hst (heq ▸ hxst)

/-- Settles O56: the sensors, the governor, comb lines and dies by their cases, start-up by its stages, and the machine checks by their detail. -/
theorem powerAndStartUp : Obligations.PowerAndStartUp := by
  unfold Obligations.PowerAndStartUp
  refine ⟨⟨fun s c v hc => ⟨_, sensorRefresh_col s c v, colRead_reads s v hc⟩, fun s p hp => ?_, fun s p hp => ?_, fun s => ⟨fun h => ?_, fun h => ?_⟩, fun s line hcap => combLine_error hcap,
      fun s d v hd hrun hhot => ⟨_, sensorRefresh_die s d v, dieRead_alarm hd hrun hhot⟩, fun s => ⟨_, diePowerOff_eq s, foldl_powerOff _ s⟩, fun s => ⟨_, dieReturn_eq s, dieReturn_off s⟩,
      fun s d n hdue => ?_, fun s d hd hback => ?_⟩,
    fun s links hbm cols dies h => ?_, fun s a => ⟨rfl, rfl, fun h => ?_, fun h => ?_, fun h => ?_, fun h => ?_, ?_, ?_, fun d hd => ?_⟩⟩
  · obtain ⟨t, ht, hnow, hhold, -⟩ := governor_step s hp
    exact ⟨t, ht, hnow, hhold⟩
  · obtain ⟨t, ht, -, hhold, hticks⟩ := governor_step s hp
    exact ⟨t, ht, by rw [hticks, hhold]⟩
  · rw [holdLimit_eq, if_pos h]
  · rw [holdLimit_eq, if_neg (by omega)]
  · obtain ⟨hoff, hgroups⟩ := powerOff_leaves s d
    refine ⟨_, diePowerOff_eq s, ?_⟩
    rw [hdue, List.foldl_cons, List.foldl_nil]
    exact ⟨hoff, hgroups⟩
  · refine ⟨_, dieReturn_eq s, ?_⟩
    rw [hback, List.foldl_cons, List.foldl_nil]
    exact ⟨dieBack_off s d, dieBack_state s d⟩
  · cases hpart : partReason s.flash.part with
    | some r => exact ⟨_, by rw [startUp_eq links hbm cols dies h, hpart], Or.inl ⟨r, rfl, rfl⟩⟩
    | none =>
      cases himg : s.flash.images.findSome? imageReason with
      | some r => exact ⟨_, by rw [startUp_eq links hbm cols dies h, hpart, himg], Or.inr (Or.inl ⟨r, rfl, rfl, rfl⟩)⟩
      | none =>
        obtain ⟨t, ht, hleaves⟩ := startUp_runs links hbm cols dies h hpart himg
        exact ⟨t, ht, Or.inr (Or.inr ⟨rfl, rfl, hleaves⟩)⟩
  · rw [machineCheck_exec, machineCheck_l1_none s a h]
  · obtain ⟨x, hx, hline, hcheck⟩ := machineCheck_l1_some s a h
    exact ⟨x, hx, hline, by rw [machineCheck_exec, hcheck]⟩
  · rw [machineCheck_exec, machineCheck_icache s a h]
  · rw [machineCheck_exec, machineCheck_icache_marked s a h]
  · rw [machineCheck_exec, machineCheck_startUp]
  · rw [machineCheck_exec, machineCheck_host]
  · rw [machineCheck_exec, machineCheck_posted s a hd]
end Sys2Proof.Machine
end

section
/-! O50: refuted. A command issues after what its thread has on its way; where a flight of the thread shares its number with another thread's operation, that operation is executed instead, and a request that it makes to a peer takes the command's number. -/

namespace Sys2Proof.Machine

/-- A grid of one tile of one granule. -/
def issuingGrid : Grid := { placedGrid State.reset with num := 0, lrec := { parseRec [] with tiles := 1, tileg := 1, cutmax := 4096 } }
/-- A workgroup whose cue thread issues a command; c0 holds a tile word of one element. -/
def issuingWg : Workgroup :=
  { id := 1, grid := 0, lin := 0, st := .resident, core := 0, ctx := 0, image := 0, bases := [], warps := [], cue := { Cue.zero with regs := [(0, 0x100000)] }, tiles := [], tcfg := [], tconf := [], tgen := [], acc := [], phase := [], take := none
    takeAt := 0, takeLate := false, cmig := none, target := none, held := false, taskOn := false, nonRestart := false, vlines := [], vbytes := 0, vdone := false, missing := [], storedTiles := false, storedLocal := false }
/-- `tcfg` of tile 0 with the word in c0, unguarded. -/
def plainTcfg : QE := { l := true, d := 0, a := 0, b := 0, g := 4, mod := 0, tok := 0, fsl := 0, ta := 0, tb := 0, ac := 0, opt := 0 }
/-- Another thread's `stcond` at a peer, under the number that a flight of the issuing thread has too. -/
def peerStcond : Flight :=
  { id := 0, who := .cue 2, pc := 0, look := 0, clk := 0
    kind := .exec (.stcond { l := true, d := 0, a := 0, b := 0, pg := 0, look := 0, obs := 0, ordr := 0, wid := 2, fe := 0, sx := 0, ofs := 0 }) [{ lane := 0, loc := .peer 0, va := 0, ops := [], sc := false }] 0 }
/-- A flight of the issuing thread, which only completes. -/
def plainFlight : Flight := { id := 0, who := .cue 1, pc := 0, look := 0, clk := 0, kind := .plain }
/-- The state in which the command issues. -/
def issuingState : State := { State.reset with grids := [issuingGrid], wgs := [issuingWg], flights := [peerStcond, plainFlight], cur := .cue 1 }
/-- The context of the command. -/
def issuingCtx : CCtx := { iss := .cue 1, c := issuingWg.cue, k := some issuingWg, g := some issuingGrid, pass := true, pc := issuingWg.cue.pc }

theorem issuing_ctx : cueCtx issuingState (.tcfg plainTcfg) = some issuingCtx := by decide
theorem issuing_ready : CueReady (opTcfg plainTcfg) issuingState issuingCtx = true := by decide
theorem issuing_undrained : undrained issuingState issuingCtx.iss = true := by decide

theorem issuing_exec : exec (.tcfg plainTcfg) issuingState = .next ((opTcfg plainTcfg).eff issuingCtx (cueIssued (opTcfg plainTcfg) issuingCtx issuingState)) := exec_of_cueReady rfl issuing_ctx issuing_ready rfl
/-- The command takes number 2: the peer's request has taken 1, which stood next. -/
theorem issuing_ids : ((opTcfg plainTcfg).eff issuingCtx (cueIssued (opTcfg plainTcfg) issuingCtx issuingState)).cmds.map (·.id) = [2] := by
  decide +kernel
/-- Refutes O50: nothing of the issuing thread is on its way to an execution point, yet `tcfg` does not take the number that stood next as it issued. -/
theorem not_commandsIssue : ¬ Obligations.CommandsIssue := by
  intro h
  obtain ⟨t, k', hexec, hcmds, -⟩ := h.2 issuingState issuingCtx plainTcfg 1 issuingWg rfl rfl rfl issuing_ctx issuing_ready issuing_undrained
  obtain rfl := Host.Outcome.next.inj (issuing_exec.symm.trans hexec)
  have hids := issuing_ids
  rw [hcmds] at hids
  exact absurd hids (by decide +kernel)
end Sys2Proof.Machine
end

section
/-! Cache instructions, fences, releases, acquires and write-backs (08 R181, R197, R205 to R207, 09 R214, R215, R218). O26 stays unsettled: its clause on `pf` has a peer answer, and whether one refuses is the free value `Config.coin`. It holds where none refuses (`cachesAndOrder_of_answers`), and it says of a prefetch that its peer does not refuse (`coin_of_cachesAndOrder`). -/

namespace Sys2Proof.Machine

/-! ### Write-backs: what stands behind the lines -/

/-- A dirty byte of a line of home memory, or of host memory, stands behind this address. -/
def CoversHome (a : Nat) (l : L1Line) : Prop := 128 * l.line < 2 ^ 45 ∧ l.line = a / 128 ∧ l.dirty.getLsbD (a % 128) = true
def CoversHost (a : Nat) (l : L1Line) : Prop := 2 ^ 45 ≤ 128 * l.line ∧ 128 * l.line < 2 ^ 52 ∧ l.line - 2 ^ 38 = a / 128 ∧ l.dirty.getLsbD (a % 128) = true

theorem Traffic.homeByte_of_mem {s t : State} (h : Traffic s t) (hm : t.mem = s.mem) (a : Nat) : homeByte t a = homeByte s a := by
  have hcap : hbmCap t = hbmCap s := by simp only [hbmCap, h.mreg]
  simp only [homeByte, dirDefault, hm, h.mreg, hcap]
theorem askPeer_memories (s : State) (a : Asker) (m : Msg) : (askPeer s a m).mem = s.mem ∧ (askPeer s a m).hostMem = s.hostMem := by
  have hsent := sent_postMsg { s with nextId := s.nextId + 1, awaits := s.awaits ++ [{ tag := s.nextId, dev := m.dst, who := a.who, core := a.core, cmd := a.cmd, pc := a.pc, addr := a.addr }] } { m with tag := s.nextId }
  rw [askPeer]
  obtain ⟨_, _, _, hs⟩ := hsent.rest
  rw [hs]
  exact ⟨rfl, rfl⟩
theorem foldl_memories {α : Type} {f : State → α → State} (l : List α) (hf : ∀ t a, (f t a).mem = t.mem ∧ (f t a).hostMem = t.hostMem) (s : State) : (l.foldl f s).mem = s.mem ∧ (l.foldl f s).hostMem = s.hostMem := by
  induction l generalizing s with
  | nil => exact ⟨rfl, rfl⟩
  | cons a l ih =>
    obtain ⟨hm, hh⟩ := ih (f s a)
    obtain ⟨hm', hh'⟩ := hf s a
    exact ⟨hm.trans hm', hh.trans hh'⟩
theorem peerMerge_memories (s : State) (l : L1Line) (mask : BitVec 128) : (peerMerge s l mask).mem = s.mem ∧ (peerMerge s l mask).hostMem = s.hostMem := by
  have hput : ∀ (t : State) (a : Asker) (m : BitVec 128), ((maskRuns m).foldl (fun t (b, n) => peerWrite t a (128 * l.line - 2 ^ 52 + b) ((List.range n).map fun i => lineByte l.data (b + i)) []) t).mem = t.mem
      ∧ ((maskRuns m).foldl (fun t (b, n) => peerWrite t a (128 * l.line - 2 ^ 52 + b) ((List.range n).map fun i => lineByte l.data (b + i)) []) t).hostMem = t.hostMem := fun t a m => foldl_memories _ (fun _ _ => askPeer_memories ..) t
  unfold peerMerge
  dsimp only
  obtain ⟨hm, hh⟩ := foldl_memories l.writers (fun t w => hput t { who := w.who, core := some l.core, pc := w.pc, addr := w.addr } (mask &&& w.mask)) s
  exact ⟨(hput ..).1.trans hm, (hput ..).2.trans hh⟩
theorem homeMerge_hostMem (s : State) (line : Nat) (mask : BitVec 128) (d : BitVec 1024) (key : BitVec 16) (who : Option Agent) : (homeMerge s line mask d key who).hostMem = s.hostMem := by
  obtain ⟨_, _, _, _, _, hw⟩ := homeMerge_rest s line mask d key who
  rw [hw]
theorem l1WriteBack_memories (s : State) (l : L1Line) : (l1WriteBack s l).mem = (backMerge s l l.dirty).mem ∧ (l1WriteBack s l).hostMem = (backMerge s l l.dirty).hostMem := ⟨rfl, rfl⟩
theorem homeByte_backMerge (s : State) (l : L1Line) (a : Nat) [Decidable (CoversHome a l)] : homeByte (backMerge s l l.dirty) a = if CoversHome a l then lineByte l.data (a % 128) else homeByte s a := by
  have hkeeps : (backMerge s l l.dirty).mem = s.mem → homeByte (backMerge s l l.dirty) a = homeByte s a := fun h => (traffic_backMerge ..).homeByte_of_mem h a
  by_cases hpeer : 2 ^ 52 ≤ 128 * l.line
  · rw [if_neg fun h => by have hlow := h.1; omega]
    exact hkeeps (by rw [backMerge, if_pos hpeer]; exact (peerMerge_memories ..).1)
  · by_cases hhost : 2 ^ 45 ≤ 128 * l.line
    · rw [if_neg fun h => by have hlow := h.1; omega]
      exact hkeeps (by rw [backMerge, if_neg hpeer, if_pos hhost])
    · have hmerge : backMerge s l l.dirty = homeMerge s l.line l.dirty l.data l.key none := by rw [backMerge, if_neg hpeer, if_neg hhost]
      rw [hmerge, homeByte_homeMerge]
      by_cases hline : l.line = a / 128
      · have hofs : a - 128 * l.line = a % 128 := by omega
        rw [hofs]
        exact if_congr ⟨fun h => ⟨by omega, hline, h.2.2⟩, fun h => ⟨by omega, by omega, h.2.2⟩⟩ rfl rfl
      · rw [if_neg (by omega), if_neg fun h => hline h.2.1]
theorem get_linePairs (m : SMap 8) (line : Nat) (mask : BitVec 128) (d : BitVec 1024) (a : Nat) : (SMap.setAll m (linePairs line mask d)).get a = if line = a / 128 ∧ mask.getLsbD (a % 128) = true then lineByte d (a % 128) else m.get a := by
  rw [linePairs, SMap.get_setAll_range (w := 8) (fun k => mask.getLsbD k) (128 * line) (fun k => lineByte d k)]
  by_cases hline : line = a / 128
  · have hofs : a - 128 * line = a % 128 := by omega
    rw [hofs]
    exact if_congr ⟨fun h => ⟨hline, h.2.2⟩, fun h => ⟨by omega, by omega, h.2⟩⟩ rfl rfl
  · rw [if_neg (by omega), if_neg fun h => hline h.1]
theorem hostByte_backMerge (s : State) (l : L1Line) (a : Nat) [Decidable (CoversHost a l)] : SMap.get (backMerge s l l.dirty).hostMem a = if CoversHost a l then lineByte l.data (a % 128) else SMap.get s.hostMem a := by
  by_cases hpeer : 2 ^ 52 ≤ 128 * l.line
  · rw [if_neg fun h => by have hhigh := h.2.1; omega, backMerge, if_pos hpeer, (peerMerge_memories ..).2]
  · by_cases hhost : 2 ^ 45 ≤ 128 * l.line
    · have hline : (128 * l.line - 2 ^ 45) / 128 = l.line - 2 ^ 38 := by omega
      rw [backMerge, if_neg hpeer, if_pos hhost]
      dsimp only
      rw [hline, get_linePairs]
      exact if_congr ⟨fun h => ⟨hhost, Nat.not_le.mp hpeer, h⟩, fun h => h.2.2⟩ rfl rfl
    · rw [if_neg fun h => hhost h.1, backMerge, if_neg hpeer, if_neg hhost, homeMerge_hostMem]

/-- A value read of the state, and the lines whose write-back brings it to `v`. -/
structure Behind (read : State → Byte) (covers : L1Line → Prop) (v : L1Line → Byte) : Prop where
  hit : ∀ s l, covers l → read (l1WriteBack s l) = v l
  miss : ∀ s l, ¬ covers l → read (l1WriteBack s l) = read s
theorem behind_home (a : Nat) : Behind (fun s => homeByte s a) (CoversHome a) fun l => lineByte l.data (a % 128) := by
  classical
  have hwb : ∀ s l, homeByte (l1WriteBack s l) a = homeByte (backMerge s l l.dirty) a := fun s l => rfl
  exact ⟨fun s l h => by rw [hwb, homeByte_backMerge, if_pos h], fun s l h => by rw [hwb, homeByte_backMerge, if_neg h]⟩
theorem behind_host (a : Nat) : Behind (fun s => SMap.get s.hostMem a) (CoversHost a) fun l => lineByte l.data (a % 128) := by
  classical
  exact ⟨fun s l h => by rw [(l1WriteBack_memories s l).2, hostByte_backMerge, if_pos h], fun s l h => by rw [(l1WriteBack_memories s l).2, hostByte_backMerge, if_neg h]⟩
section
variable {read : State → Byte} {covers : L1Line → Prop} {v : L1Line → Byte} {ls : List L1Line} {l : L1Line}

theorem Behind.foldl_miss (h : Behind read covers v) (s : State) (hno : ∀ l ∈ ls, ¬ covers l) : read (ls.foldl l1WriteBack s) = read s := by
  induction ls generalizing s with
  | nil => rfl
  | cons l ls ih =>
    obtain ⟨hl, hls⟩ := List.forall_mem_cons.mp hno
    rw [List.foldl_cons, ih _ hls, h.miss s l hl]
theorem Behind.foldl_hit (h : Behind read covers v) (s : State) (hl : l ∈ ls) (hc : covers l) (hone : ∀ x ∈ ls, covers x → x = l) : read (ls.foldl l1WriteBack s) = v l := by
  induction ls generalizing s with
  | nil => exact absurd hl List.not_mem_nil
  | cons x ls ih =>
    obtain ⟨hx, hrest⟩ := List.forall_mem_cons.mp hone
    rw [List.foldl_cons]
    by_cases hin : l ∈ ls
    · exact ih _ hin hrest
    · obtain rfl := (List.mem_cons.mp hl).resolve_right hin
      rw [h.foldl_miss _ fun y hy hcy => hin (hrest y hy hcy ▸ hy), h.hit s l hc]
end

/-- The lines after write-backs of some of them, but for who wrote their bytes. -/
theorem foldl_writeBack_l1 (ls : List L1Line) (s : State) : (ls.foldl l1WriteBack s).l1.map (fun l => { l with writers := [] })
    = s.l1.map fun x => { x with dirty := if ls.any (fun l => x.core == l.core && x.line == l.line) then 0 else x.dirty, writers := [] } := by
  induction ls generalizing s with
  | nil => rfl
  | cons l ls ih =>
    rw [List.foldl_cons, ih, l1WriteBack_l1, List.map_map]
    refine List.map_congr_left fun x _ => ?_
    simp only [Function.comp_apply, List.any_cons]
    by_cases hx : x.core = l.core ∧ x.line = l.line
    · simp only [hx, and_self, if_true, beq_self_eq_true, Bool.and_self, Bool.true_or, ite_self]
    · have hno : (x.core == l.core && x.line == l.line) = false := by simpa using hx
      simp only [hx, if_false, hno, Bool.false_or]

/-- A set of lines that a write-back takes, of those of an L1. -/
structure Takes (s : State) (p : L1Line → Bool) (ls : List L1Line) : Prop where
  sub : ∀ l ∈ ls, l ∈ s.l1 ∧ p l = true
  dirty : ∀ l ∈ s.l1, p l = true → l.dirty ≠ 0 → l ∈ ls
  core : ∀ l ∈ s.l1, ∀ x ∈ s.l1, p l = true → p x = true → l.line = x.line → l = x
  same : ∀ l ∈ s.l1, ∀ x ∈ ls, x.core = l.core → x.line = l.line → p l = true

theorem l1_unique {s : State} (hn : (s.l1.map fun l => (l.core, l.line)).Nodup) {l x : L1Line} (hl : l ∈ s.l1) (hx : x ∈ s.l1) (hc : l.core = x.core) (hline : l.line = x.line) : l = x :=
  List.inj_on_of_nodup_map hn hl hx (Prod.ext hc hline)
theorem takes_core {s : State} (hn : (s.l1.map fun l => (l.core, l.line)).Nodup) (core : Nat) : Takes s (fun l => l.core == core) (s.l1.filter fun l => l.core == core && l.dirty != 0) := by
  refine ⟨fun l hl => ?_, fun l hl hp hd => ?_, fun l hl x hx hp hp' hline => ?_, fun l hl x hx hc hline => ?_⟩
  · obtain ⟨hl, hp⟩ := List.mem_filter.mp hl
    exact ⟨hl, (Bool.and_eq_true_iff.mp hp).1⟩
  · exact List.mem_filter.mpr ⟨hl, Bool.and_eq_true_iff.mpr ⟨hp, bne_iff_ne.mpr hd⟩⟩
  · exact l1_unique hn hl hx ((eq_of_beq hp).trans (eq_of_beq hp').symm) hline
  · have hp := (Bool.and_eq_true_iff.mp (List.mem_filter.mp hx).2).1
    rwa [hc] at hp
theorem takes_one {s : State} (hn : (s.l1.map fun l => (l.core, l.line)).Nodup) {x : L1Line} (hx : x ∈ s.l1) : Takes s (fun l => l == x) [x] := by
  refine ⟨fun l hl => ?_, fun l hl hp _ => ?_, fun l hl y hy hp hp' _ => ?_, fun l hl y hy hc hline => ?_⟩
  · obtain rfl := List.mem_singleton.mp hl
    exact ⟨hx, beq_self_eq_true l⟩
  · exact List.mem_singleton.mpr (eq_of_beq hp)
  · exact (eq_of_beq hp).trans (eq_of_beq hp').symm
  · obtain rfl := List.mem_singleton.mp hy
    exact beq_iff_eq.mpr (l1_unique hn hl hx hc.symm hline.symm)

theorem dirty_ne_zero {l : L1Line} {j : Nat} (h : l.dirty.getLsbD j = true) : l.dirty ≠ 0 := fun h0 => by
  rw [h0] at h
  simp at h
section
variable {s : State} {p : L1Line → Bool} {ls : List L1Line}

theorem Takes.home (h : Takes s p ls) {l : L1Line} (hl : l ∈ s.l1) (hp : p l = true) {j : Nat} (hj : j < 128) (hd : l.dirty.getLsbD j = true) (hlow : 128 * l.line < 2 ^ 45) : homeByte (ls.foldl l1WriteBack s) (128 * l.line + j) = lineByte l.data j := by
  have hofs : (128 * l.line + j) % 128 = j := by omega
  have hhit := (behind_home (128 * l.line + j)).foldl_hit s (h.dirty l hl hp (dirty_ne_zero hd)) ⟨hlow, by omega, by rw [hofs]; exact hd⟩ fun x hx hc => by
    obtain ⟨hx, hpx⟩ := h.sub x hx
    exact h.core x hx l hl hpx hp (hc.2.1.trans (by omega))
  rwa [hofs] at hhit
theorem Takes.host (h : Takes s p ls) {l : L1Line} (hl : l ∈ s.l1) (hp : p l = true) {j : Nat} (hj : j < 128) (hd : l.dirty.getLsbD j = true) (hlow : 2 ^ 45 ≤ 128 * l.line) (hhigh : 128 * l.line < 2 ^ 52) :
    SMap.get (ls.foldl l1WriteBack s).hostMem (128 * l.line - 2 ^ 45 + j) = lineByte l.data j := by
  have hofs : (128 * l.line - 2 ^ 45 + j) % 128 = j := by omega
  have hhit := (behind_host (128 * l.line - 2 ^ 45 + j)).foldl_hit s (h.dirty l hl hp (dirty_ne_zero hd)) ⟨hlow, hhigh, by omega, by rw [hofs]; exact hd⟩ fun x hx hc => by
    obtain ⟨hx, hpx⟩ := h.sub x hx
    obtain ⟨hlow', -, hline, -⟩ := hc
    exact h.core x hx l hl hpx hp (by omega)
  rwa [hofs] at hhit
theorem Takes.others (h : Takes s p ls) {a : Nat} (hno : ∀ l ∈ s.l1, p l = true → l.line = a / 128 → l.dirty.getLsbD (a % 128) = false) : homeByte (ls.foldl l1WriteBack s) a = homeByte s a :=
  (behind_home a).foldl_miss s fun l hl hc => by
    obtain ⟨hl, hp⟩ := h.sub l hl
    exact absurd ((hno l hl hp hc.2.1).symm.trans hc.2.2) Bool.false_ne_true
theorem Takes.lines (h : Takes s p ls) : (ls.foldl l1WriteBack s).l1.map (fun l => { l with writers := [] }) = s.l1.map fun l => { l with dirty := if p l = true then 0 else l.dirty, writers := [] } := by
  rw [foldl_writeBack_l1]
  refine List.map_congr_left fun l hl => ?_
  have hdirty : (if ls.any (fun x => l.core == x.core && l.line == x.line) then 0 else l.dirty) = if p l = true then 0 else l.dirty := by
    by_cases hany : ls.any (fun x => l.core == x.core && l.line == x.line) = true
    · obtain ⟨x, hx, hsame⟩ := List.any_eq_true.mp hany
      obtain ⟨hc, hline⟩ := Bool.and_eq_true_iff.mp hsame
      rw [if_pos hany, if_pos (h.same l hl x hx (eq_of_beq hc).symm (eq_of_beq hline).symm)]
    · rw [if_neg hany]
      split
      · next hp =>
        by_contra hd
        exact hany (List.any_eq_true.mpr ⟨l, h.dirty l hl hp hd, by simp⟩)
      · rfl
  rw [hdirty]
/-- What write-backs of taken lines leave. -/
theorem Takes.leaves (h : Takes s p ls) : let t := ls.foldl l1WriteBack s
    (∀ l ∈ s.l1, p l = true → ∀ j < 128, l.dirty.getLsbD j = true →
      (128 * l.line < 2 ^ 45 → homeByte t (128 * l.line + j) = lineByte l.data j) ∧ (2 ^ 45 ≤ 128 * l.line → 128 * l.line < 2 ^ 52 → SMap.get t.hostMem (128 * l.line - 2 ^ 45 + j) = lineByte l.data j))
    ∧ (∀ a, (∀ l ∈ s.l1, p l = true → l.line = a / 128 → l.dirty.getLsbD (a % 128) = false) → homeByte t a = homeByte s a)
    ∧ t.l1.map (fun l => { l with writers := [] }) = s.l1.map fun l => { l with dirty := if p l = true then 0 else l.dirty, writers := [] } :=
  ⟨fun _ hl hp _ hj hd => ⟨h.home hl hp hj hd, h.host hl hp hj hd⟩, fun _ => h.others, h.lines⟩
end

/-! ### Release and acquire -/

theorem l1Inv_clean {s : State} {core : Nat} {l : L1Line} (hl : l ∈ (l1Inv s core).l1) (hc : l.core = core) (himm : l.imm = false) : l.valid = l.dirty := by
  obtain ⟨hl, -⟩ := List.mem_filter.mp hl
  obtain ⟨x, -, rfl⟩ := List.mem_map.mp hl
  have hcore : x.core = core := by
    split at hc
    · next h => exact h
    · exact hc
  simp only [hcore, if_true, l1Clean] at himm ⊢
  split
  · next h => simp [h] at himm
  · rfl
theorem release_acquire {s : State} {iss : Issuer} {obs : BitVec 7} {core : Nat} (h : issuerCore s iss = some core) :
    (obsBeyondT obs = true → (∀ l ∈ (release s iss obs).l1, l.core = core → l.dirty = 0) ∧ ∀ l ∈ (acquire s iss obs).l1, l.core = core → l.imm = false → l.valid = l.dirty)
    ∧ (obsBeyondT obs = true → release s iss obs = l1Flush s core) ∧ (obsBeyondT obs = false → release s iss obs = s ∧ acquire s iss obs = s) := by
  have hrel : release s iss obs = if obsBeyondT obs then l1Flush s core else s := by simp only [release, h]
  have hacq : acquire s iss obs = if obsBeyondT obs then l1Inv s core else s := by simp only [acquire, h]
  rw [hrel, hacq]
  refine ⟨fun hb => ?_, fun hb => if_pos hb, fun hb => ?_⟩
  · rw [if_pos hb, if_pos hb]
    exact ⟨fun l => l1Flush_clean s core, fun l => l1Inv_clean⟩
  · rw [hb]
    exact ⟨rfl, rfl⟩

/-! ### The instructions -/

section
variable {s : State} {c : WCtx} {f : MF} {l : Nat} {loc : Loc} {a : Nat} {tr : Trans}

theorem issued_l1 (op : WOp) (s : State) (c : WCtx) : (issued op c s).l1 = s.l1 := rfl
theorem l1Find_of_l1 {t : State} (h : t.l1 = s.l1) (core line : Nat) : l1Find t core line = l1Find s core line := by
  rw [l1Find, l1Find, h]
theorem l1wb_exec (hcs : c.cs ≠ []) (hc : warpCtx s (.l1wb f) = some c) (hr : WarpReady (opL1wb f) s c = true) : exec (.l1wb f) s = .next (launched c (.l1wb f) .plain false false (writeBackLines (issued (opL1wb f) c s) c f)) := by
  rw [exec_ready (i := .l1wb f) rfl rfl hc hr, opL1wb]
  dsimp only
  rw [if_neg hcs, launchFlight_eq]
theorem l1inv_exec (hcs : c.cs ≠ []) (hc : warpCtx s (.l1inv f) = some c) (hr : WarpReady (opL1inv f) s c = true) : exec (.l1inv f) s = .next (launched c (.l1inv f) .plain false false (invalidateLines (issued (opL1inv f) c s) c f)) := by
  rw [exec_ready (i := .l1inv f) rfl rfl hc hr, opL1inv]
  dsimp only
  rw [if_neg hcs, launchFlight_eq]
theorem fence_exec (hcs : c.cs ≠ []) (hc : warpCtx s (.fence f) = some c) (hr : WarpReady (opFence f) s c = true) :
    exec (.fence f) s = .next (launched c (.fence f) .plain false false (fenceNow (issued (opFence f) c s) (WCtx_iss c) f.ordr.toNat f.obs)) := by
  rw [exec_ready (i := .fence f) rfl rfl hc hr, opFence]
  dsimp only
  rw [if_neg hcs, launchFlight_eq]
theorem writeBackLines_one {t : State} (hsx : f.sx = 0) (hcs : c.cs = [l]) (hline : lineAt t c f l = some (loc, a, tr)) : writeBackLines t c f = match l1Find t c.k.core (a / 128) with
    | some ln => l1WriteBack t ln
    | none => t := by
  have hne : f.sx ≠ 1 := by rw [hsx]; decide
  simp only [writeBackLines, hne, if_false, hcs, List.foldl_cons, List.foldl_nil, hline] <;> rfl
theorem invalidateLines_one {t : State} (hsx : f.sx = 0) (hcs : c.cs = [l]) (hline : lineAt t c f l = some (loc, a, tr)) : invalidateLines t c f = l1InvLine t c.k.core (a / 128) := by
  have hne : f.sx ≠ 1 := by rw [hsx]; decide
  simp only [invalidateLines, hne, if_false, hcs, List.foldl_cons, List.foldl_nil, hline]
theorem opPf_one (hsx : f.sx = 0) (hcs : c.cs = [l]) (t : State) (hline : lineAt t c f l = some (loc, a, tr)) : (opPf f).eff c t = prefetch t c false (mAddr (passW c l) f .base false l) loc a tr := by
  have hcomb : decide (f.sx = 1) = false := by rw [hsx]; rfl
  simp only [opPf, hcs, List.foldl_cons, List.foldl_nil, hline, hcomb]
theorem pf_exec (hsx : f.sx = 0) (hcs : c.cs = [l]) (hline : lineAt (issued (opPf f) c s) c f l = some (loc, a, tr)) (hc : warpCtx s (.pf f) = some c) (hr : WarpReady (opPf f) s c = true) :
    exec (.pf f) s = .next (prefetch (issued (opPf f) c s) c false (mAddr (passW c l) f .base false l) loc a tr) := by
  rw [exec_ready (i := .pf f) rfl rfl hc hr, opPf_one hsx hcs _ hline]
end

/-! ### Prefetches -/

/-- The line that a prefetch allocates. -/
def emptyLine (core line : Nat) (imm : Bool) : L1Line := { core := core, line := line, valid := 0, dirty := 0, data := 0, synd := 0, imm := imm, key := 0, writers := [] }
theorem touchTlb_l1 (s : State) (iss : Issuer) (va : Nat) (tr : Trans) : (touchTlb s iss va tr).l1 = s.l1 := by
  unfold touchTlb tlbFill
  split
  · split
    · rfl
    · split <;> rfl
  · rfl
theorem combRead_l1 (s : State) (pa n : Nat) (key : BitVec 16) : (combRead s pa n key).l1 = s.l1 := by
  unfold combRead
  split
  · rfl
  · exact foldl_l1 _ _ fun _ _ => rfl
theorem l1Take_absent {s : State} {core line : Nat} (imm : Bool) (h : l1Find s core line = none) : l1Take s core line imm = (emptyLine core line imm, { l1Room s core line with l1 := emptyLine core line imm :: (l1Room s core line).l1 }) := by
  simp only [l1Take, h]
  rfl
theorem l1Find_l1Put (s : State) (l : L1Line) : l1Find (l1Put s l) l.core l.line = some l := by
  simp only [l1Find, l1Put, List.find?_cons, beq_self_eq_true, Bool.and_self]
theorem peerRead_answers {s : State} {pa n : Nat} (h : ∀ k, Config.coin k = false) : ∃ bs, (peerRead s pa n).1 = some bs := by
  simp only [peerRead, h, Bool.false_eq_true, and_false, if_false]
  exact ⟨_, rfl⟩
theorem backRead_answers {s : State} {line : Nat} {key : BitVec 16} (h : ∀ k, Config.coin k = false) : ∃ bs, (backRead s line key).1 = some bs := by
  unfold backRead
  dsimp only
  split
  · exact peerRead_answers h
  · split <;> exact ⟨_, rfl⟩
theorem l1Fill_filled {s : State} {l : L1Line} {key : BitVec 16} {bs : List Byte × List (BitVec 16)} (h : (backRead s l.line key).1 = some bs) :
    ∃ x t, l1Fill s l key = (some x, t) ∧ x.core = l.core ∧ x.line = l.line ∧ x.valid = BitVec.allOnes 128 ∧ x.dirty = l.dirty := by
  unfold l1Fill
  split
  · next heq =>
    rw [heq] at h
    exact absurd h (by simp)
  · exact ⟨_, _, rfl, rfl, rfl, rfl, rfl⟩
/-- The state on which a prefetch of a line that is not held allocates it. -/
def pfRead (s : State) (c : WCtx) (loc : Loc) : State := match loc with
  | .mem pa => if s.comb.any fun x => x.line == pa / 128 then s else combRead s (pa / 128 * 128) 128 (issuerKey s (WCtx_iss c))
  | _ => s
theorem pfRead_l1 (s : State) (c : WCtx) (loc : Loc) : (pfRead s c loc).l1 = s.l1 := by
  unfold pfRead
  split
  · split
    · rfl
    · exact combRead_l1 ..
  · rfl
section
variable {s : State} {c : WCtx} {va a : Nat} {loc : Loc} {tr : Trans}

theorem prefetch_eq (hva : va % 4 = 0) (hsc : tr.sc = false) (hcap : ∀ pa, loc = .mem pa → homeCap s (pa / 16) ≠ .poison) (habs : l1Find s c.k.core (a / 128) = none) :
    let u := { l1Room (pfRead s c loc) c.k.core (a / 128) with l1 := emptyLine c.k.core (a / 128) tr.imm :: (l1Room (pfRead s c loc) c.k.core (a / 128)).l1 }
    prefetch s c false va loc a tr = match l1Fill u (emptyLine c.k.core (a / 128) tr.imm) (issuerKey s (WCtx_iss c)) with
      | (some ln, u) => touchTlb (l1Put u ln) (WCtx_iss c) va tr
      | (none, u) => { u with l1 := u.l1.filter fun x => x.valid ≠ 0 } := by
  have habs' : l1Find (pfRead s c loc) c.k.core (a / 128) = none := by rw [l1Find_of_l1 (pfRead_l1 s c loc), habs]
  have htake := l1Take_absent tr.imm habs'
  have htail : prefetch s c false va loc a tr = (let (ln, u) := l1Take (pfRead s c loc) c.k.core (a / 128) tr.imm
      match l1Fill u ln (issuerKey s (WCtx_iss c)) with
      | (some ln, u) => touchTlb (l1Put u ln) (WCtx_iss c) va tr
      | (none, u) => { u with l1 := u.l1.filter fun x => x.valid ≠ 0 }) := by
    cases loc with
    | mem pa =>
      have hno := hcap pa rfl
      simp only [pfRead] at habs' ⊢
      simp only [prefetch, hva, hsc, hno, habs', ne_eq, not_true_eq_false, decide_false, Bool.or_self, Option.isSome_none, Bool.false_eq_true, if_false] <;> rfl
    | _ =>
      simp only [pfRead] at habs' ⊢
      simp only [prefetch, hva, hsc, habs', ne_eq, not_true_eq_false, decide_false, Bool.or_self, Option.isSome_none, Bool.false_eq_true, if_false] <;> rfl
  rw [htail, htake]
/-- The line of a prefetch stands in the L1, unless what is behind it does not answer. -/
theorem prefetch_fills (hva : va % 4 = 0) (hsc : tr.sc = false) (hcap : ∀ pa, loc = .mem pa → homeCap s (pa / 16) ≠ .poison) (habs : l1Find s c.k.core (a / 128) = none) (hcoin : ∀ k, Config.coin k = false) :
    ∃ x, l1Find (prefetch s c false va loc a tr) c.k.core (a / 128) = some x ∧ x.valid = BitVec.allOnes 128 ∧ x.dirty = 0 := by
  have heq := prefetch_eq hva hsc hcap habs
  dsimp only at heq
  generalize ({ l1Room (pfRead s c loc) c.k.core (a / 128) with l1 := emptyLine c.k.core (a / 128) tr.imm :: (l1Room (pfRead s c loc) c.k.core (a / 128)).l1 } : State) = u at heq
  obtain ⟨bs, hbs⟩ := backRead_answers (s := u) (line := (emptyLine c.k.core (a / 128) tr.imm).line) (key := issuerKey s (WCtx_iss c)) hcoin
  obtain ⟨x, t, hfill, hcore, hline, hvalid, hdirty⟩ := l1Fill_filled hbs
  rw [hfill] at heq
  refine ⟨x, ?_, hvalid, hdirty⟩
  rw [heq, l1Find_of_l1 (touchTlb_l1 ..)]
  have hput := l1Find_l1Put t x
  rwa [hcore, hline] at hput
end

/-- O26 where no peer refuses: each clause holds. -/
theorem cachesAndOrder_of_answers (hcoin : ∀ k, Config.coin k = false) : Obligations.CachesAndOrder := by
  unfold Obligations.CachesAndOrder
  refine ⟨fun s c f hcs => ⟨fun hc hr => ⟨fun hsx => ?_, fun l loc a tr hsx hl hline => ⟨fun ln hln => ?_, fun hln => ?_⟩⟩, fun hc hr => ⟨fun hsx => ?_, fun l loc a tr hsx hl hline => ?_⟩,
      fun l loc a tr hc hr hsx hl hline hsc hva hcap habs => ?_, fun hc hr => ?_⟩, fun s iss obs core h => release_acquire h, fun s t core p hn h => ?_⟩
  · rw [l1wb_exec hcs hc hr, writeBackLines, if_pos hsx]
  · rw [l1wb_exec hcs hc hr, writeBackLines_one hsx hl hline, l1Find_of_l1 (issued_l1 ..), hln]
  · rw [l1wb_exec hcs hc hr, writeBackLines_one hsx hl hline, l1Find_of_l1 (issued_l1 ..), hln]
  · rw [l1inv_exec hcs hc hr, invalidateLines, if_pos hsx]
  · rw [l1inv_exec hcs hc hr, invalidateLines_one hsx hl hline]
  · obtain ⟨x, hx⟩ := prefetch_fills (s := issued (opPf f) c s) hva hsc hcap habs hcoin
    exact ⟨_, x, pf_exec hsx hl hline hc hr, hx⟩
  · exact fence_exec hcs hc hr
  · obtain ⟨rfl, rfl⟩ | ⟨x, hx, rfl, rfl⟩ := h
    · exact (takes_core hn core).leaves
    · exact (takes_one hn hx).leaves

/-! ### A peer that refuses a prefetch -/

theorem peerRead_l1 (s : State) (pa n : Nat) : (peerRead s pa n).2.l1 = s.l1 := by
  rw [peerRead]
  exact (sent_sendMsg ..).l1
theorem backRead_peer_l1 {s : State} {line : Nat} (key : BitVec 16) (h : 2 ^ 52 ≤ 128 * line) : (backRead s line key).2.l1 = s.l1 := by
  rw [backRead, if_pos h, peerRead_l1]
theorem l1Fill_refused {s : State} {l : L1Line} {key : BitVec 16} (h : (backRead s l.line key).1 = none) : l1Fill s l key = (none, (backRead s l.line key).2) := by
  have hsplit : backRead s l.line key = (none, (backRead s l.line key).2) := Prod.ext h rfl
  rw [l1Fill, hsplit]
theorem prefetch_refused {s : State} {c : WCtx} {va pa a : Nat} {tr : Trans} (hva : va % 4 = 0) (hsc : tr.sc = false) (hl1 : s.l1 = []) (hpeer : 2 ^ 52 ≤ 128 * (a / 128))
    (hnone : (backRead { s with l1 := [emptyLine c.k.core (a / 128) tr.imm] } (a / 128) (issuerKey s (WCtx_iss c))).1 = none) : l1Find (prefetch s c false va (.peer pa) a tr) c.k.core (a / 128) = none := by
  have habs : l1Find s c.k.core (a / 128) = none := by rw [l1Find, hl1, List.find?_nil]
  have hroom : l1Room s c.k.core (a / 128) = s := by
    simp only [l1Room, hl1, List.filter_nil, List.length_nil, Nat.ofNat_pos, if_true]
  have heq := prefetch_eq (loc := .peer pa) hva hsc (fun _ h => nomatch h) habs
  have hread : pfRead s c (.peer pa) = s := rfl
  rw [hread, hroom, hl1] at heq
  dsimp only at heq
  have hkept := backRead_peer_l1 (s := { s with l1 := [emptyLine c.k.core (a / 128) tr.imm] }) (issuerKey s (WCtx_iss c)) hpeer
  rw [heq, l1Fill_refused (l := emptyLine c.k.core (a / 128) tr.imm) hnone, l1Find]
  dsimp only [emptyLine] at hkept ⊢
  rw [hkept]
  simp only [ne_eq, not_true_eq_false, decide_false, List.filter_cons, Bool.false_eq_true, if_false, List.filter_nil, List.find?_nil]
theorem sendMsg_waits {s : State} {dst p : Nat} {kind : BitVec 6} {pg aux : Nat} {seq : BitVec 16} {x : Port} (hroute : portFor s dst none = some p) (hport : findPort s p = some x) (hq : x.queue ≠ []) : (sendMsg s dst kind pg seq aux []).fresh = s.fresh := by
  simp only [sendMsg, postMsg, cutMsg, List.length_nil, Nat.zero_le, if_true, List.foldl_cons, List.foldl_nil, routeMsg, hroute, offerPort, hport, ne_eq, hq, not_false_eq_true, true_or]
  rfl
/-- A page of device 1, mapped from VA 0x40000000. -/
def awayPage : TlbEntry := { Tests.page with pa := 2 ^ 46 }
/-- A message that waits for room at the port to device 1. -/
def waitingMsg : Msg := { dst := 1, kind := 1, page := 0, seq := 0, aux := 0, data := [] }
/-- One thread prefetches from device 1, whose link is up. -/
def awayState : State :=
  { Tests.one Tests.base with tlb := [awayPage], mregs := SMap.set (SMap.set Tests.base.mregs (Reg.DOMAIN / 8) 3) ((Reg.ROUTE + 8) / 8) 1, ports := [{ Port.reset 0 with up := true, queue := [waitingMsg] }] }
/-- `pf` of the address in v16:v17. -/
def awayPf : MF := Tests.mx 0 16 0
/-- Its context. -/
def awayCtx : WCtx := (warpCtx awayState (.pf awayPf)).get (by decide +kernel)
/-- The translation of its address. -/
def awayTrans : Trans := { pa := 2 ^ 46 + 0x1000, size := 0x40000000, priv := false, imm := false, sc := false, x := true, w := true }

theorem away_ctx : warpCtx awayState (.pf awayPf) = some awayCtx := by rw [awayCtx, Option.some_get]
theorem away_ready : WarpReady (opPf awayPf) awayState awayCtx = true := by decide +kernel
theorem away_line : lineAt (issued (opPf awayPf) awayCtx awayState) awayCtx awayPf 0 = some (.peer awayTrans.pa, 2 ^ 52 + awayTrans.pa, awayTrans) := by decide +kernel
theorem away_aligned : mAddr (passW awayCtx 0) awayPf .base false 0 % 4 = 0 := by decide +kernel
theorem away_alone : awayCtx.cs = [0] := by decide +kernel
/-- The state in which the line is read from the peer. -/
def awayRead : State := { issued (opPf awayPf) awayCtx awayState with l1 := [emptyLine awayCtx.k.core ((2 ^ 52 + awayTrans.pa) / 128) awayTrans.imm] }
theorem away_refused (h : Config.coin 0 = true) : (backRead awayRead ((2 ^ 52 + awayTrans.pa) / 128) (issuerKey (issued (opPf awayPf) awayCtx awayState) (WCtx_iss awayCtx))).1 = none := by
  have hroute : portFor awayRead (peerDev awayRead awayTrans.pa) none = some 0 := by decide +kernel
  have hport : findPort awayRead 0 = some { Port.reset 0 with up := true, queue := [waitingMsg] } := by decide +kernel
  have hfresh : (sendMsg awayRead (peerDev awayRead awayTrans.pa) 1 awayTrans.pa 0 128 []).fresh = 0 := (sendMsg_waits hroute hport (by decide)).trans (by decide +kernel)
  have haway : awayTrans.pa / 2 ^ 46 ≠ ownDev awayRead := by decide +kernel
  have hline : 128 * ((2 ^ 52 + awayTrans.pa) / 128) - 2 ^ 52 = awayTrans.pa := by decide
  rw [backRead, if_pos (by decide), hline, peerRead]
  dsimp only
  rw [hfresh, if_pos ⟨haway, h⟩]
/-- O26 leaves no choice to the peer that answers this prefetch: it cannot refuse. -/
theorem coin_of_cachesAndOrder (h : Obligations.CachesAndOrder) : Config.coin 0 = false := by
  by_contra hcoin
  have hrefused := away_refused (Bool.eq_true_of_not_eq_false hcoin)
  obtain ⟨t, x, hexec, hfind, -⟩ := (h.1 awayState awayCtx awayPf (by rw [away_alone]; decide)).2.2.1 0 _ _ _ away_ctx away_ready rfl away_alone away_line rfl away_aligned (fun _ h => nomatch h) rfl
  rw [pf_exec rfl away_alone away_line away_ctx away_ready] at hexec
  obtain rfl := Host.Outcome.next.inj hexec
  have hnone := prefetch_refused (s := issued (opPf awayPf) awayCtx awayState) (c := awayCtx) (pa := awayTrans.pa) (tr := awayTrans) away_aligned rfl rfl (by decide) hrefused
  rw [hnone] at hfind
  exact absurd hfind (by simp)
end Sys2Proof.Machine
end
